-- ==== Sys2Proof/Word.lean ====
section
/-! DEFINITION. The word types of the JM4 model and the keyed files in which it holds indexed state. -/
namespace Sys2Proof

/-- A 64-bit hart word (R64). -/
abbrev Word := BitVec 64

/-- The 32 bits that one lane holds of one lane register (R11). -/
abbrev Lane := BitVec 32

/-- A mask over the 32 lanes of a hart; bit `i` stands for lane `i` (R64). -/
abbrev Mask := BitVec 32

/-- One byte of memory. -/
abbrev Byte := BitVec 8

/-- The number of a scalar register, x0 to x31 or f0 to f31. -/
abbrev XReg := BitVec 5

/-- The number of a mask register, m0 to m15. -/
abbrev MReg := BitVec 4

/-- A 10-bit lane operand field (R42). -/
abbrev LOp := BitVec 10

/-- Indexed state as plain data: keys strictly rising, and no entry equal to what an unlisted key reads as. The two
operations over it, and the canonical form they keep, are in `Machine/Files.lean`. -/
abbrev File (β : Type) := List (Nat × β)

end Sys2Proof
end

