-- ==== Sys2Proof/Config.lean ====
section
/-! DEFINITION. What the spec leaves open: constants without a body, so that no proof can see their values. Each is named
in the assumption log. -/
namespace Sys2Proof

/-- Nanoseconds that the step with this number takes (log 3). -/
opaque Config.elapsed : Nat → Nat

/-- A choice that the spec leaves to the machine, by the number of the step and a tag for the choice: a kind below 4,096, and an
index times 4,096 where several such choices can fall in one step (logs 2, 10 to 14, 16, 47). -/
opaque Config.freeBit : Nat → Nat → Bool

/-- A number that the spec leaves open, by the number of the step and a tag made in the same way (logs 2, 15, 17, 20, 21, 33, 39). -/
opaque Config.freeNat : Nat → Nat → Nat

/-- What a byte reads as under a key that did not write it: key, version and byte address (R372, log 19). -/
opaque Config.noise : Nat → Nat → Nat → BitVec 8

/-- `vexp2` outside its exact cases (R122, R123, log 9). -/
opaque Config.exp2 : BitVec 32 → BitVec 32

/-- `vlog2` outside its exact cases (R122, R123, log 9). -/
opaque Config.log2 : BitVec 32 → BitVec 32

/-- `vsin` of a non-negative argument outside its exact cases (R122, R123, log 9). -/
opaque Config.sinTurns : BitVec 32 → BitVec 32

/-- `vcos` of a non-negative argument outside its exact cases (R122, R123, log 9). -/
opaque Config.cosTurns : BitVec 32 → BitVec 32

/-- `vtanh` of a non-negative argument outside its exact cases (R122, R123, log 9). -/
opaque Config.tanh : BitVec 32 → BitVec 32

/-- The announce interval of the PTP master, in ns (R349, log 60). -/
opaque Config.announceInterval : Nat

/-- The replacement line and the reply of a loaded routine: routine, the target's place in its line, operands, and the line it was sent to
(R345, log 17). -/
opaque Config.loadedRoutine : Nat → Nat → Nat → Nat → List (BitVec 8) → List (BitVec 8) × BitVec 64

/-- The attestation signature over a digest, under the key in the module's fuses (R376, log 18). -/
opaque Config.signature : List (BitVec 8) → List (BitVec 8)

/-- The firmware image on module flash when the model's run begins (R385, log 18). -/
opaque Config.flashImage : List (BitVec 8)

/-- The security version and the code length of an image's 64-byte header, whose layout the spec does not give (R385, log 18). -/
opaque Config.imageHeader : List (BitVec 8) → Nat × Nat

/-- The fused security version (R385, log 18). -/
opaque Config.fusedVersion : Nat

/-- Does an image's signature verify against the fused public key (R385, log 18)? -/
opaque Config.imageSigned : List (BitVec 8) → Bool

/-- The module identity certificate (R375, log 18). -/
opaque Config.certificate : List (BitVec 8)

end Sys2Proof
end

