-- ==== Sys2Proof/Syntax.lean ====
section
/-! DEFINITION. The instructions and events of the JM4, one constructor of `Instr` per row of the opcode table. -/
namespace Sys2Proof

/-- Rounding modes (R18). -/
inductive Rm where
  | rne | rtz | rdn | rup | rmm | dyn
  deriving DecidableEq, Repr

/-- The integer type code ity of the two-source format (R45). -/
inductive Ity where
  | s32 | n32 | s16 | n16 | s8 | n8 | s64 | n64
  deriving DecidableEq, Repr

/-- The 4-bit type code tc (R45). -/
inductive Tc where
  | s32 | n32 | f32 | s16 | n16 | f16 | bf16 | s8 | n8 | e4m3 | e5m2 | e2m1 | s64 | n64
  deriving DecidableEq, Repr

/-- A lane float form: f32 under a rounding mode, or a packed half-precision pair, which rounds RNE (R46, R47). -/
inductive FForm where
  | f32 (rm : Rm) | h2 | b2
  deriving DecidableEq, Repr

/-- The types of `vneg` and `vabs` (R49). -/
inductive NegTy where
  | s32 | f32 | h2 | b2
  deriving DecidableEq, Repr

/-- The element types of `vdp4` (R46). -/
inductive Dp4Ty where
  | s8 | n8 | e4m3 | e5m2
  deriving DecidableEq, Repr

/-- Compare conditions (R47). -/
inductive Cond where
  | eq | ne | lt | ge | gt | le | ord | uno
  deriving DecidableEq, Repr

/-- The four conversions of `vpack` (R119). -/
inductive PackTy where
  | s16 | n16 | f16 (rm : Rm) (sat : Bool) | bf16 (rm : Rm) (sat : Bool)
  deriving DecidableEq, Repr

/-- Access widths of the memory format (R51). -/
inductive Width where
  | n8 | s8 | n16 | s16 | w | d | q
  deriving DecidableEq, Repr

/-- Memory orderings (R51). -/
inductive Ordering4 where
  | rlx | acq | rel | sc
  deriving DecidableEq, Repr

/-- Scopes (R51, R312). -/
inductive Scope where
  | hart | team | clus | die | pkg | sys
  deriving DecidableEq, Repr

/-- Cache hints (R51). -/
inductive Hint where
  | normal | str | l2
  deriving DecidableEq, Repr

/-- The three tile-store buffers (R192). -/
inductive TBuf where
  | act | wgt | acc
  deriving DecidableEq, Repr

/-- Sub-group widths 2 to 32 (R146). -/
inductive SubW where
  | g2 | g4 | g8 | g16 | g32
  deriving DecidableEq, Repr

/-- The types of scans and of the arithmetic `vlred` forms (R150, R151). -/
inductive ScanTy where
  | s32 | n32 | f32
  deriving DecidableEq, Repr

/-- Types of lane atomics and reductions (R53). -/
inductive ATy where
  | s32 | n32 | s64 | n64 | f32 | b2 | h2
  deriving DecidableEq, Repr

/-- Types of the float adds that `vmred.add.ord` takes (R53). -/
inductive OrdTy where
  | f32 | b2 | h2
  deriving DecidableEq, Repr

/-- The lane that `vext` and `vins` select: an immediate, or the low bits of an x register (R152). -/
inductive LaneSel where
  | imm (i : BitVec 5) | reg (x : XReg)
  deriving DecidableEq, Repr

/-- The header of a lane word: reuse hints and predicate (R41). -/
structure LaneHdr where
  rb : Bool
  ra : Bool
  pn : Bool
  pm : MReg
  deriving DecidableEq, Repr

/-- The modifier of the global memory forms (R51). -/
structure MemMod where
  width : Width
  ord   : Ordering4
  scope : Scope
  hint  : Hint
  deriving DecidableEq, Repr

/-- Register-register ALU operations of RV64IM, Zba, Zbb, Zbs, Zbc and Zicond (R33). -/
inductive AluOp where
  | add | sub | sll | slt | sltu | xor | srl | sra | or | and
  | addw | subw | sllw | srlw | sraw
  | mul | mulh | mulhsu | mulhu | div | divu | rem | remu
  | mulw | divw | divuw | remw | remuw
  | adduw | sh1add | sh2add | sh3add | sh1adduw | sh2adduw | sh3adduw
  | andn | orn | xnor | max | maxu | min | minu | rol | ror | rolw | rorw
  | bclr | bext | binv | bset | clmul | clmulh | clmulr | czeroEqz | czeroNez
  deriving DecidableEq, Repr

/-- Immediate ALU operations with a 12-bit immediate. -/
inductive AluImm where
  | addi | slti | sltiu | xori | ori | andi | addiw
  deriving DecidableEq, Repr

/-- Immediate shift and single-bit operations. -/
inductive ShiftImm where
  | slli | srli | srai | slliw | srliw | sraiw | rori | roriw | slliuw | bclri | bexti | binvi | bseti
  deriving DecidableEq, Repr

/-- Unary operations of Zbb. -/
inductive UnOp where
  | clz | ctz | cpop | clzw | ctzw | cpopw | sextb | sexth | zexth | orcb | rev8
  deriving DecidableEq, Repr

/-- Scalar branch conditions. -/
inductive BrCond where
  | beq | bne | blt | bge | bltu | bgeu
  deriving DecidableEq, Repr

/-- Fused multiply-add families of the F and D extensions. -/
inductive FmaOp where
  | madd | msub | nmsub | nmadd
  deriving DecidableEq, Repr

/-- Two-source arithmetic of the F and D extensions. -/
inductive FBinOp where
  | add | sub | mul | div
  deriving DecidableEq, Repr

/-- Sign injection. -/
inductive SgnOp where
  | j | jn | jx
  deriving DecidableEq, Repr

/-- Float compares. -/
inductive FCmpOp where
  | eq | lt | le
  deriving DecidableEq, Repr

/-- Integer sides of the float conversions. -/
inductive IntTy where
  | w | wu | l | lu
  deriving DecidableEq, Repr

/-- Scalar loads. -/
inductive LoadKind where
  | lb | lh | lw | ld | lbu | lhu | lwu | flw | fld
  deriving DecidableEq, Repr

/-- Scalar stores. -/
inductive StoreKind where
  | sb | sh | sw | sd | fsw | fsd
  deriving DecidableEq, Repr

/-- Scalar atomics, LR and SC. -/
inductive AmoOp where
  | lr | sc | swap | add | xor | and | or | min | max | minu | maxu
  deriving DecidableEq, Repr

/-- Zicsr operations. -/
inductive CsrOp where
  | rw | rs | rc
  deriving DecidableEq, Repr

/-- The standard instructions that are no load, store, AMO, fence, CSR access or wait, and the words that are no
instruction at all (the opcode table's row STANDARD_INSTRUCTION). Offsets are held without their constant zero bit. -/
inductive Std where
  | lui    (rd : XReg) (imm : BitVec 20)
  | auipc  (rd : XReg) (imm : BitVec 20)
  | jal    (rd : XReg) (off : BitVec 20)
  | jalr   (rd rs1 : XReg) (imm : BitVec 12)
  | branch (c : BrCond) (rs1 rs2 : XReg) (off : BitVec 12)
  | alu    (op : AluOp) (rd rs1 rs2 : XReg)
  | aluImm (op : AluImm) (rd rs1 : XReg) (imm : BitVec 12)
  | shift  (op : ShiftImm) (rd rs1 : XReg) (sh : BitVec 6)
  | un     (op : UnOp) (rd rs1 : XReg)
  | fma    (op : FmaOp) (dbl : Bool) (rm : Rm) (rd rs1 rs2 rs3 : XReg)
  | fbin   (op : FBinOp) (dbl : Bool) (rm : Rm) (rd rs1 rs2 : XReg)
  | fsqrt  (dbl : Bool) (rm : Rm) (rd rs1 : XReg)
  | fsgnj  (op : SgnOp) (dbl : Bool) (rd rs1 rs2 : XReg)
  | fminmax (max dbl : Bool) (rd rs1 rs2 : XReg)
  | fcmp   (op : FCmpOp) (dbl : Bool) (rd rs1 rs2 : XReg)
  | fclass (dbl : Bool) (rd rs1 : XReg)
  | fcvtFF (toD : Bool) (rm : Rm) (rd rs1 : XReg)
  | fcvtFI (dbl : Bool) (ty : IntTy) (rm : Rm) (rd rs1 : XReg)
  | fcvtIF (dbl : Bool) (ty : IntTy) (rm : Rm) (rd rs1 : XReg)
  | fmvXF  (dbl : Bool) (rd rs1 : XReg)
  | fmvFX  (dbl : Bool) (rd rs1 : XReg)
  | ecall
  | ebreak
  | pause
  | illegal (bits : Word)
  deriving DecidableEq, Repr

/-- A barrier domain (R229). -/
inductive DomKey where
  | team (t : Nat) | die (d n : Nat) | pkg (n : Nat)
  deriving DecidableEq, Repr

/-- What an external debugger asks for (R382). -/
inductive DebugReq where
  | halt (g : Nat) | abstract (g reg : Nat) (v : Option Word) | sysbus (pa : Nat) (v : Option Word)
  deriving DecidableEq, Repr

/-- What the power manager is asked for (R383). -/
inductive PowerReq where
  | coreActive (c : Nat) | coreIdle (c : Nat) | coreRetention (c : Nat) | coreOff (c : Nat)
  | packageActive | packageStandby | packageOff
  deriving DecidableEq, Repr

/-- An access of `size` bytes by an agent outside (R393, R397). -/
structure Access where
  pa   : Nat
  size : Nat
  deriving DecidableEq, Repr

/-- Every step of the machine: one constructor per row of spec/opcode_table.json. Instructions and the events that carry
operands stand in the table's order; events without operands follow at the end (Lean's runtime gives no more than 244
constructors a tag that can carry data). Rows that are no instruction are events: their operands carry what the outside
world or the firmware's policy supplies, and an event that acts on one core, request, hart or other object acts on the
one that `State.sel` selects. Harts are named by global hart id, cores by 192 × die + core, requests by the number they
got at issue. -/
inductive Instr where
  -- control and scheduling (R84)
  | hexit
  | yield
  | spawn (rd rs1 rs2 : XReg)
  | cont (rs1 rs2 : XReg)
  | rgrow (rd rs1 : XReg)
  | rshrink (rs1 : XReg)
  | uiret
  | lbfence
  | uimask (n : BitVec 12)
  | hloop (lvl : Bool) (rs1 : XReg) (len : BitVec 12)
  | hloopi (lvl : Bool) (count : BitVec 12) (len : BitVec 10)
  | loopCsrWrite (op : CsrOp) (imm : Bool) (csr : BitVec 12) (rd src : XReg)
  | csrAccess (op : CsrOp) (imm : Bool) (csr : BitVec 12) (rd src : XReg)
  -- synchronisation (R179, R232)
  | barArr (rs1 : XReg) (imm : BitVec 12)
  | barWait (rs1 : XReg) (imm : BitVec 12)
  | barTry (rd rs1 : XReg) (imm : BitVec 12)
  | barArw (rs1 : XReg) (imm : BitVec 12)
  | barCfg (rs1 rs2 : XReg)
  | barrierPhaseComplete (dom : DomKey)
  | semSig (rs1 rs2 : XReg)
  | semWait (rs1 rs2 : XReg)
  | semTry (rd rs1 rs2 : XReg)
  | mtxLock (rs1 : XReg)
  | mtxTry (rd rs1 : XReg)
  | mtxFree (rs1 : XReg)
  | msend (rs1 rs2 : XReg) (idx : BitVec 5)
  | mrecv (rd : XReg) (idx : BitVec 5)
  | mtry (rd : XReg) (idx : BitVec 5)
  -- asynchronous engines (R197, R238, R246, R330)
  | cpy (rd rs1 : XReg)
  | mxpush (rs1 rs2 : XReg)
  | mxfence
  | strmCfg (ss : BitVec 2) (rs1 : XReg)
  | strmEnd (ss : BitVec 2)
  | streamRefill (g : Nat) (ss : BitVec 2)
  | dqSearch (rs1 rs2 : XReg)
  | dqCancel (rs1 : XReg)
  | dqShip (routine : BitVec 6) (rd rs1 rs2 : XReg)
  | cwait (cls : BitVec 2) (n : BitVec 12)
  | ctry (rd : XReg) (cls : BitVec 2) (n : BitVec 12)
  -- queues (R279)
  | qinit (rs1 rs2 : XReg)
  | qenqX (rs1 rs2 : XReg)
  | qdeqX (rd rs1 : XReg)
  | qenqM (rs1 rs2 : XReg)
  | qdeqM (rs1 rs2 : XReg)
  | qtenq (rd rs1 rs2 : XReg)
  | qtdeq (rd rs1 rs2 : XReg)
  | qrsv (rd rs1 : XReg)
  | qcmt (rs1 rs2 : XReg)
  | qstat (rd rs1 : XReg)
  | qdrain (rd rs1 : XReg)
  -- masks and divergence (R154)
  | mdiv (k : MReg)
  | melse (k : MReg)
  | mjoin
  | mrejoin
  | mpush
  | mpop
  | mrd (rd rs1 : XReg)
  | mwr (rs1 rs2 : XReg)
  | bmany (k : MReg) (off : BitVec 12)
  | bmall (k : MReg) (off : BitVec 12)
  | bmnone (k : MReg) (off : BitVec 12)
  | wrCommit (rs1 : XReg)
  | wrDone
  | wrDrop
  | lrel (rs1 : XReg)
  -- lane arithmetic, three-source (R46)
  | vfma (p : LaneHdr) (f : FForm) (vd va vb vc : LOp)
  | vfms (p : LaneHdr) (f : FForm) (vd va vb vc : LOp)
  | vfnma (p : LaneHdr) (f : FForm) (vd va vb vc : LOp)
  | vfnms (p : LaneHdr) (f : FForm) (vd va vb vc : LOp)
  | vdp2 (p : LaneHdr) (bf : Bool) (vd va vb vc : LOp)
  | vdp4 (p : LaneHdr) (t : Dp4Ty) (vd va vb vc : LOp)
  | vmad (p : LaneHdr) (unsgn : Bool) (vd va vb vc : LOp)
  | vmadh (p : LaneHdr) (unsgn : Bool) (vd va vb vc : LOp)
  | vsel (p : LaneHdr) (vd va vb vc : LOp)
  | vbfi (p : LaneHdr) (vd va vb vc : LOp)
  | vfunnel (p : LaneHdr) (vd va vb vc : LOp)
  -- lane arithmetic, two-source (R47)
  | vadd (p : LaneHdr) (t : Ity) (vd va vb : LOp)
  | vsub (p : LaneHdr) (t : Ity) (vd va vb : LOp)
  | vmul (p : LaneHdr) (t : Ity) (vd va vb : LOp)
  | vmulh (p : LaneHdr) (t : Ity) (vd va vb : LOp)
  | vmin (p : LaneHdr) (t : Ity) (vd va vb : LOp)
  | vmax (p : LaneHdr) (t : Ity) (vd va vb : LOp)
  | vabsd (p : LaneHdr) (t : Ity) (vd va vb : LOp)
  | vadds (p : LaneHdr) (t : Ity) (vd va vb : LOp)
  | vsubs (p : LaneHdr) (t : Ity) (vd va vb : LOp)
  | vfadd (p : LaneHdr) (f : FForm) (vd va vb : LOp)
  | vfsub (p : LaneHdr) (f : FForm) (vd va vb : LOp)
  | vfmul (p : LaneHdr) (f : FForm) (vd va vb : LOp)
  | vfmin (p : LaneHdr) (f : FForm) (vd va vb : LOp)
  | vfmax (p : LaneHdr) (f : FForm) (vd va vb : LOp)
  | vand (p : LaneHdr) (vd va vb : LOp)
  | vor (p : LaneHdr) (vd va vb : LOp)
  | vxor (p : LaneHdr) (vd va vb : LOp)
  | vandn (p : LaneHdr) (vd va vb : LOp)
  | vsll (p : LaneHdr) (vd va vb : LOp)
  | vsrl (p : LaneHdr) (vd va vb : LOp)
  | vsra (p : LaneHdr) (vd va vb : LOp)
  | vrol (p : LaneHdr) (vd va vb : LOp)
  | vcmp (p : LaneHdr) (c : Cond) (unsgn : Bool) (md : MReg) (va vb : LOp)
  | vfcmp (p : LaneHdr) (c : Cond) (md : MReg) (va vb : LOp)
  | vpack (p : LaneHdr) (t : PackTy) (vd va vb : LOp)
  | vperm (p : LaneHdr) (vd va vb : LOp)
  | vclmulN32 (bits : Word)
  -- lane arithmetic, unary and convert (R49)
  | vmov (p : LaneHdr) (vd va : LOp)
  | vnot (p : LaneHdr) (vd va : LOp)
  | vbrev (p : LaneHdr) (vd va : LOp)
  | vclz (p : LaneHdr) (vd va : LOp)
  | vctz (p : LaneHdr) (vd va : LOp)
  | vpopc (p : LaneHdr) (vd va : LOp)
  | vneg (p : LaneHdr) (t : NegTy) (vd va : LOp)
  | vabs (p : LaneHdr) (t : NegTy) (vd va : LOp)
  | vrcp (p : LaneHdr) (vd va : LOp)
  | vrsqrt (p : LaneHdr) (vd va : LOp)
  | vsqrt (p : LaneHdr) (rm : Rm) (vd va : LOp)
  | vexp2 (p : LaneHdr) (vd va : LOp)
  | vlog2 (p : LaneHdr) (vd va : LOp)
  | vsin (p : LaneHdr) (vd va : LOp)
  | vcos (p : LaneHdr) (vd va : LOp)
  | vtanh (p : LaneHdr) (vd va : LOp)
  | vfrac (p : LaneHdr) (vd va : LOp)
  | vrnd (p : LaneHdr) (rm : Rm) (vd va : LOp)
  | vfclass (p : LaneHdr) (vd va : LOp)
  | vcvt (p : LaneHdr) (dst src : Tc) (rm : Rm) (sat : Bool) (vd va : LOp)
  | vcvtSr (p : LaneHdr) (dst : Tc) (sat : Bool) (vd va : LOp)
  | vunpack (p : LaneHdr) (src : Tc) (j : BitVec 3) (vd va : LOp)
  -- lane arithmetic, immediate (R50)
  | vmovi (p : LaneHdr) (imm : BitVec 20) (vd : LOp)
  | vaddi (p : LaneHdr) (imm : BitVec 20) (vd va : LOp)
  | vandi (p : LaneHdr) (imm : BitVec 20) (vd va : LOp)
  | vori (p : LaneHdr) (imm : BitVec 20) (vd va : LOp)
  | vxori (p : LaneHdr) (imm : BitVec 20) (vd va : LOp)
  | vslli (p : LaneHdr) (sh : BitVec 5) (vd va : LOp)
  | vsrli (p : LaneHdr) (sh : BitVec 5) (vd va : LOp)
  | vsrai (p : LaneHdr) (sh : BitVec 5) (vd va : LOp)
  | vmuli (p : LaneHdr) (imm : BitVec 20) (vd va : LOp)
  | vcmpi (p : LaneHdr) (c : Cond) (unsgn : Bool) (imm : BitVec 20) (md : MReg) (va : LOp)
  -- lane memory (R51)
  | vld (p : LaneHdr) (m : MemMod) (vd va vb : LOp)
  | vst (p : LaneHdr) (m : MemMod) (vd va vb : LOp)
  | vldx (p : LaneHdr) (m : MemMod) (vd va : LOp)
  | vstx (p : LaneHdr) (m : MemMod) (vd va : LOp)
  | vldB (p : LaneHdr) (m : MemMod) (vd vb : LOp)
  | vlds (p : LaneHdr) (wd : Width) (vd va vb : LOp)
  | vsts (p : LaneHdr) (wd : Width) (vd va vb : LOp)
  | vldt (p : LaneHdr) (quad : Bool) (buf : TBuf) (vd va vb : LOp)
  | vstt (p : LaneHdr) (quad : Bool) (buf : TBuf) (vd va vb : LOp)
  | vpf (p : LaneHdr) (scope : Scope) (hint : Hint) (va vb : LOp)
  | vstRdc (p : LaneHdr) (wd : Width) (cnt : BitVec 8) (vd va vb : LOp)
  | vexit (p : LaneHdr)
  -- cross-lane (R52)
  | vshflIdx (p : LaneHdr) (w : SubW) (vd va vb : LOp)
  | vshflUp (p : LaneHdr) (w : SubW) (vd va vb : LOp)
  | vshflDown (p : LaneHdr) (w : SubW) (vd va vb : LOp)
  | vshflXor (p : LaneHdr) (w : SubW) (vd va vb : LOp)
  | vvoteAny (p : LaneHdr) (w : SubW) (md : MReg) (va : LOp)
  | vvoteAll (p : LaneHdr) (w : SubW) (md : MReg) (va : LOp)
  | vvoteMask (p : LaneHdr) (w : SubW) (vd va : LOp)
  | vmatch (p : LaneHdr) (dbl : Bool) (w : SubW) (vd va : LOp)
  | vscanAdd (p : LaneHdr) (t : ScanTy) (exc : Bool) (w : SubW) (vd va : LOp)
  | vscanMin (p : LaneHdr) (t : ScanTy) (exc : Bool) (w : SubW) (vd va : LOp)
  | vscanMax (p : LaneHdr) (t : ScanTy) (exc : Bool) (w : SubW) (vd va : LOp)
  | vlredAdd (p : LaneHdr) (t : ScanTy) (xd : XReg) (va : LOp)
  | vlredMin (p : LaneHdr) (t : ScanTy) (xd : XReg) (va : LOp)
  | vlredMax (p : LaneHdr) (t : ScanTy) (xd : XReg) (va : LOp)
  | vlredAnd (p : LaneHdr) (xd : XReg) (va : LOp)
  | vlredOr (p : LaneHdr) (xd : XReg) (va : LOp)
  | vlredXor (p : LaneHdr) (xd : XReg) (va : LOp)
  | vext (p : LaneHdr) (sel : LaneSel) (xd : XReg) (va : LOp)
  | vins (p : LaneHdr) (sel : LaneSel) (vd : LOp) (xs : XReg)
  -- lane atomics, reductions and queue forms (R53)
  | vamoAdd (p : LaneHdr) (t : ATy) (o : Ordering4) (sc : Scope) (xb : XReg) (vd va vb : LOp)
  | vamoMin (p : LaneHdr) (t : ATy) (o : Ordering4) (sc : Scope) (xb : XReg) (vd va vb : LOp)
  | vamoMax (p : LaneHdr) (t : ATy) (o : Ordering4) (sc : Scope) (xb : XReg) (vd va vb : LOp)
  | vamoAnd (p : LaneHdr) (t : ATy) (o : Ordering4) (sc : Scope) (xb : XReg) (vd va vb : LOp)
  | vamoOr (p : LaneHdr) (t : ATy) (o : Ordering4) (sc : Scope) (xb : XReg) (vd va vb : LOp)
  | vamoXor (p : LaneHdr) (t : ATy) (o : Ordering4) (sc : Scope) (xb : XReg) (vd va vb : LOp)
  | vamoXchg (p : LaneHdr) (t : ATy) (o : Ordering4) (sc : Scope) (xb : XReg) (vd va vb : LOp)
  | vamoCas (p : LaneHdr) (t : ATy) (o : Ordering4) (sc : Scope) (xb : XReg) (vd va vb : LOp)
  | vmredAdd (p : LaneHdr) (t : ATy) (o : Ordering4) (sc : Scope) (xb : XReg) (vd va : LOp)
  | vmredMin (p : LaneHdr) (t : ATy) (o : Ordering4) (sc : Scope) (xb : XReg) (vd va : LOp)
  | vmredMax (p : LaneHdr) (t : ATy) (o : Ordering4) (sc : Scope) (xb : XReg) (vd va : LOp)
  | vmredAnd (p : LaneHdr) (t : ATy) (o : Ordering4) (sc : Scope) (xb : XReg) (vd va : LOp)
  | vmredOr (p : LaneHdr) (t : ATy) (o : Ordering4) (sc : Scope) (xb : XReg) (vd va : LOp)
  | vmredXor (p : LaneHdr) (t : ATy) (o : Ordering4) (sc : Scope) (xb : XReg) (vd va : LOp)
  | vmredAddOrd (p : LaneHdr) (t : OrdTy) (o : Ordering4) (sc : Scope) (xb : XReg) (vd va : LOp)
  | vqenq (p : LaneHdr) (dbl : Bool) (xq : XReg) (vd : LOp)
  | vqdeq (p : LaneHdr) (dbl : Bool) (xq : XReg) (vd : LOp)
  | vqtdeq (p : LaneHdr) (dbl : Bool) (ms : MReg) (xq : XReg) (vd : LOp)
  -- standard instructions with steps of their own (R33)
  | hartLoad (k : LoadKind) (rd rs1 : XReg) (imm : BitVec 12)
  | hartStore (k : StoreKind) (rs1 rs2 : XReg) (imm : BitVec 12)
  | hartAmo (op : AmoOp) (dbl aq rl : Bool) (rd rs1 rs2 : XReg)
  | fence (fm pred succ : BitVec 4)
  | fenceI
  | sfenceVma (rs1 rs2 : XReg)
  | wfi
  | wrsNto
  | wrsSto
  | xret (mret : Bool)
  -- memory system and queues of a die (R256 to R290)
  | tlbsdShootdown (die : Nat) (v : Word)
  | notify (die page : Nat) (v : Word)
  | npbindWrite (die page : Nat) (v : Word)
  -- losing and repairing a core (R304, R305), counters, links and memory health
  | coreUncorrectableError (core cause : Nat)
  | coreTestDone (core : Nat) (pass : Bool)
  | torusLinkStop (cluster link : Nat)
  | hbmEccEvent (line : Nat) (uncorrected : Bool)
  | bpadd (v : Word)
  -- Dredge queries and shipped functions (R333 to R345)
  | listRequest (uid stack : Nat)
  | listReply (uid stack : Nat)
  | evalRequest (uid stack : Nat)
  | evalReply (uid stack : Nat)
  -- time (R349, R350)
  | ptpMessage (time delay : Word)
  | tmsetWrite (v : Word)
  -- Polders, debug, power and firmware (R371 to R388)
  | pcownWrite (core : Nat) (v : Word)
  | kflush (v : Word)
  | kszero (v : Word)
  | debugStateSet (st : BitVec 2)
  | debugHaltRequest (r : DebugReq)
  | powerStateRequest (r : PowerReq)
  | bringUp (fails : Bool)
  | recoveryImage (img : List Byte)
  -- host and fabric (R395 to R404)
  | hostCxlMemRead (a : Access) (own : Bool)
  | hostCxlMemWrite (pa : Nat) (bytes : List Byte)
  | fmctlOnline (port : Nat) (v : Word)
  | d2dRetrain (boundary : Nat) (inTime : Bool)
  | registerWrite (a : Access) (v : Word)
  | standardInstruction (i : Std)
  | powerLimitThrottle (on : Bool)
  | streamPushWritten (g : Nat) (ss : BitVec 2)
  | debugResumeRequest (g : Nat) (single : Bool)
  -- events that act on the selected object, `State.sel`, named behind each of them, or on the machine as a whole
  | mailboxDelivery   -- msg
  | mailboxSendTimeout   -- msg
  | copyChunk   -- cluster
  | copyComplete   -- uid
  | queueWaiterServed   -- qcb
  | queueRetry   -- g
  | laneStorePerformed   -- g
  | loadDataArrival   -- g
  | wrsStoTimeout   -- g
  | twTimeout   -- g
  | interruptEntry
  | uiEntry
  | uimaskWindowExpire   -- g
  | registerPoolGrant   -- g
  | spawnedHartEligible   -- g
  | continuationStart   -- g
  | mma   -- core
  | mmaSp   -- core
  | mmaMx   -- core
  | mmrot   -- core
  | mmrotLanding   -- core
  | accZero   -- core
  | accLd   -- core
  | accSt   -- core
  | accCvt   -- core
  | tmov   -- core
  | ttrans   -- core
  | tsync   -- core
  | matrixCommandComplete   -- core
  | matrixEngineHangReset   -- core
  | matrixResetDone   -- core
  | strandedCommandDiscard   -- team
  | l2WriteQueueApply   -- line
  | pageWalkComplete   -- uid
  | tlbsdDone   -- die
  | launchDequeue   -- k
  | spillTimeout   -- team
  | teamStart   -- team
  | teamComplete   -- team
  | shareScrub   -- core
  | launchComplete   -- launch
  | slackRecalc
  | deadlineExpiry   -- launch
  | divert
  | wrapupBudgetKill   -- launch
  | preEmption   -- team
  | teamRestore   -- team
  | contextHang   -- asid
  | coreResetCmd   -- core
  | coreTestCmd   -- core
  | coreReturnCmd   -- core
  | coreFenceCmd   -- core
  | coreResetDone   -- core
  | scctlClear   -- core
  | faqpopRead   -- die
  | dredgeQueryAdmit   -- uid
  | dredgeRoundBoundary   -- uid
  | dredgeResultRecord   -- uid
  | dredgeCompletion   -- uid
  | saddS64   -- uid
  | saddN64   -- uid
  | minidx   -- uid
  | rowaddBf16   -- uid
  | hist32   -- uid
  | topk16   -- uid
  | bitset   -- uid
  | loadedRoutine   -- uid
  | routineTimeout   -- uid
  | shipReply   -- uid
  | timeHoldover
  | polderCreate
  | polderExtend
  | polderAttest
  | pldcmdComplete
  | kflushDone
  | fullerArm   -- die
  | fullerArmed   -- die
  | fullerStart   -- die
  | fullerUnit   -- die
  | fullerDone   -- die
  | moduleReset
  | portLinkDown   -- port
  | portTimeout   -- port
  | farAccessComplete   -- g
  | d2dDegrade   -- boundary
  | readClearRegisterRead   -- pa
  | ppsOutputEdge
  | bpaddFlashWriteDone
  | powerLoss
  | portLinkUp   -- port
  | backInvalidateResponse   -- line
  deriving DecidableEq, Repr

end Sys2Proof
end

