-- ==== Sys2Proof/WellFormed.lean ====
section
/-! DEFINITION. Which instructions have an encoding: the operand limits of R36 to R53 that do not depend on state. -/
namespace Sys2Proof

/-- A source in a 32-bit position (R42, R43). -/
def src32Ok (f : LOp) : Bool := f.toNat < 640 || (768 ≤ f.toNat && f.toNat ≤ 836)

/-- A source in a 64-bit position: an even pair, an x register, vzero, vlane, vglid or vones (R43). -/
def src64Ok (f : LOp) : Bool :=
  (f.toNat < 640 && f.toNat % 2 == 0) || (768 ≤ f.toNat && f.toNat < 800) ||
    f.toNat == 832 || f.toNat == 833 || f.toNat == 834 || f.toNat == 836

/-- The base of a memory form: an x register or vzero (R127). -/
def baseOk (f : LOp) : Bool := (768 ≤ f.toNat && f.toNat < 800) || f.toNat == 832

/-- A lane register used as `n` consecutive registers, aligned to `n` (R11, R43, R51). -/
def laneRegOk (n : Nat) (f : LOp) : Bool := f.toNat < 640 && f.toNat % n == 0

/-- The registers that an access width moves (R128). -/
def Width.regs : Width → Nat
  | .d => 2
  | .q => 4
  | _  => 1

/-- The header is legal unless pm = 0 stands together with pn = 1 (R41). -/
def LaneHdr.wf (p : LaneHdr) : Bool := !(p.pm == 0 && p.pn)

/-- Is the type 64 bits wide? -/
def Ity.is64 : Ity → Bool
  | .s64 | .n64 => true
  | _ => false

/-- Is the type 64 bits wide? -/
def Tc.is64 : Tc → Bool
  | .s64 | .n64 => true
  | _ => false

/-- Is the type an integer type? -/
def Tc.isInt : Tc → Bool
  | .s32 | .n32 | .s16 | .n16 | .s8 | .n8 | .s64 | .n64 => true
  | _ => false

/-- Elements of the type that one lane register holds (R11). -/
def Tc.perReg : Tc → Nat
  | .s16 | .n16 | .f16 | .bf16 => 2
  | .s8 | .n8 | .e4m3 | .e5m2 => 4
  | .e2m1 => 8
  | _ => 1

/-- Is the type 64 bits wide? -/
def ATy.is64 : ATy → Bool
  | .s64 | .n64 => true
  | _ => false

/-- The lane registers that one element of an atomic takes. -/
def ATy.regs (t : ATy) : Nat := if t.is64 then 2 else 1

/-- A condition of `vcmp` and `vcmpi` (R47, R108). -/
def Cond.isInt : Cond → Bool
  | .ord | .uno => false
  | _ => true

def wf3 (p : LaneHdr) (vd va vb vc : LOp) : Bool :=
  p.wf && laneRegOk 1 vd && src32Ok va && src32Ok vb && src32Ok vc

def wf2 (p : LaneHdr) (vd va vb : LOp) : Bool :=
  p.wf && laneRegOk 1 vd && src32Ok va && src32Ok vb

def wf1 (p : LaneHdr) (vd va : LOp) : Bool := p.wf && laneRegOk 1 vd && src32Ok va

/-- The integer two-source forms without 64-bit types (R101). -/
def wfInt (p : LaneHdr) (t : Ity) (vd va vb : LOp) : Bool := !t.is64 && wf2 p vd va vb

/-- `vadd` and `vsub`, whose 64-bit forms take pairs (R101). -/
def wfAdd (p : LaneHdr) (t : Ity) (vd va vb : LOp) : Bool :=
  if t.is64 then p.wf && laneRegOk 2 vd && src64Ok va && src64Ok vb else wf2 p vd va vb

/-- A two-source float form: the minimum and the maximum take no rounding mode (R112, R113). -/
def wfMinMax (f : FForm) : Bool :=
  match f with
  | .f32 .rne | .h2 | .b2 => true
  | .f32 _ => false

/-- `vcvt`: distinct types, and the fields an integer destination does not use are 0 (R49, R116). -/
def wfCvt (p : LaneHdr) (dst src : Tc) (rm : Rm) (sat : Bool) (vd va : LOp) : Bool :=
  p.wf && dst != src && laneRegOk (if dst.is64 then 2 else 1) vd &&
    (if src.is64 then src64Ok va else src32Ok va) &&
    (!dst.isInt || !sat) && (!(dst.isInt && src.isInt) || rm == .rne)

/-- Widths a store takes (R51, R131). -/
def Width.storeOk : Width → Bool
  | .s8 | .s16 => false
  | _ => true

def wfLoad (p : LaneHdr) (m : MemMod) (vd : LOp) : Bool :=
  p.wf && laneRegOk m.width.regs vd && m.ord != .rel

def wfStore (p : LaneHdr) (m : MemMod) (vd : LOp) : Bool :=
  p.wf && laneRegOk m.width.regs vd && m.ord != .acq && m.width.storeOk

def wfAmo (p : LaneHdr) (t : ATy) (vd va vb : LOp) : Bool :=
  p.wf && laneRegOk t.regs vd && src32Ok va && (if t.is64 then src64Ok vb else src32Ok vb)

def wfRed (p : LaneHdr) (t : ATy) (o : Ordering4) (vd va : LOp) : Bool :=
  p.wf && laneRegOk t.regs vd && src32Ok va && o != .acq

/-- Types that minimum and maximum take (R53). -/
def ATy.minOk : ATy → Bool
  | .s32 | .n32 | .f32 => true
  | _ => false

/-- Types that the bitwise operations, exchange and compare-and-swap take (R53). -/
def ATy.bitOk : ATy → Bool
  | .n32 | .n64 => true
  | _ => false

/-- Shift immediates of the word forms have five bits. -/
def ShiftImm.isWord : ShiftImm → Bool
  | .slliw | .srliw | .sraiw | .roriw => true
  | _ => false

def Std.wf : Std → Bool
  | .shift op _ _ sh => !(op.isWord && 32 ≤ sh.toNat)
  | .illegal _ => false
  | _ => true

/-- The number of a loop CSR, whose writes are a row of the opcode table of their own (R68, R91). -/
def isLoopCsr (csr : BitVec 12) : Bool :=
  csr == 0x800 || csr == 0x801 || csr == 0x802 || csr == 0x804 || csr == 0x805 || csr == 0x806

/-- Does the CSR instruction write? `csrrs` and `csrrc` with source 0 do not. -/
def csrWrites (op : CsrOp) (src : XReg) : Bool :=
  match op with
  | .rw => true
  | .rs | .rc => src != 0

/-- An instruction that has an encoding. Events have none, nor has `vclmul.n32`, every word of which is illegal (R48). -/
def Instr.wf : Instr → Bool
  | .hexit | .yield | .uiret | .lbfence => true
  | .spawn .. | .cont .. | .rgrow .. | .rshrink .. | .uimask .. => true
  | .hloop _ _ len => len != 0
  | .hloopi _ count len => count != 0 && len != 0
  | .loopCsrWrite op _ csr _ src => isLoopCsr csr && csrWrites op src
  | .csrAccess op _ csr _ src => !(isLoopCsr csr && csrWrites op src)
  | .barArr .. | .barWait .. | .barTry .. | .barArw .. | .barCfg .. => true
  | .semSig .. | .semWait .. | .semTry .. | .mtxLock .. | .mtxTry .. | .mtxFree .. => true
  | .msend .. | .mrecv .. | .mtry .. => true
  | .cpy .. | .mxpush .. | .mxfence | .strmCfg .. | .strmEnd .. => true
  | .dqSearch .. | .dqCancel .. | .cwait .. | .ctry .. => true
  | .dqShip r _ _ _ => r.toNat < 7 || 16 ≤ r.toNat
  | .qinit .. | .qenqX .. | .qdeqX .. | .qenqM .. | .qdeqM .. | .qtenq .. => true
  | .qtdeq rd _ rs2 => rd == 0 || rd != rs2
  | .qrsv .. | .qcmt .. | .qstat .. | .qdrain .. => true
  | .mdiv k | .melse k => k != 0
  | .mjoin | .mrejoin | .mpush | .mpop | .mrd .. | .mwr .. => true
  | .bmany .. | .bmall .. | .bmnone .. => true
  | .wrCommit .. | .wrDone | .wrDrop | .lrel .. => true
  | .vfma p _ vd va vb vc | .vfms p _ vd va vb vc | .vfnma p _ vd va vb vc | .vfnms p _ vd va vb vc => wf3 p vd va vb vc
  | .vdp2 p _ vd va vb vc | .vdp4 p _ vd va vb vc | .vmad p _ vd va vb vc | .vmadh p _ vd va vb vc => wf3 p vd va vb vc
  | .vsel p vd va vb vc | .vbfi p vd va vb vc | .vfunnel p vd va vb vc => wf3 p vd va vb vc
  | .vadd p t vd va vb | .vsub p t vd va vb => wfAdd p t vd va vb
  | .vmul p t vd va vb | .vmulh p t vd va vb | .vmin p t vd va vb | .vmax p t vd va vb => wfInt p t vd va vb
  | .vabsd p t vd va vb | .vadds p t vd va vb | .vsubs p t vd va vb => wfInt p t vd va vb
  | .vfadd p _ vd va vb | .vfsub p _ vd va vb | .vfmul p _ vd va vb => wf2 p vd va vb
  | .vfmin p f vd va vb | .vfmax p f vd va vb => wfMinMax f && wf2 p vd va vb
  | .vand p vd va vb | .vor p vd va vb | .vxor p vd va vb | .vandn p vd va vb => wf2 p vd va vb
  | .vsll p vd va vb | .vsrl p vd va vb | .vsra p vd va vb | .vrol p vd va vb => wf2 p vd va vb
  | .vcmp p c _ md va vb => p.wf && c.isInt && md != 0 && src32Ok va && src32Ok vb
  | .vfcmp p _ md va vb => p.wf && md != 0 && src32Ok va && src32Ok vb
  | .vpack p _ vd va vb => wf2 p vd va vb
  | .vperm p vd va vb => wf2 p vd va vb
  | .vclmulN32 _ => false
  | .vmov p vd va | .vnot p vd va | .vbrev p vd va | .vclz p vd va | .vctz p vd va | .vpopc p vd va => wf1 p vd va
  | .vneg p _ vd va | .vabs p _ vd va | .vsqrt p _ vd va | .vrnd p _ vd va => wf1 p vd va
  | .vrcp p vd va | .vrsqrt p vd va | .vexp2 p vd va | .vlog2 p vd va | .vsin p vd va => wf1 p vd va
  | .vcos p vd va | .vtanh p vd va | .vfrac p vd va | .vfclass p vd va => wf1 p vd va
  | .vcvt p dst src rm sat vd va => wfCvt p dst src rm sat vd va
  | .vcvtSr p dst _ vd va => (match dst with | .f16 | .bf16 | .e4m3 | .e5m2 | .e2m1 => true | _ => false) && wf1 p vd va
  | .vunpack p src j vd va => 1 < src.perReg && j.toNat < src.perReg && wf1 p vd va
  | .vmovi p _ vd => p.wf && laneRegOk 1 vd
  | .vaddi p _ vd va | .vandi p _ vd va | .vori p _ vd va | .vxori p _ vd va | .vmuli p _ vd va => wf1 p vd va
  | .vslli p _ vd va | .vsrli p _ vd va | .vsrai p _ vd va => wf1 p vd va
  | .vcmpi p c _ _ md va => p.wf && c.isInt && md != 0 && src32Ok va
  | .vld p m vd va vb => wfLoad p m vd && src32Ok va && baseOk vb
  | .vst p m vd va vb => wfStore p m vd && src32Ok va && baseOk vb
  | .vldx p m vd va => wfLoad p m vd && src64Ok va
  | .vstx p m vd va => wfStore p m vd && src64Ok va
  | .vldB p m vd vb => wfLoad p m vd && baseOk vb && m.hint == .normal
  | .vlds p wd vd va vb => p.wf && laneRegOk wd.regs vd && src32Ok va && baseOk vb
  | .vsts p wd vd va vb => p.wf && laneRegOk wd.regs vd && wd.storeOk && src32Ok va && baseOk vb
  | .vldt p q _ vd va vb | .vstt p q _ vd va vb => p.wf && laneRegOk (if q then 4 else 1) vd && src32Ok va && baseOk vb
  | .vpf p _ _ va vb => p.wf && src32Ok va && baseOk vb
  | .vstRdc p wd cnt vd va vb =>
      (match wd with | .w | .d | .q => true | _ => false) && cnt != 0 && p.wf && laneRegOk wd.regs vd && src32Ok va && baseOk vb
  | .vexit p => p.wf && !p.rb && !p.ra
  | .vshflIdx p _ vd va vb | .vshflUp p _ vd va vb | .vshflDown p _ vd va vb | .vshflXor p _ vd va vb => wf2 p vd va vb
  | .vvoteAny p _ md va | .vvoteAll p _ md va => p.wf && md != 0 && src32Ok va
  | .vvoteMask p _ vd va => wf1 p vd va
  | .vmatch p dbl _ vd va =>
      p.wf && laneRegOk 1 vd &&
        (if dbl then laneRegOk 2 va || (768 ≤ va.toNat && va.toNat < 800) else src32Ok va)
  | .vscanAdd p _ _ _ vd va | .vscanMin p _ _ _ vd va | .vscanMax p _ _ _ vd va => wf1 p vd va
  | .vlredAdd p _ _ va | .vlredMin p _ _ va | .vlredMax p _ _ va => p.wf && src32Ok va
  | .vlredAnd p _ va | .vlredOr p _ va | .vlredXor p _ va => p.wf && src32Ok va
  | .vext p _ _ va => p.wf && src32Ok va
  | .vins p _ vd _ => p.wf && laneRegOk 1 vd
  | .vamoAdd p t _ _ _ vd va vb => wfAmo p t vd va vb
  | .vamoMin p t _ _ _ vd va vb | .vamoMax p t _ _ _ vd va vb => t.minOk && wfAmo p t vd va vb
  | .vamoAnd p t _ _ _ vd va vb | .vamoOr p t _ _ _ vd va vb | .vamoXor p t _ _ _ vd va vb => t.bitOk && wfAmo p t vd va vb
  | .vamoXchg p t _ _ _ vd va vb | .vamoCas p t _ _ _ vd va vb => t.bitOk && wfAmo p t vd va vb
  | .vmredAdd p t o _ _ vd va => wfRed p t o vd va
  | .vmredMin p t o _ _ vd va | .vmredMax p t o _ _ vd va => t.minOk && wfRed p t o vd va
  | .vmredAnd p t o _ _ vd va | .vmredOr p t o _ _ vd va | .vmredXor p t o _ _ vd va => t.bitOk && wfRed p t o vd va
  | .vmredAddOrd p _ o _ _ vd va => p.wf && laneRegOk 1 vd && src32Ok va && o != .acq
  | .vqenq p dbl _ vd | .vqdeq p dbl _ vd => p.wf && laneRegOk (if dbl then 2 else 1) vd
  | .vqtdeq p dbl ms _ vd => p.wf && ms != 0 && laneRegOk (if dbl then 2 else 1) vd
  | .hartLoad .. | .hartStore .. | .fenceI | .sfenceVma .. | .wfi | .wrsNto | .wrsSto | .xret _ => true
  | .hartAmo op _ _ _ _ _ rs2 => !(op == .lr && rs2 != 0)
  | .fence fm pred succ => !(fm == 0 && pred == 1 && succ == 0)
  | .standardInstruction i => i.wf
  | .barrierPhaseComplete _ | .mailboxDelivery | .mailboxSendTimeout | .copyChunk | .copyComplete => false
  | .streamRefill .. | .queueWaiterServed | .queueRetry | .laneStorePerformed | .loadDataArrival => false
  | .wrsStoTimeout | .twTimeout | .interruptEntry | .uiEntry | .uimaskWindowExpire | .registerPoolGrant => false
  | .spawnedHartEligible | .continuationStart | .mma | .mmaSp | .mmaMx | .mmrot | .mmrotLanding => false
  | .accZero | .accLd | .accSt | .accCvt | .tmov | .ttrans | .tsync | .matrixCommandComplete => false
  | .matrixEngineHangReset | .matrixResetDone | .strandedCommandDiscard | .l2WriteQueueApply => false
  | .pageWalkComplete | .tlbsdShootdown .. | .tlbsdDone | .notify .. | .npbindWrite .. | .launchDequeue => false
  | .spillTimeout | .teamStart | .teamComplete | .shareScrub | .launchComplete | .slackRecalc => false
  | .deadlineExpiry | .divert | .wrapupBudgetKill | .preEmption | .teamRestore | .contextHang => false
  | .coreUncorrectableError .. | .coreResetCmd | .coreTestCmd | .coreReturnCmd | .coreFenceCmd => false
  | .coreResetDone | .coreTestDone .. | .scctlClear | .torusLinkStop .. | .hbmEccEvent .. | .faqpopRead => false
  | .bpadd _ | .dredgeQueryAdmit | .listRequest .. | .listReply .. | .evalRequest .. | .evalReply .. => false
  | .dredgeRoundBoundary | .dredgeResultRecord | .dredgeCompletion | .saddS64 | .saddN64 | .minidx => false
  | .rowaddBf16 | .hist32 | .topk16 | .bitset | .loadedRoutine | .routineTimeout | .shipReply => false
  | .ptpMessage .. | .timeHoldover | .tmsetWrite _ | .polderCreate | .polderExtend | .polderAttest => false
  | .pldcmdComplete | .pcownWrite .. | .kflush _ | .kflushDone | .kszero _ | .fullerArm | .fullerArmed => false
  | .fullerStart | .fullerUnit | .fullerDone | .debugStateSet _ | .debugHaltRequest _ => false
  | .powerStateRequest _ | .moduleReset | .bringUp _ | .recoveryImage _ | .hostCxlMemRead .. => false
  | .hostCxlMemWrite .. | .fmctlOnline .. | .portLinkDown | .portTimeout | .farAccessComplete => false
  | .d2dRetrain .. | .d2dDegrade | .registerWrite .. | .powerLimitThrottle _ | .streamPushWritten .. => false
  | .readClearRegisterRead | .ppsOutputEdge | .bpaddFlashWriteDone | .debugResumeRequest .. | .powerLoss => false
  | .portLinkUp | .backInvalidateResponse => false

end Sys2Proof
end

