-- ==== Sys2Proof/Decode.lean ====
section
/-! DEFINITION. The decoder, total on any bytes, and after it the encoder (R31 to R53). -/
namespace Sys2Proof

/-! ## Code tables: one list of names and one function to the code for each field -/

/-- The name whose code is `b`, if there is one. -/
def ofCode {α β : Type} [DecidableEq β] (code : α → β) (all : List α) (b : β) : Option α :=
  all.find? fun a => code a = b

def Rm.all : List Rm := [.rne, .rtz, .rdn, .rup, .rmm, .dyn]
/-- R18. -/
def Rm.code : Rm → BitVec 3
  | .rne => 0 | .rtz => 1 | .rdn => 2 | .rup => 3 | .rmm => 4 | .dyn => 7

def Ity.all : List Ity := [.s32, .n32, .s16, .n16, .s8, .n8, .s64, .n64]
/-- R45. -/
def Ity.code : Ity → BitVec 3
  | .s32 => 0 | .n32 => 1 | .s16 => 2 | .n16 => 3 | .s8 => 4 | .n8 => 5 | .s64 => 6 | .n64 => 7

def Tc.all : List Tc := [.s32, .n32, .f32, .s16, .n16, .f16, .bf16, .s8, .n8, .e4m3, .e5m2, .e2m1, .s64, .n64]
/-- R45. -/
def Tc.code : Tc → BitVec 4
  | .s32 => 0 | .n32 => 1 | .f32 => 2 | .s16 => 3 | .n16 => 4 | .f16 => 5 | .bf16 => 6
  | .s8 => 7 | .n8 => 8 | .e4m3 => 9 | .e5m2 => 10 | .e2m1 => 11 | .s64 => 12 | .n64 => 13

def NegTy.all : List NegTy := [.s32, .f32, .h2, .b2]
/-- R49. -/
def NegTy.code : NegTy → BitVec 2
  | .s32 => 0 | .f32 => 1 | .h2 => 2 | .b2 => 3

def Dp4Ty.all : List Dp4Ty := [.s8, .n8, .e4m3, .e5m2]
/-- R46: op[2:0] of the four forms. -/
def Dp4Ty.code : Dp4Ty → BitVec 3
  | .s8 => 2 | .n8 => 3 | .e4m3 => 4 | .e5m2 => 5

def Cond.all : List Cond := [.eq, .ne, .lt, .ge, .gt, .le, .ord, .uno]
/-- R47. -/
def Cond.code : Cond → BitVec 3
  | .eq => 0 | .ne => 1 | .lt => 2 | .ge => 3 | .gt => 4 | .le => 5 | .ord => 6 | .uno => 7

def Width.all : List Width := [.n8, .s8, .n16, .s16, .w, .d, .q]
/-- R51. -/
def Width.code : Width → BitVec 3
  | .n8 => 0 | .s8 => 1 | .n16 => 2 | .s16 => 3 | .w => 4 | .d => 5 | .q => 6

def Ordering4.all : List Ordering4 := [.rlx, .acq, .rel, .sc]
/-- R51. -/
def Ordering4.code : Ordering4 → BitVec 2
  | .rlx => 0 | .acq => 1 | .rel => 2 | .sc => 3

def Scope.all : List Scope := [.hart, .team, .clus, .die, .pkg, .sys]
/-- R51. -/
def Scope.code : Scope → BitVec 3
  | .hart => 0 | .team => 1 | .clus => 2 | .die => 3 | .pkg => 4 | .sys => 5

def Hint.all : List Hint := [.normal, .str, .l2]
/-- R51. -/
def Hint.code : Hint → BitVec 2
  | .normal => 0 | .str => 1 | .l2 => 2

def TBuf.all : List TBuf := [.act, .wgt, .acc]
/-- R51. -/
def TBuf.code : TBuf → BitVec 2
  | .act => 0 | .wgt => 1 | .acc => 2

def SubW.all : List SubW := [.g2, .g4, .g8, .g16, .g32]
/-- R52. -/
def SubW.code : SubW → BitVec 3
  | .g2 => 0 | .g4 => 1 | .g8 => 2 | .g16 => 3 | .g32 => 4

def ScanTy.all : List ScanTy := [.s32, .n32, .f32]
/-- R52. -/
def ScanTy.code : ScanTy → BitVec 3
  | .s32 => 0 | .n32 => 1 | .f32 => 2

def ATy.all : List ATy := [.s32, .n32, .s64, .n64, .f32, .b2, .h2]
/-- R53. -/
def ATy.code : ATy → BitVec 3
  | .s32 => 0 | .n32 => 1 | .s64 => 2 | .n64 => 3 | .f32 => 4 | .b2 => 5 | .h2 => 6

def OrdTy.all : List OrdTy := [.f32, .b2, .h2]
/-- R53. -/
def OrdTy.code : OrdTy → BitVec 3
  | .f32 => 4 | .b2 => 5 | .h2 => 6

def AluOp.all : List AluOp :=
  [.add, .sub, .sll, .slt, .sltu, .xor, .srl, .sra, .or, .and, .addw, .subw, .sllw, .srlw, .sraw,
   .mul, .mulh, .mulhsu, .mulhu, .div, .divu, .rem, .remu, .mulw, .divw, .divuw, .remw, .remuw,
   .adduw, .sh1add, .sh2add, .sh3add, .sh1adduw, .sh2adduw, .sh3adduw,
   .andn, .orn, .xnor, .max, .maxu, .min, .minu, .rol, .ror, .rolw, .rorw,
   .bclr, .bext, .binv, .bset, .clmul, .clmulh, .clmulr, .czeroEqz, .czeroNez]

/-- funct7, funct3 and opcode of the register-register operations (RV64IM, Zba, Zbb, Zbs, Zbc, Zicond; R33). -/
def AluOp.code : AluOp → BitVec 7 × BitVec 3 × BitVec 7
  | .add => (0x00, 0, 0x33) | .sub => (0x20, 0, 0x33) | .sll => (0x00, 1, 0x33) | .slt => (0x00, 2, 0x33)
  | .sltu => (0x00, 3, 0x33) | .xor => (0x00, 4, 0x33) | .srl => (0x00, 5, 0x33) | .sra => (0x20, 5, 0x33)
  | .or => (0x00, 6, 0x33) | .and => (0x00, 7, 0x33)
  | .addw => (0x00, 0, 0x3B) | .subw => (0x20, 0, 0x3B) | .sllw => (0x00, 1, 0x3B) | .srlw => (0x00, 5, 0x3B)
  | .sraw => (0x20, 5, 0x3B)
  | .mul => (0x01, 0, 0x33) | .mulh => (0x01, 1, 0x33) | .mulhsu => (0x01, 2, 0x33) | .mulhu => (0x01, 3, 0x33)
  | .div => (0x01, 4, 0x33) | .divu => (0x01, 5, 0x33) | .rem => (0x01, 6, 0x33) | .remu => (0x01, 7, 0x33)
  | .mulw => (0x01, 0, 0x3B) | .divw => (0x01, 4, 0x3B) | .divuw => (0x01, 5, 0x3B) | .remw => (0x01, 6, 0x3B)
  | .remuw => (0x01, 7, 0x3B)
  | .adduw => (0x04, 0, 0x3B) | .sh1add => (0x10, 2, 0x33) | .sh2add => (0x10, 4, 0x33) | .sh3add => (0x10, 6, 0x33)
  | .sh1adduw => (0x10, 2, 0x3B) | .sh2adduw => (0x10, 4, 0x3B) | .sh3adduw => (0x10, 6, 0x3B)
  | .andn => (0x20, 7, 0x33) | .orn => (0x20, 6, 0x33) | .xnor => (0x20, 4, 0x33)
  | .min => (0x05, 4, 0x33) | .minu => (0x05, 5, 0x33) | .max => (0x05, 6, 0x33) | .maxu => (0x05, 7, 0x33)
  | .rol => (0x30, 1, 0x33) | .ror => (0x30, 5, 0x33) | .rolw => (0x30, 1, 0x3B) | .rorw => (0x30, 5, 0x3B)
  | .bclr => (0x24, 1, 0x33) | .bext => (0x24, 5, 0x33) | .binv => (0x34, 1, 0x33) | .bset => (0x14, 1, 0x33)
  | .clmul => (0x05, 1, 0x33) | .clmulr => (0x05, 2, 0x33) | .clmulh => (0x05, 3, 0x33)
  | .czeroEqz => (0x07, 5, 0x33) | .czeroNez => (0x07, 7, 0x33)

def AluImm.all : List AluImm := [.addi, .slti, .sltiu, .xori, .ori, .andi, .addiw]
/-- funct3 and opcode. -/
def AluImm.code : AluImm → BitVec 3 × BitVec 7
  | .addi => (0, 0x13) | .slti => (2, 0x13) | .sltiu => (3, 0x13) | .xori => (4, 0x13) | .ori => (6, 0x13)
  | .andi => (7, 0x13) | .addiw => (0, 0x1B)

def ShiftImm.all : List ShiftImm :=
  [.slli, .srli, .srai, .slliw, .srliw, .sraiw, .rori, .roriw, .slliuw, .bclri, .bexti, .binvi, .bseti]
/-- Bits 31:26, funct3 and opcode; bits 25:20 hold the shift amount. -/
def ShiftImm.code : ShiftImm → BitVec 6 × BitVec 3 × BitVec 7
  | .slli => (0x00, 1, 0x13) | .srli => (0x00, 5, 0x13) | .srai => (0x10, 5, 0x13)
  | .slliw => (0x00, 1, 0x1B) | .srliw => (0x00, 5, 0x1B) | .sraiw => (0x10, 5, 0x1B)
  | .rori => (0x18, 5, 0x13) | .roriw => (0x18, 5, 0x1B) | .slliuw => (0x02, 1, 0x1B)
  | .bclri => (0x12, 1, 0x13) | .bexti => (0x12, 5, 0x13) | .binvi => (0x1A, 1, 0x13) | .bseti => (0x0A, 1, 0x13)

def UnOp.all : List UnOp := [.clz, .ctz, .cpop, .clzw, .ctzw, .cpopw, .sextb, .sexth, .zexth, .orcb, .rev8]
/-- Bits 31:20, funct3 and opcode. -/
def UnOp.code : UnOp → BitVec 12 × BitVec 3 × BitVec 7
  | .clz => (0x600, 1, 0x13) | .ctz => (0x601, 1, 0x13) | .cpop => (0x602, 1, 0x13)
  | .clzw => (0x600, 1, 0x1B) | .ctzw => (0x601, 1, 0x1B) | .cpopw => (0x602, 1, 0x1B)
  | .sextb => (0x604, 1, 0x13) | .sexth => (0x605, 1, 0x13) | .zexth => (0x080, 4, 0x3B)
  | .orcb => (0x287, 5, 0x13) | .rev8 => (0x6B8, 5, 0x13)

def BrCond.all : List BrCond := [.beq, .bne, .blt, .bge, .bltu, .bgeu]
def BrCond.code : BrCond → BitVec 3
  | .beq => 0 | .bne => 1 | .blt => 4 | .bge => 5 | .bltu => 6 | .bgeu => 7

def FmaOp.all : List FmaOp := [.madd, .msub, .nmsub, .nmadd]
/-- Opcode. -/
def FmaOp.code : FmaOp → BitVec 7
  | .madd => 0x43 | .msub => 0x47 | .nmsub => 0x4B | .nmadd => 0x4F

def FBinOp.all : List FBinOp := [.add, .sub, .mul, .div]
/-- Bits 31:27. -/
def FBinOp.code : FBinOp → BitVec 5
  | .add => 0x00 | .sub => 0x01 | .mul => 0x02 | .div => 0x03

def SgnOp.all : List SgnOp := [.j, .jn, .jx]
def SgnOp.code : SgnOp → BitVec 3
  | .j => 0 | .jn => 1 | .jx => 2

def FCmpOp.all : List FCmpOp := [.eq, .lt, .le]
def FCmpOp.code : FCmpOp → BitVec 3
  | .le => 0 | .lt => 1 | .eq => 2

def IntTy.all : List IntTy := [.w, .wu, .l, .lu]
/-- rs2 of the conversions. -/
def IntTy.code : IntTy → BitVec 5
  | .w => 0 | .wu => 1 | .l => 2 | .lu => 3

def LoadKind.all : List LoadKind := [.lb, .lh, .lw, .ld, .lbu, .lhu, .lwu, .flw, .fld]
/-- funct3 and opcode. -/
def LoadKind.code : LoadKind → BitVec 3 × BitVec 7
  | .lb => (0, 0x03) | .lh => (1, 0x03) | .lw => (2, 0x03) | .ld => (3, 0x03) | .lbu => (4, 0x03)
  | .lhu => (5, 0x03) | .lwu => (6, 0x03) | .flw => (2, 0x07) | .fld => (3, 0x07)

def StoreKind.all : List StoreKind := [.sb, .sh, .sw, .sd, .fsw, .fsd]
/-- funct3 and opcode. -/
def StoreKind.code : StoreKind → BitVec 3 × BitVec 7
  | .sb => (0, 0x23) | .sh => (1, 0x23) | .sw => (2, 0x23) | .sd => (3, 0x23) | .fsw => (2, 0x27) | .fsd => (3, 0x27)

def AmoOp.all : List AmoOp := [.lr, .sc, .swap, .add, .xor, .and, .or, .min, .max, .minu, .maxu]
/-- Bits 31:27. -/
def AmoOp.code : AmoOp → BitVec 5
  | .lr => 0x02 | .sc => 0x03 | .swap => 0x01 | .add => 0x00 | .xor => 0x04 | .and => 0x0C | .or => 0x08
  | .min => 0x10 | .max => 0x14 | .minu => 0x18 | .maxu => 0x1C

def CsrOp.all : List CsrOp := [.rw, .rs, .rc]
/-- funct3 bits 1:0; bit 2 selects the immediate form. -/
def CsrOp.code : CsrOp → BitVec 2
  | .rw => 1 | .rs => 2 | .rc => 3

/-! ## The fields of the two word sizes -/

/-- The fields of a 32-bit instruction, in their standard positions (R36). -/
structure F32 where
  f7  : BitVec 7
  rs2 : BitVec 5
  rs1 : BitVec 5
  f3  : BitVec 3
  rd  : BitVec 5
  op  : BitVec 7
  deriving DecidableEq, Repr

def F32.ofWord (w : BitVec 32) : F32 :=
  { f7 := w.extractLsb' 25 7, rs2 := w.extractLsb' 20 5, rs1 := w.extractLsb' 15 5,
    f3 := w.extractLsb' 12 3, rd := w.extractLsb' 7 5, op := w.extractLsb' 0 7 }

def F32.toWord (f : F32) : BitVec 32 := f.f7 ++ f.rs2 ++ f.rs1 ++ f.f3 ++ f.rd ++ f.op

/-- The fields of a lane word (R41); op is held as op[6:3] and op[2:0]. -/
structure FLane where
  rb  : BitVec 1
  ra  : BitVec 1
  pn  : BitVec 1
  pm  : BitVec 4
  vc  : BitVec 10
  vb  : BitVec 10
  va  : BitVec 10
  vd  : BitVec 10
  oph : BitVec 4
  opl : BitVec 3
  fmt : BitVec 3
  low : BitVec 7
  deriving DecidableEq, Repr

def FLane.ofWord (w : BitVec 64) : FLane :=
  { rb := w.extractLsb' 63 1, ra := w.extractLsb' 62 1, pn := w.extractLsb' 61 1, pm := w.extractLsb' 57 4,
    vc := w.extractLsb' 47 10, vb := w.extractLsb' 37 10, va := w.extractLsb' 27 10, vd := w.extractLsb' 17 10,
    oph := w.extractLsb' 13 4, opl := w.extractLsb' 10 3, fmt := w.extractLsb' 7 3, low := w.extractLsb' 0 7 }

def FLane.toWord (f : FLane) : BitVec 64 :=
  f.rb ++ f.ra ++ f.pn ++ f.pm ++ f.vc ++ f.vb ++ f.va ++ f.vd ++ f.oph ++ f.opl ++ f.fmt ++ f.low

/-- A bit as a Bool. -/
def bit1 (b : BitVec 1) : Bool := b == 1

/-- The instruction, if the condition on the fields it does not use holds (R36, R43). -/
def need (c : Bool) (i : Instr) : Option Instr := if c then some i else none

/-! ## 32-bit instructions -/

/-- The immediate of the I shape. -/
def F32.immI (f : F32) : BitVec 12 := f.f7 ++ f.rs2
/-- The immediate of the standard stores. -/
def F32.immS (f : F32) : BitVec 12 := f.f7 ++ f.rd
/-- Bits 12:1 of a branch offset (the B shape). -/
def F32.offB (f : F32) : BitVec 12 :=
  f.f7.extractLsb' 6 1 ++ f.rd.extractLsb' 0 1 ++ f.f7.extractLsb' 0 6 ++ f.rd.extractLsb' 1 4
/-- The immediate of the U shape. -/
def F32.immU (f : F32) : BitVec 20 := f.f7 ++ f.rs2 ++ f.rs1 ++ f.f3
/-- Bits 20:1 of a jump offset. -/
def offJOfU (u : BitVec 20) : BitVec 20 :=
  u.extractLsb' 19 1 ++ u.extractLsb' 0 8 ++ u.extractLsb' 8 1 ++ u.extractLsb' 9 10

/-- custom-0 (R37). -/
def decodeCustom0 (f : F32) : Option Instr :=
  match f.f3.toNat with
  | 0 =>
    match f.f7.toNat with
    | 0 => need (f.rd == 0 && f.rs1 == 0 && f.rs2 == 0) .hexit
    | 1 => need (f.rd == 0 && f.rs1 == 0 && f.rs2 == 0) .yield
    | 2 => some (.spawn f.rd f.rs1 f.rs2)
    | 3 => need (f.rd == 0) (.cont f.rs1 f.rs2)
    | 4 => need (f.rs2 == 0) (.rgrow f.rd f.rs1)
    | 5 => need (f.rd == 0 && f.rs2 == 0) (.rshrink f.rs1)
    | 6 => need (f.rd == 0 && f.rs1 == 0 && f.rs2 == 0) .uiret
    | 7 => need (f.rd == 0 && f.rs1 == 0 && f.rs2 == 0) .lbfence
    | _ => none
  | 1 => need (f.rd == 0 && f.rs1 == 0) (.uimask f.immI)
  | 4 => need (f.rd == 0) (.hloop false f.rs1 f.immI)
  | 5 => need (f.rd == 0) (.hloop true f.rs1 f.immI)
  | 6 => some (.hloopi false f.immI (f.rd ++ f.rs1))
  | 7 => some (.hloopi true f.immI (f.rd ++ f.rs1))
  | _ => none

/-- custom-1 (R38). -/
def decodeCustom1 (f : F32) : Option Instr :=
  match f.f3.toNat with
  | 0 => need (f.rd == 0) (.barArr f.rs1 f.immI)
  | 1 => need (f.rd == 0) (.barWait f.rs1 f.immI)
  | 2 => some (.barTry f.rd f.rs1 f.immI)
  | 3 => need (f.rd == 0) (.barArw f.rs1 f.immI)
  | 4 => need (f.f7 == 0 && f.rd == 0) (.barCfg f.rs1 f.rs2)
  | 5 =>
    match f.f7.toNat with
    | 0x00 => need (f.rd == 0) (.semSig f.rs1 f.rs2)
    | 0x01 => need (f.rd == 0) (.semWait f.rs1 f.rs2)
    | 0x02 => some (.semTry f.rd f.rs1 f.rs2)
    | 0x08 => need (f.rd == 0 && f.rs2 == 0) (.mtxLock f.rs1)
    | 0x09 => need (f.rs2 == 0) (.mtxTry f.rd f.rs1)
    | 0x0A => need (f.rd == 0 && f.rs2 == 0) (.mtxFree f.rs1)
    | _ => none
  | 6 =>
    match f.f7.toNat with
    | 0 => some (.msend f.rs1 f.rs2 f.rd)
    | 1 => need (f.rs2 == 0) (.mrecv f.rd f.rs1)
    | 2 => need (f.rs2 == 0) (.mtry f.rd f.rs1)
    | _ => none
  | _ => none

/-- custom-2 (R39). -/
def decodeCustom2 (f : F32) : Option Instr :=
  match f.f3.toNat with
  | 0 =>
    match f.f7.toNat with
    | 0x00 => need (f.rs2 == 0) (.cpy f.rd f.rs1)
    | 0x01 => need (f.rd == 0) (.mxpush f.rs1 f.rs2)
    | 0x02 => need (f.rd == 0 && f.rs1 == 0 && f.rs2 == 0) .mxfence
    | 0x03 => need (f.rd.extractLsb' 2 3 == 0 && f.rs2 == 0) (.strmCfg (f.rd.extractLsb' 0 2) f.rs1)
    | 0x04 => need (f.rd.extractLsb' 2 3 == 0 && f.rs1 == 0 && f.rs2 == 0) (.strmEnd (f.rd.extractLsb' 0 2))
    | 0x08 => need (f.rd == 0) (.dqSearch f.rs1 f.rs2)
    | 0x0A => need (f.rd == 0 && f.rs2 == 0) (.dqCancel f.rs1)
    | _ => none
  | 1 => need (f.f7.extractLsb' 6 1 == 0) (.dqShip (f.f7.extractLsb' 0 6) f.rd f.rs1 f.rs2)
  | 2 => need (f.rd.extractLsb' 2 3 == 0 && f.rs1 == 0) (.cwait (f.rd.extractLsb' 0 2) f.immI)
  | 3 => need (f.rs1.extractLsb' 2 3 == 0) (.ctry f.rd (f.rs1.extractLsb' 0 2) f.immI)
  | _ => none

/-- custom-3 (R40). -/
def decodeCustom3 (f : F32) : Option Instr :=
  match f.f3.toNat with
  | 0 =>
    match f.f7.toNat with
    | 0x00 => need (f.rd == 0) (.qinit f.rs1 f.rs2)
    | 0x01 => need (f.rd == 0) (.qenqX f.rs1 f.rs2)
    | 0x02 => need (f.rs2 == 0) (.qdeqX f.rd f.rs1)
    | 0x03 => need (f.rd == 0) (.qenqM f.rs1 f.rs2)
    | 0x04 => need (f.rd == 0) (.qdeqM f.rs1 f.rs2)
    | 0x05 => some (.qtenq f.rd f.rs1 f.rs2)
    | 0x06 => need (f.rd == 0 || f.rd != f.rs2) (.qtdeq f.rd f.rs1 f.rs2)
    | 0x07 => need (f.rs2 == 0) (.qrsv f.rd f.rs1)
    | 0x08 => need (f.rd == 0) (.qcmt f.rs1 f.rs2)
    | 0x09 => need (f.rs2 == 0) (.qstat f.rd f.rs1)
    | 0x0A => need (f.rs2 == 0) (.qdrain f.rd f.rs1)
    | _ => none
  | 1 =>
    match f.f7.toNat with
    | 0x00 => need (f.rs1.extractLsb' 4 1 == 0 && f.rd == 0 && f.rs2 == 0) (.mdiv (f.rs1.extractLsb' 0 4))
    | 0x01 => need (f.rs1.extractLsb' 4 1 == 0 && f.rd == 0 && f.rs2 == 0) (.melse (f.rs1.extractLsb' 0 4))
    | 0x02 => need (f.rd == 0 && f.rs1 == 0 && f.rs2 == 0) .mjoin
    | 0x03 => need (f.rd == 0 && f.rs1 == 0 && f.rs2 == 0) .mrejoin
    | 0x04 => need (f.rd == 0 && f.rs1 == 0 && f.rs2 == 0) .mpush
    | 0x05 => need (f.rd == 0 && f.rs1 == 0 && f.rs2 == 0) .mpop
    | 0x06 => need (f.rs2 == 0) (.mrd f.rd f.rs1)
    | 0x07 => need (f.rd == 0) (.mwr f.rs1 f.rs2)
    | _ => none
  | 2 => need (f.rs1.extractLsb' 4 1 == 0 && f.rs2 == 0) (.bmany (f.rs1.extractLsb' 0 4) f.offB)
  | 3 => need (f.rs1.extractLsb' 4 1 == 0 && f.rs2 == 0) (.bmall (f.rs1.extractLsb' 0 4) f.offB)
  | 4 => need (f.rs1.extractLsb' 4 1 == 0 && f.rs2 == 0) (.bmnone (f.rs1.extractLsb' 0 4) f.offB)
  | 5 =>
    match f.f7.toNat with
    | 0x00 => need (f.rd == 0 && f.rs2 == 0) (.wrCommit f.rs1)
    | 0x01 => need (f.rd == 0 && f.rs1 == 0 && f.rs2 == 0) .wrDone
    | 0x02 => need (f.rd == 0 && f.rs1 == 0 && f.rs2 == 0) .wrDrop
    | 0x08 => need (f.rd == 0 && f.rs2 == 0) (.lrel f.rs1)
    | _ => none
  | _ => none

/-- SYSTEM: environment calls, returns, waits, `sfence.vma` and the CSR instructions. -/
def decodeSystem (f : F32) : Option Instr :=
  match f.f3.toNat with
  | 0 =>
    if f.f7 == 0x09 then need (f.rd == 0) (.sfenceVma f.rs1 f.rs2)
    else if f.rd == 0 && f.rs1 == 0 then
      match f.immI.toNat with
      | 0x000 => some (.standardInstruction .ecall)
      | 0x001 => some (.standardInstruction .ebreak)
      | 0x102 => some (.xret false)
      | 0x302 => some (.xret true)
      | 0x105 => some .wfi
      | 0x00D => some .wrsNto
      | 0x01D => some .wrsSto
      | _ => none
    else none
  | _ =>
    (ofCode CsrOp.code CsrOp.all (f.f3.extractLsb' 0 2)).map fun op =>
      let imm := bit1 (f.f3.extractLsb' 2 1)
      if isLoopCsr f.immI && csrWrites op f.rs1 then .loopCsrWrite op imm f.immI f.rd f.rs1
      else .csrAccess op imm f.immI f.rd f.rs1

/-- OP-FP: the format is bits 26:25, 00 single and 01 double; every other format is illegal. -/
def decodeOpFp (f : F32) : Option Instr :=
  let top := f.f7.extractLsb' 2 5
  let dbl := bit1 (f.f7.extractLsb' 0 1)
  if f.f7.extractLsb' 1 1 != 0 then none else
  match top.toNat with
  | 0x04 => (ofCode SgnOp.code SgnOp.all f.f3).map fun op => .standardInstruction (.fsgnj op dbl f.rd f.rs1 f.rs2)
  | 0x05 => need (f.f3.extractLsb' 1 2 == 0) (.standardInstruction (.fminmax (bit1 (f.f3.extractLsb' 0 1)) dbl f.rd f.rs1 f.rs2))
  | 0x08 =>
    (ofCode Rm.code Rm.all f.f3).bind fun rm =>
      need (f.rs2 == (if dbl then 0 else 1)) (.standardInstruction (.fcvtFF dbl rm f.rd f.rs1))
  | 0x0B => (ofCode Rm.code Rm.all f.f3).bind fun rm => need (f.rs2 == 0) (.standardInstruction (.fsqrt dbl rm f.rd f.rs1))
  | 0x14 => (ofCode FCmpOp.code FCmpOp.all f.f3).map fun op => .standardInstruction (.fcmp op dbl f.rd f.rs1 f.rs2)
  | 0x18 =>
    (ofCode Rm.code Rm.all f.f3).bind fun rm =>
      (ofCode IntTy.code IntTy.all f.rs2).map fun ty => .standardInstruction (.fcvtFI dbl ty rm f.rd f.rs1)
  | 0x1A =>
    (ofCode Rm.code Rm.all f.f3).bind fun rm =>
      (ofCode IntTy.code IntTy.all f.rs2).map fun ty => .standardInstruction (.fcvtIF dbl ty rm f.rd f.rs1)
  | 0x1C =>
    if f.f3 == 0 then need (f.rs2 == 0) (.standardInstruction (.fmvXF dbl f.rd f.rs1))
    else if f.f3 == 1 then need (f.rs2 == 0) (.standardInstruction (.fclass dbl f.rd f.rs1))
    else none
  | 0x1E => need (f.f3 == 0 && f.rs2 == 0) (.standardInstruction (.fmvFX dbl f.rd f.rs1))
  | _ =>
    (ofCode FBinOp.code FBinOp.all top).bind fun op =>
      (ofCode Rm.code Rm.all f.f3).map fun rm => .standardInstruction (.fbin op dbl rm f.rd f.rs1 f.rs2)

/-- AMO: funct3 is 2 for words and 3 for doublewords; `lr` needs rs2 = 0. -/
def decodeAmo (f : F32) : Option Instr :=
  if f.f3 == 2 || f.f3 == 3 then
    (ofCode AmoOp.code AmoOp.all (f.f7.extractLsb' 2 5)).map fun op =>
      .hartAmo op (f.f3 == 3) (bit1 (f.f7.extractLsb' 1 1)) (bit1 (f.f7.extractLsb' 0 1)) f.rd f.rs1 f.rs2
  else none

/-- A fence; the word with pred W, succ 0 and fm 0 is `pause`. rd and rs1 of the fences are reserved and ignored, as the
ratified specification of the base requires (R33). -/
def decodeMiscMem (f : F32) : Option Instr :=
  match f.f3.toNat with
  | 0 =>
    let imm := f.immI
    if imm == 0x010 then some (.standardInstruction .pause)
    else some (.fence (imm.extractLsb' 8 4) (imm.extractLsb' 4 4) (imm.extractLsb' 0 4))
  | 1 => some .fenceI
  | _ => none

/-- OP-IMM and OP-IMM-32: first the operations with a 12-bit immediate, then the unary ones and the shifts. -/
def decodeOpImm (f : F32) : Option Instr :=
  match ofCode AluImm.code AluImm.all (f.f3, f.op) with
  | some op => some (.standardInstruction (.aluImm op f.rd f.rs1 f.immI))
  | none =>
    match ofCode UnOp.code UnOp.all (f.immI, f.f3, f.op) with
    | some op => some (.standardInstruction (.un op f.rd f.rs1))
    | none =>
      (ofCode ShiftImm.code ShiftImm.all (f.f7.extractLsb' 1 6, f.f3, f.op)).map fun op =>
        .standardInstruction (.shift op f.rd f.rs1 (f.f7.extractLsb' 0 1 ++ f.rs2))

/-- OP and OP-32; `zext.h` is a unary operation with a zero rs2. -/
def decodeOp (f : F32) : Option Instr :=
  match ofCode UnOp.code UnOp.all (f.immI, f.f3, f.op) with
  | some op => some (.standardInstruction (.un op f.rd f.rs1))
  | none =>
    (ofCode AluOp.code AluOp.all (f.f7, f.f3, f.op)).map fun op =>
      .standardInstruction (.alu op f.rd f.rs1 f.rs2)

/-- A 32-bit instruction from its fields, before the operand limits. -/
def rawF32 (f : F32) : Option Instr :=
  match f.op.toNat with
  | 0x03 | 0x07 => (ofCode LoadKind.code LoadKind.all (f.f3, f.op)).map fun k => .hartLoad k f.rd f.rs1 f.immI
  | 0x0B => decodeCustom0 f
  | 0x0F => decodeMiscMem f
  | 0x13 | 0x1B => decodeOpImm f
  | 0x17 => some (.standardInstruction (.auipc f.rd f.immU))
  | 0x23 | 0x27 => (ofCode StoreKind.code StoreKind.all (f.f3, f.op)).map fun k => .hartStore k f.rs1 f.rs2 f.immS
  | 0x2B => decodeCustom1 f
  | 0x2F => decodeAmo f
  | 0x33 | 0x3B => decodeOp f
  | 0x37 => some (.standardInstruction (.lui f.rd f.immU))
  | 0x43 | 0x47 | 0x4B | 0x4F =>
    if f.f7.extractLsb' 1 1 != 0 then none else
    (ofCode FmaOp.code FmaOp.all f.op).bind fun op =>
      (ofCode Rm.code Rm.all f.f3).map fun rm =>
        .standardInstruction (.fma op (bit1 (f.f7.extractLsb' 0 1)) rm f.rd f.rs1 f.rs2 (f.f7.extractLsb' 2 5))
  | 0x53 => decodeOpFp f
  | 0x5B => decodeCustom2 f
  | 0x63 => (ofCode BrCond.code BrCond.all f.f3).map fun c => .standardInstruction (.branch c f.rs1 f.rs2 f.offB)
  | 0x67 => need (f.f3 == 0) (.standardInstruction (.jalr f.rd f.rs1 f.immI))
  | 0x6F => some (.standardInstruction (.jal f.rd (offJOfU f.immU)))
  | 0x73 => decodeSystem f
  | 0x7B => decodeCustom3 f
  | _ => none

/-- A 32-bit word: the instruction, if its operands are within their limits (R36). -/
def decode32 (w : BitVec 32) : Option Instr :=
  (rawF32 (F32.ofWord w)).filter Instr.wf

/-! ## 16-bit instructions: the 32-bit word each stands for (the C extension with D, R31, R33) -/

/-- A register-register word. -/
def wordR (f7 : BitVec 7) (rs2 rs1 : BitVec 5) (f3 : BitVec 3) (rd : BitVec 5) (op : BitVec 7) : BitVec 32 :=
  F32.toWord ⟨f7, rs2, rs1, f3, rd, op⟩
/-- A word of the I shape. -/
def wordI (imm : BitVec 12) (rs1 : BitVec 5) (f3 : BitVec 3) (rd : BitVec 5) (op : BitVec 7) : BitVec 32 :=
  imm ++ rs1 ++ f3 ++ rd ++ op
/-- A store word. -/
def wordS (imm : BitVec 12) (rs2 rs1 : BitVec 5) (f3 : BitVec 3) (op : BitVec 7) : BitVec 32 :=
  imm.extractLsb' 5 7 ++ rs2 ++ rs1 ++ f3 ++ imm.extractLsb' 0 5 ++ op

/-- Quadrant 0. -/
def expandC0 (h : BitVec 16) : Option (BitVec 32) :=
  let rs1 : BitVec 5 := (1#2) ++ h.extractLsb' 7 3
  let rd : BitVec 5 := (1#2) ++ h.extractLsb' 2 3
  let offW : BitVec 12 := (0#5) ++ h.extractLsb' 5 1 ++ h.extractLsb' 10 3 ++ h.extractLsb' 6 1 ++ (0#2)
  let offD : BitVec 12 := (0#4) ++ h.extractLsb' 5 2 ++ h.extractLsb' 10 3 ++ (0#3)
  match (h.extractLsb' 13 3).toNat with
  | 0 =>
    let imm : BitVec 12 := (0#2) ++ h.extractLsb' 7 4 ++ h.extractLsb' 11 2 ++ h.extractLsb' 5 1 ++ h.extractLsb' 6 1 ++ (0#2)
    if imm == 0 then none else some (wordI imm 2 0 rd 0x13)
  | 1 => some (wordI offD rs1 3 rd 0x07)
  | 2 => some (wordI offW rs1 2 rd 0x03)
  | 3 => some (wordI offD rs1 3 rd 0x03)
  | 5 => some (wordS offD rd rs1 3 0x27)
  | 6 => some (wordS offW rd rs1 2 0x23)
  | 7 => some (wordS offD rd rs1 3 0x23)
  | _ => none

/-- Quadrant 1. -/
def expandC1 (h : BitVec 16) : Option (BitVec 32) :=
  let rd : BitVec 5 := h.extractLsb' 7 5
  let rdC : BitVec 5 := (1#2) ++ h.extractLsb' 7 3
  let rs2C : BitVec 5 := (1#2) ++ h.extractLsb' 2 3
  let imm6 : BitVec 6 := h.extractLsb' 12 1 ++ h.extractLsb' 2 5
  let imm : BitVec 12 := imm6.signExtend 12
  let offB : BitVec 9 :=
    h.extractLsb' 12 1 ++ h.extractLsb' 5 2 ++ h.extractLsb' 2 1 ++ h.extractLsb' 10 2 ++ h.extractLsb' 3 2 ++ (0#1)
  let b13 : BitVec 13 := offB.signExtend 13
  let branch (f3 : BitVec 3) : BitVec 32 :=
    b13.extractLsb' 12 1 ++ b13.extractLsb' 5 6 ++ (0#5) ++ rdC ++ f3 ++ b13.extractLsb' 1 4 ++ b13.extractLsb' 11 1 ++ (0x63#7)
  match (h.extractLsb' 13 3).toNat with
  | 0 => some (wordI imm rd 0 rd 0x13)
  | 1 => if rd == 0 then none else some (wordI imm rd 0 rd 0x1B)
  | 2 => some (wordI imm 0 0 rd 0x13)
  | 3 =>
    if rd == 2 then
      let sp : BitVec 10 :=
        h.extractLsb' 12 1 ++ h.extractLsb' 3 2 ++ h.extractLsb' 5 1 ++ h.extractLsb' 2 1 ++ h.extractLsb' 6 1 ++ (0#4)
      if sp == 0 then none else some (wordI (sp.signExtend 12) 2 0 2 0x13)
    else if imm6 == 0 then none
    else some ((imm6.signExtend 20) ++ rd ++ (0x37#7))
  | 4 =>
    match (h.extractLsb' 10 2).toNat with
    | 0 => some (wordI ((0#6) ++ imm6) rdC 5 rdC 0x13)
    | 1 => some (wordI ((0x10#6) ++ imm6) rdC 5 rdC 0x13)
    | 2 => some (wordI imm rdC 7 rdC 0x13)
    | _ =>
      match (h.extractLsb' 12 1 ++ h.extractLsb' 5 2).toNat with
      | 0 => some (wordR 0x20 rs2C rdC 0 rdC 0x33)
      | 1 => some (wordR 0x00 rs2C rdC 4 rdC 0x33)
      | 2 => some (wordR 0x00 rs2C rdC 6 rdC 0x33)
      | 3 => some (wordR 0x00 rs2C rdC 7 rdC 0x33)
      | 4 => some (wordR 0x20 rs2C rdC 0 rdC 0x3B)
      | 5 => some (wordR 0x00 rs2C rdC 0 rdC 0x3B)
      | _ => none
  | 5 =>
    let offJ : BitVec 12 :=
      h.extractLsb' 12 1 ++ h.extractLsb' 8 1 ++ h.extractLsb' 9 2 ++ h.extractLsb' 6 1 ++ h.extractLsb' 7 1 ++
        h.extractLsb' 2 1 ++ h.extractLsb' 11 1 ++ h.extractLsb' 3 3 ++ (0#1)
    let j : BitVec 21 := offJ.signExtend 21
    some (j.extractLsb' 20 1 ++ j.extractLsb' 1 10 ++ j.extractLsb' 11 1 ++ j.extractLsb' 12 8 ++ (0#5) ++ (0x6F#7))
  | 6 => some (branch 0)
  | _ => some (branch 1)

/-- Quadrant 2. -/
def expandC2 (h : BitVec 16) : Option (BitVec 32) :=
  let rd : BitVec 5 := h.extractLsb' 7 5
  let rs2 : BitVec 5 := h.extractLsb' 2 5
  let spW : BitVec 12 := (0#4) ++ h.extractLsb' 2 2 ++ h.extractLsb' 12 1 ++ h.extractLsb' 4 3 ++ (0#2)
  let spD : BitVec 12 := (0#3) ++ h.extractLsb' 2 3 ++ h.extractLsb' 12 1 ++ h.extractLsb' 5 2 ++ (0#3)
  let stW : BitVec 12 := (0#4) ++ h.extractLsb' 7 2 ++ h.extractLsb' 9 4 ++ (0#2)
  let stD : BitVec 12 := (0#3) ++ h.extractLsb' 7 3 ++ h.extractLsb' 10 3 ++ (0#3)
  match (h.extractLsb' 13 3).toNat with
  | 0 => some (wordI ((0#6) ++ h.extractLsb' 12 1 ++ rs2) rd 1 rd 0x13)
  | 1 => some (wordI spD 2 3 rd 0x07)
  | 2 => if rd == 0 then none else some (wordI spW 2 2 rd 0x03)
  | 3 => if rd == 0 then none else some (wordI spD 2 3 rd 0x03)
  | 4 =>
    if h.extractLsb' 12 1 == 0 then
      if rs2 == 0 then (if rd == 0 then none else some (wordI 0 rd 0 0 0x67))
      else some (wordR 0 rs2 0 0 rd 0x33)
    else
      if rs2 == 0 then (if rd == 0 then some 0x00100073 else some (wordI 0 rd 0 1 0x67))
      else some (wordR 0 rs2 rd 0 rd 0x33)
  | 5 => some (wordS stD rs2 2 3 0x27)
  | 6 => some (wordS stW rs2 2 2 0x23)
  | _ => some (wordS stD rs2 2 3 0x23)

/-- The 32-bit word that a 16-bit instruction stands for. -/
def expandC (h : BitVec 16) : Option (BitVec 32) :=
  match (h.extractLsb' 0 2).toNat with
  | 0 => expandC0 h
  | 1 => expandC1 h
  | 2 => expandC2 h
  | _ => none

def decode16 (h : BitVec 16) : Option Instr := (expandC h).bind decode32

/-! ## Lane words -/

def FLane.hdr (f : FLane) : LaneHdr := ⟨bit1 f.rb, bit1 f.ra, bit1 f.pn, f.pm⟩

/-- An x register in an operand field: 768 to 799 (R42). -/
def xOfField (v : LOp) : Option XReg :=
  if v.extractLsb' 5 5 == 24 then some (v.extractLsb' 0 5) else none

/-- The width, ordering, scope and hint of mod (R51). -/
def memModOf (m : BitVec 10) : Option MemMod :=
  (ofCode Width.code Width.all (m.extractLsb' 0 3)).bind fun wd =>
  (ofCode Ordering4.code Ordering4.all (m.extractLsb' 3 2)).bind fun o =>
  (ofCode Scope.code Scope.all (m.extractLsb' 5 3)).bind fun s =>
  (ofCode Hint.code Hint.all (m.extractLsb' 8 2)).map fun h => ⟨wd, o, s, h⟩

/-- fmt 000 (R46). -/
def decodeFmt0 (f : FLane) : Option Instr :=
  let p := f.hdr
  match f.oph.toNat with
  | 0 => (ofCode Rm.code Rm.all f.opl).map fun rm => .vfma p (.f32 rm) f.vd f.va f.vb f.vc
  | 1 => (ofCode Rm.code Rm.all f.opl).map fun rm => .vfms p (.f32 rm) f.vd f.va f.vb f.vc
  | 2 => (ofCode Rm.code Rm.all f.opl).map fun rm => .vfnma p (.f32 rm) f.vd f.va f.vb f.vc
  | 3 => (ofCode Rm.code Rm.all f.opl).map fun rm => .vfnms p (.f32 rm) f.vd f.va f.vb f.vc
  | 4 =>
    match f.opl.toNat with
    | 0 => some (.vfma p .h2 f.vd f.va f.vb f.vc)
    | 1 => some (.vfms p .h2 f.vd f.va f.vb f.vc)
    | 2 => some (.vfnma p .h2 f.vd f.va f.vb f.vc)
    | 3 => some (.vfnms p .h2 f.vd f.va f.vb f.vc)
    | 4 => some (.vfma p .b2 f.vd f.va f.vb f.vc)
    | 5 => some (.vfms p .b2 f.vd f.va f.vb f.vc)
    | 6 => some (.vfnma p .b2 f.vd f.va f.vb f.vc)
    | _ => some (.vfnms p .b2 f.vd f.va f.vb f.vc)
  | 5 =>
    match f.opl.toNat with
    | 0 => some (.vdp2 p false f.vd f.va f.vb f.vc)
    | 1 => some (.vdp2 p true f.vd f.va f.vb f.vc)
    | _ => (ofCode Dp4Ty.code Dp4Ty.all f.opl).map fun t => .vdp4 p t f.vd f.va f.vb f.vc
  | 6 =>
    match f.opl.toNat with
    | 0 => some (.vmad p false f.vd f.va f.vb f.vc)
    | 1 => some (.vmad p true f.vd f.va f.vb f.vc)
    | 2 => some (.vmadh p false f.vd f.va f.vb f.vc)
    | 3 => some (.vmadh p true f.vd f.va f.vb f.vc)
    | 4 => some (.vsel p f.vd f.va f.vb f.vc)
    | 5 => some (.vbfi p f.vd f.va f.vb f.vc)
    | 6 => some (.vfunnel p f.vd f.va f.vb f.vc)
    | _ => none
  | _ => none

/-- The type and rounding mode of the two-source float forms: mod[4:3] and mod[2:0] (R47, R112). -/
def fformOf (m : BitVec 10) : Option FForm :=
  if m.extractLsb' 5 5 != 0 then none else
  match (m.extractLsb' 3 2).toNat with
  | 0 => (ofCode Rm.code Rm.all (m.extractLsb' 0 3)).map .f32
  | 1 => if m.extractLsb' 0 3 == 0 then some .h2 else none
  | 2 => if m.extractLsb' 0 3 == 0 then some .b2 else none
  | _ => none

/-- The conversion of `vpack` (R119). -/
def packOf (m : BitVec 10) : Option PackTy :=
  if m.extractLsb' 8 2 != 0 then none else
  match (m.extractLsb' 4 4).toNat with
  | 3 => if m.extractLsb' 0 4 == 0 then some .s16 else none
  | 4 => if m.extractLsb' 0 4 == 0 then some .n16 else none
  | 5 => (ofCode Rm.code Rm.all (m.extractLsb' 0 3)).map fun rm => .f16 rm (bit1 (m.extractLsb' 3 1))
  | 6 => (ofCode Rm.code Rm.all (m.extractLsb' 0 3)).map fun rm => .bf16 rm (bit1 (m.extractLsb' 3 1))
  | _ => none

/-- The integer groups of fmt 001, by op[6:3]. -/
def decodeIntGroup (f : FLane) (t : Ity) : Option Instr :=
  let p := f.hdr
  match f.oph.toNat with
  | 0 => some (.vadd p t f.vd f.va f.vb)
  | 1 => some (.vsub p t f.vd f.va f.vb)
  | 2 => some (.vmul p t f.vd f.va f.vb)
  | 3 => some (.vmulh p t f.vd f.va f.vb)
  | 4 => some (.vmin p t f.vd f.va f.vb)
  | 5 => some (.vmax p t f.vd f.va f.vb)
  | 6 => some (.vabsd p t f.vd f.va f.vb)
  | 7 => some (.vadds p t f.vd f.va f.vb)
  | 8 => some (.vsubs p t f.vd f.va f.vb)
  | _ => none

/-- fmt 001 (R47). -/
def decodeFmt1 (f : FLane) : Option Instr :=
  let p := f.hdr
  match f.oph.toNat with
  | 9 =>
    (fformOf f.vc).bind fun t =>
      match f.opl.toNat with
      | 0 => some (.vfadd p t f.vd f.va f.vb)
      | 1 => some (.vfsub p t f.vd f.va f.vb)
      | 2 => some (.vfmul p t f.vd f.va f.vb)
      | 3 => some (.vfmin p t f.vd f.va f.vb)
      | 4 => some (.vfmax p t f.vd f.va f.vb)
      | _ => none
  | 10 =>
    if f.vc != 0 then none else
    match f.opl.toNat with
    | 0 => some (.vand p f.vd f.va f.vb)
    | 1 => some (.vor p f.vd f.va f.vb)
    | 2 => some (.vxor p f.vd f.va f.vb)
    | 3 => some (.vandn p f.vd f.va f.vb)
    | 4 => some (.vsll p f.vd f.va f.vb)
    | 5 => some (.vsrl p f.vd f.va f.vb)
    | 6 => some (.vsra p f.vd f.va f.vb)
    | _ => some (.vrol p f.vd f.va f.vb)
  | 11 =>
    match f.opl.toNat with
    | 0 =>
      if f.vc.extractLsb' 5 5 != 0 || f.vc.extractLsb' 3 1 != 0 || f.vd.extractLsb' 4 6 != 0 then none else
      (ofCode Cond.code Cond.all (f.vc.extractLsb' 0 3)).map fun c =>
        .vcmp p c (bit1 (f.vc.extractLsb' 4 1)) (f.vd.extractLsb' 0 4) f.va f.vb
    | 1 =>
      if f.vc.extractLsb' 3 7 != 0 || f.vd.extractLsb' 4 6 != 0 then none else
      (ofCode Cond.code Cond.all (f.vc.extractLsb' 0 3)).map fun c => .vfcmp p c (f.vd.extractLsb' 0 4) f.va f.vb
    | 2 => (packOf f.vc).map fun t => .vpack p t f.vd f.va f.vb
    | 3 => need (f.vc == 0) (.vperm p f.vd f.va f.vb)
    | _ => none
  | _ => if f.vc != 0 then none else (ofCode Ity.code Ity.all f.opl).bind (decodeIntGroup f)

/-- fmt 010 (R49). -/
def decodeFmt2 (f : FLane) : Option Instr :=
  let p := f.hdr
  if f.vb != 0 then none else
  match f.oph.toNat with
  | 0 =>
    if f.vc != 0 then none else
    match f.opl.toNat with
    | 0 => some (.vmov p f.vd f.va)
    | 1 => some (.vnot p f.vd f.va)
    | 2 => some (.vbrev p f.vd f.va)
    | 3 => some (.vclz p f.vd f.va)
    | 4 => some (.vctz p f.vd f.va)
    | 5 => some (.vpopc p f.vd f.va)
    | _ => none
  | 1 =>
    if f.vc != 0 then none else
    (ofCode NegTy.code NegTy.all (f.opl.extractLsb' 0 2)).map fun t =>
      if f.opl.extractLsb' 2 1 == 0 then .vneg p t f.vd f.va else .vabs p t f.vd f.va
  | 2 =>
    match f.opl.toNat with
    | 0 => need (f.vc == 0) (.vrcp p f.vd f.va)
    | 1 => need (f.vc == 0) (.vrsqrt p f.vd f.va)
    | 2 =>
      if f.vc.extractLsb' 3 7 != 0 then none else
      (ofCode Rm.code Rm.all (f.vc.extractLsb' 0 3)).map fun rm => .vsqrt p rm f.vd f.va
    | 3 => need (f.vc == 0) (.vexp2 p f.vd f.va)
    | 4 => need (f.vc == 0) (.vlog2 p f.vd f.va)
    | 5 => need (f.vc == 0) (.vsin p f.vd f.va)
    | 6 => need (f.vc == 0) (.vcos p f.vd f.va)
    | _ => need (f.vc == 0) (.vtanh p f.vd f.va)
  | 3 =>
    match f.opl.toNat with
    | 0 => need (f.vc == 0) (.vfrac p f.vd f.va)
    | 1 =>
      if f.vc.extractLsb' 3 7 != 0 then none else
      (ofCode Rm.code Rm.all (f.vc.extractLsb' 0 3)).map fun rm => .vrnd p rm f.vd f.va
    | 2 => need (f.vc == 0) (.vfclass p f.vd f.va)
    | _ => none
  | 8 | 9 =>
    if f.vc.extractLsb' 8 2 != 0 then none else
    (ofCode Tc.code Tc.all (f.oph.extractLsb' 0 1 ++ f.opl)).bind fun src =>
    (ofCode Tc.code Tc.all (f.vc.extractLsb' 4 4)).bind fun dst =>
    (ofCode Rm.code Rm.all (f.vc.extractLsb' 0 3)).map fun rm =>
      .vcvt p dst src rm (bit1 (f.vc.extractLsb' 3 1)) f.vd f.va
  | 10 =>
    if f.vc.extractLsb' 8 2 != 0 then none else
    (ofCode Tc.code Tc.all (f.vc.extractLsb' 4 4)).bind fun t =>
      match f.opl.toNat with
      | 0 => need (f.vc.extractLsb' 0 3 == 0) (.vcvtSr p t (bit1 (f.vc.extractLsb' 3 1)) f.vd f.va)
      | 1 => need (f.vc.extractLsb' 3 1 == 0) (.vunpack p t (f.vc.extractLsb' 0 3) f.vd f.va)
      | _ => none
  | _ => none

/-- fmt 011 (R50): imm20 stands in place of vc and vb. -/
def decodeFmt3 (f : FLane) : Option Instr :=
  let p := f.hdr
  let imm : BitVec 20 := f.vc ++ f.vb
  match f.oph.toNat with
  | 0 =>
    match f.opl.toNat with
    | 0 => need (f.va == 0) (.vmovi p imm f.vd)
    | 1 => some (.vaddi p imm f.vd f.va)
    | 2 => some (.vandi p imm f.vd f.va)
    | 3 => some (.vori p imm f.vd f.va)
    | 4 => some (.vxori p imm f.vd f.va)
    | 5 => need (f.vc == 0 && f.vb.extractLsb' 5 5 == 0) (.vslli p (f.vb.extractLsb' 0 5) f.vd f.va)
    | 6 => need (f.vc == 0 && f.vb.extractLsb' 5 5 == 0) (.vsrli p (f.vb.extractLsb' 0 5) f.vd f.va)
    | _ => need (f.vc == 0 && f.vb.extractLsb' 5 5 == 0) (.vsrai p (f.vb.extractLsb' 0 5) f.vd f.va)
  | 1 => need (f.opl == 0) (.vmuli p imm f.vd f.va)
  | 2 =>
    if f.vd.extractLsb' 4 6 != 0 then none else
    (ofCode Cond.code Cond.all f.opl).map fun c => .vcmpi p c false imm (f.vd.extractLsb' 0 4) f.va
  | 3 =>
    if f.vd.extractLsb' 4 6 != 0 then none else
    (ofCode Cond.code Cond.all f.opl).map fun c => .vcmpi p c true imm (f.vd.extractLsb' 0 4) f.va
  | _ => none

/-- The width and buffer of the tile-store forms (R136). -/
def tileModOf (m : BitVec 10) : Option (Bool × TBuf) :=
  if m.extractLsb' 5 5 != 0 then none
  else if m.extractLsb' 0 3 == 4 then (ofCode TBuf.code TBuf.all (m.extractLsb' 3 2)).map fun b => (false, b)
  else if m.extractLsb' 0 3 == 6 then (ofCode TBuf.code TBuf.all (m.extractLsb' 3 2)).map fun b => (true, b)
  else none

/-- The width of `vst.rdc` (R51). -/
def rdcWidthOf (b : BitVec 2) : Option Width :=
  match b.toNat with
  | 0 => some .w
  | 1 => some .d
  | 2 => some .q
  | _ => none

/-- fmt 100 (R51). The row of `vld.b` does not name the cache hint as used, so that it is 0 there (R43), which `Instr.wf` checks. -/
def decodeFmt4 (f : FLane) : Option Instr :=
  let p := f.hdr
  match f.oph.toNat with
  | 0 =>
    match f.opl.toNat with
    | 0 => (memModOf f.vc).map fun m => .vld p m f.vd f.va f.vb
    | 1 => (memModOf f.vc).map fun m => .vst p m f.vd f.va f.vb
    | 2 => (memModOf f.vc).bind fun m => need (f.vb == 0) (.vldx p m f.vd f.va)
    | 3 => (memModOf f.vc).bind fun m => need (f.vb == 0) (.vstx p m f.vd f.va)
    | 4 => (memModOf f.vc).bind fun m => need (f.va == 0) (.vldB p m f.vd f.vb)
    | 5 =>
      if f.vc.extractLsb' 3 7 != 0 then none else
      (ofCode Width.code Width.all (f.vc.extractLsb' 0 3)).map fun wd => .vlds p wd f.vd f.va f.vb
    | 6 =>
      if f.vc.extractLsb' 3 7 != 0 then none else
      (ofCode Width.code Width.all (f.vc.extractLsb' 0 3)).map fun wd => .vsts p wd f.vd f.va f.vb
    | _ => (tileModOf f.vc).map fun t => .vldt p t.1 t.2 f.vd f.va f.vb
  | 1 =>
    match f.opl.toNat with
    | 0 => (tileModOf f.vc).map fun t => .vstt p t.1 t.2 f.vd f.va f.vb
    | 1 =>
      if f.vc.extractLsb' 0 5 != 0 || f.vd != 0 then none else
      (ofCode Scope.code Scope.all (f.vc.extractLsb' 5 3)).bind fun s =>
      (ofCode Hint.code Hint.all (f.vc.extractLsb' 8 2)).map fun h => .vpf p s h f.va f.vb
    | 2 => (rdcWidthOf (f.vc.extractLsb' 0 2)).map fun wd => .vstRdc p wd (f.vc.extractLsb' 2 8) f.vd f.va f.vb
    | 3 => need (!p.rb && !p.ra && f.vc == 0 && f.vb == 0 && f.va == 0 && f.vd == 0) (.vexit p)
    | _ => none
  | _ => none

/-- The lane that `vext` and `vins` name (R52). -/
def laneSelOf (f : FLane) : Option LaneSel :=
  if f.vc.extractLsb' 6 4 != 0 then none
  else if f.vc.extractLsb' 5 1 == 1 then (if f.vb == 0 then some (.imm (f.vc.extractLsb' 0 5)) else none)
  else if f.vc.extractLsb' 0 5 == 0 then (xOfField f.vb).map .reg
  else none

/-- fmt 101 (R52). -/
def decodeFmt5 (f : FLane) : Option Instr :=
  let p := f.hdr
  match f.oph.toNat with
  | 0 =>
    if f.vc.extractLsb' 3 7 != 0 then none else
    (ofCode SubW.code SubW.all (f.vc.extractLsb' 0 3)).bind fun g =>
      match f.opl.toNat with
      | 0 => some (.vshflIdx p g f.vd f.va f.vb)
      | 1 => some (.vshflUp p g f.vd f.va f.vb)
      | 2 => some (.vshflDown p g f.vd f.va f.vb)
      | 3 => some (.vshflXor p g f.vd f.va f.vb)
      | _ => none
  | 1 =>
    if f.vc.extractLsb' 4 6 != 0 || f.vb != 0 then none else
    (ofCode SubW.code SubW.all (f.vc.extractLsb' 0 3)).bind fun g =>
      let dbl := bit1 (f.vc.extractLsb' 3 1)
      match f.opl.toNat with
      | 0 => need (!dbl && f.vd.extractLsb' 4 6 == 0) (.vvoteAny p g (f.vd.extractLsb' 0 4) f.va)
      | 1 => need (!dbl && f.vd.extractLsb' 4 6 == 0) (.vvoteAll p g (f.vd.extractLsb' 0 4) f.va)
      | 2 => need (!dbl) (.vvoteMask p g f.vd f.va)
      | 4 => some (.vmatch p dbl g f.vd f.va)
      | _ => none
  | 2 =>
    if f.vc.extractLsb' 8 2 != 0 || f.vc.extractLsb' 3 1 != 0 || f.vb != 0 then none else
    (ofCode SubW.code SubW.all (f.vc.extractLsb' 0 3)).bind fun g =>
    (ofCode ScanTy.code ScanTy.all (f.vc.extractLsb' 4 3)).bind fun t =>
      let exc := bit1 (f.vc.extractLsb' 7 1)
      match f.opl.toNat with
      | 0 => some (.vscanAdd p t exc g f.vd f.va)
      | 1 => some (.vscanMin p t exc g f.vd f.va)
      | 2 => some (.vscanMax p t exc g f.vd f.va)
      | _ => none
  | 3 =>
    if f.vc.extractLsb' 7 3 != 0 || f.vc.extractLsb' 0 4 != 0 || f.vb != 0 || f.vd.extractLsb' 5 5 != 0 then none else
    let xd : XReg := f.vd.extractLsb' 0 5
    (ofCode ScanTy.code ScanTy.all (f.vc.extractLsb' 4 3)).bind fun t =>
      match f.opl.toNat with
      | 0 => some (.vlredAdd p t xd f.va)
      | 1 => some (.vlredMin p t xd f.va)
      | 2 => some (.vlredMax p t xd f.va)
      | 3 => need (f.vc == 0) (.vlredAnd p xd f.va)
      | 4 => need (f.vc == 0) (.vlredOr p xd f.va)
      | 5 => need (f.vc == 0) (.vlredXor p xd f.va)
      | _ => none
  | 4 =>
    (laneSelOf f).bind fun sel =>
      match f.opl.toNat with
      | 0 => need (f.vd.extractLsb' 5 5 == 0) (.vext p sel (f.vd.extractLsb' 0 5) f.va)
      | 1 => (xOfField f.va).map fun xs => .vins p sel f.vd xs
      | _ => none
  | _ => none

/-- The atomics and reductions of fmt 110, by op[6:3]. -/
def decodeAtomic (f : FLane) (t : ATy) (o : Ordering4) (sc : Scope) : Option Instr :=
  let p := f.hdr
  let xb : XReg := f.vc.extractLsb' 0 5
  match f.oph.toNat with
  | 0 => some (.vamoAdd p t o sc xb f.vd f.va f.vb)
  | 1 => some (.vamoMin p t o sc xb f.vd f.va f.vb)
  | 2 => some (.vamoMax p t o sc xb f.vd f.va f.vb)
  | 3 => some (.vamoAnd p t o sc xb f.vd f.va f.vb)
  | 4 => some (.vamoOr p t o sc xb f.vd f.va f.vb)
  | 5 => some (.vamoXor p t o sc xb f.vd f.va f.vb)
  | 6 => some (.vamoXchg p t o sc xb f.vd f.va f.vb)
  | 7 => some (.vamoCas p t o sc xb f.vd f.va f.vb)
  | 8 => need (f.vb == 0) (.vmredAdd p t o sc xb f.vd f.va)
  | 9 => need (f.vb == 0) (.vmredMin p t o sc xb f.vd f.va)
  | 10 => need (f.vb == 0) (.vmredMax p t o sc xb f.vd f.va)
  | 11 => need (f.vb == 0) (.vmredAnd p t o sc xb f.vd f.va)
  | 12 => need (f.vb == 0) (.vmredOr p t o sc xb f.vd f.va)
  | 13 => need (f.vb == 0) (.vmredXor p t o sc xb f.vd f.va)
  | _ => none

/-- fmt 110 (R53). -/
def decodeFmt6 (f : FLane) : Option Instr :=
  let p := f.hdr
  let xq : XReg := f.vc.extractLsb' 0 5
  if f.oph == 15 then
    if f.vc.extractLsb' 5 5 != 0 || f.vb != 0 then none else
    match f.opl.toNat with
    | 0 => need (f.va == 0) (.vqenq p false xq f.vd)
    | 1 => need (f.va == 0) (.vqenq p true xq f.vd)
    | 2 => need (f.va == 0) (.vqdeq p false xq f.vd)
    | 3 => need (f.va == 0) (.vqdeq p true xq f.vd)
    | 4 => need (f.va.extractLsb' 4 6 == 0) (.vqtdeq p false (f.va.extractLsb' 0 4) xq f.vd)
    | 5 => need (f.va.extractLsb' 4 6 == 0) (.vqtdeq p true (f.va.extractLsb' 0 4) xq f.vd)
    | _ => none
  else
    (ofCode Scope.code Scope.all (f.vc.extractLsb' 5 3)).bind fun sc =>
    (ofCode Ordering4.code Ordering4.all (f.vc.extractLsb' 8 2)).bind fun o =>
      if f.oph == 14 then
        (ofCode OrdTy.code OrdTy.all f.opl).bind fun t => need (f.vb == 0) (.vmredAddOrd p t o sc xq f.vd f.va)
      else (ofCode ATy.code ATy.all f.opl).bind fun t => decodeAtomic f t o sc

/-- A lane word from its fields, before the operand limits. -/
def rawLane (f : FLane) : Option Instr :=
  match f.fmt.toNat with
  | 0 => decodeFmt0 f
  | 1 => decodeFmt1 f
  | 2 => decodeFmt2 f
  | 3 => decodeFmt3 f
  | 4 => decodeFmt4 f
  | 5 => decodeFmt5 f
  | 6 => decodeFmt6 f
  | _ => none

/-- The words that R48 sets aside: fmt 001 with op 0x5C, whatever their other fields. -/
def FLane.isClmul (f : FLane) : Bool := f.fmt == 1 && f.oph == 11 && f.opl == 4

/-- A lane word (R44, R48). -/
def decode64 (w : BitVec 64) : Option Instr :=
  let f := FLane.ofWord w
  if f.isClmul then some (.vclmulN32 w) else (rawLane f).filter Instr.wf

/-! ## The stream -/

/-- What the decoder makes of the bytes at the program counter. A reject carries its reason and the bits that stval
takes. -/
inductive Reject where
  | reserved48 | reserved80 | compressed | word32 | laneWord
  deriving DecidableEq, Repr

inductive Decoded where
  | instr (i : Instr) (bits : Word) (len : Nat)
  | reject (why : Reject) (bits : Word) (len : Nat)
  deriving DecidableEq, Repr

/-- Little-endian bytes as a number (R8). -/
def leNat : List Byte → Nat
  | [] => 0
  | b :: bs => b.toNat + 256 * leNat bs

/-- The length in bytes that the first halfword gives: 0 stands for the reserved 48-bit and longer encodings (R31). -/
def instrLen (h : BitVec 16) : Nat :=
  if h.extractLsb' 0 2 != 3 then 2
  else if h.extractLsb' 2 3 != 7 then 4
  else if h.extractLsb' 0 7 == 0x3F then 8
  else 0

/-- Decoding of the eight bytes at the program counter, as a little-endian number. -/
def decodeBits (w : Word) : Decoded :=
  let h : BitVec 16 := w.extractLsb' 0 16
  let w32 : BitVec 32 := w.extractLsb' 0 32
  match instrLen h with
  | 2 =>
    match decode16 h with
    | some i => .instr i (h.zeroExtend 64) 2
    | none => .reject .compressed (h.zeroExtend 64) 2
  | 4 =>
    match decode32 w32 with
    | some i => .instr i (w32.zeroExtend 64) 4
    | none => .reject .word32 (w32.zeroExtend 64) 4
  | 8 =>
    match decode64 w with
    | some i => .instr i w 8
    | none => .reject .laneWord w 8
  | _ =>
    if h.extractLsb' 0 6 == 0x1F then .reject .reserved48 (w32.zeroExtend 64) 4
    else .reject .reserved80 (w32.zeroExtend 64) 4

/-- Decoding of bytes: those that are missing count as zeros. -/
def decode (bytes : List Byte) : Decoded := decodeBits (BitVec.ofNat 64 (leNat (bytes.take 8)))

/-- The instruction that the decoder reads, if any. -/
def Decoded.instr? : Decoded → Option Instr
  | .instr i _ _ => some i
  | .reject .. => none

/-- The low `n` bytes of a number, least significant first (R8). -/
def natBytes (w : Nat) : Nat → List Byte
  | 0 => []
  | n + 1 => BitVec.ofNat 8 w :: natBytes (w / 256) n

/-- The bytes of an opcode-table word: parcels are stored little-endian, the first at the lowest address. -/
def tableBytes (nbits w : Nat) : List Byte := natBytes (w % 2 ^ nbits) 8

/-- What the decoder reads from a word numbered as the opcode table numbers it. -/
def decodeTableWord (nbits w : Nat) : Option Instr := (decode (tableBytes nbits w)).instr?

/-! ## The encoder -/

/-- The word of an instruction. -/
inductive Encoded where
  | w32 (w : BitVec 32)
  | w64 (w : BitVec 64)
  deriving DecidableEq, Repr

/-- The bytes of an encoded instruction. -/
def Encoded.bytes : Encoded → List Byte
  | .w32 w => natBytes w.toNat 4
  | .w64 w => natBytes w.toNat 8

/-- R shape. -/
def encR (op : BitVec 7) (f3 : BitVec 3) (f7 : BitVec 7) (rd rs1 rs2 : BitVec 5) : Option F32 :=
  some ⟨f7, rs2, rs1, f3, rd, op⟩
/-- I shape. -/
def encI (op : BitVec 7) (f3 : BitVec 3) (rd rs1 : BitVec 5) (imm : BitVec 12) : Option F32 :=
  some ⟨imm.extractLsb' 5 7, imm.extractLsb' 0 5, rs1, f3, rd, op⟩
/-- S shape. -/
def encS (op : BitVec 7) (f3 : BitVec 3) (rs1 rs2 : BitVec 5) (imm : BitVec 12) : Option F32 :=
  some ⟨imm.extractLsb' 5 7, rs2, rs1, f3, imm.extractLsb' 0 5, op⟩
/-- B shape, from bits 12:1 of the offset. -/
def encB (op : BitVec 7) (f3 : BitVec 3) (rs1 rs2 : BitVec 5) (off : BitVec 12) : Option F32 :=
  some ⟨off.extractLsb' 11 1 ++ off.extractLsb' 4 6, rs2, rs1, f3, off.extractLsb' 0 4 ++ off.extractLsb' 10 1, op⟩
/-- U shape. -/
def encU (op : BitVec 7) (rd : BitVec 5) (imm : BitVec 20) : Option F32 :=
  some ⟨imm.extractLsb' 13 7, imm.extractLsb' 8 5, imm.extractLsb' 3 5, imm.extractLsb' 0 3, rd, op⟩

/-- The U-shape field of a jump offset given as bits 20:1. -/
def uOfOffJ (off : BitVec 20) : BitVec 20 :=
  off.extractLsb' 19 1 ++ off.extractLsb' 0 10 ++ off.extractLsb' 10 1 ++ off.extractLsb' 11 8

def ofBool1 (b : Bool) : BitVec 1 := if b then 1 else 0

/-- A mask index as a 5-bit register field. -/
def mfield (k : MReg) : BitVec 5 := (0#1) ++ k

/-- The fields of a standard instruction of the row STANDARD_INSTRUCTION. -/
def encStd : Std → Option F32
  | .lui rd imm => encU 0x37 rd imm
  | .auipc rd imm => encU 0x17 rd imm
  | .jal rd off => encU 0x6F rd (uOfOffJ off)
  | .jalr rd rs1 imm => encI 0x67 0 rd rs1 imm
  | .branch c rs1 rs2 off => encB 0x63 c.code rs1 rs2 off
  | .alu op rd rs1 rs2 => encR op.code.2.2 op.code.2.1 op.code.1 rd rs1 rs2
  | .aluImm op rd rs1 imm => encI op.code.2 op.code.1 rd rs1 imm
  | .shift op rd rs1 sh => encR op.code.2.2 op.code.2.1 (op.code.1 ++ sh.extractLsb' 5 1) rd rs1 (sh.extractLsb' 0 5)
  | .un op rd rs1 => encI op.code.2.2 op.code.2.1 rd rs1 op.code.1
  | .fma op dbl rm rd rs1 rs2 rs3 => encR op.code rm.code (rs3 ++ (0#1) ++ ofBool1 dbl) rd rs1 rs2
  | .fbin op dbl rm rd rs1 rs2 => encR 0x53 rm.code (op.code ++ (0#1) ++ ofBool1 dbl) rd rs1 rs2
  | .fsqrt dbl rm rd rs1 => encR 0x53 rm.code ((0x0B#5) ++ (0#1) ++ ofBool1 dbl) rd rs1 0
  | .fsgnj op dbl rd rs1 rs2 => encR 0x53 op.code ((0x04#5) ++ (0#1) ++ ofBool1 dbl) rd rs1 rs2
  | .fminmax mx dbl rd rs1 rs2 => encR 0x53 ((0#2) ++ ofBool1 mx) ((0x05#5) ++ (0#1) ++ ofBool1 dbl) rd rs1 rs2
  | .fcmp op dbl rd rs1 rs2 => encR 0x53 op.code ((0x14#5) ++ (0#1) ++ ofBool1 dbl) rd rs1 rs2
  | .fclass dbl rd rs1 => encR 0x53 1 ((0x1C#5) ++ (0#1) ++ ofBool1 dbl) rd rs1 0
  | .fcvtFF toD rm rd rs1 => encR 0x53 rm.code ((0x08#5) ++ (0#1) ++ ofBool1 toD) rd rs1 (if toD then 0 else 1)
  | .fcvtFI dbl ty rm rd rs1 => encR 0x53 rm.code ((0x18#5) ++ (0#1) ++ ofBool1 dbl) rd rs1 ty.code
  | .fcvtIF dbl ty rm rd rs1 => encR 0x53 rm.code ((0x1A#5) ++ (0#1) ++ ofBool1 dbl) rd rs1 ty.code
  | .fmvXF dbl rd rs1 => encR 0x53 0 ((0x1C#5) ++ (0#1) ++ ofBool1 dbl) rd rs1 0
  | .fmvFX dbl rd rs1 => encR 0x53 0 ((0x1E#5) ++ (0#1) ++ ofBool1 dbl) rd rs1 0
  | .ecall => encI 0x73 0 0 0 0x000
  | .ebreak => encI 0x73 0 0 0 0x001
  | .pause => encI 0x0F 0 0 0 0x010
  | .illegal _ => none

/-- The fields of a 32-bit instruction (R33, R36 to R40). -/
def enc32 : Instr → Option F32
  | .hexit => encR 0x0B 0 0x00 0 0 0
  | .yield => encR 0x0B 0 0x01 0 0 0
  | .spawn rd rs1 rs2 => encR 0x0B 0 0x02 rd rs1 rs2
  | .cont rs1 rs2 => encR 0x0B 0 0x03 0 rs1 rs2
  | .rgrow rd rs1 => encR 0x0B 0 0x04 rd rs1 0
  | .rshrink rs1 => encR 0x0B 0 0x05 0 rs1 0
  | .uiret => encR 0x0B 0 0x06 0 0 0
  | .lbfence => encR 0x0B 0 0x07 0 0 0
  | .uimask n => encI 0x0B 1 0 0 n
  | .hloop lvl rs1 len => encI 0x0B ((2#2) ++ ofBool1 lvl) 0 rs1 len
  | .hloopi lvl count len => encI 0x0B ((3#2) ++ ofBool1 lvl) (len.extractLsb' 5 5) (len.extractLsb' 0 5) count
  | .loopCsrWrite op imm csr rd src => encI 0x73 (ofBool1 imm ++ op.code) rd src csr
  | .csrAccess op imm csr rd src => encI 0x73 (ofBool1 imm ++ op.code) rd src csr
  | .barArr rs1 imm => encI 0x2B 0 0 rs1 imm
  | .barWait rs1 imm => encI 0x2B 1 0 rs1 imm
  | .barTry rd rs1 imm => encI 0x2B 2 rd rs1 imm
  | .barArw rs1 imm => encI 0x2B 3 0 rs1 imm
  | .barCfg rs1 rs2 => encR 0x2B 4 0 0 rs1 rs2
  | .semSig rs1 rs2 => encR 0x2B 5 0x00 0 rs1 rs2
  | .semWait rs1 rs2 => encR 0x2B 5 0x01 0 rs1 rs2
  | .semTry rd rs1 rs2 => encR 0x2B 5 0x02 rd rs1 rs2
  | .mtxLock rs1 => encR 0x2B 5 0x08 0 rs1 0
  | .mtxTry rd rs1 => encR 0x2B 5 0x09 rd rs1 0
  | .mtxFree rs1 => encR 0x2B 5 0x0A 0 rs1 0
  | .msend rs1 rs2 idx => encR 0x2B 6 0x00 idx rs1 rs2
  | .mrecv rd idx => encR 0x2B 6 0x01 rd idx 0
  | .mtry rd idx => encR 0x2B 6 0x02 rd idx 0
  | .cpy rd rs1 => encR 0x5B 0 0x00 rd rs1 0
  | .mxpush rs1 rs2 => encR 0x5B 0 0x01 0 rs1 rs2
  | .mxfence => encR 0x5B 0 0x02 0 0 0
  | .strmCfg ss rs1 => encR 0x5B 0 0x03 ((0#3) ++ ss) rs1 0
  | .strmEnd ss => encR 0x5B 0 0x04 ((0#3) ++ ss) 0 0
  | .dqSearch rs1 rs2 => encR 0x5B 0 0x08 0 rs1 rs2
  | .dqCancel rs1 => encR 0x5B 0 0x0A 0 rs1 0
  | .dqShip r rd rs1 rs2 => encR 0x5B 1 ((0#1) ++ r) rd rs1 rs2
  | .cwait cls n => encI 0x5B 2 ((0#3) ++ cls) 0 n
  | .ctry rd cls n => encI 0x5B 3 rd ((0#3) ++ cls) n
  | .qinit rs1 rs2 => encR 0x7B 0 0x00 0 rs1 rs2
  | .qenqX rs1 rs2 => encR 0x7B 0 0x01 0 rs1 rs2
  | .qdeqX rd rs1 => encR 0x7B 0 0x02 rd rs1 0
  | .qenqM rs1 rs2 => encR 0x7B 0 0x03 0 rs1 rs2
  | .qdeqM rs1 rs2 => encR 0x7B 0 0x04 0 rs1 rs2
  | .qtenq rd rs1 rs2 => encR 0x7B 0 0x05 rd rs1 rs2
  | .qtdeq rd rs1 rs2 => encR 0x7B 0 0x06 rd rs1 rs2
  | .qrsv rd rs1 => encR 0x7B 0 0x07 rd rs1 0
  | .qcmt rs1 rs2 => encR 0x7B 0 0x08 0 rs1 rs2
  | .qstat rd rs1 => encR 0x7B 0 0x09 rd rs1 0
  | .qdrain rd rs1 => encR 0x7B 0 0x0A rd rs1 0
  | .mdiv k => encR 0x7B 1 0x00 0 (mfield k) 0
  | .melse k => encR 0x7B 1 0x01 0 (mfield k) 0
  | .mjoin => encR 0x7B 1 0x02 0 0 0
  | .mrejoin => encR 0x7B 1 0x03 0 0 0
  | .mpush => encR 0x7B 1 0x04 0 0 0
  | .mpop => encR 0x7B 1 0x05 0 0 0
  | .mrd rd rs1 => encR 0x7B 1 0x06 rd rs1 0
  | .mwr rs1 rs2 => encR 0x7B 1 0x07 0 rs1 rs2
  | .bmany k off => encB 0x7B 2 (mfield k) 0 off
  | .bmall k off => encB 0x7B 3 (mfield k) 0 off
  | .bmnone k off => encB 0x7B 4 (mfield k) 0 off
  | .wrCommit rs1 => encR 0x7B 5 0x00 0 rs1 0
  | .wrDone => encR 0x7B 5 0x01 0 0 0
  | .wrDrop => encR 0x7B 5 0x02 0 0 0
  | .lrel rs1 => encR 0x7B 5 0x08 0 rs1 0
  | .hartLoad k rd rs1 imm => encI k.code.2 k.code.1 rd rs1 imm
  | .hartStore k rs1 rs2 imm => encS k.code.2 k.code.1 rs1 rs2 imm
  | .hartAmo op dbl aq rl rd rs1 rs2 => encR 0x2F (if dbl then 3 else 2) (op.code ++ ofBool1 aq ++ ofBool1 rl) rd rs1 rs2
  | .fence fm pred succ => encI 0x0F 0 0 0 (fm ++ pred ++ succ)
  | .fenceI => encI 0x0F 1 0 0 0
  | .sfenceVma rs1 rs2 => encR 0x73 0 0x09 0 rs1 rs2
  | .wfi => encI 0x73 0 0 0 0x105
  | .wrsNto => encI 0x73 0 0 0 0x00D
  | .wrsSto => encI 0x73 0 0 0 0x01D
  | .xret mret => encI 0x73 0 0 0 (if mret then 0x302 else 0x102)
  | .standardInstruction i => encStd i
  | _ => none

/-- A lane word from its header, format, op and operands. -/
def encLane (p : LaneHdr) (fmt : BitVec 3) (oph : BitVec 4) (opl : BitVec 3) (vd va vb vc : BitVec 10) : Option FLane :=
  some ⟨ofBool1 p.rb, ofBool1 p.ra, ofBool1 p.pn, p.pm, vc, vb, va, vd, oph, opl, fmt, 0x3F⟩

/-- A three-source float form (R46): `k` is the number of the operation in its group of four. -/
def encFma (p : LaneHdr) (k : BitVec 2) (f : FForm) (vd va vb vc : LOp) : Option FLane :=
  match f with
  | .f32 rm => encLane p 0 ((0#2) ++ k) rm.code vd va vb vc
  | .h2 => encLane p 0 4 ((0#1) ++ k) vd va vb vc
  | .b2 => encLane p 0 4 ((1#1) ++ k) vd va vb vc

/-- mod of the two-source float forms. -/
def FForm.mod : FForm → BitVec 10
  | .f32 rm => (0#7) ++ rm.code
  | .h2 => 8
  | .b2 => 16

/-- mod of `vpack`. -/
def PackTy.mod : PackTy → BitVec 10
  | .s16 => 0x30
  | .n16 => 0x40
  | .f16 rm sat => (0#2) ++ (5#4) ++ ofBool1 sat ++ rm.code
  | .bf16 rm sat => (0#2) ++ (6#4) ++ ofBool1 sat ++ rm.code

/-- mod of the global memory forms. -/
def MemMod.code (m : MemMod) : BitVec 10 := m.hint.code ++ m.scope.code ++ m.ord.code ++ m.width.code

/-- A mask or x destination in the vd field. -/
def mdField (md : MReg) : BitVec 10 := (0#6) ++ md
def xdField (xd : XReg) : BitVec 10 := (0#5) ++ xd
/-- An x register as a source operand. -/
def xsField (x : XReg) : BitVec 10 := (24#5) ++ x

/-- The vb field and mod of a lane selector. -/
def LaneSel.vb : LaneSel → BitVec 10
  | .imm _ => 0
  | .reg x => xsField x
def LaneSel.mod : LaneSel → BitVec 10
  | .imm i => (1#5) ++ i
  | .reg _ => 0

/-- An immediate form: imm20 fills vc and vb. -/
def encImm (p : LaneHdr) (oph : BitVec 4) (opl : BitVec 3) (vd va : BitVec 10) (imm : BitVec 20) : Option FLane :=
  encLane p 3 oph opl vd va (imm.extractLsb' 0 10) (imm.extractLsb' 10 10)

/-- An atomic or a reduction. -/
def encAmo (p : LaneHdr) (oph : BitVec 4) (opl : BitVec 3) (o : Ordering4) (sc : Scope) (xb : XReg)
    (vd va vb : LOp) : Option FLane :=
  encLane p 6 oph opl vd va vb (o.code ++ sc.code ++ xb)

/-- The width code of `vst.rdc`. -/
def rdcCode : Width → BitVec 2
  | .w => 0
  | .d => 1
  | _ => 2

/-- The fields of a lane word (R41 to R53). -/
def encFLane : Instr → Option FLane
  | .vfma p f vd va vb vc => encFma p 0 f vd va vb vc
  | .vfms p f vd va vb vc => encFma p 1 f vd va vb vc
  | .vfnma p f vd va vb vc => encFma p 2 f vd va vb vc
  | .vfnms p f vd va vb vc => encFma p 3 f vd va vb vc
  | .vdp2 p bf vd va vb vc => encLane p 0 5 ((0#2) ++ ofBool1 bf) vd va vb vc
  | .vdp4 p t vd va vb vc => encLane p 0 5 t.code vd va vb vc
  | .vmad p u vd va vb vc => encLane p 0 6 ((0#2) ++ ofBool1 u) vd va vb vc
  | .vmadh p u vd va vb vc => encLane p 0 6 ((1#2) ++ ofBool1 u) vd va vb vc
  | .vsel p vd va vb vc => encLane p 0 6 4 vd va vb vc
  | .vbfi p vd va vb vc => encLane p 0 6 5 vd va vb vc
  | .vfunnel p vd va vb vc => encLane p 0 6 6 vd va vb vc
  | .vadd p t vd va vb => encLane p 1 0 t.code vd va vb 0
  | .vsub p t vd va vb => encLane p 1 1 t.code vd va vb 0
  | .vmul p t vd va vb => encLane p 1 2 t.code vd va vb 0
  | .vmulh p t vd va vb => encLane p 1 3 t.code vd va vb 0
  | .vmin p t vd va vb => encLane p 1 4 t.code vd va vb 0
  | .vmax p t vd va vb => encLane p 1 5 t.code vd va vb 0
  | .vabsd p t vd va vb => encLane p 1 6 t.code vd va vb 0
  | .vadds p t vd va vb => encLane p 1 7 t.code vd va vb 0
  | .vsubs p t vd va vb => encLane p 1 8 t.code vd va vb 0
  | .vfadd p f vd va vb => encLane p 1 9 0 vd va vb f.mod
  | .vfsub p f vd va vb => encLane p 1 9 1 vd va vb f.mod
  | .vfmul p f vd va vb => encLane p 1 9 2 vd va vb f.mod
  | .vfmin p f vd va vb => encLane p 1 9 3 vd va vb f.mod
  | .vfmax p f vd va vb => encLane p 1 9 4 vd va vb f.mod
  | .vand p vd va vb => encLane p 1 10 0 vd va vb 0
  | .vor p vd va vb => encLane p 1 10 1 vd va vb 0
  | .vxor p vd va vb => encLane p 1 10 2 vd va vb 0
  | .vandn p vd va vb => encLane p 1 10 3 vd va vb 0
  | .vsll p vd va vb => encLane p 1 10 4 vd va vb 0
  | .vsrl p vd va vb => encLane p 1 10 5 vd va vb 0
  | .vsra p vd va vb => encLane p 1 10 6 vd va vb 0
  | .vrol p vd va vb => encLane p 1 10 7 vd va vb 0
  | .vcmp p c u md va vb => encLane p 1 11 0 (mdField md) va vb ((0#5) ++ ofBool1 u ++ (0#1) ++ c.code)
  | .vfcmp p c md va vb => encLane p 1 11 1 (mdField md) va vb ((0#7) ++ c.code)
  | .vpack p t vd va vb => encLane p 1 11 2 vd va vb t.mod
  | .vperm p vd va vb => encLane p 1 11 3 vd va vb 0
  | .vmov p vd va => encLane p 2 0 0 vd va 0 0
  | .vnot p vd va => encLane p 2 0 1 vd va 0 0
  | .vbrev p vd va => encLane p 2 0 2 vd va 0 0
  | .vclz p vd va => encLane p 2 0 3 vd va 0 0
  | .vctz p vd va => encLane p 2 0 4 vd va 0 0
  | .vpopc p vd va => encLane p 2 0 5 vd va 0 0
  | .vneg p t vd va => encLane p 2 1 ((0#1) ++ t.code) vd va 0 0
  | .vabs p t vd va => encLane p 2 1 ((1#1) ++ t.code) vd va 0 0
  | .vrcp p vd va => encLane p 2 2 0 vd va 0 0
  | .vrsqrt p vd va => encLane p 2 2 1 vd va 0 0
  | .vsqrt p rm vd va => encLane p 2 2 2 vd va 0 ((0#7) ++ rm.code)
  | .vexp2 p vd va => encLane p 2 2 3 vd va 0 0
  | .vlog2 p vd va => encLane p 2 2 4 vd va 0 0
  | .vsin p vd va => encLane p 2 2 5 vd va 0 0
  | .vcos p vd va => encLane p 2 2 6 vd va 0 0
  | .vtanh p vd va => encLane p 2 2 7 vd va 0 0
  | .vfrac p vd va => encLane p 2 3 0 vd va 0 0
  | .vrnd p rm vd va => encLane p 2 3 1 vd va 0 ((0#7) ++ rm.code)
  | .vfclass p vd va => encLane p 2 3 2 vd va 0 0
  | .vcvt p dst src rm sat vd va =>
      encLane p 2 ((4#3) ++ src.code.extractLsb' 3 1) (src.code.extractLsb' 0 3) vd va 0
        ((0#2) ++ dst.code ++ ofBool1 sat ++ rm.code)
  | .vcvtSr p dst sat vd va => encLane p 2 10 0 vd va 0 ((0#2) ++ dst.code ++ ofBool1 sat ++ (0#3))
  | .vunpack p src j vd va => encLane p 2 10 1 vd va 0 ((0#2) ++ src.code ++ (0#1) ++ j)
  | .vmovi p imm vd => encImm p 0 0 vd 0 imm
  | .vaddi p imm vd va => encImm p 0 1 vd va imm
  | .vandi p imm vd va => encImm p 0 2 vd va imm
  | .vori p imm vd va => encImm p 0 3 vd va imm
  | .vxori p imm vd va => encImm p 0 4 vd va imm
  | .vslli p sh vd va => encLane p 3 0 5 vd va ((0#5) ++ sh) 0
  | .vsrli p sh vd va => encLane p 3 0 6 vd va ((0#5) ++ sh) 0
  | .vsrai p sh vd va => encLane p 3 0 7 vd va ((0#5) ++ sh) 0
  | .vmuli p imm vd va => encImm p 1 0 vd va imm
  | .vcmpi p c u imm md va => encImm p ((1#3) ++ ofBool1 u) c.code (mdField md) va imm
  | .vld p m vd va vb => encLane p 4 0 0 vd va vb m.code
  | .vst p m vd va vb => encLane p 4 0 1 vd va vb m.code
  | .vldx p m vd va => encLane p 4 0 2 vd va 0 m.code
  | .vstx p m vd va => encLane p 4 0 3 vd va 0 m.code
  | .vldB p m vd vb => encLane p 4 0 4 vd 0 vb m.code
  | .vlds p wd vd va vb => encLane p 4 0 5 vd va vb ((0#7) ++ wd.code)
  | .vsts p wd vd va vb => encLane p 4 0 6 vd va vb ((0#7) ++ wd.code)
  | .vldt p q buf vd va vb => encLane p 4 0 7 vd va vb ((0#5) ++ buf.code ++ (if q then (6#3) else (4#3)))
  | .vstt p q buf vd va vb => encLane p 4 1 0 vd va vb ((0#5) ++ buf.code ++ (if q then (6#3) else (4#3)))
  | .vpf p s h va vb => encLane p 4 1 1 0 va vb (h.code ++ s.code ++ (0#5))
  | .vstRdc p wd cnt vd va vb => encLane p 4 1 2 vd va vb (cnt ++ rdcCode wd)
  | .vexit p => encLane p 4 1 3 0 0 0 0
  | .vshflIdx p g vd va vb => encLane p 5 0 0 vd va vb ((0#7) ++ g.code)
  | .vshflUp p g vd va vb => encLane p 5 0 1 vd va vb ((0#7) ++ g.code)
  | .vshflDown p g vd va vb => encLane p 5 0 2 vd va vb ((0#7) ++ g.code)
  | .vshflXor p g vd va vb => encLane p 5 0 3 vd va vb ((0#7) ++ g.code)
  | .vvoteAny p g md va => encLane p 5 1 0 (mdField md) va 0 ((0#7) ++ g.code)
  | .vvoteAll p g md va => encLane p 5 1 1 (mdField md) va 0 ((0#7) ++ g.code)
  | .vvoteMask p g vd va => encLane p 5 1 2 vd va 0 ((0#7) ++ g.code)
  | .vmatch p dbl g vd va => encLane p 5 1 4 vd va 0 ((0#6) ++ ofBool1 dbl ++ g.code)
  | .vscanAdd p t exc g vd va => encLane p 5 2 0 vd va 0 ((0#2) ++ ofBool1 exc ++ t.code ++ (0#1) ++ g.code)
  | .vscanMin p t exc g vd va => encLane p 5 2 1 vd va 0 ((0#2) ++ ofBool1 exc ++ t.code ++ (0#1) ++ g.code)
  | .vscanMax p t exc g vd va => encLane p 5 2 2 vd va 0 ((0#2) ++ ofBool1 exc ++ t.code ++ (0#1) ++ g.code)
  | .vlredAdd p t xd va => encLane p 5 3 0 (xdField xd) va 0 ((0#3) ++ t.code ++ (0#4))
  | .vlredMin p t xd va => encLane p 5 3 1 (xdField xd) va 0 ((0#3) ++ t.code ++ (0#4))
  | .vlredMax p t xd va => encLane p 5 3 2 (xdField xd) va 0 ((0#3) ++ t.code ++ (0#4))
  | .vlredAnd p xd va => encLane p 5 3 3 (xdField xd) va 0 0
  | .vlredOr p xd va => encLane p 5 3 4 (xdField xd) va 0 0
  | .vlredXor p xd va => encLane p 5 3 5 (xdField xd) va 0 0
  | .vext p sel xd va => encLane p 5 4 0 (xdField xd) va sel.vb sel.mod
  | .vins p sel vd xs => encLane p 5 4 1 vd (xsField xs) sel.vb sel.mod
  | .vamoAdd p t o sc xb vd va vb => encAmo p 0 t.code o sc xb vd va vb
  | .vamoMin p t o sc xb vd va vb => encAmo p 1 t.code o sc xb vd va vb
  | .vamoMax p t o sc xb vd va vb => encAmo p 2 t.code o sc xb vd va vb
  | .vamoAnd p t o sc xb vd va vb => encAmo p 3 t.code o sc xb vd va vb
  | .vamoOr p t o sc xb vd va vb => encAmo p 4 t.code o sc xb vd va vb
  | .vamoXor p t o sc xb vd va vb => encAmo p 5 t.code o sc xb vd va vb
  | .vamoXchg p t o sc xb vd va vb => encAmo p 6 t.code o sc xb vd va vb
  | .vamoCas p t o sc xb vd va vb => encAmo p 7 t.code o sc xb vd va vb
  | .vmredAdd p t o sc xb vd va => encAmo p 8 t.code o sc xb vd va 0
  | .vmredMin p t o sc xb vd va => encAmo p 9 t.code o sc xb vd va 0
  | .vmredMax p t o sc xb vd va => encAmo p 10 t.code o sc xb vd va 0
  | .vmredAnd p t o sc xb vd va => encAmo p 11 t.code o sc xb vd va 0
  | .vmredOr p t o sc xb vd va => encAmo p 12 t.code o sc xb vd va 0
  | .vmredXor p t o sc xb vd va => encAmo p 13 t.code o sc xb vd va 0
  | .vmredAddOrd p t o sc xb vd va => encAmo p 14 t.code o sc xb vd va 0
  | .vqenq p dbl xq vd => encLane p 6 15 ((0#2) ++ ofBool1 dbl) vd 0 0 ((0#5) ++ xq)
  | .vqdeq p dbl xq vd => encLane p 6 15 ((1#2) ++ ofBool1 dbl) vd 0 0 ((0#5) ++ xq)
  | .vqtdeq p dbl ms xq vd => encLane p 6 15 ((2#2) ++ ofBool1 dbl) vd (mdField ms) 0 ((0#5) ++ xq)
  | _ => none

/-- The word of a well-formed instruction; events and illegal words have none. -/
def encode (i : Instr) : Option Encoded :=
  if !i.wf then none else
  match enc32 i with
  | some f => some (.w32 f.toWord)
  | none => (encFLane i).map fun f => .w64 f.toWord

end Sys2Proof
end

