-- ==== Sys2Proof/Machine/State.lean ====
section
/-! DEFINITION. The state of one JM4 module as plain data, why a run can stop, and the state right after reset. INVENTORY.md
lists every field with the rule that names it and its reset value. -/
namespace Sys2Proof.Machine

/-- Why the machine stops. -/
inductive Fault where
  /-- Raised by `step` once a die-to-die boundary could not retrain: the package has stopped, and only a reset or the loss of
  its power is left (R404). Safe. -/
  | packageStopped
  deriving DecidableEq, Repr

/-- Why the model refuses. -/
inductive Refusal where
  /-- Raised by an arm of `exec` whose instruction has no meaning yet. Safe. -/
  | notModelled (mnemonic : String)
  deriving DecidableEq, Repr

/-! ## A hart (R64) -/

/-- Privilege modes (R70). -/
inductive Priv where
  | u | s | m
  deriving DecidableEq, Repr

/-- An entry of the mask stack (R153). -/
structure MaskEntry where
  saved : Mask
  park  : Mask
  tag   : Word
  rpc   : Word
  deriving DecidableEq, Repr

/-- One element that a read stream has fetched: its bits, or the fault that its refill met (R144). -/
inductive StrmElem where
  | data (v : Word)
  | fault (cause sub : Nat) (va : Word)
  deriving DecidableEq, Repr

/-- A bound stream slot (R142 to R145, R245). -/
structure StrmSlot where
  bound  : Bool
  /-- address of the descriptor's doublewords as bound: the 8 doublewords of R245 -/
  desc   : List Word
  /-- the privilege of the `strm.cfg` (R71) -/
  priv   : Priv
  base   : Word
  reg    : Nat
  write  : Bool
  tc     : Tc
  ext    : List Nat
  stride : List Word
  pos    : Nat
  /-- elements fetched ahead, the first for position `pos` -/
  buf    : List StrmElem
  deriving DecidableEq, Repr

/-- A user-interrupt event; `dec` names the counter class that falls when it enters the queue (R80, R81). -/
structure UiEvent where
  cause   : Nat
  ident   : Word
  /-- handler address; 0 stands for the one that uivec gives -/
  handler : Word
  dec     : Option Nat
  /-- the scope at which taking the event is an acquire (R316) -/
  acq     : Option Scope
  deriving DecidableEq, Repr

/-- What an event word of `cont` names (R88). -/
inductive ContEvent where
  | barrier (dom : DomKey)
  | copy (id : Nat)
  | query (va : Word)
  | counter (cls n : Nat)
  deriving DecidableEq, Repr

/-! ## Requests that a waiting instruction holds: a copy transfer, a query -/

/-- A copy transfer (R235, R239). -/
structure Xfer where
  uid     : Nat
  /-- the hart's own number for it -/
  id      : Nat
  gid     : Nat
  team    : Nat
  cluster : Nat
  /-- the 8 doublewords of the block, the address of the block, and the records -/
  blk     : List Word
  blkVa   : Word
  recS    : List Word
  recD    : List Word
  /-- virtual page number and physical page address of each page it holds -/
  pages   : List (Nat × Nat)
  /-- destination bytes already moved -/
  moved   : Nat
  /-- source bytes of its chunk that it has read before the others (R310) -/
  got     : File Byte
  /-- destination bytes of its chunk that it has still to write, by their address in the destination space (R310) -/
  owed    : List (Nat × List Byte)
  poison  : Bool
  /-- it has been ended early (R241) -/
  dropped : Bool
  /-- the payload is whole; the completion actions are yet to come -/
  done    : Bool
  /-- its place in the issue order: the step that issued it (R240) -/
  turn    : Nat
  /-- the reserved hart place of SPAWN -/
  place   : Option Nat
  deriving DecidableEq, Repr

structure HeapEnt where
  id   : Nat
  dist : Nat
  exp  : Bool
  deriving DecidableEq, Repr

/-- What a round of a query waits for (R333, R334). -/
inductive QPhase where
  /-- awaiting admission -/
  | waiting
  /-- at a round boundary -/
  | boundary
  /-- the LIST step: the vertices of X, then the stacks still to ask and those asked -/
  | list
  /-- the EVAL step -/
  | eval
  /-- ended; the record is to be written -/
  | ended
  /-- the record is written; the completion action is yet to come -/
  | recorded
  deriving DecidableEq, Repr

structure Query where
  uid    : Nat
  gid    : Nat
  launch : Nat
  team   : Nat
  /-- the 32 doublewords of the descriptor, and its virtual address -/
  desc   : List Word
  va     : Word
  satp   : Word
  priv   : Priv
  sum    : Bool
  mxr    : Bool
  pbmt   : Bool
  pmpcfg : File Byte
  pmpaddr : File Word
  prio   : Nat
  tag    : BitVec 32
  ord    : Bool
  /-- pages of the query vector, the result buffer and the FLAG address -/
  pages  : List (Nat × Nat)
  phase  : QPhase
  qvec   : List Nat
  heap   : List HeapEnt
  vis    : List Nat
  visFull : Bool
  rounds : Nat
  hand   : Nat
  evals  : Nat
  /-- X of the round and `new` of the round -/
  xs     : List Nat
  new    : List Nat
  /-- stacks to which a request has still to be sent, and requests without reply -/
  toAsk  : List Nat
  asked  : List Nat
  lists  : List (Nat × List Nat)
  dists  : List (Nat × Nat)
  /-- vertices of the round that failed -/
  bad    : List Nat
  status : Nat
  faultV : Nat
  noVec  : Bool
  /-- the clock at which a `dq.cancel` for it was issued -/
  cancel : Option Nat
  divert : Bool
  killed : Bool
  place  : Option Nat
  deriving DecidableEq, Repr

/-- An element that a command has still to write: into a buffer at a place in units of 4 bits, or into memory at a virtual
address (R310). -/
structure Owed where
  buf   : Option TBuf
  place : Nat
  width : Nat
  val   : Nat
  deriving DecidableEq, Repr

/-- Where a tile command stands (R202, R209). -/
inductive CmdPhase where
  | queued
  /-- in the waiter list of its semaphore -/
  | listed
  | eligible
  /-- started; its effect on the buffers and on memory is yet to come -/
  | started
  /-- an `mmrot` that has multiplied and sent, and waits for landing data -/
  | landing
  /-- its effect is done; the completion is yet to come -/
  | finished
  deriving DecidableEq, Repr

/-- A tile command in a core's queue: the patched word, its records and its translations (R198). -/
structure Cmd where
  uid   : Nat
  gid   : Nat
  team  : Nat
  d0    : Word
  d1    : Word
  d2    : Word
  d3    : Word
  recA  : List Word
  recB  : List Word
  /-- virtual page number and physical page address of each page of `acc.ld` and `acc.st` -/
  pages : List (Nat × Nat)
  phase : CmdPhase
  /-- `mmrot`: what it has still to do (1 send west, 2 send north, 4 land A, 8 land B) -/
  toSend : Nat
  since : Nat
  /-- bytes that it has read before the others: of the buffers, and of the rows of `acc.ld` (R310) -/
  got   : File Byte
  /-- words that it has still to write (R310) -/
  owed  : List Owed
  deriving DecidableEq, Repr

/-- What a waiting hart waits in (R301, R303). -/
inductive Wait where
  | rgrow (need : Nat)
  /-- `arrived`: a `bar.arw` whose arrival has been counted (R233) -/
  | barrier (dom : DomKey) (arrived : Bool)
  | queueEnq (qcb : Nat) | queueDeq (qcb : Nat)
  /-- `again`: the 256 ck have passed, and the request is sent again (R282) -/
  | queueRetry (qcb : Nat) (enq again : Bool)
  | sem (core idx : Nat)
  | mutex (core idx : Nat)
  | mrecv (idx : Nat)
  | msend (target idx : Nat)
  | zawrs (nto : Bool) (set : Nat)
  | wfi
  | mxfence
  /-- the request that has passed every check, with its SPAWN reservation: it waits for room (R198, R239, R332) -/
  | mxpush (c : Cmd) | cpy (x : Xfer) | dredge (q : Query)
  | counter (cls : Nat) | ship (uid : Nat) | stream
  /-- an access held at these ports (R394) -/
  | far (ports : List Nat)
  /-- a store to a line that the host caches (R397) -/
  | snoop (line : Nat)
  deriving DecidableEq, Repr

/-- Whether the place holds a hart, and what the hart does. -/
inductive Run where
  /-- no hart in the place -/
  | vacant
  /-- the place is held for a continuation (R88) -/
  | cont (ev : ContEvent)
  /-- the place is held for the SPAWN completion of a copy transfer or a query (R239, R332) -/
  | reserved (uid : Nat)
  /-- created, and not yet eligible to issue (R87) -/
  | starting
  | ready
  | waiting (w : Wait)
  deriving DecidableEq, Repr

/-- A trigger of Sdtrig (R34: four of type mcontrol6). -/
structure Trigger where
  tdata1 : Word
  tdata2 : Word
  tdata3 : Word
  deriving DecidableEq, Repr

/-- The standard CSRs of the RISC-V profile (R33, R34, R70), the Efune trap CSRs beside them. -/
structure Csrs where
  fflags        : BitVec 5
  frm           : BitVec 3
  mstatus       : Word
  medeleg       : Word
  mideleg       : Word
  mie           : Word
  mip           : Word
  mtvec         : Word
  mcounteren    : Word
  menvcfg       : Word
  mcountinhibit : Word
  mscratch      : Word
  mepc          : Word
  mcause        : Word
  mtval         : Word
  mxcause       : Word
  stvec         : Word
  scounteren    : Word
  senvcfg       : Word
  sscratch      : Word
  sepc          : Word
  scause        : Word
  stval         : Word
  sxcause       : Word
  satp          : Word
  stimecmp      : Word
  /-- mcycle less the machine's clock, or mcycle itself while mcountinhibit.CY is set -/
  mcycle        : Word
  minstret      : Word
  pmpcfg        : File Byte
  pmpaddr       : File Word
  tselect       : Nat
  trig          : File Trigger
  mcontext      : Word
  scontext      : Word
  deriving DecidableEq, Repr

/-- What external debug holds of a hart (R382; debug 1.0). -/
structure DebugSt where
  halted : Bool
  dpc    : Word
  dcsr   : Word
  /-- 1 while one instruction is to run before the hart halts again -/
  step   : Bool
  deriving DecidableEq, Repr

/-- A hart place with its hart (R64, R65, R68). -/
structure Hart where
  gid     : Nat
  run     : Run
  team    : Nat
  role    : Nat
  /-- the hart's number within its team (R163) -/
  num     : Nat
  pc      : Word
  mode    : Priv
  /-- the instruction in execution, zero-extended, and its length in bytes -/
  ir      : Word
  ilen    : Nat
  x       : File Word
  f       : File Word
  /-- lane registers: the key is 32 × register + lane -/
  v       : File Lane
  /-- mask registers m0 to m15 -/
  m       : File Mask
  live    : Mask
  mstk    : List MaskEntry
  lalloc  : Nat
  csr     : Csrs
  lpcnt0  : Word
  lpbeg0  : Word
  lpend0  : Word
  lpxe0   : Word
  lpcnt1  : Word
  lpbeg1  : Word
  lpend1  : Word
  lpxe1   : Word
  srctr   : Word
  srseed  : Word
  srhid   : Nat
  barpend : Word
  barpc   : Word
  uivec   : Word
  uiepc   : Word
  uicause : Word
  uiid    : Word
  uiIe    : Bool
  uiAct   : Bool
  /-- the clock at which the `uimask` window ends; 0 stands for no window -/
  uiUntil : Nat
  uiq     : List UiEvent
  /-- events that their sources hold while the queue is full (R80) -/
  uiHeld  : List UiEvent
  shadow  : File Word
  mbox    : File Word
  mbpres  : Mask
  /-- who sent the value that a mailbox holds: the scope of its receipt follows from it (R188) -/
  mbsrc   : File Nat
  wpc     : Word
  wcause  : Word
  lfault  : Mask
  lfrec   : Word
  lcomp   : Word
  /-- outstanding counters of classes 0 to 3 (acnt) -/
  cnt0    : Nat
  cnt1    : Nat
  cnt2    : Nat
  cnt3    : Nat
  /-- scopes of the outstanding lane stores of class 2, oldest first (R243) -/
  out2    : List Nat
  /-- the widest scope among the requests of a class that have completed (R243) -/
  cscope  : File Nat
  strm    : File StrmSlot
  /-- the id of its last transfer, 0 before the first -/
  nextXfer : Nat
  /-- domains whose observed parity o is 1 (R233) -/
  obs     : List DomKey
  /-- an observer's `bar.wait` in progress: the domain and its parity at issue -/
  obsWait : Option (DomKey × Bool)
  /-- the reservation of LR: the physical line (R34) -/
  resv    : Option Nat
  /-- length of the write log that this hart's fetch has taken in by `fence.i` (R32) -/
  fenceSeq : Nat
  /-- a divert is due, and the cause word it will carry (R354, R355) -/
  divertDue : Option Nat
  /-- in wrap-up (R354) -/
  wrapup  : Bool
  /-- the clock at which a timed wait began -/
  waitFrom : Nat
  /-- the value that a finished asynchronous request left for the waiting instruction -/
  answer  : Option Word
  /-- the elements of a finished lane dequeue, for the active lanes in ascending order -/
  results : List Word
  dbg     : DebugSt
  deriving DecidableEq, Repr

/-! ## A core: semaphores, mutexes, tile store, matrix engine (R162, R181, R185, R192, R202) -/

/-- Who waits on a semaphore (R181). -/
inductive SemWho where
  | hart (gid : Nat)
  | cmd (uid : Nat)
  deriving DecidableEq, Repr

structure SemWaiter where
  prio : Nat
  thr  : Nat
  who  : SemWho
  deriving DecidableEq, Repr

structure Sem where
  cnt  : Nat
  list : List SemWaiter
  deriving DecidableEq, Repr

structure Waiter where
  prio : Nat
  gid  : Nat
  deriving DecidableEq, Repr

structure Mtx where
  owner : Option Nat
  list  : List Waiter
  deriving DecidableEq, Repr

/-- A share of a core's pools (R162): offsets and sizes in the pool's own unit. -/
structure Share where
  semBase : Nat
  semN    : Nat
  mtxBase : Nat
  mtxN    : Nat
  shBase  : Nat
  shSize  : Nat
  actBase : Nat
  actSize : Nat
  wgtBase : Nat
  wgtSize : Nat
  accBase : Nat
  accSize : Nat
  deriving DecidableEq, Repr

/-- Power states of a core (R383). -/
inductive CorePower where
  | active | idle | retention | off
  deriving DecidableEq, Repr

/-- A store through the global alias that waits at the loop-back port (R90, R319). -/
structure LbStore where
  gid   : Nat
  off   : Nat
  bytes : List Byte
  deriving DecidableEq, Repr

structure Core where
  /-- CORESTAT (R305) -/
  state   : Nat
  cause   : Nat
  pass    : Bool
  /-- a reset has completed since the core stopped -/
  wasReset : Bool
  sems    : File Sem
  mtxs    : File Mtx
  act     : File Byte
  wgt     : File Byte
  acc     : File Byte
  shm     : File Byte
  queue   : List Cmd
  /-- mxbusy.rst (R200, R215) -/
  rst     : Bool
  /-- landing buffers, from the east and from the south (R209) -/
  landE   : Option (List Nat)
  landS   : Option (List Nat)
  /-- granules of the register pool with the places that have them, in the order of each place's registers (R162); a place has as many
  as its allocation counts, and what stands after them is free -/
  gran    : List (Nat × Nat)
  /-- harts that wait in `rgrow`, in grant order (R67) -/
  grow    : List Waiter
  /-- shares in scrubbing (R368) -/
  scrub   : List Share
  /-- SCNT, SCCTL, MBDISC (R178) -/
  scnt    : File Word
  /-- the ck up to which the stall counters have counted -/
  scAt    : Nat
  scEn    : Bool
  scWrap  : BitVec 4
  mbdisc  : Nat
  power   : CorePower
  /-- PCOWN (R374) -/
  slot    : Nat
  busy    : Bool
  /-- stores through the global alias that wait at the loop-back port, oldest first -/
  lb      : List LbStore
  /-- what bytes held before local-alias stores of a hart that its accesses through the port need not see yet (R319) -/
  lbOld   : List LbStore
  deriving DecidableEq, Repr

/-! ## Teams and launches (R162, R291 to R300, R349 to R368) -/

/-- Where a team stands. -/
inductive TeamPhase where
  /-- admitted with its launch, and not placed -/
  | waiting
  | running
  /-- eviction asked for; its harts stop (R364) -/
  | evicting
  | evicted
  /-- no hart, continuation, reservation or command remains, or it was killed (R85, R216, R368) -/
  | ended
  deriving DecidableEq, Repr

structure Launch where
  id      : Nat
  queue   : Nat
  /-- the 16 doublewords of the packet (R293) and the 8 of the context record (R296) -/
  pkt     : List Word
  ctx     : List Word
  boost   : Nat
  /-- dtime at which its first team started (R352) -/
  start   : Option Nat
  expired : Bool
  ended   : Bool
  /-- outcome entries held by the front end when there is no array (R358): 2-bit value per linear index -/
  outs    : File Nat
  /-- the die chosen for a die-bound grid (R300) -/
  die     : Option Nat
  deriving DecidableEq, Repr

/-- A barrier domain (R229, R230). -/
structure Dom where
  key    : DomKey
  asid   : Nat
  d      : Bool
  /-- the places whose bit is set (global hart ids), and for the team domain its harts -/
  places : List Nat
  /-- arrivals not yet consumed, for each member hart -/
  cnt    : File Nat
  deriving DecidableEq, Repr

/-- A message of `msend` on its way or in a sender list (R188). -/
structure Msg where
  uid    : Nat
  src    : Nat
  dst    : Nat
  idx    : Nat
  val    : Word
  notify : Bool
  prio   : Nat
  /-- it has reached the mailbox and stands in its sender list -/
  listed : Bool
  sentAt : Nat
  deriving DecidableEq, Repr

structure Team where
  id      : Nat
  launch  : Nat
  lin     : Nat
  core    : Nat
  share   : Share
  phase   : TeamPhase
  /-- the outcome entry has been written (R358) -/
  outDone : Bool
  /-- `wr.commit` has been performed for it -/
  committed : Bool
  /-- killed or lost: its outcome is 11 -/
  killed  : Bool
  /-- a hart of it has been in wrap-up (R355) -/
  wrapped : Bool
  /-- the die to whose distributor it has been handed (R298) -/
  die     : Option Nat
  /-- since when it waits for its preferred die (R298) -/
  since   : Nat
  spilled : Bool
  /-- where its image lies, and the image's size (R365) -/
  image   : Nat
  imageSize : Nat
  /-- restore it in order to divert it (R356) -/
  forDivert : Bool
  /-- an evicted team's places, commands and transfers, for what its image does not list (R365, R366) -/
  away    : List Hart
  awayCmds : List Cmd
  awayXfers : List Xfer
  deriving DecidableEq, Repr

/-! ## Memory system -/

/-- A line of a cluster L1 (R221). -/
structure L1Line where
  cluster : Nat
  /-- physical address bits 51:7 -/
  line    : Nat
  data    : File Byte
  sect    : BitVec 4
  first   : Bool
  /-- the way, 0 to 7, of the line's set in its slice -/
  way     : Nat
  deriving DecidableEq, Repr

/-- A line of an L2 slice (R255): where it stands, the physical line with its key id, and the sectors present. -/
structure L2Line where
  slice : Nat
  set   : Nat
  line  : Nat
  sect  : BitVec 4
  deriving DecidableEq, Repr

/-- A level of translation (R273): the micro-TLB of an issue slot (4 × core + slot), a core's TLB, a cluster's, and the Dredge
TLB of a stack. -/
inductive TlbPlace where
  | micro (slot : Nat)
  | core (core : Nat)
  | cluster (cluster : Nat)
  | dredge (stack : Nat)
  deriving DecidableEq, Repr

/-- An entry of a die's cache of non-leaf entries (R273): the table that a walk under a root reaches at level `lvl` for the
virtual-address bits above it. -/
structure WalkEnt where
  die   : Nat
  asid  : Nat
  glob  : Bool
  sv57  : Bool
  root  : Nat
  lvl   : Nat
  vtag  : Nat
  table : Nat
  deriving DecidableEq, Repr

/-- A cached translation (R273). -/
structure TlbEnt where
  place   : TlbPlace
  asid    : Nat
  glob    : Bool
  sv57    : Bool
  vpage   : Nat
  /-- log2 of the entry's page size, and of the leaf it came from -/
  size    : Nat
  leaf    : Nat
  ppage   : Nat
  pte     : Word
  deriving DecidableEq, Repr

/-- A page walk begun by a prefetch and not yet finished (R138, R273, R274). -/
structure Walk where
  uid     : Nat
  gid     : Nat
  cluster : Nat
  satp    : Word
  va      : Word
  scope   : Scope
  hint    : Hint
  /-- what the prefetch's checks act under: the privilege, SUM, MXR and PBMTE as it was issued -/
  priv    : Priv
  sum     : Bool
  mxr     : Bool
  pbmt    : Bool
  /-- shootdowns since it began, as address and ASID: it fills no TLB that one of them names (R275) -/
  struck  : List (Option Nat × Option Nat)
  deriving DecidableEq, Repr

/-- How a core holds a line in its hart data cache (R266, R267). -/
inductive HcKind where
  | shared | owned | priv
  deriving DecidableEq, Repr

structure HcLine where
  core : Nat
  line : Nat
  kind : HcKind
  /-- bytes written since the line was obtained, with their values -/
  dirty : File Byte
  /-- those of them that the home holds since a release published them (R321) -/
  pub   : List Nat
  deriving DecidableEq, Repr

/-- Transfers of ownership of a line between cores (R267). -/
structure OwnCount where
  line  : Nat
  times : List Nat
  deriving DecidableEq, Repr

/-- A pending reduction partial (R263). -/
structure Partial where
  pa  : Nat
  op  : Nat
  ty  : ATy
  val : Word
  deriving DecidableEq, Repr

/-- A reader-count line: the reads left, and what memory held before the producer's write (R257, R258). -/
structure RdcLine where
  line : Nat
  cnt  : Nat
  old  : File Byte
  deriving DecidableEq, Repr

/-- Bytes that a store of a hart has buffered at a port (R394, R402). -/
structure FarStore where
  port  : Nat
  gid   : Nat
  /-- the clock at which it was buffered, and the step that buffered it: one store is the bytes of one line and one step -/
  since : Nat
  tick  : Nat
  pa    : Nat
  bytes : List Byte
  deriving DecidableEq, Repr

/-- A byte that a store has replaced: its address, the byte as stored, and the number of the key it was written under (R32,
R371). -/
structure OldByte where
  pa   : Nat
  byte : Byte
  ver  : Nat
  deriving DecidableEq, Repr

/-- A memory port (R401). -/
structure Port where
  /-- 0 absent, 1 online, 2 offline, 3 training -/
  state : Nat
  link  : Bool
  cause : Nat
  disc  : Nat
  tmo   : Nat
  units : Nat
  /-- FMCTL.online as last written -/
  online : Bool
  /-- the clock at which the window last went offline (R402) -/
  offAt : Nat
  deriving DecidableEq, Repr

/-- A die-to-die boundary (R404). -/
structure Boundary where
  deg : Bool
  rtr : Nat
  crc : Nat
  deriving DecidableEq, Repr

/-! ## Queues (R276 to R290) -/

/-- An entry of a slice's wait table (R282). -/
structure QWait where
  slice : Nat
  qcb   : Nat
  gid   : Nat
  prio  : Nat
  asid  : Nat
  /-- an enqueue of these elements, or a dequeue -/
  enq   : Bool
  elems : List (List Byte)
  /-- elements to enqueue or to dequeue -/
  n     : Nat
  /-- physical addresses of the destination words of `qdeq.m` -/
  dst   : List Nat
  deriving DecidableEq, Repr

structure Ticket where
  slice : Nat
  qcb   : Nat
  seq   : Nat
  team  : Nat
  asid  : Nat
  deriving DecidableEq, Repr

/-! ## Dredge (R325 to R345) -/

/-- A shipped function in flight (R342). -/
structure Ship where
  uid     : Nat
  gid     : Nat
  team    : Nat
  pa      : Nat
  routine : Nat
  op0     : Word
  op1     : Word
  row     : List Byte
  /-- the routine has run; the reply is on its way -/
  ran     : Bool
  result  : Word
  /-- 0 none; 1 the line is lost; 2 the routine was aborted -/
  fail    : Nat
  deriving DecidableEq, Repr

/-! ## Polders and the Fuller (R371 to R381) -/

structure KeySlot where
  asid  : Nat
  valid : Bool
  busy  : Bool
  zero  : Bool
  /-- number of the key that the slot holds: every fresh key gets a new one -/
  ver   : Nat
  meas  : List Byte
  /-- a launch of the owner has been admitted (R374) -/
  launched : Bool
  /-- a KFLUSH of the slot has completed since the arm -/
  flushed : Bool
  deriving DecidableEq, Repr

/-- A Fuller job (R378). -/
structure Job where
  slot   : Nat
  asid   : Nat
  cores  : List Nat
  ranges : List (Nat × Nat)
  /-- shared-memory units as core and way -/
  ways   : List (Nat × Nat)
  deriving DecidableEq, Repr

/-- A die's Fuller (R379). -/
structure Fuller where
  desc  : Word
  state : Nat
  err   : Bool
  slot  : Nat
  done  : Nat
  total : Nat
  cdone : Nat
  job   : Option Job
  deriving DecidableEq, Repr

/-- A journal entry on module flash (R381). -/
structure Journal where
  die   : Nat
  job   : Job
  check : Nat
  deriving DecidableEq, Repr

/-- What may be asked of the machine next by its own agenda. -/
inductive Move where
  /-- run the focused hart -/
  | run
  /-- bring another hart into focus -/
  | focus (gid : Nat)
  /-- an event, on the object that it names -/
  | event (sel : Nat) (i : Instr)
  deriving DecidableEq, Repr

/-! ## The machine -/

/-- Each die's registers and tables that the spec gives it. -/
structure Die where
  /-- TLBSD and TLBVA (R275) -/
  tlbsd   : Word
  tlbva   : Word
  tlbdone : Bool
  /-- NPBIND and NPERR, by page (R290) -/
  npbind  : File Word
  nperr   : File Nat
  /-- the fault-address queue: kind and line, oldest first (R346) -/
  faq     : List (Nat × Nat)
  faqDrop : Nat
  /-- granules of the die-interleaved pool (R252) -/
  dd      : Nat
  fuller  : Fuller
  deriving DecidableEq, Repr

/-- The front end's registers (R291, R292, R347, R352, R365). -/
structure FrontEnd where
  lqqcb   : File Word
  lqctx   : File Word
  lqerr   : File Word
  lqNext  : Nat
  fespill : Word
  svbase  : Word
  svsize  : Word
  slk     : File Word
  bplist  : List Word
  bpBusy  : Bool
  bpFull  : Bool
  /-- MSI-X vectors: mask bits and pending bits (R396) -/
  msixMask : BitVec 16
  msixPend : BitVec 16
  /-- hang counters: the clock since which the context waits, by ASID (R301) -/
  hang    : File Nat
  deriving DecidableEq, Repr

/-- Device time (R349, R350). -/
structure TimeSt where
  tmctl  : Word
  state  : Nat
  offset : BitVec 32
  /-- dtime less the count of ck since reset -/
  skew   : Int
  /-- a correction that is still to be slewed, in ns -/
  slew   : Int
  /-- ns since the last whole nanosecond of slewing: below 5,000 (200 ppm) -/
  frac   : Nat
  /-- the second of dtime at which the 1PPS output rose last (R349) -/
  pps    : Nat
  /-- the clock at the last message of the source, or at its selection (R349) -/
  last   : Nat
  deriving DecidableEq, Repr

/-- Power states of the package (R383). -/
inductive PkgPower where
  | active | standby | off
  deriving DecidableEq, Repr

/-- The firmware processor's side (R371 to R387). -/
structure Firm where
  /-- FWSTAT (R386) -/
  step    : Nat
  fail    : Bool
  keys    : File KeySlot
  nextVer : Nat
  /-- PLDSTAT, the command block in execution, KFLUSH, PRSTAT (R374) -/
  pldState : Nat
  pldErr  : Nat
  pldBlk  : Nat
  /-- the command's op has acted; its completion is yet to come -/
  pldRun  : Bool
  kfSlot  : Nat
  kfDone  : Bool
  prstat  : Nat
  /-- DBGSTAT (R382) -/
  dbg     : BitVec 2
  journal : List Journal
  /-- the image on module flash, and the one that the boot ROM has verified (R375, R385) -/
  image   : List Byte
  booted  : List Byte
  /-- routine-table entries that can be executed (R325) -/
  drtab   : Word
  throttle : Bool
  power   : PkgPower
  deriving DecidableEq, Repr

structure State where
  /-- the hart whose instruction runs next -/
  hart    : Hart
  /-- every other hart place that is not vacant, by global hart id -/
  parked  : List (Nat × Hart)
  /-- what an event acts on -/
  sel     : Nat
  agenda  : List Move
  /-- number of steps taken: the index of every free value -/
  ticks   : Nat
  /-- ck since reset -/
  clock   : Nat
  nextUid : Nat
  /-- bytes of HBM, second-tier and host memory by physical address bits 45:0 -/
  mem     : List Host.Cell
  /-- for fetch: the bytes that stores replaced, newest first (R32) -/
  wlog    : List OldByte
  /-- number of the key under which a line was written: absent stands for 0 -/
  keyOf   : File Nat
  cores   : File Core
  teams   : List Team
  launches : List Launch
  doms    : List Dom
  msgs    : List Msg
  xfers   : List Xfer
  l1      : List L1Line
  /-- source bytes delivered as 0, by cluster (CPSTAT), and stopped links (TLSTAT) -/
  cpPoison : File Nat
  /-- by cluster: the place in the issue order of the transfer that its engine served last (R240) -/
  cpLast : File Nat
  tlstat  : File (BitVec 32)
  tlb     : List TlbEnt
  walks   : List Walk
  /-- caches of non-leaf entries of the dies' walk units (R273) -/
  walkc   : List WalkEnt
  /-- lines of the L2 slices, the most recently used first (R255) -/
  l2      : List L2Line
  hc      : List HcLine
  owns    : List OwnCount
  parts   : List Partial
  rdc     : List RdcLine
  /-- lost-line entries by slice, poisoned lines, LLSTAT.spill (R269, R272) -/
  lost    : List (Nat × Nat)
  poison  : List Nat
  spill   : File Nat
  /-- lines that the host caches (R397) -/
  hostHas : List Nat
  /-- those of them that the host may have modified in its own cache -/
  hostMod : List Nat
  /-- HDM decoders: the device physical ranges that they map, first address and length (R397) -/
  hdm     : List (Nat × Nat)
  /-- H0 runs CXL, and not PCIe alone (R395) -/
  cxl     : Bool
  qwaits  : List QWait
  tickets : List Ticket
  dies    : File Die
  /-- granules of the global pool on every stack (R252) -/
  glob    : Nat
  fe      : FrontEnd
  time    : TimeSt
  queries : List Query
  ships   : List Ship
  /-- hand-off packets received, by stack (DRSTAT.hoff) -/
  hoff    : File Nat
  ports   : File Port
  farBuf  : List FarStore
  bounds  : File Boundary
  firm    : Firm
  /-- a boundary could not retrain (R404) -/
  stopped : Bool
  deriving DecidableEq, Repr

/-! ## The values that an unlisted key reads as, and the state after reset -/

/-- A trigger after creation: type mcontrol6, and no access selected (log 8). -/
def Trigger.fresh : Trigger := ⟨0x6000000000000000#64, 0, 0⟩

/-- A stream slot with no binding (R65). -/
def StrmSlot.fresh : StrmSlot := ⟨false, [], .u, 0, 0, false, .s32, [], [], 0, []⟩

/-- The CSRs of a hart at creation (R65, R70; logs 5, 6, 7). -/
def Csrs.fresh : Csrs where
  fflags := 0
  frm := 0
  mstatus := 0x0000000A00000000#64
  medeleg := 0x0F00B1FF#64
  mideleg := 0x00030222#64
  mie := 0
  mip := 0
  mtvec := 0
  mcounteren := 0x0007FFFF#64
  menvcfg := 0x8000000000000000#64
  mcountinhibit := 0
  mscratch := 0
  mepc := 0
  mcause := 0
  mtval := 0
  mxcause := 0
  stvec := 0
  scounteren := 0x0007FFFF#64
  senvcfg := 0
  sscratch := 0
  sepc := 0
  scause := 0
  stval := 0
  sxcause := 0
  satp := 0
  stimecmp := 0xFFFFFFFFFFFFFFFF#64
  mcycle := 0
  minstret := 0
  pmpcfg := [(0, 0x1F#8)]
  pmpaddr := [(0, 0x003FFFFFFFFFFFFF#64)]
  tselect := 0
  trig := []
  mcontext := 0
  scontext := 0

/-- A hart place that holds no hart, at the values that a hart has at its creation (R65). -/
def Hart.fresh (gid : Nat) : Hart where
  gid := gid
  run := .vacant
  team := 0
  role := 0
  num := 0
  pc := 0
  mode := .u
  ir := 0
  ilen := 4
  x := []
  f := []
  v := []
  m := [(0, 0xFFFFFFFF#32)]
  live := 0xFFFFFFFF#32
  mstk := []
  lalloc := 0
  csr := Csrs.fresh
  lpcnt0 := 0
  lpbeg0 := 0
  lpend0 := 0
  lpxe0 := 0
  lpcnt1 := 0
  lpbeg1 := 0
  lpend1 := 0
  lpxe1 := 0
  srctr := 0
  srseed := 0
  srhid := gid
  barpend := 0
  barpc := 0
  uivec := 0
  uiepc := 0
  uicause := 0
  uiid := 0
  uiIe := false
  uiAct := false
  uiUntil := 0
  uiq := []
  uiHeld := []
  shadow := []
  mbox := []
  mbpres := 0
  mbsrc := []
  wpc := 0
  wcause := 0
  lfault := 0
  lfrec := 0
  lcomp := 0
  cnt0 := 0
  cnt1 := 0
  cnt2 := 0
  cnt3 := 0
  out2 := []
  cscope := []
  strm := []
  nextXfer := 0
  obs := []
  obsWait := none
  resv := none
  fenceSeq := 0
  divertDue := none
  wrapup := false
  waitFrom := 0
  answer := none
  results := []
  dbg := ⟨false, 0, 0x40000003#64, false⟩

def Sem.fresh : Sem := ⟨0, []⟩
def Mtx.fresh : Mtx := ⟨none, []⟩

/-- A core after reset: running, its arrays zero (R162, R178, R305). -/
def Core.fresh : Core where
  state := 0
  cause := 0
  pass := false
  wasReset := false
  sems := []
  mtxs := []
  act := []
  wgt := []
  acc := []
  shm := []
  queue := []
  rst := false
  landE := none
  landS := none
  gran := []
  grow := []
  scrub := []
  scnt := []
  scAt := 0
  scEn := true
  scWrap := 0
  mbdisc := 0
  power := .active
  slot := 0
  busy := false
  lb := []
  lbOld := []

def Port.fresh : Port := ⟨0, false, 0, 0, 50, 0, false, 0⟩
def Boundary.fresh : Boundary := ⟨false, 0, 0⟩
def KeySlot.fresh : KeySlot := ⟨0, false, false, false, 0, [], false, false⟩
def Fuller.fresh : Fuller := ⟨0, 0, false, 0, 0, 0, 0, none⟩
def Die.fresh : Die := ⟨0, 0, true, [], [], [], 0, 0, Fuller.fresh⟩

/-- SLKBAND j after reset: floor 0x8000_0000 and boost 0 (R352). -/
def slkReset : Word := 0x80000000#64

/-- The front end after reset (R291, R352, R365, R396). -/
def FrontEnd.fresh : FrontEnd where
  lqqcb := []
  lqctx := []
  lqerr := []
  lqNext := 0
  fespill := 20
  svbase := 0
  svsize := 0
  slk := []
  bplist := []
  bpBusy := false
  bpFull := false
  msixMask := 0xFFFF#16
  msixPend := 0
  hang := []

def TimeSt.fresh : TimeSt := ⟨0, 0, 0, 0, 0, 0, 0, 0⟩

/-- The firmware processor's side after reset (R374, R382, R386). -/
def Firm.fresh : Firm where
  step := 0
  fail := false
  keys := []
  nextVer := 1
  pldState := 0
  pldErr := 0
  pldBlk := 0
  pldRun := false
  kfSlot := 0
  kfDone := true
  prstat := 0
  dbg := 0
  journal := []
  image := Config.flashImage
  booted := []
  drtab := 0x7F#64
  throttle := false
  power := .active

/-- The module right after reset: no hart is resident, memory lists nothing, bring-up has not begun (R386; log 4). -/
def State.reset : State where
  hart := Hart.fresh 0
  parked := []
  sel := 0
  agenda := []
  ticks := 0
  clock := 0
  nextUid := 1
  mem := []
  wlog := []
  keyOf := []
  cores := []
  teams := []
  launches := []
  doms := []
  msgs := []
  xfers := []
  l1 := []
  cpPoison := []
  cpLast := []
  tlstat := []
  tlb := []
  walks := []
  walkc := []
  l2 := []
  hc := []
  owns := []
  parts := []
  rdc := []
  lost := []
  poison := []
  spill := []
  hostHas := []
  hostMod := []
  hdm := []
  cxl := false
  qwaits := []
  tickets := []
  dies := []
  glob := 0
  fe := FrontEnd.fresh
  time := TimeSt.fresh
  queries := []
  ships := []
  hoff := []
  ports := []
  farBuf := []
  bounds := []
  firm := Firm.fresh
  stopped := false

end Sys2Proof.Machine
end

