-- ==== Sys2Proof/Machine/Files.lean ====
section
/-! DEFINITION. Reading and writing indexed state (`File`), the canonical form of files and of memory, and bit-field helpers. -/
namespace Sys2Proof.Machine

/-- What a file holds under a key; `d` is what an unlisted key reads as. -/
def fget {β : Type} (d : β) : File β → Nat → β
  | [], _ => d
  | (k, v) :: r, j => if j = k then v else fget d r j

/-- Put a value under a key, in the place that keeps the keys rising. -/
def fput {β : Type} (k : Nat) (v : β) : File β → File β
  | [] => [(k, v)]
  | (j, w) :: r => if k < j then (k, v) :: (j, w) :: r else if k = j then (k, v) :: r else (j, w) :: fput k v r

/-- Remove a key. -/
def fdel {β : Type} (k : Nat) (l : File β) : File β := l.filter (fun e => e.1 != k)

/-- Write a file: a value that an unlisted key reads as is not listed. -/
def fset {β : Type} [DecidableEq β] (d : β) (l : File β) (k : Nat) (v : β) : File β :=
  if v = d then fdel k l else fput k v l

/-- The canonical form from a lowest key on: keys strictly rising, no entry equal to the default. -/
def fwfFrom {β : Type} [DecidableEq β] (d : β) : Nat → File β → Bool
  | _, [] => true
  | lo, (k, v) :: r => decide (lo ≤ k) && decide (v ≠ d) && fwfFrom d (k + 1) r

/-- The canonical form of a file. -/
def fwf {β : Type} [DecidableEq β] (d : β) (l : File β) : Bool := fwfFrom d 0 l

/-- The canonical form of memory, in which an unlisted byte reads 0 (log 1). -/
def Memory.wf (m : List Host.Cell) : Bool := fwf (0 : Byte) m

/-- Read one byte of stored memory. -/
def memGet (m : List Host.Cell) (a : Nat) : Byte := fget (0 : Byte) m a

/-- Write one byte of stored memory. -/
def memSet (m : List Host.Cell) (a : Nat) (b : Byte) : List Host.Cell := fset (0 : Byte) m a b

/-- Write bytes of stored memory from an address on. -/
def memSetBytes (m : List Host.Cell) (a : Nat) : List Byte → List Host.Cell
  | [] => m
  | b :: r => memSetBytes (memSet m a b) (a + 1) r

/-! ## Bits and bytes -/

/-- Bit `i` of a word. -/
def wbit (w : Word) (i : Nat) : Bool := w.getLsbD i

/-- Bits `lo + n - 1 : lo` of a word as a number. -/
def wfield (w : Word) (lo n : Nat) : Nat := (w.toNat >>> lo) % 2 ^ n

/-- The word with bits `lo + n - 1 : lo` replaced. -/
def wput (w : Word) (lo n : Nat) (v : Nat) : Word :=
  let m : Word := BitVec.ofNat 64 ((2 ^ n - 1) <<< lo)
  (w &&& ~~~m) ||| (BitVec.ofNat 64 ((v % 2 ^ n) <<< lo))

/-- The word with one bit replaced. -/
def wputb (w : Word) (i : Nat) (b : Bool) : Word := wput w i 1 (if b then 1 else 0)

/-- A number from little-endian bytes (R8). -/
def bytesNat (l : List Byte) : Nat := leNat l

/-- Little-endian bytes of a number (R8). -/
def natToBytes (n v : Nat) : List Byte := natBytes v n

/-- A doubleword of a byte block. -/
def dwordOf (l : List Byte) : Word := BitVec.ofNat 64 (leNat (l.take 8))

/-- A byte block as doublewords. -/
def dwords : Nat → List Byte → List Word
  | 0, _ => []
  | n + 1, l => dwordOf l :: dwords n (l.drop 8)

/-- Doublewords as bytes. -/
def dwordBytes (l : List Word) : List Byte := l.flatMap (fun w => natToBytes 8 w.toNat)

/-- Doubleword `k` of a block held as doublewords. -/
def dw (l : List Word) (k : Nat) : Word := l.getD k 0

/-- A numeric field at a byte offset within a block held as doublewords; it lies within one doubleword. -/
def fieldAt (l : List Word) (off size : Nat) : Nat := wfield (dw l (off / 8)) (8 * (off % 8)) (8 * size)

/-- Ceiling division. -/
def cdiv (a b : Nat) : Nat := (a + b - 1) / b

/-- `List.range` as lanes. -/
def lanes : List Nat := List.range 32

/-- The lanes of a mask in ascending order. -/
def maskLanes (m : Mask) : List Nat := lanes.filter (fun i => m.getLsbD i)

/-- The mask of the lanes for which a condition holds. -/
def maskOf (p : Nat → Bool) : Mask :=
  lanes.foldl (fun (acc : Mask) i => if p i then acc ||| (1#32 <<< i) else acc) 0

/-- The mask of listed lanes. -/
def maskOfList (l : List Nat) : Mask := maskOf (fun i => l.contains i)

/-- How many lanes a mask holds. -/
def maskCount (m : Mask) : Nat := (maskLanes m).length

end Sys2Proof.Machine
end

