-- ==== Sys2Proof/Machine/Floats.lean ====
section
/-! DEFINITION. Numbers: the floating-point formats, rounding, arithmetic and conversions (R9 to R30, R110 to R125). Every
function works on bit patterns held as natural numbers and answers a pattern and the flags it raises. -/
namespace Sys2Proof.Machine

/-- The floating-point formats of R12. -/
inductive Fmt where
  | f64 | f32 | f16 | bf16 | e5m2 | e4m3 | e2m1
  deriving DecidableEq, Repr

/-- Exponent bits E. -/
def Fmt.expBits : Fmt → Nat
  | .f64 => 11 | .f32 => 8 | .f16 => 5 | .bf16 => 8 | .e5m2 => 5 | .e4m3 => 4 | .e2m1 => 2

/-- Mantissa bits M. -/
def Fmt.manBits : Fmt → Nat
  | .f64 => 52 | .f32 => 23 | .f16 => 10 | .bf16 => 7 | .e5m2 => 2 | .e4m3 => 3 | .e2m1 => 1

/-- Bias b. -/
def Fmt.bias : Fmt → Int
  | .f64 => 1023 | .f32 => 127 | .f16 => 15 | .bf16 => 127 | .e5m2 => 15 | .e4m3 => 7 | .e2m1 => 1

/-- Width in bits. -/
def Fmt.bits (f : Fmt) : Nat := 1 + f.expBits + f.manBits

/-- Does the format have infinities (R12)? -/
def Fmt.hasInf : Fmt → Bool
  | .e4m3 | .e2m1 => false
  | _ => true

/-- The magnitude pattern of the largest finite value (R12). -/
def Fmt.maxFinite : Fmt → Nat
  | .e4m3 => 0x7E
  | .e2m1 => 7
  | f => (2 ^ f.expBits - 1) * 2 ^ f.manBits - 1

/-- The pattern of +∞ where the format has one. -/
def Fmt.infBits (f : Fmt) : Nat := (2 ^ f.expBits - 1) * 2 ^ f.manBits

/-- The canonical NaN (R14); e2m1 has none and takes +0 (R18). -/
def Fmt.canon : Fmt → Nat
  | .f64 => 0x7FF8000000000000 | .f32 => 0x7FC00000 | .f16 => 0x7E00 | .bf16 => 0x7FC0
  | .e5m2 => 0x7E | .e4m3 => 0x7F | .e2m1 => 0

/-- The exponent of the smallest normal, 1 − b. -/
def Fmt.emin (f : Fmt) : Int := 1 - f.bias

/-- The weight of the sign bit. -/
def Fmt.signWeight (f : Fmt) : Nat := 2 ^ (f.expBits + f.manBits)

/-- A decoded value: a NaN (signalling or not), an infinity, or (−1)^neg × m × 2^e exactly. -/
inductive FVal where
  | nan (sig : Bool)
  | inf (neg : Bool)
  | fin (neg : Bool) (m : Nat) (e : Int)
  deriving DecidableEq, Repr

/-- The formats whose NaNs can signal (R117: the 8-bit and 4-bit formats have no signalling NaNs). -/
def Fmt.canSignal : Fmt → Bool
  | .f64 | .f32 | .f16 | .bf16 => true
  | _ => false

/-- value(b, fmt) with the special patterns set apart (R12). -/
def fval (f : Fmt) (b : Nat) : FVal :=
  let neg := b / f.signWeight % 2 == 1
  let e := b / 2 ^ f.manBits % 2 ^ f.expBits
  let m := b % 2 ^ f.manBits
  let top := e == 2 ^ f.expBits - 1
  if f.hasInf && top then
    (if m == 0 then .inf neg else .nan (f.canSignal && m / 2 ^ (f.manBits - 1) % 2 == 0))
  else if f == .e4m3 && top && m == 7 then .nan false
  else if e == 0 then .fin neg m (f.emin - f.manBits)
  else .fin neg (2 ^ f.manBits + m) ((e : Int) - f.bias - f.manBits)

/-- The flag bits (R97). -/
abbrev Flags := BitVec 5
def flNX : Flags := 1
def flUF : Flags := 2
def flOF : Flags := 4
def flDZ : Flags := 8
def flNV : Flags := 16

/-- A pattern and the flags raised with it. -/
structure FRes where
  bits  : Nat
  flags : Flags
  deriving DecidableEq, Repr

/-- The sign in its place. -/
def signBits (f : Fmt) (neg : Bool) : Nat := if neg then f.signWeight else 0

def canonRes (f : Fmt) (fl : Flags) : FRes := ⟨f.canon, fl⟩

/-- Is the kept part `n` of a magnitude rounded up? `rest` of `2^d` was dropped, and `sticky` says that more nonzero bits
lie below it (R18). A `dyn` has been resolved before and stands here for RNE. -/
def roundsUp (rm : Rm) (neg : Bool) (n rest : Nat) (half : Nat) (sticky : Bool) : Bool :=
  let inexact := rest != 0 || sticky
  match rm with
  | .rtz => false
  | .rdn => neg && inexact
  | .rup => !neg && inexact
  | .rmm => half != 0 && half ≤ rest
  | .rne | .dyn => half != 0 && (half < rest || (half == rest && (sticky || n % 2 == 1)))

/-- m × 2^e, and a little more where `sticky`, rounded to a multiple of 2^q: the multiple and whether it is inexact. -/
def roundAt (rm : Rm) (neg : Bool) (m : Nat) (e q : Int) (sticky : Bool) : Nat × Bool :=
  if q ≤ e then (m * 2 ^ (e - q).toNat, sticky)
  else
    let d := (q - e).toNat
    let n := m / 2 ^ d
    let rest := m % 2 ^ d
    ((if roundsUp rm neg n rest (2 ^ d / 2) sticky then n + 1 else n), rest != 0 || sticky)

/-- Does IEEE 754 deliver an infinity when a magnitude overflows under the mode? -/
def overflowsToInf (rm : Rm) (neg : Bool) : Bool :=
  match rm with
  | .rtz => false
  | .rdn => neg
  | .rup => !neg
  | .rne | .rmm | .dyn => true

/-- The overflow rule of R18. -/
def overflowMag (f : Fmt) (rm : Rm) (sat neg : Bool) : Nat :=
  if !overflowsToInf rm neg || sat then f.maxFinite
  else match f with
    | .e4m3 => 0x7F
    | .e2m1 => 7
    | _ => f.infBits

/-- round(x, fmt, rm) of a finite x = (−1)^neg × (m × 2^e, and a little more where `sticky`), with the overflow rule of R18
and tininess detected after rounding (R23). `sticky` is only set where m has more bits than the format's mantissa. -/
def roundTo (f : Fmt) (rm : Rm) (sat neg : Bool) (m : Nat) (e : Int) (sticky : Bool) : FRes :=
  if m == 0 then ⟨signBits f neg, 0⟩
  else
    let top : Int := e + Nat.log2 m
    let q : Int := (if top < f.emin then f.emin else top) - f.manBits
    let r := roundAt rm neg m e q sticky
    let mag := ((q + f.manBits - f.emin).toNat) * 2 ^ f.manBits + r.1
    if f.maxFinite < mag then ⟨signBits f neg + overflowMag f rm sat neg, flOF ||| flNX⟩
    else
      let tiny := top < f.emin &&
        (roundAt rm neg m e (top - f.manBits) sticky).1 < 2 ^ (f.manBits + (f.emin - top).toNat)
      ⟨signBits f neg + mag, if r.2 then (if tiny then flUF ||| flNX else flNX) else 0⟩

/-- flush(x, fmt) on patterns (R16): a subnormal becomes a zero of its sign; e2m1 is exempt. -/
def flushBits (f : Fmt) (b : Nat) : Nat :=
  if f == .e2m1 then b
  else if b / 2 ^ f.manBits % 2 ^ f.expBits == 0 then signBits f (b / f.signWeight % 2 == 1)
  else b

/-- Is the format's arithmetic narrow, so that R16 and R19 hold? -/
def Fmt.narrow : Fmt → Bool
  | .f64 | .f32 => false
  | _ => true

/-- The flush of a result (R16, R23): below the smallest normal it becomes a zero and raises UF and NX. -/
def flushRes (f : Fmt) (r : FRes) : FRes :=
  let mag := r.bits % f.signWeight
  if f.narrow && mag != 0 && mag < 2 ^ f.manBits then ⟨r.bits - mag, r.flags ||| flUF ||| flNX⟩ else r

/-- The input of an arithmetic instruction (R16). -/
def fin (f : Fmt) (b : Nat) : FVal := fval f (if f.narrow then flushBits f b else b)

def FVal.isNan : FVal → Bool
  | .nan _ => true
  | _ => false
def FVal.isSig : FVal → Bool
  | .nan s => s
  | _ => false
def FVal.isZero : FVal → Bool
  | .fin _ m _ => m == 0
  | _ => false
def FVal.neg : FVal → Bool
  | .nan _ => false
  | .inf n => n
  | .fin n _ _ => n
def FVal.negate : FVal → FVal
  | .nan s => .nan s
  | .inf n => .inf (!n)
  | .fin n m e => .fin (!n) m e

/-- NV if any of the inputs signals. -/
def nvIf (b : Bool) : Flags := if b then flNV else 0

/-- A signed magnitude as an integer at scale 2^e0, for e0 at most e. -/
def scaled (neg : Bool) (m : Nat) (e e0 : Int) : Int :=
  let v : Int := (m * 2 ^ (e - e0).toNat : Nat)
  if neg then -v else v

/-- The rounded sum of two finite values, with the sign rule of exact zero sums (R110). -/
def addFin (f : Fmt) (rm : Rm) (n1 : Bool) (m1 : Nat) (e1 : Int) (n2 : Bool) (m2 : Nat) (e2 : Int) : FRes :=
  let e0 := if e1 ≤ e2 then e1 else e2
  let t := scaled n1 m1 e1 e0 + scaled n2 m2 e2 e0
  if t == 0 then
    ⟨signBits f (if m1 == 0 && m2 == 0 && n1 == n2 then n1 else rm == .rdn), 0⟩
  else roundTo f rm false (t < 0) t.natAbs e0 false

/-- The sum of a finite or infinite product and an addend (R110): NaNs have been handled. -/
def addVal (f : Fmt) (rm : Rm) (p c : FVal) : FRes :=
  match p, c with
  | .inf n1, .inf n2 => if n1 == n2 then ⟨signBits f n1 + f.infBits, 0⟩ else canonRes f flNV
  | .inf n, _ => ⟨signBits f n + f.infBits, 0⟩
  | _, .inf n => ⟨signBits f n + f.infBits, 0⟩
  | .fin n1 m1 e1, .fin n2 m2 e2 => addFin f rm n1 m1 e1 n2 m2 e2
  | _, _ => canonRes f 0

/-- The product of two values, a NaN where one is; `none` for ∞ × 0. -/
def mulVal (a b : FVal) : Option FVal :=
  match a, b with
  | .nan _, _ | _, .nan _ => some (.nan false)
  | .inf n, b => if b.isZero then none else some (.inf (n != b.neg))
  | a, .inf n => if a.isZero then none else some (.inf (a.neg != n))
  | .fin n1 m1 e1, .fin n2 m2 e2 => some (.fin (n1 != n2) (m1 * m2) (e1 + e2))

/-- Fused multiply-add with the product and the addend negated on request (R110, R111). -/
def ffma (f : Fmt) (rm : Rm) (negP negC : Bool) (a b c : Nat) : FRes :=
  let va := fin f a
  let vb := fin f b
  let vc := fin f c
  let sig := va.isSig || vb.isSig || vc.isSig
  if va.isNan || vb.isNan then canonRes f (nvIf sig)
  else match mulVal va vb with
    | none => canonRes f flNV
    | some p =>
      if vc.isNan then canonRes f (nvIf sig)
      else flushRes f (addVal f rm (if negP then p.negate else p) (if negC then vc.negate else vc))

/-- a + b, or a − b (R112). -/
def fadd (f : Fmt) (rm : Rm) (sub : Bool) (a b : Nat) : FRes :=
  let va := fin f a
  let vb := fin f b
  if va.isNan || vb.isNan then canonRes f (nvIf (va.isSig || vb.isSig))
  else flushRes f (addVal f rm va (if sub then vb.negate else vb))

/-- a × b (R112). -/
def fmul (f : Fmt) (rm : Rm) (a b : Nat) : FRes :=
  let va := fin f a
  let vb := fin f b
  if va.isNan || vb.isNan then canonRes f (nvIf (va.isSig || vb.isSig))
  else match mulVal va vb with
    | none => canonRes f flNV
    | some (.fin n m e) => flushRes f (roundTo f rm false n m e false)
    | some p => ⟨signBits f p.neg + f.infBits, 0⟩

/-- The quotient m1/m2 × 2^e of nonzero magnitudes, with enough bits to round once. -/
def divMag (f : Fmt) (rm : Rm) (neg : Bool) (m1 m2 : Nat) (e : Int) : FRes :=
  let k := f.manBits + 4 + Nat.log2 m2
  let q := m1 * 2 ^ k / m2
  roundTo f rm false neg q (e - k) (m1 * 2 ^ k % m2 != 0)

/-- a ÷ b (the F and D extensions; R33). -/
def fdiv (f : Fmt) (rm : Rm) (a b : Nat) : FRes :=
  let va := fin f a
  let vb := fin f b
  match va, vb with
  | .nan s, b => canonRes f (nvIf (s || b.isSig))
  | a, .nan s => canonRes f (nvIf (s || a.isSig))
  | .inf n1, .inf _ => canonRes f (if n1 then flNV else flNV)
  | .inf n1, .fin n2 _ _ => ⟨signBits f (n1 != n2) + f.infBits, 0⟩
  | .fin n1 _ _, .inf n2 => ⟨signBits f (n1 != n2), 0⟩
  | .fin n1 m1 e1, .fin n2 m2 e2 =>
    if m2 == 0 then (if m1 == 0 then canonRes f flNV else ⟨signBits f (n1 != n2) + f.infBits, flDZ⟩)
    else if m1 == 0 then ⟨signBits f (n1 != n2), 0⟩
    else divMag f rm (n1 != n2) m1 m2 (e1 - e2)

/-- The integer square root of `n`, one bit for each unit of fuel from the top. -/
def isqrtFrom (n : Nat) : Nat → Nat → Nat
  | 0, r => r
  | k + 1, r =>
    let t := r + 2 ^ k
    isqrtFrom n k (if t * t ≤ n then t else r)

def isqrt (n : Nat) : Nat := isqrtFrom n (Nat.log2 n / 2 + 1) 0

/-- √a, rounded once (R121). -/
def fsqrt (f : Fmt) (rm : Rm) (a : Nat) : FRes :=
  match fin f a with
  | .nan s => canonRes f (nvIf s)
  | .inf n => if n then canonRes f flNV else ⟨f.infBits, 0⟩
  | .fin n m e =>
    if m == 0 then ⟨signBits f n, 0⟩
    else if n then canonRes f flNV
    else
      let k := 2 * (f.manBits + 4) + (e % 2).toNat
      let v := m * 2 ^ k
      let r := isqrt v
      roundTo f rm false false r ((e - k) / 2) (r * r != v)

/-- 1/√a under RNE (R121). -/
def frsqrt (f : Fmt) (a : Nat) : FRes :=
  match fin f a with
  | .nan s => canonRes f (nvIf s)
  | .inf n => if n then canonRes f flNV else ⟨0, 0⟩
  | .fin n m e =>
    if m == 0 then ⟨signBits f n + f.infBits, flDZ⟩
    else if n then canonRes f flNV
    else
      let k := 2 * (f.manBits + 4) + Nat.log2 m + ((e + Nat.log2 m) % 2).toNat
      let v := 2 ^ k / m
      let r := isqrt v
      roundTo f .rne false false r (-((e + k) / 2)) (r * r * m != 2 ^ k)

/-- 1/a under RNE (R121). -/
def frcp (f : Fmt) (a : Nat) : FRes :=
  match fin f a with
  | .nan s => canonRes f (nvIf s)
  | .inf n => ⟨signBits f n, 0⟩
  | .fin n m e => if m == 0 then ⟨signBits f n + f.infBits, flDZ⟩ else divMag f .rne n 1 m (-e)

/-- The order of two values that are no NaNs, −0 equal to +0. -/
def fltVal (a b : FVal) : Bool :=
  match a, b with
  | .inf n1, .inf n2 => n1 && !n2
  | .inf n1, _ => n1
  | _, .inf n2 => !n2
  | .fin n1 m1 e1, .fin n2 m2 e2 =>
    let e0 := if e1 ≤ e2 then e1 else e2
    scaled n1 m1 e1 e0 < scaled n2 m2 e2 e0
  | _, _ => false

/-- Minimum or maximum (R113). -/
def fminmax (f : Fmt) (mx : Bool) (a b : Nat) : FRes :=
  let a' := if f.narrow then flushBits f a else a
  let b' := if f.narrow then flushBits f b else b
  let va := fval f a'
  let vb := fval f b'
  let fl := nvIf (va.isSig || vb.isSig)
  if va.isNan && vb.isNan then canonRes f fl
  else if va.isNan then ⟨b', fl⟩
  else if vb.isNan then ⟨a', fl⟩
  else
    let aLess := fltVal va vb || (!fltVal vb va && va.neg && !vb.neg)
    ⟨if aLess != mx then a' else b', fl⟩

/-- A compare (R109). -/
def fcompare (f : Fmt) (c : Cond) (a b : Nat) : Bool × Flags :=
  let va := fval f a
  let vb := fval f b
  if va.isNan || vb.isNan then
    let sig := nvIf (va.isSig || vb.isSig)
    match c with
    | .eq | .ord => (false, sig)
    | .ne | .uno => (true, sig)
    | .lt | .ge | .gt | .le => (false, flNV)
  else
    let lt := fltVal va vb
    let gt := fltVal vb va
    match c with
    | .eq => (!lt && !gt, 0)
    | .ne => (lt || gt, 0)
    | .lt => (lt, 0)
    | .ge => (!lt, 0)
    | .gt => (gt, 0)
    | .le => (!gt, 0)
    | .ord => (true, 0)
    | .uno => (false, 0)

/-- Float to float (R18, R21); a conversion never flushes (R17). DESIGN CHOICE (log 52): R18 delivers an infinite source under
satfinite as the largest finite value, R21 says that a widening conversion preserves infinities; with satfinite set on a widening
conversion the model follows R18, with the NX that R117 gives an infinity so delivered. -/
def fcvt (src dst : Fmt) (rm : Rm) (sat : Bool) (b : Nat) : FRes :=
  match fval src b with
  | .nan s => canonRes dst (nvIf (s || dst == .e2m1))
  | .inf n =>
    if dst.hasInf && !sat then ⟨signBits dst n + dst.infBits, 0⟩ else ⟨signBits dst n + dst.maxFinite, flNX⟩
  | .fin n m e => roundTo dst rm sat n m e false

/-- The flags of a lane conversion to a narrower format: UF where the result is inexact and below the destination's smallest
normal (R117, log 22). -/
def narrowFlags (f : Fmt) (r : FRes) : FRes :=
  if (r.flags &&& (flNX ||| flOF)) == flNX then
    ⟨r.bits, if r.bits % f.signWeight < 2 ^ f.manBits then flUF ||| flNX else flNX⟩
  else r

/-- An integer type: whether it is signed, and its width. -/
structure IFmt where
  sgn : Bool
  n   : Nat
  deriving DecidableEq, Repr

def IFmt.lo (t : IFmt) : Int := if t.sgn then -(2 ^ (t.n - 1) : Nat) else 0
def IFmt.hi (t : IFmt) : Int := if t.sgn then (2 ^ (t.n - 1) : Nat) - 1 else (2 ^ t.n : Nat) - 1

/-- The integer of a pattern. -/
def IFmt.val (t : IFmt) (b : Nat) : Int :=
  let b' := b % 2 ^ t.n
  if t.sgn && 2 ^ (t.n - 1) ≤ b' then (b' : Int) - (2 ^ t.n : Nat) else b'

/-- An integer reduced modulo 2^n. -/
def IFmt.wrap (t : IFmt) (v : Int) : Nat := (v % (2 ^ t.n : Nat)).toNat

/-- sat(x, type) (R9). -/
def IFmt.sat (t : IFmt) (v : Int) : Int := if v < t.lo then t.lo else if t.hi < v then t.hi else v

/-- A finite value rounded to an integer: the integer and whether it is inexact. -/
def toInteger (rm : Rm) (n : Bool) (m : Nat) (e : Int) : Int × Bool :=
  let r := roundAt rm n m e 0 false
  (if n then -(r.1 : Int) else r.1, r.2)

/-- Float to integer (R22, R117). -/
def fcvtToInt (src : Fmt) (t : IFmt) (rm : Rm) (b : Nat) : FRes :=
  match fval src b with
  | .nan _ => ⟨t.wrap t.hi, flNV⟩
  | .inf n => ⟨t.wrap (if n then t.lo else t.hi), flNV⟩
  | .fin n m e =>
    let r := toInteger rm n m e
    if t.sat r.1 == r.1 then ⟨t.wrap r.1, if r.2 then flNX else 0⟩ else ⟨t.wrap (t.sat r.1), flNV⟩

/-- Integer to float (R22, R117). -/
def fcvtFromInt (t : IFmt) (dst : Fmt) (rm : Rm) (sat : Bool) (b : Nat) : FRes :=
  let v := t.val b
  roundTo dst rm sat (v < 0) v.natAbs 0 false

/-- `vrnd`: to an integral value, with NV for a signalling NaN and no other flag (R124). -/
def frnd (f : Fmt) (rm : Rm) (b : Nat) : FRes :=
  match fval f b with
  | .nan s => canonRes f (nvIf s)
  | .inf _ => ⟨b, 0⟩
  | .fin n m e => ⟨(roundTo f .rne false n (roundAt rm n m e 0 false).1 0 false).bits, 0⟩

/-- `vfrac` (R124). -/
def ffrac (b : Nat) : FRes :=
  match fval .f32 b with
  | .nan s => canonRes .f32 (nvIf s)
  | .inf _ => canonRes .f32 flNV
  | .fin n m e =>
    if 0 ≤ e then ⟨0, 0⟩
    else
      let d := 2 ^ (-e).toNat
      let t := (scaled n m e e % (d : Int)).toNat
      let r := roundTo .f32 .rne false false t e false
      ⟨if r.bits == 0x3F800000 then 0x3F7FFFFF else r.bits, r.flags &&& flNX⟩

/-- The class bit of R125 (and of `fclass`). -/
def fclassBit (f : Fmt) (b : Nat) : Nat :=
  match fval f b with
  | .nan s => if s then 8 else 9
  | .inf n => if n then 0 else 7
  | .fin n m _ =>
    if m == 0 then (if n then 3 else 4)
    else if m < 2 ^ f.manBits then (if n then 2 else 5)
    else (if n then 1 else 6)

/-! ## Stochastic rounding (R24, R25, R118) -/

/-- The two mixing rounds of sr_bits. -/
def srMix (z : BitVec 64) : BitVec 64 :=
  let z := (z ^^^ (z >>> 30)) * 0xBF58476D1CE4E5B9#64
  let z := (z ^^^ (z >>> 27)) * 0x94D049BB133111EB#64
  z ^^^ (z >>> 31)

/-- sr_bits(i, j) (R24). -/
def srBits (seed : BitVec 64) (hid : Nat) (ctr : BitVec 64) (lane j : Nat) : BitVec 32 :=
  let glid : BitVec 64 := BitVec.ofNat 64 (hid * 32 + lane)
  let z := seed ^^^ (glid * 0x9E3779B97F4A7C15#64)
  let z := z + ((ctr <<< 3) ||| BitVec.ofNat 64 j) * 0xD1B54A32D192ED03#64
  (srMix (srMix z)).extractLsb' 32 32

/-- round_sr of an f32 pattern (R25), with the flags of R118. -/
def froundSr (dst : Fmt) (sat : Bool) (r : BitVec 32) (b : Nat) : FRes :=
  match fval .f32 b with
  | .fin n m e =>
    if m == 0 then fcvt .f32 dst .rne sat b
    else
      let top : Int := e + Nat.log2 m
      let q : Int := (if top < dst.emin then dst.emin else top) - dst.manBits
      let lo := (roundAt .rtz false m e q false).1
      let rest : Nat := if q ≤ e then 0 else m % 2 ^ (q - e).toNat
      let t := rest * 2 ^ 32 / 2 ^ (q - e).toNat
      let up := rest != 0 && r.toNat < t
      let mag := ((q + dst.manBits - dst.emin).toNat) * 2 ^ dst.manBits + (if up then lo + 1 else lo)
      if dst.maxFinite < mag then ⟨signBits dst n + overflowMag dst .rne sat n, flOF ||| flNX⟩
      else
        let fl : Flags := if rest == 0 then 0 else if mag < 2 ^ dst.manBits then flUF ||| flNX else flNX
        ⟨signBits dst n + mag, fl⟩
  | _ => fcvt .f32 dst .rne sat b

/-! ## Group sums (R27, R28, R30) -/

/-- What a group of products has come to. -/
structure GSum where
  nan   : Bool
  inf   : Option Bool
  val   : Int
  scale : Int
  /-- every product so far is a zero of negative sign -/
  negZ  : Bool
  nv    : Bool
  deriving DecidableEq, Repr

def GSum.start : GSum := ⟨false, none, 0, 0, true, false⟩

/-- One product of two values; `int` marks a product of integers, whose zero counts as +0. -/
def GSum.add (g : GSum) (int : Bool) (a b : FVal) : GSum :=
  let g := { g with nv := g.nv || a.isSig || b.isSig }
  if a.isNan || b.isNan then { g with nan := true, negZ := false }
  else match mulVal a b with
    | none => { g with nan := true, nv := true, negZ := false }
    | some (.inf n) =>
      match g.inf with
      | some n' => if n == n' then { g with negZ := false } else { g with nan := true, nv := true, negZ := false }
      | none => { g with inf := some n, negZ := false }
    | some (.fin n m e) =>
      let e0 := if e ≤ g.scale then e else g.scale
      { g with val := g.val * (2 ^ (g.scale - e0).toNat : Nat) + scaled n m e e0, scale := e0,
               negZ := g.negZ && m == 0 && n && !int }
    | some (.nan _) => g

/-- The accumulator plus the group's exact sum, rounded once (R27, R28); `plus` says that a +0 product stands in the
group (a ragged tail). -/
def GSum.into (g : GSum) (plus : Bool) (acc : Nat) : FRes :=
  let a := fval .f32 acc
  let nv := nvIf (g.nv || a.isSig)
  if g.nan || a.isNan then canonRes .f32 nv
  else match g.inf, a with
    | some n, .inf n' => if n == n' then ⟨acc, nv⟩ else canonRes .f32 (nv ||| flNV)
    | some n, _ => ⟨signBits .f32 n + Fmt.infBits .f32, nv⟩
    | none, .fin n m e =>
      let sneg := g.negZ && !plus
      let r :=
        if g.val == 0 then (if m == 0 then ⟨signBits .f32 (n && sneg), 0⟩ else roundTo .f32 .rne false n m e false)
        else addFin .f32 .rne n m e (g.val < 0) g.val.natAbs g.scale
      ⟨r.bits, r.flags ||| nv⟩
    | none, _ => ⟨acc, nv⟩

/-! ## The function unit (R121, R122) -/

/-- The flags of a result outside the exact cases: NX. DESIGN CHOICE (log 75): UF beside it wherever the delivered pattern has the exponent
field 0; R122 names NX alone. -/
def approxRes (b : BitVec 32) : FRes :=
  ⟨b.toNat, if b.extractLsb' 23 8 == 0 then flUF ||| flNX else flNX⟩

/-! The bounds of R122: the mathematical value is computed in fixed point with 80 fraction bits, far finer than any bound, and the
part's own result, which the spec leaves open, is held within the bound of it (log 9). -/

/-- ln 2, log2 e and 2π with 80 fraction bits. -/
def fxLn2 : Nat := 837963523372001241319907
def fxLog2e : Nat := 1744111284760651037637903
def fxTwoPi : Nat := 7595904947272677161575987

/-- `fuel` terms of the series of e^t, from the term before the k-th on. -/
def fxExp (t : Nat) : Nat → Nat → Nat → Nat
  | 0, _, _ => 0
  | fuel + 1, k, term => term + fxExp t fuel (k + 1) (term * t / 2 ^ 80 / k)

/-- `fuel` terms of an alternating series in t², each the one before times t² over k (k + 1). -/
def fxAlt (t : Nat) : Nat → Nat → Nat → Int
  | 0, _, _ => 0
  | fuel + 1, k, term => (term : Int) - fxAlt t fuel (k + 2) (term * t / 2 ^ 80 * t / 2 ^ 80 / (k * (k + 1)))

/-- log2 of y in [1, 2), with 80 fraction bits, as so many bits of the fraction. -/
def fxLog2 : Nat → Nat → Nat
  | 0, _ => 0
  | fuel + 1, y =>
    let z := y * y / 2 ^ 80
    if 2 ^ 81 ≤ z then 2 ^ fuel + fxLog2 fuel (z / 2) else fxLog2 fuel z

/-- 2^f of a fraction f, in [1, 2). -/
def fxExp2 (f : Nat) : Nat := fxExp (f * fxLn2 / 2 ^ 80) 32 1 (2 ^ 80)

/-- m × 2^e with 80 fraction bits. -/
def fxOf (m : Nat) (e : Int) : Nat := (roundAt .rtz false m (e + 80) 0 false).1

/-- A pattern as a number that rises with the value. -/
def f32Key (b : BitVec 32) : Int := if b.msb then -((b.toNat % 2 ^ 31 : Nat) : Int) else b.toNat

/-- A result held within an error `err` of the value v × 2^e. -/
def bounded (v err e : Int) (r : BitVec 32) : BitVec 32 :=
  let f (rm : Rm) (x : Int) : BitVec 32 := BitVec.ofNat 32 (roundTo .f32 rm false (x < 0) x.natAbs e false).bits
  let lo := f .rup (v - err)
  let hi := f .rdn (v + err)
  if f32Key r < f32Key lo then lo else if f32Key hi < f32Key r then hi else r

/-- An integer as an f32. -/
def f32OfInt (v : Int) : Nat := (roundTo .f32 .rne false (v < 0) v.natAbs 0 false).bits

/-- `vexp2` (R122). DESIGN CHOICE (log 74): an ulp of the result is that of the binade in which the exact value lies; R122 does not say whose
it is where the delivered value falls below that binade. An x too small for 80 fraction bits counts as the smallest of its sign. -/
def fexp2 (b : BitVec 32) : FRes :=
  match fval .f32 b.toNat with
  | .nan s => canonRes .f32 (nvIf s)
  | .inf n => ⟨if n then 0 else Fmt.infBits .f32, 0⟩
  | .fin n m e =>
    let r := toInteger .rtz n m e
    if m == 0 then ⟨0x3F800000, 0⟩
    else if 128 ≤ r.1 then ⟨Fmt.infBits .f32, flOF ||| flNX⟩
    else if !r.2 && -149 ≤ r.1 then ⟨(roundTo .f32 .rne false false 1 r.1 false).bits, 0⟩
    else 
      let x : Int := scaled n (max (fxOf m e) 1) 0 0
      let k : Int := if x / 2 ^ 80 < -200 then -200 else x / 2 ^ 80
      let q : Int := if k < -126 then -126 else k
      approxRes (bounded (fxExp2 (x % 2 ^ 80).toNat) (2 ^ (q - k + 58).toNat) (k - 80) (Config.exp2 b))

/-- `vlog2` (R122). -/
def flog2 (b : BitVec 32) : FRes :=
  match fval .f32 b.toNat with
  | .nan s => canonRes .f32 (nvIf s)
  | .inf n => if n then canonRes .f32 flNV else ⟨Fmt.infBits .f32, 0⟩
  | .fin n m e =>
    if m == 0 then ⟨signBits .f32 true + Fmt.infBits .f32, flDZ⟩
    else if n then canonRes .f32 flNV
    else if m == 2 ^ Nat.log2 m then ⟨f32OfInt (e + Nat.log2 m), 0⟩
    else 
      let k := Nat.log2 m
      let v : Int := (e + k) * 2 ^ 64 + fxLog2 64 (fxOf m (-k))
      let inside := e + k == 0 || e + k == -1
      approxRes (bounded v (if inside then 2 ^ 42 else 2 ^ (Nat.log2 v.natAbs - 22)) (-64) (Config.log2 b))

/-- The quarter turns in a finite argument, if they are whole: |x| × 4. -/
def quarters (m : Nat) (e : Int) : Option Nat :=
  let r := roundAt .rtz false m (e + 2) 0 false
  if r.2 then none else some r.1

/-- The magnitude bits of a pattern, and its sign put onto another (odd functions). -/
def absBits (b : BitVec 32) : BitVec 32 := b &&& 0x7FFFFFFF#32
def withSignOf (b r : BitVec 32) : BitVec 32 := r ^^^ (b &&& 0x80000000#32)

/-- `vsin`, in turns; odd (R122). -/
def fsin (b : BitVec 32) : FRes :=
  match fval .f32 b.toNat with
  | .nan s => canonRes .f32 (nvIf s)
  | .inf _ => canonRes .f32 flNV
  | .fin n m e =>
    match quarters m e with
    | some k =>
      if k % 2 == 0 then ⟨signBits .f32 n, 0⟩
      else ⟨signBits .f32 (n != (k % 4 == 3)) + 0x3F800000, 0⟩
    | none =>
      let t := fxOf m e % 2 ^ 80 * fxTwoPi / 2 ^ 80
      approxRes (withSignOf b (bounded (fxAlt t 40 2 t) (2 ^ 58) (-80) (Config.sinTurns (absBits b))))

/-- `vcos`, in turns; even (R122). -/
def fcos (b : BitVec 32) : FRes :=
  match fval .f32 b.toNat with
  | .nan s => canonRes .f32 (nvIf s)
  | .inf _ => canonRes .f32 flNV
  | .fin _ m e =>
    match quarters m e with
    | some k => if k % 2 == 1 then ⟨0, 0⟩ else ⟨signBits .f32 (k % 4 == 2) + 0x3F800000, 0⟩
    | none =>
      let t := fxOf m e % 2 ^ 80 * fxTwoPi / 2 ^ 80
      approxRes (bounded (fxAlt t 40 1 (2 ^ 80)) (2 ^ 58) (-80) (Config.cosTurns (absBits b)))

/-- `vtanh`; odd (R122). -/
def ftanh (b : BitVec 32) : FRes :=
  match fval .f32 b.toNat with
  | .nan s => canonRes .f32 (nvIf s)
  | .inf n => ⟨signBits .f32 n + 0x3F800000, 0⟩
  | .fin n m e =>
    if (absBits b).toNat ≤ 0x39800000 then ⟨b.toNat, 0⟩
    else if 0x41100000 ≤ (absBits b).toNat then ⟨signBits .f32 n + 0x3F800000, 0⟩
    else
      let u := fxOf m e * fxLog2e / 2 ^ 79
      let x := fxExp2 (u % 2 ^ 80) * 2 ^ (u / 2 ^ 80)
      let v : Nat := (x - 2 ^ 80) * 2 ^ 80 / (x + 2 ^ 80)
      approxRes (withSignOf b (bounded v (2 ^ 57) (-80) (Config.tanh (absBits b))))

/-! ## Conversions by type code (R45, R116 to R120) -/

def Tc.fmt? : Tc → Option Fmt
  | .f32 => some .f32 | .f16 => some .f16 | .bf16 => some .bf16
  | .e4m3 => some .e4m3 | .e5m2 => some .e5m2 | .e2m1 => some .e2m1
  | _ => none

def Tc.ifmt : Tc → IFmt
  | .s32 => ⟨true, 32⟩ | .n32 => ⟨false, 32⟩ | .s16 => ⟨true, 16⟩ | .n16 => ⟨false, 16⟩
  | .s8 => ⟨true, 8⟩ | .n8 => ⟨false, 8⟩ | .s64 => ⟨true, 64⟩ | .n64 => ⟨false, 64⟩
  | _ => ⟨false, 32⟩

/-- Width of one element in bits. -/
def Tc.width (t : Tc) : Nat :=
  match Tc.fmt? t with
  | some f => f.bits
  | none => (Tc.ifmt t).n

/-- Integer to integer (R22): a narrowing conversion saturates and a widening one extends by the source's type. DESIGN CHOICE (log
53): two types of one width are neither, and the model saturates. -/
def icvt (src dst : IFmt) (b : Nat) : Nat := dst.wrap (if src.n < dst.n then src.val b else dst.sat (src.val b))

/-- convert(x, src, dst, rm, satfinite) on the element's pattern (R116). -/
def convert (src dst : Tc) (rm : Rm) (sat : Bool) (b : Nat) : FRes :=
  match Tc.fmt? src, Tc.fmt? dst with
  | some s, some d => narrowFlags d (fcvt s d rm sat b)
  | some s, none => fcvtToInt s (Tc.ifmt dst) rm b
  | none, some d => fcvtFromInt (Tc.ifmt src) d rm sat b
  | none, none => ⟨icvt (Tc.ifmt src) (Tc.ifmt dst) b, 0⟩

end Sys2Proof.Machine
end

