-- ==== Sys2Proof/Machine/Ops.lean ====
section
/-! DEFINITION. The named operations on registers and harts: reading and writing state, retiring an instruction with its
loop end tests, taking an exception and returning from one, and finding harts, teams and launches. -/
namespace Sys2Proof.Machine

/-- The three outcomes of a meaning. -/
abbrev Out := Host.Outcome State Fault Refusal

/-! ## Registers of a hart (R64) -/

/-- Read an x register; x0 reads as 0. -/
def Hart.getX (h : Hart) (r : XReg) : Word := if r = 0 then 0 else fget 0 h.x r.toNat

/-- Write an x register; x0 discards what is written to it. -/
def Hart.setX (h : Hart) (r : XReg) (v : Word) : Hart :=
  if r = 0 then h else { h with x := fset 0 h.x r.toNat v }

def Hart.getF (h : Hart) (r : XReg) : Word := fget 0 h.f r.toNat

def Hart.setF (h : Hart) (r : XReg) (v : Word) : Hart := { h with f := fset 0 h.f r.toNat v }

/-- Lane `i` of lane register `r`. -/
def Hart.getV (h : Hart) (r i : Nat) : Lane := fget 0 h.v (32 * r + i)

def Hart.setV (h : Hart) (r i : Nat) (v : Lane) : Hart := { h with v := fset 0 h.v (32 * r + i) v }

def Hart.getM (h : Hart) (k : MReg) : Mask := fget 0 h.m k.toNat

def Hart.setM (h : Hart) (k : MReg) (v : Mask) : Hart := { h with m := fset 0 h.m k.toNat v }

def Hart.setPc (h : Hart) (a : Word) : Hart := { h with pc := a }

/-- The effective predicate of a lane word (R41). -/
def Hart.active (h : Hart) (p : LaneHdr) : Mask :=
  h.getM 0 &&& (if p.pm = 0 then 0xFFFFFFFF#32 else if p.pn then ~~~(h.getM p.pm) else h.getM p.pm)

/-- Act on the focused hart. -/
def State.onHart (s : State) (f : Hart → Hart) : State := { s with hart := f s.hart }

def State.getX (s : State) (r : XReg) : Word := s.hart.getX r
def State.setX (s : State) (r : XReg) (v : Word) : State := s.onHart (fun h => h.setX r v)

/-! ## Places, dies, cores (R3 to R6) -/

def gidDie (g : Nat) : Nat := g / 8192 % 4
/-- The cluster of a hart id, 12 × die + cluster. -/
def gidCluster (g : Nat) : Nat := 12 * gidDie g + g / 512 % 16
/-- The core of a hart id, 192 × die + core. -/
def gidCore (g : Nat) : Nat := 192 * gidDie g + 16 * (g / 512 % 16) + g / 32 % 16
/-- Bits 4:0 of a hart id: slot and hart in slot. -/
def gidPlace (g : Nat) : Nat := g % 32
/-- The hart id of a place of a core. -/
def coreGid (core place : Nat) : Nat :=
  8192 * (core / 192) + 512 * (core % 192 / 16) + 32 * (core % 16) + place
def coreDie (core : Nat) : Nat := core / 192
/-- The cluster of a core, 12 × die + cluster. -/
def coreCluster (core : Nat) : Nat := core / 16

/-- Die boundaries between two dies (R3). -/
def dieHops (a b : Nat) : Nat := (if a % 2 = b % 2 then 0 else 1) + (if a / 2 = b / 2 then 0 else 1)

def State.coreNo (s : State) : Nat := gidCore s.hart.gid
def State.dieNo (s : State) : Nat := gidDie s.hart.gid
def State.clusterNo (s : State) : Nat := gidCluster s.hart.gid

/-! ## Finding and changing harts -/

/-- A hart place: the focused hart, a parked one, or a vacant place. -/
def State.hartOf (s : State) (g : Nat) : Hart :=
  if g = s.hart.gid then s.hart else { fget (Hart.fresh g) s.parked g with gid := g }

/-- Put a hart into its place; a vacant place is not listed. -/
def State.putHart (s : State) (h : Hart) : State :=
  if h.gid = s.hart.gid then { s with hart := h }
  else if h.run = .vacant then { s with parked := fdel h.gid s.parked }
  else { s with parked := fput h.gid h s.parked }

def State.modHart (s : State) (g : Nat) (f : Hart → Hart) : State := s.putHart { f (s.hartOf g) with gid := g }

/-- Bring a hart into focus. -/
def State.focus (s : State) (g : Nat) : State :=
  if g = s.hart.gid then s
  else
    let h := s.hartOf g
    let parked := fdel g s.parked
    { s with
      hart := h
      parked := if s.hart.run = .vacant then parked else fput s.hart.gid s.hart parked }

/-- Every place that is not vacant, in ascending hart id. -/
def State.places (s : State) : List Hart :=
  (if s.hart.run = .vacant then s.parked else fput s.hart.gid s.hart s.parked).map Prod.snd

/-- Does the place hold a hart that has come into being? -/
def Run.isHart : Run → Bool
  | .starting | .ready | .waiting _ => true
  | _ => false

def Run.isWaiting : Run → Bool
  | .waiting _ => true
  | _ => false

/-- The resident harts in ascending hart id. -/
def State.resident (s : State) : List Hart := s.places.filter (fun h => h.run.isHart)

def State.teamHarts (s : State) (t : Nat) : List Hart := s.resident.filter (fun h => h.team == t)

/-- Act on every listed hart. -/
def State.eachHart (s : State) (f : State → Nat → State) : List Nat → State
  | [] => s
  | g :: r => State.eachHart (f s g) f r

/-! ## Cores, teams, launches -/

def State.core (s : State) (c : Nat) : Core := fget Core.fresh s.cores c
def State.setCore (s : State) (c : Nat) (v : Core) : State := { s with cores := fset Core.fresh s.cores c v }
def State.modCore (s : State) (c : Nat) (f : Core → Core) : State := s.setCore c (f (s.core c))

def State.die (s : State) (d : Nat) : Die := fget Die.fresh s.dies d
def State.setDie (s : State) (d : Nat) (v : Die) : State := { s with dies := fset Die.fresh s.dies d v }
def State.modDie (s : State) (d : Nat) (f : Die → Die) : State := s.setDie d (f (s.die d))

def State.modFe (s : State) (f : FrontEnd → FrontEnd) : State := { s with fe := f s.fe }
def State.modFirm (s : State) (f : Firm → Firm) : State := { s with firm := f s.firm }

def Share.none : Share := ⟨0, 0, 0, 0, 0, 0, 0, 0, 0, 0, 0, 0⟩

/-- What stands for a team that does not exist. -/
def Team.none : Team := ⟨0, 0, 0, 0, Share.none, .ended, true, false, false, false, Option.none, 0, false, 0, 0, false, [], [], []⟩

/-- What stands for a launch that does not exist. -/
def Launch.none : Launch := ⟨0, 0, [], [], 0, Option.none, false, true, [], Option.none⟩

def State.team (s : State) (t : Nat) : Team := (s.teams.find? (fun x => x.id == t)).getD Team.none
def State.modTeam (s : State) (t : Nat) (f : Team → Team) : State :=
  { s with teams := s.teams.map (fun x => if x.id = t then f x else x) }
def State.launch (s : State) (l : Nat) : Launch := (s.launches.find? (fun x => x.id == l)).getD Launch.none
def State.modLaunch (s : State) (l : Nat) (f : Launch → Launch) : State :=
  { s with launches := s.launches.map (fun x => if x.id = l then f x else x) }
/-- The launch of a team. -/
def State.launchOf (s : State) (t : Nat) : Launch := s.launch (s.team t).launch

/-- The share of the focused hart's team. -/
def State.share (s : State) : Share := (s.team s.hart.team).share

/-- The ASID of a satp value (R71). -/
def satpAsid (w : Word) : Nat := wfield w 44 16
def satpMode (w : Word) : Nat := wfield w 60 4
def satpRoot (w : Word) : Nat := wfield w 0 44 * 4096

def Hart.asid (h : Hart) : Nat := satpAsid h.csr.satp

/-! ## Launch packet fields (R293, R294) -/

def Launch.entry (l : Launch) : Word := dw l.pkt 0
def Launch.arg (l : Launch) : Word := dw l.pkt 1
def Launch.shapeTable (l : Launch) : Word := dw l.pkt 2
def Launch.outcome (l : Launch) : Nat := (dw l.pkt 3).toNat
def Launch.seed (l : Launch) : Word := dw l.pkt 5
def Launch.key (l : Launch) : Word := dw l.pkt 6
def Launch.deadline (l : Launch) : Nat := (dw l.pkt 7).toNat
def Launch.wrapEntry (l : Launch) : Word := dw l.pkt 8
def Launch.budget (l : Launch) : Nat := wfield (dw l.pkt 9) 0 32
def Launch.estimate (l : Launch) : Nat := wfield (dw l.pkt 9) 32 32
def Launch.gridX (l : Launch) : Nat := wfield (dw l.pkt 10) 0 32
def Launch.gridY (l : Launch) : Nat := wfield (dw l.pkt 10) 32 16
def Launch.gridZ (l : Launch) : Nat := wfield (dw l.pkt 10) 48 16
def Launch.roles (l : Launch) : Word := dw l.pkt 11
def Launch.resource (l : Launch) : Word := dw l.pkt 12
def Launch.control (l : Launch) : Word := dw l.pkt 13
def Launch.complAddr (l : Launch) : Nat := (dw l.pkt 14).toNat
def Launch.complValue (l : Launch) : Word := dw l.pkt 15
def Launch.roleHarts (l : Launch) (k : Nat) : Nat := wfield l.roles (16 * k) 6
/-- A role's budget, in lane registers (R164). -/
def Launch.roleBudget (l : Launch) (k : Nat) : Nat := 32 * wfield l.roles (16 * k + 6) 5
/-- A role's initial allocation, in lane registers (R164). -/
def Launch.roleAlloc (l : Launch) (k : Nat) : Nat := min (32 * wfield l.roles (16 * k + 11) 5) (l.roleBudget k)
def Launch.teamSize (l : Launch) : Nat := l.roleHarts 0 + l.roleHarts 1 + l.roleHarts 2 + l.roleHarts 3
def Launch.teamCount (l : Launch) : Nat := l.gridX * l.gridY * l.gridZ
def Launch.base (l : Launch) : Nat := wfield l.control 0 8
def Launch.coRes (l : Launch) : Bool := wbit l.control 8
def Launch.ring (l : Launch) : Bool := wbit l.control 9
def Launch.affinity (l : Launch) : Nat := wfield l.control 10 2
def Launch.explicitDie (l : Launch) : Nat := wfield l.control 12 2
def Launch.tag (l : Launch) : Nat := wfield l.control 16 16
def Launch.barCode (l : Launch) : Nat := wfield l.resource 48 12
def Launch.asid (l : Launch) : Nat := satpAsid (dw l.ctx 0)

/-- The effective priority of a hart without mutex inheritance (R166, R352, R354). -/
def State.ownPrio (s : State) (h : Hart) : Nat :=
  if h.wrapup || (match h.divertDue with | some cause => cause.testBit 5 | none => false) then 255 else
    let l := s.launchOf h.team
    min (l.base + l.boost) 254

/-- A hart's priority, raised to that of every waiter on a mutex that it owns, which may itself own mutexes (R186); a hart waits on one
mutex at most, so that a core's 32 harts bound the chain. -/
def State.prioUp (s : State) : Nat → Hart → Nat
  | 0, h => s.ownPrio h
  | n + 1, h => (s.core (gidCore h.gid)).mtxs.foldl (fun acc e =>
      if e.2.owner = some h.gid then e.2.list.foldl (fun a w => max a (State.prioUp s n (s.hartOf w.gid))) acc else acc) (s.ownPrio h)

/-- The effective priority of a hart (R166, R186). -/
def State.prio (s : State) (h : Hart) : Nat := s.prioUp 32 h

/-! ## Retiring an instruction -/

/-- Device time: 64 bits, in ns (R349). -/
def State.dtime (s : State) : Nat := ((s.clock : Int) + s.time.skew).toNat % 2 ^ 64

/-- Count a retired instruction (`mcountinhibit.IR`). -/
def Hart.countRetired (h : Hart) : Hart :=
  if wbit h.csr.mcountinhibit 2 then h else { h with csr := { h.csr with minstret := h.csr.minstret + 1 } }

/-- The end test of loop level 1 at an instruction that ends at `nxt`; true where it branches back (R92, R93). -/
def Hart.endTest1 (h : Hart) (nxt : Word) : Hart × Bool :=
  if h.lpxe1 = nxt && nxt != 0 then ({ h with lpcnt1 := 0, lpxe1 := 0 }, false)
  else if h.lpcnt1 != 0 && h.lpend1 = nxt then
    ({ h with lpcnt1 := h.lpcnt1 - 1 }, h.lpcnt1 != 1)
  else (h, false)

/-- The end test of loop level 0. -/
def Hart.endTest0 (h : Hart) (nxt : Word) : Hart × Bool :=
  if h.lpxe0 = nxt && nxt != 0 then ({ h with lpcnt0 := 0, lpxe0 := 0 }, false)
  else if h.lpcnt0 != 0 && h.lpend0 = nxt then
    ({ h with lpcnt0 := h.lpcnt0 - 1 }, h.lpcnt0 != 1)
  else (h, false)

/-- Go on to the next instruction in sequence, with the end tests of R92: level 1 first, and level 0 only where level 1
did not branch back. -/
def Hart.advance (h : Hart) : Hart :=
  let nxt := h.pc + BitVec.ofNat 64 h.ilen
  if h.mode != .u || h.uiAct then { h with pc := nxt }
  else
    let t1 := h.endTest1 nxt
    if t1.2 then { t1.1 with pc := t1.1.lpbeg1 }
    else
      let t0 := t1.1.endTest0 nxt
      if t0.2 then { t0.1 with pc := t0.1.lpbeg0 } else { t0.1 with pc := nxt }

/-- The instruction retires by sequential flow. -/
def Hart.retire (h : Hart) : Hart :=
  { (h.advance).countRetired with run := .ready, answer := none, results := [], obsWait := none }

/-- The instruction retires and goes to `a`: no end test (R92). -/
def Hart.retireTo (h : Hart) (a : Word) : Hart :=
  { h.countRetired with pc := a, run := .ready, answer := none, results := [], obsWait := none }

def State.retire (s : State) : State := s.onHart Hart.retire
def State.retireTo (s : State) (a : Word) : State := s.onHart (fun h => h.retireTo a)

/-- The hart waits in the instruction at its pc (R77: it is at a boundary before that instruction). -/
def State.wait (s : State) (w : Wait) : State :=
  if s.hart.run = .waiting w then s
  else s.onHart (fun h => { h with run := .waiting w, waitFrom := s.clock })

/-! ## Taking an exception (R70, R72 to R75) and returning from one -/

/-- A trap to take: its cause, subcause and trap value. -/
structure TrapInfo where
  cause : Nat
  sub   : Nat
  tval  : Word
  deriving DecidableEq, Repr

def Priv.code : Priv → Nat
  | .u => 0
  | .s => 1
  | .m => 3

def Priv.ofCode : Nat → Priv
  | 0 => .u
  | 1 => .s
  | _ => .m

/-- The handler address for a vector base (vectored for interrupts where the mode bit says so). -/
def handlerPc (vec : Word) (intr : Bool) (cause : Nat) : Word :=
  let base := wput vec 0 2 0
  if intr && wfield vec 0 2 = 1 then base + BitVec.ofNat 64 (4 * cause) else base

def causeWord (intr : Bool) (cause : Nat) : Word :=
  BitVec.ofNat 64 (cause + if intr then 2 ^ 63 else 0)

/-- Is the trap delegated to S mode? -/
def Hart.delegated (h : Hart) (intr : Bool) (cause : Nat) : Bool :=
  h.mode != .m && wbit (if intr then h.csr.mideleg else h.csr.medeleg) cause

/-- Entry to the S-mode handler: sepc, scause, stval and sxcause, and the stacked bits of sstatus. -/
def Hart.enterS (h : Hart) (intr : Bool) (t : TrapInfo) : Hart :=
  let st := h.csr.mstatus
  let st := wputb st 8 (h.mode == .s)
  let st := wputb st 5 (wbit h.csr.mstatus 1)
  let st := wputb st 1 false
  { h with
    csr := { h.csr with
      mstatus := st, sepc := h.pc, scause := causeWord intr t.cause, stval := t.tval, sxcause := BitVec.ofNat 64 t.sub }
    mode := .s, pc := handlerPc h.csr.stvec intr t.cause, run := .ready, answer := none, results := [] }

/-- Entry to the M-mode handler. -/
def Hart.enterM (h : Hart) (intr : Bool) (t : TrapInfo) : Hart :=
  let st := h.csr.mstatus
  let st := wput st 11 2 h.mode.code
  let st := wputb st 7 (wbit h.csr.mstatus 3)
  let st := wputb st 3 false
  { h with
    csr := { h.csr with
      mstatus := st, mepc := h.pc, mcause := causeWord intr t.cause, mtval := t.tval, mxcause := BitVec.ofNat 64 t.sub }
    mode := .m, pc := handlerPc h.csr.mtvec intr t.cause, run := .ready, answer := none, results := [] }

/-- Entry to a trap handler: in S mode where the trap is delegated, else in M mode (R70, R72, R74, R75). -/
def Hart.enterTrap (h : Hart) (intr : Bool) (t : TrapInfo) : Hart :=
  if h.delegated intr t.cause then h.enterS intr t else h.enterM intr t

/-- A synchronous trap other than a lane fault: lfault := 0 (R78). -/
def Hart.takeTrap (h : Hart) (t : TrapInfo) : Hart := ({ h with lfault := 0 }).enterTrap false t

/-- The instruction in execution takes a synchronous trap. -/
def State.trap (s : State) (t : TrapInfo) : State := s.onHart (fun h => h.takeTrap t)

/-- Illegal instruction: stval receives the instruction bits (R31, R36, R44, R74). -/
def State.illegal (s : State) : State := s.trap ⟨2, 0, s.hart.ir⟩

/-- Engine request fault with its subcause (R75). -/
def State.engineFault (s : State) (sub : Nat) : State := s.trap ⟨27, sub, 0⟩

/-- Return from an S-mode handler. -/
def Hart.sret (h : Hart) : Hart :=
  let st := h.csr.mstatus
  let spp := wbit st 8
  let st := wputb st 1 (wbit st 5)
  let st := wputb st 5 true
  let st := wputb st 8 false
  let st := wputb st 17 false
  { (h.retireTo h.csr.sepc) with
    csr := { (h.retireTo h.csr.sepc).csr with mstatus := st }, mode := if spp then .s else .u }

/-- Return from an M-mode handler. -/
def Hart.mret (h : Hart) : Hart :=
  let st := h.csr.mstatus
  let mpp := Priv.ofCode (wfield st 11 2)
  let st := wputb st 3 (wbit st 7)
  let st := wputb st 7 true
  let st := wput st 11 2 0
  let st := if mpp = .m then st else wputb st 17 false
  { (h.retireTo h.csr.mepc) with
    csr := { (h.retireTo h.csr.mepc).csr with mstatus := st }, mode := mpp }

/-! ## User interrupts (R80 to R83) -/

/-- The registers of the shadow bank: x10 to x17 and x28 to x31. -/
def bankRegs : List Nat := [10, 11, 12, 13, 14, 15, 16, 17, 28, 29, 30, 31]

/-- Exchange one register with the shadow bank. -/
def Hart.swapOne (h : Hart) (r : Nat) : Hart :=
  { h with x := fset 0 h.x r (fget 0 h.shadow r), shadow := fset 0 h.shadow r (fget 0 h.x r) }

/-- Exchange the bank. -/
def Hart.swapBank (h : Hart) : Hart := bankRegs.foldl Hart.swapOne h

/-- Add a value to an outstanding counter of the hart. -/
def Hart.cnt (h : Hart) (cls : Nat) : Nat :=
  match cls with
  | 0 => h.cnt0
  | 1 => h.cnt1
  | 2 => h.cnt2
  | _ => h.cnt3

def Hart.setCnt (h : Hart) (cls v : Nat) : Hart :=
  match cls with
  | 0 => { h with cnt0 := v }
  | 1 => { h with cnt1 := v }
  | 2 => { h with cnt2 := v }
  | _ => { h with cnt3 := v }

def Hart.incCnt (h : Hart) (cls : Nat) : Hart := h.setCnt cls (h.cnt cls + 1)
def Hart.decCnt (h : Hart) (cls : Nat) : Hart := h.setCnt cls (h.cnt cls - 1)

/-- A lane store of a scope is outstanding in class 2 (R141, R243). -/
def Hart.addStore (h : Hart) (sc : Nat) : Hart := { (h.incCnt 2) with out2 := h.out2 ++ [sc] }

/-- A request of a class completes at a scope: what a later `cwait` of the class acquires (R243). -/
def Hart.noteScope (h : Hart) (cls n : Nat) : Hart := { h with cscope := fset 0 h.cscope cls (max (fget 0 h.cscope cls) n) }

/-- An event enters the pending queue, or its source holds it while the queue is full (R80). -/
def Hart.pushUi (h : Hart) (e : UiEvent) : Hart :=
  if h.uiq.length < 16 && h.uiHeld.isEmpty then
    let h := { h with uiq := h.uiq ++ [e] }
    match e.dec with
    | none => h
    | some c => h.decCnt c
  else { h with uiHeld := h.uiHeld ++ [e] }

/-- After an event has been taken, the oldest held event enters the queue. -/
def Hart.admitHeld (h : Hart) : Hart :=
  match h.uiHeld with
  | [] => h
  | e :: r => if h.uiq.length < 16 then ({ h with uiHeld := r, uiq := h.uiq ++ [e] } |> fun h =>
      match e.dec with
      | none => h
      | some c => h.decCnt c) else h

/-- Send a user-interrupt event to a hart; an event for a hart that has exited is discarded (R80), and the counter that its
continuation may await falls. -/
def State.sendUi (s : State) (g : Nat) (e : UiEvent) : State :=
  match (s.hartOf g).run, e.dec with
  | .cont _, some c => s.modHart g (fun h => h.decCnt c)
  | r, _ => if r.isHart then s.modHart g (fun h => h.pushUi e) else s

/-- The Polder slot that an ASID owns, 0 for an open context (R372). -/
def State.slotOf (s : State) (asid : Nat) : Nat :=
  ((s.firm.keys.find? (fun e => e.1 != 0 && e.2.valid && e.2.asid == asid)).map Prod.fst).getD 0

/-! ## Debug mode (R33, R382; external debug 1.0; log 8) -/

/-- Does a Polder own the hart or its core? -/
def State.polderHart (s : State) (g : Nat) : Bool :=
  s.slotOf (s.hartOf g).asid != 0 || (s.core (gidCore g)).slot != 0

/-- May the focused hart enter debug mode: the debug state is invasive, and no Polder owns the hart. -/
def State.debugOpen (s : State) : Bool := s.firm.dbg == 2 && !s.polderHart s.hart.gid

/-- The hart enters debug mode for a cause of dcsr. -/
def Hart.debugEnter (h : Hart) (cause : Nat) : Hart :=
  { h with dbg := { h.dbg with
      halted := true, step := false, dpc := h.pc, dcsr := wput (wput h.dbg.dcsr 6 3 cause) 0 2 h.mode.code } }

/-- Does the hart wait with an access that has been checked, for the host to give up a line (R397, R405)? -/
def Hart.checked (h : Hart) : Bool :=
  match h.run with
  | .waiting (.snoop _) => true
  | _ => false

/-- After one instruction of a single step, the hart halts again. -/
def Hart.afterStep (h : Hart) : Hart := if h.dbg.step && !h.dbg.halted && h.run == .ready then h.debugEnter 4 else h

/-- Does dcsr send the `ebreak` of the hart's mode to debug mode (ebreakm, ebreaks, ebreaku)? -/
def Hart.ebreakHalts (h : Hart) : Bool := wbit h.dbg.dcsr (match h.mode with | .m => 15 | .s => 13 | .u => 12)

/-- Does a single step keep interrupts off (dcsr.stepie clear)? -/
def Hart.stepMasks (h : Hart) : Bool := h.dbg.step && !wbit h.dbg.dcsr 11

/-! ## Floating-point flags (R23, R97) -/

/-- Raise flags. DESIGN CHOICE (log 73): the flags of lane words leave mstatus.FS as it is, and FS off keeps no lane word from running; R97
names neither. -/
def Hart.accrue (h : Hart) (fl : BitVec 5) : Hart := { h with csr := { h.csr with fflags := h.csr.fflags ||| fl } }

/-- Two flag sets together. -/
def orFlags (l : List (BitVec 5)) : BitVec 5 := l.foldl (· ||| ·) 0

/-! ## Fresh numbers and free values -/

/-- A request number that no request has had. -/
def State.takeUid (s : State) : State × Nat := ({ s with nextUid := s.nextUid + 1 }, s.nextUid)

/-- The free choice of this step under a tag. -/
def State.freeBit (s : State) (tag : Nat) : Bool := Config.freeBit s.ticks tag
def State.freeNat (s : State) (tag : Nat) : Nat := Config.freeNat s.ticks tag

end Sys2Proof.Machine
end

