-- ==== Sys2Proof/Machine/Flags.lean ====
section
/-! DEFINITION. Floating-point flags, rounding modes and the FS gate of the hart's F and D instructions (R18, R23, R34, R97). -/
namespace Sys2Proof.Machine

/-- The rounding mode that a code of `frm` names; 5 to 7 name none (R18). -/
def frmMode (c : BitVec 3) : Option Rm := ofCode Rm.code [.rne, .rtz, .rdn, .rup, .rmm] c

/-- The rounding mode of an instruction: DYN takes frm (R18, R97). -/
def Hart.rmOf (h : Hart) (m : Rm) : Option Rm :=
  match m with
  | .dyn => frmMode h.csr.frm
  | m => some m

/-- mstatus.FS is off: the F and D instructions and their CSRs are illegal (R33: as the privileged specification). -/
def Hart.fsOff (h : Hart) : Bool := wfield h.csr.mstatus 13 2 == 0

/-- The hart's f registers or fcsr have been written: FS becomes dirty. -/
def Hart.fsDirty (h : Hart) : Hart := { h with csr := { h.csr with mstatus := wput h.csr.mstatus 13 2 3 } }

/-- Flags raised by a hart instruction of the F and D extensions. -/
def Hart.accrueF (h : Hart) (fl : BitVec 5) : Hart := if fl = 0 then h else (h.accrue fl).fsDirty

end Sys2Proof.Machine
end

