-- ==== Sys2Proof/Machine/Phys.lean ====
section
/-! DEFINITION. The physical map, channels and home slices, the checks of a physical access, and what a home holds (R75, R252 to
R254, R371, R372, R377, R392, R395). -/
namespace Sys2Proof.Machine

/-- The kinds of access that translation and protection tell apart. -/
inductive Acc where
  | fetch | load | store
  deriving DecidableEq, Repr

/-- Page-fault cause of an access (R72). -/
def Acc.pageCause : Acc → Nat
  | .fetch => 12
  | .load => 13
  | .store => 15

/-- Access-fault cause of an access (R72). -/
def Acc.accessCause : Acc → Nat
  | .fetch => 1
  | .load => 5
  | .store => 7

/-- Misalignment cause of an access (R72). -/
def Acc.alignCause : Acc → Nat
  | .store => 6
  | _ => 4

/-! ## Device physical space (R253, R392) -/

/-- Where a physical address below 2^46 lies. -/
inductive Region where
  | hbm
  | coreMem (core off : Nat)
  | regs (off : Nat)
  | notify (off : Nat)
  | far (port off : Nat)
  | host (off : Nat)
  | nowhere
  deriving DecidableEq, Repr

/-- The part of a physical address below the key id. -/
def paLow (pa : Nat) : Nat := pa % 2 ^ 46
/-- The key id, bits 51:46 (R371). -/
def paKey (pa : Nat) : Nat := pa / 2 ^ 46 % 64

def gib : Nat := 2 ^ 30

/-- Is the address in the populated part of an HBM pool (R253)? -/
def State.inHbm (s : State) (la : Nat) : Bool :=
  if 0x2000000000 ≤ la && la < 0x12000000000 then
    let d := (la - 0x2000000000) / 0x4000000000
    (la - 0x2000000000) % 0x4000000000 < 4 * (s.die d).dd * gib
  else if 0x20000000000 ≤ la && la < 0x30000000000 then la - 0x20000000000 < 16 * s.glob * gib
  else if 0x30000000000 ≤ la && la < 0x40000000000 then
    let k := (la - 0x30000000000) / 0x1000000000
    (la - 0x30000000000) % 0x1000000000 < (48 - s.glob - (s.die (k / 4)).dd) * gib
  else false

/-- The region of an address. -/
def State.region (s : State) (la : Nat) : Region :=
  if la < 0x40000000000 then (if s.inHbm la then .hbm else .nowhere)
  else if 0xE0000000000 ≤ la && la < 0xE000C000000 then
    .coreMem ((la - 0xE0000000000) / 0x40000) ((la - 0xE0000000000) % 0x40000)
  else if 0xF0000000000 ≤ la && la < 0xF8000000000 then .regs (la - 0xF0000000000)
  else if 0xF8000000000 ≤ la && la < 0xF8000100000 then .notify (la - 0xF8000000000)
  else if 0x100000000000 ≤ la && la < 0x200000000000 then
    let p := (la - 0x100000000000) / 0x20000000000
    let o := (la - 0x100000000000) % 0x20000000000
    if o < (fget Port.fresh s.ports p).units * 2 ^ 28 then .far p o else .nowhere
  else if 0x200000000000 ≤ la && la < 0x300000000000 then .host (la - 0x200000000000)
  else .nowhere

/-- The hash field `hi:lo` of an offset. -/
def ofield (off lo n : Nat) : Nat := (off >>> lo) % 2 ^ n

/-- The package channel, and with it the home slice, of an HBM address (R254). -/
def homeSlice (la : Nat) : Nat :=
  if la < 0x20000000000 then
    let off := (la - 0x2000000000) % 0x4000000000
    let d := (la - 0x2000000000) / 0x4000000000
    let c := ofield off 9 7 ^^^ ofield off 16 7 ^^^ ofield off 23 7 ^^^ ofield off 30 7
    (4 * d + c / 32) * 32 + c % 32
  else if la < 0x30000000000 then
    let off := la - 0x20000000000
    ofield off 9 9 ^^^ ofield off 18 9 ^^^ ofield off 27 9
  else
    let off := (la - 0x30000000000) % 0x1000000000
    let k := (la - 0x30000000000) / 0x1000000000
    32 * k + (ofield off 9 5 ^^^ ofield off 14 5 ^^^ ofield off 19 5 ^^^ ofield off 24 5 ^^^ ofield off 29 5)

def sliceDie (n : Nat) : Nat := n / 128

/-- The channel address at which the part of a channel that an address's pool owns begins: 32 MiB for each granule below it
(R252). -/
def State.poolBase (s : State) (la : Nat) : Nat :=
  if la < 0x20000000000 then s.glob * 2 ^ 25
  else if la < 0x30000000000 then 0
  else (s.glob + (s.die ((la - 0x30000000000) / 0x1000000000 / 4)).dd) * 2 ^ 25

/-- The address of an HBM byte within its channel: cat(off[63:h + 1], off[8:0]) in the pool's region, where h is the top bit of
the first field of the pool's hash (R254). -/
def State.chanAddr (s : State) (la : Nat) : Nat :=
  let (off, h) := if la < 0x20000000000 then ((la - 0x2000000000) % 0x4000000000, 15)
    else if la < 0x30000000000 then (la - 0x20000000000, 17)
    else ((la - 0x30000000000) % 0x1000000000, 13)
  s.poolBase la + off / 2 ^ (h + 1) * 512 + off % 512

def lineOf (pa : Nat) : Nat := pa / 128

/-- The physical line number of an address with its key id, as tags hold it (R221, R255). -/
def tagLine (pa : Nat) : Nat := pa / 128

/-! ## Checks of a physical access (R75, R372, R377, R392, R393, R402, R405) -/

def State.keySlot (s : State) (k : Nat) : KeySlot := fget KeySlot.fresh s.firm.keys k

/-- May an access with the key id be performed for the ASID (R372)? -/
def State.keyOk (s : State) (key asid : Nat) : Bool :=
  key == 0 || ((s.keySlot key).valid && (s.keySlot key).asid == asid)

/-- The jobs whose fences and busy marks stand (R377): those of the Fullers, each with whether it is still arming, and those on flash,
which a reset leaves for bring-up to resume (R381). -/
def State.fences (s : State) : List (Bool × Job) :=
  s.dies.filterMap (fun e =>
    if 1 ≤ e.2.fuller.state && e.2.fuller.state ≤ 4 then e.2.fuller.job.map (fun j => (e.2.fuller.state == 1, j)) else none) ++
  s.firm.journal.map (fun e => (false, e.job))

/-- The jobs that are armed and not done. -/
def State.jobs (s : State) : List Job := s.fences.map Prod.snd

/-- Does a job fence the address for a context (R377)? While the job is arming, the owner's own work that is ending does not meet
the fence (R405). -/
def State.fenced (s : State) (la asid : Nat) : Bool :=
  s.fences.any (fun e => !(e.1 && e.2.asid == asid) &&
    e.2.ranges.any (fun r => decide (r.1 ≤ la) && decide (la < r.1 + 4096 * r.2)))

/-- Is the core listed in a job that has not yet passed it (R383)? -/
def State.inJob (s : State) (c : Nat) : Bool :=
  s.dies.any (fun e =>
    match e.2.fuller.job with
    | none => false
    | some j => (j.cores.drop e.2.fuller.cdone).contains c)

/-- Is a byte of a core's converted ways in a shared-memory share of a team of the context (R392)? -/
def State.aliasOwned (s : State) (core off asid : Nat) : Bool :=
  s.teams.any (fun t => t.core == core && (t.phase == .running || t.phase == .evicting) &&
    decide (t.share.shBase ≤ off) && decide (off < t.share.shBase + t.share.shSize) && (s.launch t.launch).asid == asid)

/-- The refusal of a physical access for an ASID by the physical map, the key rules or a port: its subcause. -/
def State.refusal (s : State) (pa asid : Nat) : Option Nat :=
  let la := paLow pa
  let key := paKey pa
  if 2 ^ 52 ≤ pa then some 0
  else
    match s.region la with
    | .nowhere => some 0
    | .hbm => if !s.keyOk key asid || s.fenced la asid then some 3 else none
    | .coreMem c o =>
      if key != 0 then some 3
      else if (s.core c).slot != 0 && !s.keyOk (s.core c).slot asid then some 3
      else if s.aliasOwned c o asid then none else some 0
    | .far p _ => if key != 0 then some 3 else if (fget Port.fresh s.ports p).state != 1 then some 2 else none
    | .host _ => if key != 0 then some 3 else if s.cxl then none else some 0
    | _ => if key != 0 then some 3 else none

/-- Is a line lost or poisoned (R269, R270)? -/
def State.isLost (s : State) (la : Nat) : Bool :=
  s.poison.contains (lineOf la) || s.lost.any (fun e => e.2 % 2 ^ 39 == lineOf la)

/-! ## Stored bytes under a key (R371) -/

/-- The number of the key of a slot. -/
def State.keyVer (s : State) (key : Nat) : Nat := (s.keySlot key).ver

/-- A byte written under key number `w` as it reads under key number `v`: noise where the keys differ (R371). -/
def keyByte (v w la : Nat) (b : Byte) : Byte := if w = 0 || w = v then b else Config.noise v w la

/-- A byte at its home as the memory controller delivers it under a key id: a line that another key wrote reads as noise
(R371). -/
def State.homeByte (s : State) (key la : Nat) : Byte :=
  keyByte (s.keyVer key) (fget 0 s.keyOf (lineOf la)) la (memGet s.mem la)

/-- Bytes at their home. -/
def State.homeBytes (s : State) (key la : Nat) : Nat → List Byte
  | 0 => []
  | n + 1 => s.homeByte key la :: State.homeBytes s key (la + 1) n

end Sys2Proof.Machine
end

