-- ==== Sys2Proof/Machine/MemSys.lean ====
section
/-! DEFINITION. Memory below translation: homes, write queues with pending partials, the hart-cache directory, reader
counts, lost lines, cluster L1s, the loop-back ports, and what acquires and releases do (R221 to R223, R255 to R270, R310
to R321, R388, R392 to R402). -/
namespace Sys2Proof.Machine

/-! ## One step of an atomic (R261) -/

/-- Two halves of a 32-bit word, each under a function. -/
def onHalves (f : Nat → Nat → Nat) (a b : Nat) : Nat :=
  f (a % 65536) (b % 65536) + 65536 * f (a / 65536) (b / 65536)

/-- The atomic add: modular for integers, one RNE addition per element for floats (R261). -/
def atomAdd (t : ATy) (a b : Nat) : Nat :=
  match t with
  | .s32 | .n32 => (a + b) % 2 ^ 32
  | .s64 | .n64 => (a + b) % 2 ^ 64
  | .f32 => (fadd .f32 .rne false a b).bits
  | .h2 => onHalves (fun x y => (fadd .f16 .rne false x y).bits) a b
  | .b2 => onHalves (fun x y => (fadd .bf16 .rne false x y).bits) a b

/-- The atomic minimum or maximum (R261). -/
def atomMinMax (mx : Bool) (t : ATy) (a b : Nat) : Nat :=
  match t with
  | .f32 => (fminmax .f32 mx a b).bits
  | .s32 =>
    let x := (BitVec.ofNat 32 a).toInt
    let y := (BitVec.ofNat 32 b).toInt
    if mx then (if x < y then b else a) else (if y < x then b else a)
  | _ => if mx then max a b else min a b

/-- The new value of a word: operation by its code 0 add, 1 min, 2 max, 3 and, 4 or, 5 xor, 6 exchange, 7 compare and swap
with the compare value `c` (R53, R261). -/
def atomStep (op : Nat) (t : ATy) (cur d c : Nat) : Nat :=
  match op with
  | 0 => atomAdd t cur d
  | 1 => atomMinMax false t cur d
  | 2 => atomMinMax true t cur d
  | 3 => cur &&& d
  | 4 => cur ||| d
  | 5 => cur ^^^ d
  | 6 => d
  | _ => if cur = c then d else cur

/-- Bytes of one element of an atomic. -/
def atyBytes (t : ATy) : Nat := if t.is64 then 8 else 4

/-! ## Bytes at a home -/

/-- The shared-memory byte of a core (R162, R392). -/
def Core.shmBytes (c : Core) (off : Nat) : Nat → List Byte
  | 0 => []
  | n + 1 => fget 0 c.shm off :: c.shmBytes (off + 1) n

/-- Put bytes into an array of a core. -/
def putBytes (f : File Byte) (off : Nat) : List Byte → File Byte
  | [] => f
  | b :: r => putBytes (fset 0 f off b) (off + 1) r

/-- Bytes of an array of a core. -/
def getBytes (f : File Byte) (off : Nat) : Nat → List Byte
  | 0 => []
  | n + 1 => fget 0 f off :: getBytes f (off + 1) n

/-- Bytes of stored memory, without encryption. -/
def memBytes (m : List Host.Cell) (a : Nat) : Nat → List Byte
  | 0 => []
  | n + 1 => memGet m a :: memBytes m (a + 1) n

/-- What the home of a physical address holds: HBM, second-tier memory, host memory or shared memory. -/
def State.peek (s : State) (pa n : Nat) : List Byte :=
  let la := paLow pa
  match s.region la with
  | .hbm => s.homeBytes (paKey pa) la n
  | .coreMem c o => (s.core c).shmBytes o n
  | _ => memBytes s.mem la n

/-- Record for fetch what stores replace from an address on, newest first (R32). -/
def logOld (a ver : Nat) (old : List Byte) : List OldByte :=
  (old.zipIdx.map (fun e => (⟨a + e.2, e.1, ver⟩ : OldByte))).reverse

/-- Bring a line under the key of a writer: the bytes of a line that another key wrote become what that writer's read of
them gives (R371). -/
def State.rekey (s : State) (key la : Nat) : State :=
  let ln := lineOf la
  let v := fget 0 s.keyOf ln
  let w := s.keyVer key
  if v = 0 || v = w then { s with keyOf := fset 0 s.keyOf ln w }
  else
    let base := 128 * ln
    { s with
      mem := memSetBytes s.mem base (s.homeBytes key base 128)
      wlog := logOld base v (memBytes s.mem base 128) ++ s.wlog
      keyOf := fset 0 s.keyOf ln w }

/-- Write stored memory. -/
def State.writeRaw (s : State) (la : Nat) (bytes : List Byte) : State :=
  { s with
    mem := memSetBytes s.mem la bytes
    wlog := logOld la (fget 0 s.keyOf (lineOf la)) (memBytes s.mem la bytes.length) ++ s.wlog }

/-- The physical address of a byte of a core's shared memory in the global alias (R392). -/
def aliasPa (core off : Nat) : Nat := 0xE0000000000 + 0x40000 * core + off

/-- Do two runs of bytes meet? -/
def runsMeet (a n b m : Nat) : Bool := decide (a < b + m) && decide (b < a + n)

/-- A hart's notes of what its local-alias stores replaced end (R319). -/
def Core.forget (k : Core) (g : Nat) : Core := { k with lbOld := k.lbOld.filter (fun e => e.gid != g) }

/-- A write of bytes of the array ends the notes of every hart that has one of these bytes: its later accesses through the port are behind
that write (R314, R319). -/
def Core.overwritten (k : Core) (off n : Nat) : Core :=
  let hit := (k.lbOld.filter (fun e => runsMeet e.off e.bytes.length off n)).map LbStore.gid
  { k with lbOld := k.lbOld.filter (fun e => !hit.contains e.gid) }

/-- Write a core's shared memory. -/
def State.shmWrite (s : State) (core off : Nat) (bytes : List Byte) : State :=
  { (s.modCore core (fun k => { (k.overwritten off bytes.length) with shm := putBytes k.shm off bytes })) with
    wlog := logOld (aliasPa core off) 0 ((s.core core).shmBytes off bytes.length) ++ s.wlog }

/-- Write at the home of a physical address: HBM under its key, other memory as it stands, shared memory in its array. -/
def State.poke (s : State) (pa : Nat) (bytes : List Byte) : State :=
  let la := paLow pa
  match s.region la with
  | .hbm => (s.rekey (paKey pa) la).writeRaw la bytes
  | .coreMem c o => s.shmWrite c o bytes
  | .far _ _ | .host _ => s.writeRaw la bytes
  | _ => s

/-! ## Pending reduction partials (R263) -/

/-- The range of a partial meets a range of addresses. -/
def Partial.meets (p : Partial) (pa n : Nat) : Bool := decide (p.pa < pa + n) && decide (pa < p.pa + (atyBytes p.ty))

/-- Apply one partial: M := f(M, pend). -/
def State.applyPartial (s : State) (p : Partial) : State :=
  let n := (atyBytes p.ty)
  s.poke p.pa (natToBytes n (atomStep p.op p.ty (bytesNat (s.peek p.pa n)) p.val.toNat 0))

/-- Apply every pending partial that a range meets. -/
def State.settle (s : State) (pa n : Nat) : State :=
  let due := s.parts.filter (fun p => p.meets pa n)
  due.foldl State.applyPartial { s with parts := s.parts.filter (fun p => !(p.meets pa n)) }

/-- Apply every pending partial. -/
def State.settleAll (s : State) : State := s.parts.foldl State.applyPartial { s with parts := [] }

/-! ## The L2 slices (R255, R256, R258) -/

/-- The sectors of its line that a range touches. -/
def sectorMask (pa n : Nat) : BitVec 4 :=
  BitVec.ofNat 4 (((List.range 4).filter (fun k =>
    decide (32 * k < pa % 128 + n) && decide (pa % 128 < 32 * k + 32))).foldl (fun m k => m + 2 ^ k) 0)

/-- End a line's reader count: it becomes an ordinary line. -/
def State.endRdc (s : State) (ln : Nat) : State := { s with rdc := s.rdc.filter (fun e => e.line != ln) }

/-- Is a line locked in the write queue, by a pending partial? -/
def State.locked (s : State) (ln : Nat) : Bool := s.parts.any (fun p => tagLine p.pa == ln)

/-- Is a line in privatised mode? -/
def State.privatised (s : State) (ln : Nat) : Bool := s.hc.any (fun e => e.line == ln && e.kind == .priv)

/-- The line that a full set replaces: the least recently used one that is neither locked nor privatised. -/
def State.l2Victim (s : State) (set : List L2Line) : Option L2Line :=
  (set.filter (fun e => !s.locked e.line && !s.privatised e.line)).getLast?

/-- Remove a line from its slice: it is written back, and a reader count of it is lost (R258). -/
def State.l2Evict (s : State) (ln : Nat) : State :=
  { (s.endRdc ln) with l2 := s.l2.filter (fun e => e.line != ln) }

/-- A request for bytes of an HBM line at its home slice: the line becomes the most recently used of its set, with the sectors
asked for; a set of 16 lines makes room first. DESIGN CHOICE (log 68): where all 16 are locked or privatised, the slice serves the request
and keeps no line of it. -/
def State.l2Touch (s : State) (pa n : Nat) : State :=
  let la := paLow pa
  let ln := tagLine pa
  if s.region la != .hbm then s
  else
    let slice := homeSlice la
    let set := s.chanAddr la / 128 % 256
    let sect := sectorMask pa n
    match s.l2.find? (fun e => e.line == ln) with
    | some e => { s with l2 := { e with sect := e.sect ||| sect } :: s.l2.filter (fun x => x.line != ln) }
    | none =>
      let mine := s.l2.filter (fun e => e.slice == slice && e.set == set)
      let keep (s : State) : State := { s with l2 := ⟨slice, set, ln, sect⟩ :: s.l2 }
      if mine.length < 16 then keep s
      else match s.l2Victim mine with
        | some v => keep (s.l2Evict v.line)
        | none => s

/-! ## The fault-address queue (R346) -/

/-- Raise an MSI-X vector: it becomes pending where it is masked, and is sent to the host where it is not (R396). -/
def State.raiseVector (s : State) (n : Nat) : State :=
  s.modFe (fun f => { f with msixPend := f.msixPend ||| ((1#16 <<< n) &&& f.msixMask) })

/-- The die whose home an HBM address has; other addresses count for die 0. -/
def State.homeDie (s : State) (la : Nat) : Nat :=
  match s.region la with
  | .hbm => sliceDie (homeSlice la)
  | .coreMem c _ => coreDie c
  | .far p _ => p / 2
  | _ => 0

/-- Post a line, with its key id, to a die's fault-address queue (R346): 256 entries; further ones are counted as dropped. -/
def State.postFault (s : State) (d kind pa : Nat) : State :=
  let q := (s.die d).faq
  let s := if q.isEmpty then s.raiseVector 2 else s
  s.modDie d (fun x =>
    if q.length < 256 then { x with faq := q ++ [(kind, tagLine pa)] } else { x with faqDrop := (x.faqDrop + 1) % 2 ^ 32 })

/-! ## Lines that the host caches (R397) -/

/-- What the host holds of a line that it has modified. -/
def State.hostLine (s : State) (ln : Nat) : List Byte :=
  (List.range 128).map (fun i => BitVec.ofNat 8 (s.freeNat (2600 + 4096 * (128 * ln + i))))

/-- The host writes back a line that it has modified, and may keep it; a write-back that is refused now is discarded and posted (R377). -/
def State.hostWriteBack (s : State) (ln : Nat) : State :=
  if s.hostMod.contains ln then
    let t := if (s.refusal (128 * ln) 0).isSome then s.postFault (s.homeDie (paLow (128 * ln))) 6 (128 * ln)
      else s.poke (128 * ln) (s.hostLine ln)
    { t with hostMod := s.hostMod.filter (fun l => l != ln) }
  else s

/-- The host gives a line up: its response to a back-invalidate snoop, a modified line written back first. -/
def State.hostDrop (s : State) (ln : Nat) : State :=
  { (s.hostWriteBack ln) with hostHas := s.hostHas.filter (fun l => l != ln) }

/-! ## The hart-cache directory (R266 to R268) -/

/-- The copies of a line. -/
def State.copies (s : State) (ln : Nat) : List HcLine := s.hc.filter (fun e => e.line == ln)

/-- A core's copy of a line. -/
def State.copyOf (s : State) (core ln : Nat) : Option HcLine := s.hc.find? (fun e => e.core == core && e.line == ln)

/-- Put bytes into a cluster's L1 copy of a line, where it has one. -/
def L1Line.write (e : L1Line) (pa : Nat) (bytes : List Byte) : L1Line :=
  let a := max pa (128 * e.line)
  let z := min (pa + bytes.length) (128 * e.line + 128)
  { e with data := putBytes e.data (a - 128 * e.line) ((bytes.drop (a - pa)).take (z - a)) }

/-- A store of the cluster updates the lines that are present (R222). -/
def State.l1Update (s : State) (cl : Nat) (pa : Nat) (bytes : List Byte) : State :=
  { s with l1 := s.l1.map (fun e => if e.cluster = cl then e.write pa bytes else e) }

/-- Write bytes of a line to the home for a core, whose cluster's L1 follows in the same order (R315). -/
def State.mergeBytes (s : State) (core ln : Nat) : File Byte → State
  | [] => s
  | (o, b) :: r => State.mergeBytes ((s.poke (128 * ln + o) [b]).l1Update (coreCluster core) (128 * ln + o) [b]) core ln r

/-- The bytes of a copy that the home does not hold yet. -/
def HcLine.unmerged (e : HcLine) : File Byte := e.dirty.filter (fun x => !e.pub.contains x.1)

/-- Merge a copy to the home: what a release has published stands there already (R321). -/
def State.mergeCopy (s : State) (e : HcLine) : State := s.mergeBytes e.core e.line e.unmerged

/-- The default of a dirty-byte mask: every byte is listed, so the list is read with `find?`. -/
def HcLine.byte? (e : HcLine) (o : Nat) : Option Byte := (e.dirty.find? (fun x => x.1 == o)).map Prod.snd

/-- Put bytes into a copy. -/
def HcLine.put (e : HcLine) (o : Nat) : List Byte → HcLine
  | [] => e
  | b :: r => HcLine.put { e with dirty := fput o b e.dirty, pub := e.pub.filter (fun x => x != o) } (o + 1) r

/-- Recall every owned and privatised copy of a line and merge it to the home, behind the line's pending partials; the shared copies go too
(R263, R266, R267). -/
def State.recall (s : State) (ln : Nat) : State :=
  match s.copies ln with
  | [] => s
  | l => (l.foldl State.mergeCopy (s.settle (128 * ln) 128)) |> fun s => { s with hc := s.hc.filter (fun e => e.line != ln) }

/-- Recall owned and privatised copies, and leave shared ones (a read by another agent): a recall ends a reader count (R258). -/
def State.recallOwned (s : State) (ln : Nat) : State :=
  if (s.copies ln).any (fun e => e.kind != .shared) then (s.recall ln).endRdc ln else s

/-- Recall every owned or privatised line of the package. -/
def State.recallAll (s : State) : State :=
  let lns := (s.hc.filter (fun e => e.kind != .shared)).map (fun e => e.line)
  lns.foldl State.recall s

/-- A release by a hart of the core publishes the core's privatised copies, which stay privatised (R267, R321). -/
def State.publish (s : State) (core : Nat) : State :=
  let s := (s.hc.filter (fun e => e.core == core && e.kind == .priv)).foldl State.mergeCopy s
  { s with hc := s.hc.map (fun (e : HcLine) =>
      if e.core = core && e.kind = .priv then { e with pub := e.dirty.map Prod.fst } else e) }

/-- Evict one copy from a hart data cache: owned and privatised bytes are merged (R266, R267, R321). -/
def State.hcEvict (s : State) (e : HcLine) : State :=
  { (s.mergeCopy e) with hc := s.hc.filter (fun x => !(x.core == e.core && x.line == e.line)) }

/-- Lines that a core's hart data cache holds: 64 KiB of 128-byte lines (R2). -/
def hcLines : Nat := 512

/-- Before a core's data cache takes a line, it may evict one, and it does when it is full; which one is open (log 12). -/
def State.hcRoom (s : State) (core : Nat) : State :=
  let mine := s.hc.filter (fun e => e.core == core)
  if mine.isEmpty || (decide (mine.length < hcLines) && !s.freeBit 1210) then s
  else match mine[s.freeNat 1211 % mine.length]? with
    | some e => s.hcEvict e
    | none => s

/-- A core's data cache takes a copy of a line. -/
def State.addCopy (s : State) (core ln : Nat) (k : HcKind) : State :=
  let s := s.hcRoom core
  { s with hc := s.hc ++ [⟨core, ln, k, [], []⟩] }

/-- Take a core's shared copy of a line. -/
def State.addShared (s : State) (core ln : Nat) : State :=
  match s.copyOf core ln with
  | some _ => s
  | none => s.addCopy core ln .shared

/-- Count a transfer of ownership; true at the fifth within 4,096 ck (R267). -/
def State.countTransfer (s : State) (ln : Nat) : Bool × State :=
  let old := ((s.owns.find? (fun e => e.line == ln)).map OwnCount.times).getD []
  let times := (old ++ [s.clock]).drop ((old.length + 1) - 5)
  let fifth := times.length == 5 && decide (s.clock - times.headD 0 ≤ 4096)
  (fifth, { s with owns := ⟨ln, if fifth then [] else times⟩ :: s.owns.filter (fun e => e.line != ln) })

/-- Obtain ownership of a line for a core (R266); the fifth transfer privatises the line (R267). -/
def State.obtain (s : State) (core ln : Nat) : State :=
  match s.copyOf core ln with
  | some ⟨_, _, .owned, _, _⟩ => s
  | some ⟨_, _, .priv, _, _⟩ => s
  | _ =>
    let s := ((s.hostDrop ln).settle (128 * ln) 128).l2Touch (128 * ln) 128
    match (s.copies ln).find? (fun e => e.kind == .owned) with
    | none =>
      if (s.copies ln).any (fun e => e.kind == .priv) then s.addCopy core ln .priv
      else (s.recall ln).addCopy core ln .owned
    | some o =>
      let (fifth, s) := s.countTransfer ln
      if fifth then
        let s := s.mergeCopy o
        let rest := s.hc.filter (fun e => e.line != ln)
        { s with hc := rest ++ [(⟨o.core, ln, .priv, o.dirty, o.dirty.map Prod.fst⟩ : HcLine)] }.addCopy core ln .priv
      else ((s.recall ln).endRdc ln).addCopy core ln .owned

/-! ## Reader counts (R257, R258) -/

/-- Drop a line without write-back: memory holds what it held before, unless the line had been written back (log 13). -/
def State.dropRdc (s : State) (e : RdcLine) : State :=
  let s := { (s.endRdc e.line) with
    hc := s.hc.filter (fun c => c.line != e.line)
    l2 := s.l2.filter (fun c => c.line != e.line) }
  if s.freeBit (1300 + 4096 * e.line) then s else e.old.foldl (fun s ob => s.poke (128 * e.line + ob.1) [ob.2]) s

/-- One read request for a line counts (R257). -/
def State.countRead (s : State) (ln : Nat) : State :=
  match s.rdc.find? (fun e => e.line == ln) with
  | none => s
  | some e =>
    if e.cnt ≤ 1 then s.dropRdc e
    else { s with rdc := s.rdc.map (fun x => if x.line = ln then { x with cnt := x.cnt - 1 } else x) }

/-- Count one read request for each of the lines. -/
def State.countReads (s : State) (l : List Nat) : State := l.eraseDups.foldl State.countRead s

/-! ## Shares of a core, and the ways that its shared memory converts (R162, R224) -/

/-- Does the team hold shares of a core? -/
def TeamPhase.holds : TeamPhase → Bool
  | .running | .evicting => true
  | _ => false

/-- The shares of a core that are granted or being scrubbed. -/
def State.coreShares (s : State) (core : Nat) : List Share :=
  (s.teams.filter (fun t => t.core == core && t.phase.holds)).map Team.share ++ (s.core core).scrub

/-- Does a share cover the 64 KiB unit `w` of the core's shared memory? -/
def Share.coversWay (x : Share) (w : Nat) : Bool :=
  x.shSize != 0 && decide (x.shBase < 65536 * (w + 1)) && decide (65536 * w < x.shBase + x.shSize)

/-- Is way `w` of a core's slice converted? Unit 0 of the shared memory is way 7, unit 3 way 4. -/
def State.converted (s : State) (core w : Nat) : Bool :=
  decide (4 ≤ w) && (s.coreShares core).any (fun x => x.coversWay (7 - w))

/-- The number of converted ways of a core (R225). -/
def State.convWays (s : State) (c : Nat) : Nat := ((List.range 8).filter (fun w => s.converted c w)).length

/-! ## Cluster L1s (R221 to R224, R315) -/

/-- The slice that holds a line (R221). -/
def l1Slice (line : Nat) : Nat :=
  let f (k : Nat) : Nat := line / 2 ^ k % 16
  f 0 ^^^ f 4 ^^^ f 8 ^^^ f 12 ^^^ f 16 ^^^ f 20 ^^^ f 24 ^^^ f 28 ^^^ f 32 ^^^ (line / 2 ^ 36 % 8)

/-- The set of a line within its slice. -/
def l1Set (line : Nat) : Nat := line % 512

/-- Remove a line from a cluster's L1 (R264). -/
def State.l1Drop (s : State) (cl ln : Nat) : State :=
  { s with l1 := s.l1.filter (fun e => !(e.cluster == cl && e.line == ln)) }

/-- An acquire of die scope or wider (R223). -/
def State.l1Invalidate (s : State) (cl : Nat) : State := { s with l1 := s.l1.filter (fun e => e.cluster != cl) }

/-- A core converts ways: their lines are invalidated (R224). -/
def State.l1Convert (s : State) (core : Nat) : State :=
  { s with l1 := s.l1.filter (fun e =>
      !(coreCluster core == e.cluster && core % 16 == l1Slice e.line && s.converted core e.way)) }

/-- The way that a fill takes: an empty one if the set has one, else one whose line is marked as first to be evicted, else any
that is not converted (R133, R224; log 11). -/
def State.l1Victim (s : State) (cl ln : Nat) : Nat :=
  let set := s.l1.filter (fun e => e.cluster == cl && l1Slice e.line == l1Slice ln && l1Set e.line == l1Set ln)
  let ways := (List.range 8).filter (fun w => !s.converted (16 * cl + l1Slice ln) w)
  match ways.find? (fun w => set.all (fun e => e.way != w)), set.find? (fun e => e.first) with
  | some w, _ => w
  | none, some e => e.way
  | none, none => ways.getD (s.freeNat (1100 + 4096 * (512 * cl + l1Set ln)) % ways.length) 0

/-- Has a core stopped with an uncorrectable error in its L1 slice: that slice serves its cluster no longer (R304)? -/
def State.sliceDown (s : State) (cl ln : Nat) : Bool :=
  let k := s.core (16 * cl + l1Slice ln)
  k.state != 0 && k.cause == 3

/-- Fill a sector of a line from its home. -/
def State.l1Fill (s : State) (cl pa : Nat) (first : Bool) : State :=
  let ln := tagLine pa
  let base := pa / 32 * 32
  let bytes := s.peek base 32
  let sec : BitVec 4 := 1#4 <<< (pa / 32 % 4)
  if s.sliceDown cl ln then s
  else match s.l1.find? (fun e => e.cluster == cl && e.line == ln) with
  | some _ => { s with l1 := s.l1.map (fun e =>
      if e.cluster = cl && e.line = ln then
        { e with data := putBytes e.data (base % 128) bytes, sect := e.sect ||| sec } else e) }
  | none =>
    let w := s.l1Victim cl ln
    { s with l1 := ⟨cl, ln, putBytes [] (base % 128) bytes, sec, first, w⟩ ::
        s.l1.filter (fun e => !(e.cluster == cl && l1Slice e.line == l1Slice ln && l1Set e.line == l1Set ln && e.way == w)) }

/-- The copy of bytes that a cluster's L1 holds, if their sector is present. -/
def State.l1Copy (s : State) (cl pa n : Nat) : Option (List Byte) :=
  match s.l1.find? (fun e => e.cluster == cl && e.line == tagLine pa && !s.sliceDown cl (tagLine pa)) with
  | none => none
  | some e => if e.sect.getLsbD (pa / 32 % 4) then some (getBytes e.data (pa % 128) n) else none

/-- A load served by the L1: from its copy, or from the home, which fills the sector (R133, R315). The Boolean says whether the
line was read at its home. -/
def State.l1Read (s : State) (cl pa n : Nat) (first : Bool) : List Byte × Bool × State :=
  match s.l1Copy cl pa n with
  | none => (s.peek pa n, true, s.l1Fill cl pa first)
  | some c => (c, false, s)

/-! ## Reading and writing as an agent -/

/-- Who performs an access at a home: a core's hart accesses, a core's lane accesses and engines (which all write through
their cluster), or another agent. -/
inductive By where
  | hart (core : Nat)
  | core (core : Nat)
  | other
  deriving DecidableEq, Repr

/-- Before an agent other than a hart reads bytes of a line: a line that the host has modified is written back, owned copies are
recalled, and pending partials are applied (R263, R266, R397). -/
def State.ready (s : State) (pa n : Nat) : State :=
  (((s.hostWriteBack (tagLine pa)).recallOwned (tagLine pa)).settle pa n).l2Touch pa n

/-- Read at the home for an agent other than a hart, or for one beyond the hart data cache. -/
def State.readAt (s : State) (pa n : Nat) : List Byte × State :=
  let s := s.ready pa n
  (s.peek pa n, s)

/-- A write to a line ends the reservations on it that other agents hold; `own` keeps the focused hart's (R34). -/
def State.killResv (s : State) (pa : Nat) (own : Bool) : State :=
  let hit (h : Hart) : Hart := if h.resv = some (tagLine pa) then { h with resv := none } else h
  { s with hart := if own then s.hart else hit s.hart, parked := s.parked.map (fun e => (e.1, hit e.2)) }

/-- The writer's cluster updates its L1 (R222). -/
def State.l1By (s : State) (by_ : By) (pa : Nat) (bytes : List Byte) : State :=
  match by_ with
  | .other => s
  | .hart c | .core c => s.l1Update (coreCluster c) pa bytes

/-- Write at the home: the host gives the line up, copies are recalled, a reader count ends, the writer's cluster updates its L1
(R222, R258, R266, R397). -/
def State.writeAt (s : State) (by_ : By) (pa : Nat) (bytes : List Byte) : State :=
  let s := ((((s.hostDrop (tagLine pa)).recall (tagLine pa)).settle pa bytes.length).endRdc (tagLine pa)).l2Touch pa bytes.length
  ((s.poke pa bytes).killResv pa (match by_ with | .hart _ => true | _ => false)).l1By by_ pa bytes

/-- Bytes of a copy over what its home holds. -/
def overlay (e : HcLine) (o : Nat) : List Byte → List Byte
  | [] => []
  | b :: r => (e.byte? o).getD b :: overlay e (o + 1) r

/-- Does a copy's mask hold any, or all, of the bytes? -/
def HcLine.any (e : HcLine) (o n : Nat) : Bool := (List.range n).any (fun i => (e.byte? (o + i)).isSome)
def HcLine.all (e : HcLine) (o n : Nat) : Bool := (List.range n).all (fun i => (e.byte? (o + i)).isSome)

/-- Does another core's privatised copy hold any of the bytes in its mask? -/
def State.maskMet (s : State) (core pa n : Nat) : Bool :=
  (s.copies (tagLine pa)).any (fun x => x.core != core && x.kind == .priv && x.any (pa % 128) n)

/-- A hart reads HBM through its core's data cache (R266, R267). A miss is a read of the line at its home (R257). -/
def State.hartReadHbm (s : State) (core pa n : Nat) : List Byte × State :=
  let ln := tagLine pa
  let o := pa % 128
  let s := s.settle pa n
  match s.copyOf core ln with
  | some e =>
    match e.kind with
    | .shared => (s.peek pa n, s)
    | .owned => (overlay e o (s.peek pa n), s)
    | .priv =>
      if e.all o n then (overlay e o (s.peek pa n), s)
      else if s.maskMet core pa n then
        let s := (s.recall ln).endRdc ln
        (s.peek pa n, s)
      else (overlay e o (s.peek pa n), s)
  | none =>
    if s.privatised ln && !s.maskMet core pa n then (s.peek pa n, s.l2Touch pa n)
    else
      let s := (s.ready pa n).settle (128 * ln) 128
      (s.peek pa n, (s.addShared core ln).countRead ln)

/-- A plain load of a hart from HBM. A byte that another core holds in its mask and has not published may still read as its home
holds it: no edge of R311 places the load after that core's write (R321; test 9 of R324; log 12). -/
def State.hartLoadHbm (s : State) (core pa n : Nat) : List Byte × State :=
  if s.maskMet core pa n && s.freeBit (1212 + 4096 * pa) then
    let s := s.settle pa n
    match s.copyOf core (tagLine pa) with
    | some e => (overlay e (pa % 128) (s.peek pa n), s)
    | none => (s.peek pa n, s)
  else s.hartReadHbm core pa n

/-- A hart writes HBM: into its owned or privatised copy, else through to the home (R266, R267). Where its write meets
another core's mask, every copy is recalled, and either merge may come last (log 12). -/
def State.hartWriteHbm (s : State) (core pa : Nat) (bytes : List Byte) : State :=
  let ln := tagLine pa
  let o := pa % 128
  let n := bytes.length
  let put (s : State) : State :=
    (({ s with hc := s.hc.map (fun (e : HcLine) => if e.core = core && e.line = ln then e.put o bytes else e) }).l1Update
      (coreCluster core) pa bytes).killResv pa true
  match s.copyOf core ln with
  | some e =>
    match e.kind with
    | .shared => s.writeAt (.hart core) pa bytes
    | .owned => put ((s.settle pa n).endRdc ln)
    | .priv =>
      if e.all o n || !s.maskMet core pa n then put ((s.settle pa n).endRdc ln)
      else
        let s := put ((s.settle pa n).endRdc ln)
        let mine := s.hc.filter (fun x => x.line == ln && x.core == core)
        let others := s.hc.filter (fun x => x.line == ln && x.core != core)
        let order := if s.freeBit (1200 + 4096 * ln) then mine ++ others else others ++ mine
        { (order.foldl State.mergeCopy s) with hc := s.hc.filter (fun x => x.line != ln) }
  | none =>
    if s.privatised ln && !s.maskMet core pa n then
      ((((s.settle pa n).endRdc ln).poke pa bytes).killResv pa true).l1Update (coreCluster core) pa bytes
    else s.writeAt (.hart core) pa bytes

/-! ## Stores that wait at a port -/

/-- Split a list in order of arrival: first the elements with one behind them, or themselves, that `upTo` names, then the rest. -/
def dueOf {α : Type} (upTo : α → α → Bool) : List α → List α × List α
  | [] => ([], [])
  | e :: r =>
    let (due, kept) := dueOf upTo r
    if (e :: r).any (upTo e) then (e :: due, kept) else (due, e :: kept)

/-! ## The loop-back port (R90, R319) -/

/-- Perform stores at a core's array. -/
def State.lbPerform (s : State) (c : Nat) (l : List LbStore) : State := l.foldl (fun s e => s.shmWrite c e.off e.bytes) s

/-- Perform every store that waits at a core's loop-back port. -/
def State.drainLb (s : State) (c : Nat) : State :=
  (s.lbPerform c (s.core c).lb).modCore c (fun k => { k with lb := [] })

/-- Perform the stores that wait at a hart's own loop-back port, up to the hart's last. -/
def State.drainLbOf (s : State) (g : Nat) : State :=
  let c := gidCore g
  let (due, kept) := dueOf (fun _ x : LbStore => x.gid == g) (s.core c).lb
  (s.lbPerform c due).modCore c (fun k => { k with lb := kept })

/-- Before an access through the local alias, the port may or may not have drained (log 16). -/
def State.maybeDrainLb (s : State) (c : Nat) : State :=
  if (s.core c).lb.isEmpty then s else if s.freeBit 1600 then s.drainLb c else s

/-- A hart has seen or written bytes of the array through the port: what they held before its local-alias stores it sees no more. -/
def Core.seen (k : Core) (g off n : Nat) : Core :=
  if k.lbOld.any (fun e => e.gid == g && runsMeet e.off e.bytes.length off n) then k.forget g else k

/-- A store through the local alias by a hart: its accesses through the port need not see the bytes before an `lbfence`. Where a store that
waits at the port meets them, they see that store or this one: nothing is noted (R319). -/
def State.localStore (s : State) (g c off : Nat) (bytes : List Byte) : State :=
  let k := s.core c
  let n := bytes.length
  let mine := if k.lb.any (fun e => runsMeet e.off e.bytes.length off n) then []
    else ⟨g, off, k.shmBytes off n⟩ :: k.lbOld.filter (fun e => e.gid == g)
  (s.shmWrite c off bytes).modCore c (fun k => { k with lbOld := mine ++ (k.forget g).lbOld })

/-- A load by a hart of its own core's shared memory through the port: what the array holds, or what it held before the last of the hart's own
local-alias stores, any number of them. -/
def State.lbRead (s : State) (g c off n : Nat) : List Byte × State :=
  let s := s.drainLb c
  let k := s.core c
  let mine := k.lbOld.filter (fun e => e.gid == g)
  if mine.all (fun e => !runsMeet e.off e.bytes.length off n) then (k.shmBytes off n, s)
  else
    let unseen := mine.take (s.freeNat 1601 % (mine.length + 1))
    (getBytes (unseen.foldl (fun f e => putBytes f e.off e.bytes) k.shm) off n,
      s.modCore c (fun k => { k with lbOld := unseen ++ (k.forget g).lbOld }))

/-- A store through the global alias: at the core's own port it waits until the port drains, at another core's it is performed
at the array (R319). -/
def State.aliasStore (s : State) (g own c off : Nat) (bytes : List Byte) : State :=
  if c = own then
    s.modCore c (fun k => { (k.seen g off bytes.length) with lb := k.lb ++ [⟨g, off, bytes⟩] })
  else (s.drainLb c).shmWrite c off bytes

/-- `lbfence`: every earlier access of the hart to shared memory has been performed (R90). -/
def State.lbSync (s : State) (g c : Nat) : State :=
  (s.drainLb c).modCore c (fun k => k.forget g)

/-! ## Lost lines (R269, R270) -/

/-- Clear a line's lost-line entry and its poison (R270, R271). -/
def State.unlose (s : State) (la : Nat) : State :=
  { s with lost := s.lost.filter (fun e => e.2 % 2 ^ 39 != lineOf la), poison := s.poison.filter (fun e => e != lineOf la) }

/-! ## Far and host windows (R222, R393, R394, R402) -/

/-- The port number of a window: 0 to 7 for M0 to M7, 8 for H0. -/
def State.portOf (s : State) (pa : Nat) : Option Nat :=
  match s.region (paLow pa) with
  | .far p _ => some p
  | .host _ => some 8
  | _ => none

def State.port (s : State) (p : Nat) : Port := fget Port.fresh s.ports p
def State.modPort (s : State) (p : Nat) (f : Port → Port) : State :=
  { s with ports := fset Port.fresh s.ports p (f (s.port p)) }

/-- Is a port ready to take requests? The host port always is. -/
def State.portOn (s : State) (p : Nat) : Bool := p == 8 || (s.port p).state == 1

/-- May a store still enter the window of a port that has just gone offline? The offline state reaches every core within 2 µs
(R402). -/
def State.portWindow (s : State) (pa : Nat) : Bool :=
  match s.region (paLow pa) with
  | .far p _ => decide (s.clock < (s.port p).offAt + 2000) && (s.port p).state == 2 && s.freeBit (2320 + 4096 * p)
  | _ => false

/-- Is the address in the host window or a second-tier window? -/
def State.isFar (s : State) (pa : Nat) : Bool := (s.portOf pa).isSome

/-- The window of a port is offline, and stores to it are discarded: each distinct line is posted to the fault-address queue, and
each store of a line counts (R402). -/
def State.farDiscard (s : State) (p : Nat) (l : List FarStore) : State :=
  let n := ((l.map (fun e => (tagLine e.pa, e.tick))).eraseDups).length
  (((l.map (fun e => tagLine e.pa)).eraseDups).foldl (fun s ln => s.postFault (p / 2) 4 (128 * ln)) s).modPort p
    (fun o => { o with disc := (o.disc + n) % 2 ^ 32 })

/-- Perform stores buffered at a port, the storing hart's cluster updating its L1; a port that is not online discards them. -/
def State.farPerform (s : State) (p : Nat) (l : List FarStore) : State :=
  if l.isEmpty then s
  else if s.portOn p then l.foldl (fun s e => (s.poke e.pa e.bytes).l1Update (gidCluster e.gid) e.pa e.bytes) s
  else s.farDiscard p l

/-- Perform the stores that a port has buffered, oldest first. -/
def State.drainPort (s : State) (p : Nat) : State :=
  { (s.farPerform p (s.farBuf.filter (fun e => e.port == p))) with farBuf := s.farBuf.filter (fun e => e.port != p) }

/-- Perform the stores that ports have buffered for a hart, and those that arrived at the same port before them. -/
def State.drainPortsOf (s : State) (g : Nat) : State :=
  let (due, kept) := dueOf (fun e x : FarStore => x.port == e.port && x.gid == g) s.farBuf
  { ((List.range 9).foldl (fun s p => s.farPerform p (due.filter (fun e => e.port == p))) s) with farBuf := kept }

/-- A store to the host window or a second-tier window goes to its port's buffer. -/
def State.farStore (s : State) (g p pa : Nat) (bytes : List Byte) : State :=
  { s with farBuf := s.farBuf ++ [⟨p, g, s.clock, s.ticks, pa, bytes⟩] }

/-- Perform every store of a hart that waits at a port (R311, R312). -/
def State.perform (s : State) (g : Nat) : State := (s.drainPortsOf g).drainLbOf g

/-! ## Acquires and releases (R223, R267, R311, R316) -/

/-- Does an acquire of the scope invalidate the cluster L1? -/
def scopeWide : Scope → Bool
  | .die | .pkg | .sys => true
  | _ => false

/-- An acquire by a hart (R223). -/
def State.acquire (s : State) (g : Nat) (sc : Scope) : State :=
  if scopeWide sc then s.l1Invalidate (gidCluster g) else s

/-- Every outstanding lane store and push of the hart has been performed: their scopes stand for a later `cwait` (R243). -/
def Hart.storesDone (h : Hart) : Hart :=
  let h := h.out2.foldl (fun h n => h.noteScope 2 n) h
  let h := if h.cnt3 = 0 then h else h.noteScope 3 4
  { h with cnt2 := 0, cnt3 := 0, out2 := [] }

/-- A release by a hart, at any scope: its core's privatised copies are published, and its earlier writes performed (R267, R311, R312,
R321). -/
def State.release (s : State) (g : Nat) : State := ((s.publish (gidCore g)).perform g).modHart g Hart.storesDone

/-- The scope of a scope number 0 to 5 (R312). -/
def scopeOf : Nat → Scope
  | 0 => .hart
  | 1 => .team
  | 2 => .clus
  | 3 => .die
  | 4 => .pkg
  | _ => .sys

/-! ## Sequence helpers for engines: reading and writing runs of bytes at their homes -/

/-- Perform what a read of each line in a range needs first. -/
def State.readyLines (s : State) (pa n : Nat) : State :=
  (List.range ((pa % 128 + n + 127) / 128)).foldl (fun s i => s.ready (pa / 128 * 128 + 128 * i) 128) s

/-- Write a run of bytes, line by line. -/
def State.writeRun (s : State) (by_ : By) (pa : Nat) (bytes : List Byte) : Nat → State
  | 0 => s
  | k + 1 =>
    if bytes.isEmpty then s
    else
      let n := min bytes.length (128 - pa % 128)
      State.writeRun (s.writeAt by_ pa (bytes.take n)) by_ (pa + n) (bytes.drop n) k

/-- Write a run of bytes that may span lines. -/
def State.writeBytes (s : State) (by_ : By) (pa : Nat) (bytes : List Byte) : State :=
  s.writeRun by_ pa bytes (bytes.length / 128 + 2)

/-- Read a run of bytes that may span lines. -/
def State.readBytes (s : State) (pa n : Nat) : List Byte × State :=
  let s := s.readyLines pa n
  (s.peek pa n, s)

/-- Read at the home of an address for an agent other than a hart: behind the stores that its port has taken before. -/
def State.homeRead (s : State) (pa n : Nat) : List Byte × State :=
  let s := match s.region (paLow pa) with
    | .coreMem c _ => s.drainLb c
    | .far p _ => s.drainPort p
    | .host _ => s.drainPort 8
    | _ => s.readyLines pa n
  (s.peek pa n, s)

/-- Write at the home of an address, for an engine: behind the stores that its port has taken before; the writer's cluster updates
its L1 (R222). -/
def State.homeWrite (s : State) (by_ : By) (pa : Nat) (bytes : List Byte) : State :=
  match s.region (paLow pa) with
  | .coreMem c _ => (s.drainLb c).poke pa bytes
  | .far p _ => ((s.drainPort p).poke pa bytes).l1By by_ pa bytes
  | .host _ => ((s.drainPort 8).poke pa bytes).l1By by_ pa bytes
  | _ => s.writeBytes by_ pa bytes

/-- Bring the line of a checked address: the scopes `.hart` to `.clus` fill the L1 slice with it and the L2, the others and hint
`.l2` the L2 alone; no line of a reader count, and no lost line (R138, R257, R270). -/
def State.fetchLine (s : State) (cl : Nat) (sc : Scope) (hint : Hint) (pa : Nat) : State :=
  let base := 128 * tagLine pa
  match s.region (paLow pa) with
  | .regs _ | .notify _ | .coreMem _ _ | .nowhere => s
  | r =>
    if r == .hbm && (s.isLost (paLow pa) || s.rdc.any (fun e => e.line == tagLine pa)) then s
    else
      let s := (s.homeRead base 128).2
      if scopeWide sc || hint == .l2 then s
      else (List.range 4).foldl (fun s k => s.l1Fill cl (base + 32 * k) (hint == .str)) s

end Sys2Proof.Machine
end

