-- ==== Sys2Proof/Machine/Mmu.lean ====
section
/-! DEFINITION. PMP, page walks and the TLBs (R33, R71, R75, R138, R273 to R275, R327). -/
namespace Sys2Proof.Machine

/-! ## PMP (R33, R34: 16 entries, 4 KiB grain) -/

/-- The address range of a PMP entry, in bytes. -/
def pmpRange (cfg : Byte) (prev addr : Word) : Option (Nat × Nat) :=
  match cfg.toNat / 8 % 4 with
  | 1 => some (4 * (prev.toNat / 1024 * 1024), 4 * (addr.toNat / 1024 * 1024))
  | 3 =>
    let a := addr.toNat ||| 511
    let ones := Nat.log2 ((a ^^^ (a + 1)) + 1) - 1
    let base := 4 * (a / 2 ^ (ones + 1) * 2 ^ (ones + 1))
    some (base, base + 2 ^ (ones + 3))
  | _ => none

/-- The configuration byte of the first matching PMP entry. -/
def pmpFind (h : Hart) (pa : Nat) : List Nat → Option Byte
  | [] => none
  | i :: r =>
    let cfg := fget 0 h.csr.pmpcfg i
    let prev := if i = 0 then 0 else fget 0 h.csr.pmpaddr (i - 1)
    match pmpRange cfg prev (fget 0 h.csr.pmpaddr i) with
    | some (lo, hi) => if lo ≤ pa && pa < hi then some cfg else pmpFind h pa r
    | none => pmpFind h pa r

/-- Does PMP allow the access at a privilege? -/
def Hart.pmpOk (h : Hart) (p : Priv) (a : Acc) (pa : Nat) : Bool :=
  match pmpFind h pa (List.range 16) with
  | none => p == .m
  | some cfg =>
    if p == .m && !cfg.getLsbD 7 then true
    else match a with
      | .load => cfg.getLsbD 0
      | .store => cfg.getLsbD 1
      | .fetch => cfg.getLsbD 2

/-! ## Page walks (R71, R273; Sv48, Sv57, Svpbmt, Svnapot) -/

/-- A translation: the physical address, the page-based memory type, and what a TLB entry would hold. -/
structure Xlat where
  pa   : Nat
  pte  : Word
  /-- log2 of the leaf's size -/
  leaf : Nat
  deriving DecidableEq, Repr

def pteV (p : Word) : Bool := wbit p 0
def pteR (p : Word) : Bool := wbit p 1
def pteW (p : Word) : Bool := wbit p 2
def pteX (p : Word) : Bool := wbit p 3
def pteU (p : Word) : Bool := wbit p 4
def pteG (p : Word) : Bool := wbit p 5
def pteA (p : Word) : Bool := wbit p 6
def pteD (p : Word) : Bool := wbit p 7
def pteMt (p : Word) : Nat := wfield p 61 2
def pteN (p : Word) : Bool := wbit p 63
def ptePage (p : Word) : Nat := 4096 * wfield p 10 44

/-- Under whom a translation is made. -/
structure Agent where
  asid : Nat
  satp : Word
  priv : Priv
  sum  : Bool
  mxr  : Bool
  pbmt : Bool
  deriving DecidableEq, Repr

/-- Does a leaf permit the access (R71: A and D are never set by hardware)? -/
def Agent.permits (g : Agent) (a : Acc) (p : Word) : Bool :=
  (match a with
    | .fetch => pteX p
    | .load => pteR p || (g.mxr && pteX p)
    | .store => pteW p) &&
  (match g.priv with
    | .u => pteU p
    | _ => !pteU p || (g.sum && a != .fetch)) &&
  pteA p && (a != .store || pteD p)

/-- Reserved bits of a PTE, and the memory-type bits where menvcfg.PBMTE is clear. -/
def Agent.pteOk (g : Agent) (p : Word) : Bool :=
  pteV p && !(pteW p && !pteR p) && wfield p 54 7 == 0 && pteMt p != 3 && (g.pbmt || pteMt p == 0)

/-! ### The dies' caches of non-leaf entries -/

/-- Entries of a die's cache of non-leaf entries (R273). -/
def walkcSize : Nat := 64

/-- Does an entry give the table at level `lvl` for an address under an agent's root? -/
def WalkEnt.holds (e : WalkEnt) (die : Nat) (g : Agent) (lvl va : Nat) : Bool :=
  e.die == die && (e.glob || e.asid == g.asid) && e.sv57 == (satpMode g.satp == 10) && e.root == satpRoot g.satp &&
    e.lvl == lvl && e.vtag == va / 2 ^ (21 + 9 * lvl)

/-- Take an entry into a die's cache: one may go, and one does where the cache is full (log 10). -/
def State.fillWalkc (s : State) (e : WalkEnt) : State :=
  let mine := s.walkc.filter (fun x => x.die == e.die)
  let keep := if decide (mine.length < walkcSize) && !s.freeBit 1220 then s.walkc
    else match mine[s.freeNat 1221 % mine.length]? with
      | some x => s.walkc.filter (fun y => y != x)
      | none => s.walkc
  { s with walkc := e :: keep }

/-! ### The walk -/

/-- Walk from a table at `base` with `lvl` levels below it, through the walk unit of a die. Entries are read at their home
slices. -/
def State.walk (s : State) (die : Nat) (h : Hart) (g : Agent) (a : Acc) (va : Nat) : Nat → Nat → Except TrapInfo Xlat × State
  | lvl, base =>
    let pa := base + 8 * (va / 2 ^ (12 + 9 * lvl) % 512)
    let bad (s : State) (sub : Nat) : Except TrapInfo Xlat × State := (.error ⟨a.accessCause, sub, BitVec.ofNat 64 va⟩, s)
    let page (s : State) : Except TrapInfo Xlat × State := (.error ⟨a.pageCause, 0, BitVec.ofNat 64 va⟩, s)
    match lvl, s.walkc.find? (fun e => decide (0 < lvl) && e.holds die g (lvl - 1) va) with
    | l + 1, some e => State.walk s die h g a va l e.table
    | lvl, _ =>
      if !h.pmpOk .s .load pa then bad s 0
      else match s.refusal pa g.asid with
        | some sub => bad s sub
        | none =>
          if s.region (paLow pa) == .hbm && s.isLost (paLow pa) then bad s 1
          else
            let (b, s) := s.homeRead pa 8
            let p : Word := BitVec.ofNat 64 (leNat b)
            if !g.pteOk p then page s
            else if pteR p || pteX p then
              let size := if pteN p && lvl = 0 then 16 else 12 + 9 * lvl
              if pteN p && (lvl != 0 || wfield p 10 4 != 8) then page s
              else if !pteN p && ptePage p % 2 ^ size != 0 then page s
              else if !g.permits a p then page s
              else (.ok ⟨ptePage p / 2 ^ size * 2 ^ size + va % 2 ^ size, p, size⟩, s)
            else if pteA p || pteD p || pteU p || pteN p || pteMt p != 0 then page s
            else match lvl with
              | 0 => page s
              | l + 1 =>
                State.walk (s.fillWalkc ⟨die, g.asid, pteG p, satpMode g.satp == 10, satpRoot g.satp, l, va / 2 ^ (21 + 9 * l), ptePage p⟩)
                  die h g a va l (ptePage p)

/-- Is a virtual address canonical for a mode of `bits` bits? -/
def canonical (bits : Nat) (va : Word) : Bool := (va.toNat >>> (bits - 1)) == 0 || (va.toNat >>> (bits - 1)) == 2 ^ (65 - bits) - 1

/-- The die whose walk unit serves a cluster, or a stack's Dredge processor as cluster 64 + stack. -/
def walkDie (cluster : Nat) : Nat := if cluster < 64 then cluster / 12 else (cluster - 64) / 4

/-- Walk the tables of the agent's satp for an address. -/
def State.walkRoot (s : State) (die : Nat) (h : Hart) (g : Agent) (a : Acc) (va : Word) : Except TrapInfo Xlat × State :=
  let page : Except TrapInfo Xlat × State := (.error ⟨a.pageCause, 0, va⟩, s)
  let fix (r : Except TrapInfo Xlat × State) : Except TrapInfo Xlat × State :=
    match r with
    | (.error t, s) => (.error { t with tval := va }, s)
    | (.ok x, s) => (.ok x, s)
  match satpMode g.satp with
  | 9 => if canonical 48 va then fix (s.walk die h g a (va.toNat % 2 ^ 48) 3 (satpRoot g.satp)) else page
  | 10 => if canonical 57 va then fix (s.walk die h g a (va.toNat % 2 ^ 57) 4 (satpRoot g.satp)) else page
  | _ => (.ok ⟨va.toNat, 0, 64⟩, s)

/-! ## TLBs (R273, R275, R327) -/

/-- Entries of a level. -/
def TlbPlace.size : TlbPlace → Nat
  | .micro _ => 16
  | .core _ => 128
  | .cluster _ => 4096
  | .dredge _ => 256

/-- A number for each level of the package. -/
def TlbPlace.code : TlbPlace → Nat
  | .micro n => 4 * n
  | .core n => 4 * n + 1
  | .cluster n => 4 * n + 2
  | .dredge n => 4 * n + 3

/-- Does a level lie in a cluster? -/
def TlbPlace.within (p : TlbPlace) (cluster : Nat) : Bool :=
  match p with
  | .micro n => coreCluster (n / 4) == cluster
  | .core n => coreCluster n == cluster
  | .cluster n => n == cluster
  | .dredge _ => false

/-- The levels through which a hart of a cluster looks, or a Dredge processor as cluster 64 + stack. -/
def tlbChain (h : Hart) (cluster : Nat) : List TlbPlace :=
  if cluster < 64 then [.micro (4 * gidCore h.gid + h.gid / 8 % 4), .core (gidCore h.gid), .cluster cluster]
  else [.dredge (cluster - 64)]

/-- The virtual-address bits that a mode compares. -/
def vaBits (sv57 : Bool) : Nat := if sv57 then 57 else 48

/-- Size of a cached entry: a leaf above 1 GiB is cached as 1 GiB pieces. -/
def tlbSize (leaf : Nat) : Nat := min leaf 30

/-- Does a TLB entry hold the page of an address for an agent, at a level? -/
def TlbEnt.holds (e : TlbEnt) (p : TlbPlace) (asid : Nat) (sv57 : Bool) (va : Nat) : Bool :=
  e.place == p && e.sv57 == sv57 && (e.glob || e.asid == asid) && e.vpage == va / 2 ^ e.size

def TlbEnt.xlat (e : TlbEnt) (va : Nat) : Xlat := ⟨e.ppage * 2 ^ e.size + va % 2 ^ e.size, e.pte, e.leaf⟩

/-- The entry that a walk would fill. -/
def tlbEntry (p : TlbPlace) (asid : Nat) (sv57 : Bool) (va : Nat) (x : Xlat) : TlbEnt :=
  let z := tlbSize x.leaf
  ⟨p, asid, pteG x.pte, sv57, va / 2 ^ z, z, x.leaf, x.pa / 2 ^ z, x.pte⟩

/-- Fill an entry at one level: one may go, and one does where the level is full (log 10). -/
def State.fillLevel (s : State) (asid : Nat) (sv57 : Bool) (va : Nat) (x : Xlat) (p : TlbPlace) : State :=
  let rest := s.tlb.filter (fun e => !(e.holds p asid sv57 va))
  let mine := rest.filter (fun e => e.place == p)
  let keep := if decide (mine.length < p.size) && !s.freeBit (10 + 4096 * p.code) then rest
    else match mine[s.freeNat (11 + 4096 * p.code) % mine.length]? with
      | some e => rest.filter (fun o => o != e)
      | none => rest
  { s with tlb := tlbEntry p asid sv57 va x :: keep }

/-- Fill a translation at levels. -/
def State.fillTlb (s : State) (l : List TlbPlace) (g : Agent) (va : Word) (x : Xlat) : State :=
  let sv57 := satpMode g.satp == 10
  l.foldl (fun s p => s.fillLevel g.asid sv57 (va.toNat % 2 ^ vaBits sv57) x p) s

/-- Look through levels in order: the levels above the first that holds the page, and the entry. -/
def State.tlbFind (s : State) (asid : Nat) (sv57 : Bool) (va : Nat) : List TlbPlace → Option (List TlbPlace × TlbEnt)
  | [] => none
  | p :: r =>
    match s.tlb.find? (fun e => e.holds p asid sv57 va) with
    | some e => some ([], e)
    | none => (s.tlbFind asid sv57 va r).map (fun x => (p :: x.1, x.2))

/-- Invalidate TLB entries (R71, R275). A wanted address matches a large leaf at the leaf's true size. -/
def tlbStruck (va asid : Option Nat) (e : TlbEnt) (keepGlob : Bool) : Bool :=
  (match asid with
    | none => true
    | some k => e.asid == k && !(keepGlob && e.glob)) &&
  (match va with
    | none => true
    | some v => (v % 2 ^ vaBits e.sv57) / 2 ^ e.leaf == e.vpage * 2 ^ e.size / 2 ^ e.leaf)

/-- Does an invalidation meet an entry of a walk cache: one whose table maps the address? -/
def walkcStruck (va asid : Option Nat) (e : WalkEnt) (keepGlob : Bool) : Bool :=
  (match asid with
    | none => true
    | some k => e.asid == k && !(keepGlob && e.glob)) &&
  (match va with
    | none => true
    | some v => v % 2 ^ vaBits e.sv57 / 2 ^ (21 + 9 * e.lvl) == e.vtag)

/-! ## Walks in progress (R138, R273 to R275) -/

/-- The agent for which a walk that a prefetch began is made. -/
def Walk.agent (w : Walk) : Agent := ⟨satpAsid w.satp, w.satp, w.priv, w.sum, w.mxr, w.pbmt⟩

/-- Does a miss match a walk in progress on the die: its ASID, root and page? -/
def Walk.joins (w : Walk) (die : Nat) (g : Agent) (va : Word) : Bool :=
  walkDie w.cluster == die && satpAsid w.satp == g.asid && satpRoot w.satp == satpRoot g.satp && w.va.toNat / 4096 == va.toNat / 4096

/-- Has a shootdown since the walk began struck the translation that it found? -/
def Walk.void (w : Walk) (g : Agent) (va : Word) (x : Xlat) : Bool :=
  let sv57 := satpMode g.satp == 10
  w.struck.any (fun k => tlbStruck k.1 k.2 (tlbEntry (.cluster w.cluster) g.asid sv57 (va.toNat % 2 ^ vaBits sv57) x) true)

/-- Walks that a die's unit makes at once. -/
def walkUnits : Nat := 32

/-- A walk gives a translation to the prefetch that began it: it fills the TLBs, unless a shootdown has struck it, and brings the line where
the prefetch's own checks pass (R138, R275). -/
def State.walkFills (s : State) (w : Walk) (x : Xlat) : State :=
  let h := s.hartOf w.gid
  let g := w.agent
  let pa := x.pa / 4096 * 4096 + w.va.toNat % 4096
  let s := if w.void g w.va x then s else s.fillTlb (tlbChain h w.cluster) g w.va x
  if !g.pteOk x.pte || !g.permits .load x.pte || pteMt x.pte != 0 || !h.pmpOk g.priv .load pa || (s.refusal pa g.asid).isSome then s
  else s.fetchLine w.cluster w.scope w.hint pa

/-- A translation that misses walks the tables and fills every level. Where a walk for its page is in progress it joins that one, and there is one
walk: what it gives goes to both, and to no TLB if a shootdown has struck it (R274, R275). While every walk unit of the die is busy the
miss waits, and the oldest of those walks has ended before it starts. -/
def State.missWalk (s : State) (h : Hart) (cluster : Nat) (g : Agent) (a : Acc) (va : Word) : Except TrapInfo Xlat × State :=
  let die := walkDie cluster
  let busy := s.walks.filter (fun w => walkDie w.cluster == die)
  let ended (s : State) (w : Walk) : State := { s with walks := s.walks.filter (fun x => x.uid != w.uid) }
  match busy.find? (fun w => w.joins die g va), busy with
  | some w, _ =>
    match (ended s w).walkRoot die h g a va with
    | (.error t, s) => (.error t, s)
    | (.ok x, s) => (.ok x, (if w.void g va x then s else s.fillTlb (tlbChain h cluster) g va x).walkFills w x)
  | none, l =>
    let s := match l with
      | w :: _ => if l.length < walkUnits then s else ended s w
      | [] => s
    match s.walkRoot die h g a va with
    | (.error t, s) => (.error t, s)
    | (.ok x, s) => (.ok x, s.fillTlb (tlbChain h cluster) g va x)

/-- Translate for an agent of a cluster: from the first level that holds the page, which fills the levels above it, or by a
walk. -/
def State.translateAs (s : State) (h : Hart) (cluster : Nat) (g : Agent) (a : Acc) (va : Word) :
    Except TrapInfo Xlat × State :=
  if satpMode g.satp = 0 || g.priv == .m then (.ok ⟨va.toNat, 0, 64⟩, s)
  else
    let sv57 := satpMode g.satp == 10
    let v := va.toNat % 2 ^ vaBits sv57
    if !canonical (vaBits sv57) va then (.error ⟨a.pageCause, 0, va⟩, s)
    else match s.tlbFind g.asid sv57 v (tlbChain h cluster) with
      | none => s.missWalk h cluster g a va
      | some (above, e) =>
        let s := s.fillTlb above g va (e.xlat v)
        if g.permits a e.pte then (.ok (e.xlat v), s) else (.error ⟨a.pageCause, 0, va⟩, s)

/-- The effective privilege of a hart's data accesses (R71). -/
def Hart.dataPriv (h : Hart) : Priv :=
  if h.mode == .m && wbit h.csr.mstatus 17 then Priv.ofCode (wfield h.csr.mstatus 11 2) else h.mode

/-- The agent that a hart's accesses act for. -/
def Hart.agent (h : Hart) (p : Priv) : Agent :=
  ⟨h.asid, h.csr.satp, p, wbit h.csr.mstatus 18, wbit h.csr.mstatus 19, wbit h.csr.menvcfg 62⟩

end Sys2Proof.Machine
end

