-- ==== Sys2Proof/Machine/Operands.lean ====
section
/-! DEFINITION. Lane operands: reading every operand form, checking registers and streams, writing lane results, pushing to
write streams, and taking a lane fault (R42 to R44, R66, R78, R79, R94 to R97, R142 to R144, R245, R248). -/
namespace Sys2Proof.Machine

/-! ## Operand values (R42, R43, R96) -/

/-- An operand in a 32-bit position, in lane `i`. -/
def Hart.src32 (h : Hart) (f : LOp) (i : Nat) : Lane :=
  let n := f.toNat
  if n < 640 then h.getV n i
  else if n < 800 then (h.getX (BitVec.ofNat 5 (n - 768))).setWidth 32
  else if n < 832 then (h.getF (BitVec.ofNat 5 (n - 800))).setWidth 32
  else if n = 832 then 0
  else if n = 833 then BitVec.ofNat 32 i
  else if n = 834 then BitVec.ofNat 32 (32 * h.gid + i)
  else if n = 835 then 0x3F800000#32
  else 0xFFFFFFFF#32

/-- A lane register pair as one 64-bit value. -/
def Hart.pair (h : Hart) (n i : Nat) : Word := h.getV (n + 1) i ++ h.getV n i

/-- An operand in a 64-bit position, in lane `i` (R43). -/
def Hart.src64 (h : Hart) (f : LOp) (i : Nat) : Word :=
  let n := f.toNat
  if n < 640 then h.pair n i
  else if n < 800 then h.getX (BitVec.ofNat 5 (n - 768))
  else if n = 832 then 0
  else if n = 833 then BitVec.ofNat 64 i
  else if n = 834 then BitVec.ofNat 64 (32 * h.gid + i)
  else 0xFFFFFFFFFFFFFFFF#64

/-- The lane registers that an operand field names, as `n` consecutive ones. -/
def regsOf (f : LOp) (n : Nat) : List Nat :=
  if f.toNat < 640 then (List.range n).map (fun k => f.toNat + k) else []

/-- The base of a memory form: an x register, or 0 for vzero (R127). -/
def Hart.base (h : Hart) (f : LOp) : Word :=
  if f.toNat = 832 then 0 else h.getX (BitVec.ofNat 5 (f.toNat - 768))

/-! ## Data accesses of a hart and its lanes (R71, R75) -/

/-- Translate and check a data access at a privilege, but for lost lines: its physical address. A store to a window that has just
gone offline may still enter it (R402), and an access that waits for the host was checked before it began to wait (R405). -/
def State.dataPa (s : State) (p : Priv) (a : Acc) (va : Word) : Except TrapInfo Nat × State :=
  let h := s.hart
  match s.translateAs h s.clusterNo (h.agent p) a va with
  | (.error t, s) => (.error t, s)
  | (.ok x, s) =>
    if !h.pmpOk p a x.pa then (.error ⟨a.accessCause, 0, va⟩, s)
    else match s.refusal x.pa h.asid with
      | some sub =>
        if (sub = 2 && a == .store && s.portWindow x.pa) || (sub = 3 && h.checked) then (.ok x.pa, s) else (.error ⟨a.accessCause, sub, va⟩, s)
      | none => (.ok x.pa, s)

/-- The memory type of a page (Svpbmt): 0 of the region's own attributes, 1 NC, 2 IO. Untranslated accesses have none. -/
def State.pageMt (s : State) (p : Priv) (a : Acc) (va : Word) : Nat :=
  match s.translateAs s.hart s.clusterNo (s.hart.agent p) a va with
  | (.ok x, _) => pteMt x.pte
  | _ => 0

/-- Is the page I/O? -/
def State.pageIsIo (s : State) (p : Priv) (a : Acc) (va : Word) : Bool := s.pageMt p a va == 2

/-- Are the accesses of a page kept out of every cache: NC and IO pages (R393, Svpbmt)? -/
def State.pageNc (s : State) (p : Priv) (a : Acc) (va : Word) : Bool := s.pageMt p a va != 0

/-- Is the port of an address, if it has one, online? -/
def State.farOn (s : State) (pa : Nat) : Bool :=
  match s.portOf pa with
  | some p => s.portOn p
  | none => true

/-- The refusal of an access to a lost line (R270). -/
def State.lostTrap (s : State) (a : Acc) (va : Word) (pa : Nat) : Option TrapInfo :=
  if s.region (paLow pa) == .hbm && s.isLost (paLow pa) then some ⟨a.accessCause, 1, va⟩ else none

/-! ## Lane faults (R78, R79) -/

/-- One record of the lane fault area: address, code, subcause and flags. -/
def laneRecord (addr : Word) (flt : Option TrapInfo) (flags : Nat) : List Byte :=
  natToBytes 8 addr.toNat ++
    (match flt with
      | some t => natToBytes 2 t.cause ++ [BitVec.ofNat 8 t.sub]
      | none => natToBytes 2 0xFFFF ++ [0]) ++
    [BitVec.ofNat 8 flags] ++ natToBytes 4 0

/-- Write one record physically, checked by PMP as an S-mode write; a refused write is dropped (R79). -/
def State.writeRecord (s : State) (pa : Nat) (bytes : List Byte) : State :=
  if !s.hart.pmpOk .s .store pa || (s.refusal pa s.hart.asid).isSome then s
  else match s.region (paLow pa) with
    | .regs _ | .notify _ => s
    | _ => if s.isLost (paLow pa) then s else s.writeAt (.core s.coreNo) pa bytes

/-- The 32 records of a lane fault, where lfrec.en = 1. DESIGN CHOICE (log 62): bit 0 of the flags, "performed (in lcomp)", is 0 in the records
of a load, whatever lcomp holds (R79). -/
def State.writeRecords (s : State) (act : Mask) (faults : List (Nat × TrapInfo)) (addr : Nat → Word) (store : Bool) :
    State :=
  let h := s.hart
  if !wbit h.lfrec 0 then s
  else
    let base := h.lfrec.toNat / 512 * 512
    lanes.foldl (fun s i =>
      let on := act.getLsbD i
      let flags := (if store && h.lcomp.getLsbD i then 1 else 0) + (if on then 2 else 0) + (if on && store then 4 else 0)
      s.writeRecord (base + 16 * i)
        (laneRecord (if on then addr i else 0) ((faults.find? (fun e => e.1 == i)).map Prod.snd) flags)) s

/-- The address that a lane's fault names, 0 for a lane without a fault. -/
def faultAddr (fs : List (Nat × TrapInfo)) (i : Nat) : Word := ((fs.find? (fun e => e.1 == i)).map (fun e => e.2.tval)).getD 0

/-- A lane memory fault: lfault, the records, and the trap of the lowest faulting lane (R78). -/
def State.laneTrap (s : State) (act : Mask) (faults : List (Nat × TrapInfo)) (addr : Nat → Word) (store : Bool) : State :=
  match faults with
  | [] => s
  | (_, t) :: _ =>
    (s.writeRecords act faults addr store).onHart
      (fun h => ({ h with lfault := maskOfList (faults.map Prod.fst) }).enterTrap false t)

/-! ## Streams (R142 to R144, R245) -/

/-- Elements that a pattern has. -/
def StrmSlot.total (t : StrmSlot) : Nat := t.ext.foldl (fun acc e => if e = 0 then acc else acc * e) 1

/-- Σ iₖ × strideₖ of element `e`. -/
def strmOffset : List Nat → List Word → Nat → Word
  | x :: xs, d :: ds, e => if x = 0 then 0 else BitVec.ofNat 64 (e % x) * d + strmOffset xs ds (e / x)
  | _, _, _ => 0

/-- The virtual address of an element. -/
def StrmSlot.addr (t : StrmSlot) (e : Nat) : Word := t.base + strmOffset t.ext t.stride e

/-- Bytes of a stream element. -/
def strmBytes (t : Tc) : Nat := Tc.width t / 8

/-- The slot that binds a lane register in a direction. -/
def Hart.boundSlot (h : Hart) (write : Bool) (r : Nat) : Option Nat :=
  (h.strm.find? (fun e => e.2.bound && e.2.reg == r && e.2.write == write)).map Prod.fst

def Hart.slot (h : Hart) (k : Nat) : StrmSlot := fget StrmSlot.fresh h.strm k
def Hart.setSlot (h : Hart) (k : Nat) (v : StrmSlot) : Hart := { h with strm := fset StrmSlot.fresh h.strm k v }

/-- The element that the `k`-th active lane receives: 0 beyond the pattern's end; `none` where it has not been fetched. -/
def StrmSlot.elem (t : StrmSlot) (k : Nat) : Option StrmElem :=
  if t.total ≤ t.pos + k then some (.data 0) else t.buf[k]?

/-- The elements of a strip for so many active lanes, or `none` where one is not yet present. -/
def StrmSlot.strip (t : StrmSlot) (n : Nat) : Option (List StrmElem) :=
  (List.range n).mapM (fun k => t.elem k)

/-- The receiving lanes whose element faulted. -/
def stripFaults : List Nat → List StrmElem → List (Nat × TrapInfo)
  | i :: is, .fault c sub va :: es => (i, ⟨c, sub, va⟩) :: stripFaults is es
  | _ :: is, .data _ :: es => stripFaults is es
  | _, _ => []

/-- The fetched elements before the first that faulted. -/
def goodPrefix : List StrmElem → List StrmElem
  | .data v :: r => .data v :: goodPrefix r
  | _ => []

/-- The register's active lanes take the strip. -/
def Hart.putStrip (h : Hart) (r : Nat) : List Nat → List StrmElem → Hart
  | i :: is, .data v :: es => Hart.putStrip (h.setV r i (v.setWidth 32)) r is es
  | _, _ => h

/-- How a lane word begins. -/
inductive LaneGo where
  /-- it traps or waits: the state after that -/
  | stop (s : State)
  /-- it goes on: the hart as its sources read (strips in place), the active lanes, and the state in which it may retire -/
  | go (view : Hart) (act : Mask) (s : State)

/-- Read the strips of the listed slots, one after another. DESIGN CHOICE (log 66): in the fault records (R144), addr is 0 for an active lane
whose own element did not fault. -/
def State.takeStrips (s0 s : State) (act : Mask) : List Nat → LaneGo
  | [] => .go s.hart act s
  | k :: ks =>
    let t := s.hart.slot k
    let ls := maskLanes act
    match t.strip ls.length with
    | none => .stop (s0.wait .stream)
    | some es =>
      match stripFaults ls es with
      | [] =>
        State.takeStrips s0 (s.onHart (fun h =>
          (h.putStrip t.reg ls es).setSlot k { t with pos := t.pos + ls.length, buf := t.buf.drop ls.length })) act ks
      | fl =>
        .stop ((s0.onHart (fun h => h.setSlot k { t with buf := goodPrefix t.buf })).laneTrap act fl
          (faultAddr fl) false)

/-- Begin a lane word that reads and writes the listed lane registers: the checks of R66, R142 and R143, then the strips. -/
def State.laneBegin (s : State) (p : LaneHdr) (reads writes : List Nat) : LaneGo :=
  let h := s.hart
  if (reads ++ writes).any (fun r => decide (h.lalloc ≤ r)) || writes.any (fun r => (h.boundSlot false r).isSome) ||
      reads.any (fun r => (h.boundSlot true r).isSome) then .stop s.illegal
  else
    let act := h.active p
    if act = 0 || h.strm.isEmpty then .go h act s
    else s.takeStrips s act ((reads.filterMap (fun r => h.boundSlot false r)).eraseDups)

/-! ## Writing lane results -/

/-- Store bytes for a lane or an engine of the hart's core, at the physical address that the checks gave. -/
def State.laneStore (s : State) (pa : Nat) (bytes : List Byte) : State :=
  match s.region (paLow pa) with
  | .coreMem c o => s.aliasStore s.hart.gid s.coreNo c o bytes
  | _ =>
    match s.portOf pa with
    | some p => s.farStore s.hart.gid p pa bytes
    | none => s.writeAt (.core s.coreNo) pa bytes

/-- Write registers in the active lanes. -/
def Hart.writeLanes (h : Hart) (r : Nat) (val : Nat → Lane) : List Nat → Hart
  | [] => h
  | i :: is => Hart.writeLanes (h.setV r i (val i)) r val is

/-- The elements that a word pushes: lane, element number and value. -/
def pushElems (t : StrmSlot) (val : Nat → Lane) (ls : List Nat) : List (Nat × Nat × Lane) :=
  ((List.range ls.length).zip ls).filterMap (fun e =>
    if t.pos + e.1 < t.total then some (e.2, t.pos + e.1, val e.2) else none)

/-- Translate the elements of a push; lanes that fault are listed (R248). -/
def State.checkPush (s : State) (t : StrmSlot) : List (Nat × Nat × Lane) → List (Nat × TrapInfo) × List (Nat × List Byte) × State
  | [] => ([], [], s)
  | (i, e, v) :: r =>
    let va := t.addr e
    let (res, s) := s.dataPa s.hart.dataPriv .store va
    match res with
    | .error f => let (fs, ws, s) := State.checkPush s t r; ((i, f) :: fs, ws, s)
    | .ok pa =>
      match s.region (paLow pa), s.lostTrap .store va pa with
      | .regs _, _ | .notify _, _ => let (fs, ws, s) := State.checkPush s t r; ((i, ⟨7, 0, va⟩) :: fs, ws, s)
      | _, some f => let (fs, ws, s) := State.checkPush s t r; ((i, f) :: fs, ws, s)
      | _, none =>
        let (fs, ws, s) := State.checkPush s t r
        (fs, (pa, natToBytes (strmBytes t.tc) v.toNat) :: ws, s)

/-- What a word pushes to one slot: the slot's number, its binding, and the elements at their physical addresses. -/
structure Push where
  slot : Nat
  bind : StrmSlot
  els  : List (Nat × List Byte)

/-- Check what a word pushes to each write stream bound to a register that it writes: the lanes whose element faults in one of
them, and the pushes. -/
def State.pushChecks (s : State) (act : Mask) : List (Nat × (Nat → Lane)) → List (Nat × TrapInfo) × List Push × State
  | [] => ([], [], s)
  | (r, val) :: rest =>
    match s.hart.boundSlot true r with
    | none => State.pushChecks s act rest
    | some k =>
      let t := s.hart.slot k
      let (fs, ws, s) := s.checkPush t (pushElems t val (maskLanes act))
      let (fs', ps, s) := State.pushChecks s act rest
      (fs ++ fs', ⟨k, t, ws⟩ :: ps, s)

/-- Perform one push: its elements in ascending order, the position, and one count in class 3. -/
def State.push (s : State) (act : Mask) (p : Push) : State :=
  let s := p.els.foldl (fun s w => s.laneStore w.1 w.2) s
  let s := s.onHart (fun h => h.setSlot p.slot { p.bind with pos := p.bind.pos + maskCount act })
  if p.els.isEmpty then s else s.onHart (fun h => h.incCnt 3)

/-- The faults of a word's lanes, lowest lane first and one for each lane. -/
def laneFaults (fs : List (Nat × TrapInfo)) : List (Nat × TrapInfo) :=
  lanes.filterMap (fun i => fs.find? (fun e => e.1 == i))

/-- Write the results of a lane word in its active lanes and let `fin` finish; `s0` is the state in which it traps. DESIGN CHOICE (log 63): a
push that faults makes a lane fault of every word, lane arithmetic among them, as R248 says; R98's list of their faults has no store fault. -/
def State.laneFinish (s0 s : State) (act : Mask) (outs : List (Nat × (Nat → Lane))) (fin : State → State) : State :=
  let ls := maskLanes act
  if s.hart.strm.isEmpty then
    fin (s.onHart (fun h => outs.foldl (fun h o => h.writeLanes o.1 o.2 ls) h))
  else
    match s.pushChecks act outs with
    | ([], ps, s) => fin ((ps.foldl (fun s p => s.push act p) s).onHart (fun h => outs.foldl (fun h o => h.writeLanes o.1 o.2 ls) h))
    | (fs, _, _) =>
      s0.laneTrap act (laneFaults fs) (faultAddr fs) true

/-- A lane word that computes one 32-bit result per active lane, with the flags of each lane. -/
def State.laneOp32 (s : State) (p : LaneHdr) (reads : List Nat) (vd : LOp)
    (f : Hart → Nat → Lane × BitVec 5) : State :=
  match s.laneBegin p reads [vd.toNat] with
  | .stop t => t
  | .go view act s1 =>
    s.laneFinish s1 act [(vd.toNat, fun i => (f view i).1)]
      (fun t => (t.onHart (fun h => h.accrue (orFlags ((maskLanes act).map (fun i => (f view i).2))))).retire)

/-- A lane word that computes one 64-bit result per active lane, without flags but those given. -/
def State.laneOp64 (s : State) (p : LaneHdr) (reads : List Nat) (vd : LOp)
    (f : Hart → Nat → Word × BitVec 5) : State :=
  match s.laneBegin p reads [vd.toNat, vd.toNat + 1] with
  | .stop t => t
  | .go view act s1 =>
    s.laneFinish s1 act
      [(vd.toNat, fun i => (f view i).1.setWidth 32), (vd.toNat + 1, fun i => ((f view i).1 >>> 32).setWidth 32)]
      (fun t => (t.onHart (fun h => h.accrue (orFlags ((maskLanes act).map (fun i => (f view i).2))))).retire)

/-- A lane word that writes a mask register: bit i is the result of lane i if it is active, else 0 (R95). -/
def State.laneMask (s : State) (p : LaneHdr) (reads : List Nat) (md : MReg)
    (f : Hart → Mask → Nat → Bool × BitVec 5) : State :=
  match s.laneBegin p reads [] with
  | .stop t => t
  | .go view act s1 =>
    (s1.onHart (fun h =>
      (h.setM md (maskOf (fun i => act.getLsbD i && (f view act i).1))).accrue
        (orFlags ((maskLanes act).map (fun i => (f view act i).2))))).retire

end Sys2Proof.Machine
end

