-- ==== Sys2Proof/Machine/Csr.lean ====
section
/-! DEFINITION. The CSRs: which exist, who may reach them, what they read and what a write leaves (R33 to R35, R68 to R71,
R73, R93, R97, R177). -/
namespace Sys2Proof.Machine

/-! ## Fields that are computed -/

/-- The mstatus fields that software writes. -/
def mstatusW : Word := 0x00000000007E79AA#64
/-- The sstatus fields that software writes, and those that sstatus shows. -/
def sstatusW : Word := 0x00000000000C6122#64
def sstatusR : Word := 0x80000003000DE762#64

/-- mstatus with SD, the summary of FS. -/
def Hart.mstatusVal (h : Hart) : Word := wputb h.csr.mstatus 63 (wfield h.csr.mstatus 13 2 == 3)

/-- The pending bits, with STIP following stimecmp where menvcfg.STCE is set (Sstc, R34, R70). -/
def State.mipVal (s : State) : Word :=
  let c := s.hart.csr
  if wbit c.menvcfg 63 then wputb c.mip 5 (decide (c.stimecmp.toNat ≤ s.dtime)) else c.mip

/-- The cycle counter. -/
def State.cycleVal (s : State) : Word :=
  let c := s.hart.csr
  if wbit c.mcountinhibit 0 then c.mcycle else c.mcycle + BitVec.ofNat 64 s.clock

/-- What codes of a slot have counted in `left` ck: each ck counts under one code, and which is a matter of timing (free, log 15). -/
def State.scShare (s : State) (tag : Nat) : Nat → Nat → List Nat
  | 0, _ => []
  | 1, left => [left]
  | k + 1, left =>
    let x := min left (s.freeNat (1500 + 4096 * (tag + k)))
    x :: State.scShare s tag k (left - x)

/-- What the 16 codes of a slot have counted in `d` ck: while the power manager forbids issue each ck counts under code 15, and only then
(R176). -/
def State.scSlot (s : State) (tag d : Nat) : List Nat :=
  if s.firm.throttle then List.replicate 15 0 ++ [d] else s.scShare tag 15 d ++ [0]

/-- The stall counters of a core count up to now: not while SCCTL.en is 0, nor in an idle or retained core. A counter that passes
2^48 − 1 sets its slot's wrap bit (R178). -/
def State.settleScnt (s : State) (core : Nat) : State :=
  let k := s.core core
  let d := if k.scEn && k.power == .active then s.clock - k.scAt else 0
  let shares := (List.range 4).flatMap (fun i => s.scSlot (64 * core + 16 * i) d)
  let now (i : Nat) : Nat := (fget 0 k.scnt i).toNat + shares.getD i 0
  s.modCore core (fun k => { k with
    scAt := s.clock
    scnt := if d = 0 then k.scnt else (List.range 64).foldl (fun (f : File Word) i => fset 0 f i (BitVec.ofNat 64 (now i % 2 ^ 48))) []
    scWrap := k.scWrap ||| BitVec.ofNat 4 ((List.range 4).foldl (fun n i =>
      if (List.range 16).any (fun c => decide (2 ^ 48 ≤ now (16 * i + c))) then n + 2 ^ i else n) 0) })

/-- A stall counter of a core as it reads. -/
def State.scntVal (s : State) (core slot code : Nat) : Word := fget 0 ((s.settleScnt core).core core).scnt (16 * slot + code)

/-- A stall counter of the hart's own slot through hpmcounter3 to hpmcounter18 (R177). -/
def State.hpmVal (s : State) (n : Nat) : Word :=
  if 3 ≤ n && n ≤ 18 then s.scntVal s.coreNo (gidPlace s.hart.gid / 8) (n - 3) else 0

/-- uistat (R69). -/
def State.uistatVal (s : State) : Word :=
  let h := s.hart
  let left := if h.uiUntil = 0 then 0 else h.uiUntil - s.clock
  BitVec.ofNat 64 ((if h.uiIe then 1 else 0) + (if h.uiAct then 2 else 0) + left * 2 ^ 16 + h.uiq.length * 2 ^ 32)

/-- teamid: x, y and z of the team's place in the grid (R68, R297). -/
def State.teamidVal (s : State) : Word :=
  let t := s.team s.hart.team
  let l := s.launch t.launch
  let x := t.lin % max l.gridX 1
  let y := t.lin / max l.gridX 1 % max l.gridY 1
  let z := t.lin / max l.gridX 1 / max l.gridY 1
  BitVec.ofNat 64 (x + y * 2 ^ 31 + z * 2 ^ 47)

/-- acnt (R68). -/
def Hart.acntVal (h : Hart) : Word :=
  BitVec.ofNat 64 (h.cnt0 % 65536 + h.cnt1 % 65536 * 2 ^ 16 + h.cnt2 % 65536 * 2 ^ 32 + h.cnt3 % 65536 * 2 ^ 48)

/-- Commands of the hart that are queued or executing (R200). -/
def State.hq (s : State) (g : Nat) : Nat := ((s.core (gidCore g)).queue.filter (fun c => c.gid == g)).length

/-- mxbusy (R200). -/
def State.mxbusyVal (s : State) : Word :=
  let k := s.core s.coreNo
  BitVec.ofNat 64 (s.hq s.hart.gid % 128 + k.queue.length % 128 * 2 ^ 16 + (if k.rst then 2 ^ 23 else 0))

/-- Physical address of the capability list (R387, R395). -/
def hcapVal : Word := 0x0F0000000000#64

/-- The four bytes pairs of a pmpcfg register: entries 8k to 8k + 7. -/
def pmpcfgVal (h : Hart) (k : Nat) : Word :=
  BitVec.ofNat 64 (leNat ((List.range 8).map (fun i => fget 0 h.csr.pmpcfg (8 * k + i))))

/-- pmpaddr as it reads with a 4 KiB grain: the low bits read 1 in NAPOT mode, else 0 (G = 10). -/
def pmpaddrVal (h : Hart) (i : Nat) : Word :=
  let a := fget 0 h.csr.pmpaddr i
  if 16 ≤ (fget 0 h.csr.pmpcfg i).toNat % 32 then wput a 0 9 511 else wput a 0 10 0

def Hart.trigger (h : Hart) : Trigger := fget Trigger.fresh h.csr.trig h.csr.tselect

/-! ## Reading -/

/-- The machine-level CSRs. -/
def State.readM (s : State) (n : Nat) : Option Word :=
  let c := s.hart.csr
  match n with
  | 0x300 => some s.hart.mstatusVal
  | 0x301 => some 0x800000000014112D#64
  | 0x302 => some c.medeleg
  | 0x303 => some c.mideleg
  | 0x304 => some c.mie
  | 0x305 => some c.mtvec
  | 0x306 => some c.mcounteren
  | 0x30A => some c.menvcfg
  | 0x320 => some c.mcountinhibit
  | 0x340 => some c.mscratch
  | 0x341 => some c.mepc
  | 0x342 => some c.mcause
  | 0x343 => some c.mtval
  | 0x344 => some s.mipVal
  | 0x3A0 => some (pmpcfgVal s.hart 0)
  | 0x3A2 => some (pmpcfgVal s.hart 1)
  | 0x7A0 => some (BitVec.ofNat 64 c.tselect)
  | 0x7A1 => some s.hart.trigger.tdata1
  | 0x7A2 => some s.hart.trigger.tdata2
  | 0x7A3 => some s.hart.trigger.tdata3
  | 0x7A4 => some 0x01000040#64
  | 0x7A8 => some c.mcontext
  | 0x7C0 => some c.mxcause
  | 0xB00 => some s.cycleVal
  | 0xB02 => some c.minstret
  | 0xF11 => some 0
  | 0xF12 => some 0x8000000000004A34#64
  | 0xF13 => some 0x0000000000040101#64
  | 0xF14 => some (BitVec.ofNat 64 s.hart.gid)
  | 0xF15 => some 0
  | _ =>
    if 0x323 ≤ n && n ≤ 0x33F then some (if n ≤ 0x332 then BitVec.ofNat 64 (n - 0x323) else 0)
    else if 0x3B0 ≤ n && n ≤ 0x3BF then some (pmpaddrVal s.hart (n - 0x3B0))
    else if 0xB03 ≤ n && n ≤ 0xB1F then some (s.hpmVal (n - 0xB00))
    else none

/-- The supervisor-level CSRs. -/
def State.readS (s : State) (n : Nat) : Option Word :=
  let h := s.hart
  let c := h.csr
  match n with
  | 0x100 => some (h.mstatusVal &&& sstatusR)
  | 0x104 => some (c.mie &&& c.mideleg)
  | 0x105 => some c.stvec
  | 0x106 => some c.scounteren
  | 0x10A => some c.senvcfg
  | 0x140 => some c.sscratch
  | 0x141 => some c.sepc
  | 0x142 => some c.scause
  | 0x143 => some c.stval
  | 0x144 => some (s.mipVal &&& c.mideleg)
  | 0x14D => some c.stimecmp
  | 0x180 => some c.satp
  | 0x5A8 => some c.scontext
  | 0x5C0 => some (h.lfault.setWidth 64)
  | 0x5C1 => some h.lfrec
  | 0x5C2 => some h.lcomp
  | 0x5C3 => some c.sxcause
  | _ => none

/-- The user-level CSRs. -/
def State.readU (s : State) (n : Nat) : Option Word :=
  let h := s.hart
  match n with
  | 0x001 => some (h.csr.fflags.setWidth 64)
  | 0x002 => some (h.csr.frm.setWidth 64)
  | 0x003 => some ((h.csr.frm ++ h.csr.fflags).setWidth 64)
  | 0x800 => some h.lpcnt0
  | 0x801 => some h.lpbeg0
  | 0x802 => some h.lpend0
  | 0x803 => some h.lpxe0
  | 0x804 => some h.lpcnt1
  | 0x805 => some h.lpbeg1
  | 0x806 => some h.lpend1
  | 0x807 => some h.lpxe1
  | 0x808 => some h.srctr
  | 0x809 => some h.barpend
  | 0x80A => some h.barpc
  | 0x810 => some h.uivec
  | 0x811 => some h.uiepc
  | 0x812 => some h.uicause
  | 0x813 => some h.uiid
  | 0x814 => some s.uistatVal
  | 0x830 => some (BitVec.ofNat 64 h.mstk.length)
  | 0x831 => some (h.mbpres.setWidth 64)
  | 0xC00 => some s.cycleVal
  | 0xC01 => some (BitVec.ofNat 64 s.dtime)
  | 0xC02 => some h.csr.minstret
  | 0xCC0 => some hcapVal
  | 0xCC1 => some (BitVec.ofNat 64 s.dtime)
  | 0xCC2 => some (BitVec.ofNat 64 h.gid)
  | 0xCC3 => some (BitVec.ofNat 64 h.srhid)
  | 0xCC4 => some h.srseed
  | 0xCC5 => some (BitVec.ofNat 64 h.role)
  | 0xCC6 => some s.teamidVal
  | 0xCC7 => some (BitVec.ofNat 64 h.lalloc)
  | 0xCC8 => some h.wpc
  | 0xCC9 => some h.wcause
  | 0xCCA => some s.mxbusyVal
  | 0xCCB => some h.acntVal
  | _ =>
    if 0x820 ≤ n && n ≤ 0x82F then some ((h.getM (BitVec.ofNat 4 (n - 0x820))).setWidth 64)
    else if 0xC03 ≤ n && n ≤ 0xC1F then some (s.hpmVal (n - 0xC00))
    else none

/-- A CSR's value; `none` where the number names none (R68). -/
def State.csrVal (s : State) (n : Nat) : Option Word :=
  match s.readU n with
  | some v => some v
  | none => match s.readS n with
    | some v => some v
    | none => s.readM n

/-! ## Who may access -/

/-- Is the CSR read-only: by its number, or by R68? -/
def csrReadOnly (n : Nat) : Bool := n / 1024 == 3 || n == 0x820 || n == 0x830 || n == 0x831

/-- Is a counter CSR enabled for the mode (mcounteren, scounteren)? -/
def Hart.counterOk (h : Hart) (k : Nat) : Bool :=
  match h.mode with
  | .m => true
  | .s => wbit h.csr.mcounteren k
  | .u => wbit h.csr.mcounteren k && wbit h.csr.scounteren k

/-- May the hart access the CSR at all (R33, R68, R177)? -/
def Hart.csrOk (h : Hart) (n : Nat) (write : Bool) : Bool :=
  decide (n / 256 % 4 ≤ h.mode.code) && !(write && csrReadOnly n) &&
  !(decide (1 ≤ n) && decide (n ≤ 3) && h.fsOff) &&
  !(decide (0xC00 ≤ n) && decide (n ≤ 0xC1F) && !h.counterOk (n - 0xC00)) &&
  !(n == 0x180 && h.mode == .s && wbit h.csr.mstatus 20) &&
  !(n == 0x14D && h.mode == .s && !(wbit h.csr.menvcfg 63 && wbit h.csr.mcounteren 1))

/-! ## Writing -/

/-- Keep the bits outside a mask. -/
def maskWrite (mask old v : Word) : Word := (old &&& ~~~mask) ||| (v &&& mask)

/-- mstatus as a write leaves it: MPP takes no reserved mode. -/
def mstatusWrite (old v : Word) : Word :=
  maskWrite mstatusW old (if wfield v 11 2 = 2 then wput v 11 2 (wfield old 11 2) else v)

/-- Entries of a pmpcfg register: a locked entry keeps its value; W without R, and NA4 under this grain, are not taken. -/
def pmpcfgWrite (h : Hart) (k : Nat) (v : Word) : Hart :=
  (List.range 8).foldl (fun (h : Hart) i =>
    let j := 8 * k + i
    let old := fget 0 h.csr.pmpcfg j
    let new := BitVec.ofNat 8 (wfield v (8 * i) 8 &&& 0x9F)
    let new := if new.toNat / 8 % 4 = 2 then (new &&& 0xE7#8) ||| (old &&& 0x18#8) else new
    let new := if new.getLsbD 1 && !new.getLsbD 0 then new &&& 0xFD#8 else new
    if old.getLsbD 7 then h else { h with csr := { h.csr with pmpcfg := fset 0 h.csr.pmpcfg j new } }) h

/-- A pmpaddr register: locked by its own entry, or by a locked TOR entry above it. -/
def pmpaddrWrite (h : Hart) (i : Nat) (v : Word) : Hart :=
  let cfg := fget 0 h.csr.pmpcfg i
  let nxt := fget 0 h.csr.pmpcfg (i + 1)
  if cfg.getLsbD 7 || (nxt.getLsbD 7 && nxt.toNat / 8 % 4 == 1) then h
  else { h with csr := { h.csr with pmpaddr := fset 0 h.csr.pmpaddr i (wput v 54 10 0) } }

/-- tdata1 as a write leaves it: mcontrol6 with address matches only; dmode and the action to enter debug mode can be written from
debug mode alone (log 8). -/
def tdata1Write (debug : Bool) (v : Word) : Word :=
  let m := wfield v 7 4
  let d := debug && wbit v 59
  BitVec.ofNat 64 (6 * 2 ^ 60 + (if d then 2 ^ 59 else 0) + (if d && wfield v 12 4 == 1 then 2 ^ 12 else 0) + wfield v 0 3 +
    wfield v 3 2 * 8 + wfield v 6 1 * 64 + (if m ≤ 3 then m else 0) * 128)

/-- tdata3 as a write leaves it: scontext, ASID and mcontext matches (log 8). -/
def tdata3Write (v : Word) : Word :=
  let sel := wfield v 0 2
  let mh := wfield v 48 3
  BitVec.ofNat 64 ((if sel = 3 then 0 else sel) + wfield v 2 32 * 4 + (if mh = 4 then 4 * 2 ^ 48 else 0) + wfield v 51 13 * 2 ^ 51)

def Hart.modCsr (h : Hart) (f : Csrs → Csrs) : Hart := { h with csr := f h.csr }

/-- A write of the selected trigger's registers; one with dmode takes writes from debug mode alone. -/
def Hart.writeTrig (h : Hart) (debug : Bool) (n : Nat) (v : Word) : Hart :=
  let t := h.trigger
  if wbit t.tdata1 59 && !debug then h
  else
    let t := match n with
      | 0x7A1 => { t with tdata1 := tdata1Write debug v }
      | 0x7A2 => { t with tdata2 := v }
      | _ => { t with tdata3 := tdata3Write v }
    h.modCsr (fun c => { c with trig := fset Trigger.fresh c.trig c.tselect t })

/-- Interrupts 16 and 17 are cleared by a write of 0 from the mode to which they are delegated (R73). -/
def clearEfune (deleg : Word) (fromS : Bool) (old v : Word) : Word :=
  let own (i : Nat) : Bool := wbit deleg i == fromS
  let w := wputb old 16 (wbit old 16 && !(own 16 && !wbit v 16))
  wputb w 17 (wbit old 17 && !(own 17 && !wbit v 17))

/-- The interrupt enables that exist (R72). -/
def mieW : Word := 0x0000000000030AAA#64

/-- Writes of the machine-level CSRs; a number whose writes are ignored leaves the hart as it is. -/
def State.writeM (s : State) (n : Nat) (v : Word) : Hart :=
  let h := s.hart
  match n with
  | 0x300 => h.modCsr (fun c => { c with mstatus := mstatusWrite c.mstatus v })
  | 0x302 => h.modCsr (fun c => { c with medeleg := v &&& 0x0F00B3FF#64 })
  | 0x303 => h.modCsr (fun c => { c with mideleg := v &&& 0x00030222#64 })
  | 0x304 => h.modCsr (fun c => { c with mie := v &&& mieW })
  | 0x305 => h.modCsr (fun c => { c with mtvec := wputb v 1 false })
  | 0x306 => h.modCsr (fun c => { c with mcounteren := v &&& 0xFFFFFFFF#64 })
  | 0x30A => h.modCsr (fun c => { c with menvcfg := v &&& 0xC000000000000001#64 })
  | 0x320 => h.modCsr (fun c =>
      let v := v &&& 0xFFFFFFFD#64
      let now := BitVec.ofNat 64 s.clock
      let cyc := if wbit c.mcountinhibit 0 == wbit v 0 then c.mcycle
        else if wbit v 0 then c.mcycle + now else c.mcycle - now
      { c with mcountinhibit := v, mcycle := cyc })
  | 0x340 => h.modCsr (fun c => { c with mscratch := v })
  | 0x341 => h.modCsr (fun c => { c with mepc := wputb v 0 false })
  | 0x342 => h.modCsr (fun c => { c with mcause := v })
  | 0x343 => h.modCsr (fun c => { c with mtval := v })
  | 0x344 => h.modCsr (fun c =>
      let w := maskWrite (if wbit c.menvcfg 63 then 0x202#64 else 0x222#64) c.mip v
      { c with mip := clearEfune c.mideleg false w v })
  | 0x3A0 => pmpcfgWrite h 0 v
  | 0x3A2 => pmpcfgWrite h 1 v
  | 0x7A0 => if v.toNat < 4 then h.modCsr (fun c => { c with tselect := v.toNat }) else h
  | 0x7A1 | 0x7A2 | 0x7A3 => h.writeTrig false n v
  | 0x7A8 => h.modCsr (fun c => { c with mcontext := v &&& 0x1FFF#64 })
  | 0x7C0 => h.modCsr (fun c => { c with mxcause := v })
  | 0xB00 => h.modCsr (fun c =>
      { c with mcycle := if wbit c.mcountinhibit 0 then v else v - BitVec.ofNat 64 s.clock })
  | 0xB02 => h.modCsr (fun c => { c with minstret := v })
  | _ => if 0x3B0 ≤ n && n ≤ 0x3BF then pmpaddrWrite h (n - 0x3B0) v else h

/-- Writes of the supervisor-level CSRs. -/
def State.writeS (s : State) (n : Nat) (v : Word) : Hart :=
  let h := s.hart
  match n with
  | 0x100 => h.modCsr (fun c => { c with mstatus := maskWrite sstatusW c.mstatus v })
  | 0x104 => h.modCsr (fun c => { c with mie := maskWrite (c.mideleg &&& mieW) c.mie v })
  | 0x105 => h.modCsr (fun c => { c with stvec := wputb v 1 false })
  | 0x106 => h.modCsr (fun c => { c with scounteren := v &&& 0xFFFFFFFF#64 })
  | 0x10A => h.modCsr (fun c => { c with senvcfg := v &&& 1#64 })
  | 0x140 => h.modCsr (fun c => { c with sscratch := v })
  | 0x141 => h.modCsr (fun c => { c with sepc := wputb v 0 false })
  | 0x142 => h.modCsr (fun c => { c with scause := v })
  | 0x143 => h.modCsr (fun c => { c with stval := v })
  | 0x144 => h.modCsr (fun c =>
      { c with mip := clearEfune c.mideleg true (maskWrite (c.mideleg &&& 2#64) c.mip v) v })
  | 0x14D => h.modCsr (fun c => { c with stimecmp := v })
  | 0x180 => if satpMode v = 0 || satpMode v = 9 || satpMode v = 10 then h.modCsr (fun c => { c with satp := v }) else h
  | 0x5A8 => h.modCsr (fun c => { c with scontext := v &&& 0xFFFFFFFF#64 })
  | 0x5C0 => { h with lfault := v.setWidth 32 }
  | 0x5C1 => { h with lfrec := wput v 1 8 0 }
  | 0x5C2 => { h with lcomp := v }
  | 0x5C3 => h.modCsr (fun c => { c with sxcause := v })
  | _ => h

/-- A write of lpend takes effect at once; where the next instruction lies at or beyond it in an active level, the old end
becomes the pending exit (R93). -/
def Hart.writeLpend (h : Hart) (l1 : Bool) (v : Word) : Hart :=
  let nxt := h.pc + BitVec.ofNat 64 h.ilen
  if l1 then { h with lpend1 := v, lpxe1 := if h.lpcnt1 != 0 && v.ule nxt then h.lpend1 else h.lpxe1 }
  else { h with lpend0 := v, lpxe0 := if h.lpcnt0 != 0 && v.ule nxt then h.lpend0 else h.lpxe0 }

/-- Writes of the user-level CSRs. -/
def State.writeU (s : State) (n : Nat) (v : Word) : Hart :=
  let h := s.hart
  match n with
  | 0x001 => (h.modCsr (fun c => { c with fflags := v.setWidth 5 })).fsDirty
  | 0x002 => (h.modCsr (fun c => { c with frm := v.setWidth 3 })).fsDirty
  | 0x003 => (h.modCsr (fun c => { c with fflags := v.setWidth 5, frm := (v >>> 5).setWidth 3 })).fsDirty
  | 0x800 => { h with lpcnt0 := v }
  | 0x801 => { h with lpbeg0 := v }
  | 0x802 => h.writeLpend false v
  | 0x803 => { h with lpxe0 := v }
  | 0x804 => { h with lpcnt1 := v }
  | 0x805 => { h with lpbeg1 := v }
  | 0x806 => h.writeLpend true v
  | 0x807 => { h with lpxe1 := v }
  | 0x808 => { h with srctr := v }
  | 0x809 => { h with barpend := v &&& 0x1FFF#64 }
  | 0x80A => { h with barpc := wputb v 0 false }
  | 0x810 => { h with uivec := wput v 0 2 0 }
  | 0x811 => { h with uiepc := wputb v 0 false }
  | 0x812 => { h with uicause := v }
  | 0x813 => { h with uiid := v }
  | 0x814 =>
    let n := min (wfield v 16 13) 4096
    { h with uiIe := wbit v 0, uiUntil := if n = 0 then 0 else s.clock + n }
  | _ => if 0x821 ≤ n && n ≤ 0x82F then h.setM (BitVec.ofNat 4 (n - 0x820)) (v.setWidth 32) else h

/-- A CSR write. -/
def State.csrWrite (s : State) (n : Nat) (v : Word) : State :=
  if (s.readU n).isSome then { s with hart := s.writeU n v }
  else if (s.readS n).isSome then { s with hart := s.writeS n v }
  else { s with hart := s.writeM n v }

/-- The new value of a CSR operation. -/
def csrNew (op : CsrOp) (old v : Word) : Word :=
  match op with
  | .rw => v
  | .rs => old ||| v
  | .rc => old &&& ~~~v

/-- What a set or clear of mip and sip works on: the software-written pending bits, without the computed timer bit. -/
def State.csrBase (s : State) (n : Nat) (old : Word) : Word :=
  if n = 0x344 then s.hart.csr.mip else old

/-- A CSR instruction: the access checks, the old value to rd, the write if the operation makes one. An instruction that
writes minstret is not counted over what it wrote. -/
def State.csrOp (s : State) (op : CsrOp) (imm : Bool) (csr : BitVec 12) (rd src : XReg) : State :=
  let n := csr.toNat
  let write := csrWrites op src
  match s.csrVal n with
  | none => s.illegal
  | some old =>
    if !s.hart.csrOk n write then s.illegal
    else
      let v := if imm then src.setWidth 64 else s.getX src
      let s1 := if write then s.csrWrite n (csrNew op (s.csrBase n old) v) else s
      let t := (s1.setX rd old).retire
      let t := if 0xC03 ≤ n && n ≤ 0xC12 then t.settleScnt s.coreNo else t
      if write && n = 0xB02 then t.onHart (fun h => h.modCsr (fun c => { c with minstret := csrNew op old v })) else t

def execCsrAccess (op : CsrOp) (imm : Bool) (csr : BitVec 12) (rd src : XReg) (s : State) : Out :=
  .next (s.csrOp op imm csr rd src)

/-- A write of a loop CSR (R93). -/
def execLoopCsrWrite (op : CsrOp) (imm : Bool) (csr : BitVec 12) (rd src : XReg) (s : State) : Out :=
  .next (s.csrOp op imm csr rd src)

end Sys2Proof.Machine
end

