-- ==== Sys2Proof/Machine/System.lean ====
section
/-! DEFINITION. Interrupts and which one a hart takes, triggers, fences, `sfence.vma`, the waits for interrupts and
reservations, and the return from a trap (R32 to R34, R71 to R73, R77, R318). -/
namespace Sys2Proof.Machine

/-! ## Interrupts (R72, R73) -/

/-- Is interrupt `i` pending? The timer bit follows stimecmp where menvcfg.STCE is set. -/
def State.pending (s : State) (i : Nat) : Bool :=
  if i = 5 && wbit s.hart.csr.menvcfg 63 then decide (s.hart.csr.stimecmp.toNat ≤ s.dtime) else wbit s.hart.csr.mip i

/-- The interrupts in the order in which a hart takes them (R73). -/
def intOrder : List Nat := [11, 3, 7, 16, 17, 9, 1, 5]

/-- Is some interrupt pending and enabled in mie, whatever the global enable bits? -/
def State.wakeUp (s : State) : Bool := intOrder.any (fun i => wbit s.hart.csr.mie i && s.pending i)

/-- May the hart take the interrupt in its mode: one for M mode below M mode or with MIE, a delegated one in U mode or in
S mode with SIE? -/
def Hart.intOpen (h : Hart) (i : Nat) : Bool :=
  if wbit h.csr.mideleg i then
    match h.mode with
    | .u => true
    | .s => wbit h.csr.mstatus 1
    | .m => false
  else
    match h.mode with
    | .m => wbit h.csr.mstatus 3
    | _ => true

/-- The interrupt that the focused hart takes at this boundary: those for M mode come before those for S mode (R77). -/
def State.nextInt (s : State) : Option Nat :=
  let due (m : Bool) := intOrder.find? (fun i =>
    wbit s.hart.csr.mie i && (wbit s.hart.csr.mideleg i != m) && s.hart.intOpen i && s.pending i)
  match due true with
  | some i => some i
  | none => due false

/-! ## Triggers (R33, R34: four of type mcontrol6; log 8) -/

/-- Does the address match the trigger's address under its match mode? -/
def trigAddr (mode : Nat) (d va : Word) : Bool :=
  match mode with
  | 0 => va == d
  | 1 =>
    let m := d ^^^ (d + 1)
    (va &&& ~~~m) == (d &&& ~~~m)
  | 2 => d.ule va
  | _ => va.ult d

/-- Does the trigger's context condition hold? -/
def Hart.trigContext (h : Hart) (d3 : Word) : Bool :=
  (match wfield d3 0 2 with
    | 1 => wfield h.csr.scontext 0 32 == wfield d3 2 32
    | 2 => h.asid == wfield d3 2 16
    | _ => true) &&
  (wfield d3 48 3 != 4 || wfield h.csr.mcontext 0 13 == wfield d3 51 13)

/-- Is the trigger's action to enter debug mode (action 1, with dmode)? -/
def Trigger.debugs (t : Trigger) : Bool := wfield t.tdata1 12 4 == 1 && wbit t.tdata1 59

/-- Does the trigger fire for an access of the kind at the address? One whose action is the breakpoint exception never fires in
a mode whose handler the breakpoint would re-enter with interrupts off. -/
def Hart.trigFires (h : Hart) (a : Acc) (va : Word) (t : Trigger) : Bool :=
  wbit t.tdata1 (match a with | .load => 0 | .store => 1 | .fetch => 2) &&
  (match h.mode with
    | .u => wbit t.tdata1 3
    | .s => wbit t.tdata1 4 && (t.debugs || wbit h.csr.mstatus 1 || !wbit h.csr.medeleg 3)
    | .m => wbit t.tdata1 6 && (t.debugs || wbit h.csr.mstatus 3)) &&
  trigAddr (wfield t.tdata1 7 4) t.tdata2 va && h.trigContext t.tdata3

/-- Does a trigger that halts fire, while debug mode is open to the hart? -/
def State.trigHalts (s : State) (a : Acc) (va : Word) : Bool :=
  s.debugOpen && s.hart.csr.trig.any (fun e => e.2.debugs && s.hart.trigFires a va e.2)

/-- Does any trigger of the hart fire? -/
def State.trigHit (s : State) (a : Acc) (va : Word) : Bool :=
  s.trigHalts a va || s.hart.csr.trig.any (fun e => !e.2.debugs && s.hart.trigFires a va e.2)

/-- What a trigger that fires does before the access: debug mode, or else the breakpoint exception. -/
def State.breakAt (s : State) (a : Acc) (va : Word) : State :=
  if s.trigHalts a va then s.onHart (fun h => h.debugEnter 2) else s.trap ⟨3, 0, va⟩

/-! ## Fences (R32, R71, R318) -/

/-- The pred set's effects: a read in it acquires at system scope, a write in it waits for the hart's earlier writes. -/
def execFence (_fm pred _succ : BitVec 4) (s : State) : Out :=
  let g := s.hart.gid
  let s := if pred.getLsbD 0 || pred.getLsbD 2 then s.release g else s
  let s := if pred.getLsbD 1 || pred.getLsbD 3 then s.acquire g .sys else s
  .next s.retire

/-- The hart's fetch sees every store that has been performed; its own stores that wait at a port are performed, the hart data
caches are merged and pending partials are applied first. -/
def execFenceI (s : State) : Out :=
  let s := ((s.perform s.hart.gid).recallAll).settleAll
  .next (s.onHart (fun h => { h with fenceSeq := s.wlog.length })).retire

/-- Invalidation in every TLB of the hart's cluster (R71), and in the walk cache of its die, so that the hart's later walks read
the tables (log 10); illegal in U mode, and in S mode with mstatus.TVM. -/
def execSfenceVma (rs1 rs2 : XReg) (s : State) : Out :=
  let h := s.hart
  if h.mode = .u || (h.mode = .s && wbit h.csr.mstatus 20) then .next s.illegal
  else
    let va := if rs1 = 0 then none else some (h.getX rs1).toNat
    let asid := if rs2 = 0 then none else some (wfield (h.getX rs2) 0 16)
    .next ({ s with
      tlb := s.tlb.filter (fun e => !(e.place.within s.clusterNo && tlbStruck va asid e true))
      walkc := s.walkc.filter (fun e => !(e.die == s.dieNo && walkcStruck va asid e true)) }).retire

/-! ## Waits for interrupts and reservations (R34, R77) -/

/-- Has a wait lasted for so many ck? -/
def State.waited (s : State) (n : Nat) : Bool := decide (s.hart.waitFrom + n ≤ s.clock)

/-- Is the focused hart in this wait already? -/
def State.inWait (s : State) (w : Wait) : Bool := s.hart.run == .waiting w

/-- `mstatus.TW` turns a wait of 65,536 ck in S or U mode into an illegal instruction. A `wfi` of U mode has the same bound
whatever TW holds: the privileged specification asks for one and leaves its length open (log 50). -/
def State.twDue (s : State) (w : Wait) : Bool :=
  s.hart.mode != .m && (wbit s.hart.csr.mstatus 21 || (s.hart.mode == .u && w == .wfi)) && s.inWait w && s.waited 65536

/-- A `wfi` ends once an interrupt is pending and enabled in mie; under a single step it does not wait. -/
def execWfi (s : State) : Out :=
  if s.wakeUp || s.hart.dbg.step then .next s.retire
  else if s.twDue .wfi then .next s.illegal
  else .next (s.wait .wfi)

/-- `wrs.nto` ends once the reservation is gone or an interrupt is pending. -/
def execWrsNto (s : State) : Out :=
  match s.hart.resv with
  | none => .next s.retire
  | some l =>
    if s.wakeUp || s.hart.dbg.step then .next s.retire
    else if s.twDue (.zawrs true l) then .next s.illegal
    else .next (s.wait (.zawrs true l))

/-- `wrs.sto` ends after 16,384 ck at the latest. -/
def execWrsSto (s : State) : Out :=
  match s.hart.resv with
  | none => .next s.retire
  | some l =>
    if s.wakeUp || s.hart.dbg.step || (s.inWait (.zawrs false l) && s.waited 16384) then .next s.retire
    else .next (s.wait (.zawrs false l))

/-- The bound of `wrs.sto` for the selected hart. -/
def execWrsStoTimeout (s0 : State) : Out :=
  let s := s0.focus s0.sel
  match s.hart.run with
  | .waiting (.zawrs false _) => if s.waited 16384 then .next s.retire else .next s0
  | _ => .next s0

/-- The TW bound for the selected hart. -/
def execTwTimeout (s0 : State) : Out :=
  let s := s0.focus s0.sel
  match s.hart.run with
  | .waiting w =>
    match w with
    | .wfi | .zawrs true _ => if s.twDue w then .next s.illegal else .next s0
    | _ => .next s0
  | _ => .next s0

/-! ## Return from a trap -/

/-- `mret` in M mode; `sret` in M mode, and in S mode where mstatus.TSR is clear. -/
def execXret (mret : Bool) (s : State) : Out :=
  if mret then
    if s.hart.mode = .m then .next (s.onHart Hart.mret) else .next s.illegal
  else if s.hart.mode = .m || (s.hart.mode = .s && !wbit s.hart.csr.mstatus 22) then .next (s.onHart Hart.sret)
  else .next s.illegal

end Sys2Proof.Machine
end

