-- ==== Sys2Proof/Machine/HartAccess.lean ====
section
/-! DEFINITION. A hart's own accesses to memory after translation, and its loads of parameter blocks (R71, R75, R266, R270,
R319, R392, R393). -/
namespace Sys2Proof.Machine

/-- Translate and check a hart access, lost lines included: its physical address. -/
def State.hartPa (s : State) (a : Acc) (va : Word) : Except TrapInfo Nat × State :=
  match s.dataPa s.hart.dataPriv a va with
  | (.error t, s) => (.error t, s)
  | (.ok pa, s) =>
    match s.lostTrap a va pa with
    | some t => (.error t, s)
    | none => (.ok pa, s)

/-- Read bytes of memory, of shared memory, or behind a port, for the focused hart. -/
def State.hartRead (s : State) (pa n : Nat) : List Byte × State :=
  match s.region (paLow pa) with
  | .hbm => s.hartLoadHbm s.coreNo pa n
  | .coreMem c o => if c = s.coreNo then s.lbRead s.hart.gid c o n else s.homeRead pa n
  | .regs _ | .notify _ | .nowhere => (List.replicate n 0, s)
  | _ => s.homeRead pa n

/-- The same through a virtual address whose page may keep out of the caches (R393). -/
def State.hartReadVa (s : State) (va : Word) (pa n : Nat) : List Byte × State :=
  if s.region (paLow pa) == .hbm && s.pageNc s.hart.dataPriv .load va then s.homeRead pa n else s.hartRead pa n

/-- Load 8 bytes of a parameter block; a device register is no block. -/
def State.loadUnit (s : State) (va : Word) : Except TrapInfo (List Byte) × State :=
  match s.hartPa .load va with
  | (.error t, s) => (.error t, s)
  | (.ok pa, s) =>
    match s.region (paLow pa) with
    | .regs _ | .notify _ => (.error ⟨5, 0, va⟩, s)
    | _ =>
      let (b, s) := s.hartReadVa va pa 8
      (.ok b, s)

/-- The ports behind which the next `n` units of `k` bytes lie, as far as the hart may load them (R394). -/
def State.loadPorts (s : State) (k : Nat) (va : Word) : Nat → List Nat
  | 0 => []
  | n + 1 =>
    match s.hartPa .load va with
    | (.error _, _) => []
    | (.ok pa, s) => (s.portOf pa).toList ++ State.loadPorts s k (va + BitVec.ofNat 64 k) n

/-- The hart loads of an instruction whose units lie behind ports hold it until they complete (R394). -/
def State.holdLoads (s : State) (ports : List Nat) (go : State → State) : State :=
  if ports.isEmpty then go s
  else if s.hart.answer.isNone then s.wait (.far ports.eraseDups)
  else go (s.onHart (fun h => { h with answer := none }))

/-- Load a block of `n` doublewords; the first fault ends it. -/
def State.loadBlock (s : State) (va : Word) : Nat → Except TrapInfo (List Word) × State
  | 0 => (.ok [], s)
  | n + 1 =>
    match s.loadUnit va with
    | (.error t, s) => (.error t, s)
    | (.ok b, s) =>
      match State.loadBlock s (va + 8) n with
      | (.error t, s) => (.error t, s)
      | (.ok l, s) => (.ok (dwordOf b :: l), s)

end Sys2Proof.Machine
end

