-- ==== Sys2Proof/Machine/Sync.lean ====
section
/-! DEFINITION. Core-local synchronisation: semaphores, mutexes and mailboxes (R179 to R191). -/
namespace Sys2Proof.Machine

/-- Custom instructions of a hart that are legal in U and S mode, and not in M mode (R84, R179, R232, R238). -/
def State.notM (s : State) (k : State) : State := if s.hart.mode = .m then s.illegal else k

/-! ## Semaphores (R181 to R184) -/

def Core.sem (k : Core) (j : Nat) : Sem := fget Sem.fresh k.sems j
def Core.setSem (k : Core) (j : Nat) (v : Sem) : Core := { k with sems := fset Sem.fresh k.sems j v }

/-- Enter a waiter list: first by priority, then by arrival (R181). -/
def insertSem (l : List SemWaiter) (w : SemWaiter) : List SemWaiter :=
  l.filter (fun e => decide (w.prio ≤ e.prio)) ++ [w] ++ l.filter (fun e => decide (e.prio < w.prio))

/-- `grant()`: the count and the list that remain, and who was granted (R182). -/
def grantSem (cnt : Nat) : List SemWaiter → Nat × List SemWaiter × List SemWho
  | [] => (cnt, [], [])
  | w :: r =>
    if w.thr ≤ cnt then
      let g := grantSem (cnt - w.thr) r
      (g.1, g.2.1, w.who :: g.2.2)
    else (cnt, w :: r, [])

/-- A granted waiter resumes: a hart retires its `sem.wait`, a command becomes eligible. -/
def State.granted (s : State) (core : Nat) : List SemWho → State
  | [] => s
  | .hart g :: r => State.granted (s.modHart g Hart.retire) core r
  | .cmd u :: r =>
    State.granted (s.modCore core (fun k =>
      { k with queue := k.queue.map (fun c => if c.uid = u then { c with phase := .eligible } else c) })) core r

/-- Put a count and a list into a semaphore, and grant from its head. -/
def State.semSettle (s : State) (core j cnt : Nat) (list : List SemWaiter) : State :=
  let g := grantSem cnt list
  (s.modCore core (fun k => k.setSem j ⟨g.1, g.2.1⟩)).granted core g.2.2

/-- Add to a semaphore, saturating at 65,535 (R182). -/
def State.semSignal (s : State) (core j inc : Nat) : State :=
  let e := (s.core core).sem j
  s.semSettle core j (min (e.cnt + inc) 65535) e.list

/-- Remove a waiter; a new head whose threshold is met is granted. -/
def State.semLeave (s : State) (core j : Nat) (who : SemWho) : State :=
  let e := (s.core core).sem j
  s.semSettle core j e.cnt (e.list.filter (fun w => w.who != who))

/-- The semaphore of the hart's team that a register names, and the amount: `none` outside the limits of R180. -/
def State.semArgs (s : State) (rs1 rs2 : XReg) : Option (Nat × Nat) :=
  let j := (s.getX rs1).toNat
  let n := (s.getX rs2).toNat
  if j < s.share.semN && n < 65536 then some (s.share.semBase + j, n) else none

def execSemSig (rs1 rs2 : XReg) (s : State) : Out :=
  .next (s.notM (match s.semArgs rs1 rs2 with
    | none => s.illegal
    | some (j, n) => ((s.release s.hart.gid).semSignal s.coreNo j n).retire))

def execSemWait (rs1 rs2 : XReg) (s : State) : Out :=
  .next (s.notM (match s.semArgs rs1 rs2 with
    | none => s.illegal
    | some (j, n) =>
      let e := (s.core s.coreNo).sem j
      if e.list.isEmpty && decide (n ≤ e.cnt) then
        (s.modCore s.coreNo (fun k => k.setSem j { e with cnt := e.cnt - n })).retire
      else
        let s := s.modCore s.coreNo (fun k =>
          k.setSem j { e with list := insertSem e.list ⟨s.prio s.hart, n, .hart s.hart.gid⟩ })
        s.wait (.sem s.coreNo j)))

def execSemTry (rd rs1 rs2 : XReg) (s : State) : Out :=
  .next (s.notM (match s.semArgs rs1 rs2 with
    | none => s.illegal
    | some (j, n) =>
      let e := (s.core s.coreNo).sem j
      if e.list.isEmpty && decide (n ≤ e.cnt) then
        ((s.modCore s.coreNo (fun k => k.setSem j { e with cnt := e.cnt - n })).setX rd 1).retire
      else (s.setX rd 0).retire))

/-! ## Mutexes (R185, R186) -/

def Core.mtx (k : Core) (j : Nat) : Mtx := fget Mtx.fresh k.mtxs j
def Core.setMtx (k : Core) (j : Nat) (v : Mtx) : Core := { k with mtxs := fset Mtx.fresh k.mtxs j v }

def insertWaiter (l : List Waiter) (w : Waiter) : List Waiter :=
  l.filter (fun e => decide (w.prio ≤ e.prio)) ++ [w] ++ l.filter (fun e => decide (e.prio < w.prio))

/-- The mutex of the hart's team that a register names (R180). -/
def State.mtxArg (s : State) (rs1 : XReg) : Option Nat :=
  let j := (s.getX rs1).toNat
  if j < s.share.mtxN then some (s.share.mtxBase + j) else none

/-- Free a mutex: ownership passes to the head of its list, whose `mtx.lock` retires. -/
def State.mtxRelease (s : State) (core j : Nat) : State :=
  match ((s.core core).mtx j).list with
  | [] => s.modCore core (fun k => k.setMtx j Mtx.fresh)
  | w :: r => (s.modCore core (fun k => k.setMtx j ⟨some w.gid, r⟩)).modHart w.gid Hart.retire

def execMtxLock (rs1 : XReg) (s : State) : Out :=
  .next (s.notM (match s.mtxArg rs1 with
    | none => s.illegal
    | some j =>
      let e := (s.core s.coreNo).mtx j
      match e.owner with
      | none => (s.modCore s.coreNo (fun k => k.setMtx j ⟨some s.hart.gid, []⟩)).retire
      | some o =>
        if o = s.hart.gid then s.illegal
        else (s.modCore s.coreNo (fun k =>
          k.setMtx j { e with list := insertWaiter e.list ⟨s.prio s.hart, s.hart.gid⟩ })).wait (.mutex s.coreNo j)))

def execMtxTry (rd rs1 : XReg) (s : State) : Out :=
  .next (s.notM (match s.mtxArg rs1 with
    | none => s.illegal
    | some j =>
      if ((s.core s.coreNo).mtx j).owner.isNone then
        ((s.modCore s.coreNo (fun k => k.setMtx j ⟨some s.hart.gid, []⟩)).setX rd 1).retire
      else (s.setX rd 0).retire))

def execMtxFree (rs1 : XReg) (s : State) : Out :=
  .next (s.notM (match s.mtxArg rs1 with
    | none => s.illegal
    | some j =>
      if ((s.core s.coreNo).mtx j).owner = some s.hart.gid then
        ((s.release s.hart.gid).mtxRelease s.coreNo j).retire
      else s.illegal))

/-- An exit or a kill of a hart frees its mutexes (R185). -/
def State.freeMutexes (s : State) (g : Nat) : State :=
  let c := gidCore g
  (((s.core c).mtxs.filter (fun e => e.2.owner == some g)).map Prod.fst).foldl (fun s j => s.mtxRelease c j) s

/-! ## Mailboxes (R187 to R191) -/

/-- The target and the notify bit of a target word; `none` where it is illegal (R187). -/
def State.msendTarget (s : State) (w : Word) : Option (Nat × Bool) :=
  let id := wfield w 0 15
  if w.toNat / 2 ^ 17 != 0 then none
  else if wbit w 15 then (if id < 32 then some (coreGid s.coreNo id, wbit w 16) else none)
  else if 12 ≤ id / 512 % 16 then none
  else some (id, wbit w 16)

/-- The scope of a message between two harts (R188). -/
def msgScope (a b : Nat) : Scope :=
  if gidCluster a = gidCluster b then .clus else if gidDie a = gidDie b then .die else .pkg

def State.dropMsg (s : State) (uid : Nat) : State := { s with msgs := s.msgs.filter (fun m => m.uid != uid) }

/-- The sender's `msend` retires. -/
def State.msgDone (s : State) (m : Msg) : State := (s.dropMsg m.uid).modHart m.src Hart.retire

/-- A message is discarded and counted at the target's core (R189). -/
def State.msgDiscard (s : State) (m : Msg) : State :=
  (s.modCore (gidCore m.dst) (fun k => { k with mbdisc := (k.mbdisc + 1) % 2 ^ 32 })).msgDone m

/-- A message is written into its mailbox, which is empty. -/
def State.msgDeliver (s : State) (m : Msg) : State :=
  let s := s.modHart m.dst (fun h =>
    { h with mbox := fset 0 h.mbox m.idx m.val, mbpres := h.mbpres ||| (1#32 <<< m.idx), mbsrc := fset 0 h.mbsrc m.idx m.src })
  let s := if m.notify then s.sendUi m.dst ⟨1, BitVec.ofNat 64 m.idx, 0, none, none⟩ else s
  s.msgDone m

def execMsend (rs1 rs2 : XReg) (idx : BitVec 5) (s : State) : Out :=
  .next (s.notM (match s.msendTarget (s.getX rs1) with
    | none => s.illegal
    | some (dst, notify) =>
      let (s, uid) := (s.release s.hart.gid).takeUid
      let m : Msg := ⟨uid, s.hart.gid, dst, idx.toNat, s.getX rs2, notify, s.prio s.hart, false, s.clock⟩
      ({ s with msgs := s.msgs ++ [m] }).wait (.msend dst idx.toNat)))

/-- The message of the selected number reaches its core. -/
def execMailboxDelivery (s : State) : Out :=
  match s.msgs.find? (fun m => m.uid == s.sel && !m.listed) with
  | none => .next s
  | some m =>
    if (s.core (gidCore m.dst)).state != 0 then .next s
    else
      let t := s.hartOf m.dst
      if !t.run.isHart || t.asid != (s.hartOf m.src).asid then .next (s.msgDiscard m)
      else if t.mbpres.getLsbD m.idx then
        .next { s with msgs := s.msgs.filter (fun x => x.uid != m.uid) ++ [{ m with listed := true }] }
      else .next (s.msgDeliver m)

/-- The first of a mailbox's sender list: highest priority, then arrival. -/
def headMsg : List Msg → Option Msg
  | [] => none
  | m :: r =>
    match headMsg r with
    | none => some m
    | some b => some (if m.prio < b.prio then b else m)

/-- A mailbox of the focused hart is cleared, and the head of its sender list delivered. -/
def State.clearBox (s : State) (idx : Nat) : State :=
  let s := s.onHart (fun h =>
    { h with mbox := fset 0 h.mbox idx 0, mbpres := h.mbpres &&& ~~~(1#32 <<< idx), mbsrc := fset 0 h.mbsrc idx 0 })
  match headMsg (s.msgs.filter (fun m => m.listed && m.dst == s.hart.gid && m.idx == idx)) with
  | none => s
  | some m => s.msgDeliver m

/-- Take the value of a mailbox that is present. -/
def State.takeBox (s : State) (rd : XReg) (idx : Nat) : State :=
  let g := s.hart.gid
  let s := s.acquire g (msgScope g (fget 0 s.hart.mbsrc idx))
  ((s.setX rd (fget 0 s.hart.mbox idx)).clearBox idx).retire

def execMrecv (rd : XReg) (idx : BitVec 5) (s : State) : Out :=
  .next (s.notM (if s.hart.mbpres.getLsbD idx.toNat then s.takeBox rd idx.toNat else s.wait (.mrecv idx.toNat)))

def execMtry (rd : XReg) (idx : BitVec 5) (s : State) : Out :=
  .next (s.notM (if s.hart.mbpres.getLsbD idx.toNat then s.takeBox rd idx.toNat else (s.setX rd 0).retire))

/-- A message to a stopped core, unanswered for 2^16 ck: the sender takes cause 26 (R190). -/
def execMailboxSendTimeout (s : State) : Out :=
  match s.msgs.find? (fun m => m.uid == s.sel) with
  | none => .next s
  | some m =>
    if (s.core (gidCore m.dst)).state != 0 && decide (m.sentAt + 65536 ≤ s.clock) then
      .next ((s.dropMsg m.uid).modHart m.src (fun h => h.takeTrap ⟨26, 0, 0⟩))
    else .next s

/-- Messages for a hart that goes: those in its sender lists are discarded (R189). -/
def State.dropSenders (s : State) (g : Nat) : State :=
  (s.msgs.filter (fun m => m.listed && m.dst == g)).foldl (fun s m => s.msgDiscard m) s

end Sys2Proof.Machine
end

