-- ==== Sys2Proof/Machine/Barrier.lean ====
section
/-! DEFINITION. Barrier domains (R229 to R234). The harts of an evicted team keep their membership under numbers that no
place has, `awayId` of the team and the hart's number. -/
namespace Sys2Proof.Machine

/-- The domain that a 12-bit code names for a hart (R229, R38). -/
def domKey (die team code : Nat) : Option DomKey :=
  if code = 0 then some (.team team)
  else if 0x100 ≤ code && code ≤ 0x13F then some (.die die (code - 0x100))
  else if 0x200 ≤ code && code ≤ 0x20F then some (.pkg (code - 0x200))
  else none

/-- The code of a domain. -/
def domCode : DomKey → Nat
  | .team _ => 0
  | .die _ n => 0x100 + n
  | .pkg n => 0x200 + n

/-- The scope of a domain (R229). -/
def domScope : DomKey → Scope
  | .team _ => .team
  | .die _ _ => .die
  | .pkg _ => .pkg

def Dom.fresh (k : DomKey) : Dom := ⟨k, 0, false, [], []⟩

def State.domGet (s : State) (k : DomKey) : Option Dom := s.doms.find? (fun d => d.key == k)
def State.dom (s : State) (k : DomKey) : Dom := (s.domGet k).getD (Dom.fresh k)
def State.setDom (s : State) (d : Dom) : State := { s with doms := d :: s.doms.filter (fun e => e.key != d.key) }
def State.delDom (s : State) (k : DomKey) : State := { s with doms := s.doms.filter (fun e => e.key != k) }

/-- The member number of an evicted hart. -/
def awayId (team num : Nat) : Nat := 2 ^ 16 + 2 * (64 * team + num)
def isAway (g : Nat) : Bool := decide (2 ^ 16 ≤ g) && g % 2 == 0

/-- Arrivals of a member not yet consumed. -/
def Dom.c (d : Dom) (g : Nat) : Nat := fget 0 d.cnt g

/-- Is the place or the evicted hart a member now? A place that holds no hart of the owner context is ignored (R234); a
continuation stays one until the phases in which its hart arrived are complete (R88). -/
def State.memberNow (s : State) (d : Dom) (g : Nat) : Bool :=
  isAway g ||
    ((match (s.hartOf g).run with
        | .cont (.barrier k) => k == d.key && decide (1 ≤ d.c g)
        | r => r.isHart) &&
      (match d.key with
        | .team t => (s.hartOf g).team == t
        | _ => (s.hartOf g).asid == d.asid))

/-- The members: for a team domain every hart of the team, else the harts in the configured places (R229). -/
def State.members (s : State) (d : Dom) : List Nat :=
  match d.key with
  | .team _ => (s.places.map Hart.gid).filter (fun g => s.memberNow d g) ++ d.places.filter isAway
  | _ => d.places.filter (fun g => s.memberNow d g)

/-- Is the phase complete: every member has arrived? -/
def State.phaseReady (s : State) (d : Dom) : Bool :=
  !(s.members d).isEmpty && (s.members d).all (fun g => decide (1 ≤ d.c g))

/-- Complete a phase (R230). -/
def Dom.complete (d : Dom) (members : List Nat) : Dom :=
  { d with d := !d.d, cnt := members.foldl (fun f g => fset 0 f g (fget 0 f g - 1)) d.cnt }

def execBarrierPhaseComplete (dom : DomKey) (s : State) : Out :=
  let d := s.dom dom
  if s.phaseReady d then .next (s.setDom (d.complete (s.members d))) else .next s

/-- Remove members with their counts: the phase completes at once where every remaining member has arrived or none
remains (R231). The members are given as they are after the removal. -/
def State.leaveDom (s : State) (d : Dom) (gone : List Nat) : State :=
  let d := { d with
    places := d.places.filter (fun g => !(isAway g && gone.contains g))
    cnt := gone.foldl (fun f g => fset 0 f g 0) d.cnt }
  let m := s.members d
  if m.isEmpty then s.setDom { d with d := !d.d }
  else if s.phaseReady d then s.setDom (d.complete m)
  else s.setDom d

/-- The domains of which a place or an evicted hart is a member. -/
def State.memberOf (s : State) (g : Nat) : List DomKey := (s.doms.filter (fun d => (s.members d).contains g)).map Dom.key

/-- A hart that has gone leaves the domains of which it was a member. -/
def State.leaveDoms (s : State) (g : Nat) (keys : List DomKey) : State :=
  keys.foldl (fun s k => match s.domGet k with
    | some d => s.leaveDom d [g]
    | none => s) s

/-- The domain of a code, if the hart may use it (R233): its team's, or one configured for its context. -/
def State.codeDom (s : State) (code : Nat) : Option Dom :=
  match domKey s.dieNo s.hart.team code with
  | none => none
  | some (.team t) => some (s.dom (.team t))
  | some k => match s.domGet k with
    | none => none
    | some d => if d.asid = s.hart.asid then some d else none

/-- The domain that a barrier instruction names. -/
def State.barDom (s : State) (rs1 : XReg) (imm : BitVec 12) : Option Dom :=
  s.codeDom (((s.getX rs1).toNat + imm.toNat) % 4096)

/-- Is the focused hart a member? -/
def State.isMember (s : State) (d : Dom) : Bool := (s.members d).contains s.hart.gid

/-- Count an arrival of the focused hart: a release, then c + 1. -/
def State.arrive (s : State) (d : Dom) : State :=
  (s.release s.hart.gid).setDom { d with cnt := fset 0 d.cnt s.hart.gid (d.c s.hart.gid + 1) }

/-- A barrier instruction that is legal for the hart, with its domain. -/
def State.barrier (s : State) (rs1 : XReg) (imm : BitVec 12) (k : Dom → State) : State :=
  s.notM (match s.barDom rs1 imm with
    | none => s.illegal
    | some d => k d)

def execBarArr (rs1 : XReg) (imm : BitVec 12) (s : State) : Out :=
  .next (s.barrier rs1 imm (fun d =>
    if !s.isMember d then s.illegal
    else if d.c s.hart.gid = 2 then s.wait (.barrier d.key false)
    else (s.arrive d).retire))

/-- The hart's observed parity of a domain. -/
def Hart.parity (h : Hart) (k : DomKey) : Bool := h.obs.contains k

def Hart.setParity (h : Hart) (k : DomKey) (b : Bool) : Hart :=
  { h with obs := if b then (if h.obs.contains k then h.obs else h.obs ++ [k]) else h.obs.filter (fun e => e != k) }

/-- The wait of a member for c = 0, an acquire when it retires. -/
def State.memberWait (s : State) (d : Dom) (arrived : Bool) (done : Hart → Hart) : State :=
  if d.c s.hart.gid = 0 then ((s.acquire s.hart.gid (domScope d.key)).onHart done).retire
  else s.wait (.barrier d.key arrived)

/-- The wait of an observer for a change of parity since its issue; `done` is what its retirement does besides. -/
def State.observerWait (s : State) (d : Dom) (done : Hart → Hart) : State :=
  match s.hart.obsWait with
  | some (k, p) =>
    if k = d.key && d.d != p then
      ((s.acquire s.hart.gid (domScope d.key)).onHart
        (fun h => done { (h.setParity d.key d.d) with obsWait := none })).retire
    else s.wait (.barrier d.key false)
  | none => (s.onHart (fun h => { h with obsWait := some (d.key, d.d) })).wait (.barrier d.key false)

def execBarWait (rs1 : XReg) (imm : BitVec 12) (s : State) : Out :=
  .next (s.barrier rs1 imm (fun d =>
    if s.isMember d then s.memberWait d false id else s.observerWait d id))

def execBarTry (rd rs1 : XReg) (imm : BitVec 12) (s : State) : Out :=
  .next (s.barrier rs1 imm (fun d =>
    let yes := if s.isMember d then d.c s.hart.gid == 0 else d.d != s.hart.parity d.key
    if yes then
      (((s.acquire s.hart.gid (domScope d.key)).onHart
        (fun h => if s.isMember d then h else h.setParity d.key d.d)).setX rd 1).retire
    else (s.setX rd 0).retire))

/-- Has this `bar.arw` arrived before it was interrupted: barpend and barpc name it (R233)? -/
def Hart.resumes (h : Hart) (k : DomKey) : Bool :=
  wbit h.barpend 0 && wfield h.barpend 1 12 == domCode k && h.barpc == h.pc

def execBarArw (rs1 : XReg) (imm : BitVec 12) (s : State) : Out :=
  .next (s.barrier rs1 imm (fun d =>
    if s.hart.resumes d.key then
      let clear (h : Hart) : Hart := { h with barpend := wputb h.barpend 0 false }
      if s.isMember d then s.memberWait d false clear else s.observerWait d clear
    else if s.hart.run = .waiting (.barrier d.key true) then s.memberWait d true id
    else if !s.isMember d then s.illegal
    else if d.c s.hart.gid = 2 then s.wait (.barrier d.key false)
    else
      let t := s.arrive d
      t.memberWait (t.dom d.key) true id))

/-- An interrupted `bar.arw` whose arrival was counted leaves barpend and barpc (R233). -/
def Hart.markArrived (h : Hart) (k : DomKey) : Hart :=
  { h with barpend := BitVec.ofNat 64 (1 + 2 * domCode k), barpc := h.pc }

/-! ## `bar.cfg` (R234) -/

/-- The hart places of one die section: the bits of each core's hart mask whose core bit is set. -/
def sectionPlaces (die : Nat) (blk : List Word) (k : Nat) : List Nat :=
  let base := 8 + 100 * k
  (List.range 192).flatMap (fun c =>
    if wbit (dw blk (base + c / 64)) (c % 64) then
      ((List.range 32).filter (fun i => wbit (dw blk (base + 4 + c / 2)) (32 * (c % 2) + i))).map
        (fun i => coreGid (192 * die + c) i)
    else [])

/-- Are the reserved fields of a membership block 0? -/
def cfgReserved (blk : List Word) (sections : Nat) : Bool :=
  wfield (dw blk 0) 17 47 == 0 && (List.range 7).all (fun i => dw blk (1 + i) == 0) &&
    (List.range sections).all (fun k => dw blk (8 + 100 * k + 3) == 0)

/-- Does any hart wait on the domain? -/
def State.domWaited (s : State) (k : DomKey) : Bool :=
  s.resident.any (fun h => match h.run with | .waiting (.barrier d _) => d == k | _ => false)

/-- Give a domain its places: retained members keep their counts, dropped ones leave (R231, R234); a dropped place that held no hart of
the context was no member. DESIGN CHOICE (log 69): the members of an evicted team stay, whatever the block says of their former places, and the
parity D of an enabled domain stands. -/
def State.configure (s : State) (k : DomKey) (asid : Nat) (places : List Nat) : State :=
  let old := s.dom k
  let all := places ++ old.places.filter isAway
  let dropped := old.places.filter (fun g => !all.contains g)
  let gone := dropped.filter (fun g => s.memberNow old g)
  let d := { old with asid := asid, places := all, cnt := dropped.foldl (fun f g => fset 0 f g 0) old.cnt }
  if gone.isEmpty then s.setDom d else (s.setDom d).leaveDom d gone

def execBarCfg (rs1 rs2 : XReg) (s : State) : Out :=
  let code := (s.getX rs1).toNat
  let va := s.getX rs2
  if s.hart.mode != .s then .next s.illegal
  else match domKey s.dieNo s.hart.team code with
    | none | some (.team _) => .next s.illegal
    | some k =>
      if va.toNat % 64 != 0 then .next (s.trap ⟨4, 0, va⟩)
      else
        let sections := match k with | .pkg _ => 4 | _ => 1
        .next (s.holdLoads (s.loadPorts 8 va (8 + 100 * sections)) (fun s =>
          match s.loadBlock va (8 + 100 * sections) with
          | (.error t, s) => s.trap t
          | (.ok blk, s) =>
            let asid := wfield (dw blk 0) 0 16
            let enable := wbit (dw blk 0) 16
            let foreign := match s.domGet k with | some d => d.asid != s.hart.asid | none => false
            let busy := match s.domGet k with
              | some d => (s.members d).any (fun g => decide (1 ≤ d.c g)) || s.domWaited k
              | none => false
            if foreign || asid != s.hart.asid || !cfgReserved blk sections || (!enable && busy) then s.illegal
            else if enable then
              let dies := match k with | .die d _ => [d] | _ => [0, 1, 2, 3]
              (s.configure k asid ((dies.zip (List.range sections)).flatMap (fun e => sectionPlaces e.1 blk e.2))).retire
            else (s.delDom k).retire))

end Sys2Proof.Machine
end

