-- ==== Sys2Proof/Machine/Places.lean ====
section
/-! DEFINITION. Hart places and the register pool of a core, the creation of harts, and the withdrawal of a wait (R24, R65,
R66, R77, R87, R88, R162 to R164, R184, R189, R233, R282, R354). -/
namespace Sys2Proof.Machine

/-! ## Places and the register pool (R87, R162, R163) -/

/-- The places of a core that are not vacant. -/
def State.corePlaces (s : State) (core : Nat) : List Hart := s.places.filter (fun h => gidCore h.gid == core)

/-- Lane registers of a core that are granted or held in reserve. -/
def State.poolUsed (s : State) (core : Nat) : Nat := (s.corePlaces core).foldl (fun n h => n + h.lalloc) 0

/-- Can the pool grant `n` more lane registers? -/
def State.canAlloc (s : State) (core n : Nat) : Bool := decide (s.poolUsed core + n ≤ 8192)

/-- The granules of a place. -/
def State.granOf (s : State) (h : Hart) : List Nat :=
  (((s.core (gidCore h.gid)).gran.filter (fun e => e.1 == h.gid)).map Prod.snd).take (h.lalloc / 32)

/-- The granules of a core's pool that places have. -/
def State.usedGran (s : State) (core : Nat) : List Nat := (s.corePlaces core).flatMap s.granOf

/-- A place has these granules. -/
def State.giveGran (s : State) (g : Nat) (l : List Nat) : State :=
  s.modCore (gidCore g) (fun k => { k with gran := k.gran.filter (fun e => e.1 != g) ++ l.map (fun n => (g, n)) })

/-- A place gets the lowest free granules for `n` more registers. DESIGN CHOICE (log 55): the registers that a hart gets after its team's
start need not lie next to its team's share; R67 grants them from the pool. -/
def State.takeGran (s : State) (g n : Nat) : State :=
  let used := s.usedGran (gidCore g)
  s.giveGran g (s.granOf (s.hartOf g) ++ ((List.range 256).filter (fun i => !used.contains i)).take (n / 32))

/-- Resident harts of a slot (R87, R163). -/
def State.slotLoad (s : State) (core slot : Nat) : Nat :=
  ((s.corePlaces core).filter (fun h => gidPlace h.gid / 8 == slot && h.run.isHart)).length

/-- Has a slot a vacant place? -/
def State.slotOpen (s : State) (core slot : Nat) : Bool :=
  decide (((s.corePlaces core).filter (fun h => gidPlace h.gid / 8 == slot)).length < 8)

/-- Of the listed slots, the one with the fewest resident harts, the lower number on a tie. -/
def bestSlot (load : Nat → Nat) : List Nat → Option Nat
  | [] => none
  | a :: r =>
    match bestSlot load r with
    | none => some a
    | some b => if load a ≤ load b then some a else some b

/-- The place that a new hart of the core takes: the slot with the fewest resident harts among those with a vacant place, and
its lowest vacant number. -/
def State.freePlace (s : State) (core : Nat) : Option Nat :=
  match bestSlot (s.slotLoad core) ([0, 1, 2, 3].filter (fun k => s.slotOpen core k)) with
  | none => none
  | some slot =>
    ((List.range 8).map (fun i => coreGid core (8 * slot + i))).find? (fun g => (s.hartOf g).run == .vacant)

/-- Places that a team holds: harts, continuations and reservations. -/
def State.teamPlaces (s : State) (t : Nat) : List Hart := s.places.filter (fun h => h.team == t)

/-! ## Creation (R24, R65, R70) -/

/-- A satp value as hart creation installs it: a mode that R71 does not accept leaves Bare. -/
def satpAccept (w : Word) : Word :=
  if satpMode w = 0 || satpMode w = 9 || satpMode w = 10 then w else wput w 60 4 0

/-- The CSRs at creation: those of the context's supervisor record over those that firmware installs. -/
def Launch.csrs (l : Launch) : Csrs :=
  let c := Csrs.fresh
  { c with
    satp := satpAccept (dw l.ctx 0)
    mstatus := maskWrite sstatusW c.mstatus (dw l.ctx 1)
    stvec := wputb (dw l.ctx 2) 1 false
    sscratch := dw l.ctx 3
    mie := dw l.ctx 4 &&& c.mideleg &&& mieW }

/-- A hart at creation, in the place `gid`, with the state of R65. -/
def Launch.newHart (l : Launch) (gid team role num alloc : Nat) (pc x10 x11 : Word) : Hart :=
  let h := Hart.fresh gid
  let h := { h with
    run := .ready, team := team, role := role, num := num, pc := wputb pc 0 false, lalloc := alloc
    csr := l.csrs, srseed := l.seed, lfrec := wput (dw l.ctx 5) 1 8 0 }
  (h.setX 10 x10).setX 11 x11

/-- Bring a new hart into its place. -/
def State.createHart (s : State) (gid team role num alloc : Nat) (pc x10 x11 : Word) : State :=
  let h := (s.launchOf team).newHart gid team role num alloc pc x10 x11
  s.putHart { h with fenceSeq := s.wlog.length }

/-- The smallest hart number of a team that no place of it has. -/
def State.freeNum (s : State) (t : Nat) : Nat :=
  ((List.range 33).find? (fun n => (s.teamPlaces t).all (fun h => h.num != n))).getD 32

/-- A hart comes into being in wrap-up: one that is created during it goes on at its own pc, a continuation that was pending at expiry
starts at the wrap-up entry, as a diverted hart does (R88, R354). -/
def Hart.enterWrap (h : Hart) (src : Nat) (pc : Word) : Hart :=
  { h with wrapup := true, wpc := h.pc, pc := pc, wcause := BitVec.ofNat 64 src }

/-- A hart that is created during the wrap-up of its launch is in wrap-up, and its team with it (R354, R358). -/
def State.bornInWrap (s : State) (g team : Nat) : State :=
  if (s.launchOf team).expired then
    (s.modHart g (fun h => h.enterWrap 3 h.pc)).modTeam team (fun t => { t with wrapped := true })
  else s

/-- Has the launch of a team expired (R353)? -/
def State.expired (s : State) (t : Nat) : Bool := (s.launchOf t).expired

/-- Reserve a place with a role's initial allocation for a completion in SPAWN mode; `none` where none can be had. -/
def State.reservePlace (s : State) (uid : Nat) : Option (Nat × State) :=
  let h := s.hart
  let alloc := (s.launchOf h.team).roleAlloc h.role
  if 32 ≤ (s.teamPlaces h.team).length then none
  else if !s.canAlloc s.coreNo alloc then none
  else match s.freePlace s.coreNo with
    | none => none
    | some g =>
      let r := Hart.fresh g
      some (g, (s.takeGran g alloc).putHart { r with
        run := .reserved uid, team := h.team, role := h.role, num := s.freeNum h.team, lalloc := alloc, csr := { r.csr with satp := h.csr.satp } })

/-- Release a reserved place. -/
def State.freeReserve (s : State) (g uid : Nat) : State :=
  if (s.hartOf g).run = .reserved uid then s.putHart (Hart.fresh g) else s

/-- Release the reservation of a request, if it has one. -/
def State.dropPlace (s : State) (place : Option Nat) (uid : Nat) : State :=
  match place with
  | some g => s.freeReserve g uid
  | none => s

/-- Start the hart of a SPAWN completion in its reserved place, an acquire at the request's scope (R240, R316). -/
def State.startReserved (s : State) (g uid : Nat) (sc : Scope) (pc x10 : Word) : State :=
  let r := s.hartOf g
  if r.run != .reserved uid then s
  else
    ((s.acquire g sc).createHart g r.team r.role r.num r.lalloc pc x10 0).bornInWrap g r.team

/-! ## The save area (R365) -/

/-- The save area: its base under the key of a context's slot, and its size. -/
def State.saveBase (s : State) (asid : Nat) : Nat := wfield s.fe.svbase 21 31 * 2 ^ 21 % 2 ^ 46 + s.slotOf asid * 2 ^ 46
def State.saveSize (s : State) : Nat := wfield s.fe.svsize 0 32 * 2 ^ 21

/-- Read the doubleword at an offset of an image. -/
def imgWord (b : List Byte) (off : Nat) : Word := dwordOf (b.drop off)

/-! ## Withdrawing a wait (R77) -/

/-- Remove the entry that a waiting hart has in an object. -/
def State.dropWait (s : State) (g : Nat) (w : Wait) : State :=
  match w with
  | .sem c j => s.semLeave c j (.hart g)
  | .mutex c j => s.modCore c (fun k =>
      k.setMtx j { k.mtx j with list := (k.mtx j).list.filter (fun e => e.gid != g) })
  | .rgrow _ => s.modCore (gidCore g) (fun k => { k with grow := k.grow.filter (fun e => e.gid != g) })
  | .queueEnq _ | .queueDeq _ => { s with qwaits := s.qwaits.filter (fun e => e.gid != g) }
  | .msend _ _ => { s with msgs := s.msgs.filter (fun m => m.src != g) }
  | .cpy x => s.dropPlace x.place x.uid
  | .dredge q => s.dropPlace q.place q.uid
  | _ => s

/-- End the wait of the focused hart for an event: `wfi` and the Zawrs waits retire; every other instruction is to be
executed again, and an arrival counted by `bar.arw` is noted (R77, R233). -/
def State.withdraw (s : State) : State :=
  match s.hart.run with
  | .waiting .wfi | .waiting (.zawrs _ _) => s.retire
  | .waiting w =>
    let s := s.dropWait s.hart.gid w
    s.onHart (fun h =>
      let h := match w with
        | .barrier k true => h.markArrived k
        | _ => h
      { h with run := .ready, obsWait := none, answer := none, results := [] })
  | _ => s

end Sys2Proof.Machine
end

