-- ==== Sys2Proof/Machine/Tile.lean ====
section
/-! DEFINITION. Tile-store buffers, shape records, and the matrix engine's arithmetic on them (R13, R27 to R29, R192 to R196,
R204 to R212). -/
namespace Sys2Proof.Machine

/-! ## Buffers (R192, R193) -/

def Core.buf (k : Core) : TBuf → File Byte
  | .act => k.act
  | .wgt => k.wgt
  | .acc => k.acc

def Core.setBuf (k : Core) (b : TBuf) (f : File Byte) : Core :=
  match b with
  | .act => { k with act := f }
  | .wgt => { k with wgt := f }
  | .acc => { k with acc := f }

/-- A team's share of a buffer: its start and its size in bytes. -/
def Share.buf (s : Share) : TBuf → Nat × Nat
  | .act => (s.actBase, s.actSize)
  | .wgt => (s.wgtBase, s.wgtSize)
  | .acc => (s.accBase, s.accSize)

/-- The buffer of a one-bit field. -/
def bufOf (b : Bool) : TBuf := if b then .wgt else .act

/-! ## Shape records (R195) -/

/-- The type of a record; `none` where the code is reserved. -/
def recTc (r : List Word) : Option Tc := ofCode Tc.code Tc.all (BitVec.ofNat 4 (wfield (dw r 0) 48 4))

/-- The extent field of a dimension, 0 where it is absent. -/
def recExt0 (r : List Word) (k : Nat) : Nat := wfield (dw r k) 0 16

/-- The extent that a dimension counts with. -/
def recExt (r : List Word) (k : Nat) : Nat := max (recExt0 r k) 1

/-- The byte stride that a dimension counts with. -/
def recStride (r : List Word) (k : Nat) : Int :=
  if recExt0 r k = 0 then 0 else (BitVec.ofNat 32 (wfield (dw r k) 16 32)).toInt

/-- Is a record well formed? -/
def recOk (r : List Word) : Bool :=
  (recTc r).isSome && recExt0 r 0 != 0 && wfield (dw r 0) 16 32 == 0 &&
  (List.range 4).all (fun k => wfield (dw r k) 52 12 == 0 && (k == 0 || wfield (dw r k) 48 4 == 0)) &&
  (recExt0 r 1 != 0 || (dw r 2 == 0 && dw r 3 == 0)) && (recExt0 r 2 != 0 || dw r 3 == 0) &&
  (recTc r != some .e2m1 || recExt0 r 0 % 2 == 0)

/-- How many elements a record has. -/
def recCount (r : List Word) : Nat := recExt r 0 * recExt r 1 * recExt r 2 * recExt r 3

/-- The place of an element, in units of 4 bits, for a record at a byte offset. -/
def recNib (r : List Word) (w : Nat) (off : Int) (i0 i1 i2 i3 : Nat) : Int :=
  2 * off + i0 * (w / 4 : Nat) + 2 * (i1 * recStride r 1 + i2 * recStride r 2 + i3 * recStride r 3)

/-- Element `e` in record order: its place in units of 4 bits. -/
def recNibOf (r : List Word) (w : Nat) (off : Int) (e : Nat) : Int :=
  recNib r w off (e % recExt r 0) (e / recExt r 0 % recExt r 1) (e / (recExt r 0 * recExt r 1) % recExt r 2)
    (e / (recExt r 0 * recExt r 1 * recExt r 2))

/-- Bytes that the elements of a record span: the first, and the one after the last. -/
def recSpan (r : List Word) (w : Nat) (off : Int) : Int × Int :=
  let reach (k : Nat) : Int := ((recExt r k : Int) - 1) * recStride r k
  let lo (k : Nat) : Int := min 0 (reach k)
  let hi (k : Nat) : Int := max 0 (reach k)
  (off + lo 1 + lo 2 + lo 3, off + hi 1 + hi 2 + hi 3 + ((recExt r 0 * w + 7) / 8 : Nat))

/-! ## Elements in a byte space -/

/-- `n` bytes of a file from an address on. -/
def fileBytes (f : File Byte) (a n : Nat) : Nat := leNat (getBytes f a n)

/-- An element of `w` bits at a place counted in units of 4 bits. -/
def nibGet (f : File Byte) (p : Int) (w : Nat) : Nat :=
  let a := p.toNat
  if w = 4 then (fget 0 f (a / 2)).toNat >>> (4 * (a % 2)) % 16 else fileBytes f (a / 2) (w / 8)

/-- Write an element of `w` bits. -/
def nibPut (f : File Byte) (p : Int) (w v : Nat) : File Byte :=
  let a := p.toNat
  if w = 4 then
    let old := (fget 0 f (a / 2)).toNat
    let new := if a % 2 = 0 then old / 16 * 16 + v % 16 else v % 16 * 16 + old % 16
    fset 0 f (a / 2) (BitVec.ofNat 8 new)
  else putBytes f (a / 2) (natToBytes (w / 8) v)

/-- Write elements in order; where two meet, the later stays. -/
def nibPutAll (f : File Byte) (w : Nat) : List (Int × Nat) → File Byte
  | [] => f
  | (p, v) :: r => nibPutAll (nibPut f p w v) w r

/-! ## Values of operands (R16, R13) -/

/-- The value of an operand element, flushed where its type is (R27). -/
def opVal (t : Tc) (b : Nat) : FVal :=
  match Tc.fmt? t with
  | some f => fin f b
  | none =>
    let v := (Tc.ifmt t).val b
    .fin (v < 0) v.natAbs 0

/-- A value times an E8M0 scale (R13). -/
def FVal.scale (v : FVal) (x : Nat) : FVal :=
  if x = 255 then .nan false
  else match v with
    | .fin n m e => .fin n m (e + x - 127)
    | v => v

/-- Is the type an integer? -/
def tcInt (t : Tc) : Bool := (Tc.fmt? t).isNone

/-- Group size of a type (R27). -/
def groupSize (t : Tc) : Nat :=
  match t with
  | .f16 | .bf16 => 4
  | .e2m1 => 16
  | _ => 8

/-- Accumulate pairs in groups of `g`, one rounding per group; the last group is completed with zero products. The fuel is
the number of groups. -/
def groups (int : Bool) (g : Nat) : Nat → List (FVal × FVal) → Nat → Nat
  | 0, _, acc => acc
  | n + 1, l, acc =>
    let now := l.take g
    let s := now.foldl (fun (s : GSum) p => s.add int p.1 p.2) GSum.start
    groups int g n (l.drop g) (s.into (decide (now.length < g)) acc).bits

/-- All groups of a list of products. -/
def dotGroups (t : Tc) (l : List (FVal × FVal)) (acc : Nat) : Nat :=
  groups (tcInt t) (groupSize t) (cdiv l.length (groupSize t)) l acc

/-! ## Accumulator tiles (R193) -/

/-- The byte of element (row, col) of a tile that starts at `base`. -/
def tileByte (base row col : Nat) : Nat := base + 256 * row + 4 * col

def tileGet (f : File Byte) (base row col : Nat) : Nat := fileBytes f (tileByte base row col) 4

def tilePut (f : File Byte) (base row col v : Nat) : File Byte := putBytes f (tileByte base row col) (natToBytes 4 v)

/-! ## Conversion of an exact value (R211) -/

/-- Round a value once under RNE into a float format; a NaN, or no value, gives the canonical NaN. -/
def cvtVal (d : Fmt) (sat : Bool) (v : Option FVal) : Nat :=
  match v with
  | none | some (.nan _) => d.canon
  | some (.inf n) => if d.hasInf && !sat then signBits d n + d.infBits else signBits d n + d.maxFinite
  | some (.fin n m e) => (roundTo d .rne sat n m e false).bits

/-- Round a value into an integer type (R22). -/
def cvtValInt (t : IFmt) (v : Option FVal) : Nat :=
  match v with
  | none | some (.nan _) => t.wrap t.hi
  | some (.inf n) => t.wrap (if n then t.lo else t.hi)
  | some (.fin n m e) => t.wrap (t.sat (toInteger .rne n m e).1)

/-! ## Pages held with a request (R198, R239) -/

/-- The physical address of a byte through held translations. -/
def heldPa (pages : List (Nat × Nat)) (va : Nat) : Option Nat :=
  (pages.find? (fun e => e.1 == va / 4096)).map (fun e => e.2 + va % 4096)

/-- The lowest address that byte runs touch in each page, by page in ascending order. -/
def touched (runs : List (Nat × Nat)) : File Nat :=
  runs.foldl (fun (f : File Nat) r =>
    (List.range ((r.1 % 4096 + r.2 + 4095) / 4096)).foldl (fun (f : File Nat) i =>
      let p := r.1 / 4096 + i
      let a := max r.1 (4096 * p)
      match f.find? (fun e => e.1 == p) with
      | some (_, b) => if a < b then fput p a f else f
      | none => fput p a f) f) []

/-- Translate a page for each touched address: the first fault, or the pages with their physical addresses. A device
register is no memory. -/
def State.holdPages (s : State) (a : Acc) : List (Nat × Nat) → Except TrapInfo (List (Nat × Nat)) × State
  | [] => (.ok [], s)
  | (p, va) :: r =>
    let w := BitVec.ofNat 64 va
    match s.dataPa s.hart.dataPriv a w with
    | (.error t, s) => (.error t, s)
    | (.ok pa, s) =>
      match s.region (paLow pa) with
      | .regs _ | .notify _ => (.error ⟨a.accessCause, 0, w⟩, s)
      | _ =>
        match State.holdPages s a r with
        | (.error t, s) => (.error t, s)
        | (.ok l, s) => (.ok ((p, pa / 4096 * 4096) :: l), s)

/-- Cut a sorted file of bytes into runs that stay within `k` aligned bytes. -/
def runsWithin (k : Nat) : File Byte → List (Nat × List Byte)
  | [] => []
  | (a, b) :: r =>
    match runsWithin k r with
    | (a', bs) :: rest => if a' = a + 1 && a' % k != 0 then (a, b :: bs) :: rest else (a, [b]) :: (a', bs) :: rest
    | [] => [(a, [b])]

/-- Cut it into runs that stay within a line. -/
def byteRuns (f : File Byte) : List (Nat × List Byte) := runsWithin 128 f

/-- Bytes of a run, put over a file byte by byte, zeros included. -/
def listBytes (f : File Byte) (a : Nat) : List Byte → File Byte
  | [] => f
  | b :: r => listBytes (fput a b f) (a + 1) r

/-- Bytes of a run as they were read before, where they were, else as given. -/
def readOver (got : File Byte) (a : Nat) : List Byte → List Byte
  | [] => []
  | b :: r => ((got.find? (fun e => e.1 == a)).map Prod.snd).getD b :: readOver got (a + 1) r

/-! ## Accesses of an engine at physical addresses (R236, R270, R402, R405) -/

/-- Read a run within one line for an engine of a die: `none` where it cannot be read. A refusal is posted to the die's fault
queue, and where `poison` says so a delivery of poison is. -/
def State.dieRead (s : State) (d asid : Nat) (poison : Bool) (pa : Nat) (n : Nat) : Option (List Byte) × State :=
  let la := paLow pa
  let bad : Option (List Byte) × State := (none, if poison then s.postFault d 3 pa else s)
  match s.refusal pa asid with
  | some 2 => bad
  | some _ => (none, s.postFault d 6 pa)
  | none =>
    match s.region la with
    | .regs _ | .notify _ | .nowhere => (none, s.postFault d 6 pa)
    | r =>
      if r == .hbm && s.isLost la then bad
      else
        let (b, s) := s.homeRead pa n
        (some b, if r == .hbm then s.countRead (tagLine pa) else s)

/-- Read a run for an engine of a cluster. -/
def State.engineRead (s : State) (cluster asid : Nat) (pa : Nat) (n : Nat) : Option (List Byte) × State :=
  s.dieRead (cluster / 12) asid true pa n

/-- Write a run within one line for an engine of a die; false where it is discarded and posted, at a port that is not online to the port's
die (R346, R402). -/
def State.dieWrite (s : State) (by_ : By) (d asid : Nat) (pa : Nat) (bytes : List Byte) : Bool × State :=
  let la := paLow pa
  match s.refusal pa asid with
  | some 2 =>
    (false, match s.portOf pa with
      | some p => (s.postFault (p / 2) 4 pa).modPort p (fun o => { o with disc := (o.disc + 1) % 2 ^ 32 })
      | none => s.postFault d 4 pa)
  | some _ => (false, s.postFault d 6 pa)
  | none =>
    match s.region la with
    | .regs _ | .notify _ | .nowhere => (false, s.postFault d 6 pa)
    | .hbm =>
      if s.isLost la && bytes.length != 128 then (false, s.postFault d 2 pa)
      else (true, (s.unlose la).homeWrite by_ pa bytes)
    | _ => (true, s.homeWrite by_ pa bytes)

/-- Write a run for an engine of a cluster. -/
def State.engineWrite (s : State) (cluster asid : Nat) (pa : Nat) (bytes : List Byte) : Bool × State :=
  s.dieWrite (.core (16 * cluster)) (cluster / 12) asid pa bytes

/-- Is an engine's access performed without a fault to report? -/
def State.plainAt (s : State) (asid pa : Nat) : Bool :=
  (s.refusal pa asid).isNone && (match s.region (paLow pa) with
    | .hbm => !s.isLost (paLow pa)
    | .coreMem _ _ | .far _ _ | .host _ => true
    | _ => false)

/-- Read runs through held pages: the bytes by virtual address (0 where unreadable), how many were unreadable. Bytes that have been read
before stand as they were read (R310). -/
def State.gather (s : State) (cluster asid : Nat) (pages : List (Nat × Nat)) (got : File Byte) :
    List (Nat × Nat) → File Byte → Nat → File Byte × Nat × State
  | [], f, bad => (f, bad, s)
  | (va, n) :: r, f, bad =>
    match heldPa pages va with
    | none => State.gather s cluster asid pages got r f bad
    | some pa =>
      match s.engineRead cluster asid pa n with
      | (some b, s) => State.gather s cluster asid pages got r (putBytes f va (readOver got va b)) bad
      | (none, s) => State.gather s cluster asid pages got r f (bad + n)

/-- Write runs through held pages; true where every run was performed. -/
def State.scatter (s : State) (cluster asid : Nat) (pages : List (Nat × Nat)) : List (Nat × List Byte) → Bool × State
  | [] => (true, s)
  | (va, b) :: r =>
    match heldPa pages va with
    | none => State.scatter s cluster asid pages r
    | some pa =>
      let (ok, s) := s.engineWrite cluster asid pa b
      let (ok', s) := State.scatter s cluster asid pages r
      (ok && ok', s)

end Sys2Proof.Machine
end

