-- ==== Sys2Proof/Machine/Copy.lean ====
section
/-! DEFINITION. The cluster copy engine and the waits on the outstanding counters (R235 to R244). -/
namespace Sys2Proof.Machine

/-! ## The parameter block (R235) -/

def cpyCtl (b : List Word) : Word := dw b 4
def cpySsp (b : List Word) : Nat := wfield (cpyCtl b) 0 3
def cpyDsp (b : List Word) : Nat := wfield (cpyCtl b) 3 3
def cpySshape (b : List Word) : Nat := wfield (cpyCtl b) 6 6
def cpyDshape (b : List Word) : Nat := wfield (cpyCtl b) 12 6
def cpyShaped (b : List Word) : Bool := wbit (cpyCtl b) 18
def cpyXf (b : List Word) : Nat := wfield (cpyCtl b) 19 2
def cpyMode (b : List Word) : Nat := wfield (cpyCtl b) 21 2
def cpyScope (b : List Word) : Nat := wfield (cpyCtl b) 23 3
def cpyWst (b : List Word) : Bool := wbit (cpyCtl b) 26
def cpyLen (b : List Word) : Nat := wfield (cpyCtl b) 32 32
def cpyScale (b : List Word) : Nat := wfield (dw b 5) 0 32

/-- Do the block's own fields pass the checks of R235 and R236? DESIGN CHOICE (log 78): a linear transfer may have `acc` as its source, for
which R236 asks tc f32 and a linear transfer has no record to say so. -/
def cpyBlockOk (b : List Word) : Bool :=
  let onCore (sp : Nat) : Bool := sp != 0
  (cpySsp b == 0 || cpySsp b == 1 || cpySsp b == 4) && decide (cpyDsp b ≤ 3) && cpyXf b != 3 &&
  decide (1 ≤ cpyScope b) && decide (cpyScope b ≤ 5) && wfield (cpyCtl b) 27 5 == 0 &&
  wfield (dw b 5) 32 32 == 0 && dw b 7 == 0 && (cpyXf b == 2 || cpyScale b == 0) &&
  (match cpyMode b with
    | 0 => dw b 2 == 0 && dw b 3 == 0
    | 1 => wfield (dw b 2) 0 3 == 0
    | 2 => dw b 3 == 0
    | _ => true) &&
  (if cpyShaped b then cpyLen b == 0 && (cpyXf b != 2 || (cpySsp b == 0 && cpySshape b == 0))
   else cpyXf b == 0 && cpySshape b == 0 && cpyDshape b == 0 && decide (1 ≤ cpyLen b) && decide (cpyLen b ≤ 16777216) &&
     (!(onCore (cpySsp b)) || ((dw b 0).toNat % 4 == 0 && cpyLen b % 4 == 0)) &&
     (!(onCore (cpyDsp b)) || ((dw b 1).toNat % 4 == 0 && cpyLen b % 4 == 0)))

/-! ## The transfer as elements -/

/-- Element width in bits: bytes for a linear transfer. -/
def Xfer.width (x : Xfer) : Nat :=
  if cpyShaped x.blk then (match recTc x.recD with | some t => Tc.width t | none => 8) else 8

/-- How many elements the transfer moves. -/
def Xfer.count (x : Xfer) : Nat := if cpyShaped x.blk then recCount x.recD else cpyLen x.blk

/-- Destination bytes of the whole transfer. -/
def Xfer.bytes (x : Xfer) : Nat := x.count * x.width / 8

/-- Bytes of one MX block: its scale byte and 32 packed elements. -/
def mxBlock (w : Nat) : Nat := 1 + 4 * w

/-- Where element `e` comes from, in units of 4 bits of the source space. -/
def Xfer.srcNib (x : Xfer) (e : Nat) : Int :=
  let src : Int := (dw x.blk 0).toNat
  if !cpyShaped x.blk then 2 * src + 2 * e
  else match cpyXf x.blk with
    | 1 =>
      let i0 := e % recExt x.recD 0
      let i1 := e / recExt x.recD 0
      recNib x.recS x.width src i1 i0 0 0
    | 2 => 2 * src + 2 * (e / 32 * mxBlock x.width + 1 : Nat) + (e % 32 * (x.width / 4) : Nat)
    | _ => recNibOf x.recS x.width src e

/-- Where element `e` goes. -/
def Xfer.dstNib (x : Xfer) (e : Nat) : Int :=
  let dst : Int := (dw x.blk 1).toNat
  if !cpyShaped x.blk then 2 * dst + 2 * e else recNibOf x.recD x.width dst e

/-- Do the records fit the transfer (R236)? -/
def Xfer.recsOk (x : Xfer) : Bool :=
  if !cpyShaped x.blk then true
  else
    recOk x.recD &&
    (match cpyXf x.blk with
      | 2 => (recTc x.recD == some .e4m3 || recTc x.recD == some .e5m2 || recTc x.recD == some .e2m1) &&
          recExt x.recD 0 % 32 == 0
      | xf => recOk x.recS && recTc x.recS == recTc x.recD && recCount x.recS == recCount x.recD &&
          (cpySsp x.blk != 4 || recTc x.recS == some .f32) &&
          (xf != 1 || (recExt0 x.recS 2 == 0 && recExt0 x.recD 2 == 0 && recExt x.recD 0 == recExt x.recS 1 &&
            recExt x.recD 1 == recExt x.recS 0 && recTc x.recS != some .e2m1)))

/-- The bytes that a side spans on a core: its lowest, and the one after its highest. -/
def Xfer.srcSpan (x : Xfer) : Int × Int :=
  let src : Int := (dw x.blk 0).toNat
  if !cpyShaped x.blk then (src, src + cpyLen x.blk) else recSpan x.recS x.width src

def Xfer.dstSpan (x : Xfer) : Int × Int :=
  let dst : Int := (dw x.blk 1).toNat
  if !cpyShaped x.blk then (dst, dst + cpyLen x.blk) else recSpan x.recD x.width dst

/-- The share of a space: start and size. -/
def Share.space (sh : Share) (sp : Nat) : Nat × Nat :=
  match sp with
  | 1 => (sh.shBase, sh.shSize)
  | 2 => (sh.actBase, sh.actSize)
  | 3 => (sh.wgtBase, sh.wgtSize)
  | _ => (sh.accBase, sh.accSize)

/-- Does every on-core side stay within the team's share? -/
def Xfer.inShare (x : Xfer) (sh : Share) : Bool :=
  let fits (sp : Nat) (span : Int × Int) : Bool :=
    sp == 0 || (decide (0 ≤ span.1) && decide (span.2 ≤ ((sh.space sp).2 : Int)))
  fits (cpySsp x.blk) x.srcSpan && fits (cpyDsp x.blk) x.dstSpan &&
    (cpyXf x.blk != 2 || fits (cpyDsp x.blk) (cpyScale x.blk, cpyScale x.blk + x.count / 32))

/-- Byte runs of a global side, one per row of its record. -/
def recRuns (r : List Word) (w : Nat) (off : Nat) : List (Nat × Nat) :=
  (List.range (recExt r 3)).flatMap (fun i3 => (List.range (recExt r 2)).flatMap (fun i2 =>
    (List.range (recExt r 1)).map (fun i1 => (((recNib r w off 0 i1 i2 i3) / 2).toNat, (recExt r 0 * w + 7) / 8))))

def Xfer.srcRuns (x : Xfer) : List (Nat × Nat) :=
  let a := (dw x.blk 0).toNat
  if cpySsp x.blk != 0 then []
  else if !cpyShaped x.blk then [(a, cpyLen x.blk)]
  else if cpyXf x.blk = 2 then [(a, x.count / 32 * mxBlock x.width)]
  else recRuns x.recS x.width a

def Xfer.dstRuns (x : Xfer) : List (Nat × Nat) :=
  let a := (dw x.blk 1).toNat
  if cpyDsp x.blk != 0 then []
  else if !cpyShaped x.blk then [(a, cpyLen x.blk)]
  else recRuns x.recD x.width a ++ (if cpyXf x.blk = 2 then [(cpyScale x.blk, x.count / 32)] else [])

/-- Addresses that the completion writes. -/
def Xfer.extRuns (x : Xfer) : List (Nat × Nat) :=
  (if cpyMode x.blk = 1 then [((dw x.blk 2).toNat, 8)] else []) ++
    (if cpyWst x.blk then [(x.blkVa.toNat + 0x30, 8)] else [])

/-! ## `cpy` (R239) -/

/-- The shape records of the hart's team (R196): `none` for record words that are not used. -/
def State.loadRecord (s : State) (idx : Nat) : Except TrapInfo (List Word) × State :=
  s.loadBlock ((s.launchOf s.hart.team).shapeTable + BitVec.ofNat 64 (32 * idx)) 4

/-- The ports behind which a record lies. -/
def State.recordPorts (s : State) (idx : Nat) : List Nat :=
  s.loadPorts 8 ((s.launchOf s.hart.team).shapeTable + BitVec.ofNat 64 (32 * idx)) 4

/-- Load the source and the destination record that a block names. -/
def State.loadRecords (s : State) (b : List Word) : Except TrapInfo (List Word × List Word) × State :=
  if !cpyShaped b then (.ok ([], []), s)
  else
    let first : Except TrapInfo (List Word) × State := if cpyXf b = 2 then (.ok [], s) else s.loadRecord (cpySshape b)
    match first with
    | (.error t, s) => (.error t, s)
    | (.ok rs, s) =>
      match s.loadRecord (cpyDshape b) with
      | (.error t, s) => (.error t, s)
      | (.ok rd, s) => (.ok (rs, rd), s)

/-- Translate what a transfer touches: source pages, destination pages, flag and status. -/
def State.holdXfer (s : State) (x : Xfer) : Except TrapInfo (List (Nat × Nat)) × State :=
  match s.holdPages .load (touched x.srcRuns) with
  | (.error t, s) => (.error t, s)
  | (.ok p1, s) =>
    match s.holdPages .store (touched x.dstRuns) with
    | (.error t, s) => (.error t, s)
    | (.ok p2, s) =>
      match s.holdPages .store (touched x.extRuns) with
      | (.error t, s) => (.error t, s)
      | (.ok p3, s) => (.ok (p1 ++ p2 ++ p3), s)

/-- The next transfer id of the hart: 1, 2, … skipping 0 and 0xFFFF_FFFF. -/
def nextId (last : Nat) : Nat := if 0xFFFFFFFE ≤ last then 1 else last + 1

/-- Transfers that a cluster's engine holds. -/
def State.held (s : State) (cluster : Nat) : Nat := (s.xfers.filter (fun x => x.cluster == cluster)).length

/-- Enter a transfer that has passed every check: a release of the hart's earlier writes (R239). -/
def State.issueXfer (s : State) (rd : XReg) (x : Xfer) : State :=
  let id := nextId s.hart.nextXfer
  let s := s.release s.hart.gid
  let s := { s with xfers := s.xfers ++ [{ x with id := id, turn := s.ticks }] }
  ((s.onHart (fun h => { (h.incCnt 0) with nextXfer := id })).setX rd (BitVec.ofNat 64 id)).retire

/-- Does the engine of the hart's cluster hold 64 transfers? -/
def State.engineFull (s : State) : Bool := decide (64 ≤ s.held s.clusterNo)

/-- A transfer that has passed every check is issued, or waits for room with its reservation. -/
def State.enterXfer (s : State) (rd : XReg) (x : Xfer) : State :=
  if s.engineFull then s.wait (.cpy x) else s.issueXfer rd x

/-- A transfer whose pages are translated: its reservation, then its issue; a SPAWN that finds no place is refused. -/
def State.startXfer (s : State) (rd : XReg) (x : Xfer) : State :=
  let (t, uid) := s.takeUid
  let x := { x with uid := uid }
  if cpyMode x.blk != 3 then t.enterXfer rd x
  else match t.reservePlace uid with
    | none => (s.setX rd 0xFFFFFFFFFFFFFFFF#64).retire
    | some (g, t) => t.enterXfer rd { x with place := some g }

/-- The checks of a `cpy` of the block at an address, in the order of R239. -/
def State.checkCpy (s : State) (va : Word) : Except TrapInfo Xfer × State :=
  if va.toNat % 64 != 0 then (.error ⟨4, 0, va⟩, s)
  else match s.loadBlock va 8 with
    | (.error t, s) => (.error t, s)
    | (.ok b, s) =>
      if !cpyBlockOk b then (.error ⟨27, 0, 0⟩, s)
      else match s.loadRecords b with
        | (.error t, s) => (.error t, s)
        | (.ok (rs, rdst), s) =>
          let x : Xfer := ⟨0, 0, s.hart.gid, s.hart.team, s.clusterNo, b, va, rs, rdst, [], 0, [], [], false, false, false, 0, none⟩
          let src := touched x.srcRuns
          let dst := touched (x.dstRuns ++ x.extRuns)
          if !x.recsOk || !x.inShare s.share || decide (256 < src.length) || decide (256 < dst.length) then (.error ⟨27, 0, 0⟩, s)
          else match s.holdXfer x with
            | (.error t, s) => (.error t, s)
            | (.ok pages, s) => (.ok { x with pages := pages }, s)

/-- The ports behind which the hart loads of a `cpy` lie: of the block, and of the records that a legal block names. -/
def State.cpyPorts (s : State) (va : Word) : List Nat :=
  if va.toNat % 64 != 0 then []
  else s.loadPorts 8 va 8 ++ (match s.loadBlock va 8 with
    | (.error _, _) => []
    | (.ok b, s) => if cpyBlockOk b && cpyShaped b then
        (if cpyXf b = 2 then [] else s.recordPorts (cpySshape b)) ++ s.recordPorts (cpyDshape b) else [])

/-- `cpy` (R239): the block is read and checked once; an instruction that waits for room holds the checked transfer. -/
def execCpy (rd rs1 : XReg) (s : State) : Out :=
  .next (s.notM (match s.hart.run with
    | .waiting (.cpy x) => if s.engineFull then s else s.issueXfer rd x
    | _ => s.holdLoads (s.cpyPorts (s.getX rs1)) (fun s =>
      match s.checkCpy (s.getX rs1) with
      | (.error t, s) => s.trap t
      | (.ok x, s) => s.startXfer rd x)))

/-! ## Moving data (R236, R240) -/

/-- The element that a chunk ends before: 4,096 destination bytes from the first. -/
def Xfer.chunkEnd (x : Xfer) (e : Nat) : Nat := min x.count (e + 32768 / x.width)

/-- Bytes of an element run as byte addresses of a side. -/
def nibBytes (w : Nat) (l : List Int) : File Byte :=
  l.foldl (fun (f : File Byte) p =>
    (List.range (max (w / 8) 1)).foldl (fun (f : File Byte) i => fput (p.toNat / 2 + i) 0 f) f) []

/-- A core's array as a byte space of the engine. -/
def Core.space (k : Core) (sp : Nat) : File Byte :=
  match sp with
  | 1 => k.shm
  | 2 => k.act
  | 3 => k.wgt
  | _ => k.acc

def Core.setSpace (k : Core) (sp : Nat) (f : File Byte) : Core :=
  match sp with
  | 1 => { k with shm := f }
  | 2 => { k with act := f }
  | 3 => { k with wgt := f }
  | _ => k

/-- The core on which a transfer's team is, its ASID and its share. -/
def State.xferCore (s : State) (x : Xfer) : Nat := (s.team x.team).core
def State.teamAsid (s : State) (t : Nat) : Nat := (s.launchOf t).asid

/-- The scale bytes of the MX blocks that begin among elements `a` to `b`. -/
def Xfer.scales (x : Xfer) (a b : Nat) : List (Nat × Nat) :=
  if cpyXf x.blk != 2 then []
  else ((List.range (b - a)).map (fun i => a + i)).filterMap (fun e =>
    if e % 32 = 0 then some ((dw x.blk 0).toNat + e / 32 * mxBlock x.width, cpyScale x.blk + e / 32) else none)

/-- Has the team of a transfer given back its shares? Its on-core sides then read 0 and take no write (R368). -/
def State.shareGone (s : State) (x : Xfer) : Bool := (s.team x.team).phase == .ended

/-! ### A chunk

Each aligned 8-byte unit of its source is read, and each of its destination written, in an event of its own (R310). Some may be read in steps
before the one that reads the others, and some written in steps after it (log 26). -/

/-- The elements of the next chunk. -/
def Xfer.chunkEls (x : Xfer) : List Nat :=
  let a := x.moved * 8 / x.width
  (List.range (x.chunkEnd a - a)).map (fun i => a + i)

/-- The scale bytes of the next chunk. -/
def Xfer.chunkScales (x : Xfer) : List (Nat × Nat) :=
  let a := x.moved * 8 / x.width
  x.scales a (x.chunkEnd a)

/-- The source bytes of the next chunk, by their address in the source space. -/
def Xfer.needs (x : Xfer) : File Byte :=
  x.chunkScales.foldl (fun (f : File Byte) e => fput e.1 0 f) (nibBytes x.width (x.chunkEls.map x.srcNib))

/-- Read the chunk's source as a file of bytes of the source space, and count what could not be read. -/
def State.chunkSource (s : State) (x : Xfer) : File Byte × Nat × State :=
  if cpySsp x.blk = 0 then
    s.gather x.cluster (s.teamAsid x.team) x.pages x.got ((byteRuns x.needs).map (fun r => (r.1, r.2.length))) [] 0
  else if s.shareGone x then ([], 0, s)
  else
    let base := ((s.team x.team).share.space (cpySsp x.blk)).1
    let f := (s.core (s.xferCore x)).space (cpySsp x.blk)
    (x.needs.foldl (fun (o : File Byte) e => putBytes o e.1 (readOver x.got e.1 [fget 0 f (base + e.1)])) [], 0, s)

/-- The destination bytes that a chunk writes, by their address in the destination space. -/
def Xfer.chunkOut (x : Xfer) (src : File Byte) : File Byte :=
  let els := x.chunkEls.map (fun e => (x.dstNib e, nibGet src (x.srcNib e) x.width))
  let out := nibPutAll [] x.width els
  let full := (nibBytes x.width (els.map Prod.fst)).map (fun e => (e.1, fget 0 out e.1))
  x.chunkScales.foldl (fun (f : File Byte) e => fput e.2 (fget 0 src e.1) f) full

/-- Write bytes of the destination space; false where a run was discarded. -/
def State.putRuns (s : State) (x : Xfer) (f : File Byte) : Bool × State :=
  if cpyDsp x.blk = 0 then s.scatter x.cluster (s.teamAsid x.team) x.pages (byteRuns f)
  else if s.shareGone x then (true, s)
  else
    let core := s.xferCore x
    let base := ((s.team x.team).share.space (cpyDsp x.blk)).1
    (true, (byteRuns f).foldl (fun s r =>
      if cpyDsp x.blk = 1 then s.shmWrite core (base + r.1) r.2
      else s.modCore core (fun k => k.setSpace (cpyDsp x.blk) (putBytes (k.space (cpyDsp x.blk)) (base + r.1) r.2))) s)

def State.putXfer (s : State) (x : Xfer) : State := { s with xfers := s.xfers.map (fun y => if y.uid = x.uid then x else y) }

/-- May a unit of the destination be written later than the others: nothing is to be reported of it? -/
def State.mayOwe (s : State) (x : Xfer) (va : Nat) : Bool :=
  cpyDsp x.blk != 0 || (match heldPa x.pages va with
    | some pa => s.plainAt (s.teamAsid x.team) pa
    | none => false)

/-- Is every byte of the destination written? -/
def Xfer.whole (x : Xfer) : Bool := x.moved * 8 / x.width == x.count && x.owed.isEmpty

/-- Move the next chunk of a transfer: what is left of its source is read before its destination is written, of which the units that `late`
names are written later. A destination write that is discarded poisons the transfer (R402). DESIGN CHOICE (log 77): the scale bytes of an MX
repack do not count as moved (R237). -/
def State.moveChunk (s : State) (late : Nat → Bool) (x : Xfer) : State :=
  let (src, bad, s) := s.chunkSource x
  let out := x.chunkOut src
  let owed := (runsWithin 8 out).filter (fun u => late (u.1 / 8) && s.mayOwe x u.1)
  let (ok, s) := s.putRuns x (out.filter (fun e => !owed.any (fun u => u.1 / 8 == e.1 / 8)))
  let s := if bad = 0 then s else { s with cpPoison := fset 0 s.cpPoison x.cluster ((fget 0 s.cpPoison x.cluster + bad) % 2 ^ 32) }
  let x : Xfer := { x with
    moved := x.chunkEnd (x.moved * 8 / x.width) * x.width / 8, got := [], owed := owed, poison := x.poison || bad != 0 || !ok }
  { (s.putXfer { x with done := x.whole }) with cpLast := fset 0 s.cpLast x.cluster x.turn }

/-- Write units that a chunk owes: those that `now` names, or all where it names none. -/
def State.payChunk (s : State) (now : Nat → Bool) (x : Xfer) : State :=
  let some_ := x.owed.filter (fun u => now (u.1 / 8))
  let pick := if some_.isEmpty then x.owed else some_
  let (ok, s) := s.putRuns x (pick.foldl (fun (f : File Byte) u => listBytes f u.1 u.2) [])
  let x : Xfer := { x with owed := x.owed.filter (fun u => !pick.contains u), poison := x.poison || !ok }
  s.putXfer { x with done := x.whole }

/-- May a unit of the source be read before the others: nothing is to be reported of it? -/
def State.mayRead (s : State) (x : Xfer) (va : Nat) : Bool :=
  if cpySsp x.blk = 0 then
    match heldPa x.pages va with
    | some pa => s.plainAt (s.teamAsid x.team) pa
    | none => false
  else !s.shareGone x

/-- Units of the source that are read before the others, as the step's free choices say. -/
def State.earlyUnits (s : State) (x : Xfer) : List (Nat × List Byte) :=
  (runsWithin 8 x.needs).filter (fun u =>
    !x.got.any (fun e => e.1 == u.1) && s.mayRead x u.1 && s.freeBit (2720 + 4096 * (u.1 / 8)))

/-- One of them is read. -/
def State.readUnit (s : State) (x : Xfer) (u : Nat × List Byte) : List Byte × State :=
  let n := u.2.length
  if cpySsp x.blk = 0 then
    match heldPa x.pages u.1 with
    | none => ([], s)
    | some pa => s.homeRead pa n
  else
    let base := ((s.team x.team).share.space (cpySsp x.blk)).1
    (getBytes ((s.core (s.xferCore x)).space (cpySsp x.blk)) (base + u.1) n, s)

/-- Read units of the source before the others. -/
def State.readEarly (s : State) (x : Xfer) : List (Nat × List Byte) → State
  | [] => s.putXfer x
  | u :: r =>
    let (b, s) := s.readUnit x u
    State.readEarly s { x with got := listBytes x.got u.1 b } r

/-- Has a chunk of the transfer begun, and not ended? -/
def Xfer.inChunk (x : Xfer) : Bool := !x.got.isEmpty || !x.owed.isEmpty

/-- One step of the engine on a transfer: it writes what a chunk owes, reads units of the next before the others, or moves it. -/
def State.chunkStep (s : State) (x : Xfer) : State :=
  if !x.owed.isEmpty then s.payChunk (fun u => s.freeBit (2721 + 4096 * u)) x
  else
    match s.earlyUnits x with
    | [] => s.moveChunk (fun u => s.freeBit (2722 + 4096 * u)) x
    | l => s.readEarly x l

/-- Bring a chunk that has begun to its end. -/
def State.endChunk (s : State) (x : Xfer) : State :=
  if !x.owed.isEmpty then s.payChunk (fun _ => true) x
  else if !x.got.isEmpty then s.moveChunk (fun _ => false) x
  else s

/-- The transfers of a team stop at the end of their chunks (R241). -/
def State.endChunks (s : State) (team : Nat) : State :=
  (s.xfers.filter (fun x => x.team == team)).foldl State.endChunk s

/-- The effective priority of a request of a hart (R166). DESIGN CHOICE (log 58): the spec names the priority of the hart that made the
request alone (R202, R240); once that hart has exited, the request ranks at the launch's base plus boost, at most 254. -/
def State.reqPrio (s : State) (g team : Nat) : Nat :=
  let h := s.hartOf g
  if h.run.isHart && h.team == team then s.prio h
  else
    let l := s.launchOf team
    min (l.base + l.boost) 254

/-- Does the engine serve `x` before `y`: higher priority first; among equals the next in issue order after the one that it served last, round
and round (R240)? -/
def State.servedBefore (s : State) (last : Nat) (x y : Xfer) : Bool :=
  let px := s.reqPrio x.gid x.team
  let py := s.reqPrio y.gid y.team
  decide (py < px) || (px == py &&
    (if decide (x.turn ≤ last) == decide (y.turn ≤ last) then decide (x.turn ≤ y.turn) else decide (y.turn ≤ last)))

/-- The transfer that the engine serves next. -/
def State.nextXfer (s : State) (last : Nat) : List Xfer → Option Xfer
  | [] => none
  | x :: r =>
    match State.nextXfer s last r with
    | none => some x
    | some y => some (if s.servedBefore last x y then x else y)

/-- The transfer at which a cluster's engine works: one whose chunk has begun, else the next (R240). -/
def State.engineXfer (s : State) (cl : Nat) : Option Xfer :=
  let l := s.xfers.filter (fun x => x.cluster == cl && !x.done)
  match l.find? Xfer.inChunk with
  | some x => some x
  | none => s.nextXfer (fget 0 s.cpLast cl) l

/-- The copy engine of the selected cluster goes on. -/
def execCopyChunk (s : State) : Out :=
  match s.engineXfer s.sel with
  | none => .next s
  | some x => .next (s.chunkStep x)

/-! ## Completion (R237, R240, R241) -/

/-- The status doubleword (R237). -/
def Xfer.status (x : Xfer) : Word :=
  BitVec.ofNat 64 (1 + (if x.poison then 2 else 0) + (if x.dropped then 4 else 0) + x.moved % 2 ^ 32 * 2 ^ 32)

/-- Write a doubleword through the translations that a transfer holds. -/
def State.xferWrite (s : State) (x : Xfer) (va : Nat) (v : Word) : State :=
  match heldPa x.pages va with
  | none => s
  | some pa => (s.engineWrite x.cluster (s.teamAsid x.team) pa (natToBytes 8 v.toNat)).2

def State.writeStatus (s : State) (x : Xfer) : State :=
  if cpyWst x.blk then s.xferWrite x (x.blkVa.toNat + 0x30) x.status else s

def State.dropXfer (s : State) (uid : Nat) : State := { s with xfers := s.xfers.filter (fun x => x.uid != uid) }

/-- The whole transfer of the selected number has been performed: status, action, counter. -/
def execCopyComplete (s : State) : Out :=
  match s.xfers.find? (fun x => x.uid == s.sel && x.done) with
  | none => .next s
  | some x =>
    let s := (s.writeStatus x).dropXfer x.uid
    let s := match cpyMode x.blk with
      | 1 => s.xferWrite x (dw x.blk 2).toNat (dw x.blk 3)
      | 2 => s.sendUi x.gid ⟨0, BitVec.ofNat 64 x.id, dw x.blk 2, some 0, some (scopeOf (cpyScope x.blk))⟩
      | 3 => match x.place with
        | some g => s.startReserved g x.uid (scopeOf (cpyScope x.blk)) (dw x.blk 2) (dw x.blk 3)
        | none => s
      | _ => s
    let s := s.modHart x.gid (fun h => h.noteScope 0 (cpyScope x.blk))
    .next (if cpyMode x.blk = 2 then s else s.modHart x.gid (fun h => h.decCnt 0))

/-- End a transfer early (R241). -/
def State.endXfer (s : State) (x : Xfer) : State :=
  let s := s.writeStatus { x with dropped := true }
  ((s.dropPlace x.place x.uid).dropXfer x.uid).modHart x.gid (fun h => h.decCnt 0)

/-- End every transfer of a team that is not already whole, each at the end of its chunk. -/
def State.endXfers (s : State) (team : Nat) : State :=
  let ids := (s.xfers.filter (fun x => x.team == team && !x.done)).map Xfer.uid
  let s := s.endChunks team
  (s.xfers.filter (fun x => ids.contains x.uid)).foldl (fun s x => s.endXfer x) s

/-! ## `cwait` and `ctry` (R243, R244) -/

/-- The acquire of a counter wait, at the widest scope of the requests of its class that have completed (R316). -/
def State.counterAcquire (s : State) (cls : Nat) : State := s.acquire s.hart.gid (scopeOf (fget 0 s.hart.cscope cls))

def execCwait (cls : BitVec 2) (n : BitVec 12) (s : State) : Out :=
  .next (s.notM (
    if s.hart.cnt cls.toNat ≤ n.toNat then (s.counterAcquire cls.toNat).retire else s.wait (.counter cls.toNat)))

def execCtry (rd : XReg) (cls : BitVec 2) (n : BitVec 12) (s : State) : Out :=
  .next (s.notM (
    if s.hart.cnt cls.toNat ≤ n.toNat then ((s.counterAcquire cls.toNat).setX rd 1).retire
    else if s.inWait (.counter cls.toNat) && s.waited 256 then (s.setX rd 0).retire
    else s.wait (.counter cls.toNat)))

end Sys2Proof.Machine
end

