-- ==== Sys2Proof/Machine/Matrix.lean ====
section
/-! DEFINITION. The matrix engine: pushing tile commands, their order, their effects, signals, and its reset (R54, R55, R192
to R217, R226, R227, R310). -/
namespace Sys2Proof.Machine

/-! ## The command word (R54, R55) -/

def Cmd.op (c : Cmd) : Nat := wfield c.d0 0 8
def Cmd.typeA (c : Cmd) : Option Tc := ofCode Tc.code Tc.all (BitVec.ofNat 4 (wfield c.d0 48 4))
def Cmd.typeB (c : Cmd) : Option Tc := ofCode Tc.code Tc.all (BitVec.ofNat 4 (wfield c.d0 52 4))
def Cmd.wen (c : Cmd) : Bool := wbit c.d0 57
def Cmd.sen (c : Cmd) : Bool := wbit c.d0 58
def Cmd.accum (c : Cmd) : Bool := wbit c.d0 59
def Cmd.sat (c : Cmd) : Bool := wbit c.d0 60
def Cmd.wsem (c : Cmd) : Nat := wfield c.d0 8 8
def Cmd.wthr (c : Cmd) : Nat := wfield c.d0 16 16
def Cmd.ssem (c : Cmd) : Nat := wfield c.d0 32 8
def Cmd.sinc (c : Cmd) : Nat := wfield c.d0 40 8
def Cmd.tile (c : Cmd) : Nat := wfield c.d3 0 4
def Cmd.aOff (c : Cmd) : Nat := wfield c.d1 0 19
def Cmd.bOff (c : Cmd) : Nat := wfield c.d2 0 19
def Cmd.aBuf (c : Cmd) : TBuf := bufOf (wbit c.d1 19)
def Cmd.bBuf (c : Cmd) : TBuf := bufOf (wbit c.d2 19)
def Cmd.aShape (c : Cmd) : Nat := wfield c.d1 20 6
def Cmd.bShape (c : Cmd) : Nat := wfield c.d2 20 6
/-- `mma.sp` stores N of every 64 elements (R207). -/
def Cmd.spN (c : Cmd) : Nat := if wbit c.d2 46 then 32 else 16
def Cmd.dstTc (c : Cmd) : Option Tc := ofCode Tc.code Tc.all (BitVec.ofNat 4 (wfield c.d3 16 4))

/-- The product ops. -/
def opProduct (op : Nat) : Bool := op == 1 || op == 2 || op == 3 || op == 4
def opMove (op : Nat) : Bool := op == 0x20 || op == 0x21
def opAcc (op : Nat) : Bool := op == 0x10 || op == 0x11 || op == 0x12 || op == 0x13

/-- The patch of a command word (R54). -/
def Cmd.patch (c : Cmd) (v : Word) : Cmd :=
  match wfield c.d0 61 3 with
  | 1 => { c with d1 := wput c.d1 0 19 v.toNat }
  | 2 => { c with d2 := wput c.d2 0 19 v.toNat }
  | 3 => { c with d3 := wput c.d3 0 4 v.toNat }
  | 4 => { c with d0 := wput c.d0 16 16 v.toNat }
  | 5 => { c with d1 := v }
  | _ => c

/-- Is the type pair allowed for the product (R205)? -/
def pairOk (op : Nat) (a b : Option Tc) : Bool :=
  let f8 (t : Option Tc) : Bool := t == some .e4m3 || t == some .e5m2
  if op = 3 then (f8 a && f8 b) || (a == some .e2m1 && b == some .e2m1)
  else (a == some .f16 && b == some .f16) || (a == some .bf16 && b == some .bf16) || (f8 a && f8 b) ||
    (a == some .s8 && b == some .s8)

/-- Fields that the op does not use are 0 (R55, R199). -/
def Cmd.unusedZero (c : Cmd) : Bool :=
  let op := c.op
  if opProduct op then
    !c.sat && wfield c.d1 46 18 == 0 && (op == 3 || wfield c.d1 26 20 == 0) && wfield c.d2 47 17 == 0 &&
    (op == 2 || !wbit c.d2 46) && (op == 2 || op == 3 || wfield c.d2 26 20 == 0) && wfield c.d3 4 4 == 0 &&
    (op == 4 || wfield c.d3 8 2 == 0) && wfield c.d3 10 54 == 0
  else if opMove op then
    !c.sat && !c.accum && wfield c.d1 26 38 == 0 && wfield c.d2 26 38 == 0 && c.d3 == 0
  else
    wfield c.d0 48 8 == 0 && !c.accum &&
    (match op with
      | 0x13 => c.d1 == 0 && wfield c.d2 26 38 == 0 && wfield c.d3 4 12 == 0 && wfield c.d3 20 12 == 0
      | 0x11 | 0x12 => !c.sat && wfield c.d2 32 32 == 0 && wfield c.d3 4 60 == 0
      | 0x10 => !c.sat && c.d1 == 0 && c.d2 == 0 && wfield c.d3 4 60 == 0
      | _ => !c.sat && c.d1 == 0 && c.d2 == 0 && c.d3 == 0)

/-- The word's own fields pass the checks of R199. -/
def Cmd.wordOk (c : Cmd) (sh : Share) : Bool :=
  let op := c.op
  (opProduct op || opMove op || opAcc op || op == 0x30) && decide (wfield c.d0 61 3 ≤ 5) && !wbit c.d0 56 && c.unusedZero &&
  (if c.wen then decide (c.wsem < sh.semN) else c.wsem == 0 && c.wthr == 0) &&
  (if c.sen then decide (c.ssem < sh.semN) else c.ssem == 0 && c.sinc == 0) &&
  (if opProduct op then pairOk op c.typeA c.typeB
   else if opMove op then c.typeA.isSome && c.typeA == c.typeB && (op == 0x20 || c.typeA != some .e2m1)
   else op != 0x13 || (match c.dstTc with
     | some .f32 | some .f16 | some .bf16 | some .s8 | some .e4m3 | some .e5m2 => true
     | _ => false)) &&
  (!(opProduct op || opAcc op) || decide (16384 * (c.tile + 1) ≤ sh.accSize)) &&
  (!(op == 0x11 || op == 0x12) || (c.d1.toNat % 4 == 0 && c.d2.toNat % 4 == 0))

/-! ## Operands (R204, R207) -/

def recW (r : List Word) : Nat := match recTc r with | some t => Tc.width t | none => 8

/-- Elements of a record along k: dimension 0 or 1, and dimensions 2 and 3. -/
def recK (r : List Word) (low : Nat) : Nat := recExt r low * recExt r 2 * recExt r 3

def Cmd.rows (c : Cmd) : Nat := recExt c.recA 1
def Cmd.cols (c : Cmd) : Nat := recExt c.recB 0
/-- The reduction length K. -/
def Cmd.kLen (c : Cmd) : Nat := recK c.recB 1

/-- Does a run of bytes lie in the share of a buffer? -/
def Share.fits (sh : Share) (b : TBuf) (span : Int × Int) : Bool :=
  decide (0 ≤ span.1) && decide (span.2 ≤ ((sh.buf b).2 : Int))

/-- The records, extents, offsets and shares pass the checks of R199. -/
def Cmd.recsOk (c : Cmd) (sh : Share) : Bool :=
  let a := c.recA
  let b := c.recB
  if opProduct c.op then
    recOk a && recOk b && recTc a == c.typeA && recTc b == c.typeB && decide (c.rows ≤ 64) && decide (c.cols ≤ 64) &&
    decide (c.kLen ≤ 65536) &&
    (if c.op = 2 then c.kLen % 64 == 0 && recK a 0 == c.kLen * c.spN / 64
     else recExt a 0 == recExt b 1 && recExt a 2 == recExt b 2 && recExt a 3 == recExt b 3) &&
    sh.fits c.aBuf (recSpan a (recW a) c.aOff) && sh.fits c.bBuf (recSpan b (recW b) c.bOff) &&
    (c.op != 2 || sh.fits (bufOf (wbit c.d2 45))
      (wfield c.d2 26 19, wfield c.d2 26 19 + (c.rows * (c.kLen / 64) * (c.spN * 6 / 8) : Nat))) &&
    (c.op != 3 || (c.kLen % 32 == 0 &&
      sh.fits (bufOf (wbit c.d1 45)) (wfield c.d1 26 19, wfield c.d1 26 19 + (c.rows * c.kLen / 32 : Nat)) &&
      sh.fits (bufOf (wbit c.d2 45)) (wfield c.d2 26 19, wfield c.d2 26 19 + (c.cols * c.kLen / 32 : Nat)))) &&
    (c.op != 4 || ((!wbit c.d3 8 || decide (recCount a * recW a ≤ 131072)) && (!wbit c.d3 9 || decide (recCount b * recW b ≤ 131072))))
  else if opMove c.op then
    recOk a && recOk b && recTc a == c.typeA && recTc b == c.typeB &&
    (if c.op = 0x20 then recCount a == recCount b
     else recExt0 a 2 == 0 && recExt0 b 2 == 0 && recExt b 0 == recExt a 1 && recExt b 1 == recExt a 0) &&
    sh.fits c.aBuf (recSpan a (recW a) c.aOff) && sh.fits c.bBuf (recSpan b (recW b) c.bOff)
  else if c.op = 0x13 then
    recOk b && recTc b == c.dstTc && recExt0 b 2 == 0 && decide (recExt b 0 ≤ 64) && decide (recExt b 1 ≤ 64) &&
    sh.fits c.bBuf (recSpan b (recW b) c.bOff)
  else true

/-! ## `mxpush` and `mxfence` (R196 to R201) -/

/-- Load the records that a word names. -/
def State.cmdRecords (s : State) (c : Cmd) : Except TrapInfo Cmd × State :=
  let two := opProduct c.op || opMove c.op
  let first : Except TrapInfo (List Word) × State := if two then s.loadRecord c.aShape else (.ok [], s)
  match first with
  | (.error t, s) => (.error t, s)
  | (.ok a, s) =>
    let second : Except TrapInfo (List Word) × State := if two || c.op == 0x13 then s.loadRecord c.bShape else (.ok [], s)
    match second with
    | (.error t, s) => (.error t, s)
    | (.ok b, s) => (.ok { c with recA := a, recB := b }, s)

/-- The address of a row of `acc.ld` and `acc.st` (R210). -/
def Cmd.rowVa (c : Cmd) (row : Nat) : Word := c.d1 + BitVec.ofNat 64 (row * wfield c.d2 0 32)

/-- The 64 rows of `acc.ld` and `acc.st`. -/
def Cmd.rowRuns (c : Cmd) : List (Nat × Nat) :=
  if c.op = 0x11 || c.op = 0x12 then (List.range 64).map (fun r => ((c.rowVa r).toNat, 256)) else []

/-- The places in a core's queue of a hart's commands that have not started. -/
def CmdPhase.waiting : CmdPhase → Bool
  | .queued | .listed | .eligible => true
  | _ => false

/-- The commands that have become heads of their hart's sequence and still have to take their semaphore (R202). -/
def newHeads (seen : List Nat) : List Cmd → List Cmd
  | [] => []
  | c :: r =>
    if c.phase.waiting then
      if seen.contains c.gid then newHeads seen r
      else (if c.phase == .queued then [c] else []) ++ newHeads (c.gid :: seen) r
    else newHeads seen r

def State.setPhase (s : State) (core uid : Nat) (p : CmdPhase) : State :=
  s.modCore core (fun k => { k with queue := k.queue.map (fun c => if c.uid = uid then { c with phase := p } else c) })

/-- A new head takes its wait: at once eligible, granted, or in the waiter list of its semaphore. -/
def State.headWait (s : State) (core : Nat) (c : Cmd) : State :=
  if !c.wen then s.setPhase core c.uid .eligible
  else
    let j := (s.team c.team).share.semBase + c.wsem
    let e := (s.core core).sem j
    if e.list.isEmpty && decide (c.wthr ≤ e.cnt) then
      (s.modCore core (fun k => k.setSem j { e with cnt := e.cnt - c.wthr })).setPhase core c.uid .eligible
    else
      (s.modCore core (fun k => k.setSem j { e with list := insertSem e.list ⟨s.reqPrio c.gid c.team, c.wthr, .cmd c.uid⟩ })).setPhase
        core c.uid .listed

def State.headsUp (s : State) (core : Nat) : State :=
  (newHeads [] (s.core core).queue).foldl (fun s c => s.headWait core c) s

/-- Append a command that has passed every check. -/
def State.appendCmd (s : State) (c : Cmd) : State :=
  let (s, uid) := (s.release s.hart.gid).takeUid
  let s := s.modCore s.coreNo (fun k => { k with queue := k.queue ++ [{ c with uid := uid, since := s.clock }] })
  (s.headsUp s.coreNo).retire

/-- The command that a word of memory and a patch give. -/
def State.wordCmd (s : State) (w : List Word) (v : Word) : Cmd :=
  Cmd.patch ⟨0, s.hart.gid, s.hart.team, dw w 0, dw w 1, dw w 2, dw w 3, [], [], [], .queued, 0, s.clock, [], []⟩ v

/-- The checks of an `mxpush` of the word at an address, in the order of R198. -/
def State.checkMxpush (s : State) (va v : Word) : Except TrapInfo Cmd × State :=
  if va.toNat % 32 != 0 then (.error ⟨4, 0, va⟩, s)
  else match s.loadBlock va 4 with
    | (.error t, s) => (.error t, s)
    | (.ok w, s) =>
      let c := s.wordCmd w v
      if !c.wordOk s.share then (.error ⟨27, 3, 0⟩, s)
      else match s.cmdRecords c with
        | (.error t, s) => (.error t, s)
        | (.ok c, s) =>
          if !c.recsOk s.share then (.error ⟨27, 3, 0⟩, s)
          else match s.holdPages (if c.op = 0x12 then .store else .load) (touched c.rowRuns) with
            | (.error t, s) => (.error t, s)
            | (.ok pages, s) => (.ok { c with pages := pages }, s)

/-- The ports behind which the hart loads of an `mxpush` lie: of the word, and of the records that a legal word names. -/
def State.pushPorts (s : State) (va v : Word) : List Nat :=
  if va.toNat % 32 != 0 then []
  else s.loadPorts 8 va 4 ++ (match s.loadBlock va 4 with
    | (.error _, _) => []
    | (.ok w, s) =>
      let c := s.wordCmd w v
      let two := opProduct c.op || opMove c.op
      if !c.wordOk s.share then []
      else (if two then s.recordPorts c.aShape else []) ++ (if two || c.op == 0x13 then s.recordPorts c.bShape else []))

/-- Does a push have to wait: 64 commands are queued, or the engine is being reset? -/
def State.pushFull (s : State) : Bool := decide (64 ≤ (s.core s.coreNo).queue.length) || (s.core s.coreNo).rst

/-- `mxpush` (R198): the word and the records are read and checked once; an instruction that waits for room holds the checked command. -/
def execMxpush (rs1 rs2 : XReg) (s : State) : Out :=
  .next (s.notM (match s.hart.run with
    | .waiting (.mxpush c) => if s.pushFull then s else s.appendCmd c
    | _ => s.holdLoads (s.pushPorts (s.getX rs1) (s.getX rs2)) (fun s =>
      match s.checkMxpush (s.getX rs1) (s.getX rs2) with
      | (.error t, s) => s.trap t
      | (.ok c, s) => if s.pushFull then s.wait (.mxpush c) else s.appendCmd c)))

def execMxfence (s : State) : Out :=
  .next (s.notM (if s.hq s.hart.gid = 0 then (s.acquire s.hart.gid .team).retire else s.wait .mxfence))

/-! ## Effects on the buffers (R204 to R212) -/

/-- The command's buffers: the share's file as seen from its start. -/
def Cmd.base (sh : Share) (b : TBuf) : Int := 2 * ((sh.buf b).1 : Int)

/-- Element (m, k) of A. -/
def Cmd.elemA (c : Cmd) (k : Core) (sh : Share) (m kk : Nat) : Nat :=
  let e0 := recExt c.recA 0
  let e2 := recExt c.recA 2
  nibGet (k.buf c.aBuf)
    (Cmd.base sh c.aBuf + recNib c.recA (recW c.recA) c.aOff (kk % e0) m (kk / e0 % e2) (kk / (e0 * e2))) (recW c.recA)

/-- Element (k, n) of B. -/
def Cmd.elemB (c : Cmd) (k : Core) (sh : Share) (kk n : Nat) : Nat :=
  let e1 := recExt c.recB 1
  let e2 := recExt c.recB 2
  nibGet (k.buf c.bBuf)
    (Cmd.base sh c.bBuf + recNib c.recB (recW c.recB) c.bOff n (kk % e1) (kk / e1 % e2) (kk / (e1 * e2))) (recW c.recB)

def Cmd.valA (c : Cmd) (k : Core) (sh : Share) (m kk : Nat) : FVal := opVal (c.typeA.getD .s32) (c.elemA k sh m kk)
def Cmd.valB (c : Cmd) (k : Core) (sh : Share) (kk n : Nat) : FVal := opVal (c.typeB.getD .s32) (c.elemB k sh kk n)

/-- A byte of a scale or metadata field of the command's team. -/
def Core.shareByte (k : Core) (sh : Share) (b : TBuf) (off : Nat) : Nat := (fget 0 (k.buf b) ((sh.buf b).1 + off)).toNat

/-- The 6-bit index of stored element `s` of row `m` (R207). -/
def Cmd.spIndex (c : Cmd) (k : Core) (sh : Share) (m s : Nat) : Nat :=
  let n := c.spN
  let rec6 := n * 6 / 8
  let b := bufOf (wbit c.d2 45)
  let at_ := (sh.buf b).1 + wfield c.d2 26 19 + (m * (c.kLen / 64) + s / n) * rec6
  fileBytes (k.buf b) at_ rec6 >>> (6 * (s % n)) % 64

/-- The pairs of one output element, in the order in which they are added. -/
def Cmd.pairs (c : Cmd) (k : Core) (sh : Share) (m n : Nat) : List (FVal × FVal) :=
  match c.op with
  | 2 => (List.range (recK c.recA 0)).map (fun s =>
      (c.valA k sh m s, c.valB k sh (64 * (s / c.spN) + c.spIndex k sh m s) n))
  | 3 => (List.range c.kLen).map (fun kk =>
      let sa := k.shareByte sh (bufOf (wbit c.d1 45)) (wfield c.d1 26 19 + m * c.kLen / 32 + kk / 32)
      let sb := k.shareByte sh (bufOf (wbit c.d2 45)) (wfield c.d2 26 19 + n * c.kLen / 32 + kk / 32)
      ((c.valA k sh m kk).scale sa, (c.valB k sh kk n).scale sb))
  | _ => (List.range c.kLen).map (fun kk => (c.valA k sh m kk, c.valB k sh kk n))

/-- The byte at which the command's accumulator tile starts. -/
def Cmd.tileBase (c : Cmd) (sh : Share) : Nat := sh.accBase + 16384 * c.tile

/-- One element of the product. -/
def Cmd.outElem (c : Cmd) (k : Core) (sh : Share) (m n : Nat) : Nat :=
  dotGroups (c.typeA.getD .s32) (c.pairs k sh m n) (if c.accum then tileGet k.acc (c.tileBase sh) m n else 0)

/-- A word of the command's tile as an element to write. -/
def Cmd.tileWord (c : Cmd) (sh : Share) (row col v : Nat) : Owed := ⟨some .acc, 2 * tileByte (c.tileBase sh) row col, 32, v⟩

/-- The product, for the tile (R204, R206 to R208). -/
def Cmd.product (c : Cmd) (sh : Share) (k : Core) : List Owed :=
  (List.range c.rows).flatMap (fun m => (List.range c.cols).map (fun n => c.tileWord sh m n (c.outElem k sh m n)))

/-- `acc.cvt` (R211). -/
def Cmd.convertTile (c : Cmd) (sh : Share) (k : Core) : List Owed :=
  let t := c.dstTc.getD .f32
  let scale := fval .f32 (wfield c.d3 32 32)
  let val (i0 i1 : Nat) : Nat :=
    let v := mulVal (fval .f32 (tileGet k.acc (c.tileBase sh) i1 i0)) scale
    match Tc.fmt? t with
    | some f => cvtVal f c.sat v
    | none => cvtValInt (Tc.ifmt t) v
  (List.range (recExt c.recB 1)).flatMap (fun i1 => (List.range (recExt c.recB 0)).map (fun i0 =>
    ⟨some c.bBuf, (Cmd.base sh c.bBuf + recNib c.recB (recW c.recB) c.bOff i0 i1 0 0).toNat, recW c.recB, val i0 i1⟩))

/-- `tmov` and `ttrans`: every source element is read first (R212). -/
def Cmd.moveTile (c : Cmd) (sh : Share) (k : Core) : List Owed :=
  let w := recW c.recA
  let src (e : Nat) : Int :=
    if c.op = 0x20 then recNibOf c.recA w c.aOff e
    else recNib c.recA w c.aOff (e / recExt c.recB 0) (e % recExt c.recB 0) 0 0
  (List.range (recCount c.recB)).map (fun e =>
    ⟨some c.bBuf, (Cmd.base sh c.bBuf + recNibOf c.recB w c.bOff e).toNat, w,
      nibGet (k.buf c.aBuf) (Cmd.base sh c.aBuf + src e) w⟩)

/-- Zero the tile. -/
def Cmd.zeroTile (c : Cmd) (sh : Share) (_ : Core) : List Owed :=
  (List.range 64).flatMap (fun m => (List.range 64).map (fun n => c.tileWord sh m n 0))

/-! ## `acc.ld` and `acc.st` (R210) -/

/-- Runs of a row that stay within a line, as offsets within the row with lengths. -/
def rowPieces (va : Nat) : Nat → Nat → List (Nat × Nat)
  | 0, _ => []
  | fuel + 1, o =>
    if 256 ≤ o then []
    else
      let n := min (256 - o) (128 - (va + o) % 128)
      (o, n) :: rowPieces va fuel (o + n)

/-- The canonical NaN in every word of a piece. -/
def nanWords (n : Nat) : List Byte := (List.replicate (n / 4) [0x00#8, 0x00#8, 0xC0#8, 0x7F#8]).flatten

/-- The key under which a byte is held that a command has read before the others: of a buffer, or of memory at a virtual address. -/
def bufKey (b : Option TBuf) (a : Nat) : Nat :=
  match b with
  | some .act => a
  | some .wgt => 2 ^ 20 + a
  | some .acc => 2 ^ 21 + a
  | none => 2 ^ 21 + 2 ^ 20 + a

/-- The words that row `row` of an `acc.ld` loads into the tile. -/
def State.rowWords (s : State) (core : Nat) (c : Cmd) (sh : Share) (row : Nat) : List Owed × State :=
  let va := (c.rowVa row).toNat
  (rowPieces va 4 0).foldl (fun (l, s) p =>
    let (b, s) := match heldPa c.pages (va + p.1) with
      | none => (none, s)
      | some pa => s.engineRead (coreCluster core) (s.teamAsid c.team) pa p.2
    let b := readOver c.got (bufKey none (va + p.1)) (b.getD (nanWords p.2))
    (l ++ (List.range (p.2 / 4)).map (fun i => c.tileWord sh row (p.1 / 4 + i) (leNat ((b.drop (4 * i)).take 4))), s)) ([], s)

/-- The words of `acc.ld`. -/
def State.loadTile (s : State) (core : Nat) (c : Cmd) (sh : Share) : List Owed × State :=
  (List.range 64).foldl (fun (l, s) row =>
    let (m, s) := s.rowWords core c sh row
    (l ++ m, s)) ([], s)

/-- Row `row` of the tile, for the memory that `acc.st` stores to. -/
def Cmd.storeRow (c : Cmd) (sh : Share) (k : Core) (row : Nat) : List Owed :=
  let va := (c.rowVa row).toNat
  (List.range 64).map (fun col => ⟨none, 2 * (va + 4 * col), 32, tileGet k.acc (c.tileBase sh) row col⟩)

/-! ## A command's words (R194, R310)

A command reads and writes each aligned 4-byte word in an event of its own. Some may be read in steps before the one that reads the others, and
some written in steps after it (log 26). -/

/-- The word that an element lies in, by a number of its own. -/
def Owed.word (o : Owed) : Nat :=
  4 * (o.place / 8) + match o.buf with
    | some .act => 0
    | some .wgt => 1
    | some .acc => 2
    | none => 3

/-- Does an element lie in one word? -/
def Owed.inWord (o : Owed) : Bool := decide (o.place % 8 + o.width / 4 ≤ 8)

/-- Write an element of a buffer. -/
def Core.putOwed (k : Core) (o : Owed) : Core :=
  match o.buf with
  | some b => k.setBuf b (nibPut (k.buf b) o.place o.width o.val)
  | none => k

/-- The bytes of the elements for memory, by virtual address. -/
def owedBytes (l : List Owed) : File Byte :=
  (l.filter (fun o => o.buf.isNone)).foldl (fun (f : File Byte) o => listBytes f (o.place / 2) (natToBytes (o.width / 8) o.val)) []

/-- Write elements of a command. -/
def State.putOuts (s : State) (core : Nat) (c : Cmd) (l : List Owed) : State :=
  let s := s.modCore core (fun k => l.foldl Core.putOwed k)
  (s.scatter (coreCluster core) (s.teamAsid c.team) c.pages (byteRuns (owedBytes l))).2

/-- A core's buffers as a command sees them that has read some bytes before. -/
def Core.seenBy (k : Core) : File Byte → Core
  | [] => k
  | (a, b) :: r =>
    Core.seenBy (if a < 2 ^ 20 then k.setBuf .act (fset 0 k.act a b)
      else if a < 2 ^ 21 then k.setBuf .wgt (fset 0 k.wgt (a - 2 ^ 20) b)
      else if a < 2 ^ 21 + 2 ^ 20 then k.setBuf .acc (fset 0 k.acc (a - 2 ^ 21) b)
      else k) r

/-- Does a command reach memory at an address without a fault to report? -/
def State.cmdPlain (s : State) (c : Cmd) (va : Nat) : Bool :=
  match heldPa c.pages va with
  | some pa => s.plainAt (s.teamAsid c.team) pa
  | none => false

/-- The words of the team's buffers, and of the rows of an `acc.ld`. -/
def State.cmdWords (s : State) (c : Cmd) : List (Option TBuf × Nat) :=
  let sh := (s.team c.team).share
  [TBuf.act, .wgt, .acc].flatMap (fun b => (List.range ((sh.buf b).2 / 4)).map (fun i => (some b, (sh.buf b).1 + 4 * i))) ++
    (if c.op = 0x11 then (c.rowRuns.flatMap (fun r => (List.range 64).map (fun i => (none, r.1 + 4 * i)))).filter
      (fun w => s.cmdPlain c w.2) else [])

/-- The words that a command reads before the others, as the step's free choices say. -/
def State.earlyWords (s : State) (c : Cmd) : List (Option TBuf × Nat) :=
  (s.cmdWords c).filter (fun w => !c.got.any (fun e => e.1 == bufKey w.1 w.2) && s.freeBit (2750 + 4096 * bufKey w.1 (w.2 / 4)))

/-- Hold what a command has read, has still to write and to send. -/
def State.putCmd (s : State) (core : Nat) (c : Cmd) : State :=
  s.modCore core (fun k => { k with queue := k.queue.map (fun x =>
    if x.uid = c.uid then { x with got := c.got, owed := c.owed, toSend := c.toSend } else x) })

/-- Read words before the others. -/
def State.readWords (s : State) (core : Nat) (c : Cmd) : List (Option TBuf × Nat) → State
  | [] => s.putCmd core c
  | (some b, a) :: r =>
    State.readWords s core { c with got := listBytes c.got (bufKey (some b) a) (getBytes ((s.core core).buf b) a 4) } r
  | (none, a) :: r =>
    match heldPa c.pages a with
    | none => State.readWords s core c r
    | some pa =>
      let (b, s) := s.homeRead pa 4
      State.readWords s core { c with got := listBytes c.got (bufKey none a) b } r

/-- Write elements of a command but for those of the words that `late` names, and answer those. -/
def State.putSome (s : State) (core : Nat) (c : Cmd) (late : Nat → Bool) (l : List Owed) : List Owed × State :=
  let owe (o : Owed) : Bool := l.all Owed.inWord && late o.word && (o.buf.isSome || s.cmdPlain c (o.place / 2))
  (l.filter owe, s.putOuts core c (l.filter (fun o => !owe o)))

/-- Write what a command owes of the words that `now` names, or all where it names none: what is left, and the state. -/
def State.payCmd (s : State) (core : Nat) (c : Cmd) (now : Nat → Bool) : List Owed × State :=
  let pick : Owed → Bool := if c.owed.any (fun o => now o.word) then fun o => now o.word else fun _ => true
  (c.owed.filter (fun o => !pick o), s.putOuts core c (c.owed.filter pick))

/-- The words that are written later than the others, and those of them that are written now. -/
def State.lateWord (s : State) (w : Nat) : Bool := s.freeBit (2751 + 4096 * w)
def State.payWord (s : State) (w : Nat) : Bool := s.freeBit (2752 + 4096 * w)

/-! ## Starting commands (R202) -/

/-- Is the engine free? -/
def Core.engineFree (k : Core) : Bool :=
  !k.rst && k.queue.all (fun c => c.phase != .started && c.phase != .landing)

/-- The eligible head that starts next: highest priority, then the earliest push. -/
def State.bestCmd (s : State) : List Cmd → Option Cmd
  | [] => none
  | c :: r =>
    match State.bestCmd s r with
    | none => some c
    | some b => if s.reqPrio c.gid c.team < s.reqPrio b.gid b.team then some b else some c

def State.nextCmd (s : State) (core : Nat) : Option Cmd :=
  if (s.core core).engineFree then s.bestCmd ((s.core core).queue.filter (fun c => c.phase == .eligible)) else none

/-- A command has started: its phase, and the progress of its team's commands (R216). -/
def State.started (s : State) (core : Nat) (c : Cmd) (p : CmdPhase) : State :=
  (s.modCore core (fun k => { k with queue := k.queue.map (fun x =>
    let x := if x.team = c.team then { x with since := s.clock } else x
    if x.uid = c.uid then { x with phase := p } else x) })).headsUp core

/-- The command at which a core's engine works: one that has begun, else the one that starts next. -/
def State.cmdNow (s : State) (core : Nat) : Option Cmd :=
  match (s.core core).queue.find? (fun c => c.phase == .started) with
  | some c => some c
  | none => s.nextCmd core

/-- What a command writes, as lists that follow one another: from the state, with the words that it has read before. -/
abbrev Outs : Type := Share → Cmd → State → List (List Owed) × State

/-- The same for a command that works on the core's own buffers. -/
def coreOuts (core : Nat) (f : Cmd → Share → Core → List Owed) : Outs := fun sh c s => ([f c sh ((s.core core).seenBy c.got)], s)

/-- Read what is left, and write what is not written later: what the command owes then, and the state. -/
def State.effect (s : State) (core : Nat) (c : Cmd) (late : Nat → Bool) (outs : Outs) : List Owed × State :=
  let (l, s) := outs (s.team c.team).share c s
  l.foldl (fun (o, s) b =>
    let (o', s) := s.putSome core c late b
    (o ++ o', s)) ([], s)

/-- One step of a command: it writes words that it owes, reads words before the others, or has its effect. When it owes nothing more, `fin`
says how it goes on. -/
def State.cmdStep (s : State) (core : Nat) (c : Cmd) (outs : Outs) (fin : State → State) : State :=
  let after (r : List Owed × State) : State :=
    let t := r.2.putCmd core { c with got := [], owed := r.1 }
    if r.1.isEmpty then fin t else t.started core c .started
  if !c.owed.isEmpty then after (s.payCmd core c s.payWord)
  else
    match s.earlyWords c with
    | [] => after (s.effect core c s.lateWord outs)
    | l => (s.readWords core c l).started core c .started

/-- The command at which the selected core works goes on if it is of the op. -/
def State.runCmd (s : State) (op : Nat) (outs : Outs) : State :=
  match s.cmdNow s.sel with
  | none => s
  | some c => if c.op = op then s.cmdStep s.sel c outs (fun t => t.started s.sel c .finished) else s

def execMma (s : State) : Out := .next (s.runCmd 1 (coreOuts s.sel Cmd.product))
def execMmaSp (s : State) : Out := .next (s.runCmd 2 (coreOuts s.sel Cmd.product))
def execMmaMx (s : State) : Out := .next (s.runCmd 3 (coreOuts s.sel Cmd.product))
def execAccZero (s : State) : Out := .next (s.runCmd 0x10 (coreOuts s.sel Cmd.zeroTile))
def execAccLd (s : State) : Out :=
  .next (s.runCmd 0x11 (fun sh c s =>
    let (l, s) := s.loadTile s.sel c sh
    ([l], s)))
def execAccSt (s : State) : Out :=
  .next (s.runCmd 0x12 (fun sh c s => ((List.range 64).map (c.storeRow sh ((s.core s.sel).seenBy c.got)), s)))
def execAccCvt (s : State) : Out := .next (s.runCmd 0x13 (coreOuts s.sel Cmd.convertTile))
def execTmov (s : State) : Out := .next (s.runCmd 0x20 (coreOuts s.sel Cmd.moveTile))
def execTtrans (s : State) : Out := .next (s.runCmd 0x21 (coreOuts s.sel Cmd.moveTile))
def execTsync (s : State) : Out := .next (s.runCmd 0x30 (fun _ _ s => ([], s)))

/-! ## `mmrot` (R209, R226, R227) -/

/-- The west and the north neighbour of a core (R5). -/
def westOf (core : Nat) : Nat := core / 4 * 4 + (core % 4 + 3) % 4
def northOf (core : Nat) : Nat := core / 16 * 16 + (core % 16 + 12) % 16

/-- Has the link out of a position stopped (R227)? DESIGN CHOICE (log 67): a link whose `TLSTAT` bit has been cleared carries data again. -/
def State.linkDown (s : State) (core : Nat) (north : Bool) : Bool :=
  (fget 0 s.tlstat (coreCluster core)).getLsbD (2 * (core % 16) + if north then 1 else 0)

/-- The elements of an operand in record order. -/
def operandElems (f : File Byte) (r : List Word) (base : Int) (off : Nat) : List Nat :=
  (List.range (recCount r)).map (fun e => nibGet f (base + recNibOf r (recW r) off e) (recW r))

/-- The stages of an `mmrot`, in their order: A goes west, B goes north, A lands from the east, B lands from the south. -/
inductive RotStage where
  | west | north | landA | landB
  deriving DecidableEq, Repr

/-- The stage's bit in what a command has still to do. -/
def RotStage.bit : RotStage → Nat
  | .west => 0 | .north => 1 | .landA => 2 | .landB => 3

/-- Write landed elements over an operand, in record order; excess elements are dropped. DESIGN CHOICE (log 54): elements of another
width than the receiver's type keep their low bits, or are extended with zeros; R209 speaks of their count alone. -/
def landed (b : TBuf) (r : List Word) (base : Int) (off : Nat) (l : List Nat) : List Owed :=
  ((List.range (recCount r)).zip l).map (fun e => ⟨some b, (base + recNibOf r (recW r) off e.1).toNat, recW r, e.2⟩)

/-- One stage of an `mmrot` on a core, with what it writes; `none` where it has to wait: a neighbour's landing buffer is full, the link has
stopped, or nothing has landed. A landing empties the buffer. -/
def State.rotStage (s : State) (core : Nat) (c : Cmd) (sh : Share) (st : RotStage) : Option (List Owed × State) :=
  let k := (s.core core).seenBy c.got
  match st with
  | .west =>
    if (s.core (westOf core)).landE.isSome || s.linkDown core false then none
    else some ([], s.modCore (westOf core) (fun n =>
      { n with landE := some (operandElems (k.buf c.aBuf) c.recA (Cmd.base sh c.aBuf) c.aOff) }))
  | .north =>
    if (s.core (northOf core)).landS.isSome || s.linkDown core true then none
    else some ([], s.modCore (northOf core) (fun n =>
      { n with landS := some (operandElems (k.buf c.bBuf) c.recB (Cmd.base sh c.bBuf) c.bOff) }))
  | .landA => k.landE.map (fun l =>
      (landed c.aBuf c.recA (Cmd.base sh c.aBuf) c.aOff l, s.modCore core (fun k => { k with landE := none })))
  | .landB => k.landS.map (fun l =>
      (landed c.bBuf c.recB (Cmd.base sh c.bBuf) c.bOff l, s.modCore core (fun k => { k with landS := none })))

/-- The stages that are left, one after another, as far as they can go: what is still to write, what is still to do, and the state. -/
def State.rotStages (s : State) (core : Nat) (c : Cmd) (sh : Share) (left : Nat) : List RotStage → List Owed × Nat × State
  | [] => ([], left, s)
  | st :: r =>
    if !left.testBit st.bit then State.rotStages s core c sh left r
    else match s.rotStage core c sh st with
      | none => ([], left, s)
      | some (l, t) =>
        let (o, t) := t.putSome core c t.lateWord l
        if o.isEmpty then State.rotStages t core c sh (left - 2 ^ st.bit) r else (o, left - 2 ^ st.bit, t)

/-- An `mmrot` with what is left of it, which completes when that is nothing. -/
def State.rotRest (s : State) (core : Nat) (c : Cmd) (owed : List Owed) (left : Nat) : State :=
  let t := s.putCmd core { c with owed := owed, toSend := left }
  if left = 0 && owed.isEmpty then t.started core c .finished
  else if left != c.toSend || owed != c.owed then t.started core c .landing
  else t

/-- Go on with an `mmrot` that owes nothing. -/
def State.rotGo (s : State) (core : Nat) (c : Cmd) : State :=
  let (o, left, t) := s.rotStages core c (s.team c.team).share c.toSend [.west, .north, .landA, .landB]
  t.rotRest core c o left

/-- Multiply; then send what can be sent. -/
def execMmrot (s : State) : Out :=
  .next (match s.cmdNow s.sel with
    | none => s
    | some c =>
      if c.op != 4 then s
      else
        let send := 5 * wfield c.d3 8 2
        s.cmdStep s.sel c (coreOuts s.sel Cmd.product) (fun t =>
          (t.started s.sel c .landing).rotGo s.sel { c with got := [], owed := [], toSend := send }))

/-- The `mmrot` in execution on the selected core goes on: it writes words that it owes, reads words that it has to send before the others, or
takes its next stages. -/
def execMmrotLanding (s : State) : Out :=
  .next (match (s.core s.sel).queue.find? (fun c => c.phase == .landing) with
    | none => s
    | some c =>
      if !c.owed.isEmpty then
        let (o, t) := s.payCmd s.sel c s.payWord
        t.rotRest s.sel c o c.toSend
      else if c.toSend % 4 = 0 then s.rotGo s.sel c
      else match s.earlyWords c with
        | [] => s.rotGo s.sel c
        | l => s.readWords s.sel c l)

/-! ## Completion, reset and discards (R203, R215 to R217) -/

/-- Remove a command from a core's queue, and from the waiter list of its semaphore. -/
def State.dropCmd (s : State) (core : Nat) (c : Cmd) : State :=
  let s := s.modCore core (fun k => { k with queue := k.queue.filter (fun x => x.uid != c.uid) })
  if c.phase == .listed then s.semLeave core ((s.team c.team).share.semBase + c.wsem) (.cmd c.uid) else s

/-- A command completes and signals; of those whose effect is done, any may complete next. -/
def execMatrixCommandComplete (s : State) : Out :=
  let done := (s.core s.sel).queue.filter (fun c => c.phase == .finished)
  match done[s.freeNat 2000 % max done.length 1]? with
  | none => .next s
  | some c =>
    let s := s.dropCmd s.sel c
    .next (if c.sen then s.semSignal s.sel ((s.team c.team).share.semBase + c.ssem) c.sinc else s)

/-- Discard a team's commands that have not started; they do not signal. -/
def State.discardUnstarted (s : State) (core team : Nat) : State :=
  (((s.core core).queue.filter (fun c => c.team == team && c.phase.waiting)).foldl (fun s c => s.dropCmd core c) s).headsUp core

/-- Commands of a team. -/
def State.teamCmds (s : State) (team : Nat) : List Cmd := (s.core (s.team team).core).queue.filter (fun c => c.team == team)

/-- A team without harts whose commands have stood still for 2^20 ck loses them (R216). -/
def execStrandedCommandDiscard (s : State) : Out :=
  let t := s.sel
  let core := (s.team t).core
  if (s.teamHarts t).isEmpty && !(s.teamCmds t).isEmpty && 
      (s.teamCmds t).all (fun c => c.phase != .started && c.phase != .landing && decide (c.since + 2 ^ 20 ≤ s.clock)) then
    .next (((s.teamCmds t).foldl (fun s c => s.dropCmd core c) s).headsUp core)
  else .next s

/-- Teams that a reset of a core's engine affects: a command in the queue, or an accumulator share (R215). -/
def State.resetTeams (s : State) (core : Nat) : List Team :=
  s.teams.filter (fun t => t.core == core && (t.phase == .running || t.phase == .evicting) &&
    (decide (0 < t.share.accSize) || (s.core core).queue.any (fun c => c.team == t.id)))

/-- Remove the commands of a core's engine that teams have pushed, and their entries in waiter lists; counts and the other waiters stay as
they stand (R184, R215). -/
def Core.clearCmds (k : Core) (teams : List Nat) : Core :=
  let gone := (k.queue.filter (fun c => teams.contains c.team)).map (fun c => SemWho.cmd c.uid)
  { k with
    queue := k.queue.filter (fun c => !teams.contains c.team)
    sems := k.sems.map (fun e => (e.1, { e.2 with list := e.2.list.filter (fun w => !gone.contains w.who) })) }

/-- The engine is reset: commands discarded, accumulator shares lost, interrupt 16 to every hart of the affected teams. -/
def State.engineReset (s : State) (core : Nat) : State :=
  let ts := s.resetTeams core
  let s := s.modCore core (fun k => k.clearCmds (ts.map Team.id))
  let s := ts.foldl (fun s t => s.modCore core (fun k =>
    { k with acc := putBytes k.acc t.share.accBase (List.replicate t.share.accSize 0) })) s
  let s := (s.resident.filter (fun h => ts.any (fun t => t.id == h.team))).foldl
    (fun s h => s.modHart h.gid (fun h => h.modCsr (fun c => { c with mip := wputb c.mip 16 true }))) s
  s.modCore core (fun k => { k with rst := true, landE := none, landS := none })

/-- A started command of the selected core without progress for 2^20 ck. -/
def execMatrixEngineHangReset (s : State) : Out :=
  if (s.core s.sel).queue.any (fun c => (c.phase == .started || c.phase == .landing) && decide (c.since + 2 ^ 20 ≤ s.clock)) then
    .next (s.engineReset s.sel)
  else .next s

/-- The reset window closes. -/
def execMatrixResetDone (s : State) : Out :=
  .next ((s.modCore s.sel (fun k => { k with rst := false })).headsUp s.sel)

end Sys2Proof.Machine
end

