-- ==== Sys2Proof/Machine/Queues.lean ====
section
/-! DEFINITION. Queue control blocks, the queue controller, the queue instructions, tickets and notify pages (R276 to R290). -/
namespace Sys2Proof.Machine

/-! ## The check code (R277) -/

/-- The bits of a byte, most significant first. -/
def byteBits (b : Byte) : List Bool := (List.range 8).map (fun i => b.getMsbD i)

/-- Bits into the CRC-16 with polynomial 0x1021. -/
def crcBits (c : BitVec 16) : List Bool → BitVec 16
  | [] => c
  | b :: l => if c.msb != b then crcBits ((c <<< 1) ^^^ 0x1021#16) l else crcBits (c <<< 1) l

/-- The check code of a QCB's bytes 0x02 to 0x7F, most significant bit first. -/
def crc16 (l : List Byte) : BitVec 16 := crcBits 0xFFFF#16 (l.flatMap byteBits)

/-! ## The block (R276) -/

structure Qcb where
  lcap  : Nat
  esz   : Nat
  scope : Nat
  md    : Bool
  ne    : Bool
  qr    : Bool
  nf    : Bool
  asid  : Nat
  base  : Nat
  head  : Nat
  tail  : Nat
  rsv   : Nat
  cmt   : Word
  abn   : Word
  skip  : Word
  abcnt : Nat
  free  : Nat
  nhart : Nat
  deriving DecidableEq, Repr

/-- The fields of a block held as doublewords. -/
def qcbParse (w : List Word) : Qcb where
  lcap := wfield (dw w 0) 16 5
  esz := wfield (dw w 0) 24 6
  scope := wfield (dw w 0) 32 3
  md := wbit (dw w 0) 35
  ne := wbit (dw w 0) 36
  qr := wbit (dw w 0) 37
  nf := wbit (dw w 0) 38
  asid := wfield (dw w 0) 48 16
  base := (dw w 1).toNat
  head := (dw w 2).toNat
  tail := (dw w 3).toNat
  rsv := (dw w 4).toNat
  cmt := dw w 5
  abn := dw w 6
  skip := dw w 7
  abcnt := wfield (dw w 8) 0 32
  free := wfield (dw w 8) 32 25
  nhart := wfield (dw w 9) 0 15

/-- A flag as a number. -/
def flag (b : Bool) (v : Nat) : Nat := if b then v else 0

/-- The doublewords of a block, the check code left 0. -/
def Qcb.words (q : Qcb) : List Word :=
  [BitVec.ofNat 64 (q.lcap * 2 ^ 16 + q.esz * 2 ^ 24 + q.scope * 2 ^ 32 + flag q.md (2 ^ 35) + flag q.ne (2 ^ 36) +
      flag q.qr (2 ^ 37) + flag q.nf (2 ^ 38) + q.asid * 2 ^ 48),
    BitVec.ofNat 64 q.base, BitVec.ofNat 64 q.head, BitVec.ofNat 64 q.tail, BitVec.ofNat 64 q.rsv, q.cmt, q.abn, q.skip,
    BitVec.ofNat 64 (q.abcnt + q.free * 2 ^ 32), BitVec.ofNat 64 q.nhart, 0, 0, 0, 0, 0, 0]

/-- Bytes with the check code in place. -/
def checked (l : List Byte) : List Byte := natToBytes 2 (crc16 (l.drop 2)).toNat ++ l.drop 2

def Qcb.bytes (q : Qcb) : List Byte := checked (dwordBytes q.words)

/-- Element size in bytes and capacity in slots. -/
def Qcb.size (q : Qcb) : Nat := 4 * (q.esz + 1)
def Qcb.cap (q : Qcb) : Nat := 2 ^ q.lcap
/-- The physical address of the slot of a sequence. -/
def Qcb.slot (q : Qcb) (s : Nat) : Nat := q.base + s % q.cap * q.size
def Qcb.window (q : Qcb) : Nat := 64 - (q.rsv - q.tail)

def popWord (w : Word) : Nat := ((List.range 64).filter (fun i => w.getLsbD i)).length

/-- Elements that can be taken. -/
def Qcb.avail (q : Qcb) : Nat :=
  (q.tail - q.head) - ((List.range 64).filter (fun i => decide (i < q.tail - q.head) && q.skip.getLsbD i)).length

/-- Reserved fields of a block's doublewords that are not 0. -/
def qcbReserved (w : List Word) : Bool :=
  wfield (dw w 0) 21 3 != 0 || wfield (dw w 0) 30 2 != 0 || wfield (dw w 0) 39 9 != 0 || wfield (dw w 1) 0 7 != 0 ||
  wfield (dw w 1) 52 12 != 0 || wfield (dw w 8) 57 7 != 0 || wfield (dw w 9) 15 49 != 0 ||
  (List.range 6).any (fun i => dw w (10 + i) != 0)

/-- Is the block corrupt (R277)? -/
def qcbCorrupt (l : List Byte) : Bool :=
  let w := dwords 16 l
  let q := qcbParse w
  wfield (dw w 0) 0 16 != (crc16 (l.drop 2)).toNat || qcbReserved w || decide (24 < q.lcap) || q.scope == 0 ||
  decide (6 ≤ q.scope) || (q.md && decide (q.scope < 4)) || decide (q.tail < q.head) || decide (q.rsv < q.tail) ||
  decide (q.cap < q.rsv - q.head) || decide (64 < q.rsv - q.tail) || q.free != q.cap - (q.rsv - q.head) ||
  (q.cmt ||| q.abn).toNat >>> (q.rsv - q.tail) != 0 || (q.abn &&& ~~~q.cmt) != 0

/-! ## advance and take (R278) -/

/-- Publish committed slots at the tail; the fuel is the window's 64 slots. -/
def advanceFrom : Nat → Qcb → Qcb
  | 0, q => q
  | n + 1, q =>
    if q.cmt.getLsbD 0 && !(q.abn.getLsbD 0 && decide (64 ≤ q.tail - q.head)) then
      advanceFrom n { q with
        skip := if q.abn.getLsbD 0 then q.skip ||| (1#64 <<< (q.tail - q.head)) else q.skip
        tail := q.tail + 1, cmt := q.cmt >>> 1, abn := q.abn >>> 1 }
    else q

def Qcb.advance (q : Qcb) : Qcb := advanceFrom 64 q

/-- Pass over abandoned slots at the head. -/
def passSkipped : Nat → Qcb → Qcb
  | 0, q => q
  | n + 1, q =>
    if q.skip.getLsbD 0 then passSkipped n { q with head := q.head + 1, free := q.free + 1, skip := q.skip >>> 1 } else q

/-- Take one element: the address of its slot, and the block after that. -/
def Qcb.take (q : Qcb) : Nat × Qcb :=
  let q := passSkipped 64 q
  (q.slot q.head, ({ q with head := q.head + 1, free := q.free + 1, skip := q.skip >>> 1 }).advance)

/-- Reserve one slot and commit it at once: its address, and the block after that. -/
def Qcb.put (q : Qcb) : Nat × Qcb :=
  (q.slot q.rsv, ({ q with rsv := q.rsv + 1, free := q.free - 1, cmt := q.cmt ||| (1#64 <<< (q.rsv - q.tail)) }).advance)

/-! ## The controller at the home slice -/

/-- The bytes of a block as the controller reads them. -/
def State.qcbBytes (s : State) (pa : Nat) : List Byte × State := s.readAt pa 128

/-- Write a block with its check code, and send the not-empty event where elements have become available (R281). -/
def State.qcbWrite (s : State) (pa : Nat) (old q : Qcb) : State :=
  let s := s.writeAt .other pa q.bytes
  if old.avail = 0 && decide (0 < q.avail) && q.ne && (s.hartOf q.nhart).run.isHart && (s.hartOf q.nhart).asid == q.asid then
    s.sendUi q.nhart ⟨2, BitVec.ofNat 64 pa, 0, none, none⟩
  else s

/-- The pieces of a range that lie in one line each: offset and length. -/
def lineSpans (pa n : Nat) : List (Nat × Nat) :=
  (List.range ((pa % 128 + n + 127) / 128)).map (fun k =>
    let a := max pa (128 * (pa / 128 + k))
    (a - pa, min (pa + n) (128 * (pa / 128 + k) + 128) - a))

/-- Read a slot for the queue's context: a piece that the checks of R372 and R377 refuse, or of a lost line, reads 0 (R236). -/
def State.slotRead (s : State) (q : Qcb) (pa n : Nat) : List Byte × State :=
  (lineSpans pa n).foldl (fun (r : List Byte × State) e =>
    match r.2.dieRead (sliceDie (homeSlice (paLow pa))) q.asid false (pa + e.1) e.2 with
    | (some b, s) => (r.1 ++ b, s)
    | (none, s) => (r.1 ++ List.replicate e.2 0, s)) ([], s)

/-- Write a slot for the queue's context: a refused piece is discarded and posted. -/
def State.slotWrite (s : State) (q : Qcb) (pa : Nat) (b : List Byte) : State :=
  (lineSpans pa b.length).foldl (fun s e =>
    (s.dieWrite .other (sliceDie (homeSlice (paLow pa))) q.asid (pa + e.1) ((b.drop e.1).take e.2)).2) s

/-- Put elements into consecutive slots. -/
def State.putElems (s : State) (q : Qcb) : List (List Byte) → Qcb × State
  | [] => (q, s)
  | e :: r =>
    let t := q.put
    State.putElems (s.slotWrite q t.1 (e.take q.size)) t.2 r

/-- Take elements. -/
def State.takeElems (s : State) (q : Qcb) : Nat → List (List Byte) × Qcb × State
  | 0 => ([], q, s)
  | n + 1 =>
    let t := q.take
    let (b, s) := s.slotRead q t.1 q.size
    let (l, q, s) := State.takeElems s t.2 n
    (b :: l, q, s)

/-- The words that a `qdeq.m` has received, each behind the physical address that it goes to. -/
def memResults (dst : List Nat) (b : List Byte) : List Word :=
  (dst.zip (List.range dst.length)).flatMap (fun e => [BitVec.ofNat 64 e.1, BitVec.ofNat 64 (leNat ((b.drop (4 * e.2)).take 4))])

/-- Deliver a dequeue to its hart: a register value, lane elements, or words for memory, which are written when the hart retires; an acquire at
the queue's scope. -/
def State.deliver (s : State) (w : QWait) (q : Qcb) (els : List (List Byte)) : State :=
  let vals := els.map (fun b => BitVec.ofNat 64 (leNat (b.take 8)))
  (s.acquire w.gid (scopeOf q.scope)).modHart w.gid (fun h => { h with
    answer := some (vals.headD 0), results := if w.dst.isEmpty then vals else memResults w.dst (els.headD []) })

/-- Does the condition of a request hold (R281)? -/
def Qcb.canServe (q : Qcb) (w : QWait) : Bool :=
  if w.enq then decide (w.n ≤ q.window) && decide (w.n ≤ q.free) else decide (w.n ≤ q.avail)

/-- Perform a request whose condition holds. -/
def State.performQ (s : State) (w : QWait) (q : Qcb) : State :=
  if w.enq then
    let (q', s) := s.putElems q w.elems
    (s.qcbWrite w.qcb q q').modHart w.gid (fun h => { h with answer := some 0 })
  else
    let (els, q', s) := s.takeElems q w.n
    (s.qcbWrite w.qcb q q').deliver w q els

/-- The head of a waiter list: highest priority, then arrival (R282). -/
def frontWait : List QWait → Option QWait
  | [] => none
  | w :: r =>
    match frontWait r with
    | none => some w
    | some b => some (if w.prio < b.prio then b else w)

/-- The head of a queue's list in one direction. -/
def State.qHead (s : State) (pa : Nat) (enq : Bool) : Option QWait :=
  frontWait (s.qwaits.filter (fun w => w.qcb == pa && w.enq == enq))

/-- The head that can proceed, if any; a corrupt or quarantined block serves none. -/
def State.qServable (s : State) (pa : Nat) : Option (QWait × Qcb) :=
  let l := s.peek pa 128
  let q := qcbParse (dwords 16 l)
  if qcbCorrupt l || q.qr then none
  else
    let ok (w : Option QWait) : Option (QWait × Qcb) :=
      match w with
      | some w => if q.canServe w then some (w, q) else none
      | none => none
    match ok (s.qHead pa true) with
    | some r => some r
    | none => ok (s.qHead pa false)

/-- Does the refusal of R372 or R377 meet an access to the block for the context that it names? -/
def State.qcbRefused (s : State) (pa : Nat) : Bool :=
  (s.refusal pa (qcbParse (dwords 16 (s.peek pa 128))).asid).isSome || s.region (paLow pa) != .hbm

/-- Serve one waiter; a block that the checks refuse is not read (R405). -/
def State.serveOne (s : State) (pa : Nat) : Option State :=
  if s.qcbRefused pa then none
  else
    let s := s.ready pa 128
    match s.qServable pa with
    | none => none
    | some (w, q) => some (({ s with qwaits := s.qwaits.filter (fun e => e.gid != w.gid) }).performQ w q)

/-- Serve waiters until neither head can proceed: no other operation comes between (R282). -/
def State.serveAll (s : State) (pa : Nat) : Nat → State
  | 0 => s
  | n + 1 =>
    match s.serveOne pa with
    | none => s
    | some s => State.serveAll s pa n

/-- A block ready for the next operation: the waiters of an earlier change have been served. -/
def State.qSettle (s : State) (pa : Nat) : State := s.serveAll pa (s.qwaits.length + 1)

/-- The block in whose wait table a hart's request stands is ready for an event that meets the wait: a request whose condition an earlier change
met has been performed (R282, R289). -/
def State.qMeets (s : State) (g : Nat) : State :=
  match (s.hartOf g).run with
  | .waiting (.queueEnq pa) | .waiting (.queueDeq pa) => s.qSettle pa
  | _ => s

/-- The controller of the selected block serves the head of a list. -/
def execQueueWaiterServed (s : State) : Out :=
  match s.serveOne s.sel with
  | none => .next s
  | some t => .next t

/-- A refused request of the selected hart is sent again; until it is served the hart still waits (R301). -/
def execQueueRetry (s : State) : Out :=
  match (s.hartOf s.sel).run with
  | .waiting (.queueRetry p e _) => .next (s.modHart s.sel (fun h => { h with run := .waiting (.queueRetry p e true) }))
  | _ => .next s

/-! ## Requests of a hart (R280) -/

/-- What a request does beyond its own element sizes and direction. -/
inductive QForm where
  /-- 4 or 8 bytes through a register -/
  | reg
  /-- lane forms of 4 or of 8 bytes -/
  | lane (dbl : Bool)
  /-- any element size -/
  | any
  deriving DecidableEq, Repr

/-- Steps 1 and 2 of R280: the block's physical address. -/
def State.qAddr (s : State) (va : Word) : Except TrapInfo Nat × State :=
  if va.toNat % 128 != 0 then (.error ⟨6, 0, va⟩, s)
  else match s.dataPa s.hart.mode .store va with
    | (.error t, s) => (.error t, s)
    | (.ok pa, s) =>
      if s.region (paLow pa) != .hbm then (.error ⟨7, 0, va⟩, s)
      else match s.lostTrap .store va pa with
        | some t => (.error t, s)
        | none => (.ok pa, s)

/-- The refusals of the controller in the order of R280; `produce` marks the operations that a notify-fed queue refuses. -/
def State.qCheck (s : State) (pa : Nat) (va : Word) (form : QForm) (produce : Bool) (k : Qcb → State → State) : State :=
  let s := s.qSettle pa
  let (l, s) := s.qcbBytes pa
  let q := qcbParse (dwords 16 l)
  if q.asid != s.hart.asid || (!q.md && s.dieNo != sliceDie (homeSlice (paLow pa))) || (q.nf && produce) then
    s.trap ⟨7, 0, va⟩
  else if qcbCorrupt l || q.qr then
    (s.writeAt .other pa (checked (dwordBytes ((dwords 16 l).set 0 (wputb (dw (dwords 16 l) 0) 37 true))))).trap ⟨25, 0, 0⟩
  else
    let bad := match form with
      | .reg => decide (1 < q.esz)
      | .lane d => q.esz != (if d then 1 else 0)
      | .any => false
    if bad then s.illegal else k q s

/-- Is a waiter of the direction ahead of a request at a priority (R281)? -/
def State.qAhead (s : State) (pa : Nat) (enq : Bool) (prio : Nat) : Bool :=
  s.qwaits.any (fun w => w.qcb == pa && w.enq == enq && decide (prio ≤ w.prio))

/-- Perform a request at once, or enter the wait table, or be told to retry (R281, R282). `fin` finishes the instruction. -/
def State.qRequest (s : State) (pa : Nat) (q : Qcb) (enq : Bool) (elems : List (List Byte)) (n : Nat) (dst : List Nat)
    (fin : State → State) : State :=
  let slice := homeSlice (paLow pa)
  let w : QWait := ⟨slice, pa, s.hart.gid, s.prio s.hart, s.hart.asid, enq, elems, n, dst⟩
  let s := if enq then s.release s.hart.gid else s
  if q.canServe w && !s.qAhead pa enq w.prio then fin (s.performQ w q)
  else if 512 ≤ (s.qwaits.filter (fun e => e.slice == slice)).length then s.wait (.queueRetry pa enq false)
  else ({ s with qwaits := s.qwaits ++ [w] }).wait (if enq then .queueEnq pa else .queueDeq pa)

/-- Does the run state hold a request back: it waits, and not for a refused request that is now sent again? -/
def Run.qHeld : Run → Bool
  | .waiting (.queueRetry _ _ again) => !again
  | .waiting .stream | .waiting (.far _) => false
  | .waiting _ => true
  | _ => false

/-- Is the answer that has arrived a queue's, and not that of a load held at a port? -/
def Run.qDone (r : Run) (answer : Option Word) : Bool :=
  answer.isSome && (match r with | .waiting (.far _) => false | _ => true)

/-- A queue instruction that waits when it must: a result that has arrived finishes it, else the request is made. -/
def State.qOrFinish (s : State) (fin : State → State) (ask : State → State) : State :=
  s.notM (if s.hart.run.qDone s.hart.answer then fin s else if s.hart.run.qHeld then s else ask s)

/-- With the block's address, or the trap of R280. -/
def State.withQueue (s : State) (rs1 : XReg) (k : Nat → Word → State → State) : State :=
  let va := s.getX rs1
  match s.qAddr va with
  | (.error t, s) => s.trap t
  | (.ok pa, s) => k pa va s

/-- The element of a register for a block's element size. -/
def regElem (v : Word) : List Byte := natToBytes 8 v.toNat

def execQenqX (rs1 rs2 : XReg) (s : State) : Out :=
  .next (s.qOrFinish State.retire (fun s => s.withQueue rs1 (fun pa va s =>
    s.qCheck pa va .reg true (fun q s => s.qRequest pa q true [regElem (s.getX rs2)] 1 [] State.retire))))

/-- The dequeued element goes to rd. -/
def State.deqFin (rd : XReg) (s : State) : State := (s.setX rd (s.hart.answer.getD 0)).retire

def execQdeqX (rd rs1 : XReg) (s : State) : Out :=
  .next (s.qOrFinish (State.deqFin rd) (fun s => s.withQueue rs1 (fun pa va s =>
    s.qCheck pa va .reg false (fun q s => s.qRequest pa q false [] 1 [] (State.deqFin rd)))))

/-- Read words of 4 bytes by hart loads. -/
def State.loadUnits4 (s : State) (va : Word) : Nat → Except TrapInfo (List Byte) × State
  | 0 => (.ok [], s)
  | n + 1 =>
    match s.hartPa .load va with
    | (.error t, s) => (.error t, s)
    | (.ok pa, s) =>
      match s.region (paLow pa) with
      | .regs _ | .notify _ => (.error ⟨5, 0, va⟩, s)
      | _ =>
        let (b, s) := s.hartRead pa 4
        match State.loadUnits4 s (va + 4) n with
        | (.error t, s) => (.error t, s)
        | (.ok l, s) => (.ok (b ++ l), s)

/-- Translate words of 4 bytes as stores: their physical addresses. -/
def State.storeUnits4 (s : State) (va : Word) : Nat → Except TrapInfo (List Nat) × State
  | 0 => (.ok [], s)
  | n + 1 =>
    match s.hartPa .store va with
    | (.error t, s) => (.error t, s)
    | (.ok pa, s) =>
      match s.region (paLow pa) with
      | .regs _ | .notify _ => (.error ⟨7, 0, va⟩, s)
      | _ =>
        match State.storeUnits4 s (va + 4) n with
        | (.error t, s) => (.error t, s)
        | (.ok l, s) => (.ok (pa :: l), s)

/-- The element size that the `.m` forms read from doubleword 0 of the block: how many words of 4 bytes. -/
def State.qWords (s : State) (pa : Nat) : Nat := wfield (dwordOf (s.readAt pa 8).1) 24 6 + 1

def execQenqM (rs1 rs2 : XReg) (s : State) : Out :=
  .next (s.qOrFinish State.retire (fun s => s.withQueue rs1 (fun pa va s =>
    let n := s.qWords pa
    let e := s.getX rs2
    if e.toNat % 4 != 0 then s.trap ⟨4, 0, e⟩
    else s.holdLoads (s.loadPorts 4 e n) (fun s =>
      match s.loadUnits4 e n with
      | (.error t, s) => s.trap t
      | (.ok b, s) => s.qCheck pa va .any true (fun q s => s.qRequest pa q true [b] 1 [] State.retire)))))

/-- The words that a `qdeq.m` has received go to memory as it retires. -/
def State.putResults (s : State) : List Word → State
  | a :: v :: r => State.putResults (s.engineWrite s.clusterNo s.hart.asid a.toNat (natToBytes 4 v.toNat)).2 r
  | _ => s

def State.deqMemFin (s : State) : State := (s.putResults s.hart.results).retire

def execQdeqM (rs1 rs2 : XReg) (s : State) : Out :=
  .next (s.qOrFinish State.deqMemFin (fun s => s.withQueue rs1 (fun pa va s =>
    let n := s.qWords pa
    let e := s.getX rs2
    if e.toNat % 4 != 0 then s.trap ⟨6, 0, e⟩
    else match s.storeUnits4 e n with
      | (.error t, s) => s.trap t
      | (.ok d, s) => s.qCheck pa va .any false (fun q s => s.qRequest pa q false [] 1 d State.deqMemFin))))

def execQtenq (rd rs1 rs2 : XReg) (s : State) : Out :=
  .next (s.notM (s.withQueue rs1 (fun pa va s => s.qCheck pa va .reg true (fun q s =>
    if 1 ≤ q.window && 1 ≤ q.free && !s.qAhead pa true (s.prio s.hart) then
      let (q', s) := (s.release s.hart.gid).putElems q [regElem (s.getX rs2)]
      ((s.qcbWrite pa q q').setX rd 0).retire
    else (s.setX rd 1).retire))))

def execQtdeq (rd rs1 rs2 : XReg) (s : State) : Out :=
  .next (s.notM (s.withQueue rs1 (fun pa va s => s.qCheck pa va .reg false (fun q s =>
    if 1 ≤ q.avail && !s.qAhead pa false (s.prio s.hart) then
      let (els, q', s) := s.takeElems q 1
      let s := (s.qcbWrite pa q q').acquire s.hart.gid (scopeOf q.scope)
      ((s.setX rs2 (BitVec.ofNat 64 (leNat ((els.headD []).take 8)))).setX rd 0).retire
    else (s.setX rd 1).retire))))

/-! ## Tickets (R281, R289) -/

def execQrsv (rd rs1 : XReg) (s : State) : Out :=
  .next (s.notM (s.withQueue rs1 (fun pa va s => s.qCheck pa va .any true (fun q s =>
    let slice := homeSlice (paLow pa)
    if 1 ≤ q.window && 1 ≤ q.free && !s.qAhead pa true (s.prio s.hart) &&
        decide ((s.tickets.filter (fun t => t.slice == slice)).length < 256) then
      let q' : Qcb := { q with rsv := q.rsv + 1, free := q.free - 1 }
      let s := (s.qcbWrite pa q q'.advance)
      let s := { s with tickets := s.tickets ++ [Ticket.mk slice pa q.rsv s.hart.team s.hart.asid] }
      (s.setX rd (BitVec.ofNat 64 q.rsv)).retire
    else (s.setX rd 0xFFFFFFFFFFFFFFFF#64).retire))))

/-- Set the commit bit of a sequence, and its abandon bit where it is abandoned. -/
def Qcb.commit (q : Qcb) (seq : Nat) (abandon : Bool) : Qcb :=
  let b : Word := 1#64 <<< (seq - q.tail)
  ({ q with
    cmt := q.cmt ||| b, abn := if abandon then q.abn ||| b else q.abn
    abcnt := if abandon then (q.abcnt + 1) % 2 ^ 32 else q.abcnt }).advance

def execQcmt (rs1 rs2 : XReg) (s : State) : Out :=
  .next (s.notM (s.withQueue rs1 (fun pa va s => s.qCheck pa va .any true (fun q s =>
    let t := (s.getX rs2).toNat
    if s.tickets.any (fun e => e.qcb == pa && e.seq == t) then
      let s := { s.release s.hart.gid with tickets := s.tickets.filter (fun e => !(e.qcb == pa && e.seq == t)) }
      (s.qcbWrite pa q (q.commit t false)).retire
    else s.illegal))))

/-- Abandon one ticket; a corrupt or quarantined block is left as it is. -/
def State.abandon (s : State) (t : Ticket) : State :=
  let s := { (s.qSettle t.qcb) with tickets := s.tickets.filter (fun e => e != t) }
  let (l, s) := s.qcbBytes t.qcb
  let q := qcbParse (dwords 16 l)
  if qcbCorrupt l || q.qr then s else s.qcbWrite t.qcb q (q.commit t.seq true)

/-- Abandon the tickets that satisfy a condition. -/
def State.abandonAll (s : State) (p : Ticket → Bool) : State := (s.tickets.filter p).foldl State.abandon s

/-! ## `qstat`, `qinit`, `qdrain` (R284 to R286) -/

def execQstat (rd rs1 : XReg) (s : State) : Out :=
  .next (s.notM (s.withQueue rs1 (fun pa va s => s.qCheck pa va .any false (fun q s =>
    (s.setX rd (BitVec.ofNat 64 ((q.tail - q.head) % 2 ^ 25 + q.free % 2 ^ 25 * 2 ^ 25 +
      flag (s.qHead pa true).isSome (2 ^ 50) + flag (s.qHead pa false).isSome (2 ^ 51) + (q.rsv - q.tail) * 2 ^ 52))).retire))))

/-- The harts named by removed wait-table entries execute their instructions again. -/
def State.requeue (s : State) (p : QWait → Bool) : State :=
  let gone := s.qwaits.filter p
  gone.foldl (fun s w => s.modHart w.gid (fun h => { h with run := .ready }))
    { s with qwaits := s.qwaits.filter (fun w => !p w) }

/-- Do the fields of a parameter block pass R284? -/
def qparamOk (b : List Word) : Bool :=
  let size := wfield (dw b 1) 8 8
  let esize := if size = 0 then 256 else size
  (dw b 0).toNat % 128 == 0 && decide (wfield (dw b 1) 0 8 ≤ 24) && esize % 4 == 0 &&
  decide (1 ≤ wfield (dw b 1) 16 8) && decide (wfield (dw b 1) 16 8 ≤ 5) && wfield (dw b 1) 26 6 == 0 &&
  wfield (dw b 1) 32 32 == 0 && wfield (dw b 2) 15 49 == 0 && (wbit (dw b 1) 25 || dw b 2 == 0) && dw b 3 == 0 &&
  (!wbit (dw b 1) 24 || decide (4 ≤ wfield (dw b 1) 16 8))

/-- The leaf page of an address, in bits; untranslated addresses have none. -/
def State.leafOf (s : State) (va : Word) : Nat :=
  match s.translateAs s.hart s.clusterNo (s.hart.agent s.hart.mode) .store va with
  | (.ok x, _) => x.leaf
  | _ => 0

def execQinit (rs1 rs2 : XReg) (s : State) : Out :=
  .next (s.notM (s.withQueue rs1 (fun pa _ s =>
    let pb := s.getX rs2
    if pb.toNat % 32 != 0 then s.trap ⟨4, 0, pb⟩
    else s.holdLoads (s.loadPorts 8 pb 4) (fun s => match s.loadBlock pb 4 with
      | (.error t, s) => s.trap t
      | (.ok b, s) =>
        if !qparamOk b then s.engineFault 4
        else
          let ring := dw b 0
          match s.dataPa s.hart.mode .store ring with
          | (.error t, s) => s.trap t
          | (.ok base, s) =>
            let lcap := wfield (dw b 1) 0 8
            let size := if wfield (dw b 1) 8 8 = 0 then 256 else wfield (dw b 1) 8 8
            let bytes := 2 ^ lcap * size
            let leaf := s.leafOf ring
            if s.region (paLow base) != .hbm || s.region (paLow (base + bytes - 1)) != .hbm ||
                decide (2 ^ leaf < ring.toNat % 2 ^ leaf + bytes) then s.engineFault 4
            else
              let s := s.qSettle pa
              let (l, s) := s.qcbBytes pa
              let nf := wbit (dwordOf l) 38
              let q : Qcb := ⟨lcap, size / 4 - 1, wfield (dw b 1) 16 8, wbit (dw b 1) 24, wbit (dw b 1) 25, false, nf,
                s.hart.asid, base, 0, 0, 0, 0, 0, 0, 0, 2 ^ lcap, wfield (dw b 2) 0 15⟩
              let s := s.writeAt .other pa q.bytes
              (({ s with tickets := s.tickets.filter (fun t => t.qcb != pa) }).requeue (fun w => w.qcb == pa)).retire))))

def execQdrain (rd rs1 : XReg) (s : State) : Out :=
  if s.hart.mode != .s || (s.getX rs1).toNat / 65536 != 0 then .next s.illegal
  else
    let a := (s.getX rs1).toNat
    let s := (((s.qwaits.filter (fun w => w.asid == a)).map QWait.qcb).eraseDups).foldl State.qSettle s
    let n := (s.qwaits.filter (fun w => w.asid == a)).length
    let m := (s.tickets.filter (fun t => t.asid == a)).length
    .next ((((s.requeue (fun w => w.asid == a)).abandonAll (fun t => t.asid == a)).setX rd
      (BitVec.ofNat 64 (n % 2 ^ 32 + m % 2 ^ 32 * 2 ^ 32))).retire)

/-! ## Lane queue forms (R283) -/

/-- The values of a dequeue in its lanes, as lane results of one or two registers. -/
def laneOuts (vd : LOp) (dbl : Bool) (ls : List Nat) (vals : List Word) : List (Nat × (Nat → Lane)) :=
  let at_ (i : Nat) : Word := (((ls.zip vals).find? (fun e => e.1 == i)).map Prod.snd).getD 0
  (vd.toNat, fun i => (at_ i).setWidth 32) :: (if dbl then [(vd.toNat + 1, fun i => ((at_ i) >>> 32).setWidth 32)] else [])

/-- The registers of a lane queue operand. -/
def queueRegs (vd : LOp) (dbl : Bool) : List Nat := if dbl then [vd.toNat, vd.toNat + 1] else [vd.toNat]

/-- A push to write streams that would fault, found before anything is dequeued. -/
def State.pushFaults (s : State) (act : Mask) (vd : LOp) (dbl : Bool) : List (Nat × TrapInfo) :=
  laneFaults (s.pushChecks act ((queueRegs vd dbl).map (fun r => (r, fun _ => 0)))).1

/-- `vqenq`: one element of every active lane, in ascending order. -/
def execVqenq (p : LaneHdr) (dbl : Bool) (xq : XReg) (vd : LOp) (s : State) : Out :=
  .next (s.notM (match s.laneBegin p (queueRegs vd dbl) [] with
    | .stop t => t
    | .go view act s1 =>
      let ls := maskLanes act
      if ls.isEmpty then s1.retire
      else if s.hart.run.qDone s.hart.answer then s1.retire
      else if s.hart.run.qHeld then s
      else
        let els := ls.map (fun i => natToBytes 8 (if dbl then (view.pair vd.toNat i).toNat else (view.getV vd.toNat i).toNat))
        s.withQueue xq (fun pa va s => s.qCheck pa va (.lane dbl) true (fun q s =>
          s.qRequest pa q true els ls.length [] (fun t =>
            (t.onHart (fun h => { h with strm := s1.hart.strm, v := s1.hart.v })).retire)))))

/-- `vqdeq`: one element to every active lane. -/
def execVqdeq (p : LaneHdr) (dbl : Bool) (xq : XReg) (vd : LOp) (s : State) : Out :=
  .next (s.notM (match s.laneBegin p [] (queueRegs vd dbl) with
    | .stop t => t
    | .go _ act s1 =>
      let ls := maskLanes act
      let fin (t : State) : State := t.laneFinish t act (laneOuts vd dbl ls t.hart.results) State.retire
      if ls.isEmpty then s1.retire
      else if s.hart.run.qDone s.hart.answer then fin s
      else if s.hart.run.qHeld then s
      else match s.pushFaults act vd dbl with
        | [] =>
          s.withQueue xq (fun pa va s => s.qCheck pa va (.lane dbl) false (fun q s =>
            s.qRequest pa q false [] ls.length [] fin))
        | fl => s.laneTrap act fl (faultAddr fl) true))

/-- `vqtdeq`: elements to the lowest active lanes, as many as there are, and the mask of those served. DESIGN CHOICE (log 65): into a bound
write stream it pushes the lanes served alone (R143). -/
def execVqtdeq (p : LaneHdr) (dbl : Bool) (ms : MReg) (xq : XReg) (vd : LOp) (s : State) : Out :=
  .next (s.notM (match s.laneBegin p [] (queueRegs vd dbl) with
    | .stop t => t
    | .go _ act s1 =>
      let ls := maskLanes act
      if ls.isEmpty then (s1.onHart (fun h => h.setM ms 0)).retire
      else match s.pushFaults act vd dbl with
        | [] =>
          s.withQueue xq (fun pa va s => s.qCheck pa va (.lane dbl) false (fun q s =>
            let k := if s.qAhead pa false (s.prio s.hart) then 0 else min q.avail ls.length
            let (els, q', s) := s.takeElems q k
            let s := if k = 0 then s else (s.qcbWrite pa q q').acquire s.hart.gid (scopeOf q.scope)
            let got := ls.take k
            s.laneFinish s (maskOfList got) (laneOuts vd dbl got (els.map (fun b => BitVec.ofNat 64 (leNat (b.take 8)))))
              (fun t => (t.onHart (fun h => h.setM ms (maskOfList got))).retire)))
        | fl => s.laneTrap act fl (faultAddr fl) true))

/-! ## Notify pages (R290) -/

/-- The block that a bound page feeds. -/
def State.notifyQcb (s : State) (die page : Nat) : Option Nat :=
  let v := fget 0 (s.die die).npbind page
  if wbit v 0 then some (wfield v 7 45 * 128) else none

/-- A dropped NOTIFY write is counted. -/
def State.notifyDrop (s : State) (die page : Nat) : State :=
  s.modDie die (fun d => { d with nperr := fset 0 d.nperr page ((fget 0 d.nperr page + 1) % 2 ^ 32) })

/-- A write of NOTIFY: publish every slot below v, or drop the write. A block that the checks refuse is posted and left as it
is. -/
def execNotify (die page : Nat) (v : Word) (s : State) : Out :=
  match s.notifyQcb die page with
  | none => .next (s.notifyDrop die page)
  | some pa =>
    if s.qcbRefused pa then .next ((s.postFault (s.homeDie (paLow pa)) 6 pa).notifyDrop die page)
    else
      let s := s.qSettle pa
      let (l, s) := s.qcbBytes pa
      let q := qcbParse (dwords 16 l)
      let n := v.toNat
      if qcbCorrupt l || q.qr then
        .next ((s.writeAt .other pa (checked (dwordBytes ((dwords 16 l).set 0 (wputb (dw (dwords 16 l) 0) 37 true))))).notifyDrop die page)
      else if q.tail ≤ n && n ≤ q.head + q.cap then
        .next (s.qcbWrite pa q { q with rsv := n, tail := n, free := q.cap - (n - q.head) })
      else .next (s.notifyDrop die page)

/-- Set or clear nf in a block under the check code; a block that the checks refuse is posted and left as it is. -/
def State.setNf (s : State) (pa : Nat) (b : Bool) : State :=
  if s.qcbRefused pa then s.postFault (s.homeDie (paLow pa)) 6 pa
  else
    let (l, s) := s.qcbBytes pa
    s.writeAt .other pa (checked (dwordBytes ((dwords 16 l).set 0 (wputb (dw (dwords 16 l) 0) 38 b))))

/-- A write of NPBIND. -/
def execNpbindWrite (die page : Nat) (v : Word) (s : State) : Out :=
  let old := fget 0 (s.die die).npbind page
  let new := BitVec.ofNat 64 (wfield v 7 45 * 128 + wfield v 0 1)
  let s := if wbit old 0 then s.setNf (wfield old 7 45 * 128) false else s
  let s := if wbit v 0 then s.setNf (wfield v 7 45 * 128) true else s
  .next (s.modDie die (fun d => { d with npbind := fset 0 d.npbind page new }))

end Sys2Proof.Machine
end

