-- ==== Sys2Proof/Machine/Teams.lean ====
section
/-! DEFINITION. The end of harts and teams: exits, continuations, kills, outcomes, the wrap-up instructions, scrubbing, and
`lrel` (R85, R88, R216, R224, R241, R271, R289, R340, R357 to R362, R368). -/
namespace Sys2Proof.Machine

/-! ## Doublewords that the front end and `wr.commit` reach by physical address (R293, R351, R358, R360) -/

/-- The refusal of such an access for a context: a subcause. -/
def State.feRefusal (s : State) (pa asid : Nat) : Option Nat :=
  match s.refusal pa asid with
  | some k => some k
  | none =>
    match s.region (paLow pa) with
    | .hbm => if s.isLost (paLow pa) then some 1 else none
    | .host _ => none
    | _ => some 0

/-- Read a doubleword. -/
def State.feRead (s : State) (pa : Nat) : Word × State :=
  match s.portOf pa with
  | some p => (dwordOf ((s.drainPort p).peek pa 8), s.drainPort p)
  | none =>
    let (b, s) := s.readAt pa 8
    (dwordOf b, s)

/-- Write a doubleword. -/
def State.feWrite (s : State) (pa : Nat) (v : Word) : State :=
  match s.portOf pa with
  | some p => (s.drainPort p).poke pa (natToBytes 8 v.toNat)
  | none => s.writeAt .other pa (natToBytes 8 v.toNat)

/-- Write a doubleword unless it is refused. -/
def State.feStore (s : State) (pa asid : Nat) (v : Word) : State :=
  if (s.feRefusal pa asid).isSome then s else s.feWrite pa v

/-! ## The outcome array (R358) -/

/-- The doubleword that holds a team's entry, and the team's commit word. -/
def Launch.entryPa (l : Launch) (lin : Nat) : Nat := l.outcome + 8 * (lin / 32)
def Launch.commitPa (l : Launch) (lin : Nat) : Nat := l.outcome + 8 * cdiv l.teamCount 32 + 8 * lin

/-- OR a value into a team's entry; without an array the front end holds it. -/
def State.outcomeOr (s : State) (l : Launch) (lin v : Nat) : State :=
  if l.outcome = 0 then s.modLaunch l.id (fun l => { l with outs := fset 0 l.outs lin (fget 0 l.outs lin ||| v) })
  else
    let pa := l.entryPa lin
    if (s.feRefusal pa l.asid).isSome then s
    else
      let (old, s) := s.feRead pa
      s.feWrite pa (old ||| BitVec.ofNat 64 (v <<< (2 * (lin % 32))))

/-- The entry of a team at its end. -/
def Team.result (t : Team) : Nat := if t.committed then 2 else if t.killed || t.wrapped then 3 else 1

/-- Write the final outcome of a team. -/
def State.writeOutcome (s : State) (t : Team) : State :=
  let l := s.launch t.launch
  let s := if t.committed then s else s.outcomeOr l t.lin t.result
  s.modTeam t.id (fun x => { x with outDone := true })

/-! ## A hart goes (R85, R368) -/

/-- The requests of a hart that goes keep a number that no place has. -/
def State.orphan (s : State) (g : Nat) : State :=
  let (s, u) := s.takeUid
  let p := 2 ^ 16 + 2 * u + 1
  let s := s.modCore (gidCore g) (fun k => { k with queue := k.queue.map (fun c => if c.gid = g then { c with gid := p } else c) })
  { s with
    xfers := s.xfers.map (fun x => if x.gid = g then { x with gid := p } else x)
    queries := s.queries.map (fun q => if q.gid = g then { q with gid := p } else q)
    ships := s.ships.map (fun x => if x.gid = g then { x with gid := p } else x) }

/-- When a team's last hart goes, the bound of R216 on its commands begins; that of R215 on a running one goes on. -/
def State.lastGone (s : State) (team : Nat) : State :=
  if (s.teamHarts team).isEmpty then
    s.modCore (s.team team).core (fun k => { k with queue := k.queue.map (fun c =>
      if c.team = team && c.phase != .started && c.phase != .landing then { c with since := s.clock } else c) })
  else s

/-- The owned lines of a core's data cache are written back (R368). -/
def State.writeBackOwned (s : State) (core : Nat) : State :=
  ((s.hc.filter (fun e => e.core == core && e.kind == .owned)).map HcLine.line).foldl State.recall s

/-- A hart leaves its place to `left`: its mutexes are freed, its senders discarded, its owned lines written back, its notes ended, its
memberships removed but for one that its continuation keeps. -/
def State.goes (s : State) (g : Nat) (left : Hart) (keep : Option DomKey) : State :=
  let h := s.hartOf g
  let doms := (s.memberOf g).filter (fun k => keep != some k)
  let s := (((s.release g).writeBackOwned (gidCore g)).freeMutexes g).dropSenders g
  let s := if left.run = .vacant then s.orphan g else s
  let s := s.modCore (gidCore g) (fun k => k.forget g)
  ((s.putHart left).leaveDoms g doms).lastGone h.team

/-- A hart exits. -/
def State.exits (s : State) (g : Nat) : State := s.goes g (Hart.fresh g) none

def execHexit (s : State) : Out := .next (s.notM (s.exits s.hart.gid))

/-! ## Continuations (R88) -/

/-- The event of an event word; `none` where it is illegal. -/
def contEvent (dom : Nat → Option DomKey) (w : Word) : Option ContEvent :=
  match wfield w 60 4 with
  | 0 => if wfield w 12 48 = 0 then (dom (wfield w 0 12)).map ContEvent.barrier else none
  | 1 => if wfield w 32 28 = 0 then some (.copy (wfield w 0 32)) else none
  | 2 => if wfield w 56 4 = 0 then some (.query (BitVec.ofNat 64 (wfield w 0 56))) else none
  | 3 => if wfield w 2 14 = 0 && wfield w 28 32 = 0 then some (.counter (wfield w 0 2) (wfield w 16 12)) else none
  | _ => none

/-- The place that a hart leaves to its continuation: its address, its x10, and the role's initial allocation. DESIGN CHOICE (log 56): a
hart that has shrunk below that allocation reserves all of it without asking the pool, since R88 says that the creation of the
continuation cannot fail and not where the missing registers come from. DESIGN CHOICE (log 71): the user-interrupt events that stand held at
its full queue go with the hart, and their counters do not fall for them; R80 speaks of the discard of an event alone. -/
def State.contPlace (s : State) (h : Hart) (ev : ContEvent) (pc : Word) : Hart :=
  let r := Hart.fresh h.gid
  ({ r with
    run := .cont ev, team := h.team, role := h.role, num := h.num, pc := pc, lalloc := (s.launchOf h.team).roleAlloc h.role
    cnt0 := h.cnt0, cnt1 := h.cnt1, cnt2 := h.cnt2, cnt3 := h.cnt3, cscope := h.cscope
    csr := { r.csr with satp := h.csr.satp } }).setX 10 (h.getX 10)

def execCont (rs1 rs2 : XReg) (s : State) : Out :=
  .next (s.notM (
    match contEvent (fun c => (s.codeDom c).map Dom.key) (s.getX rs1) with
    | none => s.illegal
    | some ev =>
      let left := s.contPlace s.hart ev (s.getX rs2)
      match ev with
      | .barrier k =>
        let d := s.dom k
        if !s.isMember d then s.illegal
        else if d.c s.hart.gid = 2 then s.wait (.barrier k false)
        else (s.arrive d).goes s.hart.gid left (some k)
      | _ => s.goes s.hart.gid left none))

/-- Is the event of a continuation complete? DESIGN CHOICE (log 72): the 56 bits that an event word gives to a descriptor are zero-extended and
compared with the whole address, so that a query of a descriptor in the upper half is not found. -/
def State.contDone (s : State) (h : Hart) (ev : ContEvent) : Bool :=
  match ev with
  | .barrier k => (s.dom k).c h.gid == 0
  | .copy id => s.xfers.all (fun x => x.gid != h.gid || x.id != id)
  | .query va => s.queries.all (fun q => q.gid != h.gid || q.va != va)
  | .counter c n => decide (h.cnt c ≤ n)

/-- The scope at which the start of a continuation acquires (R316). -/
def contScope (h : Hart) (ev : ContEvent) : Scope :=
  match ev with
  | .barrier k => domScope k
  | .copy _ => scopeOf (fget 0 h.cscope 0)
  | .query _ => .pkg
  | .counter c _ => scopeOf (fget 0 h.cscope c)

/-- The save of a team stops, and with it that of a co-resident grid, which goes whole or not at all: its teams run on (R364, R367). -/
def State.stopSave (s : State) (team : Nat) : State :=
  let t := s.team team
  { s with teams := s.teams.map (fun x =>
      if x.phase == .evicting && (x.id == team || (x.launch == t.launch && (s.launch t.launch).coRes)) then { x with phase := .running } else x) }

/-- Start the continuation of a place; `src` is 0, or how the new hart stands in wrap-up: 3 for one that starts during it, else the
wcause of one that is started as a diverted hart, which also ends an eviction that is under way (R88, R354, R355, R367). -/
def State.startCont (s : State) (g : Nat) (ev : ContEvent) (src : Nat) : State :=
  let r := s.hartOf g
  let doms := s.memberOf g
  let s := (((s.acquire g (contScope r ev)).orphan g).putHart (Hart.fresh g)).leaveDoms g doms
  let s := s.createHart g r.team r.role r.num r.lalloc r.pc (r.getX 10) 0
  if src = 0 then s
  else if src = 3 then s.bornInWrap g r.team
  else ((s.modHart g (fun h => h.enterWrap src (s.launchOf r.team).wrapEntry)).stopSave r.team).modTeam r.team
    (fun t => { t with wrapped := true })

/-- The continuation of the selected place starts once its event is complete. -/
def execContinuationStart (s : State) : Out :=
  let h := s.hartOf s.sel
  match h.run with
  | .cont ev =>
    if s.contDone h ev && (s.team h.team).phase == .running then .next (s.startCont s.sel ev (if s.expired h.team then 3 else 0))
    else .next s
  | _ => .next s

/-! ## The end of a team (R85, R162, R216, R358, R368) -/

/-- Does anything remain that keeps the team from completing: a hart, a continuation, a reservation, or a matrix command? -/
def State.teamBusy (s : State) (t : Team) : Bool := !(s.teamPlaces t.id).isEmpty || !(s.teamCmds t.id).isEmpty

/-- Does a share hold anything of a core's pools? -/
def Share.held (sh : Share) : Bool :=
  sh.semN != 0 || sh.mtxN != 0 || sh.shSize != 0 || sh.actSize != 0 || sh.wgtSize != 0 || sh.accSize != 0

/-- The shares of a team go to scrubbing. -/
def State.freeShare (s : State) (t : Team) : State :=
  if t.share.held then s.modCore t.core (fun k => { k with scrub := k.scrub ++ [t.share] }) else s

/-- Has every event of the team been performed: its transfers and its queries have ended, and its shipped functions have run (R323, R358)? -/
def State.eventsDone (s : State) (t : Team) : Bool :=
  s.xfers.all (fun x => x.team != t.id) && s.queries.all (fun q => q.team != t.id) && s.ships.all (fun x => x.team != t.id || x.ran)

/-- The outcome of a team that has ended is written once every event of it has been performed. -/
def State.settleOutcome (s : State) (id : Nat) : State :=
  let t := s.team id
  if t.phase == .ended && !t.outDone && s.eventsDone t then s.writeOutcome t else s

/-- The selected team completes: tickets abandoned, shares released, and the outcome written when its events are done. -/
def execTeamComplete (s : State) : Out :=
  let t := s.team s.sel
  let stop (s : State) : State := (s.modTeam t.id (fun x => { x with phase := .ended })).settleOutcome t.id
  match t.phase with
  | .running | .evicting =>
    if s.teamBusy t then .next s
    else .next (stop (((s.abandonAll (fun k => k.team == t.id)).delDom (.team t.id)).freeShare t))
  | .evicted => if t.killed then .next (stop (s.delDom (.team t.id))) else .next s
  | .ended => .next (s.settleOutcome t.id)
  | .waiting => .next s

/-- Zero a range of an array. -/
def zeroRange (f : File Byte) (base size : Nat) : File Byte :=
  f.filter (fun e => decide (e.1 < base) || decide (base + size ≤ e.1))

/-- A core without the contents of a share. -/
def Core.scrubbed (k : Core) (sh : Share) : Core :=
  { k.overwritten sh.shBase sh.shSize with
    shm := zeroRange k.shm sh.shBase sh.shSize
    act := zeroRange k.act sh.actBase sh.actSize
    wgt := zeroRange k.wgt sh.wgtBase sh.wgtSize
    acc := zeroRange k.acc sh.accBase sh.accSize
    sems := k.sems.filter (fun e => decide (e.1 < sh.semBase) || decide (sh.semBase + sh.semN ≤ e.1))
    mtxs := k.mtxs.filter (fun e => decide (e.1 < sh.mtxBase) || decide (sh.mtxBase + sh.mtxN ≤ e.1)) }

/-- The scrub of the selected core finishes: its shares can be granted again. On a core that a job lists, the Fuller zeroes them and
gives them back (R380). -/
def execShareScrub (s : State) : Out :=
  if s.inJob s.sel then .next s
  else .next ((s.drainLb s.sel).modCore s.sel (fun k => { k.scrub.foldl Core.scrubbed k with scrub := [] }))

/-! ## Kill (R77, R85, R216, R241, R289, R340, R368) -/

/-- Kill one hart; a queue request of it whose condition an earlier change met has been performed (R289). -/
def State.killHart (s : State) (g : Nat) : State :=
  let s := s.qMeets g
  match (s.hartOf g).run with
  | .waiting w => (s.dropWait g w).exits g
  | _ => s.exits g

/-- Free a place that holds a continuation or a reservation. -/
def State.freePlaceOf (s : State) (h : Hart) : State :=
  match h.run with
  | .cont _ => s.exits h.gid
  | .reserved _ => s.putHart (Hart.fresh h.gid)
  | _ => s

/-- What an evicted team has saved ends with it: its harts leave their domains, its transfers are dropped, its reservations and commands
discarded (R231, R241, R367, R368). -/
def State.killAway (s : State) (t : Team) : State :=
  let ids := t.away.map (fun h => awayId t.id h.num)
  let s := ids.foldl (fun s g => s.leaveDoms g (s.memberOf g)) s
  let xs := t.awayXfers.map (fun (x : Xfer) => { x with gid := awayId t.id 0 + 1, place := none })
  xs.foldl (fun s x => s.writeStatus { x with dropped := true })
    (s.modTeam t.id (fun x => { x with away := [], awayCmds := [], awayXfers := [] }))

/-- Kill a team: its harts, continuations and reservations; its commands that have not started, its transfers, queries and
tickets. It ends once its started commands are done. -/
def State.killTeam (s : State) (t : Nat) : State :=
  let s := ((s.teamHarts t).map Hart.gid).foldl State.killHart s
  let s := (s.teamPlaces t).foldl State.freePlaceOf s
  let s := ((s.discardUnstarted (s.team t).core t).endXfers t).abandonAll (fun k => k.team == t)
  let s := { s with queries := s.queries.map (fun (q : Query) => if q.team = t then { q with killed := true } else q) }
  (s.modTeam t (fun x => { x with killed := true })).killAway (s.team t)

/-- Teams of a launch that have started and not ended. -/
def State.liveTeams (s : State) (l : Nat) : List Nat :=
  (s.teams.filter (fun t => t.launch == l && (t.phase == .running || t.phase == .evicting || t.phase == .evicted))).map Team.id

/-! ## The end of a launch (R295, R357) -/

/-- The selected launch ends and its completion value is written. -/
def execLaunchComplete (s : State) : Out :=
  let l := s.launch s.sel
  let mine := s.teams.filter (fun t => t.launch == l.id)
  let isOver := if l.expired then (s.liveTeams l.id).isEmpty else mine.all (fun t => t.outDone || t.committed)
  if l.ended || !isOver then .next s
  else
    let s := if l.complAddr = 0 then s else s.feStore l.complAddr l.asid l.complValue
    .next (s.modLaunch l.id (fun l => { l with ended := true }))

/-! ## Wrap-up instructions (R359 to R362) -/

/-- Legal in U mode in wrap-up only. -/
def State.wrapOnly (s : State) (k : State) : State := if s.hart.mode != .u || !s.hart.wrapup then s.illegal else k

/-- `wr.commit`: the commit word, then the entry; a refused write changes nothing. -/
def execWrCommit (rs1 : XReg) (s : State) : Out :=
  let t := s.team s.hart.team
  let l := s.launch t.launch
  let pa := l.commitPa t.lin
  let fault (k : Nat) : State := s.trap ⟨7, if k = 3 then 3 else 0, BitVec.ofNat 64 pa⟩
  .next (s.wrapOnly (
    match s.feRefusal pa s.hart.asid, s.feRefusal (l.entryPa t.lin) s.hart.asid with
    | some k, _ => fault k
    | none, some k => fault k
    | none, none =>
      let s := (s.release s.hart.gid).feWrite pa (s.getX rs1)
      let s := if t.committed then s else s.outcomeOr l t.lin 2
      (s.modTeam t.id (fun x => { x with committed := true })).retire))

def execWrDone (s : State) : Out := .next (s.wrapOnly (s.exits s.hart.gid))

/-- `wr.drop`: discard what has not started, and wait until no command and no transfer of the team remains. -/
def execWrDrop (s : State) : Out :=
  let t := s.hart.team
  .next (s.wrapOnly (
    let s := if s.inWait .mxfence then s else (s.discardUnstarted s.coreNo t).endXfers t
    if (s.teamCmds t).isEmpty && s.xfers.all (fun x => x.team != t) then (s.acquire s.hart.gid .team).retire
    else s.wait .mxfence))

/-! ## `lrel` (R271) -/

def execLrel (rs1 : XReg) (s : State) : Out :=
  if s.hart.mode != .s then .next s.illegal
  else
    let va := wput (s.getX rs1) 0 7 0
    match s.dataPa .s .store va with
    | (.error t, s) => .next (s.trap t)
    | (.ok pa, s) => .next ((if s.region (paLow pa) = .hbm then s.unlose (paLow pa) else s).retire)

end Sys2Proof.Machine
end

