-- ==== Sys2Proof/Machine/CoreLoss.lean ====
section
/-! DEFINITION. Losing, testing and returning a core, and a torus link that stops (R227, R269, R304 to R306). -/
namespace Sys2Proof.Machine

/-- Record a line, numbered with its key id, as lost: in its slice's table of 64 entries, else by the poison code; it is posted, and a new entry
interrupts the host (R269, R272, R371). -/
def State.loseLine (s : State) (ln : Nat) : State :=
  let la := paLow (128 * ln)
  let n := homeSlice la
  let s :=
    if s.isLost la then s
    else if (s.lost.filter (fun e => e.1 == n)).length < 64 then
      ({ s with lost := s.lost ++ [(n, ln)] }).raiseVector 1
    else { s with poison := s.poison ++ [lineOf la], spill := fset 0 s.spill n ((fget 0 s.spill n + 1) % 2 ^ 32) }
  s.postFault (sliceDie n) 2 (128 * ln)

/-- The core's copies go: the lines of its owned and privatised ones are lost, their surviving copies merged first. -/
def State.loseCopies (s : State) (core : Nat) : State :=
  let gone := (s.hc.filter (fun e => e.core == core && e.kind != .shared)).map HcLine.line
  let s := { s with hc := s.hc.filter (fun e => e.core != core) }
  gone.foldl (fun s ln => (s.recall ln).loseLine ln) s

/-- Messages that stand in the sender lists of the core's mailboxes are no longer answered: their senders time out (R190). -/
def State.unlist (s : State) (core : Nat) : State :=
  { s with msgs := s.msgs.map (fun (m : Msg) => if gidCore m.dst = core then { m with listed := false } else m) }

/-- The teams that are on a core. -/
def State.teamsOn (s : State) (core : Nat) : List Nat :=
  (s.teams.filter (fun t => t.core == core && (t.phase == .running || t.phase == .evicting))).map Team.id

/-- A core leaves the running state: its teams are lost, its engine stops, what a failed L1 slice held is gone, the host is interrupted. -/
def State.loseCore (s : State) (core state cause : Nat) : State :=
  let s := (s.loseCopies core).unlist core
  let s := s.modCore core (fun k => { k with state := state, cause := cause, wasReset := false, lb := [], lbOld := [] })
  let s := { s with l1 := s.l1.filter (fun e => !s.sliceDown e.cluster e.line) }
  let s := (s.teamsOn core).foldl State.killTeam s
  (s.modCore core (fun k => { k with queue := [], landE := none, landS := none, rst := false, grow := [] })).raiseVector 6

/-- A running core takes an uncorrectable error. -/
def execCoreUncorrectableError (core cause : Nat) (s : State) : Out :=
  let k := s.core core
  if k.state != 0 || k.power == .off || cause = 0 || 6 < cause || 768 ≤ core then .next s
  else .next (s.loseCore core 1 cause)

/-! ## The commands of CORESTAT (R305) -/

def execCoreResetCmd (s : State) : Out :=
  if (s.core s.sel).state = 1 then .next (s.modCore s.sel (fun k => { k with state := 2 })) else .next s

def execCoreTestCmd (s : State) : Out :=
  let k := s.core s.sel
  if k.state = 1 && k.wasReset then .next (s.modCore s.sel (fun k => { k with state := 3 })) else .next s

/-- A core that has passed returns from the stopped or the fenced state. -/
def execCoreReturnCmd (s : State) : Out :=
  let k := s.core s.sel
  if k.pass && (k.state == 1 || k.state == 4) then .next (s.modCore s.sel (fun k => { k with state := 0, cause := 0 })) else .next s

/-- Fence one core: one that still runs loses its teams. -/
def State.fenceCore (s : State) (core : Nat) : State :=
  if (s.core core).state = 0 then s.loseCore core 4 0 else s.modCore core (fun k => { k with state := 4 })

/-- A core that is not running is fenced; where its test has failed in the L1 slice, the whole cluster is (R306). -/
def execCoreFenceCmd (s : State) : Out :=
  let k := s.core s.sel
  if k.state = 0 then .next s
  else if k.cause = 3 && !k.pass then
    .next (((List.range 16).map (fun i => s.sel / 16 * 16 + i)).foldl State.fenceCore s)
  else .next (s.modCore s.sel (fun k => { k with state := 4 }))

/-- The reset of the selected core finishes: its arrays, objects and stall counters are cleared. -/
def execCoreResetDone (s : State) : Out :=
  let k := s.core s.sel
  if k.state != 2 then .next s
  else .next (s.setCore s.sel { Core.fresh with
    state := 1, scAt := s.clock, cause := k.cause, pass := k.pass, wasReset := true, power := k.power, slot := k.slot, busy := k.busy, scrub := k.scrub })

def execCoreTestDone (core : Nat) (pass : Bool) (s : State) : Out :=
  if (s.core core).state = 3 then .next (s.modCore core (fun k => { k with state := 1, pass := pass })) else .next s

/-! ## Torus links (R227) -/

/-- A link of a cluster has stopped. -/
def execTorusLinkStop (cluster link : Nat) (s : State) : Out :=
  if 48 ≤ cluster || 32 ≤ link then .next s
  else .next ({ s with tlstat := fset 0 s.tlstat cluster (fget 0 s.tlstat cluster ||| (1#32 <<< link)) }.raiseVector 5)

end Sys2Proof.Machine
end

