-- ==== Sys2Proof/Machine/Dredge.lean ====
section
/-! DEFINITION. Dredge: queries over graphs in the stacks, and their events (R325 to R341; the pages of a query are
translated at its issue, its graph reads when they are made). -/
namespace Sys2Proof.Machine

/-! ## Descriptor fields (R56) -/

def Query.k (q : Query) : Nat := fieldAt q.desc 0x28 2
def Query.heapSize (q : Query) : Nat := fieldAt q.desc 0x2A 2
def Query.width (q : Query) : Nat := fieldAt q.desc 0x2C 1
def Query.entries (q : Query) : Nat := fieldAt q.desc 0x2D 1
def Query.metric (q : Query) : Nat := fieldAt q.desc 0x2E 1
def Query.tcode (q : Query) : Nat := fieldAt q.desc 0x2F 1
def Query.dim (q : Query) : Nat := fieldAt q.desc 0x30 2
def Query.home (q : Query) : Nat := fieldAt q.desc 0x32 1
def Query.mode (q : Query) : Nat := fieldAt q.desc 0x33 1
def Query.hops (q : Query) : Nat := fieldAt q.desc 0x34 4
def Query.recSize (q : Query) : Nat := fieldAt q.desc 0x38 4
def Query.deadline (q : Query) : Nat := (dw q.desc 2).toNat
def Query.entry (q : Query) (i : Nat) : Nat := fieldAt q.desc (0x40 + 4 * i) 4
def Query.graph (q : Query) (stack : Nat) : Word := dw q.desc (16 + stack)
/-- Element size in bytes. -/
def Query.elem (q : Query) : Nat := if q.tcode = 6 then 2 else 1
/-- Offset of the neighbour list in a record (R326). -/
def Query.listOff (q : Query) : Nat := 8 + 8 * cdiv (q.dim * q.elem) 8
def Query.recordBytes (q : Query) : Nat := 32 + 8 * q.k
def Query.asid (q : Query) : Nat := satpAsid q.satp

/-- The stack of a vertex (R326). -/
def vertexStack (v : Nat) : Nat := v / 2 ^ 28 % 16

/-- Do the fields of a descriptor pass the checks of R332? -/
def Query.fieldsOk (q : Query) : Bool :=
  decide (1 ≤ q.k) && decide (q.k ≤ 256) && decide (q.k ≤ q.heapSize) && decide (q.heapSize ≤ 512) &&
  decide (1 ≤ q.width) && decide (q.width ≤ 8) && decide (1 ≤ q.entries) && decide (q.entries ≤ 8) &&
  decide (q.metric ≤ 2) && (q.tcode == 9 || q.tcode == 6 || q.tcode == 7) &&
  decide (1 ≤ q.dim) && decide (q.dim ≤ 4096) && decide (q.home ≤ 15) && decide (q.mode ≤ 3) &&
  q.recSize % 8 == 0 && decide (q.listOff ≤ q.recSize) && decide (q.recSize ≤ 65536) &&
  decide (fieldAt q.desc 0x3C 4 ≤ 1) && (List.range 4).all (fun i => dw q.desc (12 + i) == 0) &&
  (List.range 16).all (fun i => (q.graph i).toNat % 8 == 0) &&
  (List.range 8).all (fun i => if i < q.entries then q.graph (vertexStack (q.entry i)) != 0 else q.entry i == 0) &&
  (dw q.desc 0).toNat % q.elem == 0 && (dw q.desc 1).toNat % 8 == 0 &&
  (q.mode != 1 || (dw q.desc 3).toNat % 8 == 0) && (q.mode != 0 || (dw q.desc 3 == 0 && dw q.desc 4 == 0))

/-! ## `dq.search` (R331, R332) and `dq.cancel` (R339) -/

/-- Translate what a query touches by its own translations: the query vector as a load, then the result buffer and a flag as stores; a
fault names the lowest address (R332). -/
def State.holdQuery (s : State) (q : Query) : Except TrapInfo (List (Nat × Nat)) × State :=
  match s.holdPages .load (touched [((dw q.desc 0).toNat, q.dim * q.elem)]) with
  | (.error t, s) => (.error t, s)
  | (.ok p1, s) =>
    match s.holdPages .store (touched (((dw q.desc 1).toNat, q.recordBytes) ::
        (if q.mode = 1 then [((dw q.desc 3).toNat, 8)] else []))) with
    | (.error t, s) => (.error t, s)
    | (.ok p2, s) => (.ok (p1 ++ p2), s)

/-- Does a stack hold 256 queries awaiting admission? -/
def State.dredgeFull (s : State) (stack : Nat) : Bool :=
  decide (256 ≤ (s.queries.filter (fun q => q.phase == .waiting && q.home == stack)).length)

/-- Send a query that has passed every check: a release at package scope. It records the hart's effective priority (R332); the divert of its
launch ends it unless the hart is in wrap-up (R340). -/
def State.issueQuery (s : State) (q : Query) : State :=
  let s := s.release s.hart.gid
  let q := { q with prio := s.prio s.hart, divert := s.expired q.team && !s.hart.wrapup }
  ({ s with queries := s.queries ++ [q] }).onHart (fun h => (h.incCnt 1).retire)

/-- A query that has passed every check is issued, or waits for room at its home stack with its reservation. -/
def State.enterQuery (s : State) (q : Query) : State :=
  if s.dredgeFull q.home then s.wait (.dredge q) else s.issueQuery q

/-- A query whose pages are translated: its reservation, then its issue; a SPAWN that finds no place traps. -/
def State.startQuery (s : State) (q : Query) : State :=
  let (t, uid) := s.takeUid
  let q := { q with uid := uid }
  if q.mode != 3 then t.enterQuery q
  else match t.reservePlace uid with
    | none => s.engineFault 2
    | some (g, t) => t.enterQuery { q with place := some g }

/-- The query of a descriptor for the focused hart. -/
def State.newQuery (s : State) (d : List Word) (va w : Word) : Query where
  uid := 0
  gid := s.hart.gid
  launch := (s.team s.hart.team).launch
  team := s.hart.team
  desc := d
  va := va
  satp := s.hart.csr.satp
  priv := s.hart.mode
  sum := wbit s.hart.csr.mstatus 18
  mxr := wbit s.hart.csr.mstatus 19
  pbmt := wbit s.hart.csr.menvcfg 62
  pmpcfg := s.hart.csr.pmpcfg
  pmpaddr := s.hart.csr.pmpaddr
  prio := 0
  tag := w.setWidth 32
  ord := wbit w 32 || wbit (dw d 7) 32
  pages := []
  phase := .waiting
  qvec := []
  heap := []
  vis := []
  visFull := false
  rounds := 0
  hand := 0
  evals := 0
  xs := []
  new := []
  toAsk := []
  asked := []
  lists := []
  dists := []
  bad := []
  status := 0
  faultV := 0
  noVec := false
  cancel := none
  divert := false
  killed := false
  place := none

/-- The checks of a `dq.search` with the descriptor at an address and the completion word `w`, in the order of R332. -/
def State.checkQuery (s : State) (va w : Word) : Except TrapInfo Query × State :=
  if va.toNat % 256 != 0 then (.error ⟨4, 0, va⟩, s)
  else match s.loadBlock va 32 with
    | (.error t, s) => (.error t, s)
    | (.ok d, s) =>
      let q := s.newQuery d va w
      if wfield w 33 31 != 0 || !q.fieldsOk then (.error ⟨27, 2, 0⟩, s)
      else match s.holdQuery q with
        | (.error t, s) => (.error t, s)
        | (.ok pages, s) => (.ok { q with pages := pages }, s)

/-- `dq.search` (R332): the descriptor is read and checked once; an instruction that waits for room holds the checked query. -/
def execDqSearch (rs1 rs2 : XReg) (s : State) : Out :=
  .next (s.notM (match s.hart.run with
    | .waiting (.dredge q) => if s.dredgeFull q.home then s else s.issueQuery q
    | _ =>
      let va := s.getX rs1
      s.holdLoads (if va.toNat % 256 = 0 then s.loadPorts 8 va 32 else []) (fun s =>
        match s.checkQuery va (s.getX rs2) with
        | (.error t, s) => s.trap t
        | (.ok q, s) => s.startQuery q)))

/-- Cancel the launch's queries whose descriptor has the address. -/
def execDqCancel (rs1 : XReg) (s : State) : Out :=
  let l := (s.team s.hart.team).launch
  .next (s.notM (({ s with
    queries := s.queries.map (fun (q : Query) =>
      if q.launch = l && q.va = s.getX rs1 && q.cancel = none then { q with cancel := some s.clock } else q) }).retire))

/-! ## Distances (R328, R329) -/

/-- The exact value of an element: no flushing. -/
def dqValue (tc v : Nat) : FVal :=
  match tc with
  | 9 => fval .e4m3 v
  | 6 => fval .bf16 v
  | _ =>
    let i := (Tc.ifmt .s8).val v
    .fin (i < 0) i.natAbs 0

/-- An exact difference; `none` for a NaN and for ∞ − ∞. -/
def subExact (a b : FVal) : Option FVal :=
  match a, b with
  | .nan _, _ | _, .nan _ => none
  | .inf n1, .inf n2 => if n1 = n2 then none else some (.inf n1)
  | .inf n, _ => some (.inf n)
  | _, .inf n => some (.inf (!n))
  | .fin n1 m1 e1, .fin n2 m2 e2 =>
    let e0 := if e1 ≤ e2 then e1 else e2
    let d := scaled n1 m1 e1 e0 - scaled n2 m2 e2 e0
    some (.fin (d < 0) d.natAbs e0)

/-- A value rounded once to f32 under RNE; a NaN or no value gives the canonical NaN. -/
def f32Of (v : Option FVal) : Nat := cvtVal .f32 false v

/-- One term t(i). -/
def dqTerm (metric tc a b : Nat) : Nat :=
  let va := dqValue tc a
  let vb := dqValue tc b
  if metric = 0 then
    f32Of ((subExact va vb).bind (fun d => mulVal d d))
  else if va.isNan || vb.isNan then Fmt.canon .f32
  else f32Of ((mulVal va vb).map FVal.negate)

/-- One level of the pairwise tree. -/
def pairSum : List Nat → List Nat
  | a :: b :: r => (fadd .f32 .rne false a b).bits :: pairSum r
  | l => l

/-- The tree over a list whose length is a power of two, at most 2 to the number of levels. -/
def treeSum : Nat → List Nat → Nat
  | 0, l => l.headD 0
  | n + 1, l => if l.length ≤ 1 then l.headD 0 else treeSum n (pairSum l)

/-- dist(q, x). -/
def dqDist (metric tc : Nat) (q x : List Nat) : Nat :=
  let n := q.length
  let terms := (q.zip x).map (fun p => dqTerm metric tc p.1 p.2)
  let p := 2 ^ (Nat.log2 (2 * n - 1))
  let t := treeSum 13 (terms ++ List.replicate (p - n) 0)
  if metric = 2 then (fadd .f32 .rne false 0x3F800000 t).bits else t

/-- Is one distance less than another: NaNs above +∞, and equal among themselves? -/
def distLess (a b : Nat) : Bool :=
  let va := fval .f32 a
  let vb := fval .f32 b
  !va.isNan && (vb.isNan || fltVal va vb)

/-- The order of R329 on (id, distance) pairs. -/
def candBefore (a b : Nat × Nat) : Bool := distLess a.2 b.2 || (!distLess b.2 a.2 && decide (a.1 < b.1))

/-- Insert an entry into a heap in its order. -/
def heapInsert (e : HeapEnt) : List HeapEnt → List HeapEnt
  | [] => [e]
  | x :: r => if candBefore (e.id, e.dist) (x.id, x.dist) then e :: x :: r else x :: heapInsert e r

/-- merge(R) into a heap of at most `n` entries: pairs that are in it are skipped, the worst drop out (R333). -/
def heapMerge (n : Nat) (h : List HeapEnt) (r : List (Nat × Nat)) : List HeapEnt :=
  let sorted := r.foldl (fun (l : List HeapEnt) p => heapInsert ⟨p.1, p.2, false⟩ l) []
  sorted.foldl (fun (h : List HeapEnt) e => if h.any (fun x => x.id == e.id) then h else (heapInsert e h).take n) h

/-! ## The round (R333 to R335) -/

/-- visit(v): whether v is to be evaluated. -/
def Query.visit (q : Query) (v : Nat) : Bool × Query :=
  if q.vis.contains v then (false, q)
  else if 8192 ≤ q.vis.length then (true, { q with visFull := true })
  else (true, { q with vis := q.vis ++ [v] })

/-- The vertices of a list that are to be evaluated, in order. -/
def Query.visitAll (q : Query) : List Nat → List Nat × Query
  | [] => ([], q)
  | v :: r =>
    let (b, q) := q.visit v
    let (l, q) := Query.visitAll q r
    (if b then v :: l else l, q)

/-- Begin the EVAL step of a round. -/
def Query.beginEval (q : Query) (new : List Nat) : Query :=
  { q with phase := .eval, new := new, toAsk := (new.map vertexStack).eraseDups, asked := [], dists := [] }

/-- The EVAL step is over: merge, or note the first vertex that failed (R335). -/
def Query.endEval (q : Query) : Query :=
  match q.new.find? (fun v => q.bad.contains v) with
  | some v => { q with phase := .boundary, faultV := v }
  | none =>
    { q with
      phase := .boundary, heap := heapMerge q.heapSize q.heap q.dists
      rounds := if q.xs.isEmpty then q.rounds else q.rounds + 1 }

/-- Go on where the EVAL step has no work left. -/
def Query.evalOn (q : Query) : Query := if q.toAsk.isEmpty && q.asked.isEmpty then q.endEval else q

/-- The LIST step is over: the new vertices in order, and the EVAL step; or the first vertex that failed. -/
def Query.endList (q : Query) : Query :=
  match q.xs.find? (fun v => q.bad.contains v) with
  | some v => { q with phase := .boundary, faultV := v }
  | none =>
    let all := q.xs.flatMap (fun x => ((q.lists.find? (fun e => e.1 == x)).map Prod.snd).getD [])
    let (new, q) := q.visitAll all
    ({ q with heap := q.heap.map (fun (e : HeapEnt) => if q.xs.contains e.id then { e with exp := true } else e) }.beginEval new).evalOn

def Query.listOn (q : Query) : Query := if q.toAsk.isEmpty && q.asked.isEmpty then q.endList else q

/-- Start the next round with the best entries that are not expanded. -/
def Query.beginRound (q : Query) : Query :=
  let xs := ((q.heap.filter (fun e => !e.exp)).take q.width).map HeapEnt.id
  { q with phase := .list, xs := xs, toAsk := (xs.map vertexStack).eraseDups, asked := [], lists := [] }

/-! ## Reading records (R327) -/

/-- The agent of a query's reads. -/
def Query.agent (q : Query) : Agent := ⟨q.asid, q.satp, q.priv, q.sum, q.mxr, q.pbmt⟩

/-- The PMP entries under which they are checked: those of the issuing hart at the issue (R71). -/
def Query.checker (q : Query) : Hart :=
  let h := Hart.fresh 0
  { h with csr := { h.csr with pmpcfg := q.pmpcfg, pmpaddr := q.pmpaddr } }

/-- Read one aligned 8-byte unit of a record at a stack: in the stack's own window, and neither refused nor lost. -/
def State.dredgeUnit (s : State) (q : Query) (stack : Nat) (va : Word) : Option (List Byte × Nat) × State :=
  match s.translateAs q.checker (64 + stack) q.agent .load va with
  | (.error _, s) => (none, s)
  | (.ok x, s) =>
    let la := paLow x.pa
    if !q.checker.pmpOk q.priv .load x.pa then (none, s)
    else match s.refusal x.pa q.asid with
    | some 3 => (none, s.postFault (stack / 4) 6 x.pa)
    | some _ => (none, s)
    | none =>
      if s.region la != .hbm || decide (la < 0x30000000000) || (la - 0x30000000000) / 0x1000000000 != stack || s.isLost la then
        (none, s)
      else
        let (b, s) := s.readAt x.pa 8
        (some (b, tagLine x.pa), s)

/-- Read units of a record; the lines that were read. -/
def State.dredgeUnits (s : State) (q : Query) (stack : Nat) (va : Word) : Nat → Option (List Byte × List Nat) × State
  | 0 => (some ([], []), s)
  | n + 1 =>
    match s.dredgeUnit q stack va with
    | (none, s) => (none, s)
    | (some (b, ln), s) =>
      match State.dredgeUnits s q stack (va + 8) n with
      | (none, s) => (none, s)
      | (some (l, lns), s) => (some (b ++ l, ln :: lns), s)

/-- Read `n` bytes of a record. -/
def State.dredgeBytes (s : State) (q : Query) (stack : Nat) (va : Word) (n : Nat) : Option (List Byte) × State :=
  match s.dredgeUnits q stack va (cdiv n 8) with
  | (none, s) => (none, s)
  | (some (l, lns), s) => (some (l.take n), s.countReads lns)

/-- The address of a vertex's record. -/
def Query.recordVa (q : Query) (v : Nat) : Word := q.graph (vertexStack v) + BitVec.ofNat 64 (v % 2 ^ 28 * q.recSize)

/-- The degree of a record; `none` where the record fails its checks (R326, R327). -/
def State.recordDegree (s : State) (q : Query) (v : Nat) : Option Nat × State :=
  match s.dredgeBytes q (vertexStack v) (q.recordVa v) 8 with
  | (none, s) => (none, s)
  | (some b, s) =>
    let n := wfield (dwordOf b) 0 7
    (if 64 < n || q.recSize < q.listOff + 4 * n then none else some n, s)

/-- The neighbour list of a vertex. -/
def State.recordList (s : State) (q : Query) (v : Nat) : Option (List Nat) × State :=
  match s.recordDegree q v with
  | (none, s) => (none, s)
  | (some n, s) =>
    match s.dredgeBytes q (vertexStack v) (q.recordVa v + BitVec.ofNat 64 q.listOff) (4 * n) with
    | (none, s) => (none, s)
    | (some b, s) => (some ((List.range n).map (fun i => leNat ((b.drop (4 * i)).take 4))), s)

/-- Elements of a vector as patterns. -/
def Query.elems (q : Query) (b : List Byte) : List Nat :=
  (List.range q.dim).map (fun i => leNat ((b.drop (q.elem * i)).take q.elem))

/-- The distance of a vertex. -/
def State.recordDist (s : State) (q : Query) (v : Nat) : Option Nat × State :=
  match s.recordDegree q v with
  | (none, s) => (none, s)
  | (some _, s) =>
    match s.dredgeBytes q (vertexStack v) (q.recordVa v + 8) (q.dim * q.elem) with
    | (none, s) => (none, s)
    | (some b, s) => (some (dqDist q.metric q.tcode q.qvec (q.elems b)), s)

/-- The lists of vertices: those read, and those that failed. -/
def State.readLists (s : State) (q : Query) : List Nat → List (Nat × List Nat) × List Nat × State
  | [] => ([], [], s)
  | v :: r =>
    let (o, s) := s.recordList q v
    let (l, bad, s) := State.readLists s q r
    match o with
    | none => (l, v :: bad, s)
    | some n => ((v, n) :: l, bad, s)

/-- The distances of vertices: those computed, and the vertices that failed. -/
def State.readDists (s : State) (q : Query) : List Nat → List (Nat × Nat) × List Nat × State
  | [] => ([], [], s)
  | v :: r =>
    let (o, s) := s.recordDist q v
    let (l, bad, s) := State.readDists s q r
    match o with
    | none => (l, v :: bad, s)
    | some d => ((v, d) :: l, bad, s)

/-! ## Events of a query (R333 to R337, R341) -/

def State.query? (s : State) (uid : Nat) : Option Query := s.queries.find? (fun q => q.uid == uid)
def State.putQuery (s : State) (q : Query) : State := { s with queries := s.queries.map (fun x => if x.uid = q.uid then q else x) }
def State.dropQuery (s : State) (uid : Nat) : State := { s with queries := s.queries.filter (fun x => x.uid != uid) }

/-- Is the query active: admitted, and not ended? -/
def QPhase.active : QPhase → Bool
  | .boundary | .list | .eval => true
  | _ => false

/-- The first to have arrived among the queries of the highest priority at issue (R341); queries stand in the order of their arrival. -/
def firstQuery (l : List Query) : Option Query := l.find? (fun x => l.all (fun y => decide (y.prio ≤ x.prio)))

/-- Has an active query work for a stack? -/
def Query.asks (q : Query) (stack : Nat) : Bool := (q.phase == .list || q.phase == .eval) && q.toAsk.contains stack

/-- Is it the query's turn at the distance units of a stack: the batch of the highest priority, then the oldest (R341, R363)? -/
def State.unitTurn (s : State) (q : Query) (stack : Nat) : Bool :=
  (firstQuery (s.queries.filter (fun x => x.asks stack))).map Query.uid == some q.uid

/-- Is the query next to be admitted at its home: room for it, and its turn (R341)? -/
def State.admissible (s : State) (q : Query) : Bool :=
  let here := s.queries.filter (fun x => x.home == q.home)
  let pend := here.filter (fun x => x.phase == .waiting)
  decide ((here.filter (fun x => x.phase.active)).length < 64) &&
  (firstQuery pend).map Query.uid == some q.uid

/-- Runs of a range that stay within a line. -/
def lineRuns (va : Nat) : Nat → Nat → List (Nat × Nat)
  | 0, _ => []
  | fuel + 1, n =>
    if n = 0 then []
    else
      let k := min n (128 - va % 128)
      (va, k) :: lineRuns (va + k) fuel (n - k)

/-- Read the query vector through the translations of the issue; `none` where a byte of it cannot be read. -/
def State.readVector (s : State) (q : Query) : List (Nat × Nat) → Option (List Byte) × State
  | [] => (some [], s)
  | (va, n) :: r =>
    match heldPa q.pages va with
    | none => (none, s)
    | some pa =>
      match s.dieRead (q.home / 4) q.asid false pa n with
      | (none, s) => (none, s)
      | (some b, s) =>
        match State.readVector s q r with
        | (none, s) => (none, s)
        | (some l, s) => (some (b ++ l), s)

/-- A killed query ends: its reservation is released. -/
def State.endKilled (s : State) (q : Query) : State :=
  (s.dropPlace q.place q.uid).dropQuery q.uid

/-- Has the cancellation reached the home: it does within 1 µs of its issue (R339)? -/
def State.cancelHere (s : State) (q : Query) : Bool :=
  match q.cancel with
  | none => false
  | some c => decide (c + 1000 ≤ s.clock) || s.freeBit (1800 + 4096 * q.uid)

/-- A query that awaits admission ends at once when it is killed, diverted or cancelled (R339, R340). -/
def State.endWaiting (s : State) (q : Query) : Option State :=
  if q.killed then some (s.endKilled q)
  else if q.divert then some (s.putQuery { q with phase := .ended, status := 1 })
  else if s.cancelHere q then some (s.putQuery { q with phase := .ended, status := 3 })
  else none

/-- The home stack of the selected query admits it and reads its query vector. -/
def execDredgeQueryAdmit (s : State) : Out :=
  match s.query? s.sel with
  | none => .next s
  | some q =>
    if q.phase != .waiting then .next s
    else match s.endWaiting q with
      | some t => .next t
      | none =>
        if !s.admissible q then .next s
        else
          let n := q.dim * q.elem
          match s.readVector q (lineRuns (dw q.desc 0).toNat (n / 128 + 2) n) with
          | (none, s) => .next (s.putQuery { q with phase := .ended, status := 4, noVec := true })
          | (some b, s) =>
            let q := { q with qvec := q.elems b }
            let (new, q) := q.visitAll ((List.range q.entries).map q.entry)
            .next (s.putQuery (q.beginEval new))

/-- A request packet of the home stack to another stack is counted by both. -/
def State.countPacket (s : State) (q : Query) (stack : Nat) : Query × State :=
  if stack = q.home then (q, s)
  else ({ q with hand := q.hand + 1, asked := stack :: q.asked },
    { s with hoff := fset 0 s.hoff stack ((fget 0 s.hoff stack + 1) % 2 ^ 32) })

/-- A stack makes its part of the LIST step. -/
def execListRequest (uid stack : Nat) (s : State) : Out :=
  match s.query? uid with
  | none => .next s
  | some q =>
    if q.phase != .list || !q.toAsk.contains stack || !s.unitTurn q stack then .next s
    else
      let (l, bad, s) := s.readLists q (q.xs.filter (fun v => vertexStack v == stack))
      let (q, s) := s.countPacket q stack
      .next (s.putQuery { q with
        lists := q.lists ++ l, bad := q.bad ++ bad, toAsk := q.toAsk.filter (fun t => t != stack) }.listOn)

def execListReply (uid stack : Nat) (s : State) : Out :=
  match s.query? uid with
  | none => .next s
  | some q =>
    if q.phase != .list || !q.asked.contains stack then .next s
    else .next (s.putQuery { q with asked := q.asked.filter (fun t => t != stack) }.listOn)

/-- A stack makes its part of the EVAL step. -/
def execEvalRequest (uid stack : Nat) (s : State) : Out :=
  match s.query? uid with
  | none => .next s
  | some q =>
    if q.phase != .eval || !q.toAsk.contains stack || !s.unitTurn q stack then .next s
    else
      let (l, bad, s) := s.readDists q (q.new.filter (fun v => vertexStack v == stack))
      let (q, s) := s.countPacket q stack
      .next (s.putQuery { q with
        dists := q.dists ++ l, bad := q.bad ++ bad, evals := (q.evals + l.length) % 2 ^ 32
        toAsk := q.toAsk.filter (fun t => t != stack) }.evalOn)

def execEvalReply (uid stack : Nat) (s : State) : Out :=
  match s.query? uid with
  | none => .next s
  | some q =>
    if q.phase != .eval || !q.asked.contains stack then .next s
    else .next (s.putQuery { q with asked := q.asked.filter (fun t => t != stack) }.evalOn)

/-- The first end condition that holds at a boundary, as a status (R335); 5 stands for status 1 by the descriptor's deadline. -/
def State.endStatus (s : State) (q : Query) : Option Nat :=
  if !q.bad.isEmpty then some 4
  else if q.heap.all (fun e => e.exp) then some 0
  else if s.cancelHere q then some 3
  else if q.divert then some 1
  else if q.deadline != 0 && decide (q.deadline ≤ s.dtime) then some 5
  else if q.hops != 0 && q.rounds == q.hops then some 2
  else none

/-- A round boundary of the selected query; a query that awaits admission ends at once when it is cancelled, diverted or
killed (R339, R340). -/
def execDredgeRoundBoundary (s : State) : Out :=
  match s.query? s.sel with
  | none => .next s
  | some q =>
    match q.phase with
    | .waiting => .next ((s.endWaiting q).getD s)
    | .boundary =>
      if q.killed then .next (s.endKilled q)
      else match s.endStatus q with
        | some st => .next (s.putQuery { q with phase := .ended, status := st })
        | none => .next (s.putQuery q.beginRound)
    | _ => .next s

/-- The result record (R336). -/
def Query.record (q : Query) : List Byte :=
  let n := min q.k q.heap.length
  let st := (if q.status = 5 then 1 else q.status) + (if q.visFull then 256 else 0) + (if q.status = 1 then 512 else 0) + (if q.noVec then 1024 else 0)
  natToBytes 4 st ++ natToBytes 4 n ++ natToBytes 4 q.rounds ++ natToBytes 4 q.hand ++ natToBytes 4 q.tag.toNat ++
    natToBytes 4 (if q.status = 4 then q.faultV else 0) ++ natToBytes 4 q.evals ++ natToBytes 4 0 ++
    ((q.heap.take n).flatMap (fun e => natToBytes 4 e.id ++ natToBytes 4 e.dist)) ++
    (List.replicate (q.k - n) (natToBytes 4 0xFFFFFFFF ++ natToBytes 4 0x7F800000)).flatten

/-- Write bytes for a query through the translations of its issue. -/
def State.queryWrite (s : State) (q : Query) (va : Nat) : List (Nat × Nat) → List Byte → State
  | [], _ => s
  | (a, n) :: r, b =>
    let s := match heldPa q.pages a with
      | none => s
      | some pa => (s.dieWrite .other (q.home / 4) q.asid pa (b.take n)).2
    State.queryWrite s q va r (b.drop n)

def State.queryStore (s : State) (q : Query) (va : Nat) (b : List Byte) : State :=
  s.queryWrite q va (lineRuns va (b.length / 128 + 2) b.length) b

/-- The home stack of the selected query writes its result record. -/
def execDredgeResultRecord (s : State) : Out :=
  match s.query? s.sel with
  | none => .next s
  | some q =>
    if q.phase != .ended then .next s
    else if q.killed then .next (s.endKilled q)
    else .next ((s.queryStore q (dw q.desc 1).toNat q.record).putQuery { q with phase := .recorded })

/-- Under ordered retire, has every query that the hart issued earlier acted or been discarded? -/
def State.inOrder (s : State) (q : Query) : Bool :=
  !q.ord || (s.queries.takeWhile (fun x => x.uid != q.uid)).all (fun x => x.gid != q.gid)

/-! ## The hart of a request, in its place or in the image of its evicted team (R340, R365, R366) -/

/-- The place of an evicted team that a request names. -/
def Team.awayHart (t : Team) (g : Nat) : Option Hart :=
  (t.away.find? (fun h => awayId t.id h.num == g)).filter (fun _ => t.phase == .evicted)

/-- The address of a doubleword of an away hart's record: records stand in the order of hart numbers. -/
def State.recordAddr (s : State) (t : Team) (h : Hart) (k : Nat) : Nat :=
  s.saveBase (s.launch t.launch).asid + t.image + 4096 +
    4096 * (t.away.filter (fun x => x.run.isHart && decide (x.num < h.num))).length + 8 * k

def State.recordGet (s : State) (t : Team) (h : Hart) (k : Nat) : Word × State :=
  let (b, s) := s.readBytes (s.recordAddr t h k) 8
  (dwordOf b, s)

def State.recordPut (s : State) (t : Team) (h : Hart) (k : Nat) (w : Word) : State :=
  s.writeBytes .other (s.recordAddr t h k) (natToBytes 8 w.toNat)

/-- Change what the record of an away place does not hold. -/
def State.modAway (s : State) (t : Team) (num : Nat) (f : Hart → Hart) : State :=
  s.modTeam t.id (fun t => { t with away := t.away.map (fun h => if h.num = num then f h else h) })

/-- May the page of an away hart's record be reached (R377)? -/
def State.recordOpen (s : State) (t : Team) (h : Hart) : Bool :=
  (s.refusal (s.recordAddr t h 0) (s.launch t.launch).asid).isNone

/-- Change the saved record of an away hart; where it is refused, the change is discarded and posted (R405). -/
def State.onRecord (s : State) (t : Team) (h : Hart) (f : State → State) : State :=
  let pa := s.recordAddr t h 0
  if s.recordOpen t h then f s else s.postFault (s.homeDie (paLow pa)) 6 pa

/-- The counter of a class falls in a saved record. -/
def State.recordDec (s : State) (t : Team) (h : Hart) (cls : Nat) : State :=
  let (w, s) := s.recordGet t h 101
  s.recordPut t h 101 (wput w (16 * cls) 16 (wfield w (16 * cls) 16 - 1))

/-- An event enters the queue of a saved record, or is held while that is full (R80). -/
def State.recordUi (s : State) (t : Team) (h : Hart) (cls : Nat) (e : UiEvent) : State :=
  let (w, s) := s.recordGet t h 89
  let n := wfield w 32 5
  if 16 ≤ n || !h.uiHeld.isEmpty then s.modAway t h.num (fun h => { h with uiHeld := h.uiHeld ++ [e] })
  else
    let s := ((s.recordPut t h (336 + 3 * n) (BitVec.ofNat 64 e.cause)).recordPut t h (337 + 3 * n) e.ident).recordPut t h
      (338 + 3 * n) e.handler
    ((s.recordPut t h 89 (wput w 32 5 (n + 1))).recordDec t h cls).modAway t h.num (fun h => { h with uiq := h.uiq ++ [e] })

/-- The class 1 counter of a query's hart falls. -/
def State.queryCount (s : State) (q : Query) : State :=
  let t := s.team q.team
  match t.awayHart q.gid with
  | none => s.modHart q.gid (fun h => (h.decCnt 1).noteScope 1 4)
  | some h =>
    if h.run.isHart then (s.onRecord t h (fun s => s.recordDec t h 1)).modAway t h.num (fun h => h.noteScope 1 4)
    else s.modAway t h.num (fun h => h.decCnt 1)

/-- The user-interrupt event of a query; the counter falls when it enters the hart's queue. -/
def State.queryUi (s : State) (q : Query) : State :=
  let t := s.team q.team
  let e : UiEvent := ⟨3, q.va, dw q.desc 3, some 1, some .pkg⟩
  match t.awayHart q.gid with
  | none => (s.modHart q.gid (fun h => h.noteScope 1 4)).sendUi q.gid e
  | some h =>
    if h.run.isHart then (s.onRecord t h (fun s => s.recordUi t h 1 e)).modAway t h.num (fun h => h.noteScope 1 4)
    else s.modAway t h.num (fun h => h.decCnt 1)

/-- The completion action of the selected query (R337). For an evicted team the flag is written, and the counter or the event goes into the
saved state; a SPAWN hart waits for the restore (R340). -/
def execDredgeCompletion (s : State) : Out :=
  match s.query? s.sel with
  | none => .next s
  | some q =>
    if q.phase != .recorded then .next s
    else if q.killed then .next (s.endKilled q)
    else if !s.inOrder q then .next s
    else match q.mode with
      | 0 => .next ((s.dropQuery q.uid).queryCount q)
      | 1 => .next (((s.queryStore q (dw q.desc 3).toNat (natToBytes 8 (dw q.desc 4).toNat)).dropQuery q.uid).queryCount q)
      | 2 => .next ((s.dropQuery q.uid).queryUi q)
      | _ =>
        if (s.team q.team).phase == .evicted then .next s
        else
          let s := match q.place with
            | some g => s.startReserved g q.uid .pkg (dw q.desc 3) (dw q.desc 4)
            | none => s
          .next ((s.dropQuery q.uid).queryCount q)

end Sys2Proof.Machine
end

