-- ==== Sys2Proof/Machine/Fabric.lean ====
section
/-! DEFINITION. The host port, the memory ports and the die-to-die boundaries (R394 to R404). -/
namespace Sys2Proof.Machine

/-! ## Host accesses to memory (R372, R397, R398, R400) -/

/-- Does an HDM decoder map the address? -/
def State.hdmMaps (s : State) (la : Nat) : Bool := s.hdm.any (fun e => decide (e.1 ≤ la) && decide (la < e.1 + e.2))

/-- Is a host access to HBM refused? A decoder must map the address, and the key id is 0. -/
def State.hostRefused (s : State) (pa : Nat) : Bool :=
  !s.hdmMaps pa || (s.refusal pa 0).isSome || paKey pa != 0 || s.region (paLow pa) != .hbm

/-- Does an access of `n` bytes stay within a line? -/
def inLine (pa n : Nat) : Bool := decide (0 < n) && decide (pa % 128 + n ≤ 128)

/-- A host read is performed at the line's home slice, which tracks the line from then on; with `own` the host takes it to modify
it. A refused one is posted and delivers poison, as one of a lost line does. Without CXL there is no such access (R395). -/
def execHostCxlMemRead (a : Access) (own : Bool) (s : State) : Out :=
  let pa := a.pa
  let n := a.size
  if !s.cxl || !inLine pa n then .next s
  else if s.hostRefused pa then .next (s.postFault (s.homeDie (paLow pa)) 6 pa)
  else if s.isLost (paLow pa) then .next s
  else
    let ln := tagLine pa
    let s := if own then ((s.hostDrop ln).recall ln).endRdc ln else s
    let s := (s.ready pa n).countRead ln
    .next { s with
      hostHas := if s.hostHas.contains ln then s.hostHas else s.hostHas ++ [ln]
      hostMod := if own && !s.hostMod.contains ln then s.hostMod ++ [ln] else s.hostMod }

/-- A host write is performed at the line's home slice; a refused one, and a partial one to a lost line, is discarded and
posted. A line that the host had modified is thereby written back. In the host window it is a store of the host to its own memory,
which device programs then see (R398). -/
def execHostCxlMemWrite (pa : Nat) (bytes : List Byte) (s : State) : Out :=
  if !inLine pa bytes.length then .next s
  else match s.region (paLow pa) with
    | .host _ => .next ((s.drainPort 8).poke (paLow pa) bytes)
    | _ =>
      if !s.cxl then .next s
      else if s.hostRefused pa || (s.isLost (paLow pa) && bytes.length != 128) then .next (s.postFault (s.homeDie (paLow pa)) 6 pa)
      else
        let s := { s with hostMod := s.hostMod.filter (fun l => l != tagLine pa) }
        .next ((s.unlose (paLow pa)).writeAt .other pa bytes)

/-- The host's response to a snoop: it holds the selected line no longer, and has written it back if it had modified it. -/
def execBackInvalidateResponse (s : State) : Out := .next (s.hostDrop s.sel)

/-! ## Memory ports (R394, R401, R402) -/

/-- Does a hart wait for an access held at a port? -/
def Hart.farHeld (h : Hart) (p : Nat) : Bool :=
  match h.run with
  | .waiting (.far q) => q.contains p && h.answer.isNone
  | _ => false

/-- Does a hart wait for an access held at any port? -/
def Hart.farHeldAny (h : Hart) : Bool :=
  match h.run with
  | .waiting (.far _) => h.answer.isNone
  | _ => false

/-- A held access of the selected hart completes. -/
def execFarAccessComplete (s : State) : Out :=
  if (s.hartOf s.sel).farHeldAny then .next (s.modHart s.sel (fun h => { h with answer := some 0 })) else .next s

/-- A port's window goes offline for a cause: its buffered stores are discarded, posted line by line and counted; the harts that
wait for an access held there execute it again, and it faults. -/
def State.portOffline (s : State) (p cause : Nat) : State :=
  let lost := s.farBuf.filter (fun e => e.port == p)
  let s := { s with farBuf := s.farBuf.filter (fun e => e.port != p) }
  ((if lost.isEmpty then s else s.farDiscard p lost).modPort p (fun o => { o with
    state := 2, cause := cause, online := false, offAt := s.clock })).raiseVector 3

/-- The selected port's link goes down. -/
def execPortLinkDown (s : State) : Out :=
  let o := s.port s.sel
  if 8 ≤ s.sel || !o.link then .next s
  else
    let s := s.modPort s.sel (fun o => { o with link := false })
    if o.state = 1 then .next (s.portOffline s.sel 1) else .next s

/-- A request at the selected port has waited FMTMO: an access that a hart holds there, or a buffered store. -/
def execPortTimeout (s : State) : Out :=
  let o := s.port s.sel
  let due (t : Nat) : Bool := decide (t + 1000 * o.tmo ≤ s.clock)
  if o.state = 1 && s.sel < 8 && (s.resident.any (fun h => h.farHeld s.sel && due h.waitFrom) ||
      s.farBuf.any (fun e => e.port == s.sel && due e.since)) then .next (s.portOffline s.sel 2)
  else .next s

/-- The selected port's link trains: first it is in training, then it is up, and the expander's capacity shows (log 20). -/
def execPortLinkUp (s : State) : Out :=
  let o := s.port s.sel
  if 8 ≤ s.sel || o.link then .next s
  else if o.state != 3 then .next (s.modPort s.sel (fun o => { o with state := 3 }))
  else .next (s.modPort s.sel (fun o => { o with
    link := true, state := 2
    units := if o.units = 0 then 1 + s.freeNat 2300 % 8192 else o.units }))

/-- A port that the driver takes offline, once its outstanding requests have completed. -/
def State.portsSettle (s : State) (p : Nat) : State :=
  let o := s.port p
  if o.state = 1 && !o.online && !(s.resident.any (fun h => h.farHeld p)) then
    ((s.drainPort p).modPort p (fun o => { o with state := 2, cause := 3, offAt := s.clock })).raiseVector 3
  else s

/-- What a port owes at each step: the driver's request to take it offline, and, offline, the discard of stores that have reached
it. -/
def State.portTick (s : State) (p : Nat) : State :=
  let s := s.portsSettle p
  if s.portOn p then s else s.drainPort p

/-- The same for every memory port. -/
def State.portsTick (s : State) : State :=
  if s.farBuf.isEmpty && s.ports.all (fun e => e.2.state != 1 || e.2.online) then s else (List.range 8).foldl State.portTick s

/-- A write of FMCTL: ignored while the link is down. -/
def State.writeFmctl (s : State) (p : Nat) (v : Word) : State :=
  let o := s.port p
  if !o.link then s
  else if wbit v 0 then s.modPort p (fun o => { o with state := 1, online := true })
  else (s.modPort p (fun o => { o with online := false })).portsSettle p

def execFmctlOnline (port : Nat) (v : Word) (s : State) : Out :=
  if 8 ≤ port then .next s else .next (s.writeFmctl port v)

/-! ## Die-to-die boundaries (R403, R404) -/

def State.bound (s : State) (b : Nat) : Boundary := fget Boundary.fresh s.bounds b
def State.modBound (s : State) (b : Nat) (f : Boundary → Boundary) : State :=
  { s with bounds := fset Boundary.fresh s.bounds b (f (s.bound b)) }

/-- A boundary retrains; one that cannot within 10 µs stops the package. -/
def execD2dRetrain (boundary : Nat) (inTime : Bool) (s : State) : Out :=
  if 4 ≤ boundary then .next s
  else if !inTime then .next { s with stopped := true }
  else .next ((s.modBound boundary (fun b => { b with rtr := min (b.rtr + 1) 0xFFFF })).raiseVector 4)

/-- The selected boundary degrades until the next bring-up. -/
def execD2dDegrade (s : State) : Out :=
  if 4 ≤ s.sel then .next s
  else .next ((s.modBound s.sel (fun b => { b with deg := true })).raiseVector 4)

end Sys2Proof.Machine
end

