-- ==== Sys2Proof/Machine/Control.lean ====
section
/-! DEFINITION. Control and scheduling instructions but for exits, and the entry to interrupt and user-interrupt handlers
(R66, R67, R69, R73, R77, R80 to R93). -/
namespace Sys2Proof.Machine

/-! ## Scheduling (R86, R90) -/

/-- The scheduler's preference is no architectural state (R86). -/
def execYield (s : State) : Out := .next s.retire

def execLbfence (s : State) : Out := .next (s.lbSync s.hart.gid s.coreNo).retire

/-! ## `spawn` (R87) -/

def execSpawn (rd rs1 rs2 : XReg) (s : State) : Out :=
  .next (s.notM (
    let h := s.hart
    let alloc := (s.launchOf h.team).roleAlloc h.role
    let no := (s.setX rd 0xFFFFFFFFFFFFFFFF#64).retire
    if 32 ≤ (s.teamPlaces h.team).length then no
    else match s.freePlace s.coreNo with
      | none => no
      | some g =>
        if !s.canAlloc s.coreNo alloc then no
        else
          let t := (s.takeGran g alloc).createHart g h.team h.role (s.freeNum h.team) alloc (s.getX rs1) (s.getX rs2) 0
          let t := t.bornInWrap g h.team
          let t := t.modHart g (fun n => { n with run := .starting })
          (t.setX rd (BitVec.ofNat 64 g)).retire))

/-- The selected hart, created by `spawn`, may issue. -/
def execSpawnedHartEligible (s : State) : Out :=
  if (s.hartOf s.sel).run = .starting then .next (s.modHart s.sel (fun h => { h with run := .ready })) else .next s

/-! ## Lane-register allocation (R66, R67, R89) -/

/-- May the request of the hart be granted before those that wait? -/
def State.growFirst (s : State) (prio : Nat) : Bool := (s.core s.coreNo).grow.all (fun w => decide (w.prio < prio))

def execRgrow (rd rs1 : XReg) (s : State) : Out :=
  .next (s.notM (
    let h := s.hart
    match h.answer with
    | some v => (s.setX rd v).retire
    | none =>
      let n := 32 * (h.getX rs1).toNat
      if n = 0 then (s.setX rd (BitVec.ofNat 64 h.lalloc)).retire
      else if min ((s.launchOf h.team).roleBudget h.role) 640 < h.lalloc + n then s.illegal
      else if h.run.isWaiting then s
      else if s.growFirst (s.prio h) && s.canAlloc s.coreNo n then
        (((s.takeGran h.gid n).onHart (fun h => { h with lalloc := h.lalloc + n })).setX rd (BitVec.ofNat 64 (h.lalloc + n))).retire
      else
        (s.modCore s.coreNo (fun k => { k with grow := insertWaiter k.grow ⟨s.prio h, h.gid⟩ })).wait (.rgrow n)))

/-- The pool grants the request at the head of the selected hart's core, which is that hart's. -/
def execRegisterPoolGrant (s : State) : Out :=
  let g := s.sel
  let c := gidCore g
  match (s.core c).grow, (s.hartOf g).run with
  | w :: r, .waiting (.rgrow n) =>
    if w.gid = g && s.canAlloc c n then
      .next (((s.takeGran g n).modCore c (fun k => { k with grow := r })).modHart g (fun h =>
        { h with lalloc := h.lalloc + n, answer := some (BitVec.ofNat 64 (h.lalloc + n)) }))
    else .next s
  | _, _ => .next s

/-- Give up the lane registers from a number on; what they held is lost. -/
def Hart.shrinkTo (h : Hart) (n : Nat) : Hart := { h with lalloc := n, v := h.v.filter (fun e => decide (e.1 < 32 * n)) }

def execRshrink (rs1 : XReg) (s : State) : Out :=
  .next (s.notM (
    let h := s.hart
    let n := 32 * (h.getX rs1).toNat
    if h.lalloc < n || h.strm.any (fun e => e.2.bound && decide (h.lalloc - n ≤ e.2.reg)) then s.illegal
    else (s.onHart (fun h => h.shrinkTo (h.lalloc - n))).retire))

/-! ## Hardware loops (R91) -/

/-- Start a loop level at this instruction. -/
def Hart.setLoop (h : Hart) (lvl : Bool) (count : Word) (len : Nat) : Hart :=
  let beg := h.pc + 4
  let fin := h.pc + 4 + BitVec.ofNat 64 (2 * len)
  if lvl then { h with lpcnt1 := count, lpbeg1 := beg, lpend1 := fin, lpxe1 := 0 }
  else { h with lpcnt0 := count, lpbeg0 := beg, lpend0 := fin, lpxe0 := 0 }

/-- Start a loop; a count of 0 goes to its end. -/
def State.startLoop (s : State) (lvl : Bool) (count : Word) (len : Nat) : State :=
  if s.hart.mode != .u || s.hart.uiAct then s.illegal
  else
    let t := s.onHart (fun h => h.setLoop lvl count len)
    if count = 0 then t.retireTo (s.hart.pc + 4 + BitVec.ofNat 64 (2 * len)) else t.retire

def execHloop (lvl : Bool) (rs1 : XReg) (len : BitVec 12) (s : State) : Out :=
  .next (s.startLoop lvl (s.getX rs1) len.toNat)

def execHloopi (lvl : Bool) (count : BitVec 12) (len : BitVec 10) (s : State) : Out :=
  .next (s.startLoop lvl (count.setWidth 64) len.toNat)

/-! ## User interrupts (R80 to R83) -/

/-- Leave the handler: the bank back, uistat.act clear. -/
def Hart.leaveHandler (h : Hart) : Hart := { h.swapBank with uiAct := false }

def execUiret (s : State) : Out :=
  if s.hart.mode != .u || !s.hart.uiAct then .next s.illegal
  else .next (s.onHart (fun h => (h.leaveHandler).retireTo h.uiepc))

def execUimask (n : BitVec 12) (s : State) : Out :=
  .next (s.notM (s.onHart (fun h => { h with uiUntil := s.clock + (if n = 0 then 4096 else n.toNat) })).retire)

/-- The `uimask` window of the selected hart has run out. -/
def execUimaskWindowExpire (s : State) : Out :=
  let h := s.hartOf s.sel
  if h.uiUntil != 0 && decide (h.uiUntil ≤ s.clock) then .next (s.modHart s.sel (fun h => { h with uiUntil := 0 })) else .next s

/-- The handler address of an event (R81). -/
def Hart.uiHandler (h : Hart) (e : UiEvent) : Word :=
  if e.handler != 0 then e.handler else h.uivec + BitVec.ofNat 64 (4 * e.cause)

/-- May the focused hart take a user interrupt (R77)? -/
def State.uiOpen (s : State) : Bool :=
  !s.hart.uiq.isEmpty && s.hart.mode == .u && s.hart.uiIe && !s.hart.uiAct &&
    (s.hart.uiUntil == 0 || decide (s.hart.uiUntil ≤ s.clock))

/-- The focused hart takes the oldest user-interrupt event (R82). -/
def execUiEntry (s0 : State) : Out :=
  if !s0.uiOpen then .next s0
  else
    let s := s0.withdraw
    match s.hart.uiq with
    | [] => .next s0
    | e :: r =>
      let s := match e.acq with
        | some sc => s.acquire s.hart.gid sc
        | none => s
      .next (s.onHart (fun h =>
        ({ h.swapBank with
          uiq := r, uiepc := h.pc, uicause := BitVec.ofNat 64 e.cause, uiid := e.ident, uiAct := true,
          pc := h.uiHandler e, uiUntil := 0 }).admitHeld))

/-- The focused hart takes the first interrupt of R73 that is pending and open. -/
def execInterruptEntry (s : State) : Out :=
  match s.nextInt with
  | none => .next s
  | some i => .next (s.withdraw.onHart (fun h => h.enterTrap true ⟨i, 0, 0⟩))

end Sys2Proof.Machine
end

