-- ==== Sys2Proof/Machine/Launch.lean ====
section
/-! DEFINITION. The front end and the work distributors: dequeuing launch packets, admission and refusal, placement, the
start of teams, and the slack table (R162, R163, R291 to R300, R351, R352, R373, R377, R407). -/
namespace Sys2Proof.Machine

/-! ## Admission (R293 to R295, R351, R377) -/

/-- Does a physical range lie wholly in HBM or in the host window? Pools are made of aligned granules of 1 GiB. -/
def State.inHbmOrHost (s : State) (pa n : Nat) : Bool :=
  let la := paLow pa
  decide (pa < 2 ^ 52) &&
  (List.range ((la + n - 1) / gib + 1 - la / gib)).all (fun i =>
    match s.region (max la ((la / gib + i) * gib)) with
    | .hbm | .host _ => true
    | _ => false)

/-- The barrier domain codes of the resource word. -/
def barCodeOk (c : Nat) : Bool := c == 0 || (decide (0x100 ≤ c) && decide (c ≤ 0x13F)) || (decide (0x200 ≤ c) && decide (c ≤ 0x20F))

/-- Are the role fields in range? -/
def Launch.rolesOk (l : Launch) : Bool :=
  decide (1 ≤ l.teamSize) && decide (l.teamSize ≤ 32) &&
  (List.range 4).all (fun k => decide (l.roleHarts k ≤ 32) && decide (l.roleBudget k ≤ 640) &&
    decide (32 * wfield l.roles (16 * k + 11) 5 ≤ l.roleBudget k))

/-- Are the resource and control words in range, and their unnamed bits 0? -/
def Launch.wordsOk (l : Launch) : Bool :=
  let r := l.resource
  decide (wfield r 0 3 ≤ 4) && wfield r 5 3 == 0 && decide (wfield r 8 6 ≤ 32) && wfield r 14 2 == 0 &&
  decide (wfield r 16 6 ≤ 32) && wfield r 22 2 == 0 && decide (wfield r 24 5 ≤ 16) && wfield r 29 3 == 0 &&
  decide (wfield r 32 5 ≤ 16) && wfield r 37 3 == 0 && decide (wfield r 40 4 ≤ 8) && wfield r 44 4 == 0 &&
  wfield r 60 4 == 0 && barCodeOk l.barCode && decide (l.affinity ≤ 2) && wfield l.control 14 2 == 0 &&
  wfield l.control 32 32 == 0

/-- The rules of R351 for the deadline fields. -/
def Launch.deadlineOk (l : Launch) : Bool :=
  if l.deadline = 0 then l.outcome % 8 == 0
  else decide (l.budget ≤ 2 ^ 22) && (l.budget == 0 || (l.wrapEntry != 0 && l.wrapEntry.toNat % 2 == 0)) &&
    l.outcome != 0 && l.outcome % 8 == 0

/-- Bytes of the outcome array (R351). -/
def Launch.arrayBytes (l : Launch) : Nat := 8 * cdiv l.teamCount 32 + 8 * l.teamCount

/-- Is every field of the packet and of the record in range, and every reserved bit 0? -/
def State.fieldsOk (s : State) (l : Launch) : Bool :=
  dw l.pkt 4 == 0 && l.shapeTable.toNat % 2048 == 0 && decide (1 ≤ l.gridX) && decide (l.gridX < 2 ^ 31) &&
  decide (1 ≤ l.gridY) && decide (1 ≤ l.gridZ) && l.rolesOk && l.wordsOk && l.deadlineOk &&
  (l.outcome == 0 || s.inHbmOrHost l.outcome l.arrayBytes) && l.complAddr % 8 == 0 &&
  (l.complAddr == 0 || s.inHbmOrHost l.complAddr 8) &&
  wfield (dw l.ctx 6) 6 6 == 0 && wfield (dw l.ctx 7) 32 32 == 0 &&
  (let t := wfield (dw l.ctx 6) 0 6; t == 0 || (decide (16 ≤ t) && decide (t ≤ 40)))

/-- Lane registers that a team's harts begin with. -/
def Launch.teamRegs (l : Launch) : Nat :=
  (List.range 4).foldl (fun n k => n + l.roleHarts k * l.roleAlloc k) 0

/-! ## Shares (R162) -/

/-- The lowest free range of a pool that is large enough. -/
def lowestFree (used : List (Nat × Nat)) (size total : Nat) : Option Nat :=
  if size = 0 then some 0
  else
    let ok (b : Nat) : Bool := decide (b + size ≤ total) && used.all (fun u => u.2 == 0 || decide (b + size ≤ u.1) || decide (u.1 + u.2 ≤ b))
    ((0 :: used.map (fun u => u.1 + u.2)).filter ok).foldl (fun (o : Option Nat) b =>
      match o with
      | none => some b
      | some a => some (min a b)) none

/-- The share that a core can grant to a team of the launch; its lane registers are another range (`laneBase`). -/
def State.grantShare (s : State) (core : Nat) (l : Launch) : Option Share :=
  let u := s.coreShares core
  let r := l.resource
  let sem := 16 * wfield r 32 5
  let mtx := 4 * wfield r 40 4
  let sh := 65536 * wfield r 0 3
  let act := 16384 * wfield r 8 6
  let wgt := 16384 * wfield r 16 6
  let acc := 16384 * wfield r 24 5
  match lowestFree (u.map (fun x => (x.semBase, x.semN))) sem 256, lowestFree (u.map (fun x => (x.mtxBase, x.mtxN))) mtx 32,
    lowestFree (u.map (fun x => (x.shBase, x.shSize))) sh 262144, lowestFree (u.map (fun x => (x.actBase, x.actSize))) act 524288,
    lowestFree (u.map (fun x => (x.wgtBase, x.wgtSize))) wgt 524288, lowestFree (u.map (fun x => (x.accBase, x.accSize))) acc 262144 with
  | some a, some b, some c, some d, some e, some f => some ⟨a, sem, b, mtx, c, sh, d, act, e, wgt, f, acc⟩
  | _, _, _, _, _, _ => none

/-- May a core hold teams of the context: it runs, is powered, and belongs to the context's Polder, or to none (R306, R373,
R383)? -/
def State.coreOpen (s : State) (core asid : Nat) : Bool :=
  let k := s.core core
  k.state == 0 && (k.power == .active || k.power == .idle) && k.slot == s.slotOf asid

/-- The first granule of the lowest free range of a core's register pool for `n` registers. -/
def State.laneBase (s : State) (core n : Nat) : Option Nat :=
  if s.canAlloc core n then lowestFree ((s.usedGran core).map (fun g => (g, 1))) (n / 32) 256 else none

/-- Has the core a team barrier domain to give: each of its teams has one, with harts or without? -/
def State.domainFree (s : State) (core : Nat) : Bool :=
  decide ((s.teams.filter (fun t => t.core == core && t.phase.holds)).length < 32)

/-- The share that the core grants if it can take a team of the launch at once. -/
def State.canTake (s : State) (core : Nat) (l : Launch) : Option Share :=
  if s.coreOpen core l.asid && decide ((s.corePlaces core).length + l.teamSize ≤ 32) && 
      (s.laneBase core l.teamRegs).isSome && s.domainFree core then
    s.grantShare core l
  else none

/-! ## Placement (R163, R297 to R300) -/

/-- The hash f of a team's linear index. -/
def placeHash (key : Word) (lin : Nat) : Nat :=
  let h := key ^^^ (BitVec.ofNat 64 lin * 0x9E3779B97F4A7C15#64)
  let f := wfield h 32 32 ^^^ wfield h 0 32
  f ^^^ (f >>> 16)

/-- The preferred die and cluster. -/
def prefDie (key : Word) (lin : Nat) : Nat := placeHash key lin % 4
def prefCluster (key : Word) (lin : Nat) : Nat :=
  let f := placeHash key lin
  3 * (f / 4 % 4) + f / 16 % 4 % 3

/-- Free hart places of a die, on the cores that may hold teams of the context. -/
def State.dieFree (s : State) (asid d : Nat) : Nat :=
  let listed := s.cores.filter (fun e => coreDie e.1 == d)
  let cores := if s.slotOf asid = 0 then 192 - (listed.filter (fun e => !s.coreOpen e.1 asid)).length
    else (listed.filter (fun e => s.coreOpen e.1 asid)).length
  32 * cores - (s.places.filter (fun h => gidDie h.gid == d && s.coreOpen (gidCore h.gid) asid)).length

/-- The die with the most free hart places for a context, the lowest on a tie. -/
def State.freeDie (s : State) (asid : Nat) : Nat :=
  (List.range 4).foldl (fun b d => if s.dieFree asid b < s.dieFree asid d then d else b) 0

/-- The die of a team (R298). -/
def State.teamDie (s : State) (l : Launch) (t : Team) : Nat :=
  match l.die, t.die with
  | some d, _ => d
  | none, some d => d
  | none, none =>
    match l.affinity with
    | 2 => l.explicitDie
    | 1 => if t.spilled then s.freeDie l.asid else prefDie l.key t.lin
    | _ => s.freeDie l.asid

/-- Rank of a core, lower first: preferred cluster, resident harts, number (R299). -/
def State.coreRank (s : State) (l : Launch) (t : Team) (core : Nat) : Nat :=
  let pref := l.affinity == 1 && core % 192 / 16 == prefCluster l.key t.lin
  (if pref then 0 else 2 ^ 32) + 2 ^ 16 * ((s.corePlaces core).filter (fun h => h.run.isHart)).length + core % 192

/-- The core of a die that takes a team, with its share. -/
def State.bestCore (s : State) (l : Launch) (t : Team) (d : Nat) : Option (Nat × Share) :=
  (List.range 192).foldl (fun (o : Option (Nat × Share)) i =>
    let c := 192 * d + i
    match s.canTake c l, o with
    | none, o => o
    | some sh, none => some (c, sh)
    | some sh, some b => if s.coreRank l t c < s.coreRank l t b.1 then some (c, sh) else some b) none

/-- The role of hart number `i` (R163). -/
def Launch.roleOf (l : Launch) (i : Nat) : Nat :=
  if i < l.roleHarts 0 then 0
  else if i < l.roleHarts 0 + l.roleHarts 1 then 1
  else if i < l.roleHarts 0 + l.roleHarts 1 + l.roleHarts 2 then 2 else 3

/-- Create the harts of a team on its core, in ascending number, their lane registers one after another from a granule on. -/
def State.createTeam (s : State) (l : Launch) (t : Team) (core : Nat) : Nat → List Nat → State
  | _, [] => s
  | at_, i :: r =>
    match s.freePlace core with
    | none => s
    | some g =>
      let n := l.roleAlloc (l.roleOf i)
      let s := (s.giveGran g ((List.range (n / 32)).map (fun j => at_ + j))).createHart g t.id (l.roleOf i) i n l.entry l.arg (BitVec.ofNat 64 i)
      State.createTeam s l t core (at_ + n / 32) r

/-- A team starts on a core with a share, whose shared memory converts ways of the core's slice (R224). Creating its harts is an acquire
at system scope (R316). -/
def State.placeTeam (s : State) (l : Launch) (t : Team) (core : Nat) (sh : Share) : State :=
  let at_ := (s.laneBase core l.teamRegs).getD 0
  let s := (s.modTeam t.id (fun x => { x with core := core, share := sh, phase := .running, die := some (coreDie core) })).l1Convert core
  let s := s.modLaunch l.id (fun x => { x with start := some (x.start.getD s.dtime) })
  (s.createTeam l t core at_ (List.range l.teamSize)).acquire (coreGid core 0) .sys

/-- Place one team, if a core of its die can take it. -/
def State.tryOne (s : State) (l : Launch) (t : Team) : Option State :=
  (s.bestCore l t (s.teamDie l t)).map (fun b => s.placeTeam l t b.1 b.2)

/-- Place a group of 16 teams on a cluster: team `i` of the group at position `i`; `none` where some core cannot take its
team. -/
def State.placeRing (s : State) (l : Launch) (cluster : Nat) : List Team → Option State
  | [] => some s
  | t :: r =>
    let c := 16 * cluster + t.lin % 16
    match s.canTake c l with
    | none => none
    | some sh => State.placeRing (s.placeTeam l t c sh) l cluster r

/-- The lowest-numbered cluster of the group's die that can take it. -/
def State.tryRing (s : State) (l : Launch) (ts : List Team) : Option State :=
  match ts with
  | [] => some s
  | t :: _ => (List.range 12).findSome? (fun c => s.placeRing l (12 * s.teamDie l t + c) ts)

/-- Teams of a launch that wait, in linear order. -/
def State.waitingTeams (s : State) (l : Nat) : List Team := s.teams.filter (fun t => t.launch == l && t.phase == .waiting)

/-- Place teams one after another, or ring groups: all, or none. -/
def State.tryAll (l : Launch) : Nat → List Team → State → Option State
  | 0, _, s => some s
  | n + 1, ts, s =>
    match ts with
    | [] => some s
    | t :: r =>
      if l.ring then (s.tryRing l (ts.take 16)).bind (State.tryAll l n (ts.drop 16))
      else (s.tryOne l t).bind (State.tryAll l n r)

/-- Is the grid bound to one die by its barrier domain (R300)? -/
def Launch.dieBound (l : Launch) : Bool := decide (0x100 ≤ l.barCode) && decide (l.barCode ≤ 0x13F)

/-- The grid's barrier domain, once its die is known. -/
def Launch.domain (l : Launch) : Option DomKey :=
  if l.barCode = 0 then Option.none else domKey (l.die.getD 0) 0 l.barCode

/-- Configure the grid's domain with every hart of the grid (R295). -/
def State.gridDomain (s : State) (l : Launch) : State :=
  match l.domain with
  | none => s
  | some k =>
    let ts := (s.teams.filter (fun t => t.launch == l.id)).map Team.id
    s.configure k l.asid ((s.resident.filter (fun h => ts.contains h.team)).map Hart.gid)

/-- Is a domain configured for another ASID? -/
def State.domForeign (s : State) (k : Option DomKey) (asid : Nat) : Bool :=
  match k with
  | none => false
  | some k => match s.domGet k with
    | some d => d.asid != asid
    | none => false

/-- Place a co-resident grid at once. -/
def State.tryGrid (s : State) (l : Launch) (ts : List Team) : Option State :=
  let l := if l.dieBound then { l with die := some (l.die.getD (match ts with | t :: _ => s.teamDie l t | [] => 0)) } else l
  if s.domForeign l.domain l.asid then none
  else (State.tryAll l ts.length ts (s.modLaunch l.id (fun x => { x with die := l.die }))).map (fun s => s.gridDomain l)

/-- Start a waiting team, with its group or its grid where these are placed together. -/
def State.tryStart (s : State) (t : Team) : Option State :=
  let l := s.launch t.launch
  let ts := s.waitingTeams l.id
  if t.phase != .waiting || l.expired || l.ended then none
  else if l.coRes then s.tryGrid l ts
  else if l.ring then s.tryRing l (ts.filter (fun u => u.lin / 16 == t.lin / 16))
  else s.tryOne l t

/-- Effective priority of a launch's teams (R352). -/
def Launch.prio (l : Launch) : Nat := min (l.base + l.boost) 254

/-- Is a team handed to the distributors before another: priority, admission, linear index (R298)? -/
def State.handedBefore (s : State) (a b : Team) : Bool :=
  let la := s.launch a.launch
  let lb := s.launch b.launch
  decide (lb.prio < la.prio) ||
    (la.prio == lb.prio && (decide (la.id < lb.id) || (la.id == lb.id && decide (a.lin < b.lin))))

/-! ## Where an evicted team can be restored (R165, R356, R365, R366) -/

/-- Lane registers of an evicted team. -/
def Team.awayRegs (t : Team) : Nat := (t.away.map Hart.lalloc).foldl (· + ·) 0

/-- Do the places of the team stand free on a core that can grant its shares and take its commands? -/
def State.canRestore (s : State) (t : Team) (core : Nat) : Option Share :=
  let l := s.launch t.launch
  let k := s.core core
  if s.coreOpen core l.asid && t.away.all (fun h => (s.hartOf (coreGid core (gidPlace h.gid))).run == .vacant) &&
      (s.laneBase core t.awayRegs).isSome && s.domainFree core && !k.rst && decide (k.queue.length + t.awayCmds.length ≤ 64) then
    s.grantShare core l
  else none

/-- May the front end reach an image: no page of it is refused to the context (R372, R377)? -/
def State.imageOpen (s : State) (asid off size : Nat) : Bool :=
  (List.range (size / 4096)).all (fun i => (s.refusal (s.saveBase asid + off + 4096 * i) asid).isNone)

/-- Cores on which an evicted team may resume: a die-bound team on its die, a ring-placed one at its position, none while its image cannot
be reached. -/
def State.restoreCores (s : State) (t : Team) : List (Nat × Share) :=
  let asid := (s.launch t.launch).asid
  let hdr := imgWord ((s.readBytes (s.saveBase asid + t.image + 0x38) 8).1) 0
  if !s.imageOpen asid t.image t.imageSize then []
  else (List.range 768).filterMap (fun c =>
    if (wbit hdr 2 && coreDie c != wfield hdr 3 2) || (wbit hdr 1 && c % 16 != wfield hdr 5 4) then none
    else (s.canRestore t c).map (fun sh => (c, sh)))

/-- Is there a team that is to be restored for its divert and can be: it goes ahead of all other work (R356)? -/
def State.divertWaits (s : State) : Bool :=
  s.teams.any (fun t => t.phase == .evicted && t.forDivert && !t.killed && !(s.restoreCores t).isEmpty)

/-- The selected team starts, unless a team that can start comes before it; a team that cannot start waits on the die to
which it has been handed. -/
def execTeamStart (s : State) : Out :=
  let t := s.team s.sel
  let l := s.launch t.launch
  match s.tryStart t with
  | some u =>
    if s.divertWaits || s.teams.any (fun o => s.handedBefore o t && (s.tryStart o).isSome) then .next s else .next u
  | none =>
    if t.phase == .waiting && !l.coRes && (l.affinity == 0 || t.spilled) && t.die.isNone then
      .next (s.modTeam t.id (fun x => { x with die := some (s.freeDie l.asid) }))
    else .next s

/-- The selected team has waited FESPILL µs for its preferred die (R298). -/
def execSpillTimeout (s : State) : Out :=
  let t := s.team s.sel
  let l := s.launch t.launch
  if t.phase == .waiting && l.affinity == 1 && l.die.isNone && decide (t.since + 1000 * wfield s.fe.fespill 0 32 ≤ s.clock) then
    .next (s.modTeam t.id (fun x => { x with spilled := true }))
  else .next s

/-! ## Dequeuing and admission -/

/-- Teams of a launch as they wait. -/
def Launch.newTeams (l : Launch) (uid since : Nat) : List Team :=
  (List.range l.teamCount).map (fun i =>
    { Team.none with
      id := uid + i, launch := l.id, lin := i, phase := .waiting, outDone := false, since := since, spilled := false })

/-- How many teams of the launch an empty core can take (R162). -/
def Launch.perCore (l : Launch) : Nat :=
  let r := l.resource
  [(32, l.teamSize), (8192, l.teamRegs), (4, wfield r 0 3), (32, wfield r 8 6), (32, wfield r 16 6), (16, wfield r 24 5),
    (16, wfield r 32 5), (8, wfield r 40 4)].foldl (fun n e => if e.2 = 0 then n else min n (e.1 / e.2)) 32

/-- Can the cores that a test picks hold the grid at once, with nothing else resident: those that run, and those of the Polder that the
context owns, if any (R295, R306, R373)? -/
def State.gridFits (s : State) (l : Launch) (pick : Nat → Bool) : Bool :=
  let good (c : Nat) : Bool := pick c && (s.core c).state == 0 && (s.core c).slot == s.slotOf l.asid
  let n := if l.ring then 16 * ((List.range 48).filter (fun k => (List.range 16).all (fun i => good (16 * k + i)))).length
    else ((List.range 768).filter good).length
  decide (l.teamCount ≤ l.perCore * n)

/-- Can the package hold the grid at once, with nothing else resident: on the named die, on any one die for a die barrier domain, or
anywhere? -/
def State.couldHold (s : State) (l : Launch) : Bool :=
  if l.affinity = 2 then s.gridFits l (fun c => coreDie c == l.explicitDie)
  else if l.dieBound then (List.range 4).any (fun d => s.gridFits l (fun c => coreDie c == d))
  else s.gridFits l (fun _ => true)

/-- The die that R298 chooses for the first team of a launch, by which a die barrier domain is known (R300). -/
def State.gridDie (s : State) (l : Launch) : Nat := s.teamDie l { Team.none with lin := 0, die := none, spilled := false }

/-- The reason code of a refusal; 0 for an admission (R295, R377). -/
def State.refuseCode (s : State) (l : Launch) : Nat :=
  if !s.fieldsOk l then 1
  else if 8192 < l.teamRegs then 2
  else if l.coRes && !s.couldHold l then 3
  else if l.ring && (l.teamCount % 16 != 0 || decide (1 < l.teamSize)) then 4
  else if l.barCode != 0 && (!l.coRes ||
    s.domForeign ({ l with die := some (s.gridDie l) }).domain l.asid) then 5
  else if l.base = 255 then 6
  else if s.jobs.any (fun j => j.asid == l.asid) then 7
  else 0

/-- Admit a launch: its teams wait; one whose deadline has passed expires at once (R351). -/
def State.admitLaunch (s : State) (l : Launch) : State :=
  let ts := l.newTeams s.nextUid s.clock
  let l := { l with expired := l.deadline != 0 && decide (l.deadline ≤ s.dtime) }
  let s := { s with nextUid := s.nextUid + l.teamCount, launches := s.launches ++ [l], teams := s.teams ++ ts }
  let s := s.modFirm (fun f => { f with keys := f.keys.map (fun e =>
    if e.1 != 0 && e.2.valid && e.2.asid == l.asid then (e.1, { e.2 with launched := true }) else e) })
  match l.domain with
  | some (.pkg n) => if (s.domGet (.pkg n)).isNone then s.setDom { Dom.fresh (.pkg n) with asid := l.asid } else s
  | _ => s

/-- The packet and the record of a launch are taken over or refused. -/
def State.admission (s : State) (k : Nat) (pkt ctx : List Word) : State :=
  let (s, uid) := s.takeUid
  let l : Launch := { Launch.none with id := uid, queue := k, pkt := pkt, ctx := ctx, ended := false, expired := false }
  match s.refuseCode l with
  | 0 => s.admitLaunch l
  | n => if l.complAddr = 0 then s else s.feStore l.complAddr l.asid (BitVec.ofNat 64 (2 ^ 63 + n))

/-- Launch queue `k` stops being served (R292). -/
def State.stopQueue (s : State) (k code head : Nat) : State :=
  (s.modFe (fun f => { f with
    lqqcb := fset 0 f.lqqcb k (wputb (fget 0 f.lqqcb k) 0 false)
    lqerr := fset 0 f.lqerr k (BitVec.ofNat 64 (code + head % 2 ^ 56 * 2 ^ 8)) })).raiseVector 8

/-- Read a context record: `none` where it cannot be read. -/
def State.readCtx (s : State) (k : Nat) : Option (List Word) :=
  let pa := wfield (fget 0 s.fe.lqctx k) 6 46 * 64
  match s.refusal pa 0, s.region (paLow pa) with
  | none, .hbm => if s.isLost (paLow pa) then none else some (dwords 8 ((s.ready pa 64).peek pa 64))
  | none, .host _ => some (dwords 8 (s.peek pa 64))
  | _, _ => none

/-- Can a packet in a slot be read whole? -/
def State.readable (s : State) (pa : Nat) : Bool := s.region (paLow pa) == .hbm && !s.isLost (paLow pa) ||
  (match s.region (paLow pa) with | .host _ => true | _ => false)

/-- Has launch queue `k` something for the front end: an element, or a condition that stops it? -/
def State.lqDue (s : State) (k : Nat) : Bool :=
  let v := fget 0 s.fe.lqqcb k
  let pa := wfield v 7 45 * 128
  wbit v 0 &&
  (match s.readCtx k with
    | none => true
    | some ctx =>
      let l := (s.ready pa 128).peek pa 128
      let q := qcbParse (dwords 16 l)
      s.region (paLow pa) != .hbm || (s.refusal pa (satpAsid (dw ctx 0))).isSome || q.asid != satpAsid (dw ctx 0) || qcbCorrupt l || q.qr || q.esz != 31 || decide (1 ≤ q.avail))

/-- Serve launch queue `k`: the checks of R292, then one packet, if the waiters served before have left one. A block that R372 or
R377 keeps from the record's context counts as another context's (log 51). -/
def State.serveLq (s : State) (k : Nat) : State :=
  let pa := wfield (fget 0 s.fe.lqqcb k) 7 45 * 128
  let s := s.modFe (fun f => { f with lqNext := (k + 1) % 64 })
  match s.readCtx k with
  | none => s.stopQueue k 5 ((qcbParse (dwords 16 (s.peek pa 128))).head)
  | some ctx =>
    if s.region (paLow pa) != .hbm then s.stopQueue k 2 0
    else if (s.refusal pa (satpAsid (dw ctx 0))).isSome then (s.postFault (s.homeDie (paLow pa)) 6 pa).stopQueue k 3 0
    else
      let s := s.qSettle pa
      let (l, s) := s.qcbBytes pa
      let q := qcbParse (dwords 16 l)
      if q.asid != satpAsid (dw ctx 0) then s.stopQueue k 3 q.head
      else if qcbCorrupt l || q.qr then
        (s.writeAt .other pa (checked (dwordBytes ((dwords 16 l).set 0 (wputb (dw (dwords 16 l) 0) 37 true))))).stopQueue k 2 q.head
      else if q.esz != 31 then s.stopQueue k 1 q.head
      else if q.avail = 0 then s
      else
        let slot := (q.take).1
        let ok := s.readable slot && (s.refusal slot q.asid).isNone
        let (els, q', s) := s.takeElems q 1
        let s := s.qcbWrite pa q q'
        if ok then s.admission k (dwords 16 (els.headD [])) ctx else s.stopQueue k 4 q.head

/-- The front end serves the valid queues round-robin, once bring-up is complete; it holds at most 256 launches (R291, R386). -/
def execLaunchDequeue (s : State) : Out :=
  let order := (List.range 64).map (fun i => (s.fe.lqNext + i) % 64)
  if s.firm.step != 8 || s.firm.fail || decide (256 ≤ (s.launches.filter (fun l => !l.ended)).length) then .next s
  else match order.find? (fun k => s.lqDue k) with
    | none => .next s
    | some k => if k = s.sel then .next (s.serveLq k) else .next s

/-! ## Slack (R352) -/

/-- The remaining estimate, in ns. -/
def State.remEst (s : State) (l : Launch) : Int :=
  match l.start with
  | none => l.estimate * 1000
  | some t => max 0 ((l.estimate : Int) * 1000 - ((s.dtime : Int) - t))

/-- The floor and the boost of band `j`. -/
def State.band (s : State) (j : Nat) : Int × Nat :=
  let v := fget slkReset s.fe.slk j
  ((BitVec.ofNat 32 (wfield v 0 32)).toInt, wfield v 32 8)

/-- The boost of a launch with a deadline. -/
def State.slackBoost (s : State) (l : Launch) : Nat :=
  if l.deadline = 0 then 0
  else
    let slack := ((l.deadline : Int) - s.dtime - s.remEst l) / 1000
    let j := ((List.range 16).find? (fun j => decide ((s.band j).1 ≤ slack))).getD 15
    (s.band j).2

def execSlackRecalc (s : State) : Out :=
  .next { s with launches := s.launches.map (fun l => { l with boost := s.slackBoost l }) }

end Sys2Proof.Machine
end

