-- ==== Sys2Proof/Machine/Deadline.lean ====
section
/-! DEFINITION. Deadlines: expiry, divert, and the kill at the end of the wrap-up budget (R77, R353 to R357). -/
namespace Sys2Proof.Machine

/-- Is the wait one of those that an event ends by retiring them (R77)? -/
def Wait.retires : Wait → Bool
  | .wfi | .zawrs _ _ => true
  | _ => false

/-- Is a wait mid-instruction: a request that has been sent and cannot be withdrawn (R342, R394)? -/
def Wait.sent : Wait → Bool
  | .far _ | .ship _ => true
  | _ => false

/-- Has the message arrived for which an `mrecv` waits? It then retires before any event (R184, R191). -/
def Hart.granted (h : Hart) : Wait → Bool
  | .mrecv i => h.mbpres.getLsbD i
  | _ => false

/-- Is the hart at an instruction boundary (R77)? -/
def Hart.atBoundary (h : Hart) : Bool :=
  match h.run with
  | .ready => true
  | .waiting w => h.answer.isNone && !w.sent && !h.granted w
  | _ => false

/-! ## Expiry (R353, R356, R367) -/

/-- Mark the resident harts of a team for their divert, and start its pending continuations as diverted harts (R354, R356).
`rst` is the bit of wcause for a team restored to be diverted. -/
def State.divertTeam (s : State) (t rst : Nat) : State :=
  let s := (s.teamHarts t).foldl (fun s h => s.modHart h.gid (fun h => { h with divertDue := some (1 + rst) })) s
  (s.teamPlaces t).foldl (fun s h => match h.run with
    | .cont ev => s.startCont h.gid ev (2 + rst)
    | _ => s) s

/-- Have the harts stopped, with no divert due, and have the started commands completed? -/
def State.allStopped (s : State) (t : Team) : Bool :=
  (s.teamHarts t.id).all (fun h => h.mode == .u && (h.run == .starting || h.atBoundary) && h.divertDue.isNone) &&
    (s.teamCmds t.id).all (fun c => c.phase.waiting)

/-- Does a team's save go on when its launch expires: it is evicted, or all harts of those that are saved with it have stopped (R356, R364)? -/
def State.savedFirst (s : State) (id : Nat) : Bool :=
  let t := s.team id
  t.phase == .evicted || (t.phase == .evicting &&
    s.teams.all (fun u => !(u.phase == .evicting && (u.id == id || (u.launch == t.launch && (s.launch t.launch).coRes))) || s.allStopped u))

/-- A team meets the expiry of its launch: it is diverted after its restore where its save comes first, else now, which ends an eviction
that is under way (R356, R367). -/
def State.expireTeam (saved : Nat → Bool) (s : State) (id : Nat) : State :=
  if saved id then s.modTeam id (fun x => { x with forDivert := true }) else s.divertTeam id 0

/-- The comparator finds the selected launch expired: at the first multiple of 128 ns at or after its deadline. -/
def execDeadlineExpiry (s : State) : Out :=
  let l := s.launch s.sel
  if l.deadline = 0 || l.expired || l.ended || decide (s.dtime / 128 * 128 < l.deadline) then .next s
  else
    let s := s.modLaunch l.id (fun l => { l with expired := true })
    let ts := s.liveTeams l.id
    if l.budget = 0 then .next (ts.foldl State.killTeam s)
    else .next (ts.foldl (State.expireTeam s.savedFirst)
      { s with queries := s.queries.map (fun q => if q.launch = l.id then { q with divert := true } else q) })

/-! ## Divert (R77, R354) -/

/-- Did the hart arrive in the `bar.arw` in which it waits (R354)? -/
def Hart.arrivedIn (h : Hart) : Wait → Bool
  | .barrier _ true => true
  | .barrier k false => h.resumes k
  | _ => false

/-- The focused hart diverts (R354): in U mode, at a boundary. A wait, in the user-interrupt handler or outside, decides wpc (log 34). -/
def execDivert (s : State) : Out :=
  let h := s.hart
  match h.divertDue with
  | none => .next s
  | some cause =>
    if h.mode != .u || !h.atBoundary then .next s
    else
      let wait := match h.run with
        | .waiting w => !w.retires
        | _ => false
      let waits := h.run.isWaiting
      let arr := match h.run with
        | .waiting w => h.arrivedIn w
        | _ => false
      let s := s.withdraw
      let s := (s.stopSave h.team).modTeam h.team (fun t => { t with wrapped := true })
      let bits := (if h.uiAct then 16 else 0) + (if wait then 4 else 0) + (if arr then 8 else 0)
      let l := s.launchOf h.team
      .next (s.onHart (fun h =>
        let wpc := if h.uiAct && !waits then h.uiepc else h.pc
        let h := if h.uiAct then h.leaveHandler else h
        { h with
          wpc := wpc, wcause := BitVec.ofNat 64 (cause + bits), lpcnt0 := 0, lpcnt1 := 0, lpxe0 := 0, lpxe1 := 0
          uiIe := false, uiUntil := 0, wrapup := true, divertDue := none, run := .ready, pc := l.wrapEntry }))

/-- At D + B every hart of the selected launch that is still present is killed (R353). -/
def execWrapupBudgetKill (s : State) : Out :=
  let l := s.launch s.sel
  if l.expired && !l.ended && decide (l.deadline + l.budget ≤ s.dtime) then
    .next ((s.liveTeams l.id).foldl State.killTeam s)
  else .next s

end Sys2Proof.Machine
end

