-- ==== Sys2Proof/Machine/Polder.lean ====
section
/-! DEFINITION. Polder commands, key slots and the Fuller (R371 to R381, R388). -/
namespace Sys2Proof.Machine

def State.setKey (s : State) (k : Nat) (v : KeySlot) : State := s.modFirm (fun f => { f with keys := fset KeySlot.fresh f.keys k v })

/-- A key that no slot has had. -/
def State.freshKey (s : State) : Nat × State := (s.firm.nextVer, s.modFirm (fun f => { f with nextVer := f.nextVer + 1 }))

/-- A list of exactly `n` bytes. -/
def padTo (n : Nat) (l : List Byte) : List Byte := (l ++ List.replicate n 0).take n

/-- Is a physical range, with key id 0, in memory that the firmware processor can read: HBM, second-tier or host memory, not refused
and not lost? -/
def State.fwCan (s : State) (pa n : Nat) : Bool :=
  paKey pa == 0 && decide (pa + n ≤ 2 ^ 46) &&
  (List.range ((pa % 128 + n + 127) / 128)).all (fun i =>
    let a := pa / 128 * 128 + 128 * i
    (match s.region a with
      | .hbm | .host _ | .far _ _ => true
      | _ => false) && (s.refusal a 0).isNone && !s.isLost a)

/-! ## Power of a core (R383) -/

/-- A core changes its power state; its stall counters have counted until then (R178). -/
def State.corePower (s : State) (c : Nat) (p : CorePower) : State := (s.settleScnt c).modCore c (fun k => { k with power := p })

/-- A core's arrays are zeroed at power-up. DESIGN CHOICE (log 76): a core that comes from off has its stall counters, SCCTL.en and wrap as
after a core reset and keeps MBDISC; R178 speaks of idle, retention and a core reset alone. -/
def State.wakeCore (s : State) (c : Nat) : State :=
  let k := s.core c
  let s := s.corePower c .active
  if k.power == .off then
    s.modCore c (fun k => { k with act := [], wgt := [], acc := [], shm := [], sems := [], mtxs := [], scnt := [], scEn := true, scWrap := 0 })
  else s

/-! ## Polder commands (R374, R375) -/

/-- Does a range lie in HBM? Pools are made of aligned granules of 1 GiB. -/
def State.inHbmAll (s : State) (pa n : Nat) : Bool :=
  let la := paLow pa
  (List.range ((la + n - 1) / gib + 1 - la / gib)).all (fun i => s.region (max la ((la / gib + i) * gib)) == .hbm)

/-- The command block: 8 doublewords at a physical address with key id 0; `none` where it cannot be read. -/
def State.pldBlock (s : State) : Option (List Word) × State :=
  if !s.fwCan s.firm.pldBlk 64 then (none, s)
  else
    let (b, s) := s.homeRead s.firm.pldBlk 64
    (some (dwords 8 b), s)

/-- The command in execution, if its op is `op` and it has not acted. -/
def State.pldOp (s : State) (op : Nat) : Option (List Word) :=
  if s.firm.pldState != 1 || s.firm.pldRun then none
  else match s.pldBlock.1 with
    | none => none
    | some b => if wfield (dw b 0) 0 8 = op then some b else none

/-- The op has acted, or has failed with a code. -/
def State.pldEnd (s : State) (err : Nat) : State := s.modFirm (fun f => { f with pldRun := true, pldErr := err })

/-- Are the fields that every op shares in range? -/
def pldFieldsOk (b : List Word) : Bool :=
  decide (1 ≤ wfield (dw b 0) 8 8) && decide (wfield (dw b 0) 8 8 ≤ 63) && wfield (dw b 0) 32 32 == 0 && dw b 3 == 0

def pldSlot (b : List Word) : Nat := wfield (dw b 0) 8 8

/-- Does a job name the slot, or the core: those of the Fullers, and those that a reset has left to be resumed (R377, R381)? -/
def State.slotBusy (s : State) (k : Nat) : Bool := (s.keySlot k).busy || s.jobs.any (fun j => j.slot == k)
def State.coreBusy (s : State) (c : Nat) : Bool := (s.core c).busy || s.firm.journal.any (fun e => e.job.cores.contains c)

/-- The create op of the Polder command in execution. -/
def execPolderCreate (s : State) : Out :=
  match s.pldOp 1 with
  | none => .next s
  | some b =>
    let k := pldSlot b
    let asid := wfield (dw b 0) 16 16
    let old := s.keySlot k
    if !pldFieldsOk b then .next (s.pldEnd 1)
    else if old.valid || s.slotBusy k || old.zero then .next (s.pldEnd 2)
    else if s.slotOf asid != 0 then .next (s.pldEnd 4)
    else
      let (v, s) := s.freshKey
      .next ((s.setKey k ⟨asid, true, false, false, v, List.replicate 32 0, false, false⟩).pldEnd 0)

/-- Does a refusal meet a range of pages for a context (R377)? -/
def State.refusedIn (s : State) (pa n asid : Nat) : Bool :=
  (List.range (n / 4096)).any (fun i => (s.refusal (pa + 4096 * i) asid).isSome)

/-- The extend op; a range that a fence refuses is no range that it can read (log 46). -/
def execPolderExtend (s : State) : Out :=
  match s.pldOp 2 with
  | none => .next s
  | some b =>
    let k := pldSlot b
    let old := s.keySlot k
    let pa := (dw b 1).toNat
    let n := (dw b 2).toNat
    if !pldFieldsOk b then .next (s.pldEnd 1)
    else if !old.valid then .next (s.pldEnd 3)
    else if pa % 4096 != 0 || decide (2 ^ 52 ≤ pa) || paKey pa != k || n % 4096 != 0 || decide (2 ^ 30 < n) || !s.inHbmAll pa n ||
        s.refusedIn pa n old.asid then
      .next (s.pldEnd 1)
    else if old.launched then .next (s.pldEnd 6)
    else
      let (l, s) := s.readBytes pa n
      .next ((s.setKey k { old with meas := sha256 (old.meas ++ sha256 l) }).pldEnd 0)

/-- The attestation report of a slot for a nonce of 32 bytes (R375). -/
def State.report (s : State) (k : Nat) (nonce : List Byte) : List Byte :=
  let o := s.keySlot k
  let cert := Config.certificate.take 1024
  let body := [0x48#8, 0x4A#8, 0x41#8, 0x52#8] ++ natToBytes 2 1 ++ [BitVec.ofNat 8 k, s.firm.dbg.setWidth 8] ++
    natToBytes 8 o.asid ++ natToBytes 8 0x40101 ++ natToBytes 8 s.dtime ++ sha256 s.firm.booted ++
    padTo 32 o.meas ++ padTo 32 nonce ++ natToBytes 8 cert.length ++ padTo 1024 cert
  body ++ padTo 64 (Config.signature (sha256 body))

/-- The attest op. -/
def execPolderAttest (s : State) : Out :=
  match s.pldOp 3 with
  | none => .next s
  | some b =>
    let k := pldSlot b
    let pa := (dw b 1).toNat
    if !pldFieldsOk b then .next (s.pldEnd 1)
    else if !(s.keySlot k).valid then .next (s.pldEnd 3)
    else if !s.fwCan pa (min (dw b 2).toNat 1224) then .next (s.pldEnd 1)
    else if (dw b 2).toNat < 1224 then .next (s.pldEnd 5)
    else
      let r := s.report k (dwordBytes (b.drop 4))
      .next ((s.homeWrite .other pa r).pldEnd 0)

/-- A Polder command finishes: done or error; a block that cannot be read or names no op is a bad field. -/
def execPldcmdComplete (s : State) : Out :=
  if s.firm.pldState != 1 then .next s
  else if s.firm.pldRun then
    .next (s.modFirm (fun f => { f with pldState := if f.pldErr = 0 then 2 else 3, pldRun := false }))
  else if (s.pldOp 1).isNone && (s.pldOp 2).isNone && (s.pldOp 3).isNone then
    .next (s.modFirm (fun f => { f with pldState := 3, pldErr := 1 }))
  else .next s

/-- A write of PLDCMD; one made while a command is busy is ignored. -/
def State.pldcmd (s : State) (v : Word) : State :=
  if s.firm.pldState = 1 then s
  else s.modFirm (fun f => { f with pldState := 1, pldErr := 0, pldBlk := wfield v 6 46 * 64, pldRun := false })

/-! ## PCOWN, KFLUSH and KSZERO (R373, R374, R376) -/

def State.prstat (s : State) (code : Nat) : State := s.modFirm (fun f => { f with prstat := code })

def execPcownWrite (core : Nat) (v : Word) (s : State) : Out :=
  let k := wfield v 0 6
  let holds := s.teams.any (fun t => t.core == core && t.phase.holds)
  if s.coreBusy core then .next (s.prstat 2)
  else if (k != 0 && !(s.keySlot k).valid) || holds then .next (s.prstat 1)
  else .next ((s.modCore core (fun c => { c with slot := k })).prstat 0)

/-- Is a job for the slot armed and not started? -/
def State.armedFor (s : State) (k : Nat) : Bool := s.dies.any (fun e => e.2.fuller.state == 2 && e.2.fuller.slot == k)

/-- Start the flush walk of a key id; refused until the slot's job is armed (R376). -/
def execKflush (v : Word) (s : State) : Out :=
  let k := wfield v 0 6
  if wbit v 8 && k != 0 && s.armedFor k then .next (s.modFirm (fun f => { f with kfSlot := k, kfDone := false })) else .next s

/-- The walk ends: no cache holds a line of the key id. -/
def execKflushDone (s : State) : Out :=
  if s.firm.kfDone then .next s
  else
    let k := s.firm.kfSlot
    let mine (ln : Nat) : Bool := paKey (128 * ln) == k
    let s := ((s.hc.map HcLine.line).filter mine).eraseDups.foldl State.recall s
    let s := ((s.parts.map (fun p => tagLine p.pa)).filter mine).eraseDups.foldl (fun s ln => s.settle (128 * ln) 128) s
    let s := { s with
      l1 := s.l1.filter (fun e => !mine e.line), l2 := s.l2.filter (fun e => !mine e.line), rdc := s.rdc.filter (fun e => !mine e.line) }
    let s := if s.armedFor k then s.setKey k { s.keySlot k with flushed := true } else s
    .next (s.modFirm (fun f => { f with kfDone := true }))

/-- Destroy the key of a slot whose job is armed and whose lines have been flushed. -/
def execKszero (v : Word) (s : State) : Out :=
  let k := wfield v 0 6
  let o := s.keySlot k
  if k = 0 || !s.armedFor k || !o.flushed then .next (s.prstat 1)
  else
    let (ver, s) := s.freshKey
    .next ((s.setKey k { o with valid := false, zero := true, ver := ver }).prstat 0)

/-! ## The Fuller: arming (R376 to R379) -/

def State.fuller (s : State) (d : Nat) : Fuller := (s.die d).fuller
def State.setFuller (s : State) (d : Nat) (f : Fuller) : State := s.modDie d (fun x => { x with fuller := f })

/-- The shared-memory ways that teams of a context hold on a core, in their order (R380). -/
def State.coreWays (s : State) (asid core : Nat) : List (Nat × Nat) :=
  ((List.range 4).filter (fun w => s.teams.any (fun t => t.core == core && t.phase.holds && (s.launch t.launch).asid == asid &&
    t.share.shSize != 0 && decide (t.share.shBase / 65536 ≤ w) && decide (w < (t.share.shBase + t.share.shSize + 65535) / 65536)))).map
    (fun w => (core, w))

/-- The job of a descriptor; `none` where the arm is refused (R378). -/
def State.jobOf (s : State) (b : List Word) : Option Job :=
  let k := fieldAt b 0 1
  let nc := fieldAt b 1 1
  let nr := fieldAt b 2 2
  let asid := fieldAt b 8 2
  let cores := (List.range nc).map (fun i =>
    let w := fieldAt b (0x10 + 2 * i) 2
    (w / 256, w % 256))
  let ranges := (List.range nr).map (fun i => ((dw b (10 + 2 * i)).toNat, fieldAt b (0x58 + 16 * i) 4))
  let ok :=
    decide (1 ≤ k) && decide (k ≤ 63) && decide (nc ≤ 32) && decide (nr ≤ 240) && fieldAt b 4 4 == 0 && wfield (dw b 1) 16 48 == 0 &&
    (s.keySlot k).valid && (s.keySlot k).asid == asid && !s.slotBusy k &&
    cores.all (fun c => decide (c.1 < 4) && decide (c.2 < 192) && (s.core (192 * c.1 + c.2)).slot == k) &&
    ranges.all (fun r => r.1 % 4096 == 0 && decide (r.1 < 2 ^ 46) && (r.2 == 0 || s.inHbmAll r.1 (4096 * r.2))) &&
    (List.range nr).all (fun i => fieldAt b (0x5C + 16 * i) 4 == 0)
  if !ok then none
  else
    let cs := cores.map (fun c => 192 * c.1 + c.2)
    some ⟨k, asid, cs, ranges, cs.flatMap (s.coreWays asid)⟩

/-- Units of a job. -/
def Job.shmUnits (j : Job) : Nat := 16 * j.ways.length
def Job.total (j : Job) : Nat := j.shmUnits + j.ranges.foldl (fun n r => n + r.2) 0

/-- The descriptor's doublewords, physical and with key id 0, as far as its ranges go; none where it cannot be read. -/
def State.jobBlock (s : State) (pa : Nat) : List Word × State :=
  if !s.fwCan pa 80 then ([], s)
  else
    let (h, s) := s.homeRead pa 80
    let n := 80 + 16 * min (fieldAt (dwords 10 h) 2 2) 240
    if !s.fwCan pa n then ([], s)
    else
      let (b, s) := s.homeRead pa n
      (dwords (n / 8) b, s)

/-- A team of a context that is torn down: outcome 11; one that has not started never does. -/
def State.tearTeam (s : State) (t : Team) : State :=
  match t.phase with
  | .waiting =>
    let t' := { t with killed := true }
    (((s.modTeam t.id (fun _ => t')).writeOutcome t')).modTeam t.id (fun x => { x with phase := .ended })
  | .ended => s
  | _ => s.killTeam t.id

/-- A write of FLCMD := 1 on the selected die: the job is taken over and its cores are held active (R383), or the arm is refused. -/
def execFullerArm (s : State) : Out :=
  let d := s.sel
  let f := s.fuller d
  let f := if f.state = 5 then { Fuller.fresh with desc := f.desc, err := f.err } else f
  let (b, t) := s.jobBlock f.desc.toNat
  match f.state, s.jobOf b with
  | 0, some j =>
    let t := t.setFuller d { f with state := 1, slot := j.slot, done := 0, total := j.total, cdone := 0, job := some j }
    let t := t.setKey j.slot { t.keySlot j.slot with busy := true, flushed := false }
    let t := j.cores.foldl (fun s c => (s.wakeCore c).modCore c (fun k => { k with busy := true })) t
    .next ((t.teams.filter (fun x => (t.launch x.launch).asid == j.asid)).foldl State.tearTeam t)
  | _, _ => .next (t.setFuller d { f with err := true })

/-- Does a team of a context remain, or work of it that its kill ends: a query, a transfer (R405)? -/
def State.remains (s : State) (asid : Nat) : Bool :=
  s.teams.any (fun t => t.phase != .ended && (s.launch t.launch).asid == asid) ||
    s.queries.any (fun q => satpAsid q.satp == asid) || s.xfers.any (fun x => s.teamAsid x.team == asid)

/-- Does an address lie in a listed range, or carry the slot's key id? -/
def Job.touches (j : Job) (pa : Nat) : Bool :=
  paKey pa == j.slot || j.ranges.any (fun r => decide (r.1 ≤ paLow pa) && decide (paLow pa < r.1 + 4096 * r.2))

/-- Has every access that was checked before the arm been performed: those of harts that still wait for the host, and shipped functions on
the way to such a line (R405)? -/
def State.accessesDone (s : State) (j : Job) : Bool :=
  s.resident.all (fun h => !h.checked) && s.ships.all (fun x => x.ran || !j.touches x.pa)

/-- The job of the selected die is journalled, and armed once no team of the owner remains and the accesses that were checked before
the arm have been performed. -/
def execFullerArmed (s : State) : Out :=
  let d := s.sel
  let f := s.fuller d
  match f.state, f.job with
  | 1, some j =>
    if s.remains j.asid || !s.accessesDone j then .next s
    else .next (((s.setFuller d { f with state := 2 }).modFirm (fun m => { m with journal := m.journal ++ [⟨d, j, 0⟩] })).raiseVector 7)
  | _, _ => .next s

/-- A write of FLCMD := 2 on the selected die. -/
def execFullerStart (s : State) : Out :=
  let d := s.sel
  let f := s.fuller d
  if f.state = 2 && (s.keySlot f.slot).zero then .next (s.setFuller d { f with state := 3 })
  else .next (s.setFuller d { f with err := true })

/-! ## The Fuller: scrubbing (R380, R381, R388) -/

/-- Shared-memory units of the first `n` listed cores. -/
def Job.unitsTo (j : Job) (n : Nat) : Nat := 16 * (j.ways.filter (fun w => (j.cores.take n).contains w.1)).length

/-- Zero a line at its home with the zero-fill code: what any cache, the host or a write queue holds of it goes, under whatever key, the line is
no longer lost, and no fetch sees what it held (R380, R388). -/
def State.zeroLine (s : State) (la : Nat) : State :=
  let mine (ln : Nat) : Bool := ln % 2 ^ 39 == lineOf la
  let s := { (s.unlose la) with
    hc := s.hc.filter (fun e => !mine e.line)
    parts := s.parts.filter (fun p => !mine (tagLine p.pa))
    rdc := s.rdc.filter (fun e => !mine e.line)
    l1 := s.l1.filter (fun e => !mine e.line)
    l2 := s.l2.filter (fun e => !mine e.line)
    hostMod := s.hostMod.filter (fun l => !mine l)
    hostHas := s.hostHas.filter (fun l => !mine l) }
  let s := (s.writeRaw la (List.replicate 128 0)).killResv la false
  { s with
    keyOf := fset 0 s.keyOf (lineOf la) 0
    wlog := s.wlog.map (fun o => if lineOf o.pa = lineOf la then { o with byte := 0, ver := 0 } else o) }

/-- The physical address of a page unit. -/
def pageUnit : List (Nat × Nat) → Nat → Nat
  | [], _ => 0
  | (b, n) :: r, i => if i < n then b + 4096 * i else pageUnit r (i - n)

/-- The shares that wait on a core for the Fuller give their ways back (R224, R380). -/
def State.returnWays (s : State) (c : Nat) : State :=
  s.modCore c (fun k => { k with scrub := k.scrub.map (fun x => { x with shSize := 0 }) })

/-- Zero one unit; a core's ways go back to its slice with its last one. -/
def State.zeroUnit (s : State) (j : Job) (u : Nat) : State :=
  if u < j.shmUnits then
    let w := j.ways.getD (u / 16) (0, 0)
    let s := s.modCore w.1 (fun k => { k with shm := zeroRange k.shm (65536 * w.2 + 4096 * (u % 16)) 4096 })
    if u % 16 = 15 && (j.ways.drop (u / 16 + 1)).all (fun x => x.1 != w.1) then s.returnWays w.1 else s
  else
    let b := pageUnit j.ranges (u - j.shmUnits)
    (List.range 32).foldl (fun s i => s.zeroLine (b + 128 * i)) s

/-- Rewrite the checkpoint of a die's job. -/
def State.checkpoint (s : State) (d n : Nat) : State :=
  s.modFirm (fun f => { f with journal := f.journal.map (fun (e : Journal) => if e.die = d then { e with check := n } else e) })

/-- The Fuller of the selected die makes its next piece of work: a unit, or the arrays of a listed core. -/
def execFullerUnit (s : State) : Out :=
  let d := s.sel
  let f := s.fuller d
  match f.job with
  | none => .next s
  | some j =>
    if f.state != 3 && f.state != 4 then .next s
    else if f.cdone < j.cores.length && j.unitsTo (f.cdone + 1) ≤ f.done then
      let c := j.cores.getD f.cdone 0
      .next ((s.modCore c (fun k => { k.scrub.foldl Core.scrubbed k with act := [], wgt := [], acc := [], scrub := [] })).setFuller d { f with cdone := f.cdone + 1 })
    else if f.done < f.total then
      let n := f.done + 1
      let s := (s.zeroUnit j f.done).setFuller d { f with done := n }
      .next (if n % 1024 = 0 then s.checkpoint d n else s)
    else .next s

/-- The end of the job of the selected die. -/
def execFullerDone (s : State) : Out :=
  let d := s.sel
  let f := s.fuller d
  match f.job with
  | none => .next s
  | some j =>
    if (f.state != 3 && f.state != 4) || f.done != f.total || f.cdone != j.cores.length then .next s
    else
      let s := j.cores.foldl (fun s c => s.modCore c (fun k => { k with slot := 0, busy := false })) s
      let s := (s.setKey j.slot KeySlot.fresh).setFuller d { f with state := 5, job := none }
      .next ((s.modFirm (fun m => { m with journal := m.journal.filter (fun e => e.die != d) })).raiseVector 7)

end Sys2Proof.Machine
end

