-- ==== Sys2Proof/Machine/Firmware.lean ====
section
/-! DEFINITION. Power states, reset and bring-up (R2, R381 to R386). -/
namespace Sys2Proof.Machine

/-! ## Power (R2, R383) -/

/-- Does a team reside on the core? -/
def State.coreHolds (s : State) (c : Nat) : Bool := s.teams.any (fun t => t.core == c && t.phase.holds)

/-- What a loss of the module's power, or a reset, leaves: flash, and memory under keys that are destroyed (R381, R386). -/
def State.restart (s : State) (p : PkgPower) : State :=
  { State.reset with
    ticks := s.ticks, nextUid := s.nextUid, mem := s.mem, keyOf := s.keyOf, agenda := s.agenda, sel := s.sel
    fe := { FrontEnd.fresh with bplist := s.fe.bplist }
    firm := { Firm.fresh with nextVer := s.firm.nextVer, journal := s.firm.journal, image := s.firm.image, power := p } }

def execPowerStateRequest (r : PowerReq) (s : State) : Out :=
  match r with
  | .coreActive c => .next (s.wakeCore c)
  | .coreIdle c => if s.inJob c then .next s else .next ((s.wakeCore c).corePower c .idle)
  | .coreRetention c => if s.inJob c then .next s else .next ((s.wakeCore c).corePower c .retention)
  | .coreOff c => if s.inJob c || s.coreHolds c then .next s else .next (s.corePower c .off)
  | .packageActive =>
    if s.firm.power == .standby then .next (s.modFirm (fun f => { f with power := .active })) else .next s
  | .packageStandby =>
    if s.firm.power != .active || s.teams.any (fun t => t.phase.holds || t.phase == .evicted) || !s.jobs.isEmpty then .next s
    else .next (s.modFirm (fun f => { f with power := .standby }))
  | .packageOff => .next (s.restart .off)

/-- The power manager starts or stops forbidding issue; the stall counters have counted until then (R176). -/
def execPowerLimitThrottle (on : Bool) (s : State) : Out :=
  .next (((List.range 768).foldl State.settleScnt s).modFirm (fun f => { f with throttle := on }))

def execPowerLoss (s : State) : Out := .next (s.restart .off)

def execModuleReset (s : State) : Out := .next (s.restart .active)

/-! ## Bring-up and recovery (R385, R386) -/

/-- The granules that firmware gives each pool: G on every stack, Dd on the stacks of die d (R252; log 21). -/
def State.carve (s : State) : State :=
  let g := s.freeNat 2200 % 49
  (List.range 4).foldl (fun s d => s.modDie d (fun x => { x with dd := s.freeNat (2201 + d) % (49 - g) })) { s with glob := g }

/-- A journalled job is armed again on its die (R381). -/
def State.resumeJob (s : State) (e : Journal) : State :=
  let j := e.job
  let s := s.setFuller e.die
    ⟨0, 4, false, j.slot, e.check, j.total, j.cores.length, some j⟩
  let o := s.keySlot j.slot
  let s := s.setKey j.slot { o with asid := j.asid, valid := false, busy := true, zero := true }
  j.cores.foldl (fun s c => s.modCore c (fun k => { k with slot := j.slot, busy := true })) s

/-- Where the pool window that an address lies in ends; the address itself where it lies in none (R253). -/
def windowEnd (la : Nat) : Nat :=
  let up (base size : Nat) : Nat := base + ((la - base) / size + 1) * size
  if 0x2000000000 ≤ la && la < 0x12000000000 then up 0x2000000000 0x4000000000
  else if 0x20000000000 ≤ la && la < 0x30000000000 then 0x30000000000
  else if 0x30000000000 ≤ la && la < 0x40000000000 then up 0x30000000000 0x1000000000
  else la

/-- H0 trains, with CXL or as PCIe only, and with CXL the host sets its HDM decoders, whose ranges are multiples of 256 MiB inside one pool
window (R395, R397; log 61). -/
def State.linkHost (s : State) : State :=
  let unit (tag : Nat) : Nat := s.freeNat tag * 2 ^ 28
  let range (i : Nat) : Nat × Nat :=
    let base := unit (2221 + 2 * i)
    (base, min (unit (2222 + 2 * i)) (windowEnd base - base))
  if s.freeBit 2220 then { s with cxl := true, hdm := (List.range 4).map range } else s

/-- What the boot ROM checks of an image: the magic, the length of the code, the security version and the signature (R385). -/
def imageOk (img : List Byte) : Bool :=
  let h := Config.imageHeader (img.take 64)
  img.take 4 == [0x48#8, 0x4A#8, 0x46#8, 0x57#8] && img.length == 128 + h.2 && decide (h.2 ≤ 229376) &&
  decide (Config.fusedVersion ≤ h.1) && Config.imageSigned img

/-- What a step of bring-up does. -/
def State.bringStep (s : State) (k : Nat) : State :=
  match k with
  | 2 => s.modFirm (fun f => { f with booted := f.image })
  | 3 =>
    let (v, s) := s.freshKey
    s.modFirm (fun f => { f with keys := [(0, { KeySlot.fresh with ver := v })], dbg := 0 })
  | 4 => { s.carve with cores := [], l1 := [] }
  | 5 => s.linkHost
  | 7 => s.firm.journal.foldl State.resumeJob s
  | 8 => s.modFirm (fun f => { f with drtab := BitVec.ofNat 64 (0x7F + s.freeNat 2210 % 2 ^ 48 * 2 ^ 16) })
  | _ => s

/-- The next step of bring-up, which may fail; the last waits for the resumed jobs. -/
def execBringUp (fails : Bool) (s : State) : Out :=
  let k := s.firm.step + 1
  if s.firm.power != .active || s.firm.fail || 8 < k then .next s
  else if k = 8 && !s.firm.journal.isEmpty then .next s
  else if k = 2 && (fails || !imageOk s.firm.image) then .next (s.modFirm (fun f => { f with step := 0x0E }))
  else if fails then .next (s.modFirm (fun f => { f with step := k, fail := true }))
  else .next ((s.bringStep k).modFirm (fun f => { f with step := k }))

/-- In recovery, an image that the host has written and the ROM verifies goes to flash, and the part resets. -/
def execRecoveryImage (img : List Byte) (s : State) : Out :=
  if s.firm.step != 0x0E || !imageOk img then .next s
  else .next ((s.modFirm (fun f => { f with image := img })).restart .active)

end Sys2Proof.Machine
end

