-- ==== Sys2Proof/Machine/Stream.lean ====
section
/-! DEFINITION. Stream slots: binding, refills and pushes (R142 to R145, R245 to R248). -/
namespace Sys2Proof.Machine

/-- Extents and strides of a descriptor (R245). -/
def strmExt (d : List Word) : List Nat := (List.range 4).map (fun k => wfield (dw d (2 + k / 2)) (32 * (k % 2)) 32)
def strmStride (d : List Word) : List Word := (List.range 4).map (fun k => dw d (4 + k))

/-- Dimensions after an absent one are absent with stride 0. -/
def strmDims : List Nat → List Word → Bool
  | e :: es, _ :: ds =>
    if e = 0 then es.all (fun x => x == 0) && ds.all (fun x => x == 0) else strmDims es ds
  | _, _ => true

/-- The slot that a descriptor gives; `none` where it fails R245. -/
def strmParse (d : List Word) (priv : Priv) : Option StrmSlot :=
  match ofCode Tc.code Tc.all (BitVec.ofNat 4 (wfield (dw d 1) 24 4)) with
  | none => none
  | some t =>
    let sz := strmBytes t
    let ext := strmExt d
    let str := strmStride d
    if decide (10 < wfield (dw d 1) 24 8) || decide (1 < wfield (dw d 1) 16 8) || decide (639 < wfield (dw d 1) 0 16) ||
        wfield (dw d 1) 32 32 != 0 || ext.headD 0 == 0 || !strmDims ext str ||
        (dw d 0).toNat % sz != 0 || str.any (fun x => x.toNat % sz != 0) then none
    else some ⟨true, d, priv, dw d 0, wfield (dw d 1) 0 16, wfield (dw d 1) 16 8 == 1, t, ext, str, 0, []⟩

/-- Is the register bound to a slot other than `ss`? -/
def Hart.boundElse (h : Hart) (ss r : Nat) : Bool := h.strm.any (fun e => e.2.bound && e.2.reg == r && e.1 != ss)

def execStrmCfg (ss : BitVec 2) (rs1 : XReg) (s : State) : Out :=
  let va := s.getX rs1
  .next (s.notM (
    if va.toNat % 64 != 0 then s.trap ⟨4, 0, va⟩
    else s.holdLoads (s.loadPorts 8 va 8) (fun s =>
      match s.loadBlock va 8 with
      | (.error t, s) => s.trap t
      | (.ok d, s) =>
        match strmParse d s.hart.mode with
        | none => s.engineFault 1
        | some t =>
          if s.hart.lalloc ≤ t.reg || s.hart.boundElse ss.toNat t.reg then s.engineFault 1
          else ((s.release s.hart.gid).onHart (fun h => h.setSlot ss.toNat t)).retire)))

def execStrmEnd (ss : BitVec 2) (s : State) : Out :=
  .next (s.notM (s.onHart (fun h => h.setSlot ss.toNat StrmSlot.fresh)).retire)

/-- A fetched element as it stands in the low bits of a lane: extended by its type. -/
def strmExtend (t : Tc) (v : Nat) : Word :=
  match t with
  | .s32 | .s16 | .s8 => BitVec.ofInt 64 ((Tc.ifmt t).val v)
  | _ => BitVec.ofNat 64 v

/-- Fetch one element for the focused hart: its bits, or the fault that marks it. -/
def State.refillOne (s : State) (t : StrmSlot) (e : Nat) : StrmElem × Option Nat × State :=
  let va := t.addr e
  match s.dataPa t.priv .load va with
  | (.error f, s) => (.fault f.cause f.sub va, none, s)
  | (.ok pa, s) =>
    match s.region (paLow pa), s.lostTrap .load va pa with
    | .regs _, _ | .notify _, _ => (.fault 5 0 va, none, s)
    | _, some f => (.fault f.cause f.sub va, none, s)
    | r, none =>
      let (b, s) := s.homeRead pa (strmBytes t.tc)
      (.data (strmExtend t.tc (leNat b)), if r == .hbm then some (tagLine pa) else none, s)

/-- Fetch up to `n` elements, each that faults marked as such; the lines that were read. -/
def State.refillRun (s : State) (t : StrmSlot) (e : Nat) : Nat → List StrmElem × List Nat × State
  | 0 => ([], [], s)
  | n + 1 =>
    if t.total ≤ e then ([], [], s)
    else
      let (x, ln, s) := s.refillOne t e
      let (l, lns, s) := State.refillRun s t (e + 1) n
      (x :: l, ln.toList ++ lns, s)

/-- The stream unit fetches one strip ahead for a slot of a hart: at most 8 strips beyond its position. While it does, the
context's hang count returns to 0 (R301). -/
def execStreamRefill (g : Nat) (ss : BitVec 2) (s0 : State) : Out :=
  let s := s0.focus g
  let t := s.hart.slot ss.toNat
  if !s.hart.run.isHart || !t.bound || t.write || 224 < t.buf.length then .next s0
  else
    let (l, lns, s) := s.refillRun t (t.pos + t.buf.length) 32
    let s := if l.isEmpty then s else s.modFe (fun f => { f with hang := fset 0 f.hang s.hart.asid 0 })
    .next ((s.countReads lns).onHart (fun h => h.setSlot ss.toNat { t with buf := t.buf ++ l }))

/-- A strip that the hart pushed has been written to memory: what waits at a port for the hart is performed. -/
def execStreamPushWritten (g : Nat) (_ss : BitVec 2) (s : State) : Out :=
  if (s.hartOf g).cnt3 = 0 then .next s else .next ((s.perform g).modHart g (fun h => (h.decCnt 3).noteScope 3 4))

end Sys2Proof.Machine
end

