-- ==== Sys2Proof/Machine/MemEvents.lean ====
section
/-! DEFINITION. Events of the memory system: write queues, page walks, TLB shootdowns, ECC events, the fault-address queue
and the bad-page list (R140, R141, R256, R263, R273 to R275, R346, R347). -/
namespace Sys2Proof.Machine

/-! ## Write queues and lane requests -/

/-- The slice applies a line's entry: its pending partials retire to the array. The line's number is the one selected. -/
def execL2WriteQueueApply (s : State) : Out := .next (s.settle (128 * s.sel) 128)

/-- One of the hart's outstanding lane stores is performed: its scope stands for a later `cwait` (R243). Any may be the next. -/
def Hart.storeDone (h : Hart) (k : Nat) : Hart :=
  let i := k % h.out2.length
  { ((h.decCnt 2).noteScope 2 (h.out2.getD i 0)) with out2 := h.out2.eraseIdx i }

/-- A store of the selected hart is performed at its home: what waits for the hart at its loop-back port and at the memory ports
is, and one lane store leaves the class 2 counter (R141, R314). -/
def execLaneStorePerformed (s : State) : Out :=
  let s := s.perform s.sel
  if (s.hartOf s.sel).cnt2 = 0 then .next s else .next (s.modHart s.sel (fun h => h.storeDone (s.freeNat 2330)))

/-- Loaded data arrive: the registers hold them since the load issued, and only time was owed (log 15). -/
def execLoadDataArrival (s : State) : Out := .next s

/-! ## Page walks (R273, R274) -/

/-- The selected walk ends: a translation fills the TLBs, unless a shootdown has struck it (R275), and the prefetch that began the
walk brings its line (R138). -/
def execPageWalkComplete (s : State) : Out :=
  match s.walks.find? (fun w => w.uid == s.sel) with
  | none => .next s
  | some w =>
    match ({ s with walks := s.walks.filter (fun x => x.uid != w.uid) }).walkRoot (walkDie w.cluster) (s.hartOf w.gid) w.agent .load w.va with
    | (.error _, t) => .next t
    | (.ok x, t) => .next (t.walkFills w x)

/-! ## TLB shootdowns (R275) -/

/-- The address and the ASID that a die's shootdown names: `none` stands for every one. -/
def Die.strikeVa (d : Die) : Option Nat := if wbit d.tlbsd 17 then none else some (wfield d.tlbva 12 45 * 4096)
def Die.strikeAsid (d : Die) : Option Nat := if wbit d.tlbsd 16 then none else some (wfield d.tlbsd 0 16)

/-- Remove the entries that a die's shootdown names, in every TLB and walk cache of the package. -/
def State.strike (s : State) (d : Nat) : State :=
  let v := (s.die d).strikeVa
  let a := (s.die d).strikeAsid
  { s with
    tlb := s.tlb.filter (fun e => !(tlbStruck v a e true))
    walkc := s.walkc.filter (fun e => !(walkcStruck v a e true)) }

/-- The walks in progress when `go` is written fill no TLB with what the shootdown names. -/
def State.strikeWalks (s : State) (d : Nat) : State :=
  let k := ((s.die d).strikeVa, (s.die d).strikeAsid)
  { s with walks := s.walks.map (fun (w : Walk) => { w with struck := k :: w.struck }) }

/-- What a shootdown in progress owes is done before its registers change. -/
def State.strikeFirst (s : State) (d : Nat) : State := if (s.die d).tlbdone then s else s.strike d

/-- A write of TLBSD. -/
def State.writeTlbsd (s : State) (d : Nat) (v : Word) : State :=
  let s := (s.strikeFirst d).modDie d (fun x => { x with tlbsd := BitVec.ofNat 64 (wfield v 0 18) })
  if wbit v 18 then (s.strikeWalks d).modDie d (fun x => { x with tlbdone := false }) else s

/-- A write of TLBVA. -/
def State.writeTlbva (s : State) (d : Nat) (v : Word) : State :=
  (s.strikeFirst d).modDie d (fun x => { x with tlbva := BitVec.ofNat 64 (wfield v 12 45 * 4096) })

def execTlbsdShootdown (die : Nat) (v : Word) (s : State) : Out :=
  if 4 ≤ die then .next s else .next (s.writeTlbsd die v)

/-- Every level has invalidated: done returns to 1 on the selected die. -/
def execTlbsdDone (s : State) : Out :=
  if (s.die s.sel).tlbdone then .next s
  else .next ((s.strike s.sel).modDie s.sel (fun x => { x with tlbdone := true }))

/-! ## ECC events and the fault-address queue (R346) -/

/-- An HBM ECC event on a line is posted; uncorrected bytes are poisoned (R270, R292). -/
def execHbmEccEvent (line : Nat) (uncorrected : Bool) (s : State) : Out :=
  let la := paLow (128 * line)
  if s.region la != .hbm then .next s
  else
    let s := if uncorrected && !s.isLost la then { s with poison := s.poison ++ [lineOf la] } else s
    .next (s.postFault (s.homeDie la) (if uncorrected then 1 else 0) (128 * line))

/-- The oldest entry of a die's queue as FAQPOP reads it. -/
def State.faqFirst (s : State) (d : Nat) : Word :=
  match (s.die d).faq with
  | [] => 0
  | (k, l) :: _ => BitVec.ofNat 64 (1 + k % 8 * 2 + l % 2 ^ 45 * 128)

/-- A read of FAQPOP on the selected die removes the oldest entry. -/
def execFaqpopRead (s : State) : Out := .next (s.modDie s.sel (fun d => { d with faq := d.faq.tail }))

/-! ## The bad-page list (R347) -/

/-- The list entry of a BPADD value. -/
def bpEntry (v : Word) : Word := BitVec.ofNat 64 (1 + wfield v 1 3 * 2 + wfield v 12 40 * 4096)

def execBpadd (v : Word) (s : State) : Out :=
  .next (s.modFe (fun f =>
    if 4096 ≤ f.bplist.length then { f with bpFull := true } else { f with bplist := f.bplist ++ [bpEntry v], bpBusy := true }))

def execBpaddFlashWriteDone (s : State) : Out := .next (s.modFe (fun f => { f with bpBusy := false }))

end Sys2Proof.Machine
end

