-- ==== Sys2Proof/Machine/Time.lean ====
section
/-! DEFINITION. Device time: its discipline, TMSET and the 1PPS output (R349, R350). -/
namespace Sys2Proof.Machine

def TimeSt.src (t : TimeSt) : Nat := wfield t.tmctl 0 2

/-- What slewing adds to dtime in `e` ns: at most 200 ppm of them, in the direction of the correction that is owed. -/
def TimeSt.slewed (t : TimeSt) (e : Nat) : TimeSt :=
  if t.slew = 0 then t
  else
    let n := (t.frac + e) / 5000
    let d : Int := if 0 < t.slew then min (n : Int) t.slew else max (-(n : Int)) t.slew
    { t with skew := t.skew + d, slew := t.slew - d, frac := if t.slew = d then 0 else (t.frac + e) % 5000 }

/-- A correction: forward by up to 1 ms and backward it is slewed, forward by more it is a step. -/
def TimeSt.correct (t : TimeSt) (c : Int) : TimeSt :=
  if 1000000 < c then { t with skew := t.skew + c, slew := 0, frac := 0 } else { t with slew := c, frac := 0 }

/-- A signed 32-bit field that saturates. -/
def sat32 (d : Int) : BitVec 32 := BitVec.ofInt 32 (max (-(2 ^ 31)) (min d (2 ^ 31 - 1)))

/-- A synchronisation message, or a PTM response, gives the time at which the source sent it and the delay of the path: dtime is corrected
toward their sum, and the offset is dtime less that sum (R349, R350; its sign is log 60). -/
def execPtpMessage (time delay : Word) (s : State) : Out :=
  let c : Int := (time.toNat + delay.toNat : Nat) - s.dtime
  if s.time.src != 1 && s.time.src != 2 then .next s
  else .next { s with time := { s.time.correct c with state := 2, offset := sat32 (-c), last := s.clock } }

/-- A write of TMSET: applied only while free-running, and while no admitted launch that has not ended has a deadline. -/
def execTmsetWrite (v : Word) (s : State) : Out :=
  if s.time.src != 0 || s.launches.any (fun l => !l.ended && l.deadline != 0) then .next s
  else .next { s with time := { s.time with skew := (v.toNat : Int) - s.clock, slew := 0, frac := 0 } }

/-- How long the source may stay silent: 4 announce intervals, or 1 s for PTM (R349; the interval is the master's, log 60). -/
def TimeSt.patience (t : TimeSt) : Nat := if t.src = 1 then 4 * Config.announceInterval else 10 ^ 9

/-- The source has delivered nothing for too long. -/
def execTimeHoldover (s : State) : Out :=
  let t := s.time
  if t.src != 0 && (t.state == 1 || t.state == 2) && decide (t.last + t.patience ≤ s.clock) then .next { s with time := { t with state := 3 } }
  else .next s

/-- A write of TMCTL at a clock: a new source is acquired, and without one the clock runs free. -/
def TimeSt.writeCtl (t : TimeSt) (clock : Nat) (v : Word) : TimeSt :=
  let w := BitVec.ofNat 64 (wfield v 0 6 + wfield v 8 9 * 256)
  let n := { t with tmctl := w }
  if n.src = 1 || n.src = 2 then (if n.src = t.src then n else { n with state := 1, last := clock }) else { n with state := 0 }

/-- The 1PPS output rises within 8 ns of a second of dtime, once for each. -/
def execPpsOutputEdge (s : State) : Out :=
  let sec := (s.dtime + 8) / 10 ^ 9
  if wbit s.time.tmctl 16 && decide ((s.dtime + 8) % 10 ^ 9 ≤ 16) && sec != s.time.pps then
    .next { s with time := { s.time with pps := sec } }
  else .next s

end Sys2Proof.Machine
end

