-- ==== Sys2Proof/Machine/Registers.lean ====
section
/-! DEFINITION. Device registers and notify pages: what a read gives and clears, and what a write does (R178, R225, R252,
R272, R275, R290 to R292, R305, R325, R346, R347, R349 to R352, R365, R374, R379, R382, R386, R387, R392, R393, R401,
R404). The block bases within the window are the model's (log 40). -/
namespace Sys2Proof.Machine

/-- Who reaches a register: an agent outside (the host driver, a service hart, the firmware processor), or a hart. -/
inductive RegBy where
  | outside
  | hart (asid : Nat) (mode : Priv)
  deriving DecidableEq, Repr

/-- A register block with the offset in it. -/
inductive RegAt where
  | cap (o : Nat)
  | fwstat
  | polder (o : Nat)
  | core (c o : Nat)
  | cluster (k o : Nat)
  | die (d o : Nat)
  | frontEnd (o : Nat)
  | dredge (st o : Nat)
  | time (o : Nat)
  | badPages (o : Nat)
  | none
  deriving DecidableEq, Repr

def regBase : Nat := 0xF0000000000
def polderBase : Nat := 0x100000
def coreBase : Nat := 0x10000000
def clusterBase : Nat := 0x20000000
def dieBase : Nat := 0x21000000
def feBase : Nat := 0x22000000
def dredgeBase : Nat := 0x23000000
def timeBase : Nat := 0x24000000
def badPageBase : Nat := 0x26000000

/-- The block of an offset in the device-register window. -/
def regAt (off : Nat) : RegAt :=
  if off < 0x80000 then .cap off
  else if off < 0x81000 then .fwstat
  else if polderBase ≤ off && off < polderBase + 0x10000 then .polder (off - polderBase)
  else if coreBase ≤ off && off < coreBase + 0x3000000 then .core ((off - coreBase) / 0x10000) (off % 0x10000)
  else if clusterBase ≤ off && off < clusterBase + 0x30000 then .cluster ((off - clusterBase) / 0x1000) (off % 0x1000)
  else if dieBase ≤ off && off < dieBase + 0x400000 then .die ((off - dieBase) / 0x100000) (off % 0x100000)
  else if feBase ≤ off && off < feBase + 0x1000 then .frontEnd (off - feBase)
  else if dredgeBase ≤ off && off < dredgeBase + 0x10000 then .dredge ((off - dredgeBase) / 0x1000) (off % 0x1000)
  else if timeBase ≤ off && off < timeBase + 0x1000 then .time (off - timeBase)
  else if badPageBase ≤ off && off < badPageBase + 0x8000 then .badPages (off - badPageBase)
  else .none

/-! ## Reading -/

/-- The header of a capability entry: version 1. -/
def capHead (id len next : Nat) : Word := BitVec.ofNat 64 (id + 2 ^ 16 + len * 2 ^ 24 + next * 2 ^ 32)

/-- The capability list (R387). -/
def State.capWords (s : State) : List Word :=
  let a (o : Nat) : Word := BitVec.ofNat 64 (regBase + o)
  [capHead 0x1 3 48, 0, a coreBase, a clusterBase, a dieBase, a feBase,
   capHead 0x10 2 80, a dredgeBase, a badPageBase, 0,
   capHead 0x11 1 96, s.firm.drtab,
   capHead 0x20 1 112, 0x0F8000000000#64,
   capHead 0x30 1 128, a timeBase,
   capHead 0x40 2 160, a polderBase, 64, 0,
   capHead 0x50 1 176, 3,
   capHead 0x60 1 192, 1,
   capHead 0x70 1 0, 0x0000000002E10001#64]

/-- May the counters of an owned core be read (R373)? -/
def State.seesCore (s : State) (by_ : RegBy) (c : Nat) : Bool :=
  let k := (s.core c).slot
  if k = 0 then true
  else match by_ with
    | .outside => false
    | .hart asid mo => mo == .m || (s.keySlot k).asid == asid

def State.readCore (s : State) (by_ : RegBy) (c o : Nat) : Word :=
  let k := s.core c
  let own := s.seesCore by_ c
  if 0x800 ≤ o && o < 0xA00 then (if own then s.scntVal c ((o - 0x800) / 0x80) ((o - 0x800) % 0x80 / 8) else 0)
  else if o = 0xA00 then
    BitVec.ofNat 64 ((if k.scEn then 1 else 0) + ((s.settleScnt c).core c).scWrap.toNat * 16)
  else if o = 0xA08 then (if own then BitVec.ofNat 64 k.mbdisc else 0)
  else 0

def State.readCluster (s : State) (k o : Nat) : Word :=
  if o < 0x80 then
    let c := 16 * k + o / 8
    BitVec.ofNat 64 (s.convWays c + (if (s.core c).scrub.any (fun (sh : Share) => sh.shSize != 0) then 8 else 0))
  else if o = 0x100 then
    BitVec.ofNat 64 ((s.xfers.filter (fun x => x.cluster == k)).length % 128 + fget 0 s.cpPoison k % 2 ^ 32 * 2 ^ 16)
  else if o = 0x108 then BitVec.ofNat 64 (fget 0 s.tlstat k).toNat
  else 0

/-- LLENT and LLSTAT of a slice (R272). -/
def State.readLost (s : State) (slice o : Nat) : Word :=
  let l := s.lost.filter (fun e => e.1 == slice)
  if o < 0x200 then
    match l[o / 8]? with
    | some e => BitVec.ofNat 64 (1 + e.2 % 2 ^ 45 * 128)
    | none => 0
  else if o = 0x200 then BitVec.ofNat 64 (l.length + fget 0 s.spill slice % 2 ^ 32 * 2 ^ 8)
  else 0

def State.readDie (s : State) (d o : Nat) : Word :=
  let x := s.die d
  if o = 0 then BitVec.ofNat 64 (wfield x.tlbsd 0 18 + (if x.tlbdone then 2 ^ 19 else 0))
  else if o = 8 then x.tlbva
  else if 0x100 ≤ o && o < 0x120 then
    BitVec.ofNat 64 (if s.firm.step < 4 then 0 else s.glob + x.dd * 2 ^ 8 + (48 - s.glob - x.dd) * 2 ^ 16)
  else if 0x20000 ≤ o && o < 0x20200 then fget 0 x.npbind ((o - 0x20000) / 8)
  else if 0x30000 ≤ o && o < 0x30600 then
    let k := s.core (192 * d + (o - 0x30000) / 8)
    BitVec.ofNat 64 (k.state + k.cause * 2 ^ 8 + (if k.pass then 2 ^ 19 else 0))
  else if o = 0x60000 then s.faqFirst d
  else if o = 0x60008 then BitVec.ofNat 64 (x.faq.length + x.faqDrop % 2 ^ 32 * 2 ^ 16)
  else if 0x80000 ≤ o && o < 0xC0000 then s.readLost (128 * d + (o - 0x80000) / 0x800) ((o - 0x80000) % 0x800)
  else 0

/-- The registers of a memory port (R401). -/
def State.readPort (s : State) (m o : Nat) : Word :=
  let p := s.port m
  if o = 0 then (if p.online then 1 else 0)
  else if o = 8 then BitVec.ofNat 64 p.tmo
  else if o = 0x10 then
    BitVec.ofNat 64 (p.state + (if p.link then 4 else 0) + p.cause * 16 + p.disc % 2 ^ 32 * 2 ^ 32)
  else if o = 0x18 then BitVec.ofNat 64 p.units
  else 0

def State.readFrontEnd (s : State) (o : Nat) : Word :=
  let f := s.fe
  if o < 0x400 then (if o % 16 = 0 then fget 0 f.lqqcb (o / 16) else fget 0 f.lqctx (o / 16))
  else if o = 0x400 then f.fespill
  else if o = 0x410 then
    BitVec.ofNat 64 (f.bplist.length + (if f.bpBusy then 2 ^ 13 else 0) + (if f.bpFull then 2 ^ 14 else 0))
  else if o = 0x418 then f.svbase
  else if o = 0x420 then f.svsize
  else if 0x500 ≤ o && o < 0x580 then fget slkReset f.slk ((o - 0x500) / 8)
  else if 0x600 ≤ o && o < 0x800 then fget 0 f.lqerr ((o - 0x600) / 8)
  else if 0x800 ≤ o && o < 0xA00 then s.readPort ((o - 0x800) / 0x40) (o % 0x40)
  else if 0xC00 ≤ o && o < 0xC20 then
    let b := s.bound ((o - 0xC00) / 8)
    BitVec.ofNat 64 ((if b.deg then 1 else 0) + b.rtr * 2 ^ 8 +
      min 0xFFFF (b.crc + s.freeNat (2320 + (o - 0xC00) / 8)) * 2 ^ 24)
  else 0

/-- DRSTAT and DRTAB (R325). -/
def State.readDredge (s : State) (st o : Nat) : Word :=
  let here := s.queries.filter (fun q => q.home == st)
  let pend := (here.filter (fun q => q.phase == .waiting)).length
  if o = 0 then
    BitVec.ofNat 64 ((here.filter (fun q => q.phase.active)).length % 128 + pend % 512 * 2 ^ 8 + fget 0 s.hoff st % 2 ^ 32 * 2 ^ 32)
  else if o = 8 then s.firm.drtab
  else 0

def State.readTime (s : State) (o : Nat) : Word :=
  if o = 0 then s.time.tmctl
  else if o = 8 then BitVec.ofNat 64 (s.time.state + s.time.offset.toNat * 2 ^ 8)
  else 0

/-- The registers of a die's Fuller (R379). -/
def State.readFuller (s : State) (d o : Nat) : Word :=
  let f := s.fuller d
  if o = 0 then f.desc
  else if o = 0x10 then BitVec.ofNat 64 (f.done % 2 ^ 24 + f.total % 2 ^ 24 * 2 ^ 24 + f.cdone % 64 * 2 ^ 48)
  else if o = 0x18 then
    BitVec.ofNat 64 (f.state + (if f.err then 8 else 0) + (if 2 ≤ f.state then f.slot * 2 ^ 8 else 0))
  else 0

def State.readPolder (s : State) (o : Nat) : Word :=
  let f := s.firm
  if o < 0x200 then
    let k := s.keySlot (o / 8)
    if o = 0 then 0
    else BitVec.ofNat 64 (k.asid + (if k.valid then 2 ^ 16 else 0) + (if k.busy then 2 ^ 17 else 0) + (if k.zero then 2 ^ 18 else 0))
  else if o = 0x200 then (if f.kfDone then 0x200 else 0)
  else if o = 0x218 then BitVec.ofNat 64 (f.pldState + (if f.pldState = 3 then f.pldErr * 2 ^ 8 else 0))
  else if o = 0x220 then BitVec.ofNat 64 f.prstat
  else if o = 0x230 then f.dbg.setWidth 64
  else if 0x1000 ≤ o && o < 0x2800 then
    let k := s.core ((o - 0x1000) / 8)
    BitVec.ofNat 64 (k.slot + (if k.busy then 64 else 0))
  else if 0x8000 ≤ o && o < 0x8400 then s.readFuller ((o - 0x8000) / 0x100) (o % 0x100)
  else 0

/-- An aligned 8-byte read of the device-register window. -/
def State.regRead (s : State) (by_ : RegBy) (off : Nat) : Word :=
  match regAt off with
  | .cap o => if s.firm.step = 8 then dw s.capWords (o / 8) else 0
  | .fwstat => if off = 0x80000 then BitVec.ofNat 64 (s.firm.step + (if s.firm.fail then 2 ^ 8 else 0)) else 0
  | .polder o => s.readPolder o
  | .core c o => s.readCore by_ c o
  | .cluster k o => s.readCluster k o
  | .die d o => s.readDie d o
  | .frontEnd o => s.readFrontEnd o
  | .dredge st o => s.readDredge st o
  | .time o => s.readTime o
  | .badPages o => dw s.fe.bplist (o / 8)
  | .none => 0

/-- What a read clears; a read of a core's block finds its stall counters as they stand. -/
def State.regClear (s : State) (by_ : RegBy) (off : Nat) : State :=
  match regAt off with
  | .core c o =>
    let s := s.settleScnt c
    if o = 0xA08 && s.seesCore by_ c then s.modCore c (fun k => { k with mbdisc := 0 }) else s
  | .cluster k o => if o = 0x100 then { s with cpPoison := fset 0 s.cpPoison k 0 } else s
  | .die d o =>
    if o = 0x60000 then s.modDie d (fun x => { x with faq := x.faq.tail })
    else if o = 0x60008 then s.modDie d (fun x => { x with faqDrop := 0 })
    else if 0x80000 ≤ o && o < 0xC0000 && (o - 0x80000) % 0x800 = 0x200 then
      { s with spill := fset 0 s.spill (128 * d + (o - 0x80000) / 0x800) 0 }
    else s
  | .frontEnd o =>
    if 0x600 ≤ o && o < 0x800 then s.modFe (fun f => { f with lqerr := fset 0 f.lqerr ((o - 0x600) / 8) 0 })
    else if 0x800 ≤ o && o < 0xA00 && o % 0x40 = 0x10 then s.modPort ((o - 0x800) / 0x40) (fun p => { p with disc := 0 })
    else if 0xC00 ≤ o && o < 0xC20 then s.modBound ((o - 0xC00) / 8) (fun b => { b with rtr := 0, crc := 0 })
    else s
  | .dredge st o => if o = 0 then { s with hoff := fset 0 s.hoff st 0 } else s
  | _ => s

/-! ## Writing -/

/-- An effect that stands as an event of its own, on a selected object. -/
def State.asEvent (s : State) (sel : Nat) (f : State → Out) : State :=
  match f { s with sel := sel } with
  | .next t => { t with sel := s.sel }
  | _ => s

/-- Zero the 64 stall counters of a core. -/
def State.clearScnt (s : State) (c : Nat) : State := (s.settleScnt c).modCore c (fun k => { k with scnt := [] })

/-- Writing clr on the selected core. -/
def execScctlClear (s : State) : Out := .next (s.clearScnt s.sel)

/-- A write of SCCTL; the counters stop at what they have counted (R178). -/
def State.writeScctl (s : State) (c : Nat) (v : Word) : State :=
  let s := (s.settleScnt c).modCore c (fun k => { k with
    scEn := wbit v 0, scWrap := k.scWrap &&& ~~~(BitVec.ofNat 4 (wfield v 4 4)) })
  if wbit v 1 then s.clearScnt c else s

def State.writeDieReg (s : State) (d o : Nat) (v : Word) : State :=
  if o = 0 then s.writeTlbsd d v
  else if o = 8 then s.writeTlbva d v
  else if 0x20000 ≤ o && o < 0x20200 then s.asEvent 0 (execNpbindWrite d ((o - 0x20000) / 8) v)
  else if 0x30000 ≤ o && o < 0x30600 then
    let c := 192 * d + (o - 0x30000) / 8
    match wfield v 16 3 with
    | 1 => s.asEvent c execCoreResetCmd
    | 2 => s.asEvent c execCoreTestCmd
    | 3 => s.asEvent c execCoreReturnCmd
    | 4 => s.asEvent c execCoreFenceCmd
    | _ => s
  else s

/-- A write in the front-end block; the slack table is the firmware processor's alone (R352). -/
def State.writeFrontEnd (s : State) (by_ : RegBy) (o : Nat) (v : Word) : State :=
  if o < 0x400 then
    if o % 16 = 0 then s.modFe (fun f => { f with
      lqqcb := fset 0 f.lqqcb (o / 16) (BitVec.ofNat 64 (wfield v 0 1 + wfield v 7 45 * 128)) })
    else s.modFe (fun f => { f with lqctx := fset 0 f.lqctx (o / 16) (BitVec.ofNat 64 (wfield v 6 46 * 64)) })
  else if o = 0x400 then s.modFe (fun f => { f with fespill := BitVec.ofNat 64 (wfield v 0 32) })
  else if o = 0x408 then s.asEvent 0 (execBpadd v)
  else if o = 0x418 then s.modFe (fun f => { f with svbase := BitVec.ofNat 64 (wfield v 21 31 * 2 ^ 21) })
  else if o = 0x420 then s.modFe (fun f => { f with svsize := BitVec.ofNat 64 (wfield v 0 32) })
  else if 0x500 ≤ o && o < 0x580 then
    match by_ with
    | .outside => s.modFe (fun f => { f with slk := fset slkReset f.slk ((o - 0x500) / 8) (BitVec.ofNat 64 (wfield v 0 40)) })
    | .hart _ _ => s
  else if 0x800 ≤ o && o < 0xA00 then
    let m := (o - 0x800) / 0x40
    if o % 0x40 = 0 then s.writeFmctl m v
    else if o % 0x40 = 8 then s.modPort m (fun p => { p with tmo := max 1 (min (wfield v 0 32) 1000000) })
    else s
  else s

def State.writePolder (s : State) (o : Nat) (v : Word) : State :=
  if o = 0x200 then s.asEvent 0 (execKflush v)
  else if o = 0x208 then s.asEvent 0 (execKszero v)
  else if o = 0x210 then s.pldcmd v
  else if 0x1000 ≤ o && o < 0x2800 then s.asEvent 0 (execPcownWrite ((o - 0x1000) / 8) v)
  else if 0x8000 ≤ o && o < 0x8400 then
    let d := (o - 0x8000) / 0x100
    if o % 0x100 = 0 then s.setFuller d { s.fuller d with desc := BitVec.ofNat 64 (wfield v 6 46 * 64) }
    else if o % 0x100 = 8 then
      match wfield v 0 2 with
      | 1 => s.asEvent d execFullerArm
      | 2 => s.asEvent d execFullerStart
      | _ => s
    else if o % 0x100 = 0x18 then
      if wbit v 3 then s.setFuller d { s.fuller d with err := false } else s
    else s
  else s

/-- An aligned 8-byte write of the device-register window. A program hart's writes to the Polder and time blocks are ignored
(R350, R374; log 46). -/
def State.regWrite (s : State) (by_ : RegBy) (off : Nat) (v : Word) : State :=
  match regAt off with
  | .polder o => match by_ with
    | .outside => s.writePolder o v
    | .hart _ _ => s
  | .core c o => if o = 0xA00 then s.writeScctl c v else s
  | .cluster k o =>
    if o = 0x108 then { s with tlstat := fset 0 s.tlstat k (fget 0 s.tlstat k &&& ~~~(v.setWidth 32)) } else s
  | .die d o => s.writeDieReg d o v
  | .frontEnd o => s.writeFrontEnd by_ o v
  | .time o => match by_ with
    | .outside =>
      if o = 0 then { s with time := s.time.writeCtl s.clock v } else if o = 0x10 then s.asEvent 0 (execTmsetWrite v) else s
    | .hart _ _ => s
  | _ => s

/-! ## Notify pages (R290) -/

/-- NPHEAD and NPERR. -/
def State.notifyRead (s : State) (off : Nat) : Word :=
  let d := off / 0x40000
  let j := off / 0x1000 % 64
  if off % 0x1000 = 8 then
    match s.notifyQcb d j with
    | none => 0
    | some pa => if s.qcbRefused pa then 0 else BitVec.ofNat 64 (qcbParse (dwords 16 (s.readAt pa 128).1)).head
  else if off % 0x1000 = 0x10 then BitVec.ofNat 64 (fget 0 (s.die d).nperr j)
  else 0

def State.notifyClear (s : State) (off : Nat) : State :=
  if off % 0x1000 = 0x10 then s.modDie (off / 0x40000) (fun d => { d with nperr := fset 0 d.nperr (off / 0x1000 % 64) 0 }) else s

def State.notifyWrite (s : State) (off : Nat) (v : Word) : State :=
  if off % 0x1000 = 0 then s.asEvent 0 (execNotify (off / 0x40000) (off / 0x1000 % 64) v) else s

/-! ## Accesses from outside -/

/-- The BARs' registers as the events name them: device addresses, and from 2^52 on the MSI-X table of BAR 4. -/
def msixBase : Nat := 2 ^ 52

/-- The mask bit that a write of `n` bytes at an offset of the MSI-X table gives, where it reaches a vector control word: the upper half of 8
bytes at an entry's byte 8, or 4 bytes at its byte 12. -/
def msixMaskBit (o n : Nat) (v : Word) : Option Bool :=
  if o % 16 = 8 && n = 8 then some (wbit v 32) else if o % 16 = 12 && n = 4 then some (wbit v 0) else none

/-- A write to the MSI-X table: the mask bit of a vector; an unmasked pending vector is sent. -/
def State.msixWrite (s : State) (o n : Nat) (v : Word) : State :=
  let bit := 1#16 <<< (o / 16)
  match if o < 256 then msixMaskBit o n v else none with
  | some true => s.modFe (fun f => { f with msixMask := f.msixMask ||| bit })
  | some false => s.modFe (fun f => { f with msixMask := f.msixMask &&& ~~~bit, msixPend := f.msixPend &&& ~~~bit })
  | none => s

/-- A write to a device register by an agent outside. A refused one, and one that is no aligned access of 8 bytes, is
discarded and posted (R372, R393). -/
def execRegisterWrite (a : Access) (v : Word) (s : State) : Out :=
  let pa := a.pa
  if s.firm.step = 0x0E then .next s
  else if msixBase ≤ pa then .next (s.msixWrite (pa - msixBase) a.size v)
  else if paKey pa != 0 || pa % 8 != 0 || a.size != 8 then .next (s.postFault 0 6 pa)
  else match s.region pa with
    | .regs off => if regAt off = .none then .next (s.postFault 0 6 pa) else .next (s.regWrite .outside off v)
    | .notify off => .next (s.notifyWrite off v)
    | _ => .next s

/-- The address and the size that a selected read names: a multiple of 2^56 above the address is the size, none stands for 8 bytes. -/
def readAddr (sel : Nat) : Nat := sel % 2 ^ 56
def readSize (sel : Nat) : Nat := if sel / 2 ^ 56 = 0 then 8 else sel / 2 ^ 56

/-- A read of the selected register by an agent outside: its read-clear fields are cleared. A refused one, and one that is no aligned access
of 8 bytes, has no such effect and is posted (R346, R372, R393). -/
def execReadClearRegisterRead (s : State) : Out :=
  let pa := readAddr s.sel
  if s.firm.step = 0x0E || msixBase ≤ pa then .next s
  else if paKey pa != 0 || pa % 8 != 0 || readSize s.sel != 8 then .next (s.postFault 0 6 pa)
  else match s.region pa with
    | .regs off => if regAt off = .none then .next (s.postFault 0 6 pa) else .next (s.regClear .outside off)
    | .notify off => .next (s.notifyClear off)
    | _ => .next s

end Sys2Proof.Machine
end

