-- ==== Sys2Proof/Machine/LaneArith.lean ====
section
/-! DEFINITION. Integer lane arithmetic, bit operations, moves, immediates and integer compares (R94 to R96, R101 to R108,
R160). -/
namespace Sys2Proof.Machine

/-! ## Elements (R11, R96) -/

def ityFmt : Ity → IFmt
  | .s32 => ⟨true, 32⟩ | .n32 => ⟨false, 32⟩ | .s16 => ⟨true, 16⟩ | .n16 => ⟨false, 16⟩
  | .s8 => ⟨true, 8⟩ | .n8 => ⟨false, 8⟩ | .s64 => ⟨true, 64⟩ | .n64 => ⟨false, 64⟩

/-- Apply an integer function of two elements to every element of a 32-bit operand; the result is taken modulo 2^n. -/
def elems32 (t : IFmt) (f : Int → Int → Int) (a b : Nat) : Nat :=
  (List.range (32 / t.n)).foldl (fun acc j =>
    acc + t.wrap (f (t.val (a >>> (t.n * j) % 2 ^ t.n)) (t.val (b >>> (t.n * j) % 2 ^ t.n))) <<< (t.n * j)) 0

/-- An integer two-source word on packed elements (R101). -/
def State.laneInt (s : State) (p : LaneHdr) (t : Ity) (f : Int → Int → Int) (vd va vb : LOp) : State :=
  s.laneOp32 p (regsOf va 1 ++ regsOf vb 1) vd (fun h i =>
    (BitVec.ofNat 32 (elems32 (ityFmt t) f (h.src32 va i).toNat (h.src32 vb i).toNat), 0))

/-- `vadd` and `vsub`, whose 64-bit types take pairs (R101). -/
def State.laneAddSub (s : State) (p : LaneHdr) (t : Ity) (sub : Bool) (vd va vb : LOp) : State :=
  if t.is64 then
    s.laneOp64 p (regsOf va 2 ++ regsOf vb 2) vd (fun h i =>
      (if sub then h.src64 va i - h.src64 vb i else h.src64 va i + h.src64 vb i, 0))
  else s.laneInt p t (fun a b => if sub then a - b else a + b) vd va vb

def execVadd (p : LaneHdr) (t : Ity) (vd va vb : LOp) (s : State) : Out := .next (s.laneAddSub p t false vd va vb)
def execVsub (p : LaneHdr) (t : Ity) (vd va vb : LOp) (s : State) : Out := .next (s.laneAddSub p t true vd va vb)
def execVmul (p : LaneHdr) (t : Ity) (vd va vb : LOp) (s : State) : Out :=
  .next (s.laneInt p t (fun a b => a * b) vd va vb)
/-- The high half of the product (R101). -/
def execVmulh (p : LaneHdr) (t : Ity) (vd va vb : LOp) (s : State) : Out :=
  .next (s.laneInt p t (fun a b => Int.fdiv (a * b) (2 ^ (ityFmt t).n : Nat)) vd va vb)
def execVmin (p : LaneHdr) (t : Ity) (vd va vb : LOp) (s : State) : Out :=
  .next (s.laneInt p t (fun a b => if a ≤ b then a else b) vd va vb)
def execVmax (p : LaneHdr) (t : Ity) (vd va vb : LOp) (s : State) : Out :=
  .next (s.laneInt p t (fun a b => if a ≤ b then b else a) vd va vb)
def execVabsd (p : LaneHdr) (t : Ity) (vd va vb : LOp) (s : State) : Out :=
  .next (s.laneInt p t (fun a b => if a ≤ b then b - a else a - b) vd va vb)
def execVadds (p : LaneHdr) (t : Ity) (vd va vb : LOp) (s : State) : Out :=
  .next (s.laneInt p t (fun a b => (ityFmt t).sat (a + b)) vd va vb)
def execVsubs (p : LaneHdr) (t : Ity) (vd va vb : LOp) (s : State) : Out :=
  .next (s.laneInt p t (fun a b => (ityFmt t).sat (a - b)) vd va vb)

/-! ## Three-source integer and bit words (R102, R105) -/

/-- The exact product of two 32-bit elements. -/
def prod32 (unsgn : Bool) (a b : Lane) : Int := (IFmt.mk (!unsgn) 32).val a.toNat * (IFmt.mk (!unsgn) 32).val b.toNat

/-- A three-source word on whole 32-bit values. -/
def State.lane3 (s : State) (p : LaneHdr) (f : Lane → Lane → Lane → Lane) (vd va vb vc : LOp) : State :=
  s.laneOp32 p (regsOf va 1 ++ regsOf vb 1 ++ regsOf vc 1) vd (fun h i =>
    (f (h.src32 va i) (h.src32 vb i) (h.src32 vc i), 0))

def execVmad (p : LaneHdr) (unsgn : Bool) (vd va vb vc : LOp) (s : State) : Out :=
  .next (s.lane3 p (fun a b c => BitVec.ofInt 32 (prod32 unsgn a b + c.toNat)) vd va vb vc)
def execVmadh (p : LaneHdr) (unsgn : Bool) (vd va vb vc : LOp) (s : State) : Out :=
  .next (s.lane3 p (fun a b c => BitVec.ofInt 32 (Int.fdiv (prod32 unsgn a b) (2 ^ 32 : Nat) + c.toNat)) vd va vb vc)

/-- Bitwise select: va where vc is 1, vb where it is 0. -/
def bitSelect (a b c : Lane) : Lane := (a &&& c) ||| (b &&& ~~~c)

/-- Bit-field insert: position vc[4:0], length min(vc[13:8], 32). -/
def bitInsert (a b c : Lane) : Lane :=
  let pos := c.toNat % 32
  let len := min (c.toNat / 256 % 64) 32
  let fm := BitVec.ofNat 32 ((2 ^ len - 1) <<< pos)
  (b &&& ~~~fm) ||| ((a <<< pos) &&& fm)

/-- Funnel shift right: va is the high word. -/
def funnel (a b c : Lane) : Lane := ((a ++ b) >>> (c.toNat % 32)).setWidth 32

def execVsel (p : LaneHdr) (vd va vb vc : LOp) (s : State) : Out := .next (s.lane3 p bitSelect vd va vb vc)
def execVbfi (p : LaneHdr) (vd va vb vc : LOp) (s : State) : Out := .next (s.lane3 p bitInsert vd va vb vc)
def execVfunnel (p : LaneHdr) (vd va vb vc : LOp) (s : State) : Out := .next (s.lane3 p funnel vd va vb vc)

/-! ## Two-source bit words (R104, R106) -/

/-- A two-source word on whole 32-bit values. -/
def State.lane2 (s : State) (p : LaneHdr) (f : Lane → Lane → Lane) (vd va vb : LOp) : State :=
  s.laneOp32 p (regsOf va 1 ++ regsOf vb 1) vd (fun h i => (f (h.src32 va i) (h.src32 vb i), 0))

def execVand (p : LaneHdr) (vd va vb : LOp) (s : State) : Out := .next (s.lane2 p (fun a b => a &&& b) vd va vb)
def execVor (p : LaneHdr) (vd va vb : LOp) (s : State) : Out := .next (s.lane2 p (fun a b => a ||| b) vd va vb)
def execVxor (p : LaneHdr) (vd va vb : LOp) (s : State) : Out := .next (s.lane2 p (fun a b => a ^^^ b) vd va vb)
def execVandn (p : LaneHdr) (vd va vb : LOp) (s : State) : Out := .next (s.lane2 p (fun a b => a &&& ~~~b) vd va vb)
def execVsll (p : LaneHdr) (vd va vb : LOp) (s : State) : Out :=
  .next (s.lane2 p (fun a b => a <<< (b.toNat % 32)) vd va vb)
def execVsrl (p : LaneHdr) (vd va vb : LOp) (s : State) : Out :=
  .next (s.lane2 p (fun a b => a >>> (b.toNat % 32)) vd va vb)
def execVsra (p : LaneHdr) (vd va vb : LOp) (s : State) : Out :=
  .next (s.lane2 p (fun a b => a.sshiftRight (b.toNat % 32)) vd va vb)
def execVrol (p : LaneHdr) (vd va vb : LOp) (s : State) : Out :=
  .next (s.lane2 p (fun a b => a.rotateLeft (b.toNat % 32)) vd va vb)

/-- One result byte of `vperm` for its 4-bit selector. -/
def permByte (a : Lane) (sel : Nat) : Nat :=
  let byte := a.toNat >>> (8 * (sel % 4)) % 256
  match sel / 4 % 4 with
  | 0 => byte
  | 1 => 0
  | 2 => if 128 ≤ byte then 255 else 0
  | _ => 255

/-- Byte permutation (R106). -/
def permute (a b : Lane) : Lane :=
  BitVec.ofNat 32 ((List.range 4).foldl (fun acc j => acc + permByte a (b.toNat >>> (4 * j) % 16) <<< (8 * j)) 0)

def execVperm (p : LaneHdr) (vd va vb : LOp) (s : State) : Out := .next (s.lane2 p permute vd va vb)

/-- Not implemented on the JM4: always an illegal instruction with all 64 bits in stval (R48, R160). -/
def execVclmulN32 (bits : Word) (s : State) : Out := .next (s.trap ⟨2, 0, bits⟩)

/-! ## Unary words (R107) -/

/-- A unary word on whole 32-bit values. -/
def State.lane1 (s : State) (p : LaneHdr) (f : Lane → Lane) (vd va : LOp) : State :=
  s.laneOp32 p (regsOf va 1) vd (fun h i => (f (h.src32 va i), 0))

/-- Leading zero bits of a number below 2^w. -/
def clzN (w v : Nat) : Nat := if v = 0 then w else w - 1 - Nat.log2 v

/-- Trailing zero bits of a number below 2^w. -/
def ctzN (w v : Nat) : Nat := ((List.range w).find? (fun i => v.testBit i)).getD w

/-- One bits of a number below 2^w. -/
def popN (w v : Nat) : Nat := ((List.range w).filter (fun i => v.testBit i)).length

def execVmov (p : LaneHdr) (vd va : LOp) (s : State) : Out := .next (s.lane1 p (fun a => a) vd va)
def execVnot (p : LaneHdr) (vd va : LOp) (s : State) : Out := .next (s.lane1 p (fun a => ~~~a) vd va)
def execVbrev (p : LaneHdr) (vd va : LOp) (s : State) : Out := .next (s.lane1 p (fun a => a.reverse) vd va)
def execVclz (p : LaneHdr) (vd va : LOp) (s : State) : Out :=
  .next (s.lane1 p (fun a => BitVec.ofNat 32 (clzN 32 a.toNat)) vd va)
def execVctz (p : LaneHdr) (vd va : LOp) (s : State) : Out :=
  .next (s.lane1 p (fun a => BitVec.ofNat 32 (ctzN 32 a.toNat)) vd va)
def execVpopc (p : LaneHdr) (vd va : LOp) (s : State) : Out :=
  .next (s.lane1 p (fun a => BitVec.ofNat 32 (popN 32 a.toNat)) vd va)

/-- `vneg` by type (R107, R114). -/
def negLane (t : NegTy) (a : Lane) : Lane :=
  match t with
  | .s32 => -a
  | .f32 => a ^^^ 0x80000000#32
  | .h2 | .b2 => a ^^^ 0x80008000#32

/-- `vabs` by type (R107, R114). -/
def absLane (t : NegTy) (a : Lane) : Lane :=
  match t with
  | .s32 => if a.msb then -a else a
  | .f32 => a &&& 0x7FFFFFFF#32
  | .h2 | .b2 => a &&& 0x7FFF7FFF#32

def execVneg (p : LaneHdr) (t : NegTy) (vd va : LOp) (s : State) : Out := .next (s.lane1 p (negLane t) vd va)
def execVabs (p : LaneHdr) (t : NegTy) (vd va : LOp) (s : State) : Out := .next (s.lane1 p (absLane t) vd va)

/-! ## Immediate words (R50, R103) -/

/-- The immediate, sign-extended to 32 bits. -/
def immLane (imm : BitVec 20) : Lane := imm.signExtend 32

def execVmovi (p : LaneHdr) (imm : BitVec 20) (vd : LOp) (s : State) : Out :=
  .next (s.laneOp32 p [] vd (fun _ _ => (immLane imm, 0)))
def execVaddi (p : LaneHdr) (imm : BitVec 20) (vd va : LOp) (s : State) : Out :=
  .next (s.lane1 p (fun a => a + immLane imm) vd va)
def execVandi (p : LaneHdr) (imm : BitVec 20) (vd va : LOp) (s : State) : Out :=
  .next (s.lane1 p (fun a => a &&& immLane imm) vd va)
def execVori (p : LaneHdr) (imm : BitVec 20) (vd va : LOp) (s : State) : Out :=
  .next (s.lane1 p (fun a => a ||| immLane imm) vd va)
def execVxori (p : LaneHdr) (imm : BitVec 20) (vd va : LOp) (s : State) : Out :=
  .next (s.lane1 p (fun a => a ^^^ immLane imm) vd va)
def execVslli (p : LaneHdr) (sh : BitVec 5) (vd va : LOp) (s : State) : Out :=
  .next (s.lane1 p (fun a => a <<< sh.toNat) vd va)
def execVsrli (p : LaneHdr) (sh : BitVec 5) (vd va : LOp) (s : State) : Out :=
  .next (s.lane1 p (fun a => a >>> sh.toNat) vd va)
def execVsrai (p : LaneHdr) (sh : BitVec 5) (vd va : LOp) (s : State) : Out :=
  .next (s.lane1 p (fun a => a.sshiftRight sh.toNat) vd va)
def execVmuli (p : LaneHdr) (imm : BitVec 20) (vd va : LOp) (s : State) : Out :=
  .next (s.lane1 p (fun a => a * immLane imm) vd va)

/-! ## Integer compares (R108) -/

/-- A compare of two integers; `ord` and `uno` do not occur in the integer forms. -/
def condInt (c : Cond) (a b : Int) : Bool :=
  match c with
  | .eq => decide (a = b)
  | .ne => decide (a ≠ b)
  | .lt => decide (a < b)
  | .ge => decide (b ≤ a)
  | .gt => decide (b < a)
  | .le => decide (a ≤ b)
  | .ord => true
  | .uno => false

def execVcmp (p : LaneHdr) (c : Cond) (unsgn : Bool) (md : MReg) (va vb : LOp) (s : State) : Out :=
  .next (s.laneMask p (regsOf va 1 ++ regsOf vb 1) md (fun h _ i =>
    (condInt c ((IFmt.mk (!unsgn) 32).val (h.src32 va i).toNat) ((IFmt.mk (!unsgn) 32).val (h.src32 vb i).toNat), 0)))

/-- The immediate is sign-extended, or zero-extended in the unsigned form (R103). -/
def execVcmpi (p : LaneHdr) (c : Cond) (unsgn : Bool) (imm : BitVec 20) (md : MReg) (va : LOp) (s : State) : Out :=
  .next (s.laneMask p (regsOf va 1) md (fun h _ i =>
    (condInt c ((IFmt.mk (!unsgn) 32).val (h.src32 va i).toNat) (if unsgn then imm.toNat else imm.toInt), 0)))

end Sys2Proof.Machine
end

