-- ==== Sys2Proof/Machine/Masks.lean ====
section
/-! DEFINITION. The active mask, the mask stack and the branches on masks (R153 to R159). -/
namespace Sys2Proof.Machine

/-- The mask stack's top entry, if any: the stack is held oldest first. -/
def Hart.topMask (h : Hart) : Option MaskEntry := h.mstk.getLast?

/-- Mask stack fault: overflow 0, underflow 1 (R75, R155). -/
def State.maskFault (s : State) (sub : Nat) : State := s.trap ⟨24, sub, 0⟩

/-- Push {saved := m0, park := 0, tag := pc + 4, rpc := 0} (R155). -/
def Hart.pushMask (h : Hart) : Hart := { h with mstk := h.mstk ++ [⟨h.getM 0, 0, h.pc + 4, 0⟩] }

/-- m0 := E.saved; pop. -/
def Hart.popMask (h : Hart) (e : MaskEntry) : Hart := { (h.setM 0 e.saved) with mstk := h.mstk.dropLast }

def execMdiv (k : MReg) (s : State) : Out :=
  if 32 ≤ s.hart.mstk.length then .next (s.maskFault 0)
  else .next (s.onHart (fun h => (h.pushMask).setM 0 (h.getM 0 &&& h.getM k))).retire

def execMpush (s : State) : Out :=
  if 32 ≤ s.hart.mstk.length then .next (s.maskFault 0) else .next (s.onHart Hart.pushMask).retire

def execMelse (k : MReg) (s : State) : Out :=
  match s.hart.topMask with
  | none => .next (s.maskFault 1)
  | some e => .next (s.onHart (fun h => h.setM 0 (e.saved &&& ~~~e.park &&& ~~~(h.getM k)))).retire

def execMjoin (s : State) : Out :=
  match s.hart.topMask with
  | none => .next (s.maskFault 1)
  | some e => .next (s.onHart (fun h => h.popMask e)).retire

def execMpop (s : State) : Out :=
  match s.hart.topMask with
  | none => .next (s.maskFault 1)
  | some e => .next (s.onHart (fun h => h.popMask e)).retire

/-- The active lanes park; the last of the awaited lanes to arrive releases all, else the resting lanes go to the tag. -/
def execMrejoin (s : State) : Out :=
  match s.hart.topMask with
  | none => .next (s.maskFault 1)
  | some e =>
    let h := s.hart
    let e := { e with rpc := if e.park = 0 then h.pc else e.rpc, park := e.park ||| h.getM 0 }
    let rem := e.saved &&& ~~~e.park
    if rem = 0 then .next (s.onHart (fun h => h.popMask e)).retire
    else .next ((s.onHart (fun h => { (h.setM 0 rem) with mstk := h.mstk.dropLast ++ [e] })).retireTo e.tag)

/-! ## Reading and writing mask state by selector (R157) -/

/-- What a selector names. -/
inductive MaskSel where
  | entry (field idx : Nat) | m0 | live | bad
  deriving DecidableEq, Repr

def maskSel (w : Word) : MaskSel :=
  if w = 0x8000#64 then .m0
  else if w = 0x8001#64 then .live
  else if w.toNat < 1024 && w.toNat / 32 % 8 = 0 then .entry (w.toNat / 256) (w.toNat % 32)
  else .bad

/-- A field of an entry as a word. -/
def MaskEntry.read (e : MaskEntry) (field : Nat) : Word :=
  match field with
  | 0 => e.saved.setWidth 64
  | 1 => e.park.setWidth 64
  | 2 => e.tag
  | _ => e.rpc

/-- An entry with a field written; the masks are ANDed with the live mask, the addresses lose bit 0. -/
def MaskEntry.write (e : MaskEntry) (field : Nat) (live : Mask) (v : Word) : MaskEntry :=
  match field with
  | 0 => { e with saved := v.setWidth 32 &&& live }
  | 1 => { e with park := v.setWidth 32 &&& live }
  | 2 => { e with tag := wputb v 0 false }
  | _ => { e with rpc := wputb v 0 false }

def execMrd (rd rs1 : XReg) (s : State) : Out :=
  let h := s.hart
  match maskSel (h.getX rs1) with
  | .bad => .next s.illegal
  | .m0 => .next (s.setX rd ((h.getM 0).setWidth 64)).retire
  | .live => .next (s.setX rd (h.live.setWidth 64)).retire
  | .entry f i =>
    match h.mstk[i]? with
    | none => .next (s.maskFault 1)
    | some e => .next (s.setX rd (e.read f)).retire

def execMwr (rs1 rs2 : XReg) (s : State) : Out :=
  let h := s.hart
  match maskSel (h.getX rs1) with
  | .bad | .live => .next s.illegal
  | .m0 => .next (s.onHart (fun h => h.setM 0 ((h.getX rs2).setWidth 32 &&& h.live))).retire
  | .entry f i =>
    match h.mstk[i]? with
    | none => .next (s.maskFault 1)
    | some e => .next (s.onHart (fun h => { h with mstk := h.mstk.set i (e.write f h.live (h.getX rs2)) })).retire

/-! ## Branches on masks (R156) -/

/-- A taken branch goes to pc + offset; the offset is held without its zero bit. -/
def branchTarget (pc : Word) (off : BitVec 12) : Word := pc + (off.signExtend 64 <<< 1)

def State.branchIf (s : State) (c : Bool) (off : BitVec 12) : State :=
  if c then s.retireTo (branchTarget s.hart.pc off) else s.retire

def execBmany (k : MReg) (off : BitVec 12) (s : State) : Out :=
  .next (s.branchIf ((s.hart.getM 0 &&& s.hart.getM k) != 0) off)
def execBmall (k : MReg) (off : BitVec 12) (s : State) : Out :=
  .next (s.branchIf ((s.hart.getM 0 &&& s.hart.getM k) == s.hart.getM 0) off)
def execBmnone (k : MReg) (off : BitVec 12) (s : State) : Out :=
  .next (s.branchIf ((s.hart.getM 0 &&& s.hart.getM k) == 0) off)

/-! ## Ending lanes (R158) -/

/-- The release of R158: while m0 is 0 and every awaited lane of the top entry is parked, the parked lanes go on after
their `mrejoin`. -/
def releaseParked : Nat → Hart × Option Word → Hart × Option Word
  | 0, r => r
  | n + 1, (h, tgt) =>
    match h.topMask with
    | none => (h, tgt)
    | some e =>
      if h.getM 0 = 0 && e.park != 0 && (e.saved &&& ~~~e.park) == 0 then
        releaseParked n (h.popMask e, some (e.rpc + 4))
      else (h, tgt)

/-- Clear lanes from every mask. -/
def Hart.endLanes (h : Hart) (x : Mask) : Hart :=
  { (h.setM 0 (h.getM 0 &&& ~~~x)) with
    live := h.live &&& ~~~x
    mstk := h.mstk.map (fun e => { e with saved := e.saved &&& ~~~x, park := e.park &&& ~~~x }) }

def execVexit (p : LaneHdr) (s : State) : Out :=
  let h := s.hart.endLanes (s.hart.active p)
  match releaseParked h.mstk.length (h, none) with
  | (h', none) => .next ({ s with hart := h' }).retire
  | (h', some a) => .next ({ s with hart := h' }.retireTo a)

end Sys2Proof.Machine
end

