-- ==== Sys2Proof/Machine/Scalar.lean ====
section
/-! DEFINITION. The standard integer instructions: RV64IM, Zba, Zbb, Zbs, Zbc, Zicond (R33). -/
namespace Sys2Proof.Machine

/-- The low word, sign-extended. -/
def sext32 (v : Word) : Word := (v.setWidth 32).signExtend 64
/-- The low word, zero-extended. -/
def zext32 (v : Word) : Word := (v.setWidth 32).setWidth 64

/-- Signed division: by zero all ones; the overflowing quotient is the dividend. -/
def divS (w : Nat) (a b : BitVec w) : BitVec w :=
  if b = 0 then BitVec.allOnes w else BitVec.ofInt w (Int.tdiv a.toInt b.toInt)
def divU (w : Nat) (a b : BitVec w) : BitVec w := if b = 0 then BitVec.allOnes w else a / b
def remS (w : Nat) (a b : BitVec w) : BitVec w := if b = 0 then a else BitVec.ofInt w (Int.tmod a.toInt b.toInt)
def remU (w : Nat) (a b : BitVec w) : BitVec w := if b = 0 then a else a % b

/-- The carry-less product of two numbers, over the low `n` bits of `b`. -/
def clmulN (a b : Nat) : Nat → Nat
  | 0 => 0
  | n + 1 => (clmulN a b n) ^^^ (if b.testBit n then a <<< n else 0)

/-- A register-register operation. -/
def aluVal (op : AluOp) (a b : Word) : Word :=
  let a32 : BitVec 32 := a.setWidth 32
  let b32 : BitVec 32 := b.setWidth 32
  let n6 := b.toNat % 64
  let n5 := b.toNat % 32
  match op with
  | .add => a + b
  | .sub => a - b
  | .sll => a <<< n6
  | .slt => if a.slt b then 1 else 0
  | .sltu => if a.ult b then 1 else 0
  | .xor => a ^^^ b
  | .srl => a >>> n6
  | .sra => a.sshiftRight n6
  | .or => a ||| b
  | .and => a &&& b
  | .addw => sext32 (a + b)
  | .subw => sext32 (a - b)
  | .sllw => (a32 <<< n5).signExtend 64
  | .srlw => (a32 >>> n5).signExtend 64
  | .sraw => (a32.sshiftRight n5).signExtend 64
  | .mul => a * b
  | .mulh => BitVec.ofInt 64 (Int.fdiv (a.toInt * b.toInt) (2 ^ 64 : Nat))
  | .mulhsu => BitVec.ofInt 64 (Int.fdiv (a.toInt * b.toNat) (2 ^ 64 : Nat))
  | .mulhu => BitVec.ofNat 64 (a.toNat * b.toNat / 2 ^ 64)
  | .div => divS 64 a b
  | .divu => divU 64 a b
  | .rem => remS 64 a b
  | .remu => remU 64 a b
  | .mulw => (a32 * b32).signExtend 64
  | .divw => (divS 32 a32 b32).signExtend 64
  | .divuw => (divU 32 a32 b32).signExtend 64
  | .remw => (remS 32 a32 b32).signExtend 64
  | .remuw => (remU 32 a32 b32).signExtend 64
  | .adduw => zext32 a + b
  | .sh1add => (a <<< 1) + b
  | .sh2add => (a <<< 2) + b
  | .sh3add => (a <<< 3) + b
  | .sh1adduw => (zext32 a <<< 1) + b
  | .sh2adduw => (zext32 a <<< 2) + b
  | .sh3adduw => (zext32 a <<< 3) + b
  | .andn => a &&& ~~~b
  | .orn => a ||| ~~~b
  | .xnor => ~~~(a ^^^ b)
  | .max => if a.slt b then b else a
  | .maxu => if a.ult b then b else a
  | .min => if a.slt b then a else b
  | .minu => if a.ult b then a else b
  | .rol => a.rotateLeft n6
  | .ror => a.rotateRight n6
  | .rolw => (a32.rotateLeft n5).signExtend 64
  | .rorw => (a32.rotateRight n5).signExtend 64
  | .bclr => a &&& ~~~(1#64 <<< n6)
  | .bext => if a.getLsbD n6 then 1 else 0
  | .binv => a ^^^ (1#64 <<< n6)
  | .bset => a ||| (1#64 <<< n6)
  | .clmul => BitVec.ofNat 64 (clmulN a.toNat b.toNat 64)
  | .clmulh => BitVec.ofNat 64 (clmulN a.toNat b.toNat 64 >>> 64)
  | .clmulr => BitVec.ofNat 64 (clmulN a.toNat b.toNat 64 >>> 63)
  | .czeroEqz => if b = 0 then 0 else a
  | .czeroNez => if b = 0 then a else 0

/-- An operation with a 12-bit immediate, sign-extended. -/
def aluImmVal (op : AluImm) (a : Word) (imm : BitVec 12) : Word :=
  let b := imm.signExtend 64
  match op with
  | .addi => a + b
  | .slti => if a.slt b then 1 else 0
  | .sltiu => if a.ult b then 1 else 0
  | .xori => a ^^^ b
  | .ori => a ||| b
  | .andi => a &&& b
  | .addiw => sext32 (a + b)

/-- An immediate shift, rotate or single-bit operation. -/
def shiftVal (op : ShiftImm) (a : Word) (sh : BitVec 6) : Word :=
  let n := sh.toNat
  let a32 : BitVec 32 := a.setWidth 32
  match op with
  | .slli => a <<< n
  | .srli => a >>> n
  | .srai => a.sshiftRight n
  | .slliw => (a32 <<< n).signExtend 64
  | .srliw => (a32 >>> n).signExtend 64
  | .sraiw => (a32.sshiftRight n).signExtend 64
  | .rori => a.rotateRight n
  | .roriw => (a32.rotateRight n).signExtend 64
  | .slliuw => zext32 a <<< n
  | .bclri => a &&& ~~~(1#64 <<< n)
  | .bexti => if a.getLsbD n then 1 else 0
  | .binvi => a ^^^ (1#64 <<< n)
  | .bseti => a ||| (1#64 <<< n)

/-- Byte `i` of a word. -/
def byteAt (a : Word) (i : Nat) : Nat := a.toNat >>> (8 * i) % 256

/-- A unary operation of Zbb. -/
def unVal (op : UnOp) (a : Word) : Word :=
  match op with
  | .clz => BitVec.ofNat 64 (clzN 64 a.toNat)
  | .ctz => BitVec.ofNat 64 (ctzN 64 a.toNat)
  | .cpop => BitVec.ofNat 64 (popN 64 a.toNat)
  | .clzw => BitVec.ofNat 64 (clzN 32 (a.toNat % 2 ^ 32))
  | .ctzw => BitVec.ofNat 64 (ctzN 32 (a.toNat % 2 ^ 32))
  | .cpopw => BitVec.ofNat 64 (popN 32 (a.toNat % 2 ^ 32))
  | .sextb => (a.setWidth 8).signExtend 64
  | .sexth => (a.setWidth 16).signExtend 64
  | .zexth => (a.setWidth 16).setWidth 64
  | .orcb => BitVec.ofNat 64 ((List.range 8).foldl (fun acc i => acc + (if byteAt a i = 0 then 0 else 255) <<< (8 * i)) 0)
  | .rev8 => BitVec.ofNat 64 ((List.range 8).foldl (fun acc i => acc + byteAt a i <<< (8 * (7 - i))) 0)

/-- Is a branch taken? -/
def brTaken (c : BrCond) (a b : Word) : Bool :=
  match c with
  | .beq => a == b
  | .bne => a != b
  | .blt => a.slt b
  | .bge => b.sle a
  | .bltu => a.ult b
  | .bgeu => b.ule a

/-- `lui` and the offset of `auipc`. -/
def upperImm (imm : BitVec 20) : Word := (imm ++ (0#12)).signExtend 64

/-- Write a result and retire. -/
def State.writeX (s : State) (rd : XReg) (v : Word) : State := (s.setX rd v).retire

/-- A jump: the link register receives the next address; a jump makes no end test (R92). -/
def State.jump (s : State) (rd : XReg) (target : Word) : State :=
  (s.setX rd (s.hart.pc + BitVec.ofNat 64 s.hart.ilen)).retireTo target

end Sys2Proof.Machine
end

