-- ==== Sys2Proof/Machine/ScalarFp.lean ====
section
/-! DEFINITION. The standard F and D instructions of a hart, and the meaning of every standard instruction (R31, R33, R34). -/
namespace Sys2Proof.Machine

def dblFmt (dbl : Bool) : Fmt := if dbl then .f64 else .f32

/-- A source of the F and D instructions: a single that is not NaN-boxed reads as the canonical NaN. -/
def Hart.fsrc (h : Hart) (dbl : Bool) (r : XReg) : Nat :=
  let v := (h.getF r).toNat
  if dbl then v else if v / 2 ^ 32 = 0xFFFFFFFF then v % 2 ^ 32 else Fmt.canon .f32

/-- A result as it stands in an f register: singles are NaN-boxed. -/
def fbox (dbl : Bool) (b : Nat) : Word := if dbl then BitVec.ofNat 64 b else BitVec.ofNat 64 (b % 2 ^ 32 + 0xFFFFFFFF * 2 ^ 32)

/-- Write an f register with flags and retire. -/
def State.writeF (s : State) (dbl : Bool) (rd : XReg) (r : FRes) : State :=
  (s.onHart (fun h => ((h.setF rd (fbox dbl r.bits)).accrueF r.flags).fsDirty)).retire

/-- Write an x register from the F unit, with flags, and retire. -/
def State.writeXF (s : State) (rd : XReg) (v : Word) (fl : BitVec 5) : State :=
  (s.onHart (fun h => (h.setX rd v).accrueF fl)).retire

/-- Guard of an F or D instruction: FS, and a rounding mode that is none for a reserved frm. -/
def State.fpGuard (s : State) (rm : Rm) (k : Rm → State) : State :=
  if s.hart.fsOff then s.illegal
  else match s.hart.rmOf rm with
    | none => s.illegal
    | some m => k m

def fmaSigns : FmaOp → Bool × Bool
  | .madd => (false, false)
  | .msub => (false, true)
  | .nmsub => (true, false)
  | .nmadd => (true, true)

def fbinVal (op : FBinOp) (f : Fmt) (rm : Rm) (a b : Nat) : FRes :=
  match op with
  | .add => fadd f rm false a b
  | .sub => fadd f rm true a b
  | .mul => fmul f rm a b
  | .div => fdiv f rm a b

/-- Sign injection. -/
def sgnVal (op : SgnOp) (f : Fmt) (a b : Nat) : Nat :=
  let w := f.signWeight
  let sa := decide (w ≤ a)
  let sb := decide (w ≤ b)
  let neg := match op with
    | .j => sb
    | .jn => !sb
    | .jx => sa != sb
  a % w + (if neg then w else 0)

def fcmpCond : FCmpOp → Cond
  | .eq => .eq
  | .lt => .lt
  | .le => .le

def intFmt : IntTy → IFmt
  | .w => ⟨true, 32⟩
  | .wu => ⟨false, 32⟩
  | .l => ⟨true, 64⟩
  | .lu => ⟨false, 64⟩

/-- An integer result in an x register: 32-bit results are sign-extended. -/
def intToX (t : IntTy) (b : Nat) : Word :=
  match t with
  | .w | .wu => (BitVec.ofNat 32 b).signExtend 64
  | .l | .lu => BitVec.ofNat 64 b

/-- The integer source of a conversion. -/
def xToInt (t : IntTy) (v : Word) : Nat :=
  match t with
  | .w | .wu => v.toNat % 2 ^ 32
  | .l | .lu => v.toNat

/-- Environment call cause by mode (R72). -/
def ecallCause : Priv → Nat
  | .u => 8
  | .s => 9
  | .m => 11

/-- The standard instructions (R33). -/
def State.std (s : State) (i : Std) : State :=
  let h := s.hart
  match i with
  | .lui rd imm => s.writeX rd (upperImm imm)
  | .auipc rd imm => s.writeX rd (h.pc + upperImm imm)
  | .jal rd off => s.jump rd (h.pc + (off.signExtend 64 <<< 1))
  | .jalr rd rs1 imm => s.jump rd (wputb (h.getX rs1 + imm.signExtend 64) 0 false)
  | .branch c rs1 rs2 off => s.branchIf (brTaken c (h.getX rs1) (h.getX rs2)) off
  | .alu op rd rs1 rs2 => s.writeX rd (aluVal op (h.getX rs1) (h.getX rs2))
  | .aluImm op rd rs1 imm => s.writeX rd (aluImmVal op (h.getX rs1) imm)
  | .shift op rd rs1 sh => s.writeX rd (shiftVal op (h.getX rs1) sh)
  | .un op rd rs1 => s.writeX rd (unVal op (h.getX rs1))
  | .fma op dbl rm rd rs1 rs2 rs3 => s.fpGuard rm (fun m =>
      s.writeF dbl rd (ffma (dblFmt dbl) m (fmaSigns op).1 (fmaSigns op).2 (h.fsrc dbl rs1) (h.fsrc dbl rs2) (h.fsrc dbl rs3)))
  | .fbin op dbl rm rd rs1 rs2 => s.fpGuard rm (fun m =>
      s.writeF dbl rd (fbinVal op (dblFmt dbl) m (h.fsrc dbl rs1) (h.fsrc dbl rs2)))
  | .fsqrt dbl rm rd rs1 => s.fpGuard rm (fun m => s.writeF dbl rd (fsqrt (dblFmt dbl) m (h.fsrc dbl rs1)))
  | .fsgnj op dbl rd rs1 rs2 => s.fpGuard .rne (fun _ =>
      s.writeF dbl rd ⟨sgnVal op (dblFmt dbl) (h.fsrc dbl rs1) (h.fsrc dbl rs2), 0⟩)
  | .fminmax max dbl rd rs1 rs2 => s.fpGuard .rne (fun _ =>
      s.writeF dbl rd (fminmax (dblFmt dbl) max (h.fsrc dbl rs1) (h.fsrc dbl rs2)))
  | .fcmp op dbl rd rs1 rs2 => s.fpGuard .rne (fun _ =>
      let r := fcompare (dblFmt dbl) (fcmpCond op) (h.fsrc dbl rs1) (h.fsrc dbl rs2)
      s.writeXF rd (if r.1 then 1 else 0) r.2)
  | .fclass dbl rd rs1 => s.fpGuard .rne (fun _ =>
      s.writeXF rd (BitVec.ofNat 64 (2 ^ fclassBit (dblFmt dbl) (h.fsrc dbl rs1))) 0)
  | .fcvtFF toD rm rd rs1 => s.fpGuard rm (fun m =>
      s.writeF toD rd (fcvt (dblFmt !toD) (dblFmt toD) m false (h.fsrc (!toD) rs1)))
  | .fcvtFI dbl ty rm rd rs1 => s.fpGuard rm (fun m =>
      let r := fcvtToInt (dblFmt dbl) (intFmt ty) m (h.fsrc dbl rs1)
      s.writeXF rd (intToX ty r.bits) r.flags)
  | .fcvtIF dbl ty rm rd rs1 => s.fpGuard rm (fun m =>
      s.writeF dbl rd (fcvtFromInt (intFmt ty) (dblFmt dbl) m false (xToInt ty (h.getX rs1))))
  | .fmvXF dbl rd rs1 => s.fpGuard .rne (fun _ =>
      s.writeXF rd (if dbl then h.getF rs1 else sext32 (h.getF rs1)) 0)
  | .fmvFX dbl rd rs1 => s.fpGuard .rne (fun _ =>
      s.writeF dbl rd ⟨if dbl then (h.getX rs1).toNat else (h.getX rs1).toNat % 2 ^ 32, 0⟩)
  | .ecall => s.trap ⟨ecallCause h.mode, 0, 0⟩
  | .ebreak => if s.debugOpen && h.ebreakHalts then s.onHart (fun h => h.debugEnter 1) else s.trap ⟨3, 0, h.pc⟩
  | .pause => s.retire
  | .illegal bits => s.trap ⟨2, 0, bits⟩

def execStandardInstruction (i : Std) (s : State) : Out := .next (s.std i)

end Sys2Proof.Machine
end

