-- ==== Sys2Proof/Machine/HartMem.lean ====
section
/-! DEFINITION. Loads, stores and atomics of a hart (R33, R34, R71, R75, R257, R266, R267, R270, R311 to R319, R392 to R394,
R397). -/
namespace Sys2Proof.Machine

/-! ## Sizes and values -/

def loadSize (k : LoadKind) : Nat :=
  match k with
  | .lb | .lbu => 1
  | .lh | .lhu => 2
  | .lw | .lwu | .flw => 4
  | .ld | .fld => 8

def storeSize (k : StoreKind) : Nat :=
  match k with
  | .sb => 1
  | .sh => 2
  | .sw | .fsw => 4
  | .sd | .fsd => 8

def loadFp (k : LoadKind) : Bool := k == .flw || k == .fld
def storeFp (k : StoreKind) : Bool := k == .fsw || k == .fsd

/-- What a load leaves in its register: extended as its kind says, a single NaN-boxed. -/
def loadVal (k : LoadKind) (v : Word) : Word :=
  match k with
  | .lb => (v.setWidth 8).signExtend 64
  | .lh => (v.setWidth 16).signExtend 64
  | .lw => (v.setWidth 32).signExtend 64
  | .lbu => (v.setWidth 8).setWidth 64
  | .lhu => (v.setWidth 16).setWidth 64
  | .lwu => (v.setWidth 32).setWidth 64
  | .flw => fbox false v.toNat
  | .ld | .fld => v

/-- The destination of a load takes the value. -/
def State.loadFin (s : State) (k : LoadKind) (rd : XReg) (v : Word) : State :=
  (if loadFp k then s.onHart (fun h => (h.setF rd (loadVal k v)).fsDirty) else s.setX rd (loadVal k v)).retire

/-! ## Checks before the access -/

/-- Wait for an access held at a port, or go on once it has completed (R394). -/
def State.holdFar (s : State) (port : Nat) (go : State → State) : State :=
  match s.hart.answer with
  | none => s.wait (.far [port])
  | some _ => go s

/-- Wait for the host to write back or to give up a line of HBM (R397): `has` lists the lines for which it must. -/
def State.holdSnoop (s : State) (has : List Nat) (pa : Nat) (go : State) : State :=
  if has.contains (tagLine pa) then s.wait (.snoop (tagLine pa)) else go

/-- A register access of the wrong size, or one outside every block, is refused (R392, R393). -/
def regSizeOk (r : Region) (n : Nat) : Bool :=
  match r with
  | .regs off => n == 8 && regAt off != .none
  | _ => n == 8

/-- The checks of a hart access before translation: a trigger, then alignment. -/
def State.hartCheck (s : State) (a : Acc) (va : Word) (n : Nat) (go : State) : State :=
  if s.trigHit a va then s.breakAt a va
  else if va.toNat % n != 0 then s.trap ⟨a.alignCause, 0, va⟩
  else go

/-- Retire, unless the register write has ended the hart itself. -/
def State.retireHere (s : State) : State := if s.hart.run.isHart then s.retire else s

/-- Who the focused hart is to a device register. -/
def State.regBy (s : State) : RegBy := .hart s.hart.asid s.hart.mode

/-! ## Loads -/

/-- The value of a hart load at a checked physical address, and what the load changes; a held access waits. -/
def State.loadAt (s : State) (va : Word) (pa n : Nat) (fin : Word → State → State) : State :=
  let r := s.region (paLow pa)
  match r with
  | .regs off =>
    if regSizeOk r n then fin (s.regRead s.regBy off) (s.regClear s.regBy off) else s.trap ⟨5, 0, va⟩
  | .notify off => if regSizeOk r n then fin (s.notifyRead off) (s.notifyClear off) else s.trap ⟨5, 0, va⟩
  | .far _ _ | .host _ =>
    s.holdFar ((s.portOf pa).getD 8) (fun s =>
      let (b, s) := s.hartRead pa n
      fin (BitVec.ofNat 64 (leNat b)) s)
  | _ =>
    s.holdSnoop s.hostMod pa (
      let (b, s) := s.hartReadVa va pa n
      fin (BitVec.ofNat 64 (leNat b)) s)

def execHartLoad (k : LoadKind) (rd rs1 : XReg) (imm : BitVec 12) (s : State) : Out :=
  let va := s.getX rs1 + imm.signExtend 64
  .next (
    if loadFp k && s.hart.fsOff then s.illegal
    else s.hartCheck .load va (loadSize k) (
      match s.hartPa .load va with
      | (.error t, s) => s.trap t
      | (.ok pa, s) => s.loadAt va pa (loadSize k) (fun v s => s.loadFin k rd v)))

/-! ## Stores -/

/-- Perform a hart store at a checked physical address; a line that the host caches is snooped first (R397). -/
def State.storeAt (s : State) (va : Word) (pa : Nat) (bytes : List Byte) : State :=
  let r := s.region (paLow pa)
  match r with
  | .regs off =>
    if regSizeOk r bytes.length then (s.regWrite s.regBy off (dwordOf bytes)).retireHere else s.trap ⟨7, 0, va⟩
  | .notify off =>
    if regSizeOk r bytes.length then ((s.release s.hart.gid).notifyWrite off (dwordOf bytes)).retire else s.trap ⟨7, 0, va⟩
  | .coreMem c o => (s.aliasStore s.hart.gid s.coreNo c o bytes).retire
  | .far p _ => (s.farStore s.hart.gid p pa bytes).retire
  | .host _ => (s.farStore s.hart.gid 8 pa bytes).retire
  | _ =>
    s.holdSnoop s.hostHas pa (
      (if s.pageNc s.hart.dataPriv .store va then s.writeAt (.hart s.coreNo) pa bytes
       else s.hartWriteHbm s.coreNo pa bytes).retire)

/-- The bytes that a store writes. -/
def State.storeBytes (s : State) (k : StoreKind) (rs2 : XReg) : List Byte :=
  natToBytes (storeSize k) (if storeFp k then s.hart.getF rs2 else s.getX rs2).toNat

def execHartStore (k : StoreKind) (rs1 rs2 : XReg) (imm : BitVec 12) (s : State) : Out :=
  let va := s.getX rs1 + imm.signExtend 64
  .next (
    if storeFp k && s.hart.fsOff then s.illegal
    else s.hartCheck .store va (storeSize k) (
      match s.hartPa .store va with
      | (.error t, t') => t'.trap t
      | (.ok pa, t') => t'.storeAt va pa (t'.storeBytes k rs2)))

/-! ## Atomics -/

/-- What an AMO stores: the old value of its size and the operand. -/
def amoNew (op : AmoOp) (w : Nat) (a b : BitVec w) : BitVec w :=
  match op with
  | .add => a + b
  | .xor => a ^^^ b
  | .and => a &&& b
  | .or => a ||| b
  | .min => if b.slt a then b else a
  | .max => if a.slt b then b else a
  | .minu => if b.ult a then b else a
  | .maxu => if a.ult b then b else a
  | .swap | .lr | .sc => b

/-- The old value as rd receives it: sign-extended. -/
def amoOld (dbl : Bool) (v : Nat) : Word := if dbl then BitVec.ofNat 64 v else (BitVec.ofNat 32 v).signExtend 64

/-- The bytes that an AMO leaves. -/
def amoBytes (op : AmoOp) (dbl : Bool) (old : Nat) (b : Word) : List Byte :=
  if dbl then natToBytes 8 (amoNew op 64 (BitVec.ofNat 64 old) b).toNat
  else natToBytes 4 (amoNew op 32 (BitVec.ofNat 32 old) (b.setWidth 32)).toNat

/-- Bring a line of HBM under the core's ownership for an atomic; a page that is kept out of the caches stays at its home (R266, R393). -/
def State.own (s : State) (nc : Bool) (pa : Nat) : State := if nc then s else s.obtain s.coreNo (tagLine pa)

/-- Read HBM for an atomic: in the core's copy, or at the home. -/
def State.ownRead (s : State) (nc : Bool) (pa n : Nat) : List Byte × State :=
  if nc then s.homeRead pa n else s.hartReadHbm s.coreNo pa n

/-- Write HBM for an atomic. -/
def State.ownWrite (s : State) (nc : Bool) (pa : Nat) (bytes : List Byte) : State :=
  if nc then s.writeAt (.hart s.coreNo) pa bytes else s.hartWriteHbm s.coreNo pa bytes

/-- The read-modify-write of an AMO, at the array for shared memory and at the port for far windows: the old value. -/
def State.amoAt (s : State) (op : AmoOp) (dbl nc : Bool) (pa : Nat) (b : Word) : Nat × State :=
  let n := if dbl then 8 else 4
  match s.region (paLow pa) with
  | .hbm =>
    let (l, s) := (s.own nc pa).ownRead nc pa n
    (leNat l, s.ownWrite nc pa (amoBytes op dbl (leNat l) b))
  | r =>
    let (l, s) := s.homeRead pa n
    let s := match r with
      | .coreMem c o => if c = s.coreNo then s.modCore c (fun k => k.seen s.hart.gid o n) else s
      | _ => s
    (leNat l, s.homeWrite (.hart s.coreNo) pa (amoBytes op dbl (leNat l) b))

/-- The acquire of an atomic with aq (R316). -/
def State.aqIf (s : State) (aq : Bool) : State := if aq then s.acquire s.hart.gid .sys else s
/-- The release of an atomic with rl. -/
def State.rlIf (s : State) (rl : Bool) : State := if rl then s.release s.hart.gid else s

/-- LR on a checked line of HBM: ownership, the value and the reservation; a miss fills the data cache, which a reader count
counts (R257). -/
def State.lrAt (s : State) (dbl aq rl nc : Bool) (rd : XReg) (pa : Nat) : State :=
  let miss := nc || (s.copyOf s.coreNo (tagLine pa)).isNone
  let (l, s) := ((s.rlIf rl).own nc pa).ownRead nc pa (if dbl then 8 else 4)
  let s := if miss then s.countRead (tagLine pa) else s
  (((s.onHart (fun h => { h with resv := some (tagLine pa) })).aqIf aq).setX rd (amoOld dbl (leNat l))).retire

/-- SC on a checked line of HBM: it stores and answers 0 while the reservation holds the line, else it answers 1; either way
the reservation ends, and the core has obtained ownership (R266). -/
def State.scAt (s : State) (dbl aq rl nc : Bool) (rd : XReg) (pa : Nat) (b : Word) : State :=
  let hit := s.hart.resv = some (tagLine pa)
  let s := (if hit then s.rlIf rl else s).own nc pa
  if hit then
    let s := s.ownWrite nc pa (natToBytes (if dbl then 8 else 4) b.toNat)
    (((s.onHart (fun h => { h with resv := none })).aqIf aq).setX rd 0).retire
  else ((s.onHart (fun h => { h with resv := none })).setX rd 1).retire

/-- An atomic at a checked physical address. -/
def State.atomicAt (s : State) (op : AmoOp) (dbl aq rl : Bool) (rd : XReg) (va : Word) (pa : Nat) (b : Word) : State :=
  let r := s.region (paLow pa)
  let nc := s.pageNc s.hart.dataPriv (if op == .lr then .load else .store) va
  match op, r with
  | .lr, .hbm => s.holdSnoop s.hostHas pa (s.lrAt dbl aq rl nc rd pa)
  | .sc, .hbm => s.holdSnoop s.hostHas pa (s.scAt dbl aq rl nc rd pa b)
  | .lr, _ => s.trap ⟨5, 0, va⟩
  | .sc, _ => s.trap ⟨7, 0, va⟩
  | _, .regs _ | _, .notify _ => s.trap ⟨7, 0, va⟩
  | _, _ =>
    let act (s : State) : State :=
      let (old, s) := (s.rlIf rl).amoAt op dbl nc pa b
      ((s.aqIf aq).setX rd (amoOld dbl old)).retire
    match r with
    | .far _ _ | .host _ => if s.farOn pa then s.holdFar ((s.portOf pa).getD 8) act else s.trap ⟨7, 2, va⟩
    | .hbm => s.holdSnoop s.hostHas pa (act s)
    | _ => act s

def execHartAmo (op : AmoOp) (dbl aq rl : Bool) (rd rs1 rs2 : XReg) (s : State) : Out :=
  let va := s.getX rs1
  let a : Acc := if op == .lr then .load else .store
  .next (
    if a == .store && s.trigHit .load va && op != .sc then s.breakAt .load va
    else s.hartCheck a va (if dbl then 8 else 4) (
      match s.hartPa a va with
      | (.error t, s) => s.trap t
      | (.ok pa, s) => s.atomicAt op dbl aq rl rd va pa (s.getX rs2)))

end Sys2Proof.Machine
end

