-- ==== Sys2Proof/Machine/LaneMem.lean ====
section
/-! DEFINITION. Lane loads, stores and prefetches (R78, R79, R127 to R141, R257, R270, R315, R392 to R394). -/
namespace Sys2Proof.Machine

/-! ## Widths and addresses (R127, R128) -/

def widthBytes (wd : Width) : Nat :=
  match wd with
  | .n8 | .s8 => 1
  | .n16 | .s16 => 2
  | .w => 4
  | .d => 8
  | .q => 16

/-- The lane registers of an element at `vd`. -/
def widthRegs (wd : Width) (vd : LOp) : List Nat := (List.range (Width.regs wd)).map (fun k => vd.toNat + k)

/-- The effective address of `[xb + va]` in lane `i`. -/
def Hart.ea (h : Hart) (va vb : LOp) (i : Nat) : Word := h.base vb + (h.src32 va i).signExtend 64

/-- Register `k` of a loaded element. -/
def loadLane (wd : Width) (b : List Byte) (k : Nat) : Lane :=
  let v := leNat ((b.drop (4 * k)).take 4)
  match wd with
  | .s8 => (BitVec.ofNat 8 v).signExtend 32
  | .s16 => (BitVec.ofNat 16 v).signExtend 32
  | _ => BitVec.ofNat 32 v

/-- The bytes that a lane stores. -/
def Hart.storeBytes (h : Hart) (wd : Width) (vd : LOp) (i : Nat) : List Byte :=
  ((widthRegs wd vd).flatMap (fun r => natToBytes 4 (h.getV r i).toNat)).take (widthBytes wd)

/-! ## Checking the lanes (R78, R129, R270, R393) -/

/-- The checks of one lane's access but for lost lines: misalignment, page, access. -/
def State.lanePa (s : State) (a : Acc) (n : Nat) (va : Word) : Except TrapInfo Nat × State :=
  if va.toNat % n != 0 then (.error ⟨a.alignCause, 0, va⟩, s)
  else match s.dataPa s.hart.dataPriv a va with
    | (.error t, s) => (.error t, s)
    | (.ok pa, s) =>
      match s.region (paLow pa) with
      | .regs off => if n == 8 && regAt off != .none then (.ok pa, s) else (.error ⟨a.accessCause, 0, va⟩, s)
      | .notify _ => if n == 8 then (.ok pa, s) else (.error ⟨a.accessCause, 0, va⟩, s)
      | _ => (.ok pa, s)

/-- Check lanes in ascending order. -/
def State.laneChecks (s : State) (a : Acc) (n : Nat) (addr : Nat → Word) :
    List Nat → List (Nat × Except TrapInfo Nat) × State
  | [] => ([], s)
  | i :: is =>
    let (r, s) := s.lanePa a n (addr i)
    let (l, s) := State.laneChecks s a n addr is
    ((i, r) :: l, s)

def faultsOf : List (Nat × Except TrapInfo Nat) → List (Nat × TrapInfo)
  | [] => []
  | (i, .error t) :: r => (i, t) :: faultsOf r
  | (_, .ok _) :: r => faultsOf r

def pasOf : List (Nat × Except TrapInfo Nat) → List (Nat × Nat)
  | [] => []
  | (i, .ok pa) :: r => (i, pa) :: pasOf r
  | (_, .error _) :: r => pasOf r

/-- Do accesses of `n` bytes cover a whole line? -/
def coversLine (pas : List (Nat × Nat)) (n ln : Nat) : Bool :=
  (List.range 128).all (fun o => pas.any (fun e => decide (e.2 ≤ 128 * ln + o) && decide (128 * ln + o < e.2 + n)))

/-- Lanes that meet a lost line fault, unless the store covers it whole. -/
def State.laneLost (s : State) (a : Acc) (n : Nat) (addr : Nat → Word) (l : List (Nat × Except TrapInfo Nat)) :
    List (Nat × Except TrapInfo Nat) :=
  let pas := pasOf l
  l.map (fun e =>
    match e.2 with
    | .error _ => e
    | .ok pa =>
      match s.lostTrap a (addr e.1) pa with
      | none => e
      | some t => if a == .store && coversLine pas n (tagLine pa) then e else (e.1, .error t))

/-- Does any lane's address lie behind a port (R394)? -/
def State.anyFar (s : State) (pas : List (Nat × Nat)) : Bool := pas.any (fun e => s.isFar e.2)

/-- The ports at which such addresses are held. -/
def State.farPorts (s : State) (pas : List (Nat × Nat)) : List Nat := (pas.filterMap (fun e => s.portOf e.2)).eraseDups

/-- The first line among the accesses for which a snoop of the host is owed: `has` lists them (R397). -/
def anySnoop (has : List Nat) (pas : List (Nat × Nat)) : Option Nat :=
  (pas.find? (fun e => has.contains (tagLine e.2))).map (fun e => tagLine e.2)

/-- What a load waits for: the host's write-back of a line, or the completion of an access held at a port (R394, R397). -/
def State.loadWait (s : State) (pas : List (Nat × Nat)) : Option Wait :=
  match anySnoop s.hostMod pas with
  | some ln => some (.snoop ln)
  | none => if s.anyFar pas && s.hart.answer.isNone then some (.far (s.farPorts pas)) else none

/-! ## Loads (R130, R132, R133) -/

/-- Is a load served by the cluster L1? -/
def memL1 (m : MemMod) : Bool := !scopeWide m.scope && m.hint != .l2

/-- Read one element for a lane; the line that was read at its home. A hit in the cluster L1 sends the home no request (R133, R255). -/
def State.laneRead (s : State) (l1 first : Bool) (pa n : Nat) : List Byte × Option Nat × State :=
  match s.region (paLow pa) with
  | .regs off => (natToBytes 8 (s.regRead s.regBy off).toNat, none, s.regClear s.regBy off)
  | .notify off => (natToBytes 8 (s.notifyRead off).toNat, none, s.notifyClear off)
  | .coreMem c o =>
    let (b, s) := if c = s.coreNo then s.lbRead s.hart.gid c o n else s.homeRead pa n
    (b, none, s)
  | .hbm =>
    if l1 then
      match s.l1Copy s.clusterNo pa n with
      | some b => (b, none, s)
      | none =>
        let (b, _, s) := (s.ready (pa / 32 * 32) 32).l1Read s.clusterNo pa n first
        (b, some (tagLine pa), s)
    else
      let (b, s) := s.readAt pa n
      (b, some (tagLine pa), s)
  | _ =>
    let s := match s.portOf pa with
      | some p => s.drainPort p
      | none => s
    if l1 then
      let (b, _, s) := s.l1Read s.clusterNo pa n first
      (b, none, s)
    else (s.peek pa n, none, s)

/-- Read the lanes in ascending order: their elements, and the lines read at their homes. `l1` names the lanes that the cluster L1
serves. -/
def State.laneReads (s : State) (l1 : Nat → Bool) (first : Bool) (n : Nat) : List (Nat × Nat) → List (Nat × List Byte) × List Nat × State
  | [] => ([], [], s)
  | (i, pa) :: r =>
    let (b, ln, s) := s.laneRead (l1 i) first pa n
    let (bs, lns, s) := State.laneReads s l1 first n r
    ((i, b) :: bs, ln.toList ++ lns, s)

/-- Does the ordering release, or acquire? -/
def ordRel (o : Ordering4) : Bool := o == .rel || o == .sc
def ordAcq (o : Ordering4) : Bool := o == .acq || o == .sc

def State.relIf (s : State) (o : Ordering4) : State := if ordRel o then s.release s.hart.gid else s
def State.acqIf (s : State) (o : Ordering4) (sc : Scope) : State := if ordAcq o then s.acquire s.hart.gid sc else s

/-- The element of a lane. -/
def laneElem (l : List (Nat × List Byte)) (i : Nat) : List Byte := ((l.find? (fun e => e.1 == i)).map Prod.snd).getD []

/-- Load for the active lanes at the addresses that the sources give. -/
def State.gload (s : State) (p : LaneHdr) (m : MemMod) (reads : List Nat) (vd : LOp) (addr : Hart → Nat → Word) : State :=
  let n := widthBytes m.width
  let regs := widthRegs m.width vd
  match s.laneBegin p reads regs with
  | .stop t => t
  | .go view act s1 =>
    if act = 0 then s.retire
    else
      let ls := maskLanes act
      let (l, s2) := s1.laneChecks .load n (addr view) ls
      let l := s2.laneLost .load n (addr view) l
      match faultsOf l with
      | f :: fs => s.laneTrap act (f :: fs) (addr view) false
      | [] =>
        match s2.loadWait (pasOf l) with
        | some w => s.wait w
        | none =>
          let l1 (i : Nat) : Bool := memL1 m && !s2.pageNc s.hart.dataPriv .load (addr view i)
          let (els, lns, s3) := (s2.relIf m.ord).laneReads l1 (m.hint == .str) n (pasOf l)
          s.laneFinish (s3.countReads lns) act
            ((List.range regs.length).map (fun k => (vd.toNat + k, fun i => loadLane m.width (laneElem els i) k)))
            (fun t => (t.acqIf m.ord m.scope).retire)

def execVld (p : LaneHdr) (m : MemMod) (vd va vb : LOp) (s : State) : Out :=
  .next (s.gload p m (regsOf va 1) vd (fun h i => h.ea va vb i))

def execVldx (p : LaneHdr) (m : MemMod) (vd va : LOp) (s : State) : Out :=
  .next (s.gload p m (regsOf va 2) vd (fun h i => h.src64 va i))

/-- `vld.b`: one access for every active lane. -/
def execVldB (p : LaneHdr) (m : MemMod) (vd vb : LOp) (s : State) : Out :=
  let n := widthBytes m.width
  let regs := widthRegs m.width vd
  .next (match s.laneBegin p [] regs with
    | .stop t => t
    | .go view act s1 =>
      if act = 0 then s.retire
      else
        let va := view.base vb
        let (l, s2) := s1.laneChecks .load n (fun _ => va) [0]
        let l := s2.laneLost .load n (fun _ => va) l
        match faultsOf l with
        | (_, t) :: _ => s.laneTrap act ((maskLanes act).map (fun i => (i, t))) (fun _ => va) false
        | [] =>
          match s2.loadWait (pasOf l) with
          | some w => s.wait w
          | none =>
            let l1 (_ : Nat) : Bool := memL1 m && !s2.pageNc s.hart.dataPriv .load va
            let (els, lns, s3) := (s2.relIf m.ord).laneReads l1 (m.hint == .str) n (pasOf l)
            s.laneFinish (s3.countReads lns) act
              ((List.range regs.length).map (fun k => (vd.toNat + k, fun _ => loadLane m.width (laneElem els 0) k)))
              (fun t => (t.acqIf m.ord m.scope).retire))

/-! ## Stores (R78, R131, R139, R141) -/

/-- Does a restart of this instruction pass over the lanes in lcomp (R78)? -/
def Hart.restarts (h : Hart) : Bool := wfield h.lcomp 32 2 == h.mode.code

/-- The lanes that a lane store or atomic still has to perform. -/
def Hart.pendingLanes (h : Hart) (act : Mask) : Mask := if h.restarts then act &&& ~~~(h.lcomp.setWidth 32) else act

/-- lcomp after lanes have been performed before a trap. -/
def Hart.noteDone (h : Hart) (done : List Nat) : Hart :=
  { h with lcomp := BitVec.ofNat 64 ((((h.lcomp.setWidth 32 : Mask) ||| maskOfList done).toNat) + h.mode.code * 2 ^ 32) }

/-- lcomp after a lane store or atomic has retired. -/
def Hart.clearDone (h : Hart) : Hart := if h.restarts then { h with lcomp := 0 } else h

/-- Perform one lane's store. -/
def State.lanePut (s : State) (pa : Nat) (bytes : List Byte) : State :=
  match s.region (paLow pa) with
  | .regs off => s.regWrite s.regBy off (dwordOf bytes)
  | .notify off => (s.release s.hart.gid).notifyWrite off (dwordOf bytes)
  | _ => s.laneStore pa bytes

/-- Lines that the stores cover whole are lost no longer (R270). -/
def State.unloseCovered (s : State) (n : Nat) (pas : List (Nat × Nat)) : State :=
  (((pas.map (fun e => tagLine e.2)).eraseDups).filter (fun ln => s.isLost (paLow (128 * ln)) && coversLine pas n ln)).foldl
    (fun s ln => s.unlose (paLow (128 * ln))) s

/-- Perform the lanes' stores in ascending order. -/
def State.lanePuts (s : State) (n : Nat) (val : Nat → List Byte) (pas : List (Nat × Nat)) : State :=
  pas.foldl (fun s e => s.lanePut e.2 (val e.1)) (s.unloseCovered n pas)

/-- A lane store over its checked lanes: all are performed and it retires, or those without a fault are and it traps. -/
def State.gstore (s : State) (p : LaneHdr) (n : Nat) (o : Ordering4) (sc : Scope) (reads : List Nat)
    (addr : Hart → Nat → Word) (val : Hart → Nat → List Byte) (after : State → State → List (Nat × Nat) → State) : State :=
  match s.laneBegin p reads [] with
  | .stop t => t
  | .go view act s1 =>
    let eff := s.hart.pendingLanes act
    if eff = 0 then
      s1.onHart (fun h => (if act = 0 then h else h.addStore (Scope.code sc).toNat).clearDone) |>.retire
    else
      let (l, s2) := s1.laneChecks .store n (addr view) (maskLanes eff)
      let l := s2.laneLost .store n (addr view) l
      let pas := pasOf l
      match anySnoop s2.hostHas pas with
      | some ln => s.wait (.snoop ln)
      | none =>
        let s3 := s2.relIf o
        let s4 := after s3 (s3.lanePuts n (val view) pas) pas
        match faultsOf l with
        | f :: fs => ({ s4 with hart := { s.hart with resv := s4.hart.resv }.noteDone (pas.map Prod.fst) }).laneTrap eff (f :: fs) (addr view) true
        | [] => ((s4.acqIf o sc).onHart (fun h => (h.addStore (Scope.code sc).toNat).clearDone)).retireHere

def execVst (p : LaneHdr) (m : MemMod) (vd va vb : LOp) (s : State) : Out :=
  .next (s.gstore p (widthBytes m.width) m.ord m.scope (regsOf va 1 ++ widthRegs m.width vd)
    (fun h i => h.ea va vb i) (fun h i => h.storeBytes m.width vd i) (fun _ t _ => t))

def execVstx (p : LaneHdr) (m : MemMod) (vd va : LOp) (s : State) : Out :=
  .next (s.gstore p (widthBytes m.width) m.ord m.scope (regsOf va 2 ++ widthRegs m.width vd)
    (fun h i => h.src64 va i) (fun h i => h.storeBytes m.width vd i) (fun _ t _ => t))

/-! ## Reader-count stores (R139, R257, R258) -/

/-- Bytes that a producer replaces: what memory held before, an earlier producer's note first. -/
def State.rdcOld (s : State) (ln n : Nat) (pas : List (Nat × Nat)) : File Byte :=
  let prev := ((s.rdc.find? (fun e => e.line == ln)).map RdcLine.old).getD []
  (pas.filter (fun e => tagLine e.2 == ln)).foldl (fun (f : File Byte) e =>
    (List.range n).foldl (fun (f : File Byte) i =>
      let o := e.2 % 128 + i
      if f.any (fun x => x.1 == o) then f else fput o ((s.peek (e.2 + i) 1).headD 0) f) f) prev

/-- Give each line of HBM that was written a reader count: `s` is the state before the stores, `t` the one after. -/
def rdcSet (cnt n : Nat) (s t : State) (pas : List (Nat × Nat)) : State :=
  let hbm := pas.filter (fun e => s.region (paLow e.2) == .hbm)
  let lns := (hbm.map (fun e => tagLine e.2)).eraseDups
  let s := lns.foldl (fun s ln => s.ready (128 * ln) 128) s
  { t with rdc := lns.map (fun ln => (⟨ln, cnt, s.rdcOld ln n hbm⟩ : RdcLine)) ++ t.rdc.filter (fun e => !(lns.contains e.line)) }

def execVstRdc (p : LaneHdr) (wd : Width) (cnt : BitVec 8) (vd va vb : LOp) (s : State) : Out :=
  .next (s.gstore p (widthBytes wd) .rlx .pkg (regsOf va 1 ++ widthRegs wd vd)
    (fun h i => h.ea va vb i) (fun h i => h.storeBytes wd vd i) (rdcSet cnt.toNat (widthBytes wd)))

/-! ## Shared memory and the tile store (R129, R135, R136) -/

/-- The check of a local offset: alignment, then the bound. -/
def localCheck (a : Acc) (n size : Nat) (va : Word) : Except TrapInfo Nat :=
  if va.toNat % n != 0 then .error ⟨a.alignCause, 0, va⟩
  else if size ≤ va.toNat then .error ⟨a.accessCause, 0, va⟩
  else .ok va.toNat

/-- A load from an array of the core, of which the team holds `size` bytes. -/
def State.lload (s : State) (p : LaneHdr) (wd : Width) (vd va vb : LOp) (size : Nat) (get : State → Nat → List Byte) : State :=
  let n := widthBytes wd
  let regs := widthRegs wd vd
  match s.laneBegin p (regsOf va 1) regs with
  | .stop t => t
  | .go view act s1 =>
    if act = 0 then s.retire
    else
      let l := (maskLanes act).map (fun i => (i, localCheck .load n size (view.ea va vb i)))
      match faultsOf l with
      | f :: fs => s.laneTrap act (f :: fs) (view.ea va vb) false
      | [] =>
        let els := (pasOf l).map (fun e => (e.1, get s1 e.2))
        s.laneFinish s1 act
          ((List.range regs.length).map (fun k => (vd.toNat + k, fun i => loadLane wd (laneElem els i) k))) State.retire

/-- A store to an array of the core. -/
def State.lstore (s : State) (p : LaneHdr) (wd : Width) (vd va vb : LOp) (size : Nat) (put : State → Nat → List Byte → State) :
    State :=
  let n := widthBytes wd
  match s.laneBegin p (regsOf va 1 ++ widthRegs wd vd) [] with
  | .stop t => t
  | .go view act s1 =>
    let eff := s.hart.pendingLanes act
    if eff = 0 then s1.onHart Hart.clearDone |>.retire
    else
      let l := (maskLanes eff).map (fun i => (i, localCheck .store n size (view.ea va vb i)))
      let s2 := (pasOf l).foldl (fun s e => put s e.2 (view.storeBytes wd vd e.1)) s1
      match faultsOf l with
      | f :: fs =>
        ({ s2 with hart := s.hart.noteDone ((pasOf l).map Prod.fst) }).laneTrap eff (f :: fs) (view.ea va vb) true
      | [] => (s2.onHart Hart.clearDone).retire

def execVlds (p : LaneHdr) (wd : Width) (vd va vb : LOp) (s : State) : Out :=
  let s := s.maybeDrainLb s.coreNo
  .next (s.lload p wd vd va vb s.share.shSize (fun s o => (s.core s.coreNo).shmBytes (s.share.shBase + o) (widthBytes wd)))

/-- Store into the team's shared memory; accesses of the hart through the port need not see it yet (R319). -/
def State.shmPut (s : State) (o : Nat) (b : List Byte) : State :=
  s.localStore s.hart.gid s.coreNo (s.share.shBase + o) b

def execVsts (p : LaneHdr) (wd : Width) (vd va vb : LOp) (s : State) : Out :=
  let s := s.maybeDrainLb s.coreNo
  .next (s.lstore p wd vd va vb s.share.shSize State.shmPut)

/-- The width of a tile-store access. -/
def tileWidth (quad : Bool) : Width := if quad then .q else .w

def execVldt (p : LaneHdr) (quad : Bool) (buf : TBuf) (vd va vb : LOp) (s : State) : Out :=
  .next (s.lload p (tileWidth quad) vd va vb (s.share.buf buf).2
    (fun s o => getBytes ((s.core s.coreNo).buf buf) ((s.share.buf buf).1 + o) (widthBytes (tileWidth quad))))

def execVstt (p : LaneHdr) (quad : Bool) (buf : TBuf) (vd va vb : LOp) (s : State) : Out :=
  .next (s.lstore p (tileWidth quad) vd va vb (s.share.buf buf).2
    (fun s o b => s.modCore s.coreNo (fun k => k.setBuf buf (putBytes (k.buf buf) ((s.share.buf buf).1 + o) b))))

/-! ## Prefetch (R138) -/

/-- Does a level of translation, or an untranslated mode, give the page at once? -/
def State.tlbReady (s : State) (va : Word) : Bool :=
  let g := s.hart.agent s.hart.dataPriv
  let sv57 := satpMode g.satp == 10
  satpMode g.satp == 0 || g.priv == .m ||
    (s.tlbFind g.asid sv57 (va.toNat % 2 ^ vaBits sv57) (tlbChain s.hart s.clusterNo)).isSome

/-- Ask for the line of one lane's address: the request may be dropped, may start a walk, or brings the line. -/
def State.prefetch (s : State) (sc : Scope) (hint : Hint) (i : Nat) (va : Word) : State :=
  let g := s.hart.agent s.hart.dataPriv
  let die := s.dieNo
  if s.freeBit (1380 + 4096 * i) then s
  else if !s.tlbReady va then
    let busy := s.walks.filter (fun w => walkDie w.cluster == die)
    if busy.any (fun w => w.joins die g va) || decide (walkUnits ≤ busy.length) then s
    else
      let (s, uid) := s.takeUid
      { s with walks := s.walks ++
          [⟨uid, s.hart.gid, s.clusterNo, s.hart.csr.satp, va, sc, hint, g.priv, g.sum, g.mxr, g.pbmt, []⟩] }
  else if s.pageNc s.hart.dataPriv .load va then s
  else
    match s.dataPa s.hart.dataPriv .load va with
    | (.error _, s) => s
    | (.ok pa, s) => s.fetchLine s.clusterNo sc hint pa

/-- `vpf`. DESIGN CHOICE (log 64): where its offset register is bound to a read stream, the fault of the strip's refill (R144) is taken; R138
says that a `vpf` takes no fault of its own. -/
def execVpf (p : LaneHdr) (scope : Scope) (hint : Hint) (va vb : LOp) (s : State) : Out :=
  .next (match s.laneBegin p (regsOf va 1) [] with
    | .stop t => t
    | .go view act s1 => ((maskLanes act).foldl (fun s i => s.prefetch scope hint i (view.ea va vb i)) s1).retire)

end Sys2Proof.Machine
end

