-- ==== Sys2Proof/Machine/Atomics.lean ====
section
/-! DEFINITION. Lane atomics and reductions (R53, R78, R259 to R265, R270, R392, R394). -/
namespace Sys2Proof.Machine

/-! ## Combining the lanes of one address (R262) -/

/-- Is the sum of the lanes formed in the core? -/
def combines (op : Nat) (t : ATy) : Bool :=
  op == 0 && (match t with | .f32 | .h2 | .b2 => true | _ => false)

/-- The prefix sums of a combined float add: what each lane after the first receives, and the whole sum. -/
def combineFrom (t : ATy) (m p : Nat) : List (Nat × Nat) → List (Nat × Nat) × Nat
  | [] => ([], p)
  | (i, d) :: r =>
    let (l, q) := combineFrom t m (atomAdd t p d) r
    ((i, atomAdd t m p) :: l, q)

/-- One lane after another. -/
def stepLanes (op : Nat) (t : ATy) (cur : Nat) : List (Nat × Nat × Nat) → List (Nat × Nat) × Nat
  | [] => ([], cur)
  | (i, d, c) :: r =>
    let (l, q) := stepLanes op t (atomStep op t cur d c) r
    ((i, cur) :: l, q)

/-- The atomic step of one address with the value `m`: lanes in ascending order with data and compare value give what each
lane receives and the new value. -/
def atomGroup (op : Nat) (t : ATy) (m : Nat) (ls : List (Nat × Nat × Nat)) : List (Nat × Nat) × Nat :=
  if combines op t then
    match ls with
    | [] => ([], m)
    | (i, d, _) :: r =>
      let (l, p) := combineFrom t m d (r.map (fun e => (e.1, e.2.1)))
      ((i, m) :: l, atomAdd t m p)
  else stepLanes op t m ls

/-- The value that a reduction's lanes combine to in the core. -/
def reduceValue (op : Nat) (t : ATy) : List Nat → Nat
  | [] => 0
  | d :: r => r.foldl (fun p d => atomStep op t p d 0) d

/-! ## Checks (R260, R270) -/

/-- The checks of one lane of an atomic but for lost lines. -/
def State.atomPa (s : State) (n : Nat) (va : Word) : Except TrapInfo Nat × State :=
  if va.toNat % n != 0 then (.error ⟨6, 0, va⟩, s)
  else
    let io := s.pageIsIo s.hart.dataPriv .store va
    match s.dataPa s.hart.dataPriv .store va with
    | (.error t, s) => (.error t, s)
    | (.ok pa, s) =>
      if io then (.error ⟨7, 0, va⟩, s)
      else match s.region (paLow pa) with
        | .regs _ | .notify _ | .coreMem _ _ => (.error ⟨7, 0, va⟩, s)
        | _ =>
          match s.lostTrap .store va pa with
          | some t => (.error t, s)
          | none => (.ok pa, s)

def State.atomChecks (s : State) (n : Nat) (addr : Nat → Word) : List Nat → List (Nat × Except TrapInfo Nat) × State
  | [] => ([], s)
  | i :: is =>
    let (r, s) := s.atomPa n (addr i)
    let (l, s) := State.atomChecks s n addr is
    ((i, r) :: l, s)

/-- The lanes by effective address, in the order of the lowest lane of each: the address, and its lanes. -/
def groupLanes (addr : Nat → Word) : List (Nat × Nat) → List (Word × Nat × List Nat)
  | [] => []
  | (i, pa) :: r =>
    let g := groupLanes addr r
    match g.find? (fun e => e.1 == addr i) with
    | some (_, _, ls) => (addr i, pa, i :: ls) :: g.filter (fun e => e.1 != addr i)
    | none => (addr i, pa, [i]) :: g

/-! ## Performing a step (R261 to R264, R402) -/

/-- The word as an atomic finds it, at its home or behind the stores buffered at its port. -/
def State.atomHome (s : State) (pa n : Nat) : Nat × State :=
  let s := s.l1Drop s.clusterNo (tagLine pa)
  match s.portOf pa with
  | some p =>
    let s := s.drainPort p
    (leNat (s.peek pa n), s)
  | none =>
    let s := ((s.hostDrop (tagLine pa)).recall (tagLine pa)).settle pa n
    (leNat (s.peek pa n), s)

/-- Perform one address of a `vamo`: what its lanes receive. -/
def State.vamoOne (s : State) (op : Nat) (t : ATy) (pa : Nat) (ls : List (Nat × Nat × Nat)) : List (Nat × Nat) × State :=
  let n := atyBytes t
  let (m, s) := s.atomHome pa n
  let (ret, new) := atomGroup op t m ls
  (ret, s.homeWrite (.core s.coreNo) pa (natToBytes n new))

/-- Perform one address of a reduction at the port that serves it: the new value is buffered there. -/
def State.vmredFar (s : State) (p : Nat) (t : ATy) (pa : Nat) (new : Nat → Nat) : State :=
  let n := atyBytes t
  let (m, s) := s.atomHome pa n
  s.farStore s.hart.gid p pa (natToBytes n (new m))

/-- Line entries of a slice's write queue (R256). -/
def wqLines : Nat := 64

/-- Room for one more line in a slice's write queue: where it is full, the request waits until the oldest entry has retired. -/
def State.wqRoom (s : State) (pa : Nat) : State :=
  let mine := s.parts.filter (fun q => homeSlice (paLow q.pa) == homeSlice (paLow pa))
  if mine.any (fun q => tagLine q.pa == tagLine pa) || decide (((mine.map (fun q => tagLine q.pa)).eraseDups).length < wqLines) then s
  else match mine with
    | q :: _ => s.settle (128 * tagLine q.pa) 128
    | [] => s

/-- Merge a combined value into the pending partial of a word of HBM (R263). -/
def State.mergePartial (s : State) (op : Nat) (t : ATy) (pa v : Nat) : State :=
  let n := atyBytes t
  let same (q : Partial) : Bool := q.pa == pa && q.op == op && q.ty == t
  let s := ((s.l1Drop s.clusterNo (tagLine pa)).hostDrop (tagLine pa)).recall (tagLine pa)
  let s := ((((s.endRdc (tagLine pa)).killResv pa false).l2Touch pa n).wqRoom pa)
  if s.parts.any same then
    { s with parts := s.parts.map (fun (q : Partial) =>
        if same q then { q with val := BitVec.ofNat 64 (atomStep op t q.val.toNat v 0) } else q) }
  else { (s.settle pa n) with parts := (s.settle pa n).parts ++ [⟨pa, op, t, BitVec.ofNat 64 v⟩] }

/-- Perform one address of a reduction. -/
def State.vmredOne (s : State) (op : Nat) (t : ATy) (pa : Nat) (ds : List Nat) : State :=
  let v := reduceValue op t ds
  match s.portOf pa with
  | some p => s.vmredFar p t pa (fun m => atomStep op t m v 0)
  | none => s.mergePartial op t pa v

/-- Perform one address of `vmred.add.ord`: lane by lane on the word itself. -/
def State.vmredOrdOne (s : State) (t : ATy) (pa : Nat) (ds : List Nat) : State :=
  let n := atyBytes t
  let f (m : Nat) : Nat := ds.foldl (fun m d => atomAdd t m d) m
  match s.portOf pa with
  | some p => s.vmredFar p t pa f
  | none =>
    let (m, s) := s.atomHome pa n
    s.writeAt (.core s.coreNo) pa (natToBytes n (f m))

/-- The data of a lane: a register, or a pair for a 64-bit type. -/
def Hart.atomData (h : Hart) (t : ATy) (f : LOp) (i : Nat) : Nat :=
  if t.is64 then (h.src64 f i).toNat else (h.src32 f i).toNat

/-- Write what the lanes of a `vamo` receive. -/
def Hart.putAtoms (h : Hart) (t : ATy) (vd : Nat) (l : List (Nat × Nat)) : Hart :=
  l.foldl (fun (h : Hart) e =>
    let h := h.setV vd e.1 (BitVec.ofNat 32 e.2)
    if t.is64 then h.setV (vd + 1) e.1 (BitVec.ofNat 32 (e.2 / 2 ^ 32)) else h) h

/-- The registers of an element. -/
def atomRegs (t : ATy) (f : LOp) : List Nat := regsOf f (if t.is64 then 2 else 1)

/-- Perform a `vamo` on every address. -/
def State.vamoAll (s : State) (op : Nat) (t : ATy) (data cmp : Nat → Nat) : List (Word × Nat × List Nat) → List (Nat × Nat) × State
  | [] => ([], s)
  | (_, pa, ls) :: r =>
    let (a, s) := s.vamoOne op t pa (ls.map (fun i => (i, data i, cmp i)))
    let (b, s) := State.vamoAll s op t data cmp r
    (a ++ b, s)

/-- The value that a lane received. -/
def atomRet (l : List (Nat × Nat)) (i : Nat) : Nat := ((l.find? (fun e => e.1 == i)).map Prod.snd).getD 0

/-- A lane whose port has just gone offline: its atomic returns data, and faults (R402). -/
def State.portLost (s : State) (addr : Nat → Word) (e : Nat × Except TrapInfo Nat) : Nat × Except TrapInfo Nat :=
  match e.2 with
  | .ok pa => if s.farOn pa then e else (e.1, .error ⟨7, 2, addr e.1⟩)
  | .error _ => e

/-- A `vamo` with operation code `op`. Lanes that a run before a trap has performed keep what they received, and count among the
lanes whose values a bound register pushes (R78, R143; log 24). -/
def State.vamo (s : State) (op : Nat) (p : LaneHdr) (t : ATy) (o : Ordering4) (sc : Scope) (xb : XReg) (vd va vb : LOp) : State :=
  let n := atyBytes t
  let reads := regsOf va 1 ++ atomRegs t vb ++ (if op = 7 then atomRegs t vd else [])
  match s.laneBegin p reads (atomRegs t vd) with
  | .stop u => u
  | .go view act s1 =>
    let eff := s.hart.pendingLanes act
    let addr (i : Nat) : Word := view.getX xb + (view.src32 va i).signExtend 64
    if act = 0 then s1.onHart Hart.clearDone |>.retire
    else
      let (l, s2) := s1.atomChecks n addr (maskLanes eff)
      let l := l.map (s2.portLost addr)
      let pas := pasOf l
      match anySnoop s2.hostHas pas with
      | some ln => s.wait (.snoop ln)
      | none =>
        if s2.anyFar pas && (faultsOf l).isEmpty && s.hart.answer.isNone then s.wait (.far (s2.farPorts pas))
        else
          let (ret, s3) := (s2.relIf o).vamoAll op t (fun i => view.atomData t vb i) (fun i => view.atomData t vd i) (groupLanes addr pas)
          match faultsOf l with
          | f :: fs =>
            ({ s3 with hart := ({ s.hart with resv := s3.hart.resv }.putAtoms t vd.toNat ret).noteDone (pas.map Prod.fst) }).laneTrap
              eff (f :: fs) addr true
          | [] =>
            let out (k : Nat) (i : Nat) : Lane :=
              if eff.getLsbD i then BitVec.ofNat 32 (atomRet ret i / 2 ^ (32 * k)) else s.hart.getV (vd.toNat + k) i
            s.laneFinish s3 act ((vd.toNat, out 0) :: (if t.is64 then [(vd.toNat + 1, out 1)] else []))
              (fun u => ((u.acqIf o sc).onHart Hart.clearDone).retire)

/-- A reduction whose step on one address is `one`. -/
def State.vmred (s : State) (p : LaneHdr) (t : ATy) (o : Ordering4) (sc : Scope) (xb : XReg) (vd va : LOp)
    (one : State → Nat → List Nat → State) : State :=
  let n := atyBytes t
  match s.laneBegin p (regsOf va 1 ++ atomRegs t vd) [] with
  | .stop u => u
  | .go view act s1 =>
    let eff := s.hart.pendingLanes act
    let addr (i : Nat) : Word := view.getX xb + (view.src32 va i).signExtend 64
    if eff = 0 then s1.onHart Hart.clearDone |>.retire
    else
      let (l, s2) := s1.atomChecks n addr (maskLanes eff)
      let pas := pasOf l
      match anySnoop s2.hostHas pas with
      | some ln => s.wait (.snoop ln)
      | none =>
        let s3 := (groupLanes addr pas).foldl (fun s g => one s g.2.1 (g.2.2.map (fun i => view.atomData t vd i))) (s2.relIf o)
        match faultsOf l with
        | f :: fs =>
          ({ s3 with hart := { s.hart with resv := s3.hart.resv }.noteDone (pas.map Prod.fst) }).laneTrap eff (f :: fs) addr true
        | [] => ((s3.acqIf o sc).onHart Hart.clearDone).retire

def execVamoAdd (p : LaneHdr) (t : ATy) (o : Ordering4) (sc : Scope) (xb : XReg) (vd va vb : LOp) (s : State) : Out :=
  .next (s.vamo 0 p t o sc xb vd va vb)
def execVamoMin (p : LaneHdr) (t : ATy) (o : Ordering4) (sc : Scope) (xb : XReg) (vd va vb : LOp) (s : State) : Out :=
  .next (s.vamo 1 p t o sc xb vd va vb)
def execVamoMax (p : LaneHdr) (t : ATy) (o : Ordering4) (sc : Scope) (xb : XReg) (vd va vb : LOp) (s : State) : Out :=
  .next (s.vamo 2 p t o sc xb vd va vb)
def execVamoAnd (p : LaneHdr) (t : ATy) (o : Ordering4) (sc : Scope) (xb : XReg) (vd va vb : LOp) (s : State) : Out :=
  .next (s.vamo 3 p t o sc xb vd va vb)
def execVamoOr (p : LaneHdr) (t : ATy) (o : Ordering4) (sc : Scope) (xb : XReg) (vd va vb : LOp) (s : State) : Out :=
  .next (s.vamo 4 p t o sc xb vd va vb)
def execVamoXor (p : LaneHdr) (t : ATy) (o : Ordering4) (sc : Scope) (xb : XReg) (vd va vb : LOp) (s : State) : Out :=
  .next (s.vamo 5 p t o sc xb vd va vb)
def execVamoXchg (p : LaneHdr) (t : ATy) (o : Ordering4) (sc : Scope) (xb : XReg) (vd va vb : LOp) (s : State) : Out :=
  .next (s.vamo 6 p t o sc xb vd va vb)
def execVamoCas (p : LaneHdr) (t : ATy) (o : Ordering4) (sc : Scope) (xb : XReg) (vd va vb : LOp) (s : State) : Out :=
  .next (s.vamo 7 p t o sc xb vd va vb)

def execVmredAdd (p : LaneHdr) (t : ATy) (o : Ordering4) (sc : Scope) (xb : XReg) (vd va : LOp) (s : State) : Out :=
  .next (s.vmred p t o sc xb vd va (fun s pa ds => s.vmredOne 0 t pa ds))
def execVmredMin (p : LaneHdr) (t : ATy) (o : Ordering4) (sc : Scope) (xb : XReg) (vd va : LOp) (s : State) : Out :=
  .next (s.vmred p t o sc xb vd va (fun s pa ds => s.vmredOne 1 t pa ds))
def execVmredMax (p : LaneHdr) (t : ATy) (o : Ordering4) (sc : Scope) (xb : XReg) (vd va : LOp) (s : State) : Out :=
  .next (s.vmred p t o sc xb vd va (fun s pa ds => s.vmredOne 2 t pa ds))
def execVmredAnd (p : LaneHdr) (t : ATy) (o : Ordering4) (sc : Scope) (xb : XReg) (vd va : LOp) (s : State) : Out :=
  .next (s.vmred p t o sc xb vd va (fun s pa ds => s.vmredOne 3 t pa ds))
def execVmredOr (p : LaneHdr) (t : ATy) (o : Ordering4) (sc : Scope) (xb : XReg) (vd va : LOp) (s : State) : Out :=
  .next (s.vmred p t o sc xb vd va (fun s pa ds => s.vmredOne 4 t pa ds))
def execVmredXor (p : LaneHdr) (t : ATy) (o : Ordering4) (sc : Scope) (xb : XReg) (vd va : LOp) (s : State) : Out :=
  .next (s.vmred p t o sc xb vd va (fun s pa ds => s.vmredOne 5 t pa ds))

/-- The element type of an ordered add. -/
def ordAty (t : OrdTy) : ATy :=
  match t with
  | .f32 => .f32
  | .b2 => .b2
  | .h2 => .h2

def execVmredAddOrd (p : LaneHdr) (t : OrdTy) (o : Ordering4) (sc : Scope) (xb : XReg) (vd va : LOp) (s : State) : Out :=
  .next (s.vmred p (ordAty t) o sc xb vd va (fun s pa ds => s.vmredOrdOne (ordAty t) pa ds))

end Sys2Proof.Machine
end

