-- ==== Sys2Proof/Machine/LaneFloat.lean ====
section
/-! DEFINITION. Floating-point lane arithmetic, dot products, float compares and the function unit (R109 to R115, R121 to
R125). -/
namespace Sys2Proof.Machine

/-- A result as a lane value with its flags. -/
def FRes.lane (r : FRes) : Lane × BitVec 5 := (BitVec.ofNat 32 r.bits, r.flags)

/-- Two element results packed (R11), their flags together. -/
def packHalves (lo hi : FRes) : Lane × BitVec 5 := (BitVec.ofNat 32 (lo.bits + 65536 * hi.bits), lo.flags ||| hi.flags)

def loHalf (a : Lane) : Nat := a.toNat % 65536
def hiHalf (a : Lane) : Nat := a.toNat / 65536

/-- The element format of a packed form. -/
def ffmt : FForm → Fmt
  | .f32 _ => .f32
  | .h2 => .f16
  | .b2 => .bf16

/-- A fused multiply-add word (R110, R111). -/
def fmaLane (f : FForm) (rm : Rm) (negP negC : Bool) (a b c : Lane) : Lane × BitVec 5 :=
  match f with
  | .f32 _ => (ffma .f32 rm negP negC a.toNat b.toNat c.toNat).lane
  | _ => packHalves (ffma (ffmt f) .rne negP negC (loHalf a) (loHalf b) (loHalf c))
      (ffma (ffmt f) .rne negP negC (hiHalf a) (hiHalf b) (hiHalf c))

/-- The rounding mode that a float form uses; `none` where DYN meets a reserved frm (R18, R97). -/
def State.formRm (s : State) (f : FForm) : Option Rm :=
  match f with
  | .f32 rm => s.hart.rmOf rm
  | _ => some .rne

/-- A word of the FMA family. -/
def State.laneFma (s : State) (p : LaneHdr) (f : FForm) (negP negC : Bool) (vd va vb vc : LOp) : State :=
  match s.formRm f with
  | none => s.illegal
  | some rm => s.laneOp32 p (regsOf va 1 ++ regsOf vb 1 ++ regsOf vc 1) vd (fun h i =>
      fmaLane f rm negP negC (h.src32 va i) (h.src32 vb i) (h.src32 vc i))

def execVfma (p : LaneHdr) (f : FForm) (vd va vb vc : LOp) (s : State) : Out :=
  .next (s.laneFma p f false false vd va vb vc)
def execVfms (p : LaneHdr) (f : FForm) (vd va vb vc : LOp) (s : State) : Out :=
  .next (s.laneFma p f false true vd va vb vc)
def execVfnma (p : LaneHdr) (f : FForm) (vd va vb vc : LOp) (s : State) : Out :=
  .next (s.laneFma p f true true vd va vb vc)
def execVfnms (p : LaneHdr) (f : FForm) (vd va vb vc : LOp) (s : State) : Out :=
  .next (s.laneFma p f true false vd va vb vc)

/-! ## Dot products (R30, R115) -/

/-- Element `j` of `w` bits. -/
def elemBits (a : Lane) (w j : Nat) : Nat := a.toNat >>> (w * j) % 2 ^ w

/-- A float dot product of `n` elements of a format into an f32 accumulator, one rounding. -/
def dotFloat (f : Fmt) (n : Nat) (a b c : Lane) : Lane × BitVec 5 :=
  let w := f.bits
  ((List.range n).foldl (fun (g : GSum) j => g.add false (fin f (elemBits a w j)) (fin f (elemBits b w j))) GSum.start).into
    false c.toNat |>.lane

/-- An integer dot product of four bytes, modulo 2^32. -/
def dotInt (t : IFmt) (a b c : Lane) : Lane :=
  BitVec.ofInt 32 ((List.range 4).foldl (fun acc j => acc + t.val (elemBits a 8 j) * t.val (elemBits b 8 j)) (c.toNat : Int))

def dot4Lane (t : Dp4Ty) (a b c : Lane) : Lane × BitVec 5 :=
  match t with
  | .s8 => (dotInt ⟨true, 8⟩ a b c, 0)
  | .n8 => (dotInt ⟨false, 8⟩ a b c, 0)
  | .e4m3 => dotFloat .e4m3 4 a b c
  | .e5m2 => dotFloat .e5m2 4 a b c

def execVdp2 (p : LaneHdr) (bf : Bool) (vd va vb vc : LOp) (s : State) : Out :=
  .next (s.laneOp32 p (regsOf va 1 ++ regsOf vb 1 ++ regsOf vc 1) vd (fun h i =>
    dotFloat (if bf then .bf16 else .f16) 2 (h.src32 va i) (h.src32 vb i) (h.src32 vc i)))
def execVdp4 (p : LaneHdr) (t : Dp4Ty) (vd va vb vc : LOp) (s : State) : Out :=
  .next (s.laneOp32 p (regsOf va 1 ++ regsOf vb 1 ++ regsOf vc 1) vd (fun h i =>
    dot4Lane t (h.src32 va i) (h.src32 vb i) (h.src32 vc i)))

/-! ## Two-source float words (R112, R113) -/

/-- Apply a float operation to a form's elements. -/
def formLane (f : FForm) (op : Fmt → Nat → Nat → FRes) (a b : Lane) : Lane × BitVec 5 :=
  match f with
  | .f32 _ => (op .f32 a.toNat b.toNat).lane
  | _ => packHalves (op (ffmt f) (loHalf a) (loHalf b)) (op (ffmt f) (hiHalf a) (hiHalf b))

def State.laneF2 (s : State) (p : LaneHdr) (f : FForm) (op : Rm → Fmt → Nat → Nat → FRes) (vd va vb : LOp) : State :=
  match s.formRm f with
  | none => s.illegal
  | some rm => s.laneOp32 p (regsOf va 1 ++ regsOf vb 1) vd (fun h i =>
      formLane f (op rm) (h.src32 va i) (h.src32 vb i))

def execVfadd (p : LaneHdr) (f : FForm) (vd va vb : LOp) (s : State) : Out :=
  .next (s.laneF2 p f (fun rm t => fadd t rm false) vd va vb)
def execVfsub (p : LaneHdr) (f : FForm) (vd va vb : LOp) (s : State) : Out :=
  .next (s.laneF2 p f (fun rm t => fadd t rm true) vd va vb)
def execVfmul (p : LaneHdr) (f : FForm) (vd va vb : LOp) (s : State) : Out :=
  .next (s.laneF2 p f (fun rm t => fmul t rm) vd va vb)
def execVfmin (p : LaneHdr) (f : FForm) (vd va vb : LOp) (s : State) : Out :=
  .next (s.laneF2 p f (fun _ t => fminmax t false) vd va vb)
def execVfmax (p : LaneHdr) (f : FForm) (vd va vb : LOp) (s : State) : Out :=
  .next (s.laneF2 p f (fun _ t => fminmax t true) vd va vb)

/-- A float compare (R109). -/
def execVfcmp (p : LaneHdr) (c : Cond) (md : MReg) (va vb : LOp) (s : State) : Out :=
  .next (s.laneMask p (regsOf va 1 ++ regsOf vb 1) md (fun h _ i =>
    fcompare .f32 c (h.src32 va i).toNat (h.src32 vb i).toNat))

/-! ## Unary float words (R121 to R125) -/

def State.laneF1 (s : State) (p : LaneHdr) (f : Lane → FRes) (vd va : LOp) : State :=
  s.laneOp32 p (regsOf va 1) vd (fun h i => (f (h.src32 va i)).lane)

def execVrcp (p : LaneHdr) (vd va : LOp) (s : State) : Out := .next (s.laneF1 p (fun a => frcp .f32 a.toNat) vd va)
def execVrsqrt (p : LaneHdr) (vd va : LOp) (s : State) : Out := .next (s.laneF1 p (fun a => frsqrt .f32 a.toNat) vd va)
def execVsqrt (p : LaneHdr) (rm : Rm) (vd va : LOp) (s : State) : Out :=
  match s.hart.rmOf rm with
  | none => .next s.illegal
  | some m => .next (s.laneF1 p (fun a => fsqrt .f32 m a.toNat) vd va)
def execVexp2 (p : LaneHdr) (vd va : LOp) (s : State) : Out := .next (s.laneF1 p fexp2 vd va)
def execVlog2 (p : LaneHdr) (vd va : LOp) (s : State) : Out := .next (s.laneF1 p flog2 vd va)
def execVsin (p : LaneHdr) (vd va : LOp) (s : State) : Out := .next (s.laneF1 p fsin vd va)
def execVcos (p : LaneHdr) (vd va : LOp) (s : State) : Out := .next (s.laneF1 p fcos vd va)
def execVtanh (p : LaneHdr) (vd va : LOp) (s : State) : Out := .next (s.laneF1 p ftanh vd va)
def execVfrac (p : LaneHdr) (vd va : LOp) (s : State) : Out := .next (s.laneF1 p (fun a => ffrac a.toNat) vd va)
def execVrnd (p : LaneHdr) (rm : Rm) (vd va : LOp) (s : State) : Out :=
  match s.hart.rmOf rm with
  | none => .next s.illegal
  | some m => .next (s.laneF1 p (fun a => frnd .f32 m a.toNat) vd va)
def execVfclass (p : LaneHdr) (vd va : LOp) (s : State) : Out :=
  .next (s.laneOp32 p (regsOf va 1) vd (fun h i => (BitVec.ofNat 32 (2 ^ fclassBit .f32 (h.src32 va i).toNat), 0)))

end Sys2Proof.Machine
end

