-- ==== Sys2Proof/Machine/CrossLane.lean ====
section
/-! DEFINITION. Cross-lane words (R146 to R152). -/
namespace Sys2Proof.Machine

def subWidth : SubW → Nat
  | .g2 => 2
  | .g4 => 4
  | .g8 => 8
  | .g16 => 16
  | .g32 => 32

/-- First lane of a lane's sub-group (R146). -/
def subBase (w i : Nat) : Nat := i - i % w

/-- The lanes of a lane's sub-group. -/
def subLanes (w i : Nat) : List Nat := (List.range w).map (fun k => subBase w i + k)

/-- A shuffle whose source position within the sub-group is `f r b` for position r and operand b (R147). -/
def State.laneShfl (s : State) (p : LaneHdr) (w : SubW) (f : Nat → Nat → Nat → Nat) (vd va vb : LOp) : State :=
  s.laneOp32 p (regsOf va 1 ++ regsOf vb 1) vd (fun h i =>
    let n := subWidth w
    (h.src32 va (subBase n i + f n (i % n) (h.src32 vb i).toNat % n), 0))

def execVshflIdx (p : LaneHdr) (w : SubW) (vd va vb : LOp) (s : State) : Out :=
  .next (s.laneShfl p w (fun _ _ b => b) vd va vb)
/-- (r − b) mod w: w divides 2^32, so b may be taken modulo w first. -/
def execVshflUp (p : LaneHdr) (w : SubW) (vd va vb : LOp) (s : State) : Out :=
  .next (s.laneShfl p w (fun n r b => r + n - b % n) vd va vb)
def execVshflDown (p : LaneHdr) (w : SubW) (vd va vb : LOp) (s : State) : Out :=
  .next (s.laneShfl p w (fun _ r b => r + b) vd va vb)
def execVshflXor (p : LaneHdr) (w : SubW) (vd va vb : LOp) (s : State) : Out :=
  .next (s.laneShfl p w (fun _ r b => r ^^^ b) vd va vb)

/-! ## Votes and matches (R148, R149) -/

/-- The active lanes of a lane's sub-group that satisfy the vote's predicate. -/
def voters (h : Hart) (act : Mask) (w : SubW) (va : LOp) (i : Nat) : List Nat :=
  (subLanes (subWidth w) i).filter (fun j => act.getLsbD j && h.src32 va j != 0)

def execVvoteAny (p : LaneHdr) (w : SubW) (md : MReg) (va : LOp) (s : State) : Out :=
  .next (s.laneMask p (regsOf va 1) md (fun h act i => (!(voters h act w va i).isEmpty, 0)))
def execVvoteAll (p : LaneHdr) (w : SubW) (md : MReg) (va : LOp) (s : State) : Out :=
  .next (s.laneMask p (regsOf va 1) md (fun h act i =>
    ((subLanes (subWidth w) i).all (fun j => !act.getLsbD j || h.src32 va j != 0), 0)))

/-- A word whose lane result depends on the active mask. -/
def State.laneAct32 (s : State) (p : LaneHdr) (reads : List Nat) (vd : LOp)
    (f : Hart → Mask → Nat → Lane × BitVec 5) : State :=
  match s.laneBegin p reads [vd.toNat] with
  | .stop t => t
  | .go view act s1 =>
    s.laneFinish s1 act [(vd.toNat, fun i => (f view act i).1)]
      (fun t => (t.onHart (fun h => h.accrue (orFlags ((maskLanes act).map (fun i => (f view act i).2))))).retire)

def execVvoteMask (p : LaneHdr) (w : SubW) (vd va : LOp) (s : State) : Out :=
  .next (s.laneAct32 p (regsOf va 1) vd (fun h act i => (maskOfList (voters h act w va i), 0)))

def execVmatch (p : LaneHdr) (dbl : Bool) (w : SubW) (vd va : LOp) (s : State) : Out :=
  .next (s.laneAct32 p (regsOf va (if dbl then 2 else 1)) vd (fun h act i =>
    (maskOfList ((subLanes (subWidth w) i).filter (fun j => act.getLsbD j &&
      (if dbl then h.src64 va j == h.src64 va i else h.src32 va j == h.src32 va i))), 0)))

/-! ## Scans and reductions (R150, R151) -/

/-- The three combining operations of scans. -/
inductive ScanOp where
  | add | min | max
  deriving DecidableEq, Repr

/-- combine(op, t, acc, x) with its flags. -/
def scanCombine (op : ScanOp) (t : ScanTy) (a x : Lane) : Lane × BitVec 5 :=
  match t, op with
  | .f32, .add => (fadd .f32 .rne false a.toNat x.toNat).lane
  | .f32, .min => (fminmax .f32 false a.toNat x.toNat).lane
  | .f32, .max => (fminmax .f32 true a.toNat x.toNat).lane
  | _, .add => (a + x, 0)
  | .s32, .min => (if x.slt a then x else a, 0)
  | .s32, .max => (if a.slt x then x else a, 0)
  | .n32, .min => (if x.ult a then x else a, 0)
  | .n32, .max => (if a.ult x then x else a, 0)

/-- identity(op, t). -/
def scanIdentity (op : ScanOp) (t : ScanTy) : Lane :=
  match t, op with
  | _, .add => 0
  | .f32, .min => 0x7F800000#32
  | .f32, .max => 0xFF800000#32
  | .s32, .min => 0x7FFFFFFF#32
  | .s32, .max => 0x80000000#32
  | .n32, .min => 0xFFFFFFFF#32
  | .n32, .max => 0

/-- Combine the values of lanes in order: the last value, if any, and the flags of all steps. DESIGN CHOICE (log 70): the first active lane's
value is delivered as it stands, as R150 takes it into acc, a NaN with its sign and payload included; R14 would have the canonical one. -/
def scanFold (op : ScanOp) (t : ScanTy) (val : Nat → Lane) : List Nat → Option Lane × BitVec 5
  | l => l.foldl (fun acc i =>
      match acc.1 with
      | none => (some (val i), acc.2)
      | some a => (some (scanCombine op t a (val i)).1, acc.2 ||| (scanCombine op t a (val i)).2)) (none, 0)

/-- The scan result of lane `i` (R150). The flags of all steps of its sub-group are raised (R97). -/
def scanLane (op : ScanOp) (t : ScanTy) (exc : Bool) (w : SubW) (h : Hart) (act : Mask) (va : LOp) (i : Nat) :
    Lane × BitVec 5 :=
  let all := (subLanes (subWidth w) i).filter (fun j => act.getLsbD j)
  let fl := (scanFold op t (h.src32 va) all).2
  let upto := all.filter (fun j => if exc then decide (j < i) else decide (j ≤ i))
  (((scanFold op t (h.src32 va) upto).1).getD (scanIdentity op t), fl)

def State.laneScan (s : State) (op : ScanOp) (p : LaneHdr) (t : ScanTy) (exc : Bool) (w : SubW) (vd va : LOp) : State :=
  s.laneAct32 p (regsOf va 1) vd (fun h act i => scanLane op t exc w h act va i)

def execVscanAdd (p : LaneHdr) (t : ScanTy) (exc : Bool) (w : SubW) (vd va : LOp) (s : State) : Out :=
  .next (s.laneScan .add p t exc w vd va)
def execVscanMin (p : LaneHdr) (t : ScanTy) (exc : Bool) (w : SubW) (vd va : LOp) (s : State) : Out :=
  .next (s.laneScan .min p t exc w vd va)
def execVscanMax (p : LaneHdr) (t : ScanTy) (exc : Bool) (w : SubW) (vd va : LOp) (s : State) : Out :=
  .next (s.laneScan .max p t exc w vd va)

/-- A word that writes an x register from the lanes. -/
def State.laneToX (s : State) (p : LaneHdr) (reads : List Nat) (xd : XReg) (f : Hart → Mask → Word × BitVec 5) : State :=
  match s.laneBegin p reads [] with
  | .stop t => t
  | .go view act s1 => (s1.onHart (fun h => (h.setX xd (f view act).1).accrue (f view act).2)).retire

/-- An arithmetic reduction of the whole hart; an s32 result is sign-extended (R151). -/
def State.laneRed (s : State) (op : ScanOp) (p : LaneHdr) (t : ScanTy) (xd : XReg) (va : LOp) : State :=
  s.laneToX p (regsOf va 1) xd (fun h act =>
    let r := scanFold op t (h.src32 va) (maskLanes act)
    let v := r.1.getD (scanIdentity op t)
    (if t = .s32 then v.signExtend 64 else v.setWidth 64, r.2))

def execVlredAdd (p : LaneHdr) (t : ScanTy) (xd : XReg) (va : LOp) (s : State) : Out := .next (s.laneRed .add p t xd va)
def execVlredMin (p : LaneHdr) (t : ScanTy) (xd : XReg) (va : LOp) (s : State) : Out := .next (s.laneRed .min p t xd va)
def execVlredMax (p : LaneHdr) (t : ScanTy) (xd : XReg) (va : LOp) (s : State) : Out := .next (s.laneRed .max p t xd va)

/-- A bitwise reduction, zero-extended (R151). -/
def State.laneRedBit (s : State) (f : Lane → Lane → Lane) (z : Lane) (p : LaneHdr) (xd : XReg) (va : LOp) : State :=
  s.laneToX p (regsOf va 1) xd (fun h act => (((maskLanes act).foldl (fun a i => f a (h.src32 va i)) z).setWidth 64, 0))

def execVlredAnd (p : LaneHdr) (xd : XReg) (va : LOp) (s : State) : Out :=
  .next (s.laneRedBit (fun a b => a &&& b) 0xFFFFFFFF#32 p xd va)
def execVlredOr (p : LaneHdr) (xd : XReg) (va : LOp) (s : State) : Out :=
  .next (s.laneRedBit (fun a b => a ||| b) 0 p xd va)
def execVlredXor (p : LaneHdr) (xd : XReg) (va : LOp) (s : State) : Out :=
  .next (s.laneRedBit (fun a b => a ^^^ b) 0 p xd va)

/-! ## One lane from and to an x register (R152) -/

/-- The selected lane. -/
def Hart.laneSel (h : Hart) : LaneSel → Nat
  | .imm i => i.toNat
  | .reg x => (h.getX x).toNat % 32

/-- The selected lane's value, active or not. -/
def execVext (p : LaneHdr) (sel : LaneSel) (xd : XReg) (va : LOp) (s : State) : Out :=
  .next (s.laneToX p (regsOf va 1) xd (fun h _ => ((h.src32 va (h.laneSel sel)).setWidth 64, 0)))

/-- Write the selected lane, active or not; the predicate has no other effect. DESIGN CHOICE (log 65): into a bound write stream it pushes the
selected lane alone (R143). -/
def execVins (p : LaneHdr) (sel : LaneSel) (vd : LOp) (xs : XReg) (s : State) : Out :=
  match s.laneBegin p [] [vd.toNat] with
  | .stop t => .next t
  | .go view _ s1 =>
    .next (s.laneFinish s1 (1#32 <<< view.laneSel sel) [(vd.toNat, fun _ => (view.getX xs).setWidth 32)] State.retire)

end Sys2Proof.Machine
end

