-- ==== Sys2Proof/Machine/Debug.lean ====
section
/-! DEFINITION. External debug: the debug state, halting, stepping, abstract commands and accesses of the system bus (R33, R382;
external debug 1.0; log 8). -/
namespace Sys2Proof.Machine

def execDebugStateSet (st : BitVec 2) (s : State) : Out :=
  if st = 3 then .next s else .next (s.modFirm (fun f => { f with dbg := st }))

/-- Act on a hart as the focused one, and leave the focus where it was. -/
def State.within (s : State) (g : Nat) (f : State → State) : State := (f (s.focus g)).focus s.hart.gid

/-- dcsr as a write leaves it: ebreakm, ebreaks, ebreaku, stepie, step and prv are held. -/
def dcsrWrite (old v : Word) : Word :=
  let keep := [15, 13, 12, 11, 2].foldl (fun d i => wputb d i (wbit v i)) old
  wput keep 0 2 (Priv.ofCode (wfield v 0 2)).code

/-- An abstract command on a halted hart: a register by its number of debug 1.0, written where a value is given. -/
def State.abstractCmd (s : State) (reg : Nat) (v : Word) : State :=
  if reg < 0x1000 then
    if reg = 0x7B0 then s.onHart (fun h => { h with dbg := { h.dbg with dcsr := dcsrWrite h.dbg.dcsr v } })
    else if reg = 0x7B1 then s.onHart (fun h => { h with dbg := { h.dbg with dpc := wputb v 0 false } })
    else if reg = 0x7A1 || reg = 0x7A2 || reg = 0x7A3 then s.onHart (fun h => h.writeTrig true reg v)
    else if (s.csrVal reg).isSome then s.csrWrite reg v else s
  else if reg < 0x1020 then s.setX (BitVec.ofNat 5 (reg - 0x1000)) v
  else if reg < 0x1040 then s.onHart (fun h => h.setF (BitVec.ofNat 5 (reg - 0x1020)) v)
  else s

/-- The core that a register of the device-register window is about, if one. -/
def regCore : RegAt → Option Nat
  | .core c _ => some c
  | .die d o => if 0x30000 ≤ o && o < 0x30600 then some (192 * d + (o - 0x30000) / 8) else none
  | .polder o => if 0x1000 ≤ o && o < 0x2800 then some ((o - 0x1000) / 8) else none
  | _ => none

/-- Does a system-bus address belong to a Polder: its key id, or the arrays or registers of a core that it owns, CORESTAT and PCOWN among
them? -/
def State.polderBus (s : State) (pa : Nat) : Bool :=
  paKey pa != 0 ||
  match s.region (paLow pa) with
  | .coreMem c _ => (s.core c).slot != 0
  | .regs off => match regCore (regAt off) with
    | some c => (s.core c).slot != 0
    | none => false
  | _ => false

/-- An 8-byte access of the system bus at a checked address: it acts as the host's of the same target does. -/
def State.busAccess (s : State) (pa : Nat) (v : Option Word) : State :=
  match s.region (paLow pa), v with
  | .regs off, some v => s.regWrite .outside off v
  | .regs off, none => s.regClear .outside off
  | .notify off, some v => s.notifyWrite off v
  | .notify off, none => s.notifyClear off
  | .hbm, some v => if s.isLost (paLow pa) then s else s.writeAt .other pa (natToBytes 8 v.toNat)
  | .host _, some v | .far _ _, some v | .coreMem _ _, some v => s.homeWrite .other pa (natToBytes 8 v.toNat)
  | _, _ => s

/-- A request of the external debugger: performed only in the invasive state, and refused for a Polder's hart, core or key
id. -/
def execDebugHaltRequest (r : DebugReq) (s : State) : Out :=
  if s.firm.dbg != 2 then .next s
  else match r with
    | .halt g =>
      let s := s.qMeets g
      if !(s.hartOf g).run.isHart || s.polderHart g || (s.hartOf g).dbg.halted || !(s.hartOf g).atBoundary then .next s
      else .next (s.within g (fun s => s.withdraw.onHart (fun h => h.debugEnter 3)))
    | .abstract g reg v =>
      if s.polderHart g || !(s.hartOf g).dbg.halted then .next s
      else match v with
        | none => .next s
        | some v => .next (s.within g (fun s => s.abstractCmd reg v))
    | .sysbus pa v => if pa % 8 != 0 || s.polderBus pa || (s.refusal pa 0).isSome then .next s else .next (s.busAccess pa v)

/-- A halted hart runs again from dpc in the mode of dcsr, until its next halt, or for one instruction where dcsr.step is set, which
the request may set. A resume below M mode clears mstatus.MPRV. -/
def execDebugResumeRequest (g : Nat) (single : Bool) (s : State) : Out :=
  if s.firm.dbg != 2 || !(s.hartOf g).dbg.halted then .next s
  else .next (s.modHart g (fun h =>
    let d := if single then wputb h.dbg.dcsr 2 true else h.dbg.dcsr
    { h with
      pc := h.dbg.dpc, mode := Priv.ofCode (wfield d 0 2)
      csr := if Priv.ofCode (wfield d 0 2) == .m then h.csr else { h.csr with mstatus := wputb h.csr.mstatus 17 false }
      dbg := { h.dbg with halted := false, dcsr := d, step := wbit d 2 } }))

end Sys2Proof.Machine
end

