-- ==== Sys2Proof/Machine/Hang.lean ====
section
/-! DEFINITION. The hang detector (R301 to R303). The marks in `fe.hang` say since when a context's waiting condition has held
without a break: the clock plus 1, by ASID. -/
namespace Sys2Proof.Machine

/-- Does the wait count for the detector (R301)? -/
def Wait.hangs : Wait → Bool
  | .barrier _ _ | .queueEnq _ | .queueDeq _ | .queueRetry _ _ _ | .sem _ _ | .mutex _ _ | .mrecv _ | .msend _ _ | .zawrs _ _ | .wfi => true
  | _ => false

/-- Is the hart waiting, with nothing that has arrived for it? -/
def Hart.hangs (h : Hart) : Bool :=
  match h.run with
  | .waiting w => w.hangs && h.answer.isNone
  | _ => false

/-- Are requests of the context in flight: transfers, started commands, queries, lane memory requests (R301; log 42)? -/
def State.inFlight (s : State) (asid : Nat) : Bool :=
  s.xfers.any (fun x => (s.launchOf x.team).asid == asid) ||
  s.cores.any (fun e => e.2.queue.any (fun c => (s.launchOf c.team).asid == asid &&
    (c.phase == .started || c.phase == .landing || c.phase == .finished))) ||
  s.queries.any (fun q => satpAsid q.satp == asid) ||
  s.resident.any (fun h => h.asid == asid && (h.cnt2 != 0 || h.cnt3 != 0))

/-- Is a team of the context being started, evicted or restored? -/
def State.inMotion (s : State) (asid : Nat) : Bool :=
  s.teams.any (fun t => t.phase == .evicting && (s.launch t.launch).asid == asid) ||
    s.resident.any (fun h => h.asid == asid && h.run == .starting)

/-- The condition under which a context's count runs. -/
def State.hung (s : State) (asid : Nat) : Bool :=
  (s.resident.filter (fun h => h.asid == asid)).all Hart.hangs && !s.inFlight asid && !s.inMotion asid

/-- The contexts with a resident hart. -/
def State.contexts (s : State) : List Nat := (s.resident.map Hart.asid).eraseDups

/-- Keep the marks: contexts whose condition holds keep theirs or get one, the others lose theirs. -/
def State.hangTick (s : State) : State :=
  let on := s.contexts.filter (fun a => s.hung a)
  if on.isEmpty && s.fe.hang.isEmpty then s
  else s.modFe (fun f => { f with
    hang := on.foldl (fun (m : File Nat) a =>
      fset 0 m a (if fget 0 f.hang a = 0 then s.clock + 1 else fget 0 f.hang a)) [] })

/-- Kind and object of a wait in the report (R303). -/
def Wait.edge : Wait → Option (Nat × Nat)
  | .barrier k _ => some (1, domCode k)
  | .queueEnq p => some (2, p)
  | .queueDeq p => some (3, p)
  | .queueRetry p e _ => some (if e then 2 else 3, p)
  | .sem c j => some (4, 65536 * coreDie c + 256 * (c % 192) + j)
  | .mutex c j => some (5, 65536 * coreDie c + 256 * (c % 192) + j)
  | .mrecv i => some (6, i)
  | .msend t i => some (7, 32 * t + i)
  | .zawrs _ l => some (8, 128 * l)
  | .wfi => some (9, 0)
  | _ => none

/-- Does the object of a wait lie in the slot or the cores of a Polder of another context, so that the report leaves its edge out
(R373)? -/
def State.hidesEdge (s : State) (asid : Nat) (w : Wait) : Bool :=
  let other (k : Nat) : Bool := k != 0 && !((s.keySlot k).valid && (s.keySlot k).asid == asid)
  match w with
  | .queueEnq p | .queueDeq p | .queueRetry p _ _ => other (paKey p)
  | .sem c _ | .mutex c _ => other (s.core c).slot
  | .msend t _ => other (s.core (gidCore t)).slot
  | .zawrs _ l => other (paKey (128 * l))
  | _ => false

/-- Is a hart's edge hidden from the report of its context? -/
def State.edgeHidden (s : State) (asid : Nat) (h : Hart) : Bool :=
  match h.run with
  | .waiting w => s.hidesEdge asid w
  | _ => false

/-- The edge of a hart: two doublewords. -/
def Hart.edge (h : Hart) : List Word :=
  match h.run with
  | .waiting w => match w.edge with
    | some (k, o) => [BitVec.ofNat 64 (h.gid + 65536 * k), BitVec.ofNat 64 o]
    | none => []
  | _ => []

/-- Write doublewords at physical addresses for the front end. -/
def State.feStores (s : State) (asid : Nat) (pa : Nat) : List Word → State
  | [] => s
  | w :: r => State.feStores (s.feStore pa asid w) asid (pa + 8) r

/-- The context of the selected ASID hangs: the report, interrupt 17 on its lowest hart, the host's interrupt. -/
def execContextHang (s : State) : Out :=
  let asid := s.sel
  let hs := s.resident.filter (fun h => h.asid == asid)
  match hs with
  | [] => .next s
  | low :: _ =>
    let l := s.launchOf low.team
    let t := if wfield (dw l.ctx 6) 0 6 = 0 then 24 else wfield (dw l.ctx 6) 0 6
    let mark := fget 0 s.fe.hang asid
    if mark = 0 || !s.hung asid || decide (s.clock < mark - 1 + 2 ^ t) then .next s
    else
      let cap := wfield (dw l.ctx 7) 0 32
      let edges := (hs.filter (fun h => !s.edgeHidden asid h)).map Hart.edge
      let out := (edges.take cap).flatten
      let head : List Word :=
        [BitVec.ofNat 64 (min edges.length cap + (if cap < edges.length then 2 ^ 32 else 0)), BitVec.ofNat 64 s.dtime]
      let s := s.feStores asid (wfield (dw l.ctx 6) 12 52 * 4096) (head ++ out)
      let s := s.modHart low.gid (fun h => { h with csr := { h.csr with mip := wputb h.csr.mip 17 true } })
      .next ((s.raiseVector 0).modFe (fun f => { f with hang := fset 0 f.hang asid (s.clock + 1) }))

end Sys2Proof.Machine
end

