-- ==== Sys2Proof/Machine/LaneConvert.lean ====
section
/-! DEFINITION. Lane conversions (R22, R24 to R26, R116 to R120). -/
namespace Sys2Proof.Machine

/-- Element 0 of a lane operand of a type; the pair for a 64-bit type. -/
def Hart.elem0 (h : Hart) (t : Tc) (va : LOp) (i : Nat) : Nat :=
  if t.is64 then (h.src64 va i).toNat else (h.src32 va i).toNat % 2 ^ Tc.width t

/-- A conversion (R116). DYN with a reserved frm is illegal, for float types. -/
def execVcvt (p : LaneHdr) (dst src : Tc) (rm : Rm) (sat : Bool) (vd va : LOp) (s : State) : Out :=
  match s.hart.rmOf rm with
  | none => .next s.illegal
  | some m =>
    let reads := regsOf va (if src.is64 then 2 else 1)
    let f (h : Hart) (i : Nat) : FRes := convert src dst m sat (h.elem0 src va i)
    if dst.is64 then .next (s.laneOp64 p reads vd (fun h i => (BitVec.ofNat 64 (f h i).bits, (f h i).flags)))
    else .next (s.laneOp32 p reads vd (fun h i => (f h i).lane))

/-- Stochastic rounding: srctr advances when the word retires (R26, R118). -/
def execVcvtSr (p : LaneHdr) (dst : Tc) (sat : Bool) (vd va : LOp) (s : State) : Out :=
  match s.laneBegin p (regsOf va 1) [vd.toNat] with
  | .stop t => .next t
  | .go view act s1 =>
    let d := (Tc.fmt? dst).getD .f16
    let f (i : Nat) : FRes := froundSr d sat (srBits view.srseed view.srhid view.srctr i 0) (view.src32 va i).toNat
    .next (s.laneFinish s1 act [(vd.toNat, fun i => (f i).lane.1)] (fun t =>
      (t.onHart (fun h => { (h.accrue (orFlags ((maskLanes act).map (fun i => (f i).flags)))) with srctr := h.srctr + 1 })).retire))

/-- The two conversions of `vpack` (R119). -/
def packLane (t : PackTy) (rm : Rm) (a b : Lane) : Lane × BitVec 5 :=
  match t with
  | .s16 => packHalves (convert .s32 .s16 .rne false a.toNat) (convert .s32 .s16 .rne false b.toNat)
  | .n16 => packHalves (convert .n32 .n16 .rne false a.toNat) (convert .n32 .n16 .rne false b.toNat)
  | .f16 _ sat => packHalves (convert .f32 .f16 rm sat a.toNat) (convert .f32 .f16 rm sat b.toNat)
  | .bf16 _ sat => packHalves (convert .f32 .bf16 rm sat a.toNat) (convert .f32 .bf16 rm sat b.toNat)

def packRm : PackTy → Rm
  | .f16 rm _ | .bf16 rm _ => rm
  | _ => .rne

def execVpack (p : LaneHdr) (t : PackTy) (vd va vb : LOp) (s : State) : Out :=
  match s.hart.rmOf (packRm t) with
  | none => .next s.illegal
  | some m => .next (s.laneOp32 p (regsOf va 1 ++ regsOf vb 1) vd (fun h i =>
      packLane t m (h.src32 va i) (h.src32 vb i)))

/-- Widening of element `j` (R21, R120). -/
def unpackLane (src : Tc) (j : Nat) (a : Lane) : Lane × BitVec 5 :=
  let b := elemBits a (Tc.width src) j
  match Tc.fmt? src with
  | some f => (fcvt f .f32 .rne false b).lane
  | none => (BitVec.ofInt 32 ((Tc.ifmt src).val b), 0)

def execVunpack (p : LaneHdr) (src : Tc) (j : BitVec 3) (vd va : LOp) (s : State) : Out :=
  .next (s.laneOp32 p (regsOf va 1) vd (fun h i => unpackLane src j.toNat (h.src32 va i)))

end Sys2Proof.Machine
end

