-- ==== Sys2Proof/Machine/Preempt.lean ====
section
/-! DEFINITION. Pre-emption: which teams are evicted, the image of a team, and its restore (R163 to R165, R217, R241, R323,
R340, R364 to R367, R372). -/
namespace Sys2Proof.Machine

/-! ## Hart records (R366) -/

/-- Doublewords at consecutive places of a record, by doubleword number. -/
def blk (f : File Word) (at_ : Nat) : List Word → File Word
  | [] => f
  | w :: r => blk (fset 0 f at_ w) (at_ + 1) r

/-- The mask stack entry as three doublewords. -/
def MaskEntry.words (e : MaskEntry) : List Word :=
  [BitVec.ofNat 64 (e.saved.toNat + e.park.toNat * 2 ^ 32), e.tag, e.rpc]

/-- The bytes of barrier state: team domain, die domains, package domains. -/
def State.barBytes (s : State) (h : Hart) : List Byte :=
  let die := gidDie h.gid
  ((DomKey.team h.team) :: (List.range 64).map (fun n => DomKey.die die n) ++ (List.range 16).map (fun n => DomKey.pkg n)).map
    (fun k =>
      let d := s.dom k
      BitVec.ofNat 8 ((if (s.domGet k).isSome && (s.members d).contains h.gid then 1 else 0) + 2 * d.c h.gid +
        (if h.parity k then 8 else 0)))

/-- uistat, acnt and the hart word as the record holds them. -/
def hartWord (h : Hart) : Word := BitVec.ofNat 64 (h.role + gidPlace h.gid * 4 + h.num * 2 ^ 7)

/-- A hart record, by doubleword number. -/
def State.record (s0 : State) (h : Hart) : File Word :=
  let s := { s0 with hart := h }
  let c := h.csr
  let f := blk [] 0 (h.pc :: (List.range 31).map (fun k => fget 0 h.x (k + 1)))
  let f := blk f 32 ((List.range 32).map (fun k => fget 0 h.f k))
  let f := blk f 64 [BitVec.ofNat 64 (c.fflags.toNat + 32 * c.frm.toNat), h.mstatusVal &&& sstatusR, c.sepc, c.scause, c.stval,
    c.sscratch, c.mie &&& c.mideleg, s.mipVal &&& c.mideleg, c.stimecmp, c.sxcause, h.lfault.setWidth 64, h.lcomp, h.lfrec,
    c.mepc, c.mcause, c.mtval, c.mscratch, c.mxcause, h.srctr, h.srseed, BitVec.ofNat 64 h.srhid, h.uivec, h.uiepc, h.uicause,
    h.uiid, s.uistatVal]
  let f := blk f 90 [h.lpcnt0, h.lpbeg0, h.lpend0, h.lpxe0, h.lpcnt1, h.lpbeg1, h.lpend1, h.lpxe1]
  let f := blk f 98 [h.wpc, h.wcause, BitVec.ofNat 64 h.lalloc, h.acntVal, BitVec.ofNat 64 (nextId h.nextXfer),
    BitVec.ofNat 64 (s.hq h.gid), hartWord h, BitVec.ofNat 64 (h.live.toNat * 2 ^ 32 + (h.getM 0).toNat)]
  let f := blk f 106 ((List.range 15).map (fun k => (h.getM (BitVec.ofNat 4 (k + 1))).setWidth 64))
  let f := blk f 121 [BitVec.ofNat 64 h.mstk.length, h.barpend, h.barpc]
  let f := blk f 128 (h.mstk.flatMap MaskEntry.words)
  let f := (List.range 4).foldl (fun f k =>
    let t := h.slot k
    blk f (224 + 16 * k) (if t.bound then t.desc ++ [BitVec.ofNat 64 t.pos, 1] else [])) f
  let f := blk f 288 ((List.range 32).map (fun k => fget 0 h.mbox k))
  let f := blk f 320 (h.mbpres.setWidth 64 :: bankRegs.map (fun r => fget 0 h.shadow r))
  let f := blk f 336 (h.uiq.flatMap (fun e => [BitVec.ofNat 64 e.cause, e.ident, e.handler]))
  let f := blk f 384 (dwords 11 (s0.barBytes h ++ List.replicate 7 0))
  let f := blk f 416 [c.satp, c.stvec, c.scounteren, c.senvcfg, h.mstatusVal, c.mtvec, c.medeleg, c.mideleg, c.mie, s.mipVal,
    c.mcounteren, c.menvcfg, c.mcountinhibit, s.cycleVal, c.minstret, pmpcfgVal h 0, pmpcfgVal h 1]
  let f := blk f 433 ((List.range 16).map (fun i => fget 0 c.pmpaddr i))
  let f := blk f 449 (BitVec.ofNat 64 c.tselect :: (List.range 4).flatMap (fun k =>
    let t := fget Trigger.fresh c.trig k
    [t.tdata1, t.tdata2, t.tdata3]))
  blk f 462 [c.mcontext, c.scontext]

/-- A record as bytes. -/
def recordBytes (f : File Word) : List Byte := dwordBytes ((List.range 512).map (fun i => fget 0 f i))

/-- The CSRs of a record. Bit 5 of mip is the timer's while menvcfg.STCE is set, else a bit that software holds (R64). -/
def csrsOf (c : Csrs) (w : Nat → Word) (clock : Nat) : Csrs :=
  let inh := w 428
  { c with
    fflags := (w 64).setWidth 5, frm := ((w 64) >>> 5).setWidth 3
    mstatus := maskWrite sstatusW (wputb (w 420) 63 false) (w 65)
    sepc := w 66, scause := w 67, stval := w 68, sscratch := w 69
    mie := maskWrite (w 423) (w 424) (w 70)
    mip := maskWrite (w 423 &&& 0x30002#64) (wputb (w 425) 5 (wbit (if wbit (w 427) 63 then c.mip else w 425) 5)) (w 71)
    stimecmp := w 72, sxcause := w 73, mepc := w 77, mcause := w 78, mtval := w 79, mscratch := w 80, mxcause := w 81
    satp := satpAccept (w 416), stvec := w 417, scounteren := w 418, senvcfg := w 419, mtvec := w 421, medeleg := w 422
    mideleg := w 423, mcounteren := w 426, menvcfg := w 427, mcountinhibit := inh
    mcycle := if wbit inh 0 then w 429 else w 429 - BitVec.ofNat 64 clock
    minstret := w 430
    pmpcfg := putBytes [] 0 (natToBytes 8 (w 431).toNat ++ natToBytes 8 (w 432).toNat)
    pmpaddr := blk [] 0 ((List.range 16).map (fun i => w (433 + i)))
    tselect := wfield (w 449) 0 2
    trig := (List.range 4).foldl (fun f k =>
      fset Trigger.fresh f k ⟨w (450 + 3 * k), w (451 + 3 * k), w (452 + 3 * k)⟩) []
    mcontext := w 462, scontext := w 463 }

/-- The domain at a place of the barrier state. -/
def barKey (team die i : Nat) : DomKey := if i = 0 then .team team else if i ≤ 64 then .die die (i - 1) else .pkg (i - 65)

/-- A hart as a record gives it, over what the record does not list. -/
def Hart.ofRecord (h : Hart) (w : Nat → Word) (clock : Nat) : Hart :=
  let bars := dwordBytes ((List.range 11).map (fun i => w (384 + i)))
  { h with
    run := .ready, mode := .u, resv := none, answer := none, results := [], obsWait := none
    pc := w 0
    x := blk [] 1 ((List.range 31).map (fun k => w (k + 1)))
    f := blk [] 0 ((List.range 32).map (fun k => w (32 + k)))
    csr := csrsOf h.csr w clock
    lfault := (w 74).setWidth 32, lcomp := w 75, lfrec := w 76, srctr := w 82, srseed := w 83, srhid := (w 84).toNat
    uivec := w 85, uiepc := w 86, uicause := w 87, uiid := w 88, uiIe := wbit (w 89) 0, uiAct := wbit (w 89) 1
    uiUntil := if wfield (w 89) 16 13 = 0 then 0 else clock + wfield (w 89) 16 13
    lpcnt0 := w 90, lpbeg0 := w 91, lpend0 := w 92, lpxe0 := w 93, lpcnt1 := w 94, lpbeg1 := w 95, lpend1 := w 96, lpxe1 := w 97
    wpc := w 98, wcause := w 99, lalloc := (w 100).toNat
    cnt0 := wfield (w 101) 0 16, cnt1 := wfield (w 101) 16 16, cnt2 := wfield (w 101) 32 16, cnt3 := wfield (w 101) 48 16
    nextXfer := (w 102).toNat - 1, role := wfield (w 104) 0 2, num := wfield (w 104) 7 5
    live := ((w 105) >>> 32).setWidth 32
    m := (List.range 15).foldl (fun f k => fset 0 f (k + 1) ((w (106 + k)).setWidth 32)) (fset 0 [] 0 ((w 105).setWidth 32))
    mstk := (List.range (min (w 121).toNat 32)).map (fun k =>
      ⟨(w (128 + 3 * k)).setWidth 32, ((w (128 + 3 * k)) >>> 32).setWidth 32, w (129 + 3 * k), w (130 + 3 * k)⟩)
    barpend := w 122, barpc := w 123
    strm := (List.range 4).foldl (fun f k =>
      let d := (List.range 8).map (fun i => w (224 + 16 * k + i))
      let old := h.slot k
      fset StrmSlot.fresh f k (if wbit (w (233 + 16 * k)) 0 then
        (match strmParse d old.priv with
          | some t => { t with pos := (w (232 + 16 * k)).toNat }
          | none => StrmSlot.fresh) else StrmSlot.fresh)) []
    mbox := blk [] 0 ((List.range 32).map (fun k => w (288 + k)))
    mbpres := (w 320).setWidth 32
    shadow := ((List.range 12).zip bankRegs).foldl (fun f e => fset 0 f e.2 (w (321 + e.1))) []
    uiq := (List.range (min (wfield (w 89) 32 5) 16)).map (fun k =>
      ⟨(w (336 + 3 * k)).toNat, w (337 + 3 * k), w (338 + 3 * k), none, (h.uiq[k]?).bind UiEvent.acq⟩)
    obs := ((List.range 81).filter (fun i => (bars.getD i 0).getLsbD 3)).map (barKey h.team (gidDie h.gid)) }

/-! ## The image (R365) -/

/-- Zeros to the next multiple of 4 KiB. -/
def pad4k (l : List Byte) : List Byte := l ++ List.replicate ((4096 - l.length % 4096) % 4096) 0

/-- The harts of a team in number order. -/
def byNum (l : List Hart) : List Hart :=
  (List.range 33).flatMap (fun n => l.filter (fun h => h.num == n))

/-- An engine entry: its head and its body. -/
def engineEntry (kind num : Nat) (body : List Byte) : List Byte :=
  natToBytes 2 kind ++ natToBytes 2 num ++ natToBytes 4 (16 + body.length) ++ natToBytes 8 0 ++ body

/-- The hart number of a requester; one that has exited has none. -/
def numOf (hs : List Hart) (g : Nat) : Nat := ((hs.find? (fun h => h.gid == g)).map Hart.num).getD 0xFFFF

def ppnBytes (pages : List (Nat × Nat)) : List Byte := pages.flatMap (fun p => natToBytes 8 (p.2 / 4096))

def Cmd.image (hs : List Hart) (c : Cmd) : List Byte :=
  engineEntry 1 (numOf hs c.gid) (dwordBytes ([c.d0, c.d1, c.d2, c.d3] ++ c.recA ++ c.recB) ++ ppnBytes c.pages)

def Xfer.image (hs : List Hart) (x : Xfer) : List Byte :=
  engineEntry 2 (numOf hs x.gid)
    (dwordBytes x.blk ++ natToBytes 8 x.moved ++ natToBytes 8 x.id ++ ppnBytes x.pages)

/-- The event word of a continuation. -/
def ContEvent.word : ContEvent → Word
  | .barrier k => BitVec.ofNat 64 (domCode k)
  | .copy id => BitVec.ofNat 64 (2 ^ 60 + id)
  | .query va => BitVec.ofNat 64 (2 ^ 61) ||| (va &&& 0x00FFFFFFFFFFFFFF#64)
  | .counter c n => BitVec.ofNat 64 (3 * 2 ^ 60 + c + n * 2 ^ 16)

/-- The lane registers of a hart. -/
def Hart.laneBytes (h : Hart) : List Byte :=
  (List.range (32 * h.lalloc)).flatMap (fun i => natToBytes 4 (fget 0 h.v i).toNat)

/-- Is the team a member of a die domain? -/
def State.dieBoundTeam (s : State) (t : Team) : Bool :=
  s.doms.any (fun d => (match d.key with | .die _ _ => true | _ => false) &&
    (s.teamHarts t.id).any (fun h => d.places.contains h.gid && s.memberNow d h.gid))

/-- The sections of an image after the header, each with its offset from the image's start. -/
structure ImageParts where
  head   : List Byte
  recs   : List Byte
  lanes  : List Byte
  shm    : List Byte
  act    : List Byte
  wgt    : List Byte
  acc    : List Byte
  engine : List Byte

/-- The whole image, its sections padded. -/
def ImageParts.bytes (p : ImageParts) : List Byte :=
  p.head ++ pad4k p.recs ++ pad4k p.lanes ++ pad4k p.shm ++ pad4k p.act ++ pad4k p.wgt ++ pad4k p.acc ++ pad4k p.engine

def pad4kSize (n : Nat) : Nat := (n + 4095) / 4096 * 4096

/-- Offset of the engine section for a team of these harts. -/
def engineOffset (hs : List Hart) (sh : Share) : Nat :=
  4096 + 4096 * hs.length + pad4kSize ((hs.map (fun h => 128 * h.lalloc)).foldl (· + ·) 0) + pad4kSize sh.shSize +
    pad4kSize sh.actSize + pad4kSize sh.wgtSize + pad4kSize sh.accSize

/-- The team header, by doubleword number. -/
def State.teamHeader (s : State) (t : Team) (hs conts : List Hart) (size engOff engN : Nat) : File Word :=
  let l := s.launch t.launch
  let k := s.core t.core
  let f := blk [] 0 [BitVec.ofNat 64 (0x53544A48 + 2 ^ 32 + hs.length * 2 ^ 48), BitVec.ofNat 64 t.lin, BitVec.ofNat 64 l.tag,
    l.resource, l.roles, BitVec.ofNat 64 size, BitVec.ofNat 64 (engOff + engN * 2 ^ 48),
    BitVec.ofNat 64 ((if (s.dom (.team t.id)).d then 1 else 0) + (if l.ring then 2 else 0) +
      (if s.dieBoundTeam t then 4 else 0) + coreDie t.core * 8 + t.core % 16 * 32)]
  let f := blk f 8 (dwords 64 ((List.range 256).flatMap (fun j =>
    natToBytes 2 (if j < t.share.semN then (k.sem (t.share.semBase + j)).cnt else 0))))
  let f := blk f 72 (dwords 4 ((List.range 32).map (fun j =>
    match (k.mtx (t.share.mtxBase + j)).owner with
    | some g => if j < t.share.mtxN then BitVec.ofNat 8 (numOf hs g) else 0xFF#8
    | none => 0xFF#8)))
  conts.foldl (fun f h => match h.run with
    | .cont ev => blk f (76 + 4 * h.num) [1, ev.word, h.pc, h.getX 10]
    | _ => f) f

/-- The image of a team whose harts have stopped. -/
def State.teamImage (s : State) (t : Team) : List Byte :=
  let all := s.teamPlaces t.id
  let hs := byNum (all.filter (fun h => h.run.isHart))
  let sh := t.share
  let k := s.core t.core
  let cmds := s.teamCmds t.id
  let xs := s.xfers.filter (fun x => x.team == t.id)
  let eng := cmds.flatMap (Cmd.image all) ++ xs.flatMap (Xfer.image all)
  let off := engineOffset hs sh
  ({ head := recordBytes (s.teamHeader t hs all (off + pad4kSize eng.length) off (cmds.length + xs.length))
     recs := hs.flatMap (fun h => recordBytes (s.record h))
     lanes := hs.flatMap Hart.laneBytes
     shm := getBytes k.shm sh.shBase sh.shSize
     act := getBytes k.act sh.actBase sh.actSize
     wgt := getBytes k.wgt sh.wgtBase sh.wgtSize
     acc := getBytes k.acc sh.accBase sh.accSize
     engine := eng } : ImageParts).bytes

/-! ## Eviction (R364, R372) -/

/-- The size of a team's image as the team stands. -/
def State.imageBytes (s : State) (t : Team) : Nat :=
  let all := s.teamPlaces t.id
  let eng := ((s.teamCmds t.id).filter (fun c => c.phase.waiting)).flatMap (Cmd.image all) ++
    (s.xfers.filter (fun x => x.team == t.id)).flatMap (Xfer.image all)
  engineOffset (byNum (all.filter (fun h => h.run.isHart))) t.share + pad4kSize eng.length

/-- Room in the save area for an image: its offset, where the front end can write it. -/
def State.saveRoom (s : State) (asid size : Nat) : Option Nat :=
  match lowestFree ((s.teams.filter (fun t => t.phase == .evicted)).map (fun t => (t.image, t.imageSize))) size s.saveSize with
  | none => none
  | some off => if s.imageOpen asid off size then some off else none

/-- The priority of a team for which room is made: a team that waits for its divert has the highest (R356). -/
def State.waitPrio (s : State) (u : Team) : Nat := if u.forDivert then 255 else (s.launch u.launch).prio

/-- Does a team wait for room: it has not started and its launch has not expired, or it is to be restored? -/
def State.wantsRoom (s : State) (u : Team) : Bool :=
  !u.killed && ((u.phase == .waiting && !(s.launch u.launch).expired) || u.phase == .evicted)

/-- May the team be evicted: no hart in wrap-up, a team of higher priority to make room for, room for its image, and for a Polder's
team a save area in HBM? -/
def State.evictable (s : State) (t : Team) : Bool :=
  let l := s.launch t.launch
  t.phase == .running && !t.wrapped && !t.killed && !l.expired && (s.saveRoom l.asid (s.imageBytes t)).isSome &&
  s.teams.any (fun u => s.wantsRoom u && decide (l.prio < s.waitPrio u)) &&
  (s.slotOf l.asid == 0 || s.region (paLow (s.saveBase 0)) == .hbm)

/-- Teams that are evicted together: those of a co-resident grid that are in the phase. -/
def State.evictSet (s : State) (t : Team) : List Team :=
  if (s.launch t.launch).coRes then s.teams.filter (fun u => u.launch == t.launch && u.phase == t.phase) else [t]

/-- Withdraw the wait of a hart, whichever is in focus. -/
def State.withdrawAt (s : State) (g : Nat) : State := ((s.focus g).withdraw).focus s.hart.gid

/-- Name requests and memberships by new numbers: those of a hart that goes away, and back. A bit of a place that is no member's stays with
the place (R230, R231, R234). -/
def State.rename (s : State) (old new : Nat) : State :=
  { s with
    queries := s.queries.map (fun (q : Query) => if q.gid = old then { q with gid := new } else q)
    doms := s.doms.map (fun (d : Dom) =>
      let hit := if isAway old then d.places.contains old else (s.members d).contains old
      let places := match d.key with
        | .team _ => if isAway new then d.places ++ [new] else d.places.filter (fun g => g != old)
        | _ => (d.places.filter (fun g => g != new)).map (fun g => if g = old then new else g)
      if hit then { d with places := places, cnt := fset 0 (fset 0 d.cnt old 0) new (d.c old) } else d) }

/-- A hart goes away with its memberships. -/
def State.goAway (s : State) (t : Nat) (h : Hart) : State := (s.rename h.gid (awayId t h.num)).putHart (Hart.fresh h.gid)

/-- Perform the issued events of a hart that is saved, as a fence does (R323); its notes end with its stay on the core. -/
def State.settleHart (s : State) (g : Nat) : State :=
  (((s.release g).acquire g .sys).dropSenders g).modCore (gidCore g) (fun k => k.forget g)

/-- Save a team: all its waits withdrawn, chunks ended, issued events performed as by a fence of each hart (R323), image written, shares
released (R364); `none` where the save area has no room. -/
def State.saveTeam (s : State) (t : Team) : Option State :=
  let gids := (s.teamHarts t.id).map Hart.gid
  let s := (gids.foldl State.withdrawAt (s.drainLb t.core)).endChunks t.id
  let s := gids.foldl State.settleHart s
  let asid := (s.launch t.launch).asid
  let img := s.teamImage t
  (s.saveRoom asid img.length).map (fun off =>
    let all := s.teamPlaces t.id
    let cmds := s.teamCmds t.id
    let xs := s.xfers.filter (fun x => x.team == t.id)
    let s := s.writeBytes .other (s.saveBase asid + off) img
    let s := cmds.foldl (fun s c => s.dropCmd t.core c) s
    let s := { s with xfers := s.xfers.filter (fun x => x.team != t.id) }
    let s := all.foldl (fun s h => s.goAway t.id h) s
    (s.freeShare t).modTeam t.id (fun x =>
      { x with phase := .evicted, image := off, imageSize := img.length, away := all, awayCmds := cmds, awayXfers := xs }))

/-- Save teams one after another: all of them, or none. DESIGN CHOICE (log 57): an eligible command that is saved before it started takes
its semaphore anew after the restore, and what it had consumed is not given back (R217). -/
def State.saveAll (s : State) : List Team → Option State
  | [] => some s
  | t :: r => (s.saveTeam t).bind (fun s => State.saveAll s r)

/-- The teams are in a phase. -/
def State.setPhases (s : State) (l : List Team) (p : TeamPhase) : State :=
  { s with teams := s.teams.map (fun x => if l.any (fun u => u.id == x.id) then { x with phase := p } else x) }

/-- Teams whose save has not taken place run on; those that were to be diverted after it are diverted now (R356, R367). -/
def State.runOn (s : State) (l : List Team) : State :=
  (l.filter Team.forDivert).foldl (fun s u => (s.modTeam u.id (fun x => { x with forDivert := false })).divertTeam u.id 0)
    (s.setPhases l .running)

/-- Firmware evicts the selected team, with its grid if that is co-resident: first their harts stop, then the save. A queue request whose
condition has been met is served before (R289). Where the save area has lost its room meanwhile, nothing of the save takes place and they run
on. -/
def execPreEmption (s : State) : Out :=
  let t := s.team s.sel
  let set := s.evictSet t
  match t.phase with
  | .running => if set.all (fun u => s.evictable u) then .next (s.setPhases set .evicting) else .next s
  | .evicting =>
    let s := (set.flatMap (fun u => (s.teamHarts u.id).map Hart.gid)).foldl State.qMeets s
    if set.all (fun u => s.allStopped u) then .next ((s.saveAll set).getD (s.runOn set)) else .next s
  | _ => .next s

/-! ## Restore (R165, R323, R356, R366) -/

/-- Overlay a list of held pages with the page numbers of an image. -/
def overPages (b : List Byte) (off : Nat) (pages : List (Nat × Nat)) : List (Nat × Nat) :=
  (pages.zip (List.range pages.length)).map (fun e => (e.1.1, (imgWord b (off + 8 * e.2)).toNat * 4096))

/-- Overlay the saved commands and transfers with the engine section; the offset after them. -/
def overCmds (b : List Byte) : Nat → List Cmd → List Cmd × Nat
  | off, [] => ([], off)
  | off, c :: r =>
    let p := off + 16
    let n := 4 + c.recA.length + c.recB.length
    let at_ (i : Nat) : Word := imgWord b (p + 8 * i)
    let ra := (List.range c.recA.length).map (fun i => at_ (4 + i))
    let rb := (List.range c.recB.length).map (fun i => at_ (4 + c.recA.length + i))
    let c' : Cmd := { c with
      d0 := at_ 0, d1 := at_ 1, d2 := at_ 2, d3 := at_ 3, recA := ra, recB := rb, pages := overPages b (p + 8 * n) c.pages
      phase := .queued }
    let rest := overCmds b (p + 8 * n + 8 * c.pages.length) r
    (c' :: rest.1, rest.2)

def overXfers (b : List Byte) : Nat → List Xfer → List Xfer
  | _, [] => []
  | off, x :: r =>
    let p := off + 16
    let x' : Xfer := { x with
      blk := (List.range 8).map (fun i => imgWord b (p + 8 * i)), moved := (imgWord b (p + 64)).toNat
      id := (imgWord b (p + 72)).toNat, pages := overPages b (p + 80) x.pages }
    x' :: overXfers b (p + 80 + 8 * x.pages.length) r

/-- The lane registers of a hart from an image. -/
def laneFile (b : List Byte) (off n : Nat) : File Lane :=
  (List.range (32 * n)).foldl (fun f i => fset 0 f i (BitVec.ofNat 32 (leNat ((b.drop (off + 4 * i)).take 4)))) []

/-- A continuation of an image's header, over what the header does not list. -/
def contOf (h : Hart) (b : List Byte) : Hart :=
  let at_ (i : Nat) : Word := imgWord b (0x260 + 32 * h.num + 8 * i)
  match h.run with
  | .cont (.barrier _) => ({ h with pc := wputb (at_ 2) 0 false }).setX 10 (at_ 3)
  | .cont ev =>
    let ev := (contEvent (fun _ => none) (at_ 1)).getD ev
    ({ h with pc := wputb (at_ 2) 0 false, run := .cont ev }).setX 10 (at_ 3)
  | _ => h

/-- Bring the harts of an image back, with the offsets of their record and of their lane registers. -/
def State.restoreHarts (s : State) (core : Nat) (b : List Byte) : Nat → Nat → List Hart → State
  | _, _, [] => s
  | recOff, laneOff, h :: r =>
    let g := coreGid core (gidPlace h.gid)
    let n := h.ofRecord (fun i => imgWord b (recOff + 8 * i)) s.clock
    let n := { n with gid := g, team := h.team, v := laneFile b laneOff n.lalloc, fenceSeq := s.wlog.length, divertDue := none }
    let s := (s.rename (awayId h.team h.num) g).putHart n
    State.restoreHarts s core b (recOff + 4096) (laneOff + 128 * h.lalloc) r

/-- Bring continuations and reservations back. -/
def State.restorePlaces (s : State) (core : Nat) (b : List Byte) : List Hart → State
  | [] => s
  | h :: r =>
    let g := coreGid core (gidPlace h.gid)
    let s := (s.rename (awayId h.team h.num) g).putHart { (contOf h b) with gid := g }
    State.restorePlaces s core b r

/-- Restore the semaphore counts, mutex owners and arrays of a team. -/
def State.restoreCore (s : State) (t : Team) (core : Nat) (sh : Share) (b : List Byte) (arrays : Nat) : State :=
  let old := t.share
  let o1 := arrays + pad4kSize old.shSize
  let o2 := o1 + pad4kSize old.actSize
  let o3 := o2 + pad4kSize old.wgtSize
  s.modCore core (fun k =>
    let k := (List.range sh.semN).foldl (fun (k : Core) j =>
      k.setSem (sh.semBase + j) ⟨leNat ((b.drop (0x40 + 2 * j)).take 2), []⟩) k
    let k := (List.range sh.mtxN).foldl (fun (k : Core) j =>
      let n := (b.getD (0x240 + j) 0xFF).toNat
      k.setMtx (sh.mtxBase + j) ⟨((t.away.find? (fun h => h.num == n && h.run.isHart)).map
        (fun h => coreGid core (gidPlace h.gid))), []⟩) k
    { k with
      shm := putBytes k.shm sh.shBase ((b.drop arrays).take sh.shSize)
      act := putBytes k.act sh.actBase ((b.drop o1).take sh.actSize)
      wgt := putBytes k.wgt sh.wgtBase ((b.drop o2).take sh.wgtSize)
      acc := putBytes k.acc sh.accBase ((b.drop o3).take sh.accSize) })

/-- The places of a restored team have their lane registers one after another from a granule on. -/
def State.restoreGran (s : State) (core : Nat) : Nat → List Hart → State
  | _, [] => s
  | at_, h :: r =>
    State.restoreGran (s.giveGran (coreGid core (gidPlace h.gid)) ((List.range (h.lalloc / 32)).map (fun j => at_ + j))) core (at_ + h.lalloc / 32) r

/-- The new place of an old one. -/
def movedPlace (core g : Nat) : Nat := coreGid core (gidPlace g)

/-- Restore an evicted team on a core. -/
def State.restoreOn (s : State) (t : Team) (core : Nat) (sh : Share) (b : List Byte) : State :=
  let hs := byNum (t.away.filter (fun h => h.run.isHart))
  let lanes := 4096 + 4096 * hs.length
  let arrays := lanes + pad4kSize ((hs.map (fun h => 128 * h.lalloc)).foldl (· + ·) 0)
  let (cmds, off) := overCmds b (engineOffset hs t.share) t.awayCmds
  let xs := overXfers b off t.awayXfers
  let newGid (g : Nat) : Nat := if t.away.any (fun h => h.gid == g) then movedPlace core g else g
  let s := s.restoreGran core ((s.laneBase core t.awayRegs).getD 0) t.away
  let s := (s.modTeam t.id (fun x =>
    { x with core := core, share := sh, phase := .running, away := [], awayCmds := [], awayXfers := [], imageSize := 0, forDivert := false })).l1Convert core
  let s := s.restoreHarts core b 4096 lanes hs
  let s := s.restorePlaces core b (t.away.filter (fun h => !h.run.isHart))
  let s := s.restoreCore t core sh b arrays
  let s := { s with
    xfers := s.xfers ++ xs.map (fun (x : Xfer) =>
      { x with gid := newGid x.gid, cluster := coreCluster core, place := x.place.map (movedPlace core) })
    queries := s.queries.map (fun (q : Query) => if q.team = t.id then { q with place := q.place.map (movedPlace core) } else q) }
  let s := if t.forDivert then s.divertTeam t.id 32 else s
  let s := (s.modCore core (fun k =>
    { k with queue := k.queue ++ cmds.map (fun (c : Cmd) => { c with gid := newGid c.gid, since := s.clock }) })).headsUp core
  s.l1Invalidate (coreCluster core)

/-- The selected team is restored, after any that waits for its divert; which of the cores that can take it is the machine's choice. -/
def execTeamRestore (s : State) : Out :=
  let t := s.team s.sel
  if t.phase != .evicted || t.killed || (!t.forDivert && s.divertWaits) then .next s
  else
    let cores := s.restoreCores t
    match cores[s.freeNat 1700 % max cores.length 1]? with
    | none => .next s
    | some (c, sh) =>
      let (b, s) := s.readBytes (s.saveBase (s.launch t.launch).asid + t.image) t.imageSize
      .next (s.restoreOn t c sh b)

end Sys2Proof.Machine
end

