-- ==== Sys2Proof/Machine/Ship.lean ====
section
/-! DEFINITION. Shipped functions: `dq.ship`, the routines at the stacks, and the replies (R342 to R345). -/
namespace Sys2Proof.Machine

/-- A ship that is refused posts its line: to the die of the target's home, or of the hart where the target has none (R346, log 59). -/
def State.postShip (s : State) (pa : Nat) : State :=
  s.postFault (if s.region (paLow pa) == .hbm then s.homeDie (paLow pa) else gidDie s.hart.gid) 5 pa

/-- Step 3 of R342: the target is translated as a store, and lies in HBM and in a page of no memory type. -/
def State.shipPa (s : State) (va : Word) : Except TrapInfo Nat × State :=
  let h := s.hart
  match s.translateAs h s.clusterNo (h.agent h.mode) .store va with
  | (.error t, s) => (.error t, s)
  | (.ok x, s) =>
    if !h.pmpOk h.mode .store x.pa then (.error ⟨7, 0, va⟩, s)
    else if s.region (paLow x.pa) != .hbm || pteMt x.pte != 0 then (.error ⟨7, 0, va⟩, s.postShip x.pa)
    else match s.refusal x.pa h.asid with
      | some sub => (.error ⟨7, sub, va⟩, s.postShip x.pa)
      | none => (.ok x.pa, s)

/-- The alignment of a routine's target; loaded routines name none. -/
def shipAlign (routine : Nat) : Nat :=
  match routine with
  | 0 | 1 | 2 | 6 => 8
  | 3 | 4 | 5 => 128
  | _ => 1

/-- The row operand of a routine: the 128 bytes at operand 0 for the row add. -/
def State.shipRow (s : State) (routine : Nat) (op0 : Word) : Except TrapInfo (List Byte) × State :=
  if routine != 3 then (.ok [], s)
  else if op0.toNat % 8 != 0 then (.error ⟨4, 0, op0⟩, s)
  else match s.loadBlock op0 16 with
    | (.error t, s) => (.error t, s)
    | (.ok l, s) => (.ok (dwordBytes l), s)

/-- Send a shipped function, and wait for its reply: a release at package scope. -/
def State.sendShip (s : State) (x : Ship) : State :=
  let (s, uid) := (s.release s.hart.gid).takeUid
  ({ s with ships := s.ships ++ [{ x with uid := uid }] }).wait (.ship uid)

def execDqShip (routine : BitVec 6) (rd rs1 rs2 : XReg) (s : State) : Out :=
  let r := routine.toNat
  let va := s.getX rs1
  .next (s.notM (
    if 7 ≤ r && r ≤ 15 then s.illegal
    else if va.toNat % shipAlign r != 0 then s.trap ⟨6, 0, va⟩
    else match s.shipPa va with
      | (.error t, s) => s.trap t
      | (.ok pa, s) =>
        s.holdLoads (if r = 3 && (s.getX rs2).toNat % 8 = 0 then s.loadPorts 8 (s.getX rs2) 16 else []) (fun s =>
          match s.shipRow r (s.getX rs2) with
          | (.error t, s) => s.trap t
          | (.ok row, s) =>
            if 16 ≤ r && !wbit s.firm.drtab r then s.engineFault 2
            else s.sendShip ⟨0, s.hart.gid, s.hart.team, pa, r, s.getX rs2, s.getX rd, row, false, 0, 0⟩)))

/-! ## The routines (R343, R344) -/

/-- The new bytes at the target and the result. -/
abbrev Routine := Ship → List Byte → List Byte × Word

/-- A routine on the 8-byte word. -/
def wordRoutine (f : Word → Word → Word × Word) : Routine := fun x b =>
  let (w, r) := f (dwordOf b) x.op0
  (natToBytes 8 w.toNat, r)

/-- A saturating add of an integer type; the result is the old word. -/
def satAdd (t : IFmt) (w op : Word) : Word × Word :=
  (BitVec.ofNat 64 (t.wrap (t.sat (t.val w.toNat + t.val op.toNat))), w)

def runSaddS64 : Routine := wordRoutine (satAdd ⟨true, 64⟩)
def runSaddN64 : Routine := wordRoutine (satAdd ⟨false, 64⟩)

/-- Is (key, index) of `a` less than that of `b`? -/
def keyLess (a b : Word) : Bool :=
  let ka := (BitVec.ofNat 32 (wfield a 32 32)).toInt
  let kb := (BitVec.ofNat 32 (wfield b 32 32)).toInt
  decide (ka < kb) || (decide (ka = kb) && decide (wfield a 0 32 < wfield b 0 32))

def runMinidx : Routine := wordRoutine (fun w op => (if keyLess op w then op else w, w))

def runBitset : Routine := wordRoutine (fun w op =>
  let b : Word := 1#64 <<< wfield op 0 6
  (w ||| b, if w &&& b = 0 then 0 else 1))

/-- Is a bf16 pattern ±∞ or a NaN? -/
def bf16Special (v : Nat) : Bool := v / 128 % 256 == 255

def runRowadd : Routine := fun x b =>
  let new := (List.range 64).map (fun j =>
    (fadd .bf16 .rne false (leNat ((b.drop (2 * j)).take 2)) (leNat ((x.row.drop (2 * j)).take 2))).bits)
  (new.flatMap (natToBytes 2), BitVec.ofNat 64 (new.filter bf16Special).length)

/-- The bin of an f32 x with origin o and width w; `none` for no change. -/
def histBin (x o w : Nat) : Option Nat :=
  match fval .f32 x, fval .f32 o, fval .f32 w with
  | .nan _, _, _ => none
  | vx, .fin no mo eo, .fin nw mw ew =>
    if nw || mw = 0 then none
    else match vx with
      | .inf n => some (if n then 0 else 31)
      | .fin nx mx ex =>
        let e := min (min ex eo) ew
        let d := scaled nx mx ex e - scaled no mo eo e
        let q := d / scaled false mw ew e
        some (if q < 0 then 0 else min q.toNat 31)
      | .nan _ => none
  | _, _, _ => none

def runHist32 : Routine := fun x b =>
  match histBin (wfield x.op0 0 32) (wfield x.op1 0 32) (wfield x.op1 32 32) with
  | none => (b, 0xFFFFFFFFFFFFFFFF#64)
  | some k =>
    let v := leNat ((b.drop (4 * k)).take 4)
    (b.take (4 * k) ++ natToBytes 4 (min (v + 1) 0xFFFFFFFF) ++ b.drop (4 * k + 4), BitVec.ofNat 64 k)

/-- Does entry `a` rank above entry `b`: score descending, then id ascending? -/
def entryAbove (a b : Word) : Bool :=
  let va := fval .f32 (wfield a 32 32)
  let vb := fval .f32 (wfield b 32 32)
  fltVal vb va || (!fltVal va vb && decide (wfield a 0 32 < wfield b 0 32))

/-- Insert an entry into a ranked list: its position, and the list. -/
def rankInsert (e : Word) : List Word → Nat × List Word
  | [] => (0, [e])
  | x :: r => if entryAbove e x then (0, e :: x :: r) else
      let t := rankInsert e r
      (t.1 + 1, x :: t.2)

def runTopk16 : Routine := fun x b =>
  let l := dwords 16 b
  let op := x.op0
  let id := wfield op 0 32
  let no : List Byte × Word := (b, 0xFFFFFFFFFFFFFFFF#64)
  if (fval .f32 (wfield op 32 32)).isNan || id = 0xFFFFFFFF then no
  else
    let rest := l.filter (fun e => wfield e 0 32 != id)
    match l.find? (fun e => wfield e 0 32 == id) with
    | some old =>
      if entryAbove op old then
        let t := rankInsert op rest
        (dwordBytes t.2, BitVec.ofNat 64 t.1)
      else no
    | none =>
      let t := rankInsert op l
      if t.1 < 16 then (dwordBytes (t.2.take 16), BitVec.ofNat 64 t.1) else no

/-- What a loaded routine does is not the spec's (log 17); it writes its line only. -/
def runLoaded : Routine := fun x b =>
  let r := Config.loadedRoutine x.routine (x.pa % 128) x.op0.toNat x.op1.toNat (b ++ x.row)
  ((r.1 ++ b.drop r.1.length).take 128, r.2)

/-! ## The home slice and the stack (R342) -/

def State.putShip (s : State) (x : Ship) : State := { s with ships := s.ships.map (fun y => if y.uid = x.uid then x else y) }

/-- Run the selected ship where it is for the routine: the host gives the line up, copies are recalled, partials applied, the reader count
ended, the line leaves the L2; then the routine on `n` bytes from the target, or on the line that holds it. -/
def State.runShip (s : State) (is : Nat → Bool) (line : Bool) (f : Routine) : State :=
  match s.ships.find? (fun x => x.uid == s.sel) with
  | none => s
  | some x =>
    if x.ran || !is x.routine then s
    else if s.isLost (paLow x.pa) then
      (s.postFault (s.homeDie (paLow x.pa)) 5 x.pa).putShip { x with ran := true, fail := 1 }
    else
      let base := if line then x.pa / 128 * 128 else x.pa
      let n := if line then 128 else 8
      let ln := tagLine x.pa
      let s := ((((s.hostDrop ln).recall ln).settle (128 * ln) 128).endRdc ln).l1Drop (gidCluster x.gid) ln
      let (b, r) := f x (s.peek base n)
      (((s.poke base b).killResv base false).l2Evict ln).putShip { x with ran := true, result := r }

def execSaddS64 (s : State) : Out := .next (s.runShip (fun r => r == 0) false runSaddS64)
def execSaddN64 (s : State) : Out := .next (s.runShip (fun r => r == 1) false runSaddN64)
def execMinidx (s : State) : Out := .next (s.runShip (fun r => r == 2) false runMinidx)
def execRowaddBf16 (s : State) : Out := .next (s.runShip (fun r => r == 3) true runRowadd)
def execHist32 (s : State) : Out := .next (s.runShip (fun r => r == 4) true runHist32)
def execTopk16 (s : State) : Out := .next (s.runShip (fun r => r == 5) true runTopk16)
def execBitset (s : State) : Out := .next (s.runShip (fun r => r == 6) false runBitset)
def execLoadedRoutine (s : State) : Out := .next (s.runShip (fun r => decide (16 ≤ r)) true runLoaded)

/-- A loaded routine that has not returned is aborted with the line unchanged (R345). -/
def execRoutineTimeout (s : State) : Out :=
  match s.ships.find? (fun x => x.uid == s.sel) with
  | none => .next s
  | some x => if x.ran || x.routine < 16 then .next s else .next (s.putShip { x with ran := true, fail := 2 })

/-- The reply retires the waiting `dq.ship`: rd and the trap value come from its instruction bits. -/
def Hart.shipRetire (h : Hart) (x : Ship) : Hart :=
  match x.fail with
  | 0 => (h.setX (BitVec.ofNat 5 (wfield h.ir 7 5)) x.result).retire
  | 1 => h.takeTrap ⟨7, 1, h.getX (BitVec.ofNat 5 (wfield h.ir 15 5))⟩
  | _ => h.takeTrap ⟨27, 2, 0⟩

/-- The reply of the selected ship arrives: an acquire at package scope. -/
def execShipReply (s : State) : Out :=
  match s.ships.find? (fun x => x.uid == s.sel && x.ran) with
  | none => .next s
  | some x =>
    let s := { s with ships := s.ships.filter (fun y => y.uid != x.uid) }
    if (s.hartOf x.gid).run != .waiting (.ship x.uid) then .next s
    else
      let s := if x.fail = 0 then s.acquire x.gid .pkg else s
      .next (s.modHart x.gid (fun h => h.shipRetire x))

end Sys2Proof.Machine
end

