-- ==== Sys2Proof/Machine/Dispatch.lean ====
section
/-! DEFINITION. The dispatch of every instruction and event to its meaning. -/
namespace Sys2Proof.Machine

/-- The effect of an instruction in the focused hart, or of an event. -/
def exec (i : Instr) (s : State) : Host.Outcome State Fault Refusal :=
  match i with
  | .hexit => Sys2Proof.Machine.execHexit s
  | .yield => Sys2Proof.Machine.execYield s
  | .spawn rd rs1 rs2 => Sys2Proof.Machine.execSpawn rd rs1 rs2 s
  | .cont rs1 rs2 => Sys2Proof.Machine.execCont rs1 rs2 s
  | .rgrow rd rs1 => Sys2Proof.Machine.execRgrow rd rs1 s
  | .rshrink rs1 => Sys2Proof.Machine.execRshrink rs1 s
  | .uiret => Sys2Proof.Machine.execUiret s
  | .lbfence => Sys2Proof.Machine.execLbfence s
  | .uimask n => Sys2Proof.Machine.execUimask n s
  | .hloop lvl rs1 len => Sys2Proof.Machine.execHloop lvl rs1 len s
  | .hloopi lvl count len => Sys2Proof.Machine.execHloopi lvl count len s
  | .loopCsrWrite op imm csr rd src => Sys2Proof.Machine.execLoopCsrWrite op imm csr rd src s
  | .csrAccess op imm csr rd src => Sys2Proof.Machine.execCsrAccess op imm csr rd src s
  | .barArr rs1 imm => Sys2Proof.Machine.execBarArr rs1 imm s
  | .barWait rs1 imm => Sys2Proof.Machine.execBarWait rs1 imm s
  | .barTry rd rs1 imm => Sys2Proof.Machine.execBarTry rd rs1 imm s
  | .barArw rs1 imm => Sys2Proof.Machine.execBarArw rs1 imm s
  | .barCfg rs1 rs2 => Sys2Proof.Machine.execBarCfg rs1 rs2 s
  | .barrierPhaseComplete dom => Sys2Proof.Machine.execBarrierPhaseComplete dom s
  | .semSig rs1 rs2 => Sys2Proof.Machine.execSemSig rs1 rs2 s
  | .semWait rs1 rs2 => Sys2Proof.Machine.execSemWait rs1 rs2 s
  | .semTry rd rs1 rs2 => Sys2Proof.Machine.execSemTry rd rs1 rs2 s
  | .mtxLock rs1 => Sys2Proof.Machine.execMtxLock rs1 s
  | .mtxTry rd rs1 => Sys2Proof.Machine.execMtxTry rd rs1 s
  | .mtxFree rs1 => Sys2Proof.Machine.execMtxFree rs1 s
  | .msend rs1 rs2 idx => Sys2Proof.Machine.execMsend rs1 rs2 idx s
  | .mrecv rd idx => Sys2Proof.Machine.execMrecv rd idx s
  | .mtry rd idx => Sys2Proof.Machine.execMtry rd idx s
  | .cpy rd rs1 => Sys2Proof.Machine.execCpy rd rs1 s
  | .mxpush rs1 rs2 => Sys2Proof.Machine.execMxpush rs1 rs2 s
  | .mxfence => Sys2Proof.Machine.execMxfence s
  | .strmCfg ss rs1 => Sys2Proof.Machine.execStrmCfg ss rs1 s
  | .strmEnd ss => Sys2Proof.Machine.execStrmEnd ss s
  | .streamRefill g ss => Sys2Proof.Machine.execStreamRefill g ss s
  | .dqSearch rs1 rs2 => Sys2Proof.Machine.execDqSearch rs1 rs2 s
  | .dqCancel rs1 => Sys2Proof.Machine.execDqCancel rs1 s
  | .dqShip routine rd rs1 rs2 => Sys2Proof.Machine.execDqShip routine rd rs1 rs2 s
  | .cwait cls n => Sys2Proof.Machine.execCwait cls n s
  | .ctry rd cls n => Sys2Proof.Machine.execCtry rd cls n s
  | .qinit rs1 rs2 => Sys2Proof.Machine.execQinit rs1 rs2 s
  | .qenqX rs1 rs2 => Sys2Proof.Machine.execQenqX rs1 rs2 s
  | .qdeqX rd rs1 => Sys2Proof.Machine.execQdeqX rd rs1 s
  | .qenqM rs1 rs2 => Sys2Proof.Machine.execQenqM rs1 rs2 s
  | .qdeqM rs1 rs2 => Sys2Proof.Machine.execQdeqM rs1 rs2 s
  | .qtenq rd rs1 rs2 => Sys2Proof.Machine.execQtenq rd rs1 rs2 s
  | .qtdeq rd rs1 rs2 => Sys2Proof.Machine.execQtdeq rd rs1 rs2 s
  | .qrsv rd rs1 => Sys2Proof.Machine.execQrsv rd rs1 s
  | .qcmt rs1 rs2 => Sys2Proof.Machine.execQcmt rs1 rs2 s
  | .qstat rd rs1 => Sys2Proof.Machine.execQstat rd rs1 s
  | .qdrain rd rs1 => Sys2Proof.Machine.execQdrain rd rs1 s
  | .mdiv k => Sys2Proof.Machine.execMdiv k s
  | .melse k => Sys2Proof.Machine.execMelse k s
  | .mjoin => Sys2Proof.Machine.execMjoin s
  | .mrejoin => Sys2Proof.Machine.execMrejoin s
  | .mpush => Sys2Proof.Machine.execMpush s
  | .mpop => Sys2Proof.Machine.execMpop s
  | .mrd rd rs1 => Sys2Proof.Machine.execMrd rd rs1 s
  | .mwr rs1 rs2 => Sys2Proof.Machine.execMwr rs1 rs2 s
  | .bmany k off => Sys2Proof.Machine.execBmany k off s
  | .bmall k off => Sys2Proof.Machine.execBmall k off s
  | .bmnone k off => Sys2Proof.Machine.execBmnone k off s
  | .wrCommit rs1 => Sys2Proof.Machine.execWrCommit rs1 s
  | .wrDone => Sys2Proof.Machine.execWrDone s
  | .wrDrop => Sys2Proof.Machine.execWrDrop s
  | .lrel rs1 => Sys2Proof.Machine.execLrel rs1 s
  | .vfma p f vd va vb vc => Sys2Proof.Machine.execVfma p f vd va vb vc s
  | .vfms p f vd va vb vc => Sys2Proof.Machine.execVfms p f vd va vb vc s
  | .vfnma p f vd va vb vc => Sys2Proof.Machine.execVfnma p f vd va vb vc s
  | .vfnms p f vd va vb vc => Sys2Proof.Machine.execVfnms p f vd va vb vc s
  | .vdp2 p bf vd va vb vc => Sys2Proof.Machine.execVdp2 p bf vd va vb vc s
  | .vdp4 p t vd va vb vc => Sys2Proof.Machine.execVdp4 p t vd va vb vc s
  | .vmad p unsgn vd va vb vc => Sys2Proof.Machine.execVmad p unsgn vd va vb vc s
  | .vmadh p unsgn vd va vb vc => Sys2Proof.Machine.execVmadh p unsgn vd va vb vc s
  | .vsel p vd va vb vc => Sys2Proof.Machine.execVsel p vd va vb vc s
  | .vbfi p vd va vb vc => Sys2Proof.Machine.execVbfi p vd va vb vc s
  | .vfunnel p vd va vb vc => Sys2Proof.Machine.execVfunnel p vd va vb vc s
  | .vadd p t vd va vb => Sys2Proof.Machine.execVadd p t vd va vb s
  | .vsub p t vd va vb => Sys2Proof.Machine.execVsub p t vd va vb s
  | .vmul p t vd va vb => Sys2Proof.Machine.execVmul p t vd va vb s
  | .vmulh p t vd va vb => Sys2Proof.Machine.execVmulh p t vd va vb s
  | .vmin p t vd va vb => Sys2Proof.Machine.execVmin p t vd va vb s
  | .vmax p t vd va vb => Sys2Proof.Machine.execVmax p t vd va vb s
  | .vabsd p t vd va vb => Sys2Proof.Machine.execVabsd p t vd va vb s
  | .vadds p t vd va vb => Sys2Proof.Machine.execVadds p t vd va vb s
  | .vsubs p t vd va vb => Sys2Proof.Machine.execVsubs p t vd va vb s
  | .vfadd p f vd va vb => Sys2Proof.Machine.execVfadd p f vd va vb s
  | .vfsub p f vd va vb => Sys2Proof.Machine.execVfsub p f vd va vb s
  | .vfmul p f vd va vb => Sys2Proof.Machine.execVfmul p f vd va vb s
  | .vfmin p f vd va vb => Sys2Proof.Machine.execVfmin p f vd va vb s
  | .vfmax p f vd va vb => Sys2Proof.Machine.execVfmax p f vd va vb s
  | .vand p vd va vb => Sys2Proof.Machine.execVand p vd va vb s
  | .vor p vd va vb => Sys2Proof.Machine.execVor p vd va vb s
  | .vxor p vd va vb => Sys2Proof.Machine.execVxor p vd va vb s
  | .vandn p vd va vb => Sys2Proof.Machine.execVandn p vd va vb s
  | .vsll p vd va vb => Sys2Proof.Machine.execVsll p vd va vb s
  | .vsrl p vd va vb => Sys2Proof.Machine.execVsrl p vd va vb s
  | .vsra p vd va vb => Sys2Proof.Machine.execVsra p vd va vb s
  | .vrol p vd va vb => Sys2Proof.Machine.execVrol p vd va vb s
  | .vcmp p c unsgn md va vb => Sys2Proof.Machine.execVcmp p c unsgn md va vb s
  | .vfcmp p c md va vb => Sys2Proof.Machine.execVfcmp p c md va vb s
  | .vpack p t vd va vb => Sys2Proof.Machine.execVpack p t vd va vb s
  | .vperm p vd va vb => Sys2Proof.Machine.execVperm p vd va vb s
  | .vclmulN32 bits => Sys2Proof.Machine.execVclmulN32 bits s
  | .vmov p vd va => Sys2Proof.Machine.execVmov p vd va s
  | .vnot p vd va => Sys2Proof.Machine.execVnot p vd va s
  | .vbrev p vd va => Sys2Proof.Machine.execVbrev p vd va s
  | .vclz p vd va => Sys2Proof.Machine.execVclz p vd va s
  | .vctz p vd va => Sys2Proof.Machine.execVctz p vd va s
  | .vpopc p vd va => Sys2Proof.Machine.execVpopc p vd va s
  | .vneg p t vd va => Sys2Proof.Machine.execVneg p t vd va s
  | .vabs p t vd va => Sys2Proof.Machine.execVabs p t vd va s
  | .vrcp p vd va => Sys2Proof.Machine.execVrcp p vd va s
  | .vrsqrt p vd va => Sys2Proof.Machine.execVrsqrt p vd va s
  | .vsqrt p rm vd va => Sys2Proof.Machine.execVsqrt p rm vd va s
  | .vexp2 p vd va => Sys2Proof.Machine.execVexp2 p vd va s
  | .vlog2 p vd va => Sys2Proof.Machine.execVlog2 p vd va s
  | .vsin p vd va => Sys2Proof.Machine.execVsin p vd va s
  | .vcos p vd va => Sys2Proof.Machine.execVcos p vd va s
  | .vtanh p vd va => Sys2Proof.Machine.execVtanh p vd va s
  | .vfrac p vd va => Sys2Proof.Machine.execVfrac p vd va s
  | .vrnd p rm vd va => Sys2Proof.Machine.execVrnd p rm vd va s
  | .vfclass p vd va => Sys2Proof.Machine.execVfclass p vd va s
  | .vcvt p dst src rm sat vd va => Sys2Proof.Machine.execVcvt p dst src rm sat vd va s
  | .vcvtSr p dst sat vd va => Sys2Proof.Machine.execVcvtSr p dst sat vd va s
  | .vunpack p src j vd va => Sys2Proof.Machine.execVunpack p src j vd va s
  | .vmovi p imm vd => Sys2Proof.Machine.execVmovi p imm vd s
  | .vaddi p imm vd va => Sys2Proof.Machine.execVaddi p imm vd va s
  | .vandi p imm vd va => Sys2Proof.Machine.execVandi p imm vd va s
  | .vori p imm vd va => Sys2Proof.Machine.execVori p imm vd va s
  | .vxori p imm vd va => Sys2Proof.Machine.execVxori p imm vd va s
  | .vslli p sh vd va => Sys2Proof.Machine.execVslli p sh vd va s
  | .vsrli p sh vd va => Sys2Proof.Machine.execVsrli p sh vd va s
  | .vsrai p sh vd va => Sys2Proof.Machine.execVsrai p sh vd va s
  | .vmuli p imm vd va => Sys2Proof.Machine.execVmuli p imm vd va s
  | .vcmpi p c unsgn imm md va => Sys2Proof.Machine.execVcmpi p c unsgn imm md va s
  | .vld p m vd va vb => Sys2Proof.Machine.execVld p m vd va vb s
  | .vst p m vd va vb => Sys2Proof.Machine.execVst p m vd va vb s
  | .vldx p m vd va => Sys2Proof.Machine.execVldx p m vd va s
  | .vstx p m vd va => Sys2Proof.Machine.execVstx p m vd va s
  | .vldB p m vd vb => Sys2Proof.Machine.execVldB p m vd vb s
  | .vlds p wd vd va vb => Sys2Proof.Machine.execVlds p wd vd va vb s
  | .vsts p wd vd va vb => Sys2Proof.Machine.execVsts p wd vd va vb s
  | .vldt p quad buf vd va vb => Sys2Proof.Machine.execVldt p quad buf vd va vb s
  | .vstt p quad buf vd va vb => Sys2Proof.Machine.execVstt p quad buf vd va vb s
  | .vpf p scope hint va vb => Sys2Proof.Machine.execVpf p scope hint va vb s
  | .vstRdc p wd cnt vd va vb => Sys2Proof.Machine.execVstRdc p wd cnt vd va vb s
  | .vexit p => Sys2Proof.Machine.execVexit p s
  | .vshflIdx p w vd va vb => Sys2Proof.Machine.execVshflIdx p w vd va vb s
  | .vshflUp p w vd va vb => Sys2Proof.Machine.execVshflUp p w vd va vb s
  | .vshflDown p w vd va vb => Sys2Proof.Machine.execVshflDown p w vd va vb s
  | .vshflXor p w vd va vb => Sys2Proof.Machine.execVshflXor p w vd va vb s
  | .vvoteAny p w md va => Sys2Proof.Machine.execVvoteAny p w md va s
  | .vvoteAll p w md va => Sys2Proof.Machine.execVvoteAll p w md va s
  | .vvoteMask p w vd va => Sys2Proof.Machine.execVvoteMask p w vd va s
  | .vmatch p dbl w vd va => Sys2Proof.Machine.execVmatch p dbl w vd va s
  | .vscanAdd p t exc w vd va => Sys2Proof.Machine.execVscanAdd p t exc w vd va s
  | .vscanMin p t exc w vd va => Sys2Proof.Machine.execVscanMin p t exc w vd va s
  | .vscanMax p t exc w vd va => Sys2Proof.Machine.execVscanMax p t exc w vd va s
  | .vlredAdd p t xd va => Sys2Proof.Machine.execVlredAdd p t xd va s
  | .vlredMin p t xd va => Sys2Proof.Machine.execVlredMin p t xd va s
  | .vlredMax p t xd va => Sys2Proof.Machine.execVlredMax p t xd va s
  | .vlredAnd p xd va => Sys2Proof.Machine.execVlredAnd p xd va s
  | .vlredOr p xd va => Sys2Proof.Machine.execVlredOr p xd va s
  | .vlredXor p xd va => Sys2Proof.Machine.execVlredXor p xd va s
  | .vext p sel xd va => Sys2Proof.Machine.execVext p sel xd va s
  | .vins p sel vd xs => Sys2Proof.Machine.execVins p sel vd xs s
  | .vamoAdd p t o sc xb vd va vb => Sys2Proof.Machine.execVamoAdd p t o sc xb vd va vb s
  | .vamoMin p t o sc xb vd va vb => Sys2Proof.Machine.execVamoMin p t o sc xb vd va vb s
  | .vamoMax p t o sc xb vd va vb => Sys2Proof.Machine.execVamoMax p t o sc xb vd va vb s
  | .vamoAnd p t o sc xb vd va vb => Sys2Proof.Machine.execVamoAnd p t o sc xb vd va vb s
  | .vamoOr p t o sc xb vd va vb => Sys2Proof.Machine.execVamoOr p t o sc xb vd va vb s
  | .vamoXor p t o sc xb vd va vb => Sys2Proof.Machine.execVamoXor p t o sc xb vd va vb s
  | .vamoXchg p t o sc xb vd va vb => Sys2Proof.Machine.execVamoXchg p t o sc xb vd va vb s
  | .vamoCas p t o sc xb vd va vb => Sys2Proof.Machine.execVamoCas p t o sc xb vd va vb s
  | .vmredAdd p t o sc xb vd va => Sys2Proof.Machine.execVmredAdd p t o sc xb vd va s
  | .vmredMin p t o sc xb vd va => Sys2Proof.Machine.execVmredMin p t o sc xb vd va s
  | .vmredMax p t o sc xb vd va => Sys2Proof.Machine.execVmredMax p t o sc xb vd va s
  | .vmredAnd p t o sc xb vd va => Sys2Proof.Machine.execVmredAnd p t o sc xb vd va s
  | .vmredOr p t o sc xb vd va => Sys2Proof.Machine.execVmredOr p t o sc xb vd va s
  | .vmredXor p t o sc xb vd va => Sys2Proof.Machine.execVmredXor p t o sc xb vd va s
  | .vmredAddOrd p t o sc xb vd va => Sys2Proof.Machine.execVmredAddOrd p t o sc xb vd va s
  | .vqenq p dbl xq vd => Sys2Proof.Machine.execVqenq p dbl xq vd s
  | .vqdeq p dbl xq vd => Sys2Proof.Machine.execVqdeq p dbl xq vd s
  | .vqtdeq p dbl ms xq vd => Sys2Proof.Machine.execVqtdeq p dbl ms xq vd s
  | .hartLoad k rd rs1 imm => Sys2Proof.Machine.execHartLoad k rd rs1 imm s
  | .hartStore k rs1 rs2 imm => Sys2Proof.Machine.execHartStore k rs1 rs2 imm s
  | .hartAmo op dbl aq rl rd rs1 rs2 => Sys2Proof.Machine.execHartAmo op dbl aq rl rd rs1 rs2 s
  | .fence fm pred succ => Sys2Proof.Machine.execFence fm pred succ s
  | .fenceI => Sys2Proof.Machine.execFenceI s
  | .sfenceVma rs1 rs2 => Sys2Proof.Machine.execSfenceVma rs1 rs2 s
  | .wfi => Sys2Proof.Machine.execWfi s
  | .wrsNto => Sys2Proof.Machine.execWrsNto s
  | .wrsSto => Sys2Proof.Machine.execWrsSto s
  | .xret mret => Sys2Proof.Machine.execXret mret s
  | .tlbsdShootdown die v => Sys2Proof.Machine.execTlbsdShootdown die v s
  | .notify die page v => Sys2Proof.Machine.execNotify die page v s
  | .npbindWrite die page v => Sys2Proof.Machine.execNpbindWrite die page v s
  | .coreUncorrectableError core cause => Sys2Proof.Machine.execCoreUncorrectableError core cause s
  | .coreTestDone core pass => Sys2Proof.Machine.execCoreTestDone core pass s
  | .torusLinkStop cluster link => Sys2Proof.Machine.execTorusLinkStop cluster link s
  | .hbmEccEvent line uncorrected => Sys2Proof.Machine.execHbmEccEvent line uncorrected s
  | .bpadd v => Sys2Proof.Machine.execBpadd v s
  | .listRequest uid stack => Sys2Proof.Machine.execListRequest uid stack s
  | .listReply uid stack => Sys2Proof.Machine.execListReply uid stack s
  | .evalRequest uid stack => Sys2Proof.Machine.execEvalRequest uid stack s
  | .evalReply uid stack => Sys2Proof.Machine.execEvalReply uid stack s
  | .ptpMessage time delay => Sys2Proof.Machine.execPtpMessage time delay s
  | .tmsetWrite v => Sys2Proof.Machine.execTmsetWrite v s
  | .pcownWrite core v => Sys2Proof.Machine.execPcownWrite core v s
  | .kflush v => Sys2Proof.Machine.execKflush v s
  | .kszero v => Sys2Proof.Machine.execKszero v s
  | .debugStateSet st => Sys2Proof.Machine.execDebugStateSet st s
  | .debugHaltRequest r => Sys2Proof.Machine.execDebugHaltRequest r s
  | .powerStateRequest r => Sys2Proof.Machine.execPowerStateRequest r s
  | .bringUp fails => Sys2Proof.Machine.execBringUp fails s
  | .recoveryImage img => Sys2Proof.Machine.execRecoveryImage img s
  | .hostCxlMemRead a own => Sys2Proof.Machine.execHostCxlMemRead a own s
  | .hostCxlMemWrite pa bytes => Sys2Proof.Machine.execHostCxlMemWrite pa bytes s
  | .fmctlOnline port v => Sys2Proof.Machine.execFmctlOnline port v s
  | .d2dRetrain boundary inTime => Sys2Proof.Machine.execD2dRetrain boundary inTime s
  | .registerWrite a v => Sys2Proof.Machine.execRegisterWrite a v s
  | .standardInstruction q => Sys2Proof.Machine.execStandardInstruction q s
  | .powerLimitThrottle on => Sys2Proof.Machine.execPowerLimitThrottle on s
  | .streamPushWritten g ss => Sys2Proof.Machine.execStreamPushWritten g ss s
  | .debugResumeRequest g single => Sys2Proof.Machine.execDebugResumeRequest g single s
  | .mailboxDelivery => Sys2Proof.Machine.execMailboxDelivery s
  | .mailboxSendTimeout => Sys2Proof.Machine.execMailboxSendTimeout s
  | .copyChunk => Sys2Proof.Machine.execCopyChunk s
  | .copyComplete => Sys2Proof.Machine.execCopyComplete s
  | .queueWaiterServed => Sys2Proof.Machine.execQueueWaiterServed s
  | .queueRetry => Sys2Proof.Machine.execQueueRetry s
  | .laneStorePerformed => Sys2Proof.Machine.execLaneStorePerformed s
  | .loadDataArrival => Sys2Proof.Machine.execLoadDataArrival s
  | .wrsStoTimeout => Sys2Proof.Machine.execWrsStoTimeout s
  | .twTimeout => Sys2Proof.Machine.execTwTimeout s
  | .interruptEntry => Sys2Proof.Machine.execInterruptEntry s
  | .uiEntry => Sys2Proof.Machine.execUiEntry s
  | .uimaskWindowExpire => Sys2Proof.Machine.execUimaskWindowExpire s
  | .registerPoolGrant => Sys2Proof.Machine.execRegisterPoolGrant s
  | .spawnedHartEligible => Sys2Proof.Machine.execSpawnedHartEligible s
  | .continuationStart => Sys2Proof.Machine.execContinuationStart s
  | .mma => Sys2Proof.Machine.execMma s
  | .mmaSp => Sys2Proof.Machine.execMmaSp s
  | .mmaMx => Sys2Proof.Machine.execMmaMx s
  | .mmrot => Sys2Proof.Machine.execMmrot s
  | .mmrotLanding => Sys2Proof.Machine.execMmrotLanding s
  | .accZero => Sys2Proof.Machine.execAccZero s
  | .accLd => Sys2Proof.Machine.execAccLd s
  | .accSt => Sys2Proof.Machine.execAccSt s
  | .accCvt => Sys2Proof.Machine.execAccCvt s
  | .tmov => Sys2Proof.Machine.execTmov s
  | .ttrans => Sys2Proof.Machine.execTtrans s
  | .tsync => Sys2Proof.Machine.execTsync s
  | .matrixCommandComplete => Sys2Proof.Machine.execMatrixCommandComplete s
  | .matrixEngineHangReset => Sys2Proof.Machine.execMatrixEngineHangReset s
  | .matrixResetDone => Sys2Proof.Machine.execMatrixResetDone s
  | .strandedCommandDiscard => Sys2Proof.Machine.execStrandedCommandDiscard s
  | .l2WriteQueueApply => Sys2Proof.Machine.execL2WriteQueueApply s
  | .pageWalkComplete => Sys2Proof.Machine.execPageWalkComplete s
  | .tlbsdDone => Sys2Proof.Machine.execTlbsdDone s
  | .launchDequeue => Sys2Proof.Machine.execLaunchDequeue s
  | .spillTimeout => Sys2Proof.Machine.execSpillTimeout s
  | .teamStart => Sys2Proof.Machine.execTeamStart s
  | .teamComplete => Sys2Proof.Machine.execTeamComplete s
  | .shareScrub => Sys2Proof.Machine.execShareScrub s
  | .launchComplete => Sys2Proof.Machine.execLaunchComplete s
  | .slackRecalc => Sys2Proof.Machine.execSlackRecalc s
  | .deadlineExpiry => Sys2Proof.Machine.execDeadlineExpiry s
  | .divert => Sys2Proof.Machine.execDivert s
  | .wrapupBudgetKill => Sys2Proof.Machine.execWrapupBudgetKill s
  | .preEmption => Sys2Proof.Machine.execPreEmption s
  | .teamRestore => Sys2Proof.Machine.execTeamRestore s
  | .contextHang => Sys2Proof.Machine.execContextHang s
  | .coreResetCmd => Sys2Proof.Machine.execCoreResetCmd s
  | .coreTestCmd => Sys2Proof.Machine.execCoreTestCmd s
  | .coreReturnCmd => Sys2Proof.Machine.execCoreReturnCmd s
  | .coreFenceCmd => Sys2Proof.Machine.execCoreFenceCmd s
  | .coreResetDone => Sys2Proof.Machine.execCoreResetDone s
  | .scctlClear => Sys2Proof.Machine.execScctlClear s
  | .faqpopRead => Sys2Proof.Machine.execFaqpopRead s
  | .dredgeQueryAdmit => Sys2Proof.Machine.execDredgeQueryAdmit s
  | .dredgeRoundBoundary => Sys2Proof.Machine.execDredgeRoundBoundary s
  | .dredgeResultRecord => Sys2Proof.Machine.execDredgeResultRecord s
  | .dredgeCompletion => Sys2Proof.Machine.execDredgeCompletion s
  | .saddS64 => Sys2Proof.Machine.execSaddS64 s
  | .saddN64 => Sys2Proof.Machine.execSaddN64 s
  | .minidx => Sys2Proof.Machine.execMinidx s
  | .rowaddBf16 => Sys2Proof.Machine.execRowaddBf16 s
  | .hist32 => Sys2Proof.Machine.execHist32 s
  | .topk16 => Sys2Proof.Machine.execTopk16 s
  | .bitset => Sys2Proof.Machine.execBitset s
  | .loadedRoutine => Sys2Proof.Machine.execLoadedRoutine s
  | .routineTimeout => Sys2Proof.Machine.execRoutineTimeout s
  | .shipReply => Sys2Proof.Machine.execShipReply s
  | .timeHoldover => Sys2Proof.Machine.execTimeHoldover s
  | .polderCreate => Sys2Proof.Machine.execPolderCreate s
  | .polderExtend => Sys2Proof.Machine.execPolderExtend s
  | .polderAttest => Sys2Proof.Machine.execPolderAttest s
  | .pldcmdComplete => Sys2Proof.Machine.execPldcmdComplete s
  | .kflushDone => Sys2Proof.Machine.execKflushDone s
  | .fullerArm => Sys2Proof.Machine.execFullerArm s
  | .fullerArmed => Sys2Proof.Machine.execFullerArmed s
  | .fullerStart => Sys2Proof.Machine.execFullerStart s
  | .fullerUnit => Sys2Proof.Machine.execFullerUnit s
  | .fullerDone => Sys2Proof.Machine.execFullerDone s
  | .moduleReset => Sys2Proof.Machine.execModuleReset s
  | .portLinkDown => Sys2Proof.Machine.execPortLinkDown s
  | .portTimeout => Sys2Proof.Machine.execPortTimeout s
  | .farAccessComplete => Sys2Proof.Machine.execFarAccessComplete s
  | .d2dDegrade => Sys2Proof.Machine.execD2dDegrade s
  | .readClearRegisterRead => Sys2Proof.Machine.execReadClearRegisterRead s
  | .ppsOutputEdge => Sys2Proof.Machine.execPpsOutputEdge s
  | .bpaddFlashWriteDone => Sys2Proof.Machine.execBpaddFlashWriteDone s
  | .powerLoss => Sys2Proof.Machine.execPowerLoss s
  | .portLinkUp => Sys2Proof.Machine.execPortLinkUp s
  | .backInvalidateResponse => Sys2Proof.Machine.execBackInvalidateResponse s

end Sys2Proof.Machine
end

