-- ==== Sys2Proof/Machine/Fetch.lean ====
section
/-! DEFINITION. Fetching the instruction at the program counter (R31, R32, R75). -/
namespace Sys2Proof.Machine

/-- What a byte held when the hart last executed `fence.i`: the oldest value that a later store replaced, if any (R32), as it
reads under key number `v` (R371). -/
def oldByte (log : List OldByte) (v a : Nat) (cur : Byte) : Byte :=
  log.foldl (fun acc e => if e.pa = a then keyByte v e.ver a e.byte else acc) cur

/-- A byte of instruction memory, in the new or the old contents. -/
def State.fetchByte (s : State) (new : Bool) (pa : Nat) : Byte :=
  let cur := (s.peek pa 1).headD 0
  if new then cur
  else oldByte (s.wlog.take (s.wlog.length - s.hart.fenceSeq)) (s.keyVer (paKey pa)) (paLow pa) cur

/-- Translate and check one halfword of instruction memory. -/
def State.fetchPa (s : State) (va : Word) : Except TrapInfo Nat × State :=
  let h := s.hart
  match s.translateAs h s.clusterNo (h.agent h.mode) .fetch va with
  | (.error t, s) => (.error t, s)
  | (.ok x, s) =>
    let bad (sub : Nat) : Except TrapInfo Nat × State := (.error ⟨1, sub, va⟩, s)
    if !h.pmpOk h.mode .fetch x.pa then bad 0
    else match s.refusal x.pa h.asid with
      | some sub => if sub = 3 && h.checked then (.ok x.pa, s) else bad sub
      | none =>
        match s.region (paLow x.pa) with
        | .regs _ | .notify _ => bad 0
        | .hbm => if s.isLost (paLow x.pa) then bad 1 else (.ok x.pa, s)
        | _ => (.ok x.pa, s)

/-- Fetch `n` halfwords from an address on, each in the new or the old contents, the first fault ending the fetch. -/
def State.fetchHalves (s : State) (new : Bool) (va : Word) : Nat → Except TrapInfo (List Byte) × State
  | 0 => (.ok [], s)
  | n + 1 =>
    match s.fetchPa va with
    | (.error t, s) => (.error t, s)
    | (.ok pa, s) =>
      let s := (s.homeRead pa 2).2
      match State.fetchHalves s new (va + 2) n with
      | (.error t, s) => (.error t, s)
      | (.ok l, s) => (.ok (s.fetchByte new pa :: s.fetchByte new (pa + 1) :: l), s)

/-- A 32-bit half of a lane word: where old and new contents differ, either may be fetched (R32, log 14). -/
def State.fetchHalf32 (s : State) (tag : Nat) (va : Word) : Except TrapInfo (List Byte) × State :=
  match s.fetchHalves false va 2 with
  | (.error t, s) => (.error t, s)
  | (.ok old, s) =>
    match s.fetchHalves true va 2 with
    | (.error t, s) => (.error t, s)
    | (.ok new, s) => if old = new then (.ok old, s) else (.ok (if s.freeBit tag then new else old), s)

/-- The bits of the instruction at the program counter, and its length in bytes; a reserved long encoding gives its first
32 bits (R31). -/
def State.fetch (s : State) : Except TrapInfo (Word × Nat) × State :=
  let pc := s.hart.pc
  match s.fetchHalves false pc 1 with
  | (.error t, s) => (.error t, s)
  | (.ok h, s) =>
    match instrLen (BitVec.ofNat 16 (leNat h)) with
    | 2 => (.ok (BitVec.ofNat 64 (leNat h), 2), s)
    | 8 =>
      match s.fetchHalf32 1400 pc with
      | (.error t, s) => (.error t, s)
      | (.ok lo, s) =>
        match instrLen (BitVec.ofNat 16 (leNat (lo.take 2))) with
        | 2 => (.ok (BitVec.ofNat 64 (leNat (lo.take 2)), 2), s)
        | 8 =>
          match s.fetchHalf32 1401 (pc + 4) with
          | (.error t, s) => (.error t, s)
          | (.ok hi, s) => (.ok (BitVec.ofNat 64 (leNat (lo ++ hi)), 8), s)
        | _ => (.ok (BitVec.ofNat 64 (leNat lo), 4), s)
    | _ =>
      match s.fetchHalves false (pc + 2) 1 with
      | (.error t, s) => (.error t, s)
      | (.ok h2, s) => (.ok (BitVec.ofNat 64 (leNat (h ++ h2)), 4), s)

/-- The instruction that fetched bits stand for: a lane word must lie at a multiple of 4 (R31); what is no instruction is
the opcode table's illegal one. -/
def fetchedInstr (pc bits : Word) (len : Nat) : Instr :=
  if len = 8 && pc.toNat % 4 != 0 then .standardInstruction (.illegal bits)
  else match decodeBits bits with
    | .instr i _ _ => i
    | .reject _ b _ => .standardInstruction (.illegal b)

end Sys2Proof.Machine
end

