-- ==== Sys2Proof/Machine/Schedule.lean ====
section
/-! DEFINITION. Which move the machine makes next: harts that may run, events that may be due, what a hart does at an
instruction boundary (R77), and what passing time changes (R301, R349, R401). -/
namespace Sys2Proof.Machine

/-! ## Harts -/

/-- A wait that the hart ends by looking again: its instruction is executed once more. The other waits end when another
agent retires the instruction or clears the wait. -/
def Wait.polled : Wait → Bool
  | .sem _ _ | .mutex _ _ | .msend _ _ | .queueEnq _ | .queueDeq _ | .rgrow _ | .ship _ => false
  | .queueRetry _ _ again => again
  | _ => true

/-- Does a started `mmrot` of a ring-placed launch hold the eviction of the team: the launch's harts keep running until it has
completed (R217)? -/
def State.rotHolds (s : State) (t : Team) : Bool :=
  (s.launch t.launch).ring && s.teams.any (fun u => u.launch == t.launch &&
    (s.teamCmds u.id).any (fun c => c.op == 4 && !c.phase.waiting))

/-- Has the hart stopped at a U-mode boundary for the eviction of its team (R364)? A divert that is due comes first (R367). -/
def State.stoppedHart (s : State) (h : Hart) : Bool :=
  let t := s.team h.team
  t.phase == .evicting && h.mode == .u && h.atBoundary && h.divertDue.isNone && !s.rotHolds t

/-- May the hart go on, be it to take an event in a wait: its core and the package are powered and not throttled, external debug has
not halted it, and it has not stopped for an eviction (R2, R166, R364, R382, R383). -/
def State.runnable (s : State) (h : Hart) : Bool :=
  (match h.run with
    | .ready | .waiting _ => true
    | _ => false) &&
  !h.dbg.halted && (s.core (gidCore h.gid)).state == 0 && (s.core (gidCore h.gid)).power == .active &&
  s.firm.power == .active && !s.firm.throttle && !s.stoppedHart h

/-- Does the hart execute the instruction at its pc: it is ready, in a polled wait, or answered? -/
def Hart.executes (h : Hart) : Bool :=
  match h.run with
  | .ready => true
  | .waiting w => w.polled || h.answer.isSome
  | _ => false

/-- The harts that may run. -/
def State.runnables (s : State) : List Nat := (s.resident.filter (fun h => s.runnable h)).map Hart.gid

/-- The event of R77 that the focused hart takes at this boundary, in its order: divert, interrupts, user interrupts. A single step
keeps interrupts off unless dcsr.stepie is set. -/
def State.boundary (s : State) : Option Instr :=
  if !s.hart.atBoundary then none
  else if s.hart.divertDue.isSome && s.hart.mode == .u then some .divert
  else if s.hart.stepMasks then none
  else if s.nextInt.isSome then some .interruptEntry
  else if s.uiOpen then some .uiEntry
  else none

/-- After an instruction of a single-stepped hart, the hart halts again (R382). -/
def stepDone (g : Nat) (o : Out) : Out :=
  match o with
  | .next s => .next (if s.hart.gid = g then s.onHart Hart.afterStep else s)
  | o => o

/-! ## Events that may be due

Each stands with the object that it is about; one that is not due leaves the state as it is. Events of the outside world
stand in the agenda alone. -/

/-- The listed events of one object, if they may be due. -/
def eventsOf (due : Bool) (x : Nat) (l : List Instr) : List (Nat × Instr) := if due then l.map (fun i => (x, i)) else []

/-- Events of a core: its tile commands, its scrub, and the ends of its reset and test. -/
def coreMoves (bit : Bool) (c : Nat) (k : Core) : List (List (Nat × Instr)) :=
  [eventsOf (!k.queue.isEmpty || k.rst || k.landE.isSome || k.landS.isSome) c
      [.mma, .mmaSp, .mmaMx, .mmrot, .mmrotLanding, .accZero, .accLd, .accSt, .accCvt, .tmov, .ttrans, .tsync,
        .matrixCommandComplete, .matrixEngineHangReset, .matrixResetDone],
    eventsOf (!k.scrub.isEmpty) c [.shareScrub],
    eventsOf (k.state == 2) c [.coreResetDone],
    eventsOf (k.state == 3) c [.coreTestDone c bit]]

def State.coreEvents (s : State) : List (Nat × Instr) :=
  (s.cores.map (fun e => (coreMoves (s.freeBit 2401) e.1 e.2).flatten)).flatten

/-- Events that may end a hart's wait or bring it to life. -/
def Run.events (g : Nat) : Run → List (Nat × Instr)
  | .starting => [(g, .spawnedHartEligible)]
  | .cont _ => [(g, .continuationStart)]
  | .waiting (.rgrow _) => [(g, .registerPoolGrant)]
  | .waiting (.queueRetry _ _ false) => [(g, .queueRetry)]
  | .waiting (.far _) => [(g, .farAccessComplete)]
  | .waiting (.snoop l) => [(l, .backInvalidateResponse)]
  | .waiting .wfi => [(g, .twTimeout)]
  | .waiting (.zawrs true _) => [(g, .twTimeout)]
  | .waiting (.zawrs false _) => [(g, .wrsStoTimeout)]
  | _ => []

/-- Events of a hart: its stores, its streams, its mask window, its wait. -/
def Hart.moves (h : Hart) : List (List (Nat × Instr)) :=
  [eventsOf (h.cnt2 != 0) h.gid [.laneStorePerformed],
    eventsOf (h.cnt3 != 0) h.gid [.streamPushWritten h.gid 0],
    h.strm.map (fun e => (h.gid, Instr.streamRefill h.gid (BitVec.ofNat 2 e.1))),
    eventsOf (h.uiUntil != 0) h.gid [.uimaskWindowExpire],
    h.run.events h.gid]

def State.hartEvents (s : State) : List (Nat × Instr) := (s.places.map (fun h => h.moves.flatten)).flatten

/-- Events of a query. -/
def Query.moves (q : Query) : List (List (Nat × Instr)) :=
  [eventsOf true q.uid [.dredgeQueryAdmit, .dredgeRoundBoundary, .dredgeResultRecord, .dredgeCompletion],
    (q.toAsk.map (fun k => eventsOf true q.uid [.listRequest q.uid k, .evalRequest q.uid k])).flatten,
    (q.asked.map (fun k => eventsOf true q.uid [.listReply q.uid k, .evalReply q.uid k])).flatten]

def State.engineEvents (s : State) : List (Nat × Instr) :=
  [(s.msgs.map (fun m => eventsOf true m.uid [.mailboxDelivery, .mailboxSendTimeout])).flatten,
    s.xfers.map (fun x => (x.cluster, Instr.copyChunk)), s.xfers.map (fun x => (x.uid, Instr.copyComplete)),
    s.doms.map (fun d => (0, Instr.barrierPhaseComplete d.key)),
    s.qwaits.map (fun w => (w.qcb, Instr.queueWaiterServed)),
    s.parts.map (fun p => (tagLine p.pa, Instr.l2WriteQueueApply)),
    s.farBuf.map (fun e => (e.gid, Instr.laneStorePerformed)),
    (s.cores.map (fun e => e.2.lb.map (fun b => (b.gid, Instr.laneStorePerformed)))).flatten,
    s.hostHas.map (fun l => (l, Instr.backInvalidateResponse)),
    s.walks.map (fun w => (w.uid, Instr.pageWalkComplete)),
    (s.queries.map (fun q => q.moves.flatten)).flatten,
    (s.ships.map (fun x => eventsOf true x.uid
      [.saddS64, .saddN64, .minidx, .rowaddBf16, .hist32, .topk16, .bitset, .loadedRoutine, .routineTimeout, .shipReply])).flatten].flatten

/-- Events of a die: its shootdown and its Fuller. -/
def Die.moves (d : Nat) (k : Die) : List (List (Nat × Instr)) :=
  [eventsOf (!k.tlbdone) d [.tlbsdDone], eventsOf k.fuller.job.isSome d [.fullerArmed, .fullerUnit, .fullerDone]]

def State.packageEvents (s : State) : List (Nat × Instr) :=
  [eventsOf (decide (s.firm.step < 8)) 0 [.bringUp (s.freeBit 2400)],
    s.fe.lqqcb.map (fun e => (e.1, Instr.launchDequeue)),
    (s.teams.map (fun t => eventsOf true t.id
      [.spillTimeout, .teamStart, .teamComplete, .preEmption, .teamRestore, .strandedCommandDiscard])).flatten,
    (s.launches.map (fun l => eventsOf true l.id [.launchComplete, .deadlineExpiry, .wrapupBudgetKill])).flatten,
    eventsOf (!s.launches.isEmpty) 0 [.slackRecalc],
    s.fe.hang.map (fun e => (e.1, Instr.contextHang)),
    eventsOf s.fe.bpBusy 0 [.bpaddFlashWriteDone],
    eventsOf (wbit s.time.tmctl 16) 0 [.ppsOutputEdge],
    eventsOf (s.time.state == 1 || s.time.state == 2) 0 [.timeHoldover],
    eventsOf (s.firm.pldState == 1) 0 [.polderCreate, .polderExtend, .polderAttest, .pldcmdComplete],
    eventsOf (!s.firm.kfDone) 0 [.kflushDone],
    (s.dies.map (fun e => (Die.moves e.1 e.2).flatten)).flatten].flatten

/-- The events that may be due, and the harts that may run, as moves. -/
def State.moves (s : State) : List Move :=
  ((s.coreEvents ++ s.hartEvents ++ s.engineEvents ++ s.packageEvents).map (fun e => Move.event e.1 e.2)) ++
    s.runnables.map Move.focus

/-- The move that the machine makes of itself: any of those that it may make (log 2). A hart that is chosen runs. -/
def State.ownMove (s : State) : Option Move :=
  match s.moves with
  | [] => none
  | l => l[s.freeNat 2410 % l.length]?

/-- A move that a stopped package still makes: a reset, or the loss of its power (R386, R404). -/
def Move.restarts : Move → Bool
  | .event _ .moduleReset | .event _ .powerLoss | .event _ (.powerStateRequest .packageOff) => true
  | _ => false

/-! ## Passing time -/

/-- Time passes: the clock, device time, ports that go offline, the hang detector's marks (R301, R349, R401; log 3). -/
def State.pass (s : State) : State :=
  let e := Config.elapsed s.ticks
  let s := { s with ticks := s.ticks + 1, clock := s.clock + e, time := s.time.slewed e }
  s.portsTick.hangTick

end Sys2Proof.Machine
end

