-- ==== Sys2Proof/Machine/Step.lean ====
section
/-! DEFINITION. One step of the machine, and the state in which a given instruction runs next. -/
namespace Sys2Proof.Machine

/-- The outcome with time passed. -/
def ticked : Host.Outcome State Fault Refusal → Host.Outcome State Fault Refusal
  | .next s => .next s.pass
  | .fault r => .fault r
  | .refused r => .refused r

/-- Fetch the focused hart's next instruction and execute it. -/
def fetchRun (s : State) : Host.Outcome State Fault Refusal :=
  if s.trigHit .fetch s.hart.pc then .next (s.breakAt .fetch s.hart.pc)
  else match s.fetch with
    | (.error t, s) => .next (s.trap t)
    | (.ok (bits, len), s) =>
      exec (fetchedInstr s.hart.pc bits len) (s.onHart (fun h => { h with ir := bits, ilen := len }))

/-- The focused hart goes on with its instruction: one that waits looks again without another fetch, every other is fetched. -/
def goOn (s : State) : Host.Outcome State Fault Refusal :=
  if s.hart.run.isWaiting then exec (fetchedInstr s.hart.pc s.hart.ir s.hart.ilen) s else fetchRun s

/-- The focused hart takes the event that is due at its boundary, a wait included (R77), or else executes its next instruction; a
hart that may not run, or waits for another agent, does nothing. A queue request whose condition has been met is served before an event
(R289). -/
def runHart (s : State) : Host.Outcome State Fault Refusal :=
  if !s.runnable s.hart then .next s
  else
    let s := s.qMeets s.hart.gid
    match s.boundary with
    | some i => exec i s
    | none => if s.hart.executes then stepDone s.hart.gid (goOn s) else .next s

/-- One move. -/
def move (m : Move) (s : State) : Host.Outcome State Fault Refusal :=
  match m with
  | .run => runHart s
  | .focus g => runHart (s.focus g)
  | .event sel i => exec i { s with sel := sel }

/-- One step: the next move of the agenda, else a move of the machine's own, else only time passes. -/
def step (s : State) : Host.Outcome State Fault Refusal :=
  match s.agenda with
  | m :: rest => if s.stopped && !m.restarts then .fault .packageStopped else ticked (move m { s with agenda := rest })
  | [] =>
    if s.stopped then .fault .packageStopped
    else match s.ownMove with
      | some m => ticked (move m s)
      | none => .next s.pass

/-- The state in which the machine runs a given instruction next (log 4): a hart of a running team with whole shares, in U
mode, without translation, whose program counter is at the global pool's first byte, where the instruction lies. -/
def State.withFetchWord (s : State) (nbits w : Nat) : State :=
  let pc := 0x20000000000
  let h := Hart.fresh s.hart.gid
  { s with
    hart := { h with
      run := .ready, team := 1, pc := BitVec.ofNat 64 pc, fenceSeq := s.wlog.length, lalloc := 640
      csr := { h.csr with mstatus := 0x0000000A00002000#64 } }
    mem := memSetBytes s.mem pc (tableBytes nbits w)
    glob := 24
    teams := [⟨1, 1, 0, gidCore s.hart.gid, ⟨0, 256, 0, 32, 0, 262144, 0, 524288, 0, 524288, 0, 262144⟩, .running,
      false, false, false, false, none, 0, false, 0, 0, false, [], [], []⟩]
    launches := [⟨1, 0, [BitVec.ofNat 64 pc, 0, 0, 0, 0, 0, 0, 0, 0, 0, 0x0001000100000001#64, 0xA501#64, 0, 0, 0, 0], [],
      0, some 0, false, false, [], none⟩]
    firm := { s.firm with step := 8 }
    agenda := [.run] }

end Sys2Proof.Machine
end

