-- ==== Sys2Proof/Safety.lean ====
section
/-! DEFINITION. The terms in which claims are stated: what it is for an instruction to complete, to retire, to trap, and what
it leaves unchanged. -/
namespace Sys2Proof.Safety
open Sys2Proof.Machine

/-- The step completes: it answers a next state. -/
def Completes (s : State) : Prop := ∃ t, step s = .next t

/-- The instruction answers a next state, and that state satisfies `Q`. -/
def Gives (i : Instr) (s : State) (Q : State → Prop) : Prop := ∃ t, exec i s = .next t ∧ Q t

/-- The focused hart becomes a `k` that satisfies `Q` and then retires in sequence; no other hart, no memory and nothing else of
the machine changes. -/
def Retires (s : State) (Q : Hart → Prop) (t : State) : Prop := ∃ k, t = { s with hart := k.retire } ∧ Q k

/-- The same with a jump to `a`. -/
def Jumps (s : State) (a : Word) (Q : Hart → Prop) (t : State) : Prop :=
  ∃ k, t = { s with hart := k.retireTo a } ∧ Q k

/-- The focused hart takes a synchronous trap; nothing else of the machine changes. -/
def Traps (s : State) (cause sub : Nat) (tval : Word) (t : State) : Prop :=
  t = { s with hart := s.hart.takeTrap ⟨cause, sub, tval⟩ }

/-- Of a hart, x register `rd` alone changes, to `v`; x0 stays. -/
def XWritten (h : Hart) (rd : XReg) (v : Word) (k : Hart) : Prop :=
  k = { h with x := k.x } ∧ ∀ r, k.getX r = if r = rd ∧ r ≠ 0 then v else h.getX r

/-- Of a hart, mask register `md` alone changes, to `v`, and the flags accrue what the listed lanes raise. -/
def MaskWritten (h : Hart) (md : MReg) (v : Mask) (k : Hart) : Prop :=
  k = { h with m := k.m } ∧ ∀ r, k.getM r = if r = md then v else h.getM r

/-- The flags that lanes raise accrue in fflags; nothing else changes. -/
def Accrues (h : Hart) (act : Mask) (fl : Nat → BitVec 5) (k : Hart) : Prop :=
  k = { h with csr := { h.csr with fflags := k.csr.fflags } } ∧
    ∀ b, k.csr.fflags.getLsbD b =
      (h.csr.fflags.getLsbD b || (List.range 32).any (fun i => act.getLsbD i && (fl i).getLsbD b))

/-- The listed lane registers are allocated to the hart, and no stream is bound to them (R66, R142). -/
def LanesFree (s : State) (rs : List Nat) : Prop :=
  ∀ r ∈ rs, r < s.hart.lalloc ∧ s.hart.boundSlot false r = none ∧ s.hart.boundSlot true r = none

/-- Of a hart, the active lanes of the `n` lane registers from `vd` on alone change, to values that `R` admits (register within
the group, lane, value), and the flags accrue. -/
def LanesWritten (h : Hart) (act : Mask) (vd n : Nat) (R : Nat → Nat → Lane → Prop) (fl : Nat → BitVec 5) (k : Hart) : Prop :=
  Accrues h act fl { k with v := h.v } ∧
    ∀ r i, i < 32 → if vd ≤ r ∧ r < vd + n ∧ act.getLsbD i then R (r - vd) i (k.getV r i) else k.getV r i = h.getV r i

/-- A lane word whose active lanes each write one register, with the value `f` and the flags `fl` of the lane. -/
def LaneOp (s : State) (p : LaneHdr) (vd : LOp) (f : Nat → Lane) (fl : Nat → BitVec 5) (t : State) : Prop :=
  Retires s (LanesWritten s.hart (s.hart.active p) vd.toNat 1 (fun _ i v => v = f i) fl) t

/-- A lane word that computes without flags. -/
def LaneInt (s : State) (p : LaneHdr) (vd : LOp) (f : Nat → Lane) (t : State) : Prop := LaneOp s p vd f (fun _ => 0) t

/-- A lane word whose active lanes each write a pair, the low half first. -/
def LanePair (s : State) (p : LaneHdr) (vd : LOp) (f : Nat → Word) (fl : Nat → BitVec 5) (t : State) : Prop :=
  Retires s (LanesWritten s.hart (s.hart.active p) vd.toNat 2
    (fun j i v => v = ((f i) >>> (32 * j)).setWidth 32) fl) t

/-- A lane word that writes a mask register: bit `i` is the result of lane `i` where it is active, else 0 (R95). -/
def LaneTest (s : State) (p : LaneHdr) (md : MReg) (c : Nat → Bool) (fl : Nat → BitVec 5) (t : State) : Prop :=
  Retires s (fun k => ∃ v : Mask, (∀ i, i < 32 → v.getLsbD i = ((s.hart.active p).getLsbD i && c i)) ∧
    ∃ k1, MaskWritten s.hart md v k1 ∧ Accrues k1 (s.hart.active p) fl k) t

end Sys2Proof.Safety
end

