-- ==== Sys2Proof/Certificates/Slice0/Obligations.lean ====
section
/-! DEFINITION. The statements for the provers. -/
open Sys2Proof Sys2Proof.Machine Sys2Proof.Safety

/-! ## Lane arithmetic -/

/-- Each element of a packed result is the operation on the elements of the operands, modulo 2^n (R11, R101). -/
def Claims.Packed (t : Ity) (f : Int → Int → Int) (a b r : Lane) : Prop :=
  ∀ j, j < 32 / (ityFmt t).n →
    r.toNat >>> ((ityFmt t).n * j) % 2 ^ (ityFmt t).n =
      (ityFmt t).wrap (f ((ityFmt t).val (a.toNat >>> ((ityFmt t).n * j) % 2 ^ (ityFmt t).n))
        ((ityFmt t).val (b.toNat >>> ((ityFmt t).n * j) % 2 ^ (ityFmt t).n)))

/-- A packed integer word writes, in each active lane, elements that are `f` of the operands' elements. -/
def Claims.PackedOp (s : State) (p : LaneHdr) (t : Ity) (vd va vb : LOp) (f : Int → Int → Int) (u : State) : Prop :=
  Retires s (LanesWritten s.hart (s.hart.active p) vd.toNat 1
    (fun _ i v => Claims.Packed t f (s.hart.src32 va i) (s.hart.src32 vb i) v) (fun _ => 0)) u

/-- R101: the integer two-source words on elements of 32, 16 and 8 bits complete with every element of every active lane as the rule
computes it, every inactive lane and everything else unchanged. -/
def Claims.PackedIntegerArithmetic : Prop :=
  ∀ (p : LaneHdr) (t : Ity) (vd va vb : LOp) (s : State), t.is64 = false →
    LanesFree s (regsOf va 1 ++ regsOf vb 1 ++ [vd.toNat]) →
    Gives (.vadd p t vd va vb) s (Claims.PackedOp s p t vd va vb (fun a b => a + b)) ∧
    Gives (.vsub p t vd va vb) s (Claims.PackedOp s p t vd va vb (fun a b => a - b)) ∧
    Gives (.vmul p t vd va vb) s (Claims.PackedOp s p t vd va vb (fun a b => a * b)) ∧
    Gives (.vmulh p t vd va vb) s (Claims.PackedOp s p t vd va vb (fun a b => (a * b) / 2 ^ (ityFmt t).n)) ∧
    Gives (.vmin p t vd va vb) s (Claims.PackedOp s p t vd va vb (fun a b => min a b)) ∧
    Gives (.vmax p t vd va vb) s (Claims.PackedOp s p t vd va vb (fun a b => max a b)) ∧
    Gives (.vabsd p t vd va vb) s (Claims.PackedOp s p t vd va vb (fun a b => |a - b|)) ∧
    Gives (.vadds p t vd va vb) s (Claims.PackedOp s p t vd va vb (fun a b => (ityFmt t).sat (a + b))) ∧
    Gives (.vsubs p t vd va vb) s (Claims.PackedOp s p t vd va vb (fun a b => (ityFmt t).sat (a - b)))

/-- R101: the 64-bit forms of `vadd` and `vsub` write pairs. -/
def Claims.PairAddSub : Prop :=
  ∀ (p : LaneHdr) (t : Ity) (vd va vb : LOp) (s : State), t.is64 = true →
    LanesFree s (regsOf va 2 ++ regsOf vb 2 ++ [vd.toNat, vd.toNat + 1]) →
    Gives (.vadd p t vd va vb) s (LanePair s p vd (fun i => s.hart.src64 va i + s.hart.src64 vb i) (fun _ => 0)) ∧
    Gives (.vsub p t vd va vb) s (LanePair s p vd (fun i => s.hart.src64 va i - s.hart.src64 vb i) (fun _ => 0))

/-- `Claims.PackedIntegerArithmetic`, `Claims.PairAddSub` together. -/
def Obligations.PackedIntegerWords : Prop :=
  Claims.PackedIntegerArithmetic ∧ Claims.PairAddSub

/-- R102, R105: the three-source integer words. -/
def Obligations.ThreeSourceIntegerWords : Prop :=
  ∀ (p : LaneHdr) (vd va vb vc : LOp) (s : State),
    LanesFree s (regsOf va 1 ++ regsOf vb 1 ++ regsOf vc 1 ++ [vd.toNat]) →
    let a := s.hart.src32 va
    let b := s.hart.src32 vb
    let c := s.hart.src32 vc
    Gives (.vmad p false vd va vb vc) s
      (LaneInt s p vd (fun i => BitVec.ofInt 32 ((a i).toInt * (b i).toInt + (c i).toInt))) ∧
    Gives (.vmad p true vd va vb vc) s (LaneInt s p vd (fun i => a i * b i + c i)) ∧
    Gives (.vmadh p false vd va vb vc) s
      (LaneInt s p vd (fun i => BitVec.ofInt 32 ((a i).toInt * (b i).toInt / 2 ^ 32 + (c i).toInt))) ∧
    Gives (.vmadh p true vd va vb vc) s
      (LaneInt s p vd (fun i => BitVec.ofNat 32 ((a i).toNat * (b i).toNat / 2 ^ 32 + (c i).toNat))) ∧
    Gives (.vsel p vd va vb vc) s
      (LaneInt s p vd (fun i => (a i &&& c i) ||| (b i &&& ~~~(c i)))) ∧
    Gives (.vfunnel p vd va vb vc) s
      (LaneInt s p vd (fun i => ((a i ++ b i) >>> ((c i).toNat % 32)).extractLsb' 0 32)) ∧
    Gives (.vbfi p vd va vb vc) s
      (LaneInt s p vd (fun i =>
        let fm : Lane := BitVec.ofNat 32 ((2 ^ min ((c i).extractLsb' 8 6).toNat 32 - 1) <<< ((c i).toNat % 32))
        (b i &&& ~~~fm) ||| ((a i <<< ((c i).toNat % 32)) &&& fm)))

/-- R104: the two-source bit words; R106: `vperm`, byte by byte. -/
def Claims.BitWords : Prop :=
  ∀ (p : LaneHdr) (vd va vb : LOp) (s : State), LanesFree s (regsOf va 1 ++ regsOf vb 1 ++ [vd.toNat]) →
    let a := s.hart.src32 va
    let b := s.hart.src32 vb
    Gives (.vand p vd va vb) s (LaneInt s p vd (fun i => a i &&& b i)) ∧
    Gives (.vor p vd va vb) s (LaneInt s p vd (fun i => a i ||| b i)) ∧
    Gives (.vxor p vd va vb) s (LaneInt s p vd (fun i => a i ^^^ b i)) ∧
    Gives (.vandn p vd va vb) s (LaneInt s p vd (fun i => a i &&& ~~~(b i))) ∧
    Gives (.vsll p vd va vb) s (LaneInt s p vd (fun i => a i <<< ((b i).toNat % 32))) ∧
    Gives (.vsrl p vd va vb) s (LaneInt s p vd (fun i => a i >>> ((b i).toNat % 32))) ∧
    Gives (.vsra p vd va vb) s (LaneInt s p vd (fun i => (a i).sshiftRight ((b i).toNat % 32))) ∧
    Gives (.vrol p vd va vb) s (LaneInt s p vd (fun i =>
      let n := (b i).toNat % 32
      (a i <<< n) ||| (a i >>> ((32 - n) % 32)))) ∧
    Gives (.vperm p vd va vb) s (Retires s (LanesWritten s.hart (s.hart.active p) vd.toNat 1
      (fun _ i v => ∀ j, j < 4 →
        let k := (b i).toNat / 16 ^ j % 16
        let byte := (a i).toNat / 256 ^ (k % 4) % 256
        v.toNat / 256 ^ j % 256 =
          if k / 4 = 0 then byte else if k / 4 = 1 then 0 else if k / 4 = 2 then (if byte < 128 then 0 else 255) else 255)
      (fun _ => 0)))

/-- R107, R114: the integer unary words and the bitwise float ones. -/
def Claims.UnaryWords : Prop :=
  ∀ (p : LaneHdr) (vd va : LOp) (s : State), LanesFree s (regsOf va 1 ++ [vd.toNat]) →
    let a := s.hart.src32 va
    let tells (R : Lane → Lane → Prop) : State → Prop := Retires s (LanesWritten s.hart (s.hart.active p) vd.toNat 1
      (fun _ i v => R (a i) v) (fun _ => 0))
    Gives (.vmov p vd va) s (LaneInt s p vd a) ∧
    Gives (.vnot p vd va) s (LaneInt s p vd (fun i => ~~~(a i))) ∧
    Gives (.vbrev p vd va) s (tells (fun x v => ∀ b, b < 32 → v.getLsbD (31 - b) = x.getLsbD b)) ∧
    Gives (.vclz p vd va) s (tells (fun x v => v.toNat ≤ 32 ∧ x.toNat < 2 ^ (32 - v.toNat) ∧
      (v.toNat < 32 → 2 ^ (31 - v.toNat) ≤ x.toNat))) ∧
    Gives (.vctz p vd va) s (tells (fun x v => v.toNat ≤ 32 ∧ (∀ b, b < v.toNat → x.getLsbD b = false) ∧
      (v.toNat < 32 → x.getLsbD v.toNat = true))) ∧
    Gives (.vpopc p vd va) s (tells (fun x v => v.toNat = (List.range 32).countP (fun b => x.getLsbD b))) ∧
    Gives (.vneg p .s32 vd va) s (LaneInt s p vd (fun i => - a i)) ∧
    Gives (.vabs p .s32 vd va) s (LaneInt s p vd (fun i => BitVec.ofInt 32 |(a i).toInt|)) ∧
    Gives (.vneg p .f32 vd va) s (LaneInt s p vd (fun i => a i ^^^ 0x80000000#32)) ∧
    Gives (.vabs p .f32 vd va) s (LaneInt s p vd (fun i => a i &&& 0x7FFFFFFF#32)) ∧
    ∀ t : NegTy, (t = .h2 ∨ t = .b2) →
      Gives (.vneg p t vd va) s (LaneInt s p vd (fun i => a i ^^^ 0x80008000#32)) ∧
      Gives (.vabs p t vd va) s (LaneInt s p vd (fun i => a i &&& 0x7FFF7FFF#32))

/-- R103: the immediate words. -/
def Claims.ImmediateWords : Prop :=
  ∀ (p : LaneHdr) (imm : BitVec 20) (sh : BitVec 5) (vd va : LOp) (s : State),
    LanesFree s (regsOf va 1 ++ [vd.toNat]) →
    let a := s.hart.src32 va
    let m : Lane := BitVec.ofInt 32 imm.toInt
    Gives (.vmovi p imm vd) s (LaneInt s p vd (fun _ => m)) ∧
    Gives (.vaddi p imm vd va) s (LaneInt s p vd (fun i => a i + m)) ∧
    Gives (.vandi p imm vd va) s (LaneInt s p vd (fun i => a i &&& m)) ∧
    Gives (.vori p imm vd va) s (LaneInt s p vd (fun i => a i ||| m)) ∧
    Gives (.vxori p imm vd va) s (LaneInt s p vd (fun i => a i ^^^ m)) ∧
    Gives (.vslli p sh vd va) s (LaneInt s p vd (fun i => a i <<< sh.toNat)) ∧
    Gives (.vsrli p sh vd va) s (LaneInt s p vd (fun i => a i >>> sh.toNat)) ∧
    Gives (.vsrai p sh vd va) s (LaneInt s p vd (fun i => (a i).sshiftRight sh.toNat)) ∧
    Gives (.vmuli p imm vd va) s (LaneInt s p vd (fun i => a i * m))

/-- `Claims.BitWords`, `Claims.UnaryWords`, `Claims.ImmediateWords` together. -/
def Obligations.BitUnaryImmediateWords : Prop :=
  Claims.BitWords ∧ Claims.UnaryWords ∧ Claims.ImmediateWords

/-- A finite value as a rational number. -/
def Claims.ratOf : FVal → Option ℚ
  | .fin n m e => some ((if n then -1 else 1) * (m : ℚ) * (2 : ℚ) ^ e)
  | _ => none

/-- The value of a magnitude pattern. -/
def Claims.magVal (f : Fmt) (c : Nat) : ℚ := (Claims.ratOf (fval f c)).getD 0

/-- Does the mode round a magnitude of the sign down, or up? -/
def Claims.down (rm : Rm) (neg : Bool) : Prop := rm = .rtz ∨ (rm = .rdn ∧ neg = false) ∨ (rm = .rup ∧ neg = true)
def Claims.up (rm : Rm) (neg : Bool) : Prop := (rm = .rdn ∧ neg = true) ∨ (rm = .rup ∧ neg = false)

/-- A finite magnitude pattern is what rounding `x` gives: the greatest value not above it, the least not below it, or the nearest,
a tie going to the even pattern or, under RMM, to the greater value. -/
def Claims.Picks (f : Fmt) (rm : Rm) (neg : Bool) (x : ℝ) (mag : Nat) : Prop :=
  let v (c : Nat) : ℝ := (Claims.magVal f c : ℝ)
  mag ≤ f.maxFinite ∧
  (Claims.down rm neg → v mag ≤ x ∧ ∀ c, c ≤ f.maxFinite → v c ≤ x → v c ≤ v mag) ∧
  (Claims.up rm neg → x ≤ v mag ∧ ∀ c, c ≤ f.maxFinite → x ≤ v c → v mag ≤ v c) ∧
  (rm = .rne ∨ rm = .rmm → ∀ c, c ≤ f.maxFinite → |v mag - x| ≤ |v c - x| ∧
    (|v mag - x| = |v c - x| → c ≠ mag → if rm = .rmm then v c < v mag else mag % 2 = 0))

/-- Rounding the magnitude `x` goes past the largest finite value, as if the exponent range went on. -/
def Claims.Past (f : Fmt) (rm : Rm) (neg : Bool) (x : ℝ) : Prop :=
  let top : ℝ := (Claims.magVal f f.maxFinite : ℝ)
  let next : ℝ := 2 * top - (Claims.magVal f (f.maxFinite - 1) : ℝ)
  (Claims.down rm neg ∧ next ≤ x) ∨ (Claims.up rm neg ∧ top < x) ∨
  ((rm = .rne ∨ rm = .rmm) ∧ ((top + next) / 2 < x ∨ ((top + next) / 2 = x ∧ (rm = .rmm ∨ f.maxFinite % 2 = 1))))

/-- What is delivered past the largest finite value (R18). -/
def Claims.overflowBits (f : Fmt) (rm : Rm) (sat neg : Bool) : Nat :=
  if sat = true ∨ rm = .rtz ∨ (rm = .rdn ∧ neg = false) ∨ (rm = .rup ∧ neg = true) then f.maxFinite
  else if f = .e4m3 then 0x7F else if f = .e2m1 then 7 else f.infBits

/-- A result is the magnitude `x`, with the sign, rounded once, the overflow rule of R18 applied; `past` and `inexact` say which
flags it raises. -/
def Claims.Rounded (f : Fmt) (rm : Rm) (sat neg : Bool) (x : ℝ) (bits : Nat) (past inexact : Prop) : Prop :=
  (past ↔ Claims.Past f rm neg x) ∧
  (Claims.Past f rm neg x → inexact ∧ bits = signBits f neg + Claims.overflowBits f rm sat neg) ∧
  (¬Claims.Past f rm neg x → ∃ mag, bits = signBits f neg + mag ∧ Claims.Picks f rm neg x mag ∧ (inexact ↔ (Claims.magVal f mag : ℝ) ≠ x))

/-- The magnitude, rounded to the format's precision as if its exponents went below the smallest, is less than the smallest normal
(R23). -/
def Claims.Tiny (f : Fmt) (rm : Rm) (neg : Bool) (x : ℝ) : Prop :=
  let w : ℝ := (2 : ℝ) ^ f.emin
  (Claims.down rm neg ∧ x < w) ∨ (Claims.up rm neg ∧ x ≤ w * (1 - 1 / 2 ^ (f.manBits + 1))) ∨
  ((rm = .rne ∨ rm = .rmm) ∧ x < w * (1 - 1 / 2 ^ (f.manBits + 2)))

/-- A rounded result with the flags of IEEE 754: overflow, inexactness, and underflow where the result is tiny and inexact. -/
def Claims.RoundedRes (f : Fmt) (rm : Rm) (sat neg : Bool) (x : ℝ) (r : FRes) : Prop :=
  Claims.Rounded f rm sat neg x r.bits (r.flags.getLsbD 2 = true) (r.flags.getLsbD 0 = true) ∧
  (r.flags.getLsbD 1 = true ↔ r.flags.getLsbD 0 = true ∧ Claims.Tiny f rm neg x) ∧ r.flags.toNat < 8

/-- The flush of a narrow result below the smallest normal (R16, R23). -/
def Claims.Flushed (f : Fmt) (r out : FRes) : Prop :=
  let mag := r.bits % f.signWeight
  if (f = .f16 ∨ f = .bf16) ∧ mag ≠ 0 ∧ mag < 2 ^ f.manBits then out = ⟨r.bits - mag, r.flags ||| flUF ||| flNX⟩ else out = r

/-- The exact nonzero value `t`, rounded in the mode, and flushed where the format is narrow. -/
def Claims.Delivers (f : Fmt) (rm : Rm) (t : ℚ) (out : FRes) : Prop :=
  ∃ r, Claims.RoundedRes f rm false (decide (t < 0)) ((|t| : ℚ) : ℝ) r ∧ Claims.Flushed f r out

/-- R18, R23, R110 to R112, R115, R121: the sum, the product and the multiply-add of finite values, the dot products, and the
reciprocal and the square roots deliver the exact value rounded once, in the mode of the instruction; a sum of nonzero values that
comes to zero exactly is +0, under RDN −0. -/
def Claims.FloatRounding : Prop :=
  (∀ (f : Fmt) (rm : Rm) (sat neg : Bool) (m : Nat) (e : Int), rm ≠ .dyn → m ≠ 0 →
    Claims.RoundedRes f rm sat neg (m * (2 : ℝ) ^ e) (roundTo f rm sat neg m e false)) ∧
  (∀ (f : Fmt) (rm : Rm) (a b c : Nat) (p q t : ℚ), (f = .f64 ∨ f = .f32 ∨ f = .f16 ∨ f = .bf16) → rm ≠ .dyn →
    Claims.ratOf (fin f a) = some p → Claims.ratOf (fin f b) = some q → Claims.ratOf (fin f c) = some t →
    let zero : FRes := ⟨signBits f (rm == .rdn), 0⟩
    (p * q ≠ 0 → Claims.Delivers f rm (p * q) (fmul f rm a b)) ∧
    (p * q = 0 → fmul f rm a b = ⟨signBits f ((fin f a).neg != (fin f b).neg), 0⟩) ∧
    (∀ sub : Bool, let s : ℚ := p + (if sub then -q else q)
      (s ≠ 0 → Claims.Delivers f rm s (fadd f rm sub a b)) ∧ (s = 0 → p ≠ 0 → fadd f rm sub a b = zero)) ∧
    (∀ negP negC : Bool, let s : ℚ := (if negP then -(p * q) else p * q) + (if negC then -t else t)
      (s ≠ 0 → Claims.Delivers f rm s (ffma f rm negP negC a b c)) ∧
      (s = 0 → t ≠ 0 → ffma f rm negP negC a b c = zero))) ∧
  (∀ (f : Fmt) (n : Nat) (a b c : Lane) (p q : Nat → ℚ) (t : ℚ), (f = .f16 ∨ f = .bf16 ∨ f = .e4m3 ∨ f = .e5m2) → f.bits * n = 32 →
    (∀ j, j < n → Claims.ratOf (fin f (a.toNat / 2 ^ (f.bits * j) % 2 ^ f.bits)) = some (p j) ∧
      Claims.ratOf (fin f (b.toNat / 2 ^ (f.bits * j) % 2 ^ f.bits)) = some (q j)) →
    Claims.ratOf (fval .f32 c.toNat) = some t →
    let s : ℚ := t + ∑ j ∈ Finset.range n, p j * q j
    s ≠ 0 → ∃ r, Claims.RoundedRes .f32 .rne false (decide (s < 0)) ((|s| : ℚ) : ℝ) r ∧
      dotFloat f n a b c = (BitVec.ofNat 32 r.bits, r.flags)) ∧
  (∀ (f : Fmt) (rm : Rm) (a : Nat) (p : ℚ), (f = .f64 ∨ f = .f32) → rm ≠ .dyn → Claims.ratOf (fval f a) = some p →
    (0 < p → Claims.RoundedRes f rm false false (Real.sqrt (p : ℝ)) (fsqrt f rm a) ∧
      Claims.RoundedRes f .rne false false (1 / Real.sqrt (p : ℝ)) (frsqrt f a)) ∧
    (p ≠ 0 → Claims.RoundedRes f .rne false (decide (p < 0)) (|1 / (p : ℝ)|) (frcp f a)))

/-- R110 to R112: the special cases of the multiply-adds, sums and products: the canonical NaN of a NaN, of ∞ × 0 and of ∞ − ∞, with
NV where the case is invalid; infinities; and the sign of a sum of zeros. -/
def Claims.FloatSpecials : Prop :=
  ∀ (f : Fmt) (rm : Rm) (negP negC : Bool) (a b c : Nat), (f = .f32 ∨ f = .f16 ∨ f = .bf16) →
    let x := fin f a
    let y := fin f b
    let z := fin f c
    let sig := x.isSig || y.isSig || z.isSig
    let r := ffma f rm negP negC a b c
    let invalid := mulVal x y = none
    let sign := (x.neg != y.neg) != negP
    ((x.isNan = true ∨ y.isNan = true ∨ z.isNan = true ∨ invalid) →
      r.bits = f.canon ∧ r.flags = if invalid then flNV else nvIf sig) ∧
    (∀ n, mulVal x y = some (.inf n) →
      (z = .inf (!((n != negP) != negC)) → r = ⟨f.canon, flNV⟩) ∧
      (z.isNan = false → z ≠ .inf (!((n != negP) != negC)) → r = ⟨signBits f (n != negP) + f.infBits, 0⟩)) ∧
    (∀ n, (∃ k m e, mulVal x y = some (.fin k m e)) → z = .inf n → r = ⟨signBits f (n != negC) + f.infBits, 0⟩) ∧
    ((∃ k e, mulVal x y = some (.fin k 0 e)) → z.isZero = true →
      r = ⟨signBits f (if sign = (z.neg != negC) then sign else rm == .rdn), 0⟩) ∧
    (∀ sub, ((x.isNan = true ∨ y.isNan = true) → fadd f rm sub a b = ⟨f.canon, nvIf (x.isSig || y.isSig)⟩) ∧
      (∀ n, x = .inf n → y = .inf (!(n != sub)) → fadd f rm sub a b = ⟨f.canon, flNV⟩) ∧
      (x.isZero = true → y.isZero = true →
        fadd f rm sub a b = ⟨signBits f (if x.neg = (y.neg != sub) then x.neg else rm == .rdn), 0⟩)) ∧
    ((x.isNan = true ∨ y.isNan = true) → fmul f rm a b = ⟨f.canon, nvIf (x.isSig || y.isSig)⟩) ∧
    (invalid → fmul f rm a b = ⟨f.canon, flNV⟩) ∧
    (∀ n, mulVal x y = some (.inf n) → fmul f rm a b = ⟨signBits f n + f.infBits, 0⟩)

/-- A value that is no NaN stands at `p` in the order of the compares. -/
def Claims.ExtIs (x : FVal) (p : EReal) : Prop :=
  match x with
  | .nan _ => False
  | .inf n => p = if n then ⊥ else ⊤
  | .fin n m e => p = ((((if n then -1 else 1) * (m : ℝ) * (2 : ℝ) ^ e : ℝ)) : EReal)

/-- R113: minimum and maximum of patterns whose subnormals have been flushed where the type is narrow: the canonical NaN of two
NaNs, the other input where one is a NaN, −0 below +0, and NV for a signalling NaN. -/
def Claims.MinimaAndMaxima : Prop :=
  ∀ (f : Fmt) (mx : Bool) (a b : Nat), (f = .f32 ∨ f = .f16 ∨ f = .bf16) →
    let a' := if f.narrow then flushBits f a else a
    let b' := if f.narrow then flushBits f b else b
    let x := fval f a'
    let y := fval f b'
    let r := fminmax f mx a b
    r.flags = nvIf (x.isSig || y.isSig) ∧
    (x.isNan = true → y.isNan = true → r.bits = f.canon) ∧
    (x.isNan = true → y.isNan = false → r.bits = b') ∧
    (x.isNan = false → y.isNan = true → r.bits = a') ∧
    (x.isZero = true → y.isZero = true → x.neg ≠ y.neg → r.bits = if x.neg = mx then b' else a') ∧
    (∀ p q, Claims.ExtIs x p → Claims.ExtIs y q → p < q → r.bits = if mx then b' else a') ∧
    (∀ p q, Claims.ExtIs x p → Claims.ExtIs y q → q < p → r.bits = if mx then a' else b')

/-- An integer is what rounding `q` to an integral value gives in the mode. -/
def Claims.IntPicks (rm : Rm) (q : ℚ) (z : Int) : Prop :=
  match rm with
  | .rtz => z = if 0 ≤ q then ⌊q⌋ else ⌈q⌉
  | .rdn => z = ⌊q⌋
  | .rup => z = ⌈q⌉
  | .rmm => |(z : ℚ) - q| ≤ 1 / 2 ∧ (|(z : ℚ) - q| = 1 / 2 → |q| < |(z : ℚ)|)
  | .rne | .dyn => |(z : ℚ) - q| ≤ 1 / 2 ∧ (|(z : ℚ) - q| = 1 / 2 → z % 2 = 0)

/-- R121, R122, R124, R125: the special and the exact cases of the function unit; `vsin` and `vtanh` are odd and `vcos` is even;
`vfrac` lies in [0, 1) and `vrnd` raises NV alone; the class of a pattern. -/
def Claims.FunctionUnitCases : Prop :=
  (∀ b, (fval .f32 b).isNan = true → ∀ rm, let r : FRes := ⟨Fmt.canon .f32, nvIf (fval .f32 b).isSig⟩
    frcp .f32 b = r ∧ frsqrt .f32 b = r ∧ fsqrt .f32 rm b = r ∧ frnd .f32 rm b = r ∧ ffrac b = r) ∧
  (∀ b : BitVec 32, (fval .f32 b.toNat).isNan = true → let r : FRes := ⟨Fmt.canon .f32, nvIf (fval .f32 b.toNat).isSig⟩
    fexp2 b = r ∧ flog2 b = r ∧ fsin b = r ∧ fcos b = r ∧ ftanh b = r) ∧
  (frcp .f32 0 = ⟨0x7F800000, flDZ⟩ ∧ frcp .f32 0x80000000 = ⟨0xFF800000, flDZ⟩ ∧
    frcp .f32 0x7F800000 = ⟨0, 0⟩ ∧ frcp .f32 0xFF800000 = ⟨0x80000000, 0⟩) ∧
  (frsqrt .f32 0 = ⟨0x7F800000, flDZ⟩ ∧ frsqrt .f32 0x80000000 = ⟨0xFF800000, flDZ⟩ ∧ frsqrt .f32 0x7F800000 = ⟨0, 0⟩) ∧
  (∀ rm, fsqrt .f32 rm 0 = ⟨0, 0⟩ ∧ fsqrt .f32 rm 0x80000000 = ⟨0x80000000, 0⟩ ∧ fsqrt .f32 rm 0x7F800000 = ⟨0x7F800000, 0⟩) ∧
  (∀ b rm, (fval .f32 b).isNan = false → (fval .f32 b).isZero = false → (fval .f32 b).neg = true →
    frsqrt .f32 b = ⟨Fmt.canon .f32, flNV⟩ ∧ fsqrt .f32 rm b = ⟨Fmt.canon .f32, flNV⟩) ∧
  (fexp2 0xFF800000#32 = ⟨0, 0⟩ ∧ fexp2 0x7F800000#32 = ⟨0x7F800000, 0⟩ ∧
    (∀ b q, Claims.ratOf (fval .f32 b.toNat) = some q → 128 ≤ q → fexp2 b = ⟨0x7F800000, flOF ||| flNX⟩) ∧
    ∀ b (n : Int), -149 ≤ n → n ≤ 127 → Claims.ratOf (fval .f32 b.toNat) = some (n : ℚ) →
      Claims.ratOf (fval .f32 (fexp2 b).bits) = some ((2 : ℚ) ^ n) ∧ (fexp2 b).flags = 0) ∧
  (flog2 0#32 = ⟨0xFF800000, flDZ⟩ ∧ flog2 0x80000000#32 = ⟨0xFF800000, flDZ⟩ ∧ flog2 0x7F800000#32 = ⟨0x7F800000, 0⟩ ∧
    flog2 0xFF800000#32 = ⟨Fmt.canon .f32, flNV⟩ ∧
    (∀ b q, Claims.ratOf (fval .f32 b.toNat) = some q → q < 0 → flog2 b = ⟨Fmt.canon .f32, flNV⟩) ∧
    ∀ b (n : Int), Claims.ratOf (fval .f32 b.toNat) = some ((2 : ℚ) ^ n) →
      Claims.ratOf (fval .f32 (flog2 b).bits) = some (n : ℚ) ∧ (flog2 b).flags = 0) ∧
  (∀ b n, fval .f32 b.toNat = .inf n → fsin b = ⟨Fmt.canon .f32, flNV⟩ ∧ fcos b = ⟨Fmt.canon .f32, flNV⟩ ∧
    ftanh b = ⟨signBits .f32 n + 0x3F800000, 0⟩) ∧
  (∀ b q, Claims.ratOf (fval .f32 b.toNat) = some q →
    (∀ k : Int, q = k / 2 → fsin b = ⟨signBits .f32 (fval .f32 b.toNat).neg, 0⟩ ∧
      fcos b = ⟨signBits .f32 (k % 2 == 1) + 0x3F800000, 0⟩) ∧
    (∀ k : Int, q = k / 2 + 1 / 4 → fsin b = ⟨signBits .f32 (k % 2 == 1) + 0x3F800000, 0⟩ ∧ fcos b = ⟨0, 0⟩) ∧
    (|q| ≤ 1 / 4096 → ftanh b = ⟨b.toNat, 0⟩) ∧ (9 ≤ |q| → ftanh b = ⟨signBits .f32 (fval .f32 b.toNat).neg + 0x3F800000, 0⟩) ∧
    (fsin (b ^^^ 0x80000000#32)).lane = ((fsin b).lane.1 ^^^ 0x80000000#32, (fsin b).flags) ∧
    fcos (b ^^^ 0x80000000#32) = fcos b ∧
    (ftanh (b ^^^ 0x80000000#32)).lane = ((ftanh b).lane.1 ^^^ 0x80000000#32, (ftanh b).flags)) ∧
  (∀ b, (∀ n, fval .f32 b = .inf n → ffrac b = ⟨Fmt.canon .f32, flNV⟩) ∧
    (∀ q, Claims.ratOf (fval .f32 b) = some q → (ffrac b).bits ≤ 0x3F7FFFFF ∧ (∀ k : Int, q = k → ffrac b = ⟨0, 0⟩)) ∧
    ∀ rm, (frnd .f32 rm b).flags = nvIf (fval .f32 b).isSig) ∧
  (∀ b q rm, b < 2 ^ 32 → Claims.ratOf (fval .f32 b) = some q → rm ≠ .dyn →
    (Int.fract q ≠ 0 → ∃ r, Claims.RoundedRes .f32 .rne false false ((Int.fract q : ℚ) : ℝ) r ∧
      (ffrac b).bits = min r.bits 0x3F7FFFFF ∧ (ffrac b).flags = r.flags &&& flNX) ∧
    ∃ z : Int, Claims.IntPicks rm q z ∧ Claims.ratOf (fval .f32 (frnd .f32 rm b).bits) = some (z : ℚ) ∧
      (fval .f32 (frnd .f32 rm b).bits).neg = (fval .f32 b).neg) ∧
  ∀ b, b < 2 ^ 32 →
    let neg := 2 ^ 31 ≤ b
    let e := b / 2 ^ 23 % 256
    let m := b % 2 ^ 23
    fclassBit .f32 b =
      if e = 255 then (if m = 0 then (if neg then 0 else 7) else if m < 2 ^ 22 then 8 else 9)
      else if e = 0 then (if m = 0 then (if neg then 3 else 4) else if neg then 2 else 5)
      else if neg then 1 else 6

/-- R115, R119, R120: the integer dot products; the packing of two integers, saturated, or of two floats, each converted; the
widening of a packed integer or, without a change of its value, of a packed float. -/
def Claims.DotsAndPacking : Prop :=
  ∀ (a b c : Lane) (rm : Rm) (sat : Bool) (src : Tc) (j : Nat),
    let el (t : IFmt) (w : Lane) (k : Nat) : Int := t.val (w.toNat / 256 ^ k)
    let dot (t : IFmt) : Lane := BitVec.ofInt 32 ((c.toNat : Int) + el t a 0 * el t b 0 + el t a 1 * el t b 1 +
      el t a 2 * el t b 2 + el t a 3 * el t b 3)
    dot4Lane .s8 a b c = (dot ⟨true, 8⟩, 0) ∧ dot4Lane .n8 a b c = (dot ⟨false, 8⟩, 0) ∧
    (packLane .s16 rm a b).1.toNat = (BitVec.ofInt 16 (max (-32768) (min 32767 a.toInt))).toNat +
      65536 * (BitVec.ofInt 16 (max (-32768) (min 32767 b.toInt))).toNat ∧
    (packLane .n16 rm a b).1.toNat = min 65535 a.toNat + 65536 * min 65535 b.toNat ∧
    (packLane .s16 rm a b).2 = 0 ∧ (packLane .n16 rm a b).2 = 0 ∧
    packLane (.f16 rm sat) rm a b = packHalves (convert .f32 .f16 rm sat a.toNat) (convert .f32 .f16 rm sat b.toNat) ∧
    packLane (.bf16 rm sat) rm a b = packHalves (convert .f32 .bf16 rm sat a.toNat) (convert .f32 .bf16 rm sat b.toNat) ∧
    (1 < src.perReg → j < src.perReg →
      let x := a.toNat / 2 ^ (Tc.width src * j) % 2 ^ Tc.width src
      (Tc.fmt? src = none → unpackLane src j a = (BitVec.ofInt 32 ((Tc.ifmt src).val x), 0)) ∧
      (∀ f q, Tc.fmt? src = some f → Claims.ratOf (fval f x) = some q →
        Claims.ratOf (fval .f32 (unpackLane src j a).1.toNat) = some q ∧ (unpackLane src j a).2 = 0))

/-- R97, R110 to R113, R115, R119 to R122, R124, R125: the float lane words other than the conversions complete in the rounding mode
that frm or the word gives, each active lane with the result that the function of the word gives of its own operands, and the flags
of the active lanes accrue; inactive lanes and everything else stay. (Model: the values of vexp2, vlog2, vsin, vcos and vtanh are
free within their bounds: log 9; whose ulp bounds them at a binade edge, and when UF accompanies NX: logs 74, 75; whether flags that
accrue dirty FS: log 73.) -/
def Claims.FloatWords : Prop :=
  ∀ (p : LaneHdr) (vd va vb vc : LOp) (s : State),
    LanesFree s (regsOf va 1 ++ regsOf vb 1 ++ regsOf vc 1 ++ [vd.toNat]) →
    let a := s.hart.src32 va
    let b := s.hart.src32 vb
    let c := s.hart.src32 vc
    let op (g : Nat → Lane × BitVec 5) : State → Prop := LaneOp s p vd (fun i => (g i).1) (fun i => (g i).2)
    (∀ (f : FForm) (rm : Rm), s.formRm f = some rm →
      Gives (.vfma p f vd va vb vc) s (op (fun i => fmaLane f rm false false (a i) (b i) (c i))) ∧
      Gives (.vfms p f vd va vb vc) s (op (fun i => fmaLane f rm false true (a i) (b i) (c i))) ∧
      Gives (.vfnma p f vd va vb vc) s (op (fun i => fmaLane f rm true true (a i) (b i) (c i))) ∧
      Gives (.vfnms p f vd va vb vc) s (op (fun i => fmaLane f rm true false (a i) (b i) (c i))) ∧
      Gives (.vfadd p f vd va vb) s (op (fun i => formLane f (fun t => fadd t rm false) (a i) (b i))) ∧
      Gives (.vfsub p f vd va vb) s (op (fun i => formLane f (fun t => fadd t rm true) (a i) (b i))) ∧
      Gives (.vfmul p f vd va vb) s (op (fun i => formLane f (fun t => fmul t rm) (a i) (b i))) ∧
      Gives (.vfmin p f vd va vb) s (op (fun i => formLane f (fun t => fminmax t false) (a i) (b i))) ∧
      Gives (.vfmax p f vd va vb) s (op (fun i => formLane f (fun t => fminmax t true) (a i) (b i)))) ∧
    (∀ bf : Bool, Gives (.vdp2 p bf vd va vb vc) s (op (fun i => dotFloat (if bf then .bf16 else .f16) 2 (a i) (b i) (c i)))) ∧
    (∀ t : Dp4Ty, Gives (.vdp4 p t vd va vb vc) s (op (fun i => dot4Lane t (a i) (b i) (c i)))) ∧
    (∀ (t : PackTy) (rm : Rm), s.hart.rmOf (packRm t) = some rm →
      Gives (.vpack p t vd va vb) s (op (fun i => packLane t rm (a i) (b i)))) ∧
    (∀ rm m : Rm, s.hart.rmOf rm = some m →
      Gives (.vsqrt p rm vd va) s (op (fun i => (fsqrt .f32 m (a i).toNat).lane)) ∧
      Gives (.vrnd p rm vd va) s (op (fun i => (frnd .f32 m (a i).toNat).lane))) ∧
    Gives (.vrcp p vd va) s (op (fun i => (frcp .f32 (a i).toNat).lane)) ∧
    Gives (.vrsqrt p vd va) s (op (fun i => (frsqrt .f32 (a i).toNat).lane)) ∧
    Gives (.vexp2 p vd va) s (op (fun i => (fexp2 (a i)).lane)) ∧
    Gives (.vlog2 p vd va) s (op (fun i => (flog2 (a i)).lane)) ∧
    Gives (.vsin p vd va) s (op (fun i => (fsin (a i)).lane)) ∧
    Gives (.vcos p vd va) s (op (fun i => (fcos (a i)).lane)) ∧
    Gives (.vtanh p vd va) s (op (fun i => (ftanh (a i)).lane)) ∧
    Gives (.vfrac p vd va) s (op (fun i => (ffrac (a i).toNat).lane)) ∧
    Gives (.vfclass p vd va) s (LaneInt s p vd (fun i => 1#32 <<< fclassBit .f32 (a i).toNat)) ∧
    (∀ (t : Tc) (j : BitVec 3), Gives (.vunpack p t j vd va) s (op (fun i => unpackLane t j.toNat (a i))))

/-- A float converts to an integer type: rounded to an integral value, which saturates; NV for a NaN, for an infinity and out of the
range, else NX where inexact (R22, R117). -/
def Claims.ToInteger (f : Fmt) (d : IFmt) (rm : Rm) (b : Nat) (r : FRes) : Prop :=
  let put (z : Int) : Nat := (z % 2 ^ d.n).toNat
  (∀ q, Claims.ratOf (fval f b) = some q → ∃ z : Int, Claims.IntPicks rm q z ∧
    (d.lo ≤ z → z ≤ d.hi → r = ⟨put z, if (z : ℚ) = q then 0 else flNX⟩) ∧ (z < d.lo → r = ⟨put d.lo, flNV⟩) ∧
    (d.hi < z → r = ⟨put d.hi, flNV⟩)) ∧
  (∀ n, fval f b = .inf n → r = ⟨put (if n then d.lo else d.hi), flNV⟩) ∧
  ((fval f b).isNan = true → r = ⟨put d.hi, flNV⟩)

/-- R116, R117: conversions between distinct types; R26, R118: a stochastic rounding advances srctr by 1, active lanes or not.
(Model: underflow of a narrowing float conversion: log 22; satfinite on a widening one: log 52; integer types of one width: log 53.) -/
def Claims.ConversionWords : Prop :=
  ∀ (p : LaneHdr) (dst src : Tc) (sat : Bool) (vd va : LOp) (s : State),
    LanesFree s (regsOf va (if src.is64 then 2 else 1) ++ (if dst.is64 then [vd.toNat, vd.toNat + 1] else [vd.toNat])) →
    (∀ rm m : Rm, s.hart.rmOf rm = some m →
      let r (i : Nat) : FRes := convert src dst m sat (s.hart.elem0 src va i)
      (dst.is64 = true → Gives (.vcvt p dst src rm sat vd va) s
        (LanePair s p vd (fun i => BitVec.ofNat 64 (r i).bits) (fun i => (r i).flags))) ∧
      (dst.is64 = false → Gives (.vcvt p dst src rm sat vd va) s
        (LaneOp s p vd (fun i => BitVec.ofNat 32 (r i).bits) (fun i => (r i).flags)))) ∧
    (∀ d : Fmt, Tc.fmt? dst = some d → src.is64 = false → dst.is64 = false →
      let r (i : Nat) : FRes :=
        froundSr d sat (srBits s.hart.srseed s.hart.srhid s.hart.srctr i 0) (s.hart.src32 va i).toNat
      Gives (.vcvtSr p dst sat vd va) s (Retires s (fun k =>
        k.srctr = s.hart.srctr + 1 ∧
        LanesWritten s.hart (s.hart.active p) vd.toNat 1 (fun _ i v => v = BitVec.ofNat 32 (r i).bits) (fun i => (r i).flags)
          { k with srctr := s.hart.srctr })))

/-- R18, R21, R22, R116, R117: the value of a conversion and its flags: between float types the exact value rounded once, with
underflow where the result is inexact and below the smallest normal; special sources; float to integer and back; and between integer
types. -/
def Claims.ConversionValues : Prop :=
  ∀ (src dst : Tc) (rm : Rm) (sat : Bool) (b : Nat), rm ≠ .dyn →
    let r := convert src dst rm sat b
    let v := (Tc.ifmt src).val b
    let d := Tc.ifmt dst
    (∀ f g, Tc.fmt? src = some f → Tc.fmt? dst = some g →
      (∀ q, Claims.ratOf (fval f b) = some q → q ≠ 0 →
        Claims.Rounded g rm sat (decide (q < 0)) ((|q| : ℚ) : ℝ) r.bits (r.flags.getLsbD 2 = true) (r.flags.getLsbD 0 = true) ∧
        (r.flags.getLsbD 1 = true ↔ r.flags.getLsbD 0 = true ∧ r.flags.getLsbD 2 = false ∧ r.bits % g.signWeight < 2 ^ g.manBits) ∧
        r.flags.toNat < 8) ∧
      ((fval f b).isZero = true → r = ⟨signBits g (fval f b).neg, 0⟩) ∧
      (∀ n, fval f b = .inf n →
        r = if sat = false ∧ g ≠ .e4m3 ∧ g ≠ .e2m1 then ⟨signBits g n + g.infBits, 0⟩ else ⟨signBits g n + g.maxFinite, flNX⟩) ∧
      ((fval f b).isNan = true → r = ⟨g.canon, nvIf ((fval f b).isSig || g == .e2m1)⟩)) ∧
    (∀ f, Tc.fmt? src = some f → Tc.fmt? dst = none → Claims.ToInteger f d rm b r) ∧
    (∀ g, Tc.fmt? src = none → Tc.fmt? dst = some g →
      (v = 0 → r = ⟨0, 0⟩) ∧ (v ≠ 0 → Claims.RoundedRes g rm sat (decide (v < 0)) ((|v| : Int) : ℝ) r)) ∧
    (Tc.fmt? src = none → Tc.fmt? dst = none → r.flags = 0 ∧ (r.bits : Int) =
      (if (Tc.ifmt src).n < d.n then v else max d.lo (min d.hi v)) % 2 ^ d.n)

/-- R25, R118: a stochastic rounding delivers a neighbour of the source: one that the type holds never moves; else the greater one
where the random word is below the threshold; past the largest finite value the overflow rule applies. -/
def Claims.StochasticRounding : Prop :=
  ∀ (g : Fmt) (sat : Bool) (w : BitVec 32) (b d : Nat) (q : ℚ), Claims.ratOf (fval .f32 b) = some q → q ≠ 0 → g ≠ .f64 →
    let v := Claims.magVal g
    let x : ℚ := |q|
    let r := froundSr g sat w b
    let flags (mag : Nat) : Flags := if v mag = x then 0 else if mag < 2 ^ g.manBits then flUF ||| flNX else flNX
    (d < g.maxFinite → v d ≤ x → x < v (d + 1) →
      let up : Prop := v d ≠ x ∧ (w.toNat : Int) < ⌊(x - v d) / (v (d + 1) - v d) * 2 ^ 32⌋
      (up → r = ⟨signBits g (decide (q < 0)) + (d + 1), flags (d + 1)⟩) ∧ (¬up → r = ⟨signBits g (decide (q < 0)) + d, flags d⟩)) ∧
    (2 * v g.maxFinite - v (g.maxFinite - 1) ≤ x →
      r = ⟨signBits g (decide (q < 0)) + Claims.overflowBits g .rne sat (decide (q < 0)), flOF ||| flNX⟩)

/-- R108, R109: what the conditions of the compares test; a NaN makes the ordered ones false, and signals as the table says. -/
def Claims.CompareValues : Prop :=
  (∀ (c : Cond) (a b : Int), c.isInt = true → (condInt c a b = true ↔
    (c = .eq ∧ a = b) ∨ (c = .ne ∧ a ≠ b) ∨ (c = .lt ∧ a < b) ∨ (c = .ge ∧ b ≤ a) ∨ (c = .gt ∧ b < a) ∨ (c = .le ∧ a ≤ b))) ∧
  ∀ (f : Fmt) (c : Cond) (a b : Nat),
    let x := fval f a
    let y := fval f b
    let r := fcompare f c a b
    (∀ p q, Claims.ExtIs x p → Claims.ExtIs y q → r.2 = 0 ∧ (r.1 = true ↔
      (c = .eq ∧ p = q) ∨ (c = .ne ∧ p ≠ q) ∨ (c = .lt ∧ p < q) ∨ (c = .ge ∧ q ≤ p) ∨ (c = .gt ∧ q < p) ∨ (c = .le ∧ p ≤ q) ∨ c = .ord)) ∧
    (x.isNan = true ∨ y.isNan = true → (r.1 = true ↔ c = .ne ∨ c = .uno) ∧
      r.2 = if c = .lt ∨ c = .ge ∨ c = .gt ∨ c = .le then flNV else nvIf (x.isSig || y.isSig))

/-- R108, R109, R95: a compare writes its mask register whole; an integer compare raises no flags. -/
def Claims.CompareWords : Prop :=
  ∀ (p : LaneHdr) (c : Cond) (md : MReg) (va vb : LOp) (imm : BitVec 20) (s : State),
    LanesFree s (regsOf va 1 ++ regsOf vb 1) → c.isInt = true →
    let a := s.hart.src32 va
    let b := s.hart.src32 vb
    Gives (.vcmp p c false md va vb) s (LaneTest s p md (fun i => condInt c (a i).toInt (b i).toInt) (fun _ => 0)) ∧
    Gives (.vcmp p c true md va vb) s (LaneTest s p md (fun i => condInt c (a i).toNat (b i).toNat) (fun _ => 0)) ∧
    Gives (.vcmpi p c false imm md va) s (LaneTest s p md (fun i => condInt c (a i).toInt imm.toInt) (fun _ => 0)) ∧
    Gives (.vcmpi p c true imm md va) s (LaneTest s p md (fun i => condInt c (a i).toNat imm.toNat) (fun _ => 0)) ∧
    ∀ f : Cond, Gives (.vfcmp p f md va vb) s
      (LaneTest s p md (fun i => (fcompare .f32 f (a i).toNat (b i).toNat).1)
        (fun i => (fcompare .f32 f (a i).toNat (b i).toNat).2))

/-- `Claims.ConversionWords`, `Claims.ConversionValues`, `Claims.StochasticRounding`, `Claims.CompareValues`, `Claims.CompareWords`
together. -/
def Obligations.ConversionAndCompareWords : Prop :=
  Claims.ConversionWords ∧ Claims.ConversionValues ∧ Claims.StochasticRounding ∧ Claims.CompareValues ∧ Claims.CompareWords

/-! ## Cross-lane words -/

/-- R147: a shuffle reads the lane that its kind names within the sub-group, active or not. -/
def Obligations.Shuffles : Prop :=
  ∀ (p : LaneHdr) (w : SubW) (vd va vb : LOp) (s : State), LanesFree s (regsOf va 1 ++ regsOf vb 1 ++ [vd.toNat]) →
    let n : Nat := subWidth w
    let takes (f : Int → Int → Int) : State → Prop :=
      LaneInt s p vd (fun i => s.hart.src32 va ((i - i % n) + (f (i % n : Nat) ((s.hart.src32 vb i).toNat) % n).toNat))
    Gives (.vshflIdx p w vd va vb) s (takes (fun _ b => b)) ∧
    Gives (.vshflUp p w vd va vb) s (takes (fun r b => r - b)) ∧
    Gives (.vshflDown p w vd va vb) s (takes (fun r b => r + b)) ∧
    Gives (.vshflXor p w vd va vb) s (takes (fun r b => (r.toNat ^^^ b.toNat : Nat)))

/-- R148, R149: votes and matches over the active lanes of the sub-group. -/
def Obligations.VotesAndMatches : Prop :=
  ∀ (p : LaneHdr) (w : SubW) (vd va : LOp) (md : MReg) (s : State),
    let act := s.hart.active p
    let grp (i j : Nat) : Bool := decide (j < 32) && decide (j / subWidth w = i / subWidth w) && act.getLsbD j
    let a := s.hart.src32 va
    (LanesFree s (regsOf va 1) →
      Gives (.vvoteAny p w md va) s (LaneTest s p md (fun i => (List.range 32).any (fun j => grp i j && a j != 0)) (fun _ => 0)) ∧
      Gives (.vvoteAll p w md va) s (LaneTest s p md (fun i => (List.range 32).all (fun j => !grp i j || a j != 0)) (fun _ => 0))) ∧
    (LanesFree s (regsOf va 1 ++ [vd.toNat]) →
      Gives (.vvoteMask p w vd va) s (Retires s (LanesWritten s.hart act vd.toNat 1
        (fun _ i v => ∀ j, j < 32 → v.getLsbD j = (grp i j && a j != 0)) (fun _ => 0))) ∧
      Gives (.vmatch p false w vd va) s (Retires s (LanesWritten s.hart act vd.toNat 1
        (fun _ i v => ∀ j, j < 32 → v.getLsbD j = (grp i j && a j == a i)) (fun _ => 0)))) ∧
    (LanesFree s (regsOf va 2 ++ [vd.toNat]) →
      Gives (.vmatch p true w vd va) s (Retires s (LanesWritten s.hart act vd.toNat 1
        (fun _ i v => ∀ j, j < 32 → v.getLsbD j = (grp i j && s.hart.src64 va j == s.hart.src64 va i)) (fun _ => 0))))

/-- R150: a scan gives each active lane the combination of its sub-group's active lanes up to it, in ascending order. (Model: a NaN
of a scan or a reduction: log 70.) -/
def Claims.Scans : Prop :=
  ∀ (p : LaneHdr) (t : ScanTy) (exc : Bool) (w : SubW) (vd va : LOp) (s : State), LanesFree s (regsOf va 1 ++ [vd.toNat]) →
    let act := s.hart.active p
    let grp (i : Nat) : List Nat := (List.range 32).filter (fun j => j / subWidth w == i / subWidth w && act.getLsbD j)
    let res (op : ScanOp) : State → Prop := LaneOp s p vd
      (fun i => ((scanFold op t (s.hart.src32 va) ((grp i).filter (fun j => decide (j < i) || (!exc && j == i)))).1).getD
        (scanIdentity op t))
      (fun i => (scanFold op t (s.hart.src32 va) (grp i)).2)
    Gives (.vscanAdd p t exc w vd va) s (res .add) ∧
    Gives (.vscanMin p t exc w vd va) s (res .min) ∧
    Gives (.vscanMax p t exc w vd va) s (res .max)

/-- R151, R152: reductions and `vext` write an x register (x0 discards), `vins` one lane, active or not. (Model: what `vins` pushes
to a bound write stream: log 65; a NaN of a scan or a reduction: log 70.) -/
def Claims.ReductionsAndSingleLanes : Prop :=
  ∀ (p : LaneHdr) (t : ScanTy) (sel : LaneSel) (xd : XReg) (vd va : LOp) (s : State),
    let act := s.hart.active p
    let ls := (List.range 32).filter (fun i => act.getLsbD i)
    let a := s.hart.src32 va
    let n := s.hart.laneSel sel
    (LanesFree s (regsOf va 1) →
      (∀ (op : ScanOp) (i : Instr),
        ((op = .add ∧ i = .vlredAdd p t xd va) ∨ (op = .min ∧ i = .vlredMin p t xd va) ∨ (op = .max ∧ i = .vlredMax p t xd va)) →
        let r := scanFold op t a ls
        let v := (r.1).getD (scanIdentity op t)
        Gives i s (Retires s (fun k => ∃ k1,
          XWritten s.hart xd (if t = .s32 then v.signExtend 64 else v.setWidth 64) k1 ∧ Accrues k1 1#32 (fun _ => r.2) k))) ∧
      Gives (.vlredAnd p xd va) s (Retires s (XWritten s.hart xd
        ((ls.foldl (fun x i => x &&& a i) 0xFFFFFFFF#32).setWidth 64))) ∧
      Gives (.vlredOr p xd va) s (Retires s (XWritten s.hart xd ((ls.foldl (fun x i => x ||| a i) 0#32).setWidth 64))) ∧
      Gives (.vlredXor p xd va) s (Retires s (XWritten s.hart xd ((ls.foldl (fun x i => x ^^^ a i) 0#32).setWidth 64))) ∧
      Gives (.vext p sel xd va) s (Retires s (XWritten s.hart xd ((a n).setWidth 64)))) ∧
    (LanesFree s [vd.toNat] →
      Gives (.vins p sel vd xd) s (Retires s (fun k => k = { s.hart with v := k.v } ∧ ∀ r i, i < 32 →
        k.getV r i = if r = vd.toNat ∧ i = n then (s.hart.getX xd).setWidth 32 else s.hart.getV r i)))

/-- `Claims.Scans`, `Claims.ReductionsAndSingleLanes` together. -/
def Obligations.ScansAndReductions : Prop :=
  Claims.Scans ∧ Claims.ReductionsAndSingleLanes

/-- R66, R44, R142, R143: a lane word that names a lane register beyond the hart's allocation, in any position, is an illegal
instruction with the whole word in stval, whatever its effective predicate; so is one that reads a register bound to a write stream,
or writes one bound to a read stream. -/
def Claims.LaneRegisterChecks : Prop :=
  ∀ (p : LaneHdr) (t : Ity) (w : SubW) (ts : ScanTy) (exc u : Bool) (m : MemMod) (f : FForm) (md : MReg) (vd va vb vc : LOp) (s : State),
    let h := s.hart
    let bad (reads writes : List Nat) : Prop := (∃ r ∈ reads ++ writes, h.lalloc ≤ r) ∨
      (∃ r ∈ writes, h.boundSlot false r ≠ none) ∨ (∃ r ∈ reads, h.boundSlot true r ≠ none)
    let traps (i : Instr) : Prop := Gives i s (Traps s 2 0 h.ir)
    (bad (regsOf va 1) [vd.toNat] → traps (.vmov p vd va) ∧ traps (.vnot p vd va) ∧ traps (.vrcp p vd va) ∧ traps (.vscanAdd p ts exc w vd va)) ∧
    (bad (regsOf va 1 ++ regsOf vb 1) [vd.toNat] → traps (.vand p vd va vb) ∧ traps (.vxor p vd va vb) ∧ traps (.vmul p t vd va vb) ∧
      traps (.vfadd p f vd va vb) ∧ traps (.vshflIdx p w vd va vb)) ∧
    (bad (regsOf va 2 ++ regsOf vb 2) [vd.toNat, vd.toNat + 1] → t.is64 = true → traps (.vadd p t vd va vb) ∧ traps (.vsub p t vd va vb)) ∧
    (bad (regsOf va 1 ++ regsOf vb 1 ++ regsOf vc 1) [vd.toNat] → traps (.vsel p vd va vb vc) ∧ traps (.vmad p u vd va vb vc) ∧
      traps (.vfma p f vd va vb vc)) ∧
    (bad (regsOf va 1 ++ regsOf vb 1) [] → ∀ c, traps (.vcmp p c u md va vb) ∧ traps (.vfcmp p c md va vb)) ∧
    (bad (regsOf va 1) (widthRegs m.width vd) → traps (.vld p m vd va vb)) ∧
    (bad (regsOf va 1 ++ widthRegs m.width vd) [] → traps (.vst p m vd va vb))

/-- R48, R160: `vclmul.n32` is an illegal instruction, with all 64 bits of the word in the trap value. -/
def Claims.VclmulTraps : Prop :=
  ∀ (w : Word) (s : State), Gives (.vclmulN32 w) s (Traps s 2 0 w)

/-- `Claims.LaneRegisterChecks`, `Claims.VclmulTraps` together. -/
def Obligations.LaneWordTraps : Prop :=
  Claims.LaneRegisterChecks ∧ Claims.VclmulTraps

/-- R18, R97: every float lane word that has a rounding mode, with mode DYN, is an illegal instruction while frm holds 5 to 7,
whatever its operands. -/
def Claims.DynamicRoundingReserved : Prop :=
  ∀ (p : LaneHdr) (vd va vb vc : LOp) (dst src : Tc) (sat : Bool) (s : State), 5 ≤ s.hart.csr.frm.toNat →
    ∀ i : Instr, (i = .vfma p (.f32 .dyn) vd va vb vc ∨ i = .vfms p (.f32 .dyn) vd va vb vc ∨
        i = .vfnma p (.f32 .dyn) vd va vb vc ∨ i = .vfnms p (.f32 .dyn) vd va vb vc ∨ i = .vfadd p (.f32 .dyn) vd va vb ∨
        i = .vfsub p (.f32 .dyn) vd va vb ∨ i = .vfmul p (.f32 .dyn) vd va vb ∨ i = .vsqrt p .dyn vd va ∨
        i = .vrnd p .dyn vd va ∨ i = .vcvt p dst src .dyn sat vd va ∨ i = .vpack p (.f16 .dyn sat) vd va vb ∨
        i = .vpack p (.bf16 .dyn sat) vd va vb) →
      Gives i s (Traps s 2 0 s.hart.ir)

/-- `Claims.FloatWords`, `Claims.FloatRounding`, `Claims.FloatSpecials`, `Claims.MinimaAndMaxima`, `Claims.FunctionUnitCases`,
`Claims.DotsAndPacking`, `Claims.DynamicRoundingReserved` together. -/
def Obligations.FloatWordsAndRounding : Prop :=
  Claims.FloatWords ∧ Claims.FloatRounding ∧ Claims.FloatSpecials ∧ Claims.MinimaAndMaxima ∧ Claims.FunctionUnitCases ∧ Claims.DotsAndPacking ∧ Claims.DynamicRoundingReserved

/-! ## Masks -/

/-- R155: the mask instructions, whole: the effect of each, and the mask stack fault of a push at depth 32 and of the others at
depth 0, which leaves everything but the trap's own registers unchanged. -/
def Obligations.MaskStackInstructions : Prop :=
  ∀ (k : MReg) (s : State),
    let h := s.hart
    let m0 := h.getM 0
    (h.mstk.length < 32 →
      Gives (.mdiv k) s (Retires s (fun g => ∃ g1, MaskWritten h 0 (m0 &&& h.getM k) g1 ∧
        g = { g1 with mstk := h.mstk ++ [⟨m0, 0, h.pc + 4, 0⟩] })) ∧
      Gives .mpush s (Retires s (fun g => g = { h with mstk := h.mstk ++ [⟨m0, 0, h.pc + 4, 0⟩] }))) ∧
    (32 ≤ h.mstk.length → Gives (.mdiv k) s (Traps s 24 0 0) ∧ Gives .mpush s (Traps s 24 0 0)) ∧
    (h.mstk = [] → Gives (.melse k) s (Traps s 24 1 0) ∧ Gives .mjoin s (Traps s 24 1 0) ∧
      Gives .mpop s (Traps s 24 1 0) ∧ Gives .mrejoin s (Traps s 24 1 0)) ∧
    (∀ (below : List MaskEntry) (e : MaskEntry), h.mstk = below ++ [e] →
      Gives (.melse k) s (Retires s (MaskWritten h 0 (e.saved &&& ~~~e.park &&& ~~~(h.getM k)))) ∧
      Gives .mjoin s (Retires s (fun g => ∃ g1, MaskWritten h 0 e.saved g1 ∧ g = { g1 with mstk := below })) ∧
      Gives .mpop s (Retires s (fun g => ∃ g1, MaskWritten h 0 e.saved g1 ∧ g = { g1 with mstk := below })) ∧
      (e.saved &&& ~~~(e.park ||| m0) = 0 →
        Gives .mrejoin s (Retires s (fun g => ∃ g1, MaskWritten h 0 e.saved g1 ∧ g = { g1 with mstk := below }))) ∧
      (e.saved &&& ~~~(e.park ||| m0) ≠ 0 →
        Gives .mrejoin s (Jumps s e.tag (fun g => ∃ g1, MaskWritten h 0 (e.saved &&& ~~~(e.park ||| m0)) g1 ∧
          g = { g1 with mstk := below ++
            [⟨e.saved, e.park ||| m0, e.tag, if e.park = 0 then h.pc else e.rpc⟩] }))))

/-- R156: the branches on masks test m0 against a mask; a branch that is not taken retires in sequence. -/
def Obligations.MaskBranches : Prop :=
  ∀ (k : MReg) (off : BitVec 12) (s : State),
    let m0 := s.hart.getM 0
    let mk := s.hart.getM k
    let goes (c : Prop) (i : Instr) : Prop :=
      (c → Gives i s (Jumps s (s.hart.pc + BitVec.ofInt 64 (2 * off.toInt)) (fun g => g = s.hart))) ∧
      (¬c → Gives i s (Retires s (fun g => g = s.hart)))
    goes (m0 &&& mk ≠ 0) (.bmany k off) ∧
    goes (m0 &&& mk = m0) (.bmall k off) ∧
    goes (m0 &&& mk = 0) (.bmnone k off)

/-- R157: `mrd` and `mwr` by selector: m0, the live mask, the four fields of an entry, the fault of an entry that is not there, and
every other selector, which is illegal. -/
def Claims.MaskStateBySelector : Prop :=
  ∀ (rd rs1 rs2 : XReg) (f i : Nat) (s : State),
    let h := s.hart
    let v := h.getX rs2
    (h.getX rs1 = 0x8000#64 →
      Gives (.mrd rd rs1) s (Retires s (XWritten h rd ((h.getM 0).setWidth 64))) ∧
      Gives (.mwr rs1 rs2) s (Retires s (MaskWritten h 0 (v.setWidth 32 &&& h.live)))) ∧
    (h.getX rs1 = 0x8001#64 →
      Gives (.mrd rd rs1) s (Retires s (XWritten h rd (h.live.setWidth 64))) ∧
      Gives (.mwr rs1 rs2) s (Traps s 2 0 h.ir)) ∧
    (∀ e : MaskEntry, f < 4 → i < 32 → h.getX rs1 = BitVec.ofNat 64 (256 * f + i) → h.mstk[i]? = some e →
      Gives (.mrd rd rs1) s (Retires s (XWritten h rd
        (if f = 0 then e.saved.setWidth 64 else if f = 1 then e.park.setWidth 64 else if f = 2 then e.tag else e.rpc))) ∧
      Gives (.mwr rs1 rs2) s (Retires s (fun g => ∃ n : MaskEntry, g = { h with mstk := h.mstk.set i n } ∧
        n = (if f = 0 then { e with saved := v.setWidth 32 &&& h.live }
          else if f = 1 then { e with park := v.setWidth 32 &&& h.live }
          else if f = 2 then { e with tag := v &&& ~~~1#64 } else { e with rpc := v &&& ~~~1#64 })))) ∧
    (f < 4 → i < 32 → h.getX rs1 = BitVec.ofNat 64 (256 * f + i) → h.mstk.length ≤ i →
      Gives (.mrd rd rs1) s (Traps s 24 1 0) ∧ Gives (.mwr rs1 rs2) s (Traps s 24 1 0)) ∧
    (h.getX rs1 ≠ 0x8000#64 → h.getX rs1 ≠ 0x8001#64 → (∀ g j, g < 4 → j < 32 → h.getX rs1 ≠ BitVec.ofNat 64 (256 * g + j)) →
      Gives (.mrd rd rs1) s (Traps s 2 0 h.ir) ∧ Gives (.mwr rs1 rs2) s (Traps s 2 0 h.ir))

/-- The release loop of R158 over a mask stack, newest entry first: what m0, the jump target and the stack become. -/
def Claims.releases (m0 : Mask) (tgt : Option Word) : List MaskEntry → Mask × Option Word × List MaskEntry
  | [] => (m0, tgt, [])
  | e :: r => if m0 = 0 ∧ e.park ≠ 0 ∧ e.saved &&& ~~~e.park = 0 then Claims.releases e.saved (some (e.rpc + 4)) r else (m0, tgt, e :: r)

/-- R158: `vexit` takes the lanes of its effective predicate out of the live mask, of m0 and of every entry; then, while m0 is 0 and
the awaited lanes of the top entry are all parked, it takes them up after their `mrejoin` and pops the entry. Where nothing is
released it retires in sequence. -/
def Claims.VexitEndsLanes : Prop :=
  ∀ (p : LaneHdr) (s : State),
    let h := s.hart
    let x := h.active p
    let r := Claims.releases (h.getM 0 &&& ~~~x) none
      (h.mstk.map (fun e => { e with saved := e.saved &&& ~~~x, park := e.park &&& ~~~x })).reverse
    let left (k : Hart) : Prop := ∃ k1, MaskWritten h 0 r.1 k1 ∧ k = { k1 with live := h.live &&& ~~~x, mstk := r.2.2.reverse }
    (r.2.1 = none → Gives (.vexit p) s (Retires s left)) ∧
    (∀ a, r.2.1 = some a → Gives (.vexit p) s (Jumps s a left))

/-- `Claims.MaskStateBySelector`, `Claims.VexitEndsLanes` together. -/
def Obligations.MaskStateAndExit : Prop :=
  Claims.MaskStateBySelector ∧ Claims.VexitEndsLanes

/-! ## Standard instructions -/

/-- R33: the integer instructions of RV64IM and the Zb extensions write rd alone; the jumps link and go; a branch goes or not;
`pause` only retires. -/
def Claims.StandardIntegerInstructions : Prop :=
  ∀ (rd rs1 rs2 : XReg) (imm : BitVec 12) (up : BitVec 20) (sh : BitVec 6) (s : State),
    let h := s.hart
    let a := h.getX rs1
    let b := h.getX rs2
    let writes (i : Std) (v : Word) : Prop := Gives (.standardInstruction i) s (Retires s (XWritten h rd v))
    let links (i : Std) (dest : Word) : Prop :=
      Gives (.standardInstruction i) s (Jumps s dest (XWritten h rd (h.pc + BitVec.ofNat 64 h.ilen)))
    let goes (c : BrCond) (take : Prop) : Prop :=
      (take → Gives (.standardInstruction (.branch c rs1 rs2 imm)) s
        (Jumps s (h.pc + BitVec.ofInt 64 (2 * imm.toInt)) (fun g => g = h))) ∧
      (¬take → Gives (.standardInstruction (.branch c rs1 rs2 imm)) s (Retires s (fun g => g = h)))
    writes (.lui rd up) (BitVec.ofInt 64 (4096 * up.toInt)) ∧
    writes (.auipc rd up) (h.pc + BitVec.ofInt 64 (4096 * up.toInt)) ∧
    (∀ op, writes (.alu op rd rs1 rs2) (aluVal op a b)) ∧
    (∀ op, writes (.aluImm op rd rs1 imm) (aluImmVal op a imm)) ∧
    (∀ op, writes (.shift op rd rs1 sh) (shiftVal op a sh)) ∧
    (∀ op, writes (.un op rd rs1) (unVal op a)) ∧
    links (.jal rd up) (h.pc + BitVec.ofInt 64 (2 * up.toInt)) ∧
    links (.jalr rd rs1 imm) ((a + BitVec.ofInt 64 imm.toInt) &&& ~~~1#64) ∧
    goes .beq (a = b) ∧ goes .bne (a ≠ b) ∧ goes .blt (a.toInt < b.toInt) ∧ goes .bge (b.toInt ≤ a.toInt) ∧
    goes .bltu (a.toNat < b.toNat) ∧ goes .bgeu (b.toNat ≤ a.toNat) ∧
    Gives (.standardInstruction .pause) s (Retires s (fun g => g = h))

/-- R33: division by zero and the overflowing quotient of the M extension raise no trap and have the values of the standard. -/
def Claims.DivisionCorners : Prop :=
  ∀ a b : Word,
    aluVal .div a 0 = 0xFFFFFFFFFFFFFFFF#64 ∧ aluVal .divu a 0 = 0xFFFFFFFFFFFFFFFF#64 ∧ aluVal .rem a 0 = a ∧ aluVal .remu a 0 = a ∧
    aluVal .div 0x8000000000000000#64 0xFFFFFFFFFFFFFFFF#64 = 0x8000000000000000#64 ∧
    aluVal .rem 0x8000000000000000#64 0xFFFFFFFFFFFFFFFF#64 = 0 ∧
    (b ≠ 0 → aluVal .divu a b * b + aluVal .remu a b = a ∧ aluVal .div a b * b + aluVal .rem a b = a)

/-- R33: what the integer operations compute: sums, products, shifts, compares, minima, rotations, single bits, carry-less products
and the word forms, whose results are the low 32 bits, sign-extended; an immediate stands for a second operand. -/
def Claims.IntegerValues : Prop :=
  ∀ (a b : Word) (imm : BitVec 12) (sh : BitVec 6),
    let lo (x : Word) : Int := (x.setWidth 32).toInt
    let ulo (x : Word) : Nat := x.toNat % 2 ^ 32
    let n := b.toNat % 64
    let n5 := b.toNat % 32
    let nat (op : AluOp) (v : Nat) : Prop := (aluVal op a b).toNat = v % 2 ^ 64
    let int (op : AluOp) (v : Int) : Prop := (aluVal op a b).toInt = v
    let word (op : AluOp) (v : Int) : Prop := (aluVal op a b).toInt = v.bmod (2 ^ 32)
    let bits (op : AluOp) (f : Nat → Bool) : Prop := ∀ i, i < 64 → (aluVal op a b).getLsbD i = f i
    let clBit (k : Nat) : Bool := (List.range 64).countP (fun j => decide (j ≤ k) && a.getLsbD j && b.getLsbD (k - j)) % 2 == 1
    (nat .add (a.toNat + b.toNat) ∧ int .sub ((a.toInt - b.toInt).bmod (2 ^ 64)) ∧ nat .mul (a.toNat * b.toNat) ∧
      nat .sll (a.toNat * 2 ^ n) ∧ nat .srl (a.toNat / 2 ^ n) ∧ int .sra (a.toInt / 2 ^ n) ∧
      int .mulh (a.toInt * b.toInt / 2 ^ 64) ∧ int .mulhsu (a.toInt * b.toNat / 2 ^ 64) ∧ nat .mulhu (a.toNat * b.toNat / 2 ^ 64) ∧
      nat .slt (if a.toInt < b.toInt then 1 else 0) ∧ nat .sltu (if a.toNat < b.toNat then 1 else 0)) ∧
    (word .addw (lo a + lo b) ∧ word .subw (lo a - lo b) ∧ word .mulw (lo a * lo b) ∧ word .sllw (lo a * 2 ^ n5) ∧
      word .srlw ((ulo a / 2 ^ n5 : Nat) : Int) ∧ int .sraw (lo a / 2 ^ n5)) ∧
    (b ≠ 0 → nat .divu (a.toNat / b.toNat) ∧ nat .remu (a.toNat % b.toNat) ∧ int .rem (a.toInt.tmod b.toInt) ∧
      int .div ((a.toInt.tdiv b.toInt).bmod (2 ^ 64))) ∧
    (lo b ≠ 0 → word .divw ((lo a).tdiv (lo b)) ∧ int .remw ((lo a).tmod (lo b)) ∧
      word .divuw ((ulo a / ulo b : Nat) : Int) ∧ word .remuw ((ulo a % ulo b : Nat) : Int)) ∧
    (lo b = 0 → int .divw (-1) ∧ int .divuw (-1) ∧ int .remw (lo a) ∧ int .remuw (lo a)) ∧
    (nat .adduw (ulo a + b.toNat) ∧ nat .sh1add (2 * a.toNat + b.toNat) ∧ nat .sh2add (4 * a.toNat + b.toNat) ∧
      nat .sh3add (8 * a.toNat + b.toNat) ∧ nat .sh1adduw (2 * ulo a + b.toNat) ∧ nat .sh2adduw (4 * ulo a + b.toNat) ∧
      nat .sh3adduw (8 * ulo a + b.toNat)) ∧
    (int .max (max a.toInt b.toInt) ∧ int .min (min a.toInt b.toInt) ∧ nat .maxu (max a.toNat b.toNat) ∧
      nat .minu (min a.toNat b.toNat) ∧ nat .czeroEqz (if b = 0 then 0 else a.toNat) ∧ nat .czeroNez (if b = 0 then a.toNat else 0)) ∧
    (bits .and (fun i => a.getLsbD i && b.getLsbD i) ∧ bits .or (fun i => a.getLsbD i || b.getLsbD i) ∧
      bits .xor (fun i => a.getLsbD i != b.getLsbD i) ∧ bits .andn (fun i => a.getLsbD i && !b.getLsbD i) ∧
      bits .orn (fun i => a.getLsbD i || !b.getLsbD i) ∧ bits .xnor (fun i => a.getLsbD i == b.getLsbD i) ∧
      bits .rol (fun i => a.getLsbD ((i + 64 - n) % 64)) ∧ bits .ror (fun i => a.getLsbD ((i + n) % 64)) ∧
      bits .rolw (fun i => a.getLsbD ((min i 31 + 32 - n5) % 32)) ∧ bits .rorw (fun i => a.getLsbD ((min i 31 + n5) % 32)) ∧
      bits .bclr (fun i => a.getLsbD i && i != n) ∧ bits .bset (fun i => a.getLsbD i || i == n) ∧
      bits .binv (fun i => a.getLsbD i != (i == n)) ∧ nat .bext (if a.getLsbD n then 1 else 0) ∧
      bits .clmul clBit ∧ bits .clmulh (fun i => clBit (i + 64)) ∧ bits .clmulr (fun i => clBit (i + 63))) ∧
    (∀ w : Word, w = imm.signExtend 64 →
      aluImmVal .addi a imm = aluVal .add a w ∧ aluImmVal .slti a imm = aluVal .slt a w ∧ aluImmVal .sltiu a imm = aluVal .sltu a w ∧
      aluImmVal .xori a imm = aluVal .xor a w ∧ aluImmVal .ori a imm = aluVal .or a w ∧ aluImmVal .andi a imm = aluVal .and a w ∧
      aluImmVal .addiw a imm = aluVal .addw a w) ∧
    (∀ w : Word, w = sh.setWidth 64 →
      shiftVal .slli a sh = aluVal .sll a w ∧ shiftVal .srli a sh = aluVal .srl a w ∧ shiftVal .srai a sh = aluVal .sra a w ∧
      shiftVal .rori a sh = aluVal .ror a w ∧ shiftVal .bclri a sh = aluVal .bclr a w ∧ shiftVal .bexti a sh = aluVal .bext a w ∧
      shiftVal .binvi a sh = aluVal .binv a w ∧ shiftVal .bseti a sh = aluVal .bset a w ∧
      (shiftVal .slliuw a sh).toNat = ulo a * 2 ^ sh.toNat % 2 ^ 64 ∧
      (sh.toNat < 32 → shiftVal .slliw a sh = aluVal .sllw a w ∧ shiftVal .srliw a sh = aluVal .srlw a w ∧
        shiftVal .sraiw a sh = aluVal .sraw a w ∧ shiftVal .roriw a sh = aluVal .rorw a w))

/-- R33: what the unary operations of Zbb compute: leading and trailing zeros, one bits, extensions, and the bytes. -/
def Claims.UnaryValues : Prop :=
  ∀ a : Word,
    let r (op : UnOp) : Nat := (unVal op a).toNat
    let ulo := a.toNat % 2 ^ 32
    let byte (x : Word) (i : Nat) : Nat := x.toNat / 256 ^ i % 256
    (r .clz ≤ 64 ∧ a.toNat < 2 ^ (64 - r .clz) ∧ (r .clz < 64 → 2 ^ (63 - r .clz) ≤ a.toNat)) ∧
    (r .clzw ≤ 32 ∧ ulo < 2 ^ (32 - r .clzw) ∧ (r .clzw < 32 → 2 ^ (31 - r .clzw) ≤ ulo)) ∧
    (r .ctz ≤ 64 ∧ (∀ b, b < r .ctz → a.getLsbD b = false) ∧ (r .ctz < 64 → a.getLsbD (r .ctz) = true)) ∧
    (r .ctzw ≤ 32 ∧ (∀ b, b < r .ctzw → a.getLsbD b = false) ∧ (r .ctzw < 32 → a.getLsbD (r .ctzw) = true)) ∧
    r .cpop = (List.range 64).countP (fun b => a.getLsbD b) ∧ r .cpopw = (List.range 32).countP (fun b => a.getLsbD b) ∧
    (unVal .sextb a).toInt = a.toInt.bmod 256 ∧ (unVal .sexth a).toInt = a.toInt.bmod 65536 ∧ r .zexth = a.toNat % 65536 ∧
    ∀ i, i < 8 → byte (unVal .orcb a) i = (if byte a i = 0 then 0 else 255) ∧ byte (unVal .rev8 a) i = byte a (7 - i)

/-- `Claims.StandardIntegerInstructions`, `Claims.DivisionCorners`, `Claims.IntegerValues`, `Claims.UnaryValues` together. -/
def Obligations.StandardIntegerAndDivision : Prop :=
  Claims.StandardIntegerInstructions ∧ Claims.DivisionCorners ∧ Claims.IntegerValues ∧ Claims.UnaryValues

/-- Of a hart, f register `rd` alone changes, to a result as it is boxed, its flags accrue, and FS becomes dirty. -/
def Claims.FResult (h : Hart) (dbl : Bool) (rd : XReg) (r : FRes) (k : Hart) : Prop :=
  k = { h with f := k.f, csr := { h.csr with fflags := h.csr.fflags ||| r.flags, mstatus := k.csr.mstatus } } ∧
  wfield k.csr.mstatus 13 2 = 3 ∧ (∀ b, b ≠ 13 → b ≠ 14 → k.csr.mstatus.getLsbD b = h.csr.mstatus.getLsbD b) ∧
  ∀ q, k.getF q = if q = rd then (if dbl then BitVec.ofNat 64 r.bits else 0xFFFFFFFF#32 ++ BitVec.ofNat 32 r.bits) else h.getF q

/-- Of a hart, x register `rd` alone changes, flags accrue, and FS becomes dirty where a flag is raised. -/
def Claims.XFWritten (h : Hart) (rd : XReg) (v : Word) (fl : Flags) (k : Hart) : Prop :=
  k = { h with x := k.x, csr := { h.csr with fflags := h.csr.fflags ||| fl, mstatus := k.csr.mstatus } } ∧
  (fl = 0 → k.csr.mstatus = h.csr.mstatus) ∧ (fl ≠ 0 → wfield k.csr.mstatus 13 2 = 3) ∧
  (∀ b, b ≠ 13 → b ≠ 14 → k.csr.mstatus.getLsbD b = h.csr.mstatus.getLsbD b) ∧
  ∀ r, k.getX r = if r = rd ∧ r ≠ 0 then v else h.getX r

/-- R33, R34, log 7: the F and D instructions write f register rd, NaN-boxed if single, or x register rd, and accrue their flags;
with FS off, or with a reserved rounding mode, they are illegal instructions. -/
def Claims.StandardFloatForms : Prop :=
  ∀ (dbl mx : Bool) (rd rs1 rs2 rs3 : XReg) (ty : IntTy) (rm m : Rm) (s : State),
    let h := s.hart
    let f : Fmt := if dbl then .f64 else .f32
    let a := h.fsrc dbl rs1
    let b := h.fsrc dbl rs2
    let c := h.fsrc dbl rs3
    let w : Nat := if dbl then 2 ^ 63 else 2 ^ 31
    let traps (i : Std) : Prop := Gives (.standardInstruction i) s (Traps s 2 0 h.ir)
    let writes (i : Std) (r : FRes) : Prop := Gives (.standardInstruction i) s (Retires s (Claims.FResult h dbl rd r))
    let answers (i : Std) (v : Word) (fl : Flags) : Prop := Gives (.standardInstruction i) s (Retires s (Claims.XFWritten h rd v fl))
    let signed (n : Bool) : FRes := ⟨a % w + if n then w else 0, 0⟩
    let tested (x : Bool × Flags) (i : Std) : Prop := answers i (if x.1 then 1 else 0) x.2
    (h.fsOff = true ∨ h.rmOf rm = none →
      (∀ op, traps (.fma op dbl rm rd rs1 rs2 rs3)) ∧ (∀ op, traps (.fbin op dbl rm rd rs1 rs2)) ∧ traps (.fsqrt dbl rm rd rs1) ∧
      traps (.fcvtFF dbl rm rd rs1) ∧ traps (.fcvtFI dbl ty rm rd rs1) ∧ traps (.fcvtIF dbl ty rm rd rs1)) ∧
    (h.fsOff = true → (∀ op, traps (.fsgnj op dbl rd rs1 rs2)) ∧ traps (.fminmax mx dbl rd rs1 rs2) ∧
      (∀ op, traps (.fcmp op dbl rd rs1 rs2)) ∧ traps (.fclass dbl rd rs1) ∧ traps (.fmvXF dbl rd rs1) ∧ traps (.fmvFX dbl rd rs1)) ∧
    (h.fsOff = false → h.rmOf rm = some m →
      writes (.fbin .add dbl rm rd rs1 rs2) (fadd f m false a b) ∧ writes (.fbin .sub dbl rm rd rs1 rs2) (fadd f m true a b) ∧
      writes (.fbin .mul dbl rm rd rs1 rs2) (fmul f m a b) ∧ writes (.fbin .div dbl rm rd rs1 rs2) (fdiv f m a b) ∧
      writes (.fma .madd dbl rm rd rs1 rs2 rs3) (ffma f m false false a b c) ∧
      writes (.fma .msub dbl rm rd rs1 rs2 rs3) (ffma f m false true a b c) ∧
      writes (.fma .nmsub dbl rm rd rs1 rs2 rs3) (ffma f m true false a b c) ∧
      writes (.fma .nmadd dbl rm rd rs1 rs2 rs3) (ffma f m true true a b c) ∧
      writes (.fsqrt dbl rm rd rs1) (fsqrt f m a) ∧
      writes (.fcvtFF dbl rm rd rs1) (fcvt (if dbl then .f32 else .f64) f m false (h.fsrc (!dbl) rs1)) ∧
      (∀ r, r = fcvtToInt f (intFmt ty) m a →
        answers (.fcvtFI dbl ty rm rd rs1)
          (if (intFmt ty).n = 32 then (BitVec.ofNat 32 r.bits).signExtend 64 else BitVec.ofNat 64 r.bits) r.flags) ∧
      writes (.fcvtIF dbl ty rm rd rs1) (fcvtFromInt (intFmt ty) f m false (h.getX rs1).toNat)) ∧
    (h.fsOff = false →
      writes (.fsgnj .j dbl rd rs1 rs2) (signed (w ≤ b)) ∧ writes (.fsgnj .jn dbl rd rs1 rs2) (signed (!decide (w ≤ b))) ∧
      writes (.fsgnj .jx dbl rd rs1 rs2) (signed (decide (w ≤ a) != decide (w ≤ b))) ∧
      writes (.fminmax mx dbl rd rs1 rs2) (fminmax f mx a b) ∧
      tested (fcompare f .eq a b) (.fcmp .eq dbl rd rs1 rs2) ∧ tested (fcompare f .lt a b) (.fcmp .lt dbl rd rs1 rs2) ∧
      tested (fcompare f .le a b) (.fcmp .le dbl rd rs1 rs2) ∧
      answers (.fclass dbl rd rs1) (1#64 <<< fclassBit f a) 0 ∧
      answers (.fmvXF dbl rd rs1) (if dbl then h.getF rs1 else ((h.getF rs1).setWidth 32).signExtend 64) 0 ∧
      writes (.fmvFX dbl rd rs1) ⟨(h.getX rs1).toNat % (2 * w), 0⟩)

/-- R33: the values of the F and D instructions that the lane words do not share: the source of a single that is not NaN-boxed is
the canonical NaN; a quotient is the exact one rounded once, with its special cases; conversions between singles and doubles, and to
and from integers; and the class of a double. -/
def Claims.StandardFloatValues : Prop :=
  (∀ (h : Hart) (r : XReg), h.fsrc true r = (h.getF r).toNat ∧
    h.fsrc false r = if (h.getF r).toNat / 2 ^ 32 = 0xFFFFFFFF then (h.getF r).toNat % 2 ^ 32 else 0x7FC00000) ∧
  (intFmt .w = ⟨true, 32⟩ ∧ intFmt .wu = ⟨false, 32⟩ ∧ intFmt .l = ⟨true, 64⟩ ∧ intFmt .lu = ⟨false, 64⟩) ∧
  (∀ (f g : Fmt) (rm : Rm) (a b : Nat), (f = .f32 ∨ f = .f64) → (g = .f32 ∨ g = .f64) → rm ≠ .dyn →
    let x := fval f a
    let y := fval f b
    let r := fdiv f rm a b
    let neg := x.neg != y.neg
    let c := fcvt f g rm false a
    (∀ p q, Claims.ratOf x = some p → Claims.ratOf y = some q →
      (p ≠ 0 → q ≠ 0 → Claims.RoundedRes f rm false (decide (p / q < 0)) ((|p / q| : ℚ) : ℝ) r) ∧
      (p = 0 → q ≠ 0 → r = ⟨signBits f neg, 0⟩) ∧ (p ≠ 0 → q = 0 → r = ⟨signBits f neg + f.infBits, flDZ⟩) ∧
      (p = 0 → q = 0 → r = ⟨f.canon, flNV⟩)) ∧
    (∀ n q, x = .inf n → Claims.ratOf y = some q → r = ⟨signBits f neg + f.infBits, 0⟩) ∧
    (∀ n p, Claims.ratOf x = some p → y = .inf n → r = ⟨signBits f neg, 0⟩) ∧
    (∀ n k, x = .inf n → y = .inf k → r = ⟨f.canon, flNV⟩) ∧
    (x.isNan = true ∨ y.isNan = true → r = ⟨f.canon, nvIf (x.isSig || y.isSig)⟩) ∧
    (∀ q, Claims.ratOf x = some q → q ≠ 0 → Claims.RoundedRes g rm false (decide (q < 0)) ((|q| : ℚ) : ℝ) c) ∧
    (x.isZero = true → c = ⟨signBits g x.neg, 0⟩) ∧ (∀ n, x = .inf n → c = ⟨signBits g n + g.infBits, 0⟩) ∧
    (x.isNan = true → c = ⟨g.canon, nvIf x.isSig⟩) ∧
    ∀ (t : IFmt) (v : Word), (t.n = 32 ∨ t.n = 64) →
      Claims.ToInteger f t rm a (fcvtToInt f t rm a) ∧
      let n : Int := if t.sgn then (if t.n = 32 then (v.setWidth 32).toInt else v.toInt) else (v.toNat % 2 ^ t.n : Nat)
      (n = 0 → fcvtFromInt t f rm false v.toNat = ⟨0, 0⟩) ∧
      (n ≠ 0 → Claims.RoundedRes f rm false (decide (n < 0)) ((|n| : Int) : ℝ) (fcvtFromInt t f rm false v.toNat))) ∧
  ∀ b, b < 2 ^ 64 →
    let neg := 2 ^ 63 ≤ b
    let e := b / 2 ^ 52 % 2048
    let m := b % 2 ^ 52
    fclassBit .f64 b =
      if e = 2047 then (if m = 0 then (if neg then 0 else 7) else if m < 2 ^ 51 then 8 else 9)
      else if e = 0 then (if m = 0 then (if neg then 3 else 4) else if neg then 2 else 5)
      else if neg then 1 else 6

/-- `Claims.StandardFloatForms`, `Claims.StandardFloatValues` together. -/
def Obligations.StandardFloatInstructions : Prop :=
  Claims.StandardFloatForms ∧ Claims.StandardFloatValues

/-! ## Exceptions -/

/-- R70, R72, R74, R75: a synchronous trap saves pc, cause, trap value and subcause in the registers of the mode that takes it,
stacks the interrupt enable and the mode, and goes to the vector's base; the rest of the hart is unchanged but for lfault. -/
def Claims.TrapEntry : Prop :=
  ∀ (h : Hart) (cause sub : Nat) (tval : Word), cause < 64 →
    let k := h.takeTrap ⟨cause, sub, tval⟩
    let toS := h.mode ≠ .m ∧ h.csr.medeleg.getLsbD cause = true
    (toS → k.mode = .s ∧ k.csr.sepc = h.pc ∧ k.csr.scause = BitVec.ofNat 64 cause ∧ k.csr.stval = tval ∧
      k.csr.sxcause = BitVec.ofNat 64 sub ∧ k.pc = h.csr.stvec &&& ~~~3#64 ∧
      k.csr.mstatus.getLsbD 1 = false ∧ k.csr.mstatus.getLsbD 5 = h.csr.mstatus.getLsbD 1 ∧
      (k.csr.mstatus.getLsbD 8 = true ↔ h.mode = .s) ∧
      (∀ b, b ≠ 1 → b ≠ 5 → b ≠ 8 → k.csr.mstatus.getLsbD b = h.csr.mstatus.getLsbD b) ∧
      k.csr = { h.csr with sepc := k.csr.sepc, scause := k.csr.scause, stval := k.csr.stval, sxcause := k.csr.sxcause, mstatus := k.csr.mstatus }) ∧
    (¬toS → k.mode = .m ∧ k.csr.mepc = h.pc ∧ k.csr.mcause = BitVec.ofNat 64 cause ∧ k.csr.mtval = tval ∧
      k.csr.mxcause = BitVec.ofNat 64 sub ∧ k.pc = h.csr.mtvec &&& ~~~3#64 ∧
      k.csr.mstatus.getLsbD 3 = false ∧ k.csr.mstatus.getLsbD 7 = h.csr.mstatus.getLsbD 3 ∧
      wfield k.csr.mstatus 11 2 = h.mode.code ∧
      (∀ b, b ≠ 3 → b ≠ 7 → b ≠ 11 → b ≠ 12 → k.csr.mstatus.getLsbD b = h.csr.mstatus.getLsbD b) ∧
      k.csr = { h.csr with mepc := k.csr.mepc, mcause := k.csr.mcause, mtval := k.csr.mtval, mxcause := k.csr.mxcause, mstatus := k.csr.mstatus }) ∧
    k = { h with csr := k.csr, mode := k.mode, pc := k.pc, lfault := 0, run := .ready, answer := none, results := [] }

/-- R33, R72, R382: the environment call and the breakpoint take their exceptions in every mode; where external debug is invasive
and dcsr sends the mode's breakpoint to it, `ebreak` halts the hart instead. (Model: the trap value of a breakpoint: log 7; debug
mode: log 8.) -/
def Claims.EnvironmentCallsTrap : Prop :=
  ∀ s : State,
    (s.hart.mode = .u → Gives (.standardInstruction .ecall) s (Traps s 8 0 0)) ∧
    (s.hart.mode = .s → Gives (.standardInstruction .ecall) s (Traps s 9 0 0)) ∧
    (s.hart.mode = .m → Gives (.standardInstruction .ecall) s (Traps s 11 0 0)) ∧
    (s.debugOpen = false ∨ s.hart.ebreakHalts = false → Gives (.standardInstruction .ebreak) s (Traps s 3 0 s.hart.pc)) ∧
    (s.debugOpen = true → s.hart.ebreakHalts = true → Gives (.standardInstruction .ebreak) s (fun t =>
      t = { s with hart := { s.hart with dbg := t.hart.dbg } } ∧ t.hart.dbg.halted = true ∧ t.hart.dbg.dpc = s.hart.pc ∧
      wfield t.hart.dbg.dcsr 6 3 = 1 ∧ wfield t.hart.dbg.dcsr 0 2 = s.hart.mode.code)) ∧
    ∀ w : Word, Gives (.standardInstruction (.illegal w)) s (Traps s 2 0 w)

/-- R33, R70: a return from a trap goes to the saved pc in the saved mode and unstacks the interrupt enable; `mret` is legal in M
mode, `sret` in M mode and, with mstatus.TSR clear, in S mode; elsewhere the return is an illegal instruction. -/
def Claims.TrapReturn : Prop :=
  ∀ s : State,
    let h := s.hart
    let back (k : Hart) : Prop := k = { h.countRetired with
      mode := k.mode, pc := k.pc, csr := { h.countRetired.csr with mstatus := k.csr.mstatus }
      run := .ready, answer := none, results := [], obsWait := none }
    (h.mode = .m → Gives (.xret true) s (fun t => ∃ k, t = { s with hart := k } ∧ back k ∧ k.pc = h.csr.mepc ∧
      (k.mode = .u ↔ wfield h.csr.mstatus 11 2 = 0) ∧ (k.mode = .s ↔ wfield h.csr.mstatus 11 2 = 1) ∧
      k.csr.mstatus.getLsbD 3 = h.csr.mstatus.getLsbD 7 ∧ k.csr.mstatus.getLsbD 7 = true ∧
      wfield k.csr.mstatus 11 2 = 0 ∧ (k.mode ≠ .m → k.csr.mstatus.getLsbD 17 = false))) ∧
    (h.mode ≠ .m → Gives (.xret true) s (Traps s 2 0 h.ir)) ∧
    (h.mode = .m ∨ (h.mode = .s ∧ h.csr.mstatus.getLsbD 22 = false) →
      Gives (.xret false) s (fun t => ∃ k, t = { s with hart := k } ∧ back k ∧ k.pc = h.csr.sepc ∧
        (h.csr.mstatus.getLsbD 8 = true → k.mode = .s) ∧ (h.csr.mstatus.getLsbD 8 = false → k.mode = .u) ∧
        k.csr.mstatus.getLsbD 1 = h.csr.mstatus.getLsbD 5 ∧ k.csr.mstatus.getLsbD 5 = true ∧
        k.csr.mstatus.getLsbD 8 = false ∧ k.csr.mstatus.getLsbD 17 = false)) ∧
    (h.mode = .u ∨ (h.mode = .s ∧ h.csr.mstatus.getLsbD 22 = true) → Gives (.xret false) s (Traps s 2 0 h.ir))

/-- R72, R73, R77: the focused hart takes the pending interrupt that is open to it, its cause word having bit 63 set: ready, before
the instruction at its pc; in `wfi` or a wait for a reservation, after it; with none pending, nothing happens. (Model: an interrupt
is taken at a boundary of the model's agenda: log 2.) -/
def Claims.InterruptEntry : Prop :=
  ∀ s : State,
    let taken (i : Nat) (at_ : Word) : Prop := Gives .interruptEntry s (fun t => ∃ k, t = { s with hart := k } ∧
      (s.hart.csr.mideleg.getLsbD i = true → k.mode = .s ∧ k.csr.sepc = at_ ∧
        k.csr.scause = BitVec.ofNat 64 (2 ^ 63 + i) ∧ k.csr.stval = 0) ∧
      (s.hart.csr.mideleg.getLsbD i = false → k.mode = .m ∧ k.csr.mepc = at_ ∧
        k.csr.mcause = BitVec.ofNat 64 (2 ^ 63 + i) ∧ k.csr.mtval = 0))
    (∀ i, s.nextInt = some i → i < 64 →
      (s.hart.run = .ready → taken i s.hart.pc) ∧
      (∀ b l, s.hart.run = .waiting .wfi ∨ s.hart.run = .waiting (.zawrs b l) → taken i s.hart.retire.pc)) ∧
    (s.nextInt = none → Gives .interruptEntry s (fun t => t = s))

/-- `Claims.TrapEntry`, `Claims.InterruptEntry`, `Claims.EnvironmentCallsTrap`, `Claims.TrapReturn` together. -/
def Obligations.TrapsInterruptsAndReturns : Prop :=
  Claims.TrapEntry ∧ Claims.InterruptEntry ∧ Claims.EnvironmentCallsTrap ∧ Claims.TrapReturn

/-! ## CSRs -/

/-- R33, R68: reading a CSR gives its value to rd; a CSR that does not exist or that the mode may not reach is an illegal
instruction. (Model: which standard CSRs exist, and their legal values, are the model's choice where the spec leaves them open: log
7.) -/
def Claims.CsrReads : Prop :=
  ∀ (op : CsrOp) (imm : Bool) (csr : BitVec 12) (rd src : XReg) (s : State),
    (∀ v, s.csrVal csr.toNat = some v → s.hart.csrOk csr.toNat false = true → csrWrites op src = false →
      Gives (.csrAccess op imm csr rd src) s (Retires s (XWritten s.hart rd v))) ∧
    (s.csrVal csr.toNat = none ∨ s.hart.csrOk csr.toNat (csrWrites op src) = false →
      Gives (.csrAccess op imm csr rd src) s (Traps s 2 0 s.hart.ir) ∧
      Gives (.loopCsrWrite op imm csr rd src) s (Traps s 2 0 s.hart.ir))

/-- R33, R68, R93: a write of a scratch register and of a loop's count takes effect, with the operation's new value, and rd gets the
old one. -/
def Claims.CsrWrites : Prop :=
  ∀ (op : CsrOp) (imm : Bool) (rd src : XReg) (s : State), csrWrites op src = true →
    let h := s.hart
    let v : Word := if imm then src.setWidth 64 else h.getX src
    let new (o : Word) : Word := if op = .rw then v else if op = .rs then o ||| v else o &&& ~~~v
    (h.mode = .m → Gives (.csrAccess op imm 0x340 rd src) s (Retires s (fun k =>
      XWritten { h with csr := { h.csr with mscratch := new h.csr.mscratch } } rd h.csr.mscratch k))) ∧
    (h.mode ≠ .u → Gives (.csrAccess op imm 0x140 rd src) s (Retires s (fun k =>
      XWritten { h with csr := { h.csr with sscratch := new h.csr.sscratch } } rd h.csr.sscratch k))) ∧
    Gives (.loopCsrWrite op imm 0x800 rd src) s (Retires s (fun k =>
      XWritten { h with lpcnt0 := new h.lpcnt0 } rd h.lpcnt0 k)) ∧
    Gives (.loopCsrWrite op imm 0x804 rd src) s (Retires s (fun k =>
      XWritten { h with lpcnt1 := new h.lpcnt1 } rd h.lpcnt1 k))

/-- `Claims.CsrReads`, `Claims.CsrWrites` together. -/
def Obligations.CsrReadsAndWrites : Prop :=
  Claims.CsrReads ∧ Claims.CsrWrites

/-! ## Control and scheduling -/

/-- R92, R93: retiring in sequence makes the end test of level 1 first and of level 0 only if level 1 did not branch back, in U mode
outside the user-interrupt handler; at a pending exit the level ends without branching back; else each test counts its level down
and branches back while it is active. -/
def Claims.LoopEndTests : Prop :=
  ∀ h : Hart, h.mode = .u → h.uiAct = false →
    let nxt := h.pc + BitVec.ofNat 64 h.ilen
    let exit1 := h.lpxe1 = nxt ∧ nxt ≠ 0
    let exit0 := h.lpxe0 = nxt ∧ nxt ≠ 0
    let end1 := ¬exit1 ∧ h.lpcnt1 ≠ 0 ∧ h.lpend1 = nxt
    let end0 := ¬exit0 ∧ h.lpcnt0 ≠ 0 ∧ h.lpend0 = nxt
    let k := h.retire
    (end1 ∧ h.lpcnt1 ≠ 1 → k.pc = h.lpbeg1 ∧ k.lpcnt1 = h.lpcnt1 - 1 ∧ k.lpcnt0 = h.lpcnt0 ∧ k.lpxe1 = h.lpxe1 ∧ k.lpxe0 = h.lpxe0) ∧
    (¬(end1 ∧ h.lpcnt1 ≠ 1) →
      k.lpcnt1 = (if exit1 ∨ end1 then 0 else h.lpcnt1) ∧ k.lpxe1 = (if exit1 then 0 else h.lpxe1) ∧
      k.lpcnt0 = (if exit0 then 0 else if end0 then h.lpcnt0 - 1 else h.lpcnt0) ∧ k.lpxe0 = (if exit0 then 0 else h.lpxe0) ∧
      k.pc = if end0 ∧ h.lpcnt0 ≠ 1 then h.lpbeg0 else nxt)

/-- R68, R93: a write of a loop's end takes effect at once, and where the next instruction lies at or beyond it in an active level,
the old end becomes the pending exit; a write of its beginning or of its pending exit writes that alone. -/
def Claims.LoopEndWrites : Prop :=
  ∀ (op : CsrOp) (imm : Bool) (rd src : XReg) (s : State), csrWrites op src = true →
    let h := s.hart
    let v : Word := if imm then src.setWidth 64 else h.getX src
    let new (o : Word) : Word := if op = .rw then v else if op = .rs then o ||| v else o &&& ~~~v
    let nxt := h.pc + BitVec.ofNat 64 h.ilen
    let writes (csr : BitVec 12) (o : Word) (k : Hart) : Prop :=
      Gives (.loopCsrWrite op imm csr rd src) s (Retires s (XWritten k rd o))
    writes 0x802 h.lpend0 { h with lpend0 := new h.lpend0
                                   lpxe0 := if h.lpcnt0 ≠ 0 ∧ (new h.lpend0).toNat ≤ nxt.toNat then h.lpend0 else h.lpxe0 } ∧
    writes 0x806 h.lpend1 { h with lpend1 := new h.lpend1
                                   lpxe1 := if h.lpcnt1 ≠ 0 ∧ (new h.lpend1).toNat ≤ nxt.toNat then h.lpend1 else h.lpxe1 } ∧
    writes 0x801 h.lpbeg0 { h with lpbeg0 := new h.lpbeg0 } ∧ writes 0x805 h.lpbeg1 { h with lpbeg1 := new h.lpbeg1 } ∧
    writes 0x803 h.lpxe0 { h with lpxe0 := new h.lpxe0 } ∧ writes 0x807 h.lpxe1 { h with lpxe1 := new h.lpxe1 }

/-- R92: an instruction that retires in S or M mode, or within the user-interrupt handler, goes to the next one in sequence and
leaves both loop levels as they are; and whatever the mode, retiring changes only pc, the loop counts, the retired count and what
the hart waited in. -/
def Claims.RetireFrame : Prop :=
  ∀ h : Hart,
    (h.mode ≠ .u ∨ h.uiAct = true →
      h.retire.pc = h.pc + BitVec.ofNat 64 h.ilen ∧ h.retire.lpcnt0 = h.lpcnt0 ∧ h.retire.lpcnt1 = h.lpcnt1) ∧
    h.retire = { h with
      pc := h.retire.pc, lpcnt0 := h.retire.lpcnt0, lpxe0 := h.retire.lpxe0, lpcnt1 := h.retire.lpcnt1, lpxe1 := h.retire.lpxe1
      csr := { h.csr with minstret := h.retire.csr.minstret }, run := .ready, answer := none, results := [], obsWait := none }

/-- R91: a loop instruction in U mode sets its level and goes on, or with count 0 goes to its end; in S and M mode and in the
user-interrupt handler it is an illegal instruction. -/
def Claims.HardwareLoopStart : Prop :=
  ∀ (lvl : Bool) (rs1 : XReg) (len : BitVec 12) (count : BitVec 12) (len10 : BitVec 10) (s : State),
    let h := s.hart
    let sets (c : Word) (n : Nat) (k : Hart) : Prop :=
      k = if lvl then { h with lpcnt1 := c, lpbeg1 := h.pc + 4, lpend1 := h.pc + 4 + BitVec.ofNat 64 (2 * n), lpxe1 := 0 }
        else { h with lpcnt0 := c, lpbeg0 := h.pc + 4, lpend0 := h.pc + 4 + BitVec.ofNat 64 (2 * n), lpxe0 := 0 }
    (h.mode = .u → h.uiAct = false →
      (h.getX rs1 ≠ 0 → Gives (.hloop lvl rs1 len) s (Retires s (sets (h.getX rs1) len.toNat))) ∧
      (h.getX rs1 = 0 → Gives (.hloop lvl rs1 len) s (Jumps s (h.pc + 4 + BitVec.ofNat 64 (2 * len.toNat)) (sets 0 len.toNat))) ∧
      (count ≠ 0 → Gives (.hloopi lvl count len10) s (Retires s (sets (count.setWidth 64) len10.toNat)))) ∧
    (h.mode ≠ .u ∨ h.uiAct = true →
      Gives (.hloop lvl rs1 len) s (Traps s 2 0 h.ir) ∧ Gives (.hloopi lvl count len10) s (Traps s 2 0 h.ir))

/-- `Claims.LoopEndTests`, `Claims.LoopEndWrites`, `Claims.RetireFrame`, `Claims.HardwareLoopStart` together. -/
def Obligations.RetirementAndLoops : Prop :=
  Claims.LoopEndTests ∧ Claims.LoopEndWrites ∧ Claims.RetireFrame ∧ Claims.HardwareLoopStart

/-- R84, R85, R88: an exit leaves an empty place; `cont` leaves a place that waits for its event with the role's initial allocation,
x10 and the new address; an event word that names nothing, or a domain of which the hart is no member, is illegal, and at two
arrivals not yet consumed the hart waits; in M mode both are illegal instructions. (Model: the registers that a continuation
reserves: log 56; events that its queue had not taken yet: log 71.) -/
def Claims.ExitAndContinue : Prop :=
  ∀ (rs1 rs2 : XReg) (ev : ContEvent) (s : State),
    let h := s.hart
    let event := contEvent (fun c => (s.codeDom c).map Dom.key) (h.getX rs1)
    (h.mode ≠ .m →
      Gives .hexit s (fun t => t.hart = Hart.fresh h.gid) ∧
      (event = some ev → (∀ k, ev = .barrier k → s.isMember (s.dom k) = true ∧ (s.dom k).c h.gid ≠ 2) →
        Gives (.cont rs1 rs2) s (fun t => t.hart.gid = h.gid ∧ t.hart.run = .cont ev ∧ t.hart.pc = h.getX rs2 ∧
          t.hart.getX 10 = h.getX 10 ∧ t.hart.team = h.team ∧ t.hart.role = h.role ∧ t.hart.num = h.num ∧
          t.hart.lalloc = (s.launchOf h.team).roleAlloc h.role)) ∧
      (event = none → Gives (.cont rs1 rs2) s (Traps s 2 0 h.ir)) ∧
      (∀ k, event = some (.barrier k) →
        (s.isMember (s.dom k) = false → Gives (.cont rs1 rs2) s (Traps s 2 0 h.ir)) ∧
        (s.isMember (s.dom k) = true → (s.dom k).c h.gid = 2 → h.run = .ready →
          Gives (.cont rs1 rs2) s (fun t => t.hart.run = .waiting (.barrier k false) ∧ t.hart.pc = h.pc)))) ∧
    (h.mode = .m → Gives .hexit s (Traps s 2 0 h.ir) ∧ Gives (.cont rs1 rs2) s (Traps s 2 0 h.ir))

/-- R88, R353, R354: a continuation whose event is complete becomes a hart at its address, with its x10 and with x11 = 0; after its
launch has expired the hart is in wrap-up. (Model: a query that is not outstanding counts as complete: log 36; how an event word
names a descriptor: log 72.) -/
def Claims.ContinuationStarts : Prop :=
  ∀ (ev : ContEvent) (s : State),
    let p := s.hartOf s.sel
    p.run = .cont ev → s.contDone p ev = true → (s.team p.team).phase = .running →
    Gives .continuationStart s (fun t =>
      (t.hartOf s.sel).run = .ready ∧ (t.hartOf s.sel).pc = p.pc &&& ~~~1#64 ∧ (t.hartOf s.sel).getX 10 = p.getX 10 ∧
      (t.hartOf s.sel).getX 11 = 0 ∧ (t.hartOf s.sel).team = p.team ∧ (t.hartOf s.sel).lalloc = p.lalloc ∧
      (t.hartOf s.sel).wrapup = s.expired p.team)

/-- `Claims.ExitAndContinue`, `Claims.ContinuationStarts` together. -/
def Obligations.ExitAndContinuation : Prop :=
  Claims.ExitAndContinue ∧ Claims.ContinuationStarts

/-- R84, R87, R354: `spawn` creates a hart of the same team and role, which may issue once it is eligible, and returns its id; where
no place, allocation or team seat is free it returns all ones and changes nothing else; in M mode it is illegal. -/
def Claims.SpawnCreatesHart : Prop :=
  ∀ (rd rs1 rs2 : XReg) (g : Nat) (s : State),
    let h := s.hart
    let alloc := (s.launchOf h.team).roleAlloc h.role
    let free := (s.teamPlaces h.team).length < 32 ∧ s.canAlloc s.coreNo alloc = true
    (h.mode ≠ .m → free → s.freePlace s.coreNo = some g → h.run.isHart = true →
      Gives (.spawn rd rs1 rs2) s (fun t =>
        t.hart.pc = h.retire.pc ∧ (∀ r, t.hart.getX r = if r = rd ∧ r ≠ 0 then BitVec.ofNat 64 g else h.getX r) ∧
        (t.hartOf g).run = .starting ∧ (t.hartOf g).team = h.team ∧ (t.hartOf g).role = h.role ∧
        (t.hartOf g).lalloc = alloc ∧ (t.hartOf g).pc = h.getX rs1 &&& ~~~1#64 ∧ (t.hartOf g).getX 10 = h.getX rs2 ∧
        (t.hartOf g).wrapup = s.expired h.team)) ∧
    (h.mode ≠ .m → ¬free ∨ s.freePlace s.coreNo = none →
      Gives (.spawn rd rs1 rs2) s (Retires s (XWritten h rd 0xFFFFFFFFFFFFFFFF#64))) ∧
    (h.mode = .m → Gives (.spawn rd rs1 rs2) s (Traps s 2 0 h.ir)) ∧
    ((s.hartOf s.sel).run = .starting →
      Gives .spawnedHartEligible s (fun t => t.hartOf s.sel = { s.hartOf s.sel with run := .ready }))

/-- R66, R67, R84, R89: a request within the budget that the pool can grant is granted at once or, later, from the head of the list;
one that the pool cannot grant waits; `rshrink` gives up the highest registers and keeps the others; a request beyond the budget,
one that gives up more than there is or a register bound to a stream, and either in M mode, is illegal. (Model: where granted
registers lie: log 55.) -/
def Claims.LaneRegisterPool : Prop :=
  ∀ (rd rs1 : XReg) (s : State),
    let h := s.hart
    let n := 32 * (h.getX rs1).toNat
    let most := min ((s.launchOf h.team).roleBudget h.role) 640
    (h.mode ≠ .m → h.answer = none →
      (n = 0 → Gives (.rgrow rd rs1) s (Retires s (XWritten h rd (BitVec.ofNat 64 h.lalloc)))) ∧
      (n ≠ 0 → h.run = .ready → h.lalloc + n ≤ most →
        (s.growFirst (s.prio h) = true → s.canAlloc s.coreNo n = true →
          Gives (.rgrow rd rs1) s (fun t => ∃ k, t = { s with cores := t.cores, hart := k.retire } ∧
            XWritten { h with lalloc := h.lalloc + n } rd (BitVec.ofNat 64 (h.lalloc + n)) k ∧
            ∀ c, t.core c = { s.core c with gran := (t.core c).gran })) ∧
        (s.growFirst (s.prio h) = false ∨ s.canAlloc s.coreNo n = false →
          Gives (.rgrow rd rs1) s (fun t => t.hart.run = .waiting (.rgrow n) ∧ t.hart.pc = h.pc ∧ t.hart.lalloc = h.lalloc ∧
            ∀ w, w ∈ (t.core s.coreNo).grow ↔ w = ⟨s.prio h, h.gid⟩ ∨ w ∈ (s.core s.coreNo).grow))) ∧
      (n ≠ 0 → most < h.lalloc + n → Gives (.rgrow rd rs1) s (Traps s 2 0 h.ir))) ∧
    (h.mode ≠ .m → ∀ v, h.answer = some v → Gives (.rgrow rd rs1) s (Retires s (XWritten h rd v))) ∧
    (∀ (w : Waiter) (r : List Waiter) (m : Nat), (s.core (gidCore s.sel)).grow = w :: r → w.gid = s.sel →
      (s.hartOf s.sel).run = .waiting (.rgrow m) → s.canAlloc (gidCore s.sel) m = true →
      Gives .registerPoolGrant s (fun t => (t.core (gidCore s.sel)).grow = r ∧
        (t.hartOf s.sel) = { s.hartOf s.sel with
          lalloc := (s.hartOf s.sel).lalloc + m, answer := some (BitVec.ofNat 64 ((s.hartOf s.sel).lalloc + m)) })) ∧
    (h.mode ≠ .m → n ≤ h.lalloc → (∀ e ∈ h.strm, e.2.bound = true → e.2.reg < h.lalloc - n) →
      Gives (.rshrink rs1) s (Retires s (fun k => k = { h with lalloc := h.lalloc - n, v := k.v } ∧
        ∀ r i, r < h.lalloc - n → i < 32 → k.getV r i = h.getV r i))) ∧
    (h.mode ≠ .m → h.lalloc < n ∨ (∃ e ∈ h.strm, e.2.bound = true ∧ h.lalloc - n ≤ e.2.reg) →
      Gives (.rshrink rs1) s (Traps s 2 0 h.ir)) ∧
    (h.mode = .m → Gives (.rgrow rd rs1) s (Traps s 2 0 h.ir) ∧ Gives (.rshrink rs1) s (Traps s 2 0 h.ir))

/-- `Claims.SpawnCreatesHart`, `Claims.LaneRegisterPool` together. -/
def Obligations.SpawnAndRegisterPool : Prop :=
  Claims.SpawnCreatesHart ∧ Claims.LaneRegisterPool

/-- R77, R80 to R83: entry to the user-interrupt handler saves pc, cause and identification, exchanges the bank and goes to the
handler; out of a wait it names the waiting instruction, out of `wfi` and the Zawrs waits the next one; an event enters the queue,
or while the queue is full is held by its source, whose oldest enters once the hart takes one; none is taken while the handler is
active; `uiret` exchanges the bank back and returns; `uimask` opens a window, which expires. -/
def Obligations.UserInterrupts : Prop :=
  ∀ (n : BitVec 12) (e : UiEvent) (r : List UiEvent) (s : State),
    let h := s.hart
    let swapped (k : Hart) : Prop := (∀ q : XReg, q.toNat ∈ bankRegs →
        k.getX q = fget 0 h.shadow q.toNat ∧ fget 0 k.shadow q.toNat = h.getX q) ∧
      ∀ q : XReg, q.toNat ∉ bankRegs → k.getX q = h.getX q
    (h.mode = .u → h.uiAct = true → Gives .uiret s (fun t => ∃ k, t = { s with hart := k } ∧ swapped k ∧
      k.pc = h.uiepc ∧ k.uiAct = false ∧ k.v = h.v ∧ k.m = h.m)) ∧
    (h.mode ≠ .u ∨ h.uiAct = false → Gives .uiret s (Traps s 2 0 h.ir)) ∧
    (s.uiOpen = true → h.run = .ready → h.uiq = e :: r → h.uiHeld = [] → e.acq = none →
      Gives .uiEntry s (fun t => ∃ k, t = { s with hart := k } ∧ swapped k ∧ k.uiepc = h.pc ∧
        k.uicause = BitVec.ofNat 64 e.cause ∧ k.uiid = e.ident ∧ k.uiAct = true ∧ k.uiq = r ∧
        k.pc = if e.handler = 0 then h.uivec + BitVec.ofNat 64 (4 * e.cause) else e.handler)) ∧
    (s.uiOpen = true → h.run = .ready ∨ (∃ w, h.run = .waiting w) → h.uiq = e :: r → Gives .uiEntry s (fun t =>
      swapped t.hart ∧ t.hart.uicause = BitVec.ofNat 64 e.cause ∧ t.hart.uiid = e.ident ∧ t.hart.uiAct = true ∧ t.hart.run = .ready ∧
      t.hart.pc = (if e.handler = 0 then h.uivec + BitVec.ofNat 64 (4 * e.cause) else e.handler) ∧
      ((h.run = .waiting .wfi ∨ ∃ b l, h.run = .waiting (.zawrs b l)) → t.hart.uiepc = h.retire.pc) ∧
      (h.run ≠ .waiting .wfi → (∀ b l, h.run ≠ .waiting (.zawrs b l)) → t.hart.uiepc = h.pc) ∧
      (h.uiHeld = [] → t.hart.uiq = r ∧ t.hart.uiHeld = []) ∧
      ∀ x q, h.uiHeld = x :: q → if r.length < 16
        then t.hart.uiq = r ++ [x] ∧ t.hart.uiHeld = q ∧ ∀ c, x.dec = some c → t.hart.cnt c = h.cnt c - 1
        else t.hart.uiq = r ∧ t.hart.uiHeld = x :: q)) ∧
    (∀ (g : Nat) (x : UiEvent), (s.hartOf g).run.isHart = true →
      let k := s.hartOf g
      let k' := (s.sendUi g x).hartOf g
      if k.uiq.length < 16 ∧ k.uiHeld = []
        then k'.uiq = k.uiq ++ [x] ∧ k'.uiHeld = [] ∧ ∀ c, x.dec = some c → k'.cnt c = k.cnt c - 1
        else k'.uiq = k.uiq ∧ k'.uiHeld = k.uiHeld ++ [x] ∧ ∀ c, k'.cnt c = k.cnt c) ∧
    (s.uiOpen = false ∨ h.uiAct = true → Gives .uiEntry s (fun t => t = s)) ∧
    (h.mode = .m → Gives (.uimask n) s (Traps s 2 0 h.ir)) ∧
    (h.mode ≠ .m → Gives (.uimask n) s (Retires s (fun k =>
      k = { h with uiUntil := s.clock + if n = 0 then 4096 else n.toNat }))) ∧
    ((s.hartOf s.sel).uiUntil ≠ 0 → (s.hartOf s.sel).uiUntil ≤ s.clock → (s.hartOf s.sel).run ≠ .vacant →
      Gives .uimaskWindowExpire s (fun t => t.hartOf s.sel = { s.hartOf s.sel with uiUntil := 0 }))

/-- R32, R71, R86, R90, R223, R318: `yield` only retires; `lbfence` performs what waits at the loop-back port; a fence with writes
in its first set performs the hart's stores, and one with reads in it takes the cluster's lines out of its L1; `fence.i` makes every
store so far visible to its fetch; `sfence.vma` removes the translations that it names, and is illegal in U mode and, under
mstatus.TVM, in S mode. (Model: what a fence reorders is not shown: log 26; the bytes that a fetch sees before a `fence.i`: log 14;
walk caches: log 10.) -/
def Claims.FencesAndYield : Prop :=
  ∀ (fm pred succ : BitVec 4) (rs1 rs2 : XReg) (s : State),
    let h := s.hart
    let va : Option Nat := if rs1 = 0 then none else some (h.getX rs1).toNat
    let asid : Option Nat := if rs2 = 0 then none else some ((h.getX rs2).extractLsb' 0 16).toNat
    Gives .yield s (Retires s (fun k => k = h)) ∧
    Gives .lbfence s (fun t => t = { s with cores := t.cores, wlog := t.wlog, hart := h.retire } ∧ (t.core s.coreNo).lb = [] ∧
      ∀ e ∈ (t.core s.coreNo).lbOld, e.gid ≠ h.gid) ∧
    (pred.getLsbD 0 = true ∨ pred.getLsbD 2 = true → Gives (.fence fm pred succ) s (fun t =>
      (∀ e ∈ t.farBuf, e.gid ≠ h.gid) ∧ (∀ e ∈ (t.core s.coreNo).lb, e.gid ≠ h.gid) ∧ t.hart.cnt2 = 0 ∧ t.hart.cnt3 = 0 ∧
      t.hart.x = h.x ∧ t.hart.pc = h.retire.pc)) ∧
    (pred.getLsbD 1 = true ∨ pred.getLsbD 3 = true → Gives (.fence fm pred succ) s (fun t =>
      (∀ e ∈ t.l1, e.cluster ≠ s.clusterNo) ∧ t.hart.x = h.x ∧ t.hart.pc = h.retire.pc)) ∧
    (pred = 0 → Gives (.fence fm pred succ) s (Retires s (fun k => k = h))) ∧
    Gives .fenceI s (fun t => t.hart.fenceSeq = t.wlog.length ∧ (∀ e ∈ t.farBuf, e.gid ≠ h.gid) ∧ t.hart.pc = h.retire.pc ∧ t.hart.x = h.x) ∧
    (h.mode = .m ∨ (h.mode = .s ∧ h.csr.mstatus.getLsbD 20 = false) →
      Gives (.sfenceVma rs1 rs2) s (fun t => t = { s with tlb := t.tlb, walkc := t.walkc, hart := h.retire } ∧
        (∀ e, e ∈ t.tlb ↔ e ∈ s.tlb ∧ ¬(e.place.within s.clusterNo = true ∧ tlbStruck va asid e true = true)) ∧
        ∀ e, e ∈ t.walkc ↔ e ∈ s.walkc ∧ ¬(e.die = s.dieNo ∧ walkcStruck va asid e true = true))) ∧
    (h.mode = .u ∨ (h.mode = .s ∧ h.csr.mstatus.getLsbD 20 = true) → Gives (.sfenceVma rs1 rs2) s (Traps s 2 0 h.ir))

/-- R33, R34, R77: the waits for an interrupt and for a reservation retire once their condition holds or under a single step, wait
at their own pc until then, and end with their bounds: `wrs.sto` retires after 16,384 ck, and mstatus.TW makes the others illegal
after 65,536 ck; a `wfi` of U mode has the same bound whatever TW holds, by the model's choice (log 50). (Model: the bound of a
`wfi` in U mode: log 50.) -/
def Claims.WaitInstructions : Prop :=
  ∀ (l : Nat) (s : State),
    let h := s.hart
    let f := s.focus s.sel
    (s.wakeUp = true ∨ h.dbg.step = true → Gives .wfi s (Retires s (fun k => k = h))) ∧
    (s.wakeUp = false → h.dbg.step = false → h.run = .ready →
      Gives .wfi s (fun t => t.hart.run = .waiting .wfi ∧ t.hart.pc = h.pc)) ∧
    (h.resv = none ∨ s.wakeUp = true ∨ h.dbg.step = true →
      Gives .wrsNto s (Retires s (fun k => k = h)) ∧ Gives .wrsSto s (Retires s (fun k => k = h))) ∧
    (h.resv = some l → s.wakeUp = false → h.dbg.step = false → h.run = .ready →
      Gives .wrsNto s (fun t => t.hart.run = .waiting (.zawrs true l) ∧ t.hart.pc = h.pc) ∧
      Gives .wrsSto s (fun t => t.hart.run = .waiting (.zawrs false l) ∧ t.hart.pc = h.pc)) ∧
    (f.hart.run = .waiting (.zawrs false l) → f.hart.waitFrom + 16384 ≤ f.clock →
      Gives .wrsStoTimeout s (Retires f (fun k => k = f.hart))) ∧
    (∀ w, (w = .wfi ∨ w = .zawrs true l) → f.hart.run = .waiting w → f.hart.mode ≠ .m →
      f.hart.csr.mstatus.getLsbD 21 = true ∨ (f.hart.mode = .u ∧ w = .wfi) → f.hart.waitFrom + 65536 ≤ f.clock → Gives .twTimeout s (Traps f 2 0 f.hart.ir))

/-- `Claims.FencesAndYield`, `Claims.WaitInstructions` together. -/
def Obligations.FencesAndWaits : Prop :=
  Claims.FencesAndYield ∧ Claims.WaitInstructions

/-! ## Core-local synchronisation -/

/-- R181 to R184: a signal adds, saturating, and grants from the head of the list; a wait and a try whose amount is there take it;
without it a try returns 0 and a wait joins the list; all are illegal in M mode, and with a semaphore or an amount outside the
team's limits. (Model: a grant is made also after a waiter leaves: log 28.) -/
def Claims.Semaphores : Prop :=
  ∀ (rd rs1 rs2 : XReg) (j n : Nat) (s : State),
    let h := s.hart
    let c := s.coreNo
    let e := (s.core c).sem j
    (h.mode = .m → Gives (.semSig rs1 rs2) s (Traps s 2 0 h.ir) ∧ Gives (.semWait rs1 rs2) s (Traps s 2 0 h.ir) ∧
      Gives (.semTry rd rs1 rs2) s (Traps s 2 0 h.ir)) ∧
    (s.semArgs rs1 rs2 = none → Gives (.semSig rs1 rs2) s (Traps s 2 0 h.ir) ∧ Gives (.semWait rs1 rs2) s (Traps s 2 0 h.ir) ∧
      Gives (.semTry rd rs1 rs2) s (Traps s 2 0 h.ir)) ∧
    (h.mode ≠ .m → s.semArgs rs1 rs2 = some (j, n) →
      Gives (.semSig rs1 rs2) s (fun t =>
        let g := grantSem (min (e.cnt + n) 65535) e.list
        (t.core c).sem j = ⟨g.1, g.2.1⟩ ∧ t.hart.x = h.x) ∧
      (e.list = [] → n ≤ e.cnt →
        Gives (.semWait rs1 rs2) s (fun t => t = { s with cores := t.cores, hart := h.retire } ∧
          (t.core c).sem j = ⟨e.cnt - n, []⟩) ∧
        Gives (.semTry rd rs1 rs2) s (fun t => (∃ k, XWritten h rd 1 k ∧ t = { s with cores := t.cores, hart := k.retire }) ∧
          (t.core c).sem j = ⟨e.cnt - n, []⟩)) ∧
      (e.list ≠ [] ∨ e.cnt < n →
        Gives (.semTry rd rs1 rs2) s (Retires s (XWritten h rd 0)) ∧
        (h.run = .ready → Gives (.semWait rs1 rs2) s (fun t => t.hart.run = .waiting (.sem c j) ∧ t.hart.pc = h.pc ∧
          ((t.core c).sem j).cnt = e.cnt ∧ ∀ w, w ∈ ((t.core c).sem j).list ↔ w = ⟨s.prio h, n, .hart h.gid⟩ ∨ w ∈ e.list))))

/-- R185, R186: a free mutex is taken; a lock of a held one waits, of the hart's own is illegal; a free by the owner passes it to
the head of the list, by another is illegal; all are illegal in M mode and with a mutex outside the team's limit. -/
def Claims.Mutexes : Prop :=
  ∀ (rd rs1 : XReg) (j : Nat) (s : State),
    let h := s.hart
    let c := s.coreNo
    let e := (s.core c).mtx j
    (h.mode = .m ∨ s.mtxArg rs1 = none → Gives (.mtxLock rs1) s (Traps s 2 0 h.ir) ∧ Gives (.mtxTry rd rs1) s (Traps s 2 0 h.ir) ∧
      Gives (.mtxFree rs1) s (Traps s 2 0 h.ir)) ∧
    (h.mode ≠ .m → s.mtxArg rs1 = some j →
    (e.owner = none →
      Gives (.mtxLock rs1) s (fun t => t = { s with cores := t.cores, hart := h.retire } ∧ (t.core c).mtx j = ⟨some h.gid, []⟩) ∧
      Gives (.mtxTry rd rs1) s (fun t => (∃ k, XWritten h rd 1 k ∧ t = { s with cores := t.cores, hart := k.retire }) ∧
        (t.core c).mtx j = ⟨some h.gid, []⟩)) ∧
    (e.owner ≠ none → Gives (.mtxTry rd rs1) s (Retires s (XWritten h rd 0))) ∧
    (e.owner = some h.gid → Gives (.mtxLock rs1) s (Traps s 2 0 h.ir)) ∧
    (∀ o, e.owner = some o → o ≠ h.gid → h.run = .ready →
      Gives (.mtxLock rs1) s (fun t => t.hart.run = .waiting (.mutex c j) ∧ t.hart.pc = h.pc ∧ ((t.core c).mtx j).owner = some o)) ∧
    (e.owner ≠ some h.gid → Gives (.mtxFree rs1) s (Traps s 2 0 h.ir)) ∧
    (e.owner = some h.gid →
      Gives (.mtxFree rs1) s (fun t => t.hart.x = h.x ∧ (t.core c).mtx j =
        match e.list with
        | [] => ⟨none, []⟩
        | w :: r => ⟨some w.gid, r⟩)))

/-- `Claims.Semaphores`, `Claims.Mutexes` together. -/
def Obligations.SemaphoresAndMutexes : Prop :=
  Claims.Semaphores ∧ Claims.Mutexes

/-- R187 to R191: `msend` puts a message on its way and waits for its delivery, which writes an empty mailbox of a live hart of the
context and retires the send; a message for no such hart is discarded and counted; `mrecv` and `mtry` take a value that is present,
`mtry` returning 0 otherwise; a target word that names no place, and M mode, are illegal. (Model: the scope of a receipt: log 33.) -/
def Obligations.Mailboxes : Prop :=
  ∀ (rd rs1 rs2 : XReg) (idx : BitVec 5) (m : Msg) (s : State),
    let h := s.hart
    let g := s.hartOf m.dst
    (h.mode = .m ∨ s.msendTarget (h.getX rs1) = none → Gives (.msend rs1 rs2 idx) s (Traps s 2 0 h.ir)) ∧
    (h.mode = .m → Gives (.mtry rd idx) s (Traps s 2 0 h.ir) ∧ Gives (.mrecv rd idx) s (Traps s 2 0 h.ir)) ∧
    (h.mode ≠ .m → ∀ d b, s.msendTarget (h.getX rs1) = some (d, b) → h.run = .ready →
      Gives (.msend rs1 rs2 idx) s (fun t => t.hart.run = .waiting (.msend d idx.toNat) ∧ t.hart.pc = h.pc ∧
        ∃ k ∈ t.msgs, k.src = h.gid ∧ k.dst = d ∧ k.idx = idx.toNat ∧ k.val = h.getX rs2 ∧ k.notify = b)) ∧
    (h.mode ≠ .m → h.mbpres.getLsbD idx.toNat = false →
      Gives (.mtry rd idx) s (Retires s (XWritten h rd 0)) ∧
      (h.run = .ready → Gives (.mrecv rd idx) s (fun t => t.hart.run = .waiting (.mrecv idx.toNat) ∧ t.hart.pc = h.pc))) ∧
    (h.mode ≠ .m → h.mbpres.getLsbD idx.toNat = true →
      (∀ x ∈ s.msgs, ¬(x.listed = true ∧ x.dst = h.gid ∧ x.idx = idx.toNat)) →
      ∀ i : Instr, (i = .mtry rd idx ∨ i = .mrecv rd idx) → Gives i s (fun t =>
        t.hart.pc = h.retire.pc ∧ t.hart.mbpres = h.mbpres &&& ~~~(1#32 <<< idx.toNat) ∧
        ∀ r, t.hart.getX r = if r = rd ∧ r ≠ 0 then fget 0 h.mbox idx.toNat else h.getX r)) ∧
    (s.msgs.find? (fun x => x.uid == s.sel && !x.listed) = some m → (s.core (gidCore m.dst)).state = 0 →
      g.run.isHart = true → g.asid = (s.hartOf m.src).asid → g.mbpres.getLsbD m.idx = false → m.src ≠ m.dst → m.idx < 32 →
      m.notify = false →
      Gives .mailboxDelivery s (fun t => fget 0 (t.hartOf m.dst).mbox m.idx = m.val ∧
        (t.hartOf m.dst).mbpres.getLsbD m.idx = true ∧ (t.hartOf m.src) = (s.hartOf m.src).retire ∧
        ∀ x ∈ t.msgs, x.uid ≠ m.uid)) ∧
    (s.msgs.find? (fun x => x.uid == s.sel && !x.listed) = some m → (s.core (gidCore m.dst)).state = 0 →
      (g.run.isHart = false ∨ g.asid ≠ (s.hartOf m.src).asid) →
      Gives .mailboxDelivery s (fun t => (t.core (gidCore m.dst)).mbdisc = ((s.core (gidCore m.dst)).mbdisc + 1) % 2 ^ 32 ∧
        (t.hartOf m.src) = (s.hartOf m.src).retire ∧ ∀ x ∈ t.msgs, x.uid ≠ m.uid)) ∧
    (s.msgs.find? (fun x => x.uid == s.sel) = some m → (s.core (gidCore m.dst)).state ≠ 0 → m.sentAt + 65536 ≤ s.clock →
      Gives .mailboxSendTimeout s (fun t => t.hartOf m.src = (s.hartOf m.src).takeTrap ⟨26, 0, 0⟩ ∧ ∀ x ∈ t.msgs, x.uid ≠ m.uid))

/-- R229 to R233: an arrival counts for its member and waits at two not yet consumed; a wait of a member goes on once the count is
0, one of an observer once the domain's parity has changed; a phase completes once every member has arrived; a hart that is no
member may not arrive, and a domain that is not the context's is illegal. -/
def Claims.Barriers : Prop :=
  ∀ (rd rs1 : XReg) (imm : BitVec 12) (d : Dom) (s : State),
    let h := s.hart
    (h.mode = .m ∨ s.barDom rs1 imm = none → Gives (.barArr rs1 imm) s (Traps s 2 0 h.ir) ∧ Gives (.barWait rs1 imm) s (Traps s 2 0 h.ir) ∧
      Gives (.barTry rd rs1 imm) s (Traps s 2 0 h.ir) ∧ Gives (.barArw rs1 imm) s (Traps s 2 0 h.ir)) ∧
    (h.mode ≠ .m → s.barDom rs1 imm = some d →
      (s.isMember d = false → Gives (.barArr rs1 imm) s (Traps s 2 0 h.ir)) ∧
      (s.isMember d = true → d.c h.gid ≠ 2 →
        Gives (.barArr rs1 imm) s (fun t => (t.dom d.key).c h.gid = d.c h.gid + 1 ∧ (t.dom d.key).d = d.d ∧
          t.hart.x = h.x ∧ t.hart.pc = h.retire.pc)) ∧
      (s.isMember d = true → d.c h.gid = 0 →
        Gives (.barWait rs1 imm) s (fun t => t = { s with l1 := t.l1, hart := h.retire }) ∧
        Gives (.barTry rd rs1 imm) s (fun t => ∃ k : Hart, XWritten h rd 1 k ∧ t = { s with l1 := t.l1, hart := k.retire })) ∧
      (s.isMember d = true → d.c h.gid ≠ 0 →
        Gives (.barTry rd rs1 imm) s (Retires s (XWritten h rd 0)) ∧
        (h.run = .ready → Gives (.barWait rs1 imm) s (fun t => t.hart.run = .waiting (.barrier d.key false) ∧ t.hart.pc = h.pc))) ∧
      (s.isMember d = false →
        (Gives (.barTry rd rs1 imm) s (fun t => ∃ k : Hart, t = { s with l1 := t.l1, hart := k.retire } ∧
          ∃ k1, XWritten h rd (if d.d = h.parity d.key then 0 else 1) k1 ∧ k = { k1 with obs := k.obs })) ∧
        (h.obsWait = none → h.run = .ready → Gives (.barWait rs1 imm) s (fun t =>
          t.hart = { h with run := .waiting (.barrier d.key false), waitFrom := s.clock, obsWait := some (d.key, d.d) })) ∧
        (h.obsWait = some (d.key, !d.d) → Gives (.barWait rs1 imm) s (fun t => ∃ k : Hart, t = { s with l1 := t.l1, hart := k.retire } ∧
          k = { h with obs := k.obs, obsWait := none } ∧ k.parity d.key = d.d)) ∧
        (h.resumes d.key = false → h.run = .ready → Gives (.barArw rs1 imm) s (Traps s 2 0 h.ir))) ∧
      (s.isMember d = true → d.c h.gid = 2 → h.run = .ready →
        Gives (.barArr rs1 imm) s (fun t => t.hart.run = .waiting (.barrier d.key false) ∧ t.hart.pc = h.pc)) ∧
      (s.isMember d = true → d.c h.gid = 0 → h.run = .ready → h.resumes d.key = false →
        Gives (.barArw rs1 imm) s (fun t => (t.dom d.key).c h.gid = 1 ∧ t.hart.run = .waiting (.barrier d.key true) ∧
          t.hart.pc = h.pc)) ∧
      (s.isMember d = true → d.c h.gid = 0 → h.run = .waiting (.barrier d.key true) → h.resumes d.key = false →
        Gives (.barArw rs1 imm) s (fun t => t = { s with l1 := t.l1, hart := h.retire }))) ∧
    (s.domGet d.key = some d → s.phaseReady d = true →
      Gives (.barrierPhaseComplete d.key) s (fun t => t = { s with doms := t.doms } ∧ (t.dom d.key).d = !d.d ∧
        ∀ g, (s.members d).count g = 1 → (t.dom d.key).c g = d.c g - 1))

/-! ## Memory -/

/-- No copy, partial, reader count or buffered store stands between the agents and the homes, and the host caches nothing. -/
def Claims.Quiet (s : State) : Prop :=
  s.hc = [] ∧ s.parts = [] ∧ s.rdc = [] ∧ s.l1 = [] ∧ s.farBuf = [] ∧ s.hostHas = [] ∧ s.hostMod = [] ∧
    ∀ c, (s.core c).lb = [] ∧ (s.core c).lbOld = []

/-- What a quiet machine changes of itself when a hart reaches memory: translations that are cached or being made, the lines that
the slices hold, and no core. -/
def Claims.Reached (s t u : State) : Prop :=
  t = { u with tlb := t.tlb, walkc := t.walkc, walks := t.walks, l2 := t.l2, cores := t.cores } ∧ ∀ c, t.core c = s.core c

/-- What a hart of the core reads at a byte of HBM. -/
def Claims.sees (s : State) (core a : Nat) : Byte := ((s.hartReadHbm core a 1).1).headD 0

/-- The bytes at their homes are unchanged but for `n` bytes at `pa`: every byte of other lines, and every byte of HBM on the same
line, as the key of `pa` reads it. -/
def Claims.KeepsBut (s t : State) (pa n : Nat) : Prop :=
  ∀ a, (lineOf (paLow a) ≠ lineOf (paLow pa) ∨ (paKey a = paKey pa ∧ s.region (paLow a) = .hbm)) →
    (paLow a < paLow pa ∨ paLow pa + n ≤ paLow a) → t.peek a 1 = s.peek a 1

/-- Every byte at its home is unchanged. -/
def Claims.KeepsAll (s t : State) : Prop := ∀ a, t.peek a 1 = s.peek a 1

/-- Loads of an instruction that lie behind the listed ports are done: there were none, or the answer has come. -/
def Claims.LoadsDone (s : State) (ports : List Nat) (t : State) : Prop :=
  (ports = [] ∧ t = s) ∨ (ports ≠ [] ∧ s.hart.answer ≠ none ∧ t = { s with hart := { s.hart with answer := none } })

/-- The focused hart waits at its pc for loads that lie behind the listed ports. -/
def Claims.LoadsWait (s : State) (ports : List Nat) (t : State) : Prop :=
  t.hart.run = .waiting (.far ports.eraseDups) ∧ t = { s with hart := { s.hart with run := t.hart.run, waitFrom := t.hart.waitFrom } }

/-- Of a hart, f register `rd` alone takes a value, and FS becomes dirty. -/
def Claims.FWritten (h : Hart) (rd : XReg) (v : Word) (k : Hart) : Prop :=
  k = { h with f := k.f, csr := { h.csr with mstatus := k.csr.mstatus } } ∧ wfield k.csr.mstatus 13 2 = 3 ∧
    (∀ b, b ≠ 13 → b ≠ 14 → k.csr.mstatus.getLsbD b = h.csr.mstatus.getLsbD b) ∧
    ∀ q, k.getF q = if q = rd then v else h.getF q

/-- The checks that come before translation, in their order: FS, a trigger, which halts the hart or traps, alignment; then a refused
access traps. -/
def Claims.AccessTraps (i : Instr) (s : State) (fp : Bool) (a : Acc) (va : Word) (n : Nat) : Prop :=
  (fp = true → s.hart.fsOff = true → Gives i s (Traps s 2 0 s.hart.ir)) ∧
  (¬(fp = true ∧ s.hart.fsOff = true) →
    (s.trigHalts a va = true → Gives i s (fun t => t = { s with hart := { s.hart with dbg := t.hart.dbg } } ∧
      t.hart.dbg.halted = true ∧ t.hart.dbg.dpc = s.hart.pc)) ∧
    (s.trigHit a va = true → s.trigHalts a va = false → Gives i s (Traps s 3 0 va)) ∧
    (s.trigHit a va = false → va.toNat % n ≠ 0 → Gives i s (Traps s a.alignCause 0 va)) ∧
    (s.trigHit a va = false → va.toNat % n = 0 → ∀ (t : TrapInfo) (s1 : State),
      s.hartPa a va = (.error t, s1) → Gives i s (fun u => u = s1.trap t)))

/-- R33, R34, R75, R392, R394: a hart load traps as its checks say; at an address of HBM or shared memory, and behind a port once
the held access is done, it gives the bytes there to rd, extended, and every byte stays; a first access behind a port waits at its
own pc; a device register gives its value to an aligned 8-byte load and refuses any other. (Model: what the levels of translation
and the hart caches hold is the model's: logs 10, 12.) -/
def Obligations.HartLoads : Prop :=
  ∀ (k : LoadKind) (rd rs1 : XReg) (imm : BitVec 12) (s : State),
    let h := s.hart
    let va := h.getX rs1 + imm.signExtend 64
    let n := loadSize k
    let i : Instr := .hartLoad k rd rs1 imm
    Claims.AccessTraps i s (loadFp k) .load va n ∧
    (¬(loadFp k = true ∧ h.fsOff = true) → s.trigHit .load va = false → va.toNat % n = 0 →
      ∀ (pa : Nat) (s1 : State), s.hartPa .load va = (.ok pa, s1) →
      (∀ p, s.portOf pa = some p → h.answer = none → h.run = .ready →
        Gives i s (fun t => t.hart.run = .waiting (.far [p]) ∧ t.hart.pc = h.pc ∧ t.hart.x = h.x ∧ t.hart.f = h.f)) ∧
      (Claims.Quiet s → pa % n = 0 →
        (s.region (paLow pa) = .hbm ∨ (∃ c o, s.region (paLow pa) = .coreMem c o) ∨ (s.isFar pa = true ∧ h.answer ≠ none)) →
        let v := loadVal k (BitVec.ofNat 64 (leNat (s.peek pa n)))
        Gives i s (fun t => Claims.KeepsAll s t ∧ ∃ g, Claims.Reached s t { s with hc := t.hc, hart := g.retire } ∧
          if loadFp k then Claims.FWritten h rd v g else XWritten h rd v g)) ∧
      (∀ off, s.region (paLow pa) = .regs off →
        (n = 8 → regAt off ≠ .none → Gives i s (fun t => t = (s1.regClear s1.regBy off).loadFin k rd (s1.regRead s1.regBy off))) ∧
        (n ≠ 8 ∨ regAt off = .none → Gives i s (fun t => t = s1.trap ⟨5, 0, va⟩))))

/-- R33, R34, R75, R319, R392: a hart store traps as its checks say; at an address of HBM it writes its bytes there, and no register
and no other byte; behind a port, and in its own core's shared memory, its bytes wait in order to be written; another core's shared
memory has them at once; a device register takes an aligned 8-byte store and refuses any other. (Model: the copies of the harts'
caches are the model's: log 12.) -/
def Obligations.HartStores : Prop :=
  ∀ (k : StoreKind) (rs1 rs2 : XReg) (imm : BitVec 12) (s : State),
    let h := s.hart
    let va := h.getX rs1 + imm.signExtend 64
    let n := storeSize k
    let i : Instr := .hartStore k rs1 rs2 imm
    let bytes := natToBytes n (if storeFp k then h.getF rs2 else h.getX rs2).toNat
    Claims.AccessTraps i s (storeFp k) .store va n ∧
    (¬(storeFp k = true ∧ h.fsOff = true) → s.trigHit .store va = false → va.toNat % n = 0 →
      ∀ (pa : Nat) (s1 : State), s.hartPa .store va = (.ok pa, s1) → pa % n = 0 →
      (Claims.Quiet s →
        (s.region (paLow pa) = .hbm →
          Gives i s (fun t => Claims.Reached s t { s with
              mem := t.mem, wlog := t.wlog, keyOf := t.keyOf, parked := t.parked, hart := h.retire } ∧
            t.peek pa n = bytes ∧ Claims.KeepsBut s t pa n)) ∧
        (∀ p, s.portOf pa = some p → Gives i s (fun t => Claims.KeepsAll s t ∧
          Claims.Reached s t { s with farBuf := [⟨p, h.gid, s.clock, s.ticks, pa, bytes⟩], hart := h.retire })) ∧
        (∀ c o, s.region (paLow pa) = .coreMem c o →
          (c = s.coreNo → Gives i s (fun t => Claims.KeepsAll s t ∧ (t.core c).lb = [⟨h.gid, o, bytes⟩] ∧
            (∀ d, d ≠ c → t.core d = s.core d) ∧ t.hart = h.retire)) ∧
          (c ≠ s.coreNo → Gives i s (fun t => t.peek pa n = bytes ∧ t.hart = h.retire ∧ t.mem = s.mem ∧
            (∀ d, d ≠ c → t.core d = s.core d) ∧ ∀ q, (q < o ∨ o + n ≤ q) → fget 0 (t.core c).shm q = fget 0 (s.core c).shm q)))) ∧
      (∀ off, s.region (paLow pa) = .regs off →
        (n = 8 → regAt off ≠ .none → Gives i s (fun t => t = (s1.regWrite s1.regBy off (dwordOf bytes)).retireHere)) ∧
        (n ≠ 8 ∨ regAt off = .none → Gives i s (fun t => t = s1.trap ⟨7, 0, va⟩))))

/-- R33, R34, R319, R392: at an address of HBM an AMO gives the old value to rd, sign-extended, and leaves the operation's result in
memory; LR also takes the reservation; SC stores and answers 0 while the reservation holds the line, else answers 1 and stores
nothing. No other byte changes, as the harts of the core read memory. An AMO on shared memory acts at the array, and behind a port
once the held access is done; LR and SC outside HBM, and atomics on a device register, fault. (Model: the copies of the harts'
caches are the model's: log 12.) -/
def Obligations.HartAtomics : Prop :=
  ∀ (op : AmoOp) (dbl aq rl : Bool) (rd rs1 rs2 : XReg) (s : State),
    let h := s.hart
    let va := h.getX rs1
    let n := if dbl then 8 else 4
    let a : Acc := if op = .lr then .load else .store
    let i : Instr := .hartAmo op dbl aq rl rd rs1 rs2
    s.trigHit .load va = false → s.trigHit .store va = false →
    (va.toNat % n ≠ 0 → Gives i s (Traps s a.alignCause 0 va)) ∧
    (va.toNat % n = 0 → ∀ (pa : Nat) (s1 : State), s.hartPa a va = (.ok pa, s1) → pa % n = 0 →
      let old := leNat (s.peek pa n)
      let kept (t : State) (v : Word) : Prop :=
        t.hart.pc = h.retire.pc ∧ t.hart.f = h.f ∧ t.hart.csr = h.retire.csr ∧ t.hart.v = h.v ∧ t.hart.m = h.m ∧
        (∀ r, t.hart.getX r = if r = rd ∧ r ≠ 0 then v else h.getX r)
      let done (t : State) (v : Word) (same : Nat → Prop) : Prop :=
        kept t v ∧ ∀ b, same b → Claims.sees t s.coreNo b = Claims.sees s s.coreNo b
      let beyond (b : Nat) : Prop := b < pa ∨ pa + n ≤ b
      (Claims.Quiet s → s.region (paLow pa) = .hbm →
        (op ≠ .lr → op ≠ .sc → Gives i s (fun t => done t (amoOld dbl old) beyond ∧
          (t.hartReadHbm s.coreNo pa n).1 = amoBytes op dbl old (h.getX rs2))) ∧
        (op = .lr → Gives i s (fun t => done t (amoOld dbl old) (fun _ => True) ∧ t.hart.resv = some (tagLine pa))) ∧
        (op = .sc → h.resv = some (tagLine pa) → Gives i s (fun t => done t 0 beyond ∧ t.hart.resv = none ∧
          (t.hartReadHbm s.coreNo pa n).1 = natToBytes n (h.getX rs2).toNat)) ∧
        (op = .sc → h.resv ≠ some (tagLine pa) → Gives i s (fun t => done t 1 (fun _ => True) ∧ t.hart.resv = none))) ∧
      (Claims.Quiet s → op ≠ .lr → op ≠ .sc →
        ((∃ c o, s.region (paLow pa) = .coreMem c o) ∨ (s.isFar pa = true ∧ s.farOn pa = true ∧ h.answer ≠ none)) →
        Gives i s (fun t => kept t (amoOld dbl old) ∧ t.peek pa n = amoBytes op dbl old (h.getX rs2))) ∧
      (∀ p, op ≠ .lr → op ≠ .sc → s.portOf pa = some p → s.farOn pa = true → h.answer = none → h.run = .ready →
        Gives i s (fun t => t.hart.run = .waiting (.far [p]) ∧ t.hart.pc = h.pc ∧ t.hart.x = h.x)) ∧
      (s.region (paLow pa) ≠ .hbm → (op = .lr → Gives i s (fun t => t = s1.trap ⟨5, 0, va⟩)) ∧
        (op = .sc → Gives i s (fun t => t = s1.trap ⟨7, 0, va⟩))) ∧
      (∀ off, s.region (paLow pa) = .regs off → op ≠ .lr → Gives i s (fun t => t = s1.trap ⟨7, 0, va⟩)))

/-- The effects of a release by the focused hart on its own counters (R311). -/
def Claims.releasing (h : Hart) (o : Ordering4) : Hart := if ordRel o then h.storesDone else h

/-- R130, R132, R133: a lane load whose lanes are all readable in HBM gives each active lane the bytes at its own address, extended
as the width says, or, in the broadcast form, every active lane the bytes at one address; every byte stays; with no active lane it
only retires. (Model: the L1's replacement: log 11; flags of a load's records: log 62.) -/
def Obligations.LaneLoads : Prop :=
  ∀ (p : LaneHdr) (m : MemMod) (vd va vb : LOp) (l l1 : List (Nat × Except TrapInfo Nat)) (s s1 : State),
    let h := s.hart
    let act := h.active p
    let n := widthBytes m.width
    let readable (l : List (Nat × Except TrapInfo Nat)) (addr : Nat → Word) : Prop :=
      faultsOf (s1.laneLost .load n addr l) = [] ∧ ∀ e ∈ pasOf l, s.region (paLow e.2) = .hbm ∧ e.2 % n = 0
    let loads (ls : List (Nat × Except TrapInfo Nat)) (who : Nat → Nat) (t : State) : Prop :=
      Claims.KeepsAll s t ∧ ∃ k, Claims.Reached s t { s with l1 := t.l1, hart := k.retire } ∧
        LanesWritten (Claims.releasing h m.ord) act vd.toNat (Width.regs m.width)
          (fun j i v => ∀ pa, (who i, pa) ∈ pasOf ls → v = loadLane m.width (s.peek pa n) j) (fun _ => 0) k
    let gathers (i : Instr) (addr : Nat → Word) : Prop :=
      (act = 0 → Gives i s (Retires s (fun k => k = h))) ∧
      (act ≠ 0 → Claims.Quiet s → s.laneChecks .load n addr (maskLanes act) = (l, s1) → readable l addr →
        Gives i s (loads l id))
    (LanesFree s (regsOf va 1 ++ widthRegs m.width vd) → gathers (.vld p m vd va vb) (fun i => h.ea va vb i)) ∧
    (LanesFree s (regsOf va 2 ++ widthRegs m.width vd) → gathers (.vldx p m vd va) (fun i => h.src64 va i)) ∧
    (LanesFree s (widthRegs m.width vd) → act = 0 → Gives (.vldB p m vd vb) s (Retires s (fun k => k = h))) ∧
    (LanesFree s (widthRegs m.width vd) → act ≠ 0 → Claims.Quiet s →
      s.laneChecks .load n (fun _ => h.base vb) [0] = (l1, s1) → readable l1 (fun _ => h.base vb) →
      Gives (.vldB p m vd vb) s (loads l1 (fun _ => 0)))

/-- What a byte holds after the listed lanes have stored in turn: the last lane's byte that covers it. -/
def Claims.overwritten (ls : List Nat) (addr : Nat → Nat) (val : Nat → List Byte) (old : Nat → Byte) (o : Nat) : Byte :=
  match ls.reverse.find? (fun i => decide (addr i ≤ o) && decide (o < addr i + (val i).length)) with
  | some i => (val i).getD (o - addr i) 0
  | none => old o

/-- R78, R131, R139, R141: a lane store whose lanes are all writable in HBM, under one key, stores the lanes still due in ascending
order, the last one to a byte giving its value; no other byte, no lane and no x register changes; `cnt2` counts it, and with a
reader count each line that is written gets the count. (Model: what a reader count leaves behind: log 13; what is left of a fault:
log 24.) -/
def Obligations.LaneStores : Prop :=
  ∀ (p : LaneHdr) (m : MemMod) (cnt : BitVec 8) (key : Nat) (vd va vb : LOp) (l : List (Nat × Except TrapInfo Nat)) (s s1 : State),
    let h := s.hart
    let eff := h.pendingLanes (h.active p)
    let n := widthBytes m.width
    let pa (i : Nat) : Nat := atomRet (pasOf l) i
    let bytes (i : Nat) : List Byte := h.storeBytes m.width vd i
    let stores (i : Instr) (addr : Nat → Word) (o : Ordering4) (sc : Scope) (Q : State → Prop) : Prop :=
      eff ≠ 0 → h.run = .ready → Claims.Quiet s → s.laneChecks .store n addr (maskLanes eff) = (l, s1) →
      faultsOf (s1.laneLost .store n addr l) = [] → (∀ e ∈ pasOf l, s.region (paLow e.2) = .hbm ∧ paKey e.2 = key ∧ e.2 % n = 0) →
      Gives i s (fun t => Q t ∧
        Claims.Reached s t { s with
          mem := t.mem, wlog := t.wlog, keyOf := t.keyOf, parked := t.parked, lost := t.lost
          poison := t.poison, rdc := t.rdc
          hart := { ((((Claims.releasing h o).addStore (Scope.code sc).toNat)).clearDone).retire with resv := t.hart.resv } } ∧
        ∀ a, (paKey a = key ∧ s.region (paLow a) = .hbm) ∨ (∀ e ∈ pasOf l, lineOf (paLow e.2) ≠ lineOf (paLow a)) →
          t.peek a 1 = [Claims.overwritten (maskLanes eff) (fun i => paLow (pa i)) bytes
            (fun _ => (s.peek a 1).headD 0) (paLow a)])
    (LanesFree s (regsOf va 1 ++ widthRegs m.width vd) →
      stores (.vst p m vd va vb) (fun i => h.ea va vb i) m.ord m.scope (fun t => t.rdc = []) ∧
      stores (.vstRdc p m.width cnt vd va vb) (fun i => h.ea va vb i) .rlx .pkg
        (fun t => ∀ e ∈ pasOf l, ∃ r ∈ t.rdc, r.line = tagLine e.2 ∧ r.cnt = cnt.toNat)) ∧
    (LanesFree s (regsOf va 2 ++ widthRegs m.width vd) →
      stores (.vstx p m vd va) (fun i => h.src64 va i) m.ord m.scope (fun t => t.rdc = []))

/-- R78, R129, R135, R136: lane loads and stores of the team's shared memory and tile store: an offset within the team's share,
aligned to the element, reaches the byte of the core's array at the share's base plus the offset; a load changes no byte, a store
only those it covers, lanes in ascending order; where an offset is misaligned or outside the share, the lowest such lane's fault is
taken, and the other lanes of a store are performed. -/
def Obligations.LocalLaneMemory : Prop :=
  ∀ (p : LaneHdr) (wd : Width) (quad : Bool) (buf : TBuf) (i : Nat) (vd va vb : LOp) (s : State),
    let h := s.hart
    let c := s.coreNo
    let s0 := s.maybeDrainLb c
    let act := h.active p
    let eff := h.pendingLanes act
    let off (i : Nat) : Nat := (h.ea va vb i).toNat
    let bad (ls : Mask) (wi : Width) (size j : Nat) : Bool :=
      ls.getLsbD j && (off j % widthBytes wi != 0 || decide (size ≤ off j))
    let within (ls : Mask) (wi : Width) (size : Nat) : Prop := ∀ j, j < 32 → bad ls wi size j = false
    let first (ls : Mask) (wi : Width) (size : Nat) : Prop :=
      i < 32 ∧ h.lfrec.getLsbD 0 = false ∧ bad ls wi size i = true ∧ ∀ j, j < i → bad ls wi size j = false
    let good (wi : Width) (size : Nat) : List Nat := (maskLanes eff).filter (fun j => !bad eff wi size j)
    let info (wi : Width) (misaligned : Nat) : TrapInfo :=
      ⟨if off i % widthBytes wi ≠ 0 then misaligned else misaligned + 1, 0, h.ea va vb i⟩
    let loadTrap (u : State) (wi : Width) (size : Nat) (t : State) : Prop :=
      ∃ lf, t = { u with hart := ({ h with lfault := lf }).enterTrap false (info wi 4) } ∧
        ∀ j, j < 32 → lf.getLsbD j = bad act wi size j
    let storeTrap (wi : Width) (size : Nat) (t : State) : Prop :=
      ∃ lf lc, t.hart = ({ h with lfault := lf, lcomp := lc }).enterTrap false (info wi 6) ∧
        (∀ j, j < 32 → lf.getLsbD j = bad eff wi size j ∧ lc.getLsbD j = (h.lcomp.getLsbD j || (eff.getLsbD j && !bad eff wi size j))) ∧
        wfield lc 32 2 = h.mode.code
    let tw := tileWidth quad
    let sh := s.share
    (LanesFree s (regsOf va 1 ++ widthRegs wd vd) →
      (within act wd sh.shSize →
        Gives (.vlds p wd vd va vb) s (Retires s0 (LanesWritten h act vd.toNat (Width.regs wd)
          (fun j i v => v = loadLane wd ((s0.core c).shmBytes (sh.shBase + off i) (widthBytes wd)) j) (fun _ => 0)))) ∧
      (first act wd sh.shSize → Gives (.vlds p wd vd va vb) s (loadTrap s0 wd sh.shSize)) ∧
      (let stored (ls : List Nat) (t : State) : Prop :=
          t = { s0 with cores := t.cores, wlog := t.wlog, hart := t.hart } ∧ (∀ d, d ≠ c → t.core d = s0.core d) ∧
          t.core c = { s0.core c with shm := (t.core c).shm, lbOld := (t.core c).lbOld } ∧
          ∀ o, fget 0 (t.core c).shm o = Claims.overwritten ls (fun i => sh.shBase + off i)
            (fun i => h.storeBytes wd vd i) (fun o => fget 0 (s0.core c).shm o) o
       (within eff wd sh.shSize →
        Gives (.vsts p wd vd va vb) s (fun t => t.hart = h.clearDone.retire ∧ stored (maskLanes eff) t)) ∧
       (first eff wd sh.shSize →
        Gives (.vsts p wd vd va vb) s (fun t => storeTrap wd sh.shSize t ∧ stored (good wd sh.shSize) t)))) ∧
    (LanesFree s (regsOf va 1 ++ widthRegs tw vd) →
      (within act tw (sh.buf buf).2 →
        Gives (.vldt p quad buf vd va vb) s (Retires s (LanesWritten h act vd.toNat (Width.regs tw)
          (fun j i v => v = loadLane tw (getBytes ((s.core c).buf buf) ((sh.buf buf).1 + off i) (widthBytes tw)) j)
          (fun _ => 0)))) ∧
      (first act tw (sh.buf buf).2 → Gives (.vldt p quad buf vd va vb) s (loadTrap s tw (sh.buf buf).2)) ∧
      (let stored (ls : List Nat) (t : State) : Prop :=
          t = { s with cores := t.cores, hart := t.hart } ∧ (∀ d, d ≠ c → t.core d = s.core d) ∧
          t.core c = (s.core c).setBuf buf ((t.core c).buf buf) ∧
          ∀ o, fget 0 ((t.core c).buf buf) o = Claims.overwritten ls (fun i => (sh.buf buf).1 + off i)
            (fun i => h.storeBytes tw vd i) (fun o => fget 0 ((s.core c).buf buf) o) o
       (within eff tw (sh.buf buf).2 →
        Gives (.vstt p quad buf vd va vb) s (fun t => t.hart = h.clearDone.retire ∧ stored (maskLanes eff) t)) ∧
       (first eff tw (sh.buf buf).2 →
        Gives (.vstt p quad buf vd va vb) s (fun t => storeTrap tw (sh.buf buf).2 t ∧ stored (good tw (sh.buf buf).2) t))))

/-- R259 to R263: a lane atomic whose lanes are all writable in HBM performs one step on each word, over the lanes of that address
in ascending order: `vamo` gives each lane what it found and leaves the result in the word; `vmred` leaves one pending partial per
word with the combined value and changes no byte; `vmred.add.ord` adds lane by lane to the word. (Model: how pending partials are
kept: log 2; a restarted word: log 24.) -/
def Obligations.LaneAtomics : Prop :=
  ∀ (p : LaneHdr) (ty : ATy) (ot : OrdTy) (o : Ordering4) (sc : Scope) (xb : XReg) (key : Nat) (vd va vb : LOp)
      (l : List (Nat × Except TrapInfo Nat)) (s s1 : State),
    let h := s.hart
    let eff := h.pendingLanes (h.active p)
    let addr (i : Nat) : Word := h.getX xb + (h.src32 va i).signExtend 64
    let words := groupLanes addr (pasOf l)
    let ready (n : Nat) : Prop := eff ≠ 0 ∧ Claims.Quiet s ∧ s.atomChecks n addr (maskLanes eff) = (l, s1) ∧ faultsOf l = [] ∧
      (∀ e ∈ pasOf l, s.region (paLow e.2) = .hbm ∧ paKey e.2 = key ∧ e.2 % n = 0) ∧ (words.map (fun g => g.2.1)).Nodup
    let kept (t : State) (n : Nat) : Prop := ∀ a,
      (paKey a = key ∧ s.region (paLow a) = .hbm) ∨ (∀ e ∈ pasOf l, lineOf (paLow e.2) ≠ lineOf (paLow a)) →
      (∀ e ∈ pasOf l, paLow a < paLow e.2 ∨ paLow e.2 + n ≤ paLow a) → t.peek a 1 = s.peek a 1
    let scribes (t : State) (f : Nat → List Nat → Nat) (n : Nat) : Prop :=
      kept t n ∧ ∀ g ∈ words, t.peek g.2.1 n = natToBytes n (f (leNat (s.peek g.2.1 n)) g.2.2)
    let lanesOf (ls : List Nat) : List (Nat × Nat × Nat) := ls.map (fun i => (i, h.atomData ty vb i, h.atomData ty vd i))
    (ready (atyBytes ty) → LanesFree s (regsOf va 1 ++ atomRegs ty vb ++ (List.range (if ty.is64 then 2 else 1)).map (fun j => vd.toNat + j)) →
      ∀ (op : Nat) (i : Instr), (op = 0 ∧ i = .vamoAdd p ty o sc xb vd va vb) ∨ (op = 1 ∧ i = .vamoMin p ty o sc xb vd va vb) ∨
        (op = 2 ∧ i = .vamoMax p ty o sc xb vd va vb) ∨ (op = 3 ∧ i = .vamoAnd p ty o sc xb vd va vb) ∨
        (op = 4 ∧ i = .vamoOr p ty o sc xb vd va vb) ∨ (op = 5 ∧ i = .vamoXor p ty o sc xb vd va vb) ∨
        (op = 6 ∧ i = .vamoXchg p ty o sc xb vd va vb) ∨ (op = 7 ∧ i = .vamoCas p ty o sc xb vd va vb) →
      Gives i s (fun t => scribes t (fun m ls => (atomGroup op ty m (lanesOf ls)).2) (atyBytes ty) ∧
        ∃ k, Claims.Reached s t { s with
            mem := t.mem, wlog := t.wlog, keyOf := t.keyOf, parked := t.parked, hart := k.clearDone.retire } ∧
          LanesWritten { Claims.releasing h o with resv := k.resv } eff vd.toNat (if ty.is64 then 2 else 1)
            (fun j i v => ∀ g ∈ words, i ∈ g.2.2 →
              v = BitVec.ofNat 32 (atomRet (atomGroup op ty (leNat (s.peek g.2.1 (atyBytes ty))) (lanesOf g.2.2)).1 i / 2 ^ (32 * j)))
            (fun _ => 0) k)) ∧
    (ready (atyBytes ty) → LanesFree s (regsOf va 1 ++ atomRegs ty vd) →
      ∀ (op : Nat) (i : Instr), (op = 0 ∧ i = .vmredAdd p ty o sc xb vd va) ∨ (op = 1 ∧ i = .vmredMin p ty o sc xb vd va) ∨
        (op = 2 ∧ i = .vmredMax p ty o sc xb vd va) ∨ (op = 3 ∧ i = .vmredAnd p ty o sc xb vd va) ∨
        (op = 4 ∧ i = .vmredOr p ty o sc xb vd va) ∨ (op = 5 ∧ i = .vmredXor p ty o sc xb vd va) →
      Gives i s (fun t => Claims.KeepsAll s t ∧
        t.parts = words.map (fun g => ⟨g.2.1, op, ty, BitVec.ofNat 64 (reduceValue op ty (g.2.2.map (fun i => h.atomData ty vd i)))⟩) ∧
        Claims.Reached s t { s with
          parts := t.parts, parked := t.parked
          hart := { (Claims.releasing h o).clearDone.retire with resv := t.hart.resv } })) ∧
    (ready (atyBytes (ordAty ot)) → LanesFree s (regsOf va 1 ++ atomRegs (ordAty ot) vd) →
      Gives (.vmredAddOrd p ot o sc xb vd va) s (fun t =>
        scribes t (fun m ls => (ls.map (fun i => h.atomData (ordAty ot) vd i)).foldl (fun m d => atomAdd (ordAty ot) m d) m)
          (atyBytes (ordAty ot)) ∧
        Claims.Reached s t { s with
          mem := t.mem, wlog := t.wlog, keyOf := t.keyOf, parked := t.parked
          hart := { (Claims.releasing h o).clearDone.retire with resv := t.hart.resv } }))

/-- R138, R141, R263: a prefetch changes no register and no byte; the write queue applies a line's one pending partial to its word
as M := f(M, pend); a performed lane store leaves `cnt2`, and nothing of its hart waits at a port; the arrival of loaded data
changes nothing more. (Model: a prefetch may be dropped: log 47; a faulted stream element: log 64; arrival of loaded data holds no
state: log 15.) -/
def Obligations.PrefetchAndWriteQueues : Prop :=
  ∀ (p : LaneHdr) (sc : Scope) (hint : Hint) (va vb : LOp) (q : Partial) (s : State),
    let h := s.hart
    (LanesFree s (regsOf va 1) → Claims.Quiet s →
      Gives (.vpf p sc hint va vb) s (fun t => Claims.KeepsAll s t ∧
        Claims.Reached s t { s with nextUid := t.nextUid, l1 := t.l1, hart := h.retire })) ∧
    (s.parts = [q] → q.meets (128 * s.sel) 128 = true → s.region (paLow q.pa) = .hbm →
      q.pa % atyBytes q.ty = 0 → atomStep q.op q.ty (leNat (s.peek q.pa (atyBytes q.ty))) q.val.toNat 0 < 2 ^ (8 * atyBytes q.ty) →
      Gives .l2WriteQueueApply s (fun t => t.parts = [] ∧ Claims.KeepsBut s t q.pa (atyBytes q.ty) ∧
        leNat (t.peek q.pa (atyBytes q.ty)) = atomStep q.op q.ty (leNat (s.peek q.pa (atyBytes q.ty))) q.val.toNat 0 ∧
        t = { s with parts := t.parts, mem := t.mem, wlog := t.wlog, keyOf := t.keyOf })) ∧
    ((s.hartOf s.sel).run ≠ .vacant → Gives .laneStorePerformed s (fun t => (t.hartOf s.sel).cnt2 = (s.hartOf s.sel).cnt2 - 1 ∧
      (t.hartOf s.sel).x = (s.hartOf s.sel).x ∧ (t.hartOf s.sel).pc = (s.hartOf s.sel).pc ∧ (∀ e ∈ t.farBuf, e.gid ≠ s.sel) ∧
      (∀ e ∈ (t.core (gidCore s.sel)).lb, e.gid ≠ s.sel) ∧
      t = { s with
        parked := t.parked, hart := t.hart, farBuf := t.farBuf, cores := t.cores, mem := t.mem, wlog := t.wlog, keyOf := t.keyOf
        l1 := t.l1, dies := t.dies, fe := t.fe, ports := t.ports })) ∧
    Gives .loadDataArrival s (fun t => t = s)

/-! ## Queues -/

/-- The block at `pa` accepts the operation (R280): with its earlier waiters served, state `v` holds `q` there, whole, not
quarantined, of the hart's ASID, within reach of its die, and not fed by a notify page if the operation produces. -/
def Claims.QueueOpen (u v : State) (pa : Nat) (produce : Bool) (q : Qcb) : Prop :=
  ∃ l, (u.qSettle pa).qcbBytes pa = (l, v) ∧ q = qcbParse (dwords 16 l) ∧ qcbCorrupt l = false ∧ q.qr = false ∧
    q.asid = v.hart.asid ∧ (q.md = true ∨ v.dieNo = sliceDie (homeSlice (paLow pa))) ∧ (q.nf = false ∨ produce = false)

/-- No hart of the given or a higher priority waits at the block in the direction. -/
def Claims.noneAhead (v : State) (pa : Nat) (enq : Bool) : Prop := v.qAhead pa enq (v.prio v.hart) = false

/-- The machine after the elements have been put at the block, a release first. -/
def Claims.enqueued (v : State) (pa : Nat) (q : Qcb) (els : List (List Byte)) : State :=
  let r := (v.release v.hart.gid).putElems q els
  r.2.qcbWrite pa q r.1

/-- The machine after elements have been taken from the block, an acquire at its scope last. -/
def Claims.dequeued (v : State) (pa : Nat) (q : Qcb) (n : Nat) : State :=
  let r := v.takeElems q n
  (r.2.2.qcbWrite pa q r.2.1).acquire v.hart.gid (scopeOf q.scope)

/-- The first doubleword of the first element that is taken. -/
def Claims.firstTaken (v : State) (q : Qcb) : Word := BitVec.ofNat 64 (leNat (((v.takeElems q 1).1.headD []).take 8))

/-- The slots that `n` elements are put into, one after another, and the block after that. -/
def Claims.putSlots : Nat → Qcb → List Nat × Qcb
  | 0, q => ([], q)
  | n + 1, q =>
    let r := Claims.putSlots n q.put.2
    (q.put.1 :: r.1, r.2)

/-- The slots that `n` elements are taken from. -/
def Claims.takeSlots : Nat → Qcb → List Nat × Qcb
  | 0, q => ([], q)
  | n + 1, q =>
    let r := Claims.takeSlots n q.take.2
    (q.take.1 :: r.1, r.2)

/-- R276, R278: a queue is first in, first out: elements put into an empty block are published, and taken from the slots they were
put into, in the same order, after which the block is empty again; and in every block a put takes the slot at rsv, and a take the
slot at head where that one is not abandoned. -/
def Claims.QueueFirstInFirstOut : Prop :=
  (∀ (n : Nat) (q : Qcb), q.head = q.tail → q.rsv = q.tail → q.cmt = 0 → q.abn = 0 → q.skip = 0 → n ≤ q.free →
    let p := Claims.putSlots n q
    p.2 = { q with tail := q.tail + n, rsv := q.tail + n, free := q.free - n } ∧ p.2.avail = n ∧
    (Claims.takeSlots n p.2).1 = p.1 ∧
    (Claims.takeSlots n p.2).2 = { q with head := q.tail + n, tail := q.tail + n, rsv := q.tail + n, free := q.free }) ∧
  ∀ q : Qcb, q.put.1 = q.slot q.rsv ∧ q.put.2.rsv = q.rsv + 1 ∧ q.put.2.head = q.head ∧
    (q.skip.getLsbD 0 = false → q.take.1 = q.slot q.head ∧ q.take.2.head = q.head + 1 ∧ q.take.2.rsv = q.rsv)

/-- The controller's view of the block at `pa`, its earlier waiters served: the bytes `l`, in state `v`. -/
def Claims.queueSeen (u v : State) (pa : Nat) (l : List Byte) : Prop := (u.qSettle pa).qcbBytes pa = (l, v)

/-- The hart is about to make a request, for the first time or again after a refusal for want of room (R282). -/
def Claims.asking (h : Hart) : Prop := h.run = .ready ∨ ∃ p e, h.run = .waiting (.queueRetry p e true)

/-- R280, R281, R282: the register forms. With its block open, an enqueue or a dequeue whose condition holds, and which no waiter of
its priority precedes, is performed at once, and the try forms answer 0; otherwise the try forms answer 1 and change nothing, and
the others enter the wait table or, where it is full, wait to be sent again. In M mode all are illegal; a misaligned or
untranslatable block traps; a block of another context, one out of reach of its die, and, for a producer, one that a notify page
feeds, are refused; a corrupt or quarantined one is quarantined and raises cause 25; one of a larger element is an illegal
instruction. -/
def Claims.QueueRegisterForms : Prop :=
  ∀ (rd rs1 rs2 : XReg) (s : State),
    let va := s.hart.getX rs1
    let each (P : Bool → Instr → Prop) : Prop :=
      P true (.qenqX rs1 rs2) ∧ P true (.qtenq rd rs1 rs2) ∧ P false (.qdeqX rd rs1) ∧ P false (.qtdeq rd rs1 rs2)
    (s.hart.mode = .m → each (fun _ i => Gives i s (Traps s 2 0 s.hart.ir))) ∧
    (s.hart.mode ≠ .m → s.hart.answer = none → Claims.asking s.hart →
      (va.toNat % 128 ≠ 0 → each (fun _ i => Gives i s (Traps s 6 0 va))) ∧
      (∀ (e : TrapInfo) (u : State), s.qAddr va = (.error e, u) → each (fun _ i => Gives i s (fun t => t = u.trap e))) ∧
      ∀ (pa : Nat) (u v : State), s.qAddr va = (.ok pa, u) →
        let val := v.hart.getX rs2
        let room := (v.qwaits.filter (fun e => e.slice == homeSlice (paLow pa))).length < 512
        (∀ q, Claims.QueueOpen u v pa true q → q.esz ≤ 1 →
          (1 ≤ q.window ∧ 1 ≤ q.free ∧ Claims.noneAhead v pa true →
            Gives (.qenqX rs1 rs2) s (fun t => t = (Claims.enqueued v pa q [regElem val]).retire) ∧
            Gives (.qtenq rd rs1 rs2) s (fun t => t = ((Claims.enqueued v pa q [regElem val]).setX rd 0).retire)) ∧
          (¬(1 ≤ q.window ∧ 1 ≤ q.free ∧ Claims.noneAhead v pa true) →
            Gives (.qtenq rd rs1 rs2) s (Retires v (XWritten v.hart rd 1)) ∧
            (Claims.asking v.hart → room →
              Gives (.qenqX rs1 rs2) s (fun t => t.hart.run = .waiting (.queueEnq pa) ∧ t.hart.pc = v.hart.pc ∧ t.hart.x = v.hart.x ∧
                ∃ w, t.qwaits = v.qwaits ++ [w] ∧ w.qcb = pa ∧ w.gid = v.hart.gid ∧ w.enq = true ∧ w.elems = [regElem val])) ∧
            (Claims.asking v.hart → ¬room → Gives (.qenqX rs1 rs2) s (fun t =>
              t.hart.run = .waiting (.queueRetry pa true false) ∧ t.hart.pc = v.hart.pc ∧ t.hart.x = v.hart.x ∧ t.qwaits = v.qwaits)))) ∧
        (∀ q, Claims.QueueOpen u v pa false q → q.esz ≤ 1 →
          (1 ≤ q.avail ∧ Claims.noneAhead v pa false →
            Gives (.qdeqX rd rs1) s (fun t => t = ((Claims.dequeued v pa q 1).setX rd (Claims.firstTaken v q)).retire) ∧
            Gives (.qtdeq rd rs1 rs2) s (fun t =>
              t = (((Claims.dequeued v pa q 1).setX rs2 (Claims.firstTaken v q)).setX rd 0).retire)) ∧
          (¬(1 ≤ q.avail ∧ Claims.noneAhead v pa false) →
            Gives (.qtdeq rd rs1 rs2) s (Retires v (XWritten v.hart rd 1)) ∧
            (Claims.asking v.hart → room →
              Gives (.qdeqX rd rs1) s (fun t => t.hart.run = .waiting (.queueDeq pa) ∧ t.hart.pc = v.hart.pc ∧ t.hart.x = v.hart.x)) ∧
            (Claims.asking v.hart → ¬room → Gives (.qdeqX rd rs1) s (fun t =>
              t.hart.run = .waiting (.queueRetry pa false false) ∧ t.hart.pc = v.hart.pc ∧ t.hart.x = v.hart.x)))) ∧
        (∀ l, Claims.queueSeen u v pa l →
          let q := qcbParse (dwords 16 l)
          let refused (produce : Bool) : Prop := q.asid ≠ v.hart.asid ∨ (q.md = false ∧ v.dieNo ≠ sliceDie (homeSlice (paLow pa))) ∨
            (q.nf = true ∧ produce = true)
          let spoiled := qcbCorrupt l = true ∨ q.qr = true
          each (fun produce i =>
            (refused produce → Gives i s (Traps v 7 0 va)) ∧
            (¬refused produce → spoiled → Gives i s (fun t =>
              t.hart = ({ v.hart with resv := t.hart.resv }).takeTrap ⟨25, 0, 0⟩ ∧ wbit (dw (dwords 16 (t.peek pa 128)) 0) 37 = true)) ∧
            (¬refused produce → ¬spoiled → 1 < q.esz → Gives i s (Traps v 2 0 v.hart.ir))) ∧
          (refused true → Gives (.qrsv rd rs1) s (Traps v 7 0 va) ∧ Gives (.qcmt rs1 rs2) s (Traps v 7 0 va)) ∧
          (refused false → Gives (.qstat rd rs1) s (Traps v 7 0 va))))

/-- `Claims.QueueFirstInFirstOut`, `Claims.QueueRegisterForms` together. -/
def Obligations.QueueOrderAndRegisterForms : Prop :=
  Claims.QueueFirstInFirstOut ∧ Claims.QueueRegisterForms

/-- R281, R285, R289: tickets and the state of a queue: a reservation takes the next slot's sequence and one free slot, or, where no
slot or no ticket is left or a producer waits ahead, answers all ones; a commit of a ticket publishes its slot, and one without a
ticket is illegal; `qstat` reads the block's counts. -/
def Claims.QueueTickets : Prop :=
  ∀ (rd rs1 rs2 : XReg) (pa : Nat) (q : Qcb) (s u v : State),
    let va := s.hart.getX rs1
    let slice := homeSlice (paLow pa)
    let seq := (v.hart.getX rs2).toNat
    s.hart.mode ≠ .m → s.qAddr va = (.ok pa, u) →
    (Claims.QueueOpen u v pa true q →
      (1 ≤ q.window → 1 ≤ q.free → Claims.noneAhead v pa true → (v.tickets.filter (fun t => t.slice == slice)).length < 256 →
        Gives (.qrsv rd rs1) s (fun t => t.tickets = v.tickets ++ [⟨slice, pa, q.rsv, v.hart.team, v.hart.asid⟩] ∧
          t = ((({ v.qcbWrite pa q ({ q with rsv := q.rsv + 1, free := q.free - 1 } : Qcb).advance with tickets := t.tickets }).setX rd
            (BitVec.ofNat 64 q.rsv)).retire))) ∧
      (q.window = 0 ∨ q.free = 0 ∨ ¬Claims.noneAhead v pa true ∨ 256 ≤ (v.tickets.filter (fun t => t.slice == slice)).length →
        Gives (.qrsv rd rs1) s (Retires v (XWritten v.hart rd 0xFFFFFFFFFFFFFFFF#64))) ∧
      ((∃ e ∈ v.tickets, e.qcb = pa ∧ e.seq = seq) →
        Gives (.qcmt rs1 rs2) s (fun t => t = ({ v.release v.hart.gid with
          tickets := v.tickets.filter (fun e => !(e.qcb == pa && e.seq == seq)) }.qcbWrite pa q (q.commit seq false)).retire)) ∧
      ((∀ e ∈ v.tickets, ¬(e.qcb = pa ∧ e.seq = seq)) → Gives (.qcmt rs1 rs2) s (Traps v 2 0 v.hart.ir))) ∧
    (Claims.QueueOpen u v pa false q → q.tail - q.head < 2 ^ 25 → q.free < 2 ^ 25 → q.rsv - q.tail < 2 ^ 12 →
      Gives (.qstat rd rs1) s (fun t => ∃ k w, t = { v with hart := k.retire } ∧ XWritten v.hart rd w k ∧
        wfield w 0 25 = q.tail - q.head ∧ wfield w 25 25 = q.free ∧ (w.getLsbD 50 = true ↔ (v.qHead pa true).isSome = true) ∧
        (w.getLsbD 51 = true ↔ (v.qHead pa false).isSome = true) ∧ wfield w 52 12 = q.rsv - q.tail))

/-- R280, R283, R394: the memory and the lane forms: an element of the block's own size from or to memory, its loads held first
where they lie behind ports; one element of every active lane, all at once; and `vqtdeq` as many as there are, with the mask of the
lanes served: none where no element is there or a consumer waits ahead. (Model: what `vqtdeq` pushes to a bound write stream: log
65.) -/
def Claims.QueueMemoryAndLaneForms : Prop :=
  ∀ (p : LaneHdr) (dbl : Bool) (ms : MReg) (xq rs2 : XReg) (vd : LOp) (pa : Nat) (q : Qcb) (s u u1 v : State),
    let h := s.hart
    let act := h.active p
    let ls := maskLanes act
    let e := u.getX rs2
    let els := ls.map (fun i => natToBytes 8 (if dbl then (h.pair vd.toNat i).toNat else (h.getV vd.toNat i).toNat))
    let vals (n : Nat) : List Word := (v.takeElems q n).1.map (fun b => BitVec.ofNat 64 (leNat (b.take 8)))
    let esz := if dbl then 1 else 0
    let takes (n : Nat) (Q : Hart → Prop) (t : State) : Prop :=
      ∃ k : Hart, t = { Claims.dequeued v pa q n with hart := k.retire } ∧ k.x = v.hart.x ∧ Q k ∧
        ∀ r i, i < 32 → k.getV r i = if vd.toNat ≤ r ∧ r < vd.toNat + esz + 1 ∧ i ∈ ls.take n then
          (((vals n).getD (ls.idxOf i) 0) >>> (32 * (r - vd.toNat))).setWidth 32 else v.hart.getV r i
    h.mode ≠ .m → (h.run = .ready ∧ h.answer = none) ∨ (∃ ps, h.run = .waiting (.far ps)) → s.qAddr (h.getX xq) = (.ok pa, u) →
    (e.toNat % 4 = 0 → u.loadPorts 4 e (u.qWords pa) ≠ [] → u.hart.answer = none →
      Gives (.qenqM xq rs2) s (Claims.LoadsWait u (u.loadPorts 4 e (u.qWords pa)))) ∧
    (∀ b u0, e.toNat % 4 = 0 → Claims.LoadsDone u (u.loadPorts 4 e (u.qWords pa)) u0 → u0.loadUnits4 e (u.qWords pa) = (.ok b, u1) →
      Claims.QueueOpen u1 v pa true q → 1 ≤ q.window → 1 ≤ q.free → Claims.noneAhead v pa true →
      Gives (.qenqM xq rs2) s (fun t => t = (Claims.enqueued v pa q [b]).retire)) ∧
    (∀ d, e.toNat % 4 = 0 → u.storeUnits4 e (u.qWords pa) = (.ok d, u1) → Claims.QueueOpen u1 v pa false q →
      1 ≤ q.avail → Claims.noneAhead v pa false →
      Gives (.qdeqM xq rs2) s (fun t => ∃ w : QWait, w.dst = d ∧ w.gid = v.hart.gid ∧ w.asid = v.hart.asid ∧
        let r := ((v.takeElems q 1).2.2.qcbWrite pa q (v.takeElems q 1).2.1).deliver w q (v.takeElems q 1).1
        t = (r.putResults r.hart.results).retire ∧ r.hart.results = memResults d ((v.takeElems q 1).1.headD []))) ∧
    (LanesFree s (queueRegs vd dbl) → act ≠ 0 → Claims.QueueOpen u v pa true q → q.esz = esz → ls.length ≤ q.window →
      ls.length ≤ q.free → Claims.noneAhead v pa true →
      Gives (.vqenq p dbl xq vd) s (fun t => ∃ k : Hart, t = { Claims.enqueued v pa q els with hart := k.retire } ∧
        k.x = v.hart.x ∧ k.v = h.v ∧ k.m = v.hart.m)) ∧
    (LanesFree s (queueRegs vd dbl) → Claims.QueueOpen u v pa false q → q.esz = esz → Claims.noneAhead v pa false →
      v.hart.strm = h.strm →
      (act ≠ 0 → ls.length ≤ q.avail → Gives (.vqdeq p dbl xq vd) s (takes ls.length (fun k => k.m = v.hart.m))) ∧
      (act ≠ 0 → 1 ≤ q.avail →
        let n := min q.avail ls.length
        Gives (.vqtdeq p dbl ms xq vd) s (takes n (fun k =>
          ∀ r, k.getM r = if r = ms then maskOfList (ls.take n) else v.hart.getM r))) ∧
      (act ≠ 0 → q.avail = 0 → Gives (.vqtdeq p dbl ms xq vd) s (Retires v (MaskWritten v.hart ms 0))) ∧
      (act = 0 → Gives (.vqtdeq p dbl ms xq vd) s (Retires s (MaskWritten h ms 0)))) ∧
    (LanesFree s (queueRegs vd dbl) → Claims.QueueOpen u v pa false q → q.esz = esz → ¬Claims.noneAhead v pa false →
      v.hart.strm = h.strm → act ≠ 0 → Gives (.vqtdeq p dbl ms xq vd) s (Retires v (MaskWritten v.hart ms 0)))

/-- `Claims.QueueTickets`, `Claims.QueueMemoryAndLaneForms` together. -/
def Obligations.QueueTicketsMemoryAndLanes : Prop :=
  Claims.QueueTickets ∧ Claims.QueueMemoryAndLaneForms

/-- R284, R286, R282, R290: `qinit` makes an empty queue of the parameter block's shape, drops the block's tickets and sends its
waiters back, its loads held first where they lie behind ports; `qdrain`, in S mode alone, removes every waiter and ticket of an
ASID and counts them; a waiter at the head whose condition holds is served, unless the block is refused; a refused request is to be
made again; a write of NPBIND binds its page or frees it. (Model: the cause of a misaligned parameter block: log 27; an unbound
notify page: log 32.) -/
def Obligations.QueueManagement : Prop :=
  ∀ (rd rs1 rs2 : XReg) (pa base die page : Nat) (b : List Word) (l : List Byte) (w : Word) (s u u1 u2 v : State),
    let h := s.hart
    let pb := u.getX rs2
    let size := if wfield (dw b 1) 8 8 = 0 then 256 else wfield (dw b 1) 8 8
    let bytes := 2 ^ wfield (dw b 1) 0 8 * size
    let leaf := u2.leafOf (dw b 0)
    let drained := ((s.qwaits.filter (fun e => e.asid == (h.getX rs1).toNat)).map QWait.qcb).eraseDups.foldl State.qSettle s
    let old := fget 0 (s.die die).npbind page
    (h.mode ≠ .m → s.qAddr (h.getX rs1) = (.ok pa, u) →
      (pb.toNat % 32 ≠ 0 → Gives (.qinit rs1 rs2) s (Traps u 4 0 pb)) ∧
      (pb.toNat % 32 = 0 → u.hart.answer = none → u.loadPorts 8 pb 4 ≠ [] → Gives (.qinit rs1 rs2) s (Claims.LoadsWait u (u.loadPorts 8 pb 4))) ∧
      (∀ u0, pb.toNat % 32 = 0 → Claims.LoadsDone u (u.loadPorts 8 pb 4) u0 → u0.loadBlock pb 4 = (.ok b, u1) →
        (qparamOk b = false → Gives (.qinit rs1 rs2) s (Traps u1 27 4 0)) ∧
        (qparamOk b = true → u1.dataPa u1.hart.mode .store (dw b 0) = (.ok base, u2) →
          u2.region (paLow base) = .hbm → u2.region (paLow (base + bytes - 1)) = .hbm →
          (dw b 0).toNat % 2 ^ leaf + bytes ≤ 2 ^ leaf → (u2.qSettle pa).qcbBytes pa = (l, v) →
          Gives (.qinit rs1 rs2) s (fun t =>
            (∃ q : Qcb, q.base = base ∧ q.lcap = wfield (dw b 1) 0 8 ∧ q.size = 4 * (size / 4 - 1 + 1) ∧ q.head = 0 ∧ q.tail = 0 ∧
              q.rsv = 0 ∧ q.cmt = 0 ∧ q.abn = 0 ∧ q.skip = 0 ∧ q.free = q.cap ∧ q.asid = v.hart.asid ∧ q.qr = false ∧
              q.nf = wbit (dwordOf l) 38 ∧ t.mem = (v.writeAt .other pa q.bytes).mem) ∧
            (∀ e ∈ t.tickets, e.qcb ≠ pa) ∧ (∀ e ∈ t.qwaits, e.qcb ≠ pa) ∧ t.hart.x = v.hart.x ∧ t.hart.pc = v.hart.retire.pc)))) ∧
    (h.mode ≠ .s ∨ 2 ^ 16 ≤ (h.getX rs1).toNat → Gives (.qdrain rd rs1) s (Traps s 2 0 h.ir)) ∧
    (h.mode = .s → (h.getX rs1).toNat < 2 ^ 16 → drained.hart = h → Gives (.qdrain rd rs1) s (fun t =>
      (∀ e ∈ t.qwaits, e.asid ≠ (h.getX rs1).toNat) ∧ (∀ e ∈ t.tickets, e.asid ≠ (h.getX rs1).toNat) ∧
      (rd ≠ 0 → t.hart.getX rd = BitVec.ofNat 64
        ((drained.qwaits.filter (fun e => e.asid == (h.getX rs1).toNat)).length % 2 ^ 32 +
          (drained.tickets.filter (fun e => e.asid == (h.getX rs1).toNat)).length % 2 ^ 32 * 2 ^ 32)) ∧
      ∀ r, r ≠ rd → t.hart.getX r = h.getX r)) ∧
    (∀ (e : QWait) (q : Qcb), s.qcbRefused s.sel = false → (s.ready s.sel 128).qServable s.sel = some (e, q) →
      Gives .queueWaiterServed s (fun t =>
        t = ({ s.ready s.sel 128 with qwaits := (s.ready s.sel 128).qwaits.filter (fun x => x.gid != e.gid) }).performQ e q)) ∧
    (s.qcbRefused s.sel = true ∨ (s.ready s.sel 128).qServable s.sel = none → Gives .queueWaiterServed s (fun t => t = s)) ∧
    (∀ enq again, (s.hartOf s.sel).run = .waiting (.queueRetry pa enq again) → Gives .queueRetry s (fun t =>
      t.hartOf s.sel = { s.hartOf s.sel with run := .waiting (.queueRetry pa enq true) } ∧ t = { s with parked := t.parked, hart := t.hart })) ∧
    Gives (.npbindWrite die page w) s (fun t =>
      fget 0 (t.die die).npbind page = BitVec.ofNat 64 (wfield w 7 45 * 128 + wfield w 0 1) ∧
      (∀ p, p ≠ page → fget 0 (t.die die).npbind p = fget 0 (s.die die).npbind p) ∧ t.hart.x = s.hart.x ∧ t.hart.pc = s.hart.pc ∧
      (wbit old 0 = false → wbit w 0 = false → t = { s with dies := t.dies }) ∧
      (s.qcbRefused (wfield w 7 45 * 128) = false → wbit old 0 = false → wbit w 0 = true →
        wbit (dwordOf (t.peek (wfield w 7 45 * 128) 8)) 38 = true) ∧
      (s.qcbRefused (wfield old 7 45 * 128) = false → wbit old 0 = true → wbit w 0 = false →
        wbit (dwordOf (t.peek (wfield old 7 45 * 128) 8)) 38 = false))

/-! ## The copy engine and streams -/

/-- R235 to R239, R241, R394: `cpy` of a whole, aligned and legal block, with its pages translated, enters a transfer, counts it in
`cnt0` and returns its number; in SPAWN mode it reserves a place first, and without one returns all ones; while the engine is full
it waits with the checked transfer, which enters once there is room; loads of the block and of its records that lie behind ports
hold it first; a misaligned block, one that cannot be read, an illegal one and an untranslatable page trap; in M mode it is illegal.
(Model: the limit of pages: log 29.) -/
def Claims.CopyRequests : Prop :=
  ∀ (rd rs1 : XReg) (b rs rdst : List Word) (pages : List (Nat × Nat)) (e : TrapInfo) (s s0 u u1 v : State),
    let h := s.hart
    let va := h.getX rs1
    let i : Instr := .cpy rd rs1
    let x : Xfer := ⟨0, 0, u1.hart.gid, u1.hart.team, u1.clusterNo, b, va, rs, rdst, [], 0, [], [], false, false, false, 0, none⟩
    let fits := x.recsOk = true ∧ x.inShare u1.share = true ∧ (touched x.srcRuns).length ≤ 256 ∧
      (touched (x.dstRuns ++ x.extRuns)).length ≤ 256
    let enters (from_ : State) (y : Xfer) (t : State) : Prop :=
      let id := nextId from_.hart.nextXfer
      t.xfers = from_.xfers ++ [{ y with id := id, turn := from_.ticks }] ∧ t.hart.cnt0 = from_.hart.cnt0 + 1 ∧ t.hart.nextXfer = id ∧
        t.hart.pc = from_.hart.retire.pc ∧ (Claims.Quiet from_ → Claims.KeepsAll from_ t) ∧
        ∀ r, t.hart.getX r = if r = rd ∧ r ≠ 0 then BitVec.ofNat 64 id else from_.hart.getX r
    let waits (from_ : State) (y : Xfer) (t : State) : Prop :=
      t.hart.run = .waiting (.cpy y) ∧ t.hart.pc = from_.hart.pc ∧ t.hart.x = from_.hart.x ∧ t.xfers = from_.xfers
    (h.mode = .m → Gives i s (Traps s 2 0 h.ir)) ∧
    (h.mode ≠ .m → (∀ y, h.run ≠ .waiting (.cpy y)) →
      (va.toNat % 64 ≠ 0 → Gives i s (Traps s 4 0 va)) ∧
      (h.answer = none → s.cpyPorts va ≠ [] → Gives i s (Claims.LoadsWait s (s.cpyPorts va))) ∧
      (va.toNat % 64 = 0 → Claims.LoadsDone s (s.cpyPorts va) s0 → s0.loadBlock va 8 = (.error e, u) → Gives i s (fun t => t = u.trap e)) ∧
      (va.toNat % 64 = 0 → Claims.LoadsDone s (s.cpyPorts va) s0 → s0.loadBlock va 8 = (.ok b, u) →
        (cpyBlockOk b = false → Gives i s (Traps u 27 0 0)) ∧
        (cpyBlockOk b = true → u.loadRecords b = (.error e, u1) → Gives i s (fun t => t = u1.trap e)) ∧
        (cpyBlockOk b = true → u.loadRecords b = (.ok (rs, rdst), u1) →
          (¬fits → Gives i s (Traps u1 27 0 0)) ∧
          (fits → u1.holdXfer x = (.error e, v) → Gives i s (fun t => t = v.trap e)) ∧
          (fits → u1.holdXfer x = (.ok pages, v) → (∀ y, v.hart.run ≠ .waiting (.cpy y)) →
            let y : Xfer := { x with pages := pages, uid := v.nextUid }
            (cpyMode b ≠ 3 → v.held v.clusterNo < 64 → Gives i s (enters v y)) ∧
            (cpyMode b ≠ 3 → 64 ≤ v.held v.clusterNo → Gives i s (waits v y)) ∧
            (cpyMode b = 3 → (v.takeUid.1).reservePlace v.nextUid = none →
              Gives i s (Retires v (XWritten v.hart rd 0xFFFFFFFFFFFFFFFF#64))) ∧
            (∀ (g : Nat) (r : State), cpyMode b = 3 → (v.takeUid.1).reservePlace v.nextUid = some (g, r) →
              (v.held v.clusterNo < 64 → Gives i s (fun t =>
                enters v { y with place := some g } t ∧ (t.hartOf g).run = .reserved v.nextUid)) ∧
              (64 ≤ v.held v.clusterNo → Gives i s (fun t =>
                waits v { y with place := some g } t ∧ (t.hartOf g).run = .reserved v.nextUid))))))) ∧
    (∀ y : Xfer, h.mode ≠ .m → h.run = .waiting (.cpy y) →
      (s.held s.clusterNo < 64 → Gives i s (enters s y)) ∧ (64 ≤ s.held s.clusterNo → Gives i s (fun t => t = s)))

/-- R240, R237, R241: the engine goes on with the transfer whose chunk has begun, else with one of the highest priority that it
holds: it reads units of the next chunk, moves that chunk, of which units may be written later, or writes units that it owes; a
linear transfer between arrays of the core moves byte by byte; a transfer that is whole ends: it leaves the engine, and it writes
its flag, sends its event or starts its hart as its mode says; but for an event, which counts when it is queued, it leaves `cnt0`.
(Model: which chunk moves when is the agenda's: log 2; the priority of an exited hart's request: log 58; which units of a chunk move
before or after the others: log 26; what counts as moved, and a linear acc source: logs 77, 78.) -/
def Claims.CopyProgress : Prop :=
  ∀ (x : Xfer) (g : Nat) (s : State),
    let h := s.hartOf x.gid
    let mine := s.xfers.filter (fun y => y.cluster == s.sel && !y.done)
    let one := ∀ y ∈ s.xfers, y.uid = x.uid → y = x
    let reads (y : Xfer) : Prop := x.owed = [] ∧ y = { x with got := y.got }
    let moves (y : Xfer) : Prop := x.owed = [] ∧ y.moved = x.chunkEnd (x.moved * 8 / x.width) * x.width / 8 ∧ y.got = []
    let pays (y : Xfer) : Prop := x.owed ≠ [] ∧ y.moved = x.moved ∧ y.got = x.got ∧ y.owed.length < x.owed.length ∧ ∀ u ∈ y.owed, u ∈ x.owed
    let c := (s.team x.team).core
    let sh := (s.team x.team).share
    let array (t : State) (o : Nat) : Byte := fget 0 ((t.core c).space (cpyDsp x.blk)) o
    (mine = [] → Gives .copyChunk s (fun t => t = s)) ∧
    (s.engineXfer s.sel = some x →
      x ∈ mine ∧ (x.inChunk = true ∨ ∀ y ∈ mine, y.inChunk = false ∧ s.reqPrio y.gid y.team ≤ s.reqPrio x.gid x.team) ∧
      (one → Gives .copyChunk s (fun t => t.xfers.length = s.xfers.length ∧
          (∀ y ∈ t.xfers, y.uid = x.uid → y.blk = x.blk ∧ y.pages = x.pages ∧
            (reads y ∨ ((moves y ∨ pays y) ∧ (y.done = true ↔ y.moved * 8 / x.width = x.count ∧ y.owed = [])))) ∧
          (∀ y ∈ s.xfers, y.uid ≠ x.uid → y ∈ t.xfers) ∧ t.hart.x = s.hart.x ∧ t.hart.pc = s.hart.pc)) ∧
      (one → cpyShaped x.blk = false → cpyXf x.blk = 0 → (cpySsp x.blk = 1 ∨ cpySsp x.blk = 4) → 1 ≤ cpyDsp x.blk → cpyDsp x.blk ≤ 3 →
        (s.team x.team).phase ≠ .ended →
        let from_ := (sh.space (cpySsp x.blk)).1 + (dw x.blk 0).toNat
        let into := (sh.space (cpyDsp x.blk)).1
        let first := into + (dw x.blk 1).toNat + x.moved
        let n := min (cpyLen x.blk - x.moved) 4096
        let source (o : Nat) : Byte := fget 0 ((s.core c).space (cpySsp x.blk)) (o - first + x.moved + from_)
        (x.got = [] → x.owed = [] → Gives .copyChunk s (fun t => ∀ y ∈ t.xfers, y.uid = x.uid →
          (reads y ∧ ∀ o, array t o = array s o) ∨
          (moves y ∧
            (∀ u ∈ y.owed, ∀ k, k < u.2.length →
              first ≤ into + u.1 + k ∧ into + u.1 + k < first + n ∧ u.2.getD k 0 = source (into + u.1 + k)) ∧
            ∀ o, array t o =
              if first ≤ o ∧ o < first + n ∧ ∀ u ∈ y.owed, ¬(into + u.1 ≤ o ∧ o < into + u.1 + u.2.length) then source o
              else array s o))) ∧
        (∀ (at_ : Nat) (l : List Byte), x.owed = [(at_, l)] → Gives .copyChunk s (fun t =>
          ∀ o, array t o = if into + at_ ≤ o ∧ o < into + at_ + l.length then l.getD (o - (into + at_)) 0 else array s o)))) ∧
    (s.xfers.find? (fun y => y.uid == s.sel && y.done) = none → Gives .copyComplete s (fun t => t = s)) ∧
    (s.xfers.find? (fun y => y.uid == s.sel && y.done) = some x → h.run.isHart = true →
      (cpyMode x.blk = 0 → Gives .copyComplete s (fun t => t.xfers = s.xfers.filter (fun y => y.uid != x.uid) ∧
        (t.hartOf x.gid).cnt0 = h.cnt0 - 1 ∧ (t.hartOf x.gid).x = h.x ∧ (t.hartOf x.gid).pc = h.pc)) ∧
      (cpyMode x.blk = 1 → Gives .copyComplete s (fun t => t.xfers = s.xfers.filter (fun y => y.uid != x.uid) ∧
        (t.hartOf x.gid).cnt0 = h.cnt0 - 1 ∧ (t.hartOf x.gid).x = h.x ∧
        t.mem = (((s.writeStatus x).dropXfer x.uid).xferWrite x (dw x.blk 2).toNat (dw x.blk 3)).mem)) ∧
      (cpyMode x.blk = 2 → h.uiq.length < 16 → h.uiHeld = [] → Gives .copyComplete s (fun t =>
        t.xfers = s.xfers.filter (fun y => y.uid != x.uid) ∧ (t.hartOf x.gid).cnt0 = h.cnt0 - 1 ∧
        (t.hartOf x.gid).uiq = h.uiq ++ [⟨0, BitVec.ofNat 64 x.id, dw x.blk 2, some 0, some (scopeOf (cpyScope x.blk))⟩])) ∧
      (cpyMode x.blk = 3 → x.place = some g → g ≠ x.gid → (s.hartOf g).run = .reserved x.uid →
        Gives .copyComplete s (fun t =>
          (t.hartOf x.gid).cnt0 = h.cnt0 - 1 ∧ (t.hartOf g).run = .ready ∧ (t.hartOf g).pc = dw x.blk 2 &&& ~~~1#64 ∧
          (t.hartOf g).getX 10 = dw x.blk 3 ∧ (t.hartOf g).team = (s.hartOf g).team ∧
          (t.hartOf g).wrapup = s.expired (s.hartOf g).team)))

/-- R243, R244: a wait on a counter goes on once the counter is no greater than the immediate; before, `cwait` waits, and `ctry`
waits for 256 ck at the longest, then answers 0; neither exists in M mode. -/
def Claims.CounterWaits : Prop :=
  ∀ (rd : XReg) (cls : BitVec 2) (n : BitVec 12) (s : State),
    let h := s.hart
    let c := cls.toNat
    let acquires (Q : Hart → Prop) (t : State) : Prop := ∃ k, t = { s with l1 := t.l1, hart := k.retire } ∧ Q k
    (h.mode = .m → Gives (.cwait cls n) s (Traps s 2 0 h.ir) ∧ Gives (.ctry rd cls n) s (Traps s 2 0 h.ir)) ∧
    (h.mode ≠ .m → h.cnt c ≤ n.toNat →
      Gives (.cwait cls n) s (acquires (fun k => k = h)) ∧
      Gives (.ctry rd cls n) s (acquires (XWritten h rd 1))) ∧
    (h.mode ≠ .m → n.toNat < h.cnt c → h.run = .ready →
      Gives (.cwait cls n) s (fun t => t = { s with hart := { h with run := .waiting (.counter c), waitFrom := s.clock } }) ∧
      Gives (.ctry rd cls n) s (fun t => t = { s with hart := { h with run := .waiting (.counter c), waitFrom := s.clock } })) ∧
    (h.mode ≠ .m → n.toNat < h.cnt c → h.run = .waiting (.counter c) → h.waitFrom + 256 ≤ s.clock →
      Gives (.ctry rd cls n) s (Retires s (XWritten h rd 0)))

/-- `Claims.CopyRequests`, `Claims.CopyProgress`, `Claims.CounterWaits` together. -/
def Obligations.CopyEngine : Prop :=
  Claims.CopyRequests ∧ Claims.CopyProgress ∧ Claims.CounterWaits

/-- The lane words that compute from lane registers, with the lane registers that they read and write. -/
def Claims.LaneWord (p : LaneHdr) (reads writes : List Nat) (i : Instr) : Prop :=
  ∃ (vd va vb vc : LOp) (md : MReg) (f : FForm) (t : Ity) (n : NegTy) (c : Cond) (w : SubW) (d : Dp4Ty) (k : PackTy) (src dst : Tc) (rm : Rm)
      (imm : BitVec 20) (amt : BitVec 5) (j : BitVec 3) (st : ScanTy) (sel : LaneSel) (xd : XReg) (u : Bool),
    (reads = regsOf va 1 ∧ writes = [vd.toNat] ∧
      (i = .vmov p vd va ∨ i = .vnot p vd va ∨ i = .vbrev p vd va ∨ i = .vclz p vd va ∨ i = .vctz p vd va ∨ i = .vpopc p vd va ∨
        i = .vneg p n vd va ∨ i = .vabs p n vd va ∨ i = .vaddi p imm vd va ∨ i = .vandi p imm vd va ∨ i = .vori p imm vd va ∨
        i = .vxori p imm vd va ∨ i = .vslli p amt vd va ∨ i = .vsrli p amt vd va ∨ i = .vsrai p amt vd va ∨ i = .vmuli p imm vd va ∨
        i = .vrcp p vd va ∨ i = .vrsqrt p vd va ∨ i = .vsqrt p rm vd va ∨ i = .vexp2 p vd va ∨ i = .vlog2 p vd va ∨ i = .vsin p vd va ∨
        i = .vcos p vd va ∨ i = .vtanh p vd va ∨ i = .vfrac p vd va ∨ i = .vrnd p rm vd va ∨ i = .vfclass p vd va ∨
        (src.is64 = false ∧ dst.is64 = false ∧ i = .vcvt p dst src rm u vd va) ∨ i = .vcvtSr p dst u vd va ∨ i = .vunpack p src j vd va ∨
        i = .vvoteMask p w vd va ∨ i = .vmatch p false w vd va ∨ i = .vscanAdd p st u w vd va ∨ i = .vscanMin p st u w vd va ∨
        i = .vscanMax p st u w vd va)) ∨
    (reads = regsOf va 1 ++ regsOf vb 1 ∧ writes = [vd.toNat] ∧
      ((t.is64 = false ∧ (i = .vadd p t vd va vb ∨ i = .vsub p t vd va vb)) ∨ i = .vmul p t vd va vb ∨ i = .vmulh p t vd va vb ∨
        i = .vmin p t vd va vb ∨ i = .vmax p t vd va vb ∨ i = .vabsd p t vd va vb ∨ i = .vadds p t vd va vb ∨ i = .vsubs p t vd va vb ∨
        i = .vand p vd va vb ∨ i = .vor p vd va vb ∨ i = .vxor p vd va vb ∨ i = .vandn p vd va vb ∨ i = .vsll p vd va vb ∨
        i = .vsrl p vd va vb ∨ i = .vsra p vd va vb ∨ i = .vrol p vd va vb ∨ i = .vperm p vd va vb ∨ i = .vfadd p f vd va vb ∨
        i = .vfsub p f vd va vb ∨ i = .vfmul p f vd va vb ∨ i = .vfmin p f vd va vb ∨ i = .vfmax p f vd va vb ∨ i = .vpack p k vd va vb ∨
        i = .vshflIdx p w vd va vb ∨ i = .vshflUp p w vd va vb ∨ i = .vshflDown p w vd va vb ∨ i = .vshflXor p w vd va vb)) ∨
    (reads = regsOf va 1 ++ regsOf vb 1 ++ regsOf vc 1 ∧ writes = [vd.toNat] ∧
      (i = .vsel p vd va vb vc ∨ i = .vbfi p vd va vb vc ∨ i = .vfunnel p vd va vb vc ∨ i = .vmad p u vd va vb vc ∨
        i = .vmadh p u vd va vb vc ∨ i = .vfma p f vd va vb vc ∨ i = .vfms p f vd va vb vc ∨ i = .vfnma p f vd va vb vc ∨
        i = .vfnms p f vd va vb vc ∨ i = .vdp2 p u vd va vb vc ∨ i = .vdp4 p d vd va vb vc)) ∨
    (reads = regsOf va 2 ++ regsOf vb 2 ∧ writes = [vd.toNat, vd.toNat + 1] ∧ t.is64 = true ∧
      (i = .vadd p t vd va vb ∨ i = .vsub p t vd va vb)) ∨
    (reads = regsOf va 1 ++ regsOf vb 1 ∧ writes = [] ∧ (i = .vcmp p c u md va vb ∨ i = .vfcmp p c md va vb)) ∨
    (reads = regsOf va 1 ∧ writes = [] ∧
      (i = .vcmpi p c u imm md va ∨ i = .vvoteAny p w md va ∨ i = .vvoteAll p w md va ∨ i = .vlredAdd p st xd va ∨ i = .vlredMin p st xd va ∨
        i = .vlredMax p st xd va ∨ i = .vlredAnd p xd va ∨ i = .vlredOr p xd va ∨ i = .vlredXor p xd va ∨ i = .vext p sel xd va))

/-- R142, R143, R144, R245, R246, R247, R248, R394: `strm.cfg` binds a slot to its descriptor; an illegal one, and one whose
register another slot has or the hart has not, is an engine request fault; `strm.end` unbinds; both are illegal in M mode; the
stream unit fetches ahead. A lane word with a source bound to a read stream waits for its strip, and then runs as it runs with the
elements in the register's active lanes, in ascending order, 0 beyond the pattern's end, and the stream moves on by their number, as
every lane word begins; an element that faulted traps, and no strip is consumed. A lane word that writes a register bound to a write
stream runs as it runs on a register that is not bound, and stores the active lanes' values to the pattern's next elements, in
ascending order, counted in `cnt3`; where an element faults, none is. (Model: addr of lanes without a fault of their own: log 66;
store faults of pushes: log 63.) -/
def Obligations.Streams : Prop :=
  ∀ (p : LaneHdr) (ss : BitVec 2) (rs1 : XReg) (d : List Word) (x : StrmSlot) (g k : Nat)
      (l : List StrmElem) (lns : List Nat) (s s0 u v : State),
    let h := s.hart
    let f := s.focus g
    let w := f.hart.slot ss.toNat
    let ports := s.loadPorts 8 (h.getX rs1) 8
    let aligned := h.mode ≠ .m ∧ (h.getX rs1).toNat % 64 = 0
    let block := aligned ∧ Claims.LoadsDone s ports s0 ∧ s0.loadBlock (h.getX rs1) 8 = (.ok d, u)
    let fault := Gives (.strmCfg ss rs1) s (Traps u 27 1 0)
    (h.mode ≠ .m → (h.getX rs1).toNat % 64 ≠ 0 → Gives (.strmCfg ss rs1) s (Traps s 4 0 (h.getX rs1))) ∧
    (aligned → ports ≠ [] → h.answer = none → Gives (.strmCfg ss rs1) s (Claims.LoadsWait s ports)) ∧
    (∀ e : TrapInfo, aligned → Claims.LoadsDone s ports s0 → s0.loadBlock (h.getX rs1) 8 = (.error e, u) →
      Gives (.strmCfg ss rs1) s (fun t => t = u.trap e)) ∧
    (block →
      (strmParse d u.hart.mode = none → fault) ∧
      (strmParse d u.hart.mode = some x → u.hart.lalloc ≤ x.reg ∨ u.hart.boundElse ss.toNat x.reg = true → fault) ∧
      (strmParse d u.hart.mode = some x → x.reg < u.hart.lalloc → u.hart.boundElse ss.toNat x.reg = false →
        Gives (.strmCfg ss rs1) s (fun t => t.hart.slot ss.toNat = x ∧ x.bound = true ∧ x.pos = 0 ∧ x.buf = [] ∧ x.base = dw d 0 ∧
          x.reg = wfield (dw d 1) 0 16 ∧ x.stride = [dw d 4, dw d 5, dw d 6, dw d 7] ∧
          (∀ j, j ≠ ss.toNat → t.hart.slot j = u.hart.slot j) ∧ t.hart.x = u.hart.x ∧ t.hart.v = u.hart.v ∧
          t.hart.pc = u.hart.retire.pc ∧ (Claims.Quiet u → Claims.KeepsAll u t)))) ∧
    (∀ j, x.total ≤ x.pos + j → x.elem j = some (.data 0)) ∧
    (∀ a b i0 i1 : Nat, x.ext = [a, b, 0, 0] → 0 < a → 0 < b → i0 < a → i1 < b →
      x.addr (i0 + a * i1) = x.base + BitVec.ofNat 64 i0 * x.stride.getD 0 0 + BitVec.ofNat 64 i1 * x.stride.getD 1 0 ∨ x.stride.length < 2) ∧
    (h.mode = .m → Gives (.strmCfg ss rs1) s (Traps s 2 0 h.ir) ∧ Gives (.strmEnd ss) s (Traps s 2 0 h.ir)) ∧
    (h.mode ≠ .m → Gives (.strmEnd ss) s (Retires s (fun q => q = { h with strm := q.strm } ∧
      q.slot ss.toNat = StrmSlot.fresh ∧ ∀ j, j ≠ ss.toNat → q.slot j = h.slot j))) ∧
    (f.hart.run.isHart = true → w.bound = true → w.write = false → w.buf.length ≤ 224 →
      f.refillRun w (w.pos + w.buf.length) 32 = (l, lns, v) →
      l.length = min 32 (w.total - (w.pos + w.buf.length)) ∧
      (∀ (pa : Nat) (f1 : State), Claims.Quiet f → l ≠ [] → f.dataPa w.priv .load (w.addr (w.pos + w.buf.length)) = (.ok pa, f1) →
        f.region (paLow pa) = .hbm → f.isLost (paLow pa) = false → pa % strmBytes w.tc = 0 →
        l.head? = some (.data (strmExtend w.tc (leNat (f.peek pa (strmBytes w.tc)))))) ∧
      Gives (.streamRefill g ss) s (fun t =>
        t = { ((v.countReads lns).onHart (fun q => q.setSlot ss.toNat { w with buf := w.buf ++ l })) with fe := t.fe })) ∧
    ((s.hartOf g).run ≠ .vacant → Gives (.streamPushWritten g ss) s (fun t => (t.hartOf g).cnt3 = (s.hartOf g).cnt3 - 1 ∧
      ((s.hartOf g).cnt3 ≠ 0 → ∀ e ∈ t.farBuf, e.gid ≠ g))) ∧
    (∀ reads writes : List Nat, (∀ r ∈ reads ++ writes, r < h.lalloc) →
      let act := h.active p
      let b := h.slot k
      let n := (maskLanes act).length
      act ≠ 0 → b.reg ∈ reads → h.boundSlot false b.reg = some k → (∀ r ∈ writes, h.boundSlot false r = none) →
      (∀ r ∈ reads, h.boundSlot true r = none ∧ (r ≠ b.reg → h.boundSlot false r = none)) →
      ∀ els : List Word, b.strip n = some (els.map StrmElem.data) →
        ∃ fed : Hart, s.laneBegin p reads writes = .go fed act { s with hart := fed } ∧ fed = { h with v := fed.v, strm := fed.strm } ∧
          fed.slot k = { b with pos := b.pos + n, buf := b.buf.drop n } ∧
          ∀ r j, j < 32 → fed.getV r j = if r = b.reg ∧ act.getLsbD j then
            (els.getD ((maskLanes act).idxOf j) 0).setWidth 32 else h.getV r j) ∧
    (∀ (i : Instr) (reads writes : List Nat), Claims.LaneWord p reads writes i → (∀ r ∈ reads ++ writes, r < h.lalloc) →
      h.csr.frm.toNat < 5 →
      let act := h.active p
      let b := h.slot k
      let n := (maskLanes act).length
      act ≠ 0 →
      (b.reg ∈ reads → h.boundSlot false b.reg = some k →
        (∀ r ∈ writes, h.boundSlot false r = none ∧ h.boundSlot true r = none) →
        (∀ r ∈ reads, h.boundSlot true r = none ∧ (r ≠ b.reg → h.boundSlot false r = none)) →
        (b.strip n = none → Gives i s (fun t => t = s.wait .stream)) ∧
        (∀ els : List Word, b.strip n = some (els.map StrmElem.data) →
          let fed : Hart := h.putStrip b.reg (maskLanes act) (els.map StrmElem.data)
          (∀ r j, j < 32 → fed.getV r j = if r = b.reg ∧ act.getLsbD j then
            (els.getD ((maskLanes act).idxOf j) 0).setWidth 32 else h.getV r j) ∧
          Gives i s (fun t => ∃ q : State, exec i { s with hart := { fed with strm := [] } } = .next q ∧
            t = { q with hart := { q.hart with strm := t.hart.strm } } ∧
            t.hart.slot k = { b with pos := b.pos + n, buf := b.buf.drop n } ∧ ∀ j, j ≠ k → t.hart.slot j = h.slot j)) ∧
        (∀ (els : List StrmElem) (lane : Nat) (e : TrapInfo) (rest : List (Nat × TrapInfo)), b.strip n = some els →
          stripFaults (maskLanes act) els = (lane, e) :: rest → h.lfrec.getLsbD 0 = false →
          Gives i s (fun t => ∃ q : Hart, q = { h with strm := q.strm, lfault := q.lfault } ∧ q.slot k = { b with buf := goodPrefix b.buf } ∧
            (∀ j, q.lfault.getLsbD j = true → act.getLsbD j = true) ∧ q.lfault.getLsbD lane = true ∧
            t = { s with hart := q.enterTrap false e }))) ∧
      (∀ (vd : Nat) (key : Nat) (fl : List (Nat × TrapInfo)) (ws : List (Nat × List Byte)) (q s1 : State), writes = [vd] →
        h.boundSlot true vd = some k → b.reg = vd → (∀ r ∈ reads, h.boundSlot false r = none ∧ h.boundSlot true r = none) →
        h.boundSlot false vd = none →
        exec i { s with hart := { h with strm := [] } } = .next q →
        s.checkPush b (pushElems b (fun j => q.hart.getV vd j) (maskLanes act)) = (fl, ws, s1) →
        let m := min n (b.total - b.pos)
        let pa (j : Nat) : Nat := (ws.getD j (0, [])).1
        (fl ≠ [] → h.lfrec.getLsbD 0 = false → Gives i s (fun t => ∃ lf e, (∀ j, j < 32 → (lf.getLsbD j = true ↔ ∃ o ∈ fl, o.1 = j)) ∧
          t = { s with hart := ({ h with lfault := lf }).enterTrap false e } ∧ ∃ o ∈ fl, o.2 = e ∧ ∀ o' ∈ fl, o.1 ≤ o'.1)) ∧
        (fl = [] → Claims.Quiet s → (∀ j, j < m → s.region (paLow (pa j)) = .hbm ∧ paKey (pa j) = key ∧ pa j % strmBytes b.tc = 0) →
          Gives i s (fun t =>
            Claims.Reached s t { s with
              mem := t.mem, wlog := t.wlog, keyOf := t.keyOf, parked := t.parked, lost := t.lost, poison := t.poison, hart := t.hart } ∧
            t.hart = { q.hart with
              strm := t.hart.strm, resv := t.hart.resv, cnt3 := h.cnt3 + (if m = 0 then 0 else 1) } ∧
            t.hart.slot k = { b with pos := b.pos + n } ∧ (∀ j, j ≠ k → t.hart.slot j = h.slot j) ∧
            ∀ a, paKey a = key → s.region (paLow a) = .hbm →
              t.peek a 1 = [Claims.overwritten (List.range m) (fun j => paLow (pa j))
                (fun j => natToBytes (strmBytes b.tc) (q.hart.getV vd ((maskLanes act).getD j 0)).toNat)
                (fun _ => (s.peek a 1).headD 0) (paLow a)]))))

/-- What giving a domain a list of places does: retained members keep their counts, members whose places are dropped leave, which
completes the phase where every member that remains has arrived or none remains. -/
def Claims.configured (v t : State) (k : DomKey) (asid : Nat) (new : List Nat) : Prop :=
  let old := v.dom k
  let all := new ++ old.places.filter isAway
  let kept (g : Nat) : Nat := if g ∈ old.places ∧ g ∉ all then 0 else old.c g
  ∃ d0 d1 : Dom, d0.key = k ∧ d0.asid = asid ∧ d0.places = all ∧ d0.d = old.d ∧ (∀ g, d0.c g = kept g) ∧
    t.domGet k = some d1 ∧ d1.key = k ∧ d1.asid = asid ∧ d1.places = all ∧
    let members := v.members d0
    let completes := (∃ g ∈ old.places, g ∉ all ∧ v.memberNow old g = true) ∧ ∀ g ∈ members, 1 ≤ kept g
    (completes → d1.d = !old.d ∧ ∀ g, d1.c g = kept g - members.count g) ∧
    (¬completes → d1.d = old.d ∧ ∀ g, d1.c g = kept g)

/-- R234, R394: in S mode `bar.cfg` gives a domain the places of a legal block of the hart's own ASID, or takes the domain away, and
changes no other domain; it is an illegal instruction in another mode, for a domain that is no die or package domain or belongs to
another context, for a block of another ASID or with a reserved field set, and for a domain in use that would be taken away; loads
of the block that lie behind ports hold it first. (Model: the cause of a misaligned block, and M mode: log 27; members that are
away, and the parity of a domain in use: log 69.) -/
def Claims.BarrierConfiguration : Prop :=
  ∀ (rs1 rs2 : XReg) (blk : List Word) (s u v : State),
    let h := s.hart
    let va := h.getX rs2
    let i : Instr := .barCfg rs1 rs2
    let key := domKey s.dieNo h.team (h.getX rs1).toNat
    (h.mode ≠ .s ∨ key = none ∨ (∃ t, key = some (.team t)) → Gives i s (Traps s 2 0 h.ir)) ∧
    ∀ k, h.mode = .s → key = some k → (∀ t, k ≠ .team t) →
      let sections := match k with | .pkg _ => 4 | _ => 1
      let ports := s.loadPorts 8 va (8 + 100 * sections)
      let dies := match k with | .die d _ => [d] | _ => [0, 1, 2, 3]
      let mine := wfield (dw blk 0) 0 16 = v.hart.asid ∧ cfgReserved blk sections = true ∧
        ∀ d, v.domGet k = some d → d.asid = v.hart.asid
      let busy := v.domWaited k = true ∨ ∃ d, v.domGet k = some d ∧ ∃ g ∈ v.members d, 1 ≤ d.c g
      (va.toNat % 64 ≠ 0 → Gives i s (Traps s 4 0 va)) ∧
      (va.toNat % 64 = 0 → h.answer = none → ports ≠ [] → Gives i s (Claims.LoadsWait s ports)) ∧
      (va.toNat % 64 = 0 → Claims.LoadsDone s ports u →
        (∀ e, u.loadBlock va (8 + 100 * sections) = (.error e, v) → Gives i s (fun t => t = v.trap e)) ∧
        (u.loadBlock va (8 + 100 * sections) = (.ok blk, v) →
          (¬mine → Gives i s (Traps v 2 0 v.hart.ir)) ∧
          (mine → wbit (dw blk 0) 16 = true → Gives i s (fun t => t = { v with doms := t.doms, hart := v.hart.retire } ∧
            (∀ j, j ≠ k → t.domGet j = v.domGet j) ∧
            Claims.configured v t k v.hart.asid
              ((dies.zip (List.range sections)).flatMap (fun e => sectionPlaces e.1 blk e.2)))) ∧
          (mine → wbit (dw blk 0) 16 = false → busy → v.domGet k ≠ none → Gives i s (Traps v 2 0 v.hart.ir)) ∧
          (mine → wbit (dw blk 0) 16 = false → ¬busy ∨ v.domGet k = none → Gives i s (fun t =>
            t = { v with doms := t.doms, hart := v.hart.retire } ∧ t.domGet k = none ∧ ∀ j, j ≠ k → t.domGet j = v.domGet j))))

/-- `Claims.Barriers`, `Claims.BarrierConfiguration` together. -/
def Obligations.BarriersAndConfiguration : Prop :=
  Claims.Barriers ∧ Claims.BarrierConfiguration

/-! ## The matrix engine -/

/-- R196 to R201, R394: `mxpush` of a whole, aligned and legal word, patched, with its records and pages, appends it to the core's
queue; while the queue is full, or the engine resets, it waits with the checked command, which is appended once there is room; loads
of the word and of its records that lie behind ports hold it first; a misaligned or illegal word, an illegal record and a page or
word that cannot be had trap; `mxfence` retires once the hart has no command left, and waits before; M mode may use neither. -/
def Obligations.MatrixRequests : Prop :=
  ∀ (rs1 rs2 : XReg) (w : List Word) (c2 : Cmd) (pages : List (Nat × Nat)) (e : TrapInfo) (s s0 u u1 v : State),
    let h := s.hart
    let va := h.getX rs1
    let i : Instr := .mxpush rs1 rs2
    let ports := s.pushPorts va (h.getX rs2)
    let c : Cmd := (⟨0, u.hart.gid, u.hart.team, dw w 0, dw w 1, dw w 2, dw w 3, [], [], [], .queued, 0, u.clock, [], []⟩ : Cmd).patch (u.getX rs2)
    let acc : Acc := if c2.op = 0x12 then .store else .load
    let full (x : State) : Prop := 64 ≤ (x.core x.coreNo).queue.length ∨ (x.core x.coreNo).rst = true
    let appended (x : State) (c : Cmd) (t : State) : Prop :=
      (t.core x.coreNo).queue.length = (x.core x.coreNo).queue.length + 1 ∧
      (∃ q ∈ (t.core x.coreNo).queue, q.uid = x.nextUid ∧ q.gid = c.gid ∧ q.team = c.team ∧ q.d0 = c.d0 ∧ q.d1 = c.d1 ∧
        q.d2 = c.d2 ∧ q.d3 = c.d3 ∧ q.recA = c.recA ∧ q.recB = c.recB ∧ q.pages = c.pages ∧ q.got = c.got ∧ q.owed = c.owed) ∧
      t.hart.x = x.hart.x ∧ t.hart.pc = x.hart.retire.pc ∧ (Claims.Quiet x → Claims.KeepsAll x t)
    (h.mode = .m → Gives .mxfence s (Traps s 2 0 h.ir) ∧ Gives i s (Traps s 2 0 h.ir)) ∧
    (h.mode ≠ .m →
      (s.hq h.gid = 0 → Gives .mxfence s (Retires s (fun k => k = h))) ∧
      (s.hq h.gid ≠ 0 → h.run = .ready → Gives .mxfence s (fun t =>
        t = { s with hart := { h with run := .waiting .mxfence, waitFrom := s.clock } }))) ∧
    (∀ q, h.mode ≠ .m → h.run = .waiting (.mxpush q) →
      (full s → Gives i s (fun t => t = s)) ∧ (¬full s → Gives i s (appended s q))) ∧
    (h.mode ≠ .m → (∀ q, h.run ≠ .waiting (.mxpush q)) →
      (va.toNat % 32 ≠ 0 → Gives i s (Traps s 4 0 va)) ∧
      (va.toNat % 32 = 0 → h.answer = none → ports ≠ [] → Gives i s (Claims.LoadsWait s ports)) ∧
      (va.toNat % 32 = 0 → Claims.LoadsDone s ports s0 → s0.loadBlock va 4 = (.error e, u) → Gives i s (fun t => t = u.trap e)) ∧
      (va.toNat % 32 = 0 → Claims.LoadsDone s ports s0 → s0.loadBlock va 4 = (.ok w, u) →
        (c.wordOk u.share = false → Gives i s (Traps u 27 3 0)) ∧
        (c.wordOk u.share = true → u.cmdRecords c = (.error e, u1) → Gives i s (fun t => t = u1.trap e)) ∧
        (c.wordOk u.share = true → u.cmdRecords c = (.ok c2, u1) →
          (c2.recsOk u1.share = false → Gives i s (Traps u1 27 3 0)) ∧
          (c2.recsOk u1.share = true → u1.holdPages acc (touched c2.rowRuns) = (.error e, v) → Gives i s (fun t => t = v.trap e)) ∧
          (c2.recsOk u1.share = true → u1.holdPages acc (touched c2.rowRuns) = (.ok pages, v) →
            (¬full v → Gives i s (appended v { c2 with pages := pages })) ∧
            (full v → (∀ q, v.hart.run ≠ .waiting (.mxpush q)) → Gives i s (fun t =>
              t = { v with hart := { v.hart with run := .waiting (.mxpush { c2 with pages := pages }), waitFrom := v.clock } }))))))

/-- Two cores hold the same in the arrays that tile commands act on. -/
def Claims.sameArrays (k k' : Core) : Prop :=
  (∀ (b : TBuf) (o : Nat), fget 0 (k'.buf b) o = fget 0 (k.buf b) o) ∧ k'.landE = k.landE ∧ k'.landS = k.landS

/-- A command has read words of its core's buffers before the others, and written nothing. -/
def Claims.readsWords (c q : Cmd) (k k' : Core) : Prop :=
  c.owed = [] ∧ q.owed = [] ∧ Claims.sameArrays k k' ∧
    ∀ e ∈ q.got, e ∈ c.got ∨ ∃ (b : TBuf) (a : Nat), e.1 = bufKey (some b) a ∧ e.2 = fget 0 (k.buf b) a

/-- A command has written words that it still had to write, and owes the rest. -/
def Claims.paysWords (c q : Cmd) (k k' : Core) : Prop :=
  c.owed ≠ [] ∧ ∃ pick : Owed → Bool, q.owed = c.owed.filter (fun o => !pick o) ∧ q.owed.length < c.owed.length ∧
    Claims.sameArrays ((c.owed.filter pick).foldl Core.putOwed k) k'

/-- The command at which the selected core's engine works has the op: it reads words before the others; or it has its effect, of
which some words may be written later, which is said of the core as it was, as the command has seen it, and as it is once those are
written; or it writes words that it owes. It is finished when it owes none. No other core, no hart and no memory changes. -/
def Claims.runsOn (i : Instr) (s : State) (op : Nat) (Q : Share → Cmd → Core → Core → Core → Prop) : Prop :=
  (∀ c, s.cmdNow s.sel = some c → c.op ≠ op → Gives i s (fun t => t = s)) ∧ (s.cmdNow s.sel = none → Gives i s (fun t => t = s)) ∧
  ∀ c, s.cmdNow s.sel = some c → c.op = op →
    Gives i s (fun t => t = { s with cores := t.cores } ∧ (∀ d, d ≠ s.sel → t.core d = s.core d) ∧
      let k := s.core s.sel
      let k' := t.core s.sel
      k' = { k with act := k'.act, wgt := k'.wgt, acc := k'.acc, queue := k'.queue, sems := k'.sems } ∧
      ∃ q ∈ k'.queue, q.uid = c.uid ∧
        ((q.phase = .started ∧ Claims.readsWords c q k k') ∨
          (q.phase = (if q.owed = [] then .finished else .started) ∧
            ((c.owed = [] ∧ Q (s.team c.team).share c k (k.seenBy c.got) (q.owed.foldl Core.putOwed k')) ∨ Claims.paysWords c q k k'))))

/-- The command's tile holds `f` of each element, as 32 bits, where it is listed; every other byte of the accumulators stays, and so
do the operand buffers. -/
def Claims.tileWritten (sh : Share) (c : Cmd) (k k' : Core) (R C : Nat) (f : Nat → Nat → Nat → Prop) : Prop :=
  (∀ m n, m < R → n < C → ∃ v, f m n v ∧ tileGet k'.acc (c.tileBase sh) m n = v % 2 ^ 32) ∧
  (∀ o, (∀ m n, m < R → n < C → o < tileByte (c.tileBase sh) m n ∨ tileByte (c.tileBase sh) m n + 4 ≤ o) →
    fget 0 k'.acc o = fget 0 k.acc o) ∧ k'.act = k.act ∧ k'.wgt = k.wgt

/-- The destination buffer holds the values of `n` elements of `w` bits at their places, the later where two meet, and is otherwise
as before, which is said for each 4 bits of it; the other buffers stay. -/
def Claims.bufferWritten (sh : Share) (c : Cmd) (k k' : Core) (w n : Nat) (place : Nat → Int) (val : Nat → Nat) : Prop :=
  let at_ (e : Nat) : Nat := (Cmd.base sh c.bBuf + place e).toNat
  (∀ p : Nat, nibGet (k'.buf c.bBuf) p 4 =
    match (List.range n).reverse.find? (fun e => decide (at_ e ≤ p) && decide (p < at_ e + w / 4)) with
    | some e => val e / 16 ^ (p - at_ e) % 16
    | none => nibGet (k.buf c.bBuf) p 4) ∧
  ∀ b, b ≠ c.bBuf → k'.buf b = k.buf b

/-- Element (i0, i1, i2, i3) of an operand that a record describes. -/
def Claims.element (k : Core) (sh : Share) (b : TBuf) (r : List Word) (off i0 i1 i2 i3 : Nat) : Nat :=
  nibGet (k.buf b) (Cmd.base sh b + recNib r (recW r) off i0 i1 i2 i3) (recW r)

/-- One element's sum: the products in groups of g, the last short one completed with +0 products, and one rounding for each group. -/
def Claims.summed (t : Tc) (l : List (FVal × FVal)) (acc v : Nat) : Prop :=
  ∃ gs : List (List (FVal × FVal)), gs.flatten = l ∧ (∀ g ∈ gs, g ≠ [] ∧ g.length ≤ groupSize t) ∧
    (∀ g ∈ gs.dropLast, g.length = groupSize t) ∧
    v = gs.foldl (fun a g => ((g.foldl (fun z p => z.add (tcInt t) p.1 p.2) GSum.start).into (decide (g.length < groupSize t)) a).bits) acc

/-- The products of output element (m, n) in their order: for index k = i0 + e0 × (i2 + e2 × i3), elements (i0, m, i2, i3) of A and
(n, i0, i2, i3) of B, each times its block's scale in `mma.mx`; in `mma.sp` stored element s of A with the row of B that its 6-bit
index in the metadata names. -/
def Claims.multiplied (sh : Share) (c : Cmd) (k : Core) (m n : Nat) (l : List (FVal × FVal)) : Prop :=
  let e0 := recExt c.recB 1
  let e2 := recExt c.recB 2
  let f0 := recExt c.recA 0
  let f2 := recExt c.recA 2
  let ta := c.typeA.getD .s32
  let tb := c.typeB.getD .s32
  let scaleA (kk : Nat) (v : FVal) : FVal := if c.op = 3 then
    v.scale (k.shareByte sh (bufOf (wbit c.d1 45)) (wfield c.d1 26 19 + m * c.kLen / 32 + kk / 32)) else v
  let scaleB (kk : Nat) (v : FVal) : FVal := if c.op = 3 then
    v.scale (k.shareByte sh (bufOf (wbit c.d2 45)) (wfield c.d2 26 19 + n * c.kLen / 32 + kk / 32)) else v
  (c.op ≠ 2 → f0 = e0 → f2 = e2 → recExt c.recA 3 = recExt c.recB 3 → l.length = e0 * e2 * recExt c.recB 3 ∧
    ∀ i0 i2 i3, i0 < e0 → i2 < e2 → i3 < recExt c.recB 3 →
      l[i0 + e0 * (i2 + e2 * i3)]? = some (
        scaleA (i0 + e0 * (i2 + e2 * i3)) (opVal ta (Claims.element k sh c.aBuf c.recA c.aOff i0 m i2 i3)),
        scaleB (i0 + e0 * (i2 + e2 * i3)) (opVal tb (Claims.element k sh c.bBuf c.recB c.bOff n i0 i2 i3)))) ∧
  (c.op = 2 → l.length = f0 * f2 * recExt c.recA 3 ∧
    ∀ i0 i2 i3, i0 < f0 → i2 < f2 → i3 < recExt c.recA 3 →
      let st := i0 + f0 * (i2 + f2 * i3)
      let kk := 64 * (st / c.spN) + c.spIndex k sh m st
      l[st]? = some (opVal ta (Claims.element k sh c.aBuf c.recA c.aOff i0 m i2 i3),
        opVal tb (Claims.element k sh c.bBuf c.recB c.bOff n (kk % e0) (kk / e0 % e2) (kk / (e0 * e2)))))

/-- The tile's rows and columns of the product hold the sums of what the command saw, from the old element where `accum` is set and
from +0 where not. -/
def Claims.productWritten (sh : Share) (c : Cmd) (k seen k' : Core) : Prop :=
  c.rows ≤ 64 → c.cols ≤ 64 → Claims.tileWritten sh c k k' c.rows c.cols (fun m n v =>
    ∃ l, Claims.multiplied sh c seen m n l ∧
      Claims.summed (c.typeA.getD .s32) l (if c.accum then tileGet seen.acc (c.tileBase sh) m n else 0) v)

/-- An element of the accumulator times the command's scale, rounded once into the destination type; a NaN, and ∞ × 0, give the NaN
of the type, or its greatest integer. -/
def Claims.converted (c : Cmd) (t : Tc) (b v : Nat) : Prop :=
  let x := fval .f32 b
  let y := fval .f32 (wfield c.d3 32 32)
  let undefined := (∃ n, x = .nan n) ∨ (∃ n, y = .nan n) ∨ (∃ n, x = .inf n ∧ y.isZero = true) ∨ (∃ n, y = .inf n ∧ x.isZero = true)
  let infinite (neg : Bool) := ¬undefined ∧ (∃ n, x = .inf n ∨ y = .inf n) ∧ neg = (x.neg != y.neg)
  (∀ f, Tc.fmt? t = some f →
    (undefined → v = f.canon) ∧
    (∀ neg, infinite neg → v = signBits f neg + if f.hasInf && !c.sat then f.infBits else f.maxFinite) ∧
    (∀ n m e n' m' e', x = .fin n m e → y = .fin n' m' e' → v = (roundTo f .rne c.sat (n != n') (m * m') (e + e') false).bits)) ∧
  (Tc.fmt? t = none →
    (undefined → v = (Tc.ifmt t).wrap (Tc.ifmt t).hi) ∧
    (∀ neg, infinite neg → v = (Tc.ifmt t).wrap (if neg then (Tc.ifmt t).lo else (Tc.ifmt t).hi)) ∧
    (∀ n m e n' m' e', x = .fin n m e → y = .fin n' m' e' →
      v = (Tc.ifmt t).wrap ((Tc.ifmt t).sat (toInteger .rne (n != n') (m * m') (e + e')).1)))

/-- What one stage of an `mmrot` does to the arrays: A's elements go west, or B's north, where the neighbour's landing buffer is
empty and the link stands; what has landed is to be written in record order over the operand, and its buffer is empty then. `none`:
it waits. -/
def Claims.turns (s : State) (core : Nat) (c : Cmd) (sh : Share) : RotStage → Option (List Owed × State) → Prop
  | .west, r =>
    (((s.core (westOf core)).landE ≠ none ∨ s.linkDown core false = true) → r = none) ∧
    ((s.core (westOf core)).landE = none → s.linkDown core false = false → ∃ t, r = some ([], t) ∧ t = { s with cores := t.cores } ∧
      (∀ d, d ≠ westOf core → t.core d = s.core d) ∧ t.core (westOf core) = { s.core (westOf core) with
        landE := some (operandElems (((s.core core).seenBy c.got).buf c.aBuf) c.recA (Cmd.base sh c.aBuf) c.aOff) })
  | .north, r =>
    (((s.core (northOf core)).landS ≠ none ∨ s.linkDown core true = true) → r = none) ∧
    ((s.core (northOf core)).landS = none → s.linkDown core true = false → ∃ t, r = some ([], t) ∧ t = { s with cores := t.cores } ∧
      (∀ d, d ≠ northOf core → t.core d = s.core d) ∧ t.core (northOf core) = { s.core (northOf core) with
        landS := some (operandElems (((s.core core).seenBy c.got).buf c.bBuf) c.recB (Cmd.base sh c.bBuf) c.bOff) })
  | .landA, r =>
    ((s.core core).landE = none → r = none) ∧
    (∀ l, (s.core core).landE = some l → ∃ o t, r = some (o, t) ∧ t = { s with cores := t.cores } ∧ (∀ d, d ≠ core → t.core d = s.core d) ∧
      t.core core = { s.core core with landE := none } ∧ o.length = min (recCount c.recA) l.length ∧
      ∀ n x, n < recCount c.recA → l[n]? = some x →
        o[n]? = some ⟨some c.aBuf, (Cmd.base sh c.aBuf + recNibOf c.recA (recW c.recA) c.aOff n).toNat, recW c.recA, x⟩)
  | .landB, r =>
    ((s.core core).landS = none → r = none) ∧
    (∀ l, (s.core core).landS = some l → ∃ o t, r = some (o, t) ∧ t = { s with cores := t.cores } ∧ (∀ d, d ≠ core → t.core d = s.core d) ∧
      t.core core = { s.core core with landS := none } ∧ o.length = min (recCount c.recB) l.length ∧
      ∀ n x, n < recCount c.recB → l[n]? = some x →
        o[n]? = some ⟨some c.bBuf, (Cmd.base sh c.bBuf + recNibOf c.recB (recW c.recB) c.bOff n).toNat, recW c.recB, x⟩)

/-- One stage with all that it writes. -/
def Claims.wholeStage (core : Nat) (c : Cmd) (sh : Share) (x : State) (st : RotStage) : Option State :=
  (x.rotStage core c sh st).map (fun r => r.2.modCore core (fun k => r.1.foldl Core.putOwed k))

/-- An `mmrot` goes on with its stages, one after another, as far as they can go or until one leaves words to write later; it is
finished when none is left and it owes nothing. -/
def Claims.rotates (s t : State) (c q : Cmd) (stages : List RotStage) (start : Core → Prop) : Prop :=
  let sh := (s.team c.team).share
  ∃ (n : Nat) (u v : State), n ≤ stages.length ∧ u = { s with cores := u.cores } ∧
    (∀ d, d ≠ s.sel → Claims.sameArrays (s.core d) (u.core d)) ∧ start (u.core s.sel) ∧
    (stages.take n).foldlM (Claims.wholeStage s.sel c sh) u = some v ∧
    (∀ d, d ≠ s.sel → Claims.sameArrays (v.core d) (t.core d)) ∧
    Claims.sameArrays (v.core s.sel) (q.owed.foldl Core.putOwed (t.core s.sel)) ∧
    (q.owed = [] → ∀ st, stages[n]? = some st → v.rotStage s.sel c sh st = none) ∧
    q.phase = if n = stages.length ∧ q.owed = [] then .finished else .landing

/-- The tile commands, R204 and R206 to R212, and their words (R310): the products write every element of their tile, and nothing
else; `acc.zero` clears the tile; `acc.cvt`, `tmov` and `ttrans` write the destination record, the source read first; `tsync` does
nothing but finish. `mmrot` writes the product and then sends its operands and takes those that land, by the bits of d3 and in their
order; what has to wait goes on later. Each may read words before the others and write words after them. (Model: elements of another
width that land: log 54; which words move before or after the others: log 26; a link that is cleared works again: log 67.) -/
def Obligations.TileCommands : Prop :=
  ∀ s : State,
    let moved (sh : Share) (c : Cmd) (k seen k' : Core) (src : Nat → Int) : Prop :=
      Claims.bufferWritten sh c k k' (recW c.recA) (recCount c.recB) (fun e => recNibOf c.recB (recW c.recA) c.bOff e)
        (fun e => nibGet (seen.buf c.aBuf) (Cmd.base sh c.aBuf + src e) (recW c.recA))
    Claims.runsOn .mma s 1 Claims.productWritten ∧ Claims.runsOn .mmaSp s 2 Claims.productWritten ∧
    Claims.runsOn .mmaMx s 3 Claims.productWritten ∧
    Claims.runsOn .accZero s 0x10 (fun sh c k _ k' => Claims.tileWritten sh c k k' 64 64 (fun _ _ v => v = 0)) ∧
    Claims.runsOn .accCvt s 0x13 (fun sh c k seen k' => ∀ t, c.dstTc = some t → ∃ val : Nat → Nat,
      (∀ i0 i1, i0 < recExt c.recB 0 → i1 < recExt c.recB 1 →
        Claims.converted c t (tileGet seen.acc (c.tileBase sh) i1 i0) (val (i0 + recExt c.recB 0 * i1))) ∧
      Claims.bufferWritten sh c k k' (recW c.recB) (recExt c.recB 0 * recExt c.recB 1)
        (fun e => recNib c.recB (recW c.recB) c.bOff (e % recExt c.recB 0) (e / recExt c.recB 0) 0 0) val) ∧
    Claims.runsOn .tmov s 0x20 (fun sh c k seen k' => moved sh c k seen k' (fun e => recNibOf c.recA (recW c.recA) c.aOff e)) ∧
    Claims.runsOn .ttrans s 0x21 (fun sh c k seen k' =>
      moved sh c k seen k' (fun e => recNib c.recA (recW c.recA) c.aOff (e / recExt c.recB 0) (e % recExt c.recB 0) 0 0)) ∧
    Claims.runsOn .tsync s 0x30 (fun _ _ k _ k' => Claims.sameArrays k k') ∧
    (∀ (core : Nat) (c : Cmd) (sh : Share) (st : RotStage), Claims.turns s core c sh st (s.rotStage core c sh st)) ∧
    (∀ c, s.cmdNow s.sel = some c → c.op = 4 →
      let k := s.core s.sel
      let sends := fun st : RotStage => match st with | .west | .landA => wbit c.d3 8 | .north | .landB => wbit c.d3 9
      let begun (k' : Core) : Prop := (c.owed = [] ∧ Claims.productWritten (s.team c.team).share c k (k.seenBy c.got) k' ∧
        k'.landE = k.landE ∧ k'.landS = k.landS) ∨ (c.owed ≠ [] ∧ Claims.sameArrays (c.owed.foldl Core.putOwed k) k')
      Gives .mmrot s (fun t => t = { s with cores := t.cores } ∧ ∃ q ∈ (t.core s.sel).queue, q.uid = c.uid ∧
        ((q.phase = .started ∧ (∀ d, d ≠ s.sel → t.core d = s.core d) ∧
          (Claims.readsWords c q k (t.core s.sel) ∨ (q.owed ≠ [] ∧ Claims.paysWords c q k (t.core s.sel)) ∨
            (c.owed = [] ∧ q.owed ≠ [] ∧ begun (q.owed.foldl Core.putOwed (t.core s.sel))))) ∨
        Claims.rotates s t { c with got := [] } q ([RotStage.west, .north, .landA, .landB].filter sends) begun))) ∧
    (∀ c, (s.core s.sel).queue.find? (fun c => c.phase == .landing) = some c → c.op = 4 → c.toSend < 16 →
      Gives .mmrotLanding s (fun t => t = { s with cores := t.cores } ∧ ∃ q ∈ (t.core s.sel).queue, q.uid = c.uid ∧
        ((q.phase = .landing ∧ Claims.readsWords c q (s.core s.sel) (t.core s.sel)) ∨
          (Claims.paysWords c q (s.core s.sel) (t.core s.sel) ∧
            q.phase = if c.toSend = 0 ∧ q.owed = [] then .finished else .landing) ∨
          (c.owed = [] ∧ Claims.rotates s t c q ([RotStage.west, .north, .landA, .landB].filter (fun st => c.toSend.testBit st.bit))
            (Claims.sameArrays (s.core s.sel))))))

/-- The physical address of byte `o` of row `r` of `acc.ld` and `acc.st`, through the translations held with the command. -/
def Claims.rowPa (c : Cmd) (r o : Nat) : Option Nat := heldPa c.pages ((c.rowVa r).toNat + o)

/-- All 64 rows lie in HBM, at addresses that are multiples of 4, in lines that nothing refuses and that are not lost. -/
def Claims.rowsInHbm (s : State) (c : Cmd) : Prop :=
  (∀ r, r < 64 → (c.rowVa r).toNat % 4 = 0) ∧ ∀ r o, r < 64 → o < 256 → ∃ pa, Claims.rowPa c r o = some pa ∧ s.refusal pa (s.teamAsid c.team) = none ∧
    s.region (paLow pa) = .hbm ∧ s.isLost (paLow pa) = false

/-- R210, R203, R202, R215, R216: `acc.ld` and `acc.st`, which may read words before the others and write words after them: where
nothing stands between the core and HBM the tile holds the bytes of the rows, or the rows the bytes of the tile, but for words that
are still to be written; a command whose effect is done completes, leaves the queue and signals its semaphore; an engine without
progress for 2^20 ck is reset: the commands of the teams that it affects are gone, their accumulators read 0 and their harts have
interrupt 16, while counts, operands and shared memory stay; it accepts commands again after that; a team without harts loses the
commands that stand still. (Model: the order of completions: log 33; what counts as no progress: log 42; an exited hart's priority:
log 58; which words move before or after the others: log 26.) -/
def Obligations.MatrixEngineEvents : Prop :=
  ∀ (c : Cmd) (o1 : Owed) (s : State),
    let k := s.core s.sel
    let sh := (s.team c.team).share
    let seen := k.seenBy c.got
    let done := k.queue.filter (fun c => c.phase == .finished)
    let hung := k.queue.any (fun c => (c.phase == .started || c.phase == .landing) && decide (c.since + 2 ^ 20 ≤ s.clock))
    let goesOn (t : State) (reads : Prop) (effect : Cmd → Prop) : Prop := ∃ q ∈ (t.core s.sel).queue, q.uid = c.uid ∧
      ((q.phase = .started ∧ q.owed = [] ∧ reads) ∨ (q.phase = (if q.owed = [] then .finished else .started) ∧ effect q))
    (s.cmdNow s.sel = some c → c.op = 0x11 → c.owed = [] → Gives .accLd s (fun t =>
      goesOn t (Claims.sameArrays k (t.core s.sel)) (fun q => Claims.Quiet s → Claims.rowsInHbm s c → Claims.KeepsAll s t ∧
        ∀ r o pa, r < 64 → o < 256 → Claims.rowPa c r o = some pa →
          [fget 0 (q.owed.foldl Core.putOwed (t.core s.sel)).acc (tileByte (c.tileBase sh) r 0 + o)] =
            readOver c.got (bufKey none ((c.rowVa r).toNat + o)) (s.peek pa 1)))) ∧
    (s.cmdNow s.sel = some c → c.op = 0x12 → c.owed = [] → Gives .accSt s (fun t =>
      goesOn t (Claims.sameArrays k (t.core s.sel) ∧ (Claims.Quiet s → Claims.KeepsAll s t)) (fun q =>
        Claims.sameArrays k (t.core s.sel) ∧
        (Claims.Quiet s → Claims.rowsInHbm s c →
        (∀ r o r' o' pa pa', r < 64 → o < 256 → r' < 64 → o' < 256 → Claims.rowPa c r o = some pa → Claims.rowPa c r' o' = some pa' →
          (paLow pa = paLow pa' → r = r' ∧ o = o') ∧ paKey pa = paKey pa') →
        (∀ r o pa, r < 64 → o < 256 → Claims.rowPa c r o = some pa →
          let va := (c.rowVa r).toNat + o
          ((∀ e ∈ q.owed, ¬(e.place / 2 ≤ va ∧ va < e.place / 2 + 4)) →
            t.peek pa 1 = [fget 0 seen.acc (tileByte (c.tileBase sh) r 0 + o)]) ∧
          ∀ e ∈ q.owed, e.place / 2 ≤ va → va < e.place / 2 + 4 → t.peek pa 1 = s.peek pa 1) ∧
        ∀ a, (∀ r o pa, r < 64 → o < 256 → Claims.rowPa c r o = some pa →
          lineOf (paLow a) ≠ lineOf (paLow pa) ∨ (paKey a = paKey pa ∧ paLow a ≠ paLow pa)) → t.peek a 1 = s.peek a 1)))) ∧
    (s.cmdNow s.sel = some c → c.owed = [o1] → (c.op = 0x11 → o1.buf = some .acc → Gives .accLd s (fun t =>
        Claims.sameArrays (k.putOwed o1) (t.core s.sel) ∧ ∃ q ∈ (t.core s.sel).queue, q.uid = c.uid ∧ q.phase = .finished)) ∧
      (c.op = 0x12 → o1.buf = none → o1.width = 32 → Gives .accSt s (fun t => (∃ q ∈ (t.core s.sel).queue, q.uid = c.uid ∧ q.phase = .finished) ∧
        ∀ pa, Claims.Quiet s → heldPa c.pages (o1.place / 2) = some pa → s.refusal pa (s.teamAsid c.team) = none →
          s.region (paLow pa) = .hbm → s.isLost (paLow pa) = false → pa % 4 = 0 → (o1.place / 2) % 4 = 0 →
          t.peek pa 4 = natToBytes 4 o1.val))) ∧
    (done = [] → Gives .matrixCommandComplete s (fun t => t = s)) ∧
    (done ≠ [] → Gives .matrixCommandComplete s (fun t => ∃ d ∈ done, (∀ q ∈ (t.core s.sel).queue, q.uid ≠ d.uid) ∧
      (d.sen = false → t = s.dropCmd s.sel d) ∧
      (d.sen = true → t = (s.dropCmd s.sel d).semSignal s.sel ((s.team d.team).share.semBase + d.ssem) d.sinc))) ∧
    (hung = false → Gives .matrixEngineHangReset s (fun t => t = s)) ∧
    (hung = true → Gives .matrixEngineHangReset s (fun t =>
      let k' := t.core s.sel
      k'.rst = true ∧ k'.landE = none ∧ k'.landS = none ∧ k'.act = k.act ∧ k'.wgt = k.wgt ∧ k'.shm = k.shm ∧
      (∀ j, (k'.sem j).cnt = (k.sem j).cnt) ∧
      ∀ m ∈ s.resetTeams s.sel, (∀ q ∈ k'.queue, q.team ≠ m.id) ∧
        (∀ o, o < m.share.accSize → fget 0 k'.acc (m.share.accBase + o) = 0) ∧
        ∀ h ∈ s.resident, h.team = m.id → s.hartOf h.gid = h → wbit (t.hartOf h.gid).csr.mip 16 = true)) ∧
    Gives .matrixResetDone s (fun t => (t.core s.sel).rst = false ∧ t = { s with cores := t.cores }) ∧
    ((s.teamHarts s.sel).isEmpty = true → (s.teamCmds s.sel).isEmpty = false →
      (∀ q ∈ s.teamCmds s.sel, q.phase ≠ .started ∧ q.phase ≠ .landing ∧ q.since + 2 ^ 20 ≤ s.clock) →
      Gives .strandedCommandDiscard s (fun t => ∀ q ∈ (t.core (s.team s.sel).core).queue, q.team ≠ s.sel))

/-! ## Dredge and shipped functions -/

/-- The checked query is sent with the hart's effective priority as it is now, diverted if its launch has been and the hart is not
in wrap-up: it stands last among the queries, class 1 has one more, and `dq.search` retires. -/
def Claims.querySent (w : State) (q : Query) (t : State) : Prop :=
  t.queries = w.queries ++ [{ q with prio := w.prio w.hart, divert := w.expired q.team && !w.hart.wrapup }] ∧ t.hart.x = w.hart.x ∧ t.hart.cnt1 = w.hart.cnt1 + 1 ∧ t.hart.pc = w.hart.retire.pc ∧
    (Claims.Quiet w → Claims.KeepsAll w t)

/-- The checked query is sent where the home stack has room, and else the hart waits with it at its own pc. -/
def Claims.queryEnters (i : Instr) (s w : State) (q : Query) : Prop :=
  (w.dredgeFull q.home = false → Gives i s (Claims.querySent w q)) ∧
  (w.dredgeFull q.home = true → (∀ q0, w.hart.run ≠ .waiting (.dredge q0)) → Gives i s (fun t =>
    t = { w with hart := { w.hart with run := .waiting (.dredge q), waitFrom := w.clock } }))

/-- R331, R332, R339, R394: `dq.search` of an aligned, legal descriptor with its pages translated sends a query and counts it in
`cnt1`, with a place reserved in SPAWN mode; while the home stack holds 256 waiting queries it waits with the query that it has
checked; loads of the descriptor that lie behind ports hold it first; a misaligned, unreadable or illegal descriptor, a page that
cannot be had and a place that cannot be reserved trap; `dq.cancel` marks the launch's queries of that descriptor; M mode may use
neither. (Model: when a cancellation reaches a query: log 47.) -/
def Obligations.DredgeRequests : Prop :=
  ∀ (rs1 rs2 : XReg) (d : List Word) (pages : List (Nat × Nat)) (e : TrapInfo) (s s0 u v : State),
    let h := s.hart
    let va := h.getX rs1
    let i : Instr := .dqSearch rs1 rs2
    let ports := s.loadPorts 8 va 32
    let q := u.newQuery d va (u.getX rs2)
    let legal := wfield (u.getX rs2) 33 31 = 0 ∧ q.fieldsOk = true
    let n : State := { v with nextUid := v.nextUid + 1 }
    let qv : Query := { q with pages := pages, uid := v.nextUid }
    (h.mode = .m → Gives i s (Traps s 2 0 h.ir) ∧ Gives (.dqCancel rs1) s (Traps s 2 0 h.ir)) ∧
    (h.mode ≠ .m →
      (∀ q0, h.run = .waiting (.dredge q0) →
        (s.dredgeFull q0.home = true → Gives i s (fun t => t = s)) ∧
        (s.dredgeFull q0.home = false → Gives i s (Claims.querySent s q0))) ∧
      ((∀ q0, h.run ≠ .waiting (.dredge q0)) →
        (va.toNat % 256 ≠ 0 → Gives i s (Traps s 4 0 va)) ∧
        (va.toNat % 256 = 0 → h.answer = none → ports ≠ [] → Gives i s (Claims.LoadsWait s ports)) ∧
        (va.toNat % 256 = 0 → Claims.LoadsDone s ports s0 → s0.loadBlock va 32 = (.error e, u) → Gives i s (fun t => t = u.trap e)) ∧
        (va.toNat % 256 = 0 → Claims.LoadsDone s ports s0 → s0.loadBlock va 32 = (.ok d, u) →
          (¬legal → Gives i s (Traps u 27 2 0)) ∧
          (legal → u.holdQuery q = (.error e, v) → Gives i s (fun t => t = v.trap e)) ∧
          (legal → u.holdQuery q = (.ok pages, v) →
            (q.mode ≠ 3 → Claims.queryEnters i s n qv) ∧
            (q.mode = 3 → n.reservePlace v.nextUid = none → Gives i s (Traps v 27 2 0)) ∧
            (∀ g w, q.mode = 3 → n.reservePlace v.nextUid = some (g, w) → Claims.queryEnters i s w { qv with place := some g })))) ∧
      Gives (.dqCancel rs1) s (fun t => t = { s with queries := t.queries, hart := h.retire } ∧
        t.queries = s.queries.map (fun x => { x with
          cancel := if x.launch = (s.team h.team).launch ∧ x.va = va ∧ x.cancel = none then some s.clock else x.cancel })))

/-- A query that awaits admission ends at once when its team is killed, its launch diverted, or it is cancelled, in this order. -/
def Claims.waitingEnds (i : Instr) (s : State) (q : Query) : Prop :=
  (q.killed = true → Gives i s (fun t => t = (s.dropPlace q.place q.uid).dropQuery q.uid)) ∧
  (q.killed = false → q.divert = true → Gives i s (fun t => t = s.putQuery { q with phase := .ended, status := 1 })) ∧
  (q.killed = false → q.divert = false → s.cancelHere q = true →
    Gives i s (fun t => t = s.putQuery { q with phase := .ended, status := 3 }))

/-- R333 to R335, R339, R341: the rounds of a query: a waiting one that is killed, diverted or cancelled ends at once; admission
reads the query vector and evaluates the entry vertices; a stack's request reads the lists, or computes the distances, of its own
vertices, when it is the query's turn there, which is that of the highest priority; a reply ends what was asked, and the last one of
a step ends the step; at a boundary the first end condition ends the query, and without one the next round expands the best entries
not yet expanded; a heap keeps each vertex once and no more than its size. -/
def Obligations.DredgeRounds : Prop :=
  ∀ (uid stack : Nat) (q : Query) (b : List Byte) (l : List (Nat × List Nat)) (ds : List (Nat × Nat)) (bad : List Nat) (s v : State),
    (s.query? s.sel = some q → q.phase = .waiting →
      Claims.waitingEnds .dredgeQueryAdmit s q ∧ Claims.waitingEnds .dredgeRoundBoundary s q ∧
      (q.killed = false → q.divert = false → s.cancelHere q = false →
        Gives .dredgeRoundBoundary s (fun t => t = s) ∧
        (s.admissible q = false → Gives .dredgeQueryAdmit s (fun t => t = s)) ∧
        (s.admissible q = true →
          let vec := lineRuns (dw q.desc 0).toNat (q.dim * q.elem / 128 + 2) (q.dim * q.elem)
          let e := ({ q with qvec := q.elems b } : Query).visitAll ((List.range q.entries).map q.entry)
          (s.readVector q vec = (some b, v) → Gives .dredgeQueryAdmit s (fun t => t = v.putQuery (e.2.beginEval e.1))) ∧
          (s.readVector q vec = (none, v) → Gives .dredgeQueryAdmit s (fun t =>
            t = v.putQuery { q with phase := .ended, status := 4, noVec := true }))))) ∧
    (s.query? uid = some q → s.unitTurn q stack = false →
      Gives (.listRequest uid stack) s (fun t => t = s) ∧ Gives (.evalRequest uid stack) s (fun t => t = s)) ∧
    ((∀ y ∈ s.queries, y.uid = q.uid → y = q) → s.unitTurn q stack = true → q ∈ s.queries ∧ q.asks stack = true ∧
      ∀ y ∈ s.queries, y.asks stack = true → y.prio ≤ q.prio) ∧
    (s.query? uid = some q → q.phase = .list →
      (stack ∈ q.toAsk → s.unitTurn q stack = true → s.readLists q (q.xs.filter (fun w => vertexStack w == stack)) = (l, bad, v) →
        Gives (.listRequest uid stack) s (fun t =>
          t = ((v.countPacket q stack).2.putQuery { (v.countPacket q stack).1 with
            lists := q.lists ++ l, bad := q.bad ++ bad, toAsk := q.toAsk.filter (fun w => w != stack) }.listOn) ∧
          (stack ≠ q.home → fget 0 t.hoff stack = (fget 0 v.hoff stack + 1) % 2 ^ 32))) ∧
      (stack ∈ q.asked → Gives (.listReply uid stack) s (fun t =>
        t = s.putQuery { q with asked := q.asked.filter (fun w => w != stack) }.listOn))) ∧
    (s.query? uid = some q → q.phase = .eval →
      (stack ∈ q.toAsk → s.unitTurn q stack = true → s.readDists q (q.new.filter (fun w => vertexStack w == stack)) = (ds, bad, v) →
        Gives (.evalRequest uid stack) s (fun t =>
          t = ((v.countPacket q stack).2.putQuery { (v.countPacket q stack).1 with
            dists := q.dists ++ ds, bad := q.bad ++ bad, evals := (q.evals + ds.length) % 2 ^ 32
            toAsk := q.toAsk.filter (fun w => w != stack) }.evalOn))) ∧
      (stack ∈ q.asked → Gives (.evalReply uid stack) s (fun t =>
        t = s.putQuery { q with asked := q.asked.filter (fun w => w != stack) }.evalOn))) ∧
    ((q.toAsk ≠ [] ∨ q.asked ≠ [] → q.listOn = q ∧ q.evalOn = q) ∧
      (q.toAsk = [] → q.asked = [] →
        (∀ x, q.xs.find? (fun y => q.bad.contains y) = some x → q.listOn = { q with phase := .boundary, faultV := x }) ∧
        (∀ x, q.new.find? (fun y => q.bad.contains y) = some x → q.evalOn = { q with phase := .boundary, faultV := x }) ∧
        ((∀ x ∈ q.new, x ∉ q.bad) → q.evalOn = { q with
          phase := .boundary, heap := heapMerge q.heapSize q.heap q.dists, rounds := if q.xs = [] then q.rounds else q.rounds + 1 }) ∧
        (q.bad = [] → q.listOn.new = (q.visitAll (q.xs.flatMap (fun x =>
            ((q.lists.find? (fun e => e.1 == x)).map Prod.snd).getD []))).1 ∧
          q.listOn.phase = (if q.listOn.new = [] then .boundary else .eval) ∧
          q.listOn.heap = q.heap.map (fun e => if e.id ∈ q.xs then { e with exp := true } else e)))) ∧
    (s.query? s.sel = some q → q.phase = .boundary →
      (q.killed = true → Gives .dredgeRoundBoundary s (fun t => t = (s.dropPlace q.place q.uid).dropQuery q.uid)) ∧
      (q.killed = false →
        (∀ st, s.endStatus q = some st → Gives .dredgeRoundBoundary s (fun t => t = s.putQuery { q with phase := .ended, status := st })) ∧
        (s.endStatus q = none → Gives .dredgeRoundBoundary s (fun t => ∃ r, t = s.putQuery r ∧ r.phase = .list ∧ r.heap = q.heap ∧
          r.xs = ((q.heap.filter (fun e => !e.exp)).take q.width).map HeapEnt.id)))) ∧
    (let done := ∀ e ∈ q.heap, e.exp = true
      let late := q.deadline ≠ 0 ∧ q.deadline ≤ s.dtime
      let far := q.hops ≠ 0 ∧ q.rounds = q.hops
      (q.bad ≠ [] → s.endStatus q = some 4) ∧
      (q.bad = [] → done → s.endStatus q = some 0) ∧
      (q.bad = [] → ¬done → s.cancelHere q = true → s.endStatus q = some 3) ∧
      (q.bad = [] → ¬done → s.cancelHere q = false → q.divert = true → s.endStatus q = some 1) ∧
      (q.bad = [] → ¬done → s.cancelHere q = false → q.divert = false → late → s.endStatus q = some 5) ∧
      (q.bad = [] → ¬done → s.cancelHere q = false → q.divert = false → ¬late → s.endStatus q = if far then some 2 else none)) ∧
    (∀ (n : Nat) (h : List HeapEnt), h.length ≤ n → (h.map HeapEnt.id).Nodup →
      (heapMerge n h ds).length ≤ n ∧ ((heapMerge n h ds).map HeapEnt.id).Nodup ∧
      ∀ e ∈ heapMerge n h ds, e ∈ h ∨ (e.exp = false ∧ (e.id, e.dist) ∈ ds))

/-- R336, R337, R340: the result record has 32 bytes of header and 8 for each of the k results, and is written to the buffer; the
completion of a query waits for its turn under ordered retire, removes it, and writes its flag, sends its event or starts its hart
as its mode says; but for an event that finds the queue full, it leaves `cnt1`; for an evicted team it acts on the saved record, or,
where that is refused, posts it, and a hart to start waits for the restore; a killed query leaves nothing but its place. (Model: the
saved state of an evicted team: log 41.) -/
def Obligations.DredgeCompletion : Prop :=
  ∀ (q : Query) (g : Nat) (s : State),
    let h := s.hartOf q.gid
    let m := s.team q.team
    let st := q.record
    let gone := Gives .dredgeCompletion s (fun t => t = (s.dropPlace q.place q.uid).dropQuery q.uid)
    let ev : UiEvent := ⟨3, q.va, dw q.desc 3, some 1, some .pkg⟩
    let flagged := s.queryStore q (dw q.desc 3).toNat (natToBytes 8 (dw q.desc 4).toNat)
    (q.record.length = 32 + 8 * q.k ∧
      leNat (st.take 4) = ((if q.status = 5 then 1 else q.status) + (if q.visFull then 256 else 0) + (if q.status = 1 then 512 else 0) +
        (if q.noVec then 1024 else 0)) % 2 ^ 32 ∧
      leNat ((st.drop 4).take 4) = min q.k q.heap.length % 2 ^ 32 ∧
      leNat ((st.drop 8).take 4) = q.rounds % 2 ^ 32 ∧ leNat ((st.drop 12).take 4) = q.hand % 2 ^ 32 ∧
      leNat ((st.drop 16).take 4) = q.tag.toNat ∧
      leNat ((st.drop 20).take 4) = (if q.status = 4 then q.faultV else 0) % 2 ^ 32 ∧
      leNat ((st.drop 24).take 4) = q.evals % 2 ^ 32 ∧ leNat ((st.drop 28).take 4) = 0 ∧
      (∀ j e, j < q.k → q.heap[j]? = some e →
        leNat ((st.drop (32 + 8 * j)).take 4) = e.id % 2 ^ 32 ∧ leNat ((st.drop (36 + 8 * j)).take 4) = e.dist % 2 ^ 32) ∧
      (∀ j, j < q.k → q.heap[j]? = none →
        leNat ((st.drop (32 + 8 * j)).take 4) = 0xFFFFFFFF ∧ leNat ((st.drop (36 + 8 * j)).take 4) = 0x7F800000)) ∧
    (s.query? s.sel = some q → q.phase = .ended →
      (q.killed = true → Gives .dredgeResultRecord s (fun t => t = (s.dropPlace q.place q.uid).dropQuery q.uid)) ∧
      (q.killed = false →
        Gives .dredgeResultRecord s (fun t => t = (s.queryStore q (dw q.desc 1).toNat q.record).putQuery { q with phase := .recorded }))) ∧
    (s.query? s.sel = some q → q.phase = .recorded →
      (q.killed = true → gone) ∧
      (q.killed = false → s.inOrder q = false → Gives .dredgeCompletion s (fun t => t = s)) ∧
      (q.killed = false → s.inOrder q = true →
        (m.awayHart q.gid = none → h.run.isHart = true →
          (q.mode = 0 ∨ q.mode = 1 → Gives .dredgeCompletion s (fun t => t.queries = s.queries.filter (fun x => x.uid != q.uid) ∧
            (t.hartOf q.gid).cnt1 = h.cnt1 - 1 ∧ (t.hartOf q.gid).x = h.x ∧ (t.hartOf q.gid).pc = h.pc)) ∧
          (q.mode = 0 → Gives .dredgeCompletion s (fun t => t.mem = s.mem)) ∧
          (q.mode = 1 → Gives .dredgeCompletion s (fun t => t.mem = flagged.mem)) ∧
          (q.mode = 2 → Gives .dredgeCompletion s (fun t => t.queries = s.queries.filter (fun x => x.uid != q.uid) ∧ t.mem = s.mem ∧
            (h.uiq.length < 16 → h.uiHeld = [] → (t.hartOf q.gid).cnt1 = h.cnt1 - 1 ∧ (t.hartOf q.gid).uiq = h.uiq ++ [ev]) ∧
            (16 ≤ h.uiq.length ∨ h.uiHeld ≠ [] → (t.hartOf q.gid).cnt1 = h.cnt1 ∧ (t.hartOf q.gid).uiHeld = h.uiHeld ++ [ev]))) ∧
          (3 ≤ q.mode → m.phase ≠ .evicted → q.place = some g → g ≠ q.gid → (s.hartOf g).run = .reserved q.uid →
            Gives .dredgeCompletion s (fun t => (t.hartOf q.gid).cnt1 = h.cnt1 - 1 ∧ (t.hartOf g).run = .ready ∧
              (t.hartOf g).pc = dw q.desc 3 &&& ~~~1#64 ∧ (t.hartOf g).getX 10 = dw q.desc 4 ∧
              (t.hartOf g).wrapup = s.expired (s.hartOf g).team))) ∧
        (∀ a, m.awayHart q.gid = some a → a.run.isHart = true →
          let recorded (w t : State) (f : Team → State) : Prop := t = (f (w.team q.team)).modAway (w.team q.team) a.num (fun k => k.noteScope 1 4)
          let refused (w t : State) : Prop :=
            recorded w t (fun y => w.postFault (w.homeDie (paLow (w.recordAddr y a 0))) 6 (w.recordAddr y a 0))
          let w := if q.mode = 1 then flagged.dropQuery q.uid else s.dropQuery q.uid
          (q.mode ≤ 1 → w.recordOpen (w.team q.team) a = true →
            Gives .dredgeCompletion s (fun t => recorded w t (fun y => w.recordDec y a 1))) ∧
          (q.mode = 2 → w.recordOpen (w.team q.team) a = true →
            Gives .dredgeCompletion s (fun t => recorded w t (fun y => w.recordUi y a 1 ev))) ∧
          (q.mode ≤ 2 → w.recordOpen (w.team q.team) a = false → Gives .dredgeCompletion s (refused w))) ∧
        (3 ≤ q.mode → m.phase = .evicted → Gives .dredgeCompletion s (fun t => t = s))))

/-- A routine runs where its ship has arrived: it replaces the word, or the line, at the target by what `f` gives for it, notes the
result, and changes no register and no other byte; on a lost line it fails, and the line is posted. -/
def Claims.shipRuns (i : Instr) (s : State) (is : Nat → Prop) (line : Bool) (f : Routine) : Prop :=
  ∀ x : Ship, s.ships.find? (fun y => y.uid == s.sel) = some x → x.ran = false → is x.routine → Claims.Quiet s →
    s.region (paLow x.pa) = .hbm → x.pa % 8 = 0 →
    let base := if line then x.pa / 128 * 128 else x.pa
    let n := if line then 128 else 8
    let old := s.peek base n
    (s.isLost (paLow x.pa) = false → (f x old).1.length ≤ n → Gives i s (fun t =>
      t.peek base n = (f x old).1 ++ old.drop (f x old).1.length ∧ Claims.KeepsBut s t base n ∧
      (∀ y ∈ t.ships, y.uid = x.uid → y.ran = true ∧ y.result = (f x old).2 ∧ y.fail = x.fail) ∧
      t = { s with
        mem := t.mem, wlog := t.wlog, keyOf := t.keyOf, l2 := t.l2, parked := t.parked, ships := t.ships
        hart := { s.hart with resv := t.hart.resv } })) ∧
    (s.isLost (paLow x.pa) = true → Gives i s (fun t => Claims.KeepsAll s t ∧
      ∀ y ∈ t.ships, y.uid = x.uid → y.ran = true ∧ y.fail = 1))

/-- What the routines of a whole line compute: the sums of a row, and how many of them are no finite values; the bin that counts, at
⌊(x − o) ÷ w⌋ held within 0 to 31; and the two orders of the spec's example of two insertions. -/
def Claims.lineRoutines : Prop :=
  (∀ (x : Ship) (b : List Byte), b.length = 128 → x.row.length = 128 →
    let at_ (l : List Byte) (j : Nat) : Nat := leNat ((l.drop (2 * j)).take 2)
    let r := runRowadd x b
    r.1.length = 128 ∧ (∀ j, j < 64 → at_ r.1 j = (fadd .bf16 .rne false (at_ b j) (at_ x.row j)).bits % 2 ^ 16) ∧
    r.2.toNat = (List.range 64).countP (fun j => at_ r.1 j / 128 % 256 == 255)) ∧
  (∀ (x : Ship) (b : List Byte), b.length = 128 →
    let bin (l : List Byte) (j : Nat) : Nat := leNat ((l.drop (4 * j)).take 4)
    let v := fval .f32 (wfield x.op0 0 32)
    let r := runHist32 x b
    let counts (k : Nat) := r.2.toNat = k ∧ r.1.length = 128 ∧
      ∀ j, j < 32 → bin r.1 j = if j = k then min (bin b j + 1) (2 ^ 32 - 1) else bin b j
    (∀ p o w : ℚ, Claims.ratOf v = some p → Claims.ratOf (fval .f32 (wfield x.op1 0 32)) = some o →
      Claims.ratOf (fval .f32 (wfield x.op1 32 32)) = some w → 0 < w → counts (max 0 (min 31 ⌊(p - o) / w⌋)).toNat) ∧
    (∀ o w : ℚ, Claims.ratOf (fval .f32 (wfield x.op1 0 32)) = some o → Claims.ratOf (fval .f32 (wfield x.op1 32 32)) = some w → 0 < w →
      (v = .inf true → counts 0) ∧ (v = .inf false → counts 31)) ∧
    (v.isNan = true ∨ Claims.ratOf (fval .f32 (wfield x.op1 0 32)) = none ∨ Claims.ratOf (fval .f32 (wfield x.op1 32 32)) = none ∨
      (∃ w, Claims.ratOf (fval .f32 (wfield x.op1 32 32)) = some w ∧ w ≤ 0) → r = (b, 0xFFFFFFFFFFFFFFFF#64))) ∧
  (∀ (x y : Ship), x.op0 = 0x40E0000000000002#64 → y.op0 = 0x40E0000000000001#64 →
    let row (l : List Word) : List Byte := dwordBytes (l ++ List.replicate (16 - l.length) 0xFF800000FFFFFFFF#64)
    let b := row [0x4110000000000004#64, 0x40A0000000000007#64]
    let last := row [0x4110000000000004#64, 0x40E0000000000001#64, 0x40E0000000000002#64, 0x40A0000000000007#64]
    (runTopk16 x b).2 = 1 ∧ runTopk16 y (runTopk16 x b).1 = (last, 1) ∧
    (runTopk16 y b).2 = 1 ∧ runTopk16 x (runTopk16 y b).1 = (last, 2))

/-- R342 to R345, R394: `dq.ship` sends its function and waits; a reserved routine, a misaligned target, one that cannot be
translated or lies outside ordinary HBM, a row operand that cannot be had and a routine that is not loaded trap; a row operand
behind a port holds it first; the routines at the stacks: the saturating adds, the least key, the bit set, the row add, the
histogram, the best sixteen, and a loaded routine, which writes nothing but its line; one that does not return is aborted; the reply
gives the result to rd and retires, or takes the trap of the failure. (Model: loaded routines are free: log 17; alignment of
operands: log 43; the die of a refused ship's entry: log 59.) -/
def Obligations.ShippedFunctions : Prop :=
  ∀ (r : BitVec 6) (rd rs1 rs2 : XReg) (pa : Nat) (row : List Byte) (e : TrapInfo) (y : Xlat) (x : Ship) (s u u0 v : State),
    let h := s.hart
    let va := h.getX rs1
    let i : Instr := .dqShip r rd rs1 rs2
    let ports := if r.toNat = 3 ∧ (u.getX rs2).toNat % 8 = 0 then u.loadPorts 8 (u.getX rs2) 16 else []
    let g := s.hartOf x.gid
    let word (f : Word → Word → Word × Word) : Routine := fun y b =>
      (natToBytes 8 (f (dwordOf b) y.op0).1.toNat, (f (dwordOf b) y.op0).2)
    let lesser (a b : Word) : Prop := (a.extractLsb' 32 32).toInt < (b.extractLsb' 32 32).toInt ∨
      ((a.extractLsb' 32 32) = (b.extractLsb' 32 32) ∧ (a.extractLsb' 0 32).toNat < (b.extractLsb' 0 32).toNat)
    (h.mode = .m ∨ (7 ≤ r.toNat ∧ r.toNat ≤ 15) → Gives i s (Traps s 2 0 h.ir)) ∧
    (h.mode ≠ .m → (r.toNat < 7 ∨ 15 < r.toNat) →
      (va.toNat % shipAlign r.toNat ≠ 0 → Gives i s (Traps s 6 0 va)) ∧
      (va.toNat % shipAlign r.toNat = 0 →
        (s.translateAs h s.clusterNo (h.agent h.mode) .store va = (.error e, u) → Gives i s (fun t => t = u.trap e)) ∧
        (s.translateAs h s.clusterNo (h.agent h.mode) .store va = (.ok y, u) → h.pmpOk h.mode .store y.pa = true →
          (u.region (paLow y.pa) ≠ .hbm ∨ pteMt y.pte ≠ 0 → Gives i s (fun t => t = (u.postShip y.pa).trap ⟨7, 0, va⟩)) ∧
          (∀ sub, u.region (paLow y.pa) = .hbm → pteMt y.pte = 0 → u.refusal y.pa h.asid = some sub →
            Gives i s (fun t => t = (u.postShip y.pa).trap ⟨7, sub, va⟩))) ∧
        (s.shipPa va = (.ok pa, u) → u.hart.answer = none → ports ≠ [] → Gives i s (Claims.LoadsWait u ports)) ∧
        (s.shipPa va = (.ok pa, u) → Claims.LoadsDone u ports u0 → u0.shipRow r.toNat (u.getX rs2) = (.error e, v) →
          Gives i s (fun t => t = v.trap e)) ∧
        (s.shipPa va = (.ok pa, u) → Claims.LoadsDone u ports u0 → u0.shipRow r.toNat (u.getX rs2) = (.ok row, v) →
          (16 ≤ r.toNat → wbit v.firm.drtab r.toNat = false → Gives i s (Traps v 27 2 0)) ∧
          ((r.toNat < 16 ∨ wbit v.firm.drtab r.toNat = true) →
            Gives i s (fun t => t.hart.run = .waiting (.ship v.nextUid) ∧ t.hart.pc = v.hart.pc ∧ t.hart.x = v.hart.x ∧
              t.ships = v.ships ++ [⟨v.nextUid, v.hart.gid, v.hart.team, pa, r.toNat, v.getX rs2, v.getX rd, row, false, 0, 0⟩]))))) ∧
    Claims.lineRoutines ∧
    Claims.shipRuns .saddS64 s (· = 0) false (word (fun w op =>
      (BitVec.ofInt 64 (max (-2 ^ 63) (min (2 ^ 63 - 1) (w.toInt + op.toInt))), w))) ∧
    Claims.shipRuns .saddN64 s (· = 1) false (word (fun w op => (BitVec.ofNat 64 (min (2 ^ 64 - 1) (w.toNat + op.toNat)), w))) ∧
    Claims.shipRuns .bitset s (· = 6) false (word (fun w op =>
      (w ||| 1#64 <<< (op.toNat % 64), if w.getLsbD (op.toNat % 64) then 1 else 0))) ∧
    (∀ f : Word → Word → Word × Word, (∀ w op, (lesser op w → f w op = (op, w)) ∧ (¬lesser op w → f w op = (w, w))) →
      Claims.shipRuns .minidx s (· = 2) false (word f)) ∧
    Claims.shipRuns .rowaddBf16 s (· = 3) true runRowadd ∧ Claims.shipRuns .hist32 s (· = 4) true runHist32 ∧
    Claims.shipRuns .topk16 s (· = 5) true runTopk16 ∧ Claims.shipRuns .loadedRoutine s (16 ≤ ·) true runLoaded ∧
    (s.ships.find? (fun y => y.uid == s.sel) = some x → x.ran = false → 16 ≤ x.routine → Gives .routineTimeout s (fun t =>
      t = { s with ships := t.ships } ∧ ∀ y ∈ t.ships, y.uid = x.uid → y.ran = true ∧ y.fail = 2)) ∧
    (s.ships.find? (fun y => y.uid == s.sel && y.ran) = some x → g.run = .waiting (.ship x.uid) →
      (x.fail = 0 → Gives .shipReply s (fun t => t.ships = s.ships.filter (fun y => y.uid != x.uid) ∧
        t.hartOf x.gid = (g.setX (g.ir.extractLsb' 7 5) x.result).retire)) ∧
      (x.fail = 1 → Gives .shipReply s (fun t => t.ships = s.ships.filter (fun y => y.uid != x.uid) ∧
        t.hartOf x.gid = g.takeTrap ⟨7, 1, g.getX (g.ir.extractLsb' 15 5)⟩)) ∧
      (x.fail = 2 → Gives .shipReply s (fun t => t.ships = s.ships.filter (fun y => y.uid != x.uid) ∧
        t.hartOf x.gid = g.takeTrap ⟨27, 2, 0⟩)))

/-! ## The memory system's events, and the loss of a core -/

/-- Die `d`'s registers alone change. -/
def Claims.DieOnly (s t : State) (d : Nat) : Prop := t = { s with dies := t.dies } ∧ ∀ e, e ≠ d → t.die e = s.die e

/-- Core `c` alone changes, to `k`. -/
def Claims.CoreOnly (s t : State) (c : Nat) (k : Core) : Prop :=
  t = { s with cores := t.cores } ∧ t.core c = k ∧ ∀ d, d ≠ c → t.core d = s.core d

/-- Does the shootdown that the die's registers name remove a TLB entry: its ASID, other than for a global entry, or every one; and
the leaf that translates its address, or every one? -/
def Claims.named (x : Die) (e : TlbEnt) : Prop :=
  (wbit x.tlbsd 16 = true ∨ (e.asid = wfield x.tlbsd 0 16 ∧ e.glob = false)) ∧
  (wbit x.tlbsd 17 = true ∨
    (wfield x.tlbva 12 45 * 4096 % 2 ^ (if e.sv57 then 57 else 48)) / 2 ^ e.leaf = e.vpage * 2 ^ e.size / 2 ^ e.leaf)

/-- Does it remove an entry of a walk cache: the same of the range that the entry's table maps? -/
def Claims.namedWalk (x : Die) (e : WalkEnt) : Prop :=
  (wbit x.tlbsd 16 = true ∨ (e.asid = wfield x.tlbsd 0 16 ∧ e.glob = false)) ∧
  (wbit x.tlbsd 17 = true ∨
    wfield x.tlbva 12 45 * 4096 % 2 ^ (if e.sv57 then 57 else 48) / 2 ^ (21 + 9 * e.lvl) = e.vtag)

/-- R178, R227, R271, R273, R275, R290, R346, R347: a walk that ends fills the TLB unless a shootdown since it began names what it
found; a shootdown removes the entries that it names and no other, also where its registers change before it is done; a write of
NOTIFY publishes, or is dropped and counted; ECC events queue in order, or are counted while the queue is full, and FAQPOP takes the
oldest; BPADD appends to the bad-page list; a stopped link is noted; SCCTL.clr zeroes the counters; `lrel`, in S mode alone, returns
a lost line to use. (Model: the die of a fault entry: log 30; notify pages: log 32; replacement in the levels: log 10; a link whose
bit is cleared: log 67.) -/
def Obligations.MemorySystemEvents : Prop :=
  ∀ (die page line cluster link pa : Nat) (rs1 : XReg) (v : Word) (w : Walk) (unc : Bool) (l : List Byte) (s u : State),
    let d := s.die die
    let q := qcbParse (dwords 16 l)
    let n := v.toNat
    let la := paLow (128 * line)
    let home := s.homeDie la
    let va := wput (s.hart.getX rs1) 0 7 0
    let dropped (r t : State) : Prop := Claims.DieOnly r t die ∧
      (t.die die).nperr = fset 0 (r.die die).nperr page ((fget 0 (r.die die).nperr page + 1) % 2 ^ 32)
    (s.hart.mode ≠ .s → Gives (.lrel rs1) s (Traps s 2 0 s.hart.ir)) ∧
    (s.hart.mode = .s → ∀ e, s.dataPa .s .store va = (.error e, u) → Gives (.lrel rs1) s (fun t => t = u.trap e)) ∧
    (s.hart.mode = .s → s.dataPa .s .store va = (.ok pa, u) → u.region (paLow pa) = .hbm → Gives (.lrel rs1) s (fun t =>
      t = { u with lost := t.lost, poison := t.poison, hart := u.hart.retire } ∧ t.isLost (paLow pa) = false ∧
      ∀ la, lineOf la ≠ lineOf (paLow pa) → t.isLost la = u.isLost la)) ∧
    (s.hart.mode = .s → s.dataPa .s .store va = (.ok pa, u) → u.region (paLow pa) ≠ .hbm → Gives (.lrel rs1) s (fun t =>
      t = { u with hart := u.hart.retire })) ∧
    (s.walks.find? (fun x => x.uid == s.sel) = some w →
      let t := { s with walks := s.walks.filter (fun x => x.uid != w.uid) }
      let h := s.hartOf w.gid
      let g := w.agent
      g.priv = w.priv ∧ g.sum = w.sum ∧ g.mxr = w.mxr ∧ g.pbmt = w.pbmt ∧ g.satp = w.satp ∧
      (∀ e, t.walkRoot (walkDie w.cluster) h g .load w.va = (.error e, u) → Gives .pageWalkComplete s (fun r => r = u)) ∧
      (∀ x, t.walkRoot (walkDie w.cluster) h g .load w.va = (.ok x, u) → Gives .pageWalkComplete s (fun r =>
        r.walks = u.walks ∧ r.tlb = (if w.void g w.va x then u.tlb else (u.fillTlb (tlbChain h w.cluster) g w.va x).tlb) ∧
        (g.permits .load x.pte = false → r = { u with tlb := r.tlb })))) ∧
    (die < 4 → d.tlbdone = true → Gives (.tlbsdShootdown die v) s (fun t =>
      t = { s with dies := t.dies, walks := t.walks } ∧ (∀ e, e ≠ die → t.die e = s.die e) ∧
      t.die die = { d with tlbsd := BitVec.ofNat 64 (wfield v 0 18), tlbdone := !wbit v 18 } ∧
      (wbit v 18 = false → t.walks = s.walks) ∧
      (wbit v 18 = true → t.walks = s.walks.map (fun x => { x with struck :=
        (if wbit v 17 then none else some (wfield d.tlbva 12 45 * 4096), if wbit v 16 then none else some (wfield v 0 16)) :: x.struck })))) ∧
    (die < 4 → d.tlbdone = false → Gives (.tlbsdShootdown die v) s (fun t =>
      (∀ e, e ∈ t.tlb ↔ e ∈ s.tlb ∧ ¬Claims.named d e) ∧ (∀ e, e ∈ t.walkc ↔ e ∈ s.walkc ∧ ¬Claims.namedWalk d e) ∧
      t.die die = { d with tlbsd := BitVec.ofNat 64 (wfield v 0 18), tlbdone := false })) ∧
    ((s.die s.sel).tlbdone = false → Gives .tlbsdDone s (fun t =>
      t = { s with dies := t.dies, tlb := t.tlb, walkc := t.walkc } ∧ Claims.DieOnly { s with tlb := t.tlb, walkc := t.walkc } t s.sel ∧
      t.die s.sel = { s.die s.sel with tlbdone := true } ∧
      (∀ e, e ∈ t.tlb ↔ e ∈ s.tlb ∧ ¬Claims.named (s.die s.sel) e) ∧
      ∀ e, e ∈ t.walkc ↔ e ∈ s.walkc ∧ ¬Claims.namedWalk (s.die s.sel) e)) ∧
    ((s.die s.sel).tlbdone = true → Gives .tlbsdDone s (fun t => t = s)) ∧
    (s.notifyQcb die page = none → Gives (.notify die page v) s (dropped s)) ∧
    (s.notifyQcb die page = some pa → s.qcbRefused pa = true → Gives (.notify die page v) s (fun t => t.mem = s.mem ∧
      (t.die die).nperr = fset 0 d.nperr page ((fget 0 d.nperr page + 1) % 2 ^ 32))) ∧
    (s.notifyQcb die page = some pa → s.qcbRefused pa = false → (s.qSettle pa).qcbBytes pa = (l, u) →
      (qcbCorrupt l = true ∨ q.qr = true → Gives (.notify die page v) s (fun t => ∃ r, dropped r t ∧
        r = u.writeAt .other pa (checked (dwordBytes ((dwords 16 l).set 0 (wputb (dw (dwords 16 l) 0) 37 true)))))) ∧
      (qcbCorrupt l = false → q.qr = false →
        (q.tail ≤ n → n ≤ q.head + q.cap →
          Gives (.notify die page v) s (fun t => t = u.qcbWrite pa q { q with rsv := n, tail := n, free := q.cap - (n - q.head) })) ∧
        (n < q.tail ∨ q.head + q.cap < n → Gives (.notify die page v) s (dropped u)))) ∧
    (s.region la = .hbm → Gives (.hbmEccEvent line unc) s (fun t =>
      t = { s with dies := t.dies, fe := t.fe, poison := t.poison } ∧
      ((s.die home).faq.length < 256 → (t.die home).faq = (s.die home).faq ++ [(if unc then 1 else 0, line)]) ∧
      (256 ≤ (s.die home).faq.length → (t.die home).faq = (s.die home).faq ∧
        (t.die home).faqDrop = ((s.die home).faqDrop + 1) % 2 ^ 32) ∧
      (unc = true → t.isLost la = true) ∧ (unc = false → t.poison = s.poison))) ∧
    (s.region la ≠ .hbm → Gives (.hbmEccEvent line unc) s (fun t => t = s)) ∧
    Gives .faqpopRead s (fun t => Claims.DieOnly s t s.sel ∧ t.die s.sel = { s.die s.sel with faq := (s.die s.sel).faq.tail }) ∧
    Gives (.bpadd v) s (fun t => t = { s with fe := t.fe } ∧
      (s.fe.bplist.length < 4096 → t.fe = { s.fe with
        bplist := s.fe.bplist ++ [BitVec.ofNat 64 (1 + wfield v 1 3 * 2 + wfield v 12 40 * 4096)], bpBusy := true }) ∧
      (4096 ≤ s.fe.bplist.length → t.fe = { s.fe with bpFull := true })) ∧
    Gives .bpaddFlashWriteDone s (fun t => t = { s with fe := { s.fe with bpBusy := false } }) ∧
    (cluster < 48 → link < 32 → Gives (.torusLinkStop cluster link) s (fun t => t = { s with tlstat := t.tlstat, fe := t.fe } ∧
      (∀ b, (fget 0 t.tlstat cluster).getLsbD b = ((fget 0 s.tlstat cluster).getLsbD b || decide (b = link))) ∧
      ∀ c, c ≠ cluster → fget 0 t.tlstat c = fget 0 s.tlstat c)) ∧
    Gives .scctlClear s (fun t => Claims.CoreOnly s t s.sel { s.core s.sel with
      scnt := [], scAt := (t.core s.sel).scAt, scWrap := (t.core s.sel).scWrap } ∧
      ∀ slot code, t.scntVal s.sel slot code = 0)

/-- R304 to R306: an uncorrectable error stops a running core, kills the teams on it, discards its commands and interrupts the host;
the commands of CORESTAT move a stopped core through reset, test, return and fence as their conditions say, and a reset clears its
arrays and objects; a failed L1 slice fences the whole cluster. Where a condition does not hold, nothing changes. (Model: return and
fence of a core: log 45.) -/
def Obligations.CoreLossAndRepair : Prop :=
  ∀ (core cause : Nat) (pass : Bool) (s : State),
    let k := s.core s.sel
    let x := s.core core
    let hits := core < 768 ∧ x.state = 0 ∧ x.power ≠ .off ∧ 1 ≤ cause ∧ cause ≤ 6
    (hits → Gives (.coreUncorrectableError core cause) s (fun t =>
      (t.core core).state = 1 ∧ (t.core core).cause = cause ∧ (t.core core).queue = [] ∧
      (cause = 3 → ∀ pa n, 16 * (core / 16) + l1Slice (tagLine pa) = core → t.l1Copy (core / 16) pa n = none) ∧
      (∀ x ∈ t.teams, x.core = core → (x.phase = .running ∨ x.phase = .evicting) → x.killed = true) ∧
      (wbit (s.fe.msixMask.setWidth 64) 6 = true → wbit (t.fe.msixPend.setWidth 64) 6 = true))) ∧
    (¬hits → Gives (.coreUncorrectableError core cause) s (fun t => t = s)) ∧
    (k.state = 1 → Gives .coreResetCmd s (fun t => Claims.CoreOnly s t s.sel { k with state := 2 })) ∧
    (k.state ≠ 1 → Gives .coreResetCmd s (fun t => t = s)) ∧
    (k.state = 1 → k.wasReset = true → Gives .coreTestCmd s (fun t => Claims.CoreOnly s t s.sel { k with state := 3 })) ∧
    (k.state ≠ 1 ∨ k.wasReset = false → Gives .coreTestCmd s (fun t => t = s)) ∧
    (k.pass = true → k.state = 1 ∨ k.state = 4 →
      Gives .coreReturnCmd s (fun t => Claims.CoreOnly s t s.sel { k with state := 0, cause := 0 })) ∧
    (k.pass = false ∨ (k.state ≠ 1 ∧ k.state ≠ 4) → Gives .coreReturnCmd s (fun t => t = s)) ∧
    (k.state = 0 → Gives .coreFenceCmd s (fun t => t = s)) ∧
    (k.state ≠ 0 → ¬(k.cause = 3 ∧ k.pass = false) →
      Gives .coreFenceCmd s (fun t => Claims.CoreOnly s t s.sel { k with state := 4 })) ∧
    (k.state ≠ 0 → k.cause = 3 → k.pass = false → Gives .coreFenceCmd s (fun t =>
      ∀ i, i < 16 → (t.core (s.sel / 16 * 16 + i)).state = 4)) ∧
    (k.state ≠ 2 → Gives .coreResetDone s (fun t => t = s)) ∧
    (k.state = 2 → Gives .coreResetDone s (fun t => ∃ n, Claims.CoreOnly s t s.sel n ∧ n.state = 1 ∧ n.cause = k.cause ∧
      n.wasReset = true ∧ n.pass = k.pass ∧ n.act = [] ∧ n.wgt = [] ∧ n.acc = [] ∧ n.shm = [] ∧ n.sems = [] ∧ n.mtxs = [] ∧
      n.scnt = [] ∧ n.queue = [])) ∧
    (x.state ≠ 3 → Gives (.coreTestDone core pass) s (fun t => t = s)) ∧
    (x.state = 3 → Gives (.coreTestDone core pass) s (fun t => Claims.CoreOnly s t core { x with state := 1, pass := pass }))

/-! ## Launches, teams and deadlines -/

/-- A launch queue has stopped: it is no longer valid, its error register has the code, and MSI-X vector 8 is raised. -/
def Claims.queueStopped (s t : State) (k code : Nat) : Prop :=
  wbit (fget 0 t.fe.lqqcb k) 0 = false ∧ wfield (fget 0 t.fe.lqerr k) 0 4 = code ∧
    (wbit (s.fe.msixMask.setWidth 64) 8 = true → wbit (t.fe.msixPend.setWidth 64) 8 = true)

/-- R291, R292, R295, R297 to R300, R352: the front end serves the next valid queue in turn, and stops one with the code of the
first condition that holds; an admitted launch has one waiting team for each team of its grid, and a refused one has none, and gets
its reason code; of the teams that can start the first in the order of the handing starts, unless a team waits to be restored for
its divert: alone on the best core of its die that can take it, with its ring group on one cluster, each at its position, or with
its whole co-resident grid; a team that waits becomes free to spill, and once free it goes to the die with the most free places; the
boosts are recomputed from the slack table. (Model: the order of refusal codes: log 38; placement details: log 37; a block kept from
its context: log 51.) -/
def Obligations.LaunchesAndPlacement : Prop :=
  ∀ (pkt ctx : List Word) (n core : Nat) (sh : Share) (s u : State),
    let x := s.team s.sel
    let l := s.launch x.launch
    let r := s.takeUid.1
    let p : Launch := { Launch.none with id := s.nextUid, queue := n, pkt := pkt, ctx := ctx, ended := false, expired := false }
    let first := ∀ o ∈ s.teams, s.handedBefore o x = true → s.tryStart o = none
    let turn := s.firm.step = 8 ∧ s.firm.fail = false ∧ (s.launches.filter (fun y => !y.ended)).length < 256 ∧
      ((List.range 64).map (fun i => (s.fe.lqNext + i) % 64)).find? (fun k => s.lqDue k) = some s.sel
    let qcb := wfield (fget 0 s.fe.lqqcb s.sel) 7 45 * 128
    let s1 : State := { s with fe := { s.fe with lqNext := (s.sel + 1) % 64 } }
    let stops (c : Nat) : Prop := Gives .launchDequeue s (fun t => Claims.queueStopped s t s.sel c)
    (¬turn → Gives .launchDequeue s (fun t => t = s)) ∧
    (turn →
      (s1.readCtx s.sel = none → stops 5) ∧
      (s1.readCtx s.sel = some ctx →
        (s1.region (paLow qcb) ≠ .hbm → stops 2) ∧
        (s1.region (paLow qcb) = .hbm → s1.refusal qcb (satpAsid (dw ctx 0)) ≠ none → stops 3) ∧
        (∀ b, s1.region (paLow qcb) = .hbm → s1.refusal qcb (satpAsid (dw ctx 0)) = none → (s1.qSettle qcb).qcbBytes qcb = (b, u) →
          u.fe.msixMask = s.fe.msixMask →
          let q := qcbParse (dwords 16 b)
          (q.asid ≠ satpAsid (dw ctx 0) → stops 3) ∧
          (q.asid = satpAsid (dw ctx 0) → qcbCorrupt b = true ∨ q.qr = true → stops 2) ∧
          (q.asid = satpAsid (dw ctx 0) → qcbCorrupt b = false → q.qr = false →
            (q.esz ≠ 31 → stops 1) ∧
            (q.esz = 31 → q.avail = 0 → Gives .launchDequeue s (fun t => t = u)) ∧
            (q.esz = 31 → q.avail ≠ 0 → ∀ els q' v, u.takeElems q 1 = (els, q', v) → v.fe.msixMask = s.fe.msixMask →
              (u.readable q.take.1 = false ∨ u.refusal q.take.1 q.asid ≠ none → Gives .launchDequeue s (fun t =>
                ∃ w, w = v.qcbWrite qcb q q' ∧ t.launches = w.launches ∧ t.teams = w.teams ∧
                  (w.fe.msixMask = s.fe.msixMask → Claims.queueStopped s t s.sel 4))) ∧
              (u.readable q.take.1 = true → u.refusal q.take.1 q.asid = none → Gives .launchDequeue s (fun t =>
                t = (v.qcbWrite qcb q q').admission s.sel (dwords 16 (els.headD [])) ctx))))))) ∧
    (r.refuseCode p = 0 →
      (s.admission n pkt ctx).launches = s.launches ++ [{ p with expired := p.deadline != 0 && decide (p.deadline ≤ s.dtime) }] ∧
      ((s.admission n pkt ctx).teams.drop s.teams.length).map Team.lin = List.range p.teamCount ∧
      ((s.admission n pkt ctx).teams.take s.teams.length) = s.teams ∧
      ∀ y ∈ (s.admission n pkt ctx).teams.drop s.teams.length, y.phase = .waiting ∧ y.launch = s.nextUid) ∧
    (r.refuseCode p ≠ 0 → (s.admission n pkt ctx).launches = s.launches ∧ (s.admission n pkt ctx).teams = s.teams ∧
      (p.complAddr = 0 → (s.admission n pkt ctx).mem = s.mem) ∧
      (p.complAddr ≠ 0 → (s.admission n pkt ctx).mem =
        (r.feStore p.complAddr p.asid (BitVec.ofNat 64 (2 ^ 63 + r.refuseCode p))).mem)) ∧
    (s.tryStart x = some u → s.divertWaits = false → first → Gives .teamStart s (fun t => t = u)) ∧
    (s.tryStart x ≠ none → s.divertWaits = true ∨ ¬first → Gives .teamStart s (fun t => t = s)) ∧
    (let assigned := x.phase = .waiting ∧ l.coRes = false ∧ (l.affinity = 0 ∨ x.spilled = true) ∧ x.die = none;
      s.tryStart x = none → (¬assigned → Gives .teamStart s (fun t => t = s)) ∧
        (assigned → Gives .teamStart s (fun t => t = { s with teams := t.teams } ∧ t.team s.sel = { x with die := some (s.freeDie l.asid) }))) ∧
    (x.phase = .waiting → l.expired = false → l.ended = false →
      (l.coRes = false → l.ring = false → s.bestCore l x (s.teamDie l x) = some (core, sh) →
        s.canTake core l = some sh ∧ core / 192 = s.teamDie l x ∧
        (∀ c, c / 192 = s.teamDie l x → s.canTake c l ≠ none → s.coreRank l x core ≤ s.coreRank l x c) ∧
        (s.divertWaits = false → first → Gives .teamStart s (fun t => t = s.placeTeam l x core sh ∧
          (t.team s.sel).phase = .running ∧ (t.team s.sel).core = core ∧ (t.team s.sel).share = sh))) ∧
      ((s.teams.map Team.id).Nodup → s.tryStart x = some u → s.divertWaits = false → first →
        (l.coRes = false → l.ring = true → Gives .teamStart s (fun t => ∃ k, ∀ y ∈ s.waitingTeams l.id, y.lin / 16 = x.lin / 16 →
          (t.team y.id).phase = .running ∧ (t.team y.id).core = 16 * k + y.lin % 16)) ∧
        (l.coRes = true → Gives .teamStart s (fun t => ∀ y ∈ s.waitingTeams l.id, (t.team y.id).phase = .running)))) ∧
    (let due := x.phase = .waiting ∧ l.affinity = 1 ∧ l.die = none ∧ x.since + 1000 * wfield s.fe.fespill 0 32 ≤ s.clock;
      (due → Gives .spillTimeout s (fun t => t = { s with teams := t.teams } ∧ t.team s.sel = { x with spilled := true })) ∧
        (¬due → Gives .spillTimeout s (fun t => t = s))) ∧
    (Gives .slackRecalc s (fun t => t = { s with launches := t.launches } ∧
      t.launches = s.launches.map (fun y => { y with boost := s.slackBoost y })) ∧
      ∀ y : Launch, (y.deadline = 0 → s.slackBoost y = 0) ∧
        (y.deadline ≠ 0 → ∀ j, j < 16 →
          let slack := ((y.deadline : Int) - s.dtime - s.remEst y) / 1000
          (∀ i, i < j → slack < (s.band i).1) → (s.band j).1 ≤ slack → s.slackBoost y = (s.band j).2))

/-- R85, R162, R301 to R303, R357, R358, R368: a team that has nothing left ends, its shares go to scrubbing, and once its events
are done its outcome stands; a scrub zeroes the shares of a core that no job lists; a launch that is over ends and its completion
value is written; the hang detector reports a context whose condition has held long enough, sets interrupt 17 of its lowest hart and
interrupts the host. In every other case nothing changes. (Model: a transfer that outlives its team: log 35.) -/
def Obligations.EndsOfTeamsAndLaunches : Prop :=
  ∀ (low : Hart) (rest : List Hart) (s : State),
    let x := s.team s.sel
    let lx := s.launch x.launch
    let l := s.launch s.sel
    let mine := s.teams.filter (fun y => y.launch == l.id)
    let lh := s.launchOf low.team
    let count := if wfield (dw lh.ctx 6) 0 6 = 0 then 24 else wfield (dw lh.ctx 6) 0 6
    let cap := wfield (dw lh.ctx 7) 0 32
    let mark := fget 0 s.fe.hang s.sel
    let hs := s.resident.filter (fun h => h.asid == s.sel)
    let edges := (hs.filter (fun h => !s.edgeHidden s.sel h)).map Hart.edge
    let report : List Word := [BitVec.ofNat 64 (min edges.length cap + (if cap < edges.length then 2 ^ 32 else 0)), BitVec.ofNat 64 s.dtime] ++
      (edges.take cap).flatten
    let ends := (x.phase = .running ∨ x.phase = .evicting) ∧ s.teamBusy x = false
    let isOver := l.ended = false ∧ (l.expired = true → s.liveTeams l.id = []) ∧
      (l.expired = false → ∀ y ∈ mine, y.outDone = true ∨ y.committed = true)
    let hangs := mark ≠ 0 ∧ s.hung s.sel = true ∧ mark - 1 + 2 ^ count ≤ s.clock
    (ends ∨ (x.phase = .evicted ∧ x.killed = true) → Gives .teamComplete s (fun t =>
      (t.team s.sel).phase = .ended ∧ (s.eventsDone x = true → (t.team s.sel).outDone = true) ∧
      (ends → x.share.held = true → x.share ∈ (t.core x.core).scrub))) ∧
    (x.phase = .ended → x.outDone = false → s.eventsDone x = true → Gives .teamComplete s (fun t => t = s.writeOutcome x ∧
      (t.team s.sel).outDone = true ∧
      (lx ∈ s.launches → lx.outcome = 0 → x.committed = false → fget 0 (t.launch lx.id).outs x.lin =
        fget 0 lx.outs x.lin ||| (if x.killed = true ∨ x.wrapped = true then 3 else 1)))) ∧
    (x.phase = .ended → x.outDone = true ∨ s.eventsDone x = false → Gives .teamComplete s (fun t => t = s)) ∧
    (x.phase = .running ∨ x.phase = .evicting → s.teamBusy x = true → Gives .teamComplete s (fun t => t = s)) ∧
    (x.phase = .waiting ∨ (x.phase = .evicted ∧ x.killed = false) → Gives .teamComplete s (fun t => t = s)) ∧
    (s.inJob s.sel = true → Gives .shareScrub s (fun t => t = s)) ∧
    (s.inJob s.sel = false → Gives .shareScrub s (fun t => t = { s with cores := t.cores, wlog := t.wlog } ∧ (t.core s.sel).scrub = [] ∧
      (∀ sh ∈ (s.core s.sel).scrub, ∀ i,
        (i < sh.shSize → fget 0 (t.core s.sel).shm (sh.shBase + i) = 0) ∧ (i < sh.actSize → fget 0 (t.core s.sel).act (sh.actBase + i) = 0) ∧
        (i < sh.wgtSize → fget 0 (t.core s.sel).wgt (sh.wgtBase + i) = 0) ∧ (i < sh.accSize → fget 0 (t.core s.sel).acc (sh.accBase + i) = 0)) ∧
      ∀ c, c ≠ s.sel → t.core c = s.core c)) ∧
    (isOver → Gives .launchComplete s (fun t => (t.launch s.sel).ended = true ∧
      (l.complAddr = 0 → t.mem = s.mem) ∧ (l.complAddr ≠ 0 → t.mem = (s.feStore l.complAddr l.asid l.complValue).mem))) ∧
    (¬isOver → Gives .launchComplete s (fun t => t = s)) ∧
    (hs = low :: rest → hangs → s.hartOf low.gid = low → Gives .contextHang s (fun t =>
      (t.hartOf low.gid).csr = { low.csr with mip := wputb low.csr.mip 17 true } ∧ t.fe.hang = fset 0 s.fe.hang s.sel (s.clock + 1) ∧
      t.mem = (s.feStores s.sel (wfield (dw lh.ctx 6) 12 52 * 4096) report).mem ∧
      (wbit (s.fe.msixMask.setWidth 64) 0 = true → wbit (t.fe.msixPend.setWidth 64) 0 = true))) ∧
    (hs = [] ∨ (hs = low :: rest ∧ ¬hangs) → Gives .contextHang s (fun t => t = s))

/-- R77, R354, R355: what hart `k` is after its divert to `entry`, with the value of wcause and the address kept in wpc. -/
def Claims.diverted (k : Hart) (entry wpc : Word) (cause : Nat) : Hart :=
  { (if k.uiAct then k.leaveHandler else k) with
    wpc := wpc, wcause := BitVec.ofNat 64 cause, wrapup := true, pc := entry, run := .ready, divertDue := none
    lpcnt0 := 0, lpcnt1 := 0, lpxe0 := 0, lpxe1 := 0, uiIe := false, uiUntil := 0 }

/-- R77, R354, R367: the focused hart of `s`, which became that of `v` when its wait was withdrawn, diverts; its team is in wrap-up
and is no longer being evicted, nor is its co-resident grid; nothing else changes. -/
def Claims.diverts (s v : State) (wpc : Word) (cause : Nat) : Prop :=
  Gives .divert s (fun t => t = { v with hart := t.hart, teams := t.teams } ∧
    t.hart = Claims.diverted v.hart (s.launchOf s.hart.team).wrapEntry wpc cause ∧
    (∀ y ∈ t.teams, y.id = s.hart.team → y.wrapped = true ∧ y.phase ≠ .evicting) ∧ ∀ i, i ≠ s.hart.team → t.team i = s.team i ∨
      (t.team i = { s.team i with phase := .running } ∧ (s.team i).phase = .evicting ∧ (s.team i).launch = (s.team s.hart.team).launch ∧
        (s.launchOf s.hart.team).coRes = true))

/-- R353 to R362, R367: at the comparator's check the launch expires: without a budget its teams are killed, with one its queries
are to end and each started team is marked: an evicted team, or one whose harts, and those of all that are saved with it, have
stopped, for its restore, the harts of every other for their divert. At the end of the budget what is left is killed. A marked hart
that stands at a boundary in U mode diverts, with its pc and the cause kept; a wait is withdrawn, and in the user-interrupt handler
uiepc is the pc (log 34 says which address is kept for a wait in the handler). `wr.commit` writes the commit word and then the
entry, or takes the access fault with the commit word's address, `wr.done` ends the hart, `wr.drop` discards once and waits for what
runs; all three are illegal outside U mode in wrap-up. In every other case the events change nothing. -/
def Obligations.DeadlinesAndWrapUp : Prop :=
  ∀ (rs1 : XReg) (cause i : Nat) (w : Wait) (s : State),
    let h := s.hart
    let x := s.team h.team
    let l := s.launch x.launch
    let e := s.launch s.sel
    let pa := l.commitPa x.lin
    let inWrap := h.mode = .u ∧ h.wrapup = true
    let dropped := (s.discardUnstarted s.coreNo h.team).endXfers h.team
    let due := e.deadline ≠ 0 ∧ e.expired = false ∧ e.ended = false ∧ e.deadline ≤ s.dtime / 128 * 128
    let u := s.modLaunch e.id (fun y => { y with expired := true })
    let u' := { u with queries := s.queries.map (fun (q : Query) => if q.launch = e.id then { q with divert := true } else q) }
    let last := e.expired = true ∧ e.ended = false ∧ e.deadline + e.budget ≤ s.dtime
    let uih := if h.uiAct = true then 16 else 0
    let xi := s.team i
    let late := xi.phase = .evicted ∨ (xi.phase = .evicting ∧ ∀ y ∈ s.teams, y.phase = .evicting →
      y.id = i ∨ (y.launch = xi.launch ∧ (s.launch xi.launch).coRes = true) → s.allStopped y = true)
    let word (v : State) := ((v.release h.gid).feWrite pa (h.getX rs1))
    (due → e.budget = 0 → Gives .deadlineExpiry s (fun t => t = (u.liveTeams e.id).foldl State.killTeam u ∧
      (e ∈ s.launches → (t.launch e.id).expired = true) ∧
      ∀ y ∈ t.teams, y.launch = e.id → y.phase = .running ∨ y.phase = .evicting ∨ y.phase = .evicted → y.killed = true)) ∧
    (due → e.budget ≠ 0 → Gives .deadlineExpiry s (fun t => t = (u.liveTeams e.id).foldl (State.expireTeam u.savedFirst) u' ∧
      (e ∈ s.launches → (t.launch e.id).expired = true) ∧ ∀ q ∈ t.queries, q.launch = e.id → q.divert = true)) ∧
    (s.savedFirst i = true ↔ late) ∧
    (∀ saved : Nat → Bool, saved i = true → State.expireTeam saved s i = { s with teams := (State.expireTeam saved s i).teams } ∧
      ∀ y ∈ (State.expireTeam saved s i).teams, y.id = i → y.forDivert = true) ∧
    (∀ saved : Nat → Bool, saved i = false → State.expireTeam saved s i = s.divertTeam i 0 ∧
      (h.team = i → h.run.isHart = true → (∀ y ∈ s.teamPlaces i, y.gid = h.gid → y.run = h.run) →
        (s.divertTeam i 0).hart.divertDue = some 1)) ∧
    (¬due → Gives .deadlineExpiry s (fun t => t = s)) ∧
    (last → Gives .wrapupBudgetKill s (fun t => t = (s.liveTeams e.id).foldl State.killTeam s ∧
      ∀ y ∈ t.teams, y.launch = e.id → y.phase = .running ∨ y.phase = .evicting ∨ y.phase = .evicted → y.killed = true)) ∧
    (¬last → Gives .wrapupBudgetKill s (fun t => t = s)) ∧
    (h.divertDue = some cause → h.mode = .u →
      (h.run = .ready → Claims.diverts s s (if h.uiAct = true then h.uiepc else h.pc) (cause + uih)) ∧
      (h.run = .waiting w → h.answer = none → w.sent = false → h.granted w = false →
        (w.retires = true → Claims.diverts s s.retire s.retire.hart.pc (cause + uih)) ∧
        (w.retires = false → Claims.diverts s s.withdraw h.pc (cause + uih + 4 + (if h.arrivedIn w = true then 8 else 0)))) ∧
      (h.run = .waiting w → h.answer ≠ none ∨ w.sent = true ∨ h.granted w = true → Gives .divert s (fun t => t = s)) ∧
      ((∀ w', h.run ≠ .waiting w') → h.run ≠ .ready → Gives .divert s (fun t => t = s))) ∧
    (h.divertDue = none ∨ h.mode ≠ .u → Gives .divert s (fun t => t = s)) ∧
    (¬inWrap → Gives (.wrCommit rs1) s (Traps s 2 0 h.ir) ∧ Gives .wrDone s (Traps s 2 0 h.ir) ∧ Gives .wrDrop s (Traps s 2 0 h.ir)) ∧
    (inWrap → s.feRefusal pa h.asid = none → s.feRefusal (l.entryPa x.lin) h.asid = none →
      Gives (.wrCommit rs1) s (fun t => t.hart.x = h.x ∧ t.hart.pc = h.retire.pc ∧ (t.team h.team).killed = x.killed ∧
        (∀ y ∈ t.teams, y.id = x.id → y.committed = true) ∧
        (x.committed = true → t.mem = (word s).mem) ∧ (x.committed = false → t.mem = ((word s).outcomeOr l x.lin 2).mem))) ∧
    (inWrap → ∀ k, s.feRefusal pa h.asid = some k ∨ (s.feRefusal pa h.asid = none ∧ s.feRefusal (l.entryPa x.lin) h.asid = some k) →
      Gives (.wrCommit rs1) s (Traps s 7 (if k = 3 then 3 else 0) (BitVec.ofNat 64 pa))) ∧
    (inWrap → Gives .wrDone s (fun t => t = s.exits h.gid ∧ (t.hartOf h.gid).run = .vacant)) ∧
    (inWrap →
      let v := if h.run = .waiting .mxfence then s else dropped
      let busy := v.teamCmds h.team ≠ [] ∨ ∃ y ∈ v.xfers, y.team = h.team
      (h.run ≠ .waiting .mxfence → ∀ y ∈ v.xfers, y.team = h.team → y.done = true) ∧
      (¬busy → Gives .wrDrop s (fun t => t = (v.acquire h.gid .team).retire ∧ t.hart.x = h.x)) ∧
      (busy → Gives .wrDrop s (fun t => t = { v with hart := t.hart } ∧ t.hart.run = .waiting .mxfence ∧ t.hart.pc = h.pc)))

/-! ## Pre-emption -/

/-- R364, R365, R368: a save of team `y` on state `s`: all its harts' waits are withdrawn, its transfers stop at the end of their
chunks, and the issued events of its harts are performed as by a fence; the image is written at the lowest place of the save area
that has room for it, the team's places become vacant, its shares go to scrubbing, and its transfers and continuations stand in the
image; without room there is no save. -/
def Claims.saves (s : State) (y : Team) : Prop :=
  let gids := (s.teamHarts y.id).map Hart.gid
  let stopped := (gids.foldl State.withdrawAt (s.drainLb y.core)).endChunks y.id
  let u := gids.foldl (fun s g => (((s.release g).acquire g .sys).dropSenders g).modCore (gidCore g) (fun c => c.forget g)) stopped
  let asid := (u.launch y.launch).asid
  let img := u.teamImage y
  (u.saveRoom asid img.length = none → s.saveTeam y = none) ∧
    ∀ off, u.saveRoom asid img.length = some off → ∃ t, s.saveTeam y = some t ∧
      t.mem = (u.writeBytes .other (u.saveBase asid + off) img).mem ∧
      (∀ z ∈ t.teams, z.id = y.id → z.phase = .evicted ∧ z.image = off ∧ z.imageSize = img.length ∧ z.away = u.teamPlaces y.id ∧
        z.awayCmds = u.teamCmds y.id ∧ z.awayXfers = u.xfers.filter (fun e => e.team == y.id)) ∧
      (∀ z ∈ t.xfers, z.team ≠ y.id) ∧ (∀ p ∈ u.teamPlaces y.id, (t.hartOf p.gid).run = .vacant) ∧
      (y.share.held = true → y.share ∈ (t.core y.core).scrub) ∧
      dwordOf img = BitVec.ofNat 64 (0x53544A48 + 2 ^ 32 + (byNum ((u.teamPlaces y.id).filter (fun h => h.run.isHart))).length * 2 ^ 48)

/-- R366: what hart `k` is after it is made from the record of hart `g` on state `s`. -/
def Claims.recordGivesBack (s : State) (g k : Hart) (clk : Nat) : Prop :=
  let r := k.ofRecord (fun n => fget 0 (s.record g) n) clk
  g.lalloc < 2 ^ 64 → r.pc = g.pc ∧ (∀ i, 1 ≤ i → i < 32 → fget 0 r.x i = fget 0 g.x i) ∧ (∀ i, i < 32 → fget 0 r.f i = fget 0 g.f i) ∧
    (∀ i, i < 16 → fget 0 r.m i = fget 0 g.m i) ∧ (∀ i, i < 32 → fget 0 r.mbox i = fget 0 g.mbox i) ∧
    r.live = g.live ∧ r.lalloc = g.lalloc ∧ r.lpcnt0 = g.lpcnt0 ∧ r.lpbeg0 = g.lpbeg0 ∧
    r.lpend0 = g.lpend0 ∧ r.lpxe0 = g.lpxe0 ∧ r.lpcnt1 = g.lpcnt1 ∧ r.lpbeg1 = g.lpbeg1 ∧ r.lpend1 = g.lpend1 ∧ r.lpxe1 = g.lpxe1 ∧
    r.csr.sepc = g.csr.sepc ∧ r.csr.scause = g.csr.scause ∧ r.csr.stval = g.csr.stval ∧ r.csr.sscratch = g.csr.sscratch ∧
    r.csr.stimecmp = g.csr.stimecmp ∧ r.csr.mepc = g.csr.mepc ∧ r.csr.mcause = g.csr.mcause ∧ r.csr.mtval = g.csr.mtval ∧
    r.csr.mscratch = g.csr.mscratch ∧ r.lfault = g.lfault ∧ r.lcomp = g.lcomp ∧ r.lfrec = g.lfrec ∧
    r.srctr = g.srctr ∧ r.srseed = g.srseed ∧ r.uivec = g.uivec ∧ r.uiepc = g.uiepc ∧ r.uicause = g.uicause ∧ r.uiid = g.uiid ∧
    r.wpc = g.wpc ∧ r.wcause = g.wcause ∧ r.mbpres = g.mbpres ∧ r.barpend = g.barpend ∧ r.barpc = g.barpc ∧
    nextId r.nextXfer = nextId g.nextXfer ∧ (wbit g.csr.menvcfg 63 = false → wbit r.csr.mip 5 = wbit g.csr.mip 5) ∧
    r.run = .ready ∧ r.mode = .u ∧ r.resv = none

/-- R164, R364 to R367: firmware evicts teams that are evictable together: their harts stop, then each image is written where the
save area has room and the shares are released, of all these teams or, where room fails, of none, which then run on, and are
diverted at once if that was due after the save. A team is evictable only outside wrap-up, for a team of higher priority, and with
room for its image. An evicted team is restored on one of the cores that can take it, a team that waits for its divert ahead of the
others and with that divert marked; its arrays come back from the image, and a hart record gives back the registers that it was made
from. In every other case the events change nothing. (Model: the core of a restore is a free choice: log 39; firmware's policy is an
operand: log 21; eligible commands: log 57.) -/
def Obligations.PreemptionAndRestore : Prop :=
  ∀ (clk : Nat) (b : List Byte) (g k : Hart) (y : Team) (s v : State),
    let x := s.team s.sel
    let set := s.evictSet x
    let l := s.launch x.launch
    let cores := s.restoreCores x
    let lanes := (((byNum (x.away.filter (fun h => h.run.isHart))).map (fun h => 128 * h.lalloc)).foldl (· + ·) 0)
    let shm := 4096 + 4096 * (byNum (x.away.filter (fun h => h.run.isHart))).length + pad4kSize lanes
    let act := shm + pad4kSize x.share.shSize
    let wgt := act + pad4kSize x.share.actSize
    let acc := wgt + pad4kSize x.share.wgtSize
    let back (f : Core → File Byte) (base size off : Nat) (t : State) (c : Nat) : Prop :=
      ∀ i, i < size → off + i < b.length → fget 0 (f (t.core c)) (base + i) = b.getD (off + i) 0
    (s.evictable x = true → x.phase = .running ∧ x.wrapped = false ∧ (s.saveRoom l.asid (s.imageBytes x)).isSome ∧
      ∃ z ∈ s.teams, z.killed = false ∧ ((z.phase = .waiting ∧ (s.launch z.launch).expired = false) ∨ z.phase = .evicted) ∧
        l.prio < s.waitPrio z) ∧
    (l.coRes = true → ∀ z, z ∈ set ↔ z ∈ s.teams ∧ z.launch = x.launch ∧ z.phase = x.phase) ∧
    (l.coRes = false → set = [x]) ∧
    (s.allStopped x = true ↔ (∀ h ∈ s.teamHarts x.id, h.mode = .u ∧ (h.run = .starting ∨ h.atBoundary = true) ∧ h.divertDue = none) ∧
      ∀ c ∈ s.teamCmds x.id, c.phase.waiting = true) ∧
    (x.phase = .running → (∀ z ∈ set, s.evictable z = true) → Gives .preEmption s (fun t =>
      t = { s with teams := t.teams } ∧ (∀ z ∈ t.teams, (∃ e ∈ set, e.id = z.id) → z.phase = .evicting) ∧
      ∀ n, (∀ z ∈ set, z.id ≠ n) → t.team n = s.team n)) ∧
    (x.phase = .running → (∃ z ∈ set, s.evictable z = false) → Gives .preEmption s (fun t => t = s)) ∧
    (x.phase = .evicting →
      let v0 := (set.flatMap (fun z => (s.teamHarts z.id).map Hart.gid)).foldl State.qMeets s
      ((∃ z ∈ set, v0.allStopped z = false) → Gives .preEmption s (fun t => t = v0)) ∧
      ((∀ z ∈ set, v0.allStopped z = true) →
        (∀ t', v0.saveAll set = some t' → Gives .preEmption s (fun t => t = t')) ∧
        (v0.saveAll set = none → Gives .preEmption s (fun t =>
          (∀ z ∈ t.teams, (∃ e ∈ set, e.id = z.id) → z.phase = .running) ∧
          ((∀ e ∈ set, e.forDivert = false) → t = { v0 with teams := t.teams }) ∧
          (set = [x] → x.forDivert = true → ∃ r : State, r = { v0 with teams := r.teams } ∧ t = r.divertTeam x.id 0))))) ∧
    (∀ r, s.saveAll [] = some s ∧ s.saveAll (y :: r) = (s.saveTeam y).bind (fun u => u.saveAll r)) ∧
    Claims.saves s y ∧
    (x.phase ≠ .running → x.phase ≠ .evicting → Gives .preEmption s (fun t => t = s)) ∧
    (x.phase ≠ .evicted ∨ x.killed = true ∨ (x.forDivert = false ∧ s.divertWaits = true) ∨ cores = [] →
      Gives .teamRestore s (fun t => t = s)) ∧
    (x.phase = .evicted → x.killed = false → x.forDivert = true ∨ s.divertWaits = false → cores ≠ [] →
      s.readBytes (s.saveBase l.asid + x.image) x.imageSize = (b, v) →
      Gives .teamRestore s (fun t => ∃ p ∈ cores, t = v.restoreOn x p.1 p.2 b ∧
        (t.team s.sel).phase = .running ∧ (t.team s.sel).core = p.1 ∧ (t.team s.sel).share = p.2 ∧ (t.team s.sel).forDivert = false ∧
        (x.forDivert = false → back Core.shm p.2.shBase p.2.shSize shm t p.1 ∧ back Core.act p.2.actBase p.2.actSize act t p.1 ∧
          back Core.wgt p.2.wgtBase p.2.wgtSize wgt t p.1 ∧ back Core.acc p.2.accBase p.2.accSize acc t p.1))) ∧
    (x.forDivert = true → s.waitPrio x = 255) ∧
    Claims.recordGivesBack s g k clk

/-! ## Polders and the Fuller -/

/-- R372, R377, R392, R393: which physical accesses are refused for a context, and with which subcause. -/
def Claims.refusals (s : State) (pa asid : Nat) : Prop :=
  let la := paLow pa
  let owns (k : Nat) := (s.keySlot k).valid = true ∧ (s.keySlot k).asid = asid
  let fenced := ∃ e ∈ s.fences, ¬(e.1 = true ∧ e.2.asid = asid) ∧ ∃ r ∈ e.2.ranges, r.1 ≤ la ∧ la < r.1 + 4096 * r.2
  (2 ^ 52 ≤ pa → s.refusal pa asid = some 0) ∧
  (pa < 2 ^ 52 →
    (s.region la = .nowhere → s.refusal pa asid = some 0) ∧
    (s.region la = .hbm → (paKey pa ≠ 0 ∧ ¬owns (paKey pa)) ∨ fenced → s.refusal pa asid = some 3) ∧
    (s.region la = .hbm → paKey pa = 0 ∨ owns (paKey pa) → ¬fenced → s.refusal pa asid = none) ∧
    (s.region la ≠ .hbm → s.region la ≠ .nowhere → paKey pa ≠ 0 → s.refusal pa asid = some 3) ∧
    (paKey pa = 0 →
      (∀ c o, s.region la = .coreMem c o →
        ((s.core c).slot ≠ 0 → ¬owns (s.core c).slot → s.refusal pa asid = some 3) ∧
        ((s.core c).slot = 0 ∨ owns (s.core c).slot → s.refusal pa asid = if s.aliasOwned c o asid then none else some 0)) ∧
      (∀ p o, s.region la = .far p o → s.refusal pa asid = if (fget Port.fresh s.ports p).state = 1 then none else some 2) ∧
      (∀ o, s.region la = .host o → s.refusal pa asid = if s.cxl then none else some 0)))

/-- The Polder command in execution ends with success, and key slot `k` alone becomes `o`. -/
def Claims.pldActs (s t : State) (k : Nat) (o : KeySlot) : Prop :=
  t.firm.pldRun = true ∧ t.firm.pldErr = 0 ∧ t.keySlot k = o ∧ (∀ j, j ≠ k → t.keySlot j = s.keySlot j)

/-- The command fails with a code and changes nothing else. -/
def Claims.pldFails (s t : State) (err : Nat) : Prop := t = { s with firm := { s.firm with pldRun := true, pldErr := err } }

/-- R375: the report of slot `k` for a nonce. -/
def Claims.reportOf (s : State) (k : Nat) (nonce rep : List Byte) : Prop :=
  let o := s.keySlot k
  let cert := Config.certificate.take 1024
  let body := [0x48#8, 0x4A#8, 0x41#8, 0x52#8] ++ natToBytes 2 1 ++ [BitVec.ofNat 8 k, s.firm.dbg.setWidth 8] ++ natToBytes 8 o.asid ++
    natToBytes 8 0x40101 ++ natToBytes 8 s.dtime ++ sha256 s.firm.booted ++ padTo 32 o.meas ++ padTo 32 nonce ++
    natToBytes 8 cert.length ++ padTo 1024 cert
  rep = body ++ padTo 64 (Config.signature (sha256 body)) ∧ rep.take 4 = [0x48#8, 0x4A#8, 0x41#8, 0x52#8]

/-- R372 to R377: what the key rules, the fences and the map refuse; the ops of a Polder command: create gives a free slot a fresh
key and a measurement of 0, extend hashes a range of memory into the measurement, attest writes the report; each fails with its code
otherwise and changes nothing else (log 46: a range that a fence refuses is a bad field); the command then shows done or error, also
where its block cannot be read or names no op; PCOWN gives a free core to a Polder; KFLUSH of an armed job's slot walks the caches
until they hold no line of the key id, any other is ignored; KSZERO destroys the key of a flushed slot whose job is armed, any other
is refused. (Model: the order of error codes: log 38; signature and certificate free: log 18.) -/
def Obligations.PolderCommands : Prop :=
  ∀ (b : List Word) (l : List Byte) (core acc asid' : Nat) (v : Word) (s u : State),
    let k := pldSlot b
    let o := s.keySlot k
    let asid := wfield (dw b 0) 16 16
    let pa := (dw b 1).toNat
    let n := (dw b 2).toNat
    let kid := wfield v 0 6
    let okf := 1 ≤ wfield (dw b 0) 8 8 ∧ wfield (dw b 0) 8 8 ≤ 63 ∧ wfield (dw b 0) 32 32 = 0 ∧ dw b 3 = 0
    let named := o.busy = true ∨ ∃ j ∈ s.jobs, j.slot = k
    let holds := ∃ y ∈ s.teams, y.core = core ∧ (y.phase = .running ∨ y.phase = .evicting)
    let listed := (s.core core).busy = true ∨ ∃ e ∈ s.firm.journal, core ∈ e.job.cores
    let range := pa % 4096 = 0 ∧ pa < 2 ^ 52 ∧ paKey pa = k ∧ n % 4096 = 0 ∧ n ≤ 2 ^ 30 ∧ s.inHbmAll pa n = true ∧
      ∀ i, i < n / 4096 → s.refusal (pa + 4096 * i) o.asid = none
    let rep := s.report k (dwordBytes (b.drop 4))
    Claims.refusals s acc asid' ∧ Claims.reportOf s k (dwordBytes (b.drop 4)) rep ∧
    (s.firm.pldState = 1 → s.pldcmd v = s) ∧
    (s.firm.pldState ≠ 1 → s.pldcmd v =
      { s with firm := { s.firm with pldState := 1, pldErr := 0, pldBlk := wfield v 6 46 * 64, pldRun := false } }) ∧
    (s.pldOp 1 = none → Gives .polderCreate s (fun t => t = s)) ∧
    (s.pldOp 1 = some b →
      (¬okf → Gives .polderCreate s (fun t => Claims.pldFails s t 1)) ∧
      (okf → (o.valid = true ∨ named ∨ o.zero = true) → Gives .polderCreate s (fun t => Claims.pldFails s t 2)) ∧
      (okf → o.valid = false → ¬named → o.zero = false →
        (s.slotOf asid ≠ 0 → Gives .polderCreate s (fun t => Claims.pldFails s t 4)) ∧
        (s.slotOf asid = 0 → Gives .polderCreate s (fun t => t = { s with firm := t.firm } ∧ t.firm.nextVer = s.firm.nextVer + 1 ∧
          Claims.pldActs s t k ⟨asid, true, false, false, s.firm.nextVer, List.replicate 32 0, false, false⟩)))) ∧
    (s.pldOp 2 = none → Gives .polderExtend s (fun t => t = s)) ∧
    (s.pldOp 2 = some b →
      (¬okf → Gives .polderExtend s (fun t => Claims.pldFails s t 1)) ∧
      (okf → o.valid = false → Gives .polderExtend s (fun t => Claims.pldFails s t 3)) ∧
      (okf → o.valid = true → ¬range → Gives .polderExtend s (fun t => Claims.pldFails s t 1)) ∧
      (okf → o.valid = true → range → o.launched = true → Gives .polderExtend s (fun t => Claims.pldFails s t 6)) ∧
      (okf → o.valid = true → range → o.launched = false → s.readBytes pa n = (l, u) →
        Gives .polderExtend s (fun t => t = { u with firm := t.firm } ∧
          Claims.pldActs s t k { o with meas := sha256 (o.meas ++ sha256 l) }))) ∧
    (s.pldOp 3 = none → Gives .polderAttest s (fun t => t = s)) ∧
    (s.pldOp 3 = some b →
      (¬okf → Gives .polderAttest s (fun t => Claims.pldFails s t 1)) ∧
      (okf → o.valid = false → Gives .polderAttest s (fun t => Claims.pldFails s t 3)) ∧
      (okf → o.valid = true → s.fwCan pa (min n 1224) = false → Gives .polderAttest s (fun t => Claims.pldFails s t 1)) ∧
      (okf → o.valid = true → s.fwCan pa n = true → n < 1224 → Gives .polderAttest s (fun t => Claims.pldFails s t 5)) ∧
      (okf → o.valid = true → s.fwCan pa 1224 = true → 1224 ≤ n → Gives .polderAttest s (fun t =>
        t = { s.homeWrite .other pa rep with firm := { (s.homeWrite .other pa rep).firm with pldRun := true, pldErr := 0 } }))) ∧
    (s.firm.pldState = 1 → s.firm.pldRun = true → Gives .pldcmdComplete s (fun t =>
      t = { s with firm := { s.firm with pldState := if s.firm.pldErr = 0 then 2 else 3, pldRun := false } })) ∧
    (s.firm.pldState = 1 → s.firm.pldRun = false → s.pldOp 1 = none → s.pldOp 2 = none → s.pldOp 3 = none → Gives .pldcmdComplete s (fun t =>
      t = { s with firm := { s.firm with pldState := 3, pldErr := 1 } })) ∧
    (s.firm.pldState ≠ 1 ∨ (s.firm.pldRun = false ∧ (s.pldOp 1 ≠ none ∨ s.pldOp 2 ≠ none ∨ s.pldOp 3 ≠ none)) →
      Gives .pldcmdComplete s (fun t => t = s)) ∧
    (listed → Gives (.pcownWrite core v) s (fun t => t = { s with firm := { s.firm with prstat := 2 } })) ∧
    (¬listed → (kid ≠ 0 ∧ (s.keySlot kid).valid = false) ∨ holds →
      Gives (.pcownWrite core v) s (fun t => t = { s with firm := { s.firm with prstat := 1 } })) ∧
    (¬listed → kid = 0 ∨ (s.keySlot kid).valid = true → ¬holds → Gives (.pcownWrite core v) s (fun t =>
      t = { s with cores := t.cores, firm := { s.firm with prstat := 0 } } ∧ t.core core = { s.core core with slot := kid } ∧
      ∀ d, d ≠ core → t.core d = s.core d)) ∧
    (wbit v 8 = true → kid ≠ 0 → s.armedFor kid = true →
      Gives (.kflush v) s (fun t => t = { s with firm := { s.firm with kfSlot := kid, kfDone := false } })) ∧
    (wbit v 8 = false ∨ kid = 0 ∨ s.armedFor kid = false → Gives (.kflush v) s (fun t => t = s)) ∧
    (s.firm.kfDone = true → Gives .kflushDone s (fun t => t = s)) ∧
    (s.firm.kfDone = false → Gives .kflushDone s (fun t => t.firm.kfDone = true ∧
      (∀ e ∈ t.hc, paKey (128 * e.line) ≠ s.firm.kfSlot) ∧ (∀ e ∈ t.l1, paKey (128 * e.line) ≠ s.firm.kfSlot) ∧
      (∀ e ∈ t.l2, paKey (128 * e.line) ≠ s.firm.kfSlot) ∧
      (∀ e ∈ t.rdc, paKey (128 * e.line) ≠ s.firm.kfSlot) ∧ (∀ e ∈ t.parts, paKey (128 * tagLine e.pa) ≠ s.firm.kfSlot) ∧
      (s.armedFor s.firm.kfSlot = true → (t.keySlot s.firm.kfSlot).flushed = true))) ∧
    (kid = 0 ∨ s.armedFor kid = false ∨ (s.keySlot kid).flushed = false →
      Gives (.kszero v) s (fun t => t = { s with firm := { s.firm with prstat := 1 } })) ∧
    (kid ≠ 0 → s.armedFor kid = true → (s.keySlot kid).flushed = true → Gives (.kszero v) s (fun t =>
      t = { s with firm := t.firm } ∧ t.firm.prstat = 0 ∧
      t.keySlot kid = { s.keySlot kid with valid := false, zero := true, ver := s.firm.nextVer } ∧
      ∀ j, j ≠ kid → t.keySlot j = s.keySlot j))

/-- R376 to R381, R388: a legal job is taken over, its owner's teams torn down, its cores held active, its slot and cores marked
busy; a refused arm or start sets err and changes nothing else of the Fuller; the job is armed and journalled once no team, query or
transfer of the owner remains and the accesses that were checked before are done; it starts once its key has been destroyed; each
unit zeroes its 4 KiB and no other byte, and no cache, no partial and no host copy holds a line of it, a finished core's arrays are
cleared, the checkpoint follows at each multiple of 1,024, and at the end the slot and the cores are free and the entry is gone from
flash. Otherwise the events change nothing. (Model: when a job is journalled: log 48; a descriptor that cannot be read: log 46.) -/
def Obligations.FullerJobs : Prop :=
  ∀ (j : Job) (s : State),
    let d := s.sel
    let f := s.fuller d
    let f5 := if f.state = 5 then { Fuller.fresh with desc := f.desc, err := f.err } else f
    let blk := (s.jobBlock f.desc.toNat).1
    let t0 := (s.jobBlock f.desc.toNat).2
    let n := f.done
    let coreDue := f.cdone < j.cores.length ∧ j.unitsTo (f.cdone + 1) ≤ n
    let runs := f.state = 3 ∨ f.state = 4
    let way := j.ways.getD (n / 16) (0, 0)
    let page := pageUnit j.ranges (n - j.shmUnits)
    let c := j.cores.getD f.cdone 0
    let noted (t : State) := t.firm.journal =
      if (n + 1) % 1024 = 0 then s.firm.journal.map (fun (e : Journal) => if e.die = d then { e with check := n + 1 } else e) else s.firm.journal
    let remains := (∃ y ∈ s.teams, y.phase ≠ .ended ∧ (s.launch y.launch).asid = j.asid) ∨ (∃ q ∈ s.queries, satpAsid q.satp = j.asid) ∨
      ∃ e ∈ s.xfers, s.teamAsid e.team = j.asid
    let listed (pa : Nat) : Prop := paKey pa = j.slot ∨ ∃ r ∈ j.ranges, r.1 ≤ paLow pa ∧ paLow pa < r.1 + 4096 * r.2
    let pending := (∃ h ∈ s.resident, h.checked = true) ∨ ∃ e ∈ s.ships, e.ran = false ∧ listed e.pa
    let vec (t : State) := wbit (s.fe.msixMask.setWidth 64) 7 = true → wbit (t.fe.msixPend.setWidth 64) 7 = true
    (f5.state = 0 → s.jobOf blk = some j → Gives .fullerArm s (fun t =>
      t.fuller d = { f5 with state := 1, slot := j.slot, done := 0, total := j.total, cdone := 0, job := some j } ∧
      (t.keySlot j.slot).busy = true ∧ (t.keySlot j.slot).flushed = false ∧
      (∀ c ∈ j.cores, (t.core c).busy = true ∧ (t.core c).power = .active) ∧
      ∀ y ∈ s.teams, (s.launch y.launch).asid = j.asid → y.phase ≠ .ended →
        (t.team y.id).killed = true ∧ (y.phase = .waiting → (t.team y.id).phase = .ended))) ∧
    (f5.state ≠ 0 ∨ s.jobOf blk = none → Gives .fullerArm s (fun t =>
      t = { t0 with dies := t.dies } ∧ t.fuller d = { f5 with err := true } ∧ ∀ e, e ≠ d → t.die e = t0.die e)) ∧
    (f.state ≠ 1 ∨ f.job = none → Gives .fullerArmed s (fun t => t = s)) ∧
    (f.state = 1 → f.job = some j → remains ∨ pending → Gives .fullerArmed s (fun t => t = s)) ∧
    (f.state = 1 → f.job = some j → ¬remains → ¬pending → Gives .fullerArmed s (fun t =>
      t = { s with dies := t.dies, firm := t.firm, fe := t.fe } ∧ t.fuller d = { f with state := 2 } ∧
      t.firm = { s.firm with journal := s.firm.journal ++ [⟨d, j, 0⟩] } ∧ vec t)) ∧
    (f.state = 2 → (s.keySlot f.slot).zero = true → Gives .fullerStart s (fun t =>
      t = { s with dies := t.dies } ∧ t.fuller d = { f with state := 3 })) ∧
    (f.state ≠ 2 ∨ (s.keySlot f.slot).zero = false → Gives .fullerStart s (fun t =>
      t = { s with dies := t.dies } ∧ t.fuller d = { f with err := true })) ∧
    (f.job = some j → runs →
      (coreDue → Gives .fullerUnit s (fun t => t = { s with cores := t.cores, dies := t.dies } ∧
        t.fuller d = { f with cdone := f.cdone + 1 } ∧
        t.core c = { (s.core c).scrub.foldl Core.scrubbed (s.core c) with act := [], wgt := [], acc := [], scrub := [] } ∧
        ∀ e, e ≠ c → t.core e = s.core e)) ∧
      (¬coreDue → n < f.total → n < j.shmUnits → Gives .fullerUnit s (fun t =>
        t = { s with cores := t.cores, dies := t.dies, firm := t.firm } ∧ t.fuller d = { f with done := n + 1 } ∧ noted t ∧
        (∀ i, i < 4096 → fget 0 (t.core way.1).shm (65536 * way.2 + 4096 * (n % 16) + i) = 0) ∧
        (∀ i, i < 65536 * way.2 + 4096 * (n % 16) ∨ 65536 * way.2 + 4096 * (n % 16) + 4096 ≤ i →
          fget 0 (t.core way.1).shm i = fget 0 (s.core way.1).shm i) ∧
        ∀ e, e ≠ way.1 → t.core e = s.core e)) ∧
      (¬coreDue → n < f.total → j.shmUnits ≤ n → page % 4096 = 0 → page + 4096 ≤ 2 ^ 46 → Gives .fullerUnit s (fun t =>
        t.fuller d = { f with done := n + 1 } ∧ noted t ∧
        (let inPage (ln : Nat) : Prop := page / 128 ≤ ln % 2 ^ 39 ∧ ln % 2 ^ 39 < page / 128 + 32
        (∀ e ∈ t.hc, ¬inPage e.line) ∧ (∀ e ∈ t.l1, ¬inPage e.line) ∧ (∀ e ∈ t.parts, ¬inPage (tagLine e.pa)) ∧
          ∀ e ∈ t.hostMod, ¬inPage e) ∧
        (∀ i, i < 4096 → memGet t.mem (page + i) = 0) ∧
        ∀ a, (a < page ∨ page + 4096 ≤ a) → memGet t.mem a = memGet s.mem a)) ∧
      (¬coreDue → f.total ≤ n → Gives .fullerUnit s (fun t => t = s)) ∧
      (n = f.total → f.cdone = j.cores.length → Gives .fullerDone s (fun t =>
        t = { s with cores := t.cores, dies := t.dies, firm := t.firm, fe := t.fe } ∧ t.fuller d = { f with state := 5, job := none } ∧
        t.keySlot j.slot = KeySlot.fresh ∧ (∀ c ∈ j.cores, (t.core c).slot = 0 ∧ (t.core c).busy = false) ∧
        t.firm.journal = s.firm.journal.filter (fun e => e.die != d) ∧ vec t)) ∧
      (n ≠ f.total ∨ f.cdone ≠ j.cores.length → Gives .fullerDone s (fun t => t = s))) ∧
    (f.job = none ∨ ¬runs → Gives .fullerUnit s (fun t => t = s) ∧ Gives .fullerDone s (fun t => t = s))

/-! ## Debug, power, time and the fabric -/

/-- R382, external debug 1.0 (log 8): the requests of the external debugger act in the invasive state alone, on no Polder's hart,
core or key id, CORESTAT and PCOWN of its cores among them. A hart at a boundary halts, its wait withdrawn, a queue request that
could be served before; an abstract command reads or writes a register of a halted hart; a system-bus access acts as the host's of
the same target; a halted hart goes on from dpc, below M mode with MPRV clear, for one instruction where it single-steps. -/
def Claims.debugs (s : State) : Prop :=
  let f := s.firm
  (∀ st : BitVec 2, (st ≠ 3 → Gives (.debugStateSet st) s (fun t => t = { s with firm := { f with dbg := st } })) ∧
    (st = 3 → Gives (.debugStateSet st) s (fun t => t = s))) ∧
  (f.dbg ≠ 2 → ∀ r g single, Gives (.debugHaltRequest r) s (fun t => t = s) ∧ Gives (.debugResumeRequest g single) s (fun t => t = s)) ∧
  (f.dbg = 2 → ∀ (g reg pa : Nat) (v : Word) (single : Bool),
    let m := s.qMeets g
    let h := m.hartOf g
    let w := (m.focus g).withdraw
    let r := s.hartOf g
    let old := r.dbg
    let dcsr := if single = true then wputb old.dcsr 2 true else old.dcsr
    let abs (Q : Hart → Prop) := Gives (.debugHaltRequest (.abstract s.hart.gid reg (some v))) s (fun t => ∃ q : Hart, t = { s with hart := q } ∧ Q q)
    (h.run.isHart = true → m.polderHart g = false → h.dbg.halted = false → h.atBoundary = true → Gives (.debugHaltRequest (.halt g)) s (fun t =>
      t = (w.onHart (fun k => k.debugEnter 3)).focus m.hart.gid ∧ (t.hartOf g).dbg.halted = true ∧ (t.hartOf g).dbg.dpc = w.hart.pc ∧
      wfield (t.hartOf g).dbg.dcsr 6 3 = 3 ∧ wfield (t.hartOf g).dbg.dcsr 0 2 = w.hart.mode.code)) ∧
    (h.run.isHart = false ∨ m.polderHart g = true ∨ h.dbg.halted = true ∨ h.atBoundary = false →
      Gives (.debugHaltRequest (.halt g)) s (fun t => t = m)) ∧
    (s.polderHart g = true ∨ old.halted = false → ∀ o, Gives (.debugHaltRequest (.abstract g reg o)) s (fun t => t = s)) ∧
    Gives (.debugHaltRequest (.abstract g reg none)) s (fun t => t = s) ∧
    (s.polderHart s.hart.gid = false → s.hart.dbg.halted = true →
      (0x1000 ≤ reg → reg < 0x1020 → abs (XWritten s.hart (BitVec.ofNat 5 (reg - 0x1000)) v)) ∧
      (0x1020 ≤ reg → reg < 0x1040 → abs (fun q => q = s.hart.setF (BitVec.ofNat 5 (reg - 0x1020)) v)) ∧
      (reg = 0x7B0 → abs (fun q => q = { s.hart with dbg := { s.hart.dbg with dcsr := dcsrWrite s.hart.dbg.dcsr v } })) ∧
      (reg = 0x7B1 → abs (fun q => q = { s.hart with dbg := { s.hart.dbg with dpc := wputb v 0 false } })) ∧
      (0x1040 ≤ reg → abs (fun q => q = s.hart))) ∧
    (pa % 8 ≠ 0 ∨ s.polderBus pa = true ∨ s.refusal pa 0 ≠ none → ∀ o, Gives (.debugHaltRequest (.sysbus pa o)) s (fun t => t = s)) ∧
    (pa % 8 = 0 → s.polderBus pa = false → s.refusal pa 0 = none →
      (∀ o, Gives (.debugHaltRequest (.sysbus pa o)) s (fun t => t = s.busAccess pa o)) ∧
      (s.region (paLow pa) = .hbm → s.isLost (paLow pa) = false → s.busAccess pa (some v) = s.writeAt .other pa (natToBytes 8 v.toNat)) ∧
      (∀ off, s.region (paLow pa) = .regs off → s.busAccess pa (some v) = s.regWrite .outside off v)) ∧
    (∀ c off, paKey pa = 0 → s.region (paLow pa) = .regs off → (s.core c).slot ≠ 0 → c < 768 →
      regAt off = .die (c / 192) (0x30000 + 8 * (c % 192)) ∨ regAt off = .polder (0x1000 + 8 * c) → s.polderBus pa = true) ∧
    (old.halted = true → Gives (.debugResumeRequest g single) s (fun t => ∃ ms : Word, t = s.putHart { r with
        gid := g, pc := old.dpc, mode := Priv.ofCode (wfield dcsr 0 2), csr := { r.csr with mstatus := ms }
        dbg := { old with halted := false, dcsr := dcsr, step := wbit dcsr 2 } } ∧
      (∀ j, j ≠ 17 → ms.getLsbD j = r.csr.mstatus.getLsbD j) ∧
      ms.getLsbD 17 = (r.csr.mstatus.getLsbD 17 && decide (Priv.ofCode (wfield dcsr 0 2) = .m)))) ∧
    (old.halted = false → Gives (.debugResumeRequest g single) s (fun t => t = s)))

/-- R385: what the boot ROM accepts. -/
def Claims.imageAccepted (img : List Byte) : Prop :=
  imageOk img = true ↔ img.take 4 = [0x48#8, 0x4A#8, 0x46#8, 0x57#8] ∧ img.length = 128 + (Config.imageHeader (img.take 64)).2 ∧
    (Config.imageHeader (img.take 64)).2 ≤ 229376 ∧ Config.fusedVersion ≤ (Config.imageHeader (img.take 64)).1 ∧ Config.imageSigned img = true

/-- R381 to R386: the debug state and what external debug may do; the power states of cores and of the package, with the requests
that are refused; bring-up makes its steps in order, a failed or refused image leaves recovery, any other failure stops it at its
step, and the last step waits for the resumed jobs; in recovery an accepted image is written and the part resets; what a loss of
power leaves. (Model: the debugger's operations follow debug 1.0: logs 8 and 44; the image's header and signature are free: log 18;
CXL and its decoders: log 61; what the counters hold after a core was off: log 76.) -/
def Obligations.DebugAndPower : Prop :=
  ∀ (c : Nat) (on b : Bool) (img : List Byte) (e : Journal) (p : CorePower) (s : State),
    let h := s.hart
    let k := s.core c
    let f := s.firm
    let n := f.step + 1
    let job := s.inJob c = true
    let left (t : State) : Prop := t.mem = s.mem ∧ t.keyOf = s.keyOf ∧ t.fe.bplist = s.fe.bplist ∧ t.firm.journal = f.journal ∧
      t.firm.image = f.image ∧ t.places = [] ∧ t.cores = [] ∧ t.teams = [] ∧ t.launches = [] ∧ t.firm.step = 0 ∧ t.firm.keys = [] ∧
      t.firm.dbg = 0 ∧ t.firm.nextVer = f.nextVer ∧ t.lost = [] ∧ t.clock = 0 ∧ t.stopped = false
    let settled := Claims.CoreOnly (s.settleScnt c) (s.corePower c p) c { (s.settleScnt c).core c with power := p }
    let goes := f.power = .active ∧ f.fail = false ∧ n ≤ 8 ∧ (n = 8 → f.journal = [])
    Claims.debugs s ∧ settled ∧
    Gives (.powerStateRequest (.coreActive c)) s (fun t => t = s.wakeCore c ∧ (k.power ≠ .off → t = s.corePower c .active) ∧
      (k.power = .off → Claims.CoreOnly s t c { k with
        scAt := (t.core c).scAt, power := .active, act := [], wgt := [], acc := [], shm := [], sems := [], mtxs := [], scnt := [], scEn := true, scWrap := 0 })) ∧
    (¬job → Gives (.powerStateRequest (.coreIdle c)) s (fun t => t = (s.wakeCore c).corePower c .idle) ∧
      Gives (.powerStateRequest (.coreRetention c)) s (fun t => t = (s.wakeCore c).corePower c .retention)) ∧
    (job → Gives (.powerStateRequest (.coreIdle c)) s (fun t => t = s) ∧ Gives (.powerStateRequest (.coreRetention c)) s (fun t => t = s)) ∧
    (¬job → s.coreHolds c = false → Gives (.powerStateRequest (.coreOff c)) s (fun t => t = s.corePower c .off)) ∧
    (job ∨ s.coreHolds c = true → Gives (.powerStateRequest (.coreOff c)) s (fun t => t = s)) ∧
    (f.power = .standby → Gives (.powerStateRequest .packageActive) s (fun t => t = { s with firm := { f with power := .active } })) ∧
    (f.power ≠ .standby → Gives (.powerStateRequest .packageActive) s (fun t => t = s)) ∧
    (let free := s.jobs = [] ∧ ∀ y ∈ s.teams, y.phase ≠ .running ∧ y.phase ≠ .evicting ∧ y.phase ≠ .evicted;
      (f.power = .active → free →
        Gives (.powerStateRequest .packageStandby) s (fun t => t = { s with firm := { f with power := .standby } })) ∧
      (f.power ≠ .active ∨ ¬free → Gives (.powerStateRequest .packageStandby) s (fun t => t = s))) ∧
    Gives (.powerStateRequest .packageOff) s (fun t => left t ∧ t.firm.power = .off) ∧
    Gives .powerLoss s (fun t => left t ∧ t.firm.power = .off) ∧ Gives .moduleReset s (fun t => left t ∧ t.firm.power = .active) ∧
    Gives (.powerLimitThrottle on) s (fun t => ∃ u, u = (List.range 768).foldl State.settleScnt s ∧ u = { s with cores := u.cores } ∧
      t = { u with firm := { f with throttle := on } }) ∧
    Claims.imageAccepted img ∧
    (goes → (n = 2 → imageOk f.image = true) →
      Gives (.bringUp false) s (fun t => t.firm.step = n ∧ t.firm.fail = false ∧ t.mem = s.mem ∧ t.hart = h ∧
        (n = 2 → t.firm.booted = f.image) ∧
        (n = 3 → t.firm.dbg = 0 ∧ (∀ j, 1 ≤ j → t.keySlot j = KeySlot.fresh) ∧ t.keyVer 0 = f.nextVer ∧ t.firm.nextVer = f.nextVer + 1) ∧
        (n = 4 → t.cores = [] ∧ t.l1 = [] ∧ t.glob ≤ 48 ∧ ∀ d, d < 4 → (t.die d).dd ≤ 48 - t.glob) ∧
        (n = 5 → t.cxl = s.cxl ∨ (t.cxl = true ∧ t.hdm.length = 4 ∧ ∀ r ∈ t.hdm, r.1 % 2 ^ 28 = 0 ∧ r.2 % 2 ^ 28 = 0 ∧
          ∀ a, r.1 ≤ a → a < r.1 + r.2 → a < windowEnd a ∧ windowEnd a = windowEnd r.1)) ∧
        (n = 7 → t = { f.journal.foldl State.resumeJob s with firm := t.firm }) ∧
        (n = 8 → t.firm.drtab.toNat % 2 ^ 16 = 0x7F))) ∧
    ((s.resumeJob e).fuller e.die = ⟨0, 4, false, e.job.slot, e.check, e.job.total, e.job.cores.length, some e.job⟩ ∧
      (s.resumeJob e).keySlot e.job.slot = { s.keySlot e.job.slot with asid := e.job.asid, valid := false, busy := true, zero := true } ∧
      ∀ c ∈ e.job.cores, ((s.resumeJob e).core c).slot = e.job.slot ∧ ((s.resumeJob e).core c).busy = true) ∧
    (goes → n = 2 → b = true ∨ imageOk f.image = false → Gives (.bringUp b) s (fun t => t = { s with firm := { f with step := 0x0E } })) ∧
    (goes → n ≠ 2 → Gives (.bringUp true) s (fun t => t = { s with firm := { f with step := n, fail := true } })) ∧
    (¬goes → Gives (.bringUp b) s (fun t => t = s)) ∧
    (f.step = 0x0E → imageOk img = true → Gives (.recoveryImage img) s (fun t =>
      t.firm.image = img ∧ t.firm.step = 0 ∧ t.firm.power = .active ∧ t.mem = s.mem ∧ t.places = [])) ∧
    (f.step ≠ 0x0E ∨ imageOk img = false → Gives (.recoveryImage img) s (fun t => t = s))

/-- R349, R350: a message of the selected source corrects device time: by a step forward of more than 1 ms, else by slewing, and the
offset is what was measured, saturated (log 60: its sign); TMSET sets device time while it runs free and no launch with a deadline
has not ended; a source that has been silent for its time leaves holdover; the 1PPS output rises once at a second; slewing moves
device time by no more than one ns in 5,000, toward what is owed, so that time never goes back; TMCTL holds its fields, and a new
source is acquired. (Model: TMSTAT's transitions: log 48.) -/
def Obligations.DeviceTime : Prop :=
  ∀ (time delay v : Word) (e clk : Nat) (s : State),
    let t0 := s.time
    let src := wfield t0.tmctl 0 2
    let owed : Int := (time.toNat + delay.toNat : Nat) - s.dtime
    let sec := (s.dtime + 8) / 10 ^ 9
    let n := t0.slewed e
    let w := t0.writeCtl clk v
    let silent := src ≠ 0 ∧ (t0.state = 1 ∨ t0.state = 2) ∧ t0.last + (if src = 1 then 4 * Config.announceInterval else 10 ^ 9) ≤ s.clock
    let rises := wbit t0.tmctl 16 = true ∧ (s.dtime + 8) % 10 ^ 9 ≤ 16 ∧ sec ≠ t0.pps
    let deadlines := ∃ l ∈ s.launches, l.ended = false ∧ l.deadline ≠ 0
    (src = 1 ∨ src = 2 → Gives (.ptpMessage time delay) s (fun t => t = { s with time := t.time } ∧ t.time.state = 2 ∧ t.time.last = s.clock ∧
      t.time.offset.toInt = max (-(2 ^ 31)) (min (-owed) (2 ^ 31 - 1)) ∧
      (1000000 < owed → t.time.skew = t0.skew + owed ∧ t.time.slew = 0) ∧
      (owed ≤ 1000000 → t.time.skew = t0.skew ∧ t.time.slew = owed))) ∧
    (src ≠ 1 → src ≠ 2 → Gives (.ptpMessage time delay) s (fun t => t = s)) ∧
    (src = 0 → ¬deadlines → Gives (.tmsetWrite v) s (fun t => t = { s with time := t.time } ∧ t.dtime = v.toNat)) ∧
    (src ≠ 0 ∨ deadlines → Gives (.tmsetWrite v) s (fun t => t = s)) ∧
    (silent → Gives .timeHoldover s (fun t => t = { s with time := { t0 with state := 3 } })) ∧
    (¬silent → Gives .timeHoldover s (fun t => t = s)) ∧
    (rises → Gives .ppsOutputEdge s (fun t => t = { s with time := { t0 with pps := sec } })) ∧
    (¬rises → Gives .ppsOutputEdge s (fun t => t = s)) ∧
    (n.skew + n.slew = t0.skew + t0.slew ∧ (n.slew - t0.slew).natAbs ≤ (t0.frac + e) / 5000 ∧
      (0 ≤ t0.slew → 0 ≤ n.slew ∧ n.slew ≤ t0.slew) ∧ (t0.slew ≤ 0 → n.slew ≤ 0 ∧ t0.slew ≤ n.slew) ∧
      (t0.frac < 5000 → n.frac < 5000 ∧ t0.skew ≤ (e : Int) + n.skew)) ∧
    (wfield w.tmctl 0 6 = wfield v 0 6 ∧ wfield w.tmctl 8 9 = wfield v 8 9 ∧ wfield w.tmctl 6 2 = 0 ∧ wfield w.tmctl 17 47 = 0 ∧
      w.skew = t0.skew ∧ w.slew = t0.slew ∧
      (wfield v 0 2 = 0 ∨ wfield v 0 2 = 3 → w.state = 0) ∧
      (wfield v 0 2 = 1 ∨ wfield v 0 2 = 2 → wfield v 0 2 = src → w.state = t0.state) ∧
      (wfield v 0 2 = 1 ∨ wfield v 0 2 = 2 → wfield v 0 2 ≠ src → w.state = 1 ∧ w.last = clk))

/-- R397, R398, R400: host accesses to memory. A read of HBM that a decoder maps is tracked, a read to modify takes the line; a
write stores its bytes and ends what the host held modified; a write of the host window is the host's own store. A refused access
and a partial write to a lost line are posted and change nothing else. -/
def Claims.hostAccesses (pa n : Nat) (own : Bool) (bytes : List Byte) (s : State) : Prop :=
  let mapped := ∃ r ∈ s.hdm, r.1 ≤ pa ∧ pa < r.1 + r.2
  let free := mapped ∧ s.refusal pa 0 = none ∧ paKey pa = 0 ∧ s.region (paLow pa) = .hbm
  let posted (t : State) : Prop := t = s.postFault (s.homeDie (paLow pa)) 6 pa ∧ t.mem = s.mem
  let rd := Instr.hostCxlMemRead ⟨pa, n⟩ own
  let wr := Instr.hostCxlMemWrite pa bytes
  let one := 0 < n ∧ pa % 128 + n ≤ 128
  let fits := 0 < bytes.length ∧ pa % 128 + bytes.length ≤ 128
  let lost := s.isLost (paLow pa) = true
  (s.cxl = false ∨ ¬one → Gives rd s (fun t => t = s)) ∧
  (s.cxl = true → one → ¬free → Gives rd s posted) ∧
  (s.cxl = true → one → free → lost → Gives rd s (fun t => t = s)) ∧
  (s.cxl = true → one → free → ¬lost → Claims.Quiet s → Gives rd s (fun t =>
    t = { s with hostHas := [tagLine pa], hostMod := if own then [tagLine pa] else [], l2 := t.l2 })) ∧
  (¬fits → Gives wr s (fun t => t = s)) ∧
  (fits → ∀ o, s.region (paLow pa) = .host o → Gives wr s (fun t => t = (s.drainPort 8).poke (paLow pa) bytes)) ∧
  (fits → (∀ o, s.region (paLow pa) ≠ .host o) →
    (s.cxl = false → Gives wr s (fun t => t = s)) ∧
    (s.cxl = true → ¬free ∨ (lost ∧ bytes.length ≠ 128) → Gives wr s posted) ∧
    (s.cxl = true → free → ¬lost ∨ bytes.length = 128 → Claims.Quiet s →
      Gives wr s (fun t => t.peek pa bytes.length = bytes ∧ t.isLost (paLow pa) = false ∧ Claims.KeepsBut s t pa bytes.length))) ∧
  Gives .backInvalidateResponse s (fun t => (∀ l, l ∈ t.hostHas ↔ l ∈ s.hostHas ∧ l ≠ s.sel) ∧ (∀ l, l ∈ t.hostMod ↔ l ∈ s.hostMod ∧ l ≠ s.sel) ∧
    (s.sel ∉ s.hostMod → t = { s with hostHas := t.hostHas }))

/-- R346, R372, R393, R396: a register written from outside takes its fields; a write that is refused, or is no aligned access of 8
bytes, is posted, but for the vector table, whose mask bits are written by 8 bytes or by the 4 of their word; in recovery none acts.
A read clears what it clears; one that is refused, or is no aligned access of 8 bytes, clears nothing and is posted. -/
def Claims.outsideRegisters (pa n p b d core st : Nat) (v : Word) (s : State) : Prop :=
  let live := s.firm.step ≠ 0x0E
  let fe := regBase + feBase
  let die := regBase + dieBase + 0x100000 * d
  let wr (a : Nat) := Gives (.registerWrite ⟨a, 8⟩ v) s
  let clears (a : Nat) (Q : State → Prop) := s.sel = a → Gives .readClearRegisterRead s Q
  let posted (t : State) : Prop := t = s.postFault 0 6 pa ∧ t.mem = s.mem
  (s.firm.step = 0x0E → Gives (.registerWrite ⟨pa, n⟩ v) s (fun t => t = s) ∧ Gives .readClearRegisterRead s (fun t => t = s)) ∧
  (live → pa < 2 ^ 52 → paKey pa ≠ 0 ∨ pa % 8 ≠ 0 ∨ n ≠ 8 → Gives (.registerWrite ⟨pa, n⟩ v) s posted) ∧
  (live → pa < 2 ^ 46 → pa % 8 = 0 → ∀ off, s.region pa = .regs off →
    (regAt off = .none → Gives (.registerWrite ⟨pa, 8⟩ v) s posted) ∧
    (regAt off ≠ .none → Gives (.registerWrite ⟨pa, 8⟩ v) s (fun t => t = s.regWrite .outside off v))) ∧
  (live → pa < 2 ^ 46 → pa % 8 = 0 → ∀ off, s.region pa = .notify off → Gives (.registerWrite ⟨pa, 8⟩ v) s (fun t => t = s.notifyWrite off v)) ∧
  (live → b < 16 →
    (∀ o k i, (o = 8 ∧ k = 8 ∧ i = 32) ∨ (o = 12 ∧ k = 4 ∧ i = 0) →
      Gives (.registerWrite ⟨2 ^ 52 + 16 * b + o, k⟩ v) s (fun t => t = { s with fe := { s.fe with
        msixMask := t.fe.msixMask, msixPend := t.fe.msixPend } } ∧ t.fe.msixMask.getLsbD b = wbit v i ∧
        (wbit v i = false → t.fe.msixPend.getLsbD b = false) ∧ (wbit v i = true → t.fe.msixPend = s.fe.msixPend) ∧
        ∀ j, j ≠ b → t.fe.msixMask.getLsbD j = s.fe.msixMask.getLsbD j ∧ t.fe.msixPend.getLsbD j = s.fe.msixPend.getLsbD j)) ∧
    ∀ o k, o < 16 → ¬(o = 8 ∧ k = 8) → ¬(o = 12 ∧ k = 4) → Gives (.registerWrite ⟨2 ^ 52 + 16 * b + o, k⟩ v) s (fun t => t = s)) ∧
  (live → pa < 2 ^ 52 → 1 ≤ n → s.sel = pa + 2 ^ 56 * n → paKey pa ≠ 0 ∨ pa % 8 ≠ 0 ∨ n ≠ 8 → Gives .readClearRegisterRead s posted) ∧
  (live → pa < 2 ^ 46 → pa % 8 = 0 → s.sel = pa ∨ s.sel = pa + 2 ^ 56 * 8 → ∀ off, s.region pa = .regs off →
    (regAt off = .none → Gives .readClearRegisterRead s posted) ∧
    (regAt off ≠ .none → Gives .readClearRegisterRead s (fun t => t = s.regClear .outside off))) ∧
  (live →
    wr (fe + 0x400) (fun t => t = { s with fe := { s.fe with fespill := BitVec.ofNat 64 (wfield v 0 32) } }) ∧
    (p < 8 → wr (fe + 0x800 + 0x40 * p + 8) (fun t => t = { s with ports := t.ports } ∧
      (t.port p).tmo = max 1 (min (wfield v 0 32) 1000000) ∧ ∀ q, q ≠ p → t.port q = s.port q)) ∧
    (d < 4 → wr (die + 8) (fun t => (t.die d).tlbva = BitVec.ofNat 64 (wfield v 12 45 * 4096))) ∧
    (core < 768 → (s.core core).state = 1 → wfield v 16 3 = 1 → d = core / 192 → wr (die + 0x30000 + 8 * (core % 192)) (fun t =>
      t.core core = { s.core core with state := 2 })) ∧
    (d < 4 → clears (die + 0x60000) (fun t => (t.die d).faq = (s.die d).faq.tail)) ∧
    (d < 4 → clears (die + 0x60008) (fun t => t.die d = { s.die d with faqDrop := 0 })) ∧
    (p < 8 → clears (fe + 0x800 + 0x40 * p + 0x10) (fun t => t.port p = { s.port p with disc := 0 })) ∧
    (b < 4 → clears (fe + 0xC00 + 8 * b) (fun t => (t.bound b).rtr = 0 ∧ (t.bound b).crc = 0 ∧ (t.bound b).deg = (s.bound b).deg)) ∧
    (st < 16 → clears (regBase + dredgeBase + 0x1000 * st) (fun t => fget 0 t.hoff st = 0)))

/-- R372, R394 to R398, R400 to R404: host accesses; a port's window goes online by FMCTL, and offline when its link goes down, when
a request at it waits for its timeout or when the driver asks and nothing is held there, and then the stores buffered there are
discarded, posted and counted, but for the driver's request, before which they are performed; a link trains and is then up; a held
access completes; a boundary that retrains is counted, and one that cannot stops the package; the registers seen from outside.
(Model: the block bases of registers: log 40; kinds of entries: log 30; the decoders: log 61; a link's training: log 48.) -/
def Obligations.HostAndPorts : Prop :=
  ∀ (pa n p b d core st : Nat) (own : Bool) (bytes : List Byte) (v : Word) (s : State),
    let o := s.port p
    let sp := s.port s.sel
    let mine := s.farBuf.filter (fun e => e.port == s.sel)
    let offline (cause : Nat) (link : Bool) (t : State) : Prop := (t.port s.sel).state = 2 ∧ (t.port s.sel).cause = cause ∧
      (t.port s.sel).online = false ∧ (t.port s.sel).link = link ∧ (t.port s.sel).offAt = s.clock ∧
      (mine = [] → (t.port s.sel).disc = sp.disc) ∧
      (mine ≠ [] → (t.port s.sel).disc = (sp.disc + ((mine.map (fun e => (tagLine e.pa, e.tick))).eraseDups).length) % 2 ^ 32) ∧
      t.farBuf = s.farBuf.filter (fun e => e.port != s.sel) ∧ t.mem = s.mem ∧ t.hart = s.hart ∧
      (wbit (s.fe.msixMask.setWidth 64) 3 = true → wbit (t.fe.msixPend.setWidth 64) 3 = true)
    let overdue := (∃ h ∈ s.resident, h.farHeld s.sel = true ∧ h.waitFrom + 1000 * sp.tmo ≤ s.clock) ∨
      ∃ e ∈ s.farBuf, e.port = s.sel ∧ e.since + 1000 * sp.tmo ≤ s.clock
    let vec4 (t : State) := wbit (s.fe.msixMask.setWidth 64) 4 = true → wbit (t.fe.msixPend.setWidth 64) 4 = true
    Claims.hostAccesses pa n own bytes s ∧ Claims.outsideRegisters pa n p b d core st v s ∧
    (p < 8 → o.link = true → wbit v 0 = true → Gives (.fmctlOnline p v) s (fun t => t = { s with ports := t.ports } ∧
      t.port p = { o with state := 1, online := true } ∧ ∀ q, q ≠ p → t.port q = s.port q)) ∧
    (p < 8 → o.link = true → wbit v 0 = false →
      (o.state = 1 → (∀ h ∈ s.resident, h.farHeld p = false) → Gives (.fmctlOnline p v) s (fun t =>
        (t.port p).state = 2 ∧ (t.port p).cause = 3 ∧ (t.port p).online = false ∧ (t.port p).disc = o.disc ∧
        t.farBuf = s.farBuf.filter (fun e => e.port != p))) ∧
      (o.state ≠ 1 ∨ (∃ h ∈ s.resident, h.farHeld p = true) → Gives (.fmctlOnline p v) s (fun t => t = { s with ports := t.ports } ∧
        t.port p = { o with online := false } ∧ ∀ q, q ≠ p → t.port q = s.port q))) ∧
    (8 ≤ p ∨ o.link = false → Gives (.fmctlOnline p v) s (fun t => t = s)) ∧
    (s.sel < 8 → sp.link = true → sp.state = 1 → Gives .portLinkDown s (offline 1 false)) ∧
    (s.sel < 8 → sp.link = true → sp.state ≠ 1 → Gives .portLinkDown s (fun t => t = { s with ports := t.ports } ∧
      t.port s.sel = { sp with link := false })) ∧
    (8 ≤ s.sel ∨ sp.link = false → Gives .portLinkDown s (fun t => t = s)) ∧
    (s.sel < 8 → sp.state = 1 → overdue → Gives .portTimeout s (offline 2 sp.link)) ∧
    (8 ≤ s.sel ∨ sp.state ≠ 1 ∨ ¬overdue → Gives .portTimeout s (fun t => t = s)) ∧
    (s.sel < 8 → sp.link = false → Gives .portLinkUp s (fun t => t = { s with ports := t.ports } ∧
      (sp.state ≠ 3 → t.port s.sel = { sp with state := 3 }) ∧
      (sp.state = 3 → (t.port s.sel).link = true ∧ (t.port s.sel).state = 2 ∧ 1 ≤ (t.port s.sel).units ∧
        (sp.units ≤ 8192 → (t.port s.sel).units ≤ 8192)))) ∧
    (8 ≤ s.sel ∨ sp.link = true → Gives .portLinkUp s (fun t => t = s)) ∧
    (let waits := (s.hartOf s.sel).answer = none ∧ ∃ ps, (s.hartOf s.sel).run = .waiting (.far ps)
     (waits →
      Gives .farAccessComplete s (fun t => t.hartOf s.sel = { s.hartOf s.sel with gid := s.sel, answer := some 0 })) ∧
     (¬waits → Gives .farAccessComplete s (fun t => t = s))) ∧
    (∀ q, (s.hartOf s.sel).farHeld q = true ↔ (s.hartOf s.sel).answer = none ∧ ∃ ps, (s.hartOf s.sel).run = .waiting (.far ps) ∧ q ∈ ps) ∧
    (b < 4 → Gives (.d2dRetrain b true) s (fun t => t = { s with bounds := t.bounds, fe := t.fe } ∧
      t.bound b = { s.bound b with rtr := min ((s.bound b).rtr + 1) 0xFFFF } ∧ vec4 t)) ∧
    (b < 4 → Gives (.d2dRetrain b false) s (fun t => t = { s with stopped := true })) ∧
    (∀ q, 4 ≤ b → Gives (.d2dRetrain b q) s (fun t => t = s)) ∧
    (s.sel < 4 → Gives .d2dDegrade s (fun t => t = { s with bounds := t.bounds, fe := t.fe } ∧
      t.bound s.sel = { s.bound s.sel with deg := true } ∧ vec4 t)) ∧
    (4 ≤ s.sel → Gives .d2dDegrade s (fun t => t = s))

/-! ## Encoding, reset, the step, and what every step keeps -/

/-- R48, R93, R115, R126, R150, R155, R156, R159, R238, R239, R265, R283: words written out in the spec decode to the instructions
that they stand for. -/
def Obligations.DecodeWords : Prop :=
  let p : LaneHdr := ⟨false, false, false, 0⟩
  decodeTableWord 64 0x00000160501370BF = some (.vclmulN32 0x00000160501370BF#64) ∧
  decodeTableWord 64 0x6A0B82C0A828043F = some (.vfma ⟨false, true, true, 5⟩ (.f32 .rtz) 20 21 22 23) ∧
  decodeTableWord 64 0x000380C02808803F = some (.vfma p .h2 4 5 6 7) ∧
  decodeTableWord 64 0x003661604810023F = some (.vld p ⟨.w, .acq, .die, .normal⟩ 8 9 779) ∧
  decodeTableWord 64 0x00410000080442BF = some (.vscanAdd p .s32 true .g8 2 1) ∧
  decodeTableWord 64 0x01FFFFE0080205BF = some (.vaddi p 0xFFFFF 1 1) ∧
  decodeTableWord 64 0x00000000080645BF = some (.vcmpi p .ne false 0 3 1) ∧
  decodeTableWord 64 0x004500C02010133F = some (.vamoAdd p .f32 .rlx .pkg 10 8 4 6) ∧
  decodeTableWord 64 0x000480002019F33F = some (.vqtdeq p false 4 9 12) ∧
  decodeTableWord 32 0x02D6005B = some (.mxpush 12 13) ∧ decodeTableWord 32 0x000505DB = some (.cpy 11 10) ∧
  decodeTableWord 32 0x00A3700B = some (.hloopi true 10 6) ∧ decodeTableWord 32 0x0800107B = some .mpush ∧
  decodeTableWord 32 0x0201907B = some (.melse 3) ∧ decodeTableWord 32 0xFE01B8FB = some (.bmall 3 0xFF8) ∧
  decodeTableWord 32 0x1050302B = some (.barArw 0 0x105) ∧ decodeTableWord 32 0x02B5502B = some (.semWait 10 11) ∧
  decodeTableWord 32 0x0E04057B = some (.qrsv 10 8) ∧ decodeTableWord 32 0x000AD07B = some (.wrCommit 21) ∧
  decodeTableWord 16 0x0521 = some (.standardInstruction (.aluImm .addi 10 10 8))

/-- R36 to R53, R154: every well-formed instruction has a word, and the decoder reads that word, over its whole length, as the
instruction with all its operands. -/
def Obligations.EncodeDecode : Prop :=
  ∀ i : Instr, i.wf = true → ∃ (e : Encoded) (b : Word), encode i = some e ∧ decode e.bytes = .instr i b e.bytes.length

/-- R24, R65, R70, R291, R352, R386, R396, R401: what a reset leaves, and what a hart holds at its creation. (Model: the values that
the spec does not give are those of logs 5, 6 and 7.) -/
def Obligations.ResetAndCreation : Prop :=
  let r := State.reset
  (r.places = [] ∧ r.firm.step = 0 ∧ r.firm.fail = false ∧ (∀ k, fget 0 r.fe.lqqcb k = 0 ∧ fget 0 r.fe.lqctx k = 0) ∧ r.fe.fespill = 20 ∧
    (∀ j, fget slkReset r.fe.slk j = 0x80000000#64) ∧ r.fe.msixMask = 0xFFFF#16 ∧ r.fe.msixPend = 0 ∧
    (∀ p, (r.port p).state = 0 ∧ (r.port p).tmo = 50 ∧ (r.port p).online = false ∧ (r.port p).disc = 0) ∧
    (∀ c, (r.core c).state = 0 ∧ (r.core c).slot = 0 ∧ (r.core c).busy = false ∧ (r.core c).scEn = true) ∧
    (∀ d, (r.die d).tlbdone = true ∧ (r.die d).faq = [] ∧ (r.fuller d).state = 0) ∧ r.teams = [] ∧ r.launches = [] ∧ r.queries = [] ∧
    Memory.wf r.mem = true ∧ r.stopped = false) ∧
  ∀ (l : Launch) (gid team role num alloc : Nat) (pc x10 x11 : Word),
    let h := l.newHart gid team role num alloc pc x10 x11
    h.pc = pc &&& ~~~1#64 ∧ h.mode = .u ∧ h.run = .ready ∧ h.team = team ∧ h.role = role ∧ h.num = num ∧ h.lalloc = alloc ∧
    h.getX 10 = x10 ∧ h.getX 11 = x11 ∧ (∀ q, q ≠ 10 → q ≠ 11 → h.getX q = 0) ∧ (∀ q, h.getF q = 0) ∧
    h.csr.fflags = 0 ∧ h.csr.frm = 0 ∧ (∀ k i, h.getV k i = 0) ∧ h.getM 0 = 0xFFFFFFFF#32 ∧ (∀ k, k ≠ 0 → h.getM k = 0) ∧
    h.mstk = [] ∧ h.live = 0xFFFFFFFF#32 ∧ h.strm = [] ∧ h.mbpres = 0 ∧ h.uiq = [] ∧ (∀ q, fget 0 h.shadow q = 0) ∧
    h.lpcnt0 = 0 ∧ h.lpbeg0 = 0 ∧ h.lpend0 = 0 ∧ h.lpxe0 = 0 ∧ h.lpcnt1 = 0 ∧ h.lpbeg1 = 0 ∧ h.lpend1 = 0 ∧ h.lpxe1 = 0 ∧
    h.uivec = 0 ∧ h.uiepc = 0 ∧ h.uicause = 0 ∧ h.uiid = 0 ∧ h.uiIe = false ∧ h.uiAct = false ∧ h.barpend = 0 ∧ h.barpc = 0 ∧
    h.lfault = 0 ∧ h.lcomp = 0 ∧ h.csr.sxcause = 0 ∧ h.srseed = l.seed ∧ h.srctr = 0 ∧ h.srhid = gid ∧
    h.csr.scounteren = 0x0007FFFF#64 ∧ h.csr.sscratch = dw l.ctx 3 ∧ h.resv = none ∧ h.wrapup = false

/-- The bytes of an instruction at a physical address, as bits. -/
def Claims.bitsAt (s : State) (a n : Nat) : Nat := leNat ((List.range n).map (fun k => (s.peek (a + k) 1).headD 0))

/-- R31, R32, R77, R382: a step makes the move that stands first, and then time passes. The move of a hart that may run is the event
that is due at its boundary; else, where it executes, debug mode or the breakpoint of a trigger on its pc, the fault of its fetch,
or the instruction that the fetched bits stand for, with the illegal one for bits that are none; one that waits looks again, without
a fetch; a queue request of the hart that can be served is served before; a hart that may not run, or that waits for another agent,
does nothing. The fetched bits are those of the bytes that stand in memory, of the length that the first halfword gives, where the
hart has executed `fence.i` since they were stored. A stopped package makes no move but one that restarts it. (Model: the agenda
that says whose turn it is: log 2; old bytes: log 14.) -/
def Obligations.StepRunsDecoded : Prop :=
  ∀ (i e : Instr) (bits b : Word) (len n a g x : Nat) (r : Reject) (tr : TrapInfo) (rest : List Move) (s s1 : State),
    let u := { s with agenda := rest }
    let pc := u.hart.pc
    let want := instrLen (BitVec.ofNat 16 (Claims.bitsAt u a 2))
    let goes := s.agenda = .run :: rest ∧ s.stopped = false ∧ u.runnable u.hart = true
    let m := u.qMeets u.hart.gid
    let at0 := m.hart.pc
    let runs := goes ∧ m.boundary = none ∧ m.hart.executes = true
    let begins := runs ∧ m.hart.run.isWaiting = false
    let fetches := begins ∧ m.trigHit .fetch at0 = false
    let at_ (k : Instr) := step s = ticked (stepDone m.hart.gid (exec k (s1.onHart (fun h => { h with ir := bits, ilen := len }))))
    (runs → m.hart.run.isWaiting = true → (m.hart.ilen = 8 → at0.toNat % 4 = 0) → decodeBits m.hart.ir = .instr i b n →
      step s = ticked (stepDone m.hart.gid (exec i m))) ∧
    (fetches → m.fetch = (.ok (bits, len), s1) →
      (decodeBits bits = .instr i b n → (len = 8 → at0.toNat % 4 = 0) → at_ i) ∧
      (decodeBits bits = .reject r b n → (len = 8 → at0.toNat % 4 = 0) → at_ (.standardInstruction (.illegal b))) ∧
      (len = 8 → at0.toNat % 4 ≠ 0 → at_ (.standardInstruction (.illegal bits)))) ∧
    (fetches → m.fetch = (.error tr, s1) → step s = ticked (stepDone m.hart.gid (.next (s1.trap tr)))) ∧
    (begins → m.trigHit .fetch at0 = true → step s = ticked (stepDone m.hart.gid (.next (m.breakAt .fetch at0)))) ∧
    (goes → m.boundary = some e → step s = ticked (exec e m)) ∧
    (goes → m.boundary = none → m.hart.executes = false → step s = ticked (.next m)) ∧
    ((∀ p, u.hart.run ≠ .waiting (.queueEnq p) ∧ u.hart.run ≠ .waiting (.queueDeq p)) → u.hartOf u.hart.gid = u.hart → m = u) ∧
    (s.agenda = .run :: rest → s.stopped = false → u.runnable u.hart = false → step s = ticked (.next u)) ∧
    (s.agenda = .focus g :: rest → s.stopped = false → step s = step { u.focus g with agenda := .run :: rest }) ∧
    (s.agenda = .event x i :: rest → s.stopped = false ∨ (Move.event x i).restarts = true → step s = ticked (exec i { u with sel := x })) ∧
    (s.stopped = true → (∀ m r', s.agenda = m :: r' → m.restarts = false) → step s = .fault .packageStopped) ∧
    (u.hart.fenceSeq = u.wlog.length → Claims.Quiet u → (∀ k, k < 8 → u.region (paLow (a + k)) = .hbm) →
      (∀ k v, k < 4 → ({ u with l2 := v }).fetchPa (pc + BitVec.ofNat 64 (2 * k)) = (.ok (a + 2 * k), { u with l2 := v })) →
      (want = 2 ∨ want = 4 ∨ want = 8) → u.fetch.1 = .ok (BitVec.ofNat 64 (Claims.bitsAt u a want), want))

/-- The canonical form of memory is an invariant of every step. (Model: memory that nothing has written reads as 0: log 1.) -/
def Obligations.StepKeepsMemoryCanonical : Prop :=
  ∀ s t : State, Memory.wf s.mem = true → step s = .next t → Memory.wf t.mem = true
end

