-- ==== Sys2Proof/Laws/Files.lean ====
section
/-! SUPPORT. Files and memory: reading after writing, and the canonical form that every write keeps. -/
namespace Sys2Proof.Machine

theorem fget_fput {β : Type} (d : β) (l : File β) (k j : Nat) (v : β) :
    fget d (fput k v l) j = if j = k then v else fget d l j := by
  induction l with
  | nil => rfl
  | cons e r ih =>
    obtain ⟨a, w⟩ := e
    unfold fput
    split_ifs with h1 h2 <;> simp only [fget, ih] <;> split_ifs <;> first | rfl | omega

theorem fget_fdel {β : Type} (d : β) (l : File β) (k j : Nat) :
    fget d (fdel k l) j = if j = k then d else fget d l j := by
  induction l with
  | nil => simp [fdel, fget]
  | cons e r ih =>
    obtain ⟨a, w⟩ := e
    simp only [fdel, List.filter_cons] at ih ⊢
    by_cases h : a = k
    · subst h
      simp only [bne_self_eq_false, Bool.false_eq_true, if_false, ih, fget]
      split_ifs with h
      · rfl
      · rfl
    · simp only [bne_iff_ne, ne_eq, h, not_false_eq_true, if_true, fget, ih]
      split_ifs <;> first | rfl | omega

/-- Reading a file after writing it. -/
@[simp] theorem fget_fset {β : Type} [DecidableEq β] (d : β) (l : File β) (k j : Nat) (v : β) :
    fget d (fset d l k v) j = if j = k then v else fget d l j := by
  unfold fset
  split_ifs with h1 h2 h2 <;> simp [fget_fdel, fget_fput, *]

theorem fwfFrom_mono {β : Type} [DecidableEq β] (d : β) (l : File β) {lo lo' : Nat} (h : lo' ≤ lo)
    (hl : fwfFrom d lo l = true) : fwfFrom d lo' l = true := by
  cases l with
  | nil => rfl
  | cons e r =>
    obtain ⟨a, w⟩ := e
    simp only [fwfFrom, Bool.and_eq_true, decide_eq_true_eq] at hl ⊢
    exact ⟨⟨h.trans hl.1.1, hl.1.2⟩, hl.2⟩

theorem fwfFrom_fput {β : Type} [DecidableEq β] (d : β) (l : File β) (lo k : Nat) (v : β) (hv : v ≠ d) (hk : lo ≤ k)
    (hl : fwfFrom d lo l = true) : fwfFrom d lo (fput k v l) = true := by
  induction l generalizing lo with
  | nil => simp [fput, fwfFrom, hk, hv]
  | cons e r ih =>
    obtain ⟨a, w⟩ := e
    simp only [fwfFrom, Bool.and_eq_true, decide_eq_true_eq] at hl
    unfold fput
    split_ifs with h1 h2
    · simp only [fwfFrom, Bool.and_eq_true, decide_eq_true_eq]
      exact ⟨⟨hk, hv⟩, ⟨by omega, hl.1.2⟩, hl.2⟩
    · subst h2
      simp only [fwfFrom, Bool.and_eq_true, decide_eq_true_eq]
      exact ⟨⟨hk, hv⟩, hl.2⟩
    · simp only [fwfFrom, Bool.and_eq_true, decide_eq_true_eq]
      exact ⟨hl.1, ih (a + 1) (by omega) hl.2⟩

theorem fwfFrom_filter {β : Type} [DecidableEq β] (d : β) (l : File β) (p : Nat × β → Bool) (lo : Nat)
    (hl : fwfFrom d lo l = true) : fwfFrom d lo (l.filter p) = true := by
  induction l generalizing lo with
  | nil => rfl
  | cons e r ih =>
    obtain ⟨a, w⟩ := e
    simp only [fwfFrom, Bool.and_eq_true, decide_eq_true_eq] at hl
    rw [List.filter_cons]
    split_ifs
    · simp only [fwfFrom, Bool.and_eq_true, decide_eq_true_eq]
      exact ⟨hl.1, ih (a + 1) hl.2⟩
    · exact fwfFrom_mono d _ (by omega) (ih (a + 1) hl.2)

/-- Every write of a file keeps its canonical form. -/
theorem fwf_fset {β : Type} [DecidableEq β] (d : β) (l : File β) (k : Nat) (v : β) (hl : fwf d l = true) :
    fwf d (fset d l k v) = true := by
  unfold fset
  split_ifs with h
  · exact fwfFrom_filter d l _ 0 hl
  · exact fwfFrom_fput d l 0 k v h (Nat.zero_le _) hl

/-- Reading a byte of memory after writing one. -/
@[simp] theorem memGet_memSet (m : List Host.Cell) (a b : Nat) (v : Byte) :
    memGet (memSet m a v) b = if b = a then v else memGet m b := fget_fset _ _ _ _ _

/-- A write of one byte keeps the canonical form of memory. -/
theorem wf_memSet {m : List Host.Cell} (a : Nat) (v : Byte) (h : Memory.wf m = true) : Memory.wf (memSet m a v) = true :=
  fwf_fset _ _ _ _ h

/-- A write of several bytes keeps the canonical form of memory. -/
theorem wf_memSetBytes {m : List Host.Cell} (a : Nat) (l : List Byte) (h : Memory.wf m = true) :
    Memory.wf (memSetBytes m a l) = true := by
  induction l generalizing m a with
  | nil => exact h
  | cons b r ih => exact ih _ (wf_memSet a b h)

/-- Reading a byte after a write of several: the byte written there, else the old one. -/
theorem memGet_memSetBytes (m : List Host.Cell) (a : Nat) (l : List Byte) (b : Nat) :
    memGet (memSetBytes m a l) b = if a ≤ b ∧ b < a + l.length then l.getD (b - a) 0 else memGet m b := by
  induction l generalizing m a with
  | nil => rw [if_neg (by simp)]; rfl
  | cons x r ih =>
    simp only [memSetBytes, ih, memGet_memSet, List.length_cons]
    by_cases hb : b = a
    · subst hb
      rw [if_neg (by omega), if_pos rfl, if_pos (by omega)]
      simp
    · by_cases hi : a + 1 ≤ b ∧ b < a + 1 + r.length
      · rw [if_pos hi, if_pos (by omega)]
        obtain ⟨n, hn⟩ : ∃ n, b - a = n + 1 := ⟨b - a - 1, by omega⟩
        rw [hn, show b - (a + 1) = n by omega]
        simp
      · rw [if_neg hi, if_neg hb, if_neg (by omega)]

end Sys2Proof.Machine
end

