-- ==== Sys2Proof/Laws/Harts.lean ====
section
/-! SUPPORT. Harts, cores, dies and ports by number: reading one after changing one. -/
namespace Sys2Proof.Machine

/-- Another hart's place is as it was. -/
theorem State.hartOf_putHart_ne (s : State) (h : Hart) {g : Nat} (hg : g ≠ h.gid) : (s.putHart h).hartOf g = s.hartOf g := by
  unfold State.putHart
  split_ifs with h1 h2
  · unfold State.hartOf
    rw [if_neg (by simpa using hg), if_neg (h1 ▸ hg)]
  · unfold State.hartOf
    simp only [fget_fdel, hg, if_false]
  · unfold State.hartOf
    simp only [fget_fput, hg, if_false]

/-- The place of a hart that is put holds it, unless it is vacant. -/
theorem State.hartOf_putHart_self (s : State) (h : Hart) (hr : h.run ≠ .vacant) : (s.putHart h).hartOf h.gid = h := by
  unfold State.putHart
  split_ifs with h1
  · unfold State.hartOf; rw [if_pos rfl]
  · unfold State.hartOf
    rw [if_neg h1]
    simp only [fget_fput, if_true]

/-- A hart that changes and stays in its place. -/
theorem State.hartOf_modHart_self (s : State) (g : Nat) (f : Hart → Hart) (hr : (f (s.hartOf g)).run ≠ .vacant) :
    (s.modHart g f).hartOf g = { f (s.hartOf g) with gid := g } :=
  State.hartOf_putHart_self s { f (s.hartOf g) with gid := g } hr

theorem State.hartOf_modHart_ne (s : State) (g : Nat) (f : Hart → Hart) {j : Nat} (hj : j ≠ g) :
    (s.modHart g f).hartOf j = s.hartOf j := State.hartOf_putHart_ne _ _ hj

@[simp] theorem State.hartOf_focus (s : State) : s.hartOf s.hart.gid = s.hart := if_pos rfl

/-- A core after a change of one. -/
theorem State.core_modCore (s : State) (c d : Nat) (f : Core → Core) :
    (s.modCore c f).core d = if d = c then f (s.core c) else s.core d := by
  simp only [State.modCore, State.setCore, State.core, fget_fset]

/-- A die's registers after a change of one die's. -/
theorem State.die_modDie (s : State) (c d : Nat) (f : Die → Die) :
    (s.modDie c f).die d = if d = c then f (s.die c) else s.die d := by
  simp only [State.modDie, State.setDie, State.die, fget_fset]

end Sys2Proof.Machine
end

