-- ==== Sys2Proof/Laws/State.lean ====
section
/-! SUPPORT. What every named update of the state leaves unchanged: one lemma per field per update. -/
namespace Sys2Proof.Machine

/-! ## Updates of the machine -/

@[simp] theorem State.onHart_hart (s : State) (f : Hart → Hart) : (s.onHart f).hart = f s.hart := rfl
@[simp] theorem State.onHart_parked (s : State) (f : Hart → Hart) : (s.onHart f).parked = s.parked := rfl
@[simp] theorem State.onHart_sel (s : State) (f : Hart → Hart) : (s.onHart f).sel = s.sel := rfl
@[simp] theorem State.onHart_agenda (s : State) (f : Hart → Hart) : (s.onHart f).agenda = s.agenda := rfl
@[simp] theorem State.onHart_ticks (s : State) (f : Hart → Hart) : (s.onHart f).ticks = s.ticks := rfl
@[simp] theorem State.onHart_clock (s : State) (f : Hart → Hart) : (s.onHart f).clock = s.clock := rfl
@[simp] theorem State.onHart_nextUid (s : State) (f : Hart → Hart) : (s.onHart f).nextUid = s.nextUid := rfl
@[simp] theorem State.onHart_mem (s : State) (f : Hart → Hart) : (s.onHart f).mem = s.mem := rfl
@[simp] theorem State.onHart_wlog (s : State) (f : Hart → Hart) : (s.onHart f).wlog = s.wlog := rfl
@[simp] theorem State.onHart_keyOf (s : State) (f : Hart → Hart) : (s.onHart f).keyOf = s.keyOf := rfl
@[simp] theorem State.onHart_cores (s : State) (f : Hart → Hart) : (s.onHart f).cores = s.cores := rfl
@[simp] theorem State.onHart_teams (s : State) (f : Hart → Hart) : (s.onHart f).teams = s.teams := rfl
@[simp] theorem State.onHart_launches (s : State) (f : Hart → Hart) : (s.onHart f).launches = s.launches := rfl
@[simp] theorem State.onHart_doms (s : State) (f : Hart → Hart) : (s.onHart f).doms = s.doms := rfl
@[simp] theorem State.onHart_msgs (s : State) (f : Hart → Hart) : (s.onHart f).msgs = s.msgs := rfl
@[simp] theorem State.onHart_xfers (s : State) (f : Hart → Hart) : (s.onHart f).xfers = s.xfers := rfl
@[simp] theorem State.onHart_l1 (s : State) (f : Hart → Hart) : (s.onHart f).l1 = s.l1 := rfl
@[simp] theorem State.onHart_cpPoison (s : State) (f : Hart → Hart) : (s.onHart f).cpPoison = s.cpPoison := rfl
@[simp] theorem State.onHart_cpLast (s : State) (f : Hart → Hart) : (s.onHart f).cpLast = s.cpLast := rfl
@[simp] theorem State.onHart_tlstat (s : State) (f : Hart → Hart) : (s.onHart f).tlstat = s.tlstat := rfl
@[simp] theorem State.onHart_tlb (s : State) (f : Hart → Hart) : (s.onHart f).tlb = s.tlb := rfl
@[simp] theorem State.onHart_walks (s : State) (f : Hart → Hart) : (s.onHart f).walks = s.walks := rfl
@[simp] theorem State.onHart_walkc (s : State) (f : Hart → Hart) : (s.onHart f).walkc = s.walkc := rfl
@[simp] theorem State.onHart_l2 (s : State) (f : Hart → Hart) : (s.onHart f).l2 = s.l2 := rfl
@[simp] theorem State.onHart_hc (s : State) (f : Hart → Hart) : (s.onHart f).hc = s.hc := rfl
@[simp] theorem State.onHart_owns (s : State) (f : Hart → Hart) : (s.onHart f).owns = s.owns := rfl
@[simp] theorem State.onHart_parts (s : State) (f : Hart → Hart) : (s.onHart f).parts = s.parts := rfl
@[simp] theorem State.onHart_rdc (s : State) (f : Hart → Hart) : (s.onHart f).rdc = s.rdc := rfl
@[simp] theorem State.onHart_lost (s : State) (f : Hart → Hart) : (s.onHart f).lost = s.lost := rfl
@[simp] theorem State.onHart_poison (s : State) (f : Hart → Hart) : (s.onHart f).poison = s.poison := rfl
@[simp] theorem State.onHart_spill (s : State) (f : Hart → Hart) : (s.onHart f).spill = s.spill := rfl
@[simp] theorem State.onHart_hostHas (s : State) (f : Hart → Hart) : (s.onHart f).hostHas = s.hostHas := rfl
@[simp] theorem State.onHart_hostMod (s : State) (f : Hart → Hart) : (s.onHart f).hostMod = s.hostMod := rfl
@[simp] theorem State.onHart_hdm (s : State) (f : Hart → Hart) : (s.onHart f).hdm = s.hdm := rfl
@[simp] theorem State.onHart_cxl (s : State) (f : Hart → Hart) : (s.onHart f).cxl = s.cxl := rfl
@[simp] theorem State.onHart_qwaits (s : State) (f : Hart → Hart) : (s.onHart f).qwaits = s.qwaits := rfl
@[simp] theorem State.onHart_tickets (s : State) (f : Hart → Hart) : (s.onHart f).tickets = s.tickets := rfl
@[simp] theorem State.onHart_dies (s : State) (f : Hart → Hart) : (s.onHart f).dies = s.dies := rfl
@[simp] theorem State.onHart_glob (s : State) (f : Hart → Hart) : (s.onHart f).glob = s.glob := rfl
@[simp] theorem State.onHart_fe (s : State) (f : Hart → Hart) : (s.onHart f).fe = s.fe := rfl
@[simp] theorem State.onHart_time (s : State) (f : Hart → Hart) : (s.onHart f).time = s.time := rfl
@[simp] theorem State.onHart_queries (s : State) (f : Hart → Hart) : (s.onHart f).queries = s.queries := rfl
@[simp] theorem State.onHart_ships (s : State) (f : Hart → Hart) : (s.onHart f).ships = s.ships := rfl
@[simp] theorem State.onHart_hoff (s : State) (f : Hart → Hart) : (s.onHart f).hoff = s.hoff := rfl
@[simp] theorem State.onHart_ports (s : State) (f : Hart → Hart) : (s.onHart f).ports = s.ports := rfl
@[simp] theorem State.onHart_farBuf (s : State) (f : Hart → Hart) : (s.onHart f).farBuf = s.farBuf := rfl
@[simp] theorem State.onHart_bounds (s : State) (f : Hart → Hart) : (s.onHart f).bounds = s.bounds := rfl
@[simp] theorem State.onHart_firm (s : State) (f : Hart → Hart) : (s.onHart f).firm = s.firm := rfl
@[simp] theorem State.onHart_stopped (s : State) (f : Hart → Hart) : (s.onHart f).stopped = s.stopped := rfl

@[simp] theorem State.setX_hart (s : State) (r : XReg) (v : Word) : (s.setX r v).hart = s.hart.setX r v := rfl
@[simp] theorem State.setX_parked (s : State) (r : XReg) (v : Word) : (s.setX r v).parked = s.parked := rfl
@[simp] theorem State.setX_sel (s : State) (r : XReg) (v : Word) : (s.setX r v).sel = s.sel := rfl
@[simp] theorem State.setX_agenda (s : State) (r : XReg) (v : Word) : (s.setX r v).agenda = s.agenda := rfl
@[simp] theorem State.setX_ticks (s : State) (r : XReg) (v : Word) : (s.setX r v).ticks = s.ticks := rfl
@[simp] theorem State.setX_clock (s : State) (r : XReg) (v : Word) : (s.setX r v).clock = s.clock := rfl
@[simp] theorem State.setX_nextUid (s : State) (r : XReg) (v : Word) : (s.setX r v).nextUid = s.nextUid := rfl
@[simp] theorem State.setX_mem (s : State) (r : XReg) (v : Word) : (s.setX r v).mem = s.mem := rfl
@[simp] theorem State.setX_wlog (s : State) (r : XReg) (v : Word) : (s.setX r v).wlog = s.wlog := rfl
@[simp] theorem State.setX_keyOf (s : State) (r : XReg) (v : Word) : (s.setX r v).keyOf = s.keyOf := rfl
@[simp] theorem State.setX_cores (s : State) (r : XReg) (v : Word) : (s.setX r v).cores = s.cores := rfl
@[simp] theorem State.setX_teams (s : State) (r : XReg) (v : Word) : (s.setX r v).teams = s.teams := rfl
@[simp] theorem State.setX_launches (s : State) (r : XReg) (v : Word) : (s.setX r v).launches = s.launches := rfl
@[simp] theorem State.setX_doms (s : State) (r : XReg) (v : Word) : (s.setX r v).doms = s.doms := rfl
@[simp] theorem State.setX_msgs (s : State) (r : XReg) (v : Word) : (s.setX r v).msgs = s.msgs := rfl
@[simp] theorem State.setX_xfers (s : State) (r : XReg) (v : Word) : (s.setX r v).xfers = s.xfers := rfl
@[simp] theorem State.setX_l1 (s : State) (r : XReg) (v : Word) : (s.setX r v).l1 = s.l1 := rfl
@[simp] theorem State.setX_cpPoison (s : State) (r : XReg) (v : Word) : (s.setX r v).cpPoison = s.cpPoison := rfl
@[simp] theorem State.setX_cpLast (s : State) (r : XReg) (v : Word) : (s.setX r v).cpLast = s.cpLast := rfl
@[simp] theorem State.setX_tlstat (s : State) (r : XReg) (v : Word) : (s.setX r v).tlstat = s.tlstat := rfl
@[simp] theorem State.setX_tlb (s : State) (r : XReg) (v : Word) : (s.setX r v).tlb = s.tlb := rfl
@[simp] theorem State.setX_walks (s : State) (r : XReg) (v : Word) : (s.setX r v).walks = s.walks := rfl
@[simp] theorem State.setX_walkc (s : State) (r : XReg) (v : Word) : (s.setX r v).walkc = s.walkc := rfl
@[simp] theorem State.setX_l2 (s : State) (r : XReg) (v : Word) : (s.setX r v).l2 = s.l2 := rfl
@[simp] theorem State.setX_hc (s : State) (r : XReg) (v : Word) : (s.setX r v).hc = s.hc := rfl
@[simp] theorem State.setX_owns (s : State) (r : XReg) (v : Word) : (s.setX r v).owns = s.owns := rfl
@[simp] theorem State.setX_parts (s : State) (r : XReg) (v : Word) : (s.setX r v).parts = s.parts := rfl
@[simp] theorem State.setX_rdc (s : State) (r : XReg) (v : Word) : (s.setX r v).rdc = s.rdc := rfl
@[simp] theorem State.setX_lost (s : State) (r : XReg) (v : Word) : (s.setX r v).lost = s.lost := rfl
@[simp] theorem State.setX_poison (s : State) (r : XReg) (v : Word) : (s.setX r v).poison = s.poison := rfl
@[simp] theorem State.setX_spill (s : State) (r : XReg) (v : Word) : (s.setX r v).spill = s.spill := rfl
@[simp] theorem State.setX_hostHas (s : State) (r : XReg) (v : Word) : (s.setX r v).hostHas = s.hostHas := rfl
@[simp] theorem State.setX_hostMod (s : State) (r : XReg) (v : Word) : (s.setX r v).hostMod = s.hostMod := rfl
@[simp] theorem State.setX_hdm (s : State) (r : XReg) (v : Word) : (s.setX r v).hdm = s.hdm := rfl
@[simp] theorem State.setX_cxl (s : State) (r : XReg) (v : Word) : (s.setX r v).cxl = s.cxl := rfl
@[simp] theorem State.setX_qwaits (s : State) (r : XReg) (v : Word) : (s.setX r v).qwaits = s.qwaits := rfl
@[simp] theorem State.setX_tickets (s : State) (r : XReg) (v : Word) : (s.setX r v).tickets = s.tickets := rfl
@[simp] theorem State.setX_dies (s : State) (r : XReg) (v : Word) : (s.setX r v).dies = s.dies := rfl
@[simp] theorem State.setX_glob (s : State) (r : XReg) (v : Word) : (s.setX r v).glob = s.glob := rfl
@[simp] theorem State.setX_fe (s : State) (r : XReg) (v : Word) : (s.setX r v).fe = s.fe := rfl
@[simp] theorem State.setX_time (s : State) (r : XReg) (v : Word) : (s.setX r v).time = s.time := rfl
@[simp] theorem State.setX_queries (s : State) (r : XReg) (v : Word) : (s.setX r v).queries = s.queries := rfl
@[simp] theorem State.setX_ships (s : State) (r : XReg) (v : Word) : (s.setX r v).ships = s.ships := rfl
@[simp] theorem State.setX_hoff (s : State) (r : XReg) (v : Word) : (s.setX r v).hoff = s.hoff := rfl
@[simp] theorem State.setX_ports (s : State) (r : XReg) (v : Word) : (s.setX r v).ports = s.ports := rfl
@[simp] theorem State.setX_farBuf (s : State) (r : XReg) (v : Word) : (s.setX r v).farBuf = s.farBuf := rfl
@[simp] theorem State.setX_bounds (s : State) (r : XReg) (v : Word) : (s.setX r v).bounds = s.bounds := rfl
@[simp] theorem State.setX_firm (s : State) (r : XReg) (v : Word) : (s.setX r v).firm = s.firm := rfl
@[simp] theorem State.setX_stopped (s : State) (r : XReg) (v : Word) : (s.setX r v).stopped = s.stopped := rfl

@[simp] theorem State.retire_hart (s : State) : (s.retire).hart = s.hart.retire := rfl
@[simp] theorem State.retire_parked (s : State) : (s.retire).parked = s.parked := rfl
@[simp] theorem State.retire_sel (s : State) : (s.retire).sel = s.sel := rfl
@[simp] theorem State.retire_agenda (s : State) : (s.retire).agenda = s.agenda := rfl
@[simp] theorem State.retire_ticks (s : State) : (s.retire).ticks = s.ticks := rfl
@[simp] theorem State.retire_clock (s : State) : (s.retire).clock = s.clock := rfl
@[simp] theorem State.retire_nextUid (s : State) : (s.retire).nextUid = s.nextUid := rfl
@[simp] theorem State.retire_mem (s : State) : (s.retire).mem = s.mem := rfl
@[simp] theorem State.retire_wlog (s : State) : (s.retire).wlog = s.wlog := rfl
@[simp] theorem State.retire_keyOf (s : State) : (s.retire).keyOf = s.keyOf := rfl
@[simp] theorem State.retire_cores (s : State) : (s.retire).cores = s.cores := rfl
@[simp] theorem State.retire_teams (s : State) : (s.retire).teams = s.teams := rfl
@[simp] theorem State.retire_launches (s : State) : (s.retire).launches = s.launches := rfl
@[simp] theorem State.retire_doms (s : State) : (s.retire).doms = s.doms := rfl
@[simp] theorem State.retire_msgs (s : State) : (s.retire).msgs = s.msgs := rfl
@[simp] theorem State.retire_xfers (s : State) : (s.retire).xfers = s.xfers := rfl
@[simp] theorem State.retire_l1 (s : State) : (s.retire).l1 = s.l1 := rfl
@[simp] theorem State.retire_cpPoison (s : State) : (s.retire).cpPoison = s.cpPoison := rfl
@[simp] theorem State.retire_cpLast (s : State) : (s.retire).cpLast = s.cpLast := rfl
@[simp] theorem State.retire_tlstat (s : State) : (s.retire).tlstat = s.tlstat := rfl
@[simp] theorem State.retire_tlb (s : State) : (s.retire).tlb = s.tlb := rfl
@[simp] theorem State.retire_walks (s : State) : (s.retire).walks = s.walks := rfl
@[simp] theorem State.retire_walkc (s : State) : (s.retire).walkc = s.walkc := rfl
@[simp] theorem State.retire_l2 (s : State) : (s.retire).l2 = s.l2 := rfl
@[simp] theorem State.retire_hc (s : State) : (s.retire).hc = s.hc := rfl
@[simp] theorem State.retire_owns (s : State) : (s.retire).owns = s.owns := rfl
@[simp] theorem State.retire_parts (s : State) : (s.retire).parts = s.parts := rfl
@[simp] theorem State.retire_rdc (s : State) : (s.retire).rdc = s.rdc := rfl
@[simp] theorem State.retire_lost (s : State) : (s.retire).lost = s.lost := rfl
@[simp] theorem State.retire_poison (s : State) : (s.retire).poison = s.poison := rfl
@[simp] theorem State.retire_spill (s : State) : (s.retire).spill = s.spill := rfl
@[simp] theorem State.retire_hostHas (s : State) : (s.retire).hostHas = s.hostHas := rfl
@[simp] theorem State.retire_hostMod (s : State) : (s.retire).hostMod = s.hostMod := rfl
@[simp] theorem State.retire_hdm (s : State) : (s.retire).hdm = s.hdm := rfl
@[simp] theorem State.retire_cxl (s : State) : (s.retire).cxl = s.cxl := rfl
@[simp] theorem State.retire_qwaits (s : State) : (s.retire).qwaits = s.qwaits := rfl
@[simp] theorem State.retire_tickets (s : State) : (s.retire).tickets = s.tickets := rfl
@[simp] theorem State.retire_dies (s : State) : (s.retire).dies = s.dies := rfl
@[simp] theorem State.retire_glob (s : State) : (s.retire).glob = s.glob := rfl
@[simp] theorem State.retire_fe (s : State) : (s.retire).fe = s.fe := rfl
@[simp] theorem State.retire_time (s : State) : (s.retire).time = s.time := rfl
@[simp] theorem State.retire_queries (s : State) : (s.retire).queries = s.queries := rfl
@[simp] theorem State.retire_ships (s : State) : (s.retire).ships = s.ships := rfl
@[simp] theorem State.retire_hoff (s : State) : (s.retire).hoff = s.hoff := rfl
@[simp] theorem State.retire_ports (s : State) : (s.retire).ports = s.ports := rfl
@[simp] theorem State.retire_farBuf (s : State) : (s.retire).farBuf = s.farBuf := rfl
@[simp] theorem State.retire_bounds (s : State) : (s.retire).bounds = s.bounds := rfl
@[simp] theorem State.retire_firm (s : State) : (s.retire).firm = s.firm := rfl
@[simp] theorem State.retire_stopped (s : State) : (s.retire).stopped = s.stopped := rfl

@[simp] theorem State.retireTo_hart (s : State) (a : Word) : (s.retireTo a).hart = s.hart.retireTo a := rfl
@[simp] theorem State.retireTo_parked (s : State) (a : Word) : (s.retireTo a).parked = s.parked := rfl
@[simp] theorem State.retireTo_sel (s : State) (a : Word) : (s.retireTo a).sel = s.sel := rfl
@[simp] theorem State.retireTo_agenda (s : State) (a : Word) : (s.retireTo a).agenda = s.agenda := rfl
@[simp] theorem State.retireTo_ticks (s : State) (a : Word) : (s.retireTo a).ticks = s.ticks := rfl
@[simp] theorem State.retireTo_clock (s : State) (a : Word) : (s.retireTo a).clock = s.clock := rfl
@[simp] theorem State.retireTo_nextUid (s : State) (a : Word) : (s.retireTo a).nextUid = s.nextUid := rfl
@[simp] theorem State.retireTo_mem (s : State) (a : Word) : (s.retireTo a).mem = s.mem := rfl
@[simp] theorem State.retireTo_wlog (s : State) (a : Word) : (s.retireTo a).wlog = s.wlog := rfl
@[simp] theorem State.retireTo_keyOf (s : State) (a : Word) : (s.retireTo a).keyOf = s.keyOf := rfl
@[simp] theorem State.retireTo_cores (s : State) (a : Word) : (s.retireTo a).cores = s.cores := rfl
@[simp] theorem State.retireTo_teams (s : State) (a : Word) : (s.retireTo a).teams = s.teams := rfl
@[simp] theorem State.retireTo_launches (s : State) (a : Word) : (s.retireTo a).launches = s.launches := rfl
@[simp] theorem State.retireTo_doms (s : State) (a : Word) : (s.retireTo a).doms = s.doms := rfl
@[simp] theorem State.retireTo_msgs (s : State) (a : Word) : (s.retireTo a).msgs = s.msgs := rfl
@[simp] theorem State.retireTo_xfers (s : State) (a : Word) : (s.retireTo a).xfers = s.xfers := rfl
@[simp] theorem State.retireTo_l1 (s : State) (a : Word) : (s.retireTo a).l1 = s.l1 := rfl
@[simp] theorem State.retireTo_cpPoison (s : State) (a : Word) : (s.retireTo a).cpPoison = s.cpPoison := rfl
@[simp] theorem State.retireTo_cpLast (s : State) (a : Word) : (s.retireTo a).cpLast = s.cpLast := rfl
@[simp] theorem State.retireTo_tlstat (s : State) (a : Word) : (s.retireTo a).tlstat = s.tlstat := rfl
@[simp] theorem State.retireTo_tlb (s : State) (a : Word) : (s.retireTo a).tlb = s.tlb := rfl
@[simp] theorem State.retireTo_walks (s : State) (a : Word) : (s.retireTo a).walks = s.walks := rfl
@[simp] theorem State.retireTo_walkc (s : State) (a : Word) : (s.retireTo a).walkc = s.walkc := rfl
@[simp] theorem State.retireTo_l2 (s : State) (a : Word) : (s.retireTo a).l2 = s.l2 := rfl
@[simp] theorem State.retireTo_hc (s : State) (a : Word) : (s.retireTo a).hc = s.hc := rfl
@[simp] theorem State.retireTo_owns (s : State) (a : Word) : (s.retireTo a).owns = s.owns := rfl
@[simp] theorem State.retireTo_parts (s : State) (a : Word) : (s.retireTo a).parts = s.parts := rfl
@[simp] theorem State.retireTo_rdc (s : State) (a : Word) : (s.retireTo a).rdc = s.rdc := rfl
@[simp] theorem State.retireTo_lost (s : State) (a : Word) : (s.retireTo a).lost = s.lost := rfl
@[simp] theorem State.retireTo_poison (s : State) (a : Word) : (s.retireTo a).poison = s.poison := rfl
@[simp] theorem State.retireTo_spill (s : State) (a : Word) : (s.retireTo a).spill = s.spill := rfl
@[simp] theorem State.retireTo_hostHas (s : State) (a : Word) : (s.retireTo a).hostHas = s.hostHas := rfl
@[simp] theorem State.retireTo_hostMod (s : State) (a : Word) : (s.retireTo a).hostMod = s.hostMod := rfl
@[simp] theorem State.retireTo_hdm (s : State) (a : Word) : (s.retireTo a).hdm = s.hdm := rfl
@[simp] theorem State.retireTo_cxl (s : State) (a : Word) : (s.retireTo a).cxl = s.cxl := rfl
@[simp] theorem State.retireTo_qwaits (s : State) (a : Word) : (s.retireTo a).qwaits = s.qwaits := rfl
@[simp] theorem State.retireTo_tickets (s : State) (a : Word) : (s.retireTo a).tickets = s.tickets := rfl
@[simp] theorem State.retireTo_dies (s : State) (a : Word) : (s.retireTo a).dies = s.dies := rfl
@[simp] theorem State.retireTo_glob (s : State) (a : Word) : (s.retireTo a).glob = s.glob := rfl
@[simp] theorem State.retireTo_fe (s : State) (a : Word) : (s.retireTo a).fe = s.fe := rfl
@[simp] theorem State.retireTo_time (s : State) (a : Word) : (s.retireTo a).time = s.time := rfl
@[simp] theorem State.retireTo_queries (s : State) (a : Word) : (s.retireTo a).queries = s.queries := rfl
@[simp] theorem State.retireTo_ships (s : State) (a : Word) : (s.retireTo a).ships = s.ships := rfl
@[simp] theorem State.retireTo_hoff (s : State) (a : Word) : (s.retireTo a).hoff = s.hoff := rfl
@[simp] theorem State.retireTo_ports (s : State) (a : Word) : (s.retireTo a).ports = s.ports := rfl
@[simp] theorem State.retireTo_farBuf (s : State) (a : Word) : (s.retireTo a).farBuf = s.farBuf := rfl
@[simp] theorem State.retireTo_bounds (s : State) (a : Word) : (s.retireTo a).bounds = s.bounds := rfl
@[simp] theorem State.retireTo_firm (s : State) (a : Word) : (s.retireTo a).firm = s.firm := rfl
@[simp] theorem State.retireTo_stopped (s : State) (a : Word) : (s.retireTo a).stopped = s.stopped := rfl

@[simp] theorem State.trap_hart (s : State) (i : TrapInfo) : (s.trap i).hart = s.hart.takeTrap i := rfl
@[simp] theorem State.trap_parked (s : State) (i : TrapInfo) : (s.trap i).parked = s.parked := rfl
@[simp] theorem State.trap_sel (s : State) (i : TrapInfo) : (s.trap i).sel = s.sel := rfl
@[simp] theorem State.trap_agenda (s : State) (i : TrapInfo) : (s.trap i).agenda = s.agenda := rfl
@[simp] theorem State.trap_ticks (s : State) (i : TrapInfo) : (s.trap i).ticks = s.ticks := rfl
@[simp] theorem State.trap_clock (s : State) (i : TrapInfo) : (s.trap i).clock = s.clock := rfl
@[simp] theorem State.trap_nextUid (s : State) (i : TrapInfo) : (s.trap i).nextUid = s.nextUid := rfl
@[simp] theorem State.trap_mem (s : State) (i : TrapInfo) : (s.trap i).mem = s.mem := rfl
@[simp] theorem State.trap_wlog (s : State) (i : TrapInfo) : (s.trap i).wlog = s.wlog := rfl
@[simp] theorem State.trap_keyOf (s : State) (i : TrapInfo) : (s.trap i).keyOf = s.keyOf := rfl
@[simp] theorem State.trap_cores (s : State) (i : TrapInfo) : (s.trap i).cores = s.cores := rfl
@[simp] theorem State.trap_teams (s : State) (i : TrapInfo) : (s.trap i).teams = s.teams := rfl
@[simp] theorem State.trap_launches (s : State) (i : TrapInfo) : (s.trap i).launches = s.launches := rfl
@[simp] theorem State.trap_doms (s : State) (i : TrapInfo) : (s.trap i).doms = s.doms := rfl
@[simp] theorem State.trap_msgs (s : State) (i : TrapInfo) : (s.trap i).msgs = s.msgs := rfl
@[simp] theorem State.trap_xfers (s : State) (i : TrapInfo) : (s.trap i).xfers = s.xfers := rfl
@[simp] theorem State.trap_l1 (s : State) (i : TrapInfo) : (s.trap i).l1 = s.l1 := rfl
@[simp] theorem State.trap_cpPoison (s : State) (i : TrapInfo) : (s.trap i).cpPoison = s.cpPoison := rfl
@[simp] theorem State.trap_cpLast (s : State) (i : TrapInfo) : (s.trap i).cpLast = s.cpLast := rfl
@[simp] theorem State.trap_tlstat (s : State) (i : TrapInfo) : (s.trap i).tlstat = s.tlstat := rfl
@[simp] theorem State.trap_tlb (s : State) (i : TrapInfo) : (s.trap i).tlb = s.tlb := rfl
@[simp] theorem State.trap_walks (s : State) (i : TrapInfo) : (s.trap i).walks = s.walks := rfl
@[simp] theorem State.trap_walkc (s : State) (i : TrapInfo) : (s.trap i).walkc = s.walkc := rfl
@[simp] theorem State.trap_l2 (s : State) (i : TrapInfo) : (s.trap i).l2 = s.l2 := rfl
@[simp] theorem State.trap_hc (s : State) (i : TrapInfo) : (s.trap i).hc = s.hc := rfl
@[simp] theorem State.trap_owns (s : State) (i : TrapInfo) : (s.trap i).owns = s.owns := rfl
@[simp] theorem State.trap_parts (s : State) (i : TrapInfo) : (s.trap i).parts = s.parts := rfl
@[simp] theorem State.trap_rdc (s : State) (i : TrapInfo) : (s.trap i).rdc = s.rdc := rfl
@[simp] theorem State.trap_lost (s : State) (i : TrapInfo) : (s.trap i).lost = s.lost := rfl
@[simp] theorem State.trap_poison (s : State) (i : TrapInfo) : (s.trap i).poison = s.poison := rfl
@[simp] theorem State.trap_spill (s : State) (i : TrapInfo) : (s.trap i).spill = s.spill := rfl
@[simp] theorem State.trap_hostHas (s : State) (i : TrapInfo) : (s.trap i).hostHas = s.hostHas := rfl
@[simp] theorem State.trap_hostMod (s : State) (i : TrapInfo) : (s.trap i).hostMod = s.hostMod := rfl
@[simp] theorem State.trap_hdm (s : State) (i : TrapInfo) : (s.trap i).hdm = s.hdm := rfl
@[simp] theorem State.trap_cxl (s : State) (i : TrapInfo) : (s.trap i).cxl = s.cxl := rfl
@[simp] theorem State.trap_qwaits (s : State) (i : TrapInfo) : (s.trap i).qwaits = s.qwaits := rfl
@[simp] theorem State.trap_tickets (s : State) (i : TrapInfo) : (s.trap i).tickets = s.tickets := rfl
@[simp] theorem State.trap_dies (s : State) (i : TrapInfo) : (s.trap i).dies = s.dies := rfl
@[simp] theorem State.trap_glob (s : State) (i : TrapInfo) : (s.trap i).glob = s.glob := rfl
@[simp] theorem State.trap_fe (s : State) (i : TrapInfo) : (s.trap i).fe = s.fe := rfl
@[simp] theorem State.trap_time (s : State) (i : TrapInfo) : (s.trap i).time = s.time := rfl
@[simp] theorem State.trap_queries (s : State) (i : TrapInfo) : (s.trap i).queries = s.queries := rfl
@[simp] theorem State.trap_ships (s : State) (i : TrapInfo) : (s.trap i).ships = s.ships := rfl
@[simp] theorem State.trap_hoff (s : State) (i : TrapInfo) : (s.trap i).hoff = s.hoff := rfl
@[simp] theorem State.trap_ports (s : State) (i : TrapInfo) : (s.trap i).ports = s.ports := rfl
@[simp] theorem State.trap_farBuf (s : State) (i : TrapInfo) : (s.trap i).farBuf = s.farBuf := rfl
@[simp] theorem State.trap_bounds (s : State) (i : TrapInfo) : (s.trap i).bounds = s.bounds := rfl
@[simp] theorem State.trap_firm (s : State) (i : TrapInfo) : (s.trap i).firm = s.firm := rfl
@[simp] theorem State.trap_stopped (s : State) (i : TrapInfo) : (s.trap i).stopped = s.stopped := rfl

@[simp] theorem State.setCore_hart (s : State) (c : Nat) (v : Core) : (s.setCore c v).hart = s.hart := rfl
@[simp] theorem State.setCore_parked (s : State) (c : Nat) (v : Core) : (s.setCore c v).parked = s.parked := rfl
@[simp] theorem State.setCore_sel (s : State) (c : Nat) (v : Core) : (s.setCore c v).sel = s.sel := rfl
@[simp] theorem State.setCore_agenda (s : State) (c : Nat) (v : Core) : (s.setCore c v).agenda = s.agenda := rfl
@[simp] theorem State.setCore_ticks (s : State) (c : Nat) (v : Core) : (s.setCore c v).ticks = s.ticks := rfl
@[simp] theorem State.setCore_clock (s : State) (c : Nat) (v : Core) : (s.setCore c v).clock = s.clock := rfl
@[simp] theorem State.setCore_nextUid (s : State) (c : Nat) (v : Core) : (s.setCore c v).nextUid = s.nextUid := rfl
@[simp] theorem State.setCore_mem (s : State) (c : Nat) (v : Core) : (s.setCore c v).mem = s.mem := rfl
@[simp] theorem State.setCore_wlog (s : State) (c : Nat) (v : Core) : (s.setCore c v).wlog = s.wlog := rfl
@[simp] theorem State.setCore_keyOf (s : State) (c : Nat) (v : Core) : (s.setCore c v).keyOf = s.keyOf := rfl
@[simp] theorem State.setCore_cores (s : State) (c : Nat) (v : Core) : (s.setCore c v).cores = fset Core.fresh s.cores c v := rfl
@[simp] theorem State.setCore_teams (s : State) (c : Nat) (v : Core) : (s.setCore c v).teams = s.teams := rfl
@[simp] theorem State.setCore_launches (s : State) (c : Nat) (v : Core) : (s.setCore c v).launches = s.launches := rfl
@[simp] theorem State.setCore_doms (s : State) (c : Nat) (v : Core) : (s.setCore c v).doms = s.doms := rfl
@[simp] theorem State.setCore_msgs (s : State) (c : Nat) (v : Core) : (s.setCore c v).msgs = s.msgs := rfl
@[simp] theorem State.setCore_xfers (s : State) (c : Nat) (v : Core) : (s.setCore c v).xfers = s.xfers := rfl
@[simp] theorem State.setCore_l1 (s : State) (c : Nat) (v : Core) : (s.setCore c v).l1 = s.l1 := rfl
@[simp] theorem State.setCore_cpPoison (s : State) (c : Nat) (v : Core) : (s.setCore c v).cpPoison = s.cpPoison := rfl
@[simp] theorem State.setCore_cpLast (s : State) (c : Nat) (v : Core) : (s.setCore c v).cpLast = s.cpLast := rfl
@[simp] theorem State.setCore_tlstat (s : State) (c : Nat) (v : Core) : (s.setCore c v).tlstat = s.tlstat := rfl
@[simp] theorem State.setCore_tlb (s : State) (c : Nat) (v : Core) : (s.setCore c v).tlb = s.tlb := rfl
@[simp] theorem State.setCore_walks (s : State) (c : Nat) (v : Core) : (s.setCore c v).walks = s.walks := rfl
@[simp] theorem State.setCore_walkc (s : State) (c : Nat) (v : Core) : (s.setCore c v).walkc = s.walkc := rfl
@[simp] theorem State.setCore_l2 (s : State) (c : Nat) (v : Core) : (s.setCore c v).l2 = s.l2 := rfl
@[simp] theorem State.setCore_hc (s : State) (c : Nat) (v : Core) : (s.setCore c v).hc = s.hc := rfl
@[simp] theorem State.setCore_owns (s : State) (c : Nat) (v : Core) : (s.setCore c v).owns = s.owns := rfl
@[simp] theorem State.setCore_parts (s : State) (c : Nat) (v : Core) : (s.setCore c v).parts = s.parts := rfl
@[simp] theorem State.setCore_rdc (s : State) (c : Nat) (v : Core) : (s.setCore c v).rdc = s.rdc := rfl
@[simp] theorem State.setCore_lost (s : State) (c : Nat) (v : Core) : (s.setCore c v).lost = s.lost := rfl
@[simp] theorem State.setCore_poison (s : State) (c : Nat) (v : Core) : (s.setCore c v).poison = s.poison := rfl
@[simp] theorem State.setCore_spill (s : State) (c : Nat) (v : Core) : (s.setCore c v).spill = s.spill := rfl
@[simp] theorem State.setCore_hostHas (s : State) (c : Nat) (v : Core) : (s.setCore c v).hostHas = s.hostHas := rfl
@[simp] theorem State.setCore_hostMod (s : State) (c : Nat) (v : Core) : (s.setCore c v).hostMod = s.hostMod := rfl
@[simp] theorem State.setCore_hdm (s : State) (c : Nat) (v : Core) : (s.setCore c v).hdm = s.hdm := rfl
@[simp] theorem State.setCore_cxl (s : State) (c : Nat) (v : Core) : (s.setCore c v).cxl = s.cxl := rfl
@[simp] theorem State.setCore_qwaits (s : State) (c : Nat) (v : Core) : (s.setCore c v).qwaits = s.qwaits := rfl
@[simp] theorem State.setCore_tickets (s : State) (c : Nat) (v : Core) : (s.setCore c v).tickets = s.tickets := rfl
@[simp] theorem State.setCore_dies (s : State) (c : Nat) (v : Core) : (s.setCore c v).dies = s.dies := rfl
@[simp] theorem State.setCore_glob (s : State) (c : Nat) (v : Core) : (s.setCore c v).glob = s.glob := rfl
@[simp] theorem State.setCore_fe (s : State) (c : Nat) (v : Core) : (s.setCore c v).fe = s.fe := rfl
@[simp] theorem State.setCore_time (s : State) (c : Nat) (v : Core) : (s.setCore c v).time = s.time := rfl
@[simp] theorem State.setCore_queries (s : State) (c : Nat) (v : Core) : (s.setCore c v).queries = s.queries := rfl
@[simp] theorem State.setCore_ships (s : State) (c : Nat) (v : Core) : (s.setCore c v).ships = s.ships := rfl
@[simp] theorem State.setCore_hoff (s : State) (c : Nat) (v : Core) : (s.setCore c v).hoff = s.hoff := rfl
@[simp] theorem State.setCore_ports (s : State) (c : Nat) (v : Core) : (s.setCore c v).ports = s.ports := rfl
@[simp] theorem State.setCore_farBuf (s : State) (c : Nat) (v : Core) : (s.setCore c v).farBuf = s.farBuf := rfl
@[simp] theorem State.setCore_bounds (s : State) (c : Nat) (v : Core) : (s.setCore c v).bounds = s.bounds := rfl
@[simp] theorem State.setCore_firm (s : State) (c : Nat) (v : Core) : (s.setCore c v).firm = s.firm := rfl
@[simp] theorem State.setCore_stopped (s : State) (c : Nat) (v : Core) : (s.setCore c v).stopped = s.stopped := rfl

@[simp] theorem State.setDie_hart (s : State) (d : Nat) (v : Die) : (s.setDie d v).hart = s.hart := rfl
@[simp] theorem State.setDie_parked (s : State) (d : Nat) (v : Die) : (s.setDie d v).parked = s.parked := rfl
@[simp] theorem State.setDie_sel (s : State) (d : Nat) (v : Die) : (s.setDie d v).sel = s.sel := rfl
@[simp] theorem State.setDie_agenda (s : State) (d : Nat) (v : Die) : (s.setDie d v).agenda = s.agenda := rfl
@[simp] theorem State.setDie_ticks (s : State) (d : Nat) (v : Die) : (s.setDie d v).ticks = s.ticks := rfl
@[simp] theorem State.setDie_clock (s : State) (d : Nat) (v : Die) : (s.setDie d v).clock = s.clock := rfl
@[simp] theorem State.setDie_nextUid (s : State) (d : Nat) (v : Die) : (s.setDie d v).nextUid = s.nextUid := rfl
@[simp] theorem State.setDie_mem (s : State) (d : Nat) (v : Die) : (s.setDie d v).mem = s.mem := rfl
@[simp] theorem State.setDie_wlog (s : State) (d : Nat) (v : Die) : (s.setDie d v).wlog = s.wlog := rfl
@[simp] theorem State.setDie_keyOf (s : State) (d : Nat) (v : Die) : (s.setDie d v).keyOf = s.keyOf := rfl
@[simp] theorem State.setDie_cores (s : State) (d : Nat) (v : Die) : (s.setDie d v).cores = s.cores := rfl
@[simp] theorem State.setDie_teams (s : State) (d : Nat) (v : Die) : (s.setDie d v).teams = s.teams := rfl
@[simp] theorem State.setDie_launches (s : State) (d : Nat) (v : Die) : (s.setDie d v).launches = s.launches := rfl
@[simp] theorem State.setDie_doms (s : State) (d : Nat) (v : Die) : (s.setDie d v).doms = s.doms := rfl
@[simp] theorem State.setDie_msgs (s : State) (d : Nat) (v : Die) : (s.setDie d v).msgs = s.msgs := rfl
@[simp] theorem State.setDie_xfers (s : State) (d : Nat) (v : Die) : (s.setDie d v).xfers = s.xfers := rfl
@[simp] theorem State.setDie_l1 (s : State) (d : Nat) (v : Die) : (s.setDie d v).l1 = s.l1 := rfl
@[simp] theorem State.setDie_cpPoison (s : State) (d : Nat) (v : Die) : (s.setDie d v).cpPoison = s.cpPoison := rfl
@[simp] theorem State.setDie_cpLast (s : State) (d : Nat) (v : Die) : (s.setDie d v).cpLast = s.cpLast := rfl
@[simp] theorem State.setDie_tlstat (s : State) (d : Nat) (v : Die) : (s.setDie d v).tlstat = s.tlstat := rfl
@[simp] theorem State.setDie_tlb (s : State) (d : Nat) (v : Die) : (s.setDie d v).tlb = s.tlb := rfl
@[simp] theorem State.setDie_walks (s : State) (d : Nat) (v : Die) : (s.setDie d v).walks = s.walks := rfl
@[simp] theorem State.setDie_walkc (s : State) (d : Nat) (v : Die) : (s.setDie d v).walkc = s.walkc := rfl
@[simp] theorem State.setDie_l2 (s : State) (d : Nat) (v : Die) : (s.setDie d v).l2 = s.l2 := rfl
@[simp] theorem State.setDie_hc (s : State) (d : Nat) (v : Die) : (s.setDie d v).hc = s.hc := rfl
@[simp] theorem State.setDie_owns (s : State) (d : Nat) (v : Die) : (s.setDie d v).owns = s.owns := rfl
@[simp] theorem State.setDie_parts (s : State) (d : Nat) (v : Die) : (s.setDie d v).parts = s.parts := rfl
@[simp] theorem State.setDie_rdc (s : State) (d : Nat) (v : Die) : (s.setDie d v).rdc = s.rdc := rfl
@[simp] theorem State.setDie_lost (s : State) (d : Nat) (v : Die) : (s.setDie d v).lost = s.lost := rfl
@[simp] theorem State.setDie_poison (s : State) (d : Nat) (v : Die) : (s.setDie d v).poison = s.poison := rfl
@[simp] theorem State.setDie_spill (s : State) (d : Nat) (v : Die) : (s.setDie d v).spill = s.spill := rfl
@[simp] theorem State.setDie_hostHas (s : State) (d : Nat) (v : Die) : (s.setDie d v).hostHas = s.hostHas := rfl
@[simp] theorem State.setDie_hostMod (s : State) (d : Nat) (v : Die) : (s.setDie d v).hostMod = s.hostMod := rfl
@[simp] theorem State.setDie_hdm (s : State) (d : Nat) (v : Die) : (s.setDie d v).hdm = s.hdm := rfl
@[simp] theorem State.setDie_cxl (s : State) (d : Nat) (v : Die) : (s.setDie d v).cxl = s.cxl := rfl
@[simp] theorem State.setDie_qwaits (s : State) (d : Nat) (v : Die) : (s.setDie d v).qwaits = s.qwaits := rfl
@[simp] theorem State.setDie_tickets (s : State) (d : Nat) (v : Die) : (s.setDie d v).tickets = s.tickets := rfl
@[simp] theorem State.setDie_dies (s : State) (d : Nat) (v : Die) : (s.setDie d v).dies = fset Die.fresh s.dies d v := rfl
@[simp] theorem State.setDie_glob (s : State) (d : Nat) (v : Die) : (s.setDie d v).glob = s.glob := rfl
@[simp] theorem State.setDie_fe (s : State) (d : Nat) (v : Die) : (s.setDie d v).fe = s.fe := rfl
@[simp] theorem State.setDie_time (s : State) (d : Nat) (v : Die) : (s.setDie d v).time = s.time := rfl
@[simp] theorem State.setDie_queries (s : State) (d : Nat) (v : Die) : (s.setDie d v).queries = s.queries := rfl
@[simp] theorem State.setDie_ships (s : State) (d : Nat) (v : Die) : (s.setDie d v).ships = s.ships := rfl
@[simp] theorem State.setDie_hoff (s : State) (d : Nat) (v : Die) : (s.setDie d v).hoff = s.hoff := rfl
@[simp] theorem State.setDie_ports (s : State) (d : Nat) (v : Die) : (s.setDie d v).ports = s.ports := rfl
@[simp] theorem State.setDie_farBuf (s : State) (d : Nat) (v : Die) : (s.setDie d v).farBuf = s.farBuf := rfl
@[simp] theorem State.setDie_bounds (s : State) (d : Nat) (v : Die) : (s.setDie d v).bounds = s.bounds := rfl
@[simp] theorem State.setDie_firm (s : State) (d : Nat) (v : Die) : (s.setDie d v).firm = s.firm := rfl
@[simp] theorem State.setDie_stopped (s : State) (d : Nat) (v : Die) : (s.setDie d v).stopped = s.stopped := rfl

@[simp] theorem State.modFe_hart (s : State) (f : FrontEnd → FrontEnd) : (s.modFe f).hart = s.hart := rfl
@[simp] theorem State.modFe_parked (s : State) (f : FrontEnd → FrontEnd) : (s.modFe f).parked = s.parked := rfl
@[simp] theorem State.modFe_sel (s : State) (f : FrontEnd → FrontEnd) : (s.modFe f).sel = s.sel := rfl
@[simp] theorem State.modFe_agenda (s : State) (f : FrontEnd → FrontEnd) : (s.modFe f).agenda = s.agenda := rfl
@[simp] theorem State.modFe_ticks (s : State) (f : FrontEnd → FrontEnd) : (s.modFe f).ticks = s.ticks := rfl
@[simp] theorem State.modFe_clock (s : State) (f : FrontEnd → FrontEnd) : (s.modFe f).clock = s.clock := rfl
@[simp] theorem State.modFe_nextUid (s : State) (f : FrontEnd → FrontEnd) : (s.modFe f).nextUid = s.nextUid := rfl
@[simp] theorem State.modFe_mem (s : State) (f : FrontEnd → FrontEnd) : (s.modFe f).mem = s.mem := rfl
@[simp] theorem State.modFe_wlog (s : State) (f : FrontEnd → FrontEnd) : (s.modFe f).wlog = s.wlog := rfl
@[simp] theorem State.modFe_keyOf (s : State) (f : FrontEnd → FrontEnd) : (s.modFe f).keyOf = s.keyOf := rfl
@[simp] theorem State.modFe_cores (s : State) (f : FrontEnd → FrontEnd) : (s.modFe f).cores = s.cores := rfl
@[simp] theorem State.modFe_teams (s : State) (f : FrontEnd → FrontEnd) : (s.modFe f).teams = s.teams := rfl
@[simp] theorem State.modFe_launches (s : State) (f : FrontEnd → FrontEnd) : (s.modFe f).launches = s.launches := rfl
@[simp] theorem State.modFe_doms (s : State) (f : FrontEnd → FrontEnd) : (s.modFe f).doms = s.doms := rfl
@[simp] theorem State.modFe_msgs (s : State) (f : FrontEnd → FrontEnd) : (s.modFe f).msgs = s.msgs := rfl
@[simp] theorem State.modFe_xfers (s : State) (f : FrontEnd → FrontEnd) : (s.modFe f).xfers = s.xfers := rfl
@[simp] theorem State.modFe_l1 (s : State) (f : FrontEnd → FrontEnd) : (s.modFe f).l1 = s.l1 := rfl
@[simp] theorem State.modFe_cpPoison (s : State) (f : FrontEnd → FrontEnd) : (s.modFe f).cpPoison = s.cpPoison := rfl
@[simp] theorem State.modFe_cpLast (s : State) (f : FrontEnd → FrontEnd) : (s.modFe f).cpLast = s.cpLast := rfl
@[simp] theorem State.modFe_tlstat (s : State) (f : FrontEnd → FrontEnd) : (s.modFe f).tlstat = s.tlstat := rfl
@[simp] theorem State.modFe_tlb (s : State) (f : FrontEnd → FrontEnd) : (s.modFe f).tlb = s.tlb := rfl
@[simp] theorem State.modFe_walks (s : State) (f : FrontEnd → FrontEnd) : (s.modFe f).walks = s.walks := rfl
@[simp] theorem State.modFe_walkc (s : State) (f : FrontEnd → FrontEnd) : (s.modFe f).walkc = s.walkc := rfl
@[simp] theorem State.modFe_l2 (s : State) (f : FrontEnd → FrontEnd) : (s.modFe f).l2 = s.l2 := rfl
@[simp] theorem State.modFe_hc (s : State) (f : FrontEnd → FrontEnd) : (s.modFe f).hc = s.hc := rfl
@[simp] theorem State.modFe_owns (s : State) (f : FrontEnd → FrontEnd) : (s.modFe f).owns = s.owns := rfl
@[simp] theorem State.modFe_parts (s : State) (f : FrontEnd → FrontEnd) : (s.modFe f).parts = s.parts := rfl
@[simp] theorem State.modFe_rdc (s : State) (f : FrontEnd → FrontEnd) : (s.modFe f).rdc = s.rdc := rfl
@[simp] theorem State.modFe_lost (s : State) (f : FrontEnd → FrontEnd) : (s.modFe f).lost = s.lost := rfl
@[simp] theorem State.modFe_poison (s : State) (f : FrontEnd → FrontEnd) : (s.modFe f).poison = s.poison := rfl
@[simp] theorem State.modFe_spill (s : State) (f : FrontEnd → FrontEnd) : (s.modFe f).spill = s.spill := rfl
@[simp] theorem State.modFe_hostHas (s : State) (f : FrontEnd → FrontEnd) : (s.modFe f).hostHas = s.hostHas := rfl
@[simp] theorem State.modFe_hostMod (s : State) (f : FrontEnd → FrontEnd) : (s.modFe f).hostMod = s.hostMod := rfl
@[simp] theorem State.modFe_hdm (s : State) (f : FrontEnd → FrontEnd) : (s.modFe f).hdm = s.hdm := rfl
@[simp] theorem State.modFe_cxl (s : State) (f : FrontEnd → FrontEnd) : (s.modFe f).cxl = s.cxl := rfl
@[simp] theorem State.modFe_qwaits (s : State) (f : FrontEnd → FrontEnd) : (s.modFe f).qwaits = s.qwaits := rfl
@[simp] theorem State.modFe_tickets (s : State) (f : FrontEnd → FrontEnd) : (s.modFe f).tickets = s.tickets := rfl
@[simp] theorem State.modFe_dies (s : State) (f : FrontEnd → FrontEnd) : (s.modFe f).dies = s.dies := rfl
@[simp] theorem State.modFe_glob (s : State) (f : FrontEnd → FrontEnd) : (s.modFe f).glob = s.glob := rfl
@[simp] theorem State.modFe_fe (s : State) (f : FrontEnd → FrontEnd) : (s.modFe f).fe = f s.fe := rfl
@[simp] theorem State.modFe_time (s : State) (f : FrontEnd → FrontEnd) : (s.modFe f).time = s.time := rfl
@[simp] theorem State.modFe_queries (s : State) (f : FrontEnd → FrontEnd) : (s.modFe f).queries = s.queries := rfl
@[simp] theorem State.modFe_ships (s : State) (f : FrontEnd → FrontEnd) : (s.modFe f).ships = s.ships := rfl
@[simp] theorem State.modFe_hoff (s : State) (f : FrontEnd → FrontEnd) : (s.modFe f).hoff = s.hoff := rfl
@[simp] theorem State.modFe_ports (s : State) (f : FrontEnd → FrontEnd) : (s.modFe f).ports = s.ports := rfl
@[simp] theorem State.modFe_farBuf (s : State) (f : FrontEnd → FrontEnd) : (s.modFe f).farBuf = s.farBuf := rfl
@[simp] theorem State.modFe_bounds (s : State) (f : FrontEnd → FrontEnd) : (s.modFe f).bounds = s.bounds := rfl
@[simp] theorem State.modFe_firm (s : State) (f : FrontEnd → FrontEnd) : (s.modFe f).firm = s.firm := rfl
@[simp] theorem State.modFe_stopped (s : State) (f : FrontEnd → FrontEnd) : (s.modFe f).stopped = s.stopped := rfl

@[simp] theorem State.modFirm_hart (s : State) (f : Firm → Firm) : (s.modFirm f).hart = s.hart := rfl
@[simp] theorem State.modFirm_parked (s : State) (f : Firm → Firm) : (s.modFirm f).parked = s.parked := rfl
@[simp] theorem State.modFirm_sel (s : State) (f : Firm → Firm) : (s.modFirm f).sel = s.sel := rfl
@[simp] theorem State.modFirm_agenda (s : State) (f : Firm → Firm) : (s.modFirm f).agenda = s.agenda := rfl
@[simp] theorem State.modFirm_ticks (s : State) (f : Firm → Firm) : (s.modFirm f).ticks = s.ticks := rfl
@[simp] theorem State.modFirm_clock (s : State) (f : Firm → Firm) : (s.modFirm f).clock = s.clock := rfl
@[simp] theorem State.modFirm_nextUid (s : State) (f : Firm → Firm) : (s.modFirm f).nextUid = s.nextUid := rfl
@[simp] theorem State.modFirm_mem (s : State) (f : Firm → Firm) : (s.modFirm f).mem = s.mem := rfl
@[simp] theorem State.modFirm_wlog (s : State) (f : Firm → Firm) : (s.modFirm f).wlog = s.wlog := rfl
@[simp] theorem State.modFirm_keyOf (s : State) (f : Firm → Firm) : (s.modFirm f).keyOf = s.keyOf := rfl
@[simp] theorem State.modFirm_cores (s : State) (f : Firm → Firm) : (s.modFirm f).cores = s.cores := rfl
@[simp] theorem State.modFirm_teams (s : State) (f : Firm → Firm) : (s.modFirm f).teams = s.teams := rfl
@[simp] theorem State.modFirm_launches (s : State) (f : Firm → Firm) : (s.modFirm f).launches = s.launches := rfl
@[simp] theorem State.modFirm_doms (s : State) (f : Firm → Firm) : (s.modFirm f).doms = s.doms := rfl
@[simp] theorem State.modFirm_msgs (s : State) (f : Firm → Firm) : (s.modFirm f).msgs = s.msgs := rfl
@[simp] theorem State.modFirm_xfers (s : State) (f : Firm → Firm) : (s.modFirm f).xfers = s.xfers := rfl
@[simp] theorem State.modFirm_l1 (s : State) (f : Firm → Firm) : (s.modFirm f).l1 = s.l1 := rfl
@[simp] theorem State.modFirm_cpPoison (s : State) (f : Firm → Firm) : (s.modFirm f).cpPoison = s.cpPoison := rfl
@[simp] theorem State.modFirm_cpLast (s : State) (f : Firm → Firm) : (s.modFirm f).cpLast = s.cpLast := rfl
@[simp] theorem State.modFirm_tlstat (s : State) (f : Firm → Firm) : (s.modFirm f).tlstat = s.tlstat := rfl
@[simp] theorem State.modFirm_tlb (s : State) (f : Firm → Firm) : (s.modFirm f).tlb = s.tlb := rfl
@[simp] theorem State.modFirm_walks (s : State) (f : Firm → Firm) : (s.modFirm f).walks = s.walks := rfl
@[simp] theorem State.modFirm_walkc (s : State) (f : Firm → Firm) : (s.modFirm f).walkc = s.walkc := rfl
@[simp] theorem State.modFirm_l2 (s : State) (f : Firm → Firm) : (s.modFirm f).l2 = s.l2 := rfl
@[simp] theorem State.modFirm_hc (s : State) (f : Firm → Firm) : (s.modFirm f).hc = s.hc := rfl
@[simp] theorem State.modFirm_owns (s : State) (f : Firm → Firm) : (s.modFirm f).owns = s.owns := rfl
@[simp] theorem State.modFirm_parts (s : State) (f : Firm → Firm) : (s.modFirm f).parts = s.parts := rfl
@[simp] theorem State.modFirm_rdc (s : State) (f : Firm → Firm) : (s.modFirm f).rdc = s.rdc := rfl
@[simp] theorem State.modFirm_lost (s : State) (f : Firm → Firm) : (s.modFirm f).lost = s.lost := rfl
@[simp] theorem State.modFirm_poison (s : State) (f : Firm → Firm) : (s.modFirm f).poison = s.poison := rfl
@[simp] theorem State.modFirm_spill (s : State) (f : Firm → Firm) : (s.modFirm f).spill = s.spill := rfl
@[simp] theorem State.modFirm_hostHas (s : State) (f : Firm → Firm) : (s.modFirm f).hostHas = s.hostHas := rfl
@[simp] theorem State.modFirm_hostMod (s : State) (f : Firm → Firm) : (s.modFirm f).hostMod = s.hostMod := rfl
@[simp] theorem State.modFirm_hdm (s : State) (f : Firm → Firm) : (s.modFirm f).hdm = s.hdm := rfl
@[simp] theorem State.modFirm_cxl (s : State) (f : Firm → Firm) : (s.modFirm f).cxl = s.cxl := rfl
@[simp] theorem State.modFirm_qwaits (s : State) (f : Firm → Firm) : (s.modFirm f).qwaits = s.qwaits := rfl
@[simp] theorem State.modFirm_tickets (s : State) (f : Firm → Firm) : (s.modFirm f).tickets = s.tickets := rfl
@[simp] theorem State.modFirm_dies (s : State) (f : Firm → Firm) : (s.modFirm f).dies = s.dies := rfl
@[simp] theorem State.modFirm_glob (s : State) (f : Firm → Firm) : (s.modFirm f).glob = s.glob := rfl
@[simp] theorem State.modFirm_fe (s : State) (f : Firm → Firm) : (s.modFirm f).fe = s.fe := rfl
@[simp] theorem State.modFirm_time (s : State) (f : Firm → Firm) : (s.modFirm f).time = s.time := rfl
@[simp] theorem State.modFirm_queries (s : State) (f : Firm → Firm) : (s.modFirm f).queries = s.queries := rfl
@[simp] theorem State.modFirm_ships (s : State) (f : Firm → Firm) : (s.modFirm f).ships = s.ships := rfl
@[simp] theorem State.modFirm_hoff (s : State) (f : Firm → Firm) : (s.modFirm f).hoff = s.hoff := rfl
@[simp] theorem State.modFirm_ports (s : State) (f : Firm → Firm) : (s.modFirm f).ports = s.ports := rfl
@[simp] theorem State.modFirm_farBuf (s : State) (f : Firm → Firm) : (s.modFirm f).farBuf = s.farBuf := rfl
@[simp] theorem State.modFirm_bounds (s : State) (f : Firm → Firm) : (s.modFirm f).bounds = s.bounds := rfl
@[simp] theorem State.modFirm_firm (s : State) (f : Firm → Firm) : (s.modFirm f).firm = f s.firm := rfl
@[simp] theorem State.modFirm_stopped (s : State) (f : Firm → Firm) : (s.modFirm f).stopped = s.stopped := rfl

@[simp] theorem State.modTeam_hart (s : State) (n : Nat) (f : Team → Team) : (s.modTeam n f).hart = s.hart := rfl
@[simp] theorem State.modTeam_parked (s : State) (n : Nat) (f : Team → Team) : (s.modTeam n f).parked = s.parked := rfl
@[simp] theorem State.modTeam_sel (s : State) (n : Nat) (f : Team → Team) : (s.modTeam n f).sel = s.sel := rfl
@[simp] theorem State.modTeam_agenda (s : State) (n : Nat) (f : Team → Team) : (s.modTeam n f).agenda = s.agenda := rfl
@[simp] theorem State.modTeam_ticks (s : State) (n : Nat) (f : Team → Team) : (s.modTeam n f).ticks = s.ticks := rfl
@[simp] theorem State.modTeam_clock (s : State) (n : Nat) (f : Team → Team) : (s.modTeam n f).clock = s.clock := rfl
@[simp] theorem State.modTeam_nextUid (s : State) (n : Nat) (f : Team → Team) : (s.modTeam n f).nextUid = s.nextUid := rfl
@[simp] theorem State.modTeam_mem (s : State) (n : Nat) (f : Team → Team) : (s.modTeam n f).mem = s.mem := rfl
@[simp] theorem State.modTeam_wlog (s : State) (n : Nat) (f : Team → Team) : (s.modTeam n f).wlog = s.wlog := rfl
@[simp] theorem State.modTeam_keyOf (s : State) (n : Nat) (f : Team → Team) : (s.modTeam n f).keyOf = s.keyOf := rfl
@[simp] theorem State.modTeam_cores (s : State) (n : Nat) (f : Team → Team) : (s.modTeam n f).cores = s.cores := rfl
@[simp] theorem State.modTeam_teams (s : State) (n : Nat) (f : Team → Team) : (s.modTeam n f).teams = s.teams.map (fun x => if x.id = n then f x else x) := rfl
@[simp] theorem State.modTeam_launches (s : State) (n : Nat) (f : Team → Team) : (s.modTeam n f).launches = s.launches := rfl
@[simp] theorem State.modTeam_doms (s : State) (n : Nat) (f : Team → Team) : (s.modTeam n f).doms = s.doms := rfl
@[simp] theorem State.modTeam_msgs (s : State) (n : Nat) (f : Team → Team) : (s.modTeam n f).msgs = s.msgs := rfl
@[simp] theorem State.modTeam_xfers (s : State) (n : Nat) (f : Team → Team) : (s.modTeam n f).xfers = s.xfers := rfl
@[simp] theorem State.modTeam_l1 (s : State) (n : Nat) (f : Team → Team) : (s.modTeam n f).l1 = s.l1 := rfl
@[simp] theorem State.modTeam_cpPoison (s : State) (n : Nat) (f : Team → Team) : (s.modTeam n f).cpPoison = s.cpPoison := rfl
@[simp] theorem State.modTeam_cpLast (s : State) (n : Nat) (f : Team → Team) : (s.modTeam n f).cpLast = s.cpLast := rfl
@[simp] theorem State.modTeam_tlstat (s : State) (n : Nat) (f : Team → Team) : (s.modTeam n f).tlstat = s.tlstat := rfl
@[simp] theorem State.modTeam_tlb (s : State) (n : Nat) (f : Team → Team) : (s.modTeam n f).tlb = s.tlb := rfl
@[simp] theorem State.modTeam_walks (s : State) (n : Nat) (f : Team → Team) : (s.modTeam n f).walks = s.walks := rfl
@[simp] theorem State.modTeam_walkc (s : State) (n : Nat) (f : Team → Team) : (s.modTeam n f).walkc = s.walkc := rfl
@[simp] theorem State.modTeam_l2 (s : State) (n : Nat) (f : Team → Team) : (s.modTeam n f).l2 = s.l2 := rfl
@[simp] theorem State.modTeam_hc (s : State) (n : Nat) (f : Team → Team) : (s.modTeam n f).hc = s.hc := rfl
@[simp] theorem State.modTeam_owns (s : State) (n : Nat) (f : Team → Team) : (s.modTeam n f).owns = s.owns := rfl
@[simp] theorem State.modTeam_parts (s : State) (n : Nat) (f : Team → Team) : (s.modTeam n f).parts = s.parts := rfl
@[simp] theorem State.modTeam_rdc (s : State) (n : Nat) (f : Team → Team) : (s.modTeam n f).rdc = s.rdc := rfl
@[simp] theorem State.modTeam_lost (s : State) (n : Nat) (f : Team → Team) : (s.modTeam n f).lost = s.lost := rfl
@[simp] theorem State.modTeam_poison (s : State) (n : Nat) (f : Team → Team) : (s.modTeam n f).poison = s.poison := rfl
@[simp] theorem State.modTeam_spill (s : State) (n : Nat) (f : Team → Team) : (s.modTeam n f).spill = s.spill := rfl
@[simp] theorem State.modTeam_hostHas (s : State) (n : Nat) (f : Team → Team) : (s.modTeam n f).hostHas = s.hostHas := rfl
@[simp] theorem State.modTeam_hostMod (s : State) (n : Nat) (f : Team → Team) : (s.modTeam n f).hostMod = s.hostMod := rfl
@[simp] theorem State.modTeam_hdm (s : State) (n : Nat) (f : Team → Team) : (s.modTeam n f).hdm = s.hdm := rfl
@[simp] theorem State.modTeam_cxl (s : State) (n : Nat) (f : Team → Team) : (s.modTeam n f).cxl = s.cxl := rfl
@[simp] theorem State.modTeam_qwaits (s : State) (n : Nat) (f : Team → Team) : (s.modTeam n f).qwaits = s.qwaits := rfl
@[simp] theorem State.modTeam_tickets (s : State) (n : Nat) (f : Team → Team) : (s.modTeam n f).tickets = s.tickets := rfl
@[simp] theorem State.modTeam_dies (s : State) (n : Nat) (f : Team → Team) : (s.modTeam n f).dies = s.dies := rfl
@[simp] theorem State.modTeam_glob (s : State) (n : Nat) (f : Team → Team) : (s.modTeam n f).glob = s.glob := rfl
@[simp] theorem State.modTeam_fe (s : State) (n : Nat) (f : Team → Team) : (s.modTeam n f).fe = s.fe := rfl
@[simp] theorem State.modTeam_time (s : State) (n : Nat) (f : Team → Team) : (s.modTeam n f).time = s.time := rfl
@[simp] theorem State.modTeam_queries (s : State) (n : Nat) (f : Team → Team) : (s.modTeam n f).queries = s.queries := rfl
@[simp] theorem State.modTeam_ships (s : State) (n : Nat) (f : Team → Team) : (s.modTeam n f).ships = s.ships := rfl
@[simp] theorem State.modTeam_hoff (s : State) (n : Nat) (f : Team → Team) : (s.modTeam n f).hoff = s.hoff := rfl
@[simp] theorem State.modTeam_ports (s : State) (n : Nat) (f : Team → Team) : (s.modTeam n f).ports = s.ports := rfl
@[simp] theorem State.modTeam_farBuf (s : State) (n : Nat) (f : Team → Team) : (s.modTeam n f).farBuf = s.farBuf := rfl
@[simp] theorem State.modTeam_bounds (s : State) (n : Nat) (f : Team → Team) : (s.modTeam n f).bounds = s.bounds := rfl
@[simp] theorem State.modTeam_firm (s : State) (n : Nat) (f : Team → Team) : (s.modTeam n f).firm = s.firm := rfl
@[simp] theorem State.modTeam_stopped (s : State) (n : Nat) (f : Team → Team) : (s.modTeam n f).stopped = s.stopped := rfl

@[simp] theorem State.modLaunch_hart (s : State) (n : Nat) (f : Launch → Launch) : (s.modLaunch n f).hart = s.hart := rfl
@[simp] theorem State.modLaunch_parked (s : State) (n : Nat) (f : Launch → Launch) : (s.modLaunch n f).parked = s.parked := rfl
@[simp] theorem State.modLaunch_sel (s : State) (n : Nat) (f : Launch → Launch) : (s.modLaunch n f).sel = s.sel := rfl
@[simp] theorem State.modLaunch_agenda (s : State) (n : Nat) (f : Launch → Launch) : (s.modLaunch n f).agenda = s.agenda := rfl
@[simp] theorem State.modLaunch_ticks (s : State) (n : Nat) (f : Launch → Launch) : (s.modLaunch n f).ticks = s.ticks := rfl
@[simp] theorem State.modLaunch_clock (s : State) (n : Nat) (f : Launch → Launch) : (s.modLaunch n f).clock = s.clock := rfl
@[simp] theorem State.modLaunch_nextUid (s : State) (n : Nat) (f : Launch → Launch) : (s.modLaunch n f).nextUid = s.nextUid := rfl
@[simp] theorem State.modLaunch_mem (s : State) (n : Nat) (f : Launch → Launch) : (s.modLaunch n f).mem = s.mem := rfl
@[simp] theorem State.modLaunch_wlog (s : State) (n : Nat) (f : Launch → Launch) : (s.modLaunch n f).wlog = s.wlog := rfl
@[simp] theorem State.modLaunch_keyOf (s : State) (n : Nat) (f : Launch → Launch) : (s.modLaunch n f).keyOf = s.keyOf := rfl
@[simp] theorem State.modLaunch_cores (s : State) (n : Nat) (f : Launch → Launch) : (s.modLaunch n f).cores = s.cores := rfl
@[simp] theorem State.modLaunch_teams (s : State) (n : Nat) (f : Launch → Launch) : (s.modLaunch n f).teams = s.teams := rfl
@[simp] theorem State.modLaunch_launches (s : State) (n : Nat) (f : Launch → Launch) : (s.modLaunch n f).launches = s.launches.map (fun x => if x.id = n then f x else x) := rfl
@[simp] theorem State.modLaunch_doms (s : State) (n : Nat) (f : Launch → Launch) : (s.modLaunch n f).doms = s.doms := rfl
@[simp] theorem State.modLaunch_msgs (s : State) (n : Nat) (f : Launch → Launch) : (s.modLaunch n f).msgs = s.msgs := rfl
@[simp] theorem State.modLaunch_xfers (s : State) (n : Nat) (f : Launch → Launch) : (s.modLaunch n f).xfers = s.xfers := rfl
@[simp] theorem State.modLaunch_l1 (s : State) (n : Nat) (f : Launch → Launch) : (s.modLaunch n f).l1 = s.l1 := rfl
@[simp] theorem State.modLaunch_cpPoison (s : State) (n : Nat) (f : Launch → Launch) : (s.modLaunch n f).cpPoison = s.cpPoison := rfl
@[simp] theorem State.modLaunch_cpLast (s : State) (n : Nat) (f : Launch → Launch) : (s.modLaunch n f).cpLast = s.cpLast := rfl
@[simp] theorem State.modLaunch_tlstat (s : State) (n : Nat) (f : Launch → Launch) : (s.modLaunch n f).tlstat = s.tlstat := rfl
@[simp] theorem State.modLaunch_tlb (s : State) (n : Nat) (f : Launch → Launch) : (s.modLaunch n f).tlb = s.tlb := rfl
@[simp] theorem State.modLaunch_walks (s : State) (n : Nat) (f : Launch → Launch) : (s.modLaunch n f).walks = s.walks := rfl
@[simp] theorem State.modLaunch_walkc (s : State) (n : Nat) (f : Launch → Launch) : (s.modLaunch n f).walkc = s.walkc := rfl
@[simp] theorem State.modLaunch_l2 (s : State) (n : Nat) (f : Launch → Launch) : (s.modLaunch n f).l2 = s.l2 := rfl
@[simp] theorem State.modLaunch_hc (s : State) (n : Nat) (f : Launch → Launch) : (s.modLaunch n f).hc = s.hc := rfl
@[simp] theorem State.modLaunch_owns (s : State) (n : Nat) (f : Launch → Launch) : (s.modLaunch n f).owns = s.owns := rfl
@[simp] theorem State.modLaunch_parts (s : State) (n : Nat) (f : Launch → Launch) : (s.modLaunch n f).parts = s.parts := rfl
@[simp] theorem State.modLaunch_rdc (s : State) (n : Nat) (f : Launch → Launch) : (s.modLaunch n f).rdc = s.rdc := rfl
@[simp] theorem State.modLaunch_lost (s : State) (n : Nat) (f : Launch → Launch) : (s.modLaunch n f).lost = s.lost := rfl
@[simp] theorem State.modLaunch_poison (s : State) (n : Nat) (f : Launch → Launch) : (s.modLaunch n f).poison = s.poison := rfl
@[simp] theorem State.modLaunch_spill (s : State) (n : Nat) (f : Launch → Launch) : (s.modLaunch n f).spill = s.spill := rfl
@[simp] theorem State.modLaunch_hostHas (s : State) (n : Nat) (f : Launch → Launch) : (s.modLaunch n f).hostHas = s.hostHas := rfl
@[simp] theorem State.modLaunch_hostMod (s : State) (n : Nat) (f : Launch → Launch) : (s.modLaunch n f).hostMod = s.hostMod := rfl
@[simp] theorem State.modLaunch_hdm (s : State) (n : Nat) (f : Launch → Launch) : (s.modLaunch n f).hdm = s.hdm := rfl
@[simp] theorem State.modLaunch_cxl (s : State) (n : Nat) (f : Launch → Launch) : (s.modLaunch n f).cxl = s.cxl := rfl
@[simp] theorem State.modLaunch_qwaits (s : State) (n : Nat) (f : Launch → Launch) : (s.modLaunch n f).qwaits = s.qwaits := rfl
@[simp] theorem State.modLaunch_tickets (s : State) (n : Nat) (f : Launch → Launch) : (s.modLaunch n f).tickets = s.tickets := rfl
@[simp] theorem State.modLaunch_dies (s : State) (n : Nat) (f : Launch → Launch) : (s.modLaunch n f).dies = s.dies := rfl
@[simp] theorem State.modLaunch_glob (s : State) (n : Nat) (f : Launch → Launch) : (s.modLaunch n f).glob = s.glob := rfl
@[simp] theorem State.modLaunch_fe (s : State) (n : Nat) (f : Launch → Launch) : (s.modLaunch n f).fe = s.fe := rfl
@[simp] theorem State.modLaunch_time (s : State) (n : Nat) (f : Launch → Launch) : (s.modLaunch n f).time = s.time := rfl
@[simp] theorem State.modLaunch_queries (s : State) (n : Nat) (f : Launch → Launch) : (s.modLaunch n f).queries = s.queries := rfl
@[simp] theorem State.modLaunch_ships (s : State) (n : Nat) (f : Launch → Launch) : (s.modLaunch n f).ships = s.ships := rfl
@[simp] theorem State.modLaunch_hoff (s : State) (n : Nat) (f : Launch → Launch) : (s.modLaunch n f).hoff = s.hoff := rfl
@[simp] theorem State.modLaunch_ports (s : State) (n : Nat) (f : Launch → Launch) : (s.modLaunch n f).ports = s.ports := rfl
@[simp] theorem State.modLaunch_farBuf (s : State) (n : Nat) (f : Launch → Launch) : (s.modLaunch n f).farBuf = s.farBuf := rfl
@[simp] theorem State.modLaunch_bounds (s : State) (n : Nat) (f : Launch → Launch) : (s.modLaunch n f).bounds = s.bounds := rfl
@[simp] theorem State.modLaunch_firm (s : State) (n : Nat) (f : Launch → Launch) : (s.modLaunch n f).firm = s.firm := rfl
@[simp] theorem State.modLaunch_stopped (s : State) (n : Nat) (f : Launch → Launch) : (s.modLaunch n f).stopped = s.stopped := rfl

/-! ## Updates of a hart -/

@[simp] theorem Hart.setX_gid (h : Hart) (r : XReg) (v : Word) : (h.setX r v).gid = h.gid := by unfold Hart.setX; split <;> rfl
@[simp] theorem Hart.setX_run (h : Hart) (r : XReg) (v : Word) : (h.setX r v).run = h.run := by unfold Hart.setX; split <;> rfl
@[simp] theorem Hart.setX_team (h : Hart) (r : XReg) (v : Word) : (h.setX r v).team = h.team := by unfold Hart.setX; split <;> rfl
@[simp] theorem Hart.setX_role (h : Hart) (r : XReg) (v : Word) : (h.setX r v).role = h.role := by unfold Hart.setX; split <;> rfl
@[simp] theorem Hart.setX_num (h : Hart) (r : XReg) (v : Word) : (h.setX r v).num = h.num := by unfold Hart.setX; split <;> rfl
@[simp] theorem Hart.setX_pc (h : Hart) (r : XReg) (v : Word) : (h.setX r v).pc = h.pc := by unfold Hart.setX; split <;> rfl
@[simp] theorem Hart.setX_mode (h : Hart) (r : XReg) (v : Word) : (h.setX r v).mode = h.mode := by unfold Hart.setX; split <;> rfl
@[simp] theorem Hart.setX_ir (h : Hart) (r : XReg) (v : Word) : (h.setX r v).ir = h.ir := by unfold Hart.setX; split <;> rfl
@[simp] theorem Hart.setX_ilen (h : Hart) (r : XReg) (v : Word) : (h.setX r v).ilen = h.ilen := by unfold Hart.setX; split <;> rfl
@[simp] theorem Hart.setX_x (h : Hart) (r : XReg) (v : Word) : (h.setX r v).x = if r = 0 then h.x else fset 0 h.x r.toNat v := by unfold Hart.setX; split <;> rfl
@[simp] theorem Hart.setX_f (h : Hart) (r : XReg) (v : Word) : (h.setX r v).f = h.f := by unfold Hart.setX; split <;> rfl
@[simp] theorem Hart.setX_v (h : Hart) (r : XReg) (v : Word) : (h.setX r v).v = h.v := by unfold Hart.setX; split <;> rfl
@[simp] theorem Hart.setX_m (h : Hart) (r : XReg) (v : Word) : (h.setX r v).m = h.m := by unfold Hart.setX; split <;> rfl
@[simp] theorem Hart.setX_live (h : Hart) (r : XReg) (v : Word) : (h.setX r v).live = h.live := by unfold Hart.setX; split <;> rfl
@[simp] theorem Hart.setX_mstk (h : Hart) (r : XReg) (v : Word) : (h.setX r v).mstk = h.mstk := by unfold Hart.setX; split <;> rfl
@[simp] theorem Hart.setX_lalloc (h : Hart) (r : XReg) (v : Word) : (h.setX r v).lalloc = h.lalloc := by unfold Hart.setX; split <;> rfl
@[simp] theorem Hart.setX_csr (h : Hart) (r : XReg) (v : Word) : (h.setX r v).csr = h.csr := by unfold Hart.setX; split <;> rfl
@[simp] theorem Hart.setX_lpcnt0 (h : Hart) (r : XReg) (v : Word) : (h.setX r v).lpcnt0 = h.lpcnt0 := by unfold Hart.setX; split <;> rfl
@[simp] theorem Hart.setX_lpbeg0 (h : Hart) (r : XReg) (v : Word) : (h.setX r v).lpbeg0 = h.lpbeg0 := by unfold Hart.setX; split <;> rfl
@[simp] theorem Hart.setX_lpend0 (h : Hart) (r : XReg) (v : Word) : (h.setX r v).lpend0 = h.lpend0 := by unfold Hart.setX; split <;> rfl
@[simp] theorem Hart.setX_lpxe0 (h : Hart) (r : XReg) (v : Word) : (h.setX r v).lpxe0 = h.lpxe0 := by unfold Hart.setX; split <;> rfl
@[simp] theorem Hart.setX_lpcnt1 (h : Hart) (r : XReg) (v : Word) : (h.setX r v).lpcnt1 = h.lpcnt1 := by unfold Hart.setX; split <;> rfl
@[simp] theorem Hart.setX_lpbeg1 (h : Hart) (r : XReg) (v : Word) : (h.setX r v).lpbeg1 = h.lpbeg1 := by unfold Hart.setX; split <;> rfl
@[simp] theorem Hart.setX_lpend1 (h : Hart) (r : XReg) (v : Word) : (h.setX r v).lpend1 = h.lpend1 := by unfold Hart.setX; split <;> rfl
@[simp] theorem Hart.setX_lpxe1 (h : Hart) (r : XReg) (v : Word) : (h.setX r v).lpxe1 = h.lpxe1 := by unfold Hart.setX; split <;> rfl
@[simp] theorem Hart.setX_srctr (h : Hart) (r : XReg) (v : Word) : (h.setX r v).srctr = h.srctr := by unfold Hart.setX; split <;> rfl
@[simp] theorem Hart.setX_srseed (h : Hart) (r : XReg) (v : Word) : (h.setX r v).srseed = h.srseed := by unfold Hart.setX; split <;> rfl
@[simp] theorem Hart.setX_srhid (h : Hart) (r : XReg) (v : Word) : (h.setX r v).srhid = h.srhid := by unfold Hart.setX; split <;> rfl
@[simp] theorem Hart.setX_barpend (h : Hart) (r : XReg) (v : Word) : (h.setX r v).barpend = h.barpend := by unfold Hart.setX; split <;> rfl
@[simp] theorem Hart.setX_barpc (h : Hart) (r : XReg) (v : Word) : (h.setX r v).barpc = h.barpc := by unfold Hart.setX; split <;> rfl
@[simp] theorem Hart.setX_uivec (h : Hart) (r : XReg) (v : Word) : (h.setX r v).uivec = h.uivec := by unfold Hart.setX; split <;> rfl
@[simp] theorem Hart.setX_uiepc (h : Hart) (r : XReg) (v : Word) : (h.setX r v).uiepc = h.uiepc := by unfold Hart.setX; split <;> rfl
@[simp] theorem Hart.setX_uicause (h : Hart) (r : XReg) (v : Word) : (h.setX r v).uicause = h.uicause := by unfold Hart.setX; split <;> rfl
@[simp] theorem Hart.setX_uiid (h : Hart) (r : XReg) (v : Word) : (h.setX r v).uiid = h.uiid := by unfold Hart.setX; split <;> rfl
@[simp] theorem Hart.setX_uiIe (h : Hart) (r : XReg) (v : Word) : (h.setX r v).uiIe = h.uiIe := by unfold Hart.setX; split <;> rfl
@[simp] theorem Hart.setX_uiAct (h : Hart) (r : XReg) (v : Word) : (h.setX r v).uiAct = h.uiAct := by unfold Hart.setX; split <;> rfl
@[simp] theorem Hart.setX_uiUntil (h : Hart) (r : XReg) (v : Word) : (h.setX r v).uiUntil = h.uiUntil := by unfold Hart.setX; split <;> rfl
@[simp] theorem Hart.setX_uiq (h : Hart) (r : XReg) (v : Word) : (h.setX r v).uiq = h.uiq := by unfold Hart.setX; split <;> rfl
@[simp] theorem Hart.setX_uiHeld (h : Hart) (r : XReg) (v : Word) : (h.setX r v).uiHeld = h.uiHeld := by unfold Hart.setX; split <;> rfl
@[simp] theorem Hart.setX_shadow (h : Hart) (r : XReg) (v : Word) : (h.setX r v).shadow = h.shadow := by unfold Hart.setX; split <;> rfl
@[simp] theorem Hart.setX_mbox (h : Hart) (r : XReg) (v : Word) : (h.setX r v).mbox = h.mbox := by unfold Hart.setX; split <;> rfl
@[simp] theorem Hart.setX_mbpres (h : Hart) (r : XReg) (v : Word) : (h.setX r v).mbpres = h.mbpres := by unfold Hart.setX; split <;> rfl
@[simp] theorem Hart.setX_mbsrc (h : Hart) (r : XReg) (v : Word) : (h.setX r v).mbsrc = h.mbsrc := by unfold Hart.setX; split <;> rfl
@[simp] theorem Hart.setX_wpc (h : Hart) (r : XReg) (v : Word) : (h.setX r v).wpc = h.wpc := by unfold Hart.setX; split <;> rfl
@[simp] theorem Hart.setX_wcause (h : Hart) (r : XReg) (v : Word) : (h.setX r v).wcause = h.wcause := by unfold Hart.setX; split <;> rfl
@[simp] theorem Hart.setX_lfault (h : Hart) (r : XReg) (v : Word) : (h.setX r v).lfault = h.lfault := by unfold Hart.setX; split <;> rfl
@[simp] theorem Hart.setX_lfrec (h : Hart) (r : XReg) (v : Word) : (h.setX r v).lfrec = h.lfrec := by unfold Hart.setX; split <;> rfl
@[simp] theorem Hart.setX_lcomp (h : Hart) (r : XReg) (v : Word) : (h.setX r v).lcomp = h.lcomp := by unfold Hart.setX; split <;> rfl
@[simp] theorem Hart.setX_cnt0 (h : Hart) (r : XReg) (v : Word) : (h.setX r v).cnt0 = h.cnt0 := by unfold Hart.setX; split <;> rfl
@[simp] theorem Hart.setX_cnt1 (h : Hart) (r : XReg) (v : Word) : (h.setX r v).cnt1 = h.cnt1 := by unfold Hart.setX; split <;> rfl
@[simp] theorem Hart.setX_cnt2 (h : Hart) (r : XReg) (v : Word) : (h.setX r v).cnt2 = h.cnt2 := by unfold Hart.setX; split <;> rfl
@[simp] theorem Hart.setX_cnt3 (h : Hart) (r : XReg) (v : Word) : (h.setX r v).cnt3 = h.cnt3 := by unfold Hart.setX; split <;> rfl
@[simp] theorem Hart.setX_out2 (h : Hart) (r : XReg) (v : Word) : (h.setX r v).out2 = h.out2 := by unfold Hart.setX; split <;> rfl
@[simp] theorem Hart.setX_cscope (h : Hart) (r : XReg) (v : Word) : (h.setX r v).cscope = h.cscope := by unfold Hart.setX; split <;> rfl
@[simp] theorem Hart.setX_strm (h : Hart) (r : XReg) (v : Word) : (h.setX r v).strm = h.strm := by unfold Hart.setX; split <;> rfl
@[simp] theorem Hart.setX_nextXfer (h : Hart) (r : XReg) (v : Word) : (h.setX r v).nextXfer = h.nextXfer := by unfold Hart.setX; split <;> rfl
@[simp] theorem Hart.setX_obs (h : Hart) (r : XReg) (v : Word) : (h.setX r v).obs = h.obs := by unfold Hart.setX; split <;> rfl
@[simp] theorem Hart.setX_obsWait (h : Hart) (r : XReg) (v : Word) : (h.setX r v).obsWait = h.obsWait := by unfold Hart.setX; split <;> rfl
@[simp] theorem Hart.setX_resv (h : Hart) (r : XReg) (v : Word) : (h.setX r v).resv = h.resv := by unfold Hart.setX; split <;> rfl
@[simp] theorem Hart.setX_fenceSeq (h : Hart) (r : XReg) (v : Word) : (h.setX r v).fenceSeq = h.fenceSeq := by unfold Hart.setX; split <;> rfl
@[simp] theorem Hart.setX_divertDue (h : Hart) (r : XReg) (v : Word) : (h.setX r v).divertDue = h.divertDue := by unfold Hart.setX; split <;> rfl
@[simp] theorem Hart.setX_wrapup (h : Hart) (r : XReg) (v : Word) : (h.setX r v).wrapup = h.wrapup := by unfold Hart.setX; split <;> rfl
@[simp] theorem Hart.setX_waitFrom (h : Hart) (r : XReg) (v : Word) : (h.setX r v).waitFrom = h.waitFrom := by unfold Hart.setX; split <;> rfl
@[simp] theorem Hart.setX_answer (h : Hart) (r : XReg) (v : Word) : (h.setX r v).answer = h.answer := by unfold Hart.setX; split <;> rfl
@[simp] theorem Hart.setX_results (h : Hart) (r : XReg) (v : Word) : (h.setX r v).results = h.results := by unfold Hart.setX; split <;> rfl
@[simp] theorem Hart.setX_dbg (h : Hart) (r : XReg) (v : Word) : (h.setX r v).dbg = h.dbg := by unfold Hart.setX; split <;> rfl

@[simp] theorem Hart.setF_gid (h : Hart) (r : XReg) (v : Word) : (h.setF r v).gid = h.gid := rfl
@[simp] theorem Hart.setF_run (h : Hart) (r : XReg) (v : Word) : (h.setF r v).run = h.run := rfl
@[simp] theorem Hart.setF_team (h : Hart) (r : XReg) (v : Word) : (h.setF r v).team = h.team := rfl
@[simp] theorem Hart.setF_role (h : Hart) (r : XReg) (v : Word) : (h.setF r v).role = h.role := rfl
@[simp] theorem Hart.setF_num (h : Hart) (r : XReg) (v : Word) : (h.setF r v).num = h.num := rfl
@[simp] theorem Hart.setF_pc (h : Hart) (r : XReg) (v : Word) : (h.setF r v).pc = h.pc := rfl
@[simp] theorem Hart.setF_mode (h : Hart) (r : XReg) (v : Word) : (h.setF r v).mode = h.mode := rfl
@[simp] theorem Hart.setF_ir (h : Hart) (r : XReg) (v : Word) : (h.setF r v).ir = h.ir := rfl
@[simp] theorem Hart.setF_ilen (h : Hart) (r : XReg) (v : Word) : (h.setF r v).ilen = h.ilen := rfl
@[simp] theorem Hart.setF_x (h : Hart) (r : XReg) (v : Word) : (h.setF r v).x = h.x := rfl
@[simp] theorem Hart.setF_f (h : Hart) (r : XReg) (v : Word) : (h.setF r v).f = fset 0 h.f r.toNat v := rfl
@[simp] theorem Hart.setF_v (h : Hart) (r : XReg) (v : Word) : (h.setF r v).v = h.v := rfl
@[simp] theorem Hart.setF_m (h : Hart) (r : XReg) (v : Word) : (h.setF r v).m = h.m := rfl
@[simp] theorem Hart.setF_live (h : Hart) (r : XReg) (v : Word) : (h.setF r v).live = h.live := rfl
@[simp] theorem Hart.setF_mstk (h : Hart) (r : XReg) (v : Word) : (h.setF r v).mstk = h.mstk := rfl
@[simp] theorem Hart.setF_lalloc (h : Hart) (r : XReg) (v : Word) : (h.setF r v).lalloc = h.lalloc := rfl
@[simp] theorem Hart.setF_csr (h : Hart) (r : XReg) (v : Word) : (h.setF r v).csr = h.csr := rfl
@[simp] theorem Hart.setF_lpcnt0 (h : Hart) (r : XReg) (v : Word) : (h.setF r v).lpcnt0 = h.lpcnt0 := rfl
@[simp] theorem Hart.setF_lpbeg0 (h : Hart) (r : XReg) (v : Word) : (h.setF r v).lpbeg0 = h.lpbeg0 := rfl
@[simp] theorem Hart.setF_lpend0 (h : Hart) (r : XReg) (v : Word) : (h.setF r v).lpend0 = h.lpend0 := rfl
@[simp] theorem Hart.setF_lpxe0 (h : Hart) (r : XReg) (v : Word) : (h.setF r v).lpxe0 = h.lpxe0 := rfl
@[simp] theorem Hart.setF_lpcnt1 (h : Hart) (r : XReg) (v : Word) : (h.setF r v).lpcnt1 = h.lpcnt1 := rfl
@[simp] theorem Hart.setF_lpbeg1 (h : Hart) (r : XReg) (v : Word) : (h.setF r v).lpbeg1 = h.lpbeg1 := rfl
@[simp] theorem Hart.setF_lpend1 (h : Hart) (r : XReg) (v : Word) : (h.setF r v).lpend1 = h.lpend1 := rfl
@[simp] theorem Hart.setF_lpxe1 (h : Hart) (r : XReg) (v : Word) : (h.setF r v).lpxe1 = h.lpxe1 := rfl
@[simp] theorem Hart.setF_srctr (h : Hart) (r : XReg) (v : Word) : (h.setF r v).srctr = h.srctr := rfl
@[simp] theorem Hart.setF_srseed (h : Hart) (r : XReg) (v : Word) : (h.setF r v).srseed = h.srseed := rfl
@[simp] theorem Hart.setF_srhid (h : Hart) (r : XReg) (v : Word) : (h.setF r v).srhid = h.srhid := rfl
@[simp] theorem Hart.setF_barpend (h : Hart) (r : XReg) (v : Word) : (h.setF r v).barpend = h.barpend := rfl
@[simp] theorem Hart.setF_barpc (h : Hart) (r : XReg) (v : Word) : (h.setF r v).barpc = h.barpc := rfl
@[simp] theorem Hart.setF_uivec (h : Hart) (r : XReg) (v : Word) : (h.setF r v).uivec = h.uivec := rfl
@[simp] theorem Hart.setF_uiepc (h : Hart) (r : XReg) (v : Word) : (h.setF r v).uiepc = h.uiepc := rfl
@[simp] theorem Hart.setF_uicause (h : Hart) (r : XReg) (v : Word) : (h.setF r v).uicause = h.uicause := rfl
@[simp] theorem Hart.setF_uiid (h : Hart) (r : XReg) (v : Word) : (h.setF r v).uiid = h.uiid := rfl
@[simp] theorem Hart.setF_uiIe (h : Hart) (r : XReg) (v : Word) : (h.setF r v).uiIe = h.uiIe := rfl
@[simp] theorem Hart.setF_uiAct (h : Hart) (r : XReg) (v : Word) : (h.setF r v).uiAct = h.uiAct := rfl
@[simp] theorem Hart.setF_uiUntil (h : Hart) (r : XReg) (v : Word) : (h.setF r v).uiUntil = h.uiUntil := rfl
@[simp] theorem Hart.setF_uiq (h : Hart) (r : XReg) (v : Word) : (h.setF r v).uiq = h.uiq := rfl
@[simp] theorem Hart.setF_uiHeld (h : Hart) (r : XReg) (v : Word) : (h.setF r v).uiHeld = h.uiHeld := rfl
@[simp] theorem Hart.setF_shadow (h : Hart) (r : XReg) (v : Word) : (h.setF r v).shadow = h.shadow := rfl
@[simp] theorem Hart.setF_mbox (h : Hart) (r : XReg) (v : Word) : (h.setF r v).mbox = h.mbox := rfl
@[simp] theorem Hart.setF_mbpres (h : Hart) (r : XReg) (v : Word) : (h.setF r v).mbpres = h.mbpres := rfl
@[simp] theorem Hart.setF_mbsrc (h : Hart) (r : XReg) (v : Word) : (h.setF r v).mbsrc = h.mbsrc := rfl
@[simp] theorem Hart.setF_wpc (h : Hart) (r : XReg) (v : Word) : (h.setF r v).wpc = h.wpc := rfl
@[simp] theorem Hart.setF_wcause (h : Hart) (r : XReg) (v : Word) : (h.setF r v).wcause = h.wcause := rfl
@[simp] theorem Hart.setF_lfault (h : Hart) (r : XReg) (v : Word) : (h.setF r v).lfault = h.lfault := rfl
@[simp] theorem Hart.setF_lfrec (h : Hart) (r : XReg) (v : Word) : (h.setF r v).lfrec = h.lfrec := rfl
@[simp] theorem Hart.setF_lcomp (h : Hart) (r : XReg) (v : Word) : (h.setF r v).lcomp = h.lcomp := rfl
@[simp] theorem Hart.setF_cnt0 (h : Hart) (r : XReg) (v : Word) : (h.setF r v).cnt0 = h.cnt0 := rfl
@[simp] theorem Hart.setF_cnt1 (h : Hart) (r : XReg) (v : Word) : (h.setF r v).cnt1 = h.cnt1 := rfl
@[simp] theorem Hart.setF_cnt2 (h : Hart) (r : XReg) (v : Word) : (h.setF r v).cnt2 = h.cnt2 := rfl
@[simp] theorem Hart.setF_cnt3 (h : Hart) (r : XReg) (v : Word) : (h.setF r v).cnt3 = h.cnt3 := rfl
@[simp] theorem Hart.setF_out2 (h : Hart) (r : XReg) (v : Word) : (h.setF r v).out2 = h.out2 := rfl
@[simp] theorem Hart.setF_cscope (h : Hart) (r : XReg) (v : Word) : (h.setF r v).cscope = h.cscope := rfl
@[simp] theorem Hart.setF_strm (h : Hart) (r : XReg) (v : Word) : (h.setF r v).strm = h.strm := rfl
@[simp] theorem Hart.setF_nextXfer (h : Hart) (r : XReg) (v : Word) : (h.setF r v).nextXfer = h.nextXfer := rfl
@[simp] theorem Hart.setF_obs (h : Hart) (r : XReg) (v : Word) : (h.setF r v).obs = h.obs := rfl
@[simp] theorem Hart.setF_obsWait (h : Hart) (r : XReg) (v : Word) : (h.setF r v).obsWait = h.obsWait := rfl
@[simp] theorem Hart.setF_resv (h : Hart) (r : XReg) (v : Word) : (h.setF r v).resv = h.resv := rfl
@[simp] theorem Hart.setF_fenceSeq (h : Hart) (r : XReg) (v : Word) : (h.setF r v).fenceSeq = h.fenceSeq := rfl
@[simp] theorem Hart.setF_divertDue (h : Hart) (r : XReg) (v : Word) : (h.setF r v).divertDue = h.divertDue := rfl
@[simp] theorem Hart.setF_wrapup (h : Hart) (r : XReg) (v : Word) : (h.setF r v).wrapup = h.wrapup := rfl
@[simp] theorem Hart.setF_waitFrom (h : Hart) (r : XReg) (v : Word) : (h.setF r v).waitFrom = h.waitFrom := rfl
@[simp] theorem Hart.setF_answer (h : Hart) (r : XReg) (v : Word) : (h.setF r v).answer = h.answer := rfl
@[simp] theorem Hart.setF_results (h : Hart) (r : XReg) (v : Word) : (h.setF r v).results = h.results := rfl
@[simp] theorem Hart.setF_dbg (h : Hart) (r : XReg) (v : Word) : (h.setF r v).dbg = h.dbg := rfl

@[simp] theorem Hart.setV_gid (h : Hart) (r i : Nat) (v : Lane) : (h.setV r i v).gid = h.gid := rfl
@[simp] theorem Hart.setV_run (h : Hart) (r i : Nat) (v : Lane) : (h.setV r i v).run = h.run := rfl
@[simp] theorem Hart.setV_team (h : Hart) (r i : Nat) (v : Lane) : (h.setV r i v).team = h.team := rfl
@[simp] theorem Hart.setV_role (h : Hart) (r i : Nat) (v : Lane) : (h.setV r i v).role = h.role := rfl
@[simp] theorem Hart.setV_num (h : Hart) (r i : Nat) (v : Lane) : (h.setV r i v).num = h.num := rfl
@[simp] theorem Hart.setV_pc (h : Hart) (r i : Nat) (v : Lane) : (h.setV r i v).pc = h.pc := rfl
@[simp] theorem Hart.setV_mode (h : Hart) (r i : Nat) (v : Lane) : (h.setV r i v).mode = h.mode := rfl
@[simp] theorem Hart.setV_ir (h : Hart) (r i : Nat) (v : Lane) : (h.setV r i v).ir = h.ir := rfl
@[simp] theorem Hart.setV_ilen (h : Hart) (r i : Nat) (v : Lane) : (h.setV r i v).ilen = h.ilen := rfl
@[simp] theorem Hart.setV_x (h : Hart) (r i : Nat) (v : Lane) : (h.setV r i v).x = h.x := rfl
@[simp] theorem Hart.setV_f (h : Hart) (r i : Nat) (v : Lane) : (h.setV r i v).f = h.f := rfl
@[simp] theorem Hart.setV_v (h : Hart) (r i : Nat) (v : Lane) : (h.setV r i v).v = fset 0 h.v (32 * r + i) v := rfl
@[simp] theorem Hart.setV_m (h : Hart) (r i : Nat) (v : Lane) : (h.setV r i v).m = h.m := rfl
@[simp] theorem Hart.setV_live (h : Hart) (r i : Nat) (v : Lane) : (h.setV r i v).live = h.live := rfl
@[simp] theorem Hart.setV_mstk (h : Hart) (r i : Nat) (v : Lane) : (h.setV r i v).mstk = h.mstk := rfl
@[simp] theorem Hart.setV_lalloc (h : Hart) (r i : Nat) (v : Lane) : (h.setV r i v).lalloc = h.lalloc := rfl
@[simp] theorem Hart.setV_csr (h : Hart) (r i : Nat) (v : Lane) : (h.setV r i v).csr = h.csr := rfl
@[simp] theorem Hart.setV_lpcnt0 (h : Hart) (r i : Nat) (v : Lane) : (h.setV r i v).lpcnt0 = h.lpcnt0 := rfl
@[simp] theorem Hart.setV_lpbeg0 (h : Hart) (r i : Nat) (v : Lane) : (h.setV r i v).lpbeg0 = h.lpbeg0 := rfl
@[simp] theorem Hart.setV_lpend0 (h : Hart) (r i : Nat) (v : Lane) : (h.setV r i v).lpend0 = h.lpend0 := rfl
@[simp] theorem Hart.setV_lpxe0 (h : Hart) (r i : Nat) (v : Lane) : (h.setV r i v).lpxe0 = h.lpxe0 := rfl
@[simp] theorem Hart.setV_lpcnt1 (h : Hart) (r i : Nat) (v : Lane) : (h.setV r i v).lpcnt1 = h.lpcnt1 := rfl
@[simp] theorem Hart.setV_lpbeg1 (h : Hart) (r i : Nat) (v : Lane) : (h.setV r i v).lpbeg1 = h.lpbeg1 := rfl
@[simp] theorem Hart.setV_lpend1 (h : Hart) (r i : Nat) (v : Lane) : (h.setV r i v).lpend1 = h.lpend1 := rfl
@[simp] theorem Hart.setV_lpxe1 (h : Hart) (r i : Nat) (v : Lane) : (h.setV r i v).lpxe1 = h.lpxe1 := rfl
@[simp] theorem Hart.setV_srctr (h : Hart) (r i : Nat) (v : Lane) : (h.setV r i v).srctr = h.srctr := rfl
@[simp] theorem Hart.setV_srseed (h : Hart) (r i : Nat) (v : Lane) : (h.setV r i v).srseed = h.srseed := rfl
@[simp] theorem Hart.setV_srhid (h : Hart) (r i : Nat) (v : Lane) : (h.setV r i v).srhid = h.srhid := rfl
@[simp] theorem Hart.setV_barpend (h : Hart) (r i : Nat) (v : Lane) : (h.setV r i v).barpend = h.barpend := rfl
@[simp] theorem Hart.setV_barpc (h : Hart) (r i : Nat) (v : Lane) : (h.setV r i v).barpc = h.barpc := rfl
@[simp] theorem Hart.setV_uivec (h : Hart) (r i : Nat) (v : Lane) : (h.setV r i v).uivec = h.uivec := rfl
@[simp] theorem Hart.setV_uiepc (h : Hart) (r i : Nat) (v : Lane) : (h.setV r i v).uiepc = h.uiepc := rfl
@[simp] theorem Hart.setV_uicause (h : Hart) (r i : Nat) (v : Lane) : (h.setV r i v).uicause = h.uicause := rfl
@[simp] theorem Hart.setV_uiid (h : Hart) (r i : Nat) (v : Lane) : (h.setV r i v).uiid = h.uiid := rfl
@[simp] theorem Hart.setV_uiIe (h : Hart) (r i : Nat) (v : Lane) : (h.setV r i v).uiIe = h.uiIe := rfl
@[simp] theorem Hart.setV_uiAct (h : Hart) (r i : Nat) (v : Lane) : (h.setV r i v).uiAct = h.uiAct := rfl
@[simp] theorem Hart.setV_uiUntil (h : Hart) (r i : Nat) (v : Lane) : (h.setV r i v).uiUntil = h.uiUntil := rfl
@[simp] theorem Hart.setV_uiq (h : Hart) (r i : Nat) (v : Lane) : (h.setV r i v).uiq = h.uiq := rfl
@[simp] theorem Hart.setV_uiHeld (h : Hart) (r i : Nat) (v : Lane) : (h.setV r i v).uiHeld = h.uiHeld := rfl
@[simp] theorem Hart.setV_shadow (h : Hart) (r i : Nat) (v : Lane) : (h.setV r i v).shadow = h.shadow := rfl
@[simp] theorem Hart.setV_mbox (h : Hart) (r i : Nat) (v : Lane) : (h.setV r i v).mbox = h.mbox := rfl
@[simp] theorem Hart.setV_mbpres (h : Hart) (r i : Nat) (v : Lane) : (h.setV r i v).mbpres = h.mbpres := rfl
@[simp] theorem Hart.setV_mbsrc (h : Hart) (r i : Nat) (v : Lane) : (h.setV r i v).mbsrc = h.mbsrc := rfl
@[simp] theorem Hart.setV_wpc (h : Hart) (r i : Nat) (v : Lane) : (h.setV r i v).wpc = h.wpc := rfl
@[simp] theorem Hart.setV_wcause (h : Hart) (r i : Nat) (v : Lane) : (h.setV r i v).wcause = h.wcause := rfl
@[simp] theorem Hart.setV_lfault (h : Hart) (r i : Nat) (v : Lane) : (h.setV r i v).lfault = h.lfault := rfl
@[simp] theorem Hart.setV_lfrec (h : Hart) (r i : Nat) (v : Lane) : (h.setV r i v).lfrec = h.lfrec := rfl
@[simp] theorem Hart.setV_lcomp (h : Hart) (r i : Nat) (v : Lane) : (h.setV r i v).lcomp = h.lcomp := rfl
@[simp] theorem Hart.setV_cnt0 (h : Hart) (r i : Nat) (v : Lane) : (h.setV r i v).cnt0 = h.cnt0 := rfl
@[simp] theorem Hart.setV_cnt1 (h : Hart) (r i : Nat) (v : Lane) : (h.setV r i v).cnt1 = h.cnt1 := rfl
@[simp] theorem Hart.setV_cnt2 (h : Hart) (r i : Nat) (v : Lane) : (h.setV r i v).cnt2 = h.cnt2 := rfl
@[simp] theorem Hart.setV_cnt3 (h : Hart) (r i : Nat) (v : Lane) : (h.setV r i v).cnt3 = h.cnt3 := rfl
@[simp] theorem Hart.setV_out2 (h : Hart) (r i : Nat) (v : Lane) : (h.setV r i v).out2 = h.out2 := rfl
@[simp] theorem Hart.setV_cscope (h : Hart) (r i : Nat) (v : Lane) : (h.setV r i v).cscope = h.cscope := rfl
@[simp] theorem Hart.setV_strm (h : Hart) (r i : Nat) (v : Lane) : (h.setV r i v).strm = h.strm := rfl
@[simp] theorem Hart.setV_nextXfer (h : Hart) (r i : Nat) (v : Lane) : (h.setV r i v).nextXfer = h.nextXfer := rfl
@[simp] theorem Hart.setV_obs (h : Hart) (r i : Nat) (v : Lane) : (h.setV r i v).obs = h.obs := rfl
@[simp] theorem Hart.setV_obsWait (h : Hart) (r i : Nat) (v : Lane) : (h.setV r i v).obsWait = h.obsWait := rfl
@[simp] theorem Hart.setV_resv (h : Hart) (r i : Nat) (v : Lane) : (h.setV r i v).resv = h.resv := rfl
@[simp] theorem Hart.setV_fenceSeq (h : Hart) (r i : Nat) (v : Lane) : (h.setV r i v).fenceSeq = h.fenceSeq := rfl
@[simp] theorem Hart.setV_divertDue (h : Hart) (r i : Nat) (v : Lane) : (h.setV r i v).divertDue = h.divertDue := rfl
@[simp] theorem Hart.setV_wrapup (h : Hart) (r i : Nat) (v : Lane) : (h.setV r i v).wrapup = h.wrapup := rfl
@[simp] theorem Hart.setV_waitFrom (h : Hart) (r i : Nat) (v : Lane) : (h.setV r i v).waitFrom = h.waitFrom := rfl
@[simp] theorem Hart.setV_answer (h : Hart) (r i : Nat) (v : Lane) : (h.setV r i v).answer = h.answer := rfl
@[simp] theorem Hart.setV_results (h : Hart) (r i : Nat) (v : Lane) : (h.setV r i v).results = h.results := rfl
@[simp] theorem Hart.setV_dbg (h : Hart) (r i : Nat) (v : Lane) : (h.setV r i v).dbg = h.dbg := rfl

@[simp] theorem Hart.setM_gid (h : Hart) (k : MReg) (v : Mask) : (h.setM k v).gid = h.gid := rfl
@[simp] theorem Hart.setM_run (h : Hart) (k : MReg) (v : Mask) : (h.setM k v).run = h.run := rfl
@[simp] theorem Hart.setM_team (h : Hart) (k : MReg) (v : Mask) : (h.setM k v).team = h.team := rfl
@[simp] theorem Hart.setM_role (h : Hart) (k : MReg) (v : Mask) : (h.setM k v).role = h.role := rfl
@[simp] theorem Hart.setM_num (h : Hart) (k : MReg) (v : Mask) : (h.setM k v).num = h.num := rfl
@[simp] theorem Hart.setM_pc (h : Hart) (k : MReg) (v : Mask) : (h.setM k v).pc = h.pc := rfl
@[simp] theorem Hart.setM_mode (h : Hart) (k : MReg) (v : Mask) : (h.setM k v).mode = h.mode := rfl
@[simp] theorem Hart.setM_ir (h : Hart) (k : MReg) (v : Mask) : (h.setM k v).ir = h.ir := rfl
@[simp] theorem Hart.setM_ilen (h : Hart) (k : MReg) (v : Mask) : (h.setM k v).ilen = h.ilen := rfl
@[simp] theorem Hart.setM_x (h : Hart) (k : MReg) (v : Mask) : (h.setM k v).x = h.x := rfl
@[simp] theorem Hart.setM_f (h : Hart) (k : MReg) (v : Mask) : (h.setM k v).f = h.f := rfl
@[simp] theorem Hart.setM_v (h : Hart) (k : MReg) (v : Mask) : (h.setM k v).v = h.v := rfl
@[simp] theorem Hart.setM_m (h : Hart) (k : MReg) (v : Mask) : (h.setM k v).m = fset 0 h.m k.toNat v := rfl
@[simp] theorem Hart.setM_live (h : Hart) (k : MReg) (v : Mask) : (h.setM k v).live = h.live := rfl
@[simp] theorem Hart.setM_mstk (h : Hart) (k : MReg) (v : Mask) : (h.setM k v).mstk = h.mstk := rfl
@[simp] theorem Hart.setM_lalloc (h : Hart) (k : MReg) (v : Mask) : (h.setM k v).lalloc = h.lalloc := rfl
@[simp] theorem Hart.setM_csr (h : Hart) (k : MReg) (v : Mask) : (h.setM k v).csr = h.csr := rfl
@[simp] theorem Hart.setM_lpcnt0 (h : Hart) (k : MReg) (v : Mask) : (h.setM k v).lpcnt0 = h.lpcnt0 := rfl
@[simp] theorem Hart.setM_lpbeg0 (h : Hart) (k : MReg) (v : Mask) : (h.setM k v).lpbeg0 = h.lpbeg0 := rfl
@[simp] theorem Hart.setM_lpend0 (h : Hart) (k : MReg) (v : Mask) : (h.setM k v).lpend0 = h.lpend0 := rfl
@[simp] theorem Hart.setM_lpxe0 (h : Hart) (k : MReg) (v : Mask) : (h.setM k v).lpxe0 = h.lpxe0 := rfl
@[simp] theorem Hart.setM_lpcnt1 (h : Hart) (k : MReg) (v : Mask) : (h.setM k v).lpcnt1 = h.lpcnt1 := rfl
@[simp] theorem Hart.setM_lpbeg1 (h : Hart) (k : MReg) (v : Mask) : (h.setM k v).lpbeg1 = h.lpbeg1 := rfl
@[simp] theorem Hart.setM_lpend1 (h : Hart) (k : MReg) (v : Mask) : (h.setM k v).lpend1 = h.lpend1 := rfl
@[simp] theorem Hart.setM_lpxe1 (h : Hart) (k : MReg) (v : Mask) : (h.setM k v).lpxe1 = h.lpxe1 := rfl
@[simp] theorem Hart.setM_srctr (h : Hart) (k : MReg) (v : Mask) : (h.setM k v).srctr = h.srctr := rfl
@[simp] theorem Hart.setM_srseed (h : Hart) (k : MReg) (v : Mask) : (h.setM k v).srseed = h.srseed := rfl
@[simp] theorem Hart.setM_srhid (h : Hart) (k : MReg) (v : Mask) : (h.setM k v).srhid = h.srhid := rfl
@[simp] theorem Hart.setM_barpend (h : Hart) (k : MReg) (v : Mask) : (h.setM k v).barpend = h.barpend := rfl
@[simp] theorem Hart.setM_barpc (h : Hart) (k : MReg) (v : Mask) : (h.setM k v).barpc = h.barpc := rfl
@[simp] theorem Hart.setM_uivec (h : Hart) (k : MReg) (v : Mask) : (h.setM k v).uivec = h.uivec := rfl
@[simp] theorem Hart.setM_uiepc (h : Hart) (k : MReg) (v : Mask) : (h.setM k v).uiepc = h.uiepc := rfl
@[simp] theorem Hart.setM_uicause (h : Hart) (k : MReg) (v : Mask) : (h.setM k v).uicause = h.uicause := rfl
@[simp] theorem Hart.setM_uiid (h : Hart) (k : MReg) (v : Mask) : (h.setM k v).uiid = h.uiid := rfl
@[simp] theorem Hart.setM_uiIe (h : Hart) (k : MReg) (v : Mask) : (h.setM k v).uiIe = h.uiIe := rfl
@[simp] theorem Hart.setM_uiAct (h : Hart) (k : MReg) (v : Mask) : (h.setM k v).uiAct = h.uiAct := rfl
@[simp] theorem Hart.setM_uiUntil (h : Hart) (k : MReg) (v : Mask) : (h.setM k v).uiUntil = h.uiUntil := rfl
@[simp] theorem Hart.setM_uiq (h : Hart) (k : MReg) (v : Mask) : (h.setM k v).uiq = h.uiq := rfl
@[simp] theorem Hart.setM_uiHeld (h : Hart) (k : MReg) (v : Mask) : (h.setM k v).uiHeld = h.uiHeld := rfl
@[simp] theorem Hart.setM_shadow (h : Hart) (k : MReg) (v : Mask) : (h.setM k v).shadow = h.shadow := rfl
@[simp] theorem Hart.setM_mbox (h : Hart) (k : MReg) (v : Mask) : (h.setM k v).mbox = h.mbox := rfl
@[simp] theorem Hart.setM_mbpres (h : Hart) (k : MReg) (v : Mask) : (h.setM k v).mbpres = h.mbpres := rfl
@[simp] theorem Hart.setM_mbsrc (h : Hart) (k : MReg) (v : Mask) : (h.setM k v).mbsrc = h.mbsrc := rfl
@[simp] theorem Hart.setM_wpc (h : Hart) (k : MReg) (v : Mask) : (h.setM k v).wpc = h.wpc := rfl
@[simp] theorem Hart.setM_wcause (h : Hart) (k : MReg) (v : Mask) : (h.setM k v).wcause = h.wcause := rfl
@[simp] theorem Hart.setM_lfault (h : Hart) (k : MReg) (v : Mask) : (h.setM k v).lfault = h.lfault := rfl
@[simp] theorem Hart.setM_lfrec (h : Hart) (k : MReg) (v : Mask) : (h.setM k v).lfrec = h.lfrec := rfl
@[simp] theorem Hart.setM_lcomp (h : Hart) (k : MReg) (v : Mask) : (h.setM k v).lcomp = h.lcomp := rfl
@[simp] theorem Hart.setM_cnt0 (h : Hart) (k : MReg) (v : Mask) : (h.setM k v).cnt0 = h.cnt0 := rfl
@[simp] theorem Hart.setM_cnt1 (h : Hart) (k : MReg) (v : Mask) : (h.setM k v).cnt1 = h.cnt1 := rfl
@[simp] theorem Hart.setM_cnt2 (h : Hart) (k : MReg) (v : Mask) : (h.setM k v).cnt2 = h.cnt2 := rfl
@[simp] theorem Hart.setM_cnt3 (h : Hart) (k : MReg) (v : Mask) : (h.setM k v).cnt3 = h.cnt3 := rfl
@[simp] theorem Hart.setM_out2 (h : Hart) (k : MReg) (v : Mask) : (h.setM k v).out2 = h.out2 := rfl
@[simp] theorem Hart.setM_cscope (h : Hart) (k : MReg) (v : Mask) : (h.setM k v).cscope = h.cscope := rfl
@[simp] theorem Hart.setM_strm (h : Hart) (k : MReg) (v : Mask) : (h.setM k v).strm = h.strm := rfl
@[simp] theorem Hart.setM_nextXfer (h : Hart) (k : MReg) (v : Mask) : (h.setM k v).nextXfer = h.nextXfer := rfl
@[simp] theorem Hart.setM_obs (h : Hart) (k : MReg) (v : Mask) : (h.setM k v).obs = h.obs := rfl
@[simp] theorem Hart.setM_obsWait (h : Hart) (k : MReg) (v : Mask) : (h.setM k v).obsWait = h.obsWait := rfl
@[simp] theorem Hart.setM_resv (h : Hart) (k : MReg) (v : Mask) : (h.setM k v).resv = h.resv := rfl
@[simp] theorem Hart.setM_fenceSeq (h : Hart) (k : MReg) (v : Mask) : (h.setM k v).fenceSeq = h.fenceSeq := rfl
@[simp] theorem Hart.setM_divertDue (h : Hart) (k : MReg) (v : Mask) : (h.setM k v).divertDue = h.divertDue := rfl
@[simp] theorem Hart.setM_wrapup (h : Hart) (k : MReg) (v : Mask) : (h.setM k v).wrapup = h.wrapup := rfl
@[simp] theorem Hart.setM_waitFrom (h : Hart) (k : MReg) (v : Mask) : (h.setM k v).waitFrom = h.waitFrom := rfl
@[simp] theorem Hart.setM_answer (h : Hart) (k : MReg) (v : Mask) : (h.setM k v).answer = h.answer := rfl
@[simp] theorem Hart.setM_results (h : Hart) (k : MReg) (v : Mask) : (h.setM k v).results = h.results := rfl
@[simp] theorem Hart.setM_dbg (h : Hart) (k : MReg) (v : Mask) : (h.setM k v).dbg = h.dbg := rfl

@[simp] theorem Hart.setPc_gid (h : Hart) (a : Word) : (h.setPc a).gid = h.gid := rfl
@[simp] theorem Hart.setPc_run (h : Hart) (a : Word) : (h.setPc a).run = h.run := rfl
@[simp] theorem Hart.setPc_team (h : Hart) (a : Word) : (h.setPc a).team = h.team := rfl
@[simp] theorem Hart.setPc_role (h : Hart) (a : Word) : (h.setPc a).role = h.role := rfl
@[simp] theorem Hart.setPc_num (h : Hart) (a : Word) : (h.setPc a).num = h.num := rfl
@[simp] theorem Hart.setPc_pc (h : Hart) (a : Word) : (h.setPc a).pc = a := rfl
@[simp] theorem Hart.setPc_mode (h : Hart) (a : Word) : (h.setPc a).mode = h.mode := rfl
@[simp] theorem Hart.setPc_ir (h : Hart) (a : Word) : (h.setPc a).ir = h.ir := rfl
@[simp] theorem Hart.setPc_ilen (h : Hart) (a : Word) : (h.setPc a).ilen = h.ilen := rfl
@[simp] theorem Hart.setPc_x (h : Hart) (a : Word) : (h.setPc a).x = h.x := rfl
@[simp] theorem Hart.setPc_f (h : Hart) (a : Word) : (h.setPc a).f = h.f := rfl
@[simp] theorem Hart.setPc_v (h : Hart) (a : Word) : (h.setPc a).v = h.v := rfl
@[simp] theorem Hart.setPc_m (h : Hart) (a : Word) : (h.setPc a).m = h.m := rfl
@[simp] theorem Hart.setPc_live (h : Hart) (a : Word) : (h.setPc a).live = h.live := rfl
@[simp] theorem Hart.setPc_mstk (h : Hart) (a : Word) : (h.setPc a).mstk = h.mstk := rfl
@[simp] theorem Hart.setPc_lalloc (h : Hart) (a : Word) : (h.setPc a).lalloc = h.lalloc := rfl
@[simp] theorem Hart.setPc_csr (h : Hart) (a : Word) : (h.setPc a).csr = h.csr := rfl
@[simp] theorem Hart.setPc_lpcnt0 (h : Hart) (a : Word) : (h.setPc a).lpcnt0 = h.lpcnt0 := rfl
@[simp] theorem Hart.setPc_lpbeg0 (h : Hart) (a : Word) : (h.setPc a).lpbeg0 = h.lpbeg0 := rfl
@[simp] theorem Hart.setPc_lpend0 (h : Hart) (a : Word) : (h.setPc a).lpend0 = h.lpend0 := rfl
@[simp] theorem Hart.setPc_lpxe0 (h : Hart) (a : Word) : (h.setPc a).lpxe0 = h.lpxe0 := rfl
@[simp] theorem Hart.setPc_lpcnt1 (h : Hart) (a : Word) : (h.setPc a).lpcnt1 = h.lpcnt1 := rfl
@[simp] theorem Hart.setPc_lpbeg1 (h : Hart) (a : Word) : (h.setPc a).lpbeg1 = h.lpbeg1 := rfl
@[simp] theorem Hart.setPc_lpend1 (h : Hart) (a : Word) : (h.setPc a).lpend1 = h.lpend1 := rfl
@[simp] theorem Hart.setPc_lpxe1 (h : Hart) (a : Word) : (h.setPc a).lpxe1 = h.lpxe1 := rfl
@[simp] theorem Hart.setPc_srctr (h : Hart) (a : Word) : (h.setPc a).srctr = h.srctr := rfl
@[simp] theorem Hart.setPc_srseed (h : Hart) (a : Word) : (h.setPc a).srseed = h.srseed := rfl
@[simp] theorem Hart.setPc_srhid (h : Hart) (a : Word) : (h.setPc a).srhid = h.srhid := rfl
@[simp] theorem Hart.setPc_barpend (h : Hart) (a : Word) : (h.setPc a).barpend = h.barpend := rfl
@[simp] theorem Hart.setPc_barpc (h : Hart) (a : Word) : (h.setPc a).barpc = h.barpc := rfl
@[simp] theorem Hart.setPc_uivec (h : Hart) (a : Word) : (h.setPc a).uivec = h.uivec := rfl
@[simp] theorem Hart.setPc_uiepc (h : Hart) (a : Word) : (h.setPc a).uiepc = h.uiepc := rfl
@[simp] theorem Hart.setPc_uicause (h : Hart) (a : Word) : (h.setPc a).uicause = h.uicause := rfl
@[simp] theorem Hart.setPc_uiid (h : Hart) (a : Word) : (h.setPc a).uiid = h.uiid := rfl
@[simp] theorem Hart.setPc_uiIe (h : Hart) (a : Word) : (h.setPc a).uiIe = h.uiIe := rfl
@[simp] theorem Hart.setPc_uiAct (h : Hart) (a : Word) : (h.setPc a).uiAct = h.uiAct := rfl
@[simp] theorem Hart.setPc_uiUntil (h : Hart) (a : Word) : (h.setPc a).uiUntil = h.uiUntil := rfl
@[simp] theorem Hart.setPc_uiq (h : Hart) (a : Word) : (h.setPc a).uiq = h.uiq := rfl
@[simp] theorem Hart.setPc_uiHeld (h : Hart) (a : Word) : (h.setPc a).uiHeld = h.uiHeld := rfl
@[simp] theorem Hart.setPc_shadow (h : Hart) (a : Word) : (h.setPc a).shadow = h.shadow := rfl
@[simp] theorem Hart.setPc_mbox (h : Hart) (a : Word) : (h.setPc a).mbox = h.mbox := rfl
@[simp] theorem Hart.setPc_mbpres (h : Hart) (a : Word) : (h.setPc a).mbpres = h.mbpres := rfl
@[simp] theorem Hart.setPc_mbsrc (h : Hart) (a : Word) : (h.setPc a).mbsrc = h.mbsrc := rfl
@[simp] theorem Hart.setPc_wpc (h : Hart) (a : Word) : (h.setPc a).wpc = h.wpc := rfl
@[simp] theorem Hart.setPc_wcause (h : Hart) (a : Word) : (h.setPc a).wcause = h.wcause := rfl
@[simp] theorem Hart.setPc_lfault (h : Hart) (a : Word) : (h.setPc a).lfault = h.lfault := rfl
@[simp] theorem Hart.setPc_lfrec (h : Hart) (a : Word) : (h.setPc a).lfrec = h.lfrec := rfl
@[simp] theorem Hart.setPc_lcomp (h : Hart) (a : Word) : (h.setPc a).lcomp = h.lcomp := rfl
@[simp] theorem Hart.setPc_cnt0 (h : Hart) (a : Word) : (h.setPc a).cnt0 = h.cnt0 := rfl
@[simp] theorem Hart.setPc_cnt1 (h : Hart) (a : Word) : (h.setPc a).cnt1 = h.cnt1 := rfl
@[simp] theorem Hart.setPc_cnt2 (h : Hart) (a : Word) : (h.setPc a).cnt2 = h.cnt2 := rfl
@[simp] theorem Hart.setPc_cnt3 (h : Hart) (a : Word) : (h.setPc a).cnt3 = h.cnt3 := rfl
@[simp] theorem Hart.setPc_out2 (h : Hart) (a : Word) : (h.setPc a).out2 = h.out2 := rfl
@[simp] theorem Hart.setPc_cscope (h : Hart) (a : Word) : (h.setPc a).cscope = h.cscope := rfl
@[simp] theorem Hart.setPc_strm (h : Hart) (a : Word) : (h.setPc a).strm = h.strm := rfl
@[simp] theorem Hart.setPc_nextXfer (h : Hart) (a : Word) : (h.setPc a).nextXfer = h.nextXfer := rfl
@[simp] theorem Hart.setPc_obs (h : Hart) (a : Word) : (h.setPc a).obs = h.obs := rfl
@[simp] theorem Hart.setPc_obsWait (h : Hart) (a : Word) : (h.setPc a).obsWait = h.obsWait := rfl
@[simp] theorem Hart.setPc_resv (h : Hart) (a : Word) : (h.setPc a).resv = h.resv := rfl
@[simp] theorem Hart.setPc_fenceSeq (h : Hart) (a : Word) : (h.setPc a).fenceSeq = h.fenceSeq := rfl
@[simp] theorem Hart.setPc_divertDue (h : Hart) (a : Word) : (h.setPc a).divertDue = h.divertDue := rfl
@[simp] theorem Hart.setPc_wrapup (h : Hart) (a : Word) : (h.setPc a).wrapup = h.wrapup := rfl
@[simp] theorem Hart.setPc_waitFrom (h : Hart) (a : Word) : (h.setPc a).waitFrom = h.waitFrom := rfl
@[simp] theorem Hart.setPc_answer (h : Hart) (a : Word) : (h.setPc a).answer = h.answer := rfl
@[simp] theorem Hart.setPc_results (h : Hart) (a : Word) : (h.setPc a).results = h.results := rfl
@[simp] theorem Hart.setPc_dbg (h : Hart) (a : Word) : (h.setPc a).dbg = h.dbg := rfl

end Sys2Proof.Machine
end

