-- ==== Sys2Proof/Laws/Registers.lean ====
section
/-! SUPPORT. The registers of a hart: reading after writing; and what retiring leaves of an earlier change. -/
namespace Sys2Proof.Machine

@[simp] theorem Hart.getX_zero (h : Hart) : h.getX 0 = 0 := rfl

/-- Reading an x register after a write; x0 discards what is written to it. -/
theorem Hart.getX_setX (h : Hart) (r q : XReg) (v : Word) :
    (h.setX r v).getX q = if q = r ∧ q ≠ 0 then v else h.getX q := by
  unfold Hart.getX Hart.setX
  by_cases hq : q = 0
  · simp [hq]
  · by_cases hr : r = 0
    · subst hr; simp
    · simp only [hq, if_false, hr, fget_fset, BitVec.toNat_inj, ne_eq, not_false_eq_true, and_true]

@[simp] theorem Hart.getF_setF (h : Hart) (r q : XReg) (v : Word) :
    (h.setF r v).getF q = if q = r then v else h.getF q := by
  simp only [Hart.getF, Hart.setF, fget_fset, BitVec.toNat_inj]

@[simp] theorem Hart.getM_setM (h : Hart) (k j : MReg) (v : Mask) :
    (h.setM k v).getM j = if j = k then v else h.getM j := by
  simp only [Hart.getM, Hart.setM, fget_fset, BitVec.toNat_inj]

/-- Reading a lane of a lane register after a write. -/
theorem Hart.getV_setV (h : Hart) (r i q j : Nat) (v : Lane) (hi : i < 32) (hj : j < 32) :
    (h.setV r i v).getV q j = if q = r ∧ j = i then v else h.getV q j := by
  simp only [Hart.getV, Hart.setV, fget_fset]
  congr 1
  simp only [eq_iff_iff]
  omega

theorem Hart.setX_eq (h : Hart) (r : XReg) (v : Word) : h.setX r v = { h with x := (h.setX r v).x } := by
  unfold Hart.setX; split <;> rfl

/-- A write of lanes changes the lane registers alone. -/
theorem Hart.writeLanes_eq (h : Hart) (r : Nat) (val : Nat → Lane) (ls : List Nat) :
    h.writeLanes r val ls = { h with v := (h.writeLanes r val ls).v } := by
  induction ls generalizing h with
  | nil => rfl
  | cons i is ih => rw [Hart.writeLanes, ih]; rfl

/-- Reading a lane after a write of the listed lanes. -/
theorem Hart.getV_writeLanes (h : Hart) (r : Nat) (val : Nat → Lane) (ls : List Nat) (q j : Nat)
    (hl : ∀ i ∈ ls, i < 32) (hj : j < 32) :
    (h.writeLanes r val ls).getV q j = if q = r ∧ j ∈ ls then val j else h.getV q j := by
  induction ls generalizing h with
  | nil => simp [Hart.writeLanes]
  | cons i is ih =>
    rw [Hart.writeLanes, ih _ (fun k hk => hl k (List.mem_cons_of_mem _ hk)),
      Hart.getV_setV _ _ _ _ _ _ (hl i List.mem_cons_self) hj]
    by_cases hq : q = r <;> by_cases hji : j = i <;> by_cases hm : j ∈ is <;> simp [hq, hji, hm]

theorem mem_maskLanes (m : Mask) (i : Nat) : i ∈ maskLanes m ↔ i < 32 ∧ m.getLsbD i = true := by
  simp [maskLanes, lanes]

/-- The bits of the mask of the lanes that satisfy a condition. -/
theorem getLsbD_maskOf (p : Nat → Bool) (i : Nat) (hi : i < 32) : (maskOf p).getLsbD i = p i := by
  have key : ∀ (l : List Nat) (a : Mask),
      (l.foldl (fun (acc : Mask) j => if p j then acc ||| (1#32 <<< j) else acc) a).getLsbD i =
        (a.getLsbD i || (decide (i ∈ l) && p i)) := by
    intro l
    induction l with
    | nil => simp
    | cons j r ih =>
      intro a
      rw [List.foldl_cons, ih]
      by_cases hp : p j
      · by_cases hij : i = j
        · subst hij; simp [hp, hi]
        · have : (1#32 <<< j).getLsbD i = false := by
            simp only [BitVec.getLsbD_shiftLeft, BitVec.getLsbD_one]
            simp only [Bool.and_eq_false_imp]
            intro h1
            simp at h1
            simp
            omega
          simp [hp, hij, this]
      · by_cases hij : i = j
        · subst hij; simp [hp]
        · simp [hp, hij]
  rw [maskOf, key]
  simp [lanes, hi]

end Sys2Proof.Machine
end

