-- ==== Sys2Proof/Laws/Lanes.lean ====
section
/-! SUPPORT. What a lane word does where its registers are allocated and no stream is bound to them: it reads, computes in the
active lanes, writes and retires. -/
namespace Sys2Proof.Machine

/-- The listed lane registers are allocated and no stream is bound to them. -/
def Hart.plainRegs (h : Hart) (rs : List Nat) : Prop :=
  ∀ r ∈ rs, r < h.lalloc ∧ h.boundSlot false r = none ∧ h.boundSlot true r = none

/-- The beginning of a lane word goes on in the state as it stands. -/
theorem State.laneBegin_plain {s : State} {p : LaneHdr} {reads writes : List Nat} (h : s.hart.plainRegs (reads ++ writes)) :
    s.laneBegin p reads writes = .go s.hart (s.hart.active p) s := by
  have h1 : ((reads ++ writes).any (fun r => decide (s.hart.lalloc ≤ r)) ||
      writes.any (fun r => (s.hart.boundSlot false r).isSome) ||
      reads.any (fun r => (s.hart.boundSlot true r).isSome)) = false := by
    simp only [Bool.or_eq_false_iff, List.any_eq_false]
    refine ⟨⟨fun r hr => ?_, fun r hr => ?_⟩, fun r hr => ?_⟩
    · have := (h r hr).1
      simp only [decide_eq_true_eq]; omega
    · simp [(h r (List.mem_append_right _ hr)).2.1]
    · simp [(h r (List.mem_append_left _ hr)).2.2]
  have h2 : reads.filterMap (fun r => s.hart.boundSlot false r) = [] := by
    rw [List.filterMap_eq_nil_iff]
    exact fun r hr => (h r (List.mem_append_left _ hr)).2.1
  unfold State.laneBegin
  simp only [h1, h2, Bool.false_eq_true, if_false]
  split_ifs <;> rfl

theorem State.pushChecks_plain (s : State) (act : Mask) (outs : List (Nat × (Nat → Lane)))
    (h : ∀ o ∈ outs, s.hart.boundSlot true o.1 = none) : s.pushChecks act outs = ([], [], s) := by
  induction outs with
  | nil => rfl
  | cons o r ih =>
    obtain ⟨n, f⟩ := o
    rw [State.pushChecks, h (n, f) List.mem_cons_self]
    exact ih (fun o ho => h o (List.mem_cons_of_mem _ ho))

/-- The end of a lane word whose destinations no stream is bound to writes them and finishes. -/
theorem State.laneFinish_plain (s0 s : State) (act : Mask) (outs : List (Nat × (Nat → Lane))) (fin : State → State)
    (h : ∀ o ∈ outs, s.hart.boundSlot true o.1 = none) :
    s0.laneFinish s act outs fin =
      fin (s.onHart (fun h => outs.foldl (fun h o => h.writeLanes o.1 o.2 (maskLanes act)) h)) := by
  unfold State.laneFinish
  rw [s.pushChecks_plain act outs h]
  simp

/-- A word with one 32-bit result in each active lane. -/
theorem State.laneOp32_plain {s : State} {p : LaneHdr} {reads : List Nat} {vd : LOp} (f : Hart → Nat → Lane × BitVec 5)
    (h : s.hart.plainRegs (reads ++ [vd.toNat])) :
    s.laneOp32 p reads vd f = { s with hart :=
      ((s.hart.writeLanes vd.toNat (fun i => (f s.hart i).1) (maskLanes (s.hart.active p))).accrue
        (orFlags ((maskLanes (s.hart.active p)).map (fun i => (f s.hart i).2)))).retire } := by
  unfold State.laneOp32
  rw [State.laneBegin_plain h]
  simp only
  rw [State.laneFinish_plain _ _ _ _ _ (fun o ho => by
    simp only [List.mem_singleton] at ho; subst ho
    exact (h _ (by simp)).2.2)]
  rfl

/-- A word with one 64-bit result in each active lane. -/
theorem State.laneOp64_plain {s : State} {p : LaneHdr} {reads : List Nat} {vd : LOp} (f : Hart → Nat → Word × BitVec 5)
    (h : s.hart.plainRegs (reads ++ [vd.toNat, vd.toNat + 1])) :
    s.laneOp64 p reads vd f = { s with hart :=
      (((s.hart.writeLanes vd.toNat (fun i => (f s.hart i).1.setWidth 32) (maskLanes (s.hart.active p))).writeLanes (vd.toNat + 1)
        (fun i => ((f s.hart i).1 >>> 32).setWidth 32) (maskLanes (s.hart.active p))).accrue
        (orFlags ((maskLanes (s.hart.active p)).map (fun i => (f s.hart i).2)))).retire } := by
  unfold State.laneOp64
  rw [State.laneBegin_plain h]
  simp only
  rw [State.laneFinish_plain _ _ _ _ _ (fun o ho => by
    simp only [List.mem_cons, List.not_mem_nil, or_false] at ho
    rcases ho with ho | ho <;> subst ho <;> exact (h _ (by simp)).2.2)]
  rfl

/-- A word that writes a mask register. -/
theorem State.laneMask_plain {s : State} {p : LaneHdr} {reads : List Nat} {md : MReg} (f : Hart → Mask → Nat → Bool × BitVec 5)
    (h : s.hart.plainRegs reads) :
    s.laneMask p reads md f = { s with hart :=
      ((s.hart.setM md (maskOf (fun i => (s.hart.active p).getLsbD i && (f s.hart (s.hart.active p) i).1))).accrue
        (orFlags ((maskLanes (s.hart.active p)).map (fun i => (f s.hart (s.hart.active p) i).2)))).retire } := by
  unfold State.laneMask
  rw [State.laneBegin_plain (by simpa using h)]
  rfl

/-- A word whose results depend on the active mask. -/
theorem State.laneAct32_plain {s : State} {p : LaneHdr} {reads : List Nat} {vd : LOp} (f : Hart → Mask → Nat → Lane × BitVec 5)
    (h : s.hart.plainRegs (reads ++ [vd.toNat])) :
    s.laneAct32 p reads vd f = { s with hart :=
      ((s.hart.writeLanes vd.toNat (fun i => (f s.hart (s.hart.active p) i).1) (maskLanes (s.hart.active p))).accrue
        (orFlags ((maskLanes (s.hart.active p)).map (fun i => (f s.hart (s.hart.active p) i).2)))).retire } := by
  unfold State.laneAct32
  rw [State.laneBegin_plain h]
  simp only
  rw [State.laneFinish_plain _ _ _ _ _ (fun o ho => by
    simp only [List.mem_singleton] at ho; subst ho
    exact (h _ (by simp)).2.2)]
  rfl

/-- A word that writes an x register from the lanes. -/
theorem State.laneToX_plain {s : State} {p : LaneHdr} {reads : List Nat} {xd : XReg} (f : Hart → Mask → Word × BitVec 5)
    (h : s.hart.plainRegs reads) :
    s.laneToX p reads xd f = { s with hart :=
      ((s.hart.setX xd (f s.hart (s.hart.active p)).1).accrue (f s.hart (s.hart.active p)).2).retire } := by
  unfold State.laneToX
  rw [State.laneBegin_plain (by simpa using h)]
  rfl

/-- The flags of several lanes together. -/
theorem getLsbD_orFlags (l : List (BitVec 5)) (b : Nat) : (orFlags l).getLsbD b = l.any (fun x => x.getLsbD b) := by
  have key : ∀ (l : List (BitVec 5)) (a : BitVec 5),
      (l.foldl (· ||| ·) a).getLsbD b = (a.getLsbD b || l.any (fun x => x.getLsbD b)) := by
    intro l
    induction l with
    | nil => simp
    | cons x r ih => intro a; rw [List.foldl_cons, ih]; simp [Bool.or_assoc]
  rw [orFlags, key]; simp

end Sys2Proof.Machine
end

