-- ==== Sys2Proof/Laws/Memory.lean ====
section
/-! SUPPORT. Every operation of memory keeps the canonical form of memory, and the state after reset has it. -/
namespace Sys2Proof.Machine

/-- Memory after reset is canonical. -/
theorem wf_reset : Memory.wf State.reset.mem = true := rfl

/-- Steps that keep the canonical form keep it over a list. -/
theorem wf_foldl {β : Type} (f : State → β → State) (hf : ∀ (s : State) (b : β), Memory.wf s.mem = true → Memory.wf (f s b).mem = true)
    (l : List β) {s : State} (h : Memory.wf s.mem = true) : Memory.wf (l.foldl f s).mem = true := by
  induction l generalizing s with
  | nil => exact h
  | cons b r ih => exact ih (hf s b h)

theorem State.wf_rekey {s : State} (key la : Nat) (h : Memory.wf s.mem = true) : Memory.wf (s.rekey key la).mem = true := by
  unfold State.rekey
  dsimp only
  split
  · exact h
  · exact wf_memSetBytes _ _ h

theorem State.wf_writeRaw {s : State} (la : Nat) (b : List Byte) (h : Memory.wf s.mem = true) :
    Memory.wf (s.writeRaw la b).mem = true := wf_memSetBytes _ _ h

theorem State.wf_poke {s : State} (pa : Nat) (b : List Byte) (h : Memory.wf s.mem = true) : Memory.wf (s.poke pa b).mem = true := by
  unfold State.poke
  dsimp only
  split
  · exact State.wf_writeRaw _ _ (State.wf_rekey _ _ h)
  · exact h
  · exact State.wf_writeRaw _ _ h
  · exact State.wf_writeRaw _ _ h
  · exact h

theorem State.wf_applyPartial {s : State} (p : Partial) (h : Memory.wf s.mem = true) : Memory.wf (s.applyPartial p).mem = true :=
  State.wf_poke _ _ h

theorem State.wf_settle {s : State} (pa n : Nat) (h : Memory.wf s.mem = true) : Memory.wf (s.settle pa n).mem = true :=
  wf_foldl _ (fun _ p h => State.wf_applyPartial p h) _ h

/-- The writer's L1 update changes no memory. -/
theorem State.mem_l1Update (s : State) (cl pa : Nat) (l : List Byte) : (s.l1Update cl pa l).mem = s.mem := rfl

theorem State.wf_mergeBytes {s : State} (c ln : Nat) (l : File Byte) (h : Memory.wf s.mem = true) :
    Memory.wf (s.mergeBytes c ln l).mem = true := by
  induction l generalizing s with
  | nil => exact h
  | cons e r ih => exact ih (State.wf_poke _ _ h)

theorem State.wf_mergeCopy {s : State} (e : HcLine) (h : Memory.wf s.mem = true) : Memory.wf (s.mergeCopy e).mem = true :=
  State.wf_mergeBytes _ _ _ h

theorem State.wf_mergeCopies {s : State} (l : List HcLine) (h : Memory.wf s.mem = true) :
    Memory.wf (l.foldl State.mergeCopy s).mem = true := wf_foldl _ (fun _ e h => State.wf_mergeCopy e h) _ h

theorem State.wf_recall {s : State} (ln : Nat) (h : Memory.wf s.mem = true) : Memory.wf (s.recall ln).mem = true := by
  unfold State.recall
  split
  · exact h
  · exact State.wf_mergeCopies _ (State.wf_settle _ _ h)

/-- A posted fault changes no memory. -/
theorem State.mem_postFault (s : State) (d kind pa : Nat) : (s.postFault d kind pa).mem = s.mem := by
  unfold State.postFault
  dsimp only
  split <;> rfl

/-- A touch of the L2 changes no memory. -/
theorem State.mem_l2Touch (s : State) (pa n : Nat) : (s.l2Touch pa n).mem = s.mem := by
  unfold State.l2Touch
  dsimp only
  split
  · rfl
  · split
    · rfl
    · split
      · rfl
      · split <;> rfl

theorem State.wf_l2Touch {s : State} (pa n : Nat) (h : Memory.wf s.mem = true) : Memory.wf (s.l2Touch pa n).mem = true := by
  rw [State.mem_l2Touch]; exact h

theorem State.wf_hostWriteBack {s : State} (ln : Nat) (h : Memory.wf s.mem = true) : Memory.wf (s.hostWriteBack ln).mem = true := by
  unfold State.hostWriteBack
  split
  · dsimp only
    split
    · rw [State.mem_postFault]; exact h
    · exact State.wf_poke _ _ h
  · exact h

theorem State.wf_hostDrop {s : State} (ln : Nat) (h : Memory.wf s.mem = true) : Memory.wf (s.hostDrop ln).mem = true :=
  State.wf_hostWriteBack _ h

theorem State.wf_recallOwned {s : State} (ln : Nat) (h : Memory.wf s.mem = true) : Memory.wf (s.recallOwned ln).mem = true := by
  unfold State.recallOwned
  split
  · exact State.wf_recall _ h
  · exact h

theorem State.wf_recallAll {s : State} (h : Memory.wf s.mem = true) : Memory.wf s.recallAll.mem = true :=
  wf_foldl _ (fun _ ln h => State.wf_recall ln h) _ h

theorem State.wf_publish {s : State} (c : Nat) (h : Memory.wf s.mem = true) : Memory.wf (s.publish c).mem = true :=
  State.wf_mergeCopies _ h

theorem State.wf_hcRoom {s : State} (c : Nat) (h : Memory.wf s.mem = true) : Memory.wf (s.hcRoom c).mem = true := by
  unfold State.hcRoom
  dsimp only
  split
  · exact h
  · split
    · exact State.wf_mergeCopy _ h
    · exact h

theorem State.wf_addCopy {s : State} (c ln : Nat) (k : HcKind) (h : Memory.wf s.mem = true) : Memory.wf (s.addCopy c ln k).mem = true :=
  State.wf_hcRoom c h

theorem State.wf_addShared {s : State} (c ln : Nat) (h : Memory.wf s.mem = true) : Memory.wf (s.addShared c ln).mem = true := by
  unfold State.addShared
  split
  · exact h
  · exact State.wf_addCopy _ _ _ h

theorem State.wf_obtain {s : State} (c ln : Nat) (h : Memory.wf s.mem = true) : Memory.wf (s.obtain c ln).mem = true := by
  have h1 : Memory.wf (((s.hostDrop ln).settle (128 * ln) 128).l2Touch (128 * ln) 128).mem = true :=
    State.wf_l2Touch _ _ (State.wf_settle _ _ (State.wf_hostDrop _ h))
  unfold State.obtain
  split
  · exact h
  · exact h
  · dsimp only
    split
    · split
      · exact State.wf_addCopy _ _ _ h1
      · exact State.wf_addCopy _ _ _ (State.wf_recall _ h1)
    · dsimp only [State.countTransfer]
      split
      · exact State.wf_addCopy _ _ _ (State.wf_mergeCopy _ h1)
      · exact State.wf_addCopy _ _ _ (State.wf_recall _ h1)

theorem State.wf_dropRdc {s : State} (e : RdcLine) (h : Memory.wf s.mem = true) : Memory.wf (s.dropRdc e).mem = true := by
  unfold State.dropRdc
  dsimp only
  split
  · exact h
  · exact wf_foldl (fun s (ob : Nat × Byte) => s.poke (128 * e.line + ob.1) [ob.2]) (fun _ _ h => State.wf_poke _ _ h) _ h

theorem State.wf_countRead {s : State} (ln : Nat) (h : Memory.wf s.mem = true) : Memory.wf (s.countRead ln).mem = true := by
  unfold State.countRead
  split
  · exact h
  · split
    · exact State.wf_dropRdc _ h
    · exact h

theorem State.wf_countReads {s : State} (l : List Nat) (h : Memory.wf s.mem = true) : Memory.wf (s.countReads l).mem = true :=
  wf_foldl _ (fun _ ln h => State.wf_countRead ln h) _ h

theorem State.mem_l1Fill (s : State) (cl pa : Nat) (first : Bool) : (s.l1Fill cl pa first).mem = s.mem := by
  unfold State.l1Fill; dsimp only; split_ifs
  · rfl
  · split <;> rfl

theorem State.mem_l1Read (s : State) (cl pa n : Nat) (first : Bool) : (s.l1Read cl pa n first).2.2.mem = s.mem := by
  unfold State.l1Read
  split
  · exact State.mem_l1Fill _ _ _ _
  · rfl

theorem State.wf_ready {s : State} (pa n : Nat) (h : Memory.wf s.mem = true) : Memory.wf (s.ready pa n).mem = true :=
  State.wf_l2Touch _ _ (State.wf_settle _ _ (State.wf_recallOwned _ (State.wf_hostWriteBack _ h)))

theorem State.wf_readAt {s : State} (pa n : Nat) (h : Memory.wf s.mem = true) : Memory.wf (s.readAt pa n).2.mem = true :=
  State.wf_ready _ _ h

/-- The writer's L1 update changes no memory. -/
theorem State.mem_l1By (s : State) (b : By) (pa : Nat) (l : List Byte) : (s.l1By b pa l).mem = s.mem := by
  unfold State.l1By; split <;> rfl

theorem State.wf_writeAt {s : State} (b : By) (pa : Nat) (l : List Byte) (h : Memory.wf s.mem = true) :
    Memory.wf (s.writeAt b pa l).mem = true := by
  unfold State.writeAt
  dsimp only
  rw [State.mem_l1By]
  exact State.wf_poke _ _ (State.wf_l2Touch _ _ (State.wf_settle _ _ (State.wf_recall _ (State.wf_hostDrop _ h))))

theorem State.wf_hartReadHbm {s : State} (c pa n : Nat) (h : Memory.wf s.mem = true) : Memory.wf (s.hartReadHbm c pa n).2.mem = true := by
  have h1 : Memory.wf (s.settle pa n).mem = true := State.wf_settle _ _ h
  unfold State.hartReadHbm
  dsimp only
  split
  · split
    · exact h1
    · exact h1
    · split
      · exact h1
      · split
        · exact State.wf_recall _ h1
        · exact h1
  · split
    · exact State.wf_l2Touch _ _ h1
    · exact State.wf_countRead _ (State.wf_addShared _ _ (State.wf_settle _ _ (State.wf_ready _ _ h1)))

theorem State.wf_hartLoadHbm {s : State} (c pa n : Nat) (h : Memory.wf s.mem = true) : Memory.wf (s.hartLoadHbm c pa n).2.mem = true := by
  unfold State.hartLoadHbm
  split
  · dsimp only
    split <;> exact State.wf_settle _ _ h
  · exact State.wf_hartReadHbm _ _ _ h

theorem State.wf_hartWriteHbm {s : State} (c pa : Nat) (l : List Byte) (h : Memory.wf s.mem = true) :
    Memory.wf (s.hartWriteHbm c pa l).mem = true := by
  have h1 : Memory.wf (s.settle pa l.length).mem = true := State.wf_settle _ _ h
  unfold State.hartWriteHbm
  dsimp only
  split
  · split
    · exact State.wf_writeAt _ _ _ h
    · exact h1
    · split
      · exact h1
      · exact State.wf_mergeCopies _ h1
  · split
    · exact State.wf_poke _ _ h1
    · exact State.wf_writeAt _ _ _ h

/-- A store at a loop-back port changes no memory. -/
theorem State.mem_lbPerform (s : State) (c : Nat) (l : List LbStore) : (s.lbPerform c l).mem = s.mem := by
  unfold State.lbPerform
  induction l generalizing s with
  | nil => rfl
  | cons e r ih => exact ih _

theorem State.mem_drainLb (s : State) (c : Nat) : (s.drainLb c).mem = s.mem := State.mem_lbPerform _ _ _

theorem State.mem_drainLbOf (s : State) (g : Nat) : (s.drainLbOf g).mem = s.mem := State.mem_lbPerform _ _ _

theorem State.mem_farDiscard (s : State) (p : Nat) (l : List FarStore) : (s.farDiscard p l).mem = s.mem := by
  unfold State.farDiscard
  dsimp only [State.modPort]
  generalize (List.map (fun e : FarStore => tagLine e.pa) l).eraseDups = lns
  induction lns generalizing s with
  | nil => rfl
  | cons e r ih => exact (ih _).trans (State.mem_postFault _ _ _ _)

theorem State.wf_farPerform {s : State} (p : Nat) (l : List FarStore) (h : Memory.wf s.mem = true) :
    Memory.wf (s.farPerform p l).mem = true := by
  unfold State.farPerform
  split
  · exact h
  · split
    · exact wf_foldl (fun s (e : FarStore) => (s.poke e.pa e.bytes).l1Update (gidCluster e.gid) e.pa e.bytes)
        (fun _ e h => State.wf_poke e.pa e.bytes h) _ h
    · rw [State.mem_farDiscard]; exact h

theorem State.wf_drainPort {s : State} (p : Nat) (h : Memory.wf s.mem = true) : Memory.wf (s.drainPort p).mem = true :=
  State.wf_farPerform _ _ h

theorem State.wf_drainPortsOf {s : State} (g : Nat) (h : Memory.wf s.mem = true) : Memory.wf (s.drainPortsOf g).mem = true :=
  wf_foldl (fun s p => s.farPerform p _) (fun _ p h => State.wf_farPerform p _ h) _ h

theorem State.wf_perform {s : State} (g : Nat) (h : Memory.wf s.mem = true) : Memory.wf (s.perform g).mem = true := by
  unfold State.perform
  rw [State.mem_drainLbOf]
  exact State.wf_drainPortsOf _ h

theorem State.mem_putHart (s : State) (h : Hart) : (s.putHart h).mem = s.mem := by
  unfold State.putHart; split_ifs <;> rfl

theorem State.mem_modHart (s : State) (g : Nat) (f : Hart → Hart) : (s.modHart g f).mem = s.mem := State.mem_putHart _ _

theorem State.wf_release {s : State} (g : Nat) (h : Memory.wf s.mem = true) : Memory.wf (s.release g).mem = true := by
  unfold State.release
  rw [State.mem_modHart]
  exact State.wf_perform _ (State.wf_publish _ h)

theorem State.mem_acquire (s : State) (g : Nat) (sc : Scope) : (s.acquire g sc).mem = s.mem := by
  unfold State.acquire; split <;> rfl

theorem State.wf_readyLines {s : State} (pa n : Nat) (h : Memory.wf s.mem = true) : Memory.wf (s.readyLines pa n).mem = true :=
  wf_foldl (fun s i => s.ready (pa / 128 * 128 + 128 * i) 128) (fun _ _ h => State.wf_ready _ _ h) _ h

theorem State.wf_writeRun {s : State} (b : By) (pa : Nat) (l : List Byte) (k : Nat) (h : Memory.wf s.mem = true) :
    Memory.wf (s.writeRun b pa l k).mem = true := by
  induction k generalizing s pa l with
  | zero => exact h
  | succ k ih =>
    unfold State.writeRun
    split
    · exact h
    · exact ih _ _ (State.wf_writeAt _ _ _ h)

theorem State.wf_writeBytes {s : State} (b : By) (pa : Nat) (l : List Byte) (h : Memory.wf s.mem = true) :
    Memory.wf (s.writeBytes b pa l).mem = true := State.wf_writeRun _ _ _ _ h

theorem State.wf_readBytes {s : State} (pa n : Nat) (h : Memory.wf s.mem = true) : Memory.wf (s.readBytes pa n).2.mem = true :=
  State.wf_readyLines _ _ h

theorem State.wf_homeRead {s : State} (pa n : Nat) (h : Memory.wf s.mem = true) : Memory.wf (s.homeRead pa n).2.mem = true := by
  unfold State.homeRead
  dsimp only
  split
  · rw [State.mem_drainLb]; exact h
  · exact State.wf_drainPort _ h
  · exact State.wf_drainPort _ h
  · exact State.wf_readyLines _ _ h

theorem State.wf_homeWrite {s : State} (b : By) (pa : Nat) (l : List Byte) (h : Memory.wf s.mem = true) :
    Memory.wf (s.homeWrite b pa l).mem = true := by
  unfold State.homeWrite
  split
  · exact State.wf_poke _ _ (by rw [State.mem_drainLb]; exact h)
  · rw [State.mem_l1By]; exact State.wf_poke _ _ (State.wf_drainPort _ h)
  · rw [State.mem_l1By]; exact State.wf_poke _ _ (State.wf_drainPort _ h)
  · exact State.wf_writeBytes _ _ _ h

theorem State.wf_fetchLine {s : State} (cl : Nat) (sc : Scope) (hint : Hint) (pa : Nat) (h : Memory.wf s.mem = true) :
    Memory.wf (s.fetchLine cl sc hint pa).mem = true := by
  unfold State.fetchLine
  dsimp only
  split
  · exact h
  · exact h
  · exact h
  · exact h
  · split
    · exact h
    · split
      · exact State.wf_homeRead _ _ h
      · exact wf_foldl _ (fun _ _ h => by rw [State.mem_l1Fill]; exact h) _ (State.wf_homeRead _ _ h)

end Sys2Proof.Machine
end

