-- ==== Sys2Proof/Tests/Slice0.lean ====
section
/-! SUPPORT. The author's tests: ill-formed terms that the checks refuse, decoding of words written from the spec's encoding
tables, single steps, and for every statement states that meet its hypotheses. -/
namespace Sys2Proof.Tests
set_option Elab.async false
open Sys2Proof.Machine Sys2Proof.Safety

/-- Headers of lane words: no predicate; ra with the predicate NOT m5; rb with the predicate m3. -/
def p0 : LaneHdr := ⟨false, false, false, 0⟩
def hA : LaneHdr := ⟨false, true, true, 5⟩
def hB : LaneHdr := ⟨true, false, false, 3⟩


/-- Ill-formed terms, one for each check: pn without pm (R41); a destination that is no lane register (R43); a reserved
source (R42); an odd register in a 64-bit position (R43); an f register in a 64-bit position; vone in a 64-bit position;
an odd destination pair; a 64-bit type where none is legal (R47); a rounding mode of a minimum (R113); a base that is no x
register (R51); a broadcast load with a hint (R43, R51); an empty loop body (R37); a loop count of 0 (R37); a loop write of another CSR; a loop CSR read. -/
theorem test_illFormed_1 : [
    .vmov ⟨false, false, true, 0⟩ 1 2,
    .vmov p0 640 2,
    .vmov p0 1 640,
    .vadd p0 .s32 1 837 2,
    .vadd p0 .s64 8 9 10,
    .vadd p0 .s64 8 800 10,
    .vsub p0 .n64 8 10 835,
    .vadd p0 .s64 9 10 12,
    .vmul p0 .s64 8 10 12,
    .vfmin p0 (.f32 .rtz) 1 2 3,
    .vld p0 ⟨.w, .rlx, .hart, .normal⟩ 8 9 7,
    .vldB p0 ⟨.w, .rlx, .hart, .str⟩ 8 770,
    .hloop false 5 0,
    .hloopi false 0 5,
    .hloopi true 5 0,
    .loopCsrWrite .rw false 0x340 1 2,
    .loopCsrWrite .rs false 0x800 1 0].all (fun i : Instr => !i.wf) = true := by decide

/-- Ill-formed terms, one for each check: a write of a loop CSR; a routine index 7 to 15 (R342); rd and rs2 the same
register (R281); mask index 0 (R40); a float condition (R47); mask destination 0 (R43); mask destination 0; a float
condition; an instruction that is always illegal (R48); equal types (R49); satfinite with an integer destination (R116); a
rounding mode between integers (R116); an odd destination pair; an odd source pair. -/
theorem test_illFormed_2 : [
    .csrAccess .rw false 0x800 1 2,
    .dqShip 7 1 2 3,
    .qtdeq 5 6 5,
    .mdiv 0,
    .melse 0,
    .vcmp p0 .ord false 1 2 3,
    .vcmp p0 .eq false 0 2 3,
    .vfcmp p0 .eq 0 2 3,
    .vcmpi p0 .uno false 1 1 2,
    .vcmpi p0 .eq true 1 0 2,
    .vclmulN32 0,
    .vcvt p0 .f32 .f32 .rne false 1 2,
    .vcvt p0 .s32 .f32 .rne true 1 2,
    .vcvt p0 .s16 .s32 .rtz false 1 2,
    .vcvt p0 .s64 .f32 .rne false 1 2,
    .vcvt p0 .f32 .n64 .rne false 1 3].all (fun i : Instr => !i.wf) = true := by decide

/-- Ill-formed terms, one for each check: a destination that vcvt.sr lacks (R49); a source that vunpack lacks (R49); an
element beyond the register (R49); a load that releases (R51); an odd pair (R51); a store that acquires (R51); a signed
store (R51); a register that is no multiple of 4 (R51); a register that is no multiple of 4; a width without a reader
count (R51); a reader count of 0 (R51); mask destination 0; an odd pair (R149); a type that has no minimum (R53); a type
that has no AND (R53). -/
theorem test_illFormed_3 : [
    .vcvtSr p0 .s32 false 1 2,
    .vunpack p0 .s32 0 1 2,
    .vunpack p0 .f16 2 1 2,
    .vld p0 ⟨.w, .rel, .hart, .normal⟩ 8 9 768,
    .vld p0 ⟨.d, .rlx, .hart, .normal⟩ 9 9 768,
    .vst p0 ⟨.w, .acq, .hart, .normal⟩ 8 9 768,
    .vst p0 ⟨.s8, .rlx, .hart, .normal⟩ 8 9 768,
    .vstx p0 ⟨.q, .rlx, .hart, .normal⟩ 6 8,
    .vsts p0 .s16 8 9 768,
    .vldt p0 true .act 2 9 768,
    .vstRdc p0 .n8 1 8 9 768,
    .vstRdc p0 .w 0 8 9 768,
    .vvoteAny p0 .g32 0 2,
    .vmatch p0 true .g32 1 3,
    .vamoMin p0 .s64 .rlx .hart 5 2 4 6,
    .vamoAnd p0 .s32 .rlx .hart 5 2 4 6].all (fun i : Instr => !i.wf) = true := by decide

/-- Ill-formed terms, one for each check: an odd pair (R53); a type that cannot be compared (R53); a reduction that
acquires (R53); a type that has no minimum; a reduction that acquires; mask destination 0 (R53); an odd pair; rs2 of a
load-reserve; the word of pause; a word shift by 32; words that are no instruction; events. -/
theorem test_illFormed_4 : [
    .vamoAdd p0 .s64 .rlx .hart 5 3 4 6,
    .vamoCas p0 .f32 .rlx .hart 5 2 4 6,
    .vmredAdd p0 .s32 .acq .hart 5 2 4,
    .vmredMin p0 .h2 .rlx .hart 5 2 4,
    .vmredAddOrd p0 .f32 .acq .hart 5 2 4,
    .vqtdeq p0 false 0 5 2,
    .vqenq p0 true 5 3,
    .hartAmo .lr true false false 5 6 7,
    .fence 0 1 0,
    .standardInstruction (.shift .slliw 1 2 32),
    .standardInstruction (.illegal 0),
    .barrierPhaseComplete (.die 0 1),
    .mma,
    .moduleReset].all (fun i : Instr => !i.wf) = true := by decide

/-- Words of custom-0 (R37), written from its table. -/
theorem test_decode_control_1 :
    decodeTableWord 32 0x0000000B = some (.hexit) ∧
    decodeTableWord 32 0x0200000B = some (.yield) ∧
    decodeTableWord 32 0x0473028B = some (.spawn 5 6 7) ∧
    decodeTableWord 32 0x0673000B = some (.cont 6 7) ∧
    decodeTableWord 32 0x0803028B = some (.rgrow 5 6) ∧
    decodeTableWord 32 0x0A03000B = some (.rshrink 6) ∧
    decodeTableWord 32 0x0C00000B = some (.uiret) ∧
    decodeTableWord 32 0x0E00000B = some (.lbfence) ∧
    decodeTableWord 32 0x1230100B = some (.uimask 0x123) ∧
    decodeTableWord 32 0xABC4C00B = some (.hloop false 9 0xABC) ∧
    decodeTableWord 32 0x0064D00B = some (.hloop true 9 6) ∧
    decodeTableWord 32 0x8012618B = some (.hloopi false 0x801 100) := by
  refine ⟨?_, ?_, ?_, ?_, ?_, ?_, ?_, ?_, ?_, ?_, ?_, ?_⟩ <;> rfl

/-- Words of custom-0 (R37), written from its table. -/
theorem test_decode_control_2 :
    decodeTableWord 32 0x00A3700B = some (.hloopi true 10 6) := rfl

/-- Words of custom-1 (R38), written from its table. -/
theorem test_decode_sync_1 :
    decodeTableWord 32 0x1054002B = some (.barArr 8 0x105) ∧
    decodeTableWord 32 0x2004102B = some (.barWait 8 0x200) ∧
    decodeTableWord 32 0x13F422AB = some (.barTry 5 8 0x13F) ∧
    decodeTableWord 32 0x20F4302B = some (.barArw 8 0x20F) ∧
    decodeTableWord 32 0x0094402B = some (.barCfg 8 9) ∧
    decodeTableWord 32 0x0094502B = some (.semSig 8 9) ∧
    decodeTableWord 32 0x0294502B = some (.semWait 8 9) ∧
    decodeTableWord 32 0x049453AB = some (.semTry 7 8 9) ∧
    decodeTableWord 32 0x1004502B = some (.mtxLock 8) ∧
    decodeTableWord 32 0x120453AB = some (.mtxTry 7 8) ∧
    decodeTableWord 32 0x1404502B = some (.mtxFree 8) ∧
    decodeTableWord 32 0x00946FAB = some (.msend 8 9 31) := by
  refine ⟨?_, ?_, ?_, ?_, ?_, ?_, ?_, ?_, ?_, ?_, ?_, ?_⟩ <;> rfl

/-- Words of custom-1 (R38), written from its table. -/
theorem test_decode_sync_2 :
    decodeTableWord 32 0x020F63AB = some (.mrecv 7 30) ∧
    decodeTableWord 32 0x040EE3AB = some (.mtry 7 29) := by
  refine ⟨?_, ?_⟩ <;> rfl

/-- Words of custom-2 (R39), written from its table. -/
theorem test_decode_engines :
    decodeTableWord 32 0x000302DB = some (.cpy 5 6) ∧
    decodeTableWord 32 0x0273005B = some (.mxpush 6 7) ∧
    decodeTableWord 32 0x0400005B = some (.mxfence) ∧
    decodeTableWord 32 0x0603015B = some (.strmCfg 2 6) ∧
    decodeTableWord 32 0x080001DB = some (.strmEnd 3) ∧
    decodeTableWord 32 0x1073005B = some (.dqSearch 6 7) ∧
    decodeTableWord 32 0x1403005B = some (.dqCancel 6) ∧
    decodeTableWord 32 0x0AB5165B = some (.dqShip 5 12 10 11) ∧
    decodeTableWord 32 0x7EB5165B = some (.dqShip 63 12 10 11) ∧
    decodeTableWord 32 0xFFF021DB = some (.cwait 3 0xFFF) ∧
    decodeTableWord 32 0x010133DB = some (.ctry 7 2 0x10) := by
  refine ⟨?_, ?_, ?_, ?_, ?_, ?_, ?_, ?_, ?_, ?_, ?_⟩ <;> rfl

/-- Words of custom-3, queues, masks and deadlines (R40), written from its table. -/
theorem test_decode_queues_1 :
    decodeTableWord 32 0x0073007B = some (.qinit 6 7) ∧
    decodeTableWord 32 0x0273007B = some (.qenqX 6 7) ∧
    decodeTableWord 32 0x040302FB = some (.qdeqX 5 6) ∧
    decodeTableWord 32 0x0673007B = some (.qenqM 6 7) ∧
    decodeTableWord 32 0x0873007B = some (.qdeqM 6 7) ∧
    decodeTableWord 32 0x0A7302FB = some (.qtenq 5 6 7) ∧
    decodeTableWord 32 0x0C7302FB = some (.qtdeq 5 6 7) ∧
    decodeTableWord 32 0x0E0302FB = some (.qrsv 5 6) ∧
    decodeTableWord 32 0x1073007B = some (.qcmt 6 7) ∧
    decodeTableWord 32 0x120302FB = some (.qstat 5 6) ∧
    decodeTableWord 32 0x140302FB = some (.qdrain 5 6) ∧
    decodeTableWord 32 0x0007907B = some (.mdiv 15) := by
  refine ⟨?_, ?_, ?_, ?_, ?_, ?_, ?_, ?_, ?_, ?_, ?_, ?_⟩ <;> rfl

/-- Words of custom-3, queues, masks and deadlines (R40), written from its table. -/
theorem test_decode_queues_2 :
    decodeTableWord 32 0x0200907B = some (.melse 1) ∧
    decodeTableWord 32 0x0400107B = some (.mjoin) ∧
    decodeTableWord 32 0x0600107B = some (.mrejoin) ∧
    decodeTableWord 32 0x0800107B = some (.mpush) ∧
    decodeTableWord 32 0x0A00107B = some (.mpop) ∧
    decodeTableWord 32 0x0C0312FB = some (.mrd 5 6) ∧
    decodeTableWord 32 0x0E73107B = some (.mwr 6 7) ∧
    decodeTableWord 32 0x7E01AF7B = some (.bmany 3 0x3FF) ∧
    decodeTableWord 32 0x8007B07B = some (.bmall 15 0x800) ∧
    decodeTableWord 32 0xFE004FFB = some (.bmnone 0 0xFFF) ∧
    decodeTableWord 32 0x0003507B = some (.wrCommit 6) ∧
    decodeTableWord 32 0x0200507B = some (.wrDone) := by
  refine ⟨?_, ?_, ?_, ?_, ?_, ?_, ?_, ?_, ?_, ?_, ?_, ?_⟩ <;> rfl

/-- Words of custom-3, queues, masks and deadlines (R40), written from its table. -/
theorem test_decode_queues_3 :
    decodeTableWord 32 0x0400507B = some (.wrDrop) ∧
    decodeTableWord 32 0x1003507B = some (.lrel 6) := by
  refine ⟨?_, ?_⟩ <;> rfl

/-- Words of standard encodings (R33), written from its table. -/
theorem test_decode_standard_1 :
    decodeTableWord 32 0xFF833283 = some (.hartLoad .ld 5 6 0xFF8) ∧
    decodeTableWord 32 0x00134283 = some (.hartLoad .lbu 5 6 1) ∧
    decodeTableWord 32 0x00432287 = some (.hartLoad .flw 5 6 4) ∧
    decodeTableWord 32 0x7E733423 = some (.hartStore .sd 6 7 0x7E8) ∧
    decodeTableWord 32 0x00733427 = some (.hartStore .fsd 6 7 8) ∧
    decodeTableWord 32 0x140322AF = some (.hartAmo .lr false true false 5 6 0) ∧
    decodeTableWord 32 0x1A7332AF = some (.hartAmo .sc true false true 5 6 7) ∧
    decodeTableWord 32 0xA07332AF = some (.hartAmo .max true false false 5 6 7) ∧
    decodeTableWord 32 0x0E7322AF = some (.hartAmo .swap false true true 5 6 7) ∧
    decodeTableWord 32 0x0F30000F = some (.fence 0 15 3) ∧
    decodeTableWord 32 0x0000100F = some (.fenceI) ∧
    decodeTableWord 32 0x12730073 = some (.sfenceVma 6 7) := by
  refine ⟨?_, ?_, ?_, ?_, ?_, ?_, ?_, ?_, ?_, ?_, ?_, ?_⟩ <;> rfl

/-- Words of standard encodings (R33), written from its table. -/
theorem test_decode_standard_2 :
    decodeTableWord 32 0x10500073 = some (.wfi) ∧
    decodeTableWord 32 0x00D00073 = some (.wrsNto) ∧
    decodeTableWord 32 0x01D00073 = some (.wrsSto) ∧
    decodeTableWord 32 0x30200073 = some (.xret true) ∧
    decodeTableWord 32 0x10200073 = some (.xret false) ∧
    decodeTableWord 32 0x340312F3 = some (.csrAccess .rw false 0x340 5 6) ∧
    decodeTableWord 32 0x0011F2F3 = some (.csrAccess .rc true 0x001 5 3) ∧
    decodeTableWord 32 0x800322F3 = some (.loopCsrWrite .rs false 0x800 5 6) ∧
    decodeTableWord 32 0x00000073 = some (.standardInstruction .ecall) ∧
    decodeTableWord 32 0x00100073 = some (.standardInstruction .ebreak) ∧
    decodeTableWord 32 0x407302B3 = some (.standardInstruction (.alu .sub 5 6 7)) ∧
    decodeTableWord 32 0x027342B3 = some (.standardInstruction (.alu .div 5 6 7)) := by
  refine ⟨?_, ?_, ?_, ?_, ?_, ?_, ?_, ?_, ?_, ?_, ?_, ?_⟩ <;> rfl

/-- Words of standard encodings (R33), written from its table. -/
theorem test_decode_standard_3 :
    decodeTableWord 32 0xFFFFF2B7 = some (.standardInstruction (.lui 5 0xFFFFF)) ∧
    decodeTableWord 32 0xFE731EE3 = some (.standardInstruction (.branch .bne 6 7 0xFFE)) ∧
    decodeTableWord 32 0x027372D3 = some (.standardInstruction (.fbin .add true .dyn 5 6 7)) ∧
    decodeTableWord 16 0x8082 = some (.standardInstruction (.jalr 0 1 0)) := by
  refine ⟨?_, ?_, ?_, ?_⟩ <;> rfl

/-- Words of fmt 000 (R46), written from its table. -/
theorem test_decode_three_source_1 :
    decodeTableWord 64 0x6A0B82C0A828043F = some (.vfma hA (.f32 .rtz) 20 21 22 23) ∧
    decodeTableWord 64 0x000B82C0A828283F = some (.vfms p0 (.f32 .rdn) 20 21 22 23) ∧
    decodeTableWord 64 0x000B82C0A8284C3F = some (.vfnma p0 (.f32 .rup) 20 21 22 23) ∧
    decodeTableWord 64 0x860B82C0A8287C3F = some (.vfnms hB (.f32 .dyn) 20 21 22 23) ∧
    decodeTableWord 64 0x000200601002803F = some (.vfma p0 .h2 1 2 3 4) ∧
    decodeTableWord 64 0x000200601002943F = some (.vfms p0 .b2 1 2 3 4) ∧
    decodeTableWord 64 0x000200601002883F = some (.vfnma p0 .h2 1 2 3 4) ∧
    decodeTableWord 64 0x0002006010029C3F = some (.vfnms p0 .b2 1 2 3 4) ∧
    decodeTableWord 64 0x000200601002A43F = some (.vdp2 p0 true 1 2 3 4) ∧
    decodeTableWord 64 0x000200601002B43F = some (.vdp4 p0 .e5m2 1 2 3 4) ∧
    decodeTableWord 64 0x000200601002AC3F = some (.vdp4 p0 .n8 1 2 3 4) ∧
    decodeTableWord 64 0x01A2641804FEC43F = some (.vmad p0 true 639 768 800 836) := by
  refine ⟨?_, ?_, ?_, ?_, ?_, ?_, ?_, ?_, ?_, ?_, ?_, ?_⟩ <;> rfl

/-- Words of fmt 000 (R46), written from its table. -/
theorem test_decode_three_source_2 :
    decodeTableWord 64 0x000200601002C83F = some (.vmadh p0 false 1 2 3 4) ∧
    decodeTableWord 64 0x01A1683A0002D03F = some (.vsel p0 1 832 833 834) ∧
    decodeTableWord 64 0x01A180601002D43F = some (.vbfi p0 1 2 3 835) ∧
    decodeTableWord 64 0x000200601002D83F = some (.vfunnel p0 1 2 3 4) := by
  refine ⟨?_, ?_, ?_, ?_⟩ <;> rfl

/-- Words of fmt 001 (R47, R48), written from its table. -/
theorem test_decode_two_source_1 :
    decodeTableWord 64 0x00000160501200BF = some (.vadd p0 .s32 9 10 11) ∧
    decodeTableWord 64 0x6A000160501224BF = some (.vsub hA .n32 9 10 11) ∧
    decodeTableWord 64 0x86000160501248BF = some (.vmul hB .s16 9 10 11) ∧
    decodeTableWord 64 0x0000016050126CBF = some (.vmulh p0 .n16 9 10 11) ∧
    decodeTableWord 64 0x6A000160501290BF = some (.vmin hA .s8 9 10 11) ∧
    decodeTableWord 64 0x860001605012B4BF = some (.vmax hB .n8 9 10 11) ∧
    decodeTableWord 64 0x000001605012C0BF = some (.vabsd p0 .s32 9 10 11) ∧
    decodeTableWord 64 0x6A0001605012ECBF = some (.vadds hA .n16 9 10 11) ∧
    decodeTableWord 64 0x86000160501314BF = some (.vsubs hB .n8 9 10 11) ∧
    decodeTableWord 64 0x00000180501018BF = some (.vadd p0 .s64 8 10 12) ∧
    decodeTableWord 64 0x00038160501320BF = some (.vfadd p0 (.f32 .dyn) 9 10 11) ∧
    decodeTableWord 64 0x00040160501324BF = some (.vfsub p0 .h2 9 10 11) := by
  refine ⟨?_, ?_, ?_, ?_, ?_, ?_, ?_, ?_, ?_, ?_, ?_, ?_⟩ <;> rfl

/-- Words of fmt 001 (R47, R48), written from its table. -/
theorem test_decode_two_source_2 :
    decodeTableWord 64 0x00080160501328BF = some (.vfmul p0 .b2 9 10 11) ∧
    decodeTableWord 64 0x0000016050132CBF = some (.vfmin p0 (.f32 .rne) 9 10 11) ∧
    decodeTableWord 64 0x00000160501330BF = some (.vfmax p0 (.f32 .rne) 9 10 11) ∧
    decodeTableWord 64 0x00000160501340BF = some (.vand p0 9 10 11) ∧
    decodeTableWord 64 0x00000160501344BF = some (.vor p0 9 10 11) ∧
    decodeTableWord 64 0x00000160501348BF = some (.vxor p0 9 10 11) ∧
    decodeTableWord 64 0x0000016050134CBF = some (.vandn p0 9 10 11) ∧
    decodeTableWord 64 0x00000160501350BF = some (.vsll p0 9 10 11) ∧
    decodeTableWord 64 0x00000160501354BF = some (.vsrl p0 9 10 11) ∧
    decodeTableWord 64 0x00000160501358BF = some (.vsra p0 9 10 11) ∧
    decodeTableWord 64 0x0000016050135CBF = some (.vrol p0 9 10 11) ∧
    decodeTableWord 64 0x000A8160501F60BF = some (.vcmp p0 .le true 15 10 11) := by
  refine ⟨?_, ?_, ?_, ?_, ?_, ?_, ?_, ?_, ?_, ?_, ?_, ?_⟩ <;> rfl

/-- Words of fmt 001 (R47, R48), written from its table. -/
theorem test_decode_two_source_3 :
    decodeTableWord 64 0x00030160500364BF = some (.vfcmp p0 .ord 1 10 11) ∧
    decodeTableWord 64 0x002C8160501368BF = some (.vpack p0 (.f16 .rtz true) 9 10 11) ∧
    decodeTableWord 64 0x00200160501368BF = some (.vpack p0 .n16 9 10 11) ∧
    decodeTableWord 64 0x0000016050136CBF = some (.vperm p0 9 10 11) ∧
    decodeTableWord 64 0x06000160501370BF = some (.vclmulN32 0x06000160501370BF#64) := by
  refine ⟨?_, ?_, ?_, ?_, ?_⟩ <;> rfl

/-- Words of fmt 010 (R49), written from its table. -/
theorem test_decode_unary_1 :
    decodeTableWord 64 0x000000005012013F = some (.vmov p0 9 10) ∧
    decodeTableWord 64 0x6A0000005012053F = some (.vnot hA 9 10) ∧
    decodeTableWord 64 0x860000005012093F = some (.vbrev hB 9 10) ∧
    decodeTableWord 64 0x0000000050120D3F = some (.vclz p0 9 10) ∧
    decodeTableWord 64 0x6A0000005012113F = some (.vctz hA 9 10) ∧
    decodeTableWord 64 0x860000005012153F = some (.vpopc hB 9 10) ∧
    decodeTableWord 64 0x000000005012253F = some (.vneg p0 .f32 9 10) ∧
    decodeTableWord 64 0x000000005012393F = some (.vabs p0 .h2 9 10) ∧
    decodeTableWord 64 0x000000005012413F = some (.vrcp p0 9 10) ∧
    decodeTableWord 64 0x000000005012453F = some (.vrsqrt p0 9 10) ∧
    decodeTableWord 64 0x000100005012493F = some (.vsqrt p0 .rdn 9 10) ∧
    decodeTableWord 64 0x0000000050124D3F = some (.vexp2 p0 9 10) := by
  refine ⟨?_, ?_, ?_, ?_, ?_, ?_, ?_, ?_, ?_, ?_, ?_, ?_⟩ <;> rfl

/-- Words of fmt 010 (R49), written from its table. -/
theorem test_decode_unary_2 :
    decodeTableWord 64 0x000000005012513F = some (.vlog2 p0 9 10) ∧
    decodeTableWord 64 0x000000005012553F = some (.vsin p0 9 10) ∧
    decodeTableWord 64 0x000000005012593F = some (.vcos p0 9 10) ∧
    decodeTableWord 64 0x0000000050125D3F = some (.vtanh p0 9 10) ∧
    decodeTableWord 64 0x000000005012613F = some (.vfrac p0 9 10) ∧
    decodeTableWord 64 0x000180005012653F = some (.vrnd p0 .rup 9 10) ∧
    decodeTableWord 64 0x000000005012693F = some (.vfclass p0 9 10) ∧
    decodeTableWord 64 0x006080005011093F = some (.vcvt p0 .s64 .f32 .rtz false 8 10) ∧
    decodeTableWord 64 0x002D00005011093F = some (.vcvt p0 .f16 .f32 .rdn true 8 10) ∧
    decodeTableWord 64 0x0013800050132D3F = some (.vcvt p0 .f32 .e2m1 .dyn false 9 10) ∧
    decodeTableWord 64 0x005400005013413F = some (.vcvtSr p0 .e5m2 true 9 10) ∧
    decodeTableWord 64 0x005B80005013453F = some (.vunpack p0 .e2m1 7 9 10) := by
  refine ⟨?_, ?_, ?_, ?_, ?_, ?_, ?_, ?_, ?_, ?_, ?_, ?_⟩ <;> rfl

/-- Words of fmt 011 (R50), written from its table. -/
theorem test_decode_immediate :
    decodeTableWord 64 0x01FFFFE0001201BF = some (.vmovi p0 0xFFFFF 9) ∧
    decodeTableWord 64 0x002468A0501205BF = some (.vaddi p0 0x12345 9 10) ∧
    decodeTableWord 64 0x002468A0501209BF = some (.vandi p0 0x12345 9 10) ∧
    decodeTableWord 64 0x002468A050120DBF = some (.vori p0 0x12345 9 10) ∧
    decodeTableWord 64 0x002468A0501211BF = some (.vxori p0 0x12345 9 10) ∧
    decodeTableWord 64 0x000003E0501215BF = some (.vslli p0 31 9 10) ∧
    decodeTableWord 64 0x000003C0501219BF = some (.vsrli p0 30 9 10) ∧
    decodeTableWord 64 0x000003A050121DBF = some (.vsrai p0 29 9 10) ∧
    decodeTableWord 64 0x6A000060501221BF = some (.vmuli hA 3 9 10) ∧
    decodeTableWord 64 0x0100000050044DBF = some (.vcmpi p0 .ge false 0x80000 2 10) ∧
    decodeTableWord 64 0x000000A0500471BF = some (.vcmpi p0 .gt true 5 2 10) := by
  refine ⟨?_, ?_, ?_, ?_, ?_, ?_, ?_, ?_, ?_, ?_, ?_⟩ <;> rfl

/-- Words of fmt 100 (R51), written from its table. -/
theorem test_decode_memory :
    decodeTableWord 64 0x003661604810023F = some (.vld p0 ⟨.w, .acq, .die, .normal⟩ 8 9 779) ∧
    decodeTableWord 64 0x00DB68004810063F = some (.vst p0 ⟨.q, .rel, .sys, .str⟩ 8 9 832) ∧
    decodeTableWord 64 0x014C800050100A3F = some (.vldx p0 ⟨.s8, .sc, .pkg, .l2⟩ 8 10) ∧
    decodeTableWord 64 0x0012800050100E3F = some (.vstx p0 ⟨.d, .rlx, .team, .normal⟩ 8 10) ∧
    decodeTableWord 64 0x002160400010123F = some (.vldB p0 ⟨.n16, .rlx, .clus, .normal⟩ 8 770) ∧
    decodeTableWord 64 0x0001E0404810163F = some (.vlds p0 .s16 8 9 770) ∧
    decodeTableWord 64 0x0000604048101A3F = some (.vsts p0 .n8 8 9 770) ∧
    decodeTableWord 64 0x0007604048101E3F = some (.vldt p0 true .wgt 8 9 770) ∧
    decodeTableWord 64 0x000A60404810223F = some (.vstt p0 false .acc 8 9 770) ∧
    decodeTableWord 64 0x014060404800263F = some (.vpf p0 .pkg .l2 9 770) ∧
    decodeTableWord 64 0x0190E04048102A3F = some (.vstRdc p0 .d 200 8 9 770) ∧
    decodeTableWord 64 0x2A00000000002E3F = some (.vexit ⟨false, false, true, 5⟩) := by
  refine ⟨?_, ?_, ?_, ?_, ?_, ?_, ?_, ?_, ?_, ?_, ?_, ?_⟩ <;> rfl

/-- Words of fmt 101 (R52), written from its table. -/
theorem test_decode_cross_lane_1 :
    decodeTableWord 64 0x00000160501202BF = some (.vshflIdx p0 .g2 9 10 11) ∧
    decodeTableWord 64 0x00008160501206BF = some (.vshflUp p0 .g4 9 10 11) ∧
    decodeTableWord 64 0x0001016050120ABF = some (.vshflDown p0 .g8 9 10 11) ∧
    decodeTableWord 64 0x0001816050120EBF = some (.vshflXor p0 .g16 9 10 11) ∧
    decodeTableWord 64 0x00020000500622BF = some (.vvoteAny p0 .g32 3 10) ∧
    decodeTableWord 64 0x00000000500626BF = some (.vvoteAll p0 .g2 3 10) ∧
    decodeTableWord 64 0x0000800050122ABF = some (.vvoteMask p0 .g4 9 10) ∧
    decodeTableWord 64 0x00060000501232BF = some (.vmatch p0 true .g32 9 10) ∧
    decodeTableWord 64 0x00410000080442BF = some (.vscanAdd p0 .s32 true .g8 2 1) ∧
    decodeTableWord 64 0x000A0000080446BF = some (.vscanMin p0 .n32 false .g32 2 1) ∧
    decodeTableWord 64 0x0011800008044ABF = some (.vscanMax p0 .f32 false .g16 2 1) ∧
    decodeTableWord 64 0x00000000500E62BF = some (.vlredAdd p0 .s32 7 10) := by
  refine ⟨?_, ?_, ?_, ?_, ?_, ?_, ?_, ?_, ?_, ?_, ?_, ?_⟩ <;> rfl

/-- Words of fmt 101 (R52), written from its table. -/
theorem test_decode_cross_lane_2 :
    decodeTableWord 64 0x00080000500E66BF = some (.vlredMin p0 .n32 7 10) ∧
    decodeTableWord 64 0x00100000500E6ABF = some (.vlredMax p0 .f32 7 10) ∧
    decodeTableWord 64 0x00000000500E6EBF = some (.vlredAnd p0 7 10) ∧
    decodeTableWord 64 0x00000000500E72BF = some (.vlredOr p0 7 10) ∧
    decodeTableWord 64 0x00000000500E76BF = some (.vlredXor p0 7 10) ∧
    decodeTableWord 64 0x00188000500E82BF = some (.vext p0 (.imm 17) 7 10) ∧
    decodeTableWord 64 0x00006060500E82BF = some (.vext p0 (.reg 3) 7 10) ∧
    decodeTableWord 64 0x001F8018501286BF = some (.vins p0 (.imm 31) 9 10) := by
  refine ⟨?_, ?_, ?_, ?_, ?_, ?_, ?_, ?_⟩ <;> rfl

/-- Words of fmt 110 (R53), written from its table. -/
theorem test_decode_atomic_1 :
    decodeTableWord 64 0x000501A05812173F = some (.vamoAdd p0 .b2 .rlx .hart 10 9 11 13) ∧
    decodeTableWord 64 0x009581A05812233F = some (.vamoMin p0 .s32 .acq .team 11 9 11 13) ∧
    decodeTableWord 64 0x012601A05812533F = some (.vamoMax p0 .f32 .rel .clus 12 9 11 13) ∧
    decodeTableWord 64 0x01B681A05812673F = some (.vamoAnd p0 .n32 .sc .die 13 9 11 13) ∧
    decodeTableWord 64 0x004701C060148F3F = some (.vamoOr p0 .n64 .rlx .pkg 14 10 12 14) ∧
    decodeTableWord 64 0x00D781A05812A73F = some (.vamoXor p0 .n32 .acq .sys 15 9 11 13) ∧
    decodeTableWord 64 0x010801C06014CF3F = some (.vamoXchg p0 .n64 .rel .hart 16 10 12 14) ∧
    decodeTableWord 64 0x019881A05812E73F = some (.vamoCas p0 .n32 .sc .team 17 9 11 13) ∧
    decodeTableWord 64 0x005A000060150B3F = some (.vmredAdd p0 .s64 .rlx .sys 20 10 12) ∧
    decodeTableWord 64 0x014A80005813273F = some (.vmredMin p0 .n32 .rel .pkg 21 9 11) ∧
    decodeTableWord 64 0x01BB00005813533F = some (.vmredMax p0 .f32 .sc .die 22 9 11) ∧
    decodeTableWord 64 0x002B800060156F3F = some (.vmredAnd p0 .n64 .rlx .clus 23 10 12) := by
  refine ⟨?_, ?_, ?_, ?_, ?_, ?_, ?_, ?_, ?_, ?_, ?_, ?_⟩ <;> rfl

/-- Words of fmt 110 (R53), written from its table. -/
theorem test_decode_atomic_2 :
    decodeTableWord 64 0x011C00005813873F = some (.vmredOr p0 .n32 .rel .team 24 9 11) ∧
    decodeTableWord 64 0x018C80006015AF3F = some (.vmredXor p0 .n64 .sc .hart 25 10 12) ∧
    decodeTableWord 64 0x004200005813DB3F = some (.vmredAddOrd p0 .h2 .rlx .pkg 4 9 11) ∧
    decodeTableWord 64 0x000480000019E73F = some (.vqenq p0 true 9 12) ∧
    decodeTableWord 64 0x000480000019EB3F = some (.vqdeq p0 false 9 12) ∧
    decodeTableWord 64 0x000480002019F33F = some (.vqtdeq p0 false 4 9 12) := by
  refine ⟨?_, ?_, ?_, ?_, ?_, ?_⟩ <;> rfl

/-- Words that are reserved or illegal are refused by name: `yield` with a register, an unassigned funct7, mask index 16, fmt 111, an
unassigned op, pn without pm, a reserved rounding mode, an `h2` add with a rounding mode, a broadcast load with a cache hint, the 48-bit and
80-bit encodings, and the zero halfword (R31, R36, R40, R43, R44, R46, R47, R51). -/
theorem test_decode_reserved :
    decode (natBytes 0x200008B 8) = .reject .word32 0x200008B#64 4 ∧
    decode (natBytes 0x1000000B 8) = .reject .word32 0x1000000B#64 4 ∧
    decode (natBytes 0x8107B 8) = .reject .word32 0x8107B#64 4 ∧
    decode (natBytes 0x3BF 8) = .reject .laneWord 0x3BF#64 8 ∧
    decode (natBytes 0x160501258BF 8) = .reject .laneWord 0x160501258BF#64 8 ∧
    decode (natBytes 0x200000005012013F 8) = .reject .laneWord 0x200000005012013F#64 8 ∧
    decode (natBytes 0x601605012143F 8) = .reject .laneWord 0x601605012143F#64 8 ∧
    decode (natBytes 0x48160501320BF 8) = .reject .laneWord 0x48160501320BF#64 8 ∧
    decode (natBytes 0x6160400010123F 8) = .reject .laneWord 0x6160400010123F#64 8 ∧
    decode (natBytes 0x1F 8) = .reject .reserved48 0x1F#64 4 ∧
    decode (natBytes 0x7F 8) = .reject .reserved80 0x7F#64 4 ∧
    decode (natBytes 0x0 8) = .reject .compressed 0x0#64 2 := by
  refine ⟨?_, ?_, ?_, ?_, ?_, ?_, ?_, ?_, ?_, ?_, ?_, ?_⟩ <;> rfl

/-! ## Single steps -/

/-- A hart of a running team in U mode, without translation, all of whose pools are its own; see `State.withFetchWord`. -/
def base : State := State.reset.withFetchWord 32 0x13

/-- The base state with its hart changed. -/
def on (f : Hart → Hart) : State := base.onHart f

/-- The state after the instruction that a word stands for, executed by the hart as changed. -/
def after (nbits w : Nat) (f : Hart → Hart) : State :=
  let s := on (fun h => f { h with ir := BitVec.ofNat 64 w, ilen := nbits / 8 })
  match decodeTableWord nbits w with
  | some i =>
    match exec i s with
    | .next t => t
    | _ => base
  | none => base

/-- The hart after the one step of a state. -/
def stepped (s : State) : Option Hart :=
  match step s with
  | .next t => some t.hart
  | _ => none

/-- A lane register of a hart with listed lanes. -/
def lanesOf (r : Nat) (l : List Lane) (h : Hart) : Hart :=
  ((List.range l.length).zip l).foldl (fun h e => h.setV r e.1 e.2) h


/-- A step fetches the word at pc and runs it: `addi x1, x0, 0x123` (R31, R32). -/
theorem test_step_addi : (stepped (State.reset.withFetchWord 32 0x12300093)).map (fun h => (h.getX 1, h.pc)) =
    some (0x123#64, 0x20000000004#64) := by decide

/-- A compressed instruction moves pc by 2: `c.addi x10, 8` (R31). -/
theorem test_step_caddi : (stepped (State.reset.withFetchWord 16 0x0521)).map (fun h => (h.getX 10, h.pc)) =
    some (8#64, 0x20000000002#64) := by decide

/-- The worked example of R115: a packed FMA with flushing. -/
theorem test_vfma_h2 :
    let h := (after 64 0x000380C02808803F (fun h => lanesOf 5 [0x04000001] (lanesOf 6 [0x38004000] (lanesOf 7 [0x3C00]
      (h.setM 0 1))))).hart
    (h.getV 4 0, h.csr.fflags, h.pc) = (0x3C00#32, 3#5, 0x20000000008#64) := by decide

/-- The worked example of R115: one rounding of a dot product, `vdp4.e4m3 v1, v2, v2, v3`. -/
theorem test_vdp4_e4m3 :
    let h := (after 64 0x000180401002B03F (fun h => lanesOf 2 [0x38383838] (lanesOf 3 [0x4B800000] (h.setM 0 1)))).hart
    (h.getV 1 0, h.csr.fflags) = (0x4B800002#32, 0#5) := by decide

/-- The worked example of R150: an exclusive scan of eight lanes without lane 3, whose register stays. -/
theorem test_vscan :
    let h := (after 64 0x00410000080442BF (fun h => lanesOf 1 [5, 1, 4, 9, 2, 6, 3, 7] (lanesOf 2 [70, 71, 72, 73]
      (h.setM 0 0xF7)))).hart
    (List.range 8).map (h.getV 2) = [0, 5, 6, 73, 10, 12, 18, 21] := by decide

/-- R106: the selector 0x0123 reverses the bytes, `vperm v1, v2, v3`. -/
theorem test_vperm : ((after 64 0x0000006010036CBF (fun h => lanesOf 2 [0x11223344] (lanesOf 3 [0x123] h))).hart).getV 1 0 =
    0x44332211#32 := by decide

/-- R147: `vshfl.down.g4 v3, v3, vone` leaves each lane its own value. -/
theorem test_vshfl_vone :
    let h := (after 64 0x00000E86018060ABF (fun h => lanesOf 3 [7, 8, 9, 10] h)).hart
    ((List.range 4).map (h.getV 3), h.pc) = ([7, 8, 9, 10], 0x20000000008#64) := by decide

/-- R155: `mdiv m3` stacks the old mask; a mask stack that holds 32 entries takes no further one, cause 24. -/
theorem test_mdiv :
    let h := (after 32 0x0001907B (fun h => (h.setM 0 0xFF).setM 3 0xF0F)).hart
    (h.getM 0, h.mstk, h.pc) = (0x0F#32, [⟨0xFF, 0, 0x20000000004, 0⟩], 0x20000000004#64) := by decide

theorem test_mpush_full :
    let h := (after 32 0x0800107B (fun h => { h with mstk := List.replicate 32 ⟨1, 0, 0, 0⟩ })).hart
    (h.csr.scause, h.csr.sxcause, h.mode, h.csr.sepc) = (24#64, 0#64, Priv.s, 0x20000000000#64) := by decide

/-- R92: the instruction that ends a body goes back while the count is not used up. -/
theorem test_loop_end :
    let h := (after 32 0x00000013 (fun h => { h with lpcnt0 := 2, lpbeg0 := 0x20000000100, lpend0 := 0x20000000004 })).hart
    (h.pc, h.lpcnt0) = (0x20000000100#64, 1#64) := by decide

/-- R33: `ecall` in U mode is delegated to S mode with cause 8. -/
theorem test_ecall :
    let h := (after 32 0x00000073 (fun h => { h with csr := { h.csr with stvec := 0x1000 } })).hart
    (h.mode, h.csr.scause, h.csr.sepc, h.pc) = (Priv.s, 8#64, 0x20000000000#64, 0x1000#64) := by decide

/-- A store and a load of HBM: `sw x6, 8(x5)`, and `lb` of a byte with its sign (R8, R33). -/
theorem test_sw :
    let t := after 32 0x0062A423 (fun h => (h.setX 5 0x20000000100).setX 6 0x8899AABB)
    (memGet t.mem 0x20000000108, memGet t.mem 0x2000000010B, memGet t.mem 0x2000000010C) = (0xBB#8, 0x88#8, 0#8) := by decide

theorem test_lb : ((after 32 0xFFF28303 (fun h => h.setX 5 0x20000000001)).hart).getX 6 = 0x13#64 := by decide

/-- R34: a misaligned word load is an exception, cause 4, with the address in the trap value. -/
theorem test_lw_misaligned :
    let h := (after 32 0x0012A303 (fun h => h.setX 5 0x20000000100)).hart
    (h.mode, h.csr.scause, h.csr.stval) = (Priv.s, 4#64, 0x20000000101#64) := by decide

/-- R78, R135: `vsts.w [v4], v5` whose lane 0 lies beyond the team's share: lane 0 faults and lane 1 is performed. -/
theorem test_vsts_beyond_share :
    let t := after 64 0x00026800200A1A3F (fun h => lanesOf 4 [262144, 8] (lanesOf 5 [7, 9] (h.setM 0 3)))
    (t.hart.lfault, t.hart.lcomp, t.hart.csr.scause, (t.core 0).shmBytes 8 4) = (1#32, 2#64, 7#64, [9, 0, 0, 0]) := by decide

/-- The example of R254: the home slice of the offset 0xC_0804_0A80 in the global pool is 389 (log 49). -/
theorem test_homeSlice : homeSlice (0x20000000000 + 0xC08040A80) = 389 := by decide

/-- The same example: the address within the channel is 0x0604_0280. -/
theorem test_chanAddr : State.reset.chanAddr (0x20000000000 + 0xC08040A80) = 0x06040280 := by decide

/-- R117: an inexact result that is the smallest normal of the narrower format is not below it, so UF stays clear. -/
theorem test_convert_smallest_normal : convert .f32 .f16 .rne false 0x387FE800 = ⟨0x0400, 1#5⟩ := by decide

/-- R22: a widening conversion extends by the source's sign. -/
theorem test_convert_widens : convert .s8 .n32 .rne false 0xFF = ⟨0xFFFFFFFF, 0#5⟩ := by decide

/-- R181: a signal adds to the semaphore and `sem.try` takes from it. -/
theorem test_sem :
    let t := after 32 0x0062D02B (fun h => ((h.setX 5 3).setX 6 7))
    ((t.core 0).sem 3).cnt = 7 := by decide

/-! ## Witnesses: states and operands that meet the hypotheses of the statements, clause by clause -/

theorem witness_PackedIntegerWords :
    (Ity.is64 .s32 = false ∧ LanesFree base (regsOf 2 1 ++ regsOf 800 1 ++ [(639 : LOp).toNat])) ∧
    (Ity.is64 .n64 = true ∧ LanesFree base (regsOf 2 2 ++ regsOf 768 2 ++ [(638 : LOp).toNat, (638 : LOp).toNat + 1])) := by
  unfold LanesFree; decide

theorem witness_ThreeSourceIntegerWords : LanesFree base (regsOf 2 1 ++ regsOf 832 1 ++ regsOf 639 1 ++ [(4 : LOp).toNat]) := by
  unfold LanesFree; decide

theorem witness_BitUnaryImmediateWords :
    LanesFree base (regsOf 2 1 ++ regsOf 3 1 ++ [(4 : LOp).toNat]) ∧ LanesFree base (regsOf 2 1 ++ [(639 : LOp).toNat]) ∧
    (NegTy.h2 = .h2 ∨ NegTy.h2 = .b2) ∧ (NegTy.b2 = .h2 ∨ NegTy.b2 = .b2) := by
  unfold LanesFree; decide

/-- frm as given. -/
def withFrm (r : BitVec 3) : State := on (fun h => { h with csr := { h.csr with frm := r } })

theorem witness_FloatWordsAndRounding :
    (LanesFree (withFrm 4) (regsOf 2 1 ++ regsOf 3 1 ++ regsOf 835 1 ++ [(4 : LOp).toNat]) ∧
      (withFrm 4).formRm (.f32 .dyn) = some .rmm ∧ (withFrm 4).formRm .h2 = some .rne ∧
      (withFrm 4).hart.rmOf (packRm (.f16 .rtz true)) = some .rtz ∧ (withFrm 4).hart.rmOf .dyn = some .rmm) ∧
    (5 ≤ (withFrm 5).hart.csr.frm.toNat ∧ 5 ≤ (withFrm 7).hart.csr.frm.toNat) := by
  unfold LanesFree; decide

/-- The special cases of the multiply-adds: a NaN, ∞ × 0, ∞ × 1 with a third operand of either sign, 1 × 1 + ∞, and 0 × 1 + 0. -/
theorem witness_FloatSpecials :
    (fin .f16 0x7E00).isNan = true ∧ mulVal (fin .f32 0x7F800000) (fin .f32 0x80000000) = none ∧
    (mulVal (fin .f32 0x7F800000) (fin .f32 0x3F800000) = some (.inf false) ∧
      fin .f32 0xFF800000 = .inf (!((false != false) != false)) ∧
      (fin .f32 0x3F800000).isNan = false ∧ fin .f32 0x3F800000 ≠ .inf (!((false != false) != false))) ∧
    ((mulVal (fin .f32 0x3F800000) (fin .f32 0x3F800000)).map FVal.isZero = some false ∧ fin .f32 0x7F800000 = .inf false) ∧
    (mulVal (fin .bf16 0x0000) (fin .bf16 0x3F80) = some (.fin false 0 (-140)) ∧ (fin .bf16 0x8000).isZero = true) ∧
    (fin .f32 0x7F800000 = .inf false ∧ fin .f32 0xFF800000 = .inf (!(false != false))) ∧ (fin .f32 0x80000000).isZero = true := by
  decide

/-- Values of patterns: 1, 2^-149, 128, −1, 1/2, 1/4, 10, 0. -/
theorem ratOf_samples :
    Claims.ratOf (fval .f32 0x3F800000) = some 1 ∧ Claims.ratOf (fval .f32 1) = some ((2 : ℚ) ^ (-149 : Int)) ∧
    Claims.ratOf (fval .f32 0x43000000) = some 128 ∧ Claims.ratOf (fval .f32 0xBF800000) = some (-1) ∧
    Claims.ratOf (fval .f32 0x3F000000) = some (1 / 2) ∧ Claims.ratOf (fval .f32 0x3E800000) = some (1 / 4) ∧
    Claims.ratOf (fval .f32 0x41200000) = some 10 ∧ Claims.ratOf (fval .f32 0) = some 0 := by
  rw [show fval .f32 0x3F800000 = .fin false 0x800000 (-23) by decide, show fval .f32 1 = .fin false 1 (-149) by decide,
    show fval .f32 0x43000000 = .fin false 0x800000 (-16) by decide, show fval .f32 0xBF800000 = .fin true 0x800000 (-23) by decide,
    show fval .f32 0x3F000000 = .fin false 0x800000 (-24) by decide, show fval .f32 0x3E800000 = .fin false 0x800000 (-25) by decide,
    show fval .f32 0x41200000 = .fin false 0xA00000 (-20) by decide, show fval .f32 0 = .fin false 0 (-149) by decide]
  norm_num [Claims.ratOf]

theorem witness_MinimaAndMaxima :
    ((fval .f32 0x7FC00000).isNan = true ∧ (fval .f32 0x3F800000).isNan = false) ∧
    ((fval .f32 0).isZero = true ∧ (fval .f32 0x80000000).isZero = true ∧ (fval .f32 0).neg ≠ (fval .f32 0x80000000).neg) ∧
    (∃ p q, Claims.ratOf (fval .f32 0xBF800000) = some p ∧ Claims.ratOf (fval .f32 0x43000000) = some q ∧ p < q) := by
  refine ⟨by decide, by decide, -1, 128, ratOf_samples.2.2.2.1, ratOf_samples.2.2.1, by norm_num⟩

/-- 128 and −149 bound `vexp2`; −1 and 2^0 of `vlog2`; k/2 and k/2 + 1/4 of `vsin`; 0, 10 of `vtanh`; infinities, NaNs and a negative. -/
theorem witness_FunctionUnitCases :
    ((fval .f32 0x7FC00000).isNan = true ∧ (fval .f32 0xBF800000).isNan = false ∧ (fval .f32 0xBF800000).isZero = false ∧
      (fval .f32 0xBF800000).neg = true ∧ fval .f32 0xFF800000 = .inf true) ∧
    (∃ q, Claims.ratOf (fval .f32 (0x43000000#32).toNat) = some q ∧ 128 ≤ q) ∧
    Claims.ratOf (fval .f32 (0xBF800000#32).toNat) = some ((-1 : Int) : ℚ) ∧
    Claims.ratOf (fval .f32 (0x3F800000#32).toNat) = some ((2 : ℚ) ^ (0 : Int)) ∧
    (∃ q, Claims.ratOf (fval .f32 (0x3F000000#32).toNat) = some q ∧ q = ((1 : Int) : ℚ) / 2) ∧
    (∃ q, Claims.ratOf (fval .f32 (0x3E800000#32).toNat) = some q ∧ q = ((0 : Int) : ℚ) / 2 + 1 / 4) ∧
    (∃ q, Claims.ratOf (fval .f32 (0#32).toNat) = some q ∧ |q| ≤ 1 / 4096) ∧
    (∃ q, Claims.ratOf (fval .f32 (0x41200000#32).toNat) = some q ∧ 9 ≤ |q|) := by
  obtain ⟨h1, -, h3, h4, h5, h6, h7, h8⟩ := ratOf_samples
  exact ⟨by decide, ⟨_, h3, by norm_num⟩, by simpa using h4, by simpa using h1, ⟨_, h5, by norm_num⟩, ⟨_, h6, by norm_num⟩,
    ⟨_, h8, by norm_num⟩, ⟨_, h7, by norm_num⟩⟩

theorem witness_DotsAndPacking :
    (1 < Tc.perReg .e4m3 ∧ 3 < Tc.perReg .e4m3 ∧ Tc.fmt? .e4m3 = some .e4m3 ∧ Tc.fmt? .s16 = none ∧ 1 < Tc.perReg .s16) ∧
    ∃ f q, Tc.fmt? .f16 = some f ∧ Claims.ratOf (fval f ((0x00003C00#32).toNat / 2 ^ (Tc.width .f16 * 0) % 2 ^ Tc.width .f16)) = some q := by
  refine ⟨by decide, .f16, 1, by decide, ?_⟩
  rw [show fval .f16 ((0x00003C00#32).toNat / 2 ^ (Tc.width .f16 * 0) % 2 ^ Tc.width .f16) = .fin false 0x400 (-10) by decide]
  norm_num [Claims.ratOf]

theorem witness_ConversionAndCompareWords :
    (LanesFree base (regsOf 2 (if Tc.is64 .f32 then 2 else 1) ++
        (if Tc.is64 .s64 then [(4 : LOp).toNat, (4 : LOp).toNat + 1] else [(4 : LOp).toNat])) ∧
      base.hart.rmOf .rup = some .rup ∧ Tc.is64 .s64 = true) ∧
    (LanesFree base (regsOf 2 (if Tc.is64 .n64 then 2 else 1) ++
        (if Tc.is64 .f32 then [(4 : LOp).toNat, (4 : LOp).toNat + 1] else [(4 : LOp).toNat])) ∧ Tc.is64 .f32 = false) ∧
    (Tc.fmt? .e4m3 = some .e4m3 ∧ Tc.is64 .f32 = false ∧ Tc.is64 .e4m3 = false) ∧
    (LanesFree base (regsOf 2 1 ++ regsOf 3 1) ∧ Cond.isInt .le = true) := by
  unfold LanesFree; decide

theorem witness_Shuffles : LanesFree base (regsOf 639 1 ++ regsOf 835 1 ++ [(639 : LOp).toNat]) := by
  unfold LanesFree; decide

theorem witness_VotesAndMatches :
    LanesFree base (regsOf 2 1) ∧ LanesFree base (regsOf 2 1 ++ [(4 : LOp).toNat]) ∧ LanesFree base (regsOf 2 2 ++ [(4 : LOp).toNat]) := by
  unfold LanesFree; decide

theorem witness_ScansAndReductions :
    LanesFree base (regsOf 2 1 ++ [(4 : LOp).toNat]) ∧ LanesFree base (regsOf 2 1) ∧ LanesFree base [(639 : LOp).toNat] := by
  unfold LanesFree; decide

/-- An allocation of one granule, with v4 bound to a read stream and v5 to a write stream. -/
def bound : State := on (fun h => { h with
  lalloc := 32
  strm := [(1, { StrmSlot.fresh with bound := true, reg := 4 }), (2, { StrmSlot.fresh with bound := true, reg := 5, write := true })] })

theorem witness_LaneWordTraps :
    (∃ r ∈ regsOf 32 1 ++ [(1 : LOp).toNat], bound.hart.lalloc ≤ r) ∧ (∃ r ∈ regsOf 2 1 ++ [(639 : LOp).toNat], bound.hart.lalloc ≤ r) ∧
    (∃ r ∈ [(4 : LOp).toNat], bound.hart.boundSlot false r ≠ none) ∧ (∃ r ∈ regsOf 5 1, bound.hart.boundSlot true r ≠ none) ∧
    (∃ r ∈ regsOf 2 1 ++ regsOf 32 1 ++ [(1 : LOp).toNat], bound.hart.lalloc ≤ r) ∧
    (∃ r ∈ regsOf 2 2 ++ regsOf 32 2 ++ [(8 : LOp).toNat, (8 : LOp).toNat + 1], bound.hart.lalloc ≤ r) ∧ Ity.is64 .s64 = true ∧
    (∃ r ∈ regsOf 2 1 ++ regsOf 3 1 ++ regsOf 32 1 ++ [(1 : LOp).toNat], bound.hart.lalloc ≤ r) ∧
    (∃ r ∈ regsOf 2 1 ++ regsOf 32 1 ++ [], bound.hart.lalloc ≤ r) ∧ (∃ r ∈ regsOf 2 1 ++ widthRegs .d 31, bound.hart.lalloc ≤ r) ∧
    (∃ r ∈ widthRegs .q 4, bound.hart.boundSlot false r ≠ none) ∧ (∃ r ∈ regsOf 2 1 ++ widthRegs .w 32 ++ [], bound.hart.lalloc ≤ r) := by
  decide

/-- A mask stack of listed entries. -/
def stacked (m0 : Mask) (l : List MaskEntry) : State := on (fun h => { (h.setM 0 m0).setM 3 0xF with mstk := l })

theorem witness_MaskStackInstructions :
    (stacked 1 (List.replicate 31 ⟨1, 0, 0, 0⟩)).hart.mstk.length < 32 ∧ 32 ≤ (stacked 1 (List.replicate 32 ⟨1, 0, 0, 0⟩)).hart.mstk.length ∧
    (stacked 1 []).hart.mstk = [] ∧ (stacked 1 [⟨7, 6, 0, 0⟩]).hart.mstk = [] ++ [⟨7, 6, 0, 0⟩] ∧
    (7 : Mask) &&& ~~~(6 ||| (stacked 1 [⟨7, 6, 0, 0⟩]).hart.getM 0) = 0 ∧
    (7 : Mask) &&& ~~~(0 ||| (stacked 1 [⟨7, 0, 0, 0⟩]).hart.getM 0) ≠ 0 := by decide

theorem witness_MaskBranches :
    (stacked 3 []).hart.getM 0 &&& (stacked 3 []).hart.getM 3 ≠ 0 ∧ ¬((stacked 0x30 []).hart.getM 0 &&& (stacked 0x30 []).hart.getM 3 ≠ 0) ∧
    (stacked 3 []).hart.getM 0 &&& (stacked 3 []).hart.getM 3 = (stacked 3 []).hart.getM 0 ∧
    ¬((stacked 0x13 []).hart.getM 0 &&& (stacked 0x13 []).hart.getM 3 = (stacked 0x13 []).hart.getM 0) ∧
    (stacked 0 []).hart.getM 0 &&& (stacked 0 []).hart.getM 3 = 0 ∧ ¬((stacked 1 []).hart.getM 0 &&& (stacked 1 []).hart.getM 3 = 0) := by
  decide

/-- x5 and x6 as given, besides. -/
def on2 (s : State) (a b : Word) : State := s.onHart (fun h => (h.setX 5 a).setX 6 b)

theorem witness_MaskStateAndExit :
    (on2 base 0x8000 0).hart.getX 5 = 0x8000#64 ∧ (on2 base 0x8001 0).hart.getX 5 = 0x8001#64 ∧
    ((on2 (stacked 1 [⟨7, 0, 0, 0⟩]) 0x300 0).hart.getX 5 = BitVec.ofNat 64 (256 * 3 + 0) ∧
      (on2 (stacked 1 [⟨7, 0, 0, 0⟩]) 0x300 0).hart.mstk[0]? = some ⟨7, 0, 0, 0⟩) ∧
    ((on2 (stacked 1 [⟨7, 0, 0, 0⟩]) 0x31F 0).hart.getX 5 = BitVec.ofNat 64 (256 * 3 + 31) ∧
      (on2 (stacked 1 [⟨7, 0, 0, 0⟩]) 0x31F 0).hart.mstk.length ≤ 31) ∧
    ((on2 base 0x400 0).hart.getX 5 ≠ 0x8000#64 ∧ (on2 base 0x400 0).hart.getX 5 ≠ 0x8001#64 ∧
      ∀ g < 4, ∀ j < 32, (on2 base 0x400 0).hart.getX 5 ≠ BitVec.ofNat 64 (256 * g + j)) ∧
    (let h := (stacked 3 [⟨7, 4, 0, 0x100⟩]).hart
     (Claims.releases (h.getM 0 &&& ~~~3#32) none (h.mstk.map (fun e => { e with saved := e.saved &&& ~~~3#32, park := e.park &&& ~~~3#32 })).reverse).2.1 =
       some 0x104#64) ∧
    (let h := (stacked 3 [⟨15, 4, 0, 0x100⟩]).hart
     (Claims.releases (h.getM 0 &&& ~~~3#32) none (h.mstk.map (fun e => { e with saved := e.saved &&& ~~~3#32, park := e.park &&& ~~~3#32 })).reverse).2.1 =
       none) := by decide

theorem witness_StandardIntegerAndDivision :
    let e := (on2 base 5 5).hart
    let d := (on2 base 0xFFFFFFFFFFFFFFFF 5).hart
    (e.getX 5 = e.getX 6 ∧ ¬(d.getX 5 = d.getX 6)) ∧ (d.getX 5 ≠ d.getX 6 ∧ ¬(e.getX 5 ≠ e.getX 6)) ∧
    ((d.getX 5).toInt < (d.getX 6).toInt ∧ ¬((e.getX 5).toInt < (e.getX 6).toInt)) ∧
    ((e.getX 6).toInt ≤ (e.getX 5).toInt ∧ ¬((d.getX 6).toInt ≤ (d.getX 5).toInt)) ∧
    ((d.getX 6).toNat < (d.getX 5).toNat ∧ ¬((e.getX 5).toNat < (e.getX 6).toNat)) ∧
    ((e.getX 6).toNat ≤ (e.getX 5).toNat ∧ ¬((d.getX 5).toNat ≤ (d.getX 6).toNat)) ∧ (1 : Word) ≠ 0 := by decide

theorem witness_StandardFloatInstructions :
    (on (fun h => { h with csr := { h.csr with mstatus := 0x0000000A00000000#64 } })).hart.fsOff = true ∧
    (withFrm 6).hart.rmOf .dyn = none ∧ base.hart.fsOff = false ∧ base.hart.rmOf .rmm = some .rmm := by decide

/-- What a request answers, without the state it leaves. -/
def okOf {α : Type} (r : Except TrapInfo α × State) : Option α :=
  match r.1 with
  | .ok a => some a
  | .error _ => none

theorem ok_pair {α : Type} {r : Except TrapInfo α × State} {a : α} (h : okOf r = some a) : r = (.ok a, r.2) := by
  obtain ⟨⟨_⟩ | ⟨b⟩, s⟩ := r
  · cases h
  · cases h; rfl

/-- The trap of an access that faults. -/
def errOf {α : Type} (r : Except TrapInfo α × State) : Option TrapInfo :=
  match r.1 with
  | .ok _ => none
  | .error t => some t

theorem err_pair {α : Type} {r : Except TrapInfo α × State} {t : TrapInfo} (h : errOf r = some t) : r = (.error t, r.2) := by
  obtain ⟨⟨_⟩ | ⟨b⟩, s⟩ := r
  · cases h; rfl
  · cases h

/-- The base state in a mode. -/
def inMode (p : Priv) : State := on (fun h => { h with mode := p })

/-- mstatus of the base state with bits set. -/
def withStatus (p : Priv) (bits : Word) : State := on (fun h => { h with mode := p, csr := { h.csr with mstatus := h.csr.mstatus ||| bits } })

/-- Hart 0 waits. -/
def inWait (w : Wait) (s : State) : State := s.onHart (fun h => { h with run := .waiting w })

/-- Debug may be invasive, and `ebreak` of U mode enters debug mode. -/
def debuggable : State := (base.modFirm (fun f => { f with dbg := 2 })).onHart (fun h => { h with dbg := { h.dbg with dcsr := 0x1000 } })

/-- Interrupt `i` pending and enabled. -/
def interrupted (i : Nat) : State := on (fun h => { h with csr := { h.csr with mie := wputb 0 i true, mip := wputb 0 i true } })

theorem witness_TrapsInterruptsAndReturns :
    (((inMode .u).hart.mode ≠ .m ∧ (inMode .u).hart.csr.medeleg.getLsbD 8 = true) ∧ 8 < 64) ∧
    (¬((inMode .m).hart.mode ≠ .m ∧ (inMode .m).hart.csr.medeleg.getLsbD 8 = true) ∧
      ¬((inMode .s).hart.mode ≠ .m ∧ (inMode .s).hart.csr.medeleg.getLsbD 9 = true)) ∧
    ((interrupted 1).nextInt = some 1 ∧ (interrupted 1).hart.run = .ready ∧ (interrupted 1).hart.csr.mideleg.getLsbD 1 = true) ∧
    ((interrupted 3).nextInt = some 3 ∧ (interrupted 3).hart.run = .ready ∧ (interrupted 3).hart.csr.mideleg.getLsbD 3 = false) ∧
    ((inWait .wfi (interrupted 1)).nextInt = some 1 ∧ (inWait (.zawrs true 5) (interrupted 3)).nextInt = some 3) ∧
    base.debugOpen = false ∧ (debuggable.debugOpen = true ∧ debuggable.hart.ebreakHalts = true) ∧
    base.nextInt = none ∧ (inMode .u).hart.mode = .u ∧ (inMode .s).hart.mode = .s ∧ (inMode .m).hart.mode = .m ∧
    ((withStatus .s 0).hart.mode = .s ∧ (withStatus .s 0).hart.csr.mstatus.getLsbD 22 = false) ∧
    ((withStatus .s 0x400000).hart.mode = .s ∧ (withStatus .s 0x400000).hart.csr.mstatus.getLsbD 22 = true) ∧
    (withStatus .m 0x1100).hart.csr.mstatus.getLsbD 8 = true ∧ (withStatus .m 0).hart.csr.mstatus.getLsbD 8 = false := by decide

theorem witness_CsrReadsAndWrites :
    (base.csrVal 0xC02 = some 0 ∧ base.hart.csrOk 0xC02 false = true ∧ csrWrites .rs 0 = false) ∧ base.csrVal 0x7FF = none ∧
    base.hart.csrOk 0x340 (csrWrites .rw 5) = false ∧ base.hart.csrOk 0xC02 (csrWrites .rw 5) = false ∧ csrWrites .rc 5 = true ∧
    (inMode .m).hart.mode = .m ∧ (inMode .s).hart.mode ≠ .u := by decide

/-- Loop levels 0 and 1 that end behind the instruction at pc. -/
def looped (a b : Word) : Hart := { base.hart with
  lpcnt0 := a, lpbeg0 := 0x20000000100, lpend0 := 0x20000000004, lpcnt1 := b, lpbeg1 := 0x20000000200, lpend1 := 0x20000000004 }

theorem witness_RetirementAndLoops :
    ((looped 1 2).mode = .u ∧ (looped 1 2).uiAct = false ∧
      ((looped 1 2).lpxe0 ≠ (looped 1 2).pc + BitVec.ofNat 64 (looped 1 2).ilen ∨ (looped 1 2).pc + BitVec.ofNat 64 (looped 1 2).ilen = 0) ∧
      ((looped 1 2).lpxe1 ≠ (looped 1 2).pc + BitVec.ofNat 64 (looped 1 2).ilen ∨ (looped 1 2).pc + BitVec.ofNat 64 (looped 1 2).ilen = 0)) ∧
    (((looped 1 2).lpcnt1 ≠ 0 ∧ (looped 1 2).lpend1 = (looped 1 2).pc + BitVec.ofNat 64 (looped 1 2).ilen) ∧ (looped 1 2).lpcnt1 ≠ 1) ∧
    ¬(((looped 2 1).lpcnt1 ≠ 0 ∧ (looped 2 1).lpend1 = (looped 2 1).pc + BitVec.ofNat 64 (looped 2 1).ilen) ∧ (looped 2 1).lpcnt1 ≠ 1) ∧
    ((inMode .s).hart.mode ≠ .u ∨ (inMode .s).hart.uiAct = true) ∧ (on2 base 5 0).hart.getX 5 ≠ 0 ∧ (on2 base 0 0).hart.getX 5 = 0 ∧
    (1 : BitVec 12) ≠ 0 ∧ ((on (fun h => { h with uiAct := true })).hart.mode ≠ .u ∨ (on (fun h => { h with uiAct := true })).hart.uiAct = true) := by
  decide

/-- Hart 0's place waits for a counter and nothing else; the focus is on hart 1. -/
def continued : State :=
  let h := { base.hart with run := .cont (.counter 0 0) }
  { base with hart := { Hart.fresh 1 with run := .ready, team := 1 }, parked := [(0, h)], sel := 0 }

theorem witness_ExitAndContinuation :
    base.hart.mode ≠ .m ∧
    contEvent (fun c => (base.codeDom c).map Dom.key) ((on2 base 0x3000000000000001 0).hart.getX 5) = some (.counter 1 0) ∧
    (contEvent (fun c => (base.codeDom c).map Dom.key) ((on2 base 0 0).hart.getX 5) = some (.barrier (.team 1)) ∧
      base.isMember (base.dom (.team 1)) = true ∧ (base.dom (.team 1)).c base.hart.gid ≠ 2) ∧
    (inMode .m).hart.mode = .m ∧ contEvent (fun c => (base.codeDom c).map Dom.key) ((on2 base 0x7000000000000000 0).hart.getX 5) = none ∧
    (let s := { on2 base 0x200 0 with doms := [⟨.pkg 0, 0, false, [1], []⟩] }
     contEvent (fun c => (s.codeDom c).map Dom.key) (s.hart.getX 5) = some (.barrier (.pkg 0)) ∧ s.isMember (s.dom (.pkg 0)) = false) ∧
    (let s := { on2 base 0x200 0 with doms := [⟨.pkg 0, 0, false, [0], [(0, 2)]⟩] }
     contEvent (fun c => (s.codeDom c).map Dom.key) (s.hart.getX 5) = some (.barrier (.pkg 0)) ∧ s.isMember (s.dom (.pkg 0)) = true ∧
       (s.dom (.pkg 0)).c s.hart.gid = 2 ∧ s.hart.run = .ready) ∧
    ((continued.hartOf continued.sel).run = .cont (.counter 0 0) ∧ continued.contDone (continued.hartOf continued.sel) (.counter 0 0) = true ∧
      (continued.team (continued.hartOf continued.sel).team).phase = .running ∧ continued.expired (continued.hartOf continued.sel).team = false) := by
  decide

/-- An allocation of one granule, x5 = 1, 0 or 21, and a full pool where asked. -/
def alloc (n : Nat) (x5 : Word) : State := (on2 base x5 0).onHart (fun h => { h with lalloc := n })

/-- Hart 1 waits at the head of core 0's list for one granule, and the focus is on hart 0. -/
def growing : State :=
  { (alloc 32 0).modCore 0 (fun k => { k with grow := [⟨1, 1⟩] }) with
    sel := 1, parked := [(1, { Hart.fresh 1 with run := .waiting (.rgrow 32), team := 1, lalloc := 32 })] }

/-- No allocation is left: thirteen harts of 640 registers each. -/
def full : State := { base with parked := (List.range 12).map (fun i => (i + 1, { Hart.fresh (i + 1) with run := .ready, team := 2, lalloc := 640 })) }
def starting : State := { base with sel := 1, parked := [(1, { Hart.fresh 1 with run := .starting, team := 1 })] }

theorem witness_SpawnAndRegisterPool :
    (base.hart.mode ≠ .m ∧ (base.teamPlaces base.hart.team).length < 32 ∧
      base.canAlloc base.coreNo ((base.launchOf base.hart.team).roleAlloc base.hart.role) = true ∧
      base.freePlace base.coreNo = some 8 ∧ base.hart.run.isHart = true) ∧
    ¬((full.teamPlaces full.hart.team).length < 32 ∧
      full.canAlloc full.coreNo ((full.launchOf full.hart.team).roleAlloc full.hart.role) = true) ∧
    ((starting.hartOf starting.sel).run = .starting) ∧
    ((alloc 32 0).hart.answer = none ∧ 32 * ((alloc 32 0).hart.getX 5).toNat = 0) ∧
    ((alloc 608 1).hart.answer = none ∧ 32 * ((alloc 608 1).hart.getX 5).toNat ≠ 0 ∧ (alloc 608 1).hart.run = .ready ∧
      (alloc 608 1).hart.lalloc + 32 * ((alloc 608 1).hart.getX 5).toNat ≤
        min (((alloc 608 1).launchOf (alloc 608 1).hart.team).roleBudget (alloc 608 1).hart.role) 640 ∧
      (alloc 608 1).growFirst ((alloc 608 1).prio (alloc 608 1).hart) = true ∧
      (alloc 608 1).canAlloc (alloc 608 1).coreNo (32 * ((alloc 608 1).hart.getX 5).toNat) = true) ∧
    (min (((alloc 640 1).launchOf (alloc 640 1).hart.team).roleBudget (alloc 640 1).hart.role) 640 <
      (alloc 640 1).hart.lalloc + 32 * ((alloc 640 1).hart.getX 5).toNat) ∧
    ((growing.core (gidCore growing.sel)).grow = ⟨1, 1⟩ :: [] ∧ (growing.hartOf growing.sel).run = .waiting (.rgrow 32) ∧
      growing.canAlloc (gidCore growing.sel) 32 = true) ∧
    ((alloc 608 1).growFirst 255 = true ∧
      ((alloc 608 1).modCore 0 (fun k => { k with grow := [⟨255, 1⟩] })).growFirst ((alloc 608 1).prio (alloc 608 1).hart) = false) ∧
    ((alloc 32 1).onHart (fun h => { h with answer := some 64 })).hart.answer = some 64 ∧
    (32 * ((alloc 64 2).hart.getX 5).toNat ≤ (alloc 64 2).hart.lalloc ∧ (alloc 64 2).hart.strm = []) ∧
    (alloc 32 2).hart.lalloc < 32 * ((alloc 32 2).hart.getX 5).toNat ∧
    (let h := { bound.hart with lalloc := 64 }
     ∃ e ∈ h.strm, e.2.bound = true ∧ h.lalloc - 64 ≤ e.2.reg) := by decide

/-- A hart whose user-interrupt queue holds an event. -/
def uiWaiting (e : UiEvent) : State := on (fun h => { h with uiIe := true, uivec := 0x1000, uiq := [e] })

theorem witness_UserInterrupts :
    ((on (fun h => { h with uiAct := true })).hart.mode = .u ∧ (on (fun h => { h with uiAct := true })).hart.uiAct = true) ∧
    (base.hart.mode ≠ .u ∨ base.hart.uiAct = false) ∧
    ((uiWaiting ⟨1, 5, 0, none, none⟩).uiOpen = true ∧ (uiWaiting ⟨1, 5, 0, none, none⟩).hart.run = .ready ∧
      (uiWaiting ⟨1, 5, 0, none, none⟩).hart.uiq = ⟨1, 5, 0, none, none⟩ :: [] ∧ (uiWaiting ⟨1, 5, 0, none, none⟩).hart.uiHeld = []) ∧
    (uiWaiting ⟨0, 5, 0x2000, some 0, none⟩).uiOpen = true ∧ base.uiOpen = false ∧ base.hart.mode ≠ .m ∧
    (let s := { on (fun h => { h with uiUntil := 7 }) with clock := 7 }
     (s.hartOf s.sel).uiUntil ≠ 0 ∧ (s.hartOf s.sel).uiUntil ≤ s.clock ∧ (s.hartOf s.sel).run ≠ .vacant) := by decide

theorem witness_FencesAndWaits :
    ((2 : BitVec 4).getLsbD 0 = false ∧ ((1 : BitVec 4).getLsbD 0 = true ∨ (1 : BitVec 4).getLsbD 2 = true)) ∧ (0 : BitVec 4) = 0 ∧
    ((withStatus .s 0).hart.mode = .s ∧ (withStatus .s 0).hart.csr.mstatus.getLsbD 20 = false) ∧
    ((withStatus .s 0x100000).hart.mode = .s ∧ (withStatus .s 0x100000).hart.csr.mstatus.getLsbD 20 = true) ∧
    ((2 : BitVec 4).getLsbD 1 = true ∧ (8 : BitVec 4).getLsbD 3 = true) ∧
    (on (fun h => { h with dbg := { h.dbg with step := true } })).hart.dbg.step = true ∧
    (base.hart.dbg.step = false ∧ base.hart.run = .ready) ∧
    ((interrupted 9).wakeUp = true ∧ base.wakeUp = false ∧ base.twDue .wfi = false) ∧
    (base.hart.resv = none ∨ base.wakeUp = true) ∧
    ((on (fun h => { h with resv := some 5 })).hart.resv = some 5 ∧ (on (fun h => { h with resv := some 5 })).wakeUp = false ∧
      (on (fun h => { h with resv := some 5 })).hart.run = .ready) ∧
    (let s := { on (fun h => { h with run := .waiting (.zawrs false 5) }) with clock := 16384 }
     let f := s.focus s.sel
     f.hart.run = .waiting (.zawrs false 5) ∧ f.hart.waitFrom + 16384 ≤ f.clock) ∧
    (let s := { (withStatus .u 0x200000).onHart (fun h => { h with run := .waiting .wfi }) with clock := 65536 }
     let f := s.focus s.sel
     f.hart.run = .waiting .wfi ∧ f.hart.mode ≠ .m ∧ f.hart.csr.mstatus.getLsbD 21 = true ∧ f.hart.waitFrom + 65536 ≤ f.clock) ∧
    (let s := { inWait .wfi base with clock := 65536 }
     let f := s.focus s.sel
     f.hart.run = .waiting .wfi ∧ f.hart.mode = .u ∧ f.hart.waitFrom + 65536 ≤ f.clock) ∧
    (let s := { (withStatus .u 0x200000).onHart (fun h => { h with run := .waiting (.zawrs true 5) }) with clock := 65536 }
     let f := s.focus s.sel
     f.hart.run = .waiting (.zawrs true 5) ∧ f.hart.mode ≠ .m ∧ f.hart.csr.mstatus.getLsbD 21 = true ∧ f.hart.waitFrom + 65536 ≤ f.clock) := by
  decide

/-- Semaphore 3 of core 0 as given; x5 = 3, x6 = 2. -/
def semState (e : Sem) : State := (on2 base 3 2).modCore 0 (fun k => k.setSem 3 e)
/-- Mutex 31 of core 0 as given; x5 = 31. -/
def mtxState (e : Mtx) : State := (on2 base 31 0).modCore 0 (fun k => k.setMtx 31 e)

theorem witness_SemaphoresAndMutexes :
    (inMode .m).hart.mode = .m ∧ (on2 base 256 2).semArgs 5 6 = none ∧ (on2 base 3 65536).semArgs 5 6 = none ∧ (on2 base 32 0).mtxArg 5 = none ∧
    ((semState ⟨2, []⟩).hart.mode ≠ .m ∧ (semState ⟨2, []⟩).semArgs 5 6 = some (3, 2) ∧ (((semState ⟨2, []⟩).core 0).sem 3).list = [] ∧
      2 ≤ (((semState ⟨2, []⟩).core 0).sem 3).cnt) ∧
    ((semState ⟨1, []⟩).semArgs 5 6 = some (3, 2) ∧ (((semState ⟨1, []⟩).core 0).sem 3).cnt < 2 ∧ (semState ⟨1, []⟩).hart.run = .ready) ∧
    ((semState ⟨9, [⟨0, 10, .hart 1⟩]⟩).semArgs 5 6 = some (3, 2) ∧ (((semState ⟨9, [⟨0, 10, .hart 1⟩]⟩).core 0).sem 3).list ≠ []) ∧
    ((mtxState ⟨none, []⟩).hart.mode ≠ .m ∧ (mtxState ⟨none, []⟩).mtxArg 5 = some 31 ∧ (((mtxState ⟨none, []⟩).core 0).mtx 31).owner = none) ∧
    (((mtxState ⟨some 0, []⟩).core 0).mtx 31).owner = some (mtxState ⟨some 0, []⟩).hart.gid ∧ (mtxState ⟨some 0, []⟩).mtxArg 5 = some 31 ∧
    ((((mtxState ⟨some 1, [⟨1, 2⟩]⟩).core 0).mtx 31).owner = some 1 ∧ 1 ≠ (mtxState ⟨some 1, [⟨1, 2⟩]⟩).hart.gid ∧
      (mtxState ⟨some 1, [⟨1, 2⟩]⟩).mtxArg 5 = some 31 ∧ (mtxState ⟨some 1, [⟨1, 2⟩]⟩).hart.run = .ready) := by decide

/-- Hart 1 of the context sends 7 to mailbox 31 of hart 0. -/
def mailed (listed : Bool) : State := { base with
  sel := 9, msgs := [⟨9, 1, 0, 31, 7, false, 0, listed, 0⟩]
  parked := [(1, { Hart.fresh 1 with run := .waiting (.msend 0 31), team := 1 })] }

theorem witness_Mailboxes :
    ((on2 base 0x8001 7).hart.mode ≠ .m ∧ (on2 base 0x8001 7).msendTarget ((on2 base 0x8001 7).hart.getX 5) = some (1, false) ∧
      (on2 base 0x8001 7).hart.run = .ready) ∧
    base.hart.mbpres.getLsbD (31 : BitVec 5).toNat = false ∧
    ((on (fun h => { h with mbpres := 0x80000000 })).hart.mbpres.getLsbD (31 : BitVec 5).toNat = true ∧
      (on (fun h => { h with mbpres := 0x80000000 })).msgs = []) ∧
    (on2 base 0xFFFFFFFF 7).msendTarget ((on2 base 0xFFFFFFFF 7).hart.getX 5) = none ∧
    (let s := mailed false
     (s.msgs.find? (fun x => x.uid == s.sel && !x.listed) = some ⟨9, 1, 0, 31, 7, false, 0, false, 0⟩ ∧ (s.core (gidCore 0)).state = 0) ∧
       ({ s with hart := { s.hart with run := .vacant } }.hartOf 0).run.isHart = false ∧
       ({ s with hart := { s.hart with csr := { s.hart.csr with satp := 0x0009000000000000 } } }.hartOf 0).asid ≠ (s.hartOf 1).asid) ∧
    (let s := mailed false
     s.msgs.find? (fun x => x.uid == s.sel && !x.listed) = some ⟨9, 1, 0, 31, 7, false, 0, false, 0⟩ ∧ (s.core (gidCore 0)).state = 0 ∧
      (s.hartOf 0).run.isHart = true ∧ (s.hartOf 0).asid = (s.hartOf 1).asid ∧ (s.hartOf 0).mbpres.getLsbD 31 = false) ∧
    (let s := { (mailed true).modCore 0 (fun k => { k with state := 1 }) with clock := 65536 }
     s.msgs.find? (fun x => x.uid == s.sel) = some ⟨9, 1, 0, 31, 7, false, 0, true, 0⟩ ∧ (s.core (gidCore 0)).state ≠ 0 ∧
      0 + 65536 ≤ s.clock) := by decide

/-- Package domain 0 with hart 0's place, its context's, and the member's count. -/
def barred (c : Nat) (places : List Nat) : State := { on2 base 0x200 0 with doms := [⟨.pkg 0, 0, false, places, if c = 0 then [] else [(0, c)]⟩] }

theorem witness_Barriers :
    ((barred 0 [1]).barDom 5 0 = some ⟨.pkg 0, 0, false, [1], []⟩ ∧ (barred 0 [1]).isMember ⟨.pkg 0, 0, false, [1], []⟩ = false) ∧
    ((barred 1 [0]).barDom 5 0 = some ⟨.pkg 0, 0, false, [0], [(0, 1)]⟩ ∧ (barred 1 [0]).isMember ⟨.pkg 0, 0, false, [0], [(0, 1)]⟩ = true ∧
      (Dom.c ⟨.pkg 0, 0, false, [0], [(0, 1)]⟩ 0) ≠ 2 ∧ (Dom.c ⟨.pkg 0, 0, false, [0], [(0, 1)]⟩ 0) ≠ 0 ∧ (barred 1 [0]).hart.run = .ready) ∧
    ((barred 0 [0]).barDom 5 0 = some ⟨.pkg 0, 0, false, [0], []⟩ ∧ (barred 0 [0]).isMember ⟨.pkg 0, 0, false, [0], []⟩ = true ∧
      (Dom.c ⟨.pkg 0, 0, false, [0], []⟩ 0) = 0 ∧ (barred 0 [0]).hart.run = .ready ∧ (barred 0 [0]).hart.resumes (.pkg 0) = false) ∧
    (let s := inWait (.barrier (.pkg 0) true) (barred 0 [0])
     s.barDom 5 0 = some ⟨.pkg 0, 0, false, [0], []⟩ ∧ s.isMember ⟨.pkg 0, 0, false, [0], []⟩ = true ∧
       s.hart.run = .waiting (.barrier (.pkg 0) true) ∧ s.hart.resumes (.pkg 0) = false) ∧
    (on2 base 0xFFF 0).barDom 5 0 = none ∧
    ((barred 2 [0]).isMember ⟨.pkg 0, 0, false, [0], [(0, 2)]⟩ = true ∧ (Dom.c ⟨.pkg 0, 0, false, [0], [(0, 2)]⟩ 0) = 2 ∧
      (barred 2 [0]).barDom 5 0 = some ⟨.pkg 0, 0, false, [0], [(0, 2)]⟩ ∧ (barred 2 [0]).hart.run = .ready) ∧
    ((barred 0 [1]).hart.obsWait = none ∧ (barred 0 [1]).hart.resumes (.pkg 0) = false ∧ (barred 0 [1]).hart.run = .ready) ∧
    (let s := (barred 0 [1]).onHart (fun h => { h with obsWait := some (.pkg 0, true) })
     s.hart.obsWait = some (DomKey.pkg 0, !false)) ∧
    ((barred 1 [0]).domGet (.pkg 0) = some ⟨.pkg 0, 0, false, [0], [(0, 1)]⟩ ∧
      (barred 1 [0]).phaseReady ⟨.pkg 0, 0, false, [0], [(0, 1)]⟩ = true) := by decide

/-- Bytes in memory, besides. -/
def withMem (s : State) (a : Nat) (l : List Byte) : State := { s with mem := memSetBytes s.mem a l }

/-- x5 an address, x6 = 7. -/
def at5 (a : Word) : State := on2 base a 7

/-- A trigger on every kind of access to an address in U mode. -/
def triggered (a : Word) : State := (at5 a).onHart (fun h => { h with csr := { h.csr with trig := [(0, ⟨0x600000000000000F#64, a, 0⟩)] } })

/-- A trigger that halts the hart, where debug may be invasive. -/
def watched (a : Word) : State := (debuggable.onHart (fun h => (h.setX 5 a).setX 6 7)).onHart
  (fun h => { h with csr := { h.csr with trig := [(0, ⟨0x680000000000100F#64, a, 0⟩)] } })

/-- The same with a second team of the context, on core 1. -/
def two (a : Word) : State := { at5 a with teams := base.teams ++ base.teams.map (fun t => { t with id := 2, core := 1 }) }

/-- FS off. -/
def fsOffAt (a : Word) : State := (at5 a).onHart (fun h => { h with csr := { h.csr with mstatus := 0x0000000A00000000#64 } })

/-- Port 0's window is online with 256 MiB. -/
def ported : State := { at5 0x100000000100 with ports := [(0, { Port.fresh with state := 1, link := true, online := true, units := 1 })] }

theorem fget_cores {P : Core → Prop} (hd : P Core.fresh) : ∀ (l : File Core), (∀ e ∈ l, P e.2) → ∀ c, P (fget Core.fresh l c)
  | [], _, _ => hd
  | (k, v) :: r, h, c => by
    unfold fget
    split
    · exact h (k, v) (by simp)
    · exact fget_cores hd r (fun e he => h e (List.mem_cons_of_mem _ he)) c

/-- No store waits at the loop-back port of any core. -/
theorem cores_quiet {s : State} (h : ∀ e ∈ s.cores, e.2.lb = [] ∧ e.2.lbOld = []) (c : Nat) : (s.core c).lb = [] ∧ (s.core c).lbOld = [] :=
  fget_cores (P := fun k => k.lb = [] ∧ k.lbOld = []) ⟨rfl, rfl⟩ s.cores h c

theorem base_cores : ∀ e ∈ base.cores, e.2.lb = [] ∧ e.2.lbOld = [] := by decide

theorem quiet_at5 (a : Word) : Claims.Quiet (at5 a) := ⟨rfl, rfl, rfl, rfl, rfl, rfl, rfl, cores_quiet base_cores⟩

theorem witness_HartLoads :
    (loadFp .fld = true ∧ (fsOffAt 0x20000001000).hart.fsOff = true) ∧
    (¬(loadFp .fld = true ∧ (triggered 0x20000001000).hart.fsOff = true) ∧
      (triggered 0x20000001000).trigHit .load ((triggered 0x20000001000).hart.getX 5 + (0 : BitVec 12).signExtend 64) = true) ∧
    ((at5 0x20000001000).trigHit .load ((at5 0x20000001000).hart.getX 5 + (0xFFF : BitVec 12).signExtend 64) = false ∧
      ((at5 0x20000001000).hart.getX 5 + (0xFFF : BitVec 12).signExtend 64).toNat % loadSize .lw ≠ 0) ∧
    ((at5 0x40000000000).hartPa .load 0x40000000000 = (.error ⟨5, 0, 0x40000000000⟩, at5 0x40000000000) ∧
      (0x40000000000#64).toNat % loadSize .ld = 0) ∧
    (ported.hartPa .load 0x100000000100 = (.ok 0x100000000100, ported) ∧ ported.isFar 0x100000000100 = true ∧ ported.hart.answer = none ∧
      ported.hart.run = .ready) ∧
    ((at5 0x20000001000).hartPa .load 0x20000001000 = (.ok 0x20000001000, at5 0x20000001000) ∧ Claims.Quiet (at5 0x20000001000) ∧
      (at5 0x20000001000).region (paLow 0x20000001000) = .hbm ∧ (0x20000001000#64).toNat % loadSize .ld = 0) ∧
    (let s := ported.onHart (fun h => { h with answer := some 0 })
     s.hartPa .load 0x100000000100 = (.ok 0x100000000100, s) ∧ s.isFar 0x100000000100 = true ∧ s.hart.answer ≠ none ∧ Claims.Quiet s) ∧
    ((watched 0x20000001000).trigHalts .load 0x20000001000 = true ∧ (triggered 0x20000001000).trigHalts .load 0x20000001000 = false) ∧
    ((two 0xE0000040000).hartPa .load 0xE0000040000 = (.ok 0xE0000040000, two 0xE0000040000) ∧
      (two 0xE0000040000).region (paLow 0xE0000040000) = .coreMem 1 0) ∧
    ((at5 0xF0000080000).hartPa .load 0xF0000080000 = (.ok 0xF0000080000, at5 0xF0000080000) ∧
      (at5 0xF0000080000).region (paLow 0xF0000080000) = .regs 0x80000 ∧ loadSize .ld = 8 ∧ loadSize .lw ≠ 8 ∧ regAt 0x80000 ≠ .none) ∧
    ((at5 0xF00000F0000).hartPa .load 0xF00000F0000 = (.ok 0xF00000F0000, at5 0xF00000F0000) ∧
      (at5 0xF00000F0000).region (paLow 0xF00000F0000) = .regs 0xF0000 ∧ regAt 0xF0000 = .none) := by
  refine ⟨by decide, by decide, by decide, ⟨by rfl, by decide⟩, ⟨by rfl, by decide⟩, ⟨by rfl, quiet_at5 _, by decide, by decide⟩,
    ⟨by rfl, by decide, by decide, ⟨rfl, rfl, rfl, rfl, rfl, rfl, rfl, cores_quiet base_cores⟩⟩, by decide, ⟨by rfl, by decide⟩,
    ⟨by rfl, by decide⟩, ⟨by rfl, by decide⟩⟩

theorem witness_HartStores :
    (storeFp .fsw = true ∧ (fsOffAt 0x20000001000).hart.fsOff = true) ∧
    (¬(storeFp .sd = true ∧ (triggered 0x20000001000).hart.fsOff = true) ∧
      (triggered 0x20000001000).trigHit .store ((triggered 0x20000001000).hart.getX 5 + (0 : BitVec 12).signExtend 64) = true) ∧
    ((at5 0x20000001001).trigHit .store ((at5 0x20000001001).hart.getX 5 + (0 : BitVec 12).signExtend 64) = false ∧
      ((at5 0x20000001001).hart.getX 5 + (0 : BitVec 12).signExtend 64).toNat % storeSize .sh ≠ 0) ∧
    ((at5 0x40000000000).hartPa .store 0x40000000000 = (.error ⟨7, 0, 0x40000000000⟩, at5 0x40000000000)) ∧
    ((at5 0x25FFFFFFFF8).hartPa .store 0x25FFFFFFFF8 = (.ok 0x25FFFFFFFF8, at5 0x25FFFFFFFF8) ∧ 0x25FFFFFFFF8 % storeSize .sd = 0 ∧
      Claims.Quiet (at5 0x25FFFFFFFF8) ∧ (at5 0x25FFFFFFFF8).region (paLow 0x25FFFFFFFF8) = .hbm ∧
      (at5 0x25FFFFFFFF8).trigHit .store 0x25FFFFFFFF8 = false ∧ (0x25FFFFFFFF8#64).toNat % storeSize .sd = 0) ∧
    (ported.hartPa .store 0x100000000100 = (.ok 0x100000000100, ported) ∧ ported.portOf 0x100000000100 = some 0 ∧ Claims.Quiet ported) ∧
    ((watched 0x20000001000).trigHalts .store 0x20000001000 = true ∧ (triggered 0x20000001000).trigHalts .store 0x20000001000 = false) ∧
    (∀ c : Fin 2, let a := if c = 0 then 0xE000003FFF8 else 0xE0000040000
     (two (BitVec.ofNat 64 a)).region (paLow a) = .coreMem c (if c = 0 then 0x3FFF8 else 0) ∧ a % storeSize .sd = 0 ∧ (two 0).coreNo = 0 ∧ Claims.Quiet (two 0)) ∧
    ((two 0xE0000040000).hartPa .store 0xE0000040000 = (.ok 0xE0000040000, two 0xE0000040000) ∧
      (at5 0xE000003FFF8).hartPa .store 0xE000003FFF8 = (.ok 0xE000003FFF8, at5 0xE000003FFF8)) ∧
    ((at5 0xF0000080000).hartPa .store 0xF0000080000 = (.ok 0xF0000080000, at5 0xF0000080000) ∧
      (at5 0xF0000080000).region (paLow 0xF0000080000) = .regs 0x80000 ∧ storeSize .sd = 8 ∧ storeSize .sb ≠ 8 ∧ regAt 0x80000 ≠ .none) ∧
    ((at5 0xF00000F0000).hartPa .store 0xF00000F0000 = (.ok 0xF00000F0000, at5 0xF00000F0000) ∧ regAt 0xF0000 = .none) := by
  refine ⟨by decide, by decide, by decide, by rfl, ⟨by rfl, by decide, quiet_at5 _, by decide, by decide, by decide⟩,
    ⟨by rfl, by decide, ⟨rfl, rfl, rfl, rfl, rfl, rfl, rfl, cores_quiet base_cores⟩⟩, by decide,
    fun c => ⟨by revert c; decide, by revert c; decide, by decide, ⟨rfl, rfl, rfl, rfl, rfl, rfl, rfl, cores_quiet base_cores⟩⟩, ⟨by rfl, by rfl⟩,
    ⟨by rfl, by decide⟩, ⟨by rfl, by decide⟩⟩

theorem witness_HartAtomics :
    let r := (at5 0x20000001000).onHart (fun h => { h with resv := some (tagLine 0x20000001000) })
    ((at5 0x20000001004).trigHit .load 0x20000001004 = false ∧ (at5 0x20000001004).trigHit .store 0x20000001004 = false ∧
      (0x20000001004#64).toNat % (if true then 8 else 4) ≠ 0) ∧
    ((at5 0x20000001000).hartPa .store 0x20000001000 = (.ok 0x20000001000, at5 0x20000001000) ∧
      (at5 0x20000001000).hartPa .load 0x20000001000 = (.ok 0x20000001000, at5 0x20000001000) ∧ Claims.Quiet (at5 0x20000001000) ∧
      (at5 0x20000001000).region (paLow 0x20000001000) = .hbm ∧ AmoOp.add ≠ .lr ∧ AmoOp.add ≠ .sc) ∧
    (r.hartPa .store 0x20000001000 = (.ok 0x20000001000, r) ∧ Claims.Quiet r ∧ r.hart.resv = some (tagLine 0x20000001000)) ∧
    (at5 0x20000001000).hart.resv ≠ some (tagLine 0x20000001000) ∧
    ((two 0xE0000040000).hartPa .store 0xE0000040000 = (.ok 0xE0000040000, two 0xE0000040000) ∧
      (two 0xE0000040000).region (paLow 0xE0000040000) = .coreMem 1 0 ∧ (two 0xE0000040000).region (paLow 0xE0000040000) ≠ .hbm) ∧
    (ported.hartPa .store 0x100000000100 = (.ok 0x100000000100, ported) ∧ ported.portOf 0x100000000100 = some 0 ∧
      ported.farOn 0x100000000100 = true ∧ ported.hart.answer = none ∧ ported.hart.run = .ready ∧ Claims.Quiet ported) ∧
    (let s := ported.onHart (fun h => { h with answer := some 0 })
     s.hartPa .store 0x100000000100 = (.ok 0x100000000100, s) ∧ s.isFar 0x100000000100 = true ∧ s.farOn 0x100000000100 = true ∧
       s.hart.answer ≠ none ∧ Claims.Quiet s) ∧
    ((at5 0xF0000080000).hartPa .store 0xF0000080000 = (.ok 0xF0000080000, at5 0xF0000080000) ∧
      (at5 0xF0000080000).region (paLow 0xF0000080000) = .regs 0x80000) := by
  refine ⟨by decide, ⟨by rfl, by rfl, quiet_at5 _, by decide, by decide, by decide⟩,
    ⟨by rfl, ⟨rfl, rfl, rfl, rfl, rfl, rfl, rfl, cores_quiet base_cores⟩, by decide⟩, by decide, ⟨by rfl, by decide, by decide⟩,
    ⟨by rfl, by decide, by decide, by decide, by decide, ⟨rfl, rfl, rfl, rfl, rfl, rfl, rfl, cores_quiet base_cores⟩⟩,
    ⟨by rfl, by decide, by decide, by decide, ⟨rfl, rfl, rfl, rfl, rfl, rfl, rfl, cores_quiet base_cores⟩⟩, ⟨by rfl, by decide⟩⟩

/-- Lanes 0 and 1 active; v4 = 0, `o`; v8 = 5, 6; v10 and v12 as v8; x5 an address of HBM. -/
def twoLanes (o : Lane) : State := (at5 0x20000001000).onHart (fun h =>
  lanesOf 4 [0, o] (lanesOf 8 [5, 6] (lanesOf 10 [0x1000, 0x1008] (lanesOf 11 [0x200, 0x200] (h.setM 0 3)))))

theorem quiet_twoLanes (o : Lane) : Claims.Quiet (twoLanes o) := ⟨rfl, rfl, rfl, rfl, rfl, rfl, rfl, cores_quiet base_cores⟩

/-- The two lanes' accesses. -/
def twoPas (a b : Nat) : List (Nat × Except TrapInfo Nat) := [(0, .ok a), (1, .ok b)]

theorem witness_LaneLoads :
    (LanesFree (twoLanes 4) (regsOf 4 1 ++ widthRegs .d 16) ∧ (twoLanes 4).hart.active p0 ≠ 0 ∧ Claims.Quiet (twoLanes 4) ∧
      (twoLanes 8).laneChecks .load 8 (fun i => (twoLanes 8).hart.ea 4 773 i) (maskLanes ((twoLanes 8).hart.active p0)) =
        (twoPas 0x20000001000 0x20000001008, twoLanes 8) ∧
      faultsOf ((twoLanes 8).laneLost .load 8 (fun i => (twoLanes 8).hart.ea 4 773 i) (twoPas 0x20000001000 0x20000001008)) = [] ∧
      ∀ e ∈ pasOf (twoPas 0x20000001000 0x20000001008), (twoLanes 8).region (paLow e.2) = .hbm ∧ e.2 % 8 = 0) ∧
    (LanesFree (twoLanes 4) (regsOf 10 2 ++ widthRegs .q 16) ∧
      (twoLanes 4).laneChecks .load 1 (fun i => (twoLanes 4).hart.src64 10 i) (maskLanes ((twoLanes 4).hart.active p0)) =
        (twoPas 0x20000001000 0x20000001008, twoLanes 4)) ∧
    ((twoLanes 4).laneChecks .load 4 (fun _ => (twoLanes 4).hart.base 773) [0] = ([(0, .ok 0x20000001000)], twoLanes 4) ∧
      faultsOf ((twoLanes 4).laneLost .load 4 (fun _ => (twoLanes 4).hart.base 773) [(0, .ok 0x20000001000)]) = []) ∧
    (on (fun h => h.setM 0 0)).hart.active p0 = 0 := by
  refine ⟨⟨by unfold LanesFree; decide, by decide, quiet_twoLanes _, by rfl, by decide, by decide⟩, ⟨by unfold LanesFree; decide, by rfl⟩,
    ⟨by rfl, by decide⟩, by decide⟩

theorem witness_LaneStores :
    (LanesFree (twoLanes 0) (regsOf 4 1 ++ widthRegs .w 8) ∧ (twoLanes 0).hart.pendingLanes ((twoLanes 0).hart.active p0) ≠ 0 ∧
      (twoLanes 0).hart.run = .ready ∧ Claims.Quiet (twoLanes 0) ∧
      (twoLanes 0).laneChecks .store 4 (fun i => (twoLanes 0).hart.ea 4 773 i)
          (maskLanes ((twoLanes 0).hart.pendingLanes ((twoLanes 0).hart.active p0))) =
        (twoPas 0x20000001000 0x20000001000, twoLanes 0) ∧
      faultsOf ((twoLanes 0).laneLost .store 4 (fun i => (twoLanes 0).hart.ea 4 773 i) (twoPas 0x20000001000 0x20000001000)) = [] ∧
      ∀ e ∈ pasOf (twoPas 0x20000001000 0x20000001000), (twoLanes 0).region (paLow e.2) = .hbm ∧ paKey e.2 = 0 ∧ e.2 % 4 = 0) ∧
    (LanesFree (twoLanes 0) (regsOf 10 2 ++ widthRegs .d 8) ∧
      (twoLanes 0).laneChecks .store 8 (fun i => (twoLanes 0).hart.src64 10 i)
          (maskLanes ((twoLanes 0).hart.pendingLanes ((twoLanes 0).hart.active p0))) =
        (twoPas 0x20000001000 0x20000001008, twoLanes 0)) := by
  refine ⟨⟨by unfold LanesFree; decide, by decide, by decide, quiet_twoLanes _, by rfl, by decide, by decide⟩,
    ⟨by unfold LanesFree; decide, by rfl⟩⟩

/-- Lane offsets in v4 within local memory. -/
def localLanes (a b : Lane) : State := on (fun h => lanesOf 4 [a, b] (lanesOf 8 [5, 6] (h.setM 0 3)))

theorem witness_LocalLaneMemory :
    (LanesFree (localLanes 0 262140) (regsOf 4 1 ++ widthRegs .w 8) ∧
      (∀ i, i < 32 → ((localLanes 0 262140).hart.active p0).getLsbD i = true →
        ((localLanes 0 262140).hart.ea 4 832 i).toNat % widthBytes .w = 0 ∧
          ((localLanes 0 262140).hart.ea 4 832 i).toNat < (localLanes 0 262140).share.shSize) ∧
      (∀ i, i < 32 → ((localLanes 0 262140).hart.pendingLanes ((localLanes 0 262140).hart.active p0)).getLsbD i = true →
        ((localLanes 0 262140).hart.ea 4 832 i).toNat < ((localLanes 0 262140).share.buf .act).2)) ∧
    (((localLanes 0 262144).hart.active p0).getLsbD 1 = true ∧
      (localLanes 262144 0).share.shSize ≤ ((localLanes 262144 0).hart.ea 4 832 0).toNat ∧
      ((localLanes 262144 0).hart.ea 4 832 0).toNat % widthBytes .w = 0 ∧ ((localLanes 262144 0).hart.active p0).getLsbD 0 = true ∧
      (∀ j, j < 0 → ((localLanes 262144 0).hart.active p0).getLsbD j = false) ∧ (localLanes 262144 0).hart.lfrec.getLsbD 0 = false) ∧
    (LanesFree (localLanes 0 16) (regsOf 4 1 ++ widthRegs (tileWidth true) 8) ∧
      (∀ i, i < 32 → ((localLanes 0 16).hart.active p0).getLsbD i = true →
        ((localLanes 0 16).hart.ea 4 832 i).toNat % widthBytes (tileWidth true) = 0 ∧
          ((localLanes 0 16).hart.ea 4 832 i).toNat < ((localLanes 0 16).share.buf .acc).2)) := by
  refine ⟨⟨by unfold LanesFree; decide, by decide, by decide⟩, by decide, ⟨by unfold LanesFree; decide, by decide⟩⟩

theorem witness_LaneAtomics :
    LanesFree (twoLanes 0) (regsOf 4 1 ++ atomRegs .f32 8 ++ (List.range (if ATy.is64 .f32 then 2 else 1)).map (fun j => (16 : LOp).toNat + j)) ∧
    LanesFree (twoLanes 0) (regsOf 4 1 ++ atomRegs .n64 8) ∧ LanesFree (twoLanes 0) (regsOf 4 1 ++ atomRegs (ordAty .h2) 8) ∧
    ((twoLanes 0).hart.pendingLanes ((twoLanes 0).hart.active p0) ≠ 0 ∧ Claims.Quiet (twoLanes 0) ∧
      (twoLanes 0).atomChecks 4 (fun i => (twoLanes 0).hart.getX 5 + ((twoLanes 0).hart.src32 4 i).signExtend 64)
          (maskLanes ((twoLanes 0).hart.pendingLanes ((twoLanes 0).hart.active p0))) =
        (twoPas 0x20000001000 0x20000001000, twoLanes 0) ∧
      faultsOf (twoPas 0x20000001000 0x20000001000) = [] ∧
      (∀ e ∈ pasOf (twoPas 0x20000001000 0x20000001000), (twoLanes 0).region (paLow e.2) = .hbm ∧ paKey e.2 = 0 ∧ e.2 % 4 = 0) ∧
      ((groupLanes (fun i => (twoLanes 0).hart.getX 5 + ((twoLanes 0).hart.src32 4 i).signExtend 64)
        (pasOf (twoPas 0x20000001000 0x20000001000))).map (fun g => g.2.1)).Nodup) ∧
    ((twoLanes 8).atomChecks 8 (fun i => (twoLanes 8).hart.getX 5 + ((twoLanes 8).hart.src32 4 i).signExtend 64)
          (maskLanes ((twoLanes 8).hart.pendingLanes ((twoLanes 8).hart.active p0))) =
        (twoPas 0x20000001000 0x20000001008, twoLanes 8) ∧
      ((groupLanes (fun i => (twoLanes 8).hart.getX 5 + ((twoLanes 8).hart.src32 4 i).signExtend 64)
        (pasOf (twoPas 0x20000001000 0x20000001008))).map (fun g => g.2.1)).Nodup) := by
  refine ⟨by unfold LanesFree; decide, by unfold LanesFree; decide, by unfold LanesFree; decide,
    ⟨by decide, quiet_twoLanes _, by rfl, by decide, by decide, by decide⟩, ⟨by rfl, by decide⟩⟩

/-- A partial: add 3 to the word at an address whose line is selected. -/
def pended : State := { withMem base 0x20000001000 [4] with parts := [⟨0x20000001000, 0, .n32, 3⟩], sel := 0x20000001000 / 128 }

theorem witness_PrefetchAndWriteQueues :
    (LanesFree (twoLanes 0) (regsOf 4 1) ∧ Claims.Quiet (twoLanes 0)) ∧
    (pended.parts = [⟨0x20000001000, 0, .n32, 3⟩] ∧ (Partial.mk 0x20000001000 0 .n32 3).meets (128 * pended.sel) 128 = true ∧
      pended.region (paLow 0x20000001000) = .hbm ∧ 0x20000001000 % atyBytes .n32 = 0 ∧
      atomStep 0 .n32 (leNat (pended.peek 0x20000001000 (atyBytes .n32))) (3#64).toNat 0 < 2 ^ (8 * atyBytes .n32)) ∧
    (base.hartOf base.sel).run ≠ .vacant := by
  refine ⟨⟨by unfold LanesFree; decide, quiet_twoLanes _⟩, by decide, by decide⟩

/-- A queue of elements of 8 bytes for the base context, with a ring at 0x20000003000. -/
def qcb (lcap head tail rsv free : Nat) : Qcb := ⟨lcap, 1, 3, false, false, false, false, 0, 0x20000003000, head, tail, rsv, 0, 0, 0, 0, free, 0⟩

/-- Cells at an address. -/
def cells (a : Nat) (l : List (Nat × Nat)) : List Host.Cell := l.map (fun e => (a + e.1, BitVec.ofNat 8 e.2))

/-- A block at 0x20000002000, which x5 names, by its bytes that are not 0; x6 = 0x20000004000; lanes 0 and 1 active. -/
def queued (l : List (Nat × Nat)) : State :=
  { (on2 base 0x20000002000 0x20000004000).onHart (fun h => lanesOf 8 [5, 6] (h.setM 0 3)) with mem := base.mem ++ cells 0x20000002000 l }

/-- Blocks with their check codes (R277): with room and items, full, with a full window, empty, with reservations, of another context. -/
def qRoom : State := queued [(0, 240), (1, 108), (2, 3), (3, 1), (4, 3), (9, 48), (13, 2), (24, 2), (32, 2), (68, 6)]
def qFull : State := queued [(0, 108), (1, 136), (3, 1), (4, 3), (9, 48), (13, 2), (24, 1), (32, 1)]
def qWindow : State := queued [(0, 112), (1, 154), (2, 7), (3, 1), (4, 3), (9, 48), (13, 2), (32, 64), (68, 64)]
def qEmpty : State := queued [(0, 63), (1, 1), (2, 3), (3, 1), (4, 3), (9, 48), (13, 2), (16, 5), (24, 5), (32, 5), (68, 8)]
def qHeld : State := queued [(0, 184), (1, 228), (2, 3), (3, 1), (4, 3), (9, 48), (13, 2), (24, 2), (32, 8)]
def qAlien : State := queued [(0, 122), (1, 180), (2, 3), (3, 1), (4, 3), (6, 7), (9, 48), (13, 2), (24, 2), (32, 2), (68, 6)]

/-- The state in which the controller has read the block. -/
def qAsked (s : State) : State := ((s.qSettle 0x20000002000).qcbBytes 0x20000002000).2

/-- The bytes of the block as the controller reads them. -/
def qRaw (s : State) : List Byte := ((s.qSettle 0x20000002000).qcbBytes 0x20000002000).1

theorem qRaw_qAsked (s : State) : (s.qSettle 0x20000002000).qcbBytes 0x20000002000 = (qRaw s, qAsked s) := by
  unfold qRaw qAsked; exact (Prod.mk.eta).symm

/-- The block is open to an operation. -/
def opens (s : State) (produce : Bool) (q : Qcb) : Prop :=
  q = qcbParse (dwords 16 (qRaw s)) ∧ qcbCorrupt (qRaw s) = false ∧ q.qr = false ∧ q.asid = (qAsked s).hart.asid ∧
    (q.md = true ∨ (qAsked s).dieNo = sliceDie (homeSlice (paLow 0x20000002000))) ∧ (q.nf = false ∨ produce = false)

theorem opens_iff {s : State} {produce : Bool} {q : Qcb} (h : opens s produce q) :
    Claims.QueueOpen s (qAsked s) 0x20000002000 produce q :=
  ⟨qRaw s, qRaw_qAsked s, h⟩

theorem open_room : Claims.QueueOpen qRoom (qAsked qRoom) 0x20000002000 true (qcb 3 0 2 2 6) :=
  opens_iff (by unfold opens; decide +kernel)
theorem open_items : Claims.QueueOpen qRoom (qAsked qRoom) 0x20000002000 false (qcb 3 0 2 2 6) :=
  opens_iff (by unfold opens; decide +kernel)
theorem open_full : Claims.QueueOpen qFull (qAsked qFull) 0x20000002000 true (qcb 0 0 1 1 0) :=
  opens_iff (by unfold opens; decide +kernel)
theorem open_window : Claims.QueueOpen qWindow (qAsked qWindow) 0x20000002000 true (qcb 7 0 0 64 64) :=
  opens_iff (by unfold opens; decide +kernel)
theorem open_empty : Claims.QueueOpen qEmpty (qAsked qEmpty) 0x20000002000 false (qcb 3 5 5 5 8) :=
  opens_iff (by unfold opens; decide +kernel)

/-- A state whose queue is a given block. -/
def qOf (q : Qcb) : State := { on2 base 0x20000002000 0x20000004000 with mem := memSetBytes base.mem 0x20000002000 q.bytes }

/-- Blocks that R280 refuses or spoils: fed by a notify page, out of reach of the die, quarantined, of 12-byte elements. -/
def qNf : State := qOf { qcb 3 0 2 2 6 with nf := true }
def qQr : State := qOf { qcb 3 0 2 2 6 with qr := true }
def qWide : State := qOf { qcb 3 0 2 2 6 with esz := 2 }

/-- The controller's view of a block. -/
def seen (s : State) : Qcb := qcbParse (dwords 16 (qRaw s))

theorem witness_QueueRefusals :
    (((seen qNf).asid = (qAsked qNf).hart.asid ∧ (seen qNf).nf = true ∧ qcbCorrupt (qRaw qNf) = false) ∧
      qNf.qAddr (qNf.hart.getX 5) = (.ok 0x20000002000, qNf)) ∧
    ((seen qQr).qr = true ∧ (seen qQr).nf = false ∧ (seen qQr).asid = (qAsked qQr).hart.asid ∧
      (qAsked qQr).dieNo = sliceDie (homeSlice (paLow 0x20000002000))) ∧
    (qcbCorrupt (qRaw (withMem qWide 0x20000002002 [9])) = true) ∧
    ((seen qWide).esz = 2 ∧ (seen qWide).qr = false ∧ qcbCorrupt (qRaw qWide) = false) ∧
    (let v := ((withMem base 0x20000010000 (qcb 3 0 2 2 6).bytes).qSettle 0x20000010000).qcbBytes 0x20000010000
     (qcbParse (dwords 16 v.1)).md = false ∧ v.2.dieNo ≠ sliceDie (homeSlice (paLow 0x20000010000))) ∧
    ((at5 0x20000002040).hart.getX 5).toNat % 128 ≠ 0 ∧
    ((at5 0x40000000000).qAddr ((at5 0x40000000000).hart.getX 5) = (.error ⟨7, 0, 0x40000000000⟩, at5 0x40000000000)) ∧
    Claims.asking (inWait (.queueRetry 0x20000002000 true true) base).hart ∧ Claims.asking base.hart := by
  refine ⟨⟨by decide +kernel, by rfl⟩, by decide +kernel, by decide +kernel, by decide +kernel, by decide +kernel, by decide +kernel, by rfl,
    Or.inr ⟨_, _, rfl⟩, Or.inl rfl⟩

theorem witness_QueueOrderAndRegisterForms :
    ((qcb 3 5 5 5 8).head = (qcb 3 5 5 5 8).tail ∧ (qcb 3 5 5 5 8).rsv = (qcb 3 5 5 5 8).tail ∧ (qcb 3 5 5 5 8).cmt = 0 ∧
      (qcb 3 5 5 5 8).abn = 0 ∧ (qcb 3 5 5 5 8).skip = 0 ∧ 8 ≤ (qcb 3 5 5 5 8).free) ∧
    (qRoom.hart.mode ≠ .m ∧ qRoom.hart.answer = none ∧ qRoom.hart.run = .ready ∧
      qRoom.qAddr (qRoom.hart.getX 5) = (.ok 0x20000002000, qRoom) ∧
      (qcb 3 0 2 2 6).esz ≤ 1 ∧ 1 ≤ (qcb 3 0 2 2 6).window ∧ 1 ≤ (qcb 3 0 2 2 6).free ∧ 1 ≤ (qcb 3 0 2 2 6).avail ∧
      Claims.noneAhead (qAsked qRoom) 0x20000002000 true ∧
      Claims.noneAhead (qAsked qRoom) 0x20000002000 false) ∧
    (qFull.qAddr (qFull.hart.getX 5) = (.ok 0x20000002000, qFull) ∧
      (qcb 0 0 1 1 0).free = 0 ∧ ((qAsked qFull).qwaits.filter (fun e => e.slice == homeSlice (paLow 0x20000002000))).length < 512 ∧
      (qAsked qFull).hart.run = .ready) ∧
    (let w : QWait := ⟨homeSlice (paLow 0x20000002000), 0x20000002080, 1, 0, 0, false, [], 1, []⟩
     ¬(((List.replicate 512 w).filter (fun e => e.slice == homeSlice (paLow 0x20000002000))).length < 512)) ∧
    (qWindow.qAddr (qWindow.hart.getX 5) = (.ok 0x20000002000, qWindow) ∧
      (qcb 7 0 0 64 64).window = 0) ∧
    (qEmpty.qAddr (qEmpty.hart.getX 5) = (.ok 0x20000002000, qEmpty) ∧
      (qcb 3 5 5 5 8).avail = 0) ∧
    (let s := qAlien
     s.qAddr (s.hart.getX 5) = (.ok 0x20000002000, s) ∧
       (qcbParse (dwords 16 ((s.qSettle 0x20000002000).qcbBytes 0x20000002000).1)).asid ≠ (qAsked s).hart.asid) := by
  refine ⟨by decide +kernel, ⟨by decide +kernel, by decide +kernel, by decide +kernel, by rfl, by decide +kernel, by decide +kernel, by decide +kernel, by decide +kernel, by unfold Claims.noneAhead; decide +kernel,
    by unfold Claims.noneAhead; decide +kernel⟩, ⟨by rfl, by decide +kernel, by decide +kernel, by decide +kernel⟩, by decide +kernel, ⟨by rfl, by decide +kernel⟩, ⟨by rfl, by decide +kernel⟩, ⟨by rfl, by decide +kernel⟩⟩

/-- A ticket of sequence 7 of the block; x6 = 7. -/
def ticketed : State := { qHeld.onHart (fun h => h.setX 6 7) with tickets := [⟨16, 0x20000002000, 7, 1, 0⟩] }

theorem witness_QueueTicketsMemoryAndLanes :
    (qRoom.hart.mode ≠ .m ∧
      ((qAsked qRoom).tickets.filter (fun t => t.slice == homeSlice (paLow 0x20000002000))).length < 256) ∧
    (Claims.QueueOpen ticketed (qAsked ticketed) 0x20000002000 true (qcb 3 0 2 8 0) ∧
      (∃ e ∈ (qAsked ticketed).tickets, e.qcb = 0x20000002000 ∧ e.seq = ((qAsked ticketed).hart.getX 6).toNat)) ∧
    (∀ e ∈ (qAsked qRoom).tickets, ¬(e.qcb = 0x20000002000 ∧ e.seq = ((qAsked qRoom).hart.getX 6).toNat)) ∧
    ((qcb 3 0 2 2 6).tail - (qcb 3 0 2 2 6).head < 2 ^ 25 ∧ (qcb 3 0 2 2 6).free < 2 ^ 25 ∧ (qcb 3 0 2 2 6).rsv - (qcb 3 0 2 2 6).tail < 2 ^ 12) ∧
    (let s := qRoom
     (s.getX 6).toNat % 4 = 0 ∧
       s.loadUnits4 (s.getX 6) (s.qWords 0x20000002000) = (.ok [0, 0, 0, 0, 0, 0, 0, 0], (s.loadUnits4 (s.getX 6) (s.qWords 0x20000002000)).2) ∧
       s.storeUnits4 (s.getX 6) (s.qWords 0x20000002000) = (.ok [0x20000004000, 0x20000004004], s) ∧
       LanesFree s (queueRegs 8 true) ∧ s.hart.active p0 ≠ 0 ∧ (qcb 3 0 2 2 6).esz = (if true then 1 else 0) ∧
       (maskLanes (s.hart.active p0)).length ≤ (qcb 3 0 2 2 6).window ∧ (maskLanes (s.hart.active p0)).length ≤ (qcb 3 0 2 2 6).free ∧
       (maskLanes (s.hart.active p0)).length ≤ (qcb 3 0 2 2 6).avail ∧ (qAsked s).hart.strm = s.hart.strm) ∧
    (let s := qRoom.loadUnits4 0x20000004000 2 |>.2
     Claims.QueueOpen s (qAsked s) 0x20000002000 true (qcb 3 0 2 2 6) ∧ Claims.noneAhead (qAsked s) 0x20000002000 true) ∧
    (qRoom.onHart (fun h => h.setM 0 0)).hart.active p0 = 0 := by
  refine ⟨by decide +kernel, ⟨opens_iff (by unfold opens; decide +kernel), by decide +kernel⟩, by decide +kernel, by decide +kernel,
    ⟨by decide +kernel, ok_pair (by decide +kernel), by rfl, by unfold LanesFree; decide +kernel, by decide +kernel, by decide +kernel, by decide +kernel, by decide +kernel, by decide +kernel, by decide +kernel⟩,
    ⟨opens_iff (by unfold opens; decide +kernel), by unfold Claims.noneAhead; decide +kernel⟩, by decide +kernel⟩

/-- A parameter block at 0x20000004000: a ring of 2^l elements of `size` bytes at 0x20000003000, scope 3. -/
def initing (l size : Nat) : State := { qRoom with mem := qRoom.mem ++ cells 0x20000004000 [(1, 48), (5, 2), (8, l), (9, size), (10, 3)] }

/-- Hart 1 waits to dequeue one element, which is there. -/
def waiter : QWait := ⟨16, 0x20000002000, 1, 0, 0, false, [], 1, []⟩
def waiting : State := { qRoom with
  sel := 0x20000002000, qwaits := [waiter], parked := [(1, { Hart.fresh 1 with run := .waiting (.queueDeq 0x20000002000), team := 1 })] }

theorem witness_QueueManagement :
    (let s := qRoom.onHart (fun h => h.setX 6 0x20000004010)
     s.hart.mode ≠ .m ∧ s.qAddr (s.hart.getX 5) = (.ok 0x20000002000, s) ∧ (s.getX 6).toNat % 32 ≠ 0) ∧
    (let s := initing 25 8
     let u := (s.loadBlock 0x20000004000 4).2
     s.qAddr (s.hart.getX 5) = (.ok 0x20000002000, s) ∧ (s.getX 6).toNat % 32 = 0 ∧
       s.loadBlock (s.getX 6) 4 = (.ok [0x20000003000, 25 + 256 * 8 + 65536 * 3, 0, 0], u) ∧
       qparamOk [0x20000003000, 25 + 256 * 8 + 65536 * 3, 0, 0] = false) ∧
    (let s := initing 4 0
     let u := (s.loadBlock 0x20000004000 4).2
     s.loadBlock (s.getX 6) 4 = (.ok [0x20000003000, 4 + 65536 * 3, 0, 0], u) ∧ qparamOk [0x20000003000, 4 + 65536 * 3, 0, 0] = true ∧
       u.dataPa u.hart.mode .store 0x20000003000 = (.ok 0x20000003000, u) ∧ u.region (paLow 0x20000003000) = .hbm ∧
       u.region (paLow (0x20000003000 + 2 ^ 4 * 256 - 1)) = .hbm ∧ (0x20000003000#64).toNat % 2 ^ u.leafOf 0x20000003000 + 2 ^ 4 * 256 ≤ 2 ^ u.leafOf 0x20000003000) ∧
    (base.hart.mode ≠ .s ∨ 2 ^ 16 ≤ (base.hart.getX 5).toNat) ∧
    ((inMode .s).hart.mode = .s ∧ ((inMode .s).hart.getX 5).toNat < 2 ^ 16) ∧
    ((waiting.ready waiting.sel 128).qServable waiting.sel = some (waiter, qcb 3 0 2 2 6)) ∧
    (({ qEmpty with sel := 0x20000002000 }.ready 0x20000002000 128).qServable 0x20000002000 = none) ∧
    (let s := on (fun h => { h with run := .waiting (.queueRetry 0x20000002000 true false) })
     (s.hartOf s.sel).run = .waiting (.queueRetry 0x20000002000 true false)) := by
  refine ⟨⟨by decide +kernel, by rfl, by decide +kernel⟩, ⟨by rfl, by decide +kernel, ok_pair (by decide +kernel), by decide +kernel⟩,
    ⟨ok_pair (by decide +kernel), by decide +kernel, by rfl, by decide +kernel, by decide +kernel, by decide +kernel⟩, by decide +kernel, by decide +kernel, by decide +kernel, by decide +kernel, by decide +kernel⟩

/-- Doublewords as cells at an address of memory that lists nothing from there on. -/
def block (a : Nat) (l : List Word) : List Host.Cell :=
  ((List.range (8 * l.length)).zip (dwordBytes l)).filterMap (fun e => if e.2 = 0 then none else some (a + e.1, e.2))

/-- Doublewords at 0x20000004000, which x5 names, with x6 = `b`. -/
def blocked (b : Word) (l : List Word) : State :=
  { on2 base 0x20000004000 b with mem := base.mem ++ block 0x20000004000 l }

/-- A copy block: 128 bytes from 0x20000005000 to shared memory, and with the completion `mode` and its operands. -/
def cpyWords (mode : Nat) (d2 d3 : Word) : List Word :=
  [0x20000005000, 0, d2, d3, BitVec.ofNat 64 (8 + mode * 2 ^ 21 + 2 ^ 23 + 128 * 2 ^ 32), 0, 0, 0]

/-- A transfer of that block that hart 0 has issued, its number 7. -/
def xfer (mode : Nat) (d2 d3 : Word) : Xfer :=
  ⟨7, 1, 0, 1, 0, cpyWords mode d2 d3, 0x20000004000, [], [], [(0x20000005, 0x20000005000)], 0, [], [], false, false, false, 0, none⟩

def copying (b : List Word) : State × State :=
  let s := blocked 0 b
  let u := (s.loadBlock 0x20000004000 8).2
  (s, u)

theorem witness_CopyRequests :
    (base.hart.mode ≠ .m ∧ (at5 0x20000004008).hart.getX 5 = 0x20000004008#64 ∧ (0x20000004008#64).toNat % 64 ≠ 0) ∧
    (let s := blocked 0 (cpyWords 0 8 0)
     s.loadBlock (s.hart.getX 5) 8 = (.ok (cpyWords 0 8 0), (s.loadBlock (s.hart.getX 5) 8).2) ∧ cpyBlockOk (cpyWords 0 8 0) = false) ∧
    (let s := blocked 0 (cpyWords 0 0 0)
     let u := (s.loadBlock (s.hart.getX 5) 8).2
     let x : Xfer := ⟨0, 0, u.hart.gid, u.hart.team, u.clusterNo, cpyWords 0 0 0, s.hart.getX 5, [], [], [], 0, [], [], false, false, false, 0, none⟩
     s.loadBlock (s.hart.getX 5) 8 = (.ok (cpyWords 0 0 0), u) ∧ cpyBlockOk (cpyWords 0 0 0) = true ∧
       u.loadRecords (cpyWords 0 0 0) = (.ok ([], []), u) ∧ x.recsOk = true ∧ x.inShare u.share = true ∧
       (touched x.srcRuns).length ≤ 256 ∧ (touched (x.dstRuns ++ x.extRuns)).length ≤ 256 ∧
       u.holdXfer x = (.ok [(0x20000005, 0x20000005000)], (u.holdXfer x).2) ∧ (u.holdXfer x).2.hart.run = .ready ∧
       s.cpyPorts (s.hart.getX 5) = [] ∧ cpyMode (cpyWords 0 0 0) ≠ 3 ∧ (u.holdXfer x).2.held (u.holdXfer x).2.clusterNo < 64) ∧
    (let s := { blocked 0 (cpyWords 0 0 0) with xfers := List.replicate 64 (xfer 0 0 0) }
     let u := (s.loadBlock (s.hart.getX 5) 8).2
     s.loadBlock (s.hart.getX 5) 8 = (.ok (cpyWords 0 0 0), u) ∧ 64 ≤ u.held u.clusterNo) ∧
    (let s := { blocked 0 (cpyWords 3 0x1000 5) with parked := full.parked }
     let u := (s.loadBlock (s.hart.getX 5) 8).2
     s.loadBlock (s.hart.getX 5) 8 = (.ok (cpyWords 3 0x1000 5), u) ∧ cpyBlockOk (cpyWords 3 0x1000 5) = true ∧
       cpyMode (cpyWords 3 0x1000 5) = 3 ∧ (u.takeUid.1).reservePlace u.nextUid = none) ∧
    (let s := at5 0x40000000000
     (s.hart.getX 5).toNat % 64 = 0 ∧ s.loadBlock (s.hart.getX 5) 8 = (.error ⟨5, 0, 0x40000000000⟩, (s.loadBlock (s.hart.getX 5) 8).2)) ∧
    (let u := blocked 0 (cpyWords 3 0x1000 5)
     ((u.takeUid.1).reservePlace u.nextUid).map Prod.fst = some 8) ∧
    (let x : Xfer := ⟨0, 0, 0, 1, 0, (cpyWords 0 0 0).set 0 0x40000000000, 0, [], [], [], 0, [], [], false, false, false, 0, none⟩
     base.holdXfer x = (.error ⟨5, 0, 0x40000000000⟩, (base.holdXfer x).2)) ∧
    (let x : Xfer := ⟨0, 0, 0, 1, 0, (cpyWords 0 0 0).set 1 262144, 0, [], [], [], 0, [], [], false, false, false, 0, none⟩
     x.inShare base.share = false) ∧
    (let s := inWait (.cpy (xfer 0 0 0)) base
     s.hart.mode ≠ .m ∧ s.hart.run = .waiting (.cpy (xfer 0 0 0)) ∧ s.held s.clusterNo < 64) := by
  refine ⟨by decide, ⟨ok_pair (by decide +kernel), by decide⟩,
    ⟨ok_pair (by decide +kernel), by decide, by rfl, by decide, by decide +kernel, by decide, by decide, ok_pair (by decide +kernel),
      by decide +kernel, by decide +kernel, by decide, by decide +kernel⟩,
    ⟨ok_pair (by decide +kernel), by decide +kernel⟩, ⟨ok_pair (by decide +kernel), by decide, by decide, by decide +kernel⟩,
    ⟨by decide, err_pair (by decide +kernel)⟩, by decide +kernel, err_pair (by decide +kernel), by decide, by decide⟩

/-- The transfer, in part moved or whole, with its place. -/
def moving (x : Xfer) : State :=
  { base with
    sel := 0, xfers := [x]
    parked := [(1, { Hart.fresh 1 with run := .reserved 7, team := 1 })] }
def whole (mode : Nat) (d2 d3 : Word) : State := { moving { xfer mode d2 d3 with done := true, place := some 1 } with sel := 7 }

/-- A transfer from shared memory to the activation buffer, in part moved. -/
def local_ : Xfer := { xfer 0 0 0 with blk := [0x100, 0x200, 0, 0, BitVec.ofNat 64 (9 + 2 ^ 23 + 128 * 2 ^ 32), 0, 0, 0] }

theorem witness_CopyProgress :
    (let s := moving local_
     s.engineXfer s.sel = some local_ ∧ (∀ y ∈ s.xfers, y.uid = local_.uid → y = local_) ∧ cpyShaped local_.blk = false ∧
       cpyXf local_.blk = 0 ∧ cpySsp local_.blk = 1 ∧ cpyDsp local_.blk = 1 ∧ local_.got = [] ∧ local_.owed = [] ∧ (s.team local_.team).phase ≠ .ended) ∧
    (let y : Xfer := { local_ with moved := 128, owed := [(0x208, [1, 2, 3, 4, 5, 6, 7, 8])] }
     (moving y).engineXfer (moving y).sel = some y ∧ y.owed = [(0x208, [1, 2, 3, 4, 5, 6, 7, 8])]) ∧
    base.xfers.filter (fun y => y.cluster == base.sel && !y.done) = [] ∧
    (let s := moving (xfer 0 0 0)
     s.engineXfer s.sel = some (xfer 0 0 0) ∧ ∀ y ∈ s.xfers, y.uid = 7 → y = xfer 0 0 0) ∧
    (base.xfers.find? (fun y => y.uid == base.sel && y.done) = none) ∧
    (∀ m : Fin 4, ∃ x ∈ (whole m 8 9).xfers, (whole m 8 9).xfers.find? (fun y => y.uid == (whole m 8 9).sel && y.done) = some x ∧
      ((whole m 8 9).hartOf x.gid).run.isHart = true ∧ cpyMode x.blk = m ∧ ((whole m 8 9).hartOf x.gid).uiq.length < 16 ∧
      ((whole m 8 9).hartOf x.gid).uiHeld = [] ∧ x.place = some 1 ∧ 1 ≠ x.gid ∧ ((whole m 8 9).hartOf 1).run = .reserved x.uid ∧
      (whole m 8 9).expired ((whole m 8 9).hartOf 1).team = false) := by
  decide

/-- A hart with a count of class 0. -/
def counting (n : Nat) (r : Run) : State := { on (fun h => { h with cnt0 := n, run := r, waitFrom := 4 }) with clock := 260 }

theorem witness_CounterWaits :
    (inMode .m).hart.mode = .m ∧ (base.hart.mode ≠ .m ∧ base.hart.cnt (3 : BitVec 2).toNat ≤ (0 : BitVec 12).toNat) ∧
    ((counting 1 .ready).hart.mode ≠ .m ∧ (0 : BitVec 12).toNat < (counting 1 .ready).hart.cnt (0 : BitVec 2).toNat ∧
      (counting 1 .ready).hart.run = .ready) ∧
    (let s := counting 5 (.waiting (.counter 0))
     s.hart.mode ≠ .m ∧ (4 : BitVec 12).toNat < s.hart.cnt (0 : BitVec 2).toNat ∧ s.hart.run = .waiting (.counter (0 : BitVec 2).toNat) ∧
       s.hart.waitFrom + 256 ≤ s.clock) := by decide

theorem witness_CopyEngine : cpyBlockOk (cpyWords 0 0 0) = true ∧ (whole 0 8 9).sel = 7 ∧ (counting 1 .ready).hart.cnt 0 = 1 := by decide

/-- A descriptor of two f32 elements at 0x20000005000 for a register, read or written. -/
def strmWords (r dir : Nat) : List Word := [0x20000005000, BitVec.ofNat 64 (r + dir * 2 ^ 16 + 2 * 2 ^ 24), 2, 0, 4, 0, 0, 0]

/-- The slot that it gives. -/
def readSlot : StrmSlot := ⟨true, strmWords 20 0, .u, 0x20000005000, 20, false, .f32, [2, 0, 0, 0], [4, 0, 0, 0], 0, []⟩

/-- Slot 0 bound to v20, its elements fetched; two active lanes. -/
def streaming : State := on (fun h => ((h.setM 0 9).setSlot 0 { readSlot with buf := [.data 5, .data 6] }))

theorem witness_Streams :
    (base.hart.mode ≠ .m ∧ ((at5 0x20000004020).hart.getX 5).toNat % 64 ≠ 0) ∧
    (let s := blocked 0 (strmWords 640 0)
     s.loadBlock (s.hart.getX 5) 8 = (.ok (strmWords 640 0), (s.loadBlock (s.hart.getX 5) 8).2) ∧ strmParse (strmWords 640 0) .u = none) ∧
    (let s := blocked 0 (strmWords 20 0)
     let u := (s.loadBlock (s.hart.getX 5) 8).2
     s.loadBlock (s.hart.getX 5) 8 = (.ok (strmWords 20 0), u) ∧ strmParse (strmWords 20 0) u.hart.mode = some readSlot ∧
       readSlot.reg < u.hart.lalloc ∧ u.hart.boundElse 3 readSlot.reg = false) ∧
    (let f := (on (fun h => h.setSlot 1 readSlot)).focus 0
     let w := f.hart.slot 1
     f.hart.run.isHart = true ∧ w.bound = true ∧ w.write = false ∧ w.buf.length ≤ 224 ∧
       (f.refillRun w (w.pos + w.buf.length) 32).1 = [.data 0, .data 0]) ∧
    (base.hartOf 0).run ≠ .vacant ∧ (alloc 0 0).hart.lalloc ≤ readSlot.reg ∧ (inMode .m).hart.mode = .m ∧
    (on (fun h => h.setSlot 1 readSlot)).hart.boundElse 3 readSlot.reg = true ∧ (on (fun h => { h with cnt3 := 1 })).hart.cnt3 ≠ 0 ∧
    (LanesFree streaming [(8 : LOp).toNat] ∧ (20 : LOp).toNat < streaming.hart.lalloc ∧ (20 : LOp) ≠ 8 ∧ streaming.hart.active p0 ≠ 0 ∧
      streaming.hart.boundSlot true (20 : LOp).toNat = none ∧ streaming.hart.boundSlot false (20 : LOp).toNat = some 0 ∧
      (streaming.hart.slot 0).reg = (20 : LOp).toNat ∧
      (streaming.hart.slot 0).strip (maskLanes (streaming.hart.active p0)).length = some ([5, 6].map StrmElem.data)) := by
  refine ⟨by decide, ⟨ok_pair (by decide +kernel), by decide⟩, ⟨ok_pair (by decide +kernel), by decide +kernel, by decide +kernel, by decide +kernel⟩,
    by decide +kernel, by decide, by decide, by decide, by decide, by decide, by unfold LanesFree; decide⟩

/-- S mode, a configuration block of a domain at the start of core 0's shared memory, which x6 names; x5 = the code. -/
def configuring (code : Word) (c : Nat) (doms : List Dom) : State :=
  ({ on2 base code 0xE0000000000 with cores := [(0, { base.core 0 with shm := if c = 0 then [] else [(2, BitVec.ofNat 8 c)] })], doms := doms }).onHart
    (fun h => { h with mode := .s })

/-- A die domain in use, and one of another context. -/
def inUse (asid : Nat) : List Dom := [⟨.die 0 63, asid, false, [0], [(0, 1)]⟩]

theorem cfg_load (c : Fin 2) (l : Fin 2) :
    let s := configuring 0x13F c (if l = 0 then [] else inUse 0)
    s.loadBlock (s.hart.getX 6) 108 = (.ok (BitVec.ofNat 64 (65536 * c.val) :: List.replicate 107 0), (s.loadBlock (s.hart.getX 6) 108).2) :=
  ok_pair (by revert c l; decide +kernel)

theorem witness_BarrierConfiguration :
    base.hart.mode ≠ .s ∧ domKey 0 1 0x140 = none ∧ domKey 0 1 0 = some (.team 1) ∧
    (let s := (inMode .s).onHart (fun h => (h.setX 5 0x100).setX 6 8)
     s.hart.mode = .s ∧ domKey s.dieNo s.hart.team (s.hart.getX 5).toNat = some (.die 0 0) ∧ (s.hart.getX 6).toNat % 64 ≠ 0) ∧
    (∀ c : Fin 2, let s := configuring 0x13F c []
     let v := (s.loadBlock (s.hart.getX 6) 108).2
     s.hart.mode = .s ∧ domKey s.dieNo s.hart.team (s.hart.getX 5).toNat = some (.die 0 63) ∧ (s.hart.getX 6).toNat % 64 = 0 ∧
       wfield (BitVec.ofNat 64 (65536 * c.val)) 0 16 = v.hart.asid ∧
       cfgReserved (BitVec.ofNat 64 (65536 * c.val) :: List.replicate 107 0) 1 = true ∧
       wbit (BitVec.ofNat 64 (65536 * c.val)) 16 = (c == 1) ∧ v.domGet (.die 0 63) = none) ∧
    (let s := configuring 0x13F 0 (inUse 0)
     let v := (s.loadBlock (s.hart.getX 6) 108).2
     v.domGet (.die 0 63) = some ⟨.die 0 63, 0, false, [0], [(0, 1)]⟩ ∧ 0 ∈ v.members ⟨.die 0 63, 0, false, [0], [(0, 1)]⟩ ∧
       1 ≤ Dom.c ⟨.die 0 63, 0, false, [0], [(0, 1)]⟩ 0) ∧
    ((configuring 0x13F 1 (inUse 9)).domGet (.die 0 63)).map Dom.asid = some 9 ∧ (configuring 0x13F 1 []).hart.asid = 0 := by
  refine ⟨by decide, by decide, by decide, by decide, by decide +kernel, by decide +kernel, by decide, by decide⟩

theorem witness_BarriersAndConfiguration :
    (barred 0 [1]).isMember ⟨.pkg 0, 0, false, [1], []⟩ = false ∧ domKey 0 1 0x13F = some (.die 0 63) := by decide

theorem witness_MatrixRequests :
    (base.hart.mode ≠ .m ∧ base.hq base.hart.gid = 0) ∧
    (let s := base.modCore 0 (fun k => { k with queue := [⟨7, 0, 1, 0x30, 0, 0, 0, [], [], [], .finished, 0, 0, [], []⟩] })
     s.hq s.hart.gid ≠ 0 ∧ s.hart.run = .ready) ∧
    ((at5 0x20000004008).hart.getX 5).toNat % 32 ≠ 0 ∧
    (∀ n : Fin 2, let s := blocked 0 [BitVec.ofNat 64 (0x30 + n.val), 0, 0, 0]
     s.loadBlock (s.hart.getX 5) 4 = (.ok [BitVec.ofNat 64 (0x30 + n.val), 0, 0, 0], (s.loadBlock (s.hart.getX 5) 4).2)) ∧
    (let s := blocked 0 [0x31, 0, 0, 0]
     let u := (s.loadBlock (s.hart.getX 5) 4).2
     ((⟨0, u.hart.gid, u.hart.team, 0x31, 0, 0, 0, [], [], [], .queued, 0, u.clock, [], []⟩ : Cmd).patch (u.getX 6)).wordOk u.share = false) ∧
    (let s := blocked 0 [0x30, 0, 0, 0]
     let u := (s.loadBlock (s.hart.getX 5) 4).2
     let c := (⟨0, u.hart.gid, u.hart.team, 0x30, 0, 0, 0, [], [], [], .queued, 0, u.clock, [], []⟩ : Cmd).patch (u.getX 6)
     c.wordOk u.share = true ∧ u.cmdRecords c = (.ok { c with recA := [], recB := [] }, u) ∧
       ({ c with recA := [], recB := [] } : Cmd).recsOk u.share = true ∧ u.holdPages .load (touched ({ c with recA := [], recB := [] } : Cmd).rowRuns) = (.ok [], u) ∧
       (u.core u.coreNo).queue.length < 64 ∧ (u.core u.coreNo).rst = false) ∧
    (let s := (blocked 0 [0x30, 0, 0, 0]).modCore 0 (fun k => { k with rst := true })
     let u := (s.loadBlock (s.hart.getX 5) 4).2
     (u.core u.coreNo).rst = true ∧ u.hart.run = .ready) ∧
    (let s := at5 0x40000000000
     (s.hart.getX 5).toNat % 32 = 0 ∧ s.loadBlock (s.hart.getX 5) 4 = (.error ⟨5, 0, 0x40000000000⟩, (s.loadBlock (s.hart.getX 5) 4).2)) ∧
    (base.holdPages .store [(0x40000000, 0x40000000000)] = (.error ⟨7, 0, 0x40000000000⟩, (base.holdPages .store [(0x40000000, 0x40000000000)]).2)) ∧
    (inMode .m).hart.mode = .m := by
  refine ⟨by decide, by decide, by decide, fun n => ok_pair (by revert n; decide +kernel), by decide +kernel,
    ⟨by decide +kernel, by rfl, by decide +kernel, by rfl, by decide +kernel, by decide +kernel⟩, by decide +kernel,
    ⟨by decide, err_pair (by decide +kernel)⟩, err_pair (by decide +kernel), by decide⟩

/-- A record of two f32 elements. -/
def rec2 : List Word := [0x0002000000000002, 0, 0, 0]

/-- A command of hart 0 with an op in a phase. -/
def cmd (op : Nat) (d3 : Word) (p : CmdPhase) : Cmd := ⟨7, 0, 1, BitVec.ofNat 64 op, 0, 0, d3, rec2, rec2, [], p, 0, 0, [], []⟩

/-- Core 0 with one command. -/
def engine (c : Cmd) : State := { base.modCore 0 (fun k => { k with queue := [c] }) with sel := 0 }

theorem witness_TileCommands :
    (∀ op ∈ [1, 2, 3, 4, 0x10, 0x13, 0x20, 0x21, 0x30],
      (engine (cmd op 0 .eligible)).cmdNow (engine (cmd op 0 .eligible)).sel = some (cmd op 0 .eligible) ∧
        (cmd op 0 .eligible).op = op ∧ (cmd op 0 .eligible).rows ≤ 64 ∧ (cmd op 0 .eligible).cols ≤ 64 ∧
        recW (cmd op 0 .eligible).recA = recW (cmd op 0 .eligible).recB) ∧
    (∀ e, e < recCount rec2 → 0 ≤ recNibOf rec2 (recW rec2) 0 e) ∧
    (∀ e < 2, ∀ d < 2, e < d → recNibOf rec2 (recW rec2) 0 e + (recW rec2 / 4 : Nat) ≤ recNibOf rec2 (recW rec2) 0 d) ∧
    ((cmd 4 0 .eligible).op = 4 ∧ wfield (cmd 4 0 .eligible).d3 8 2 = 0) ∧
    (let s := engine (cmd 4 0x100 .eligible)
     s.cmdNow s.sel = some (cmd 4 0x100 .eligible) ∧ wbit (cmd 4 0x100 .eligible).d3 8 = true ∧ (s.core (westOf s.sel)).landE = none ∧
       s.linkDown s.sel false = false) ∧
    (let s := (engine (cmd 4 0x300 .landing)).modCore 0 (fun k => { k with landE := some [1, 2], landS := some [3, 4] })
     (s.core s.sel).queue.find? (fun c => c.phase == .landing) = some (cmd 4 0x300 .landing) ∧ (cmd 4 0x300 .landing).toSend = 0 ∧
       (s.core s.sel).landE.isSome = true ∧ (s.core s.sel).landS.isSome = true) := by
  decide

/-- `acc.ld` and `acc.st` of 64 rows of 256 bytes from virtual address 0 on, in four pages of HBM. -/
def rowCmd (op : Nat) : Cmd :=
  { cmd op 0 .eligible with d2 := 256, pages := [(0, 0x20000010000), (1, 0x20000011000), (2, 0x20000012000), (3, 0x20000013000)] }

theorem rowPa_rowCmd (op r : Nat) (hr : r < 64) (o : Nat) (ho : o < 256) :
    Claims.rowPa (rowCmd op) r o = some (0x20000010000 + (256 * r + o)) := by
  have hv : ∀ r < 64, ((0 : Word) + BitVec.ofNat 64 (r * wfield (256 : Word) 0 32)).toNat = 256 * r := by decide +kernel
  show heldPa [(0, 0x20000010000), (1, 0x20000011000), (2, 0x20000012000), (3, 0x20000013000)]
    (((0 : Word) + BitVec.ofNat 64 (r * wfield (256 : Word) 0 32)).toNat + o) = _
  rw [hv r hr]
  have h : r / 16 = 0 ∨ r / 16 = 1 ∨ r / 16 = 2 ∨ r / 16 = 3 := by omega
  have hd : (256 * r + o) / 4096 = r / 16 := by omega
  rcases h with h | h | h | h <;> simp [heldPa, List.find?, hd, h] <;> omega

/-- Those bytes are in HBM, and nothing refuses them. -/
theorem rowCmd_hbm (op a k : Nat) (h1 : 0x20000010000 ≤ a) (h2 : a < 0x20000014000) :
    (engine (rowCmd op)).region (paLow a) = .hbm ∧ (engine (rowCmd op)).refusal a k = none := by
  have hl : paLow a = a := by unfold paLow; omega
  have hk : paKey a = 0 := by unfold paKey; omega
  have hg : (engine (rowCmd op)).region a = .hbm := by
    have h24 : (engine (rowCmd op)).glob = 24 := rfl
    unfold State.region State.inHbm
    simp only [h24, gib]
    rw [if_pos (show a < 0x40000000000 by omega),
      if_neg (show ¬((decide (0x2000000000 ≤ a) && decide (a < 0x12000000000)) = true) by simp; omega),
      if_pos (show (decide (0x20000000000 ≤ a) && decide (a < 0x30000000000)) = true by simp; omega), if_pos (by simp; omega)]
  refine ⟨by rw [hl, hg], ?_⟩
  unfold State.refusal
  simp only [hl, hk, hg]
  rw [if_neg (by omega)]
  rfl

/-- The rows of those commands are in HBM, no byte twice, and nothing stands between the core and them. -/
theorem witness_AccumulatorRows :
    (Claims.Quiet (engine (rowCmd 0x11)) ∧ Claims.rowsInHbm (engine (rowCmd 0x11)) (rowCmd 0x11) ∧
      (engine (rowCmd 0x11)).cmdNow (engine (rowCmd 0x11)).sel = some (rowCmd 0x11)) ∧
    (Claims.Quiet (engine (rowCmd 0x12)) ∧ Claims.rowsInHbm (engine (rowCmd 0x12)) (rowCmd 0x12) ∧
      (engine (rowCmd 0x12)).cmdNow (engine (rowCmd 0x12)).sel = some (rowCmd 0x12)) ∧
    ∀ r o r' o' pa pa', r < 64 → o < 256 → r' < 64 → o' < 256 → Claims.rowPa (rowCmd 0x12) r o = some pa →
      Claims.rowPa (rowCmd 0x12) r' o' = some pa' → (paLow pa = paLow pa' → r = r' ∧ o = o') ∧ paKey pa = paKey pa' := by
  have hm : ∀ op, Claims.rowsInHbm (engine (rowCmd op)) (rowCmd op) := by
    refine fun op => ⟨fun r hr => ?_, fun r o hr ho => ?_⟩
    · show ((0 : Word) + BitVec.ofNat 64 (r * wfield (256 : Word) 0 32)).toNat % 4 = 0
      have : ∀ r < 64, ((0 : Word) + BitVec.ofNat 64 (r * wfield (256 : Word) 0 32)).toNat % 4 = 0 := by decide +kernel
      exact this r hr
    have h := rowCmd_hbm op (0x20000010000 + (256 * r + o)) ((engine (rowCmd op)).teamAsid (rowCmd op).team) (by omega) (by omega)
    exact ⟨_, rowPa_rowCmd op r hr o ho, h.2, h.1, rfl⟩
  refine ⟨⟨⟨rfl, rfl, rfl, rfl, rfl, rfl, rfl, cores_quiet (by decide)⟩, hm 0x11, by decide⟩,
    ⟨⟨rfl, rfl, rfl, rfl, rfl, rfl, rfl, cores_quiet (by decide)⟩, hm 0x12, by decide⟩, ?_⟩
  intro r o r' o' pa pa' hr ho hr' ho' h h'
  rw [rowPa_rowCmd 0x12 r hr o ho, Option.some.injEq] at h
  rw [rowPa_rowCmd 0x12 r' hr' o' ho', Option.some.injEq] at h'
  subst h; subst h'
  simp only [paLow, paKey]
  omega

theorem witness_MatrixEngineEvents :
    (∀ op ∈ [0x11, 0x12], (engine (cmd op 0 .eligible)).cmdNow (engine (cmd op 0 .eligible)).sel = some (cmd op 0 .eligible) ∧
      (cmd op 0 .eligible).op = op) ∧
    (base.core base.sel).queue.filter (fun c => c.phase == .finished) = [] ∧
    (∀ b : Bool, ((engine { cmd 1 0 .finished with d0 := if b then 0x0400000000000001 else 1 }).core 0).queue.filter (fun c => c.phase == .finished) ≠ [] ∧
      ({ cmd 1 0 .finished with d0 := if b then 0x0400000000000001 else 1 } : Cmd).sen = b) ∧
    (base.core base.sel).queue.any (fun c => (c.phase == .started || c.phase == .landing) && decide (c.since + 2 ^ 20 ≤ base.clock)) = false ∧
    (let s := { engine (cmd 4 0x300 .landing) with clock := 2 ^ 20 }
     (s.core s.sel).queue.any (fun c => (c.phase == .started || c.phase == .landing) && decide (c.since + 2 ^ 20 ≤ s.clock)) = true) ∧
    (let s := { (engine (cmd 1 0 .listed)).onHart (fun h => { h with team := 2 }) with clock := 2 ^ 20, sel := 1 }
     (s.teamHarts s.sel).isEmpty = true ∧ (s.teamCmds s.sel).isEmpty = false ∧ ∀ q ∈ s.teamCmds s.sel, q.since + 2 ^ 20 ≤ s.clock) := by
  decide

/-- A descriptor of one entry, k = heap = width = 1, e4m3 of 1 dimension, on stack 0: the query vector at 0x20000005000, the result
buffer at 0x20000006000, records of 16 bytes from 0x30000000000 on. -/
def dqWords (mode k : Nat) (d3 d4 : Word) : List Word :=
  [0x20000005000, 0x20000006000, 0, d3, d4, BitVec.ofNat 64 (k + 2 ^ 16 + 2 ^ 32 + 2 ^ 40 + 9 * 2 ^ 56), BitVec.ofNat 64 (1 + mode * 2 ^ 24), 16] ++
    List.replicate 8 0 ++ [0x30000000000] ++ List.replicate 15 0

/-- A legal descriptor of a completion mode. -/
def searchWords (mode : Nat) : List Word := if mode = 0 then dqWords 0 1 0 0 else dqWords mode 1 0x1000 9

/-- The descriptor stands in two lines that core 0 has copies of. -/
def asked (x6 : Word) (d : List Word) : State :=
  { blocked x6 d with hc := [⟨0, tagLine 0x20000004000, .shared, [], []⟩, ⟨0, tagLine 0x20000004080, .shared, [], []⟩] }

theorem asked_load (x6 : Fin 2) (mode : Fin 4) : (asked (if x6 = 0 then 5 else 0x200000000) (searchWords mode)).loadBlock 0x20000004000 32 =
    (.ok (searchWords mode), ((asked (if x6 = 0 then 5 else 0x200000000) (searchWords mode)).loadBlock 0x20000004000 32).2) :=
  ok_pair (by revert x6 mode; decide +kernel)

/-- What the hart sends in a mode, before it has checked the pages. -/
def sends (mode : Nat) : Query :=
  (asked 5 (searchWords mode)).newQuery (searchWords mode) 0x20000004000 5

theorem witness_DredgeRequests :
    (base.hart.mode ≠ .m ∧ ((at5 0x20000004080).hart.getX 5).toNat % 256 ≠ 0) ∧
    (let u := ((asked 0x200000000 (searchWords 0)).loadBlock 0x20000004000 32).2
     wfield (u.getX 6) 33 31 ≠ 0) ∧
    (∀ mode : Fin 4, let s := asked 5 (searchWords mode)
     let u := (s.loadBlock 0x20000004000 32).2
     (s.hart.getX 5 = 0x20000004000#64 ∧ wfield (u.getX 6) 33 31 = 0) ∧ u.newQuery (searchWords mode) 0x20000004000 (u.getX 6) = sends mode ∧
       (sends mode).fieldsOk = true ∧ (sends mode).mode = mode) ∧
    (base.holdQuery (sends 0) = (.ok [(0x20000005, 0x20000005000), (0x20000006, 0x20000006000)], (base.holdQuery (sends 0)).2) ∧
      (base.holdQuery (sends 0)).2.dredgeFull (sends 0).home = false ∧ (base.holdQuery (sends 0)).2.hart.run = .ready) ∧
    (let q : Query := { sends 0 with desc := (sends 0).desc.set 0 0x40000000000 }
     base.holdQuery q = (.error ⟨5, 0, 0x40000000000⟩, (base.holdQuery q).2)) ∧
    ((base.reservePlace 7).map Prod.fst = some 8 ∧ full.reservePlace 7 = none) ∧
    { base with queries := List.replicate 256 (sends 0) }.dredgeFull (sends 0).home = true ∧
    (let s := at5 0x40000000000
     (s.hart.getX 5).toNat % 256 = 0 ∧ s.loadBlock (s.hart.getX 5) 32 = (.error ⟨5, 0, 0x40000000000⟩, (s.loadBlock (s.hart.getX 5) 32).2)) ∧
    ((inWait (.dredge (sends 0)) base).hart.run = .waiting (.dredge (sends 0)) ∧ base.dredgeFull (sends 0).home = false ∧
      ∀ q0, base.hart.run ≠ .waiting (.dredge q0)) := by
  refine ⟨by decide, by decide +kernel, by decide +kernel, ⟨ok_pair (by decide +kernel), by decide +kernel, by decide +kernel⟩,
    err_pair (by decide +kernel), by decide +kernel, by decide +kernel, ⟨by decide, err_pair (by decide +kernel)⟩, by decide, by decide +kernel,
    fun q0 h => by cases h⟩

/-- A query of hart 0 in a phase, its number 7, its pages translated. -/
def query (mode : Nat) (p : QPhase) : Query :=
  { base.newQuery (dqWords mode 1 8 9) 0x20000004000 5 with
    uid := 7, phase := p, pages := [(0x20000005, 0x20000005000), (0x20000006, 0x20000006000)], place := some 1 }

/-- It alone, with hart 1's place reserved for it. -/
def asking (q : Query) : State :=
  { base with sel := 7, queries := [q], parked := [(1, { Hart.fresh 1 with run := .reserved 7, team := 1 })] }

theorem witness_DredgeRounds :
    (let q := query 0 .waiting
     let s := asking q
     s.query? s.sel = some q ∧ q.killed = false ∧ q.divert = false ∧ s.admissible q = true ∧
       (s.readVector q (lineRuns (dw q.desc 0).toNat (q.dim * q.elem / 128 + 2) (q.dim * q.elem))).1 = some [0]) ∧
    (∀ b : Fin 3, let q := { query 0 .waiting with killed := b == 0, divert := b == 1, cancel := if b = 2 then some 0 else none }
     let s := { asking q with clock := 1000 }
     s.query? s.sel = some q ∧ q.phase = .waiting ∧ (b = 2 → s.cancelHere q = true)) ∧
    (let q := query 0 .waiting
     let s := { asking q with queries := [q, { q with uid := 8, prio := q.prio + 1 }] }
     s.query? s.sel = some q ∧ s.cancelHere q = false ∧ s.admissible q = false) ∧
    (let q := { query 0 .list with xs := [3], new := [4], bad := [3, 4] }
     q.toAsk = [] ∧ q.asked = [] ∧ q.xs.find? (fun y => q.bad.contains y) = some 3 ∧ q.new.find? (fun y => q.bad.contains y) = some 4) ∧
    (let q := { query 0 .boundary with heap := [⟨0, 0, false⟩], cancel := some 0 }
     let s := { asking q with clock := 1000 }
     q.bad = [] ∧ ¬(∀ e ∈ q.heap, e.exp = true) ∧ s.cancelHere q = true ∧ (asking (query 0 .boundary)).cancelHere (query 0 .boundary) = false) ∧
    (let q := { query 0 .boundary with desc := ((query 0 .boundary).desc.set 2 1) }
     q.deadline ≠ 0 ∧ ({ asking q with clock := 2 }).dtime ≥ q.deadline) ∧
    (let q := { query 0 .waiting with pages := [] }
     let s := asking q
     s.query? s.sel = some q ∧ s.readVector q (lineRuns (dw q.desc 0).toNat (q.dim * q.elem / 128 + 2) (q.dim * q.elem)) = (none, s)) ∧
    (let q := { query 0 .list with toAsk := [0], asked := [15], xs := [0] }
     (asking q).query? 7 = some q ∧ q.phase = .list ∧ 0 ∈ q.toAsk ∧ 15 ∈ q.asked ∧ (asking q).unitTurn q 0 = true ∧ (asking q).unitTurn q 3 = false) ∧
    (let q := { query 0 .eval with toAsk := [15], asked := [0], new := [0] }
     (asking q).query? 7 = some q ∧ q.phase = .eval ∧ 15 ∈ q.toAsk ∧ 0 ∈ q.asked ∧ (asking q).unitTurn q 15 = true ∧
       ∀ y ∈ (asking q).queries, y.uid = q.uid → y = q) ∧
    (let q := query 0 .boundary
     (asking q).query? (asking q).sel = some q ∧ q.phase = .boundary ∧ q.killed = false ∧ (asking q).endStatus q = some 0) ∧
    (let q := { query 0 .boundary with heap := [⟨0, 0, false⟩] }
     (asking q).query? (asking q).sel = some q ∧ (asking q).endStatus q = none) ∧
    ([⟨3, 0, true⟩] : List HeapEnt).length ≤ 1 ∧ (([⟨3, 0, true⟩] : List HeapEnt).map HeapEnt.id).Nodup := by
  refine ⟨by decide +kernel, by decide +kernel, by decide +kernel, by decide +kernel, by decide +kernel, by decide +kernel, ⟨by decide +kernel, by rfl⟩, by decide +kernel, by decide +kernel, by decide +kernel, by decide +kernel, by decide, by decide⟩

/-- The query of an evicted team whose away hart 3 had sent it. -/
def awayAsking (q : Query) : State :=
  { asking q with
    hart := { base.hart with run := .vacant }
    teams := base.teams.map (fun t => { t with phase := .evicted, away := [{ Hart.fresh 0 with run := .ready, team := 1, num := 3 }] }) }

theorem witness_DredgeCompletion :
    (∀ e, ([⟨3, 4, true⟩] : List HeapEnt)[0]? = some e → e = ⟨3, 4, true⟩) ∧ 1 ≤ (query 0 .ended).k ∧ (query 0 .ended).heap = [] ∧
    ((asking (query 0 .ended)).query? (asking (query 0 .ended)).sel = some (query 0 .ended) ∧ (query 0 .ended).phase = .ended ∧
      (query 0 .ended).killed = false) ∧
    (∀ m : Fin 4, let q := query m .recorded
     let s := asking q
     s.query? s.sel = some q ∧ q.phase = .recorded ∧ q.killed = false ∧ s.inOrder q = true ∧ (s.team q.team).phase ≠ .evicted ∧
       (s.hartOf q.gid).run.isHart = true ∧ q.mode = m ∧ (s.hartOf q.gid).uiq.length < 16 ∧ (s.hartOf q.gid).uiHeld = [] ∧
       q.place = some 1 ∧ 1 ≠ q.gid ∧ (s.hartOf 1).run = .reserved q.uid ∧ (s.team q.team).awayHart q.gid = none) ∧
    (let q := { query 0 .ended with killed := true }
     (asking q).query? (asking q).sel = some q ∧ q.phase = .ended ∧ q.killed = true) ∧
    (let q := { query 0 .recorded with killed := true }
     (asking q).query? (asking q).sel = some q ∧ q.phase = .recorded ∧ q.killed = true) ∧
    (let q := { query 0 .recorded with ord := true }
     let s := { asking q with queries := [{ q with uid := 3, phase := .list }, q] }
     s.query? s.sel = some q ∧ s.inOrder q = false) ∧
    (16 ≤ (List.replicate 16 (⟨1, 5, 0, none, none⟩ : UiEvent)).length ∧
      (on (fun h => { h with uiHeld := [⟨1, 5, 0, none, none⟩] })).hart.uiHeld ≠ []) ∧
    (∀ m : Fin 4, let q := { query m .recorded with gid := awayId 1 3, place := none }
     let s := awayAsking q
     s.query? s.sel = some q ∧ s.inOrder q = true ∧ q.mode = m ∧ (s.team q.team).phase = .evicted ∧
       ((s.team q.team).awayHart q.gid).map (fun a => a.run.isHart) = some true) := by
  refine ⟨fun e h => by simpa using h.symm, by decide +kernel, by rfl, by decide +kernel, by decide +kernel, by decide +kernel, by decide +kernel,
    by decide +kernel, by decide, by decide +kernel⟩

/-- A ship of hart 0 in flight to 0x20000001008, its number 7. -/
def ship (r : Nat) : Ship := ⟨7, 0, 1, 0x20000001008, r, 5, 0, List.replicate 128 0, false, 0, 0⟩
def shipping (x : Ship) : State :=
  { on (fun h => { h with run := .waiting (.ship 7) }) with sel := 7, ships := [x] }

/-- Routine 16 is loaded. -/
def loaded (b : Bool) : State := (at5 0x20000001008).modFirm (fun f => { f with drtab := if b then 0x1007F else 0x7F })

/-- Operands of the routines of a whole line: a row of 64 ones, a value and bins that are finite, infinite or NaN, a width of 0. -/
theorem witness_LineRoutines :
    ((List.replicate 128 (0x3F : Byte)).length = 128) ∧
    (Claims.ratOf (fval .f32 (wfield 0x41200000 0 32)) = some 10 ∧ Claims.ratOf (fval .f32 (wfield 0x3F8000003F000000 0 32)) = some (1 / 2) ∧
      Claims.ratOf (fval .f32 (wfield 0x3F8000003F000000 32 32)) = some 1) ∧
    (fval .f32 (wfield 0xFF800000 0 32) = .inf true ∧ fval .f32 (wfield 0x7F800000 0 32) = .inf false) ∧
    ((fval .f32 (wfield 0x7FC00000 0 32)).isNan = true ∧
      Claims.ratOf (fval .f32 (wfield 0x000000003F000000 32 32)) = some 0 ∧
      fval .f32 (wfield 0x7F8000003F000000 32 32) = .inf false) := by
  obtain ⟨h1, -, -, -, h5, -, h7, h8⟩ := ratOf_samples
  refine ⟨List.length_replicate, ⟨?_, ?_, ?_⟩, by decide, by decide, ?_, by decide⟩
  · rw [show wfield 0x41200000 0 32 = 0x41200000 by decide]; exact h7
  · rw [show wfield 0x3F8000003F000000 0 32 = 0x3F000000 by decide]; exact h5
  · rw [show wfield 0x3F8000003F000000 32 32 = 0x3F800000 by decide]; exact h1
  · rw [show wfield 0x000000003F000000 32 32 = 0 by decide]; exact h8

theorem witness_ShippedFunctions :
    (base.hart.mode ≠ .m ∧ 7 ≤ (15 : BitVec 6).toNat ∧ (15 : BitVec 6).toNat ≤ 15) ∧
    ((3 : BitVec 6).toNat < 7 ∧ ((at5 0x20000001008).hart.getX 5).toNat % shipAlign (3 : BitVec 6).toNat ≠ 0) ∧
    (let s := at5 0x20000001008
     (s.hart.getX 5).toNat % shipAlign (6 : BitVec 6).toNat = 0 ∧ s.shipPa (s.hart.getX 5) = (.ok 0x20000001008, s) ∧
       s.shipRow (6 : BitVec 6).toNat (s.getX 6) = (.ok [], s) ∧ (6 : BitVec 6).toNat < 16 ∧ s.hart.run = .ready) ∧
    (∀ b : Bool, let s := loaded b
     s.shipPa (s.hart.getX 5) = (.ok 0x20000001008, s) ∧ s.shipRow (16 : BitVec 6).toNat (s.getX 6) = (.ok [], s) ∧
       16 ≤ (16 : BitVec 6).toNat ∧ wbit s.firm.drtab (16 : BitVec 6).toNat = b) ∧
    (let s := (at5 0x20000001000).onHart (fun h => h.setX 6 0x40000000000)
     s.shipPa (s.hart.getX 5) = (.ok 0x20000001000, s) ∧
       s.shipRow (3 : BitVec 6).toNat (s.getX 6) = (.error ⟨5, 0, 0x40000000000⟩, (s.shipRow (3 : BitVec 6).toNat (s.getX 6)).2)) ∧
    (let s := (at5 0x1000).onHart (fun h => { h with csr := { h.csr with satp := 0x9000000020000010#64 } })
     s.translateAs s.hart s.clusterNo (s.hart.agent s.hart.mode) .store 0x1000 =
       (.error ⟨15, 0, 0x1000⟩, (s.translateAs s.hart s.clusterNo (s.hart.agent s.hart.mode) .store 0x1000).2)) ∧
    (let s := at5 0x100000000100
     s.translateAs s.hart s.clusterNo (s.hart.agent s.hart.mode) .store 0x100000000100 = (.ok ⟨0x100000000100, 0, 64⟩, s) ∧
       s.hart.pmpOk s.hart.mode .store 0x100000000100 = true ∧ s.region (paLow 0x100000000100) ≠ .hbm) ∧
    (let s := at5 0xC20000001000
     s.translateAs s.hart s.clusterNo (s.hart.agent s.hart.mode) .store 0xC20000001000 = (.ok ⟨0xC20000001000, 0, 64⟩, s) ∧
       s.region (paLow 0xC20000001000) = .hbm ∧ pteMt 0 = 0 ∧ s.refusal 0xC20000001000 s.hart.asid = some 3) ∧
    (∀ r ∈ [0, 1, 2, 3, 4, 5, 6, 16], (shipping (ship r)).ships.find? (fun y => y.uid == (shipping (ship r)).sel) = some (ship r) ∧
      (ship r).ran = false ∧ (shipping (ship r)).region (paLow (ship r).pa) = .hbm ∧ (ship r).pa % 8 = 0 ∧
      (shipping (ship r)).isLost (paLow (ship r).pa) = false) ∧
    Claims.Quiet (shipping (ship 0)) ∧
    (({ shipping (ship 0) with poison := [lineOf 0x20000001008] }).isLost (paLow (ship 0).pa) = true) ∧
    (runHist32 (ship 4) (List.replicate 128 0)).1.length ≤ 128 ∧
    (∀ f : Fin 3, let x := { ship 0 with ran := true, fail := f.val }
     let s := shipping x
     s.ships.find? (fun y => y.uid == s.sel && y.ran) = some x ∧ (s.hartOf x.gid).run = .waiting (.ship x.uid) ∧ x.fail = f) := by
  refine ⟨by decide, by decide, ⟨by decide, by rfl, by rfl, by decide, by decide⟩, fun b => by cases b <;> exact ⟨by rfl, by rfl, by decide, by decide⟩,
    ⟨by rfl, err_pair (by decide +kernel)⟩, err_pair (by decide +kernel), ⟨by rfl, by decide, by decide⟩, ⟨by rfl, by decide, by decide, by decide⟩,
    by decide, ⟨rfl, rfl, rfl, rfl, rfl, rfl, rfl, cores_quiet (by decide)⟩, by decide, by decide +kernel, by decide⟩

/-- S mode with Sv48 and an empty root table. -/
def paged : State := (at5 0x1000).onHart (fun h => { h with mode := .s, csr := { h.csr with satp := 0x9000000020000010#64 } })

/-- A walk begun by a prefetch of hart 0, without translation, and the same with every translation removed since. -/
def walk (struck : Bool) : Walk := ⟨7, 0, 0, 0, 0x20000001000, .pkg, .l2, .u, false, false, true, if struck then [(none, none)] else []⟩
def walking (struck : Bool) : State := { base with sel := 7, walks := [walk struck] }

/-- Page 3 of die 0 bound to the block at 0x20000002000. -/
def notified : State := qRoom.modDie 0 (fun d => { d with npbind := [(3, 0x20000002001#64)] })
def boundRaw : List Byte × State := (notified.qSettle 0x20000002000).qcbBytes 0x20000002000

theorem boundRaw_eq : (notified.qSettle 0x20000002000).qcbBytes 0x20000002000 = (boundRaw.1, boundRaw.2) := by
  unfold boundRaw; exact (Prod.mk.eta).symm

theorem witness_MemorySystemEvents :
    (base.hart.mode ≠ .s) ∧
    (paged.hart.mode = .s ∧ paged.dataPa .s .store (wput (paged.hart.getX 5) 0 7 0) = (.error ⟨15, 0, 0x1000⟩, (paged.dataPa .s .store (wput (paged.hart.getX 5) 0 7 0)).2)) ∧
    (let s := (at5 0x20000001005).onHart (fun h => { h with mode := .s })
     s.hart.mode = .s ∧ s.dataPa .s .store (wput (s.hart.getX 5) 0 7 0) = (.ok 0x20000001000, s) ∧ s.region (paLow 0x20000001000) = .hbm) ∧
    (∀ b : Bool, (walking b).walks.find? (fun x => x.uid == (walking b).sel) = some (walk b) ∧
      (walk b).void (walk b).agent (walk b).va ⟨0x20000001000, 0, 64⟩ = b) ∧
    (let s := walking false
     ({ s with walks := [] }).walkRoot (walkDie (walk false).cluster) (s.hartOf 0) (walk false).agent .load (walk false).va =
       (.ok ⟨0x20000001000, 0, 64⟩, { s with walks := [] })) ∧
    (let w := { walk false with satp := 0x9000000020000010#64, va := 0x0001000000000000 }
     base.walkRoot (walkDie w.cluster) base.hart w.agent .load w.va = (.error ⟨13, 0, 0x0001000000000000⟩, base)) ∧
    (let s := (two 0xE0000040000).onHart (fun h => { h with mode := .s })
     s.hart.mode = .s ∧ s.dataPa .s .store (wput (s.hart.getX 5) 0 7 0) = (.ok 0xE0000040000, s) ∧ s.region (paLow 0xE0000040000) ≠ .hbm) ∧
    ((3 : Nat) < 4 ∧ (base.die 3).tlbdone = true) ∧ ((base.modDie 0 (fun d => { d with tlbdone := false })).die 0).tlbdone = false ∧
    base.notifyQcb 0 4 = none ∧
    (notified.qcbRefused 0x20000002000 = false ∧
      (qOf { qcb 3 0 2 2 6 with asid := 3 }).qcbRefused (5 * 2 ^ 46 + 0x20000002000) = true) ∧
    (qcbCorrupt (qRaw (withMem qRoom 0x20000002002 [9])) = true ∧ (seen qQr).qr = true) ∧
    (notified.notifyQcb 0 3 = some 0x20000002000 ∧ (notified.qSettle 0x20000002000).qcbBytes 0x20000002000 = (boundRaw.1, boundRaw.2) ∧
      qcbCorrupt boundRaw.1 = false ∧ (qcbParse (dwords 16 boundRaw.1)).qr = false ∧
      (qcbParse (dwords 16 boundRaw.1)).tail ≤ 8 ∧ 8 ≤ (qcbParse (dwords 16 boundRaw.1)).head + (qcbParse (dwords 16 boundRaw.1)).cap ∧
      1 < (qcbParse (dwords 16 boundRaw.1)).tail ∧ (qcbParse (dwords 16 boundRaw.1)).head + (qcbParse (dwords 16 boundRaw.1)).cap < 9) ∧
    (base.region (128 * 0x400000000) = .hbm ∧ (base.die (base.homeDie (128 * 0x400000000))).faq.length < 256) ∧
    (256 ≤ (List.replicate 256 (1, 0x400000000)).length ∧ base.region (paLow (128 * 0x1E00000000)) ≠ .hbm) ∧
    base.fe.bplist.length < 4096 ∧ 4096 ≤ (List.replicate 4096 (1 : Word)).length ∧ (47 : Nat) < 48 ∧ (31 : Nat) < 32 := by
  refine ⟨by decide, ⟨by decide, err_pair (by decide +kernel)⟩, ⟨by decide, by rfl, by decide⟩, by decide, by rfl, by rfl, ⟨by decide, by rfl, by decide⟩,
    by decide, by decide, by decide, by decide +kernel, by decide +kernel,
    ⟨by decide, boundRaw_eq, by decide +kernel, by decide +kernel, by decide +kernel, by decide +kernel, by decide +kernel, by decide +kernel⟩,
    by decide, ⟨(List.length_replicate ..).ge, by decide⟩, by decide, (List.length_replicate ..).ge, by decide, by decide⟩

/-- Core 0 in a state of CORESTAT, with a cause. -/
def coreIn (st cause : Nat) (pass wasReset : Bool) : State :=
  { base.modCore 0 (fun k => { k with state := st, cause := cause, pass := pass, wasReset := wasReset }) with sel := 0 }

theorem witness_CoreLossAndRepair :
    ((767 : Nat) < 768 ∧ (base.core 767).state = 0 ∧ (base.core 767).power ≠ .off) ∧
    (((coreIn 1 2 true true).core (coreIn 1 2 true true).sel).state = 1 ∧ ((coreIn 1 2 true true).core (coreIn 1 2 true true).sel).wasReset = true ∧
      ((coreIn 1 2 true true).core (coreIn 1 2 true true).sel).pass = true) ∧
    ((coreIn 2 2 false false).core (coreIn 2 2 false false).sel).state ≠ 1 ∧ ((coreIn 2 2 false false).core (coreIn 2 2 false false).sel).state = 2 ∧
    (((coreIn 4 3 false false).core (coreIn 4 3 false false).sel).pass = false ∧ ((coreIn 4 3 false false).core (coreIn 4 3 false false).sel).state ≠ 0 ∧
      ((coreIn 4 3 false false).core (coreIn 4 3 false false).sel).cause = 3) ∧
    ¬(((coreIn 1 3 true true).core 0).cause = 3 ∧ ((coreIn 1 3 true true).core 0).pass = false) ∧
    ((coreIn 3 1 false true).core 0).state = 3 ∧ ((coreIn 1 1 false false).core 0).wasReset = false ∧
    ¬(((coreIn 1 1 false false).core 0).state = 0) ∧ (coreIn 1 1 false false).sel = 0 := by decide

/-- The packet of the base launch, with its deadline fields, and a record of zeros. -/
def packet : List Word := (base.launch 1).pkt
def p9 : Launch := { Launch.none with id := base.nextUid, queue := 3, pkt := packet, ctx := List.replicate 8 0, ended := false, expired := false }
def refused : Launch := { p9 with pkt := List.replicate 16 0 }

/-- Launch queue 3 is valid, and its context record cannot be read. -/
def dequeuing : State := base.modFe (fun f => { f with lqqcb := [(3, 1)] })

/-- A second launch with one team that waits. -/
def t9 : Team := { Team.none with id := 2, launch := 2, phase := .waiting, outDone := false }
def placing (affinity : Nat) : State :=
  { base with
    sel := 2, teams := (base.team 1) :: [t9], parked := [], hart := { base.hart with run := .vacant }, clock := 20000
    cores := [(0, { base.core 0 with state := 4 })]
    launches := base.launch 1 :: [{ base.launch 1 with id := 2, start := none, pkt := packet.set 13 (BitVec.ofNat 64 (affinity * 2 ^ 10)) }] }

theorem witness_LaunchesAndPlacement :
    (dequeuing.firm.step = 8 ∧ dequeuing.firm.fail = false ∧ (dequeuing.launches.filter (fun y => !y.ended)).length < 256 ∧
      ((List.range 64).map (fun i => (dequeuing.fe.lqNext + i) % 64)).find? (fun k => dequeuing.lqDue k) = some 3) ∧
    (base.takeUid.1).refuseCode p9 = 0 ∧ (base.takeUid.1).refuseCode refused ≠ 0 ∧
    (let s := placing 0
     (s.tryStart (s.team s.sel)).isSome = true ∧ (s.team s.sel).phase = .waiting ∧ (s.launch 2).expired = false ∧ (s.launch 2).ended = false ∧
       (s.launch 2).coRes = false ∧ (s.launch 2).ring = false ∧
       ((s.bestCore (s.launch 2) (s.team s.sel) (s.teamDie (s.launch 2) (s.team s.sel))).map Prod.fst) = some 192 ∧
       ∀ o ∈ s.teams, s.handedBefore o (s.team s.sel) = true → (s.tryStart o).isNone = true) ∧
    (let s := placing 1
     (s.team s.sel).phase = .waiting ∧ (s.launch 2).affinity = 1 ∧ (s.launch 2).die = none ∧
       (s.team s.sel).since + 1000 * wfield s.fe.fespill 0 32 ≤ s.clock) := by
  refine ⟨by decide +kernel, by decide +kernel, by decide +kernel, by decide +kernel, by decide +kernel⟩

/-- Launch queue 3 serves a block of the context of zeros; the two registers name the block and the record. -/
def serving (q : Qcb) (qcbReg rec : Word) : State :=
  { qOf q with fe := { base.fe with lqqcb := [(3, qcbReg)], lqctx := [(3, rec)] }, sel := 3, hart := { base.hart with run := .vacant } }

/-- A queue of packets: 128 bytes an element. -/
def lq (head tail : Nat) : Qcb := { qcb 3 head tail tail (8 - (tail - head)) with esz := 31 }

/-- The front end serves queue 3 next. -/
def atTurn (s : State) : Bool :=
  s.firm.step == 8 && !s.firm.fail && decide ((s.launches.filter (fun y => !y.ended)).length < 256) &&
    ((List.range 64).map (fun i => (s.fe.lqNext + i) % 64)).find? (fun k => s.lqDue k) == some 3 && s.sel == 3

/-- The state in which it checks the queue, and what it reads of the block. -/
def served (s : State) : State := { s with fe := { s.fe with lqNext := 4 } }
def lqRead (s : State) : List Byte × State := ((served s).qSettle 0x20000002000).qcbBytes 0x20000002000
def lqSeen (s : State) : Qcb := qcbParse (dwords 16 (lqRead s).1)

/-- The record is that of zeros, and the block is open to it. -/
def lqOpen (s : State) : Bool :=
  atTurn s && (served s).readCtx 3 == some (List.replicate 8 0) && (served s).region 0x20000002000 == .hbm &&
    (served s).refusal 0x20000002000 0 == none && (lqRead s).2.fe.msixMask == s.fe.msixMask

/-- A waiter that takes the one packet before the front end does. -/
def overtaken : State :=
  { serving (lq 0 1) 0x20000002001 0x20000005000 with
    qwaits := [waiter], parked := [(1, { Hart.fresh 1 with run := .waiting (.queueDeq 0x20000002000), team := 1 })] }

theorem witness_LaunchDequeue :
    atTurn base = false ∧
    (let s := serving (lq 0 1) 0x20000002001 0x40000000000
     atTurn s = true ∧ (served s).readCtx 3 = none) ∧
    (let s := serving (lq 0 1) 0x40000000001 0x20000005000
     atTurn s = true ∧ (served s).readCtx 3 = some (List.replicate 8 0) ∧ (served s).region 0x40000000000 ≠ .hbm) ∧
    (let s := serving (lq 0 1) 0xC20000002001 0x20000005000
     atTurn s = true ∧ (served s).readCtx 3 = some (List.replicate 8 0) ∧ (served s).region (paLow 0xC20000002000) = .hbm ∧
       (served s).refusal 0xC20000002000 (satpAsid 0) ≠ none) ∧
    (let s := serving { lq 0 1 with asid := 7 } 0x20000002001 0x20000005000
     lqOpen s = true ∧ (lqSeen s).asid ≠ satpAsid 0) ∧
    (let s := serving { lq 0 1 with qr := true } 0x20000002001 0x20000005000
     lqOpen s = true ∧ (lqSeen s).asid = satpAsid 0 ∧ (lqSeen s).qr = true) ∧
    (let s := serving (qcb 3 0 1 1 7) 0x20000002001 0x20000005000
     lqOpen s = true ∧ qcbCorrupt (lqRead s).1 = false ∧ (lqSeen s).qr = false ∧ (lqSeen s).esz ≠ 31) := by
  refine ⟨by decide +kernel, by decide +kernel, by decide +kernel, by decide +kernel, by decide +kernel, by decide +kernel, by decide +kernel⟩

theorem witness_LaunchPacket :
    (lqOpen overtaken = true ∧ qcbCorrupt (lqRead overtaken).1 = false ∧ (lqSeen overtaken).asid = satpAsid 0 ∧
      (lqSeen overtaken).esz = 31 ∧ (lqSeen overtaken).avail = 0) ∧
    (∀ b : Bool, let s := serving { lq 0 1 with base := if b then 0x40000000000 else 0x20000003000 } 0x20000002001 0x20000005000
     lqOpen s = true ∧ qcbCorrupt (lqRead s).1 = false ∧ (lqSeen s).esz = 31 ∧ (lqSeen s).avail ≠ 0 ∧
       (lqRead s).2.readable (lqSeen s).take.1 = !b ∧ (b = false → (lqRead s).2.refusal (lqSeen s).take.1 (lqSeen s).asid = none) ∧
       ((lqRead s).2.takeElems (lqSeen s) 1).2.2.fe.msixMask = s.fe.msixMask) := by
  refine ⟨by decide +kernel, by decide +kernel⟩

/-- A second launch in a ring group, or with a co-resident grid, of one team that waits. -/
def grouped (bit : Nat) : State :=
  { placing 0 with launches := base.launch 1 :: [{ base.launch 1 with id := 2, start := none, pkt := packet.set 13 (wputb 0 bit true) }] }

theorem witness_TeamGroups :
    (∀ b : Bool, let s := grouped (if b then 9 else 8)
     (s.team s.sel).phase = .waiting ∧ (s.launch 2).ring = b ∧ (s.launch 2).coRes = !b ∧ (s.tryStart (s.team s.sel)).isSome = true ∧
       s.divertWaits = false ∧ (s.teams.map Team.id).Nodup) ∧
    (let s := { placing 0 with sel := 1 }
     (s.tryStart (s.team s.sel)).isNone = true ∧ (s.team s.sel).phase ≠ .waiting) ∧
    (let s := { placing 0 with cores := [] , glob := 24, teams := [{ t9 with die := none }, { t9 with id := 3, lin := 1 }], sel := 3 }
     (s.tryStart (s.team s.sel)).isSome = true ∧ ∃ o ∈ s.teams, s.handedBefore o (s.team s.sel) = true ∧ (s.tryStart o).isSome = true) ∧
    (let s := { placing 0 with launches := [{ base.launch 1 with id := 2, start := none, expired := true }] }
     (s.tryStart (s.team s.sel)).isNone = true ∧ (s.team s.sel).phase = .waiting ∧ (s.launch 2).coRes = false ∧ (s.launch 2).affinity = 0 ∧
       (s.team s.sel).die = none) ∧
    (base.slackBoost (base.launch 1) = 0 ∧ (base.launch 1).deadline = 0) := by
  refine ⟨by decide +kernel, by decide +kernel, by decide +kernel, by decide +kernel, by decide +kernel⟩

/-- Team 1 in a phase, its hart gone. -/
def teamIn (p : TeamPhase) (killed : Bool) : State :=
  { base with
    sel := 1, hart := { base.hart with run := .vacant }
    teams := base.teams.map (fun t => { t with phase := p, killed := killed }) }

/-- Hart 0 waits for an interrupt, and its context's mark says: since clock 0. -/
def hanging : State :=
  { (on (fun h => { h with run := .waiting .wfi })) with sel := 0, clock := 2 ^ 24, fe := { base.fe with hang := [(0, 1)] } }

theorem witness_EndsOfTeamsAndLaunches :
    (((teamIn .running false).team 1).phase = .running ∧ (teamIn .running false).teamBusy ((teamIn .running false).team 1) = false) ∧
    (({ base with sel := 1 }).team 1).phase = .running ∧ base.teamBusy (base.team 1) = true ∧
    (((teamIn .evicted true).team 1).phase = .evicted ∧ ((teamIn .evicted true).team 1).killed = true) ∧
    (let s : State := { teamIn .ended false with teams := (teamIn .ended false).teams.map (fun (t : Team) => { t with outDone := true }) }
     (s.launch s.sel).ended = false ∧ (s.launch s.sel).expired = false ∧
       ∀ y ∈ s.teams.filter (fun (y : Team) => y.launch == (s.launch s.sel).id), y.outDone = true ∨ y.committed = true) ∧
    (hanging.resident.filter (fun h => h.asid == hanging.sel) = hanging.hart :: [] ∧ fget 0 hanging.fe.hang hanging.sel ≠ 0 ∧
      hanging.hung hanging.sel = true ∧ fget 0 hanging.fe.hang hanging.sel - 1 + 2 ^ 24 ≤ hanging.clock ∧
      hanging.hartOf hanging.hart.gid = hanging.hart) ∧
    base.hung base.sel = false := by
  decide +kernel

/-- Team 1 has ended without its outcome. -/
def pendingOut (out : Bool) : State :=
  { teamIn .ended false with teams := (teamIn .ended false).teams.map (fun (t : Team) => { t with outDone := out }) }

theorem witness_OutcomesAndScrubs :
    (((pendingOut false).team 1).phase = .ended ∧ ((pendingOut false).team 1).outDone = false ∧
      (pendingOut false).eventsDone ((pendingOut false).team 1) = true ∧ ((pendingOut false).team 1).committed = false) ∧
    (((pendingOut true).team 1).phase = .ended ∧ ((pendingOut true).team 1).outDone = true) ∧
    (((teamIn .waiting false).team 1).phase = .waiting ∧ ((teamIn .evicted false).team 1).phase = .evicted ∧
      ((teamIn .evicted false).team 1).killed = false) ∧
    (base.inJob base.sel = false ∧ (base.launch 1).ended = false ∧ (base.launch 1).expired = false ∧
      ¬∀ y ∈ base.teams.filter (fun (y : Team) => y.launch == 1), y.outDone = true ∨ y.committed = true) := by
  decide +kernel

/-- The base launch with a deadline and a budget, at a dtime. -/
def dated (d b clk : Nat) (expired : Bool) : State :=
  { base with
    sel := 1, clock := clk
    launches := base.launches.map (fun l => { l with
      expired := expired, pkt := ((packet.set 7 (BitVec.ofNat 64 d)).set 9 (BitVec.ofNat 64 b)).set 3 0x20000008000 }) }

/-- Hart 0 in wrap-up. -/
def wrapping : State := (dated 128 64 130 true).onHart (fun h => { h with wrapup := true })

theorem witness_DeadlinesAndWrapUp :
    (∀ b : Fin 2, let s := dated 128 b 130 false
     (s.launch s.sel).deadline ≠ 0 ∧ (s.launch s.sel).expired = false ∧ (s.launch s.sel).ended = false ∧
       (s.launch s.sel).deadline ≤ s.dtime / 128 * 128 ∧ (s.launch s.sel).budget = b) ∧
    ¬((base.launch base.sel).deadline ≠ 0) ∧
    (let s := dated 128 64 192 true
     (s.launch s.sel).expired = true ∧ (s.launch s.sel).ended = false ∧ (s.launch s.sel).deadline + (s.launch s.sel).budget ≤ s.dtime) ∧
    (let s := on (fun h => { h with divertDue := some 1 })
     s.hart.divertDue = some 1 ∧ s.hart.mode = .u ∧ s.hart.run = .ready ∧ s.hart.uiAct = false) ∧
    ¬(base.hart.mode = .u ∧ base.hart.wrapup = true) ∧
    (wrapping.hart.mode = .u ∧ wrapping.hart.wrapup = true ∧ wrapping.hart.run = .ready ∧
      wrapping.feRefusal ((wrapping.launch 1).commitPa 0) wrapping.hart.asid = none ∧
      wrapping.feRefusal ((wrapping.launch 1).entryPa 0) wrapping.hart.asid = none ∧
      ((wrapping.discardUnstarted wrapping.coreNo 1).endXfers 1).teamCmds 1 = [] ∧
      ∀ y ∈ ((wrapping.discardUnstarted wrapping.coreNo 1).endXfers 1).xfers, y.team ≠ 1) ∧
    (let s := { wrapping with launches := base.launches }
     s.feRefusal ((s.launch 1).commitPa 0) s.hart.asid = some 0) ∧
    (let s := wrapping.modCore 0 (fun k => { k with queue := [cmd 1 0 .started] })
     ((s.discardUnstarted s.coreNo 1).endXfers 1).teamCmds 1 ≠ []) := by
  decide +kernel

/-- Hart 0 is to divert while it waits. -/
def divertIn (w : Wait) (answer : Option Word) : State := on (fun h => { h with divertDue := some 1, run := .waiting w, answer := answer })

theorem witness_DivertsAndRefusals :
    (((teamIn .evicted false).team 1).phase = .evicted ∧ (base.team 1).phase = .running ∧ base.hart.team = 1 ∧ base.hart.run.isHart = true ∧
      ∀ y ∈ base.teamPlaces 1, y.gid = base.hart.gid → y.run = base.hart.run) ∧
    ((divertIn .wfi none).hart.divertDue = some 1 ∧ (divertIn .wfi none).hart.mode = .u ∧ (divertIn .wfi none).hart.granted .wfi = false ∧ Wait.sent .wfi = false ∧ Wait.retires .wfi = true) ∧
    (Wait.sent (.sem 0 0) = false ∧ Wait.retires (.sem 0 0) = false ∧ (divertIn (.sem 0 0) none).hart.arrivedIn (.sem 0 0) = false ∧
      (divertIn (.sem 0 0) none).hart.granted (.sem 0 0) = false) ∧
    ((divertIn (.mrecv 3) none).onHart (fun h => { h with mbpres := 8 })).hart.granted (.mrecv 3) = true ∧
    (base.savedFirst 1 = false ∧ (teamIn .evicted false).savedFirst 1 = true) ∧
    (Wait.sent (.far [3]) = true ∧ (divertIn (.sem 0 0) (some 0)).hart.answer ≠ none) ∧
    (on (fun h => { h with divertDue := some 1, run := .starting })).hart.divertDue = some 1 ∧ base.hart.divertDue = none ∧
    (on (fun h => { h with divertDue := some 1, uiAct := true, uiepc := 8 })).hart.uiAct = true ∧
    (let s := wrapping.onHart (fun h => { h with run := .waiting .mxfence })
     s.hart.wrapup = true ∧ s.teamCmds s.hart.team = [] ∧ ∀ y ∈ s.xfers, y.team ≠ s.hart.team) ∧
    (let s := { wrapping with launches := wrapping.launches.map (fun (l : Launch) => { l with pkt := l.pkt.set 3 0x1FFFFFFFFF8 }) }
     s.feRefusal ((s.launch 1).commitPa 0) s.hart.asid = none ∧ s.feRefusal ((s.launch 1).entryPa 0) s.hart.asid = some 0) := by
  decide +kernel

theorem length_dwordBytes (l : List Word) : (dwordBytes l).length = 8 * l.length := by
  induction l with
  | nil => rfl
  | cons a l ih =>
    simp only [dwordBytes, List.flatMap_cons, List.length_append, List.length_cons] at *
    rw [ih]; simp [natToBytes, natBytes]; omega

theorem length_recordBytes (f : File Word) : (recordBytes f).length = 4096 := by simp [recordBytes, length_dwordBytes]

/-- Team 1 of the base with shares of nothing and a hart without lane registers, in a phase; a team of higher priority waits. -/
def preempting (p : TeamPhase) (size : Fin 2) : State :=
  { base with
    sel := 1, hart := { base.hart with lalloc := 0, run := if p = .evicted then .vacant else .ready }
    fe := { base.fe with svbase := 0x20100000000, svsize := BitVec.ofNat 64 size }
    teams := (base.teams.map (fun (t : Team) => { t with share := Share.none, phase := p, imageSize := 128 })) ++ [{ t9 with launch := 2 }]
    launches := base.launches ++ [{ base.launch 1 with id := 2, pkt := packet.set 13 9 }] }

/-- The state in which a team's harts have stopped, and its image is made. -/
def stoppedFor (s : State) (y : Team) : State :=
  let gids := (s.teamHarts y.id).map Hart.gid
  gids.foldl State.settleHart ((gids.foldl State.withdrawAt (s.drainLb y.core)).endChunks y.id)

theorem saveTeam_isSome (s : State) (y : Team) : (s.saveTeam y).isSome =
    ((stoppedFor s y).saveRoom ((stoppedFor s y).launch y.launch).asid ((stoppedFor s y).teamImage y).length).isSome := by
  unfold State.saveTeam stoppedFor
  rw [Option.isSome_map]

def halted (size : Fin 2) : State := stoppedFor (preempting .evicting size) ((preempting .evicting size).team 1)

theorem length_records (hs : List Hart) (f : Hart → File Word) : (hs.flatMap (fun h => recordBytes (f h))).length = 4096 * hs.length := by
  induction hs with
  | nil => rfl
  | cons a l ih => simp [List.flatMap_cons, length_recordBytes, ih]; omega

theorem length_image {p : ImageParts} (h1 : p.head.length = 4096) (h2 : p.recs.length = 4096) (h3 : p.lanes.length = 0)
    (h4 : p.shm.length = 0) (h5 : p.act.length = 0) (h6 : p.wgt.length = 0) (h7 : p.acc.length = 0) (h8 : p.engine.length = 0) :
    p.bytes.length = 8192 := by
  simp [ImageParts.bytes, pad4k, h1, h2, h3, h4, h5, h6, h7, h8]

theorem length_teamImage {s : State} {t : Team} (hr : (byNum ((s.teamPlaces t.id).filter (fun h => h.run.isHart))).length = 1)
    (hl : ((byNum ((s.teamPlaces t.id).filter (fun h => h.run.isHart))).flatMap Hart.laneBytes).length = 0)
    (hs : t.share = Share.none) (hc : s.teamCmds t.id = []) (hx : s.xfers = []) : (s.teamImage t).length = 8192 := by
  unfold State.teamImage
  apply length_image
  · simp only [length_recordBytes]
  · simp only [length_records, hr]
  · simpa only using hl
  all_goals simp [hs, hc, hx, Share.none, getBytes]

theorem image_length (n : Fin 2) : ((halted n).teamImage ((preempting .evicting n).team 1)).length = 8192 := by
  apply length_teamImage <;> revert n <;> decide +kernel

/-- The room that the save finds. -/
theorem halted_room (n : Fin 2) : (halted n).saveRoom ((halted n).launch ((preempting .evicting n).team 1).launch).asid
    ((halted n).teamImage ((preempting .evicting n).team 1)).length = if n = 0 then none else some 0 := by
  rw [image_length]; revert n; decide +kernel

theorem preempting_saves (n : Fin 2) :
    ((preempting .evicting n).saveAll [(preempting .evicting n).team 1]).isSome = decide (n ≠ 0) := by
  have h := saveTeam_isSome (preempting .evicting n) ((preempting .evicting n).team 1)
  rw [← halted, halted_room] at h
  rw [State.saveAll]
  generalize (preempting .evicting n).saveTeam ((preempting .evicting n).team 1) = o at h ⊢
  obtain ⟨⟨_⟩, _⟩ | ⟨⟨_⟩, _⟩ : n = 0 ∨ n = 1 := by omega
  all_goals cases o <;> simp_all [State.saveAll]

/-- Another team is evicted and waits for its divert. -/
def diverting : State :=
  { preempting .evicted 1 with teams := (preempting .evicted 1).teams ++ [{ (preempting .evicted 1).team 1 with id := 3, forDivert := true }] }

theorem witness_PreemptionAndRestore :
    (let s := preempting .running 1
     (s.team s.sel).phase = .running ∧ (s.team s.sel).wrapped = false ∧ s.evictable (s.team s.sel) = true ∧
       ∀ y ∈ s.evictSet (s.team s.sel), s.evictable y = true) ∧
    (let s := preempting .running 0
     (s.team s.sel).phase = .running ∧ ∃ y ∈ s.evictSet (s.team s.sel), s.evictable y = false) ∧
    (let s := (preempting .evicting 1).onHart (fun h => { h with mode := .s })
     (s.team s.sel).phase = .evicting ∧ ∃ y ∈ s.evictSet (s.team s.sel), s.allStopped y = false) ∧
    (∀ n : Fin 2, let s := preempting .evicting n
      s.evictSet (s.team s.sel) = [s.team 1] ∧ (s.team s.sel).phase = .evicting ∧ s.allStopped (s.team 1) = true) ∧
    (∀ b : Bool, let s := if b then diverting else preempting .evicted 1
     let x := s.team s.sel
     x.phase = .evicted ∧ x.killed = false ∧ s.restoreCores x ≠ [] ∧ x.forDivert = false ∧ s.divertWaits = b) ∧
    (let s := { diverting with sel := 3 }
     (s.team s.sel).phase = .evicted ∧ (s.team s.sel).forDivert = true) ∧
    (let s := { preempting .evicted 1 with firm := { (preempting .evicted 1).firm with keys := [(1, { KeySlot.fresh with valid := true })] } }
     (s.team s.sel).phase = .evicted ∧ (s.team s.sel).killed = false ∧ s.restoreCores (s.team s.sel) = []) ∧
    (Hart.fresh 0).lalloc < 2 ^ 64 := by
  refine ⟨by decide +kernel, by decide +kernel, by decide +kernel, by decide +kernel, by decide +kernel, by decide +kernel, by decide +kernel, by decide⟩

/-- A Polder command in execution whose block stands at 0x20000004000, with key slot 3 as given. -/
def polder (b : List Word) (o : KeySlot) : State :=
  { base with
    mem := base.mem ++ block 0x20000004000 b
    firm := { base.firm with pldState := 1, pldBlk := 0x20000004000, keys := [(3, o)] } }
def created : KeySlot := ⟨9, true, false, false, 4, List.replicate 32 0, false, false⟩

def createWords : List Word := [0x00090301, 0, 0, 0, 0, 0, 0, 0]
def extendWords (pa : Word) : List Word := [0x00090302, pa, 0, 0, 0, 0, 0, 0]
def attestWords (n : Word) : List Word := [0x00090303, 0x20000005000, n, 0, 1, 2, 3, 4]

/-- A job of slot 3 on core 5, one page, no shared memory. -/
def job : Job := ⟨3, 9, [5], [(0x20000010000, 1)], []⟩
def fulling (st done cdone : Nat) (j : Option Job) : State :=
  { base with
    sel := 0
    firm := { base.firm with keys := [(3, { created with zero := true, flushed := true })] }
    dies := [(0, { base.die 0 with fuller := ⟨0x20000008000, st, false, 3, done, 1, cdone, j⟩ })] }

theorem witness_Refusals :
    (2 ^ 52 ≤ 2 ^ 52 ∧ base.region 0x40000000000 = .nowhere) ∧
    (base.region (paLow 0x20000001000) = .hbm ∧ paKey 0x20000001000 = 0 ∧ ¬∃ e ∈ base.fences, True) ∧
    (base.region (paLow 0xC20000001000) = .hbm ∧ paKey 0xC20000001000 ≠ 0 ∧ (base.keySlot 3).valid = false) ∧
    ((polder [] created).keySlot (paKey 0xC20000001000) = created ∧ created.valid = true ∧ created.asid = 9) ∧
    (∃ e ∈ (fulling 2 0 0 (some job)).fences, ¬(e.1 = true ∧ e.2.asid = 9) ∧ ∃ r ∈ e.2.ranges, r.1 ≤ 0x20000010000 ∧
      0x20000010000 < r.1 + 4096 * r.2) ∧
    (base.region (paLow 0xCE0000000000) = .coreMem 0 0 ∧ paKey 0xCE0000000000 ≠ 0) ∧
    (∀ b : Bool, let s := base.modCore 0 (fun k => { k with slot := if b then 3 else 0 })
     s.region 0xE0000000000 = .coreMem 0 0 ∧ paKey 0xE0000000000 = 0 ∧ decide ((s.core 0).slot ≠ 0) = b ∧ (s.keySlot 3).valid = false) ∧
    (({ base with ports := [(0, { Port.fresh with units := 1 })] }).region 0x100000000000 = .far 0 0 ∧ paKey 0x100000000000 = 0) ∧
    (base.region 0x200000000000 = .host 0 ∧ paKey 0x200000000000 = 0) := by
  decide +kernel

theorem witness_PolderCreate :
    (base.pldOp 1 = none ∧ base.firm.pldState ≠ 1) ∧
    (let b := createWords.set 3 1
     (polder b KeySlot.fresh).pldOp 1 = some b ∧ pldFieldsOk b = false) ∧
    (∀ n : Fin 4, let o := if n = 0 then created else { KeySlot.fresh with busy := n == 1, zero := n == 2 }
     let s := polder createWords o
     let s := if n = 3 then { s with dies := (fulling 2 0 0 (some job)).dies } else s
     s.pldOp 1 = some createWords ∧ pldFieldsOk createWords = true ∧
      ((s.keySlot 3).valid = true ∨ ((s.keySlot 3).busy = true ∨ ∃ j ∈ s.jobs, j.slot = 3) ∨ (s.keySlot 3).zero = true)) ∧
    (∀ b : Bool, let s := (polder createWords KeySlot.fresh).modFirm (fun f => { f with keys := if b then [(5, created)] else [] })
     s.pldOp 1 = some createWords ∧ pldSlot createWords = 3 ∧ (s.keySlot 3).valid = false ∧ (s.keySlot 3).busy = false ∧ s.jobs = [] ∧
      (s.keySlot 3).zero = false ∧ decide (s.slotOf (wfield (dw createWords 0) 16 16) ≠ 0) = b) := by
  refine ⟨by decide +kernel, by decide +kernel, by decide +kernel, by decide +kernel⟩

theorem witness_PolderExtend :
    (let b := (extendWords 0x0000C20000001000).set 3 1
     (polder b created).pldOp 2 = some b ∧ pldFieldsOk b = false) ∧
    (let b := extendWords 0x0000C20000001000
     (polder b KeySlot.fresh).pldOp 2 = some b ∧ pldFieldsOk b = true ∧ ((polder b KeySlot.fresh).keySlot 3).valid = false) ∧
    (let b := extendWords 0x20000001000
     (polder b created).pldOp 2 = some b ∧ pldFieldsOk b = true ∧ ((polder b created).keySlot 3).valid = true ∧
       paKey (dw b 1).toNat ≠ pldSlot b) ∧
    (∀ c : Bool, let b := (extendWords 0x0000C20000001000).set 2 4096
     let s := polder b { created with launched := c }
     let pa := (dw b 1).toNat
     s.pldOp 2 = some b ∧ pldFieldsOk b = true ∧ (s.keySlot 3).valid = true ∧ pa % 4096 = 0 ∧ pa < 2 ^ 52 ∧ paKey pa = pldSlot b ∧
       (dw b 2).toNat = 4096 ∧ s.inHbmAll pa 4096 = true ∧ s.refusal pa created.asid = none ∧ (s.keySlot 3).launched = c) := by
  refine ⟨by decide +kernel, by decide +kernel, by decide +kernel, by decide +kernel⟩

theorem witness_PolderAttest :
    (let b := (attestWords 1224).set 3 1
     (polder b created).pldOp 3 = some b ∧ pldFieldsOk b = false) ∧
    (let b := attestWords 1224
     (polder b KeySlot.fresh).pldOp 3 = some b ∧ pldFieldsOk b = true ∧ ((polder b KeySlot.fresh).keySlot 3).valid = false) ∧
    (∀ c : Fin 3, let b := (attestWords (if c = 0 then 1223 else 1224)).set 1 (if c = 1 then 0x40000000000 else 0x20000005000)
     let s := polder b created
     s.pldOp 3 = some b ∧ pldFieldsOk b = true ∧ (s.keySlot (pldSlot b)).valid = true ∧
       s.fwCan (dw b 1).toNat 1224 = decide (c ≠ 1) ∧ decide ((dw b 2).toNat < 1224) = decide (c = 0)) := by
  refine ⟨by decide +kernel, by decide +kernel, by decide +kernel⟩

theorem witness_PolderCommands :
    (let s := (polder createWords created).modFirm (fun f => { f with pldRun := true })
     s.firm.pldState = 1 ∧ s.firm.pldRun = true) ∧
    (let s := polder [9, 0, 0, 0, 0, 0, 0, 0] created
     s.firm.pldState = 1 ∧ s.firm.pldRun = false ∧ s.pldOp 1 = none ∧ s.pldOp 2 = none ∧ s.pldOp 3 = none) ∧
    (let s := polder createWords created
     s.firm.pldRun = false ∧ s.pldOp 1 ≠ none ∧ base.firm.pldState ≠ 1) ∧
    ((base.modCore 5 (fun k => { k with busy := true })).core 5).busy = true ∧
    (let s := base.modFirm (fun f => { f with journal := [⟨0, job, 0⟩] })
     ∃ e ∈ s.firm.journal, 5 ∈ e.job.cores) ∧
    ((base.core 5).busy = false ∧ base.firm.journal = [] ∧ (base.keySlot (wfield 3 0 6)).valid = false ∧ wfield 3 0 6 ≠ 0 ∧
      ∃ y ∈ base.teams, y.core = 0 ∧ y.phase = .running) ∧
    (let s := polder createWords created
     (s.core 5).busy = false ∧ s.firm.journal = [] ∧ (s.keySlot (wfield 3 0 6)).valid = true ∧
       ¬∃ y ∈ s.teams, y.core = 5 ∧ (y.phase = .running ∨ y.phase = .evicting)) ∧
    (wbit 0x103 8 = true ∧ wfield 0x103 0 6 ≠ 0 ∧ wbit 3 8 = false ∧ wfield 0x100 0 6 = 0) ∧
    (base.firm.kfDone = true ∧ (base.modFirm (fun f => { f with kfDone := false })).firm.kfDone = false) ∧
    base.armedFor 3 = false ∧ ((fulling 2 0 0 (some job)).armedFor 3 = true ∧ ((fulling 2 0 0 (some job)).keySlot 3).flushed = true) ∧
    (let s := (fulling 2 0 0 (some job)).modFirm (fun f => { f with keys := [(3, created)] })
     s.armedFor 3 = true ∧ (s.keySlot 3).flushed = false) := by
  decide +kernel

/-- A descriptor of that job. -/
def jobWords : List Word := [0x0000000000010103, 9, 5] ++ List.replicate 7 0 ++ [0x20000010000, 1]

/-- Armed through a descriptor at 0x20000008000. -/
def arming (b : List Word) : State :=
  { fulling 0 0 0 none with
    mem := base.mem ++ block 0x20000008000 b, cores := [(5, { base.core 5 with slot := 3 })]
    firm := { base.firm with keys := [(3, created)] } }

/-- A job of one way of core 5 and a page. -/
def wayJob : Job := { job with ways := [(5, 1)] }

theorem witness_FullerJobs :
    (((arming jobWords).fuller 0).state = 0 ∧ ((fulling 5 1 1 none).fuller 0).state = 5 ∧ ((fulling 2 0 0 (some job)).fuller 0).state = 2) ∧
    (((fulling 1 0 0 (some { job with asid := 0 })).remains 0 = true ∧ ((fulling 1 0 0 (some job)).fuller 0).state = 1 ∧
      (fulling 1 0 0 (some job)).remains job.asid = false ∧ ∀ h ∈ (fulling 1 0 0 (some job)).resident, h.checked = false) ∧
      ∃ h ∈ (inWait (.snoop 0) (fulling 1 0 0 (some job))).resident, h.checked = true) ∧
    (((fulling 2 0 0 (some job)).fuller 0).state = 2 ∧ ((fulling 2 0 0 (some job)).fuller 0).slot = 3 ∧
      ((fulling 2 0 0 (some job)).keySlot 3).zero = true) ∧
    (((fulling 1 0 0 (some job)).fuller 0).state ≠ 2 ∧ ((fulling 1 0 0 none).fuller 0).job = none) ∧
    (let f := (fulling 3 0 0 (some job)).fuller 0
     f.job = some job ∧ f.state = 3 ∧ f.cdone < job.cores.length ∧ job.unitsTo (f.cdone + 1) ≤ f.done) ∧
    (let f := (fulling 4 0 1 (some job)).fuller 0
     f.state = 4 ∧ ¬(f.cdone < job.cores.length) ∧ f.done < f.total ∧ job.shmUnits ≤ f.done) ∧
    (let f := (fulling 3 0 0 (some wayJob)).fuller 0
     ¬(wayJob.unitsTo (f.cdone + 1) ≤ f.done) ∧ f.done < f.total ∧ f.done < wayJob.shmUnits) ∧
    Claims.Quiet (fulling 4 0 1 (some job)) ∧
    (let f := (fulling 4 1 1 (some job)).fuller 0
     f.done = f.total ∧ f.total ≤ f.done ∧ f.cdone = job.cores.length) ∧
    ((fulling 3 0 0 (some job)).inJob 5 = true ∧ (fulling 3 0 0 (some job)).inJob 6 = false) := by
  refine ⟨by decide, by decide, by decide, by decide, by decide, by decide, by decide, ⟨rfl, rfl, rfl, rfl, rfl, rfl, rfl, cores_quiet (by decide)⟩, by decide, by decide⟩

theorem witness_FullerArm :
    (arming jobWords).jobOf ((arming jobWords).jobBlock ((arming jobWords).fuller 0).desc.toNat).1 = some job := by
  decide +kernel
theorem witness_FullerArmRefused :
    (arming []).jobOf ((arming []).jobBlock ((arming []).fuller 0).desc.toNat).1 = none := by
  decide +kernel

/-- The debug state, and hart 0 halted or not. -/
def debugged (d : BitVec 2) (halted : Bool) : State :=
  (base.modFirm (fun f => { f with dbg := d })).onHart (fun h => { h with dbg := { h.dbg with halted := halted, dpc := 0x20000000010 } })

/-- Hart 0 on a core of Polder slot 3. -/
def guarded : State := base.modCore 0 (fun k => { k with slot := 3 })

theorem witness_DebugOperations :
    (1 : BitVec 2) ≠ 3 ∧ base.firm.dbg ≠ 2 ∧ guarded.polderHart guarded.hart.gid = true ∧
    (∀ b : Bool, (debugged 2 b).firm.dbg = 2 ∧ (debugged 2 b).polderHart (debugged 2 b).hart.gid = false ∧ (debugged 2 b).hart.dbg.halted = b ∧
      (debugged 2 b).hart.run.isHart = true ∧ (debugged 2 b).hart.atBoundary = true ∧
      (debugged 2 b).hartOf (debugged 2 b).hart.gid = (debugged 2 b).hart) ∧
    (inWait (.far [0]) (debugged 2 false)).hart.atBoundary = false ∧
    (0x1000 ≤ 0x101F ∧ 0x101F < 0x1020 ∧ 0x1020 ≤ 0x103F ∧ 0x103F < 0x1040) ∧
    (let s := debugged 2 false
     0x20000001000 % 8 = 0 ∧ s.polderBus 0x20000001000 = false ∧ s.refusal 0x20000001000 0 = none ∧
       s.region (paLow 0x20000001000) = .hbm ∧ s.isLost (paLow 0x20000001000) = false) ∧
    (guarded.polderBus 0xE0000000000 = true ∧ base.refusal 0x40000000000 0 ≠ none) ∧
    (base.region (paLow 0xF0000000000) = .regs 0 ∧ base.polderBus 0xF0000000000 = false) := by
  decide +kernel

theorem witness_DebugAndPower :
    ((base.core 5).power ≠ .off ∧ ((base.modCore 5 (fun k => { k with power := .off })).core 5).power = .off) ∧
    (base.inJob 5 = false ∧ (fulling 3 0 0 (some job)).inJob 5 = true) ∧ base.coreHolds 5 = false ∧ base.coreHolds 0 = true ∧
    (base.modFirm (fun f => { f with power := .standby })).firm.power = .standby ∧
    (State.reset.firm.power = .active ∧ State.reset.jobs = [] ∧
      ∀ y ∈ State.reset.teams, y.phase ≠ .running ∧ y.phase ≠ .evicting ∧ y.phase ≠ .evicted) ∧ ¬base.jobs ≠ [] ∧
    (∃ y ∈ base.teams, y.phase = .running) ∧
    (∀ n : Fin 8, let f := { State.reset.firm with step := n }
     f.power = .active ∧ f.fail = false ∧ f.step + 1 ≤ 8 ∧ f.journal = []) ∧
    ¬(base.firm.step + 1 ≤ 8) ∧ ({ State.reset.firm with step := 0x0E }).step = 0x0E ∧ imageOk [] = false := by
  decide

/-- Device time: its control word, state and slewing. -/
def timed (ctl : Word) (st clk : Nat) : State := { State.reset with time := { State.reset.time with tmctl := ctl, state := st }, clock := clk }

theorem witness_DeviceTime :
    (wfield (timed 1 0 0).time.tmctl 0 2 = 1 ∧ (1000000 : Int) < ((2000000#64).toNat + (7#64).toNat : Nat) - ((timed 1 0 0).dtime : Int) ∧
      ((5#64).toNat + (7#64).toNat : Nat) - ((timed 1 0 0).dtime : Int) ≤ 1000000) ∧
    (wfield (timed 2 0 0).time.tmctl 0 2 = 2 ∧ wfield (timed 0 0 0).time.tmctl 0 2 ≠ 1 ∧ wfield (timed 0 0 0).time.tmctl 0 2 ≠ 2) ∧
    (wfield (timed 0 0 0).time.tmctl 0 2 = 0 ∧ ∀ l ∈ (timed 0 0 0).launches, l.ended = true ∨ l.deadline = 0) ∧
    (∃ l ∈ (dated 128 64 0 false).launches, l.ended = false ∧ l.deadline ≠ 0) ∧
    (let s := timed 2 2 (10 ^ 9)
     wfield s.time.tmctl 0 2 = 2 ∧ s.time.state = 2 ∧ s.time.last + 10 ^ 9 ≤ s.clock) ∧
    ((timed 0 0 0).time.state ≠ 1 ∧ (timed 0 0 0).time.state ≠ 2) ∧
    (wbit (timed 0x10000 0 1000000000).time.tmctl 16 = true ∧ ((timed 0x10000 0 1000000000).dtime + 8) % 10 ^ 9 ≤ 16 ∧
      ((timed 0x10000 0 1000000000).dtime + 8) / 10 ^ 9 ≠ (timed 0x10000 0 1000000000).time.pps) ∧
    ((timed 0 0 0).dtime + 8) / 10 ^ 9 = (timed 0 0 0).time.pps ∧ State.reset.time.slew = 0 ∧ State.reset.time.frac < 5000 ∧
    (wfield 3 0 2 = 3 ∧ wfield 1 0 2 = 1) := by
  decide

/-- Port 3 in a state, and the selection on it. -/
def porting (st : Nat) (link : Bool) : State :=
  { base with sel := 3, ports := [(3, { Port.fresh with state := st, link := link, online := st == 1, units := 1 })] }

/-- A far access of hart 0 held at port 3 since clock 0. -/
def held : State :=
  { (porting 1 true) with hart := { base.hart with run := .waiting (.far [3]) }, clock := 50000 }

/-- A host that has CXL and a decoder over the first granule of the pool of all stacks. -/
def hosted : State := { base with cxl := true, hdm := [(0x20000000000, 2 ^ 30)] }

theorem witness_HostAccesses :
    ((0 < 64 ∧ 0x20000001040 % 128 + 64 ≤ 128 ∧ ¬(0x20000001040 % 128 + 65 ≤ 128)) ∧
      (hosted.cxl = true ∧ hosted.refusal 0x20000001040 0 = none ∧ paKey 0x20000001040 = 0 ∧ hosted.region (paLow 0x20000001040) = .hbm ∧
        hosted.isLost (paLow 0x20000001040) = false ∧ ∃ r ∈ hosted.hdm, r.1 ≤ 0x20000001040 ∧ 0x20000001040 < r.1 + r.2)) ∧
    ({ base with cxl := false }).cxl = false ∧ (∀ r ∈ hosted.hdm, ¬0x20040001000 < r.1 + r.2) ∧
    (let s := { hosted with poison := [lineOf 0x20000001000] }
     s.isLost (paLow 0x20000001000) = true ∧ s.region (paLow 0x20000001000) = .hbm ∧ s.refusal 0x20000001000 0 = none ∧
       (List.replicate 128 (1 : Byte)).length = 128 ∧ 0x20000001000 % 128 + 128 ≤ 128 ∧ (List.replicate 8 (1 : Byte)).length ≠ 128) ∧
    (hosted.region (paLow 0x200000000000) = .host 0 ∧ 0x200000000000 % 128 + 8 ≤ 128) ∧
    (base.refusal (3 * 2 ^ 46 + 0x20000001000) 0 ≠ none ∧ (3 * 2 ^ 46 + 0x20000001000) % 128 + 8 ≤ 128) ∧
    base.sel ∉ base.hostMod := by
  decide +kernel

theorem witness_HostAccesses_quiet : Claims.Quiet hosted := ⟨rfl, rfl, rfl, rfl, rfl, rfl, rfl, cores_quiet (by decide)⟩

theorem witness_OutsideRegisters :
    base.firm.step ≠ 0x0E ∧ (base.modFirm (fun f => { f with step := 0x0E })).firm.step = 0x0E ∧
    (0xF0000000004 < 2 ^ 52 ∧ 0xF0000000004 % 8 ≠ 0 ∧ paKey 0xCF0000000000 ≠ 0) ∧
    (base.region 0xF0000000000 = .regs 0 ∧ base.region 0xF00FFFFFFF8 = .regs 0xFFFFFFF8 ∧ regAt 0xFFFFFFF8 = .none) ∧
    base.region 0xF8000000000 = .notify 0 ∧
    (let s := base.modCore 767 (fun k => { k with state := 1 })
     (767 : Nat) < 768 ∧ (s.core 767).state = 1 ∧ wfield 0x10000 16 3 = 1 ∧ 767 / 192 = 3) := by
  decide +kernel

theorem witness_HostAndPorts :
    ((3 : Nat) < 8 ∧ ((porting 2 true).port 3).link = true ∧ wbit 1 0 = true ∧ wbit 0 0 = false) ∧
    (((porting 1 true).port 3).state = 1 ∧ ((porting 1 true).port 3).link = true ∧ ∀ h ∈ (porting 1 true).resident, h.farHeld 3 = false) ∧
    (∃ h ∈ held.resident, h.farHeld 3 = true) ∧
    ((porting 0 false).port 3).link = false ∧ (((porting 2 true).port (porting 2 true).sel).state ≠ 1) ∧
    (held.sel < 8 ∧ (held.port held.sel).state = 1 ∧ ∃ h ∈ held.resident, h.farHeld held.sel = true ∧
      h.waitFrom + 1000 * (held.port held.sel).tmo ≤ held.clock) ∧
    (let s := { porting 1 true with farBuf := [⟨3, 0, 0, 0, 0x160000000000, [1]⟩], clock := 50000 }
     ∃ e ∈ s.farBuf, e.port = s.sel ∧ e.since + 1000 * (s.port s.sel).tmo ≤ s.clock) ∧
    ((porting 3 false).port 3).state = 3 ∧
    (let s := { held with sel := 0 }
     (∃ q, q < 9 ∧ (s.hartOf s.sel).farHeld q = true)) ∧ (∀ q, q < 9 → base.hart.farHeld q = false) := by
  decide +kernel

theorem witness_EncodeDecode : (Instr.vaddi p0 0xFFFFF 1 1).wf = true := by decide

/-- The base state before the step, and what its fetch gives. -/
theorem witness_StepRunsDecoded :
    let u := { base with agenda := [] }
    base.agenda = .run :: [] ∧ base.stopped = false ∧ u.runnable u.hart = true ∧ u.boundary = none ∧ u.hart.executes = true ∧
      u.trigHit .fetch u.hart.pc = false ∧
      u.fetch = (.ok (0x13, 4), (u.fetch).2) ∧ decodeBits 0x13 = .instr (.standardInstruction (.aluImm .addi 0 0 0)) 0x13 4 ∧
      u.hart.fenceSeq = u.wlog.length ∧ (∀ k, k < 8 → u.region (paLow (0x20000000000 + k)) = .hbm) ∧
      instrLen (BitVec.ofNat 16 (Claims.bitsAt u 0x20000000000 2)) = 4 := by
  refine ⟨by rfl, by rfl, by decide, by decide, by decide, by decide, ?_, by decide, by rfl, by decide, by decide⟩
  rfl

theorem refusal_l2 (s : State) (v : List L2Line) (pa a : Nat) : ({ s with l2 := v }).refusal pa a = s.refusal pa a := rfl
theorem region_l2 (s : State) (v : List L2Line) (pa : Nat) : ({ s with l2 := v }).region pa = s.region pa := rfl
theorem isLost_l2 (s : State) (v : List L2Line) (pa : Nat) : ({ s with l2 := v }).isLost pa = s.isLost pa := rfl

/-- Without translation a fetch from HBM is open, whatever the home slices hold. -/
theorem fetchPa_open {s : State} {va : Word} (v : List L2Line) (hb : satpMode (s.hart.agent s.hart.mode).satp = 0)
    (hp : s.hart.pmpOk s.hart.mode .fetch va.toNat = true) (hr : s.refusal va.toNat s.hart.asid = none)
    (hg : s.region (paLow va.toNat) = .hbm) (hl : s.isLost (paLow va.toNat) = false) :
    ({ s with l2 := v }).fetchPa va = (.ok va.toNat, { s with l2 := v }) := by
  have ht : ({ s with l2 := v }).translateAs s.hart ({ s with l2 := v }).clusterNo (s.hart.agent s.hart.mode) .fetch va =
      (.ok ⟨va.toNat, 0, 64⟩, { s with l2 := v }) := by
    unfold State.translateAs
    rw [if_pos (by simp [hb])]
  unfold State.fetchPa
  simp only [ht, hp, refusal_l2, region_l2, isLost_l2, hr, hg, hl]
  simp

/-- The base state on its turn. -/
def turn : State := { base with agenda := [] }

theorem witness_StepRunsDecoded_fetch :
    Claims.Quiet turn ∧ ∀ k v, k < 4 → ({ turn with l2 := v }).fetchPa (turn.hart.pc + BitVec.ofNat 64 (2 * k)) =
      (.ok (0x20000000000 + 2 * k), { turn with l2 := v }) := by
  refine ⟨⟨rfl, rfl, rfl, rfl, rfl, rfl, rfl, cores_quiet (by decide)⟩, fun k v hk => ?_⟩
  match k, hk with
  | 0, _ => exact fetchPa_open v (by decide) (by decide) (by decide) (by decide) (by decide)
  | 1, _ => exact fetchPa_open v (by decide) (by decide) (by decide) (by decide) (by decide)
  | 2, _ => exact fetchPa_open v (by decide) (by decide) (by decide) (by decide) (by decide)
  | 3, _ => exact fetchPa_open v (by decide) (by decide) (by decide) (by decide) (by decide)

/-- An illegal halfword, and a lane word at an address that is no multiple of 4. -/
theorem witness_StepRunsDecoded_rejects :
    (∃ r b n, decodeBits 0 = .reject r b n) ∧
    (let u := { (State.reset.withFetchWord 64 0x3F) with agenda := [] }
     instrLen (BitVec.ofNat 16 (Claims.bitsAt u 0x20000000000 2)) = 8) ∧ ((0x20000000002 : Word).toNat % 4 ≠ 0) := by
  refine ⟨⟨_, _, _, rfl⟩, by decide, by decide⟩

/-- The other moves: an interrupt at the boundary, a hart that halts or waits, a trigger, a fault of the fetch, an event, a focus, a stop. -/
theorem witness_StepRunsDecoded_moves :
    ((interrupted 1).runnable (interrupted 1).hart = true ∧ (interrupted 1).boundary.isSome = true) ∧
    (let u := inWait (.sem 0 0) base
     u.runnable u.hart = true ∧ u.boundary = none ∧ u.hart.executes = false) ∧
    (let u := debugged 2 true
     u.runnable u.hart = false) ∧
    (let u := on (fun h => { h with pc := 0x40000000000 })
     u.boundary = none ∧ (errOf u.fetch).isSome = true) ∧
    (Move.event 0 .moduleReset).restarts = true ∧ (Move.run).restarts = false := by
  decide +kernel

theorem witness_StepKeepsMemoryCanonical : Memory.wf base.mem = true ∧ (stepped base).isSome = true := by decide

/-- A value rounded past the largest finite one or not, a product, a sum that vanishes, a dot product and a root: operands of the rounding
statement. -/
theorem witness_FloatRounding :
    (Rm.rne ≠ .dyn ∧ (3 : Nat) ≠ 0) ∧
    (fin .f32 0x3F800000 = .fin false 0x800000 (-23) ∧ fin .f32 0xBF800000 = .fin true 0x800000 (-23) ∧ fin .f32 0 = .fin false 0 (-149)) ∧
    (Fmt.bits .e4m3 * 4 = 32 ∧ Fmt.bits .f16 * 2 = 32 ∧ (∀ j < 4, fin .e4m3 ((0x38383838#32).toNat / 2 ^ (8 * j) % 2 ^ 8) = .fin false 8 (-3)) ∧
      (∀ j < 2, fin .f16 ((0x3C003C00#32).toNat / 2 ^ (16 * j) % 2 ^ 16) = .fin false 0x400 (-10))) ∧
    (∃ p q : ℚ, Claims.ratOf (fval .f32 0x3F800000) = some p ∧ Claims.ratOf (fval .f32 0xBF800000) = some q ∧ 0 < p ∧ p * q ≠ 0 ∧
      p + q = 0 ∧ p ≠ 0 ∧ p + -q ≠ 0) := by
  refine ⟨by decide, by decide, by decide, 1, -1, ratOf_samples.1, ratOf_samples.2.2.2.1, ?_⟩
  norm_num

/-- A finite source, a zero, an infinity and a NaN; a float type to a float type, to an integer one, and back; integer types. -/
theorem witness_ConversionValues :
    (Tc.fmt? .f32 = some .f32 ∧ Tc.fmt? .e4m3 = some .e4m3 ∧ Tc.fmt? .s8 = none) ∧
    (∃ q : ℚ, Claims.ratOf (fval .f32 0xBF800000) = some q ∧ q ≠ 0) ∧ (fval .f32 0x80000000).isZero = true ∧
    fval .f32 0xFF800000 = .inf true ∧ (fval .f32 0x7FC00000).isNan = true ∧
    ((Tc.ifmt .s8).val 0x80 ≠ 0 ∧ (Tc.ifmt .s8).val 0 = 0) := by
  refine ⟨by decide, ⟨-1, ratOf_samples.2.2.2.1, by norm_num⟩, by decide, by decide, by decide, by decide⟩

/-- 1 lies between two values of each narrow type, and 128 is past the largest e2m1. -/
theorem witness_StochasticRounding :
    (∃ q : ℚ, Claims.ratOf (fval .f32 0x3F800000) = some q ∧ q ≠ 0 ∧ 2 < Fmt.maxFinite .e2m1 ∧ Claims.magVal .e2m1 2 ≤ |q| ∧
      |q| < Claims.magVal .e2m1 (2 + 1)) ∧
    ∃ q : ℚ, Claims.ratOf (fval .f32 0x43000000) = some q ∧
      2 * Claims.magVal .e2m1 (Fmt.maxFinite .e2m1) - Claims.magVal .e2m1 (Fmt.maxFinite .e2m1 - 1) ≤ |q| := by
  have h2 : Claims.magVal .e2m1 2 = 1 := by
    rw [Claims.magVal, show fval .e2m1 2 = .fin false 2 (-1) by decide]; norm_num [Claims.ratOf]
  have h3 : Claims.magVal .e2m1 (2 + 1) = 3 / 2 := by
    rw [Claims.magVal, show fval .e2m1 (2 + 1) = .fin false 3 (-1) by decide]; norm_num [Claims.ratOf]
  have h7 : Claims.magVal .e2m1 (Fmt.maxFinite .e2m1) = 6 := by
    rw [Claims.magVal, show fval .e2m1 (Fmt.maxFinite .e2m1) = .fin false 3 1 by decide]; norm_num [Claims.ratOf]
  have h6 : Claims.magVal .e2m1 (Fmt.maxFinite .e2m1 - 1) = 4 := by
    rw [Claims.magVal, show fval .e2m1 (Fmt.maxFinite .e2m1 - 1) = .fin false 2 1 by decide]; norm_num [Claims.ratOf]
  rw [h2, h3, h7, h6]
  refine ⟨⟨1, ratOf_samples.1, ?_⟩, 128, ratOf_samples.2.2.1, ?_⟩
  · rw [show Fmt.maxFinite .e2m1 = 7 by decide]; norm_num
  · norm_num

/-- Two ordered values, infinities, and a NaN. -/
theorem witness_CompareValues :
    Cond.isInt .lt = true ∧ (Claims.ExtIs (fval .f32 0xFF800000) ⊥ ∧ ∃ p, Claims.ExtIs (fval .f32 0x3F800000) p) ∧
    ((fval .f32 0x7FC00000).isNan = true ∨ (fval .f32 0).isNan = true) := by
  have h (x : FVal) (hx : x.isNan = false) : ∃ p, Claims.ExtIs x p := by
    cases x <;> first | exact ⟨_, rfl⟩ | cases hx
  refine ⟨by decide, ⟨?_, h _ (by decide)⟩, by decide⟩
  rw [show fval .f32 0xFF800000 = .inf true by decide]; rfl

/-- A fraction, 3 written as an integer, and a quotient by zero. -/
theorem witness_StandardFloatValues :
    (Rm.rup ≠ .dyn ∧ fval .f64 0x3FF0000000000000 = .fin false 0x10000000000000 (-52) ∧ fval .f64 0 = .fin false 0 (-1074) ∧
      fval .f64 0x7FF0000000000000 = .inf false ∧ (fval .f64 0x7FF8000000000000).isNan = true ∧ (fval .f32 0x80000000).isZero = true) ∧
    ((intFmt .w).n = 32 ∧ (intFmt .lu).n = 64) ∧ (0x7FF0000000000000 : Nat) < 2 ^ 64 ∧ (5 : Word) ≠ 0 ∧
    ((5 : Word).setWidth 32).toInt ≠ 0 ∧ ((0x100000000 : Word).setWidth 32).toInt = 0 ∧ (0x1F : BitVec 6).toNat < 32 := by decide

/-- A pending exit of level 1 at the next instruction, and one of level 0; a count written with `csrrw` or with bits set. -/
theorem witness_LoopEndWrites :
    (let h := { looped 5 0 with lpxe1 := (looped 5 0).pc + 4 }
     h.mode = .u ∧ h.uiAct = false ∧ h.lpxe1 = h.pc + BitVec.ofNat 64 h.ilen ∧ h.pc + BitVec.ofNat 64 h.ilen ≠ 0) ∧
    (let h := { looped 5 0 with lpxe0 := (looped 5 0).pc + 4 }
     h.lpxe0 = h.pc + BitVec.ofNat 64 h.ilen ∧ h.lpcnt0 ≠ 0 ∧ h.lpend0.toNat ≤ (h.pc + BitVec.ofNat 64 h.ilen).toNat) ∧
    csrWrites .rw 5 = true ∧ csrWrites .rs 6 = true ∧ csrWrites .rc 1 = true := by decide

/-- Events out of a wait, while the handler is active, and behind a full queue. -/
theorem witness_UserInterruptWaits :
    (let s := inWait (.sem 0 3) (uiWaiting ⟨1, 5, 0, none, none⟩)
     s.uiOpen = true ∧ s.hart.run = .waiting (.sem 0 3) ∧ s.hart.uiq = ⟨1, 5, 0, none, none⟩ :: [] ∧ s.hart.run ≠ .waiting .wfi ∧ s.hart.uiHeld = []) ∧
    (let s := inWait .wfi (uiWaiting ⟨1, 5, 0, none, some .sys⟩)
     s.uiOpen = true ∧ s.hart.run = .waiting .wfi) ∧
    (let s := inWait (.zawrs true 7) (uiWaiting ⟨1, 5, 0, none, none⟩)
     s.uiOpen = true ∧ s.hart.run = .waiting (.zawrs true 7)) ∧
    (let e : UiEvent := ⟨1, 5, 0, none, none⟩
     let s := (uiWaiting e).onHart (fun h => { h with uiq := e :: List.replicate 15 e, uiHeld := [⟨0, 7, 0, some 0, none⟩] })
     s.uiOpen = true ∧ s.hart.uiq = e :: List.replicate 15 e ∧ (List.replicate 15 e).length < 16 ∧ s.hart.uiHeld = ⟨0, 7, 0, some 0, none⟩ :: [] ∧
       ¬(s.hart.uiq.length < 16 ∧ s.hart.uiHeld = [])) ∧
    (let s := (uiWaiting ⟨1, 5, 0, none, none⟩).onHart (fun h => { h with uiAct := true })
     s.hart.uiAct = true ∧ (s.hartOf s.hart.gid).run.isHart = true) := by decide

/-- Port 0's window is online; x5 is an address in it. -/
def farAt (a : Word) : State := { ported with hart := ported.hart.setX 5 a }

/-- The same once the memory behind the port has answered. -/
def farDone (a : Word) : State := (farAt a).onHart (fun h => { h with answer := some 0 })

/-- Loads that lie behind a port hold `cpy`, `strm.cfg`, `bar.cfg`, `mxpush`, `dq.search`, `dq.ship` and `qinit` until they complete. -/
theorem witness_LoadsBehindPorts :
    (let s := farAt 0x100000000000
     s.hart.answer = none ∧ s.cpyPorts (s.hart.getX 5) ≠ [] ∧ s.loadPorts 8 (s.hart.getX 5) 8 ≠ [] ∧ s.pushPorts (s.hart.getX 5) (s.hart.getX 6) ≠ [] ∧
       s.loadPorts 8 (s.hart.getX 5) 32 ≠ [] ∧ s.loadPorts 8 (s.hart.getX 5) 4 ≠ [] ∧ s.loadPorts 8 (s.hart.getX 5) 16 ≠ [] ∧
       s.hart.mode ≠ .m ∧ (∀ y, s.hart.run ≠ .waiting (.cpy y))) ∧
    (let s := (farAt 0x13F).onHart (fun h => { (h.setX 6 0x100000000000) with mode := .s })
     s.hart.mode = .s ∧ domKey s.dieNo s.hart.team (s.hart.getX 5).toNat = some (.die 0 63) ∧ (s.hart.getX 6).toNat % 64 = 0 ∧
       s.loadPorts 8 (s.hart.getX 6) (8 + 100 * 1) ≠ []) ∧
    Claims.LoadsDone (farDone 0x100000000000) ((farDone 0x100000000000).cpyPorts 0x100000000000) (farAt 0x100000000000) ∧
    (let s := farAt 0x100000000000
     s.loadBlock 0x100000000000 8 = (.ok (List.replicate 8 0), (s.loadBlock 0x100000000000 8).2) ∧ cpyBlockOk (List.replicate 8 0) = false) := by
  refine ⟨⟨by decide, by decide +kernel, by decide +kernel, by decide +kernel, by decide +kernel, by decide +kernel, by decide +kernel, by decide,
    fun y h => by cases h⟩, by decide +kernel, .inr ⟨by decide +kernel, by decide, by rfl⟩, ok_pair (by decide +kernel), by decide⟩

/-- Offsets that are misaligned, and that lie outside the share, in the lowest lane that faults. -/
theorem witness_LocalLaneFaults :
    (∀ n : Fin 3, let s := localLanes (if n = 0 then 2 else 0) (if n = 1 then 262144 else if n = 2 then 6 else 0)
     let i := if n = 0 then 0 else 1
     LanesFree s (regsOf 4 1 ++ widthRegs .w 8) ∧ s.hart.lfrec.getLsbD 0 = false ∧ (s.hart.active p0).getLsbD i = true ∧
       ((s.hart.pendingLanes (s.hart.active p0)).getLsbD i = true) ∧
       ((s.hart.ea 4 832 i).toNat % widthBytes .w ≠ 0 ∨ s.share.shSize ≤ (s.hart.ea 4 832 i).toNat) ∧
       ∀ j, j < i → (s.hart.ea 4 832 j).toNat % widthBytes .w = 0 ∧ (s.hart.ea 4 832 j).toNat < s.share.shSize) ∧
    (∀ n : Fin 2, let s := localLanes (if n = 0 then 4 else 0) (if n = 1 then 0x100000 else 0)
     let i := n.val
     LanesFree s (regsOf 4 1 ++ widthRegs (tileWidth true) 8) ∧ ((s.hart.pendingLanes (s.hart.active p0)).getLsbD i = true) ∧
       ((s.hart.ea 4 832 i).toNat % widthBytes (tileWidth true) ≠ 0 ∨ (s.share.buf .wgt).2 ≤ (s.hart.ea 4 832 i).toNat) ∧
       ∀ j, j < i → (s.hart.ea 4 832 j).toNat % widthBytes (tileWidth true) = 0 ∧ (s.hart.ea 4 832 j).toNat < (s.share.buf .wgt).2) := by
  unfold LanesFree; decide

/-- The broadcast form with no active lane. -/
theorem witness_BroadcastWithoutLanes :
    LanesFree (on (fun h => h.setM 0 0)) (widthRegs .w 8) ∧ (on (fun h => h.setM 0 0)).hart.active p0 = 0 := by
  unfold LanesFree; decide

/-- A waiter of a higher priority at a block, which its condition does not let be served. -/
def outranked (s : State) (enq : Bool) : State :=
  { s with qwaits := [⟨16, 0x20000002000, 1, 255, 0, enq, if enq then List.replicate 9 [] else [], 9, []⟩] }

/-- No slot, no window, no ticket left, or a waiter ahead. -/
theorem witness_TicketsRefused :
    (Claims.QueueOpen qWindow (qAsked qWindow) 0x20000002000 true (qcb 7 0 0 64 64) ∧ (qcb 7 0 0 64 64).window = 0) ∧
    (Claims.QueueOpen qFull (qAsked qFull) 0x20000002000 true (qcb 0 0 1 1 0) ∧ (qcb 0 0 1 1 0).free = 0) ∧
    (let s := outranked qRoom true
     Claims.QueueOpen s (qAsked s) 0x20000002000 true (qcb 3 0 2 2 6) ∧ ¬Claims.noneAhead (qAsked s) 0x20000002000 true) ∧
    256 ≤ ((List.replicate 256 (⟨16, 0x20000002000, 7, 1, 0⟩ : Ticket)).filter (fun t => t.slice == homeSlice (paLow 0x20000002000))).length := by
  refine ⟨⟨open_window, by decide⟩, ⟨open_full, by decide⟩, ⟨opens_iff (by unfold opens; decide +kernel), by unfold Claims.noneAhead; decide +kernel⟩,
    by decide +kernel⟩

/-- `vqtdeq` of an empty queue, and behind a waiter. -/
theorem witness_NothingToTake :
    (Claims.QueueOpen qEmpty (qAsked qEmpty) 0x20000002000 false (qcb 3 5 5 5 8) ∧ (qcb 3 5 5 5 8).avail = 0 ∧
      Claims.noneAhead (qAsked qEmpty) 0x20000002000 false ∧ (qAsked qEmpty).hart.strm = qEmpty.hart.strm ∧ qEmpty.hart.active p0 ≠ 0 ∧
      (qcb 3 5 5 5 8).esz = (if true then 1 else 0)) ∧
    (let s := outranked qRoom false
     Claims.QueueOpen s (qAsked s) 0x20000002000 false (qcb 3 0 2 2 6) ∧ ¬Claims.noneAhead (qAsked s) 0x20000002000 false ∧
       s.qAddr (s.hart.getX 5) = (.ok 0x20000002000, s) ∧ (qAsked s).hart.strm = s.hart.strm) := by
  refine ⟨⟨open_empty, by decide, by unfold Claims.noneAhead; decide +kernel, by decide +kernel, by decide, by decide⟩,
    opens_iff (by unfold opens; decide +kernel), by unfold Claims.noneAhead; decide +kernel, by rfl, by decide +kernel⟩

/-- An element behind a port, before and after it has come, and the hart's wait for it. -/
def farElement : State := { qRoom with ports := ported.ports, hart := qRoom.hart.setX 6 0x100000000000 }

theorem witness_ElementBehindPort :
    (let s := farElement
     s.qAddr (s.hart.getX 5) = (.ok 0x20000002000, s) ∧ (s.getX 6).toNat % 4 = 0 ∧ s.loadPorts 4 (s.getX 6) (s.qWords 0x20000002000) ≠ [] ∧
       s.hart.answer = none ∧ s.hart.run = .ready) ∧
    (let s := (inWait (.far [0]) farElement).onHart (fun h => { h with answer := some 0 })
     let u := inWait (.far [0]) farElement
     (∃ ps, s.hart.run = .waiting (.far ps)) ∧ Claims.LoadsDone s (s.loadPorts 4 (s.getX 6) (s.qWords 0x20000002000)) u ∧
       u.loadUnits4 (u.getX 6) (u.qWords 0x20000002000) = (.ok (List.replicate 8 0), (u.loadUnits4 (u.getX 6) (u.qWords 0x20000002000)).2)) ∧
    (let s := { initing 4 0 with ports := ported.ports, hart := (initing 4 0).hart.setX 6 0x100000000000 }
     s.qAddr (s.hart.getX 5) = (.ok 0x20000002000, s) ∧ (s.getX 6).toNat % 32 = 0 ∧ s.hart.answer = none ∧ s.loadPorts 8 (s.getX 6) 4 ≠ []) := by
  refine ⟨⟨by rfl, by decide +kernel, by decide +kernel, by decide +kernel, by decide +kernel⟩,
    ⟨⟨_, rfl⟩, .inr ⟨by decide +kernel, by decide +kernel, by rfl⟩, ok_pair (by decide +kernel)⟩, by rfl, by decide +kernel, by decide +kernel,
    by decide +kernel⟩

/-- Blocks that a waiter's service meets refused; a page bound and freed; and the counts of `qdrain` in S mode. -/
theorem witness_QueueManagementCases :
    ((qOf { qcb 3 0 2 2 6 with asid := 3 }).qcbRefused (5 * 2 ^ 46 + 0x20000002000) = true ∧ qRoom.qcbRefused 0x20000002000 = false) ∧
    (let s := waiting.onHart (fun h => { h with mode := .s, x := [] })
     s.hart.mode = .s ∧ (s.hart.getX 5).toNat < 2 ^ 16 ∧ s.qwaits ≠ [] ∧
       (((s.qwaits.filter (fun e => e.asid == (s.hart.getX 5).toNat)).map QWait.qcb).eraseDups.foldl State.qSettle s).hart = s.hart) ∧
    (let w : Word := 0x20000002001
     wbit (fget 0 (base.die 0).npbind 3) 0 = false ∧ wbit w 0 = true ∧ base.qcbRefused (wfield w 7 45 * 128) = false) ∧
    (wbit (fget 0 (notified.die 0).npbind 3) 0 = true ∧ wbit 0 0 = false ∧
      notified.qcbRefused (wfield (fget 0 (notified.die 0).npbind 3) 7 45 * 128) = false) := by
  refine ⟨by decide +kernel, ⟨by decide +kernel, by decide +kernel, by decide +kernel, by decide +kernel⟩, by decide +kernel, by decide +kernel⟩

/-- Slot 0 bound to v20 with nothing fetched, or with an element that faulted. -/
def starving (buf : List StrmElem) : State := on (fun h => ((h.setM 0 9).setSlot 0 { readSlot with buf := buf }))

/-- Slot 1 bound to v8, written, its elements from an address on; lanes 0 and 3 active; v4 = 5, 6, 7, 8. -/
def pushing (base_ : Word) : State :=
  on (fun h => lanesOf 4 [5, 6, 7, 8] ((h.setM 0 9).setSlot 1
    { readSlot with desc := strmWords 8 1, reg := 8, write := true, base := base_ }))

theorem fetchNone_quiet : Claims.Quiet (pushing 0x20000005000) := ⟨rfl, rfl, rfl, rfl, rfl, rfl, rfl, cores_quiet base_cores⟩

/-- A lane word with a bound source waits for its strip, takes it, or takes the fault of an element. -/
theorem witness_StreamReads :
    Claims.LaneWord p0 (regsOf 20 1) [(8 : LOp).toNat] (.vmov p0 8 20) ∧
    (∀ r ∈ regsOf 20 1 ++ [(8 : LOp).toNat], r < (starving []).hart.lalloc) ∧ (starving []).hart.csr.frm.toNat < 5 ∧
    (starving []).hart.active p0 ≠ 0 ∧ ((starving []).hart.slot 0).reg ∈ regsOf 20 1 ∧
    (starving []).hart.boundSlot false 20 = some 0 ∧ (starving []).hart.boundSlot true 20 = none ∧ (starving []).hart.boundSlot true 8 = none ∧
    (starving []).hart.boundSlot false 8 = none ∧
    ((starving []).hart.slot 0).strip (maskLanes ((starving []).hart.active p0)).length = none ∧
    (let s := starving [.data 5, .fault 5 0 0x20000005004]
     let b := s.hart.slot 0
     b.strip 2 = some [.data 5, .fault 5 0 0x20000005004] ∧ stripFaults (maskLanes (s.hart.active p0)) [.data 5, .fault 5 0 0x20000005004] =
       (3, ⟨5, 0, 0x20000005004⟩) :: [] ∧ s.hart.lfrec.getLsbD 0 = false) ∧
    (let f := (on (fun h => h.setSlot 1 readSlot)).focus 0
     let w := f.hart.slot 1
     Claims.Quiet f ∧ f.dataPa w.priv .load (w.addr (w.pos + w.buf.length)) = (.ok 0x20000005000, f) ∧ f.region (paLow 0x20000005000) = .hbm ∧
       f.isLost (paLow 0x20000005000) = false ∧ 0x20000005000 % strmBytes w.tc = 0) := by
  refine ⟨⟨8, 20, 0, 0, 0, .h2, .s32, .s32, .eq, .g32, .s8, .s16, .f32, .f32, .rne, 0, 0, 0, .s32, .imm 0, 0, false,
    .inl ⟨rfl, rfl, .inl rfl⟩⟩, by decide, by decide, by decide, by decide, by decide, by decide, by decide, by decide, by decide, by decide,
    ⟨rfl, rfl, rfl, rfl, rfl, rfl, rfl, cores_quiet (by decide)⟩, by rfl, by decide, by decide, by decide⟩

/-- A lane word that writes a register bound to a write stream pushes, or takes the fault of an element. -/
theorem witness_StreamPushes :
    (∀ r ∈ regsOf 4 1 ++ [(8 : LOp).toNat], r < (pushing 0x20000005000).hart.lalloc) ∧
    (pushing 0x20000005000).hart.boundSlot true 8 = some 1 ∧ ((pushing 0x20000005000).hart.slot 1).reg = 8 ∧
    (pushing 0x20000005000).hart.boundSlot true 4 = none ∧ (pushing 0x20000005000).hart.boundSlot false 4 = none ∧
    (pushing 0x20000005000).hart.boundSlot false 8 = none ∧ (pushing 0x20000005000).hart.csr.frm.toNat < 5 ∧
    (pushing 0x20000005000).hart.active p0 ≠ 0 ∧
    (let s := pushing 0x20000005000
     let b := s.hart.slot 1
     ∃ q, exec (.vmov p0 8 4) { s with hart := { s.hart with strm := [] } } = .next q ∧
       (q.hart.getV 8 0, q.hart.getV 8 3) = (5, 8) ∧
       (s.checkPush b (pushElems b (fun j => q.hart.getV 8 j) (maskLanes (s.hart.active p0)))).1 = [] ∧
       (s.checkPush b (pushElems b (fun j => q.hart.getV 8 j) (maskLanes (s.hart.active p0)))).2.1 =
         [(0x20000005000, [5, 0, 0, 0]), (0x20000005004, [8, 0, 0, 0])]) ∧
    (let s := pushing 0x40000000000
     let b := s.hart.slot 1
     ∃ q, exec (.vmov p0 8 4) { s with hart := { s.hart with strm := [] } } = .next q ∧
       (s.checkPush b (pushElems b (fun j => q.hart.getV 8 j) (maskLanes (s.hart.active p0)))).1 =
         [(0, ⟨7, 0, 0x40000000000⟩), (3, ⟨7, 0, 0x40000000004⟩)] ∧ s.hart.lfrec.getLsbD 0 = false) := by
  refine ⟨by decide, by decide, by decide, by decide, by decide, by decide, by decide, by decide, ⟨_, rfl, by decide, by decide, by decide⟩,
    ⟨_, rfl, by decide, by decide⟩⟩

/-- `mxpush` that waits with a checked command, with room and without. -/
theorem witness_MatrixPushWaits :
    (let s := inWait (.mxpush (cmd 0x30 0 .queued)) base
     s.hart.mode ≠ .m ∧ s.hart.run = .waiting (.mxpush (cmd 0x30 0 .queued)) ∧
       ¬(64 ≤ (s.core s.coreNo).queue.length ∨ (s.core s.coreNo).rst = true)) ∧
    (let s := (inWait (.mxpush (cmd 0x30 0 .queued)) base).modCore 0 (fun k => { k with queue := List.replicate 64 (cmd 0x30 0 .queued) })
     64 ≤ (s.core s.coreNo).queue.length) ∧
    (base.hart.mode ≠ .m ∧ ∀ q, base.hart.run ≠ .waiting (.mxpush q)) := by
  refine ⟨by decide, by decide, by decide, fun q h => by cases h⟩

/-- Commands that have read words before the others, or owe words, of each kind. -/
theorem witness_TileWords :
    (∀ op ∈ [1, 0x10, 0x20, 0x30], let c := { cmd op 0 .started with got := [(bufKey (some .act) 0, 7)] }
     (engine c).cmdNow (engine c).sel = some c ∧ c.op = op) ∧
    (let c := { cmd 1 0 .started with owed := [⟨some .acc, 0, 32, 9⟩] }
     (engine c).cmdNow (engine c).sel = some c ∧ c.owed ≠ []) ∧
    (let c := { cmd 4 0x300 .landing with owed := [⟨some .act, 0, 32, 9⟩] }
     (engine c).cmdNow (engine c).sel = none ∧ ((engine c).core (engine c).sel).queue.find? (fun c => c.phase == .landing) = some c ∧ c.toSend < 16) ∧
    (engine (cmd 1 0 .finished)).cmdNow (engine (cmd 1 0 .finished)).sel = none ∧
    (let c := { cmd 0x11 0 .started with owed := [⟨some .acc, 0, 32, 9⟩] }
     (engine c).cmdNow (engine c).sel = some c ∧ c.owed = [⟨some .acc, 0, 32, 9⟩]) ∧
    (let c := { cmd 0x12 0 .started with owed := [⟨none, 2 * 0x20000010000, 32, 9⟩], pages := [(0x20000010, 0x20000010000)] }
     (engine c).cmdNow (engine c).sel = some c ∧ heldPa c.pages (2 * 0x20000010000 / 2) = some 0x20000010000 ∧
       (engine c).refusal 0x20000010000 ((engine c).teamAsid c.team) = none ∧ (engine c).region (paLow 0x20000010000) = .hbm) := by
  decide +kernel

/-- A query that waits for admission behind one of a higher priority; and the record of an evicted team, open or refused. -/
theorem witness_DredgeCases :
    (let q := { query 0 .list with toAsk := [0], xs := [0] }
     let s := { asking q with queries := [q, { q with uid := 8, prio := q.prio + 1 }] }
     s.query? 7 = some q ∧ s.unitTurn q 0 = false) ∧
    (let q := { query 0 .recorded with gid := awayId 1 3, place := none }
     let s := { awayAsking q with fe := { base.fe with svbase := 0x20100000000 } }
     let w := s.dropQuery q.uid
     ∃ a, (s.team q.team).awayHart q.gid = some a ∧ a.run.isHart = true ∧ w.recordOpen (w.team q.team) a = true) ∧
    (let q := { query 0 .recorded with gid := awayId 1 3, place := none }
     let s := { awayAsking q with fe := { base.fe with svbase := 0x40000000000 } }
     let w := s.dropQuery q.uid
     ∃ a, (s.team q.team).awayHart q.gid = some a ∧ w.recordOpen (w.team q.team) a = false) := by
  refine ⟨by decide +kernel, ⟨_, rfl, by decide +kernel, by decide +kernel⟩, ⟨_, rfl, by decide +kernel⟩⟩

/-- What a job waits for before it is armed: a query or a transfer of its context, and a ship in flight to what it lists. -/
theorem witness_FullerWaits :
    (let s := { fulling 1 0 0 (some { job with asid := 0 }) with teams := [], queries := [query 0 .list] }
     ∃ q ∈ s.queries, satpAsid q.satp = 0) ∧
    (let s := { fulling 1 0 0 (some { job with asid := 0 }) with xfers := [xfer 0 0 0] }
     ∃ e ∈ s.xfers, s.teamAsid e.team = 0) ∧
    (let x : Ship := ⟨7, 0, 1, 0x20000010008, 0, 5, 0, List.replicate 128 0, false, 0, 0⟩
     ∃ e ∈ [x], e.ran = false ∧ ∃ r ∈ job.ranges, r.1 ≤ paLow e.pa ∧ paLow e.pa < r.1 + 4096 * r.2) ∧
    (let s := fulling 1 0 0 (some job)
     ¬((∃ q ∈ s.queries, satpAsid q.satp = job.asid) ∨ ∃ e ∈ s.xfers, s.teamAsid e.team = job.asid) ∧
       (∀ y ∈ s.teams, ¬(y.phase ≠ .ended ∧ (s.launch y.launch).asid = job.asid)) ∧ (∀ h ∈ s.resident, h.checked = false) ∧ s.ships = []) := by
  decide +kernel

/-- An abstract command on f registers, debug registers and others; a resume below M mode with MPRV set; CORESTAT and PCOWN of a Polder's core;
a core that fails with its L1 slice. -/
theorem witness_DebugCases :
    (let s := (debugged 2 true).onHart (fun h => { h with csr := { h.csr with mstatus := h.csr.mstatus ||| 0x20000 }, dbg := { h.dbg with dcsr := 0x40000000 } })
     (s.hartOf 0).dbg.halted = true ∧ Priv.ofCode (wfield (s.hartOf 0).dbg.dcsr 0 2) ≠ .m ∧ (s.hartOf 0).csr.mstatus.getLsbD 17 = true) ∧
    (paKey 0xF0000000000 = 0 ∧ (guarded.core 0).slot ≠ 0 ∧
      guarded.region (paLow (regBase + dieBase + 0x30000)) = .regs (dieBase + 0x30000) ∧ regAt (dieBase + 0x30000) = .die (0 / 192) (0x30000 + 8 * (0 % 192)) ∧
      guarded.region (paLow (regBase + polderBase + 0x1000)) = .regs (polderBase + 0x1000) ∧ regAt (polderBase + 0x1000) = .polder (0x1000 + 8 * 0)) ∧
    ((base.core 5).state = 0 ∧ (base.core 5).power ≠ .off) := by
  decide +kernel

/-- Harts that stop for an eviction while a queue request of one of them can be served, and none; the teams that share a core go together. -/
theorem witness_PreemptionCases :
    (let s := (preempting .evicting 1).onHart (fun h => { h with mode := .s })
     ∃ z ∈ s.evictSet (s.team s.sel),
       (((s.evictSet (s.team s.sel)).flatMap (fun z => (s.teamHarts z.id).map Hart.gid)).foldl State.qMeets s).allStopped z = false) ∧
    (let s := preempting .evicting 0
     ∀ z ∈ s.evictSet (s.team s.sel),
       (((s.evictSet (s.team s.sel)).flatMap (fun z => (s.teamHarts z.id).map Hart.gid)).foldl State.qMeets s).allStopped z = true) ∧
    wbit (on (fun h => { h with csr := { h.csr with menvcfg := 0 } })).hart.csr.menvcfg 63 = false ∧
    (let s := preempting .evicting 0
     ∀ e ∈ s.evictSet (s.team s.sel), e.forDivert = false) := by
  decide +kernel

/-- A step of a hart that waits and looks again, and of one that a trigger meets at its pc. -/
theorem witness_StepLooksAgain :
    (let u := (inWait (.mrecv 3) base).onHart (fun h => { h with mbpres := 8, ir := 0x13 })
     u.runnable u.hart = true ∧ (u.qMeets u.hart.gid).boundary = none ∧ (u.qMeets u.hart.gid).hart.executes = true ∧
       (u.qMeets u.hart.gid).hart.run.isWaiting = true ∧ decodeBits (u.qMeets u.hart.gid).hart.ir = .instr (.standardInstruction (.aluImm .addi 0 0 0)) 0x13 4) ∧
    (let u := base.onHart (fun h => { h with csr := { h.csr with trig := [(0, ⟨0x600000000000000F#64, h.pc, 0⟩)] } })
     u.runnable u.hart = true ∧ (u.qMeets u.hart.gid).boundary = none ∧ (u.qMeets u.hart.gid).trigHit .fetch (u.qMeets u.hart.gid).hart.pc = true) ∧
    ((∀ p, base.hart.run ≠ .waiting (.queueEnq p) ∧ base.hart.run ≠ .waiting (.queueDeq p)) ∧ base.hartOf base.hart.gid = base.hart) := by
  refine ⟨by decide +kernel, by decide +kernel, fun p => ⟨fun h => (by cases h), fun h => (by cases h)⟩, by decide⟩

end Sys2Proof.Tests
end

section
/-! SUPPORT. Reset and creation (R24, R65, R70, R291, R352, R386, R396, R401): what a new hart reads as. -/
namespace Sys2Proof.Machine

/-- Clearing bit 0, as a start address is taken. -/
theorem wputb_zero_false (w : Word) : wputb w 0 false = w &&& ~~~1#64 := by
  unfold wputb wput; simp

/-- A new hart: the values of a fresh place but for those that its launch and its creator give. -/
theorem Launch.newHart_eq (l : Launch) (gid team role num alloc : Nat) (pc x10 x11 : Word) :
    l.newHart gid team role num alloc pc x10 x11 =
      { Hart.fresh gid with
        run := .ready, team := team, role := role, num := num, lalloc := alloc, pc := pc &&& ~~~1#64, csr := l.csrs
        srseed := l.seed, lfrec := wput (dw l.ctx 5) 1 8 0, x := fset 0 (fset 0 [] 10 x10) 11 x11 } := by
  rw [← wputb_zero_false]; rfl

/-- Of the x registers, a new hart holds its two arguments. -/
theorem Launch.newHart_getX (l : Launch) (gid team role num alloc : Nat) (pc x10 x11 : Word) (q : XReg) :
    (l.newHart gid team role num alloc pc x10 x11).getX q = if q = 11 then x11 else if q = 10 then x10 else 0 := by
  have fresh : ∀ h : Hart, h.x = [] → h.getX q = 0 := fun h hx => by simp [Hart.getX, hx, fget]
  have writes : ∀ r : XReg, r ≠ 0 → ((q = r ∧ q ≠ 0) ↔ q = r) := fun r hr => and_iff_left_of_imp (fun h => h ▸ hr)
  unfold Launch.newHart
  rw [Hart.getX_setX, Hart.getX_setX, fresh _ rfl]
  simp only [writes 10 (by decide), writes 11 (by decide)]

/-- A new hart's active mask m0 is full, and the other mask registers are empty. -/
theorem Launch.newHart_getM (l : Launch) (gid team role num alloc : Nat) (pc x10 x11 : Word) (k : MReg) :
    (l.newHart gid team role num alloc pc x10 x11).getM k = if k = 0 then 0xFFFFFFFF#32 else 0 := by
  rw [Launch.newHart_eq]
  show (if k.toNat = 0 then 0xFFFFFFFF#32 else 0) = _
  simp only [BitVec.toNat_eq, BitVec.ofNat_eq_ofNat, BitVec.toNat_ofNat, Nat.zero_mod]

/-- Settles O58: the state after reset lists nothing, so its clauses are the defaults of its files; and a new hart is a fresh place
with the few values that `Launch.newHart_eq` names. -/
theorem resetAndCreation : Obligations.ResetAndCreation := by
  refine ⟨?_, fun l gid team role num alloc pc x10 x11 => ?_⟩
  · exact ⟨rfl, rfl, rfl, fun k => ⟨rfl, rfl⟩, rfl, fun j => rfl, rfl, rfl, fun p => ⟨rfl, rfl, rfl, rfl⟩,
      fun c => ⟨rfl, rfl, rfl, rfl⟩, fun d => ⟨rfl, rfl, rfl⟩, rfl, rfl, rfl, rfl, rfl⟩
  · simp only [Launch.newHart_getX, Launch.newHart_getM]
    rw [Launch.newHart_eq]
    exact ⟨rfl, rfl, rfl, rfl, rfl, rfl, rfl, rfl, rfl, fun q h10 h11 => by rw [if_neg h11, if_neg h10], fun q => rfl,
      rfl, rfl, fun k i => rfl, rfl, fun k hk => if_neg hk, rfl, rfl, rfl, rfl, rfl, fun q => rfl,
      rfl, rfl, rfl, rfl, rfl, rfl, rfl, rfl, rfl, rfl, rfl, rfl, rfl, rfl, rfl, rfl, rfl, rfl, rfl, rfl, rfl, rfl,
      rfl, rfl, rfl, rfl⟩

end Sys2Proof.Machine
end

section
/-! SUPPORT. The lane words of plain registers in the terms of the statements: `LaneOp`, `LanePair` and `LaneTest` of the shared
operations (R94 to R97). -/
namespace Sys2Proof.Machine
open Sys2Proof.Safety

/-- Registers that the statements call free are plain. -/
theorem State.plainRegs_of_lanesFree {s : State} {rs : List Nat} (h : LanesFree s rs) : s.hart.plainRegs rs := h

theorem any_map_maskLanes (act : Mask) (fl : Nat → BitVec 5) (b : Nat) :
    ((maskLanes act).map fl).any (fun x => x.getLsbD b) = (List.range 32).any (fun i => act.getLsbD i && (fl i).getLsbD b) := by
  simp [maskLanes, lanes, List.any_map, List.any_filter, Function.comp_def]

/-- Raising the flags of the active lanes is what `Accrues` says. -/
theorem Hart.accrues_accrue (h : Hart) (act : Mask) (fl : Nat → BitVec 5) :
    Accrues h act fl (h.accrue (orFlags ((maskLanes act).map fl))) := by
  refine ⟨rfl, fun b => ?_⟩
  simp only [Hart.accrue, BitVec.getLsbD_or, getLsbD_orFlags, any_map_maskLanes]

/-- Reading a lane after a write of the active lanes. -/
theorem Hart.getV_writeLanes_maskLanes (h : Hart) (r : Nat) (val : Nat → Lane) (act : Mask) (q j : Nat) (hj : j < 32) :
    (h.writeLanes r val (maskLanes act)).getV q j = if q = r ∧ act.getLsbD j = true then val j else h.getV q j := by
  rw [Hart.getV_writeLanes h r val _ q j (fun k hk => ((mem_maskLanes act k).1 hk).1) hj]
  simp only [mem_maskLanes, hj, true_and]

theorem Hart.getV_accrue (h : Hart) (fl : BitVec 5) (r i : Nat) : (h.accrue fl).getV r i = h.getV r i := rfl

/-- One register written in the active lanes. -/
theorem Hart.lanesWritten_writeLanes (h : Hart) (act : Mask) (vd : Nat) (f : Nat → Lane) (fl : Nat → BitVec 5) :
    LanesWritten h act vd 1 (fun _ i v => v = f i) fl
      ((h.writeLanes vd f (maskLanes act)).accrue (orFlags ((maskLanes act).map fl))) := by
  constructor
  · rw [Hart.writeLanes_eq]
    exact h.accrues_accrue act fl
  · intro r i hi
    rw [Hart.getV_accrue, Hart.getV_writeLanes_maskLanes _ _ _ _ _ _ hi]
    by_cases ha : act.getLsbD i = true
    · by_cases hr : r = vd
      · simp [hr, ha]
      · have : ¬(vd ≤ r ∧ r < vd + 1) := by omega
        simp only [hr, ha, and_true, if_false, if_neg this]
    · simp [ha]

/-- The halves of a pair written in the active lanes. -/
theorem Hart.lanesWritten_writePair (h : Hart) (act : Mask) (vd : Nat) (f : Nat → Word) (fl : Nat → BitVec 5) :
    LanesWritten h act vd 2 (fun j i v => v = ((f i) >>> (32 * j)).setWidth 32) fl
      (((h.writeLanes vd (fun i => (f i).setWidth 32) (maskLanes act)).writeLanes (vd + 1) (fun i => ((f i) >>> 32).setWidth 32)
        (maskLanes act)).accrue (orFlags ((maskLanes act).map fl))) := by
  constructor
  · rw [Hart.writeLanes_eq, Hart.writeLanes_eq h]
    exact h.accrues_accrue act fl
  · intro r i hi
    rw [Hart.getV_accrue, Hart.getV_writeLanes_maskLanes _ _ _ _ _ _ hi, Hart.getV_writeLanes_maskLanes _ _ _ _ _ _ hi]
    by_cases ha : act.getLsbD i = true
    · by_cases h0 : r = vd
      · simp [h0, ha]
      · by_cases h1 : r = vd + 1
        · simp [h1, ha]
        · have : ¬(vd ≤ r ∧ r < vd + 2) := by omega
          simp only [h0, h1, ha, and_true, if_false, if_neg this]
    · simp [ha]

section
variable {s : State} {p : LaneHdr} {reads : List Nat}

/-- A word with one 32-bit result in each active lane, in the terms of the statements. -/
theorem State.laneOp_laneOp32 {vd : LOp} (f : Hart → Nat → Lane × BitVec 5) (h : s.hart.plainRegs (reads ++ [vd.toNat])) :
    LaneOp s p vd (fun i => (f s.hart i).1) (fun i => (f s.hart i).2) (s.laneOp32 p reads vd f) :=
  ⟨_, State.laneOp32_plain f h, Hart.lanesWritten_writeLanes _ _ _ _ _⟩

/-- A word with one 64-bit result in each active lane, in the terms of the statements. -/
theorem State.lanePair_laneOp64 {vd : LOp} (f : Hart → Nat → Word × BitVec 5)
    (h : s.hart.plainRegs (reads ++ [vd.toNat, vd.toNat + 1])) :
    LanePair s p vd (fun i => (f s.hart i).1) (fun i => (f s.hart i).2) (s.laneOp64 p reads vd f) :=
  ⟨_, State.laneOp64_plain f h, Hart.lanesWritten_writePair _ _ _ _ _⟩

/-- A word that writes a mask register, in the terms of the statements. -/
theorem State.laneTest_laneMask {md : MReg} (f : Hart → Mask → Nat → Bool × BitVec 5) (h : s.hart.plainRegs reads) :
    LaneTest s p md (fun i => (f s.hart (s.hart.active p) i).1) (fun i => (f s.hart (s.hart.active p) i).2)
      (s.laneMask p reads md f) :=
  ⟨_, State.laneMask_plain f h, _, fun i hi => getLsbD_maskOf _ i hi, _,
    ⟨rfl, fun _ => Hart.getM_setM _ _ _ _⟩, Hart.accrues_accrue _ _ _⟩
end

end Sys2Proof.Machine
end

section
/-! SUPPORT. The conversion words and the compare words (R108, R109, R116 to R118): what they write, and their frame. -/
namespace Sys2Proof.Machine
open Sys2Proof.Safety

/-- An instruction that leaves a retired hart gives what holds of the hart before it retires. -/
theorem gives_retires {i : Instr} {s : State} {k : Hart} {Q : Hart → Prop} (h : exec i s = .next { s with hart := k.retire })
    (hQ : Q k) : Gives i s (Retires s Q) :=
  ⟨_, h, k, rfl, hQ⟩

/-- Where frm names a mode, a conversion to a type of 32 bits or fewer is a lane word of one result. -/
theorem exec_vcvt_of_is64_eq_false {p : LaneHdr} {dst src : Tc} {rm m : Rm} {sat : Bool} {vd va : LOp} {s : State}
    (hrm : s.hart.rmOf rm = some m) (hd : dst.is64 = false) :
    exec (.vcvt p dst src rm sat vd va) s = .next (s.laneOp32 p (regsOf va (if src.is64 then 2 else 1)) vd
      (fun h i => (convert src dst m sat (h.elem0 src va i)).lane)) := by
  show execVcvt p dst src rm sat vd va s = _
  simp only [execVcvt, hrm, hd, Bool.false_eq_true, if_false]

/-- Where frm names a mode, a conversion to a 64-bit type is a lane word of a pair. -/
theorem exec_vcvt_of_is64_eq_true {p : LaneHdr} {dst src : Tc} {rm m : Rm} {sat : Bool} {vd va : LOp} {s : State}
    (hrm : s.hart.rmOf rm = some m) (hd : dst.is64 = true) :
    exec (.vcvt p dst src rm sat vd va) s = .next (s.laneOp64 p (regsOf va (if src.is64 then 2 else 1)) vd
      (fun h i => (BitVec.ofNat 64 (convert src dst m sat (h.elem0 src va i)).bits,
        (convert src dst m sat (h.elem0 src va i)).flags))) := by
  show execVcvt p dst src rm sat vd va s = _
  simp only [execVcvt, hrm, hd, if_true]

theorem Hart.writeLanes_srctr (h : Hart) (r : Nat) (val : Nat → Lane) (ls : List Nat) : (h.writeLanes r val ls).srctr = h.srctr := by
  rw [Hart.writeLanes_eq]

/-- What holds of a hart holds of it after a step of srctr that is taken back. -/
theorem Hart.of_srctr_put_back {P : Hart → Prop} (h : Hart) {n : BitVec 64} (hn : h.srctr = n) (hP : P h) :
    P { { h with srctr := h.srctr + 1 } with srctr := n } := by
  subst hn; exact hP

/-- A stochastic rounding of plain registers: the lanes and the flags as of any lane word, and srctr one more (R26). -/
theorem exec_vcvtSr_plain {p : LaneHdr} {dst : Tc} {sat : Bool} {vd va : LOp} {s : State} {d : Fmt} (hd : Tc.fmt? dst = some d)
    (h : s.hart.plainRegs (regsOf va 1 ++ [vd.toNat])) :
    let r (i : Nat) : FRes :=
      froundSr d sat (srBits s.hart.srseed s.hart.srhid s.hart.srctr i 0) (s.hart.src32 va i).toNat
    let h' := (s.hart.writeLanes vd.toNat (fun i => BitVec.ofNat 32 (r i).bits) (maskLanes (s.hart.active p))).accrue
      (orFlags ((maskLanes (s.hart.active p)).map (fun i => (r i).flags)))
    exec (.vcvtSr p dst sat vd va) s = .next { s with hart := Hart.retire { h' with srctr := h'.srctr + 1 } } := by
  intro r h'
  show execVcvtSr p dst sat vd va s = _
  unfold execVcvtSr
  rw [State.laneBegin_plain h, hd]
  simp only [Option.getD_some]
  rw [State.laneFinish_plain _ _ _ _ _ (fun o ho => by
    rw [List.mem_singleton] at ho; subst ho
    exact (h _ (by simp)).2.2)]
  rfl

/-- R26, R116, R118: the conversion words. -/
theorem conversionWords : Claims.ConversionWords := by
  intro p dst src sat vd va s hfree
  refine ⟨fun rm m hrm => ⟨fun hd => ?_, fun hd => ?_⟩, fun d hd hs64 hd64 => ?_⟩
  · exact ⟨_, exec_vcvt_of_is64_eq_true hrm hd, State.lanePair_laneOp64 (fun h i =>
      (BitVec.ofNat 64 (convert src dst m sat (h.elem0 src va i)).bits, (convert src dst m sat (h.elem0 src va i)).flags))
      (State.plainRegs_of_lanesFree (by simpa [hd] using hfree))⟩
  · exact ⟨_, exec_vcvt_of_is64_eq_false hrm hd, State.laneOp_laneOp32
      (fun h i => (convert src dst m sat (h.elem0 src va i)).lane) (State.plainRegs_of_lanesFree (by simpa [hd] using hfree))⟩
  · have plain : s.hart.plainRegs (regsOf va 1 ++ [vd.toNat]) :=
      State.plainRegs_of_lanesFree (by simpa [hs64, hd64] using hfree)
    refine gives_retires (exec_vcvtSr_plain hd plain) ⟨congrArg (· + 1) (Hart.writeLanes_srctr _ _ _ _), ?_⟩
    exact Hart.of_srctr_put_back _ (Hart.writeLanes_srctr _ _ _ _) (Hart.lanesWritten_writeLanes _ _ _ _ _)

theorem IFmt.val_signed32 (b : Lane) : (IFmt.mk true 32).val b.toNat = b.toInt := by
  have := b.isLt
  simp only [IFmt.val, BitVec.toInt_eq_toNat_cond]
  split_ifs <;> simp_all <;> omega

theorem IFmt.val_unsigned32 (b : Lane) : (IFmt.mk false 32).val b.toNat = b.toNat := by
  have := b.isLt
  simp only [IFmt.val, Bool.false_and, Bool.false_eq_true, if_false]
  omega

/-- R95, R108, R109: the compare words. -/
theorem compareWords : Claims.CompareWords := by
  intro p c md va vb imm s hfree hc a b
  have plain : s.hart.plainRegs (regsOf va 1 ++ regsOf vb 1) := State.plainRegs_of_lanesFree hfree
  have plainA : s.hart.plainRegs (regsOf va 1) := fun r hr => plain r (List.mem_append_left _ hr)
  simp only [← IFmt.val_signed32, ← IFmt.val_unsigned32]
  exact ⟨⟨_, rfl, State.laneTest_laneMask _ plain⟩, ⟨_, rfl, State.laneTest_laneMask _ plain⟩,
    ⟨_, rfl, State.laneTest_laneMask _ plainA⟩, ⟨_, rfl, State.laneTest_laneMask _ plainA⟩,
    fun f => ⟨_, rfl, State.laneTest_laneMask _ plain⟩⟩

/-- What each condition of an integer compare tests. -/
theorem condInt_iff (c : Cond) (a b : Int) (hc : c.isInt = true) : condInt c a b = true ↔
    (c = .eq ∧ a = b) ∨ (c = .ne ∧ a ≠ b) ∨ (c = .lt ∧ a < b) ∨ (c = .ge ∧ b ≤ a) ∨ (c = .gt ∧ b < a) ∨ (c = .le ∧ a ≤ b) := by
  cases c <;> simp_all [condInt, Cond.isInt]

end Sys2Proof.Machine
end

section
/-! SUPPORT. The grid of a format (R12): the values of its magnitude patterns, with the exponent range continued upward, in their
order. -/
namespace Sys2Proof.Machine

/-- A power of two as a multiple of a smaller one. -/
theorem two_zpow_eq_mul {K : Type} [Field K] [CharZero K] {q e : Int} (h : q ≤ e) :
    (2 : K) ^ e = ((2 ^ (e - q).toNat : Nat) : K) * 2 ^ q := by
  rw [Nat.cast_pow, Nat.cast_ofNat, ← zpow_natCast, ← zpow_add₀ two_ne_zero, Int.toNat_of_nonneg (by omega), sub_add_cancel]

/-- What an exponent field `c / 2^M` adds to the exponent of the unit: subnormals share the unit of the smallest normals. -/
def Fmt.step (f : Fmt) (c : Nat) : Nat := c / 2 ^ f.manBits - 1

/-- The value of a magnitude pattern, as if its exponent field had no greatest value. -/
def Fmt.grid (f : Fmt) (c : Nat) : ℚ :=
  (c - f.step c * 2 ^ f.manBits : Nat) * (2 : ℚ) ^ ((f.step c : Int) + f.emin - f.manBits)

theorem Fmt.manBits_pos (f : Fmt) : 0 < f.manBits := by cases f <;> decide

/-- A significand `n` with the unit 2^(k + emin − M) has the pattern k·2^M + n, up to the start of the next binade. -/
theorem Fmt.grid_add (f : Fmt) (k n : Nat) (hn : n ≤ 2 ^ (f.manBits + 1)) (hk : k = 0 ∨ 2 ^ f.manBits ≤ n) :
    f.grid (k * 2 ^ f.manBits + n) = n * (2 : ℚ) ^ ((k : Int) + f.emin - f.manBits) := by
  have hP : 0 < 2 ^ f.manBits := by positivity
  rw [pow_succ] at hn
  have hdiv : (k * 2 ^ f.manBits + n) / 2 ^ f.manBits = k + n / 2 ^ f.manBits := by
    rw [Nat.add_comm, Nat.add_mul_div_right _ _ hP, Nat.add_comm]
  unfold Fmt.grid Fmt.step
  rw [hdiv]
  rcases Nat.lt_or_ge n (2 ^ f.manBits) with hlt | hge
  · obtain rfl : k = 0 := by omega
    simp [Nat.div_eq_of_lt hlt]
  rcases Nat.lt_or_ge n (2 ^ f.manBits * 2) with hlt2 | hge2
  · have h1 : n / 2 ^ f.manBits = 1 := Nat.div_eq_of_lt_le (by omega) (by omega)
    simp [h1]
  · obtain rfl : n = 2 ^ f.manBits * 2 := by omega
    have h2 : k + 2 ^ f.manBits * 2 / 2 ^ f.manBits - 1 = k + 1 := by
      rw [Nat.mul_div_cancel_left _ hP]; omega
    have h3 : k * 2 ^ f.manBits + 2 ^ f.manBits * 2 - (k + 1) * 2 ^ f.manBits = 2 ^ f.manBits := by
      rw [Nat.add_mul]; omega
    rw [h2, h3, show ((k + 1 : Nat) : Int) + f.emin - f.manBits = ((k : Int) + f.emin - f.manBits) + 1 by push_cast; ring,
      zpow_add_one₀ (by norm_num)]
    push_cast; ring

/-- The next pattern is one unit further. -/
theorem Fmt.grid_succ (f : Fmt) (c : Nat) : f.grid (c + 1) = f.grid c + (2 : ℚ) ^ ((f.step c : Int) + f.emin - f.manBits) := by
  have hP : 0 < 2 ^ f.manBits := by positivity
  have hc : f.step c * 2 ^ f.manBits ≤ c := (Nat.mul_le_mul_right _ (Nat.sub_le _ _)).trans (Nat.div_mul_le_self _ _)
  have hlt : c < (f.step c + 2) * 2 ^ f.manBits :=
    (Nat.lt_div_mul_add hP).trans_le (by rw [← Nat.succ_mul]; exact Nat.mul_le_mul_right _ (by unfold Fmt.step; omega))
  have hbin : f.step c = 0 ∨ 2 ^ f.manBits ≤ c - f.step c * 2 ^ f.manBits := by
    rcases Nat.eq_zero_or_pos (f.step c) with h0 | h0
    · exact .inl h0
    · refine .inr (Nat.le_sub_of_add_le ?_)
      rw [Nat.add_comm, ← Nat.succ_mul, show (f.step c).succ = c / 2 ^ f.manBits by unfold Fmt.step at h0 ⊢; omega]
      exact Nat.div_mul_le_self _ _
  have hnext := f.grid_add (f.step c) (c - f.step c * 2 ^ f.manBits + 1)
    (by rw [Nat.add_mul] at hlt; rw [pow_succ]; omega) (hbin.imp_right (fun h => h.trans (Nat.le_succ _)))
  rw [show f.step c * 2 ^ f.manBits + (c - f.step c * 2 ^ f.manBits + 1) = c + 1 by omega] at hnext
  rw [hnext, Fmt.grid]
  push_cast; ring

theorem Fmt.grid_strictMono (f : Fmt) : StrictMono f.grid :=
  strictMono_nat_of_lt_succ (fun c => by
    have : (0 : ℚ) < 2 ^ ((f.step c : Int) + f.emin - f.manBits) := by positivity
    rw [f.grid_succ]; linarith)

/-- Patterns up to the largest finite value lie below the sign bit, and below the infinities and the NaNs. -/
theorem Fmt.maxFinite_lt (f : Fmt) :
    f.maxFinite < f.signWeight ∧ (f.hasInf = true → f.maxFinite < (2 ^ f.expBits - 1) * 2 ^ f.manBits) := by
  cases f <;> decide

/-- The magnitude pattern of a finite value decodes to its significand and the exponent of its unit. -/
theorem fval_of_le_maxFinite {f : Fmt} {c : Nat} (hc : c ≤ f.maxFinite) :
    fval f c = .fin false (c - f.step c * 2 ^ f.manBits) ((f.step c : Int) + f.emin - f.manBits) := by
  obtain ⟨hsign, hinf⟩ := f.maxFinite_lt
  have hP : 0 < 2 ^ f.manBits := by positivity
  have hneg : c / f.signWeight = 0 := Nat.div_eq_of_lt (hc.trans_lt hsign)
  have hexp : c / 2 ^ f.manBits < 2 ^ f.expBits := by
    rw [Nat.div_lt_iff_lt_mul hP, ← pow_add]; exact hc.trans_lt hsign
  have htop : f.hasInf = true → c / 2 ^ f.manBits ≠ 2 ^ f.expBits - 1 := fun h =>
    ((Nat.div_lt_iff_lt_mul hP).2 (hc.trans_lt (hinf h))).ne
  have he4m3 : f = .e4m3 → c / 2 ^ f.manBits = 2 ^ f.expBits - 1 → c % 2 ^ f.manBits ≠ 7 := by
    rintro rfl h1 h2
    simp only [Fmt.maxFinite, Fmt.manBits, Fmt.expBits] at hc h1 h2
    omega
  have hmod := Nat.div_add_mod' c (2 ^ f.manBits)
  unfold fval
  simp only [hneg, Nat.mod_eq_of_lt hexp]
  rw [if_neg (by simpa using htop), if_neg (by simpa [and_imp] using he4m3)]
  unfold Fmt.step Fmt.emin
  rcases Nat.eq_zero_or_pos (c / 2 ^ f.manBits) with h0 | h0
  · simp only [h0, beq_self_eq_true, if_true] at hmod ⊢
    simp only [show c % 2 ^ f.manBits = c by omega]
    simp
  · rw [if_neg (by simpa using h0.ne')]
    obtain ⟨k, hk⟩ : ∃ k, c / 2 ^ f.manBits = k + 1 := ⟨c / 2 ^ f.manBits - 1, by omega⟩
    rw [hk, Nat.add_mul] at hmod
    rw [hk]
    congr 1
    · simp only [Nat.add_sub_cancel]; omega
    · push_cast; simp; ring

/-- The values of the statements are those of the grid. -/
theorem Fmt.magVal_eq_grid {f : Fmt} {c : Nat} (hc : c ≤ f.maxFinite) : Claims.magVal f c = f.grid c := by
  rw [Claims.magVal, fval_of_le_maxFinite hc]
  simp [Claims.ratOf, Fmt.grid]

/-- The largest finite value and its two neighbours on the grid have one distance. -/
theorem Fmt.grid_after_maxFinite (f : Fmt) :
    f.grid (f.maxFinite + 1) = 2 * Claims.magVal f f.maxFinite - Claims.magVal f (f.maxFinite - 1) := by
  have hstep : f.step (f.maxFinite - 1) = f.step f.maxFinite := by cases f <;> decide
  have hpos : f.maxFinite - 1 + 1 = f.maxFinite := by cases f <;> decide
  have h1 := f.grid_succ (f.maxFinite - 1)
  rw [hpos, hstep] at h1
  rw [magVal_eq_grid le_rfl, magVal_eq_grid (Nat.sub_le _ _), f.grid_succ]
  linarith

end Sys2Proof.Machine
end

section
/-! SUPPORT. Rounding (R18, R23): which of the two neighbours of a value the model takes, and that it is the one that the mode asks
for. -/
namespace Sys2Proof.Machine

/-- Does the mode take the upper of two neighbours `a` and `b` of the magnitude `x`, of which the lower has the significand `n`? -/
def GoesUp (rm : Rm) (neg : Bool) (a b x : ℝ) (n : Nat) : Prop :=
  (Claims.up rm neg ∧ a < x) ∨
    ((rm = .rne ∨ rm = .rmm) ∧ (a + b < 2 * x ∨ (a + b = 2 * x ∧ (rm = .rmm ∨ n % 2 = 1))))

/-- The magnitude `x` lies from `a` to below `b`, of which it is rounded to one: `k` is `n` for the lower, `n + 1` for the upper. -/
structure Chosen (rm : Rm) (neg : Bool) (a b x : ℝ) (n k : Nat) : Prop where
  lower : a ≤ x
  upper : x < b
  raised : GoesUp rm neg a b x n → k = n + 1
  kept : ¬GoesUp rm neg a b x n → k = n

theorem goesUp_mul {rm : Rm} {neg : Bool} {a b x u : ℝ} {n : Nat} (hu : 0 < u) :
    GoesUp rm neg (a * u) (b * u) (x * u) n ↔ GoesUp rm neg a b x n := by
  have h1 : a * u + b * u < 2 * (x * u) ↔ a + b < 2 * x := by
    rw [← add_mul, ← mul_assoc, mul_lt_mul_iff_left₀ hu]
  have h2 : a * u + b * u = 2 * (x * u) ↔ a + b = 2 * x := by
    rw [← add_mul, ← mul_assoc, mul_left_inj' hu.ne']
  simp only [GoesUp, h1, h2, mul_lt_mul_iff_left₀ hu]

theorem Chosen.mul {rm : Rm} {neg : Bool} {a b x u : ℝ} {n k : Nat} (h : Chosen rm neg a b x n k) (hu : 0 < u) :
    Chosen rm neg (a * u) (b * u) (x * u) n k where
  lower := (mul_le_mul_iff_left₀ hu).2 h.lower
  upper := (mul_lt_mul_iff_left₀ hu).2 h.upper
  raised hg := h.raised ((goesUp_mul hu).1 hg)
  kept hg := h.kept (fun h' => hg ((goesUp_mul hu).2 h'))

theorem Chosen.le {rm : Rm} {neg : Bool} {a b x : ℝ} {n k : Nat} (h : Chosen rm neg a b x n k) : n ≤ k ∧ k ≤ n + 1 := by
  by_cases hg : GoesUp rm neg a b x n
  · have := h.raised hg; omega
  · have := h.kept hg; omega

/-- Something was dropped just where the magnitude is not the lower neighbour. -/
theorem dropped_iff {rest : Nat} {sticky : Bool} {a z : ℝ} (hle : a + rest ≤ z) (hs : sticky = true ↔ a + rest < z) :
    (rest != 0 || sticky) = true ↔ a < z := by
  rcases Nat.eq_zero_or_pos rest with h0 | h0
  · simpa [h0] using hs
  · have h1 : (1 : ℝ) ≤ rest := by exact_mod_cast h0
    simp only [bne_iff_ne.2 h0.ne', Bool.true_or, true_iff]
    linarith

/-- The dropped part, of which `rest` is the whole number, lies above or at the half just where the magnitude does. -/
theorem dropped_cmp_half {rest half : Nat} {sticky : Bool} {a z : ℝ} (hle : a + rest ≤ z) (hlt : z < a + rest + 1)
    (hs : sticky = true ↔ a + rest < z) :
    ((half < rest ∨ (half = rest ∧ sticky = true)) ↔ a + half < z) ∧ ((half = rest ∧ sticky = false) ↔ a + half = z) := by
  rcases lt_trichotomy half rest with h | rfl | h
  · have h1 : (half : ℝ) + 1 ≤ rest := by exact_mod_cast h
    exact ⟨iff_of_true (.inl h) (by linarith), iff_of_false (fun h' => h.ne h'.1) (by linarith)⟩
  · cases sticky with
    | false =>
      have : ¬a + half < z := by simpa using hs
      exact ⟨iff_of_false (by simp) this, iff_of_true ⟨rfl, rfl⟩ (by linarith)⟩
    | true =>
      have : a + half < z := hs.1 rfl
      exact ⟨iff_of_true (.inr ⟨rfl, rfl⟩) this, iff_of_false (by simp) this.ne⟩
  · have h1 : (rest : ℝ) + 1 ≤ half := by exact_mod_cast h
    exact ⟨iff_of_false (by omega) (by linarith), iff_of_false (fun h' => h.ne' h'.1) (by linarith)⟩

/-- The model's decision, on a magnitude `z` that truncates to `n` times `2 * half` and `rest`. -/
theorem roundsUp_iff {rm : Rm} (hrm : rm ≠ .dyn) {neg : Bool} {n rest half : Nat} {sticky : Bool} {z : ℝ} (hhalf : 0 < half)
    (hlo : ((n * (2 * half) + rest : Nat) : ℝ) ≤ z) (hhi : z < ((n * (2 * half) + rest : Nat) : ℝ) + 1)
    (hs : sticky = true ↔ ((n * (2 * half) + rest : Nat) : ℝ) < z) :
    roundsUp rm neg n rest half sticky = true ↔
      GoesUp rm neg ((n * (2 * half) : Nat) : ℝ) (((n + 1) * (2 * half) : Nat) : ℝ) z n := by
  have hsum : ((n * (2 * half) : Nat) : ℝ) + (((n + 1) * (2 * half) : Nat) : ℝ) = 2 * ((n * (2 * half) : Nat) + half) := by
    push_cast; ring
  rw [Nat.cast_add] at hlo hhi hs
  have hexact := dropped_iff hlo hs
  obtain ⟨habove, htie⟩ := dropped_cmp_half (half := half) hlo hhi hs
  have hne : (half != 0) = true := bne_iff_ne.2 hhalf.ne'
  unfold GoesUp
  rw [hsum, mul_lt_mul_iff_right₀ two_pos, mul_right_inj' two_ne_zero, ← hexact, ← habove, ← htie]
  cases rm with
  | dyn => exact absurd rfl hrm
  | rtz => simp [roundsUp, Claims.up]
  | rdn => cases neg <;> simp [roundsUp, Claims.up]
  | rup => cases neg <;> simp [roundsUp, Claims.up]
  | rmm =>
    simp only [roundsUp, Claims.up, hne, Bool.true_and]
    cases sticky <;> simp <;> omega
  | rne =>
    simp only [roundsUp, Claims.up, hne, Bool.true_and]
    cases sticky <;> simp

/-- A magnitude of which `m × 2^e` is known, and whether a little more was dropped. -/
structure Known (m : Nat) (e : Int) (sticky : Bool) (x : ℝ) : Prop where
  le : (m : ℝ) * 2 ^ e ≤ x
  lt : x < ((m : ℝ) + 1) * 2 ^ e
  more : sticky = true ↔ (m : ℝ) * 2 ^ e < x

/-- What is known of an exact value. -/
theorem Known.exact (m : Nat) (e : Int) : Known m e false ((m : ℝ) * 2 ^ e) where
  le := le_rfl
  lt := by have : (0 : ℝ) < 2 ^ e := by positivity
           linarith
  more := by simp

/-- At a unit no greater than that of the significand an exact magnitude stays as it is. -/
theorem roundAt_of_le {rm : Rm} {neg : Bool} {m : Nat} {e q : Int} (h : q ≤ e) :
    ∃ n : Nat, Chosen rm neg (n * 2 ^ q) ((n + 1) * 2 ^ q) (m * 2 ^ e) n (roundAt rm neg m e q false).1 ∧
      ((roundAt rm neg m e q false).2 = true ↔ (n : ℝ) * 2 ^ q < m * 2 ^ e) := by
  have hpos : (0 : ℝ) < 2 ^ q := by positivity
  have hval : (m : ℝ) * 2 ^ e = ((m * 2 ^ (e - q).toNat : Nat) : ℝ) * 2 ^ q := by
    rw [two_zpow_eq_mul h]; push_cast; ring
  rw [roundAt, if_pos h, hval]
  generalize m * 2 ^ (e - q).toNat = n
  refine ⟨n, ⟨le_rfl, by linarith, ?_, fun _ => rfl⟩, by simp⟩
  rintro (⟨-, h⟩ | ⟨-, h | ⟨h, -⟩⟩) <;> linarith

/-- At a greater unit the dropped part decides. -/
theorem roundAt_of_lt {rm : Rm} (hrm : rm ≠ .dyn) {neg : Bool} {m : Nat} {e q : Int} {sticky : Bool} {x : ℝ}
    (hx : Known m e sticky x) (h : e < q) :
    ∃ n : Nat, Chosen rm neg (n * 2 ^ q) ((n + 1) * 2 ^ q) x n (roundAt rm neg m e q sticky).1 ∧
      ((roundAt rm neg m e q sticky).2 = true ↔ (n : ℝ) * 2 ^ q < x) := by
  obtain ⟨d, hd⟩ : ∃ d : Nat, (q - e).toNat = d + 1 := ⟨(q - e).toNat - 1, by omega⟩
  have hu : (0 : ℝ) < 2 ^ e := by positivity
  have hunit : (2 : ℝ) ^ q = ((2 * 2 ^ d : Nat) : ℝ) * 2 ^ e := by
    rw [two_zpow_eq_mul h.le, hd, pow_succ, Nat.mul_comm]
  obtain ⟨z, rfl⟩ : ∃ z, x = z * 2 ^ e := ⟨x / 2 ^ e, by field_simp⟩
  have hm : m / (2 * 2 ^ d) * (2 * 2 ^ d) + m % (2 * 2 ^ d) = m := Nat.div_add_mod' _ _
  have hlo : (m : ℝ) ≤ z := (mul_le_mul_iff_left₀ hu).1 hx.le
  have hhi : z < (m : ℝ) + 1 := (mul_lt_mul_iff_left₀ hu).1 hx.lt
  have hs : sticky = true ↔ (m : ℝ) < z := hx.more.trans (mul_lt_mul_iff_left₀ hu)
  rw [roundAt, if_neg (not_le.2 h)]
  dsimp only
  rw [hd, show 2 ^ (d + 1) = 2 * 2 ^ d by rw [pow_succ, Nat.mul_comm],
    Nat.mul_div_cancel_left _ two_pos]
  rw [← hm] at hlo hhi hs
  have hup := roundsUp_iff hrm (neg := neg) (by positivity) hlo hhi hs
  have hrest : m % (2 * 2 ^ d) < 2 * 2 ^ d := Nat.mod_lt _ (by positivity)
  generalize m / (2 * 2 ^ d) = n at hup hlo hhi hs ⊢
  generalize m % (2 * 2 ^ d) = rest at hup hlo hhi hs hrest ⊢
  have hthis : (n : ℝ) * 2 ^ q = ((n * (2 * 2 ^ d) : Nat) : ℝ) * 2 ^ e := by rw [hunit]; push_cast; ring
  have hnext : ((n : ℝ) + 1) * 2 ^ q = (((n + 1) * (2 * 2 ^ d) : Nat) : ℝ) * 2 ^ e := by rw [hunit]; push_cast; ring
  have hbelow : ((n * (2 * 2 ^ d) : Nat) : ℝ) + (rest : Nat) ≤ z := by rw [← Nat.cast_add]; exact hlo
  refine ⟨n, ?_⟩
  rw [hthis, hnext]
  refine ⟨Chosen.mul ⟨?_, ?_, ?_, ?_⟩ hu, ?_⟩
  · linarith [Nat.cast_nonneg (α := ℝ) rest]
  · have : n * (2 * 2 ^ d) + rest + 1 ≤ (n + 1) * (2 * 2 ^ d) := by rw [Nat.add_mul]; omega
    exact hhi.trans_le (by exact_mod_cast this)
  · intro hg; rw [if_pos (hup.2 hg)]
  · intro hg; rw [if_neg (fun h' => hg (hup.1 h'))]
  · rw [mul_lt_mul_iff_left₀ hu]
    exact dropped_iff hbelow (by rw [← Nat.cast_add]; exact hs)

/-- `roundAt` rounds a magnitude to one of the neighbouring multiples of 2^q, and tells whether it was between them. -/
theorem roundAt_chosen {rm : Rm} (hrm : rm ≠ .dyn) {neg : Bool} {m : Nat} {e q : Int} {sticky : Bool} {x : ℝ} (hx : Known m e sticky x)
    (hq : sticky = true → e < q) :
    ∃ n : Nat, Chosen rm neg (n * 2 ^ q) ((n + 1) * 2 ^ q) x n (roundAt rm neg m e q sticky).1 ∧
      ((roundAt rm neg m e q sticky).2 = true ↔ (n : ℝ) * 2 ^ q < x) := by
  rcases le_or_gt q e with hle | hlt
  · obtain rfl : sticky = false := Bool.eq_false_iff.2 (fun h => absurd (hq h) (not_lt.2 hle))
    have hxe : x = m * 2 ^ e := le_antisymm (not_lt.1 (fun h => by simpa using hx.more.2 h)) hx.le
    exact hxe ▸ roundAt_of_le hle
  · exact roundAt_of_lt hrm hx hlt

end Sys2Proof.Machine
end

section
/-! SUPPORT. Rounding on the grid of a format (R18, R23): `roundTo` delivers what the statements call a rounded result. -/
namespace Sys2Proof.Machine

theorem not_goesUp_of_down {rm : Rm} {neg : Bool} {a b x : ℝ} {n : Nat} (h : Claims.down rm neg) : ¬GoesUp rm neg a b x n := by
  obtain rfl | ⟨rfl, rfl⟩ | ⟨rfl, rfl⟩ := h <;> simp [GoesUp, Claims.up]

theorem goesUp_of_up {rm : Rm} {neg : Bool} {a b x : ℝ} {n : Nat} (h : Claims.up rm neg) : GoesUp rm neg a b x n ↔ a < x := by
  obtain ⟨rfl, rfl⟩ | ⟨rfl, rfl⟩ := h <;> simp [GoesUp, Claims.up]

theorem goesUp_of_nearest {rm : Rm} {neg : Bool} {a b x : ℝ} {n : Nat} (h : rm = .rne ∨ rm = .rmm) :
    GoesUp rm neg a b x n ↔ a + b < 2 * x ∨ (a + b = 2 * x ∧ (rm = .rmm ∨ n % 2 = 1)) := by
  obtain rfl | rfl := h <;> simp [GoesUp, Claims.up]

theorem down_or_up_or_nearest {rm : Rm} (hrm : rm ≠ .dyn) (neg : Bool) :
    Claims.down rm neg ∨ Claims.up rm neg ∨ rm = .rne ∨ rm = .rmm := by
  cases rm <;> cases neg <;> simp_all [Claims.down, Claims.up]

/-- A magnitude that is the lower neighbour itself stays. -/
theorem GoesUp.lt {rm : Rm} {neg : Bool} {a b x : ℝ} {n : Nat} (h : GoesUp rm neg a b x n) (hab : a < b) : a < x := by
  rcases h with ⟨-, h⟩ | ⟨-, h | ⟨h, -⟩⟩ <;> linarith

theorem Fmt.grid_lt (f : Fmt) {c d : Nat} : (f.grid c : ℝ) < f.grid d ↔ c < d := by
  rw [Rat.cast_lt, f.grid_strictMono.lt_iff_lt]

theorem Fmt.grid_le (f : Fmt) {c d : Nat} : (f.grid c : ℝ) ≤ f.grid d ↔ c ≤ d := by
  rw [Rat.cast_le, f.grid_strictMono.le_iff_le]

section
variable {f : Fmt} {rm : Rm} {neg : Bool} {x : ℝ} {lo mag : Nat}

/-- The chosen neighbour is the magnitude itself just where the lower one is. -/
theorem Chosen.ne_iff (h : Chosen rm neg (f.grid lo) (f.grid (lo + 1)) x lo mag) : (f.grid mag : ℝ) ≠ x ↔ (f.grid lo : ℝ) < x := by
  by_cases hg : GoesUp rm neg (f.grid lo) (f.grid (lo + 1)) x lo
  · rw [h.raised hg]
    exact iff_of_true h.upper.ne' (hg.lt (f.grid_lt.2 (Nat.lt_succ_self lo)))
  · rw [h.kept hg]
    exact ⟨fun hne => lt_of_le_of_ne h.lower hne, ne_of_lt⟩

/-- The chosen neighbour under a mode to the nearest is as near as any pattern, and a tie goes where the mode says. -/
theorem Chosen.nearest (h : Chosen rm neg (f.grid lo) (f.grid (lo + 1)) x lo mag) (hrm : rm = .rne ∨ rm = .rmm) (c : Nat) :
    |(f.grid mag : ℝ) - x| ≤ |(f.grid c : ℝ) - x| ∧
      (|(f.grid mag : ℝ) - x| = |(f.grid c : ℝ) - x| → c ≠ mag →
        if rm = .rmm then (f.grid c : ℝ) < f.grid mag else mag % 2 = 0) := by
  obtain ⟨hlo, hhi, hup, hkeep⟩ := h
  rw [goesUp_of_nearest hrm] at hup hkeep
  have hc : ((f.grid c : ℝ) ≤ f.grid lo ∧ (c ≠ lo → (f.grid c : ℝ) < f.grid lo)) ∨
      ((f.grid (lo + 1) : ℝ) ≤ f.grid c ∧ (c ≠ lo + 1 → (f.grid (lo + 1) : ℝ) < f.grid c)) := by
    rcases Nat.lt_or_ge lo c with hlt | hge
    · exact .inr ⟨f.grid_le.2 hlt, fun hne => f.grid_lt.2 (by omega)⟩
    · exact .inl ⟨f.grid_le.2 hge, fun hne => f.grid_lt.2 (by omega)⟩
  have below : ∀ y : ℝ, y ≤ f.grid lo → |y - x| = x - y := fun y hy => by rw [abs_sub_comm]; exact abs_of_nonneg (by linarith)
  have above : ∀ y : ℝ, f.grid (lo + 1) ≤ y → |y - x| = y - x := fun y hy => abs_of_nonneg (by linarith)
  by_cases hg : (f.grid lo : ℝ) + f.grid (lo + 1) < 2 * x ∨
      ((f.grid lo : ℝ) + f.grid (lo + 1) = 2 * x ∧ (rm = .rmm ∨ lo % 2 = 1))
  · obtain rfl := hup hg
    have hfar : (f.grid lo : ℝ) + f.grid (lo + 1) ≤ 2 * x := hg.elim le_of_lt (fun h => h.1.le)
    rw [above _ le_rfl]
    rcases hc with ⟨hle, -⟩ | ⟨hge, hne⟩
    · rw [below _ hle]
      refine ⟨by linarith, fun heq _ => ?_⟩
      obtain hlt | ⟨-, htie⟩ := hg
      · linarith
      · split_ifs with hm
        · linarith
        · have := htie.resolve_left hm; omega
    · rw [above _ hge]
      exact ⟨by linarith, fun heq hcne => absurd (hne hcne) (by linarith)⟩
  · obtain rfl := hkeep hg
    have hnear : 2 * x ≤ (f.grid mag : ℝ) + f.grid (mag + 1) := not_lt.1 (fun h => hg (.inl h))
    rw [below _ le_rfl]
    rcases hc with ⟨hle, hne⟩ | ⟨hge, -⟩
    · rw [below _ hle]
      exact ⟨by linarith, fun heq hcne => absurd (hne hcne) (by linarith)⟩
    · rw [above _ hge]
      refine ⟨by linarith, fun heq _ => ?_⟩
      have htie : ¬(rm = .rmm ∨ mag % 2 = 1) := fun h => hg (.inr ⟨by linarith, h⟩)
      rw [if_neg (fun hm => htie (.inl hm))]
      omega

/-- The chosen neighbour is what the statements call the rounding of the magnitude. -/
theorem Chosen.picks (h : Chosen rm neg (f.grid lo) (f.grid (lo + 1)) x lo mag) (hmag : mag ≤ f.maxFinite) :
    Claims.Picks f rm neg x mag := by
  unfold Claims.Picks
  dsimp only
  refine ⟨hmag, fun hd => ?_, fun hu => ?_, fun hn c hc => ?_⟩
  · obtain rfl := h.kept (not_goesUp_of_down hd)
    rw [Fmt.magVal_eq_grid hmag]
    refine ⟨h.lower, fun c hc hcx => ?_⟩
    rw [Fmt.magVal_eq_grid hc] at hcx ⊢
    exact f.grid_le.2 (Nat.lt_succ_iff.1 (f.grid_lt.1 (hcx.trans_lt h.upper)))
  · rw [Fmt.magVal_eq_grid hmag]
    have hx : x ≤ f.grid mag := by
      by_cases hg : (f.grid lo : ℝ) < x
      · rw [h.raised ((goesUp_of_up hu).2 hg)]; exact h.upper.le
      · rw [h.kept (fun h' => hg ((goesUp_of_up hu).1 h'))]; exact not_lt.1 hg
    refine ⟨hx, fun c hc hxc => ?_⟩
    rw [Fmt.magVal_eq_grid hc] at hxc ⊢
    by_cases hg : (f.grid lo : ℝ) < x
    · rw [h.raised ((goesUp_of_up hu).2 hg)]
      exact f.grid_le.2 (f.grid_lt.1 (hg.trans_le hxc))
    · rw [h.kept (fun h' => hg ((goesUp_of_up hu).1 h'))]
      exact h.lower.trans hxc
  · rw [Fmt.magVal_eq_grid hmag, Fmt.magVal_eq_grid hc]
    exact h.nearest hn c

/-- The rounding past the largest finite value, in terms of the grid. -/
theorem past_iff_grid : Claims.Past f rm neg x ↔
    (Claims.down rm neg ∧ (f.grid (f.maxFinite + 1) : ℝ) ≤ x) ∨ (Claims.up rm neg ∧ (f.grid f.maxFinite : ℝ) < x) ∨
      ((rm = .rne ∨ rm = .rmm) ∧ ((f.grid f.maxFinite : ℝ) + f.grid (f.maxFinite + 1) < 2 * x ∨
        ((f.grid f.maxFinite : ℝ) + f.grid (f.maxFinite + 1) = 2 * x ∧ (rm = .rmm ∨ f.maxFinite % 2 = 1)))) := by
  have hnext : (f.grid (f.maxFinite + 1) : ℝ) = 2 * (Claims.magVal f f.maxFinite : ℝ) - (Claims.magVal f (f.maxFinite - 1) : ℝ) := by
    exact_mod_cast f.grid_after_maxFinite
  have hhalf : ∀ a b : ℝ, ((a + b) / 2 < x ↔ a + b < 2 * x) ∧ ((a + b) / 2 = x ↔ a + b = 2 * x) := fun a b =>
    ⟨by constructor <;> intro <;> linarith, by constructor <;> intro <;> linarith⟩
  unfold Claims.Past
  dsimp only
  rw [← hnext, Fmt.magVal_eq_grid (c := f.maxFinite) le_rfl, (hhalf _ _).1, (hhalf _ _).2]

/-- The chosen neighbour lies beyond the largest finite value just where the statements say that the rounding goes past it. -/
theorem Chosen.past_iff (hrm : rm ≠ .dyn) (h : Chosen rm neg (f.grid lo) (f.grid (lo + 1)) x lo mag) :
    f.maxFinite < mag ↔ Claims.Past f rm neg x := by
  have hstep : (f.grid f.maxFinite : ℝ) < f.grid (f.maxFinite + 1) := f.grid_lt.2 (Nat.lt_succ_self _)
  have hlo := h.lower
  have hhi := h.upper
  rw [past_iff_grid]
  rcases lt_trichotomy lo f.maxFinite with hlt | rfl | hgt
  · have hx : x < f.grid f.maxFinite := hhi.trans_le (f.grid_le.2 hlt)
    refine iff_of_false (by have := h.le; omega) ?_
    rintro (⟨-, h⟩ | ⟨-, h⟩ | ⟨-, h | ⟨h, -⟩⟩) <;> linarith
  · have hgo : f.maxFinite < mag ↔ GoesUp rm neg (f.grid f.maxFinite) (f.grid (f.maxFinite + 1)) x f.maxFinite :=
      ⟨fun hm => by_contra (fun hg => by have := h.kept hg; omega), fun hg => by have := h.raised hg; omega⟩
    rw [hgo, GoesUp]
    simp only [not_le.2 hhi, and_false, false_or]
  · have hx : (f.grid (f.maxFinite + 1) : ℝ) ≤ x := (f.grid_le.2 hgt).trans hlo
    refine iff_of_true (by have := h.le; omega) ?_
    rcases down_or_up_or_nearest hrm neg with hd | hu | hn
    · exact .inl ⟨hd, hx⟩
    · exact .inr (.inl ⟨hu, by linarith⟩)
    · exact .inr (.inr ⟨hn, .inl (by linarith)⟩)

end

end Sys2Proof.Machine
end

section
/-! SUPPORT. `roundTo` on the grid of a format (R18, R23): the result, its flags, and when it is tiny. -/
namespace Sys2Proof.Machine

/-- The exponent of the unit to which `roundTo` rounds m × 2^e. -/
def Fmt.unit (f : Fmt) (m : Nat) (e : Int) : Int :=
  (if e + Nat.log2 m < f.emin then f.emin else e + Nat.log2 m) - f.manBits

/-- The pattern of a significand `r` with that unit. -/
def Fmt.pattern (f : Fmt) (m : Nat) (e : Int) (r : Nat) : Nat :=
  (f.unit m e + f.manBits - f.emin).toNat * 2 ^ f.manBits + r

/-- Is the value, rounded as if the exponents went below the smallest, still below the smallest normal? -/
def tinyAfter (f : Fmt) (rm : Rm) (neg : Bool) (m : Nat) (e : Int) (sticky : Bool) : Bool :=
  decide (e + Nat.log2 m < f.emin) &&
    decide ((roundAt rm neg m e (e + Nat.log2 m - f.manBits) sticky).1 < 2 ^ (f.manBits + (f.emin - (e + Nat.log2 m)).toNat))

/-- What `roundTo` answers for a value other than zero. -/
theorem roundTo_eq {f : Fmt} {rm : Rm} {sat neg : Bool} {m : Nat} {e : Int} {sticky : Bool} (hm : m ≠ 0) :
    roundTo f rm sat neg m e sticky =
      if f.maxFinite < f.pattern m e (roundAt rm neg m e (f.unit m e) sticky).1 then
        ⟨signBits f neg + overflowMag f rm sat neg, flOF ||| flNX⟩
      else ⟨signBits f neg + f.pattern m e (roundAt rm neg m e (f.unit m e) sticky).1,
        if (roundAt rm neg m e (f.unit m e) sticky).2 then (if tinyAfter f rm neg m e sticky then flUF ||| flNX else flNX) else 0⟩ := by
  rw [roundTo, if_neg (by simpa using hm)]
  rfl

section
variable {f : Fmt} {rm : Rm} {neg : Bool} {m : Nat} {e : Int} {sticky : Bool} {x : ℝ}

/-- The binade of a magnitude. -/
theorem Known.binade (hx : Known m e sticky x) (hm : m ≠ 0) : (2 : ℝ) ^ (e + Nat.log2 m) ≤ x ∧ x < 2 ^ (e + Nat.log2 m + 1) := by
  have hpos : (0 : ℝ) < 2 ^ e := by positivity
  have hlo : ((2 ^ Nat.log2 m : Nat) : ℝ) ≤ m := by exact_mod_cast Nat.log2_self_le hm
  have hhi : (m : ℝ) + 1 ≤ ((2 ^ (Nat.log2 m + 1) : Nat) : ℝ) := by exact_mod_cast Nat.lt_log2_self
  constructor
  · calc (2 : ℝ) ^ (e + Nat.log2 m) = ((2 ^ Nat.log2 m : Nat) : ℝ) * 2 ^ e := by
          rw [two_zpow_eq_mul (q := e) (by omega), add_sub_cancel_left, Int.toNat_natCast]
      _ ≤ m * 2 ^ e := mul_le_mul_of_nonneg_right hlo hpos.le
      _ ≤ x := hx.le
  · calc x < ((m : ℝ) + 1) * 2 ^ e := hx.lt
      _ ≤ ((2 ^ (Nat.log2 m + 1) : Nat) : ℝ) * 2 ^ e := mul_le_mul_of_nonneg_right hhi hpos.le
      _ = 2 ^ (e + Nat.log2 m + 1) := by
          rw [two_zpow_eq_mul (q := e) (e := e + Nat.log2 m + 1) (by omega), add_assoc, add_sub_cancel_left,
            ← Nat.cast_add_one, Int.toNat_natCast]

/-- A multiple `n` of the unit next below a magnitude, and the next one, are the grid's values of neighbouring patterns. -/
theorem Known.grid_pattern (hx : Known m e sticky x) (hm : m ≠ 0) {n : Nat} (hlo : (n : ℝ) * 2 ^ f.unit m e ≤ x)
    (hhi : x < ((n : ℝ) + 1) * 2 ^ f.unit m e) :
    (f.grid (f.pattern m e n) : ℝ) = n * 2 ^ f.unit m e ∧ (f.grid (f.pattern m e n + 1) : ℝ) = ((n : ℝ) + 1) * 2 ^ f.unit m e := by
  obtain ⟨hbot, htop⟩ := hx.binade hm
  have hpos : (0 : ℝ) < 2 ^ f.unit m e := by positivity
  have hnat : ∀ k : Nat, (2 : ℝ) ^ (f.unit m e + k) = ((2 ^ k : Nat) : ℝ) * 2 ^ f.unit m e := fun k => by
    rw [two_zpow_eq_mul (q := f.unit m e) (by omega), add_sub_cancel_left, Int.toNat_natCast]
  have hunit : ((f.unit m e + f.manBits - f.emin).toNat : Int) + f.emin - f.manBits = f.unit m e := by
    unfold Fmt.unit; split_ifs <;> omega
  have hn : n < 2 ^ (f.manBits + 1) := by
    have hle : x < ((2 ^ (f.manBits + 1) : Nat) : ℝ) * 2 ^ f.unit m e := by
      rw [← hnat]
      exact htop.trans_le (zpow_le_zpow_right₀ one_le_two (by unfold Fmt.unit; push_cast; split_ifs <;> omega))
    exact_mod_cast (mul_lt_mul_iff_left₀ hpos).1 (hlo.trans_lt hle)
  have hnorm : (f.unit m e + f.manBits - f.emin).toNat = 0 ∨ 2 ^ f.manBits ≤ n := by
    rcases lt_or_ge (e + Nat.log2 m) f.emin with hlt | hge
    · exact .inl (by unfold Fmt.unit; rw [if_pos hlt]; omega)
    · have hq : e + Nat.log2 m = f.unit m e + f.manBits := by unfold Fmt.unit; rw [if_neg (not_lt.2 hge)]; omega
      rw [hq, hnat] at hbot
      have : ((2 ^ f.manBits : Nat) : ℝ) < n + 1 := (mul_lt_mul_iff_left₀ hpos).1 (hbot.trans_lt hhi)
      exact .inr (Nat.lt_succ_iff.1 (by exact_mod_cast this))
  have hcast : ∀ k : Nat, k ≤ 2 ^ (f.manBits + 1) → ((f.unit m e + f.manBits - f.emin).toNat = 0 ∨ 2 ^ f.manBits ≤ k) →
      (f.grid (f.pattern m e k) : ℝ) = k * 2 ^ f.unit m e := fun k h1 h2 => by
    rw [Fmt.pattern, f.grid_add _ _ h1 h2, hunit]; push_cast; rfl
  refine ⟨hcast n hn.le hnorm, ?_⟩
  have := hcast (n + 1) hn (hnorm.imp_right (fun h => h.trans (Nat.le_succ n)))
  push_cast at this
  exact this

theorem goesUp_congr {a b : ℝ} {n n' : Nat} (h : n % 2 = n' % 2) : GoesUp rm neg a b x n ↔ GoesUp rm neg a b x n' := by
  unfold GoesUp; rw [h]

theorem Fmt.pattern_mod_two (f : Fmt) (m : Nat) (e : Int) (n : Nat) : f.pattern m e n % 2 = n % 2 := by
  obtain ⟨k, hk⟩ : ∃ k, f.manBits = k + 1 := ⟨f.manBits - 1, by have := f.manBits_pos; omega⟩
  rw [Fmt.pattern, hk, pow_succ, ← mul_assoc]; omega

/-- `roundTo` rounds on the grid: it takes one of the two neighbours of the magnitude, and tells whether it was between them. -/
theorem Known.pattern_chosen (hx : Known m e sticky x) (hrm : rm ≠ .dyn) (hm : m ≠ 0) (hst : sticky = true → f.manBits < Nat.log2 m) :
    ∃ lo : Nat, Chosen rm neg (f.grid lo) (f.grid (lo + 1)) x lo (f.pattern m e (roundAt rm neg m e (f.unit m e) sticky).1) ∧
      ((roundAt rm neg m e (f.unit m e) sticky).2 = true ↔ (f.grid lo : ℝ) < x) := by
  obtain ⟨n, hn, hin⟩ := roundAt_chosen hrm (neg := neg) hx (q := f.unit m e) (fun h => by
    have := hst h
    unfold Fmt.unit; split_ifs <;> omega)
  obtain ⟨hg, hg'⟩ := hx.grid_pattern hm hn.lower hn.upper
  have hpar := goesUp_congr (rm := rm) (neg := neg) (a := n * 2 ^ f.unit m e) (b := (n + 1) * 2 ^ f.unit m e) (x := x)
    (f.pattern_mod_two m e n)
  rw [← hg] at hin
  refine ⟨f.pattern m e n, ⟨?_, ?_, fun h => ?_, fun h => ?_⟩, hin⟩
  · rw [hg]; exact hn.lower
  · rw [hg']; exact hn.upper
  · rw [hg, hg', hpar] at h
    rw [hn.raised h]; rfl
  · rw [hg, hg', hpar] at h
    rw [hn.kept h]
end

end Sys2Proof.Machine
end

section
/-! SUPPORT. Tininess and the flags of `roundTo` (R23): the result is the rounded one of the statements. -/
namespace Sys2Proof.Machine

section
variable {f : Fmt} {rm : Rm} {neg : Bool} {m : Nat} {e : Int} {sticky : Bool} {x : ℝ}

theorem not_tiny_of_le (h : (2 : ℝ) ^ f.emin ≤ x) : ¬Claims.Tiny f rm neg x := by
  have hw : (0 : ℝ) < 2 ^ f.emin := by positivity
  have hk : ∀ k : Nat, (2 : ℝ) ^ f.emin * (1 - 1 / 2 ^ k) < 2 ^ f.emin := fun k => by
    have : (0 : ℝ) < 1 / 2 ^ k := by positivity
    nlinarith
  have h1 := hk (f.manBits + 1)
  have h2 := hk (f.manBits + 2)
  rintro (⟨-, h'⟩ | ⟨-, h'⟩ | ⟨-, h'⟩) <;> linarith

theorem emin_split (f : Fmt) : (2 : ℝ) ^ f.emin = 2 ^ (f.manBits + 1) * 2 ^ (f.emin - (f.manBits + 1)) := by
  rw [← zpow_natCast, ← zpow_add₀ two_ne_zero]; congr 1; push_cast; ring

theorem tiny_of_up (h : Claims.up rm neg) : Claims.Tiny f rm neg x ↔ x ≤ (2 : ℝ) ^ f.emin * (1 - 1 / 2 ^ (f.manBits + 1)) := by
  obtain ⟨rfl, rfl⟩ | ⟨rfl, rfl⟩ := h <;> simp [Claims.Tiny, Claims.down, Claims.up]

theorem tiny_of_nearest (h : rm = .rne ∨ rm = .rmm) :
    Claims.Tiny f rm neg x ↔ x < (2 : ℝ) ^ f.emin * (1 - 1 / 2 ^ (f.manBits + 2)) := by
  obtain rfl | rfl := h <;> simp [Claims.Tiny, Claims.down, Claims.up]

/-- The last multiple of half a subnormal's unit that lies below the smallest normal. -/
theorem last_lt_emin (f : Fmt) : ((2 : ℝ) ^ (f.manBits + 1) - 1) * 2 ^ (f.emin - (f.manBits + 1)) < 2 ^ f.emin := by
  have hpos : (0 : ℝ) < 2 ^ (f.emin - (f.manBits + 1)) := by positivity
  rw [emin_split]
  linarith

/-- Just below the smallest normal a value is tiny where it does not round up to it. -/
theorem tiny_iff_not_goesUp (hrm : rm ≠ .dyn) (hx : x < 2 ^ f.emin) :
    Claims.Tiny f rm neg x ↔ ¬GoesUp rm neg ((2 ^ (f.manBits + 1) - 1) * 2 ^ (f.emin - (f.manBits + 1)))
      (2 ^ f.emin) x (2 ^ (f.manBits + 1) - 1) := by
  have hodd : (2 ^ (f.manBits + 1) - 1) % 2 = 1 := by
    have : 0 < 2 ^ f.manBits := by positivity
    rw [pow_succ]; omega
  have hone : (2 : ℝ) ^ f.emin * (1 - 1 / 2 ^ (f.manBits + 1)) = (2 ^ (f.manBits + 1) - 1) * 2 ^ (f.emin - (f.manBits + 1)) := by
    rw [emin_split]; field_simp
  have htwo : (2 : ℝ) ^ f.emin * (1 - 1 / 2 ^ (f.manBits + 2)) =
      ((2 ^ (f.manBits + 1) - 1) * 2 ^ (f.emin - (f.manBits + 1)) + 2 ^ f.emin) / 2 := by
    rw [← hone, pow_succ _ (f.manBits + 1)]; field_simp; ring
  rcases down_or_up_or_nearest hrm neg with hd | hu | hn
  · exact iff_of_true (.inl ⟨hd, hx⟩) (not_goesUp_of_down hd)
  · rw [goesUp_of_up hu, tiny_of_up hu, hone, not_lt]
  · rw [goesUp_of_nearest hn, tiny_of_nearest hn, htwo]
    simp only [hodd, or_true, and_true]
    constructor
    · rintro h (h' | h') <;> linarith
    · intro h
      by_contra h'
      exact h ((not_lt.1 h').lt_or_eq.imp (fun _ => by linarith) (fun _ => by linarith))

/-- The model's test of tininess is that of the statements. -/
theorem tinyAfter_iff (hx : Known m e sticky x) (hrm : rm ≠ .dyn) (hm : m ≠ 0) (hst : sticky = true → f.manBits < Nat.log2 m) :
    tinyAfter f rm neg m e sticky = true ↔ Claims.Tiny f rm neg x := by
  obtain ⟨hbot, htop⟩ := hx.binade hm
  rcases lt_or_ge (e + Nat.log2 m) f.emin with hlt | hge
  · obtain ⟨n, hn, -⟩ := roundAt_chosen hrm (neg := neg) hx (q := e + Nat.log2 m - f.manBits) (fun h => by
      have := hst h; omega)
    have hu : (0 : ℝ) < 2 ^ (e + Nat.log2 m - f.manBits : Int) := by positivity
    have hn2 : n < 2 ^ (f.manBits + 1) := by
      have h : (2 : ℝ) ^ (e + Nat.log2 m + 1) = ((2 ^ (f.manBits + 1) : Nat) : ℝ) * 2 ^ (e + Nat.log2 m - f.manBits : Int) := by
        push_cast
        rw [← zpow_natCast, ← zpow_add₀ two_ne_zero]; congr 1; push_cast; ring
      rw [h] at htop
      exact_mod_cast (mul_lt_mul_iff_left₀ hu).1 (hn.lower.trans_lt htop)
    have hxw : x < 2 ^ f.emin := htop.trans_le (zpow_le_zpow_right₀ one_le_two (by omega))
    have hk := hn.le
    rw [tiny_iff_not_goesUp hrm hxw]
    simp only [tinyAfter, hlt, decide_true, Bool.true_and, decide_eq_true_eq]
    have hstay : x ≤ (2 ^ (f.manBits + 1) - 1) * 2 ^ (f.emin - (f.manBits + 1)) → ¬GoesUp rm neg
        ((2 ^ (f.manBits + 1) - 1) * 2 ^ (f.emin - (f.manBits + 1))) (2 ^ f.emin) x (2 ^ (f.manBits + 1) - 1) :=
      fun h hg => absurd (hg.lt (last_lt_emin f)) (not_lt.2 h)
    rcases eq_or_lt_of_le (show e + Nat.log2 m + 1 ≤ f.emin from hlt) with hadj | hfar
    · have hq : e + Nat.log2 m - f.manBits = f.emin - (f.manBits + 1) := by omega
      rw [hq] at hn hu ⊢
      rw [show f.manBits + (f.emin - (e + Nat.log2 m)).toNat = f.manBits + 1 by omega]
      rcases Nat.lt_or_ge (n + 1) (2 ^ (f.manBits + 1)) with hsmall | hlast
      · refine iff_of_true (by have := hn.le; omega) (hstay (hn.upper.le.trans (mul_le_mul_of_nonneg_right ?_ hu.le)))
        have : ((n + 1 + 1 : Nat) : ℝ) ≤ ((2 ^ (f.manBits + 1) : Nat) : ℝ) := by exact_mod_cast hsmall
        push_cast at this
        linarith
      · have hn1 : ((n : ℝ) + 1) = 2 ^ (f.manBits + 1) := by exact_mod_cast (le_antisymm hn2 hlast)
        rw [emin_split, ← hn1, add_sub_cancel_right, show 2 ^ (f.manBits + 1) - 1 = n by omega]
        exact ⟨fun hk hg => by have := hn.raised hg; omega, fun hg => by have := hn.kept hg; omega⟩
    · have hk := hn.le
      have hpow : 2 ^ (f.manBits + 1 + 1) ≤ 2 ^ (f.manBits + (f.emin - (e + Nat.log2 m)).toNat) :=
        Nat.pow_le_pow_right two_pos (by omega)
      refine iff_of_true (by rw [pow_succ] at hpow; omega) (hstay ?_)
      have hv : (0 : ℝ) < 2 ^ (f.emin - (f.manBits + 1)) := by positivity
      have hone : (1 : ℝ) ≤ 2 ^ f.manBits := one_le_pow₀ one_le_two
      calc x ≤ 2 ^ (f.emin - 1) := htop.le.trans (zpow_le_zpow_right₀ one_le_two (by omega))
        _ = 2 ^ f.manBits * 2 ^ (f.emin - (f.manBits + 1)) := by
          rw [← zpow_natCast, ← zpow_add₀ two_ne_zero]; congr 1; ring
        _ ≤ (2 ^ (f.manBits + 1) - 1) * 2 ^ (f.emin - (f.manBits + 1)) :=
          mul_le_mul_of_nonneg_right (by rw [pow_succ]; linarith) hv.le
  · have : Claims.Tiny f rm neg x ↔ False := iff_false_intro (not_tiny_of_le
      ((zpow_le_zpow_right₀ one_le_two hge).trans hbot))
    simp [tinyAfter, this, not_lt.2 hge]

theorem overflowMag_eq (sat : Bool) : overflowMag f rm sat neg = Claims.overflowBits f rm sat neg := by
  cases rm <;> cases sat <;> cases neg <;> cases f <;> rfl

/-- What rounds past the largest finite value is no subnormal. -/
theorem emin_le_of_past (h : Claims.Past f rm neg x) : (2 : ℝ) ^ f.emin ≤ x := by
  have hstep : (f.grid f.maxFinite : ℝ) < f.grid (f.maxFinite + 1) := f.grid_lt.2 (Nat.lt_succ_self _)
  have hnormal : (f.grid (0 * 2 ^ f.manBits + 2 ^ f.manBits) : ℝ) = 2 ^ f.emin := by
    rw [f.grid_add 0 (2 ^ f.manBits) (Nat.pow_le_pow_right two_pos (Nat.le_succ _)) (.inl rfl)]
    push_cast
    rw [← zpow_natCast, ← zpow_add₀ two_ne_zero]; congr 1; ring
  have htop : (2 : ℝ) ^ f.emin ≤ f.grid f.maxFinite := by
    rw [← hnormal]; exact f.grid_le.2 (by cases f <;> decide)
  rcases past_iff_grid.1 h with ⟨-, h⟩ | ⟨-, h⟩ | ⟨-, h | ⟨h, -⟩⟩ <;> linarith

/-- R18, R23: `roundTo` rounds the magnitude that it is told of, exact or with a little more, once, and raises the flags of IEEE
754. -/
theorem Known.roundedRes (hx : Known m e sticky x) (hrm : rm ≠ .dyn) (hm : m ≠ 0) (hst : sticky = true → f.manBits < Nat.log2 m)
    (sat : Bool) : Claims.RoundedRes f rm sat neg x (roundTo f rm sat neg m e sticky) := by
  obtain ⟨lo, hc, hin⟩ := hx.pattern_chosen (f := f) (neg := neg) hrm hm hst
  have htiny := tinyAfter_iff (f := f) (neg := neg) hx hrm hm hst
  have hne := hc.ne_iff
  have hpast := hc.past_iff hrm
  rw [roundTo_eq hm]
  generalize f.pattern m e (roundAt rm neg m e (f.unit m e) sticky).1 = mag at hc hne hpast ⊢
  generalize (roundAt rm neg m e (f.unit m e) sticky).2 = inexact at hin ⊢
  by_cases hp : f.maxFinite < mag
  · rw [if_pos hp, overflowMag_eq]
    have hP := hpast.1 hp
    have hflags : (flOF ||| flNX).getLsbD 2 = true ∧ (flOF ||| flNX).getLsbD 0 = true ∧ (flOF ||| flNX).getLsbD 1 = false ∧
        (flOF ||| flNX).toNat < 8 := by decide
    obtain ⟨h2, h0, h1, h8⟩ := hflags
    refine ⟨⟨iff_of_true h2 hP, fun _ => ⟨h0, rfl⟩, fun h => absurd hP h⟩, ?_, h8⟩
    exact iff_of_false (by rw [h1]; decide) (fun h => not_tiny_of_le (emin_le_of_past hP) h.2)
  · rw [if_neg hp]
    have hP : ¬Claims.Past f rm neg x := fun h => hp (hpast.2 h)
    have hflags : ∀ t : Bool, let fl : Flags := if inexact then (if t then flUF ||| flNX else flNX) else 0
        fl.getLsbD 2 = false ∧ fl.getLsbD 0 = inexact ∧ fl.getLsbD 1 = (inexact && t) ∧ fl.toNat < 8 := by
      cases inexact <;> decide
    obtain ⟨h2, h0, h1, h8⟩ := hflags (tinyAfter f rm neg m e sticky)
    refine ⟨⟨iff_of_false (by rw [h2]; decide) hP, fun h => absurd h hP, fun _ => ⟨mag, rfl, hc.picks (not_lt.1 hp), ?_⟩⟩, ?_, h8⟩
    · rw [h0, hin, ← hne, Fmt.magVal_eq_grid (not_lt.1 hp)]
    · rw [h1, h0, Bool.and_eq_true, htiny]
end

end Sys2Proof.Machine
end

section
/-! SUPPORT. The values of the conversions (R18, R21, R22, R116, R117). -/
namespace Sys2Proof.Machine

/-- A pattern that has a rational value is finite. -/
theorem fin_of_ratOf {v : FVal} {q : ℚ} (h : Claims.ratOf v = some q) :
    ∃ n m e, v = .fin n m e ∧ q = (if n then -1 else 1) * (m : ℚ) * (2 : ℚ) ^ e := by
  cases v with
  | nan s => cases h
  | inf n => cases h
  | fin n m e => exact ⟨n, m, e, rfl, (Option.some.inj h).symm⟩

/-- The sign and the magnitude of a finite value other than zero. -/
theorem sign_magnitude_of_ratOf {v : FVal} {q : ℚ} (h : Claims.ratOf v = some q) (hq : q ≠ 0) :
    ∃ m e, v = .fin (decide (q < 0)) m e ∧ m ≠ 0 ∧ |q| = (m : ℚ) * (2 : ℚ) ^ e := by
  obtain ⟨n, m, e, hv, rfl⟩ := fin_of_ratOf h
  have hm : m ≠ 0 := by rintro rfl; simp at hq
  have hpos : (0 : ℚ) < (m : ℚ) * 2 ^ e := mul_pos (by exact_mod_cast Nat.pos_of_ne_zero hm) (by positivity)
  refine ⟨m, e, ?_, hm, ?_⟩
  · cases n <;> simp [hv, hpos.le, hpos]
  · cases n <;> simp [abs_of_pos hpos]

/-- The flags that a conversion between float types leaves of those that `roundTo` raises (R117). -/
def narrowed (fl : Flags) (low : Bool) : Flags :=
  if (fl &&& (flNX ||| flOF)) == flNX then (if low then flUF ||| flNX else flNX) else fl

theorem narrowFlags_eq (f : Fmt) (r : FRes) :
    narrowFlags f r = ⟨r.bits, narrowed r.flags (decide (r.bits % f.signWeight < 2 ^ f.manBits))⟩ := by
  simp only [narrowFlags, narrowed, decide_eq_true_eq]
  split_ifs <;> rfl

/-- Underflow is raised where the result is inexact, did not overflow and is low; the other flags stay. -/
theorem narrowed_flags (low : Bool) : ∀ fl : Flags, fl.toNat < 8 →
    (fl.getLsbD 1 = true → fl.getLsbD 0 = true ∧ fl.getLsbD 2 = false) →
    (narrowed fl low).getLsbD 2 = fl.getLsbD 2 ∧ (narrowed fl low).getLsbD 0 = fl.getLsbD 0 ∧ (narrowed fl low).toNat < 8 ∧
      (narrowed fl low).getLsbD 1 = ((narrowed fl low).getLsbD 0 && !(narrowed fl low).getLsbD 2 && low) := by
  cases low <;> decide

@[simp] theorem narrowed_nvIf (c low : Bool) : narrowed (nvIf c) low = nvIf c := by cases c <;> cases low <;> decide
@[simp] theorem narrowed_zero (low : Bool) : narrowed 0#5 low = 0#5 := by cases low <;> decide

section
variable {src dst : Tc} {f g : Fmt} {rm : Rm} {sat : Bool} {b : Nat}

theorem convert_float (hf : Tc.fmt? src = some f) (hg : Tc.fmt? dst = some g) :
    convert src dst rm sat b = narrowFlags g (fcvt f g rm sat b) := by
  rw [convert, hf, hg]

/-- A finite value other than zero is rounded once, with the underflow of R117. -/
theorem convert_float_finite (hf : Tc.fmt? src = some f) (hg : Tc.fmt? dst = some g) (hrm : rm ≠ .dyn) {q : ℚ}
    (hq : Claims.ratOf (fval f b) = some q) (hq0 : q ≠ 0) :
    let r := convert src dst rm sat b
    Claims.Rounded g rm sat (decide (q < 0)) ((|q| : ℚ) : ℝ) r.bits (r.flags.getLsbD 2 = true) (r.flags.getLsbD 0 = true) ∧
      (r.flags.getLsbD 1 = true ↔ r.flags.getLsbD 0 = true ∧ r.flags.getLsbD 2 = false ∧ r.bits % g.signWeight < 2 ^ g.manBits) ∧
      r.flags.toNat < 8 := by
  obtain ⟨m, e, hv, hm, hx⟩ := sign_magnitude_of_ratOf hq hq0
  have hcvt : fcvt f g rm sat b = roundTo g rm sat (decide (q < 0)) m e false := by rw [fcvt, hv]
  have hround := (Known.exact m e).roundedRes (f := g) (neg := decide (q < 0)) hrm hm (by simp) sat
  rw [convert_float hf hg, hcvt, narrowFlags_eq, hx]
  push_cast
  generalize roundTo g rm sat (decide (q < 0)) m e false = t at hround ⊢
  obtain ⟨hr, hUF, h8⟩ := hround
  obtain ⟨h2, h0, h8', h1⟩ := narrowed_flags (decide (t.bits % g.signWeight < 2 ^ g.manBits)) _ h8 (fun h => 
    ⟨(hUF.1 h).1, Bool.eq_false_iff.2 (fun h2 => not_tiny_of_le (emin_le_of_past (hr.1.1 h2)) (hUF.1 h).2)⟩)
  refine ⟨?_, ?_, h8'⟩
  · rw [h2, h0]; exact hr
  · rw [h1]; simp [and_assoc]

/-- Zeros, infinities and NaNs (R18, R117). -/
theorem convert_float_special (hf : Tc.fmt? src = some f) (hg : Tc.fmt? dst = some g) :
    let r := convert src dst rm sat b
    ((fval f b).isZero = true → r = ⟨signBits g (fval f b).neg, 0⟩) ∧
      (∀ n, fval f b = .inf n →
        r = if sat = false ∧ g ≠ .e4m3 ∧ g ≠ .e2m1 then ⟨signBits g n + g.infBits, 0⟩ else ⟨signBits g n + g.maxFinite, flNX⟩) ∧
      ((fval f b).isNan = true → r = ⟨g.canon, nvIf ((fval f b).isSig || g == .e2m1)⟩) := by
  rw [convert_float hf hg, narrowFlags_eq, fcvt]
  cases fval f b with
  | nan s =>
    refine ⟨fun h => by simp [FVal.isZero] at h, fun n h => by simp at h, fun _ => ?_⟩
    simp [canonRes, FVal.isSig]
  | inf n =>
    refine ⟨fun h => by simp [FVal.isZero] at h, fun k h => ?_, fun h => by simp [FVal.isNan] at h⟩
    obtain rfl : n = k := by simpa using h
    have hinf : (g.hasInf && !sat) = decide (sat = false ∧ g ≠ .e4m3 ∧ g ≠ .e2m1) := by cases g <;> cases sat <;> decide
    have hnormal : ¬(signBits g n + g.maxFinite) % g.signWeight < 2 ^ g.manBits := by cases g <;> cases n <;> decide
    simp only [hinf, decide_eq_true_eq]
    split_ifs
    · simp
    · simp only [hnormal, decide_false]; rfl
  | fin n m e =>
    refine ⟨fun h => ?_, fun n h => by simp at h, fun h => by simp [FVal.isNan] at h⟩
    obtain rfl : m = 0 := by simpa [FVal.isZero] using h
    simp [roundTo, FVal.neg]
end

/-- What `roundAt` makes of m × 2^e at the unit 1: an integer, as the mode asks. -/
theorem roundAt_integral {rm : Rm} (hrm : rm ≠ .dyn) (neg : Bool) (m : Nat) (e : Int) :
    let y : ℚ := m * 2 ^ e
    let r := roundAt rm neg m e 0 false
    (Claims.down rm neg → (r.1 : Int) = ⌊y⌋) ∧ (Claims.up rm neg → (r.1 : Int) = ⌈y⌉) ∧
      (rm = .rne ∨ rm = .rmm → |(r.1 : ℚ) - y| ≤ 1 / 2 ∧
        (|(r.1 : ℚ) - y| = 1 / 2 → if rm = .rmm then y < r.1 else r.1 % 2 = 0)) ∧
      (r.2 = true ↔ (r.1 : ℚ) ≠ y) := by
  intro y r
  obtain ⟨n, hc, hin⟩ := roundAt_chosen hrm (neg := neg) (Known.exact m e) (q := 0) (by simp)
  change Chosen _ _ _ _ _ _ r.1 at hc
  change r.2 = true ↔ _ at hin
  have hx : (m : ℝ) * 2 ^ e = (y : ℝ) := by simp only [y]; push_cast; rfl
  simp only [hx, zpow_zero, mul_one] at hc hin
  obtain ⟨hlo, hhi, hup, hkeep⟩ := hc
  have hlo' : (n : ℚ) ≤ y := by exact_mod_cast hlo
  have hhi' : y < (n : ℚ) + 1 := by exact_mod_cast hhi
  refine ⟨fun hd => ?_, fun hu => ?_, fun hn => ?_, ?_⟩
  · rw [hkeep (not_goesUp_of_down hd), eq_comm, Int.floor_eq_iff]
    exact ⟨by exact_mod_cast hlo', by exact_mod_cast hhi'⟩
  · rw [goesUp_of_up hu] at hup hkeep
    rw [eq_comm, Int.ceil_eq_iff]
    by_cases h : (n : ℝ) < y
    · rw [hup h]
      have : (n : ℚ) < y := by exact_mod_cast h
      push_cast
      exact ⟨by linarith, hhi'.le⟩
    · rw [hkeep h]
      have : y ≤ n := by exact_mod_cast not_lt.1 h
      push_cast
      exact ⟨by linarith, this⟩
  · rw [goesUp_of_nearest hn] at hup hkeep
    have hmid : ((n : ℝ) + (n + 1) < 2 * y ↔ (n : ℚ) + (n + 1) < 2 * y) ∧
        ((n : ℝ) + (n + 1) = 2 * y ↔ (n : ℚ) + (n + 1) = 2 * y) := by
      constructor <;> exact_mod_cast Iff.rfl
    rw [hmid.1, hmid.2] at hup hkeep
    by_cases h : (n : ℚ) + (n + 1) < 2 * y ∨ ((n : ℚ) + (n + 1) = 2 * y ∧ (rm = .rmm ∨ n % 2 = 1))
    · have hle : 2 * (n : ℚ) + 1 ≤ 2 * y := by rcases h with h | ⟨h, -⟩ <;> linarith
      rw [hup h, show (((n + 1 : Nat) : ℚ)) - y = n + 1 - y by push_cast; ring, abs_of_pos (by linarith)]
      refine ⟨by linarith, fun htie => ?_⟩
      have hodd := (h.resolve_left (by linarith)).2
      split_ifs with hm
      · push_cast; linarith
      · have := hodd.resolve_left hm; omega
    · have hle : 2 * y ≤ 2 * (n : ℚ) + 1 := by by_contra h'; exact h (.inl (by linarith))
      rw [hkeep h, abs_sub_comm, abs_of_nonneg (by linarith)]
      refine ⟨by linarith, fun htie => ?_⟩
      have heven : ¬(rm = .rmm ∨ n % 2 = 1) := fun h' => h (.inr ⟨by linarith, h'⟩)
      rw [if_neg (fun hm => heven (.inl hm))]
      omega
  · by_cases hg : GoesUp rm neg (n : ℝ) (n + 1) y n
    · rw [hup hg, hin]
      refine iff_of_true (hg.lt (by linarith)) (fun h => ?_)
      push_cast at h
      linarith
    · rw [hkeep hg, hin]
      exact ⟨fun h => by exact_mod_cast h.ne, fun h => lt_of_le_of_ne hlo (by exact_mod_cast h)⟩

/-- A finite value rounded to an integer is what the mode asks of it, sign included. -/
theorem toInteger_picks {rm : Rm} (hrm : rm ≠ .dyn) (n : Bool) (m : Nat) (e : Int) :
    let q : ℚ := (if n then -1 else 1) * (m : ℚ) * 2 ^ e
    let r := toInteger rm n m e
    Claims.IntPicks rm q r.1 ∧ (r.2 = true ↔ (r.1 : ℚ) ≠ q) := by
  obtain ⟨hdown, hup, hnear, hne⟩ := roundAt_integral hrm n m e
  have hy : (0 : ℚ) ≤ (m : ℚ) * 2 ^ e := by positivity
  simp only [toInteger, mul_assoc]
  generalize (roundAt rm n m e 0 false).2 = inexact at hne ⊢
  generalize (roundAt rm n m e 0 false).1 = k at hdown hup hnear hne ⊢
  generalize (m : ℚ) * 2 ^ e = y at hdown hup hnear hne hy ⊢
  cases n with
  | false =>
    simp only [Bool.false_eq_true, if_false, one_mul, Int.cast_natCast]
    refine ⟨?_, hne⟩
    cases rm with
    | dyn => exact absurd rfl hrm
    | rtz => exact (hdown (.inl rfl)).trans (if_pos hy).symm
    | rdn => exact hdown (.inr (.inl ⟨rfl, rfl⟩))
    | rup => exact hup (.inr ⟨rfl, rfl⟩)
    | rmm =>
      obtain ⟨hle, htie⟩ := hnear (.inr rfl)
      exact ⟨hle, fun h => by rw [abs_of_nonneg hy]; exact (htie h).trans_le (le_abs_self _)⟩
    | rne =>
      obtain ⟨hle, htie⟩ := hnear (.inl rfl)
      exact ⟨hle, fun h => by have : k % 2 = 0 := htie h; omega⟩
  | true =>
    simp only [if_true, neg_mul, one_mul, Int.cast_neg, Int.cast_natCast]
    refine ⟨?_, hne.trans (not_congr neg_inj.symm)⟩
    have hdist : |-(k : ℚ) - -y| = |(k : ℚ) - y| := by rw [neg_sub_neg, abs_sub_comm]
    cases rm with
    | dyn => exact absurd rfl hrm
    | rtz =>
      have hk := hdown (.inl rfl)
      simp only [Claims.IntPicks]
      split_ifs with h
      · have h0 : y = 0 := by linarith
        rw [hk, h0]; simp
      · rw [hk, Int.ceil_neg]
    | rdn => exact (congrArg Neg.neg (hup (.inl ⟨rfl, rfl⟩))).trans Int.floor_neg.symm
    | rup => exact (congrArg Neg.neg (hdown (.inr (.inr ⟨rfl, rfl⟩)))).trans Int.ceil_neg.symm
    | rmm =>
      obtain ⟨hle, htie⟩ := hnear (.inr rfl)
      refine ⟨by push_cast; rw [hdist]; exact hle, fun h => ?_⟩
      push_cast at h ⊢
      rw [hdist] at h
      rw [abs_neg, abs_neg, abs_of_nonneg hy]
      exact (htie h).trans_le (le_abs_self _)
    | rne =>
      obtain ⟨hle, htie⟩ := hnear (.inl rfl)
      refine ⟨by push_cast; rw [hdist]; exact hle, fun h => ?_⟩
      push_cast at h
      rw [hdist] at h
      have : k % 2 = 0 := htie h
      omega

theorem IFmt.lo_le_hi (t : IFmt) : t.lo ≤ t.hi := by
  have h1 : (1 : Int) ≤ (2 ^ t.n : Nat) := by exact_mod_cast Nat.one_le_two_pow
  have h2 : (1 : Int) ≤ (2 ^ (t.n - 1) : Nat) := by exact_mod_cast Nat.one_le_two_pow
  unfold IFmt.lo IFmt.hi
  split_ifs <;> omega

/-- Saturation (R9) is the nearest value of the type's range. -/
theorem IFmt.sat_eq (t : IFmt) (v : Int) : t.sat v = max t.lo (min t.hi v) := by
  have := t.lo_le_hi
  unfold IFmt.sat
  split_ifs <;> omega

theorem IFmt.wrap_eq (t : IFmt) (v : Int) : t.wrap v = (v % 2 ^ t.n).toNat := by
  rw [IFmt.wrap]; push_cast; rfl

/-- R22, R117: a float converts to an integer type. -/
theorem fcvtToInt_toInteger (f : Fmt) (d : IFmt) {rm : Rm} (hrm : rm ≠ .dyn) (b : Nat) :
    Claims.ToInteger f d rm b (fcvtToInt f d rm b) := by
  have := d.lo_le_hi
  unfold Claims.ToInteger
  simp only [← IFmt.wrap_eq]
  refine ⟨fun q hq => ?_, fun n hv => ?_, fun hnan => ?_⟩
  · obtain ⟨n, m, e, hv, hval⟩ := fin_of_ratOf hq
    obtain ⟨hpick, hne⟩ := toInteger_picks hrm n m e
    rw [← hval] at hpick hne
    rw [fcvtToInt, hv]
    dsimp only
    generalize (toInteger rm n m e).2 = inexact at hne ⊢
    generalize (toInteger rm n m e).1 = z at hpick hne ⊢
    have hs := d.sat_eq z
    refine ⟨z, hpick, fun hlo hhi => ?_, fun hlo => ?_, fun hhi => ?_⟩
    · rw [if_pos (beq_iff_eq.2 (by omega))]
      by_cases hz : (z : ℚ) = q
      · rw [if_pos hz, if_neg (fun h => hne.1 h hz)]
      · rw [if_neg hz, if_pos (hne.2 hz)]
    · rw [if_neg (by simp only [beq_iff_eq]; omega), show d.sat z = d.lo by omega]
    · rw [if_neg (by simp only [beq_iff_eq]; omega), show d.sat z = d.hi by omega]
  · rw [fcvtToInt, hv]
  · rw [fcvtToInt]
    cases hv : fval f b with
    | nan s => rfl
    | inf n => simp [hv, FVal.isNan] at hnan
    | fin n m e => simp [hv, FVal.isNan] at hnan

/-- R18, R21, R22, R116, R117: the values of the conversions and their flags. -/
theorem conversionValues : Claims.ConversionValues := by
  intro src dst rm sat b hrm r v d
  refine ⟨fun f g hf hg => ⟨fun q hq hq0 => convert_float_finite hf hg hrm hq hq0, convert_float_special hf hg⟩,
    fun f hf hd => ?_, fun g hs hg => ?_, fun hs hd => ?_⟩
  · have hr : r = fcvtToInt f d rm b := by simp only [r, convert, hf, hd, d]
    rw [hr]
    exact fcvtToInt_toInteger f d hrm b
  · have hr : r = roundTo g rm sat (decide (v < 0)) v.natAbs 0 false := by simp only [r, convert, hs, hg]; rfl
    rw [hr]
    refine ⟨fun h0 => ?_, fun h0 => ?_⟩
    · rw [h0]; rfl
    · have hx := (Known.exact v.natAbs 0).roundedRes (f := g) (neg := decide (v < 0)) hrm (Int.natAbs_ne_zero.2 h0) (by simp) sat
      rw [zpow_zero, mul_one, Nat.cast_natAbs] at hx
      exact hx
  · have hr : r = ⟨icvt (Tc.ifmt src) d b, 0⟩ := by simp only [r, convert, hs, hd, d]
    have hmod : ∀ z : Int, ((d.wrap z : Nat) : Int) = z % 2 ^ d.n := fun z => by
      rw [IFmt.wrap_eq, Int.toNat_of_nonneg (Int.emod_nonneg _ (by positivity))]
    rw [hr]
    refine ⟨rfl, ?_⟩
    show ((icvt (Tc.ifmt src) d b : Nat) : Int) = _
    rw [icvt, hmod, IFmt.sat_eq]

end Sys2Proof.Machine
end

section
/-! SUPPORT. Stochastic rounding (R25, R118): a neighbour on the grid, by the part of the unit that the random word stands against. -/
namespace Sys2Proof.Machine

/-- What truncation to a multiple of 2^q drops of m × 2^e, in units of the significand. -/
def droppedBits (m : Nat) (e q : Int) : Nat := if q ≤ e then 0 else m % 2 ^ (q - e).toNat

/-- The same as a part of the unit. -/
def droppedPart (m : Nat) (e q : Int) : ℚ := (droppedBits m e q : ℚ) / ((2 ^ (q - e).toNat : Nat) : ℚ)

/-- The threshold of R25: the dropped part of the unit, in steps of 2^-32. -/
def srThreshold (m : Nat) (e q : Int) : Nat := droppedBits m e q * 2 ^ 32 / 2 ^ (q - e).toNat

/-- Does the random word take the upper neighbour? -/
def srUp (w : BitVec 32) (m : Nat) (e q : Int) : Bool := droppedBits m e q != 0 && decide (w.toNat < srThreshold m e q)

/-- What `froundSr` answers for a value other than zero. -/
theorem froundSr_eq {g : Fmt} {sat n : Bool} {w : BitVec 32} {b m : Nat} {e : Int} (hv : fval .f32 b = .fin n m e) (hm : m ≠ 0) :
    let lo := g.pattern m e (roundAt .rtz n m e (g.unit m e) false).1
    let mag := if srUp w m e (g.unit m e) then lo + 1 else lo
    froundSr g sat w b =
      if g.maxFinite < mag then ⟨signBits g n + overflowMag g .rne sat n, flOF ||| flNX⟩
      else ⟨signBits g n + mag,
        if droppedBits m e (g.unit m e) = 0 then 0 else if mag < 2 ^ g.manBits then flUF ||| flNX else flNX⟩ := by
  intro lo mag
  have hmag : mag = (g.unit m e + g.manBits - g.emin).toNat * 2 ^ g.manBits +
      (if srUp w m e (g.unit m e) then (roundAt .rtz n m e (g.unit m e) false).1 + 1 else (roundAt .rtz n m e (g.unit m e) false).1) := by
    simp only [mag, lo, Fmt.pattern]
    split_ifs <;> rfl
  rw [hmag, froundSr, hv]
  dsimp only
  rw [if_neg (by simpa using hm)]
  simp only [beq_iff_eq]
  rfl

/-- Truncation and the dropped part make up the value. -/
theorem truncated_add_dropped (neg : Bool) (m : Nat) (e q : Int) :
    (m : ℚ) * 2 ^ e = ((roundAt .rtz neg m e q false).1 + droppedPart m e q) * 2 ^ q := by
  rcases le_or_gt q e with hle | hlt
  · rw [droppedPart, droppedBits, if_pos hle, roundAt, if_pos hle, two_zpow_eq_mul hle]
    push_cast; ring
  · have htrunc : (roundAt .rtz neg m e q false).1 = m / 2 ^ (q - e).toNat := by
      rw [roundAt, if_neg (not_le.2 hlt)]; rfl
    rw [droppedPart, droppedBits, if_neg (not_le.2 hlt), htrunc, two_zpow_eq_mul hlt.le]
    generalize hD : 2 ^ (q - e).toNat = D
    have hDpos : (D : ℚ) ≠ 0 := by rw [← hD]; positivity
    have hm : (m : ℚ) = ((m / D : Nat) : ℚ) * D + ((m % D : Nat) : ℚ) := by exact_mod_cast (Nat.div_add_mod' m D).symm
    conv_lhs => rw [hm]
    field_simp

theorem droppedPart_nonneg (m : Nat) (e q : Int) : 0 ≤ droppedPart m e q := by unfold droppedPart; positivity

theorem droppedPart_lt_one (m : Nat) (e q : Int) : droppedPart m e q < 1 := by
  have hpos : 0 < 2 ^ (q - e).toNat := by positivity
  have hlt : droppedBits m e q < 2 ^ (q - e).toNat := by
    unfold droppedBits
    split_ifs
    · exact hpos
    · exact Nat.mod_lt _ hpos
  exact (div_lt_one (by positivity)).2 (by exact_mod_cast hlt)

theorem droppedPart_eq_zero_iff (m : Nat) (e q : Int) : droppedPart m e q = 0 ↔ droppedBits m e q = 0 := by
  simp [droppedPart]

section
variable {g : Fmt} {m : Nat}

/-- The truncated pattern and the next one, in the rationals. -/
theorem grid_truncated (n : Bool) (e : Int) (hm : m ≠ 0) :
    let k := (roundAt .rtz n m e (g.unit m e) false).1
    g.grid (g.pattern m e k) = k * 2 ^ g.unit m e ∧ g.grid (g.pattern m e k + 1) = ((k : ℚ) + 1) * 2 ^ g.unit m e := by
  intro k
  have hx := Known.exact m e
  obtain ⟨j, hc, -⟩ := roundAt_chosen (by decide : Rm.rtz ≠ .dyn) (neg := n) hx (q := g.unit m e) (by simp)
  obtain rfl : k = j := hc.kept (not_goesUp_of_down (.inl rfl))
  obtain ⟨h0, h1⟩ := hx.grid_pattern hm hc.lower hc.upper
  exact ⟨Rat.cast_injective (α := ℝ) (by push_cast; exact h0), Rat.cast_injective (α := ℝ) (by push_cast; exact h1)⟩

/-- The magnitude in terms of the truncated pattern: the dropped part of one unit above it. -/
theorem magnitude_eq_truncated (n : Bool) (e : Int) (hm : m ≠ 0) :
    let lo := g.pattern m e (roundAt .rtz n m e (g.unit m e) false).1
    (m : ℚ) * 2 ^ e = g.grid lo + droppedPart m e (g.unit m e) * (g.grid (lo + 1) - g.grid lo) := by
  obtain ⟨h0, h1⟩ := grid_truncated (g := g) n e hm
  dsimp only
  rw [h1, h0, truncated_add_dropped n m e (g.unit m e)]
  ring

end

/-- The threshold is that of R25. -/
theorem srUp_iff (w : BitVec 32) (m : Nat) (e q : Int) :
    srUp w m e q = true ↔ droppedPart m e q ≠ 0 ∧ (w.toNat : Int) < ⌊droppedPart m e q * 2 ^ 32⌋ := by
  have hfloor : ⌊droppedPart m e q * 2 ^ 32⌋ = (srThreshold m e q : Nat) := by
    rw [droppedPart, div_mul_eq_mul_div, srThreshold, Int.natCast_div, ← Rat.floor_natCast_div_natCast]
    push_cast; rfl
  rw [hfloor, srUp]
  simp [droppedPart_eq_zero_iff]

/-- R25, R118: stochastic rounding. -/
theorem stochasticRounding : Claims.StochasticRounding := by
  intro g sat w b d q hq hq0 _ v x r flags
  obtain ⟨m, e, hv, hm, hx⟩ := sign_magnitude_of_ratOf hq hq0
  have hr : r = _ := froundSr_eq (g := g) (sat := sat) (w := w) hv hm
  have hval := magnitude_eq_truncated (g := g) (decide (q < 0)) e hm
  have hup := srUp_iff w m e (g.unit m e)
  have ht0 := droppedPart_nonneg m e (g.unit m e)
  have ht1 := droppedPart_lt_one m e (g.unit m e)
  dsimp only at hr hval
  rw [← hx] at hval
  simp only [← droppedPart_eq_zero_iff] at hr
  generalize droppedPart m e (g.unit m e) = t at *
  generalize srUp w m e (g.unit m e) = up at *
  generalize g.pattern m e (roundAt .rtz (decide (q < 0)) m e (g.unit m e) false).1 = lo at *
  have hgap : g.grid lo < g.grid (lo + 1) := g.grid_strictMono (Nat.lt_succ_self lo)
  have hlo : g.grid lo ≤ |q| := by nlinarith
  have hhi : |q| < g.grid (lo + 1) := by nlinarith
  refine ⟨fun hd hdlo hdhi => ?_, fun hpast => ?_⟩
  · simp only [v, flags, x, Fmt.magVal_eq_grid hd.le, Fmt.magVal_eq_grid (c := d + 1) hd] at hdlo hdhi ⊢
    obtain rfl : d = lo := le_antisymm (Nat.lt_succ_iff.1 (g.grid_strictMono.lt_iff_lt.1 (hdlo.trans_lt hhi)))
      (Nat.lt_succ_iff.1 (g.grid_strictMono.lt_iff_lt.1 (hlo.trans_lt hdhi)))
    have hfrac : (|q| - g.grid d) / (g.grid (d + 1) - g.grid d) = t := by
      rw [div_eq_iff (by linarith)]; linarith
    have heq : g.grid d = |q| ↔ t = 0 := by
      rw [← hfrac, div_eq_zero_iff, sub_eq_zero, eq_comm, or_iff_left (by linarith)]
    rw [ne_eq] at hup
    simp only [hfrac, ne_eq, heq, ← hup, hhi.ne', if_false]
    rw [hr]
    cases up with
    | true =>
      have ht := (hup.1 rfl).1
      rw [if_pos rfl, if_neg (by omega), if_neg ht]
      exact ⟨fun _ => rfl, fun h => absurd rfl h⟩
    | false =>
      rw [if_neg Bool.false_ne_true, if_neg (by omega)]
      exact ⟨fun h => absurd h Bool.false_ne_true, fun _ => rfl⟩
  · simp only [v, x] at hpast
    rw [← g.grid_after_maxFinite] at hpast
    have hlo : g.maxFinite < lo := Nat.lt_of_succ_lt_succ (g.grid_strictMono.lt_iff_lt.1 (hpast.trans_lt hhi))
    rw [hr, if_pos (by split_ifs <;> omega), overflowMag_eq]

end Sys2Proof.Machine
end

section
/-! SUPPORT. What the conditions of the compares test (R108, R109). -/
namespace Sys2Proof.Machine

/-- An aligned significand stands for its value. -/
theorem scaled_mul_zpow (n : Bool) (m : Nat) {e e0 : Int} (h : e0 ≤ e) :
    (scaled n m e e0 : ℝ) * 2 ^ e0 = (if n then -1 else 1) * (m : ℝ) * 2 ^ e := by
  rw [scaled, two_zpow_eq_mul h]
  cases n <;> simp <;> ring

/-- The order of two finite values is that of the reals. -/
theorem fltVal_fin_iff (n1 n2 : Bool) (m1 m2 : Nat) (e1 e2 : Int) :
    fltVal (.fin n1 m1 e1) (.fin n2 m2 e2) = true ↔
      (if n1 then -1 else 1) * (m1 : ℝ) * 2 ^ e1 < (if n2 then -1 else 1) * (m2 : ℝ) * 2 ^ e2 := by
  have hle1 : (if e1 ≤ e2 then e1 else e2) ≤ e1 := by split_ifs <;> omega
  have hle2 : (if e1 ≤ e2 then e1 else e2) ≤ e2 := by split_ifs <;> omega
  rw [← scaled_mul_zpow n1 m1 hle1, ← scaled_mul_zpow n2 m2 hle2, mul_lt_mul_iff_left₀ (by positivity)]
  simp [fltVal]

/-- The order of two values that are no NaNs is that of the extended reals. -/
theorem fltVal_iff {x y : FVal} {p q : EReal} (hx : Claims.ExtIs x p) (hy : Claims.ExtIs y q) : fltVal x y = true ↔ p < q := by
  cases x with
  | nan s => exact hx.elim
  | inf n1 =>
    obtain rfl : p = _ := hx
    cases y with
    | nan s => exact hy.elim
    | inf n2 =>
      obtain rfl : q = _ := hy
      cases n1 <;> cases n2 <;> simp [fltVal]
    | fin n2 m2 e2 =>
      obtain rfl : q = _ := hy
      cases n1 with
      | false => simp [fltVal]
      | true => exact iff_of_true rfl (EReal.bot_lt_coe _)
  | fin n1 m1 e1 =>
    obtain rfl : p = _ := hx
    cases y with
    | nan s => exact hy.elim
    | inf n2 =>
      obtain rfl : q = _ := hy
      cases n2 with
      | false => exact iff_of_true rfl (EReal.coe_lt_top _)
      | true => simp [fltVal]
    | fin n2 m2 e2 =>
      obtain rfl : q = _ := hy
      rw [fltVal_fin_iff, EReal.coe_lt_coe_iff]

theorem isNan_of_extIs {x : FVal} {p : EReal} (h : Claims.ExtIs x p) : x.isNan = false := by
  cases x with
  | nan s => exact h.elim
  | inf n => rfl
  | fin n m e => rfl

/-- A compare of values that are no NaNs tests the order of the extended reals, without a flag. -/
theorem fcompare_of_extIs {f : Fmt} {a b : Nat} {p q : EReal} (c : Cond) (hx : Claims.ExtIs (fval f a) p)
    (hy : Claims.ExtIs (fval f b) q) :
    (fcompare f c a b).2 = 0 ∧ ((fcompare f c a b).1 = true ↔
      (c = .eq ∧ p = q) ∨ (c = .ne ∧ p ≠ q) ∨ (c = .lt ∧ p < q) ∨ (c = .ge ∧ q ≤ p) ∨ (c = .gt ∧ q < p) ∨ (c = .le ∧ p ≤ q) ∨
        c = .ord) := by
  have hlt := fltVal_iff hx hy
  have hgt := fltVal_iff hy hx
  rw [fcompare]
  simp only [isNan_of_extIs hx, isNan_of_extIs hy, Bool.or_self, Bool.false_eq_true, if_false]
  generalize fltVal (fval f a) (fval f b) = lt at hlt ⊢
  generalize fltVal (fval f b) (fval f a) = gt at hgt ⊢
  cases c with
  | eq =>
    have heq : (!lt && !gt) = true ↔ p = q := by
      rw [Bool.and_eq_true, Bool.not_eq_true', Bool.not_eq_true', ← Bool.not_eq_true, ← Bool.not_eq_true, hlt, hgt, not_lt, not_lt]
      exact ⟨fun h => le_antisymm h.2 h.1, fun h => ⟨h.ge, h.le⟩⟩
    simpa using heq
  | ne => simp [hlt, hgt, lt_or_lt_iff_ne]
  | lt => simp [hlt]
  | ge => simp [← Bool.not_eq_true, hlt]
  | gt => simp [hgt]
  | le => simp [← Bool.not_eq_true, hgt]
  | ord => simp
  | uno => simp

/-- A compare with a NaN: `ne` and `uno` alone are true, and the ordered conditions are invalid. -/
theorem fcompare_of_nan {f : Fmt} {a b : Nat} (c : Cond) (h : (fval f a).isNan = true ∨ (fval f b).isNan = true) :
    ((fcompare f c a b).1 = true ↔ c = .ne ∨ c = .uno) ∧
      (fcompare f c a b).2 = if c = .lt ∨ c = .ge ∨ c = .gt ∨ c = .le then flNV else nvIf ((fval f a).isSig || (fval f b).isSig) := by
  rw [fcompare]
  simp only [Bool.or_eq_true, h, if_true]
  cases c <;> simp

/-- R108, R109: what the conditions of the compares test. -/
theorem compareValues : Claims.CompareValues :=
  ⟨condInt_iff, fun _ c _ _ => ⟨fun _ _ hx hy => fcompare_of_extIs c hx hy, fun h => fcompare_of_nan c h⟩⟩

/-- Settles O4: the words are lane words of `convert`, `froundSr` and the compares; every rounding is one choice between two neighbours
on the grid of the format (`Chosen`), of which the statements' `Picks` and `Past` follow. -/
theorem conversionAndCompareWords : Obligations.ConversionAndCompareWords :=
  ⟨conversionWords, conversionValues, stochasticRounding, compareValues, compareWords⟩

end Sys2Proof.Machine
end

section
/-! SUPPORT. The fields of an instruction word: each is read back from the word, and each code table from its codes (R36, R41). -/
namespace Sys2Proof

theorem F32.ofWord_toWord (f : F32) : F32.ofWord f.toWord = f := by
  simp (disch := decide) only [F32.ofWord, F32.toWord, BitVec.extractLsb'_append_eq_of_le,
    BitVec.extractLsb'_append_eq_of_add_le, BitVec.extractLsb'_eq_self, Nat.reduceSub]

theorem FLane.ofWord_toWord (f : FLane) : FLane.ofWord f.toWord = f := by
  simp (disch := decide) only [FLane.ofWord, FLane.toWord, BitVec.extractLsb'_append_eq_of_le,
    BitVec.extractLsb'_append_eq_of_add_le, BitVec.extractLsb'_eq_self, Nat.reduceSub]

@[simp] theorem bit1_ofBool1 (b : Bool) : bit1 (ofBool1 b) = b := by cases b <;> rfl

@[simp] theorem Rm.ofCode_code (x : Rm) : ofCode Rm.code Rm.all x.code = some x := by cases x <;> rfl
@[simp] theorem Ity.ofCode_code (x : Ity) : ofCode Ity.code Ity.all x.code = some x := by cases x <;> rfl
@[simp] theorem Tc.ofCode_code (x : Tc) : ofCode Tc.code Tc.all x.code = some x := by cases x <;> rfl
@[simp] theorem NegTy.ofCode_code (x : NegTy) : ofCode NegTy.code NegTy.all x.code = some x := by cases x <;> rfl
@[simp] theorem Dp4Ty.ofCode_code (x : Dp4Ty) : ofCode Dp4Ty.code Dp4Ty.all x.code = some x := by cases x <;> rfl
@[simp] theorem Cond.ofCode_code (x : Cond) : ofCode Cond.code Cond.all x.code = some x := by cases x <;> rfl
@[simp] theorem Width.ofCode_code (x : Width) : ofCode Width.code Width.all x.code = some x := by cases x <;> rfl
@[simp] theorem Ordering4.ofCode_code (x : Ordering4) : ofCode Ordering4.code Ordering4.all x.code = some x := by cases x <;> rfl
@[simp] theorem Scope.ofCode_code (x : Scope) : ofCode Scope.code Scope.all x.code = some x := by cases x <;> rfl
@[simp] theorem Hint.ofCode_code (x : Hint) : ofCode Hint.code Hint.all x.code = some x := by cases x <;> rfl
@[simp] theorem TBuf.ofCode_code (x : TBuf) : ofCode TBuf.code TBuf.all x.code = some x := by cases x <;> rfl
@[simp] theorem SubW.ofCode_code (x : SubW) : ofCode SubW.code SubW.all x.code = some x := by cases x <;> rfl
@[simp] theorem ScanTy.ofCode_code (x : ScanTy) : ofCode ScanTy.code ScanTy.all x.code = some x := by cases x <;> rfl
@[simp] theorem ATy.ofCode_code (x : ATy) : ofCode ATy.code ATy.all x.code = some x := by cases x <;> rfl
@[simp] theorem OrdTy.ofCode_code (x : OrdTy) : ofCode OrdTy.code OrdTy.all x.code = some x := by cases x <;> rfl
@[simp] theorem BrCond.ofCode_code (x : BrCond) : ofCode BrCond.code BrCond.all x.code = some x := by cases x <;> rfl
@[simp] theorem SgnOp.ofCode_code (x : SgnOp) : ofCode SgnOp.code SgnOp.all x.code = some x := by cases x <;> rfl
@[simp] theorem FCmpOp.ofCode_code (x : FCmpOp) : ofCode FCmpOp.code FCmpOp.all x.code = some x := by cases x <;> rfl
@[simp] theorem IntTy.ofCode_code (x : IntTy) : ofCode IntTy.code IntTy.all x.code = some x := by cases x <;> rfl
@[simp] theorem AmoOp.ofCode_code (x : AmoOp) : ofCode AmoOp.code AmoOp.all x.code = some x := by cases x <;> rfl

section
variable (rs1 rs2 : BitVec 5) (f3 : BitVec 3) (rd : BitVec 5) (op : BitVec 7)

/-- The I shape holds its immediate in funct7 and rs2. -/
@[simp] theorem F32.immI_split (imm : BitVec 12) :
    F32.immI ⟨imm.extractLsb' 5 7, imm.extractLsb' 0 5, rs1, f3, rd, op⟩ = imm := by
  simp (disch := decide) only [F32.immI, BitVec.extractLsb'_append_extractLsb'_eq_extractLsb', BitVec.extractLsb'_eq_self]

/-- The S shape holds its immediate in funct7 and rd. -/
@[simp] theorem F32.immS_split (imm : BitVec 12) :
    F32.immS ⟨imm.extractLsb' 5 7, rs2, rs1, f3, imm.extractLsb' 0 5, op⟩ = imm := by
  simp (disch := decide) only [F32.immS, BitVec.extractLsb'_append_extractLsb'_eq_extractLsb', BitVec.extractLsb'_eq_self]

/-- The U shape holds its immediate above rd. -/
@[simp] theorem F32.immU_split (imm : BitVec 20) :
    F32.immU ⟨imm.extractLsb' 13 7, imm.extractLsb' 8 5, imm.extractLsb' 3 5, imm.extractLsb' 0 3, rd, op⟩ = imm := by
  simp (disch := decide) only [F32.immU, BitVec.extractLsb'_append_extractLsb'_eq_extractLsb', BitVec.extractLsb'_eq_self]

/-- The B shape holds bits 12:1 of its offset in funct7 and rd. -/
@[simp] theorem F32.offB_split (off : BitVec 12) :
    F32.offB ⟨off.extractLsb' 11 1 ++ off.extractLsb' 4 6, rs2, rs1, f3, off.extractLsb' 0 4 ++ off.extractLsb' 10 1, op⟩ = off := by
  simp (disch := decide) only [F32.offB, BitVec.extractLsb'_append_eq_of_le, BitVec.extractLsb'_append_eq_of_add_le,
    BitVec.extractLsb'_append_extractLsb'_eq_extractLsb', BitVec.extractLsb'_eq_self, Nat.reduceSub]
end

/-- The U-shape field of a jump gives its offset back. -/
@[simp] theorem offJOfU_uOfOffJ (off : BitVec 20) : offJOfU (uOfOffJ off) = off := by
  simp (disch := decide) only [offJOfU, uOfOffJ, BitVec.extractLsb'_append_eq_of_le, BitVec.extractLsb'_append_eq_of_add_le,
    BitVec.extractLsb'_append_extractLsb'_eq_extractLsb', BitVec.extractLsb'_eq_self, Nat.reduceSub]
end Sys2Proof
end

section
/-! SUPPORT. The standard instructions of the row STANDARD_INSTRUCTION (R33): every word that the encoder makes is read back. -/
namespace Sys2Proof

theorem ofCode_eq_none {α β : Type} [DecidableEq β] {code : α → β} {b : β} (all : List α) (h : ∀ a, code a ≠ b) :
    ofCode code all b = none :=
  List.find?_eq_none.2 fun a _ => by simp [h a]

/-! ### OP and OP-IMM: no code of one table is read as another's -/

theorem AluOp.ofCode_code (x : AluOp) : ofCode AluOp.code AluOp.all x.code = some x := by cases x <;> rfl
theorem AluImm.ofCode_code (x : AluImm) : ofCode AluImm.code AluImm.all x.code = some x := by cases x <;> rfl
theorem UnOp.ofCode_code (x : UnOp) : ofCode UnOp.code UnOp.all x.code = some x := by cases x <;> rfl
theorem ShiftImm.ofCode_code (x : ShiftImm) : ofCode ShiftImm.code ShiftImm.all x.code = some x := by cases x <;> rfl

/-- A register-register word is no unary one: bits 31:25, funct3 and opcode differ. -/
theorem UnOp.code_ne_alu (u : UnOp) (op : AluOp) (rs2 : BitVec 5) : u.code ≠ (op.code.1 ++ rs2, op.code.2) := by
  have tops : ∀ (u : UnOp) (op : AluOp), (u.code.1.extractLsb' 5 7, u.code.2) ≠ op.code := by
    intro u; cases u <;> intro op <;> cases op <;> decide
  intro h
  exact tops u op (by rw [h, BitVec.extractLsb'_append_eq_left])

/-- A shift by an immediate is no unary operation: bits 31:26, funct3 and opcode differ. -/
theorem UnOp.code_ne_shift (u : UnOp) (op : ShiftImm) (sh : BitVec 6) : u.code ≠ (op.code.1 ++ sh, op.code.2) := by
  have tops : ∀ (u : UnOp) (op : ShiftImm), (u.code.1.extractLsb' 6 6, u.code.2) ≠ op.code := by
    intro u; cases u <;> intro op <;> cases op <;> decide
  intro h
  exact tops u op (by rw [h, BitVec.extractLsb'_append_eq_left])

/-- The OP and OP-32 words are those of the register-register operations and of `zext.h`. -/
theorem AluOp.rawF32_eq_decodeOp (op : AluOp) (f : F32) (h : f.op = op.code.2.2) : rawF32 f = decodeOp f := by
  unfold rawF32; rw [h]; cases op <;> rfl

/-- The OP-IMM and OP-IMM-32 words are those of the shifts. -/
theorem ShiftImm.rawF32_eq_decodeOpImm (op : ShiftImm) (f : F32) (h : f.op = op.code.2.2) : rawF32 f = decodeOpImm f := by
  unfold rawF32; rw [h]; cases op <;> rfl

theorem AluImm.rawF32_eq_decodeOpImm (op : AluImm) (f : F32) (h : f.op = op.code.2) : rawF32 f = decodeOpImm f := by
  unfold rawF32; rw [h]; cases op <;> rfl

theorem rawF32_alu (op : AluOp) (rd rs1 rs2 : XReg) :
    rawF32 ⟨op.code.1, rs2, rs1, op.code.2.1, rd, op.code.2.2⟩ = some (.standardInstruction (.alu op rd rs1 rs2)) := by
  rw [AluOp.rawF32_eq_decodeOp op _ rfl]
  simp only [decodeOp, F32.immI, ofCode_eq_none UnOp.all (fun u => u.code_ne_alu op rs2), op.ofCode_code, Prod.mk.eta,
    Option.map_some]

theorem rawF32_aluImm (op : AluImm) (rd rs1 : XReg) (imm : BitVec 12) :
    rawF32 ⟨imm.extractLsb' 5 7, imm.extractLsb' 0 5, rs1, op.code.1, rd, op.code.2⟩ =
      some (.standardInstruction (.aluImm op rd rs1 imm)) := by
  rw [AluImm.rawF32_eq_decodeOpImm op _ rfl]
  simp only [decodeOpImm, F32.immI_split, op.ofCode_code, Prod.mk.eta]

theorem rawF32_shift (op : ShiftImm) (rd rs1 : XReg) (sh : BitVec 6) :
    rawF32 ⟨op.code.1 ++ sh.extractLsb' 5 1, sh.extractLsb' 0 5, rs1, op.code.2.1, rd, op.code.2.2⟩ =
      some (.standardInstruction (.shift op rd rs1 sh)) := by
  have amount : sh.extractLsb' 5 1 ++ sh.extractLsb' 0 5 = sh := by
    simp (disch := decide) only [BitVec.extractLsb'_append_extractLsb'_eq_extractLsb', BitVec.extractLsb'_eq_self]
  have noImm : ∀ a : AluImm, a.code ≠ (op.code.2.1, op.code.2.2) := by
    intro a; cases a <;> cases op <;> decide
  have noUn : ∀ u : UnOp, u.code ≠ (op.code.1 ++ sh.extractLsb' 5 1 ++ sh.extractLsb' 0 5, op.code.2.1, op.code.2.2) := by
    intro u h
    rw [BitVec.append_assoc, BitVec.cast_eq, amount] at h
    exact u.code_ne_shift op sh h
  rw [ShiftImm.rawF32_eq_decodeOpImm op _ rfl]
  simp only [decodeOpImm, F32.immI, ofCode_eq_none AluImm.all noImm, ofCode_eq_none UnOp.all noUn, BitVec.extractLsb'_append_eq_left,
    BitVec.extractLsb'_append_eq_right, amount, op.ofCode_code, Prod.mk.eta, Option.map_some]

/-- `zext.h` stands among the OP-32 words, the other unary operations among the OP-IMM and OP-IMM-32 words. -/
theorem UnOp.rawF32_eq (op : UnOp) (f : F32) (h : f.op = op.code.2.2) :
    rawF32 f = if op = .zexth then decodeOp f else decodeOpImm f := by
  unfold rawF32; rw [h]; cases op <;> rfl

theorem rawF32_un (op : UnOp) (rd rs1 : XReg) :
    rawF32 ⟨op.code.1.extractLsb' 5 7, op.code.1.extractLsb' 0 5, rs1, op.code.2.1, rd, op.code.2.2⟩ =
      some (.standardInstruction (.un op rd rs1)) := by
  have noImm : op ≠ .zexth → ∀ a : AluImm, a.code ≠ (op.code.2.1, op.code.2.2) := by
    intro hz a
    cases op with
    | zexth => exact absurd rfl hz
    | _ => cases a <;> decide
  rw [UnOp.rawF32_eq op _ rfl]
  split
  case isTrue hz => simp only [decodeOp, F32.immI_split, op.ofCode_code, Prod.mk.eta]
  case isFalse hz =>
    simp only [decodeOpImm, F32.immI_split, op.ofCode_code, Prod.mk.eta, ofCode_eq_none AluImm.all (noImm hz)]

/-! ### The F and D extensions -/

/-- A fused multiply-add by its opcode. -/
theorem FmaOp.rawF32_eq (op : FmaOp) (f : F32) (h : f.op = op.code) :
    rawF32 f = if f.f7.extractLsb' 1 1 != 0 then none else
      (ofCode Rm.code Rm.all f.f3).map fun rm =>
        .standardInstruction (.fma op (bit1 (f.f7.extractLsb' 0 1)) rm f.rd f.rs1 f.rs2 (f.f7.extractLsb' 2 5)) := by
  unfold rawF32; rw [h]; cases op <;> rfl

/-- The arithmetic of OP-FP by bits 31:27. -/
theorem FBinOp.decodeOpFp_eq (op : FBinOp) (f : F32) (h : f.f7.extractLsb' 2 5 = op.code) :
    decodeOpFp f = if f.f7.extractLsb' 1 1 != 0 then none else
      (ofCode Rm.code Rm.all f.f3).map fun rm =>
        .standardInstruction (.fbin op (bit1 (f.f7.extractLsb' 0 1)) rm f.rd f.rs1 f.rs2) := by
  unfold decodeOpFp; rw [h]; cases op <;> rfl

section
variable (top : BitVec 5) (dbl : Bool)

/-! funct7 of a float instruction: bits 31:27, a zero, and the format. -/

@[simp] theorem fpF7_top : (top ++ (0#1) ++ ofBool1 dbl).extractLsb' 2 5 = top := by
  rw [BitVec.extractLsb'_append_eq_of_le (by decide), BitVec.extractLsb'_append_eq_left]
@[simp] theorem fpF7_zero : (top ++ (0#1) ++ ofBool1 dbl).extractLsb' 1 1 = 0 := by
  rw [BitVec.extractLsb'_append_eq_of_le (by decide), BitVec.extractLsb'_append_eq_right]; rfl
@[simp] theorem fpF7_fmt : (top ++ (0#1) ++ ofBool1 dbl).extractLsb' 0 1 = ofBool1 dbl :=
  BitVec.extractLsb'_append_eq_right
end

theorem rawF32_fma (op : FmaOp) (dbl : Bool) (rm : Rm) (rd rs1 rs2 rs3 : XReg) :
    rawF32 ⟨rs3 ++ (0#1) ++ ofBool1 dbl, rs2, rs1, rm.code, rd, op.code⟩ =
      some (.standardInstruction (.fma op dbl rm rd rs1 rs2 rs3)) := by
  rw [FmaOp.rawF32_eq op _ rfl]
  simp only [fpF7_zero, fpF7_top, fpF7_fmt, bne_self_eq_false, Bool.false_eq_true, if_false, Rm.ofCode_code, Option.map_some,
    bit1_ofBool1]

theorem decodeOpFp_fbin (op : FBinOp) (dbl : Bool) (rm : Rm) (rd rs1 rs2 : XReg) :
    decodeOpFp ⟨op.code ++ (0#1) ++ ofBool1 dbl, rs2, rs1, rm.code, rd, 0x53⟩ =
      some (.standardInstruction (.fbin op dbl rm rd rs1 rs2)) := by
  rw [FBinOp.decodeOpFp_eq op _ (fpF7_top _ _)]
  simp only [fpF7_zero, fpF7_fmt, bne_self_eq_false, Bool.false_eq_true, if_false, Rm.ofCode_code, Option.map_some,
    bit1_ofBool1]

theorem rawF32_encStd {i : Std} {f : F32} (h : encStd i = some f) : rawF32 f = some (.standardInstruction i) := by
  have fp : ∀ f : F32, f.op = 0x53 → rawF32 f = decodeOpFp f := fun f hop => by unfold rawF32; rw [hop]; rfl
  cases i with
  | lui rd imm => cases h; simp [rawF32]
  | auipc rd imm => cases h; simp [rawF32]
  | jal rd off => cases h; simp [rawF32]
  | jalr rd rs1 imm => cases h; simp [rawF32, need]
  | branch c rs1 rs2 off => cases h; simp [rawF32]
  | alu op rd rs1 rs2 => cases h; exact rawF32_alu ..
  | aluImm op rd rs1 imm => cases h; exact rawF32_aluImm ..
  | shift op rd rs1 sh => cases h; exact rawF32_shift ..
  | un op rd rs1 => cases h; exact rawF32_un ..
  | fma op dbl rm rd rs1 rs2 rs3 => cases h; exact rawF32_fma ..
  | fbin op dbl rm rd rs1 rs2 => cases h; exact (fp _ rfl).trans (decodeOpFp_fbin ..)
  | fsqrt dbl rm rd rs1 => cases h; rw [fp _ rfl]; cases dbl <;> simp [decodeOpFp, ofBool1, bit1, need]
  | fsgnj op dbl rd rs1 rs2 => cases h; rw [fp _ rfl]; cases dbl <;> simp [decodeOpFp, ofBool1, bit1]
  | fminmax mx dbl rd rs1 rs2 => cases h; rw [fp _ rfl]; cases mx <;> cases dbl <;> simp [decodeOpFp, ofBool1, bit1, need]
  | fcmp op dbl rd rs1 rs2 => cases h; rw [fp _ rfl]; cases dbl <;> simp [decodeOpFp, ofBool1, bit1]
  | fclass dbl rd rs1 => cases h; rw [fp _ rfl]; cases dbl <;> simp [decodeOpFp, ofBool1, bit1, need]
  | fcvtFF toD rm rd rs1 => cases h; rw [fp _ rfl]; cases toD <;> simp [decodeOpFp, ofBool1, bit1, need]
  | fcvtFI dbl ty rm rd rs1 => cases h; rw [fp _ rfl]; cases dbl <;> simp [decodeOpFp, ofBool1, bit1]
  | fcvtIF dbl ty rm rd rs1 => cases h; rw [fp _ rfl]; cases dbl <;> simp [decodeOpFp, ofBool1, bit1]
  | fmvXF dbl rd rs1 => cases h; rw [fp _ rfl]; cases dbl <;> simp [decodeOpFp, ofBool1, bit1, need]
  | fmvFX dbl rd rs1 => cases h; rw [fp _ rfl]; cases dbl <;> simp [decodeOpFp, ofBool1, bit1, need]
  | ecall => cases h; rfl
  | ebreak => cases h; rfl
  | pause => cases h; rfl
  | illegal bits => cases h

end Sys2Proof
end

section
/-! SUPPORT. Encoding and decoding of 32-bit words (R33, R36 to R40): every word that the encoder makes is read back. -/
namespace Sys2Proof

@[simp] theorem extractLsb'_mfield_top (k : MReg) : (mfield k).extractLsb' 4 1 = 0 := BitVec.extractLsb'_append_eq_left
@[simp] theorem extractLsb'_mfield_low (k : MReg) : (mfield k).extractLsb' 0 4 = k := BitVec.extractLsb'_append_eq_right

/-- The CSR instructions: funct3 gives the operation and the form, and writes of the loop registers are a row of their own. -/
theorem decodeSystem_csr (op : CsrOp) (imm : Bool) (csr : BitVec 12) (rd src : XReg) :
    decodeSystem ⟨csr.extractLsb' 5 7, csr.extractLsb' 0 5, src, ofBool1 imm ++ op.code, rd, 0x73⟩ =
      some (if isLoopCsr csr && csrWrites op src then .loopCsrWrite op imm csr rd src else .csrAccess op imm csr rd src) := by
  cases imm <;> cases op <;> simp [decodeSystem, ofBool1, CsrOp.code, ofCode, CsrOp.all, bit1]

/-- A fence but for the word of `pause`. -/
theorem decodeMiscMem_fence (fm pred succ : BitVec 4) (h : (Instr.fence fm pred succ).wf = true) :
    decodeMiscMem ⟨(fm ++ pred ++ succ).extractLsb' 5 7, (fm ++ pred ++ succ).extractLsb' 0 5, 0, 0, 0, 0x0F⟩ =
      some (.fence fm pred succ) := by
  have notPause : fm ++ pred ++ succ ≠ 0x010#12 := by
    intro he
    have hs : succ = 0 := by
      rw [← BitVec.extractLsb'_append_eq_right (a := fm ++ pred) (b := succ), he]; rfl
    have hp : fm ++ pred = 1#8 := by
      rw [← BitVec.extractLsb'_append_eq_left (a := fm ++ pred) (b := succ), he]; rfl
    have hp' : pred = 1 := by
      rw [← BitVec.extractLsb'_append_eq_right (a := fm) (b := pred), hp]; rfl
    have hf : fm = 0 := by
      rw [← BitVec.extractLsb'_append_eq_left (a := fm) (b := pred), hp]; rfl
    subst hs hp' hf
    exact absurd h (by decide)
  have hfm : (fm ++ pred ++ succ).extractLsb' 8 4 = fm := by
    rw [BitVec.extractLsb'_append_eq_of_le (by decide), BitVec.extractLsb'_append_eq_left]
  have hpred : (fm ++ pred ++ succ).extractLsb' 4 4 = pred := by
    rw [BitVec.extractLsb'_append_eq_of_le (by decide), BitVec.extractLsb'_append_eq_right]
  have hsucc : (fm ++ pred ++ succ).extractLsb' 0 4 = succ := BitVec.extractLsb'_append_eq_right
  show (if _ then _ else _) = _
  rw [F32.immI_split, if_neg (by simpa using notPause), hfm, hpred, hsucc]

theorem decodeAmo_enc (op : AmoOp) (dbl aq rl : Bool) (rd rs1 rs2 : XReg) :
    decodeAmo ⟨op.code ++ ofBool1 aq ++ ofBool1 rl, rs2, rs1, if dbl then 3 else 2, rd, 0x2F⟩ =
      some (.hartAmo op dbl aq rl rd rs1 rs2) := by
  have hop : (op.code ++ ofBool1 aq ++ ofBool1 rl).extractLsb' 2 5 = op.code := by
    rw [BitVec.extractLsb'_append_eq_of_le (by decide), BitVec.extractLsb'_append_eq_left]
  have haq : (op.code ++ ofBool1 aq ++ ofBool1 rl).extractLsb' 1 1 = ofBool1 aq := by
    rw [BitVec.extractLsb'_append_eq_of_le (by decide), BitVec.extractLsb'_append_eq_right]
  have hrl : (op.code ++ ofBool1 aq ++ ofBool1 rl).extractLsb' 0 1 = ofBool1 rl := BitVec.extractLsb'_append_eq_right
  cases dbl <;> simp only [decodeAmo, hop, haq, hrl, AmoOp.ofCode_code, bit1_ofBool1, Option.map_some] <;> rfl

theorem rawF32_of_enc32 {i : Instr} {f : F32} (hw : i.wf = true) (h : enc32 i = some f) : rawF32 f = some i := by
  cases i with
  | uimask n => cases h; simp [rawF32, decodeCustom0, need]
  | hloop lvl rs1 len => cases h; cases lvl <;> simp [rawF32, decodeCustom0, need, ofBool1]
  | hloopi lvl count len =>
    have hlen : len.extractLsb' 5 5 ++ len.extractLsb' 0 5 = len := by
      simp (disch := decide) only [BitVec.extractLsb'_append_extractLsb'_eq_extractLsb', BitVec.extractLsb'_eq_self]
    cases h; cases lvl <;> simp [rawF32, decodeCustom0, ofBool1, hlen]
  | loopCsrWrite op imm csr rd src =>
    cases h
    exact (decodeSystem_csr op imm csr rd src).trans (congrArg some (if_pos hw))
  | csrAccess op imm csr rd src =>
    cases h
    exact (decodeSystem_csr op imm csr rd src).trans (congrArg some (if_neg (Bool.eq_false_iff.1 (Bool.not_eq_true' _ ▸ hw))))
  | barArr rs1 imm => cases h; simp [rawF32, decodeCustom1, need]
  | barWait rs1 imm => cases h; simp [rawF32, decodeCustom1, need]
  | barTry rd rs1 imm => cases h; simp [rawF32, decodeCustom1]
  | barArw rs1 imm => cases h; simp [rawF32, decodeCustom1, need]
  | strmCfg ss rs1 =>
    cases h
    simp [rawF32, decodeCustom2, need, -Nat.reduceAdd, BitVec.extractLsb'_append_eq_left, BitVec.extractLsb'_append_eq_right]
  | strmEnd ss =>
    cases h
    simp [rawF32, decodeCustom2, need, -Nat.reduceAdd, BitVec.extractLsb'_append_eq_left, BitVec.extractLsb'_append_eq_right]
  | dqShip r rd rs1 rs2 =>
    cases h
    simp [rawF32, decodeCustom2, need, -Nat.reduceAdd, BitVec.extractLsb'_append_eq_left, BitVec.extractLsb'_append_eq_right]
  | cwait cls n =>
    cases h
    simp [rawF32, decodeCustom2, need, -Nat.reduceAdd, BitVec.extractLsb'_append_eq_left, BitVec.extractLsb'_append_eq_right]
  | ctry rd cls n =>
    cases h
    simp [rawF32, decodeCustom2, need, -Nat.reduceAdd, BitVec.extractLsb'_append_eq_left, BitVec.extractLsb'_append_eq_right]
  | qtdeq rd rs1 rs2 => cases h; exact if_pos hw
  | mdiv k => cases h; simp [rawF32, decodeCustom3, need]
  | melse k => cases h; simp [rawF32, decodeCustom3, need]
  | bmany k off => cases h; simp [rawF32, decodeCustom3, need]
  | bmall k off => cases h; simp [rawF32, decodeCustom3, need]
  | bmnone k off => cases h; simp [rawF32, decodeCustom3, need]
  | hartLoad k rd rs1 imm => cases h; cases k <;> simp [rawF32, LoadKind.code, ofCode, LoadKind.all]
  | hartStore k rs1 rs2 imm => cases h; cases k <;> simp [rawF32, StoreKind.code, ofCode, StoreKind.all]
  | hartAmo op dbl aq rl rd rs1 rs2 => cases h; exact decodeAmo_enc ..
  | fence fm pred succ => cases h; exact decodeMiscMem_fence fm pred succ hw
  | xret mret => cases h; cases mret <;> rfl
  | standardInstruction i => exact rawF32_encStd h
  | _ => cases h <;> rfl

end Sys2Proof
end

section
/-! SUPPORT. Encoding and decoding of lane words (R41 to R53): every word that the encoder makes is read back. -/
namespace Sys2Proof

@[simp] theorem ofBool1_true : ofBool1 true = 1 := rfl
@[simp] theorem ofBool1_false : ofBool1 false = 0 := rfl

/-- The header of a lane word is read back from its bits. -/
@[simp] theorem FLane.hdr_enc (p : LaneHdr) (vc vb va vd : BitVec 10) (oph : BitVec 4) (opl fmt : BitVec 3) (low : BitVec 7) :
    FLane.hdr ⟨ofBool1 p.rb, ofBool1 p.ra, ofBool1 p.pn, p.pm, vc, vb, va, vd, oph, opl, fmt, low⟩ = p := by
  simp [FLane.hdr]

@[simp] theorem bit1_zero : bit1 0#1 = false := rfl

/-- The reductions without a type have a zero in its place. -/
@[simp] theorem ScanTy.ofCode_zero : ofCode ScanTy.code ScanTy.all 0#3 = some .s32 := rfl

/-! ### Register numbers in operand fields -/

@[simp] theorem extractLsb'_mdField_top (k : MReg) : (mdField k).extractLsb' 4 6 = 0 := BitVec.extractLsb'_append_eq_left
@[simp] theorem extractLsb'_mdField_low (k : MReg) : (mdField k).extractLsb' 0 4 = k := BitVec.extractLsb'_append_eq_right
@[simp] theorem extractLsb'_xdField_top (x : XReg) : (xdField x).extractLsb' 5 5 = 0 := BitVec.extractLsb'_append_eq_left
@[simp] theorem extractLsb'_xdField_low (x : XReg) : (xdField x).extractLsb' 0 5 = x := BitVec.extractLsb'_append_eq_right

@[simp] theorem xOfField_xsField (x : XReg) : xOfField (xsField x) = some x := by
  simp [xOfField, xsField, -Nat.reduceAdd, BitVec.extractLsb'_append_eq_left, BitVec.extractLsb'_append_eq_right]

/-! ### Modifiers: each is read back from its code -/

@[simp] theorem memModOf_code (m : MemMod) : memModOf m.code = some m := by
  simp (disch := decide) [memModOf, MemMod.code, -Nat.reduceAdd, BitVec.extractLsb'_append_eq_of_le,
    BitVec.extractLsb'_append_eq_of_add_le]

@[simp] theorem fformOf_mod (f : FForm) : fformOf f.mod = some f := by
  cases f with
  | f32 rm =>
    simp (disch := decide) [fformOf, FForm.mod, -Nat.reduceAdd, BitVec.extractLsb'_append_eq_of_le,
      BitVec.extractLsb'_append_eq_of_add_le]
  | h2 => rfl
  | b2 => rfl

@[simp] theorem packOf_mod (t : PackTy) : packOf t.mod = some t := by
  cases t with
  | s16 => rfl
  | n16 => rfl
  | f16 rm sat => cases sat <;> cases rm <;> decide
  | bf16 rm sat => cases sat <;> cases rm <;> decide

@[simp] theorem tileModOf_code (q : Bool) (b : TBuf) :
    tileModOf ((0#5) ++ b.code ++ (if q then (6#3) else (4#3))) = some (q, b) := by
  cases q <;> cases b <;> decide

/-- `vst.rdc` has codes for the widths of one, two and four registers. -/
theorem rdcWidthOf_rdcCode {wd : Width} (h : wd = .w ∨ wd = .d ∨ wd = .q) : rdcWidthOf (rdcCode wd) = some wd := by
  rcases h with rfl | rfl | rfl <;> rfl

@[simp] theorem laneSelOf_enc (sel : LaneSel) (rb ra pn : BitVec 1) (pm : BitVec 4) (va vd : BitVec 10) (oph : BitVec 4)
    (opl fmt : BitVec 3) (low : BitVec 7) :
    laneSelOf ⟨rb, ra, pn, pm, sel.mod, sel.vb, va, vd, oph, opl, fmt, low⟩ = some sel := by
  cases sel with
  | imm i =>
    simp (disch := decide) [laneSelOf, LaneSel.mod, LaneSel.vb, -Nat.reduceAdd, BitVec.extractLsb'_append_eq_of_le,
      BitVec.extractLsb'_append_eq_of_add_le]
  | reg x => simp [laneSelOf, LaneSel.mod, LaneSel.vb]

section
variable (o : Ordering4) (sc : Scope) (xb : XReg)

/-! mod of the atomics: ordering, scope and base register. -/

@[simp] theorem atomicMod_ord : (o.code ++ sc.code ++ xb).extractLsb' 8 2 = o.code := by
  rw [BitVec.extractLsb'_append_eq_of_le (by decide), BitVec.extractLsb'_append_eq_left]
@[simp] theorem atomicMod_scope : (o.code ++ sc.code ++ xb).extractLsb' 5 3 = sc.code := by
  rw [BitVec.extractLsb'_append_eq_of_le (by decide), BitVec.extractLsb'_append_eq_right]
@[simp] theorem atomicMod_base : (o.code ++ sc.code ++ xb).extractLsb' 0 5 = xb := BitVec.extractLsb'_append_eq_right
end

/-! ### Groups whose op field holds an operand -/

/-- The three-source float forms (R46), by the number of the operation in its group of four. -/
theorem rawLane_encFma {p : LaneHdr} {t : FForm} {vd va vb vc : LOp} {f : FLane} :
    (encFma p 0 t vd va vb vc = some f → rawLane f = some (.vfma p t vd va vb vc)) ∧
    (encFma p 1 t vd va vb vc = some f → rawLane f = some (.vfms p t vd va vb vc)) ∧
    (encFma p 2 t vd va vb vc = some f → rawLane f = some (.vfnma p t vd va vb vc)) ∧
    (encFma p 3 t vd va vb vc = some f → rawLane f = some (.vfnms p t vd va vb vc)) := by
  cases t <;> refine ⟨?_, ?_, ?_, ?_⟩ <;> intro h <;> cases h <;> simp [rawLane, decodeFmt0]

/-- A conversion (R49): bit 3 of the source's type is the low bit of op[6:3], the others are op[2:0]. -/
theorem rawLane_vcvt (src : Tc) (f : FLane) (hfmt : f.fmt = 2) (hvb : f.vb = 0) (hoph : f.oph = (4#3) ++ src.code.extractLsb' 3 1)
    (hopl : f.opl = src.code.extractLsb' 0 3) :
    rawLane f = if f.vc.extractLsb' 8 2 != 0 then none else
      (ofCode Tc.code Tc.all (f.vc.extractLsb' 4 4)).bind fun dst =>
      (ofCode Rm.code Rm.all (f.vc.extractLsb' 0 3)).map fun rm =>
        .vcvt f.hdr dst src rm (bit1 (f.vc.extractLsb' 3 1)) f.vd f.va := by
  have hoph' : f.oph = if src.code.toNat < 8 then 8 else 9 := by rw [hoph]; cases src <;> decide
  unfold rawLane decodeFmt2
  rw [hfmt, hvb, hopl, hoph']
  cases src <;> rfl

theorem rawLane_of_encFLane {i : Instr} {f : FLane} (hw : i.wf = true) (h : encFLane i = some f) : rawLane f = some i := by
  cases i with
  | vfma p t vd va vb vc => exact rawLane_encFma.1 h
  | vfms p t vd va vb vc => exact rawLane_encFma.2.1 h
  | vfnma p t vd va vb vc => exact rawLane_encFma.2.2.1 h
  | vfnms p t vd va vb vc => exact rawLane_encFma.2.2.2 h
  | vdp2 p bf vd va vb vc => cases h; cases bf <;> simp [rawLane, decodeFmt0]
  | vdp4 p t vd va vb vc => cases h; cases t <;> simp [rawLane, decodeFmt0, Dp4Ty.code, ofCode, Dp4Ty.all]
  | vmad p u vd va vb vc => cases h; cases u <;> simp [rawLane, decodeFmt0]
  | vmadh p u vd va vb vc => cases h; cases u <;> simp [rawLane, decodeFmt0]
  | vcvt p dst src rm sat vd va =>
    cases h
    rw [rawLane_vcvt src _ rfl rfl rfl rfl]
    simp (disch := decide) [-Nat.reduceAdd, BitVec.extractLsb'_append_eq_of_le, BitVec.extractLsb'_append_eq_of_add_le]
  | vcmpi p c u imm md va =>
    have himm : imm.extractLsb' 10 10 ++ imm.extractLsb' 0 10 = imm := by
      simp (disch := decide) only [BitVec.extractLsb'_append_extractLsb'_eq_extractLsb', BitVec.extractLsb'_eq_self]
    cases h; cases u <;> simp [rawLane, decodeFmt3, himm]
  | vstRdc p wd cnt vd va vb =>
    have hwd : wd = .w ∨ wd = .d ∨ wd = .q := by cases wd <;> simp_all [Instr.wf]
    cases h
    simp [rawLane, decodeFmt4, -Nat.reduceAdd, BitVec.extractLsb'_append_eq_left, BitVec.extractLsb'_append_eq_right,
      rdcWidthOf_rdcCode hwd]
  | vexit p =>
    have hhints : p.rb = false ∧ p.ra = false := by simp_all [Instr.wf]
    cases h
    simpa [rawLane, decodeFmt4, need] using hhints
  | vqenq p dbl xq vd =>
    cases h
    cases dbl <;> simp [rawLane, decodeFmt6, need, -Nat.reduceAdd, BitVec.extractLsb'_append_eq_left, BitVec.extractLsb'_append_eq_right]
  | vqdeq p dbl xq vd =>
    cases h
    cases dbl <;> simp [rawLane, decodeFmt6, need, -Nat.reduceAdd, BitVec.extractLsb'_append_eq_left, BitVec.extractLsb'_append_eq_right]
  | vqtdeq p dbl ms xq vd =>
    cases h
    cases dbl <;> simp [rawLane, decodeFmt6, need, -Nat.reduceAdd, BitVec.extractLsb'_append_eq_left, BitVec.extractLsb'_append_eq_right]
  | _ =>
    cases h <;>
      simp (disch := decide) [rawLane, decodeFmt0, decodeFmt1, decodeFmt2, decodeFmt3, decodeFmt4, decodeFmt5, decodeFmt6,
        decodeIntGroup, decodeAtomic, need, -Nat.reduceAdd, BitVec.extractLsb'_append_eq_of_le,
        BitVec.extractLsb'_append_eq_of_add_le]

end Sys2Proof
end

section
/-! SUPPORT. Encoding and decoding of the whole word (R31): its length, its bytes, and the decoder's answer. -/
namespace Sys2Proof

theorem length_natBytes (v n : Nat) : (natBytes v n).length = n := by
  induction n generalizing v with
  | zero => rfl
  | succ n ih => rw [natBytes, List.length_cons, ih]

theorem leNat_natBytes (v n : Nat) : leNat (natBytes v n) = v % 256 ^ n := by
  induction n generalizing v with
  | zero => rw [natBytes, leNat, Nat.pow_zero, Nat.mod_one]
  | succ n ih => rw [natBytes, leNat, ih, BitVec.toNat_ofNat, Nat.pow_succ' (m := 256), Nat.mod_mul]

/-- The decoder sees the number that the bytes were made of. -/
theorem decode_natBytes (v n : Nat) (hn : n ≤ 8) (hv : v < 256 ^ n) : decode (natBytes v n) = decodeBits (BitVec.ofNat 64 v) := by
  rw [decode, List.take_of_length_le (by rw [length_natBytes]; exact hn), leNat_natBytes, Nat.mod_eq_of_lt hv]

/-- An opcode that means something has the low bits of a 32-bit word (R31, R36). -/
theorem op_of_rawF32 {f : F32} {i : Instr} (h : rawF32 f = some i) : f.op.extractLsb' 0 2 = 3 ∧ f.op.extractLsb' 2 3 ≠ 7 := by
  have : f.op = BitVec.ofNat 7 f.op.toNat := by rw [BitVec.ofNat_toNat, BitVec.setWidth_eq]
  unfold rawF32 at h
  split at h
  case h_26 => cases h
  all_goals
    rename_i hop
    rw [this, hop]
    decide

theorem instrLen_toWord {f : F32} (h : f.op.extractLsb' 0 2 = 3 ∧ f.op.extractLsb' 2 3 ≠ 7) :
    instrLen (f.toWord.extractLsb' 0 16) = 4 := by
  have h0 : (f.toWord.extractLsb' 0 16).extractLsb' 0 2 = f.op.extractLsb' 0 2 := by
    rw [BitVec.extractLsb'_extractLsb'_of_le (by decide), F32.toWord, BitVec.extractLsb'_append_eq_of_add_le (by decide)]
  have h2 : (f.toWord.extractLsb' 0 16).extractLsb' 2 3 = f.op.extractLsb' 2 3 := by
    rw [BitVec.extractLsb'_extractLsb'_of_le (by decide), F32.toWord, BitVec.extractLsb'_append_eq_of_add_le (by decide)]
  simp only [instrLen, h0, h2, h.1, bne_self_eq_false, Bool.false_eq_true, if_false, bne_iff_ne, ne_eq, h.2, not_false_eq_true,
    if_true]

theorem decode_w32 {i : Instr} {f : F32} (hw : i.wf = true) (h : rawF32 f = some i) :
    decode (Encoded.w32 f.toWord).bytes = .instr i (f.toWord.zeroExtend 64) 4 := by
  have low16 : (BitVec.ofNat 64 f.toWord.toNat).extractLsb' 0 16 = f.toWord.extractLsb' 0 16 := by
    apply BitVec.eq_of_toNat_eq; simp
  have low32 : (BitVec.ofNat 64 f.toWord.toNat).extractLsb' 0 32 = f.toWord := by
    apply BitVec.eq_of_toNat_eq; simp [f.toWord.isLt]
  rw [Encoded.bytes, decode_natBytes _ _ (by decide) f.toWord.isLt, decodeBits]
  simp only [low16, low32, instrLen_toWord (op_of_rawF32 h), decode32, F32.ofWord_toWord, h, Option.filter_some, hw, if_true]

theorem instrLen_lane {f : FLane} (h : f.low = 0x3F) : instrLen (f.toWord.extractLsb' 0 16) = 8 := by
  have low : (f.toWord.extractLsb' 0 16).extractLsb' 0 7 = 0x3F := by
    rw [BitVec.extractLsb'_extractLsb'_of_le (by decide), FLane.toWord, BitVec.extractLsb'_append_eq_right, h]
  have h0 : (f.toWord.extractLsb' 0 16).extractLsb' 0 2 = 3 := by
    rw [← BitVec.extractLsb'_extractLsb'_of_le (len' := 7) (by decide), low]; rfl
  have h2 : (f.toWord.extractLsb' 0 16).extractLsb' 2 3 = 7 := by
    rw [← BitVec.extractLsb'_extractLsb'_of_le (len' := 7) (by decide), low]; rfl
  simp only [instrLen, h0, h2, low]; rfl

/-- The encoder makes lane words alone of this kind, and none of those that R48 sets aside. -/
theorem low_of_encFLane {i : Instr} {f : FLane} (h : encFLane i = some f) : f.low = 0x3F ∧ f.isClmul = false := by
  cases i with
  | vfma p t | vfms p t | vfnma p t | vfnms p t => cases t <;> cases h <;> exact ⟨rfl, rfl⟩
  | _ => cases h <;> exact ⟨rfl, rfl⟩

/-- An instruction that neither encoder knows is an event, an illegal word, or `vclmul.n32`. -/
theorem wf_eq_false_of_enc_none {i : Instr} (h : enc32 i = none) (hl : encFLane i = none) : i.wf = false := by
  cases i with
  | standardInstruction x =>
    cases x <;> cases h
    rfl
  | vfma p t | vfms p t | vfnma p t | vfnms p t => cases t <;> cases hl
  | _ => cases h <;> cases hl <;> rfl

theorem decode_w64 {i : Instr} {f : FLane} (hw : i.wf = true) (h : encFLane i = some f) :
    decode (Encoded.w64 f.toWord).bytes = .instr i f.toWord 8 := by
  obtain ⟨hlow, hcl⟩ := low_of_encFLane h
  rw [Encoded.bytes, decode_natBytes _ _ (by decide) f.toWord.isLt, BitVec.ofNat_toNat, BitVec.setWidth_eq, decodeBits]
  simp only [instrLen_lane hlow, decode64, FLane.ofWord_toWord, hcl, Bool.false_eq_true, if_false, rawLane_of_encFLane hw h,
    Option.filter_some, hw, if_true]

/-- Settles O57: each of the two word sizes is read back field by field (`rawF32_of_enc32`, `rawLane_of_encFLane`), and the low bits of
the word give its length. -/
theorem encodeDecode : Obligations.EncodeDecode := by
  intro i hw
  have hne : ¬(!i.wf) = true := by rw [hw]; decide
  cases h : enc32 i with
  | some f =>
    refine ⟨.w32 f.toWord, f.toWord.zeroExtend 64, ?_, decode_w32 hw (rawF32_of_enc32 hw h)⟩
    rw [encode, if_neg hne, h]
  | none =>
    cases hl : encFLane i with
    | some f =>
      refine ⟨.w64 f.toWord, f.toWord, ?_, decode_w64 hw hl⟩
      rw [encode, if_neg hne, h, hl]; rfl
    | none => exact absurd (wf_eq_false_of_enc_none h hl) (by rw [hw]; decide)

/-- Settles O56: the decoder computes on words written out. -/
theorem decodeWords : Obligations.DecodeWords :=
  ⟨rfl, rfl, rfl, rfl, rfl, rfl, rfl, rfl, rfl, rfl, rfl, rfl, rfl, rfl, rfl, rfl, rfl, rfl, rfl, rfl⟩

end Sys2Proof
end

section
/-! SUPPORT. The standard integer instructions, jumps and branches (R33): what each changes of its hart. -/
namespace Sys2Proof.Machine
open Sys2Proof.Safety

/-- A write of an x register, in the terms of the statements. -/
theorem Hart.xWritten_setX (h : Hart) (rd : XReg) (v : Word) : XWritten h rd v (h.setX rd v) :=
  ⟨h.setX_eq rd v, fun r => h.getX_setX rd r v⟩

theorem gives_std {i : Std} {s : State} {Q : State → Prop} (h : Q (s.std i)) : Gives (.standardInstruction i) s Q :=
  ⟨_, rfl, h⟩

theorem State.retires_writeX (s : State) (rd : XReg) (v : Word) : Retires s (XWritten s.hart rd v) (s.writeX rd v) :=
  ⟨_, rfl, s.hart.xWritten_setX rd v⟩

/-- A jump links and goes. -/
theorem State.jumps_jump (s : State) (rd : XReg) (a : Word) :
    Jumps s a (XWritten s.hart rd (s.hart.pc + BitVec.ofNat 64 s.hart.ilen)) (s.jump rd a) :=
  ⟨_, rfl, s.hart.xWritten_setX rd _⟩

theorem State.retires_retire (s : State) : Retires s (fun k => k = s.hart) s.retire := ⟨_, rfl, rfl⟩

/-- The immediate of the U shape stands for bits 31:12 of a sign-extended word. -/
theorem upperImm_eq (up : BitVec 20) : upperImm up = BitVec.ofInt 64 (4096 * up.toInt) := by
  rw [upperImm, BitVec.signExtend, BitVec.toInt_append_zero]
  rfl

/-- An offset held without its zero bit. -/
theorem signExtend_shiftLeft_one {w : Nat} (off : BitVec w) : off.signExtend 64 <<< 1 = BitVec.ofInt 64 (2 * off.toInt) := by
  rw [BitVec.shiftLeft_eq_mul_twoPow, BitVec.ofInt_mul, BitVec.mul_comm]
  rfl

/-- The condition of a branch, as a proposition of the operands. -/
theorem State.branch_goes {s : State} {c : BrCond} {rs1 rs2 : XReg} {off : BitVec 12} {P : Prop}
    (h : brTaken c (s.hart.getX rs1) (s.hart.getX rs2) = true ↔ P) :
    (P → Gives (.standardInstruction (.branch c rs1 rs2 off)) s
      (Jumps s (s.hart.pc + BitVec.ofInt 64 (2 * off.toInt)) (fun g => g = s.hart))) ∧
    (¬P → Gives (.standardInstruction (.branch c rs1 rs2 off)) s (Retires s (fun g => g = s.hart))) := by
  refine ⟨fun hP => gives_std ?_, fun hP => gives_std ?_⟩
  · refine ⟨s.hart, ?_, rfl⟩
    rw [← signExtend_shiftLeft_one]
    exact if_pos (h.2 hP)
  · exact ⟨s.hart, if_neg (mt h.1 hP), rfl⟩

/-- R33: the standard integer instructions. -/
theorem standardIntegerInstructions : Claims.StandardIntegerInstructions := by
  intro rd rs1 rs2 imm up sh s h a b
  refine ⟨?_, ?_, fun op => gives_std (s.retires_writeX _ _), fun op => gives_std (s.retires_writeX _ _),
    fun op => gives_std (s.retires_writeX _ _), fun op => gives_std (s.retires_writeX _ _), ?_, ?_,
    State.branch_goes beq_iff_eq, State.branch_goes bne_iff_ne, State.branch_goes BitVec.slt_iff_toInt_lt,
    State.branch_goes BitVec.sle_iff_toInt_le, State.branch_goes BitVec.ult_iff_toNat_lt, State.branch_goes BitVec.ule_iff_toNat_le,
    gives_std s.retires_retire⟩
  · rw [← upperImm_eq]; exact gives_std (s.retires_writeX _ _)
  · rw [← upperImm_eq]; exact gives_std (s.retires_writeX _ _)
  · rw [← signExtend_shiftLeft_one]; exact gives_std (s.jumps_jump _ _)
  · have dest : wputb (a + imm.signExtend 64) 0 false = (a + BitVec.ofInt 64 imm.toInt) &&& ~~~1#64 := wputb_zero_false _
    rw [← dest]; exact gives_std (s.jumps_jump _ _)

end Sys2Proof.Machine
end

section
/-! SUPPORT. What the integer operations compute (R33). -/
namespace Sys2Proof.Machine
open Sys2Proof.Safety

/-! ### Division -/

section
variable {w : Nat} (a b : BitVec w)

theorem divU_mul_add_remU (hb : b ≠ 0) : divU w a b * b + remU w a b = a := by
  rw [divU, remU, if_neg hb, if_neg hb]
  exact BitVec.eq_of_toNat_eq (by
    rw [BitVec.toNat_add, BitVec.toNat_mul, BitVec.toNat_udiv, BitVec.toNat_umod, Nat.mod_add_mod, Nat.div_add_mod',
      Nat.mod_eq_of_lt a.isLt])

theorem divS_mul_add_remS (hb : b ≠ 0) : divS w a b * b + remS w a b = a := by
  have hb' : BitVec.ofInt w b.toInt = b := BitVec.ofInt_toInt
  rw [divS, remS, if_neg hb, if_neg hb]
  calc BitVec.ofInt w (a.toInt.tdiv b.toInt) * b + BitVec.ofInt w (a.toInt.tmod b.toInt)
      = BitVec.ofInt w (a.toInt.tdiv b.toInt * b.toInt + a.toInt.tmod b.toInt) := by
        rw [BitVec.ofInt_add, BitVec.ofInt_mul, hb']
    _ = a := by rw [Int.tdiv_mul_add_tmod, BitVec.ofInt_toInt]

theorem toNat_divU (hb : b ≠ 0) : (divU w a b).toNat = a.toNat / b.toNat := by rw [divU, if_neg hb, BitVec.toNat_udiv]
theorem toNat_remU (hb : b ≠ 0) : (remU w a b).toNat = a.toNat % b.toNat := by rw [remU, if_neg hb, BitVec.toNat_umod]
theorem toInt_divS (hb : b ≠ 0) : (divS w a b).toInt = (a.toInt.tdiv b.toInt).bmod (2 ^ w) := by
  rw [divS, if_neg hb, BitVec.toInt_ofInt]

/-- The remainder is no larger than the dividend, so that it needs no reduction. -/
theorem toInt_remS (hb : b ≠ 0) : (remS w a b).toInt = a.toInt.tmod b.toInt := by
  rw [remS, if_neg hb, ← BitVec.toInt_srem, BitVec.ofInt_toInt]
end

/-- R33: the corners of division. -/
theorem divisionCorners : Claims.DivisionCorners := fun a b =>
  ⟨rfl, rfl, rfl, rfl, rfl, rfl, fun hb => ⟨divU_mul_add_remU a b hb, divS_mul_add_remS a b hb⟩⟩

/-! ### Words and their low halves -/

theorem toInt_signExtend_lane (v : Lane) : (v.signExtend 64).toInt = v.toInt := BitVec.toInt_signExtend_of_le (by decide)
theorem toNat_zext32 (v : Word) : (zext32 v).toNat = v.toNat % 2 ^ 32 := by
  rw [zext32, BitVec.toNat_setWidth, BitVec.toNat_setWidth, Nat.mod_eq_of_lt (b := 2 ^ 64) (by omega)]

theorem toInt_shiftLeft_eq {w : Nat} (x : BitVec w) (n : Nat) : (x <<< n).toInt = (x.toInt * 2 ^ n).bmod (2 ^ w) := by
  rw [BitVec.toInt_shiftLeft, BitVec.toInt_eq_toNat_bmod x, Nat.shiftLeft_eq, Int.natCast_mul, Int.bmod_mul_bmod]
  norm_cast

theorem toInt_sshiftRight_eq {w : Nat} (x : BitVec w) (n : Nat) : (x.sshiftRight n).toInt = x.toInt / 2 ^ n := by
  rw [BitVec.toInt_sshiftRight, Int.shiftRight_eq_div_pow]
  norm_cast

theorem toInt_ofInt_64 (i : Int) (h : -2 ^ 63 ≤ i) (h' : i < 2 ^ 63) : (BitVec.ofInt 64 i).toInt = i :=
  BitVec.toInt_ofInt_eq_self (by decide) h h'

/-- A product of two factors of 64 bits divided by 2^64 has 64 bits. -/
theorem toInt_mulHigh {x y : Int} (hx : -2 ^ 63 ≤ x) (hx' : x < 2 ^ 63) (hy : |y| ≤ 2 ^ 64 - 1) :
    (BitVec.ofInt 64 (Int.fdiv (x * y) (2 ^ 64 : Nat))).toInt = x * y / 2 ^ 64 := by
  have hxy : |x * y| ≤ 2 ^ 63 * (2 ^ 64 - 1) := by
    rw [abs_mul]; exact mul_le_mul (abs_le.2 ⟨hx, hx'.le⟩) hy (abs_nonneg _) (by norm_num)
  obtain ⟨hlo, hhi⟩ := abs_le.1 hxy
  rw [Int.fdiv_eq_ediv_of_nonneg _ (by norm_num)]
  push_cast
  exact toInt_ofInt_64 _ (by omega) (by omega)

section
variable (a b : Word)

theorem setWidth_sub_lane : ((a - b).setWidth 32 : Lane) = a.setWidth 32 - b.setWidth 32 := by
  apply BitVec.eq_of_toNat_eq
  simp only [BitVec.toNat_setWidth, BitVec.toNat_sub]
  omega

/-- Sums, products, shifts and compares of 64 bits. -/
theorem aluVal_base :
    (aluVal .add a b).toNat = (a.toNat + b.toNat) % 2 ^ 64 ∧ (aluVal .sub a b).toInt = (a.toInt - b.toInt).bmod (2 ^ 64) ∧
    (aluVal .mul a b).toNat = a.toNat * b.toNat % 2 ^ 64 ∧ (aluVal .sll a b).toNat = a.toNat * 2 ^ (b.toNat % 64) % 2 ^ 64 ∧
    (aluVal .srl a b).toNat = a.toNat / 2 ^ (b.toNat % 64) % 2 ^ 64 ∧ (aluVal .sra a b).toInt = a.toInt / 2 ^ (b.toNat % 64) ∧
    (aluVal .mulh a b).toInt = a.toInt * b.toInt / 2 ^ 64 ∧ (aluVal .mulhsu a b).toInt = a.toInt * b.toNat / 2 ^ 64 ∧
    (aluVal .mulhu a b).toNat = a.toNat * b.toNat / 2 ^ 64 % 2 ^ 64 ∧
    (aluVal .slt a b).toNat = (if a.toInt < b.toInt then 1 else 0) % 2 ^ 64 ∧
    (aluVal .sltu a b).toNat = (if a.toNat < b.toNat then 1 else 0) % 2 ^ 64 := by
  have ha := a.le_toInt
  have ha' := a.toInt_lt
  have hb := b.le_toInt
  have hb' := b.toInt_lt
  have hbn := b.isLt
  refine ⟨BitVec.toNat_add _ _, BitVec.toInt_sub .., BitVec.toNat_mul _ _, ?_, ?_, ?_, ?_, ?_, BitVec.toNat_ofNat _ _, ?_, ?_⟩
  · rw [← Nat.shiftLeft_eq]; exact BitVec.toNat_shiftLeft
  · rw [← Nat.shiftRight_eq_div_pow, ← BitVec.toNat_ushiftRight, Nat.mod_eq_of_lt (BitVec.isLt _)]; rfl
  · exact toInt_sshiftRight_eq a _
  · exact toInt_mulHigh ha ha' (abs_le.2 ⟨by omega, by omega⟩)
  · exact toInt_mulHigh ha ha' (abs_le.2 ⟨by omega, by omega⟩)
  · show BitVec.toNat (if a.slt b then 1 else 0) = _
    simp only [BitVec.slt_iff_toInt_lt]; split <;> rfl
  · show BitVec.toNat (if a.ult b then 1 else 0) = _
    simp only [BitVec.ult_iff_toNat_lt]; split <;> rfl

/-- The word forms: the low halves, the result sign-extended. -/
theorem aluVal_word :
    (aluVal .addw a b).toInt = ((a.setWidth 32).toInt + (b.setWidth 32).toInt).bmod (2 ^ 32) ∧
    (aluVal .subw a b).toInt = ((a.setWidth 32).toInt - (b.setWidth 32).toInt).bmod (2 ^ 32) ∧
    (aluVal .mulw a b).toInt = ((a.setWidth 32).toInt * (b.setWidth 32).toInt).bmod (2 ^ 32) ∧
    (aluVal .sllw a b).toInt = ((a.setWidth 32).toInt * 2 ^ (b.toNat % 32)).bmod (2 ^ 32) ∧
    (aluVal .srlw a b).toInt = ((a.toNat % 2 ^ 32 / 2 ^ (b.toNat % 32) : Nat) : Int).bmod (2 ^ 32) ∧
    (aluVal .sraw a b).toInt = (a.setWidth 32).toInt / 2 ^ (b.toNat % 32) := by
  refine ⟨?_, ?_, ?_, ?_, ?_, ?_⟩
  · exact (toInt_signExtend_lane _).trans (by rw [BitVec.setWidth_add _ _ (by decide), BitVec.toInt_add])
  · exact (toInt_signExtend_lane _).trans (by rw [setWidth_sub_lane, BitVec.toInt_sub])
  · exact (toInt_signExtend_lane _).trans (BitVec.toInt_mul _ _)
  · exact (toInt_signExtend_lane _).trans (toInt_shiftLeft_eq _ _)
  · refine (toInt_signExtend_lane _).trans ?_
    rw [BitVec.toInt_eq_toNat_bmod, BitVec.toNat_ushiftRight, BitVec.toNat_setWidth, Nat.shiftRight_eq_div_pow]
  · exact (toInt_signExtend_lane _).trans (toInt_sshiftRight_eq _ _)

/-- Quotients and remainders by another divisor than zero. -/
theorem aluVal_div (hb : b ≠ 0) :
    (aluVal .divu a b).toNat = a.toNat / b.toNat % 2 ^ 64 ∧ (aluVal .remu a b).toNat = a.toNat % b.toNat % 2 ^ 64 ∧
    (aluVal .rem a b).toInt = a.toInt.tmod b.toInt ∧ (aluVal .div a b).toInt = (a.toInt.tdiv b.toInt).bmod (2 ^ 64) := by
  refine ⟨?_, ?_, toInt_remS a b hb, toInt_divS a b hb⟩
  · rw [← toNat_divU a b hb, Nat.mod_eq_of_lt (BitVec.isLt _)]; rfl
  · rw [← toNat_remU a b hb, Nat.mod_eq_of_lt (BitVec.isLt _)]; rfl

/-- The same in the word forms. -/
theorem aluVal_divw (hb : (b.setWidth 32).toInt ≠ 0) :
    (aluVal .divw a b).toInt = ((a.setWidth 32).toInt.tdiv (b.setWidth 32).toInt).bmod (2 ^ 32) ∧
    (aluVal .remw a b).toInt = (a.setWidth 32).toInt.tmod (b.setWidth 32).toInt ∧
    (aluVal .divuw a b).toInt = ((a.toNat % 2 ^ 32 / (b.toNat % 2 ^ 32) : Nat) : Int).bmod (2 ^ 32) ∧
    (aluVal .remuw a b).toInt = ((a.toNat % 2 ^ 32 % (b.toNat % 2 ^ 32) : Nat) : Int).bmod (2 ^ 32) := by
  have hb0 : (b.setWidth 32 : Lane) ≠ 0 := fun h => hb (by rw [h]; rfl)
  refine ⟨(toInt_signExtend_lane _).trans (toInt_divS _ _ hb0), (toInt_signExtend_lane _).trans (toInt_remS _ _ hb0),
    (toInt_signExtend_lane _).trans ?_, (toInt_signExtend_lane _).trans ?_⟩
  · rw [BitVec.toInt_eq_toNat_bmod, toNat_divU _ _ hb0, BitVec.toNat_setWidth, BitVec.toNat_setWidth]
  · rw [BitVec.toInt_eq_toNat_bmod, toNat_remU _ _ hb0, BitVec.toNat_setWidth, BitVec.toNat_setWidth]

/-- The word forms by zero. -/
theorem aluVal_divw_zero (hb : (b.setWidth 32).toInt = 0) :
    (aluVal .divw a b).toInt = -1 ∧ (aluVal .divuw a b).toInt = -1 ∧ (aluVal .remw a b).toInt = (a.setWidth 32).toInt ∧
    (aluVal .remuw a b).toInt = (a.setWidth 32).toInt := by
  have hb0 : (b.setWidth 32 : Lane) = 0 := BitVec.eq_of_toInt_eq hb
  have hdivS (x : Lane) : divS 32 x 0 = BitVec.allOnes 32 := rfl
  refine ⟨(toInt_signExtend_lane _).trans ?_, (toInt_signExtend_lane _).trans ?_, (toInt_signExtend_lane _).trans ?_,
    (toInt_signExtend_lane _).trans ?_⟩ <;> rw [hb0] <;> rfl

/-- Additions of shifted operands. -/
theorem aluVal_shiftAdd :
    (aluVal .adduw a b).toNat = (a.toNat % 2 ^ 32 + b.toNat) % 2 ^ 64 ∧
    (aluVal .sh1add a b).toNat = (2 * a.toNat + b.toNat) % 2 ^ 64 ∧ (aluVal .sh2add a b).toNat = (4 * a.toNat + b.toNat) % 2 ^ 64 ∧
    (aluVal .sh3add a b).toNat = (8 * a.toNat + b.toNat) % 2 ^ 64 ∧
    (aluVal .sh1adduw a b).toNat = (2 * (a.toNat % 2 ^ 32) + b.toNat) % 2 ^ 64 ∧
    (aluVal .sh2adduw a b).toNat = (4 * (a.toNat % 2 ^ 32) + b.toNat) % 2 ^ 64 ∧
    (aluVal .sh3adduw a b).toNat = (8 * (a.toNat % 2 ^ 32) + b.toNat) % 2 ^ 64 := by
  have shl (x : Word) (k : Nat) : ((x <<< k) + b).toNat = (2 ^ k * x.toNat + b.toNat) % 2 ^ 64 := by
    rw [BitVec.toNat_add, BitVec.toNat_shiftLeft, Nat.shiftLeft_eq, Nat.mod_add_mod, Nat.mul_comm]
  refine ⟨?_, shl a 1, shl a 2, shl a 3, ?_, ?_, ?_⟩
  · rw [← toNat_zext32]; exact BitVec.toNat_add _ _
  · rw [← toNat_zext32]; exact shl (zext32 a) 1
  · rw [← toNat_zext32]; exact shl (zext32 a) 2
  · rw [← toNat_zext32]; exact shl (zext32 a) 3

/-- Minima, maxima and the conditional zeros. -/
theorem aluVal_minMax :
    (aluVal .max a b).toInt = max a.toInt b.toInt ∧ (aluVal .min a b).toInt = min a.toInt b.toInt ∧
    (aluVal .maxu a b).toNat = max a.toNat b.toNat % 2 ^ 64 ∧ (aluVal .minu a b).toNat = min a.toNat b.toNat % 2 ^ 64 ∧
    (aluVal .czeroEqz a b).toNat = (if b = 0 then 0 else a.toNat) % 2 ^ 64 ∧
    (aluVal .czeroNez a b).toNat = (if b = 0 then a.toNat else 0) % 2 ^ 64 := by
  have ha := a.isLt
  have hb := b.isLt
  refine ⟨?_, ?_, ?_, ?_, ?_, ?_⟩
  · show BitVec.toInt (if a.slt b then b else a) = _
    simp only [BitVec.slt_iff_toInt_lt]; split <;> omega
  · show BitVec.toInt (if a.slt b then a else b) = _
    simp only [BitVec.slt_iff_toInt_lt]; split <;> omega
  · show BitVec.toNat (if a.ult b then b else a) = _
    simp only [BitVec.ult_iff_toNat_lt]; split <;> omega
  · show BitVec.toNat (if a.ult b then a else b) = _
    simp only [BitVec.ult_iff_toNat_lt]; split <;> omega
  · show BitVec.toNat (if b = 0 then 0 else a) = _
    split
    · rfl
    · exact (Nat.mod_eq_of_lt ha).symm
  · show BitVec.toNat (if b = 0 then a else 0) = _
    split
    · exact (Nat.mod_eq_of_lt ha).symm
    · rfl
end
end Sys2Proof.Machine
end

section
/-! SUPPORT. The bits of the logic, rotate, single-bit and carry-less operations, and the immediate forms (R33). -/
namespace Sys2Proof.Machine
open Sys2Proof.Safety

/-- A carry-less product has in bit `k` the parity of the pairs of one bits whose places add up to `k`. -/
theorem testBit_clmulN (a b n k : Nat) :
    (clmulN a b n).testBit k = ((List.range n).countP (fun j => decide (j ≤ k) && b.testBit j && a.testBit (k - j)) % 2 == 1) := by
  have parity (c : Nat) : ((c + 1) % 2 == 1) = !(c % 2 == 1) := by
    rcases Nat.mod_two_eq_zero_or_one c with h | h <;> simp [Nat.add_mod, h]
  induction n with
  | zero => simp [clmulN]
  | succ n ih =>
    rw [clmulN, Nat.testBit_xor, ih, List.range_succ, List.countP_append, List.countP_singleton]
    by_cases hb : b.testBit n <;> by_cases hk : n ≤ k <;> by_cases ha : a.testBit (k - n) <;>
      simp [hb, hk, ha, Nat.testBit_shiftLeft, parity]

/-- The pairs of places may be counted from either factor. -/
theorem countP_pairs_comm (a b : Word) (k : Nat) :
    (List.range 64).countP (fun j => decide (j ≤ k) && b.getLsbD j && a.getLsbD (k - j)) =
      (List.range 64).countP (fun j => decide (j ≤ k) && a.getLsbD j && b.getLsbD (k - j)) := by
  have card (a b : Word) : (List.range 64).countP (fun j => decide (j ≤ k) && a.getLsbD j && b.getLsbD (k - j)) =
      ((Finset.range 64).filter (fun j => j ≤ k ∧ a.getLsbD j = true ∧ b.getLsbD (k - j) = true)).card := by
    rw [List.countP_eq_length_filter, ← List.toFinset_card_of_nodup (List.nodup_range.filter _)]
    congr 1
    ext j
    simp [and_assoc]
  rw [card, card]
  have other (a b : Word) : ∀ j ∈ (Finset.range 64).filter (fun j => j ≤ k ∧ b.getLsbD j = true ∧ a.getLsbD (k - j) = true),
      k - j ∈ (Finset.range 64).filter (fun j => j ≤ k ∧ a.getLsbD j = true ∧ b.getLsbD (k - j) = true) := by
    intro j hj
    simp only [Finset.mem_filter, Finset.mem_range] at hj ⊢
    obtain ⟨hj, hjk, hb, ha⟩ := hj
    exact ⟨BitVec.lt_of_getLsbD ha, Nat.sub_le k j, ha, by rwa [Nat.sub_sub_self hjk]⟩
  have back (a b : Word) : ∀ j ∈ (Finset.range 64).filter (fun j => j ≤ k ∧ b.getLsbD j = true ∧ a.getLsbD (k - j) = true),
      k - (k - j) = j := fun j hj => Nat.sub_sub_self (Finset.mem_filter.1 hj).2.1
  exact Finset.card_bij' (fun j _ => k - j) (fun j _ => k - j) (other a b) (other b a) (back a b) (back b a)

theorem getLsbD_one_shiftLeft {n i : Nat} (hi : i < 64) : (1#64 <<< n).getLsbD i = (i == n) := by
  rw [BitVec.getLsbD_shiftLeft, BitVec.getLsbD_one, Bool.eq_iff_iff]
  simp only [hi, decide_true, Bool.true_and, Bool.and_eq_true, Bool.not_eq_true', decide_eq_false_iff_not, decide_eq_true_eq,
    beq_iff_eq]
  omega

theorem getLsbD_rotateLeft_of_lt {w : Nat} (x : BitVec w) {r i : Nat} (hr : r < w) (hi : i < w) :
    (x.rotateLeft r).getLsbD i = x.getLsbD ((i + w - r) % w) := by
  rw [BitVec.getLsbD_rotateLeft, Nat.mod_eq_of_lt hr]
  by_cases h : i < r
  · rw [decide_eq_true h, cond_true, Nat.mod_eq_of_lt (by omega)]; congr 1; omega
  · rw [decide_eq_false h, cond_false, decide_eq_true hi, Bool.true_and, show i + w - r = i - r + w by omega, Nat.add_mod_right,
      Nat.mod_eq_of_lt (by omega)]

theorem getLsbD_rotateRight_of_lt {w : Nat} (x : BitVec w) {r i : Nat} (hr : r < w) (hi : i < w) :
    (x.rotateRight r).getLsbD i = x.getLsbD ((i + r) % w) := by
  rw [BitVec.getLsbD_rotateRight, Nat.mod_eq_of_lt hr]
  by_cases h : i < w - r
  · rw [decide_eq_true h, cond_true, Nat.mod_eq_of_lt (by omega), Nat.add_comm]
  · rw [decide_eq_false h, cond_false, decide_eq_true hi, Bool.true_and, Nat.mod_eq_sub_mod (by omega), Nat.mod_eq_of_lt (by omega)]
    congr 1; omega

/-- A sign-extended half repeats its bit 31. -/
theorem getLsbD_signExtend_lane (v : Lane) {i : Nat} (hi : i < 64) : (v.signExtend 64).getLsbD i = v.getLsbD (min i 31) := by
  rw [BitVec.getLsbD_signExtend, decide_eq_true hi, Bool.true_and]
  split
  · rw [Nat.min_eq_left (by omega)]
  · rw [Nat.min_eq_right (by omega), BitVec.msb_eq_getLsbD_last]

section
variable (a b : Word)

theorem aluVal_logic :
    (∀ i, i < 64 → (aluVal .and a b).getLsbD i = (a.getLsbD i && b.getLsbD i)) ∧
    (∀ i, i < 64 → (aluVal .or a b).getLsbD i = (a.getLsbD i || b.getLsbD i)) ∧
    (∀ i, i < 64 → (aluVal .xor a b).getLsbD i = (a.getLsbD i != b.getLsbD i)) ∧
    (∀ i, i < 64 → (aluVal .andn a b).getLsbD i = (a.getLsbD i && !b.getLsbD i)) ∧
    (∀ i, i < 64 → (aluVal .orn a b).getLsbD i = (a.getLsbD i || !b.getLsbD i)) ∧
    (∀ i, i < 64 → (aluVal .xnor a b).getLsbD i = (a.getLsbD i == b.getLsbD i)) := by
  have not (x : Word) {i : Nat} (hi : i < 64) : (~~~x).getLsbD i = !x.getLsbD i := by
    rw [BitVec.getLsbD_not, decide_eq_true hi, Bool.true_and]
  refine ⟨fun i hi => BitVec.getLsbD_and, fun i hi => BitVec.getLsbD_or, fun i hi => ?_, fun i hi => ?_, fun i hi => ?_, fun i hi => ?_⟩
  · exact BitVec.getLsbD_xor.trans (by cases a.getLsbD i <;> cases b.getLsbD i <;> rfl)
  · exact BitVec.getLsbD_and.trans (by rw [not b hi])
  · exact BitVec.getLsbD_or.trans (by rw [not b hi])
  · exact (not _ hi).trans (by rw [BitVec.getLsbD_xor]; cases a.getLsbD i <;> cases b.getLsbD i <;> rfl)

theorem aluVal_rotate :
    (∀ i, i < 64 → (aluVal .rol a b).getLsbD i = a.getLsbD ((i + 64 - b.toNat % 64) % 64)) ∧
    (∀ i, i < 64 → (aluVal .ror a b).getLsbD i = a.getLsbD ((i + b.toNat % 64) % 64)) ∧
    (∀ i, i < 64 → (aluVal .rolw a b).getLsbD i = a.getLsbD ((min i 31 + 32 - b.toNat % 32) % 32)) ∧
    (∀ i, i < 64 → (aluVal .rorw a b).getLsbD i = a.getLsbD ((min i 31 + b.toNat % 32) % 32)) := by
  have hn : b.toNat % 64 < 64 := Nat.mod_lt _ (by decide)
  have hn5 : b.toNat % 32 < 32 := Nat.mod_lt _ (by decide)
  have low (k : Nat) : (a.setWidth 32 : Lane).getLsbD (k % 32) = a.getLsbD (k % 32) := by
    rw [BitVec.getLsbD_setWidth, decide_eq_true (Nat.mod_lt k (by decide)), Bool.true_and]
  refine ⟨fun i hi => getLsbD_rotateLeft_of_lt a hn hi, fun i hi => getLsbD_rotateRight_of_lt a hn hi, fun i hi => ?_,
    fun i hi => ?_⟩
  · exact (getLsbD_signExtend_lane _ hi).trans ((getLsbD_rotateLeft_of_lt _ hn5 (by omega)).trans (low _))
  · exact (getLsbD_signExtend_lane _ hi).trans ((getLsbD_rotateRight_of_lt _ hn5 (by omega)).trans (low _))

theorem aluVal_singleBit :
    (∀ i, i < 64 → (aluVal .bclr a b).getLsbD i = (a.getLsbD i && i != b.toNat % 64)) ∧
    (∀ i, i < 64 → (aluVal .bset a b).getLsbD i = (a.getLsbD i || i == b.toNat % 64)) ∧
    (∀ i, i < 64 → (aluVal .binv a b).getLsbD i = (a.getLsbD i != (i == b.toNat % 64))) ∧
    (aluVal .bext a b).toNat = (if a.getLsbD (b.toNat % 64) then 1 else 0) % 2 ^ 64 := by
  refine ⟨fun i hi => ?_, fun i hi => ?_, fun i hi => ?_, ?_⟩
  · exact BitVec.getLsbD_and.trans (by
      rw [BitVec.getLsbD_not, getLsbD_one_shiftLeft hi, decide_eq_true hi, Bool.true_and]; rfl)
  · exact BitVec.getLsbD_or.trans (by rw [getLsbD_one_shiftLeft hi])
  · exact BitVec.getLsbD_xor.trans (by rw [getLsbD_one_shiftLeft hi])
  · show BitVec.toNat (if a.getLsbD (b.toNat % 64) then 1 else 0) = _
    split <;> rfl

/-- A carry-less product from bit `k` on. -/
theorem getLsbD_clmul_shift (k : Nat) {i : Nat} (hi : i < 64) : (BitVec.ofNat 64 (clmulN a.toNat b.toNat 64 >>> k)).getLsbD i =
    ((List.range 64).countP (fun j => decide (j ≤ i + k) && a.getLsbD j && b.getLsbD (i + k - j)) % 2 == 1) := by
  rw [BitVec.getLsbD_ofNat, decide_eq_true hi, Bool.true_and, Nat.testBit_shiftRight, testBit_clmulN, Nat.add_comm k i,
    ← countP_pairs_comm]
  rfl
end

/-! ### Immediate forms -/

theorem aluImmVal_eq (a : Word) (imm : BitVec 12) :
    aluImmVal .addi a imm = aluVal .add a (imm.signExtend 64) ∧ aluImmVal .slti a imm = aluVal .slt a (imm.signExtend 64) ∧
    aluImmVal .sltiu a imm = aluVal .sltu a (imm.signExtend 64) ∧ aluImmVal .xori a imm = aluVal .xor a (imm.signExtend 64) ∧
    aluImmVal .ori a imm = aluVal .or a (imm.signExtend 64) ∧ aluImmVal .andi a imm = aluVal .and a (imm.signExtend 64) ∧
    aluImmVal .addiw a imm = aluVal .addw a (imm.signExtend 64) := ⟨rfl, rfl, rfl, rfl, rfl, rfl, rfl⟩

section
variable (a w : Word) (sh : BitVec 6)

theorem shiftVal_eq (hw : w.toNat = sh.toNat) :
    shiftVal .slli a sh = aluVal .sll a w ∧ shiftVal .srli a sh = aluVal .srl a w ∧ shiftVal .srai a sh = aluVal .sra a w ∧
    shiftVal .rori a sh = aluVal .ror a w ∧ shiftVal .bclri a sh = aluVal .bclr a w ∧ shiftVal .bexti a sh = aluVal .bext a w ∧
    shiftVal .binvi a sh = aluVal .binv a w ∧ shiftVal .bseti a sh = aluVal .bset a w := by
  have hn : w.toNat % 64 = sh.toNat := by have := sh.isLt; omega
  simp only [shiftVal, aluVal, hn, and_self]

/-- The word forms hold five bits of their amount. -/
theorem shiftVal_word_eq (hw : w.toNat = sh.toNat) (hsh : sh.toNat < 32) :
    shiftVal .slliw a sh = aluVal .sllw a w ∧ shiftVal .srliw a sh = aluVal .srlw a w ∧ shiftVal .sraiw a sh = aluVal .sraw a w ∧
    shiftVal .roriw a sh = aluVal .rorw a w := by
  have hn : w.toNat % 32 = sh.toNat := by omega
  simp only [shiftVal, aluVal, hn, and_self]

theorem toNat_slliuw : (shiftVal .slliuw a sh).toNat = a.toNat % 2 ^ 32 * 2 ^ sh.toNat % 2 ^ 64 := by
  rw [← toNat_zext32, ← Nat.shiftLeft_eq]; exact BitVec.toNat_shiftLeft
end

/-- R33: what the integer operations compute. -/
theorem integerValues : Claims.IntegerValues := by
  intro a b imm sh lo ulo n n5 nat int word bits clBit
  have hsh : (sh.setWidth 64 : Word).toNat = sh.toNat := BitVec.toNat_setWidth_of_le (by decide)
  refine ⟨aluVal_base a b, aluVal_word a b, aluVal_div a b, aluVal_divw a b, aluVal_divw_zero a b, aluVal_shiftAdd a b,
    aluVal_minMax a b, ?_, fun w hw => hw ▸ aluImmVal_eq a imm,
    fun w hw => ?_⟩
  · obtain ⟨and, or, xor, andn, orn, xnor⟩ := aluVal_logic a b
    obtain ⟨rol, ror, rolw, rorw⟩ := aluVal_rotate a b
    obtain ⟨bclr, bset, binv, bext⟩ := aluVal_singleBit a b
    exact ⟨and, or, xor, andn, orn, xnor, rol, ror, rolw, rorw, bclr, bset, binv, bext, fun i hi => getLsbD_clmul_shift a b 0 hi,
      fun i hi => getLsbD_clmul_shift a b 64 hi, fun i hi => getLsbD_clmul_shift a b 63 hi⟩
  · subst hw
    obtain ⟨h1, h2, h3, h4, h5, h6, h7, h8⟩ := shiftVal_eq a _ sh hsh
    exact ⟨h1, h2, h3, h4, h5, h6, h7, h8, toNat_slliuw a sh, shiftVal_word_eq a _ sh hsh⟩

end Sys2Proof.Machine
end

section
/-! SUPPORT. What the unary operations of Zbb compute (R33). -/
namespace Sys2Proof.Machine
open Sys2Proof.Safety

theorem clzN_spec {w v : Nat} (hv : v < 2 ^ w) :
    clzN w v ≤ w ∧ v < 2 ^ (w - clzN w v) ∧ (clzN w v < w → 2 ^ (w - 1 - clzN w v) ≤ v) := by
  unfold clzN
  split
  case isTrue h => exact ⟨le_rfl, by simp [h], fun hlt => absurd hlt (lt_irrefl w)⟩
  case isFalse h =>
    have hlog : Nat.log2 v < w := (Nat.log2_lt h).2 hv
    refine ⟨by omega, ?_, fun _ => ?_⟩
    · rw [show w - (w - 1 - Nat.log2 v) = Nat.log2 v + 1 by omega]; exact Nat.lt_log2_self
    · rw [show w - 1 - (w - 1 - Nat.log2 v) = Nat.log2 v by omega]; exact Nat.log2_self_le h

theorem ctzN_spec (w v : Nat) :
    ctzN w v ≤ w ∧ (∀ b, b < ctzN w v → v.testBit b = false) ∧ (ctzN w v < w → v.testBit (ctzN w v) = true) := by
  unfold ctzN
  cases h : (List.range w).find? (fun i => v.testBit i) with
  | none =>
    rw [List.find?_range_eq_none] at h
    exact ⟨le_rfl, fun b hb => by simpa using h b hb, fun hlt => absurd hlt (lt_irrefl w)⟩
  | some i =>
    rw [List.find?_range_eq_some] at h
    obtain ⟨hi, hmem, hlow⟩ := h
    exact ⟨(List.mem_range.1 hmem).le, fun b hb => by simpa using hlow b hb, fun _ => hi⟩

theorem popN_eq_countP (w v : Nat) : popN w v = (List.range w).countP (fun i => v.testBit i) := List.countP_eq_length_filter.symm

theorem popN_le (w v : Nat) : popN w v ≤ w := by
  rw [popN_eq_countP]; exact List.countP_le_length.trans_eq List.length_range

/-- A count of at most 64 stands in a word as it is. -/
theorem toNat_ofNat_of_le {n : Nat} (h : n ≤ 64) : (BitVec.ofNat 64 n).toNat = n := by
  rw [BitVec.toNat_ofNat, Nat.mod_eq_of_lt (by omega)]

theorem byteAt_eq (a : Word) (i : Nat) : byteAt a i = a.toNat / 256 ^ i % 256 := by
  rw [byteAt, Nat.shiftRight_eq_div_pow, Nat.pow_mul]

theorem byteAt_lt (a : Word) (i : Nat) : byteAt a i < 256 := Nat.mod_lt _ (by decide)

/-- A number put together of bytes is below the next power of 256 and has them in their places. -/
theorem bytesSum_spec (f : Nat → Nat) (hf : ∀ i, f i < 256) (n : Nat) :
    (List.range n).foldl (fun acc i => acc + f i <<< (8 * i)) 0 < 256 ^ n ∧
    ∀ i, i < n → (List.range n).foldl (fun acc i => acc + f i <<< (8 * i)) 0 / 256 ^ i % 256 = f i := by
  induction n with
  | zero => exact ⟨Nat.one_pos, fun i hi => absurd hi (Nat.not_lt_zero i)⟩
  | succ n ih =>
    obtain ⟨hlt, hdigit⟩ := ih
    rw [List.range_succ, List.foldl_append, List.foldl_cons, List.foldl_nil, Nat.shiftLeft_eq, Nat.pow_mul]
    generalize (List.range n).foldl (fun acc i => acc + f i <<< (8 * i)) 0 = m at hlt hdigit
    have hn := hf n
    refine ⟨?_, fun i hi => ?_⟩
    · calc m + f n * 256 ^ n < 256 ^ n + f n * 256 ^ n := Nat.add_lt_add_right hlt _
        _ = (f n + 1) * 256 ^ n := by ring
        _ ≤ 256 * 256 ^ n := Nat.mul_le_mul_right _ hn
        _ = 256 ^ (n + 1) := (Nat.pow_succ' ..).symm
    · rcases Nat.lt_succ_iff_lt_or_eq.1 hi with h | rfl
      · obtain ⟨k, rfl⟩ : ∃ k, n = i + (k + 1) := ⟨n - i - 1, by omega⟩
        have split : m + f (i + (k + 1)) * 256 ^ (i + (k + 1)) = m + 256 ^ i * (256 * (f (i + (k + 1)) * 256 ^ k)) := by ring
        rw [show (2 ^ 8 : Nat) = 256 from rfl, split, Nat.add_mul_div_left _ _ (by positivity), Nat.add_mul_mod_self_left]
        exact hdigit i h
      · rw [show (2 ^ 8 : Nat) = 256 from rfl, Nat.add_mul_div_right _ _ (by positivity), Nat.div_eq_of_lt hlt, Nat.zero_add,
          Nat.mod_eq_of_lt hn]

/-- A word put together of eight bytes has them in their places. -/
theorem byte_ofBytes (f : Nat → Nat) (hf : ∀ i, f i < 256) {i : Nat} (hi : i < 8) :
    (BitVec.ofNat 64 ((List.range 8).foldl (fun acc i => acc + f i <<< (8 * i)) 0)).toNat / 256 ^ i % 256 = f i := by
  obtain ⟨hlt, hdigit⟩ := bytesSum_spec f hf 8
  rw [BitVec.toNat_ofNat, Nat.mod_eq_of_lt (hlt.trans_eq (by decide)), hdigit i hi]

/-- Eight bytes put together in the opposite order. -/
theorem foldl_rev8 (f : Nat → Nat) : (List.range 8).foldl (fun acc i => acc + f i <<< (8 * (7 - i))) 0 =
    (List.range 8).foldl (fun acc i => acc + f (7 - i) <<< (8 * i)) 0 := by
  simp only [List.range_succ, List.range_zero, List.nil_append, List.cons_append, List.foldl_cons, List.foldl_nil,
    Nat.reduceSub]
  omega

/-- R33: what the unary operations compute. -/
theorem unaryValues : Claims.UnaryValues := by
  intro a r ulo byte
  have clz := clzN_spec a.isLt
  have hlo : ulo < 2 ^ 32 := Nat.mod_lt _ (by decide)
  have clzw := clzN_spec hlo
  have ctz := ctzN_spec 64 a.toNat
  have ctzw := ctzN_spec 32 ulo
  have rclz : r .clz = clzN 64 a.toNat := toNat_ofNat_of_le clz.1
  have rclzw : r .clzw = clzN 32 ulo := toNat_ofNat_of_le (clzw.1.trans (by decide))
  have rctz : r .ctz = ctzN 64 a.toNat := toNat_ofNat_of_le ctz.1
  have rctzw : r .ctzw = ctzN 32 ulo := toNat_ofNat_of_le (ctzw.1.trans (by decide))
  have low (b : Nat) (hb : b < 32) : ulo.testBit b = a.getLsbD b := by
    rw [Nat.testBit_mod_two_pow, decide_eq_true hb, Bool.true_and]; rfl
  refine ⟨rclz ▸ clz, rclzw ▸ clzw, rctz ▸ ctz, ?_, ?_, ?_, ?_, ?_, ?_, fun i hi => ⟨?_, ?_⟩⟩
  · rw [rctzw]
    exact ⟨ctzw.1, fun b hb => low b (hb.trans_le ctzw.1) ▸ ctzw.2.1 b hb, fun h => low _ h ▸ ctzw.2.2 h⟩
  · exact (toNat_ofNat_of_le (popN_le 64 _)).trans (popN_eq_countP 64 _)
  · refine (toNat_ofNat_of_le ((popN_le 32 _).trans (by decide))).trans ((popN_eq_countP 32 _).trans ?_)
    exact List.countP_congr fun b hb => by rw [low b (List.mem_range.1 hb)]
  · refine (BitVec.toInt_signExtend_of_le (by decide)).trans ?_
    rw [BitVec.toInt_setWidth, BitVec.toInt_eq_toNat_bmod a, Int.bmod_bmod_of_dvd (by decide)]
  · refine (BitVec.toInt_signExtend_of_le (by decide)).trans ?_
    rw [BitVec.toInt_setWidth, BitVec.toInt_eq_toNat_bmod a, Int.bmod_bmod_of_dvd (by decide)]
  · refine (BitVec.toNat_setWidth_of_le (by decide)).trans (BitVec.toNat_setWidth _ _)
  · refine (byte_ofBytes (fun i => if byteAt a i = 0 then 0 else 255) (fun i => ?_) hi).trans ?_
    · show (if byteAt a i = 0 then 0 else 255) < 256
      split <;> decide
    · simp only [byteAt_eq]; rfl
  · show (BitVec.ofNat 64 _).toNat / 256 ^ i % 256 = a.toNat / 256 ^ (7 - i) % 256
    rw [foldl_rev8, byte_ofBytes (fun i => byteAt a (7 - i)) (fun i => byteAt_lt a _) hi, byteAt_eq]

/-- Settles O13: an integer instruction writes one register and retires, a jump links and goes; each value is that of the library's
operation on words, read as a number, an integer or bits. -/
theorem standardIntegerAndDivision : Obligations.StandardIntegerAndDivision :=
  ⟨standardIntegerInstructions, divisionCorners, integerValues, unaryValues⟩

end Sys2Proof.Machine
end

section
/-! SUPPORT. Reads of CSRs (R33, R68, R177): a read of a stall counter also settles the counters of the core. -/
namespace Sys2Proof.Machine
open Sys2Proof.Safety

/-- Firmware's hart in M mode, one ck after the stall counters of its core were last settled. -/
def scntReader : State := { State.reset with hart := { State.reset.hart with mode := .m }, clock := 1 }

theorem State.scAt_settleScnt (s : State) (core : Nat) : ((s.settleScnt core).core core).scAt = s.clock := by
  simp only [State.settleScnt, State.core_modCore, if_true]

/-- A read of hpmcounter3 leaves the counters of the core settled. -/
theorem csrOp_hpmcounter_settles (op : CsrOp) (imm : Bool) (rd src : XReg) (s : State) (hm : s.hart.mode = .m)
    (hw : csrWrites op src = false) :
    s.csrOp op imm 0xC03 rd src = ((s.setX rd (s.hpmVal 3)).retire).settleScnt s.coreNo := by
  have hok : s.hart.csrOk 0xC03 false = true := by simp [Hart.csrOk, Hart.counterOk, hm, Priv.code]
  have hval : s.csrVal 0xC03 = some (s.hpmVal 3) := rfl
  have hcsr : (0xC03 : BitVec 12).toNat = 0xC03 := rfl
  simp only [State.csrOp, hcsr, hval, hw, hok]
  rfl

/-- Refutes O16: a read of hpmcounter3 (R177) also brings the stall counters of the core up to date, so more than the hart changes
where time has passed since they last were. -/
theorem not_csrReadsAndWrites : ¬ Obligations.CsrReadsAndWrites := by
  rintro ⟨reads, -⟩
  obtain ⟨t, ht, k, hk, -⟩ := (reads .rs false 0xC03 0 0 scntReader).1 (scntReader.hpmVal 3) rfl (by decide) rfl
  have hrun : exec (.csrAccess .rs false 0xC03 0 0) scntReader = .next (scntReader.csrOp .rs false 0xC03 0 0) := rfl
  rw [hrun, csrOp_hpmcounter_settles _ _ _ _ _ rfl rfl, Host.Outcome.next.injEq] at ht
  have settled : (t.core scntReader.coreNo).scAt = 1 := by
    rw [← ht, State.scAt_settleScnt]; rfl
  have unchanged : t.cores = scntReader.cores := by rw [hk]
  rw [State.core, unchanged] at settled
  exact absurd settled (by decide)

end Sys2Proof.Machine
end

section
/-! SUPPORT. What the operations on memory leave of the machine: the focused hart and the stores that wait at ports (R267, R311,
R319). -/
namespace Sys2Proof.Machine

/-- The focused hart, the stores buffered at the package's ports, and those that wait at each core's loop-back port. -/
def State.heldBack (s : State) : Hart × List FarStore × (Nat → List LbStore) := (s.hart, s.farBuf, fun c => (s.core c).lb)

/-- What each step of a fold keeps, the fold keeps. -/
theorem foldl_keeps {α β γ : Type} (π : α → γ) {f : α → β → α} (hf : ∀ s b, π (f s b) = π s) (l : List β) (s : α) :
    π (l.foldl f s) = π s := by
  induction l generalizing s with
  | nil => rfl
  | cons b r ih => exact (ih _).trans (hf s b)

theorem State.heldBack_modCore (s : State) (c : Nat) {f : Core → Core} (hf : (f (s.core c)).lb = (s.core c).lb) :
    (s.modCore c f).heldBack = s.heldBack := by
  refine congrArg (fun l => (s.hart, s.farBuf, l)) (funext fun d => ?_)
  rw [State.core_modCore]
  split_ifs with hd
  · rw [hf, hd]
  · rfl

theorem State.heldBack_rekey (s : State) (key la : Nat) : (s.rekey key la).heldBack = s.heldBack := by
  unfold State.rekey
  dsimp only
  split_ifs <;> rfl

theorem State.heldBack_shmWrite (s : State) (c off : Nat) (b : List Byte) : (s.shmWrite c off b).heldBack = s.heldBack :=
  State.heldBack_modCore s c (f := fun k => { (k.overwritten off b.length) with shm := putBytes k.shm off b }) rfl

theorem State.heldBack_poke (s : State) (pa : Nat) (b : List Byte) : (s.poke pa b).heldBack = s.heldBack := by
  unfold State.poke
  dsimp only
  split
  · exact State.heldBack_rekey s _ _
  · exact State.heldBack_shmWrite s _ _ _
  · rfl
  · rfl
  · rfl

theorem State.heldBack_settle (s : State) (pa n : Nat) : (s.settle pa n).heldBack = s.heldBack :=
  foldl_keeps State.heldBack (fun s _ => s.heldBack_poke _ _) _ _

theorem State.heldBack_settleAll (s : State) : s.settleAll.heldBack = s.heldBack :=
  foldl_keeps State.heldBack (fun s _ => s.heldBack_poke _ _) _ _

theorem State.heldBack_mergeBytes (s : State) (c ln : Nat) (l : File Byte) : (s.mergeBytes c ln l).heldBack = s.heldBack := by
  induction l generalizing s with
  | nil => rfl
  | cons e r ih => exact (ih _).trans (s.heldBack_poke _ _)

theorem State.heldBack_mergeCopy (s : State) (e : HcLine) : (s.mergeCopy e).heldBack = s.heldBack := s.heldBack_mergeBytes _ _ _

theorem State.heldBack_mergeCopies (s : State) (l : List HcLine) : (l.foldl State.mergeCopy s).heldBack = s.heldBack :=
  foldl_keeps State.heldBack State.heldBack_mergeCopy l s

theorem State.heldBack_recall (s : State) (ln : Nat) : (s.recall ln).heldBack = s.heldBack := by
  unfold State.recall
  split
  · rfl
  · exact (State.heldBack_mergeCopies _ _).trans (s.heldBack_settle _ _)

theorem State.heldBack_recallAll (s : State) : s.recallAll.heldBack = s.heldBack :=
  foldl_keeps State.heldBack State.heldBack_recall _ s

theorem State.heldBack_publish (s : State) (c : Nat) : (s.publish c).heldBack = s.heldBack := s.heldBack_mergeCopies _

theorem State.heldBack_postFault (s : State) (d kind pa : Nat) : (s.postFault d kind pa).heldBack = s.heldBack := by
  unfold State.postFault
  dsimp only
  split <;> rfl

theorem State.heldBack_farPerform (s : State) (p : Nat) (l : List FarStore) : (s.farPerform p l).heldBack = s.heldBack := by
  unfold State.farPerform
  split_ifs
  · rfl
  · refine foldl_keeps State.heldBack (fun s e => ?_) l s
    exact s.heldBack_poke e.pa e.bytes
  · exact foldl_keeps State.heldBack (fun s ln => s.heldBack_postFault _ _ _) _ s

/-- Stores performed at a core's array leave the ports and the focused hart as they are. -/
theorem State.heldBack_lbPerform (s : State) (c : Nat) (l : List LbStore) : (s.lbPerform c l).heldBack = s.heldBack := by
  refine foldl_keeps State.heldBack (fun s e => ?_) l s
  exact s.heldBack_shmWrite c e.off e.bytes

/-! ## What a hart's release performs -/

/-- What is kept in order of arrival is not named by the test itself. -/
theorem not_upTo_self_of_mem_dueOf_snd {α : Type} {upTo : α → α → Bool} {l : List α} {e : α} (h : e ∈ (dueOf upTo l).2) :
    upTo e e = false := by
  induction l with
  | nil => simp [dueOf] at h
  | cons a r ih =>
    simp only [dueOf] at h
    split_ifs at h with hany
    · exact ih h
    · rcases List.mem_cons.1 h with rfl | h
      · simpa using fun hself => hany (List.any_eq_true.2 ⟨e, List.mem_cons_self, hself⟩)
      · exact ih h

theorem State.farBuf_lbPerform (s : State) (c : Nat) (l : List LbStore) : (s.lbPerform c l).farBuf = s.farBuf :=
  congrArg (fun x => x.2.1) (s.heldBack_lbPerform c l)

theorem State.hart_lbPerform (s : State) (c : Nat) (l : List LbStore) : (s.lbPerform c l).hart = s.hart :=
  congrArg Prod.fst (s.heldBack_lbPerform c l)

theorem State.hart_drainPortsOf (s : State) (g : Nat) : (s.drainPortsOf g).hart = s.hart := by
  let due := (dueOf (fun e x : FarStore => x.port == e.port && x.gid == g) s.farBuf).1
  exact congrArg Prod.fst (foldl_keeps State.heldBack (f := fun s p => s.farPerform p (due.filter (fun e => e.port == p)))
    (fun s p => s.heldBack_farPerform p _) (List.range 9) s)

theorem State.hart_of_heldBack {s t : State} (h : s.heldBack = t.heldBack) : s.hart = t.hart := congrArg Prod.fst h

theorem State.farBuf_of_heldBack {s t : State} (h : s.heldBack = t.heldBack) : s.farBuf = t.farBuf := congrArg (fun x => x.2.1) h

theorem State.hart_perform (s : State) (g : Nat) : (s.perform g).hart = s.hart :=
  (State.hart_lbPerform _ _ _).trans (s.hart_drainPortsOf g)

/-- No store of the hart waits at a port of the package any more. -/
theorem State.gid_ne_of_mem_farBuf_perform {s : State} {g : Nat} {e : FarStore} (he : e ∈ (s.perform g).farBuf) : e.gid ≠ g := by
  have kept : (s.perform g).farBuf = (dueOf (fun e x : FarStore => x.port == e.port && x.gid == g) s.farBuf).2 :=
    State.farBuf_lbPerform _ _ _
  rw [kept] at he
  simpa using not_upTo_self_of_mem_dueOf_snd he

/-- No store of the hart waits at its core's loop-back port any more. -/
theorem State.gid_ne_of_mem_lb_perform {s : State} {g : Nat} {e : LbStore} (he : e ∈ ((s.perform g).core (gidCore g)).lb) :
    e.gid ≠ g := by
  simp only [State.perform, State.drainLbOf, State.core_modCore, if_true] at he
  simpa using not_upTo_self_of_mem_dueOf_snd he

end Sys2Proof.Machine
end

section
/-! SUPPORT. What retiring changes of a hart, and the fences (R32, R71, R86, R90, R223, R318). -/
namespace Sys2Proof.Machine
open Sys2Proof.Safety

/-! ## Retiring -/

theorem Hart.endTest1_eq (h : Hart) (nxt : Word) : (h.endTest1 nxt).1 =
    { h with lpcnt1 := (h.endTest1 nxt).1.lpcnt1, lpxe1 := (h.endTest1 nxt).1.lpxe1 } := by
  unfold Hart.endTest1
  split_ifs <;> rfl

theorem Hart.endTest0_eq (h : Hart) (nxt : Word) : (h.endTest0 nxt).1 =
    { h with lpcnt0 := (h.endTest0 nxt).1.lpcnt0, lpxe0 := (h.endTest0 nxt).1.lpxe0 } := by
  unfold Hart.endTest0
  split_ifs <;> rfl

/-- A hart that retires in sequence: pc, the loop registers that an end test changes, the count of instructions and what belongs to
the wait. -/
theorem Hart.retire_eq (h : Hart) : h.retire = { h with
    pc := h.retire.pc, lpcnt0 := h.retire.lpcnt0, lpxe0 := h.retire.lpxe0, lpcnt1 := h.retire.lpcnt1, lpxe1 := h.retire.lpxe1
    csr := h.retire.csr, run := .ready, answer := none, results := [], obsWait := none } := by
  obtain ⟨p, c0, e0, c1, e1, adv⟩ : ∃ p c0 e0 c1 e1,
      h.advance = { h with pc := p, lpcnt0 := c0, lpxe0 := e0, lpcnt1 := c1, lpxe1 := e1 } := by
    simp only [Hart.advance]
    rw [Hart.endTest0_eq, Hart.endTest1_eq]
    split_ifs <;> exact ⟨_, _, _, _, _, rfl⟩
  simp only [Hart.retire, Hart.countRetired, adv]
  split_ifs <;> rfl

@[simp] theorem Hart.retire_x (h : Hart) : h.retire.x = h.x := by rw [Hart.retire_eq]
@[simp] theorem Hart.retire_cnt2 (h : Hart) : h.retire.cnt2 = h.cnt2 := by rw [Hart.retire_eq]
@[simp] theorem Hart.retire_cnt3 (h : Hart) : h.retire.cnt3 = h.cnt3 := by rw [Hart.retire_eq]
@[simp] theorem Hart.retire_fenceSeq (h : Hart) : h.retire.fenceSeq = h.fenceSeq := by rw [Hart.retire_eq]

/-- Where a hart goes on depends on the place, the length, the mode and the loop registers alone. -/
theorem Hart.retire_pc (h : Hart) : h.retire.pc = h.advance.pc := by
  simp only [Hart.retire, Hart.countRetired]
  split_ifs <;> rfl

/-- A hart with other counts of outstanding stores, and another place in the log of stores that its fetch sees. -/
def Hart.withStores (h : Hart) (c : File Nat) (n2 n3 : Nat) (o : List Nat) (f : Nat) : Hart :=
  { h with cscope := c, cnt2 := n2, cnt3 := n3, out2 := o, fenceSeq := f }

theorem Hart.endTest1_withStores (h : Hart) (c : File Nat) (n2 n3 : Nat) (o : List Nat) (f : Nat) (nxt : Word) :
    (h.withStores c n2 n3 o f).endTest1 nxt = ((h.endTest1 nxt).1.withStores c n2 n3 o f, (h.endTest1 nxt).2) := by
  unfold Hart.endTest1 Hart.withStores
  dsimp only
  split_ifs <;> rfl

theorem Hart.endTest0_withStores (h : Hart) (c : File Nat) (n2 n3 : Nat) (o : List Nat) (f : Nat) (nxt : Word) :
    (h.withStores c n2 n3 o f).endTest0 nxt = ((h.endTest0 nxt).1.withStores c n2 n3 o f, (h.endTest0 nxt).2) := by
  unfold Hart.endTest0 Hart.withStores
  dsimp only
  split_ifs <;> rfl

/-- Outstanding stores have no part in where a hart goes on. -/
theorem Hart.retire_pc_withStores (h : Hart) (c : File Nat) (n2 n3 : Nat) (o : List Nat) (f : Nat) :
    (h.withStores c n2 n3 o f).retire.pc = h.retire.pc := by
  have place : (h.withStores c n2 n3 o f).pc + BitVec.ofNat 64 (h.withStores c n2 n3 o f).ilen = h.pc + BitVec.ofNat 64 h.ilen := rfl
  have mode : ((h.withStores c n2 n3 o f).mode != .u || (h.withStores c n2 n3 o f).uiAct) = (h.mode != .u || h.uiAct) := rfl
  simp only [Hart.retire_pc, Hart.advance, place, mode, Hart.endTest1_withStores, Hart.endTest0_withStores]
  split_ifs <;> rfl

/-- The outstanding stores and their scopes are all that `storesDone` changes. -/
theorem Hart.storesDone_eq (h : Hart) : h.storesDone = h.withStores h.storesDone.cscope 0 0 [] h.fenceSeq := by
  have noted (l : List Nat) : ∀ h : Hart, ∃ c, l.foldl (fun h n => h.noteScope 2 n) h = { h with cscope := c } := by
    induction l with
    | nil => exact fun h => ⟨h.cscope, rfl⟩
    | cons n r ih => exact fun h => ⟨_, (ih (h.noteScope 2 n)).choose_spec⟩
  obtain ⟨c, hc⟩ := noted h.out2 h
  simp only [Hart.storesDone, hc]
  split_ifs <;> rfl

/-! ## Fences -/

/-- A change of the focused hart that keeps its place. -/
theorem State.modHart_focus {s : State} {g : Nat} {f : Hart → Hart} (hg : g = s.hart.gid) (hf : (f s.hart).gid = g) :
    s.modHart g f = s.onHart f := by
  subst hg
  have put : ({ f s.hart with gid := s.hart.gid } : Hart) = f s.hart := by rw [← hf]
  simp only [State.modHart, State.hartOf_focus, put, State.putHart, if_true]
  rfl

theorem State.hart_publish_perform (s : State) (c g : Nat) : ((s.publish c).perform g).hart = s.hart :=
  (State.hart_perform _ _).trans (State.hart_of_heldBack (s.heldBack_publish c))

/-- A release by the focused hart: what waits at the ports is performed, and its outstanding stores are done. -/
theorem State.release_focus (s : State) :
    s.release s.hart.gid = ((s.publish s.coreNo).perform s.hart.gid).onHart Hart.storesDone :=
  State.modHart_focus (congrArg Hart.gid (s.hart_publish_perform _ _).symm)
    (by rw [State.hart_publish_perform, Hart.storesDone_eq]; rfl)

theorem State.hart_release (s : State) : (s.release s.hart.gid).hart = s.hart.storesDone := by
  rw [State.release_focus, State.onHart_hart, State.hart_publish_perform]

/-- What a fence leaves beyond the cluster's L1: its release, where it has one. -/
theorem State.acquire_eq (s : State) (g : Nat) (sc : Scope) : s.acquire g sc = { s with l1 := (s.acquire g sc).l1 } := by
  unfold State.acquire
  split_ifs <;> rfl

theorem State.hart_acquire (s : State) (g : Nat) (sc : Scope) : (s.acquire g sc).hart = s.hart := by rw [State.acquire_eq]

/-- The state of a fence before it retires. -/
def State.afterFence (s : State) (pred : BitVec 4) : State :=
  let t := if pred.getLsbD 0 || pred.getLsbD 2 then s.release s.hart.gid else s
  if pred.getLsbD 1 || pred.getLsbD 3 then t.acquire s.hart.gid .sys else t

theorem exec_fence (fm pred succ : BitVec 4) (s : State) : exec (.fence fm pred succ) s = .next (s.afterFence pred).retire := rfl

/-- A fence changes no register and goes on in sequence. -/
theorem State.hart_afterFence (s : State) (pred : BitVec 4) :
    (s.afterFence pred).hart.x = s.hart.x ∧ (s.afterFence pred).hart.retire.pc = s.hart.retire.pc := by
  have kept : (s.afterFence pred).hart = s.hart ∨ (s.afterFence pred).hart = s.hart.storesDone := by
    unfold State.afterFence
    dsimp only
    split_ifs
    · exact .inr ((State.hart_acquire _ _ _).trans s.hart_release)
    · exact .inl (State.hart_acquire _ _ _)
    · exact .inr s.hart_release
    · exact .inl rfl
  rcases kept with h | h <;> rw [h]
  · exact ⟨rfl, rfl⟩
  · rw [Hart.storesDone_eq, Hart.retire_pc_withStores]
    exact ⟨rfl, rfl⟩

/-- With writes in its first set, a fence performs the hart's stores. -/
theorem State.afterFence_release {s : State} {pred : BitVec 4} (h : pred.getLsbD 0 = true ∨ pred.getLsbD 2 = true) :
    (∀ e ∈ (s.afterFence pred).farBuf, e.gid ≠ s.hart.gid) ∧ (∀ e ∈ ((s.afterFence pred).core s.coreNo).lb, e.gid ≠ s.hart.gid) ∧
      (s.afterFence pred).hart.cnt2 = 0 ∧ (s.afterFence pred).hart.cnt3 = 0 := by
  have released : ∃ l, s.afterFence pred = { s.release s.hart.gid with l1 := l } := by
    have hw : (pred.getLsbD 0 || pred.getLsbD 2) = true := by simpa using h
    simp only [State.afterFence, hw, if_true]
    split_ifs
    · exact ⟨_, State.acquire_eq _ _ _⟩
    · exact ⟨_, rfl⟩
  obtain ⟨l, hl⟩ := released
  have focus : (s.afterFence pred).hart = s.hart.storesDone := by rw [hl]; exact s.hart_release
  have ports : (s.afterFence pred).farBuf = ((s.publish s.coreNo).perform s.hart.gid).farBuf := by
    rw [hl, State.release_focus, State.onHart_farBuf]
  have cores : (s.afterFence pred).cores = ((s.publish s.coreNo).perform s.hart.gid).cores := by
    rw [hl, State.release_focus, State.onHart_cores]
  rw [focus, Hart.storesDone_eq, ports, State.core, cores]
  exact ⟨fun _ => State.gid_ne_of_mem_farBuf_perform, fun _ => State.gid_ne_of_mem_lb_perform, rfl, rfl⟩

/-- With reads in its first set, a fence takes the cluster's lines out of its L1. -/
theorem State.afterFence_acquire {s : State} {pred : BitVec 4} (h : pred.getLsbD 1 = true ∨ pred.getLsbD 3 = true) :
    ∀ e ∈ (s.afterFence pred).l1, e.cluster ≠ s.clusterNo := by
  have hr : (pred.getLsbD 1 || pred.getLsbD 3) = true := by simpa using h
  intro e he
  simp only [State.afterFence, hr, if_true] at he
  simpa [State.clusterNo] using (List.mem_filter.1 he).2

/-! ## `lbfence` -/

/-- What stores performed at arrays change. -/
theorem State.lbPerform_eq (s : State) (c : Nat) (l : List LbStore) : ∃ k w, s.lbPerform c l = { s with cores := k, wlog := w } := by
  induction l generalizing s with
  | nil => exact ⟨s.cores, s.wlog, rfl⟩
  | cons e r ih =>
    obtain ⟨k, w, h⟩ := ih (s.shmWrite c e.off e.bytes)
    exact ⟨k, w, h⟩

/-- `lbfence` empties the port of the core, and ends the hart's notes. -/
theorem State.lbSync_spec (s : State) (g c : Nat) : (∃ k w, s.lbSync g c = { s with cores := k, wlog := w }) ∧
    ((s.lbSync g c).core c).lb = [] ∧ ∀ e ∈ ((s.lbSync g c).core c).lbOld, e.gid ≠ g := by
  refine ⟨?_, ?_, fun e he => ?_⟩
  · obtain ⟨k, w, h⟩ := s.lbPerform_eq c (s.core c).lb
    simp only [State.lbSync, State.drainLb, h]
    exact ⟨_, _, rfl⟩
  · simp only [State.lbSync, State.drainLb, State.core_modCore, if_true]
    rfl
  · simp only [State.lbSync, State.core_modCore, if_true, Core.forget, List.mem_filter] at he
    simpa using he.2

/-! ## `fence.i` and `sfence.vma` -/

/-- The state of `fence.i` before its fetch takes the stores in. -/
def State.storesSeen (s : State) : State := ((s.perform s.hart.gid).recallAll).settleAll

theorem exec_fenceI (s : State) :
    exec .fenceI s = .next (s.storesSeen.onHart (fun h => { h with fenceSeq := s.storesSeen.wlog.length })).retire := rfl

theorem State.heldBack_storesSeen (s : State) : s.storesSeen.heldBack = (s.perform s.hart.gid).heldBack :=
  (State.heldBack_settleAll _).trans (State.heldBack_recallAll _)

/-- The bits of an ASID, as a number. -/
theorem wfield_asid (w : Word) : wfield w 0 16 = (w.extractLsb' 0 16).toNat := by
  rw [BitVec.extractLsb'_toNat]; rfl

end Sys2Proof.Machine
end

section
/-! SUPPORT. Fences and the waits for interrupts and reservations (R32 to R34, R71, R77). -/
namespace Sys2Proof.Machine
open Sys2Proof.Safety

theorem mem_filter_not_and {α : Type} {p q : α → Bool} {l : List α} {a : α} :
    a ∈ l.filter (fun a => !(p a && q a)) ↔ a ∈ l ∧ ¬(p a = true ∧ q a = true) := by
  simp only [List.mem_filter, Bool.not_eq_true', Bool.and_eq_false_iff, not_and, Bool.not_eq_true]
  cases p a <;> simp

theorem State.traps_illegal (s : State) : Traps s 2 0 s.hart.ir s.illegal := rfl

theorem exec_sfenceVma_illegal {s : State} (rs1 rs2 : XReg)
    (h : s.hart.mode = .u ∨ (s.hart.mode = .s ∧ s.hart.csr.mstatus.getLsbD 20 = true)) :
    exec (.sfenceVma rs1 rs2) s = .next s.illegal := by
  have stops : (decide (s.hart.mode = .u) || (decide (s.hart.mode = .s) && wbit s.hart.csr.mstatus 20)) = true := by
    simpa [wbit] using h
  show execSfenceVma rs1 rs2 s = _
  simp only [execSfenceVma, stops, if_true]

/-- The translations that `sfence.vma` removes, where it is legal. -/
theorem exec_sfenceVma {s : State} (rs1 rs2 : XReg)
    (h : s.hart.mode = .m ∨ (s.hart.mode = .s ∧ s.hart.csr.mstatus.getLsbD 20 = false)) :
    let va := if rs1 = 0 then none else some (s.hart.getX rs1).toNat
    let asid := if rs2 = 0 then none else some ((s.hart.getX rs2).extractLsb' 0 16).toNat
    exec (.sfenceVma rs1 rs2) s = .next { s with
      tlb := s.tlb.filter (fun e => !(e.place.within s.clusterNo && tlbStruck va asid e true))
      walkc := s.walkc.filter (fun e => !(e.die == s.dieNo && walkcStruck va asid e true))
      hart := s.hart.retire } := by
  have goes : (decide (s.hart.mode = .u) || (decide (s.hart.mode = .s) && wbit s.hart.csr.mstatus 20)) = false := by
    rcases h with h | ⟨h, hb⟩
    · simp [h]
    · rw [h, wbit, hb]; rfl
  show execSfenceVma rs1 rs2 s = _
  simp only [execSfenceVma, goes, wfield_asid, Bool.false_eq_true, if_false]
  rfl

/-- R32, R71, R86, R90, R223, R318: the fences and `yield`. -/
theorem fencesAndYield : Claims.FencesAndYield := by
  intro fm pred succ rs1 rs2 s h va asid
  refine ⟨⟨_, rfl, s.retires_retire⟩, ⟨_, rfl, ?_⟩, fun hw => ⟨_, exec_fence .., ?_⟩, fun hr => ⟨_, exec_fence .., ?_⟩,
    fun h0 => ⟨_, exec_fence .., ?_⟩, ⟨_, exec_fenceI s, ?_⟩, fun hm => ⟨_, exec_sfenceVma rs1 rs2 hm, rfl, ?_, ?_⟩,
    fun hm => ⟨_, exec_sfenceVma_illegal rs1 rs2 hm, s.traps_illegal⟩⟩
  case refine_1 =>
    obtain ⟨⟨k, w, eq⟩, port, notes⟩ := s.lbSync_spec s.hart.gid s.coreNo
    refine ⟨?_, port, notes⟩
    rw [eq]; rfl
  case refine_2 =>
    obtain ⟨far, own, n2, n3⟩ := State.afterFence_release (s := s) hw
    obtain ⟨x, pc⟩ := s.hart_afterFence pred
    exact ⟨far, own, (Hart.retire_cnt2 _).trans n2, (Hart.retire_cnt3 _).trans n3, (Hart.retire_x _).trans x, pc⟩
  case refine_3 =>
    obtain ⟨x, pc⟩ := s.hart_afterFence pred
    exact ⟨State.afterFence_acquire hr, (Hart.retire_x _).trans x, pc⟩
  case refine_4 =>
    subst h0
    exact s.retires_retire
  case refine_5 =>
    have kept := s.heldBack_storesSeen
    have same : s.storesSeen.hart = s.hart := (State.hart_of_heldBack kept).trans (s.hart_perform _)
    refine ⟨?_, fun e he => ?_, ?_, ?_⟩
    · rw [State.retire_hart, State.onHart_hart, Hart.retire_fenceSeq, State.retire_wlog, State.onHart_wlog]
    · rw [State.retire_farBuf, State.onHart_farBuf, State.farBuf_of_heldBack kept] at he
      exact State.gid_ne_of_mem_farBuf_perform he
    · rw [State.retire_hart, State.onHart_hart, same]
      exact Hart.retire_pc_withStores s.hart _ _ _ _ _
    · rw [State.retire_hart, State.onHart_hart, same, Hart.retire_x]
  case refine_6 => exact fun e => mem_filter_not_and
  case refine_7 => exact fun e => mem_filter_not_and.trans (by rw [beq_iff_eq])

/-! ## Waits -/

theorem State.gives_illegal {i : Instr} {s t : State} (h : exec i s = .next t.illegal) : Gives i s (Traps t 2 0 t.hart.ir) :=
  ⟨_, h, t.traps_illegal⟩

/-- A hart that is not waiting begins its wait at its own pc. -/
theorem State.wait_of_ready {s : State} (w : Wait) (h : s.hart.run = .ready) :
    (s.wait w).hart.run = .waiting w ∧ (s.wait w).hart.pc = s.hart.pc := by
  have fresh : s.hart.run ≠ .waiting w := by rw [h]; exact Run.noConfusion
  rw [State.wait, if_neg fresh]
  exact ⟨rfl, rfl⟩

theorem State.twDue_of_ready {s : State} (w : Wait) (h : s.hart.run = .ready) : s.twDue w = false := by
  have fresh : s.inWait w = false := by rw [State.inWait, h]; rfl
  rw [State.twDue, fresh, Bool.and_false, Bool.false_and]

/-- What ends a wait at once: an interrupt, or a single step. -/
theorem wakes_iff {s : State} : (s.wakeUp || s.hart.dbg.step) = true ↔ s.wakeUp = true ∨ s.hart.dbg.step = true := Bool.or_eq_true_iff

theorem exec_wfi_ends {s : State} (h : s.wakeUp = true ∨ s.hart.dbg.step = true) : exec .wfi s = .next s.retire := by
  show execWfi s = _
  rw [execWfi, if_pos (wakes_iff.2 h)]

theorem exec_wfi_waits {s : State} (hi : s.wakeUp = false) (hs : s.hart.dbg.step = false) (h : s.hart.run = .ready) :
    exec .wfi s = .next (s.wait .wfi) := by
  show execWfi s = _
  simp only [execWfi, hi, hs, State.twDue_of_ready _ h, Bool.or_self, Bool.false_eq_true, if_false]

/-- Both waits for a reservation end once it is gone, or with the wake-up of `wfi`. -/
theorem exec_wrs_ends {s : State} (h : s.hart.resv = none ∨ s.wakeUp = true ∨ s.hart.dbg.step = true) :
    exec .wrsNto s = .next s.retire ∧ exec .wrsSto s = .next s.retire := by
  show execWrsNto s = _ ∧ execWrsSto s = _
  rw [execWrsNto, execWrsSto]
  cases hr : s.hart.resv with
  | none => exact ⟨rfl, rfl⟩
  | some l =>
    have wakes := wakes_iff.2 (h.resolve_left (by rw [hr]; exact Option.some_ne_none l))
    simp only [wakes, Bool.true_or, if_true, and_self]

theorem exec_wrs_waits {s : State} {l : Nat} (hr : s.hart.resv = some l) (hi : s.wakeUp = false) (hs : s.hart.dbg.step = false)
    (h : s.hart.run = .ready) :
    exec .wrsNto s = .next (s.wait (.zawrs true l)) ∧ exec .wrsSto s = .next (s.wait (.zawrs false l)) := by
  have fresh : s.inWait (.zawrs false l) = false := by rw [State.inWait, h]; rfl
  show execWrsNto s = _ ∧ execWrsSto s = _
  simp only [execWrsNto, execWrsSto, hr, hi, hs, fresh, State.twDue_of_ready _ h, Bool.or_self, Bool.false_and, Bool.false_eq_true,
    if_false, and_self]

theorem exec_wrsStoTimeout {s : State} {l : Nat} (h : (s.focus s.sel).hart.run = .waiting (.zawrs false l))
    (hw : (s.focus s.sel).hart.waitFrom + 16384 ≤ (s.focus s.sel).clock) :
    exec .wrsStoTimeout s = .next (s.focus s.sel).retire := by
  show execWrsStoTimeout s = _
  have due : (s.focus s.sel).waited 16384 = true := decide_eq_true hw
  simp only [execWrsStoTimeout, h, due, if_true]

/-- The bound of the other waits, for the selected hart. -/
theorem exec_twTimeout {s : State} {l : Nat} {w : Wait} (hw : w = .wfi ∨ w = .zawrs true l) (h : (s.focus s.sel).hart.run = .waiting w)
    (hm : (s.focus s.sel).hart.mode ≠ .m)
    (hb : (s.focus s.sel).hart.csr.mstatus.getLsbD 21 = true ∨ ((s.focus s.sel).hart.mode = .u ∧ w = .wfi))
    (hc : (s.focus s.sel).hart.waitFrom + 65536 ≤ (s.focus s.sel).clock) :
    exec .twTimeout s = .next (s.focus s.sel).illegal := by
  have due : (s.focus s.sel).twDue w = true := by
    simp only [State.twDue, State.inWait, State.waited, h, wbit, Bool.and_eq_true, Bool.or_eq_true, bne_iff_ne, beq_iff_eq,
      decide_eq_true_eq]
    exact ⟨⟨⟨hm, hb⟩, trivial⟩, hc⟩
  show execTwTimeout s = _
  rcases hw with rfl | rfl
  · simp only [execTwTimeout, h, due, if_true]
  · simp only [execTwTimeout, h, due, if_true]

/-- R33, R34, R77: the waits for an interrupt and for a reservation. -/
theorem waitInstructions : Claims.WaitInstructions := by
  intro l s h f
  refine ⟨fun he => ⟨_, exec_wfi_ends he, s.retires_retire⟩,
    fun hi hs hr => ⟨_, exec_wfi_waits hi hs hr, State.wait_of_ready _ hr⟩,
    fun he => ⟨⟨_, (exec_wrs_ends he).1, s.retires_retire⟩, ⟨_, (exec_wrs_ends he).2, s.retires_retire⟩⟩,
    fun hl hi hs hr => ?_, fun hr hc => ⟨_, exec_wrsStoTimeout hr hc, f.retires_retire⟩,
    fun w hw hr hm hb hc => State.gives_illegal (exec_twTimeout hw hr hm hb hc)⟩
  obtain ⟨nto, sto⟩ := exec_wrs_waits hl hi hs hr
  exact ⟨⟨_, nto, State.wait_of_ready _ hr⟩, ⟨_, sto, State.wait_of_ready _ hr⟩⟩

/-- Settles O21, by what a release performs, an acquire removes and a wait's test says. -/
theorem fencesAndWaits : Obligations.FencesAndWaits := ⟨fencesAndYield, waitInstructions⟩

end Sys2Proof.Machine
end

section
/-! SUPPORT. A hart's access that joins the walk of a prefetch (R138, R274): the walk brings the prefetch's line too. -/
namespace Sys2Proof.Machine
open Sys2Proof.Safety

/-- The leaf that maps the 512 GiB from 2^41 on to themselves, for U mode. -/
def globalLeaf : Word := 0x80000000DF#64

/-- A prefetch of the hart's own page into the L1 of its cluster, whose walk is in progress; a shootdown since it began keeps its
translation out of the TLBs. -/
def l1Prefetch : Walk := ⟨7, 0, 0, 0x9000000020000010#64, 0x20000001000#64, .clus, .normal, .u, false, false, true, [(none, none)]⟩

/-- A quiet machine with a hart in U mode under Sv48 and a walk in progress for the page that x5 names. -/
def prefetching : State :=
  let s := State.reset.withFetchWord 32 0x13
  { s with
    hart := { s.hart with x := [(5, 0x20000001000#64)], csr := { s.hart.csr with satp := 0x9000000020000010#64 } }
    mem := memSetBytes [] 0x20000010020 (natToBytes 8 globalLeaf.toNat), walks := [l1Prefetch] }

theorem quiet_prefetching : Claims.Quiet prefetching := ⟨rfl, rfl, rfl, rfl, rfl, rfl, rfl, fun _ => ⟨rfl, rfl⟩⟩

/-- The address of a checked access, where there is one. -/
def pa? (r : Except TrapInfo Nat × State) : Option Nat := r.1.toOption

theorem eq_ok_of_pa? {r : Except TrapInfo Nat × State} {a : Nat} (h : pa? r = some a) : r = (.ok a, r.2) := by
  obtain ⟨⟨_⟩ | ⟨b⟩, s⟩ := r
  · cases h
  · cases h; rfl

/-- Does a test hold of the state that an outcome gives? -/
def nextHas (p : State → Bool) (o : Out) : Bool :=
  match o with
  | .next t => p t
  | _ => false

/-- What no state of a statement has, the instruction's own state refutes. -/
theorem not_gives_of_nextHas {i : Instr} {s : State} {Q : State → Prop} {p : State → Bool} (h : nextHas p (exec i s) = true)
    (hQ : ∀ t, Q t → p t = false) : ¬ Gives i s Q := by
  rintro ⟨t, ht, hq⟩
  rw [ht, nextHas, hQ t hq] at h
  exact absurd h (by decide)

/-- Does some L1 hold a line? -/
def State.l1Filled (s : State) : Bool := !s.l1.isEmpty

theorem hartPa_prefetching_load : prefetching.hartPa .load 0x20000001000 = (.ok 0x20000001000, (prefetching.hartPa .load 0x20000001000).2) :=
  eq_ok_of_pa? (by decide +kernel)

theorem hartPa_prefetching_store : prefetching.hartPa .store 0x20000001000 = (.ok 0x20000001000, (prefetching.hartPa .store 0x20000001000).2) :=
  eq_ok_of_pa? (by decide +kernel)

/-- Refutes O24: a load that joins the walk of a prefetch gives the prefetch its translation (R274), and with it the line comes into
the cluster's L1 (R138), which the statement keeps as it was. -/
theorem not_hartLoads : ¬ Obligations.HartLoads := by
  intro h
  have loaded := ((h .ld 6 5 0 prefetching).2 (by decide) (by decide) (by decide) _ _ hartPa_prefetching_load).2.1
    quiet_prefetching (by decide) (.inl (by decide))
  refine not_gives_of_nextHas (p := State.l1Filled) (by decide +kernel) (fun t ht => ?_) loaded
  obtain ⟨-, g, reached, -⟩ := ht
  have empty : t.l1 = [] := congrArg State.l1 reached.1
  rw [State.l1Filled, empty]; rfl

/-- Refutes O25: a store that joins the walk of a prefetch brings the prefetch's line into the cluster's L1 likewise (R138, R274). -/
theorem not_hartStores : ¬ Obligations.HartStores := by
  intro h
  have stored := (((h .sd 5 6 0 prefetching).2 (by decide) (by decide) (by decide) _ _ hartPa_prefetching_store (by decide)).1
    quiet_prefetching).1 (by decide)
  refine not_gives_of_nextHas (p := State.l1Filled) (by decide +kernel) (fun t ht => ?_) stored
  obtain ⟨reached, -⟩ := ht
  have empty : t.l1 = [] := congrArg State.l1 reached.1
  rw [State.l1Filled, empty]; rfl

/-! ## An atomic on a page that is kept out of the caches -/

/-- A hart in U mode under Sv48 whose first TLB holds an NC page of HBM, at the address in x5; x6 = 7. -/
def uncached : State :=
  let s := State.reset.withFetchWord 32 0x13
  { s with
    hart := { s.hart with
      x := [(5, 0x20000001000#64), (6, 7#64)]
      csr := { s.hart.csr with satp := 0x9000000020000010#64, menvcfg := 0x4000000000000000#64 } }
    tlb := [⟨.micro 0, 0, false, false, 0x20000001, 12, 12, 0x20000001, 0x20000080000004DF#64⟩] }

theorem quiet_uncached : Claims.Quiet uncached := ⟨rfl, rfl, rfl, rfl, rfl, rfl, rfl, fun _ => ⟨rfl, rfl⟩⟩

theorem hartPa_uncached : uncached.hartPa .store 0x20000001000 = (.ok 0x20000001000, (uncached.hartPa .store 0x20000001000).2) :=
  eq_ok_of_pa? (by decide +kernel)

/-- The byte of the page's first word as key id 1 names it. -/
def underKey1 : Nat := 2 ^ 46 + 0x20000001000

/-- Does a hart of core 0 see another byte under key id 1 than before the atomic? -/
def State.seesOther (s : State) : Bool := Claims.sees s 0 underKey1 != Claims.sees uncached 0 underKey1

/-- Refutes O26: on an NC page an AMO writes the home (R393), which every key id reads as it stands while no key is loaded (R371): the
statement tells other bytes by the number of their address, key id and all. -/
theorem not_hartAtomics : ¬ Obligations.HartAtomics := by
  intro h
  have swapped := (((h .swap false false false 7 5 6 uncached (by decide) (by decide)).2 (by decide) _ _ hartPa_uncached (by decide)).1
    quiet_uncached (by decide)).1 (by decide) (by decide)
  refine not_gives_of_nextHas (p := State.seesOther) (by decide +kernel) (fun t ht => ?_) swapped
  obtain ⟨⟨-, others⟩, -⟩ := ht
  exact bne_eq_false_iff_eq.2 (others underKey1 (.inr (by decide)))

end Sys2Proof.Machine
end

section
/-! SUPPORT. Reads of memory, translation and fetch leave the focused hart as it is (R31, R71, R273). -/
namespace Sys2Proof.Machine

/-! ## Memory -/

theorem State.hart_poke (s : State) (pa : Nat) (b : List Byte) : (s.poke pa b).hart = s.hart :=
  State.hart_of_heldBack (s.heldBack_poke pa b)

theorem State.hart_l2Touch (s : State) (pa n : Nat) : (s.l2Touch pa n).hart = s.hart := by
  unfold State.l2Touch
  dsimp only
  split
  · rfl
  · split
    · rfl
    · split
      · rfl
      · split <;> rfl

theorem State.hart_hostWriteBack (s : State) (ln : Nat) : (s.hostWriteBack ln).hart = s.hart := by
  unfold State.hostWriteBack
  dsimp only
  split_ifs
  · exact State.hart_of_heldBack (s.heldBack_postFault (s.homeDie (paLow (128 * ln))) 6 (128 * ln))
  · exact s.hart_poke _ _
  · rfl

theorem State.hart_recallOwned (s : State) (ln : Nat) : (s.recallOwned ln).hart = s.hart := by
  unfold State.recallOwned
  split_ifs
  · exact State.hart_of_heldBack (s.heldBack_recall ln)
  · rfl

theorem State.hart_ready (s : State) (pa n : Nat) : (s.ready pa n).hart = s.hart := by
  rw [State.ready, State.hart_l2Touch, State.hart_of_heldBack (State.heldBack_settle _ _ _), State.hart_recallOwned,
    State.hart_hostWriteBack]

theorem State.hart_readyLines (s : State) (pa n : Nat) : (s.readyLines pa n).hart = s.hart :=
  foldl_keeps State.hart (fun s _ => s.hart_ready _ 128) _ s

theorem State.hart_drainLb (s : State) (c : Nat) : (s.drainLb c).hart = s.hart := State.hart_lbPerform s c _

theorem State.hart_drainPort (s : State) (p : Nat) : (s.drainPort p).hart = s.hart := by
  show (s.farPerform p (s.farBuf.filter (fun e => e.port == p))).hart = _
  exact State.hart_of_heldBack (s.heldBack_farPerform p _)

theorem State.hart_homeRead (s : State) (pa n : Nat) : (s.homeRead pa n).2.hart = s.hart := by
  unfold State.homeRead
  dsimp only
  split
  · exact s.hart_drainLb _
  · exact s.hart_drainPort _
  · exact s.hart_drainPort _
  · exact s.hart_readyLines _ _

theorem State.hart_l1Fill (s : State) (cl pa : Nat) (first : Bool) : (s.l1Fill cl pa first).hart = s.hart := by
  unfold State.l1Fill
  dsimp only
  split_ifs
  · rfl
  · split <;> rfl

theorem State.hart_fetchLine (s : State) (cl : Nat) (sc : Scope) (hint : Hint) (pa : Nat) :
    (s.fetchLine cl sc hint pa).hart = s.hart := by
  have filled (t : State) : ((List.range 4).foldl (fun s k => s.l1Fill cl (128 * tagLine pa + 32 * k) (hint == .str)) t).hart = t.hart :=
    foldl_keeps State.hart (fun s k => s.hart_l1Fill _ _ _) _ t
  unfold State.fetchLine
  dsimp only
  split
  · rfl
  · rfl
  · rfl
  · rfl
  · split_ifs
    · rfl
    · exact s.hart_homeRead _ _
    · exact (filled _).trans (s.hart_homeRead _ _)

/-! ## Translation -/

theorem State.hart_fillTlb (s : State) (l : List TlbPlace) (g : Agent) (va : Word) (x : Xlat) : (s.fillTlb l g va x).hart = s.hart := by
  refine foldl_keeps State.hart (fun s p => ?_) l s
  rfl

theorem State.hart_fillWalkc (s : State) (e : WalkEnt) : (s.fillWalkc e).hart = s.hart := rfl

theorem State.hart_walk (s : State) (die : Nat) (h : Hart) (g : Agent) (a : Acc) (va lvl base : Nat) :
    (s.walk die h g a va lvl base).2.hart = s.hart := by
  induction lvl generalizing s base with
  | zero =>
    unfold State.walk
    dsimp only
    repeat' split
    all_goals simp only [State.hart_homeRead]
  | succ l ih =>
    unfold State.walk
    dsimp only
    generalize s.walkc.find? _ = cached
    cases cached with
    | some e => exact ih s e.table
    | none =>
      dsimp only
      repeat' split
      all_goals simp only [State.hart_homeRead, State.hart_fillWalkc, ih]

theorem State.hart_walkRoot (s : State) (die : Nat) (h : Hart) (g : Agent) (a : Acc) (va : Word) :
    (s.walkRoot die h g a va).2.hart = s.hart := by
  have walked {v lvl : Nat} {r : Except TrapInfo Xlat} {t : State} (hr : s.walk die h g a v lvl (satpRoot g.satp) = (r, t)) :
      t.hart = s.hart := by
    have kept := s.hart_walk die h g a v lvl (satpRoot g.satp)
    rwa [hr] at kept
  unfold State.walkRoot
  dsimp only
  split
  · split_ifs
    · split
      · exact walked ‹_›
      · exact walked ‹_›
    · rfl
  · split_ifs
    · split
      · exact walked ‹_›
      · exact walked ‹_›
    · rfl
  · rfl

theorem State.hart_walkFills (s : State) (w : Walk) (x : Xlat) : (s.walkFills w x).hart = s.hart := by
  unfold State.walkFills
  dsimp only
  split_ifs <;> simp only [State.hart_fetchLine, State.hart_fillTlb]

theorem State.hart_missWalk (s : State) (h : Hart) (cl : Nat) (g : Agent) (a : Acc) (va : Word) :
    (s.missWalk h cl g a va).2.hart = s.hart := by
  have walked {u t : State} {r : Except TrapInfo Xlat} (hr : u.walkRoot (walkDie cl) h g a va = (r, t)) (hu : u.hart = s.hart) :
      t.hart = s.hart := by
    have kept := u.hart_walkRoot (walkDie cl) h g a va
    rw [hr] at kept
    exact kept.trans hu
  unfold State.missWalk
  dsimp only
  split
  case h_1 =>
    split
    case h_1 hr => exact walked hr rfl
    case h_2 hr =>
      rw [State.hart_walkFills]
      split_ifs
      · exact walked hr rfl
      · exact (State.hart_fillTlb _ _ _ _ _).trans (walked hr rfl)
  case h_2 =>
    split
    case h_1 hr =>
      refine walked hr ?_
      split
      · split_ifs <;> rfl
      · rfl
    case h_2 hr =>
      refine (State.hart_fillTlb _ _ _ _ _).trans (walked hr ?_)
      split
      · split_ifs <;> rfl
      · rfl

theorem State.hart_translateAs (s : State) (h : Hart) (cl : Nat) (g : Agent) (a : Acc) (va : Word) :
    (s.translateAs h cl g a va).2.hart = s.hart := by
  unfold State.translateAs
  dsimp only
  split_ifs
  · rfl
  · rfl
  · split
    · exact s.hart_missWalk _ _ _ _ _
    · split_ifs <;> exact s.hart_fillTlb _ _ _ _

/-! ## Fetch -/

theorem State.hart_fetchPa (s : State) (va : Word) : (s.fetchPa va).2.hart = s.hart := by
  have translated {r : Except TrapInfo Xlat} {t : State}
      (hr : s.translateAs s.hart s.clusterNo (s.hart.agent s.hart.mode) .fetch va = (r, t)) : t.hart = s.hart := by
    have kept := s.hart_translateAs s.hart s.clusterNo (s.hart.agent s.hart.mode) .fetch va
    rwa [hr] at kept
  unfold State.fetchPa
  dsimp only
  split
  case h_1 hr => exact translated hr
  case h_2 hr =>
    repeat' split
    all_goals exact translated hr

theorem State.hart_fetchHalves (s : State) (new : Bool) (va : Word) (n : Nat) : (s.fetchHalves new va n).2.hart = s.hart := by
  induction n generalizing s va with
  | zero => rfl
  | succ n ih =>
    have checked := s.hart_fetchPa va
    unfold State.fetchHalves
    split
    case h_1 hr => rwa [hr] at checked
    case h_2 pa t hr =>
      rw [hr] at checked
      have rest := (ih (t.homeRead pa 2).2 (va + 2)).trans ((t.hart_homeRead pa 2).trans checked)
      dsimp only
      split
      case h_1 hr => rwa [hr] at rest
      case h_2 hr => rwa [hr] at rest

theorem State.hart_fetchHalf32 (s : State) (tag : Nat) (va : Word) : (s.fetchHalf32 tag va).2.hart = s.hart := by
  have old := s.hart_fetchHalves false va 2
  unfold State.fetchHalf32
  split
  case h_1 hr => rwa [hr] at old
  case h_2 t hr =>
    rw [hr] at old
    have new := (t.hart_fetchHalves true va 2).trans old
    split
    case h_1 hr => rwa [hr] at new
    case h_2 hr =>
      rw [hr] at new
      split_ifs <;> exact new

/-- A fetch leaves the hart as it is. -/
theorem State.hart_fetch (s : State) : s.fetch.2.hart = s.hart := by
  have first := s.hart_fetchHalves false s.hart.pc 1
  unfold State.fetch
  dsimp only
  split
  case h_1 hr => rwa [hr] at first
  case h_2 t hr =>
    rw [hr] at first
    split
    · exact first
    · have low := (t.hart_fetchHalf32 1400 s.hart.pc).trans first
      split
      case h_1 hr => rwa [hr] at low
      case h_2 u hr =>
        rw [hr] at low
        split
        · exact low
        · have high := (u.hart_fetchHalf32 1401 (s.hart.pc + 4)).trans low
          split
          case h_1 hr => rwa [hr] at high
          case h_2 hr => rwa [hr] at high
        · exact low
    · have second := (t.hart_fetchHalves false (s.hart.pc + 2) 1).trans first
      split
      case h_1 hr => rwa [hr] at second
      case h_2 hr => rwa [hr] at second

end Sys2Proof.Machine
end

section
/-! SUPPORT. The bits that a quiet machine fetches are those of the bytes in memory (R31, R32). -/
namespace Sys2Proof.Machine
open Sys2Proof.Safety

/-- A machine that differs in the lines that its slices hold. -/
def State.withL2 (s : State) (v : List L2Line) : State := { s with l2 := v }

@[simp] theorem State.withL2_withL2 (s : State) (v w : List L2Line) : (s.withL2 v).withL2 w = s.withL2 w := rfl
@[simp] theorem State.withL2_self (s : State) : s.withL2 s.l2 = s := rfl
@[simp] theorem State.withL2_hart (s : State) (v : List L2Line) : (s.withL2 v).hart = s.hart := rfl

theorem quiet_withL2 {s : State} (h : Claims.Quiet s) (v : List L2Line) : Claims.Quiet (s.withL2 v) := h

/-! ## Reads at homes of HBM -/

theorem State.withParts_self {s : State} (h : s.parts = []) : { s with parts := [] } = s := by rw [← h]
theorem State.withRdc_self {s : State} (h : s.rdc = []) : { s with rdc := [] } = s := by rw [← h]

theorem State.settle_of_parts {s : State} (h : s.parts = []) (pa n : Nat) : s.settle pa n = s := by
  simp only [State.settle, h, List.filter_nil, List.foldl_nil]
  exact State.withParts_self h

theorem State.hostWriteBack_of_hostMod {s : State} (h : s.hostMod = []) (ln : Nat) : s.hostWriteBack ln = s := by
  simp [State.hostWriteBack, h]

theorem State.recallOwned_of_hc {s : State} (h : s.hc = []) (ln : Nat) : s.recallOwned ln = s := by
  simp [State.recallOwned, State.copies, h]

/-- A touch of the L2 changes the lines that slices hold, and ends no reader count where there is none. -/
theorem State.l2Touch_of_rdc {s : State} (h : s.rdc = []) (pa n : Nat) : ∃ v, s.l2Touch pa n = s.withL2 v := by
  have ended (ln : Nat) : s.endRdc ln = s := by
    simp only [State.endRdc, h, List.filter_nil]
    exact State.withRdc_self h
  unfold State.l2Touch
  dsimp only
  split
  · exact ⟨s.l2, rfl⟩
  · split
    · exact ⟨_, rfl⟩
    · split
      · exact ⟨_, rfl⟩
      · split
        · simp only [State.l2Evict, ended]
          exact ⟨_, rfl⟩
        · exact ⟨s.l2, rfl⟩

theorem ready_of_quiet {s : State} (h : Claims.Quiet s) (pa n : Nat) : ∃ v, s.ready pa n = s.withL2 v := by
  obtain ⟨hc, parts, rdc, -, -, -, hostMod, -⟩ := h
  rw [State.ready, State.hostWriteBack_of_hostMod hostMod, State.recallOwned_of_hc hc, State.settle_of_parts parts]
  exact State.l2Touch_of_rdc rdc pa n

theorem readyLines_of_quiet {s : State} (h : Claims.Quiet s) (pa n : Nat) : ∃ v, s.readyLines pa n = s.withL2 v := by
  unfold State.readyLines
  induction List.range ((pa % 128 + n + 127) / 128) generalizing s with
  | nil => exact ⟨s.l2, rfl⟩
  | cons i r ih =>
    obtain ⟨v, hv⟩ := ready_of_quiet h (pa / 128 * 128 + 128 * i) 128
    obtain ⟨w, hw⟩ := ih (quiet_withL2 h v)
    exact ⟨w, by rw [List.foldl_cons, hv, hw, State.withL2_withL2]⟩

theorem homeRead_of_quiet {s : State} (h : Claims.Quiet s) {pa n : Nat} (hr : s.region (paLow pa) = .hbm) :
    ∃ v, (s.homeRead pa n).2 = s.withL2 v := by
  simp only [State.homeRead, hr]
  exact readyLines_of_quiet h pa n

/-! ## Bytes -/

/-- The bytes at their homes from an address on. -/
def State.bytesAt (s : State) (a n : Nat) : List Byte := (List.range n).map (fun k => (s.peek (a + k) 1).headD 0)

theorem bitsAt_eq (s : State) (a n : Nat) : Claims.bitsAt s a n = leNat (s.bytesAt a n) := rfl

theorem State.bytesAt_add (s : State) (a m n : Nat) : s.bytesAt a (m + n) = s.bytesAt a m ++ s.bytesAt (a + m) n := by
  simp only [State.bytesAt, List.range_add, List.map_append, List.map_map, List.append_cancel_left_eq]
  refine List.map_congr_left fun k _ => ?_
  simp only [Function.comp, Nat.add_assoc]

/-! ## Fetch -/

section
variable {u : State} {a : Nat}

/-- Of a hart that has executed `fence.i` since the last store, every byte that it fetches is the one in memory. -/
theorem fetchByte_of_fenced (hf : u.hart.fenceSeq = u.wlog.length) (v : List L2Line) (new : Bool) (pa : Nat) :
    (u.withL2 v).fetchByte new pa = (u.peek pa 1).headD 0 := by
  have unseen : (u.withL2 v).wlog.take ((u.withL2 v).wlog.length - (u.withL2 v).hart.fenceSeq) = [] := by
    show u.wlog.take (u.wlog.length - u.hart.fenceSeq) = []
    rw [hf, Nat.sub_self, List.take_zero]
  cases new
  · simp only [State.fetchByte, unseen, Bool.false_eq_true, if_false]
    rfl
  · rfl

variable (hf : u.hart.fenceSeq = u.wlog.length) (hq : Claims.Quiet u) (hr : ∀ k, k < 8 → u.region (paLow (a + k)) = .hbm)
  (ht : ∀ k v, k < 4 → (u.withL2 v).fetchPa (u.hart.pc + BitVec.ofNat 64 (2 * k)) = (.ok (a + 2 * k), u.withL2 v))

include hf hq hr ht

theorem fetchHalves_of_quiet (new : Bool) {k n : Nat} (hk : k + n ≤ 4) (v : List L2Line) : ∃ w,
    (u.withL2 v).fetchHalves new (u.hart.pc + BitVec.ofNat 64 (2 * k)) n =
      (.ok (u.bytesAt (a + 2 * k) (2 * n)), u.withL2 w) := by
  induction n generalizing k v with
  | zero => exact ⟨v, rfl⟩
  | succ n ih =>
    obtain ⟨w, hw⟩ := homeRead_of_quiet (n := 2) (quiet_withL2 hq v) (hr (2 * k) (by omega))
    have next : u.hart.pc + BitVec.ofNat 64 (2 * k) + 2 = u.hart.pc + BitVec.ofNat 64 (2 * (k + 1)) := by
      rw [BitVec.add_assoc, Nat.mul_add, BitVec.ofNat_add]; rfl
    obtain ⟨x, hx⟩ := ih (k := k + 1) (by omega) w
    refine ⟨x, ?_⟩
    have bytes : u.bytesAt (a + 2 * k) (2 * (n + 1)) =
        (u.peek (a + 2 * k) 1).headD 0 :: (u.peek (a + 2 * k + 1) 1).headD 0 :: u.bytesAt (a + 2 * (k + 1)) (2 * n) := by
      rw [show 2 * (n + 1) = 2 + 2 * n by omega, State.bytesAt_add]
      rfl
    simp only [State.fetchHalves, ht k v (by omega), hw, State.withL2_withL2, next, hx, fetchByte_of_fenced hf, bytes]

/-- Both contents of a half are what stands in memory. -/
theorem fetchHalf32_of_quiet (tag : Nat) {k : Nat} (hk : k ≤ 2) (v : List L2Line) : ∃ w,
    (u.withL2 v).fetchHalf32 tag (u.hart.pc + BitVec.ofNat 64 (2 * k)) =
      (.ok (u.bytesAt (a + 2 * k) 4), u.withL2 w) := by
  obtain ⟨w, hw⟩ := fetchHalves_of_quiet hf hq hr ht false (k := k) (n := 2) (by omega) v
  obtain ⟨x, hx⟩ := fetchHalves_of_quiet hf hq hr ht true (k := k) (n := 2) (by omega) w
  exact ⟨x, by simp only [State.fetchHalf32, hw, hx, if_true]⟩

/-- The bits that a hart fetches, of the length that the first halfword gives. -/
theorem fetch_of_quiet {len : Nat} (hl : instrLen (BitVec.ofNat 16 (Claims.bitsAt u a 2)) = len) (hlen : len = 2 ∨ len = 4 ∨ len = 8) :
    u.fetch.1 = .ok (BitVec.ofNat 64 (Claims.bitsAt u a len), len) := by
  have start : u.hart.pc + BitVec.ofNat 64 (2 * 0) = u.hart.pc := BitVec.add_zero _
  obtain ⟨v, hv⟩ := fetchHalves_of_quiet hf hq hr ht false (k := 0) (n := 1) (by omega) u.l2
  rw [start, State.withL2_self] at hv
  rw [bitsAt_eq] at hl ⊢
  have first (n : Nat) : (u.bytesAt a (2 + n)).take 2 = u.bytesAt a 2 := by
    rw [State.bytesAt_add]; rfl
  rcases hlen with rfl | rfl | rfl
  · have hl' : instrLen (BitVec.ofNat 16 (leNat (u.bytesAt (a + 2 * 0) (2 * 1)))) = 2 := hl
    simp only [State.fetch, hv, hl']
    rfl
  · obtain ⟨w, hw⟩ := fetchHalves_of_quiet hf hq hr ht false (k := 1) (n := 1) (by omega) v
    have hl' : instrLen (BitVec.ofNat 16 (leNat (u.bytesAt (a + 2 * 0) (2 * 1)))) = 4 := hl
    have hw' : (u.withL2 v).fetchHalves false (u.hart.pc + 2) 1 = (.ok (u.bytesAt (a + 2) 2), u.withL2 w) := hw
    simp only [State.fetch, hv, hl', hw', show (4 : Nat) = 2 + 2 from rfl, State.bytesAt_add]
    rfl
  · obtain ⟨w, hw⟩ := fetchHalf32_of_quiet hf hq hr ht 1400 (k := 0) (by omega) v
    obtain ⟨x, hx⟩ := fetchHalf32_of_quiet hf hq hr ht 1401 (k := 2) (by omega) w
    rw [start] at hw
    have hl' : instrLen (BitVec.ofNat 16 (leNat (u.bytesAt (a + 2 * 0) (2 * 1)))) = 8 := hl
    have hl'' : instrLen (BitVec.ofNat 16 (leNat ((u.bytesAt (a + 2 * 0) 4).take 2))) = 8 := hl
    have hx' : (u.withL2 w).fetchHalf32 1401 (u.hart.pc + 4) = (.ok (u.bytesAt (a + 4) 4), u.withL2 x) := hx
    simp only [State.fetch, hv, hl', hw, hl'', hx', show (8 : Nat) = 4 + 4 from rfl, State.bytesAt_add]
    rfl

end

end Sys2Proof.Machine
end

section
/-! SUPPORT. The move of a step (R31, R32, R77, R382). -/
namespace Sys2Proof.Machine
open Sys2Proof.Safety

/-! ## Moves -/

/-- A step makes the first move of the agenda, where the package has not stopped or the move restarts it. -/
theorem step_of_agenda {s : State} {m : Move} {rest : List Move} (h : s.agenda = m :: rest)
    (hs : s.stopped = false ∨ m.restarts = true) : step s = ticked (move m { s with agenda := rest }) := by
  have goes : (s.stopped && !m.restarts) = false := by
    rcases hs with hs | hs <;> simp [hs]
  simp only [step, h, goes, Bool.false_eq_true, if_false]

theorem step_run {s : State} {rest : List Move} (h : s.agenda = .run :: rest) (hs : s.stopped = false) :
    step s = ticked (runHart { s with agenda := rest }) := step_of_agenda h (.inl hs)

theorem step_push_run {t : State} (ht : t.stopped = false) : step { t with agenda := .run :: t.agenda } = ticked (runHart t) :=
  step_run rfl ht

theorem State.focus_agenda (s : State) (g : Nat) : (s.focus g).agenda = s.agenda := by
  unfold State.focus
  split_ifs <;> rfl

theorem State.focus_stopped (s : State) (g : Nat) : (s.focus g).stopped = s.stopped := by
  unfold State.focus
  split_ifs <;> rfl

/-- A move that brings a hart into focus is that hart's own move. -/
theorem step_focus {s : State} {g : Nat} {rest : List Move} (h : s.agenda = .focus g :: rest) (hs : s.stopped = false) :
    step s = step { ({ s with agenda := rest } : State).focus g with agenda := .run :: rest } := by
  have own := step_push_run ((State.focus_stopped { s with agenda := rest } g).trans hs)
  rw [State.focus_agenda] at own
  rw [own, step_of_agenda h (.inl hs)]
  rfl

theorem step_stopped {s : State} (hs : s.stopped = true) (h : ∀ m r, s.agenda = m :: r → m.restarts = false) :
    step s = .fault .packageStopped := by
  unfold step
  split
  case h_1 m r hm => simp only [hs, h m r hm, Bool.not_false, Bool.and_self, if_true]
  case h_2 => simp only [hs, if_true]

theorem runHart_of_not_runnable {s : State} (h : s.runnable s.hart = false) : runHart s = .next s := by
  simp only [runHart, h, Bool.not_false, if_true]

section
variable {s : State} (h : s.runnable s.hart = true)
include h

/-- A hart that may run takes the event that is due at its boundary. -/
theorem runHart_of_event {i : Instr} (hb : (s.qMeets s.hart.gid).boundary = some i) : runHart s = exec i (s.qMeets s.hart.gid) := by
  simp only [runHart, h, hb, Bool.not_true, Bool.false_eq_true, if_false]

/-- Without an event it goes on with its instruction. -/
theorem runHart_of_executes (hb : (s.qMeets s.hart.gid).boundary = none) (he : (s.qMeets s.hart.gid).hart.executes = true) :
    runHart s = stepDone (s.qMeets s.hart.gid).hart.gid (goOn (s.qMeets s.hart.gid)) := by
  simp only [runHart, h, hb, he, Bool.not_true, Bool.false_eq_true, if_false, if_true]

/-- One that waits for another agent does nothing. -/
theorem runHart_of_idle (hb : (s.qMeets s.hart.gid).boundary = none) (he : (s.qMeets s.hart.gid).hart.executes = false) :
    runHart s = .next (s.qMeets s.hart.gid) := by
  simp only [runHart, h, hb, he, Bool.not_true, Bool.false_eq_true, if_false]

end

/-- A hart that does not wait for a queue has no request to serve. -/
theorem State.qMeets_of_not_queue {s : State} (h : ∀ p, s.hart.run ≠ .waiting (.queueEnq p) ∧ s.hart.run ≠ .waiting (.queueDeq p))
    (hh : s.hartOf s.hart.gid = s.hart) : s.qMeets s.hart.gid = s := by
  unfold State.qMeets
  rw [hh]
  split
  case h_1 p hp => exact absurd hp (h p).1
  case h_2 p hp => exact absurd hp (h p).2
  case h_3 => rfl

/-! ## The instruction of a hart -/

theorem fetchedInstr_of_instr {pc bits b : Word} {len n : Nat} {i : Instr} (hd : decodeBits bits = .instr i b n)
    (ha : len = 8 → pc.toNat % 4 = 0) : fetchedInstr pc bits len = i := by
  have aligned : (decide (len = 8) && pc.toNat % 4 != 0) = false := by
    by_cases h : len = 8 <;> simp [h, ha]
  simp only [fetchedInstr, aligned, hd, Bool.false_eq_true, if_false]

theorem fetchedInstr_of_reject {pc bits b : Word} {len n : Nat} {r : Reject} (hd : decodeBits bits = .reject r b n)
    (ha : len = 8 → pc.toNat % 4 = 0) : fetchedInstr pc bits len = .standardInstruction (.illegal b) := by
  have aligned : (decide (len = 8) && pc.toNat % 4 != 0) = false := by
    by_cases h : len = 8 <;> simp [h, ha]
  simp only [fetchedInstr, aligned, hd, Bool.false_eq_true, if_false]

theorem fetchedInstr_misaligned {pc bits : Word} {len : Nat} (hl : len = 8) (ha : pc.toNat % 4 ≠ 0) :
    fetchedInstr pc bits len = .standardInstruction (.illegal bits) := by
  have misaligned : (decide (len = 8) && pc.toNat % 4 != 0) = true := by simp [hl, ha]
  simp only [fetchedInstr, misaligned, if_true]

theorem goOn_of_waiting {s : State} (h : s.hart.run.isWaiting = true) :
    goOn s = exec (fetchedInstr s.hart.pc s.hart.ir s.hart.ilen) s := by simp only [goOn, h, if_true]

theorem goOn_of_ready {s : State} (h : s.hart.run.isWaiting = false) : goOn s = fetchRun s := by
  simp only [goOn, h, Bool.false_eq_true, if_false]

theorem fetchRun_of_ok {s s1 : State} {bits : Word} {len : Nat} (ht : s.trigHit .fetch s.hart.pc = false)
    (hf : s.fetch = (.ok (bits, len), s1)) :
    fetchRun s = exec (fetchedInstr s.hart.pc bits len) (s1.onHart (fun h => { h with ir := bits, ilen := len })) := by
  have same : s1.hart = s.hart := by
    have kept := s.hart_fetch
    rwa [hf] at kept
  simp only [fetchRun, ht, hf, same, Bool.false_eq_true, if_false]

theorem fetchRun_of_error {s s1 : State} {t : TrapInfo} (ht : s.trigHit .fetch s.hart.pc = false)
    (hf : s.fetch = (.error t, s1)) : fetchRun s = .next (s1.trap t) := by
  simp only [fetchRun, ht, hf, Bool.false_eq_true, if_false]

theorem fetchRun_of_trigHit {s : State} (ht : s.trigHit .fetch s.hart.pc = true) :
    fetchRun s = .next (s.breakAt .fetch s.hart.pc) := by simp only [fetchRun, ht, if_true]

/-- Settles O59, by the first move of the agenda and the cases of a hart's move. -/
theorem stepRunsDecoded : Obligations.StepRunsDecoded := by
  intro i e bits b len n a g x r tr rest s s1 u pc want goes m at0 runs begins fetches at_
  have executes (hr : runs) : step s = ticked (stepDone m.hart.gid (goOn m)) := by
    obtain ⟨⟨hm, hs, hu⟩, hb, he⟩ := hr
    rw [step_run hm hs, runHart_of_executes hu hb he]
  have begun (hb : begins) : step s = ticked (stepDone m.hart.gid (fetchRun m)) := by
    rw [executes hb.1, goOn_of_ready hb.2]
  refine ⟨fun hr hw ha hd => ?_, fun hf ho => ⟨fun hd ha => ?_, fun hd ha => ?_, fun hl ha => ?_⟩, fun hf he => ?_, fun hb ht => ?_,
    fun hg hb => ?_, fun hg hb he => ?_, State.qMeets_of_not_queue, fun hm hs hr => ?_, fun hm hs => ?_, fun hm hs => ?_, step_stopped,
    fun hq hq' hr ht hw => ?_⟩
  · rw [executes hr, goOn_of_waiting hw, fetchedInstr_of_instr hd ha]
  · show step s = _
    rw [begun hf.1, fetchRun_of_ok hf.2 ho, fetchedInstr_of_instr hd ha]
  · show step s = _
    rw [begun hf.1, fetchRun_of_ok hf.2 ho, fetchedInstr_of_reject hd ha]
  · show step s = _
    rw [begun hf.1, fetchRun_of_ok hf.2 ho, fetchedInstr_misaligned hl ha]
  · rw [begun hf.1, fetchRun_of_error hf.2 he]
  · rw [begun hb, fetchRun_of_trigHit ht]
  · obtain ⟨hm, hs, hu⟩ := hg
    rw [step_run hm hs, runHart_of_event hu hb]
  · obtain ⟨hm, hs, hu⟩ := hg
    rw [step_run hm hs, runHart_of_idle hu hb he]
  · rw [step_run hm hs, runHart_of_not_runnable hr]
  · exact step_focus hm hs
  · exact step_of_agenda hm hs
  · exact fetch_of_quiet hq hq' hr ht rfl hw

end Sys2Proof.Machine
end

section
/-! SUPPORT. The F and D instructions (R33, R34, log 7): which register each writes, its flags, FS, and when it is illegal. -/
namespace Sys2Proof.Machine
open Sys2Proof.Safety

/-! ## FS and the flags -/

/-- FS dirty: bits 13 and 14 of mstatus are set, the others stay. -/
theorem wput_fsDirty (w : Word) : wput w 13 2 3 = w ||| 0x6000#64 := by
  have put : wput w 13 2 3 = w &&& ~~~0x6000#64 ||| 0x6000#64 := rfl
  rw [put]
  ext i hi
  simp only [BitVec.getElem_or, BitVec.getElem_and, BitVec.getElem_not]
  cases w[i] <;> cases (0x6000#64)[i] <;> rfl

theorem getLsbD_fsDirty (w : Word) {b : Nat} (h13 : b ≠ 13) (h14 : b ≠ 14) : (wput w 13 2 3).getLsbD b = w.getLsbD b := by
  have clear : (0x6000#64).getLsbD b = false := by
    have inside : ∀ i : Fin 64, i.val ≠ 13 → i.val ≠ 14 → (0x6000#64).getLsbD i = false := by decide
    by_cases hb : b < 64
    · exact inside ⟨b, hb⟩ h13 h14
    · exact BitVec.getLsbD_of_ge _ _ (not_lt.1 hb)
  rw [wput_fsDirty, BitVec.getLsbD_or, clear, Bool.or_false]

theorem wfield_fsDirty (w : Word) : wfield (wput w 13 2 3) 13 2 = 3 := by
  have ones : ∀ x : BitVec 2, (x ||| 3#2).toNat = 3 := by decide
  have field : wfield (wput w 13 2 3) 13 2 = ((wput w 13 2 3).extractLsb' 13 2).toNat := by rw [BitVec.extractLsb'_toNat]; rfl
  rw [field, wput_fsDirty, BitVec.extractLsb'_or]
  exact ones _

/-- The flags of an instruction of the F unit, and FS where one is raised. -/
theorem Hart.accrueF_eq (h : Hart) (fl : Flags) : h.accrueF fl = { h with csr := { h.csr with
    fflags := h.csr.fflags ||| fl, mstatus := if fl = 0 then h.csr.mstatus else wput h.csr.mstatus 13 2 3 } } := by
  unfold Hart.accrueF
  split_ifs with hz
  · rw [hz, show h.csr.fflags ||| 0 = h.csr.fflags from BitVec.or_zero]
  · rfl

/-! ## Results -/

/-- A single is boxed in ones. -/
theorem fbox_eq (dbl : Bool) (b : Nat) : fbox dbl b = if dbl then BitVec.ofNat 64 b else 0xFFFFFFFF#32 ++ BitVec.ofNat 32 b := by
  cases dbl
  · have boxed (hi lo : BitVec 32) : (hi ++ lo).toNat = hi.toNat * 2 ^ 32 + lo.toNat := by
      rw [BitVec.toNat_append, ← Nat.shiftLeft_add_eq_or_of_lt lo.isLt, Nat.shiftLeft_eq]
    rw [fbox, if_neg Bool.false_ne_true, if_neg Bool.false_ne_true]
    refine BitVec.eq_of_toNat_eq ?_
    have low := Nat.mod_lt b (show 0 < 2 ^ 32 by decide)
    rw [boxed, BitVec.toNat_ofNat, BitVec.toNat_ofNat, BitVec.toNat_ofNat, Nat.mod_eq_of_lt (by omega)]
    omega
  · rw [fbox, if_pos rfl, if_pos rfl]

/-! ## Guards -/

theorem State.fpGuard_illegal {s : State} {rm : Rm} (h : s.hart.fsOff = true ∨ s.hart.rmOf rm = none) (k : Rm → State) :
    s.fpGuard rm k = s.illegal := by
  unfold State.fpGuard
  split_ifs with hoff
  · rfl
  · rw [h.resolve_left hoff]

theorem State.fpGuard_of_mode {s : State} {rm m : Rm} (hoff : s.hart.fsOff = false) (hm : s.hart.rmOf rm = some m) (k : Rm → State) :
    s.fpGuard rm k = k m := by
  simp only [State.fpGuard, hoff, hm, Bool.false_eq_true, if_false]

/-! ## What the F unit writes -/

theorem State.writeF_result (s : State) (dbl : Bool) (rd : XReg) (r : FRes) :
    Retires s (Claims.FResult s.hart dbl rd r) (s.writeF dbl rd r) := by
  refine ⟨((s.hart.setF rd (fbox dbl r.bits)).accrueF r.flags).fsDirty, rfl, ?_⟩
  rw [Hart.accrueF_eq]
  refine ⟨rfl, wfield_fsDirty _, fun b h13 h14 => ?_, fun q => ?_⟩
  · refine (getLsbD_fsDirty _ h13 h14).trans ?_
    dsimp only
    split_ifs
    · rfl
    · exact getLsbD_fsDirty _ h13 h14
  · rw [← fbox_eq]
    exact s.hart.getF_setF rd q _

theorem State.writeXF_result (s : State) (rd : XReg) (v : Word) (fl : Flags) :
    Retires s (Claims.XFWritten s.hart rd v fl) (s.writeXF rd v fl) := by
  refine ⟨(s.hart.setX rd v).accrueF fl, rfl, ?_⟩
  rw [Hart.accrueF_eq]
  have kept : (s.hart.setX rd v).csr = s.hart.csr := by rw [Hart.setX_eq]
  refine ⟨?_, fun h => ?_, fun h => ?_, fun b h13 h14 => ?_, fun r => s.hart.getX_setX rd r v⟩
  · rw [kept, Hart.setX_eq]
  · dsimp only
    rw [if_pos h, kept]
  · dsimp only
    rw [if_neg h]
    exact wfield_fsDirty _
  · dsimp only
    rw [kept]
    split_ifs
    · rfl
    · exact getLsbD_fsDirty _ h13 h14

end Sys2Proof.Machine
end

section
/-! SUPPORT. The F and D instructions (R33, R34, log 7): the statement on their forms. -/
namespace Sys2Proof.Machine
open Sys2Proof.Safety

/-- An instruction that its guard refuses is illegal. -/
theorem traps_of_guard {i : Std} {s : State} {rm : Rm} {k : Rm → State} (hi : s.std i = s.fpGuard rm k)
    (h : s.hart.fsOff = true ∨ s.hart.rmOf rm = none) : Gives (.standardInstruction i) s (Traps s 2 0 s.hart.ir) :=
  gives_std (by rw [hi, State.fpGuard_illegal h]; exact s.traps_illegal)

/-- An instruction whose guard lets it write an f register. -/
theorem writes_of_guard {i : Std} {s : State} {rm m : Rm} {dbl : Bool} {rd : XReg} {r : Rm → FRes}
    (hi : s.std i = s.fpGuard rm (fun m => s.writeF dbl rd (r m))) (hoff : s.hart.fsOff = false) (hm : s.hart.rmOf rm = some m) :
    Gives (.standardInstruction i) s (Retires s (Claims.FResult s.hart dbl rd (r m))) :=
  gives_std (by rw [hi, State.fpGuard_of_mode hoff hm]; exact s.writeF_result dbl rd (r m))

/-- An instruction whose guard lets it write an x register. -/
theorem answers_of_guard {i : Std} {s : State} {rm m : Rm} {rd : XReg} {v : Rm → Word} {fl : Rm → Flags}
    (hi : s.std i = s.fpGuard rm (fun m => s.writeXF rd (v m) (fl m))) (hoff : s.hart.fsOff = false) (hm : s.hart.rmOf rm = some m) :
    Gives (.standardInstruction i) s (Retires s (Claims.XFWritten s.hart rd (v m) (fl m))) :=
  gives_std (by rw [hi, State.fpGuard_of_mode hoff hm]; exact s.writeXF_result rd (v m) (fl m))

theorem intToX_eq (ty : IntTy) (b : Nat) :
    intToX ty b = if (intFmt ty).n = 32 then (BitVec.ofNat 32 b).signExtend 64 else BitVec.ofNat 64 b := by
  cases ty <;> rfl

/-- The integer of a pattern is that of its low bits. -/
theorem IFmt.val_mod (t : IFmt) (b : Nat) : t.val (b % 2 ^ t.n) = t.val b := by rw [IFmt.val, IFmt.val, Nat.mod_mod]

/-- An integer source counts by its own width. -/
theorem val_xToInt (ty : IntTy) (v : Word) : (intFmt ty).val (xToInt ty v) = (intFmt ty).val v.toNat := by
  cases ty
  case w => exact IFmt.val_mod ⟨true, 32⟩ v.toNat
  case wu => exact IFmt.val_mod ⟨false, 32⟩ v.toNat
  case l => rfl
  case lu => rfl

theorem fcvtFromInt_xToInt (ty : IntTy) (f : Fmt) (m : Rm) (v : Word) :
    fcvtFromInt (intFmt ty) f m false (xToInt ty v) = fcvtFromInt (intFmt ty) f m false v.toNat := by
  rw [fcvtFromInt, fcvtFromInt, val_xToInt]

/-- The weight of a format's sign bit, as the statement writes it. -/
def signPlace (dbl : Bool) : Nat := if dbl then 2 ^ 63 else 2 ^ 31

theorem signWeight_dblFmt (dbl : Bool) : (dblFmt dbl).signWeight = signPlace dbl := by cases dbl <;> rfl

/-- A move from an x register takes the bits of the format. -/
theorem std_fmvFX (s : State) (dbl : Bool) (rd rs1 : XReg) : s.std (.fmvFX dbl rd rs1) =
    s.fpGuard .rne (fun _ => s.writeF dbl rd ⟨(s.hart.getX rs1).toNat % (2 * signPlace dbl), 0⟩) := by
  have bits : (if dbl then (s.hart.getX rs1).toNat else (s.hart.getX rs1).toNat % 2 ^ 32) =
      (s.hart.getX rs1).toNat % (2 * signPlace dbl) := by
    cases dbl
    · rfl
    · exact (Nat.mod_eq_of_lt (s.hart.getX rs1).isLt).symm
  rw [← bits]
  simp only [State.std]

theorem std_fclass (s : State) (dbl : Bool) (rd rs1 : XReg) : s.std (.fclass dbl rd rs1) =
    s.fpGuard .rne (fun _ => s.writeXF rd (1#64 <<< fclassBit (dblFmt dbl) (s.hart.fsrc dbl rs1)) 0) := by
  have bit (n : Nat) : BitVec.ofNat 64 (2 ^ n) = 1#64 <<< n :=
    BitVec.eq_of_toNat_eq (by rw [BitVec.toNat_shiftLeft, BitVec.toNat_ofNat, Nat.shiftLeft_eq, BitVec.toNat_ofNat, Nat.one_mod, Nat.one_mul])
  simp only [State.std, bit]

theorem std_fmvXF (s : State) (dbl : Bool) (rd rs1 : XReg) : s.std (.fmvXF dbl rd rs1) =
    s.fpGuard .rne (fun _ => s.writeXF rd (if dbl then s.hart.getF rs1 else ((s.hart.getF rs1).setWidth 32).signExtend 64) 0) := by
  simp only [State.std, sext32]

theorem std_fcvtIF (s : State) (dbl : Bool) (ty : IntTy) (rm : Rm) (rd rs1 : XReg) : s.std (.fcvtIF dbl ty rm rd rs1) =
    s.fpGuard rm (fun m => s.writeF dbl rd (fcvtFromInt (intFmt ty) (dblFmt dbl) m false (s.hart.getX rs1).toNat)) := by
  simp only [State.std, fcvtFromInt_xToInt]

theorem std_fcvtFI (s : State) (dbl : Bool) (ty : IntTy) (rm : Rm) (rd rs1 : XReg) : s.std (.fcvtFI dbl ty rm rd rs1) =
    s.fpGuard rm (fun m =>
      let r := fcvtToInt (dblFmt dbl) (intFmt ty) m (s.hart.fsrc dbl rs1)
      s.writeXF rd (if (intFmt ty).n = 32 then (BitVec.ofNat 32 r.bits).signExtend 64 else BitVec.ofNat 64 r.bits) r.flags) := by
  simp only [State.std, intToX_eq]

/-- Sign injection: the magnitude of one source, the sign as the operation says. -/
theorem std_fsgnj (s : State) (op : SgnOp) (dbl : Bool) (rd rs1 rs2 : XReg) : s.std (.fsgnj op dbl rd rs1 rs2) =
    s.fpGuard .rne (fun _ => s.writeF dbl rd ⟨sgnVal op (dblFmt dbl) (s.hart.fsrc dbl rs1) (s.hart.fsrc dbl rs2), 0⟩) := rfl

theorem std_fcvtFF (s : State) (dbl : Bool) (rm : Rm) (rd rs1 : XReg) : s.std (.fcvtFF dbl rm rd rs1) =
    s.fpGuard rm (fun m => s.writeF dbl rd
      (fcvt (if dbl then .f32 else .f64) (if dbl then .f64 else .f32) m false (s.hart.fsrc (!dbl) rs1))) := by
  cases dbl <;> rfl

theorem std_fcmp (s : State) (op : FCmpOp) (dbl : Bool) (rd rs1 rs2 : XReg) : s.std (.fcmp op dbl rd rs1 rs2) =
    s.fpGuard .rne (fun _ => s.writeXF rd
      (if (fcompare (dblFmt dbl) (fcmpCond op) (s.hart.fsrc dbl rs1) (s.hart.fsrc dbl rs2)).1 then 1 else 0)
      (fcompare (dblFmt dbl) (fcmpCond op) (s.hart.fsrc dbl rs1) (s.hart.fsrc dbl rs2)).2) := rfl

theorem std_fminmax (s : State) (mx dbl : Bool) (rd rs1 rs2 : XReg) : s.std (.fminmax mx dbl rd rs1 rs2) =
    s.fpGuard .rne (fun _ => s.writeF dbl rd (fminmax (dblFmt dbl) mx (s.hart.fsrc dbl rs1) (s.hart.fsrc dbl rs2))) := rfl

theorem Hart.rmOf_rne (h : Hart) : h.rmOf .rne = some .rne := rfl

/-- R33, R34, log 7: the forms of the F and D instructions. -/
theorem standardFloatForms : Claims.StandardFloatForms := by
  intro dbl mx rd rs1 rs2 rs3 ty rm m s h f a b c w traps writes answers signed tested
  have sign : (dblFmt dbl).signWeight = w := signWeight_dblFmt dbl
  have inject {op : SgnOp} {n : Bool} (hn : sgnVal op (dblFmt dbl) a b = (signed n).bits) (hon : h.fsOff = false) :
      writes (.fsgnj op dbl rd rs1 rs2) (signed n) :=
    writes_of_guard (r := fun _ => signed n) (by rw [std_fsgnj, hn]) hon h.rmOf_rne
  have compares (hon : h.fsOff = false) (op : FCmpOp) : tested (fcompare f (fcmpCond op) a b) (.fcmp op dbl rd rs1 rs2) :=
    answers_of_guard (v := fun _ => if (fcompare f (fcmpCond op) a b).1 then 1 else 0)
      (fl := fun _ => (fcompare f (fcmpCond op) a b).2) (std_fcmp ..) hon h.rmOf_rne
  refine ⟨fun hoff => ⟨fun op => traps_of_guard rfl hoff, fun op => traps_of_guard rfl hoff, traps_of_guard rfl hoff,
      traps_of_guard rfl hoff, traps_of_guard rfl hoff, traps_of_guard rfl hoff⟩,
    fun hoff => ⟨fun op => traps_of_guard (std_fsgnj ..) (.inl hoff), traps_of_guard (std_fminmax ..) (.inl hoff), fun op => traps_of_guard (std_fcmp ..) (.inl hoff),
      traps_of_guard (std_fclass ..) (.inl hoff), traps_of_guard (std_fmvXF ..) (.inl hoff), traps_of_guard (std_fmvFX ..) (.inl hoff)⟩,
    fun hon hm => ⟨writes_of_guard (r := fun m => fadd f m false a b) rfl hon hm,
      writes_of_guard (r := fun m => fadd f m true a b) rfl hon hm, writes_of_guard (r := fun m => fmul f m a b) rfl hon hm,
      writes_of_guard (r := fun m => fdiv f m a b) rfl hon hm, writes_of_guard (r := fun m => ffma f m false false a b c) rfl hon hm,
      writes_of_guard (r := fun m => ffma f m false true a b c) rfl hon hm,
      writes_of_guard (r := fun m => ffma f m true false a b c) rfl hon hm,
      writes_of_guard (r := fun m => ffma f m true true a b c) rfl hon hm, writes_of_guard (r := fun m => fsqrt f m a) rfl hon hm,
      writes_of_guard (r := fun m => fcvt (if dbl then .f32 else .f64) f m false (h.fsrc (!dbl) rs1)) (std_fcvtFF ..) hon hm,
      fun r hr => ?_, writes_of_guard (r := fun m => fcvtFromInt (intFmt ty) f m false (h.getX rs1).toNat) (std_fcvtIF ..) hon hm⟩,
    fun hon => ⟨inject (by simp only [sgnVal, sign]; rfl) hon, inject (by simp only [sgnVal, sign]; rfl) hon,
      inject (by simp only [sgnVal, sign]; rfl) hon,
      writes_of_guard (r := fun _ => fminmax f mx a b) rfl hon h.rmOf_rne, compares hon .eq, compares hon .lt, compares hon .le,
      answers_of_guard (std_fclass ..) hon h.rmOf_rne, answers_of_guard (std_fmvXF ..) hon h.rmOf_rne,
      writes_of_guard (std_fmvFX ..) hon h.rmOf_rne⟩⟩
  subst hr
  exact answers_of_guard (std_fcvtFI ..) hon hm

end Sys2Proof.Machine
end

section
/-! SUPPORT. The values of the F and D instructions (R33): quotients, conversions and classes. -/
namespace Sys2Proof.Machine
open Sys2Proof.Safety

/-! ## Quotients -/

/-- The whole part of a scaled quotient, and whether the division leaves a remainder, tell the quotient. -/
theorem Known.quotient {m1 m2 : Nat} (h2 : m2 ≠ 0) (k : Nat) (e : Int) :
    Known (m1 * 2 ^ k / m2) (e - k) (m1 * 2 ^ k % m2 != 0) ((m1 : ℝ) / m2 * 2 ^ e) := by
  have pos2 : (0 : ℝ) < m2 := by exact_mod_cast Nat.pos_of_ne_zero h2
  have posE : (0 : ℝ) < 2 ^ (e - k : Int) := by positivity
  have value : (m1 : ℝ) / m2 * 2 ^ e = ((m1 * 2 ^ k : Nat) : ℝ) / m2 * 2 ^ (e - k : Int) := by
    rw [zpow_sub₀ two_ne_zero, zpow_natCast]
    push_cast
    field_simp
  have parts : ((m1 * 2 ^ k : Nat) : ℝ) / m2 = (m1 * 2 ^ k / m2 : Nat) + ((m1 * 2 ^ k % m2 : Nat) : ℝ) / m2 := by
    have split : (m2 : ℝ) * (m1 * 2 ^ k / m2 : Nat) + (m1 * 2 ^ k % m2 : Nat) = ((m1 * 2 ^ k : Nat) : ℝ) := by
      exact_mod_cast Nat.div_add_mod _ _
    rw [← split, add_div, mul_div_cancel_left₀ _ pos2.ne']
  have low : ((m1 * 2 ^ k % m2 : Nat) : ℝ) / m2 < 1 := by
    rw [div_lt_one pos2]
    exact_mod_cast Nat.mod_lt _ (Nat.pos_of_ne_zero h2)
  have rest : (0 : ℝ) ≤ ((m1 * 2 ^ k % m2 : Nat) : ℝ) / m2 := by positivity
  rw [value]
  refine ⟨?_, ?_, ?_⟩
  · exact mul_le_mul_of_nonneg_right (by rw [parts]; linarith) posE.le
  · exact mul_lt_mul_of_pos_right (by rw [parts]; linarith) posE
  · rw [mul_lt_mul_iff_left₀ posE, parts, bne_iff_ne, lt_add_iff_pos_right, div_pos_iff_of_pos_right pos2, Nat.cast_pos, Nat.pos_iff_ne_zero]

/-- The scaled quotient has more bits than the mantissa. -/
theorem manBits_lt_log2_quotient (f : Fmt) {m1 m2 : Nat} (h1 : m1 ≠ 0) (h2 : m2 ≠ 0) :
    f.manBits < Nat.log2 (m1 * 2 ^ (f.manBits + 4 + Nat.log2 m2) / m2) := by
  have wide : 2 ^ (f.manBits + 3) ≤ m1 * 2 ^ (f.manBits + 4 + Nat.log2 m2) / m2 := by
    rw [Nat.le_div_iff_mul_le (Nat.pos_of_ne_zero h2)]
    calc 2 ^ (f.manBits + 3) * m2 ≤ 2 ^ (f.manBits + 3) * 2 ^ (Nat.log2 m2 + 1) := Nat.mul_le_mul_left _ Nat.lt_log2_self.le
      _ = 1 * 2 ^ (f.manBits + 4 + Nat.log2 m2) := by rw [one_mul, ← pow_add]; congr 1; omega
      _ ≤ m1 * 2 ^ (f.manBits + 4 + Nat.log2 m2) := Nat.mul_le_mul_right _ (Nat.pos_of_ne_zero h1)
  have many := (Nat.le_log2 (Nat.pos_iff_ne_zero.1 ((Nat.two_pow_pos _).trans_le wide))).2 wide
  omega

/-- A quotient of nonzero magnitudes is rounded once. -/
theorem divMag_roundedRes {f : Fmt} {rm : Rm} (hrm : rm ≠ .dyn) (neg : Bool) {m1 m2 : Nat} (h1 : m1 ≠ 0) (h2 : m2 ≠ 0) (e : Int) :
    Claims.RoundedRes f rm false neg ((m1 : ℝ) / m2 * 2 ^ e) (divMag f rm neg m1 m2 e) := by
  have bits := manBits_lt_log2_quotient f h1 h2
  exact (Known.quotient h2 _ e).roundedRes hrm (fun h => by rw [h] at bits; exact absurd bits (Nat.not_lt_zero _)) (fun _ => bits) false

section
variable {f g : Fmt} {rm : Rm} {a b : Nat}

/-- The wide formats flush nothing. -/
theorem fin_of_wide (hf : f = .f32 ∨ f = .f64) (b : Nat) : fin f b = fval f b := by
  rcases hf with rfl | rfl <;> rfl

theorem nan_of_isNan {v : FVal} (h : v.isNan = true) : ∃ s, v = .nan s := by
  cases v with
  | nan s => exact ⟨s, rfl⟩
  | inf n => cases h
  | fin n m e => cases h

/-- A quotient of finite values. -/
theorem fdiv_of_fin (hf : f = .f32 ∨ f = .f64) {n1 n2 : Bool} {m1 m2 : Nat} {e1 e2 : Int} (hx : fval f a = .fin n1 m1 e1)
    (hy : fval f b = .fin n2 m2 e2) : fdiv f rm a b =
      if m2 = 0 then (if m1 = 0 then ⟨f.canon, flNV⟩ else ⟨signBits f (n1 != n2) + f.infBits, flDZ⟩)
      else if m1 = 0 then ⟨signBits f (n1 != n2), 0⟩ else divMag f rm (n1 != n2) m1 m2 (e1 - e2) := by
  rw [fdiv, fin_of_wide hf, fin_of_wide hf, hx, hy]
  simp only [beq_iff_eq]
  rfl

/-- A finite value is 0 where its significand is. -/
theorem ratOf_fin_eq_zero (n : Bool) (m : Nat) (e : Int) : (if n then -1 else 1) * (m : ℚ) * (2 : ℚ) ^ e = 0 ↔ m = 0 := by
  have pow : (2 : ℚ) ^ e ≠ 0 := by positivity
  cases n <;> simp [pow]

/-- The sign of a quotient. -/
theorem div_neg_eq {p q : ℚ} (hp : p ≠ 0) (hq : q ≠ 0) : decide (p / q < 0) = (decide (p < 0) != decide (q < 0)) := by
  have signs : p / q < 0 ↔ ¬(p < 0 ↔ q < 0) := by
    rcases lt_or_gt_of_ne hp with hp | hp <;> rcases lt_or_gt_of_ne hq with hq | hq
    · simp only [hp, hq, (div_pos_of_neg_of_neg hp hq).not_gt, iff_self, not_true]
    · simp only [hp, hq.not_gt, div_neg_of_neg_of_pos hp hq, iff_false, not_true, not_false_iff]
    · simp only [hp.not_gt, hq, div_neg_of_pos_of_neg hp hq, iff_true, not_false_iff]
    · simp only [hp.not_gt, hq.not_gt, (div_pos hp hq).not_gt, iff_self, not_true]
  by_cases h1 : p < 0 <;> by_cases h2 : q < 0 <;> simp [h1, h2, signs]

/-- R33: a quotient of finite values: rounded once, a zero, a division by zero, or invalid. -/
theorem fdiv_finite (hf : f = .f32 ∨ f = .f64) (hrm : rm ≠ .dyn) {p q : ℚ} (hp : Claims.ratOf (fval f a) = some p)
    (hq : Claims.ratOf (fval f b) = some q) :
    let r := fdiv f rm a b
    let neg := (fval f a).neg != (fval f b).neg
    (p ≠ 0 → q ≠ 0 → Claims.RoundedRes f rm false (decide (p / q < 0)) ((|p / q| : ℚ) : ℝ) r) ∧
      (p = 0 → q ≠ 0 → r = ⟨signBits f neg, 0⟩) ∧ (p ≠ 0 → q = 0 → r = ⟨signBits f neg + f.infBits, flDZ⟩) ∧
      (p = 0 → q = 0 → r = ⟨f.canon, flNV⟩) := by
  obtain ⟨n1, m1, e1, hx, pe⟩ := fin_of_ratOf hp
  obtain ⟨n2, m2, e2, hy, qe⟩ := fin_of_ratOf hq
  have p0 : p = 0 ↔ m1 = 0 := by rw [pe]; exact ratOf_fin_eq_zero n1 m1 e1
  have q0 : q = 0 ↔ m2 = 0 := by rw [qe]; exact ratOf_fin_eq_zero n2 m2 e2
  have value := fdiv_of_fin (rm := rm) hf hx hy
  simp only [hx, hy, FVal.neg, p0, q0, ne_eq]
  refine ⟨fun h1 h2 => ?_, fun h1 h2 => ?_, fun h1 h2 => ?_, fun h1 h2 => ?_⟩
  · have hp0 := mt p0.1 h1
    have hq0 := mt q0.1 h2
    obtain ⟨k1, c1, hx', h1', ap⟩ := sign_magnitude_of_ratOf hp hp0
    obtain ⟨k2, c2, hy', h2', aq⟩ := sign_magnitude_of_ratOf hq hq0
    rw [fdiv_of_fin hf hx' hy', if_neg h2', if_neg h1', div_neg_eq hp0 hq0]
    have magnitude : ((|p / q| : ℚ) : ℝ) = (k1 : ℝ) / k2 * 2 ^ (c1 - c2) := by
      rw [abs_div, ap, aq, zpow_sub₀ two_ne_zero]
      push_cast
      field_simp
    rw [magnitude]
    exact divMag_roundedRes hrm _ h1' h2' _
  · rw [value, if_neg h2, if_pos h1]
  · rw [value, if_pos h2, if_neg h1]
  · rw [value, if_pos h2, if_pos h1]

/-- R33: a quotient with an infinity or a NaN. -/
theorem fdiv_special (hf : f = .f32 ∨ f = .f64) :
    let x := fval f a
    let y := fval f b
    let r := fdiv f rm a b
    let neg := x.neg != y.neg
    (∀ n q, x = .inf n → Claims.ratOf y = some q → r = ⟨signBits f neg + f.infBits, 0⟩) ∧
      (∀ n p, Claims.ratOf x = some p → y = .inf n → r = ⟨signBits f neg, 0⟩) ∧
      (∀ n k, x = .inf n → y = .inf k → r = ⟨f.canon, flNV⟩) ∧
      (x.isNan = true ∨ y.isNan = true → r = ⟨f.canon, nvIf (x.isSig || y.isSig)⟩) := by
  rw [fdiv, fin_of_wide hf, fin_of_wide hf]
  refine ⟨fun n q hx hy => ?_, fun n p hx hy => ?_, fun n k hx hy => ?_, fun h => ?_⟩
  · obtain ⟨n2, m2, e2, hy, -⟩ := fin_of_ratOf hy
    rw [hx, hy]; rfl
  · obtain ⟨n1, m1, e1, hx, -⟩ := fin_of_ratOf hx
    rw [hx, hy]; rfl
  · rw [hx, hy]
    cases n <;> rfl
  · generalize fval f a = x at h ⊢
    generalize fval f b = y at h ⊢
    rcases h with h | h
    · obtain ⟨s, rfl⟩ := nan_of_isNan h
      rfl
    · obtain ⟨s, rfl⟩ := nan_of_isNan h
      cases x with
      | nan k => rfl
      | inf n => cases s <;> rfl
      | fin n m e => cases s <;> rfl

/-! ## Conversions -/

/-- R33: a conversion between the wide formats. -/
theorem fcvt_wide (hg : g = .f32 ∨ g = .f64) (hrm : rm ≠ .dyn) :
    let x := fval f a
    let c := fcvt f g rm false a
    (∀ q, Claims.ratOf x = some q → q ≠ 0 → Claims.RoundedRes g rm false (decide (q < 0)) ((|q| : ℚ) : ℝ) c) ∧
      (x.isZero = true → c = ⟨signBits g x.neg, 0⟩) ∧ (∀ n, x = .inf n → c = ⟨signBits g n + g.infBits, 0⟩) ∧
      (x.isNan = true → c = ⟨g.canon, nvIf x.isSig⟩) := by
  rw [fcvt]
  refine ⟨fun q hq hq0 => ?_, fun h => ?_, fun n hx => ?_, fun h => ?_⟩
  · obtain ⟨m, e, hv, hm, hx⟩ := sign_magnitude_of_ratOf hq hq0
    rw [hv, hx]
    push_cast
    exact (Known.exact m e).roundedRes hrm hm (fun h => Bool.noConfusion h) false
  · generalize fval f a = x at h ⊢
    cases x with
    | nan s => cases h
    | inf n => cases h
    | fin n m e =>
      obtain rfl : m = 0 := beq_iff_eq.1 h
      rfl
  · rw [hx]
    rcases hg with rfl | rfl <;> rfl
  · obtain ⟨s, hs⟩ := nan_of_isNan h
    rw [hs]
    rcases hg with rfl | rfl <;> cases s <;> rfl

/-- The integer that a source of a conversion stands for. -/
theorem IFmt.val_word (t : IFmt) (ht : t.n = 32 ∨ t.n = 64) (v : Word) : t.val v.toNat =
    if t.sgn then (if t.n = 32 then (v.setWidth 32).toInt else v.toInt) else (v.toNat % 2 ^ t.n : Nat) := by
  obtain ⟨sgn, n⟩ := t
  cases sgn
  case false => rfl
  case true =>
    rcases ht with rfl | rfl
    · rw [← IFmt.val_signed32, BitVec.toNat_setWidth]
      exact (IFmt.val_mod ⟨true, 32⟩ _).symm
    · show (IFmt.mk true 64).val v.toNat = v.toInt
      have := v.isLt
      simp only [IFmt.val, BitVec.toInt_eq_toNat_cond]
      split_ifs <;> simp_all <;> omega

/-- R22, R33: an integer is rounded once. -/
theorem fcvtFromInt_values (hrm : rm ≠ .dyn) (t : IFmt) (v : Nat) :
    (t.val v = 0 → fcvtFromInt t f rm false v = ⟨0, 0⟩) ∧
      (t.val v ≠ 0 → Claims.RoundedRes f rm false (decide (t.val v < 0)) ((|t.val v| : Int) : ℝ) (fcvtFromInt t f rm false v)) := by
  rw [fcvtFromInt]
  refine ⟨fun h0 => ?_, fun h0 => ?_⟩
  · rw [h0]; rfl
  · have known := (Known.exact (t.val v).natAbs 0).roundedRes (f := f) (neg := decide (t.val v < 0)) hrm (Int.natAbs_ne_zero.2 h0)
      (fun h => Bool.noConfusion h) false
    rwa [zpow_zero, mul_one, Nat.cast_natAbs] at known

end

/-! ## Classes -/

/-- A double by its fields. -/
theorem fval_f64 {b : Nat} (hb : b < 2 ^ 64) : fval .f64 b =
    let neg : Bool := decide (2 ^ 63 ≤ b)
    let e : Nat := b / 2 ^ 52 % 2048
    let m : Nat := b % 2 ^ 52
    if e = 2047 then (if m = 0 then FVal.inf neg else FVal.nan (decide (m < 2 ^ 51)))
    else if e = 0 then FVal.fin neg m (Fmt.emin .f64 - Fmt.manBits .f64)
    else FVal.fin neg (2 ^ 52 + m) ((e : Int) - Fmt.bias .f64 - Fmt.manBits .f64) := by
  have sign : (b / 2 ^ 63 % 2 == 1) = decide (2 ^ 63 ≤ b) := by
    rw [Bool.beq_eq_decide_eq]
    exact decide_eq_decide.2 (by omega)
  have quiet : (b % 2 ^ 52 / 2 ^ (52 - 1) % 2 == 0) = decide (b % 2 ^ 52 < 2 ^ 51) := by
    rw [Bool.beq_eq_decide_eq]
    exact decide_eq_decide.2 (by omega)
  have fields : Fmt.signWeight .f64 = 2 ^ 63 ∧ Fmt.manBits .f64 = 52 ∧ Fmt.expBits .f64 = 11 ∧ Fmt.hasInf .f64 = true ∧
      Fmt.canSignal .f64 = true := ⟨rfl, rfl, rfl, rfl, rfl⟩
  obtain ⟨hs, hm, he, hi, hc⟩ := fields
  have other : (Fmt.f64 == Fmt.e4m3) = false := rfl
  have codes : (2 : Nat) ^ 11 = 2048 := rfl
  simp only [fval, hs, hm, he, hi, hc, sign, quiet, other, codes, Nat.reduceSub, Bool.true_and, Bool.false_and, Bool.false_eq_true,
    if_false, beq_iff_eq]

/-- R33: the class of a double. -/
theorem fclassBit_f64 {b : Nat} (hb : b < 2 ^ 64) :
    let neg := 2 ^ 63 ≤ b
    let e := b / 2 ^ 52 % 2048
    let m := b % 2 ^ 52
    fclassBit .f64 b =
      if e = 2047 then (if m = 0 then (if neg then 0 else 7) else if m < 2 ^ 51 then 8 else 9)
      else if e = 0 then (if m = 0 then (if neg then 3 else 4) else if neg then 2 else 5)
      else if neg then 1 else 6 := by
  have low : b % 2 ^ 52 < 2 ^ Fmt.manBits .f64 := Nat.mod_lt _ (by decide)
  have normal : ¬2 ^ 52 + b % 2 ^ 52 < 2 ^ Fmt.manBits .f64 := Nat.not_lt.2 (Nat.le_add_right _ _)
  dsimp only
  rw [fclassBit, fval_f64 hb]
  have nonzero : ¬2 ^ 52 + b % 2 ^ 52 = 0 := by omega
  by_cases top : b / 2 ^ 52 % 2048 = 2047
  · simp only [if_pos top]
    by_cases zero : b % 2 ^ 52 = 0
    · simp only [if_pos zero, decide_eq_true_eq]
    · simp only [if_neg zero, decide_eq_true_eq]
  · simp only [if_neg top]
    by_cases sub : b / 2 ^ 52 % 2048 = 0
    · simp only [if_pos sub, beq_iff_eq, decide_eq_true_eq, low, if_true]
    · simp only [if_neg sub, beq_iff_eq, decide_eq_true_eq, nonzero, normal, if_false]

/-- R33: the values of the F and D instructions. -/
theorem standardFloatValues : Claims.StandardFloatValues := by
  refine ⟨fun h r => ⟨rfl, rfl⟩, ⟨rfl, rfl, rfl, rfl⟩, fun f g rm a b hf hg hrm => ?_, fun b hb => fclassBit_f64 hb⟩
  obtain ⟨infFin, finInf, infInf, nan⟩ := fdiv_special (rm := rm) (a := a) (b := b) hf
  obtain ⟨rounded, zero, inf, invalid⟩ := fcvt_wide (f := f) (a := a) hg hrm
  refine ⟨fun p q hp hq => fdiv_finite hf hrm hp hq, infFin, finInf, infInf, nan, rounded, zero, inf, invalid, fun t v ht => ?_⟩
  refine ⟨fcvtToInt_toInteger f t hrm a, ?_⟩
  rw [← IFmt.val_word t ht v]
  exact fcvtFromInt_values hrm t v.toNat

/-- Settles O14, by the guard and the write that every form shares, and by rounding on the grid. -/
theorem standardFloatInstructions : Obligations.StandardFloatInstructions := ⟨standardFloatForms, standardFloatValues⟩

end Sys2Proof.Machine
end

section
/-! SUPPORT. Lane words that name registers they may not (R66, R142, R143). -/
namespace Sys2Proof.Machine
/- Declarations are elaborated in turn: in parallel, the stacks of the threads that wait exceed the check's memory. -/
set_option Elab.async false
open Sys2Proof.Safety

/-- A lane word may not name these registers: one of them lies beyond the hart's allocation, one that it writes is bound to a read
stream, or one that it reads to a write stream (R66, R142, R143). -/
def Hart.refusesRegs (h : Hart) (reads writes : List Nat) : Prop :=
  (∃ r ∈ reads ++ writes, h.lalloc ≤ r) ∨ (∃ r ∈ writes, h.boundSlot false r ≠ none) ∨ (∃ r ∈ reads, h.boundSlot true r ≠ none)

section
variable {s : State} {p : LaneHdr} {reads writes : List Nat}

theorem State.laneBegin_refuses (h : s.hart.refusesRegs reads writes) : s.laneBegin p reads writes = .stop s.illegal := by
  have refused : ((reads ++ writes).any (fun r => decide (s.hart.lalloc ≤ r)) || writes.any (fun r => (s.hart.boundSlot false r).isSome) ||
      reads.any (fun r => (s.hart.boundSlot true r).isSome)) = true := by
    simpa only [Bool.or_eq_true, List.any_eq_true, decide_eq_true_eq, Option.isSome_iff_ne_none, or_assoc, Hart.refusesRegs] using h
  rw [State.laneBegin, refused]; rfl

theorem State.laneOp32_refuses {vd : LOp} (f : Hart → Nat → Lane × BitVec 5) (h : s.hart.refusesRegs reads [vd.toNat]) :
    s.laneOp32 p reads vd f = s.illegal := by
  rw [State.laneOp32, State.laneBegin_refuses h]

theorem State.laneAct32_refuses {vd : LOp} (f : Hart → Mask → Nat → Lane × BitVec 5) (h : s.hart.refusesRegs reads [vd.toNat]) :
    s.laneAct32 p reads vd f = s.illegal := by
  rw [State.laneAct32, State.laneBegin_refuses h]

theorem State.laneOp64_refuses {vd : LOp} (f : Hart → Nat → Word × BitVec 5) (h : s.hart.refusesRegs reads [vd.toNat, vd.toNat + 1]) :
    s.laneOp64 p reads vd f = s.illegal := by
  rw [State.laneOp64, State.laneBegin_refuses h]

theorem State.laneMask_refuses {md : MReg} (f : Hart → Mask → Nat → Bool × BitVec 5) (h : s.hart.refusesRegs reads []) :
    s.laneMask p reads md f = s.illegal := by
  rw [State.laneMask, State.laneBegin_refuses h]

/-- A word of a form with a reserved rounding mode is the same illegal instruction. -/
theorem State.laneF2_refuses {f : FForm} {vd va vb : LOp} (op : Rm → Fmt → Nat → Nat → FRes)
    (h : s.hart.refusesRegs (regsOf va 1 ++ regsOf vb 1) [vd.toNat]) : s.laneF2 p f op vd va vb = s.illegal := by
  unfold State.laneF2
  cases s.formRm f with
  | none => rfl
  | some rm => exact State.laneOp32_refuses _ h

theorem State.laneFma_refuses {f : FForm} {negP negC : Bool} {vd va vb vc : LOp}
    (h : s.hart.refusesRegs (regsOf va 1 ++ regsOf vb 1 ++ regsOf vc 1) [vd.toNat]) :
    s.laneFma p f negP negC vd va vb vc = s.illegal := by
  unfold State.laneFma
  cases s.formRm f with
  | none => rfl
  | some rm => exact State.laneOp32_refuses _ h

theorem State.laneAddSub_refuses {t : Ity} {sub : Bool} {vd va vb : LOp} (h64 : t.is64 = true)
    (h : s.hart.refusesRegs (regsOf va 2 ++ regsOf vb 2) [vd.toNat, vd.toNat + 1]) :
    s.laneAddSub p t sub vd va vb = s.illegal := by
  rw [State.laneAddSub, if_pos h64, State.laneOp64_refuses _ h]

theorem State.gload_refuses {m : MemMod} {vd : LOp} (addr : Hart → Nat → Word) (h : s.hart.refusesRegs reads (widthRegs m.width vd)) :
    s.gload p m reads vd addr = s.illegal := by
  rw [State.gload, State.laneBegin_refuses h]

theorem State.gstore_refuses {n : Nat} {o : Ordering4} {sc : Scope} (addr : Hart → Nat → Word) (val : Hart → Nat → List Byte)
    (after : State → State → List (Nat × Nat) → State) (h : s.hart.refusesRegs reads []) :
    s.gstore p n o sc reads addr val after = s.illegal := by
  rw [State.gstore, State.laneBegin_refuses h]

end

theorem laneRegisterChecks : Claims.LaneRegisterChecks := by
  intro p t w ts exc u m f md vd va vb vc s
  have traps {i : Instr} {u : State} (hi : exec i s = .next u) (hu : u = s.illegal) : Gives i s (Traps s 2 0 s.hart.ir) :=
    State.gives_illegal (hu ▸ hi)
  refine ⟨fun h => ⟨?_, ?_, ?_, ?_⟩, fun h => ⟨?_, ?_, ?_, ?_, ?_⟩, fun h h64 => ⟨?_, ?_⟩, fun h => ⟨?_, ?_, ?_⟩,
    fun h c => ⟨?_, ?_⟩, fun h => ?_, fun h => ?_⟩
  · exact traps rfl (State.laneOp32_refuses _ h)
  · exact traps rfl (State.laneOp32_refuses _ h)
  · exact traps rfl (State.laneOp32_refuses _ h)
  · exact traps rfl (State.laneAct32_refuses _ h)
  · exact traps rfl (State.laneOp32_refuses _ h)
  · exact traps rfl (State.laneOp32_refuses _ h)
  · exact traps rfl (State.laneOp32_refuses _ h)
  · exact traps rfl (State.laneF2_refuses _ h)
  · exact traps rfl (State.laneOp32_refuses _ h)
  · exact traps rfl (State.laneAddSub_refuses h64 h)
  · exact traps rfl (State.laneAddSub_refuses h64 h)
  · exact traps rfl (State.laneOp32_refuses _ h)
  · exact traps rfl (State.laneOp32_refuses _ h)
  · exact traps rfl (State.laneFma_refuses h)
  · exact traps rfl (State.laneMask_refuses _ h)
  · exact traps rfl (State.laneMask_refuses _ h)
  · exact traps rfl (State.gload_refuses _ h)
  · exact traps rfl (State.gstore_refuses _ _ _ h)

theorem vclmulTraps : Claims.VclmulTraps := fun _ _ => ⟨_, rfl, rfl⟩

/-- Settles O8, by the check that begins every lane word. -/
theorem laneWordTraps : Obligations.LaneWordTraps := ⟨laneRegisterChecks, vclmulTraps⟩
end Sys2Proof.Machine
end

section
/-! SUPPORT. A lane store that joins the walk of a prefetch (R138, R274). -/
namespace Sys2Proof.Machine
set_option Elab.async false
open Sys2Proof.Safety

/-- A lane word's header without a predicate. -/
def plainHdr : LaneHdr := ⟨false, false, false, 0⟩

/-- The machine of `prefetching`, lane 0 of whose hart is active. -/
def prefetchingLane : State := { prefetching with hart := prefetching.hart.setM 0 1#32 }

theorem quiet_prefetchingLane : Claims.Quiet prefetchingLane := quiet_prefetching

/-- The check of lane 0's store to the page that is being walked for. -/
def prefetchingChecks : List (Nat × Except TrapInfo Nat) × State :=
  prefetchingLane.laneChecks .store 4 (fun i => prefetchingLane.hart.ea 832 773 i)
    (maskLanes (prefetchingLane.hart.pendingLanes (prefetchingLane.hart.active plainHdr)))

theorem lanesFree_prefetchingLane : LanesFree prefetchingLane (regsOf 832 1 ++ widthRegs .w 8) := by
  unfold LanesFree; decide +kernel

/-- Refutes O28: a lane store that joins the walk of a prefetch brings the prefetch's line into the cluster's L1, as a hart's store
does (R138, R274), while the statement keeps every L1 as it was. -/
theorem not_laneStores : ¬ Obligations.LaneStores := by
  intro h
  have stored := ((h plainHdr ⟨.w, .rlx, .hart, .normal⟩ 0 0 8 832 773 prefetchingChecks.1 prefetchingLane prefetchingChecks.2).1
    lanesFree_prefetchingLane).1 (by decide +kernel) rfl quiet_prefetchingLane rfl (by decide +kernel) (by decide +kernel)
  refine not_gives_of_nextHas (p := State.l1Filled) (by decide +kernel) (fun t ht => ?_) stored
  obtain ⟨-, reached, -⟩ := ht
  have empty : t.l1 = [] := congrArg State.l1 reached.1
  rw [State.l1Filled, empty]; rfl
end Sys2Proof.Machine
end

section
/-! SUPPORT. The outcome of a team whose launch is not listed (R358). -/
namespace Sys2Proof.Machine
set_option Elab.async false
open Sys2Proof.Safety

/-- A team that has ended and names no listed launch, so that its launch reads as `Launch.none`. -/
def strayTeam : Team := { Team.none with id := 7, launch := 5, phase := .ended, outDone := false, committed := false }

/-- Two launches with the id 0 of `Launch.none`, which stands second: a read by id finds the first. -/
def strayOutcome : State :=
  { State.reset with
    sel := 7
    teams := [strayTeam]
    launches := [{ Launch.none with outs := [(0, 2)] }, Launch.none] }

theorem strayOutcome_writeOutcome :
    fget 0 ((strayOutcome.writeOutcome strayTeam).launch 0).outs 0 = 3 := by decide +kernel

/-- Refutes O48: a team whose launch is not listed reads `Launch.none`, whose id is 0; its outcome goes to the entries of the first
listed launch of that id, which here hold 2 already, while the statement takes the entries of `Launch.none` itself, listed second. -/
theorem not_endsOfTeamsAndLaunches : ¬ Obligations.EndsOfTeamsAndLaunches := by
  intro h
  obtain ⟨-, hwrite, -⟩ := h (Hart.fresh 0) [] strayOutcome
  obtain ⟨t, -, rfl, -, houts⟩ := hwrite rfl rfl (by decide +kernel)
  have hbit := houts (by decide +kernel) (by decide +kernel) rfl
  have hread : fget 0 ((strayOutcome.writeOutcome strayTeam).launch 0).outs 0 = 1 := hbit
  rw [strayOutcome_writeOutcome] at hread
  exact absurd hread (by decide)
end Sys2Proof.Machine
end

section
/-! SUPPORT. Retirement and the hardware loops (R91 to R93). -/
namespace Sys2Proof.Machine
set_option Elab.async false
open Sys2Proof.Safety

/-! ## The end tests -/

/-- An instruction that ends at `nxt` meets the pending exit of level 1; it meets the end of an active level 1 (R92, R93). -/
abbrev Hart.exitsAt1 (h : Hart) (nxt : Word) : Prop := h.lpxe1 = nxt ∧ nxt ≠ 0
abbrev Hart.endsAt1 (h : Hart) (nxt : Word) : Prop := ¬h.exitsAt1 nxt ∧ h.lpcnt1 ≠ 0 ∧ h.lpend1 = nxt

/-- The same of level 0. -/
abbrev Hart.exitsAt0 (h : Hart) (nxt : Word) : Prop := h.lpxe0 = nxt ∧ nxt ≠ 0
abbrev Hart.endsAt0 (h : Hart) (nxt : Word) : Prop := ¬h.exitsAt0 nxt ∧ h.lpcnt0 ≠ 0 ∧ h.lpend0 = nxt

section
variable (h : Hart) (nxt : Word)

/-- The end test as one choice among the pending exit, the end and neither. -/
theorem Hart.endTest1_cases : h.endTest1 nxt =
    if h.exitsAt1 nxt then ({ h with lpcnt1 := 0, lpxe1 := 0 }, false)
    else if h.endsAt1 nxt then ({ h with lpcnt1 := h.lpcnt1 - 1 }, h.lpcnt1 != 1) else (h, false) := by
  simp only [Hart.endTest1, Bool.and_eq_true, decide_eq_true_eq, bne_iff_ne]
  by_cases hx : h.exitsAt1 nxt
  · rw [if_pos hx, if_pos hx]
  · rw [if_neg hx, if_neg hx]
    exact if_congr ⟨fun e => ⟨hx, e⟩, fun e => e.2⟩ rfl rfl

theorem Hart.endTest0_cases : h.endTest0 nxt =
    if h.exitsAt0 nxt then ({ h with lpcnt0 := 0, lpxe0 := 0 }, false)
    else if h.endsAt0 nxt then ({ h with lpcnt0 := h.lpcnt0 - 1 }, h.lpcnt0 != 1) else (h, false) := by
  simp only [Hart.endTest0, Bool.and_eq_true, decide_eq_true_eq, bne_iff_ne]
  by_cases hx : h.exitsAt0 nxt
  · rw [if_pos hx, if_pos hx]
  · rw [if_neg hx, if_neg hx]
    exact if_congr ⟨fun e => ⟨hx, e⟩, fun e => e.2⟩ rfl rfl

theorem Hart.endTest1_fst : (h.endTest1 nxt).1 = { h with
    lpcnt1 := if h.exitsAt1 nxt then 0 else if h.endsAt1 nxt then h.lpcnt1 - 1 else h.lpcnt1
    lpxe1 := if h.exitsAt1 nxt then 0 else h.lpxe1 } := by
  rw [Hart.endTest1_cases]
  split_ifs <;> rfl

theorem Hart.endTest0_fst : (h.endTest0 nxt).1 = { h with
    lpcnt0 := if h.exitsAt0 nxt then 0 else if h.endsAt0 nxt then h.lpcnt0 - 1 else h.lpcnt0
    lpxe0 := if h.exitsAt0 nxt then 0 else h.lpxe0 } := by
  rw [Hart.endTest0_cases]
  split_ifs <;> rfl

/-- The test branches back at an end that is not the last. -/
theorem Hart.endTest1_snd : (h.endTest1 nxt).2 = true ↔ h.endsAt1 nxt ∧ h.lpcnt1 ≠ 1 := by
  rw [Hart.endTest1_cases]
  by_cases hx : h.exitsAt1 nxt
  · rw [if_pos hx]
    exact ⟨fun e => absurd e Bool.false_ne_true, fun e => absurd hx e.1.1⟩
  · rw [if_neg hx]
    by_cases he : h.endsAt1 nxt
    · rw [if_pos he, bne_iff_ne]
      exact (and_iff_right he).symm
    · rw [if_neg he]
      exact ⟨fun e => absurd e Bool.false_ne_true, fun e => absurd e.1 he⟩

theorem Hart.endTest0_snd : (h.endTest0 nxt).2 = true ↔ h.endsAt0 nxt ∧ h.lpcnt0 ≠ 1 := by
  rw [Hart.endTest0_cases]
  by_cases hx : h.exitsAt0 nxt
  · rw [if_pos hx]
    exact ⟨fun e => absurd e Bool.false_ne_true, fun e => absurd hx e.1.1⟩
  · rw [if_neg hx]
    by_cases he : h.endsAt0 nxt
    · rw [if_pos he, bne_iff_ne]
      exact (and_iff_right he).symm
    · rw [if_neg he]
      exact ⟨fun e => absurd e Bool.false_ne_true, fun e => absurd e.1 he⟩

end

/-! ## Retiring -/

theorem Hart.countRetired_eq (h : Hart) :
    h.countRetired = { h with csr := { h.csr with minstret := h.countRetired.csr.minstret } } := by
  unfold Hart.countRetired
  split_ifs <;> rfl

/-- Retiring goes on as `advance` says, and counts. -/
theorem Hart.retire_advance (h : Hart) : h.retire = { h.advance with
    csr := { h.advance.csr with minstret := h.retire.csr.minstret }, run := .ready, answer := none, results := [], obsWait := none } := by
  unfold Hart.retire
  rw [Hart.countRetired_eq]

/-- Outside U mode, and in the user-interrupt handler, there is no end test. -/
theorem Hart.advance_of_untested {h : Hart} (hm : h.mode ≠ .u ∨ h.uiAct = true) :
    h.advance = { h with pc := h.pc + BitVec.ofNat 64 h.ilen } :=
  if_pos (by simpa using hm)

section
variable {h : Hart} {nxt : Word} (hm : h.mode = .u) (hu : h.uiAct = false) (hn : nxt = h.pc + BitVec.ofNat 64 h.ilen)
include hm hu hn

/-- Level 1 branches back, and level 0 is not tested. -/
theorem Hart.advance_back1 (he : h.endsAt1 nxt ∧ h.lpcnt1 ≠ 1) : h.advance = { (h.endTest1 nxt).1 with pc := h.lpbeg1 } := by
  subst hn
  have tested : ¬((h.mode != .u || h.uiAct) = true) := by simp [hm, hu]
  rw [Hart.advance, if_neg tested, if_pos ((h.endTest1_snd _).mpr he), Hart.endTest1_fst]

/-- Level 1 does not branch back, and level 0 is tested. -/
theorem Hart.advance_test0 (he : ¬(h.endsAt1 nxt ∧ h.lpcnt1 ≠ 1)) : h.advance = { ((h.endTest1 nxt).1.endTest0 nxt).1 with
    pc := if h.endsAt0 nxt ∧ h.lpcnt0 ≠ 1 then h.lpbeg0 else nxt } := by
  subst hn
  have tested : ¬((h.mode != .u || h.uiAct) = true) := by simp [hm, hu]
  have back0 : ((h.endTest1 (h.pc + BitVec.ofNat 64 h.ilen)).1.endTest0 (h.pc + BitVec.ofNat 64 h.ilen)).2 = true ↔
      h.endsAt0 (h.pc + BitVec.ofNat 64 h.ilen) ∧ h.lpcnt0 ≠ 1 := by
    rw [Hart.endTest0_snd, Hart.endTest1_fst]
  rw [Hart.advance, if_neg tested, if_neg (mt (h.endTest1_snd _).mp he)]
  by_cases hb : h.endsAt0 (h.pc + BitVec.ofNat 64 h.ilen) ∧ h.lpcnt0 ≠ 1
  · rw [if_pos (back0.mpr hb), if_pos hb, Hart.endTest0_fst, Hart.endTest1_fst]
  · rw [if_neg (mt back0.mp hb), if_neg hb]

end

theorem loopEndTests : Claims.LoopEndTests := by
  intro h hm hu nxt exit1 exit0 end1 end0 k
  have goesOn : k = _ := h.retire_advance
  refine ⟨fun back => ?_, fun notBack => ?_⟩
  · obtain ⟨he, hc⟩ := back
    rw [goesOn, Hart.advance_back1 hm hu rfl ⟨he, hc⟩, Hart.endTest1_fst, if_neg he.1, if_pos he, if_neg he.1]
    exact ⟨rfl, rfl, rfl, rfl, rfl⟩
  · have count1 : (if h.exitsAt1 nxt then 0 else if h.endsAt1 nxt then h.lpcnt1 - 1 else h.lpcnt1) = if exit1 ∨ end1 then 0 else h.lpcnt1 := by
      by_cases hx : exit1
      · rw [if_pos hx, if_pos (.inl hx)]
      · by_cases he : end1
        · have last : h.lpcnt1 = 1 := not_not.mp fun hc => notBack ⟨he, hc⟩
          rw [if_neg hx, if_pos he, if_pos (.inr he), last, sub_self]
        · rw [if_neg hx, if_neg he, if_neg (not_or.mpr ⟨hx, he⟩)]
    rw [goesOn, Hart.advance_test0 hm hu rfl notBack, Hart.endTest0_fst, Hart.endTest1_fst, ← count1]
    exact ⟨rfl, rfl, rfl, rfl, rfl⟩

@[simp] theorem Hart.advance_csr (h : Hart) : h.advance.csr = h.csr := by
  simp only [Hart.advance]
  rw [Hart.endTest0_fst, Hart.endTest1_fst]
  split_ifs <;> rfl

/-- Of the CSRs retiring changes the count of instructions alone. -/
theorem Hart.retire_csr (h : Hart) : h.retire.csr = { h.csr with minstret := h.retire.csr.minstret } :=
  (congrArg Hart.csr h.retire_advance).trans (by rw [Hart.advance_csr])

theorem retireFrame : Claims.RetireFrame := by
  intro h
  constructor
  · intro untested
    rw [h.retire_advance, Hart.advance_of_untested untested]
    exact ⟨rfl, rfl, rfl⟩
  · calc h.retire = _ := h.retire_eq
      _ = _ := by rw [h.retire_csr]

/-! ## Writes of the loop registers -/

theorem csrNew_eq (op : CsrOp) (old v : Word) :
    csrNew op old v = if op = .rw then v else if op = .rs then old ||| v else old &&& ~~~v := by
  cases op <;> rfl

/-- Every mode may reach the registers of the hardware loops. -/
theorem Hart.csrOk_loop (h : Hart) (n : Nat) (w : Bool) (lo : 0x800 ≤ n) (hi : n ≤ 0x807) : h.csrOk n w = true := by
  have user : n / 256 % 4 = 0 := by omega
  have written : csrReadOnly n = false := by simp [csrReadOnly]; omega
  have rest : n ≠ 0x180 ∧ n ≠ 0x14D ∧ ¬n ≤ 3 ∧ ¬0xC00 ≤ n := by omega
  obtain ⟨hsatp, hcmp, hfp, hcnt⟩ := rest
  simp [Hart.csrOk, user, written, hsatp, hcmp, hfp, hcnt]

/-- A write of a loop register: the new value in it, and the old one in rd. -/
theorem State.csrOp_loop {op : CsrOp} {imm : Bool} {csr : BitVec 12} {rd src : XReg} {s : State} {old : Word}
    (lo : 0x800 ≤ csr.toNat) (hi : csr.toNat ≤ 0x807) (hw : csrWrites op src = true) (hr : s.readU csr.toNat = some old) :
    s.csrOp op imm csr rd src = { s with hart :=
      ((s.writeU csr.toNat (csrNew op old (if imm then src.setWidth 64 else s.hart.getX src))).setX rd old).retire } := by
  have read : s.csrVal csr.toNat = some old := by rw [State.csrVal, hr]
  have base : s.csrBase csr.toNat old = old := if_neg (by omega)
  have noHpm : (decide (0xC03 ≤ csr.toNat) && decide (csr.toNat ≤ 0xC12)) = false := by simp; omega
  have noInstret : csr.toNat ≠ 0xB02 := by omega
  simp only [State.csrOp, read, Hart.csrOk_loop _ _ _ lo hi, base, hw, State.csrWrite, hr, noHpm, noInstret, decide_false, Bool.and_false,
    Bool.not_true, Bool.false_eq_true, if_false, if_true, Option.isSome_some]
  rfl

/-- What a write of a loop's end leaves. -/
theorem Hart.writeLpend0_eq (h : Hart) (v : Word) : h.writeLpend false v = { h with
    lpend0 := v, lpxe0 := if h.lpcnt0 ≠ 0 ∧ v.toNat ≤ (h.pc + BitVec.ofNat 64 h.ilen).toNat then h.lpend0 else h.lpxe0 } := by
  simp [Hart.writeLpend, BitVec.ule]

theorem Hart.writeLpend1_eq (h : Hart) (v : Word) : h.writeLpend true v = { h with
    lpend1 := v, lpxe1 := if h.lpcnt1 ≠ 0 ∧ v.toNat ≤ (h.pc + BitVec.ofNat 64 h.ilen).toNat then h.lpend1 else h.lpxe1 } := by
  simp [Hart.writeLpend, BitVec.ule]

theorem loopEndWrites : Claims.LoopEndWrites := by
  intro op imm rd src s hw h v new nxt writes
  have written {csr : BitVec 12} {o : Word} {k : Hart} (lo : 0x800 ≤ csr.toNat) (hi : csr.toNat ≤ 0x807) (hr : s.readU csr.toNat = some o)
      (hk : s.writeU csr.toNat (csrNew op o v) = k) : writes csr o k :=
    ⟨_, rfl, k.setX rd o, by rw [State.csrOp_loop lo hi hw hr, ← hk], Hart.xWritten_setX _ _ _⟩
  have next (o : Word) : csrNew op o v = new o := csrNew_eq op o v
  refine ⟨?_, ?_, ?_, ?_, ?_, ?_⟩
  · exact written (by decide) (by decide) rfl (by rw [← next]; exact h.writeLpend0_eq _)
  · exact written (by decide) (by decide) rfl (by rw [← next]; exact h.writeLpend1_eq _)
  · exact written (by decide) (by decide) rfl (by rw [← next]; rfl)
  · exact written (by decide) (by decide) rfl (by rw [← next]; rfl)
  · exact written (by decide) (by decide) rfl (by rw [← next]; rfl)
  · exact written (by decide) (by decide) rfl (by rw [← next]; rfl)

/-! ## The start of a loop -/

/-- A loop that may start sets its level and goes on. -/
theorem State.startLoop_of_user {s : State} (hm : s.hart.mode = .u) (hu : s.hart.uiAct = false) (lvl : Bool) (count : Word) (len : Nat) :
    s.startLoop lvl count len = if count = 0 then (s.onHart (fun h => h.setLoop lvl count len)).retireTo (s.hart.pc + 4 + BitVec.ofNat 64 (2 * len))
      else (s.onHart (fun h => h.setLoop lvl count len)).retire :=
  if_neg (by simp [hm, hu])

theorem State.startLoop_illegal {s : State} (hm : s.hart.mode ≠ .u ∨ s.hart.uiAct = true) (lvl : Bool) (count : Word) (len : Nat) :
    s.startLoop lvl count len = s.illegal :=
  if_pos (by simpa using hm)

theorem hardwareLoopStart : Claims.HardwareLoopStart := by
  intro lvl rs1 len count len10 s h sets
  refine ⟨fun hm hu => ⟨fun hc => ?_, fun hc => ?_, fun hc => ?_⟩, fun hm => ⟨?_, ?_⟩⟩
  · exact ⟨_, rfl, _, (s.startLoop_of_user hm hu lvl _ _).trans (if_neg hc), rfl⟩
  · refine ⟨_, rfl, _, (s.startLoop_of_user hm hu lvl _ _).trans (if_pos hc), ?_⟩
    rw [show s.getX rs1 = 0 from hc]
    rfl
  · have some_ : count.setWidth 64 ≠ 0 := fun hz => hc (BitVec.eq_of_toNat_eq (by
      have value := congrArg BitVec.toNat hz
      have small := count.isLt
      simp at value ⊢
      omega))
    exact ⟨_, rfl, _, (s.startLoop_of_user hm hu lvl _ _).trans (if_neg some_), rfl⟩
  · exact State.gives_illegal (congrArg Host.Outcome.next (State.startLoop_illegal hm lvl _ _))
  · exact State.gives_illegal (congrArg Host.Outcome.next (State.startLoop_illegal hm lvl _ _))

/-- Settles O17, by what each end test leaves and where it branches back, and by the registers that a write of a loop register
reaches. -/
theorem retirementAndLoops : Obligations.RetirementAndLoops := ⟨loopEndTests, loopEndWrites, retireFrame, hardwareLoopStart⟩

end Sys2Proof.Machine
end

section
/-! SUPPORT. Traps, interrupts and the returns (R70 to R77). -/
namespace Sys2Proof.Machine
set_option Elab.async false
open Sys2Proof.Safety

/-! ## Words with a field or a bit replaced -/

theorem getLsbD_wput (w : Word) {lo n : Nat} (hn : lo + n ≤ 64) (v b : Nat) :
    (wput w lo n v).getLsbD b = if lo ≤ b ∧ b < lo + n then v.testBit (b - lo) else w.getLsbD b := by
  by_cases hb : b < 64
  · simp only [wput, BitVec.getLsbD_or, BitVec.getLsbD_and, BitVec.getLsbD_not, BitVec.getLsbD_ofNat, hb, decide_true, Bool.true_and,
      Nat.testBit_shiftLeft, Nat.testBit_two_pow_sub_one, Nat.testBit_mod_two_pow]
    by_cases lob : lo ≤ b
    · by_cases hib : b < lo + n
      · simp [lob, hib, show b - lo < n by omega]
      · simp [lob, hib, show ¬b - lo < n by omega]
    · simp [lob]
  · rw [if_neg (by omega), BitVec.getLsbD_of_ge _ _ (by omega), BitVec.getLsbD_of_ge _ _ (by omega)]

theorem getLsbD_wputb (w : Word) {i : Nat} (hi : i < 64) (c : Bool) (b : Nat) :
    (wputb w i c).getLsbD b = if b = i then c else w.getLsbD b := by
  rw [wputb, getLsbD_wput w (by omega)]
  by_cases hb : b = i
  · subst hb
    cases c <;> simp
  · rw [if_neg (by omega), if_neg hb]

theorem testBit_wfield (w : Word) (lo n i : Nat) : (wfield w lo n).testBit i = (decide (i < n) && w.getLsbD (lo + i)) := by
  rw [wfield, Nat.testBit_mod_two_pow, Nat.testBit_shiftRight, BitVec.testBit_toNat]

theorem wfield_congr {w w' : Word} {lo n : Nat} (h : ∀ i, i < n → w.getLsbD (lo + i) = w'.getLsbD (lo + i)) :
    wfield w lo n = wfield w' lo n := by
  refine Nat.eq_of_testBit_eq fun i => ?_
  rw [testBit_wfield, testBit_wfield]
  by_cases hi : i < n
  · rw [h i hi]
  · simp [hi]

theorem wfield_wput_same (w : Word) {lo n : Nat} (hn : lo + n ≤ 64) (v : Nat) : wfield (wput w lo n v) lo n = v % 2 ^ n := by
  refine Nat.eq_of_testBit_eq fun i => ?_
  rw [testBit_wfield, Nat.testBit_mod_two_pow, getLsbD_wput w hn]
  by_cases hi : i < n
  · rw [if_pos (by omega), Nat.add_sub_cancel_left]
  · simp [hi]

/-- What is put outside a field leaves the field as it is. -/
theorem wfield_wput_outside (w : Word) {lo n lo' n' : Nat} (v : Nat) (hn : lo' + n' ≤ 64) (out : lo + n ≤ lo' ∨ lo' + n' ≤ lo) :
    wfield (wput w lo' n' v) lo n = wfield w lo n :=
  wfield_congr fun k hk => by rw [getLsbD_wput w hn, if_neg (by omega)]

theorem wfield_wputb_outside (w : Word) {i lo n : Nat} (c : Bool) (hi : i < 64) (out : i < lo ∨ lo + n ≤ i) :
    wfield (wputb w i c) lo n = wfield w lo n :=
  wfield_wput_outside w _ (by omega) (by omega)

theorem Priv.code_mod (p : Priv) : p.code % 2 ^ 2 = p.code := by cases p <;> rfl

/-! ## Entry -/

theorem handlerPc_exception (vec : Word) (cause : Nat) : handlerPc vec false cause = vec &&& ~~~3#64 := by
  simp [handlerPc, wput]

/-- What entry to the S-mode handler makes of mstatus: SPIE, SPP and SIE. -/
theorem Hart.getLsbD_enterS_mstatus (h : Hart) (intr : Bool) (t : TrapInfo) (b : Nat) : (h.enterS intr t).csr.mstatus.getLsbD b =
    if b = 1 then false else if b = 5 then h.csr.mstatus.getLsbD 1 else if b = 8 then h.mode == .s else h.csr.mstatus.getLsbD b := by
  simp only [Hart.enterS, getLsbD_wputb _ (show 1 < 64 by decide), getLsbD_wputb _ (show 5 < 64 by decide),
    getLsbD_wputb _ (show 8 < 64 by decide), wbit]

/-- What entry to the M-mode handler makes of mstatus: MPIE, MPP and MIE. -/
theorem Hart.getLsbD_enterM_mstatus (h : Hart) (intr : Bool) (t : TrapInfo) (b : Nat) : (h.enterM intr t).csr.mstatus.getLsbD b =
    if b = 3 then false else if b = 7 then h.csr.mstatus.getLsbD 3
    else if 11 ≤ b ∧ b < 11 + 2 then h.mode.code.testBit (b - 11) else h.csr.mstatus.getLsbD b := by
  simp only [Hart.enterM, getLsbD_wputb _ (show 3 < 64 by decide), getLsbD_wputb _ (show 7 < 64 by decide),
    getLsbD_wput _ (show 11 + 2 ≤ 64 by decide), wbit]

theorem Hart.wfield_enterM_mpp (h : Hart) (intr : Bool) (t : TrapInfo) : wfield (h.enterM intr t).csr.mstatus 11 2 = h.mode.code := by
  simp only [Hart.enterM]
  rw [wfield_wputb_outside _ _ (by decide) (by decide), wfield_wputb_outside _ _ (by decide) (by decide),
    wfield_wput_same _ (by decide), Priv.code_mod]

theorem trapEntry : Claims.TrapEntry := by
  intro h cause sub tval _ k toS
  let h0 : Hart := { h with lfault := 0 }
  by_cases deleg : toS
  · have delegated : h0.delegated false cause = true := by simpa [h0, Hart.delegated, wbit] using deleg
    have entered : k = h0.enterS false ⟨cause, sub, tval⟩ := if_pos delegated
    have bits := h0.getLsbD_enterS_mstatus false ⟨cause, sub, tval⟩
    rw [entered]
    refine ⟨fun _ => ⟨rfl, rfl, rfl, rfl, rfl, handlerPc_exception _ cause, bits 1, bits 5, ?_, fun b h1 h5 h8 => ?_, rfl⟩,
      fun no => absurd deleg no, rfl⟩
    · rw [bits 8]
      exact beq_iff_eq
    · rw [bits b, if_neg h1, if_neg h5, if_neg h8]
  · have here : ¬h0.delegated false cause = true := by simpa [h0, Hart.delegated, wbit, toS] using deleg
    have entered : k = h0.enterM false ⟨cause, sub, tval⟩ := if_neg here
    have bits := h0.getLsbD_enterM_mstatus false ⟨cause, sub, tval⟩
    rw [entered]
    refine ⟨fun yes => absurd yes deleg, fun _ => ⟨rfl, rfl, rfl, rfl, rfl, handlerPc_exception _ cause, bits 3, bits 7,
      h0.wfield_enterM_mpp _ _, fun b h3 h7 h11 h12 => ?_, rfl⟩, rfl⟩
    rw [bits b, if_neg h3, if_neg h7, if_neg (by omega)]

/-! ## Interrupts -/

/-- The interrupt that is taken is open to the hart. -/
theorem State.intOpen_of_nextInt {s : State} {i : Nat} (h : s.nextInt = some i) : s.hart.intOpen i = true := by
  have open_ {m : Bool} {j : Nat} (found : intOrder.find? (fun i =>
      wbit s.hart.csr.mie i && (wbit s.hart.csr.mideleg i != m) && s.hart.intOpen i && s.pending i) = some j) :
      s.hart.intOpen j = true := by
    have holds := List.find?_some found
    simp only [Bool.and_eq_true] at holds
    exact holds.1.2
  unfold State.nextInt at h
  dsimp only at h
  split at h
  next found => exact Option.some.inj h ▸ open_ found
  next => exact open_ h

/-- No interrupt that is delegated to S mode is taken in M mode. -/
theorem Hart.delegated_of_intOpen {h : Hart} {i : Nat} (ho : h.intOpen i = true) : h.delegated true i = h.csr.mideleg.getLsbD i := by
  unfold Hart.intOpen wbit at ho
  cases hd : h.csr.mideleg.getLsbD i with
  | false => simp [Hart.delegated, wbit, hd]
  | true =>
    have below : h.mode ≠ .m := fun hm => by simp [hd, hm] at ho
    simp [Hart.delegated, wbit, hd, below]

/-- Entry for an interrupt that is open to a hart `h` whose mode, place and delegation are those of `k`. -/
theorem Hart.enterTrap_interrupt {k : Hart} {i : Nat} (ho : k.delegated true i = k.csr.mideleg.getLsbD i) :
    let t := k.enterTrap true ⟨i, 0, 0⟩
    (k.csr.mideleg.getLsbD i = true → t.mode = .s ∧ t.csr.sepc = k.pc ∧ t.csr.scause = BitVec.ofNat 64 (2 ^ 63 + i) ∧ t.csr.stval = 0) ∧
    (k.csr.mideleg.getLsbD i = false → t.mode = .m ∧ t.csr.mepc = k.pc ∧ t.csr.mcause = BitVec.ofNat 64 (2 ^ 63 + i) ∧ t.csr.mtval = 0) := by
  intro t
  have cause : causeWord true i = BitVec.ofNat 64 (2 ^ 63 + i) := congrArg (BitVec.ofNat 64) (Nat.add_comm _ _)
  refine ⟨fun hd => ?_, fun hd => ?_⟩
  · have entered : t = k.enterS true ⟨i, 0, 0⟩ := if_pos (ho.trans hd)
    rw [entered]
    exact ⟨rfl, rfl, cause, rfl⟩
  · have entered : t = k.enterM true ⟨i, 0, 0⟩ := if_neg (by simp [ho, hd])
    rw [entered]
    exact ⟨rfl, rfl, cause, rfl⟩

theorem Hart.retire_mode (h : Hart) : h.retire.mode = h.mode := by rw [Hart.retire_eq]

/-- Retiring leaves what decides where a trap goes. -/
theorem Hart.delegated_retire (h : Hart) (intr : Bool) (i : Nat) : h.retire.delegated intr i = h.delegated intr i := by
  rw [Hart.delegated, Hart.retire_mode, Hart.retire_csr]
  rfl

theorem Hart.retire_mideleg (h : Hart) : h.retire.csr.mideleg = h.csr.mideleg := by rw [Hart.retire_csr]

theorem interruptEntry : Claims.InterruptEntry := by
  intro s taken
  refine ⟨fun i hi _ => ?_, fun hn => ⟨s, by simp only [exec, execInterruptEntry, hn], rfl⟩⟩
  have enters : exec .interruptEntry s = .next (s.withdraw.onHart (fun h => h.enterTrap true ⟨i, 0, 0⟩)) := by
    simp only [exec, execInterruptEntry, hi]
  have deleg := Hart.delegated_of_intOpen (State.intOpen_of_nextInt hi)
  refine ⟨fun hr => ?_, fun b l hw => ?_⟩
  · have stays : s.withdraw = s := by simp only [State.withdraw, hr]
    rw [stays] at enters
    exact ⟨_, enters, _, rfl, Hart.enterTrap_interrupt deleg⟩
  · have retires : s.withdraw = s.retire := by
      rcases hw with hw | hw <;> simp only [State.withdraw, hw]
    rw [retires] at enters
    have entry := Hart.enterTrap_interrupt (k := s.hart.retire) (i := i) (by rw [Hart.delegated_retire, deleg, Hart.retire_mideleg])
    rw [Hart.retire_mideleg] at entry
    exact ⟨_, enters, _, rfl, entry⟩

/-! ## Calls, breakpoints and returns -/

theorem environmentCallsTrap : Claims.EnvironmentCallsTrap := by
  intro s
  have call {c : Nat} (hc : ecallCause s.hart.mode = c) : Gives (.standardInstruction .ecall) s (Traps s c 0 0) :=
    gives_std (hc ▸ rfl)
  refine ⟨fun hm => call (by rw [hm]; rfl), fun hm => call (by rw [hm]; rfl), fun hm => call (by rw [hm]; rfl), fun closed => gives_std ?_,
    fun hd hb => gives_std ?_, fun w => gives_std rfl⟩
  · have noHalt : ¬((s.debugOpen && s.hart.ebreakHalts) = true) := by
      rcases closed with hc | hc <;> simp [hc]
    exact if_neg noHalt
  · have halts : s.std .ebreak = s.onHart (fun h => h.debugEnter 1) := if_pos (by simp [hd, hb])
    rw [halts]
    refine ⟨rfl, rfl, rfl, ?_, ?_⟩
    · exact (wfield_wput_outside _ _ (by decide) (by decide)).trans (wfield_wput_same _ (by decide) 1)
    · exact (wfield_wput_same _ (by decide) _).trans s.hart.mode.code_mod

/-- What the return from an M-mode handler makes of mstatus: MIE, MPIE, MPP and, below M mode, MPRV. -/
theorem Hart.getLsbD_mret_mstatus (h : Hart) (b : Nat) : h.mret.csr.mstatus.getLsbD b =
    if b = 17 ∧ h.mret.mode ≠ .m then false else if 11 ≤ b ∧ b < 11 + 2 then (0 : Nat).testBit (b - 11)
    else if b = 7 then true else if b = 3 then h.csr.mstatus.getLsbD 7 else h.csr.mstatus.getLsbD b := by
  have unstacked : (wput (wputb (wputb h.csr.mstatus 3 (wbit h.csr.mstatus 7)) 7 true) 11 2 0).getLsbD b =
      if 11 ≤ b ∧ b < 11 + 2 then (0 : Nat).testBit (b - 11)
      else if b = 7 then true else if b = 3 then h.csr.mstatus.getLsbD 7 else h.csr.mstatus.getLsbD b := by
    rw [getLsbD_wput _ (by decide), getLsbD_wputb _ (by decide), getLsbD_wputb _ (by decide), wbit]
  by_cases hm : h.mret.mode = .m
  · have kept : h.mret.csr.mstatus = wput (wputb (wputb h.csr.mstatus 3 (wbit h.csr.mstatus 7)) 7 true) 11 2 0 := if_pos hm
    have stays : ¬(b = 17 ∧ h.mret.mode ≠ .m) := fun e => e.2 hm
    rw [kept, unstacked, if_neg stays]
  · have cleared : h.mret.csr.mstatus = wputb (wput (wputb (wputb h.csr.mstatus 3 (wbit h.csr.mstatus 7)) 7 true) 11 2 0) 17 false := if_neg hm
    rw [cleared, getLsbD_wputb _ (by decide), unstacked]
    by_cases hb : b = 17
    · rw [if_pos hb, if_pos ⟨hb, hm⟩]
    · have stays : ¬(b = 17 ∧ h.mret.mode ≠ .m) := fun e => hb e.1
      rw [if_neg hb, if_neg stays]

/-- What the return from an S-mode handler makes of mstatus: SIE, SPIE, SPP and MPRV. -/
theorem Hart.getLsbD_sret_mstatus (h : Hart) (b : Nat) : h.sret.csr.mstatus.getLsbD b =
    if b = 17 then false else if b = 8 then false else if b = 5 then true else if b = 1 then h.csr.mstatus.getLsbD 5
    else h.csr.mstatus.getLsbD b := by
  simp only [Hart.sret, getLsbD_wputb _ (show 1 < 64 by decide), getLsbD_wputb _ (show 5 < 64 by decide),
    getLsbD_wputb _ (show 8 < 64 by decide), getLsbD_wputb _ (show 17 < 64 by decide), wbit]

theorem Hart.wfield_mret_mpp (h : Hart) : wfield h.mret.csr.mstatus 11 2 = 0 := by
  refine Nat.eq_of_testBit_eq fun i => ?_
  rw [testBit_wfield, Nat.zero_testBit]
  by_cases hi : i < 2
  · rw [Hart.getLsbD_mret_mstatus, if_neg (by omega), if_pos (by omega), Nat.zero_testBit, Bool.and_false]
  · simp [hi]

theorem Priv.ofCode_eq_u (n : Nat) : Priv.ofCode n = .u ↔ n = 0 := by
  rcases n with _ | _ | n <;> simp [Priv.ofCode]

theorem Priv.ofCode_eq_s (n : Nat) : Priv.ofCode n = .s ↔ n = 1 := by
  rcases n with _ | _ | n <;> simp [Priv.ofCode]

theorem trapReturn : Claims.TrapReturn := by
  intro s h back
  have mret : exec (.xret true) s = if h.mode = .m then .next (s.onHart Hart.mret) else .next s.illegal := rfl
  have sret : exec (.xret false) s =
      if (h.mode = .m || (h.mode = .s && !wbit h.csr.mstatus 22)) = true then .next (s.onHart Hart.sret) else .next s.illegal := rfl
  refine ⟨fun hm => ?_, fun hm => ?_, fun hl => ?_, fun hl => ?_⟩
  · refine ⟨_, mret.trans (if_pos hm), h.mret, rfl, rfl, rfl, Priv.ofCode_eq_u _, Priv.ofCode_eq_s _, h.getLsbD_mret_mstatus 3,
      h.getLsbD_mret_mstatus 7, h.wfield_mret_mpp, fun below => ?_⟩
    rw [h.getLsbD_mret_mstatus 17, if_pos ⟨rfl, below⟩]
  · exact State.gives_illegal (mret.trans (if_neg hm))
  · refine ⟨_, sret.trans (if_pos (by simpa [wbit] using hl)), h.sret, rfl, rfl, rfl, fun spp => if_pos spp, fun spp => if_neg (Bool.eq_false_iff.mp spp),
      h.getLsbD_sret_mstatus 1, h.getLsbD_sret_mstatus 5, h.getLsbD_sret_mstatus 8, h.getLsbD_sret_mstatus 17⟩
  · refine State.gives_illegal (sret.trans (if_neg ?_))
    rcases hl with hu | ⟨hs, tsr⟩
    · simp [hu]
    · simp [hs, wbit, tsr]

/-- Settles O15, by what entry to each mode's handler writes, and by the interrupt that is open to the hart. -/
theorem trapsInterruptsAndReturns : Obligations.TrapsInterruptsAndReturns :=
  ⟨trapEntry, interruptEntry, environmentCallsTrap, trapReturn⟩

end Sys2Proof.Machine
end

section
/-! SUPPORT. `hexit`, `cont` and the start of a continuation (R84, R85, R88). -/
namespace Sys2Proof.Machine
set_option Elab.async false
open Sys2Proof.Safety

/-! ## Harts and their places -/

@[simp] theorem State.hartOf_gid (s : State) (g : Nat) : (s.hartOf g).gid = g := by
  unfold State.hartOf
  split_ifs with h
  · exact h.symm
  · rfl

/-- Of a machine, putting a hart changes the focused hart and the parked ones. -/
theorem State.putHart_eq (s : State) (h : Hart) : s.putHart h = { s with hart := (s.putHart h).hart, parked := (s.putHart h).parked } := by
  unfold State.putHart
  split_ifs <;> rfl

/-- Whatever hart is put, the focused place is the same. -/
@[simp] theorem State.putHart_hart_gid (s : State) (h : Hart) : (s.putHart h).hart.gid = s.hart.gid := by
  unfold State.putHart
  split_ifs with hg
  · exact hg
  · rfl
  · rfl

theorem State.putHart_focus (s : State) {h : Hart} (hg : h.gid = s.hart.gid) : s.putHart h = { s with hart := h } := if_pos hg

@[simp] theorem State.modHart_hart_gid (s : State) (g : Nat) (f : Hart → Hart) : (s.modHart g f).hart.gid = s.hart.gid :=
  s.putHart_hart_gid _

theorem Hart.with_gid {h : Hart} {g : Nat} (hg : h.gid = g) : ({ h with gid := g } : Hart) = h := by
  subst hg
  rfl

/-- A place whose hart changes and keeps its id. -/
theorem State.hartOf_modHart_kept {s : State} {g : Nat} {f : Hart → Hart} (hg : (f (s.hartOf g)).gid = g)
    (hr : (f (s.hartOf g)).run ≠ .vacant) : (s.modHart g f).hartOf g = f (s.hartOf g) := by
  rw [State.hartOf_modHart_self s g f hr, Hart.with_gid hg]

/-- The teams, the launches and the stores so far: what a new hart takes from the machine. -/
def State.roster (s : State) : List Team × List Launch × Nat := (s.teams, s.launches, s.wlog.length)

theorem State.launchOf_of_roster {s t : State} (h : s.roster = t.roster) (n : Nat) : s.launchOf n = t.launchOf n := by
  have teams : s.teams = t.teams := congrArg Prod.fst h
  have launches : s.launches = t.launches := congrArg (fun r => r.2.1) h
  simp only [State.launchOf, State.team, State.launch, teams, launches]

@[simp] theorem State.roster_putHart (s : State) (h : Hart) : (s.putHart h).roster = s.roster := by rw [State.putHart_eq]; rfl

/-! ## Leaving the domains -/

/-- What no change of a domain touches, leaving domains leaves as it is. -/
theorem State.leaveDoms_keeps {γ : Type} (π : State → γ) (hπ : ∀ s d, π (s.setDom d) = π s) (s : State) (g : Nat) (keys : List DomKey) :
    π (s.leaveDoms g keys) = π s := by
  have leaves (s : State) (d : Dom) : π (s.leaveDom d [g]) = π s := by
    simp only [State.leaveDom]
    split_ifs <;> exact hπ _ _
  refine foldl_keeps π (fun s k => ?_) keys s
  cases s.domGet k with
  | none => rfl
  | some d => exact leaves s d

/-! ## A hart goes -/

theorem State.release_hart_gid (s : State) (g : Nat) : (s.release g).hart.gid = s.hart.gid := by
  rw [State.release, State.modHart_hart_gid, State.hart_publish_perform]

theorem State.mtxRelease_hart_gid (s : State) (c j : Nat) : (s.mtxRelease c j).hart.gid = s.hart.gid := by
  unfold State.mtxRelease
  split
  · rfl
  · exact State.modHart_hart_gid _ _ _

theorem State.freeMutexes_hart_gid (s : State) (g : Nat) : (s.freeMutexes g).hart.gid = s.hart.gid :=
  foldl_keeps (fun s => s.hart.gid) (fun s j => s.mtxRelease_hart_gid _ j) _ s

theorem State.writeBackOwned_hart (s : State) (c : Nat) : (s.writeBackOwned c).hart = s.hart :=
  foldl_keeps State.hart (fun s ln => State.hart_of_heldBack (s.heldBack_recall ln)) _ s

theorem State.dropSenders_hart_gid (s : State) (g : Nat) : (s.dropSenders g).hart.gid = s.hart.gid := by
  refine foldl_keeps (fun s => s.hart.gid) (fun s m => ?_) _ s
  exact State.modHart_hart_gid _ _ _

theorem State.lastGone_hart (s : State) (n : Nat) : (s.lastGone n).hart = s.hart := by
  unfold State.lastGone
  split_ifs <;> rfl

/-- The focused hart goes and leaves its place to `left`. -/
theorem State.hart_goes {s : State} {g : Nat} {left : Hart} (keep : Option DomKey) (hg : left.gid = s.hart.gid) :
    (s.goes g left keep).hart = left := by
  unfold State.goes
  dsimp only
  rw [State.lastGone_hart, State.leaveDoms_keeps State.hart (fun _ _ => rfl), State.putHart_focus]
  rw [hg]
  have place : ((((s.release g).writeBackOwned (gidCore g)).freeMutexes g).dropSenders g).hart.gid = s.hart.gid := by
    rw [State.dropSenders_hart_gid, State.freeMutexes_hart_gid, State.writeBackOwned_hart, State.release_hart_gid]
  split_ifs <;> exact place.symm

/-! ## A new hart -/

/-- The place of a created hart: what its launch and its creator give. -/
theorem State.hartOf_createHart (s : State) (g team role num alloc : Nat) (pc x10 x11 : Word) :
    (s.createHart g team role num alloc pc x10 x11).hartOf g =
      { (s.launchOf team).newHart g team role num alloc pc x10 x11 with fenceSeq := s.wlog.length } := by
  have ready : ({ (s.launchOf team).newHart g team role num alloc pc x10 x11 with fenceSeq := s.wlog.length } : Hart).run ≠ .vacant := by
    rw [Launch.newHart_eq]; exact nofun
  have place : ({ (s.launchOf team).newHart g team role num alloc pc x10 x11 with fenceSeq := s.wlog.length } : Hart).gid = g := by
    rw [Launch.newHart_eq]; rfl
  have put := State.hartOf_putHart_self s _ ready
  rwa [place] at put

/-- A hart that is born after its launch has expired stands in wrap-up (R354). -/
theorem State.hartOf_bornInWrap (s : State) (g team : Nat) (hr : (s.hartOf g).run ≠ .vacant) :
    (s.bornInWrap g team).hartOf g = if s.expired team then (s.hartOf g).enterWrap 3 (s.hartOf g).pc else s.hartOf g := by
  unfold State.bornInWrap State.expired
  split_ifs
  · have entered : ((s.modHart g (fun h => h.enterWrap 3 h.pc)).modTeam team (fun t => { t with wrapped := true })).hartOf g =
        (s.modHart g (fun h => h.enterWrap 3 h.pc)).hartOf g := rfl
    rw [entered, State.hartOf_modHart_kept (s.hartOf_gid g) hr]
  · rfl

/-- A created hart, in wrap-up where its launch has expired: the values of a new hart but for those that wrap-up gives. -/
theorem State.hartOf_born {s t : State} (hs : t.roster = s.roster) (g team role num alloc : Nat) (pc x10 x11 : Word) :
    ∃ wpc wcause, ((t.createHart g team role num alloc pc x10 x11).bornInWrap g team).hartOf g =
      { (s.launchOf team).newHart g team role num alloc pc x10 x11 with
        fenceSeq := s.wlog.length, wrapup := s.expired team, wpc := wpc, wcause := wcause } := by
  have seq : t.wlog.length = s.wlog.length := congrArg (fun r => r.2.2) hs
  have created := t.hartOf_createHart g team role num alloc pc x10 x11
  rw [State.launchOf_of_roster hs, seq, Launch.newHart_eq] at created
  have ready : ((t.createHart g team role num alloc pc x10 x11).hartOf g).run ≠ .vacant := by rw [created]; exact nofun
  have expired : (t.createHart g team role num alloc pc x10 x11).expired team = s.expired team := by
    have same : (t.createHart g team role num alloc pc x10 x11).roster = s.roster := (State.roster_putHart _ _).trans hs
    rw [State.expired, State.expired, State.launchOf_of_roster same]
  rw [State.hartOf_bornInWrap _ _ _ ready, expired, created, Launch.newHart_eq]
  cases s.expired team with
  | false => exact ⟨_, _, rfl⟩
  | true => exact ⟨_, _, rfl⟩

/-! ## Exits -/

theorem State.hart_exits (s : State) : (s.exits s.hart.gid).hart = Hart.fresh s.hart.gid :=
  State.hart_goes none rfl

theorem State.notM_below {s : State} (k : State) (hm : s.hart.mode ≠ .m) : s.notM k = k := if_neg hm

theorem State.notM_machine {s : State} (k : State) (hm : s.hart.mode = .m) : s.notM k = s.illegal := if_pos hm

/-! ## Continuations -/

/-- What `cont` leaves in the place. -/
theorem State.contPlace_eq (s : State) (h : Hart) (ev : ContEvent) (pc : Word) : ∃ k : Hart, s.contPlace h ev pc = k.setX 10 (h.getX 10) ∧
    k.gid = h.gid ∧ k.run = .cont ev ∧ k.pc = pc ∧ k.team = h.team ∧ k.role = h.role ∧ k.num = h.num ∧
    k.lalloc = (s.launchOf h.team).roleAlloc h.role :=
  ⟨_, rfl, rfl, rfl, rfl, rfl, rfl, rfl, rfl⟩

theorem State.gid_contPlace (s : State) (h : Hart) (ev : ContEvent) (pc : Word) : (s.contPlace h ev pc).gid = h.gid := by
  obtain ⟨k, hk, hg, -⟩ := s.contPlace_eq h ev pc
  rw [hk, Hart.setX_eq, hg]

/-- A place that waits for its event, for the hart `h` of the machine. -/
theorem State.contPlace_spec (s : State) (h : Hart) (ev : ContEvent) (pc : Word) {t : State} (ht : t.hart = s.contPlace h ev pc) :
    t.hart.gid = h.gid ∧ t.hart.run = .cont ev ∧ t.hart.pc = pc ∧ t.hart.getX 10 = h.getX 10 ∧ t.hart.team = h.team ∧
      t.hart.role = h.role ∧ t.hart.num = h.num ∧ t.hart.lalloc = (s.launchOf h.team).roleAlloc h.role := by
  obtain ⟨k, hk, hgid, hrun, hpc, hteam, hrole, hnum, halloc⟩ := s.contPlace_eq h ev pc
  rw [ht, hk, Hart.getX_setX, if_pos ⟨rfl, by decide⟩, Hart.setX_eq]
  exact ⟨hgid, hrun, hpc, rfl, hteam, hrole, hnum, halloc⟩

/-- The event that `cont` names, from its event word. -/
def State.contEventOf (s : State) (w : Word) : Option ContEvent := contEvent (fun c => (s.codeDom c).map Dom.key) w

section
variable {s : State} {rs1 rs2 : XReg} (hm : s.hart.mode ≠ .m)
include hm

theorem exec_cont_illegal (he : s.contEventOf (s.hart.getX rs1) = none) : exec (.cont rs1 rs2) s = .next s.illegal := by
  have event : contEvent (fun c => (s.codeDom c).map Dom.key) (s.getX rs1) = none := he
  simp only [exec, execCont, event, State.notM_below _ hm]

theorem exec_cont_event {ev : ContEvent} (he : s.contEventOf (s.hart.getX rs1) = some ev) (hb : ∀ k, ev ≠ .barrier k) :
    exec (.cont rs1 rs2) s = .next (s.goes s.hart.gid (s.contPlace s.hart ev (s.getX rs2)) none) := by
  have event : contEvent (fun c => (s.codeDom c).map Dom.key) (s.getX rs1) = some ev := he
  cases ev with
  | barrier k => exact absurd rfl (hb k)
  | copy _ | query _ | counter _ _ => simp only [exec, execCont, event, State.notM_below _ hm]

theorem exec_cont_barrier {k : DomKey} (he : s.contEventOf (s.hart.getX rs1) = some (.barrier k)) :
    exec (.cont rs1 rs2) s = .next (if !s.isMember (s.dom k) then s.illegal
      else if (s.dom k).c s.hart.gid = 2 then s.wait (.barrier k false)
      else (s.arrive (s.dom k)).goes s.hart.gid (s.contPlace s.hart (.barrier k) (s.getX rs2)) (some k)) := by
  have event : contEvent (fun c => (s.codeDom c).map Dom.key) (s.getX rs1) = some (.barrier k) := he
  simp only [exec, execCont, event, State.notM_below _ hm]

end

theorem State.arrive_hart_gid (s : State) (d : Dom) : (s.arrive d).hart.gid = s.hart.gid := s.release_hart_gid _

theorem exitAndContinue : Claims.ExitAndContinue := by
  intro rs1 rs2 ev s h event
  refine ⟨fun hm => ⟨?_, fun he hk => ?_, fun he => ?_, fun k he => ⟨fun out => ?_, fun mem two hr => ?_⟩⟩, fun hm => ⟨?_, ?_⟩⟩
  · exact ⟨_, congrArg Host.Outcome.next (State.notM_below _ hm), s.hart_exits⟩
  · by_cases hb : ∃ k, ev = .barrier k
    · obtain ⟨k, rfl⟩ := hb
      obtain ⟨mem, more⟩ := hk k rfl
      have goes := exec_cont_barrier (rs2 := rs2) hm he
      rw [mem, if_neg more] at goes
      exact ⟨_, goes, s.contPlace_spec _ _ _ (State.hart_goes _ ((s.gid_contPlace _ _ _).trans (s.arrive_hart_gid _).symm))⟩
    · exact ⟨_, exec_cont_event hm he (fun k hk => hb ⟨k, hk⟩), s.contPlace_spec _ _ _ (State.hart_goes _ (s.gid_contPlace _ _ _))⟩
  · exact State.gives_illegal (exec_cont_illegal hm he)
  · have refused := exec_cont_barrier (rs2 := rs2) hm he
    rw [out] at refused
    exact State.gives_illegal refused
  · have waits := exec_cont_barrier (rs2 := rs2) hm he
    rw [mem, if_pos two] at waits
    exact ⟨_, waits, State.wait_of_ready _ hr⟩
  · exact State.gives_illegal (congrArg Host.Outcome.next (State.notM_machine _ hm))
  · exact State.gives_illegal (congrArg Host.Outcome.next (State.notM_machine _ hm))

/-- The place of a continuation as its hart is created in it: empty, and out of every domain. -/
def State.cleared (s : State) (g : Nat) (ev : ContEvent) : State :=
  (((s.acquire g (contScope (s.hartOf g) ev)).orphan g).putHart (Hart.fresh g)).leaveDoms g (s.memberOf g)

theorem State.roster_cleared (s : State) (g : Nat) (ev : ContEvent) : (s.cleared g ev).roster = s.roster := by
  unfold State.cleared
  rw [State.leaveDoms_keeps State.roster (fun _ _ => rfl), State.roster_putHart, State.acquire_eq]
  rfl

/-- A continuation that starts is a hart that is born: in wrap-up where its launch has expired. -/
theorem State.startCont_born (s : State) (g : Nat) (ev : ContEvent) :
    let p := s.hartOf g
    s.startCont g ev (if s.expired p.team then 3 else 0) =
      ((s.cleared g ev).createHart g p.team p.role p.num p.lalloc p.pc (p.getX 10) 0).bornInWrap g p.team := by
  intro p
  cases he : s.expired p.team with
  | true => rfl
  | false =>
    have same : ((s.cleared g ev).createHart g p.team p.role p.num p.lalloc p.pc (p.getX 10) 0).roster = s.roster :=
      (State.roster_putHart _ _).trans (s.roster_cleared g ev)
    have running : ((s.cleared g ev).createHart g p.team p.role p.num p.lalloc p.pc (p.getX 10) 0).expired p.team = false := by
      rw [State.expired, State.launchOf_of_roster same]
      exact he
    exact (if_neg (Bool.eq_false_iff.mp running)).symm

theorem continuationStarts : Claims.ContinuationStarts := by
  intro ev s p hr hd ht
  have starts : exec .continuationStart s = .next (s.startCont s.sel ev (if s.expired p.team then 3 else 0)) := by
    have due : (s.contDone p ev && (s.team p.team).phase == .running) = true := by simp [hd, ht]
    simp only [exec, execContinuationStart]
    rw [hr]
    exact if_pos due
  obtain ⟨wpc, wcause, born⟩ := State.hartOf_born (s.roster_cleared s.sel ev) s.sel p.team p.role p.num p.lalloc p.pc (p.getX 10) 0
  refine ⟨_, starts.trans (congrArg Host.Outcome.next (s.startCont_born s.sel ev)), ?_⟩
  dsimp only
  rw [born]
  have arguments := (s.launchOf p.team).newHart_getX s.sel p.team p.role p.num p.lalloc p.pc (p.getX 10) 0
  rw [Launch.newHart_eq] at arguments ⊢
  exact ⟨rfl, rfl, arguments 10, arguments 11, rfl, rfl, rfl⟩

/-- Settles O18, by what the place holds when a hart goes and when one is created in it. -/
theorem exitAndContinuation : Obligations.ExitAndContinuation := ⟨exitAndContinue, continuationStarts⟩

end Sys2Proof.Machine
end

section
/-! SUPPORT. `spawn` and the pool of lane registers (R66, R67, R84, R87, R89). -/
namespace Sys2Proof.Machine
set_option Elab.async false
open Sys2Proof.Safety

/-- What a file holds under the keys that a filter keeps. -/
theorem fget_filter {β : Type} (d : β) (l : File β) (p : Nat → Bool) {k : Nat} (hk : p k = true) :
    fget d (l.filter (fun e => p e.1)) k = fget d l k := by
  induction l with
  | nil => rfl
  | cons e r ih =>
    obtain ⟨j, v⟩ := e
    by_cases hj : k = j
    · subst hj
      simp [hk, fget]
    · cases hp : p j <;> simp [hp, fget, hj, ih]

/-- Where a hart goes on, from its place and its loop registers. -/
theorem Hart.retire_pc_cases (h : Hart) (nxt : Word) (hn : nxt = h.pc + BitVec.ofNat 64 h.ilen) : h.retire.pc =
    if h.mode ≠ .u ∨ h.uiAct = true then nxt
    else if h.endsAt1 nxt ∧ h.lpcnt1 ≠ 1 then h.lpbeg1 else if h.endsAt0 nxt ∧ h.lpcnt0 ≠ 1 then h.lpbeg0 else nxt := by
  rw [Hart.retire_pc]
  by_cases untested : h.mode ≠ .u ∨ h.uiAct = true
  · rw [if_pos untested, Hart.advance_of_untested untested, hn]
  · obtain ⟨hm, hu⟩ : h.mode = .u ∧ h.uiAct = false := by simpa using untested
    rw [if_neg untested]
    by_cases back : h.endsAt1 nxt ∧ h.lpcnt1 ≠ 1
    · rw [if_pos back, Hart.advance_back1 hm hu hn back]
    · rw [if_neg back, Hart.advance_test0 hm hu hn back]

/-- The x registers have no part in it. -/
theorem Hart.retire_pc_withX (h : Hart) (y : File Word) : ({ h with x := y } : Hart).retire.pc = h.retire.pc := by
  rw [Hart.retire_pc_cases _ _ rfl, Hart.retire_pc_cases h _ rfl]

@[simp] theorem Hart.retire_pc_setX (h : Hart) (r : XReg) (v : Word) : (h.setX r v).retire.pc = h.retire.pc := by
  rw [Hart.setX_eq, Hart.retire_pc_withX]

@[simp] theorem Hart.getX_retire (h : Hart) (r : XReg) : h.retire.getX r = h.getX r := by
  rw [Hart.getX, Hart.retire_x, Hart.getX]

/-! ## Another place -/

theorem State.putHart_hart_ne (s : State) {h : Hart} (hg : h.gid ≠ s.hart.gid) : (s.putHart h).hart = s.hart := by
  unfold State.putHart
  rw [if_neg hg]
  split_ifs <;> rfl

theorem State.modHart_hart_ne (s : State) {g : Nat} (f : Hart → Hart) (hg : g ≠ s.hart.gid) : (s.modHart g f).hart = s.hart :=
  s.putHart_hart_ne hg

theorem State.createHart_hart_ne (s : State) {g : Nat} (team role num alloc : Nat) (pc x10 x11 : Word) (hg : g ≠ s.hart.gid) :
    (s.createHart g team role num alloc pc x10 x11).hart = s.hart := by
  refine s.putHart_hart_ne ?_
  rw [Launch.newHart_eq]
  exact hg

theorem State.bornInWrap_hart_ne (s : State) {g : Nat} (team : Nat) (hg : g ≠ s.hart.gid) : (s.bornInWrap g team).hart = s.hart := by
  unfold State.bornInWrap
  split_ifs
  · exact s.modHart_hart_ne _ hg
  · rfl

/-- A change of the focused hart that keeps its id leaves every other place. -/
theorem State.hartOf_onHart_ne (s : State) {f : Hart → Hart} {g : Nat} (hf : (f s.hart).gid = s.hart.gid) (hg : g ≠ s.hart.gid) :
    (s.onHart f).hartOf g = s.hartOf g := by
  have other : ¬g = (s.onHart f).hart.gid := fun e => hg (e.trans hf)
  rw [State.hartOf, State.hartOf, if_neg other, if_neg hg]
  rfl

theorem Hart.gid_retire (h : Hart) : h.retire.gid = h.gid := by rw [Hart.retire_eq]

theorem Hart.gid_setX (h : Hart) (r : XReg) (v : Word) : (h.setX r v).gid = h.gid := by rw [Hart.setX_eq]

/-! ## `spawn` -/

/-- A place that is free is vacant. -/
theorem State.vacant_of_freePlace {s : State} {c g : Nat} (hf : s.freePlace c = some g) : (s.hartOf g).run = .vacant := by
  unfold State.freePlace at hf
  split at hf
  next => cases hf
  next => simpa using List.find?_some hf

/-- The machine after `spawn` has created the hart of place `g`, before it writes rd. -/
def State.spawned (s : State) (g alloc : Nat) (pc x10 : Word) : State :=
  (((s.takeGran g alloc).createHart g s.hart.team s.hart.role (s.freeNum s.hart.team) alloc pc x10 0).bornInWrap g s.hart.team).modHart g
    (fun n => { n with run := .starting })

section
variable {s : State} {g : Nat}

theorem State.hart_spawned (hg : g ≠ s.hart.gid) (alloc : Nat) (pc x10 : Word) : (s.spawned g alloc pc x10).hart = s.hart := by
  have created : ((s.takeGran g alloc).createHart g s.hart.team s.hart.role (s.freeNum s.hart.team) alloc pc x10 0).hart = s.hart :=
    State.createHart_hart_ne _ _ _ _ _ _ _ _ hg
  have born : (((s.takeGran g alloc).createHart g s.hart.team s.hart.role (s.freeNum s.hart.team) alloc pc x10 0).bornInWrap g
      s.hart.team).hart = s.hart := (State.bornInWrap_hart_ne _ _ (by rw [created]; exact hg)).trans created
  exact (State.modHart_hart_ne _ _ (by rw [born]; exact hg)).trans born

/-- The created hart, which may issue once it is eligible. -/
theorem State.hartOf_spawned (s : State) (g alloc : Nat) (pc x10 : Word) : ∃ wpc wcause, (s.spawned g alloc pc x10).hartOf g =
    { (s.launchOf s.hart.team).newHart g s.hart.team s.hart.role (s.freeNum s.hart.team) alloc pc x10 0 with
      run := .starting, fenceSeq := s.wlog.length, wrapup := s.expired s.hart.team, wpc := wpc, wcause := wcause } := by
  obtain ⟨wpc, wcause, born⟩ := State.hartOf_born (s := s) (t := s.takeGran g alloc) rfl g s.hart.team s.hart.role
    (s.freeNum s.hart.team) alloc pc x10 0
  refine ⟨wpc, wcause, ?_⟩
  rw [State.spawned, State.hartOf_modHart_kept (State.hartOf_gid _ _) (show Run.starting ≠ .vacant from nofun), born]

end

theorem State.spawn_none {s : State} (rd rs1 rs2 : XReg) (hm : s.hart.mode ≠ .m)
    (no : ¬((s.teamPlaces s.hart.team).length < 32 ∧ s.canAlloc s.coreNo ((s.launchOf s.hart.team).roleAlloc s.hart.role) = true) ∨
      s.freePlace s.coreNo = none) :
    exec (.spawn rd rs1 rs2) s = .next (s.setX rd 0xFFFFFFFFFFFFFFFF#64).retire := by
  simp only [exec, execSpawn, State.notM_below _ hm]
  by_cases full : 32 ≤ (s.teamPlaces s.hart.team).length
  · rw [if_pos full]
  · rw [if_neg full]
    cases place : s.freePlace s.coreNo with
    | none => rfl
    | some g =>
      have noAlloc : s.canAlloc s.coreNo ((s.launchOf s.hart.team).roleAlloc s.hart.role) = false := by
        rcases no with no | no
        · exact Bool.eq_false_iff.mpr fun yes => no ⟨by omega, yes⟩
        · rw [place] at no; cases no
      simp only [noAlloc]
      rfl

theorem State.spawn_creates {s : State} {g : Nat} (rd rs1 rs2 : XReg) (hm : s.hart.mode ≠ .m)
    (seat : (s.teamPlaces s.hart.team).length < 32) (room : s.canAlloc s.coreNo ((s.launchOf s.hart.team).roleAlloc s.hart.role) = true)
    (place : s.freePlace s.coreNo = some g) :
    exec (.spawn rd rs1 rs2) s = .next (((s.spawned g ((s.launchOf s.hart.team).roleAlloc s.hart.role) (s.hart.getX rs1)
      (s.hart.getX rs2)).setX rd (BitVec.ofNat 64 g)).retire) := by
  simp only [exec, execSpawn, State.notM_below _ hm]
  rw [if_neg (by omega)]
  simp only [place, room]
  rfl

theorem spawnCreatesHart : Claims.SpawnCreatesHart := by
  intro rd rs1 rs2 g s h alloc free
  refine ⟨fun hm hfree place hr => ?_, fun hm no => ?_, fun hm => ?_, fun hs => ?_⟩
  · have vacant := State.vacant_of_freePlace place
    have other : g ≠ s.hart.gid := by
      rintro rfl
      rw [State.hartOf_focus] at vacant
      rw [show h.run = .vacant from vacant] at hr
      cases hr
    obtain ⟨wpc, wcause, born⟩ := s.hartOf_spawned g alloc (h.getX rs1) (h.getX rs2)
    have here := State.hart_spawned other alloc (h.getX rs1) (h.getX rs2)
    refine ⟨_, State.spawn_creates rd rs1 rs2 hm hfree.1 hfree.2 place, ?_⟩
    have writes : (((s.spawned g alloc (h.getX rs1) (h.getX rs2)).setX rd (BitVec.ofNat 64 g)).retire).hart =
        (h.setX rd (BitVec.ofNat 64 g)).retire := congrArg (fun k => (Hart.setX k rd (BitVec.ofNat 64 g)).retire) here
    have stays : (((s.spawned g alloc (h.getX rs1) (h.getX rs2)).setX rd (BitVec.ofNat 64 g)).retire).hartOf g =
        (s.spawned g alloc (h.getX rs1) (h.getX rs2)).hartOf g :=
      State.hartOf_onHart_ne (s.spawned g alloc (h.getX rs1) (h.getX rs2)) (f := fun k => (k.setX rd (BitVec.ofNat 64 g)).retire)
        (by rw [Hart.gid_retire, Hart.gid_setX]) (by rw [here]; exact other)
    have arguments := (s.launchOf h.team).newHart_getX g h.team h.role (s.freeNum h.team) alloc (h.getX rs1) (h.getX rs2) 0
    dsimp only
    rw [writes, stays, born, Hart.retire_pc_setX]
    rw [Launch.newHart_eq] at arguments ⊢
    exact ⟨rfl, fun r => (Hart.getX_retire _ _).trans (Hart.getX_setX _ _ _ _), rfl, rfl, rfl, rfl, rfl, arguments 10, rfl⟩
  · exact ⟨_, State.spawn_none rd rs1 rs2 hm no, h.setX rd 0xFFFFFFFFFFFFFFFF#64, rfl, Hart.xWritten_setX _ _ _⟩
  · exact State.gives_illegal (congrArg Host.Outcome.next (State.notM_machine _ hm))
  · refine ⟨_, if_pos hs, State.hartOf_modHart_kept (s.hartOf_gid _) (show Run.ready ≠ .vacant from nofun)⟩

/-! ## The pool -/

/-- Taking granules changes the granules of one core alone. -/
theorem State.core_takeGran (s : State) (g n c : Nat) : (s.takeGran g n).core c = { s.core c with gran := ((s.takeGran g n).core c).gran } := by
  simp only [State.takeGran, State.giveGran, State.core_modCore]
  split_ifs with hc
  · rw [hc]
  · rfl

theorem State.core_modHart (s : State) (g : Nat) (f : Hart → Hart) (c : Nat) : (s.modHart g f).core c = s.core c := by
  rw [State.modHart, State.putHart_eq]
  rfl

theorem State.hartOf_modCore (s : State) (c : Nat) (f : Core → Core) (g : Nat) : (s.modCore c f).hartOf g = s.hartOf g := rfl

theorem State.hartOf_takeGran (s : State) (g n j : Nat) : (s.takeGran g n).hartOf j = s.hartOf j := rfl

/-- A ready hart begins its wait. -/
theorem State.wait_eq_of_ready {s : State} (w : Wait) (hr : s.hart.run = .ready) :
    s.wait w = s.onHart (fun k => { k with run := .waiting w, waitFrom := s.clock }) :=
  if_neg (by rw [hr]; exact nofun)

theorem mem_insertWaiter (l : List Waiter) (w e : Waiter) : e ∈ insertWaiter l w ↔ e = w ∨ e ∈ l := by
  simp only [insertWaiter, List.mem_append, List.mem_filter, List.mem_singleton, decide_eq_true_eq]
  have total := Nat.lt_or_ge e.prio w.prio
  tauto

/-- A hart whose request has been answered. -/
theorem exec_rgrow_answered {s : State} {v : Word} (rd rs1 : XReg) (hm : s.hart.mode ≠ .m) (ha : s.hart.answer = some v) :
    exec (.rgrow rd rs1) s = .next (s.setX rd v).retire := by
  simp only [exec, execRgrow, State.notM_below _ hm, ha]

section
variable {s : State} {n : Nat} (rd rs1 : XReg) (hm : s.hart.mode ≠ .m) (ha : s.hart.answer = none) (hn : n = 32 * (s.hart.getX rs1).toNat)
include hm ha hn

theorem exec_rgrow_zero (h0 : n = 0) : exec (.rgrow rd rs1) s = .next (s.setX rd (BitVec.ofNat 64 s.hart.lalloc)).retire := by
  subst hn
  simp only [exec, execRgrow, State.notM_below _ hm, ha, h0, if_true]

theorem exec_rgrow_beyond (h0 : n ≠ 0) (hb : min ((s.launchOf s.hart.team).roleBudget s.hart.role) 640 < s.hart.lalloc + n) :
    exec (.rgrow rd rs1) s = .next s.illegal := by
  subst hn
  simp only [exec, execRgrow, State.notM_below _ hm, ha, h0, if_false, hb, if_true]

theorem exec_rgrow_within (h0 : n ≠ 0) (hr : s.hart.run = .ready)
    (hb : s.hart.lalloc + n ≤ min ((s.launchOf s.hart.team).roleBudget s.hart.role) 640) :
    exec (.rgrow rd rs1) s = .next (if (s.growFirst (s.prio s.hart) && s.canAlloc s.coreNo n) = true
      then (((s.takeGran s.hart.gid n).onHart (fun h => { h with lalloc := h.lalloc + n })).setX rd (BitVec.ofNat 64 (s.hart.lalloc + n))).retire
      else (s.modCore s.coreNo (fun k => { k with grow := insertWaiter k.grow ⟨s.prio s.hart, s.hart.gid⟩ })).wait (.rgrow n)) := by
  subst hn
  have noWait : s.hart.run.isWaiting = false := by rw [hr]; rfl
  simp only [exec, execRgrow, State.notM_below _ hm, ha, h0, if_false, Nat.not_lt.mpr hb, noWait]
  rfl

end

theorem exec_registerPoolGrant {s : State} {w : Waiter} {r : List Waiter} {m : Nat} (hg : (s.core (gidCore s.sel)).grow = w :: r)
    (hw : w.gid = s.sel) (hr : (s.hartOf s.sel).run = .waiting (.rgrow m)) (hc : s.canAlloc (gidCore s.sel) m = true) :
    exec .registerPoolGrant s = .next (((s.takeGran s.sel m).modCore (gidCore s.sel) (fun k => { k with grow := r })).modHart s.sel (fun h =>
      { h with lalloc := h.lalloc + m, answer := some (BitVec.ofNat 64 (h.lalloc + m)) })) := by
  simp only [exec, execRegisterPoolGrant, hg, hr]
  exact if_pos (by simp [hw, hc])

/-! ## Giving up registers -/

theorem Hart.shrinkTo_eq (h : Hart) (n : Nat) : h.shrinkTo n = { h with lalloc := n, v := (h.shrinkTo n).v } := rfl

/-- The registers below the new allocation keep their lanes. -/
theorem Hart.getV_shrinkTo (h : Hart) {n r i : Nat} (hr : r < n) (hi : i < 32) : (h.shrinkTo n).getV r i = h.getV r i :=
  fget_filter 0 h.v (fun k => decide (k < 32 * n)) (decide_eq_true (by omega))

section
variable {s : State} {n : Nat} (rs1 : XReg) (hm : s.hart.mode ≠ .m) (hn : n = 32 * (s.hart.getX rs1).toNat)
include hm hn

theorem exec_rshrink_refused (h : s.hart.lalloc < n ∨ ∃ e ∈ s.hart.strm, e.2.bound = true ∧ s.hart.lalloc - n ≤ e.2.reg) :
    exec (.rshrink rs1) s = .next s.illegal := by
  subst hn
  simp only [exec, execRshrink, State.notM_below _ hm]
  exact congrArg Host.Outcome.next (if_pos (by simpa using h))

theorem exec_rshrink_done (hl : n ≤ s.hart.lalloc) (hs : ∀ e ∈ s.hart.strm, e.2.bound = true → e.2.reg < s.hart.lalloc - n) :
    exec (.rshrink rs1) s = .next (s.onHart (fun h => h.shrinkTo (h.lalloc - n))).retire := by
  subst hn
  have allowed : ¬((decide (s.hart.lalloc < 32 * (s.hart.getX rs1).toNat) ||
      s.hart.strm.any (fun e => e.2.bound && decide (s.hart.lalloc - 32 * (s.hart.getX rs1).toNat ≤ e.2.reg))) = true) := by
    simp only [Bool.or_eq_true, decide_eq_true_eq, List.any_eq_true, Bool.and_eq_true]
    rintro (few | ⟨e, he, hb, hr⟩)
    · omega
    · exact absurd (hs e he hb) (Nat.not_lt.mpr hr)
  simp only [exec, execRshrink, State.notM_below _ hm]
  exact congrArg Host.Outcome.next (if_neg allowed)

end

theorem laneRegisterPool : Claims.LaneRegisterPool := by
  intro rd rs1 s h n most
  refine ⟨fun hm ha => ⟨fun h0 => ?_, fun h0 hr hb => ⟨fun first room => ?_, fun no => ?_⟩, fun h0 hb => ?_⟩, fun hm v ha => ?_,
    fun w r m hg hw hr hc => ?_, fun hm hl hs => ?_, fun hm hl => ?_, fun hm => ⟨?_, ?_⟩⟩
  · exact ⟨_, exec_rgrow_zero rd rs1 hm ha rfl h0, s.retires_writeX rd _⟩
  · have grants := exec_rgrow_within rd rs1 hm ha rfl h0 hr hb
    rw [if_pos (by rw [first, room]; rfl)] at grants
    exact ⟨_, grants, _, rfl, Hart.xWritten_setX _ _ _, fun c => s.core_takeGran h.gid n c⟩
  · have waits := exec_rgrow_within rd rs1 hm ha rfl h0 hr hb
    have refused : ¬((s.growFirst (s.prio s.hart) && s.canAlloc s.coreNo n) = true) := by
      rcases no with no | no <;> simp [h, no]
    rw [if_neg refused] at waits
    refine ⟨_, waits.trans (congrArg Host.Outcome.next (State.wait_eq_of_ready _ hr)), rfl, rfl, rfl, fun w => ?_⟩
    have listed : ((s.modCore s.coreNo (fun k => { k with grow := insertWaiter k.grow ⟨s.prio s.hart, s.hart.gid⟩ })).core s.coreNo).grow =
        insertWaiter (s.core s.coreNo).grow ⟨s.prio s.hart, s.hart.gid⟩ := by rw [State.core_modCore, if_pos rfl]
    exact (iff_of_eq (congrArg (w ∈ ·) listed)).trans (mem_insertWaiter _ _ _)
  · exact State.gives_illegal (exec_rgrow_beyond rd rs1 hm ha rfl h0 hb)
  · exact ⟨_, exec_rgrow_answered rd rs1 hm ha, s.retires_writeX rd v⟩
  · refine ⟨_, exec_registerPoolGrant hg hw hr hc, ?_, ?_⟩
    · rw [State.core_modHart, State.core_modCore, if_pos rfl]
    · have waiting : (s.hartOf s.sel).run ≠ .vacant := by rw [hr]; exact nofun
      have granted := State.hartOf_modHart_kept (s := (s.takeGran s.sel m).modCore (gidCore s.sel) (fun k => { k with grow := r }))
        (g := s.sel) (f := fun h => { h with lalloc := h.lalloc + m, answer := some (BitVec.ofNat 64 (h.lalloc + m)) })
        (State.hartOf_gid _ _)
      rw [State.hartOf_modCore, State.hartOf_takeGran] at granted
      exact granted waiting
  · exact ⟨_, exec_rshrink_done rs1 hm rfl hl hs, _, rfl, h.shrinkTo_eq _, fun r i hr hi => h.getV_shrinkTo hr hi⟩
  · exact State.gives_illegal (exec_rshrink_refused rs1 hm rfl hl)
  · exact State.gives_illegal (congrArg Host.Outcome.next (State.notM_machine _ hm))
  · exact State.gives_illegal (congrArg Host.Outcome.next (State.notM_machine _ hm))

/-- Settles O19, by what the pool grants and by the place that a spawned hart takes. -/
theorem spawnAndRegisterPool : Obligations.SpawnAndRegisterPool := ⟨spawnCreatesHart, laneRegisterPool⟩

end Sys2Proof.Machine
end

section
/-! SUPPORT. User interrupts (R77, R80 to R83). -/
namespace Sys2Proof.Machine
set_option Elab.async false
open Sys2Proof.Safety

/-! ## The bank -/

/-- The exchange changes the x registers and the shadow bank alone. -/
theorem Hart.foldl_swapOne_eq (l : List Nat) (h : Hart) :
    l.foldl Hart.swapOne h = { h with x := (l.foldl Hart.swapOne h).x, shadow := (l.foldl Hart.swapOne h).shadow } := by
  induction l generalizing h with
  | nil => rfl
  | cons r rs ih =>
    rw [List.foldl_cons, ih]
    rfl

theorem Hart.swapBank_eq (h : Hart) : h.swapBank = { h with x := h.swapBank.x, shadow := h.swapBank.shadow } :=
  Hart.foldl_swapOne_eq bankRegs h

/-- What an exchange of distinct registers leaves in both files. -/
theorem Hart.fget_foldl_swapOne (l : List Nat) (hl : l.Nodup) (h : Hart) (n : Nat) :
    fget 0 (l.foldl Hart.swapOne h).x n = (if n ∈ l then fget 0 h.shadow n else fget 0 h.x n) ∧
      fget 0 (l.foldl Hart.swapOne h).shadow n = if n ∈ l then fget 0 h.x n else fget 0 h.shadow n := by
  induction l generalizing h with
  | nil => simp
  | cons r rs ih =>
    obtain ⟨out, hrs⟩ := List.nodup_cons.mp hl
    rw [List.foldl_cons, (ih hrs _).1, (ih hrs _).2]
    by_cases hn : n = r
    · subst hn
      simp [out, Hart.swapOne]
    · simp [hn, Hart.swapOne]

/-- The bank of `k` is that of `h` exchanged. -/
def Hart.Swapped (h k : Hart) : Prop :=
  (∀ q : XReg, q.toNat ∈ bankRegs → k.getX q = fget 0 h.shadow q.toNat ∧ fget 0 k.shadow q.toNat = h.getX q) ∧
    ∀ q : XReg, q.toNat ∉ bankRegs → k.getX q = h.getX q

theorem Hart.swapped_swapBank {h k : Hart} (hx : k.x = h.swapBank.x) (hs : k.shadow = h.swapBank.shadow) : h.Swapped k := by
  have files := h.fget_foldl_swapOne bankRegs (by decide)
  have reads (q : XReg) (hq : q ≠ 0) (j : Hart) : j.getX q = fget 0 j.x q.toNat := if_neg hq
  refine ⟨fun q hq => ?_, fun q hq => ?_⟩
  · have ne : q ≠ 0 := by rintro rfl; revert hq; decide
    rw [reads q ne, reads q ne, hx, hs]
    exact ⟨(files q.toNat).1.trans (if_pos hq), (files q.toNat).2.trans (if_pos hq)⟩
  · by_cases ne : q = 0
    · rw [Hart.getX, Hart.getX, if_pos ne, if_pos ne]
    · rw [reads q ne, reads q ne, hx]
      exact (files q.toNat).1.trans (if_neg hq)

/-! ## The queue -/

theorem Hart.cnt_decCnt (h : Hart) (c : Nat) : (h.decCnt c).cnt c = h.cnt c - 1 := by
  rcases c with _ | _ | _ | c <;> rfl

/-- The counter of an event falls, and nothing else of the hart changes. -/
theorem Hart.decCnt_eq (h : Hart) (c : Nat) : h.decCnt c =
    { h with cnt0 := (h.decCnt c).cnt0, cnt1 := (h.decCnt c).cnt1, cnt2 := (h.decCnt c).cnt2, cnt3 := (h.decCnt c).cnt3 } := by
  rcases c with _ | _ | _ | c <;> rfl

/-- The end of an event that enters the queue: its counter falls. -/
def Hart.settleEvent (h : Hart) (e : UiEvent) : Hart :=
  match e.dec with
  | none => h
  | some c => h.decCnt c

theorem Hart.settleEvent_eq (h : Hart) (e : UiEvent) : h.settleEvent e = { h with
    cnt0 := (h.settleEvent e).cnt0, cnt1 := (h.settleEvent e).cnt1, cnt2 := (h.settleEvent e).cnt2, cnt3 := (h.settleEvent e).cnt3 } := by
  unfold Hart.settleEvent
  cases e.dec with
  | none => rfl
  | some c => exact h.decCnt_eq c

theorem Hart.cnt_settleEvent {h : Hart} {e : UiEvent} {c : Nat} (he : e.dec = some c) : (h.settleEvent e).cnt c = h.cnt c - 1 := by
  rw [Hart.settleEvent, he]
  exact h.cnt_decCnt c

theorem Hart.pushUi_enters {h : Hart} (e : UiEvent) (room : h.uiq.length < 16 ∧ h.uiHeld = []) :
    h.pushUi e = ({ h with uiq := h.uiq ++ [e] } : Hart).settleEvent e :=
  if_pos (by simp [room.1, room.2])

theorem Hart.pushUi_held {h : Hart} (e : UiEvent) (full : ¬(h.uiq.length < 16 ∧ h.uiHeld = [])) :
    h.pushUi e = { h with uiHeld := h.uiHeld ++ [e] } :=
  if_neg (by simpa using full)

theorem Hart.pushUi_frame (h : Hart) (e : UiEvent) : (h.pushUi e).gid = h.gid ∧ (h.pushUi e).run = h.run := by
  by_cases room : h.uiq.length < 16 ∧ h.uiHeld = []
  · rw [Hart.pushUi_enters e room, Hart.settleEvent_eq]
    exact ⟨rfl, rfl⟩
  · rw [Hart.pushUi_held e room]
    exact ⟨rfl, rfl⟩

theorem Hart.admitHeld_none {h : Hart} (hh : h.uiHeld = []) : h.admitHeld = h := by
  rw [Hart.admitHeld, hh]

theorem Hart.admitHeld_enters {h : Hart} {x : UiEvent} {q : List UiEvent} (hh : h.uiHeld = x :: q) (room : h.uiq.length < 16) :
    h.admitHeld = ({ h with uiHeld := q, uiq := h.uiq ++ [x] } : Hart).settleEvent x := by
  simp only [Hart.admitHeld, hh]
  exact if_pos room

theorem Hart.admitHeld_full {h : Hart} {x : UiEvent} {q : List UiEvent} (hh : h.uiHeld = x :: q) (full : ¬h.uiq.length < 16) :
    h.admitHeld = h := by
  simp only [Hart.admitHeld, hh]
  exact if_neg full

/-- Admitting a held event changes the queue, the held events and the counters alone. -/
theorem Hart.admitHeld_eq (h : Hart) : h.admitHeld = { h with
    uiq := h.admitHeld.uiq, uiHeld := h.admitHeld.uiHeld
    cnt0 := h.admitHeld.cnt0, cnt1 := h.admitHeld.cnt1, cnt2 := h.admitHeld.cnt2, cnt3 := h.admitHeld.cnt3 } := by
  cases hh : h.uiHeld with
  | nil => rw [Hart.admitHeld_none hh]
  | cons x q =>
    by_cases room : h.uiq.length < 16
    · rw [Hart.admitHeld_enters hh room, Hart.settleEvent_eq]
    · rw [Hart.admitHeld_full hh room]

/-! ## A wait that is withdrawn -/

/-- Waiters that are granted, none of them the focused hart, leave the focused hart as it is. -/
theorem State.hart_granted (c : Nat) (l : List SemWho) (s : State) (out : SemWho.hart s.hart.gid ∉ l) : (s.granted c l).hart = s.hart := by
  induction l generalizing s with
  | nil => rfl
  | cons w r ih =>
    obtain ⟨hw, hr⟩ := not_or.mp (mt List.mem_cons.mpr out)
    cases w with
    | hart g =>
      have other : g ≠ s.hart.gid := fun hg => hw (congrArg SemWho.hart hg.symm)
      have here : (s.modHart g Hart.retire).hart = s.hart := s.modHart_hart_ne _ other
      exact (ih _ (by rw [here]; exact hr)).trans here
    | cmd u => exact ih _ hr

/-- Who is granted was listed. -/
theorem mem_of_grantSem {w : SemWho} {l : List SemWaiter} {cnt : Nat} (hw : w ∈ (grantSem cnt l).2.2) : ∃ e ∈ l, e.who = w := by
  induction l generalizing cnt with
  | nil => cases hw
  | cons e r ih =>
    unfold grantSem at hw
    split_ifs at hw
    · rcases List.mem_cons.mp hw with he | hr
      · exact ⟨e, List.mem_cons_self, he.symm⟩
      · obtain ⟨f, hf, hfw⟩ := ih hr
        exact ⟨f, List.mem_cons_of_mem _ hf, hfw⟩
    · cases hw

/-- A hart that leaves a semaphore's list is not itself granted. -/
theorem State.hart_semLeave (s : State) (c j : Nat) : (s.semLeave c j (.hart s.hart.gid)).hart = s.hart := by
  refine State.hart_granted _ _ _ fun hw => ?_
  obtain ⟨e, he, hew⟩ := mem_of_grantSem hw
  have left := (List.mem_filter.mp he).2
  rw [hew] at left
  exact absurd left (by simp [State.modCore, State.setCore])

theorem State.hart_dropPlace {s : State} (place : Option Nat) (uid : Nat) (hr : ∀ u, s.hart.run ≠ .reserved u) :
    (s.dropPlace place uid).hart = s.hart := by
  cases place with
  | none => rfl
  | some g =>
    change (s.freeReserve g uid).hart = s.hart
    unfold State.freeReserve
    split_ifs with reserved
    · have other : g ≠ s.hart.gid := by
        rintro rfl
        rw [State.hartOf_focus] at reserved
        exact hr uid reserved
      exact s.putHart_hart_ne other
    · rfl

/-- What a withdrawn wait leaves in the lists of the machine is no change of the hart that waited. -/
theorem State.hart_dropWait {s : State} (w : Wait) (hr : ∀ u, s.hart.run ≠ .reserved u) : (s.dropWait s.hart.gid w).hart = s.hart := by
  unfold State.dropWait
  split
  · exact s.hart_semLeave _ _
  · rfl
  · rfl
  · rfl
  · rfl
  · rfl
  · exact State.hart_dropPlace _ _ hr
  · exact State.hart_dropPlace _ _ hr
  · rfl

/-- What the entry to the user-interrupt handler reads of a hart, but for its place. -/
def Hart.uiView (h : Hart) : (File Word × File Word) × (List UiEvent × List UiEvent) × Word × (Nat × Nat × Nat × Nat) :=
  ((h.x, h.shadow), (h.uiq, h.uiHeld), h.uivec, h.cnt0, h.cnt1, h.cnt2, h.cnt3)

theorem Hart.uiView_retire (h : Hart) : h.retire.uiView = h.uiView := by
  rw [Hart.retire_eq]
  rfl

theorem State.withdraw_of_retires {s : State} {w : Wait} (hw : s.hart.run = .waiting w) (hr : w.retires = true) :
    s.withdraw = s.retire := by
  unfold State.withdraw
  rw [hw]
  cases w with
  | wfi | zawrs _ _ => rfl
  | _ => cases hr

/-- The hart of a wait that is withdrawn and does not retire. -/
def Hart.leavesWait (h : Hart) (w : Wait) : Hart :=
  { (match w with
      | .barrier k true => h.markArrived k
      | _ => h) with run := .ready, obsWait := none, answer := none, results := [] }

theorem State.withdraw_of_stays {s : State} {w : Wait} (hw : s.hart.run = .waiting w) (hr : w.retires = false) :
    s.withdraw = (s.dropWait s.hart.gid w).onHart (fun h => h.leavesWait w) := by
  unfold State.withdraw
  rw [hw]
  cases w with
  | wfi | zawrs _ _ => cases hr
  | _ => rfl

theorem Hart.leavesWait_eq (h : Hart) (w : Wait) : h.leavesWait w = { h with
    barpend := (h.leavesWait w).barpend, barpc := (h.leavesWait w).barpc, run := .ready, obsWait := none, answer := none, results := [] } := by
  unfold Hart.leavesWait
  split <;> rfl

theorem State.hart_withdraw_of_stays {s : State} {w : Wait} (hw : s.hart.run = .waiting w) (hr : w.retires = false) :
    s.withdraw.hart = s.hart.leavesWait w := by
  rw [State.withdraw_of_stays hw hr, State.onHart_hart, State.hart_dropWait w (by rw [hw]; exact nofun)]

/-- A hart at a boundary that is ready, or whose wait is withdrawn. -/
theorem State.withdraw_boundary {s : State} (hb : s.hart.run = .ready ∨ ∃ w, s.hart.run = .waiting w) :
    s.withdraw.hart.uiView = s.hart.uiView ∧ s.withdraw.hart.run = .ready ∧
      ((s.hart.run = .waiting .wfi ∨ ∃ b l, s.hart.run = .waiting (.zawrs b l)) → s.withdraw.hart.pc = s.hart.retire.pc) ∧
      (s.hart.run ≠ .waiting .wfi → (∀ b l, s.hart.run ≠ .waiting (.zawrs b l)) → s.withdraw.hart.pc = s.hart.pc) := by
  rcases hb with hr | ⟨w, hw⟩
  · have stays : s.withdraw = s := by simp only [State.withdraw, hr]
    rw [stays, hr]
    refine ⟨rfl, rfl, fun hc => ?_, fun _ _ => rfl⟩
    rcases hc with hc | ⟨b, l, hc⟩ <;> cases hc
  · cases hr : w.retires with
    | true =>
      rw [State.withdraw_of_retires hw hr]
      refine ⟨s.hart.uiView_retire, by rw [State.retire, State.onHart_hart, Hart.retire_eq], fun _ => rfl, fun h1 h2 => ?_⟩
      cases w with
      | wfi => exact absurd hw h1
      | zawrs b l => exact absurd hw (h2 b l)
      | _ => cases hr
    | false =>
      rw [State.hart_withdraw_of_stays hw hr, Hart.leavesWait_eq]
      refine ⟨rfl, rfl, fun hc => ?_, fun _ _ => rfl⟩
      rw [hw] at hc
      rcases hc with hc | ⟨b, l, hc⟩ <;> cases hc <;> cases hr

/-! ## Entry to the handler -/

/-- The hart in its user-interrupt handler for event `e`, the queue being `r` after it. -/
def Hart.entersUi (h : Hart) (e : UiEvent) (r : List UiEvent) : Hart :=
  ({ h.swapBank with
    uiq := r, uiepc := h.pc, uicause := BitVec.ofNat 64 e.cause, uiid := e.ident, uiAct := true, pc := h.uiHandler e, uiUntil := 0 }).admitHeld

/-- The hart in its handler, before a held event enters the queue. -/
def Hart.inHandler (h : Hart) (x shadow : File Word) (e : UiEvent) (r : List UiEvent) : Hart :=
  { h with
    x := x, shadow := shadow, uiq := r, uiepc := h.pc, uicause := BitVec.ofNat 64 e.cause, uiid := e.ident
    uiAct := true, pc := h.uiHandler e, uiUntil := 0 }

theorem Hart.entersUi_eq (h : Hart) (e : UiEvent) (r : List UiEvent) : 
    h.entersUi e r = (h.inHandler h.swapBank.x h.swapBank.shadow e r).admitHeld := by
  rw [Hart.entersUi, Hart.swapBank_eq, Hart.inHandler]

/-- The acquire of an event that asks for one (R82). -/
def State.uiAcquired (s : State) (e : UiEvent) : State :=
  match e.acq with
  | some sc => s.acquire s.hart.gid sc
  | none => s

theorem State.uiAcquired_none (s : State) {e : UiEvent} (he : e.acq = none) : s.uiAcquired e = s := by
  rw [State.uiAcquired, he]

theorem State.hart_uiAcquired (s : State) (e : UiEvent) : (s.uiAcquired e).hart = s.hart := by
  unfold State.uiAcquired
  cases e.acq with
  | none => rfl
  | some sc => exact s.hart_acquire _ _

theorem exec_uiEntry {s : State} {e : UiEvent} {r : List UiEvent} (ho : s.uiOpen = true) (hq : s.withdraw.hart.uiq = e :: r) :
    exec .uiEntry s = .next ((s.withdraw.uiAcquired e).onHart (fun h => h.entersUi e r)) := by
  simp only [exec, execUiEntry, ho, hq]
  rfl

theorem exec_uiEntry_closed {s : State} (ho : s.uiOpen = false) : exec .uiEntry s = .next s := by
  simp only [exec, execUiEntry, ho]
  rfl

/-- What entry leaves of the queue and the held events, and of the counter of one that is admitted. -/
def Hart.Admitted (h k : Hart) (r : List UiEvent) : Prop :=
  (h.uiHeld = [] → k.uiq = r ∧ k.uiHeld = []) ∧
  ∀ x q, h.uiHeld = x :: q → if r.length < 16
    then k.uiq = r ++ [x] ∧ k.uiHeld = q ∧ ∀ c, x.dec = some c → k.cnt c = h.cnt c - 1
    else k.uiq = r ∧ k.uiHeld = x :: q

theorem Hart.admitted_admitHeld {h j : Hart} (hh : j.uiHeld = h.uiHeld) (hc : ∀ c, j.cnt c = h.cnt c) : h.Admitted j.admitHeld j.uiq := by
  refine ⟨fun none_ => ?_, fun x q held => ?_⟩
  · rw [Hart.admitHeld_none (hh.trans none_)]
    exact ⟨rfl, hh.trans none_⟩
  · split_ifs with room
    · rw [Hart.admitHeld_enters (hh.trans held) room]
      refine ⟨by rw [Hart.settleEvent_eq], by rw [Hart.settleEvent_eq], fun c he => ?_⟩
      rw [Hart.cnt_settleEvent he]
      exact congrArg (· - 1) (hc c)
    · rw [Hart.admitHeld_full (hh.trans held) room]
      exact ⟨rfl, hh.trans held⟩

theorem Hart.uiHandler_eq (h : Hart) (e : UiEvent) :
    h.uiHandler e = if e.handler = 0 then h.uivec + BitVec.ofNat 64 (4 * e.cause) else e.handler := by
  by_cases given : e.handler = 0
  · rw [Hart.uiHandler, if_pos given, if_neg (by simp [given])]
  · rw [Hart.uiHandler, if_neg given, if_pos (by simpa using given)]

theorem Hart.swapped_congr {h k t : Hart} (hx : k.x = h.x) (hs : k.shadow = h.shadow) (hk : k.Swapped t) : h.Swapped t := by
  unfold Hart.Swapped Hart.getX at hk ⊢
  rw [← hx, ← hs]
  exact hk

/-- What entry to the handler leaves, by what it reads of the hart. -/
theorem Hart.entersUi_spec {h k : Hart} (hv : k.uiView = h.uiView) (e : UiEvent) (r : List UiEvent) :
    h.Swapped (k.entersUi e r) ∧ (k.entersUi e r).uicause = BitVec.ofNat 64 e.cause ∧ (k.entersUi e r).uiid = e.ident ∧
      (k.entersUi e r).uiAct = true ∧ (k.entersUi e r).run = k.run ∧ (k.entersUi e r).uiepc = k.pc ∧
      (k.entersUi e r).pc = (if e.handler = 0 then h.uivec + BitVec.ofNat 64 (4 * e.cause) else e.handler) ∧
      h.Admitted (k.entersUi e r) r := by
  simp only [Hart.uiView, Prod.mk.injEq] at hv
  obtain ⟨⟨hx, hs⟩, ⟨-, hh⟩, hvec, h0, h1, h2, h3⟩ := hv
  rw [Hart.entersUi_eq]
  have swap {t : Hart} (tx : t.x = k.swapBank.x) (ts : t.shadow = k.swapBank.shadow) : h.Swapped t :=
    Hart.swapped_congr hx hs (Hart.swapped_swapBank tx ts)
  generalize k.swapBank.x = x at swap ⊢
  generalize k.swapBank.shadow = shadow at swap ⊢
  have counts (c : Nat) : (k.inHandler x shadow e r).cnt c = h.cnt c := by
    rcases c with _ | _ | _ | c
    · exact h0
    · exact h1
    · exact h2
    · exact h3
  have admitted : h.Admitted (k.inHandler x shadow e r).admitHeld r := Hart.admitted_admitHeld hh counts
  rw [Hart.admitHeld_eq] at admitted ⊢
  exact ⟨swap rfl rfl, rfl, rfl, rfl, rfl, rfl, hvec ▸ k.uiHandler_eq e, admitted⟩

theorem State.uiActive_closed {s : State} (ha : s.hart.uiAct = true) : s.uiOpen = false := by
  simp [State.uiOpen, ha]

theorem exec_uiret {s : State} (hm : s.hart.mode = .u) (ha : s.hart.uiAct = true) :
    exec .uiret s = .next (s.onHart (fun h => (h.leaveHandler).retireTo h.uiepc)) :=
  if_neg (by simp [hm, ha])

theorem exec_uiret_illegal {s : State} (hm : s.hart.mode ≠ .u ∨ s.hart.uiAct = false) : exec .uiret s = .next s.illegal :=
  if_pos (by simpa using hm)

/-- The hart that returns from its handler. -/
theorem Hart.leaveHandler_retireTo (h : Hart) (a : Word) : (h.leaveHandler).retireTo a = { h with
    x := h.swapBank.x, shadow := h.swapBank.shadow, uiAct := false, pc := a, csr := ((h.leaveHandler).retireTo a).csr
    run := .ready, answer := none, results := [], obsWait := none } := by
  rw [Hart.retireTo, Hart.countRetired_eq, Hart.leaveHandler, Hart.swapBank_eq]

theorem Hart.leaveHandler_spec (h : Hart) (a : Word) : h.Swapped ((h.leaveHandler).retireTo a) ∧ ((h.leaveHandler).retireTo a).pc = a ∧
    ((h.leaveHandler).retireTo a).uiAct = false ∧ ((h.leaveHandler).retireTo a).v = h.v ∧ ((h.leaveHandler).retireTo a).m = h.m := by
  have swap {t : Hart} (tx : t.x = h.swapBank.x) (ts : t.shadow = h.swapBank.shadow) : h.Swapped t := Hart.swapped_swapBank tx ts
  rw [Hart.leaveHandler_retireTo]
  generalize h.swapBank.x = x at swap ⊢
  generalize h.swapBank.shadow = shadow at swap ⊢
  exact ⟨swap rfl rfl, rfl, rfl, rfl, rfl⟩

/-- An event for a hart enters its queue or is held. -/
theorem State.hartOf_sendUi {s : State} {g : Nat} (x : UiEvent) (hg : (s.hartOf g).run.isHart = true) :
    (s.sendUi g x).hartOf g = (s.hartOf g).pushUi x := by
  have sent : s.sendUi g x = s.modHart g (fun h => h.pushUi x) := by
    unfold State.sendUi
    cases hr : (s.hartOf g).run with
    | starting | ready | waiting _ => rfl
    | _ => rw [hr] at hg; cases hg
  have frame := (s.hartOf g).pushUi_frame x
  rw [sent, State.hartOf_modHart_kept (frame.1.trans (s.hartOf_gid g))]
  rw [frame.2]
  rintro hv
  rw [hv] at hg
  cases hg

/-- Settles O20, by what entry reads of the hart: a wait that is withdrawn leaves it as it was. -/
theorem userInterrupts : Obligations.UserInterrupts := by
  intro n e r s h swapped
  refine ⟨fun hm ha => ?_, fun no => ?_, fun ho hr hq hh he => ?_, fun ho hb hq => ?_, fun g x hg => ?_, fun no => ?_, fun hm => ?_,
    fun hm => ?_, fun h0 hu hv => ?_⟩
  · refine ⟨_, exec_uiret hm ha, _, rfl, ?_⟩
    exact h.leaveHandler_spec h.uiepc
  · exact State.gives_illegal (exec_uiret_illegal no)
  · have stays : s.withdraw = s := by simp only [State.withdraw]; rw [show s.hart.run = .ready from hr]
    have enters := exec_uiEntry (s := s) ho (by rw [stays]; exact hq)
    rw [stays, State.uiAcquired_none _ he] at enters
    obtain ⟨swap, cause, ident, act, -, epc, pc, queue⟩ := Hart.entersUi_spec (h := h) (k := h) rfl e r
    exact ⟨_, enters, _, rfl, swap, epc, cause, ident, act, (queue.1 hh).1, pc⟩
  · obtain ⟨view, ready, past, here⟩ := State.withdraw_boundary hb
    have queued : s.withdraw.hart.uiq = e :: r := (congrArg (fun v => v.2.1.1) view).trans hq
    obtain ⟨swap, cause, ident, act, run, epc, pc, queue⟩ := Hart.entersUi_spec (h := h) view e r
    have entered : ((s.withdraw.uiAcquired e).onHart (fun h => h.entersUi e r)).hart = s.withdraw.hart.entersUi e r := by
      rw [State.onHart_hart, State.hart_uiAcquired]
    refine ⟨_, exec_uiEntry ho queued, ?_⟩
    dsimp only
    rw [entered]
    exact ⟨swap, cause, ident, act, run.trans ready, pc, fun w => epc.trans (past w), fun h1 h2 => epc.trans (here h1 h2), queue.1, queue.2⟩
  · rw [State.hartOf_sendUi x hg]
    dsimp only
    split_ifs with room
    · rw [Hart.pushUi_enters x room]
      refine ⟨by rw [Hart.settleEvent_eq], ?_, fun c he => Hart.cnt_settleEvent he⟩
      rw [Hart.settleEvent_eq]
      exact room.2
    · rw [Hart.pushUi_held x room]
      exact ⟨rfl, rfl, fun _ => rfl⟩
  · have closed : s.uiOpen = false := no.elim id State.uiActive_closed
    exact ⟨_, exec_uiEntry_closed closed, rfl⟩
  · exact State.gives_illegal (congrArg Host.Outcome.next (State.notM_machine _ hm))
  · exact ⟨_, congrArg Host.Outcome.next (State.notM_below _ hm), _, rfl, rfl⟩
  · have due : ((s.hartOf s.sel).uiUntil != 0 && decide ((s.hartOf s.sel).uiUntil ≤ s.clock)) = true := by simp [h0, hu]
    exact ⟨_, if_pos due, State.hartOf_modHart_kept (s.hartOf_gid _) hv⟩

end Sys2Proof.Machine
end

section
/-! SUPPORT. Lane loads and stores of the core's arrays (R78, R129, R135, R136). -/
namespace Sys2Proof.Machine
set_option Elab.async false
open Sys2Proof.Safety

/-! ## Bytes that are stored in turn -/

/-- An array after bytes were put into it. -/
theorem fget_putBytes (f : File Byte) (off : Nat) (b : List Byte) (o : Nat) :
    fget 0 (putBytes f off b) o = if off ≤ o ∧ o < off + b.length then b.getD (o - off) 0 else fget 0 f o := by
  induction b generalizing f off with
  | nil => rw [putBytes, if_neg (by simp)]
  | cons x r ih =>
    rw [putBytes, ih, fget_fset, List.length_cons]
    rcases Nat.lt_trichotomy o off with lt | rfl | gt
    · rw [if_neg (by omega), if_neg (by omega), if_neg (by omega)]
    · rw [if_neg (by omega), if_pos rfl, if_pos (by omega), Nat.sub_self]
      rfl
    · have shift : o - off = (o - (off + 1)) + 1 := by omega
      by_cases hi : o < off + 1 + r.length
      · rw [if_pos (by omega), if_pos (by omega), shift, List.getD_cons_succ]
      · rw [if_neg (by omega), if_neg (by omega), if_neg (by omega)]

/-- One more lane stores. -/
theorem overwritten_concat (ls : List Nat) (a : Nat) (addr : Nat → Nat) (val : Nat → List Byte) (old : Nat → Byte) (o : Nat) :
    Claims.overwritten (ls ++ [a]) addr val old o = if addr a ≤ o ∧ o < addr a + (val a).length then (val a).getD (o - addr a) 0
      else Claims.overwritten ls addr val old o := by
  unfold Claims.overwritten
  rw [List.reverse_append, List.reverse_singleton, List.singleton_append, List.find?_cons]
  by_cases covers : addr a ≤ o ∧ o < addr a + (val a).length
  · simp [covers]
  · have no : (decide (addr a ≤ o) && decide (o < addr a + (val a).length)) = false := by simpa using covers
    rw [no, if_neg covers]

/-! ## The checks of the lanes' offsets -/

/-- A lane's offset is misaligned, or outside a share of `size` bytes. -/
def strays (n size : Nat) (va : Word) : Bool := va.toNat % n != 0 || decide (size ≤ va.toNat)

/-- The fault of such an offset. -/
def strayFault (a : Acc) (n : Nat) (va : Word) : TrapInfo := ⟨if va.toNat % n ≠ 0 then a.alignCause else a.accessCause, 0, va⟩

theorem localCheck_eq (a : Acc) (n size : Nat) (va : Word) :
    localCheck a n size va = if strays n size va then .error (strayFault a n va) else .ok va.toNat := by
  unfold localCheck strays strayFault
  by_cases odd : va.toNat % n = 0
  · by_cases out : size ≤ va.toNat <;> simp [odd, out]
  · simp [odd]

/-- The checks of listed lanes. -/
def localChecks (a : Acc) (n size : Nat) (addr : Nat → Word) (ls : List Nat) : List (Nat × Except TrapInfo Nat) :=
  ls.map (fun i => (i, localCheck a n size (addr i)))

theorem pasOf_localChecks (a : Acc) (n size : Nat) (addr : Nat → Word) (ls : List Nat) : pasOf (localChecks a n size addr ls) =
    (ls.filter (fun i => !strays n size (addr i))).map (fun i => (i, (addr i).toNat)) := by
  induction ls with
  | nil => rfl
  | cons i r ih =>
    unfold localChecks at ih ⊢
    rw [List.map_cons, localCheck_eq, List.filter_cons]
    cases strays n size (addr i) with
    | true => exact ih
    | false => exact congrArg ((i, (addr i).toNat) :: ·) ih

theorem faultsOf_localChecks (a : Acc) (n size : Nat) (addr : Nat → Word) (ls : List Nat) : faultsOf (localChecks a n size addr ls) =
    (ls.filter (fun i => strays n size (addr i))).map (fun i => (i, strayFault a n (addr i))) := by
  induction ls with
  | nil => rfl
  | cons i r ih =>
    unfold localChecks at ih ⊢
    rw [List.map_cons, localCheck_eq, List.filter_cons]
    cases strays n size (addr i) with
    | true => exact congrArg ((i, strayFault a n (addr i)) :: ·) ih
    | false => exact ih

/-! ## Lanes of a mask -/

/-- The lanes of a mask whose offset strays. -/
def straying (act : Mask) (n size : Nat) (addr : Nat → Word) : List Nat := (maskLanes act).filter (fun i => strays n size (addr i))

theorem mem_straying {act : Mask} {n size : Nat} {addr : Nat → Word} {i : Nat} :
    i ∈ straying act n size addr ↔ i < 32 ∧ (act.getLsbD i && strays n size (addr i)) = true := by
  rw [straying, List.mem_filter, mem_maskLanes, Bool.and_eq_true, and_assoc]

theorem straying_eq_nil {act : Mask} {n size : Nat} {addr : Nat → Word}
    (h : ∀ j, j < 32 → (act.getLsbD j && strays n size (addr j)) = false) : straying act n size addr = [] := by
  refine List.eq_nil_iff_forall_not_mem.mpr fun i hi => ?_
  obtain ⟨hlt, hs⟩ := mem_straying.mp hi
  rw [h i hlt] at hs
  cases hs

/-- The lowest lane that strays heads the list. -/
theorem straying_eq_cons {act : Mask} {n size : Nat} {addr : Nat → Word} {i : Nat} (hi : i < 32)
    (hs : (act.getLsbD i && strays n size (addr i)) = true) (low : ∀ j, j < i → (act.getLsbD j && strays n size (addr j)) = false) :
    ∃ r, straying act n size addr = i :: r := by
  have all : straying act n size addr = (List.range 32).filter (fun j => act.getLsbD j && strays n size (addr j)) := by
    rw [straying, maskLanes, lanes, List.filter_filter]
    exact List.filter_congr fun j _ => Bool.and_comm _ _
  have head : (straying act n size addr).head? = some i := by
    rw [all, List.head?_filter, List.find?_range_eq_some]
    exact ⟨hs, List.mem_range.mpr hi, fun j hj => by simp [low j hj]⟩
  exact ⟨_, List.head?_eq_some_iff.mp head |>.choose_spec⟩

/-- The lanes of a mask whose offset is aligned and within the share. -/
def landing (act : Mask) (n size : Nat) (addr : Nat → Word) : List Nat := (maskLanes act).filter (fun i => !strays n size (addr i))

theorem landing_of_straying_nil {act : Mask} {n size : Nat} {addr : Nat → Word} (h : straying act n size addr = []) :
    landing act n size addr = maskLanes act := by
  refine List.filter_eq_self.mpr fun i hi => ?_
  have lands : i ∉ straying act n size addr := h ▸ List.not_mem_nil
  rw [straying, List.mem_filter] at lands
  simpa [hi] using lands

theorem getLsbD_maskOfList (l : List Nat) {i : Nat} (hi : i < 32) : (maskOfList l).getLsbD i = decide (i ∈ l) := by
  rw [maskOfList, getLsbD_maskOf _ i hi, List.contains_eq_mem]

theorem maskLanes_zero : maskLanes 0 = [] := by decide

/-! ## Lane faults without records -/

theorem map_fst_tagged {α : Type} (f : Nat → α) (l : List Nat) : (l.map (fun i => (i, f i))).map Prod.fst = l := by
  rw [List.map_map]
  exact List.map_id l

/-- A lane fault where no records are asked for: lfault, and the trap of the lowest faulting lane. -/
theorem State.laneTrap_unrecorded {s : State} (act : Mask) (i : Nat) (r : List Nat) (f : Nat → TrapInfo) (addr : Nat → Word) (store : Bool)
    (hr : s.hart.lfrec.getLsbD 0 = false) : s.laneTrap act ((i :: r).map (fun i => (i, f i))) addr store =
      { s with hart := ({ s.hart with lfault := maskOfList (i :: r) }).enterTrap false (f i) } := by
  have unrecorded (fs : List (Nat × TrapInfo)) : s.writeRecords act fs addr store = s := if_pos (by rw [wbit, hr]; rfl)
  have named := map_fst_tagged f (i :: r)
  rw [List.map_cons] at named ⊢
  rw [State.laneTrap, unrecorded, named]
  rfl

theorem Hart.noteDone_eq (h : Hart) (done : List Nat) : h.noteDone done = { h with lcomp := (h.noteDone done).lcomp } := rfl

theorem Hart.lfrec_noteDone (h : Hart) (done : List Nat) : (h.noteDone done).lfrec = h.lfrec := by
  rw [Hart.noteDone_eq]

theorem Hart.toNat_noteDone (h : Hart) (done : List Nat) :
    (h.noteDone done).lcomp.toNat = ((h.lcomp.setWidth 32 : Mask) ||| maskOfList done).toNat + h.mode.code * 2 ^ 32 := by
  have low := ((h.lcomp.setWidth 32 : Mask) ||| maskOfList done).isLt
  have high : h.mode.code < 4 := by cases h.mode <;> decide
  rw [Hart.noteDone, BitVec.toNat_ofNat, Nat.mod_eq_of_lt (by omega)]

/-- The lanes that have been performed are noted beside those noted before. -/
theorem Hart.getLsbD_noteDone (h : Hart) (done : List Nat) {j : Nat} (hj : j < 32) :
    (h.noteDone done).lcomp.getLsbD j = (h.lcomp.getLsbD j || decide (j ∈ done)) := by
  have low := ((h.lcomp.setWidth 32 : Mask) ||| maskOfList done).isLt
  rw [← BitVec.testBit_toNat, Hart.toNat_noteDone, Nat.add_comm, Nat.mul_comm, Nat.testBit_two_pow_mul_add _ low, if_pos hj,
    BitVec.testBit_toNat, BitVec.getLsbD_or, getLsbD_maskOfList _ hj, BitVec.getLsbD_setWidth]
  simp [hj]

/-- The mode that a restart asks for. -/
theorem Hart.wfield_noteDone (h : Hart) (done : List Nat) : wfield (h.noteDone done).lcomp 32 2 = h.mode.code := by
  have low := ((h.lcomp.setWidth 32 : Mask) ||| maskOfList done).isLt
  have high : h.mode.code < 4 := by cases h.mode <;> decide
  rw [wfield, Hart.toNat_noteDone, Nat.shiftRight_eq_div_pow]
  omega

/-! ## Loads of the core's arrays -/

/-- Registers one after another, written in the active lanes. -/
theorem Hart.getV_foldl_writeLanes (h : Hart) (vd : Nat) (val : Nat → Nat → Lane) (act : Mask) (n r i : Nat) (hi : i < 32) :
    ((((List.range n).map (fun k => (vd + k, fun i => val k i))).foldl (fun h o => h.writeLanes o.1 o.2 (maskLanes act)) h).getV r i) =
      if vd ≤ r ∧ r < vd + n ∧ act.getLsbD i = true then val (r - vd) i else h.getV r i := by
  induction n with
  | zero => simp; omega
  | succ n ih =>
    rw [List.range_succ, List.map_append, List.foldl_append]
    simp only [List.map_cons, List.map_nil, List.foldl_cons, List.foldl_nil]
    rw [Hart.getV_writeLanes_maskLanes _ _ _ _ _ _ hi, ih]
    by_cases ha : act.getLsbD i = true
    · rcases Nat.lt_trichotomy r (vd + n) with lt | rfl | gt
      · rw [if_neg (by omega)]
        by_cases hv : vd ≤ r
        · rw [if_pos ⟨hv, lt, ha⟩, if_pos ⟨hv, by omega, ha⟩]
        · rw [if_neg (fun e => hv e.1), if_neg (fun e => hv e.1)]
      · rw [if_pos ⟨rfl, ha⟩, if_pos ⟨by omega, by omega, ha⟩, Nat.add_sub_cancel_left]
      · rw [if_neg (by omega), if_neg (by omega), if_neg (by omega)]
    · rw [if_neg (fun e => ha e.2), if_neg (fun e => ha e.2.2), if_neg (fun e => ha e.2.2)]

theorem Hart.foldl_writeLanes_eq (h : Hart) (act : Mask) (outs : List (Nat × (Nat → Lane))) :
    outs.foldl (fun h o => h.writeLanes o.1 o.2 (maskLanes act)) h =
      { h with v := (outs.foldl (fun h o => h.writeLanes o.1 o.2 (maskLanes act)) h).v } := by
  induction outs generalizing h with
  | nil => rfl
  | cons o r ih =>
    rw [List.foldl_cons, ih, Hart.writeLanes_eq]

theorem Hart.lanesWritten_foldl (h : Hart) (act : Mask) (vd n : Nat) (val : Nat → Nat → Lane) (R : Nat → Nat → Lane → Prop)
    (hR : ∀ k i, i < 32 → act.getLsbD i = true → R k i (val k i)) :
    LanesWritten h act vd n R (fun _ => 0)
      (((List.range n).map (fun k => (vd + k, fun i => val k i))).foldl (fun h o => h.writeLanes o.1 o.2 (maskLanes act)) h) := by
  refine ⟨?_, fun r i hi => ?_⟩
  · rw [Hart.foldl_writeLanes_eq]
    refine ⟨rfl, fun b => ?_⟩
    simp
  · rw [Hart.getV_foldl_writeLanes h vd val act n r i hi]
    split_ifs with written
    · exact hR _ i hi written.2.2
    · rfl

theorem length_widthRegs (wd : Width) (vd : LOp) : (widthRegs wd vd).length = Width.regs wd := by
  rw [widthRegs, List.length_map, List.length_range]

/-- A lane's element among those that were read. -/
theorem laneElem_map {ls : List Nat} {i : Nat} (hi : i ∈ ls) (f : Nat → List Byte) : laneElem (ls.map (fun j => (j, f j))) i = f i := by
  unfold laneElem
  induction ls with
  | nil => cases hi
  | cons j r ih =>
    rw [List.map_cons, List.find?_cons]
    by_cases hj : j = i
    · subst hj
      simp
    · have here : (j == i) = false := by simpa using hj
      simp only [here]
      exact ih (List.mem_of_ne_of_mem (Ne.symm hj) hi)

section
variable {s : State} {p : LaneHdr} {wd : Width} {vd va vb : LOp} {size : Nat} {get : State → Nat → List Byte}
  (hp : s.hart.plainRegs (regsOf va 1 ++ widthRegs wd vd))
include hp

/-- A load whose active lanes are all aligned and within the share. -/
theorem State.lload_within (hw : straying (s.hart.active p) (widthBytes wd) size (s.hart.ea va vb) = []) :
    Retires s (LanesWritten s.hart (s.hart.active p) vd.toNat (Width.regs wd)
      (fun j i v => v = loadLane wd (get s (s.hart.ea va vb i).toNat) j) (fun _ => 0)) (s.lload p wd vd va vb size get) := by
  unfold State.lload
  dsimp only
  rw [State.laneBegin_plain hp]
  dsimp only
  by_cases idle : s.hart.active p = 0
  · rw [if_pos idle, idle]
    exact ⟨s.hart, rfl, ⟨rfl, by simp⟩, fun r i hi => by simp⟩
  · have noFault : faultsOf ((maskLanes (s.hart.active p)).map (fun i => (i, localCheck .load (widthBytes wd) size (s.hart.ea va vb i)))) = [] :=
      (faultsOf_localChecks .load _ size (s.hart.ea va vb) _).trans (congrArg (List.map _) hw)
    have read : (pasOf ((maskLanes (s.hart.active p)).map (fun i => (i, localCheck .load (widthBytes wd) size (s.hart.ea va vb i))))).map
        (fun e => (e.1, get s e.2)) = (maskLanes (s.hart.active p)).map (fun i => (i, get s (s.hart.ea va vb i).toNat)) := by
      refine (congrArg _ (pasOf_localChecks .load _ size (s.hart.ea va vb) _)).trans ?_
      rw [← landing, landing_of_straying_nil hw, List.map_map]
      rfl
    rw [if_neg idle, noFault]
    dsimp only
    rw [read, State.laneFinish_plain _ _ _ _ _ (fun o ho => ?_)]
    · refine ⟨_, rfl, ?_⟩
      rw [length_widthRegs]
      exact Hart.lanesWritten_foldl _ _ _ _ (fun k i => loadLane wd (laneElem _ i) k) _ fun k i hi ha => by
        rw [laneElem_map ((mem_maskLanes _ _).mpr ⟨hi, ha⟩)]
    · obtain ⟨k, hk, rfl⟩ := List.mem_map.mp ho
      have named : vd.toNat + k ∈ widthRegs wd vd := List.mem_map.mpr ⟨k, by rwa [length_widthRegs] at hk, rfl⟩
      exact (hp _ (List.mem_append_right _ named)).2.2

/-- A load of which a lane strays. -/
theorem State.lload_strays {i : Nat} {r : List Nat} (hr : s.hart.lfrec.getLsbD 0 = false)
    (hw : straying (s.hart.active p) (widthBytes wd) size (s.hart.ea va vb) = i :: r) : s.lload p wd vd va vb size get =
      { s with hart := ({ s.hart with lfault := maskOfList (i :: r) }).enterTrap false (strayFault .load (widthBytes wd) (s.hart.ea va vb i)) } := by
  have busy : s.hart.active p ≠ 0 := by
    intro idle
    rw [idle, straying, maskLanes_zero] at hw
    cases hw
  have faults : faultsOf ((maskLanes (s.hart.active p)).map (fun i => (i, localCheck .load (widthBytes wd) size (s.hart.ea va vb i)))) =
      (i :: r).map (fun i => (i, strayFault .load (widthBytes wd) (s.hart.ea va vb i))) :=
    (faultsOf_localChecks .load _ size (s.hart.ea va vb) _).trans (congrArg (List.map _) hw)
  unfold State.lload
  dsimp only
  rw [State.laneBegin_plain hp]
  dsimp only
  have trapped := State.laneTrap_unrecorded (s.hart.active p) i r (fun i => strayFault .load (widthBytes wd) (s.hart.ea va vb i))
    (s.hart.ea va vb) false hr
  rw [List.map_cons] at faults trapped
  rw [if_neg busy, faults]
  exact trapped

end

/-! ## Stores to the core's arrays -/

/-- Listed lanes store in turn. -/
def putLanes (put : State → Nat → List Byte → State) (addr : Nat → Nat) (val : Nat → List Byte) (ls : List Nat) (s : State) : State :=
  ls.foldl (fun s i => put s (addr i) (val i)) s

theorem putLanes_concat (put : State → Nat → List Byte → State) (addr : Nat → Nat) (val : Nat → List Byte) (ls : List Nat) (i : Nat)
    (s : State) : putLanes put addr val (ls ++ [i]) s = put (putLanes put addr val ls s) (addr i) (val i) := by
  rw [putLanes, List.foldl_append]
  rfl

section
variable {s : State} {p : LaneHdr} {wd : Width} {vd va vb : LOp} {size : Nat} {put : State → Nat → List Byte → State}
  (hp : s.hart.plainRegs (regsOf va 1 ++ widthRegs wd vd))
include hp

/-- A store whose due lanes are all aligned and within the share. -/
theorem State.lstore_within (hw : straying (s.hart.pendingLanes (s.hart.active p)) (widthBytes wd) size (s.hart.ea va vb) = []) :
    s.lstore p wd vd va vb size put = ((putLanes put (fun i => (s.hart.ea va vb i).toNat) (s.hart.storeBytes wd vd)
      (maskLanes (s.hart.pendingLanes (s.hart.active p))) s).onHart Hart.clearDone).retire := by
  unfold State.lstore
  dsimp only
  rw [State.laneBegin_plain (by simpa using hp)]
  dsimp only
  by_cases idle : s.hart.pendingLanes (s.hart.active p) = 0
  · rw [if_pos idle, idle, maskLanes_zero]
    rfl
  · have noFault : faultsOf ((maskLanes (s.hart.pendingLanes (s.hart.active p))).map
        (fun i => (i, localCheck .store (widthBytes wd) size (s.hart.ea va vb i)))) = [] :=
      (faultsOf_localChecks .store _ size (s.hart.ea va vb) _).trans (congrArg (List.map _) hw)
    have all := pasOf_localChecks .store (widthBytes wd) size (s.hart.ea va vb) (maskLanes (s.hart.pendingLanes (s.hart.active p)))
    rw [← landing, landing_of_straying_nil hw, localChecks] at all
    rw [if_neg idle, noFault, all, List.foldl_map]
    rfl

/-- A store of which a lane strays: the other lanes are performed, and noted. -/
theorem State.lstore_strays {i : Nat} {r : List Nat} (hr : s.hart.lfrec.getLsbD 0 = false)
    (hw : straying (s.hart.pendingLanes (s.hart.active p)) (widthBytes wd) size (s.hart.ea va vb) = i :: r) :
    s.lstore p wd vd va vb size put =
      let done := landing (s.hart.pendingLanes (s.hart.active p)) (widthBytes wd) size (s.hart.ea va vb)
      { putLanes put (fun i => (s.hart.ea va vb i).toNat) (s.hart.storeBytes wd vd) done s with
        hart := ({ s.hart.noteDone done with lfault := maskOfList (i :: r) }).enterTrap false
          (strayFault .store (widthBytes wd) (s.hart.ea va vb i)) } := by
  have busy : s.hart.pendingLanes (s.hart.active p) ≠ 0 := by
    intro idle
    rw [idle, straying, maskLanes_zero] at hw
    cases hw
  have faults : faultsOf ((maskLanes (s.hart.pendingLanes (s.hart.active p))).map
        (fun i => (i, localCheck .store (widthBytes wd) size (s.hart.ea va vb i)))) =
      (i :: r).map (fun i => (i, strayFault .store (widthBytes wd) (s.hart.ea va vb i))) :=
    (faultsOf_localChecks .store _ size (s.hart.ea va vb) _).trans (congrArg (List.map _) hw)
  have done := pasOf_localChecks .store (widthBytes wd) size (s.hart.ea va vb) (maskLanes (s.hart.pendingLanes (s.hart.active p)))
  rw [← landing, localChecks] at done
  unfold State.lstore
  dsimp only
  rw [State.laneBegin_plain (by simpa using hp)]
  dsimp only
  generalize landing (s.hart.pendingLanes (s.hart.active p)) (widthBytes wd) size (s.hart.ea va vb) = l at done ⊢
  have trapped := State.laneTrap_unrecorded (s := { putLanes put (fun i => (s.hart.ea va vb i).toNat) (s.hart.storeBytes wd vd) l s with
    hart := s.hart.noteDone l }) (s.hart.pendingLanes (s.hart.active p)) i r
    (fun i => strayFault .store (widthBytes wd) (s.hart.ea va vb i)) (s.hart.ea va vb) true
    ((congrArg (fun w => w.getLsbD 0) (Hart.lfrec_noteDone s.hart l)).trans hr)
  rw [List.map_cons] at faults trapped
  rw [if_neg busy, faults, done, map_fst_tagged, List.foldl_map]
  exact trapped

end

theorem fget_putBytes_overwritten {f : File Byte} {ls : List Nat} {addr : Nat → Nat} {val : Nat → List Byte} {old : Nat → Byte}
    (h : ∀ o, fget 0 f o = Claims.overwritten ls addr val old o) (i o : Nat) :
    fget 0 (putBytes f (addr i) (val i)) o = Claims.overwritten (ls ++ [i]) addr val old o := by
  rw [fget_putBytes, overwritten_concat, h]

/-! ## Shared memory -/

theorem State.localStore_eq (s : State) (g c off : Nat) (b : List Byte) : s.localStore g c off b =
    { s with cores := (s.localStore g c off b).cores, wlog := (s.localStore g c off b).wlog } := rfl

theorem State.core_shmWrite (s : State) (c off : Nat) (b : List Byte) (d : Nat) : (s.shmWrite c off b).core d =
    if d = c then { (s.core c).overwritten off b.length with shm := putBytes (s.core c).shm off b } else s.core d := by
  have unlogged : (s.shmWrite c off b).core d =
      (s.modCore c (fun k => { (k.overwritten off b.length) with shm := putBytes k.shm off b })).core d := rfl
  rw [unlogged, State.core_modCore]

theorem State.core_localStore_ne (s : State) (g : Nat) {c d : Nat} (off : Nat) (b : List Byte) (hd : d ≠ c) :
    (s.localStore g c off b).core d = s.core d := by
  rw [State.localStore, State.core_modCore, if_neg hd, State.core_shmWrite, if_neg hd]

/-- Of its core, a store changes the array and what the hart's accesses through the port need not see (R319). -/
theorem State.core_localStore_self (s : State) (g c off : Nat) (b : List Byte) : (s.localStore g c off b).core c = { s.core c with
    shm := putBytes (s.core c).shm off b, lbOld := ((s.localStore g c off b).core c).lbOld } := by
  have written : (s.shmWrite c off b).core c = { (s.core c).overwritten off b.length with shm := putBytes (s.core c).shm off b } :=
    by rw [State.core_shmWrite, if_pos rfl]
  have noted : (s.localStore g c off b).core c = { (s.shmWrite c off b).core c with lbOld := ((s.localStore g c off b).core c).lbOld } := by
    rw [State.localStore, State.core_modCore, if_pos rfl]
  rw [noted, written]
  rfl

/-- Listed lanes have stored to the team's shared memory. -/
def State.ShmStored (s0 : State) (ls : List Nat) (addr : Nat → Nat) (val : Nat → List Byte) (t : State) : Prop :=
  t = { s0 with cores := t.cores, wlog := t.wlog, hart := t.hart } ∧ (∀ d, d ≠ s0.coreNo → t.core d = s0.core d) ∧
    t.core s0.coreNo = { s0.core s0.coreNo with shm := (t.core s0.coreNo).shm, lbOld := (t.core s0.coreNo).lbOld } ∧
    ∀ o, fget 0 (t.core s0.coreNo).shm o =
      Claims.overwritten ls (fun i => s0.share.shBase + addr i) val (fun o => fget 0 (s0.core s0.coreNo).shm o) o

theorem State.shmStored_withHart {s0 t : State} {ls : List Nat} {addr : Nat → Nat} {val : Nat → List Byte}
    (h : s0.ShmStored ls addr val t) (k : Hart) : s0.ShmStored ls addr val { t with hart := k } := by
  obtain ⟨frame, rest⟩ := h
  exact ⟨by rw [frame], rest⟩

theorem State.shmStored_putLanes (s0 : State) (addr : Nat → Nat) (val : Nat → List Byte) (ls : List Nat) :
    (putLanes State.shmPut addr val ls s0).hart = s0.hart ∧ s0.ShmStored ls addr val (putLanes State.shmPut addr val ls s0) := by
  induction ls using List.reverseRecOn with
  | nil => exact ⟨rfl, rfl, fun _ _ => rfl, rfl, fun _ => rfl⟩
  | append_singleton ls i ih =>
    rw [putLanes_concat]
    generalize putLanes State.shmPut addr val ls s0 = u at ih ⊢
    obtain ⟨hart, frame, others, own, bytes⟩ := ih
    have teams : u.teams = s0.teams := by rw [frame]
    have puts : u.shmPut (addr i) (val i) = u.localStore s0.hart.gid s0.coreNo (s0.share.shBase + addr i) (val i) := by
      simp only [State.shmPut, State.coreNo, State.share, State.team, teams, hart]
    rw [puts]
    refine ⟨hart, ?_, fun d hd => ?_, ?_, fun o => ?_⟩
    · rw [State.localStore_eq, frame]
    · rw [State.core_localStore_ne _ _ _ _ hd, others d hd]
    · rw [State.core_localStore_self, own]
    · rw [State.core_localStore_self]
      exact fget_putBytes_overwritten bytes i o

/-! ## The tile store -/

theorem Core.buf_setBuf (k : Core) (b : TBuf) (f : File Byte) : (k.setBuf b f).buf b = f := by cases b <;> rfl

theorem Core.setBuf_setBuf (k : Core) (b : TBuf) (f g : File Byte) : (k.setBuf b f).setBuf b g = k.setBuf b g := by cases b <;> rfl

theorem Core.setBuf_buf (k : Core) (b : TBuf) : k.setBuf b (k.buf b) = k := by cases b <;> rfl

/-- One lane's store to a buffer of the tile store. -/
def State.tilePut (buf : TBuf) (s : State) (o : Nat) (b : List Byte) : State :=
  s.modCore s.coreNo (fun k => k.setBuf buf (putBytes (k.buf buf) ((s.share.buf buf).1 + o) b))

/-- Listed lanes have stored to the team's share of a buffer. -/
def State.TileStored (buf : TBuf) (s0 : State) (ls : List Nat) (addr : Nat → Nat) (val : Nat → List Byte) (t : State) : Prop :=
  t = { s0 with cores := t.cores, hart := t.hart } ∧ (∀ d, d ≠ s0.coreNo → t.core d = s0.core d) ∧
    t.core s0.coreNo = (s0.core s0.coreNo).setBuf buf ((t.core s0.coreNo).buf buf) ∧
    ∀ o, fget 0 ((t.core s0.coreNo).buf buf) o =
      Claims.overwritten ls (fun i => (s0.share.buf buf).1 + addr i) val (fun o => fget 0 ((s0.core s0.coreNo).buf buf) o) o

theorem State.tileStored_withHart {buf : TBuf} {s0 t : State} {ls : List Nat} {addr : Nat → Nat} {val : Nat → List Byte}
    (h : s0.TileStored buf ls addr val t) (k : Hart) : s0.TileStored buf ls addr val { t with hart := k } := by
  obtain ⟨frame, rest⟩ := h
  exact ⟨by rw [frame], rest⟩

theorem State.tileStored_putLanes (buf : TBuf) (s0 : State) (addr : Nat → Nat) (val : Nat → List Byte) (ls : List Nat) :
    (putLanes (State.tilePut buf) addr val ls s0).hart = s0.hart ∧
      s0.TileStored buf ls addr val (putLanes (State.tilePut buf) addr val ls s0) := by
  induction ls using List.reverseRecOn with
  | nil => exact ⟨rfl, rfl, fun _ _ => rfl, (Core.setBuf_buf _ _).symm, fun _ => rfl⟩
  | append_singleton ls i ih =>
    rw [putLanes_concat]
    generalize putLanes (State.tilePut buf) addr val ls s0 = u at ih ⊢
    obtain ⟨hart, frame, others, own, bytes⟩ := ih
    have teams : u.teams = s0.teams := by rw [frame]
    have puts : u.tilePut buf (addr i) (val i) = u.modCore s0.coreNo
        (fun k => k.setBuf buf (putBytes (k.buf buf) ((s0.share.buf buf).1 + addr i) (val i))) := by
      simp only [State.tilePut, State.coreNo, State.share, State.team, teams, hart]
    rw [puts]
    refine ⟨hart, ?_, fun d hd => ?_, ?_, fun o => ?_⟩
    · rw [State.modCore, State.setCore, frame]
    · rw [State.core_modCore, if_neg hd, others d hd]
    · rw [State.core_modCore, if_pos rfl, Core.buf_setBuf, own, Core.setBuf_setBuf, Core.buf_setBuf]
    · rw [State.core_modCore, if_pos rfl, Core.buf_setBuf]
      exact fget_putBytes_overwritten bytes i o

/-! ## The loop-back port -/

theorem State.hart_maybeDrainLb (s : State) (c : Nat) : (s.maybeDrainLb c).hart = s.hart := by
  unfold State.maybeDrainLb
  split_ifs
  · rfl
  · exact s.hart_drainLb c
  · rfl

theorem State.teams_maybeDrainLb (s : State) (c : Nat) : (s.maybeDrainLb c).teams = s.teams := by
  unfold State.maybeDrainLb
  split_ifs
  · rfl
  · obtain ⟨k, w, performed⟩ := s.lbPerform_eq c (s.core c).lb
    rw [State.drainLb, performed, State.modCore, State.setCore_teams]
  · rfl

/-! ## The lanes of a fault -/

theorem getLsbD_maskOfList_straying {act : Mask} {n size : Nat} {addr : Nat → Word} {l : List Nat} (hl : straying act n size addr = l)
    {j : Nat} (hj : j < 32) : (maskOfList l).getLsbD j = (act.getLsbD j && strays n size (addr j)) := by
  rw [getLsbD_maskOfList _ hj, ← hl, Bool.eq_iff_iff, decide_eq_true_eq, mem_straying, and_iff_right hj]

theorem landing_eq_filter (act : Mask) (n size : Nat) (addr : Nat → Word) :
    (maskLanes act).filter (fun j => !(act.getLsbD j && strays n size (addr j))) = landing act n size addr :=
  List.filter_congr fun j hj => by rw [((mem_maskLanes _ _).mp hj).2, Bool.true_and]

theorem decide_mem_landing {act : Mask} {n size : Nat} {addr : Nat → Word} {j : Nat} (hj : j < 32) :
    decide (j ∈ landing act n size addr) = (act.getLsbD j && !(act.getLsbD j && strays n size (addr j))) := by
  rw [Bool.eq_iff_iff, decide_eq_true_eq, landing, List.mem_filter, mem_maskLanes, and_iff_right hj]
  cases act.getLsbD j <;> simp

/-- A load of which a lane strays: the trap of the lowest such lane, and the lanes in lfault. -/
theorem State.lload_fault {s : State} {p : LaneHdr} {wd : Width} {vd va vb : LOp} {size i : Nat} {get : State → Nat → List Byte}
    (hp : s.hart.plainRegs (regsOf va 1 ++ widthRegs wd vd)) (hi : i < 32) (hr : s.hart.lfrec.getLsbD 0 = false)
    (hs : ((s.hart.active p).getLsbD i && strays (widthBytes wd) size (s.hart.ea va vb i)) = true)
    (low : ∀ j, j < i → ((s.hart.active p).getLsbD j && strays (widthBytes wd) size (s.hart.ea va vb j)) = false) :
    ∃ lf, s.lload p wd vd va vb size get =
        { s with hart := ({ s.hart with lfault := lf }).enterTrap false (strayFault .load (widthBytes wd) (s.hart.ea va vb i)) } ∧
      ∀ j, j < 32 → lf.getLsbD j = ((s.hart.active p).getLsbD j && strays (widthBytes wd) size (s.hart.ea va vb j)) := by
  obtain ⟨r, first⟩ := straying_eq_cons hi hs low
  exact ⟨_, State.lload_strays hp hr first, fun j hj => getLsbD_maskOfList_straying first hj⟩

/-- A store of which a lane strays: the other lanes are performed and noted in lcomp. -/
theorem State.lstore_fault {s : State} {p : LaneHdr} {wd : Width} {vd va vb : LOp} {size i : Nat} {put : State → Nat → List Byte → State}
    {eff : Mask} (he : eff = s.hart.pendingLanes (s.hart.active p))
    (hp : s.hart.plainRegs (regsOf va 1 ++ widthRegs wd vd)) (hi : i < 32) (hr : s.hart.lfrec.getLsbD 0 = false)
    (hs : (eff.getLsbD i && strays (widthBytes wd) size (s.hart.ea va vb i)) = true)
    (low : ∀ j, j < i → (eff.getLsbD j && strays (widthBytes wd) size (s.hart.ea va vb j)) = false) :
    ∃ lf lc, s.lstore p wd vd va vb size put =
        { putLanes put (fun i => (s.hart.ea va vb i).toNat) (s.hart.storeBytes wd vd)
            (landing eff (widthBytes wd) size (s.hart.ea va vb)) s with
          hart := ({ s.hart with lfault := lf, lcomp := lc }).enterTrap false (strayFault .store (widthBytes wd) (s.hart.ea va vb i)) } ∧
      (∀ j, j < 32 → lf.getLsbD j = (eff.getLsbD j && strays (widthBytes wd) size (s.hart.ea va vb j)) ∧
        lc.getLsbD j = (s.hart.lcomp.getLsbD j || (eff.getLsbD j && !(eff.getLsbD j && strays (widthBytes wd) size (s.hart.ea va vb j))))) ∧
      wfield lc 32 2 = s.hart.mode.code := by
  obtain ⟨r, first⟩ := straying_eq_cons hi hs low
  subst he
  have trapped := State.lstore_strays (put := put) hp hr first
  dsimp only at trapped
  rw [Hart.noteDone_eq] at trapped
  refine ⟨_, _, trapped, fun j hj => ⟨getLsbD_maskOfList_straying first hj, ?_⟩, s.hart.wfield_noteDone _⟩
  rw [Hart.getLsbD_noteDone _ _ hj, decide_mem_landing hj]

/-! ## The instructions -/

/-- The bytes of an element of the team's shared memory. -/
def State.shmGet (wd : Width) (s : State) (o : Nat) : List Byte := (s.core s.coreNo).shmBytes (s.share.shBase + o) (widthBytes wd)

/-- The bytes of an element of the team's share of a buffer. -/
def State.tileGet (buf : TBuf) (wd : Width) (s : State) (o : Nat) : List Byte :=
  getBytes ((s.core s.coreNo).buf buf) ((s.share.buf buf).1 + o) (widthBytes wd)

theorem exec_vlds (p : LaneHdr) (wd : Width) (vd va vb : LOp) (s : State) : exec (.vlds p wd vd va vb) s =
    .next ((s.maybeDrainLb s.coreNo).lload p wd vd va vb (s.maybeDrainLb s.coreNo).share.shSize
      (State.shmGet wd)) := rfl

theorem exec_vsts (p : LaneHdr) (wd : Width) (vd va vb : LOp) (s : State) : exec (.vsts p wd vd va vb) s =
    .next ((s.maybeDrainLb s.coreNo).lstore p wd vd va vb (s.maybeDrainLb s.coreNo).share.shSize State.shmPut) := rfl

theorem exec_vldt (p : LaneHdr) (quad : Bool) (buf : TBuf) (vd va vb : LOp) (s : State) : exec (.vldt p quad buf vd va vb) s =
    .next (s.lload p (tileWidth quad) vd va vb (s.share.buf buf).2
      (State.tileGet buf (tileWidth quad))) := rfl

theorem exec_vstt (p : LaneHdr) (quad : Bool) (buf : TBuf) (vd va vb : LOp) (s : State) : exec (.vstt p quad buf vd va vb) s =
    .next (s.lstore p (tileWidth quad) vd va vb (s.share.buf buf).2 (State.tilePut buf)) := rfl

/-- Settles O29, by the list of lanes that stray, whose head is the lowest of them, and by what each lane's store adds to the array. -/
theorem localLaneMemory : Obligations.LocalLaneMemory := by
  intro p wd quad buf i vd va vb s h c s0 act eff off bad within first good info loadTrap storeTrap tw sh
  have hart : s0.hart = s.hart := s.hart_maybeDrainLb c
  have core : s0.coreNo = c := by rw [State.coreNo, hart]; rfl
  have share : s0.share = s.share := by rw [State.share, State.team, State.teams_maybeDrainLb, hart]; rfl
  have plain0 (rs : List Nat) (free : LanesFree s rs) : s0.hart.plainRegs rs := by rw [hart]; exact free
  have loadsAt : exec (.vlds p wd vd va vb) s = .next (s0.lload p wd vd va vb s.share.shSize (State.shmGet wd)) := by
    rw [exec_vlds, ← share]
  have storesAt : exec (.vsts p wd vd va vb) s = .next (s0.lstore p wd vd va vb s.share.shSize State.shmPut) := by
    rw [exec_vsts, ← share]
  refine ⟨fun free => ⟨fun hw => ?_, fun hf => ?_, fun hw => ?_, fun hf => ?_⟩, fun free => ⟨fun hw => ?_, fun hf => ?_, fun hw => ?_, fun hf => ?_⟩⟩
  · have loads := State.lload_within (s := s0) (p := p) (size := s0.share.shSize) (get := State.shmGet wd) (plain0 _ free)
      (straying_eq_nil (by rw [hart, share]; exact hw))
    simp only [State.shmGet, hart, core, share] at loads
    exact ⟨_, loadsAt, loads⟩
  · obtain ⟨hi, hr, hs, low⟩ := hf
    have fault := State.lload_fault (s := s0) (p := p) (size := s0.share.shSize) (get := State.shmGet wd) (plain0 _ free) hi (by rw [hart]; exact hr)
      (by rw [hart, share]; exact hs) (by rw [hart, share]; exact low)
    rw [hart, share] at fault
    exact ⟨_, loadsAt, fault⟩
  · have puts := State.lstore_within (s := s0) (p := p) (size := s0.share.shSize) (put := State.shmPut) (plain0 _ free)
      (straying_eq_nil (by rw [hart, share]; exact hw))
    obtain ⟨kept, stored⟩ := s0.shmStored_putLanes off (h.storeBytes wd vd) (maskLanes eff)
    have stands (k : Hart) := State.shmStored_withHart stored k
    rw [hart, share] at puts
    simp only [State.ShmStored, core, share] at stands
    refine ⟨_, storesAt.trans (congrArg _ puts), ?_, stands _⟩
    exact congrArg (fun k => (Hart.clearDone k).retire) (kept.trans hart)
  · obtain ⟨hi, hr, hs, low⟩ := hf
    have fault := State.lstore_fault (s := s0) (p := p) (size := s0.share.shSize) (put := State.shmPut) (eff := eff) (by rw [hart])
      (plain0 _ free) hi (by rw [hart]; exact hr) (by rw [hart, share]; exact hs) (by rw [hart, share]; exact low)
    rw [hart, share] at fault
    obtain ⟨lf, lc, puts, bits, mode⟩ := fault
    obtain ⟨-, stored⟩ := s0.shmStored_putLanes off (h.storeBytes wd vd) (good wd sh.shSize)
    have stands (k : Hart) := State.shmStored_withHart stored k
    simp only [State.ShmStored, core, share] at stands
    rw [← landing_eq_filter] at puts
    exact ⟨_, storesAt.trans (congrArg _ puts), ⟨lf, lc, rfl, bits, mode⟩, stands _⟩
  · exact ⟨_, exec_vldt p quad buf vd va vb s, State.lload_within (get := State.tileGet buf tw) free (straying_eq_nil hw)⟩
  · obtain ⟨hi, hr, hs, low⟩ := hf
    exact ⟨_, exec_vldt p quad buf vd va vb s, State.lload_fault (get := State.tileGet buf tw) free hi hr hs low⟩
  · have puts := State.lstore_within (put := State.tilePut buf) free (straying_eq_nil hw)
    obtain ⟨kept, stored⟩ := s.tileStored_putLanes buf off (h.storeBytes tw vd) (maskLanes eff)
    refine ⟨_, (exec_vstt p quad buf vd va vb s).trans (congrArg _ puts), ?_, State.tileStored_withHart stored _⟩
    exact congrArg (fun k => (Hart.clearDone k).retire) kept
  · obtain ⟨hi, hr, hs, low⟩ := hf
    obtain ⟨lf, lc, puts, bits, mode⟩ := State.lstore_fault (put := State.tilePut buf) rfl free hi hr hs low
    obtain ⟨-, stored⟩ := s.tileStored_putLanes buf off (h.storeBytes tw vd) (good tw (sh.buf buf).2)
    rw [← landing_eq_filter] at puts
    exact ⟨_, (exec_vstt p quad buf vd va vb s).trans (congrArg _ puts), ⟨lf, lc, rfl, bits, mode⟩, State.tileStored_withHart stored _⟩

end Sys2Proof.Machine
end

section
/-! SUPPORT. The integer lane words (R101 to R107): each is a lane word of one result (`State.laneOp32`) or of a pair, whose value in
a lane is the statement's. -/
namespace Sys2Proof.Machine
open Sys2Proof.Safety

/-! ## Lane words in the terms of the statements -/

section
variable {s : State} {p : LaneHdr} {reads : List Nat} {vd : LOp} {i : Instr}

/-- What the written lanes are may be said more weakly. -/
theorem lanesWritten_imp {h k : Hart} {act : Mask} {v n : Nat} {R R' : Nat → Nat → Lane → Prop} {fl : Nat → BitVec 5}
    (hw : LanesWritten h act v n R fl k) (hR : ∀ j l x, R j l x → R' j l x) : LanesWritten h act v n R' fl k := by
  refine ⟨hw.1, fun r l hl => ?_⟩
  have written := hw.2 r l hl
  split_ifs at written ⊢
  · exact hR _ _ _ written
  · exact written

/-- A lane word of one result writes what holds of its value in each lane. -/
theorem gives_lanesWritten {f : Hart → Nat → Lane × BitVec 5} {R : Nat → Lane → Prop} {fl : Nat → BitVec 5}
    (hi : exec i s = .next (s.laneOp32 p reads vd f)) (free : LanesFree s (reads ++ [vd.toNat]))
    (hR : ∀ l, R l (f s.hart l).1) (hfl : ∀ l, (f s.hart l).2 = fl l) :
    Gives i s (Retires s (LanesWritten s.hart (s.hart.active p) vd.toNat 1 (fun _ l v => R l v) fl)) := by
  obtain ⟨k, hk, written⟩ := State.laneOp_laneOp32 f (State.plainRegs_of_lanesFree free)
  rw [funext hfl] at written
  exact ⟨_, hi, k, hk, lanesWritten_imp written (fun _ l v hv => hv ▸ hR l)⟩

/-- A lane word of one result, its values and flags as the statement writes them. -/
theorem gives_laneOp {f : Hart → Nat → Lane × BitVec 5} {g : Nat → Lane × BitVec 5}
    (hi : exec i s = .next (s.laneOp32 p reads vd f)) (free : LanesFree s (reads ++ [vd.toNat])) (hg : ∀ l, f s.hart l = g l) :
    Gives i s (LaneOp s p vd (fun l => (g l).1) (fun l => (g l).2)) :=
  gives_lanesWritten hi free (fun l => congrArg Prod.fst (hg l)) (fun l => congrArg Prod.snd (hg l))

/-- A lane word of one result without flags. -/
theorem gives_laneInt {f : Hart → Nat → Lane} {g : Nat → Lane} (hi : exec i s = .next (s.laneOp32 p reads vd (fun h l => (f h l, 0))))
    (free : LanesFree s (reads ++ [vd.toNat])) (hg : ∀ l, f s.hart l = g l) : Gives i s (LaneInt s p vd g) :=
  gives_laneOp (g := fun l => (g l, 0)) hi free (fun l => by rw [hg l])

end

/-! ## Packed elements (R11, R101) -/

/-- `k` elements of `n` bits packed, the first lowest. -/
def packed (n : Nat) (g : Nat → Nat) (k : Nat) : Nat := (List.range k).foldl (fun acc j => acc + g j <<< (n * j)) 0

theorem packed_succ (n : Nat) (g : Nat → Nat) (k : Nat) : packed n g (k + 1) = packed n g k + g k * 2 ^ (n * k) := by
  rw [packed, List.range_succ, List.foldl_append, List.foldl_cons, List.foldl_nil, Nat.shiftLeft_eq]; rfl

section
variable {n : Nat} {g : Nat → Nat} (hg : ∀ j, g j < 2 ^ n)
include hg

theorem packed_lt (k : Nat) : packed n g k < 2 ^ (n * k) := by
  induction k with
  | zero => exact Nat.one_pos
  | succ k ih =>
    rw [packed_succ, Nat.mul_succ, pow_add]
    calc packed n g k + g k * 2 ^ (n * k) < 2 ^ (n * k) + g k * 2 ^ (n * k) := Nat.add_lt_add_right ih _
      _ = (g k + 1) * 2 ^ (n * k) := by rw [Nat.add_mul, Nat.one_mul, Nat.add_comm]
      _ ≤ 2 ^ n * 2 ^ (n * k) := Nat.mul_le_mul_right _ (hg k)
      _ = 2 ^ (n * k) * 2 ^ n := Nat.mul_comm _ _

/-- Each element is read back from its place. -/
theorem packed_elem {j k : Nat} (hj : j < k) : packed n g k >>> (n * j) % 2 ^ n = g j := by
  rw [Nat.shiftRight_eq_div_pow]
  induction k with
  | zero => omega
  | succ k ih =>
    rw [packed_succ]
    rcases Nat.lt_succ_iff_lt_or_eq.1 hj with hlt | rfl
    · obtain ⟨d, rfl⟩ : ∃ d, k = j + 1 + d := ⟨k - (j + 1), by omega⟩
      have split : g (j + 1 + d) * 2 ^ (n * (j + 1 + d)) = g (j + 1 + d) * 2 ^ (n * d) * 2 ^ n * 2 ^ (n * j) := by
        rw [Nat.mul_add, Nat.mul_add, Nat.mul_one, pow_add, pow_add]; ring
      rw [split, Nat.add_mul_div_right _ _ (Nat.two_pow_pos _), Nat.add_mul_mod_self_right, ih hlt]
    · rw [Nat.add_mul_div_right _ _ (Nat.two_pow_pos _), Nat.div_eq_of_lt (packed_lt hg j), Nat.zero_add, Nat.mod_eq_of_lt (hg j)]

end

theorem IFmt.wrap_lt (t : IFmt) (v : Int) : t.wrap v < 2 ^ t.n := by
  rw [IFmt.wrap]
  have low := Int.emod_nonneg v (b := (2 ^ t.n : Nat)) (by positivity)
  have high := Int.emod_lt_of_pos v (b := (2 ^ t.n : Nat)) (by positivity)
  omega

/-- The elements of the types that fit a lane fill it. -/
theorem ityFmt_width {t : Ity} (ht : t.is64 = false) : (ityFmt t).n * (32 / (ityFmt t).n) = 32 := by
  revert ht
  cases t <;> decide

/-- A packed result holds `f` of the operands' elements. -/
theorem packed_elems32 {t : Ity} (ht : t.is64 = false) (f : Int → Int → Int) (a b : Lane) :
    Claims.Packed t f a b (BitVec.ofNat 32 (elems32 (ityFmt t) f a.toNat b.toNat)) := by
  intro j hj
  let g (j : Nat) : Nat := (ityFmt t).wrap (f ((ityFmt t).val (a.toNat >>> ((ityFmt t).n * j) % 2 ^ (ityFmt t).n))
    ((ityFmt t).val (b.toNat >>> ((ityFmt t).n * j) % 2 ^ (ityFmt t).n)))
  have hg (j : Nat) : g j < 2 ^ (ityFmt t).n := IFmt.wrap_lt _ _
  have small := packed_lt hg (32 / (ityFmt t).n)
  rw [ityFmt_width ht] at small
  have value : (BitVec.ofNat 32 (elems32 (ityFmt t) f a.toNat b.toNat)).toNat = packed (ityFmt t).n g (32 / (ityFmt t).n) :=
    Nat.mod_eq_of_lt small
  rw [value]
  exact packed_elem hg hj

/-! ## The words of R101 -/

section
variable {s : State} {p : LaneHdr} {t : Ity} {vd va vb : LOp} {i : Instr} {f g : Int → Int → Int}

/-- A packed integer word, its element function as the statement writes it. -/
theorem gives_packedOp (ht : t.is64 = false) (free : LanesFree s (regsOf va 1 ++ regsOf vb 1 ++ [vd.toNat]))
    (hi : exec i s = .next (s.laneInt p t f vd va vb)) (hf : ∀ a b, f a b = g a b) :
    Gives i s (Claims.PackedOp s p t vd va vb g) := by
  obtain rfl : f = g := funext₂ hf
  exact gives_lanesWritten hi free (fun l => packed_elems32 ht f _ _) (fun l => rfl)

theorem laneAddSub_narrow (ht : t.is64 = false) (sub : Bool) :
    s.laneAddSub p t sub vd va vb = s.laneInt p t (fun a b => if sub then a - b else a + b) vd va vb := by
  rw [State.laneAddSub, if_neg (ht ▸ Bool.false_ne_true)]

theorem laneAddSub_pair (ht : t.is64 = true) (sub : Bool) : s.laneAddSub p t sub vd va vb =
    s.laneOp64 p (regsOf va 2 ++ regsOf vb 2) vd (fun h i =>
      (if sub then h.src64 va i - h.src64 vb i else h.src64 va i + h.src64 vb i, 0)) := by
  rw [State.laneAddSub, if_pos ht]

end

theorem packedIntegerArithmetic : Claims.PackedIntegerArithmetic := by
  intro p t vd va vb s ht free
  have quotient (a b : Int) : (a * b).fdiv (2 ^ (ityFmt t).n : Nat) = (a * b) / 2 ^ (ityFmt t).n := by
    rw [Int.fdiv_eq_ediv_of_nonneg _ (Int.natCast_nonneg _)]; push_cast; rfl
  have smaller (a b : Int) : (if a ≤ b then a else b) = min a b := by split_ifs <;> omega
  have greater (a b : Int) : (if a ≤ b then b else a) = max a b := by split_ifs <;> omega
  have distance (a b : Int) : (if a ≤ b then b - a else a - b) = |a - b| := by
    split_ifs with h
    · rw [abs_of_nonpos (by omega)]; ring
    · rw [abs_of_nonneg (by omega)]
  exact ⟨gives_packedOp ht free (congrArg Host.Outcome.next (laneAddSub_narrow ht false)) (fun _ _ => rfl),
    gives_packedOp ht free (congrArg Host.Outcome.next (laneAddSub_narrow ht true)) (fun _ _ => rfl),
    gives_packedOp ht free rfl (fun _ _ => rfl), gives_packedOp ht free rfl quotient, gives_packedOp ht free rfl smaller,
    gives_packedOp ht free rfl greater, gives_packedOp ht free rfl distance, gives_packedOp ht free rfl (fun _ _ => rfl),
    gives_packedOp ht free rfl (fun _ _ => rfl)⟩

theorem pairAddSub : Claims.PairAddSub := by
  intro p t vd va vb s ht free
  have pair (sub : Bool) := State.lanePair_laneOp64 (p := p) (fun h i =>
    (if sub then h.src64 va i - h.src64 vb i else h.src64 va i + h.src64 vb i, 0)) (State.plainRegs_of_lanesFree free)
  simp only [← laneAddSub_pair ht] at pair
  exact ⟨⟨_, rfl, pair false⟩, ⟨_, rfl, pair true⟩⟩

/-- Settles O1: a packed result is read back element by element (`packed_elem`), and the 64-bit forms are lane words of a pair. -/
theorem packedIntegerWords : Obligations.PackedIntegerWords := ⟨packedIntegerArithmetic, pairAddSub⟩

end Sys2Proof.Machine
end

section
/-! SUPPORT. The three-source, bit, unary and immediate lane words (R102 to R107, R114). -/
namespace Sys2Proof.Machine
open Sys2Proof.Safety

/-! ## Three sources (R102, R105) -/

theorem ofInt_toNat (c : Lane) : BitVec.ofInt 32 c.toNat = c := by rw [BitVec.ofInt_natCast, BitVec.ofNat_toNat, BitVec.setWidth_eq]

theorem prod32_signed (a b : Lane) : prod32 false a b = a.toInt * b.toInt := by
  rw [prod32, ← IFmt.val_signed32, ← IFmt.val_signed32]; rfl

theorem prod32_unsigned (a b : Lane) : prod32 true a b = (a.toNat * b.toNat : Nat) := by
  rw [Nat.cast_mul, prod32, ← IFmt.val_unsigned32, ← IFmt.val_unsigned32]; rfl

/-- An addend counts modulo 2^32, so that its sign does not matter. -/
theorem ofInt_add_toNat (x : Int) (c : Lane) : BitVec.ofInt 32 (x + c.toNat) = BitVec.ofInt 32 (x + c.toInt) := by
  rw [BitVec.ofInt_add, BitVec.ofInt_add, ofInt_toNat, BitVec.ofInt_toInt]

theorem vmad_signed (a b c : Lane) : BitVec.ofInt 32 (prod32 false a b + c.toNat) = BitVec.ofInt 32 (a.toInt * b.toInt + c.toInt) := by
  rw [prod32_signed, ofInt_add_toNat]

theorem vmad_unsigned (a b c : Lane) : BitVec.ofInt 32 (prod32 true a b + c.toNat) = a * b + c := by
  rw [prod32_unsigned, Nat.cast_mul, BitVec.ofInt_add, BitVec.ofInt_mul, ofInt_toNat, ofInt_toNat, ofInt_toNat]

theorem prod32_high (unsgn : Bool) (a b : Lane) : (prod32 unsgn a b).fdiv (2 ^ 32 : Nat) = prod32 unsgn a b / 2 ^ 32 := by
  rw [Int.fdiv_eq_ediv_of_nonneg _ (Int.natCast_nonneg _)]; rfl

theorem vmadh_signed (a b c : Lane) : BitVec.ofInt 32 ((prod32 false a b).fdiv (2 ^ 32 : Nat) + c.toNat) =
    BitVec.ofInt 32 (a.toInt * b.toInt / 2 ^ 32 + c.toInt) := by
  rw [prod32_high, prod32_signed, ofInt_add_toNat]

theorem vmadh_unsigned (a b c : Lane) : BitVec.ofInt 32 ((prod32 true a b).fdiv (2 ^ 32 : Nat) + c.toNat) =
    BitVec.ofNat 32 (a.toNat * b.toNat / 2 ^ 32 + c.toNat) := by
  rw [prod32_high, prod32_unsigned, ← BitVec.ofInt_natCast]; push_cast; rfl

theorem funnel_eq (a b c : Lane) : funnel a b c = ((a ++ b) >>> (c.toNat % 32)).extractLsb' 0 32 := by
  rw [funnel, BitVec.setWidth_eq_extractLsb' (by decide)]

theorem bitInsert_eq (a b c : Lane) : bitInsert a b c =
    let fm : Lane := BitVec.ofNat 32 ((2 ^ min (c.extractLsb' 8 6).toNat 32 - 1) <<< (c.toNat % 32))
    (b &&& ~~~fm) ||| ((a <<< (c.toNat % 32)) &&& fm) := by
  rw [BitVec.extractLsb'_toNat, Nat.shiftRight_eq_div_pow]; rfl

/-- Settles O2: each word is a lane word of its function on three sources. -/
theorem threeSourceIntegerWords : Obligations.ThreeSourceIntegerWords := by
  intro p vd va vb vc s free a b c
  exact ⟨gives_laneInt rfl free (fun _ => vmad_signed _ _ _), gives_laneInt rfl free (fun _ => vmad_unsigned _ _ _),
    gives_laneInt rfl free (fun _ => vmadh_signed _ _ _), gives_laneInt rfl free (fun _ => vmadh_unsigned _ _ _),
    gives_laneInt rfl free (fun _ => rfl), gives_laneInt rfl free (fun _ => funnel_eq _ _ _),
    gives_laneInt rfl free (fun _ => bitInsert_eq _ _ _)⟩

/-! ## Two-source bit words (R104, R106) -/

theorem rotateLeft_eq (a b : Lane) :
    a.rotateLeft (b.toNat % 32) = (a <<< (b.toNat % 32)) ||| (a >>> ((32 - b.toNat % 32) % 32)) := by
  have small : b.toNat % 32 < 32 := Nat.mod_lt _ (by decide)
  generalize b.toNat % 32 = n at small ⊢
  rw [BitVec.rotateLeft_def, Nat.mod_eq_of_lt small]
  rcases Nat.eq_zero_or_pos n with rfl | pos
  · rw [BitVec.ushiftRight_eq_zero (by decide)]; simp
  · rw [Nat.mod_eq_of_lt (by omega : 32 - n < 32)]

theorem permByte_lt (a : Lane) (sel : Nat) : permByte a sel < 2 ^ 8 := by
  unfold permByte
  dsimp only
  split
  · exact Nat.mod_lt _ (by decide)
  · decide
  · split_ifs <;> decide
  · decide

/-- What a selector of `vperm` takes. -/
theorem permByte_eq (a : Lane) {k : Nat} (hk : k < 16) : permByte a k =
    let byte := a.toNat / 256 ^ (k % 4) % 256
    if k / 4 = 0 then byte else if k / 4 = 1 then 0 else if k / 4 = 2 then (if byte < 128 then 0 else 255) else 255 := by
  have place : a.toNat >>> (8 * (k % 4)) = a.toNat / 256 ^ (k % 4) := by rw [Nat.shiftRight_eq_div_pow, pow_mul]; rfl
  have sign (n : Nat) : (if 128 ≤ n then 255 else 0) = if n < 128 then 0 else 255 := by split_ifs <;> omega
  have quarter : k / 4 < 4 := by omega
  rw [permByte, place, sign, Nat.mod_eq_of_lt quarter]
  dsimp only
  interval_cases k / 4 <;> rfl

/-- `vperm`, byte by byte. -/
theorem permute_byte (a b : Lane) {j : Nat} (hj : j < 4) :
    (permute a b).toNat / 256 ^ j % 256 = permByte a (b.toNat / 16 ^ j % 16) := by
  let g (j : Nat) : Nat := permByte a (b.toNat >>> (4 * j) % 16)
  have hg (j : Nat) : g j < 2 ^ 8 := permByte_lt _ _
  have value : (permute a b).toNat = packed 8 g 4 := Nat.mod_eq_of_lt (packed_lt hg 4)
  have elem := packed_elem hg hj
  rw [Nat.shiftRight_eq_div_pow, pow_mul] at elem
  rw [value]
  exact elem.trans (by simp only [g]; rw [Nat.shiftRight_eq_div_pow, pow_mul]; rfl)

theorem bitWords : Claims.BitWords := by
  intro p vd va vb s free a b
  exact ⟨gives_laneInt rfl free (fun _ => rfl), gives_laneInt rfl free (fun _ => rfl), gives_laneInt rfl free (fun _ => rfl),
    gives_laneInt rfl free (fun _ => rfl), gives_laneInt rfl free (fun _ => rfl), gives_laneInt rfl free (fun _ => rfl),
    gives_laneInt rfl free (fun _ => rfl), gives_laneInt rfl free (fun _ => rotateLeft_eq _ _),
    gives_lanesWritten rfl free (fun l j hj => (permute_byte _ _ hj).trans (permByte_eq _ (Nat.mod_lt _ (by decide)))) (fun _ => rfl)⟩

/-! ## Unary words (R107, R114) -/

theorem toNat_ofNat32_of_le {n : Nat} (h : n ≤ 32) : (BitVec.ofNat 32 n).toNat = n := Nat.mod_eq_of_lt (by omega)

theorem reverse_bit (x : Lane) {b : Nat} (hb : b < 32) : x.reverse.getLsbD (31 - b) = x.getLsbD b := by
  rw [BitVec.getLsbD_reverse, BitVec.getMsbD, show 32 - 1 - (31 - b) = b by omega, decide_eq_true (by omega), Bool.true_and]

/-- The leading zeros end at the highest one. -/
theorem clz_spec (x : Lane) : let n := (BitVec.ofNat 32 (clzN 32 x.toNat)).toNat
    n ≤ 32 ∧ x.toNat < 2 ^ (32 - n) ∧ (n < 32 → 2 ^ (31 - n) ≤ x.toNat) := by
  rcases Nat.eq_zero_or_pos x.toNat with zero | pos
  · rw [clzN, if_pos zero, zero]; decide
  · have top : Nat.log2 x.toNat < 32 := (Nat.log2_lt pos.ne').2 x.isLt
    rw [clzN, if_neg pos.ne', toNat_ofNat32_of_le (by omega)]
    refine ⟨by omega, ?_, fun _ => ?_⟩
    · rw [show 32 - (32 - 1 - Nat.log2 x.toNat) = Nat.log2 x.toNat + 1 by omega]; exact Nat.lt_log2_self
    · rw [show 31 - (32 - 1 - Nat.log2 x.toNat) = Nat.log2 x.toNat by omega]; exact Nat.log2_self_le pos.ne'

/-- The trailing zeros end at the lowest one. -/
theorem ctz_spec (x : Lane) : let n := (BitVec.ofNat 32 (ctzN 32 x.toNat)).toNat
    n ≤ 32 ∧ (∀ b, b < n → x.getLsbD b = false) ∧ (n < 32 → x.getLsbD n = true) := by
  rw [ctzN]
  cases found : (List.range 32).find? (fun i => x.toNat.testBit i) with
  | none =>
    rw [List.find?_range_eq_none] at found
    exact ⟨le_rfl, fun b hb => (Bool.not_eq_true' _).mp (found b hb), fun h => absurd h (by decide)⟩
  | some n =>
    rw [List.find?_range_eq_some] at found
    obtain ⟨one, inside, zeros⟩ := found
    have small : n < 32 := List.mem_range.1 inside
    rw [Option.getD_some, toNat_ofNat32_of_le small.le]
    exact ⟨small.le, fun b hb => (Bool.not_eq_true' _).mp (zeros b hb), fun _ => one⟩

theorem pop_spec (x : Lane) : (BitVec.ofNat 32 (popN 32 x.toNat)).toNat = (List.range 32).countP (fun b => x.getLsbD b) := by
  have few : popN 32 x.toNat ≤ 32 := (List.length_filter_le _ _).trans (List.length_range).le
  rw [toNat_ofNat32_of_le few, popN, ← List.countP_eq_length_filter]; rfl

theorem absLane_s32 (a : Lane) : absLane .s32 a = BitVec.ofInt 32 |a.toInt| := by
  rw [absLane]
  rcases Bool.eq_false_or_eq_true a.msb with neg | pos
  · rw [if_pos neg, abs_of_neg (BitVec.toInt_neg_of_msb_true neg), BitVec.ofInt_neg, BitVec.ofInt_toInt]
  · rw [if_neg (by rw [pos]; decide), abs_of_nonneg (BitVec.toInt_nonneg_of_msb_false pos), BitVec.ofInt_toInt]

theorem unaryWords : Claims.UnaryWords := by
  intro p vd va s free a tells
  refine ⟨gives_laneInt rfl free (fun _ => rfl), gives_laneInt rfl free (fun _ => rfl),
    gives_lanesWritten rfl free (fun _ _ hb => reverse_bit _ hb) (fun _ => rfl),
    gives_lanesWritten rfl free (fun _ => clz_spec _) (fun _ => rfl), gives_lanesWritten rfl free (fun _ => ctz_spec _) (fun _ => rfl),
    gives_lanesWritten rfl free (fun _ => pop_spec _) (fun _ => rfl), gives_laneInt rfl free (fun _ => rfl),
    gives_laneInt rfl free (fun _ => absLane_s32 _), gives_laneInt rfl free (fun _ => rfl), gives_laneInt rfl free (fun _ => rfl),
    fun t ht => ?_⟩
  rcases ht with rfl | rfl
  · exact ⟨gives_laneInt rfl free (fun _ => rfl), gives_laneInt rfl free (fun _ => rfl)⟩
  · exact ⟨gives_laneInt rfl free (fun _ => rfl), gives_laneInt rfl free (fun _ => rfl)⟩

/-! ## Immediate words (R103) -/

theorem immediateWords : Claims.ImmediateWords := by
  intro p imm sh vd va s free a m
  have freeD : LanesFree s ([] ++ [vd.toNat]) := fun r hr => free r (List.mem_append_right _ hr)
  exact ⟨gives_laneInt rfl freeD (fun _ => rfl), gives_laneInt rfl free (fun _ => rfl), gives_laneInt rfl free (fun _ => rfl),
    gives_laneInt rfl free (fun _ => rfl), gives_laneInt rfl free (fun _ => rfl), gives_laneInt rfl free (fun _ => rfl),
    gives_laneInt rfl free (fun _ => rfl), gives_laneInt rfl free (fun _ => rfl), gives_laneInt rfl free (fun _ => rfl)⟩

/-- Settles O3: each word is a lane word of its function, whose bits are the statement's. -/
theorem bitUnaryImmediateWords : Obligations.BitUnaryImmediateWords := ⟨bitWords, unaryWords, immediateWords⟩

end Sys2Proof.Machine
end

section
/-! SUPPORT. Exact values on the grid of a format (R12, R18): a pattern's sign and magnitude, and that rounding keeps what the format
holds. -/
namespace Sys2Proof.Machine

/-! ## Sign and magnitude of a pattern -/

theorem Fmt.signWeight_eq (f : Fmt) : f.signWeight = 2 ^ f.expBits * 2 ^ f.manBits := pow_add _ _ _

theorem Fmt.signWeight_pos (f : Fmt) : 0 < f.signWeight := Nat.two_pow_pos _

/-- The sign bit above a magnitude pattern turns the sign of its value. -/
theorem fval_signWeight_add (f : Fmt) {c : Nat} (hc : c < f.signWeight) : fval f (f.signWeight + c) = (fval f c).negate := by
  have sign : (f.signWeight + c) / f.signWeight = 1 := by
    rw [Nat.add_div_left _ f.signWeight_pos, Nat.div_eq_of_lt hc]
  have exponent : (f.signWeight + c) / 2 ^ f.manBits % 2 ^ f.expBits = c / 2 ^ f.manBits % 2 ^ f.expBits := by
    rw [f.signWeight_eq, Nat.mul_comm, Nat.mul_add_div (Nat.two_pow_pos _), Nat.add_mod_left]
  have mantissa : (f.signWeight + c) % 2 ^ f.manBits = c % 2 ^ f.manBits := by
    rw [f.signWeight_eq, Nat.mul_add_mod_self_right]
  simp only [fval, sign, exponent, mantissa, Nat.div_eq_of_lt hc]
  split_ifs <;> rfl

/-- The value of a pattern is that of its magnitude, with its sign. -/
theorem fval_eq_sign_magnitude (f : Fmt) (b : Nat) :
    fval f b = if b / f.signWeight % 2 = 1 then (fval f (b % f.signWeight)).negate else fval f (b % f.signWeight) := by
  have low : b % f.signWeight < f.signWeight := Nat.mod_lt _ f.signWeight_pos
  have parts := Nat.div_add_mod b f.signWeight
  have exponent : b % f.signWeight / 2 ^ f.manBits = b / 2 ^ f.manBits % 2 ^ f.expBits := by
    rw [f.signWeight_eq, Nat.mod_mul_left_div_self]
  have mantissa : b % f.signWeight % 2 ^ f.manBits = b % 2 ^ f.manBits := by
    rw [f.signWeight_eq, Nat.mod_mul_left_mod]
  split_ifs with h
  · rw [fval]
    simp only [h]
    rw [fval]
    simp only [exponent, mantissa, Nat.div_eq_of_lt low, Nat.mod_mod]
    split_ifs <;> rfl
  · have zero : b / f.signWeight % 2 = 0 := by omega
    simp only [fval, zero, exponent, mantissa, Nat.div_eq_of_lt low, Nat.mod_mod]

/-- Infinity follows the largest finite value. -/
theorem maxFinite_add_one {f : Fmt} (h : f.hasInf = true) : f.maxFinite + 1 = (2 ^ f.expBits - 1) * 2 ^ f.manBits := by
  revert h
  cases f <;> decide

/-- The finite patterns end at the largest finite value. -/
theorem le_maxFinite_of_fval {f : Fmt} {c : Nat} (hc : c < f.signWeight) {n : Bool} {m : Nat} {e : Int} (hv : fval f c = .fin n m e) :
    c ≤ f.maxFinite := by
  by_contra above
  rcases Bool.eq_false_or_eq_true f.hasInf with inf | noInf
  · have top : c / 2 ^ f.manBits % 2 ^ f.expBits = 2 ^ f.expBits - 1 := by
      have low : 2 ^ f.expBits - 1 ≤ c / 2 ^ f.manBits := by
        rw [Nat.le_div_iff_mul_le (Nat.two_pow_pos _), ← maxFinite_add_one inf]
        omega
      have high : c / 2 ^ f.manBits < 2 ^ f.expBits := by
        rw [Nat.div_lt_iff_lt_mul (Nat.two_pow_pos _), ← f.signWeight_eq]; exact hc
      rw [Nat.mod_eq_of_lt high]; omega
    rw [fval, inf, top] at hv
    simp only [beq_self_eq_true, Bool.and_self, if_true] at hv
    split_ifs at hv
  · cases f with
    | e4m3 =>
      obtain rfl : c = 0x7F := by simp only [Fmt.signWeight, Fmt.maxFinite, Fmt.expBits, Fmt.manBits] at hc above; omega
      exact absurd hv (by rw [show fval .e4m3 0x7F = .nan false by decide]; exact FVal.noConfusion)
    | e2m1 => simp only [Fmt.signWeight, Fmt.maxFinite, Fmt.expBits, Fmt.manBits] at hc above; omega
    | _ => simp [Fmt.hasInf] at noInf

section
variable {f : Fmt} {c : Nat}

/-- The value of a magnitude pattern under a sign. -/
theorem fval_signBits_add (neg : Bool) (hc : c ≤ f.maxFinite) : fval f (signBits f neg + c) =
    .fin neg (c - f.step c * 2 ^ f.manBits) ((f.step c : Int) + f.emin - f.manBits) := by
  cases neg with
  | false => rw [signBits, if_neg Bool.false_ne_true, Nat.zero_add, fval_of_le_maxFinite hc]
  | true => rw [signBits, if_pos rfl, fval_signWeight_add f (hc.trans_lt f.maxFinite_lt.1), fval_of_le_maxFinite hc]; rfl

theorem ratOf_fval (hc : c ≤ f.maxFinite) : Claims.ratOf (fval f c) = some (f.grid c) := by
  rw [fval_of_le_maxFinite hc]
  simp [Claims.ratOf, Fmt.grid]

theorem ratOf_signBits_add (neg : Bool) (hc : c ≤ f.maxFinite) :
    Claims.ratOf (fval f (signBits f neg + c)) = some ((if neg then -1 else 1) * f.grid c) := by
  rw [fval_signBits_add neg hc, Claims.ratOf, Fmt.grid, mul_assoc]

/-- A finite value is that of its magnitude pattern on the grid, with its sign. -/
theorem grid_of_fval {b : Nat} {n : Bool} {m : Nat} {e : Int} (hv : fval f b = .fin n m e) :
    b % f.signWeight ≤ f.maxFinite ∧ n = (b / f.signWeight % 2 == 1) ∧ (m : ℚ) * 2 ^ e = f.grid (b % f.signWeight) ∧
      m = b % f.signWeight - f.step (b % f.signWeight) * 2 ^ f.manBits ∧ e = (f.step (b % f.signWeight) : Int) + f.emin - f.manBits := by
  have low : b % f.signWeight < f.signWeight := Nat.mod_lt _ f.signWeight_pos
  rw [fval_eq_sign_magnitude] at hv
  have finite : b % f.signWeight ≤ f.maxFinite := by
    split_ifs at hv
    · cases hw : fval f (b % f.signWeight) with
      | nan s => rw [hw] at hv; cases hv
      | inf s => rw [hw] at hv; cases hv
      | fin n' m' e' => exact le_maxFinite_of_fval low hw
    · exact le_maxFinite_of_fval low hv
  rw [fval_of_le_maxFinite finite] at hv
  have sign : n = (b / f.signWeight % 2 == 1) ∧ m = b % f.signWeight - f.step (b % f.signWeight) * 2 ^ f.manBits ∧
      e = (f.step (b % f.signWeight) : Int) + f.emin - f.manBits := by
    split_ifs at hv with h
    · obtain ⟨rfl, rfl, rfl⟩ := FVal.fin.inj hv
      exact ⟨by rw [h]; rfl, rfl, rfl⟩
    · obtain ⟨rfl, rfl, rfl⟩ := FVal.fin.inj hv
      exact ⟨(beq_eq_false_iff_ne.2 h).symm, rfl, rfl⟩
  obtain ⟨hn, rfl, rfl⟩ := sign
  exact ⟨finite, hn, rfl, rfl, rfl⟩

/-- The significand of a finite value has at most one bit more than the mantissa, and its unit is no smaller than a subnormal's. -/
theorem fval_bounds {b : Nat} {n : Bool} {m : Nat} {e : Int} (hv : fval f b = .fin n m e) :
    m < 2 ^ (f.manBits + 1) ∧ f.emin - f.manBits ≤ e := by
  obtain ⟨-, -, -, rfl, rfl⟩ := grid_of_fval hv
  generalize b % f.signWeight = c
  have high : c < (f.step c + 2) * 2 ^ f.manBits :=
    (Nat.lt_div_mul_add (Nat.two_pow_pos _)).trans_le
      (by rw [← Nat.succ_mul]; exact Nat.mul_le_mul_right _ (by unfold Fmt.step; omega))
  rw [Nat.add_mul] at high
  refine ⟨?_, by omega⟩
  rw [pow_succ]
  have pos := Nat.two_pow_pos f.manBits
  generalize 2 ^ f.manBits = unit at high pos ⊢
  omega

end

/-! ## Rounding what the format holds -/

theorem Fmt.grid_zero (f : Fmt) : f.grid 0 = 0 := by simp [Fmt.grid]

theorem Fmt.grid_inj (f : Fmt) {c d : Nat} : f.grid c = f.grid d ↔ c = d := f.grid_strictMono.injective.eq_iff

section
variable {f : Fmt} {rm : Rm} {sat neg : Bool} {m : Nat} {e : Int}

/-- R18: zero keeps its sign. -/
theorem roundTo_zero : roundTo f rm sat neg 0 e false = ⟨signBits f neg, 0⟩ := rfl

/-- R18: a value on the grid stays as it is, without a flag. -/
theorem roundTo_of_grid (hrm : rm ≠ .dyn) {c : Nat} (hc : c ≤ f.maxFinite) (hx : (m : ℚ) * 2 ^ e = f.grid c) :
    roundTo f rm sat neg m e false = ⟨signBits f neg + c, 0⟩ := by
  rcases Nat.eq_zero_or_pos m with rfl | pos
  · obtain rfl : c = 0 := f.grid_inj.1 (by rw [f.grid_zero, ← hx]; simp)
    exact roundTo_zero
  · have hm := pos.ne'
    have known : Known m e false (f.grid c : ℝ) := by
      have := Known.exact m e
      rwa [show (m : ℝ) * 2 ^ e = (f.grid c : ℝ) by rw [← hx]; push_cast; rfl] at this
    obtain ⟨lo, chosen, inexact⟩ := known.pattern_chosen (f := f) (neg := neg) hrm hm (by simp)
    obtain rfl : lo = c :=
      le_antisymm (f.grid_le.1 chosen.lower) (Nat.lt_succ_iff.1 (f.grid_lt.1 chosen.upper))
    have kept := chosen.kept (fun up => lt_irrefl _ (up.lt (f.grid_lt.2 (Nat.lt_succ_self _))))
    have nothingDropped : (roundAt rm neg m e (f.unit m e) false).2 = false := Bool.eq_false_iff.2 (fun h => lt_irrefl _ (inexact.1 h))
    rw [roundTo_eq hm, kept, if_neg (Nat.not_lt.2 hc), nothingDropped]
    rfl

/-- A significand that fits, with a unit no smaller than a subnormal's, is on the grid. -/
theorem exists_grid_eq (hm : m < 2 ^ (f.manBits + 1)) (he : f.emin - f.manBits ≤ e) (hx : (m : ℚ) * 2 ^ e < f.grid (f.maxFinite + 1)) :
    ∃ c, c ≤ f.maxFinite ∧ (m : ℚ) * 2 ^ e = f.grid c := by
  rcases Nat.eq_zero_or_pos m with rfl | pos
  · exact ⟨0, Nat.zero_le _, by rw [f.grid_zero]; simp⟩
  · have bits : Nat.log2 m < f.manBits + 1 := (Nat.log2_lt pos.ne').2 hm
    have unit : f.unit m e ≤ e := by unfold Fmt.unit; split_ifs <;> omega
    have scale : (m : ℝ) * 2 ^ e = ((m * 2 ^ (e - f.unit m e).toNat : Nat) : ℝ) * 2 ^ f.unit m e := by
      rw [two_zpow_eq_mul unit]; push_cast; ring
    have above : (0 : ℝ) < 2 ^ f.unit m e := by positivity
    obtain ⟨value, -⟩ := (Known.exact m e).grid_pattern (f := f) pos.ne' scale.ge (by linarith)
    rw [← scale] at value
    have rational : (m : ℚ) * 2 ^ e = f.grid (f.pattern m e (m * 2 ^ (e - f.unit m e).toNat)) :=
      Rat.cast_injective (α := ℝ) (by rw [value]; push_cast; rfl)
    rw [rational] at hx
    exact ⟨_, Nat.lt_succ_iff.1 (f.grid_strictMono.lt_iff_lt.1 hx), rational⟩

end

end Sys2Proof.Machine
end

section
/-! SUPPORT. Sums, products and multiply-adds of finite values (R110 to R112), and the dot products (R115): the exact value, rounded
once. -/
namespace Sys2Proof.Machine

/-! ## The flush of a result (R16, R23) -/

theorem flushed_flushRes {f : Fmt} (hf : f = .f64 ∨ f = .f32 ∨ f = .f16 ∨ f = .bf16) (r : FRes) : Claims.Flushed f r (flushRes f r) := by
  have narrow : f.narrow = true ↔ f = .f16 ∨ f = .bf16 := by rcases hf with rfl | rfl | rfl | rfl <;> decide
  simp only [Claims.Flushed, flushRes, Bool.and_eq_true, narrow, bne_iff_ne, decide_eq_true_eq, and_assoc]
  split_ifs <;> rfl

/-- What is no subnormal stays. -/
theorem flushRes_of_normal {f : Fmt} {r : FRes} (h : r.bits % f.signWeight = 0 ∨ 2 ^ f.manBits ≤ r.bits % f.signWeight) :
    flushRes f r = r := by
  rw [flushRes]
  refine if_neg (fun hcond => ?_)
  simp only [Bool.and_eq_true, bne_iff_ne, decide_eq_true_eq] at hcond
  omega

@[simp] theorem flushRes_zero (f : Fmt) (neg : Bool) (fl : Flags) : flushRes f ⟨signBits f neg, fl⟩ = ⟨signBits f neg, fl⟩ :=
  flushRes_of_normal (.inl (by cases neg <;> simp [signBits]))

theorem inf_normal (f : Fmt) (neg : Bool) : 2 ^ f.manBits ≤ (signBits f neg + f.infBits) % f.signWeight := by
  cases f <;> cases neg <;> decide

@[simp] theorem flushRes_inf (f : Fmt) (neg : Bool) (fl : Flags) :
    flushRes f ⟨signBits f neg + f.infBits, fl⟩ = ⟨signBits f neg + f.infBits, fl⟩ :=
  flushRes_of_normal (.inr (inf_normal f neg))

@[simp] theorem flushRes_canon (f : Fmt) (fl : Flags) : flushRes f (canonRes f fl) = canonRes f fl :=
  flushRes_of_normal (by cases f <;> simp only [canonRes] <;> decide)

/-! ## Sums -/

/-- The exact value of a sign, a significand and an exponent. -/
def exactly (n : Bool) (m : Nat) (e : Int) : ℚ := (if n then -1 else 1) * (m : ℚ) * 2 ^ e

theorem exactly_negate (n : Bool) (m : Nat) (e : Int) : exactly (!n) m e = -exactly n m e := by cases n <;> simp [exactly]

theorem exactly_mul (n1 n2 : Bool) (m1 m2 : Nat) (e1 e2 : Int) :
    exactly (n1 != n2) (m1 * m2) (e1 + e2) = exactly n1 m1 e1 * exactly n2 m2 e2 := by
  unfold exactly
  rw [zpow_add₀ two_ne_zero, Nat.cast_mul]
  cases n1 <;> cases n2 <;> simp <;> ring

theorem exactly_eq_zero {n : Bool} {m : Nat} {e : Int} : exactly n m e = 0 ↔ m = 0 := ratOf_fin_eq_zero n m e

/-- The sign and the magnitude of an exact value other than zero. -/
theorem exactly_sign_magnitude {n : Bool} {m : Nat} {e : Int} (h : exactly n m e ≠ 0) :
    n = decide (exactly n m e < 0) ∧ m ≠ 0 ∧ |exactly n m e| = (m : ℚ) * 2 ^ e := by
  obtain ⟨m', e', hv, hm, magnitude⟩ := sign_magnitude_of_ratOf (v := .fin n m e) rfl h
  obtain ⟨sign, rfl, rfl⟩ := FVal.fin.inj hv
  exact ⟨sign, hm, magnitude⟩

theorem exists_exactly {v : FVal} {q : ℚ} (h : Claims.ratOf v = some q) : ∃ n m e, v = .fin n m e ∧ q = exactly n m e := fin_of_ratOf h

/-- An integer times a power of two. -/
theorem exactly_int (v e : Int) : exactly (decide (v < 0)) v.natAbs e = (v : ℚ) * 2 ^ e := by
  rw [exactly, Nat.cast_natAbs]
  rcases lt_or_ge v 0 with neg | pos
  · rw [decide_eq_true neg, abs_of_neg neg]; simp
  · rw [decide_eq_false (not_lt.2 pos), abs_of_nonneg pos]; simp

theorem scaled_mul_zpow_rat (n : Bool) (m : Nat) {e e0 : Int} (h : e0 ≤ e) : (scaled n m e e0 : ℚ) * 2 ^ e0 = exactly n m e := by
  have real := scaled_mul_zpow n m h
  refine Rat.cast_injective (α := ℝ) ?_
  push_cast [exactly]
  rw [real]
  cases n <;> simp

section
variable {f : Fmt} {rm : Rm} {n1 n2 : Bool} {m1 m2 : Nat} {e1 e2 : Int}

/-- The aligned sum stands for the exact one. -/
theorem scaled_add_scaled : let e0 := if e1 ≤ e2 then e1 else e2
    ((scaled n1 m1 e1 e0 + scaled n2 m2 e2 e0 : Int) : ℚ) * 2 ^ e0 = exactly n1 m1 e1 + exactly n2 m2 e2 := by
  intro e0
  have le1 : e0 ≤ e1 := by simp only [e0]; split_ifs <;> omega
  have le2 : e0 ≤ e2 := by simp only [e0]; split_ifs <;> omega
  rw [Int.cast_add, add_mul, scaled_mul_zpow_rat n1 m1 le1, scaled_mul_zpow_rat n2 m2 le2]

/-- R110: a sum that comes to zero. -/
theorem addFin_of_eq_zero (h : exactly n1 m1 e1 + exactly n2 m2 e2 = 0) : addFin f rm n1 m1 e1 n2 m2 e2 =
    ⟨signBits f (if m1 == 0 && m2 == 0 && n1 == n2 then n1 else rm == .rdn), 0⟩ := by
  have sum := scaled_add_scaled (n1 := n1) (m1 := m1) (e1 := e1) (n2 := n2) (m2 := m2) (e2 := e2)
  dsimp only at sum
  rw [h, mul_eq_zero, or_iff_left (by positivity), Int.cast_eq_zero] at sum
  rw [addFin, sum]
  rfl

/-- R110: a sum of two zeros, or of a value and its opposite, which a nonzero significand tells apart. -/
theorem addFin_of_opposite (h : exactly n1 m1 e1 + exactly n2 m2 e2 = 0) (hm : m1 ≠ 0 ∨ m2 ≠ 0) :
    addFin f rm n1 m1 e1 n2 m2 e2 = ⟨signBits f (rm == .rdn), 0⟩ := by
  have notZeros : (m1 == 0 && m2 == 0) = false := by rcases hm with hm | hm <;> simp [hm]
  rw [addFin_of_eq_zero h, notZeros]
  rfl

/-- Any other sum is rounded once. -/
theorem addFin_of_ne_zero {t : ℚ} (ht : exactly n1 m1 e1 + exactly n2 m2 e2 = t) (h : t ≠ 0) :
    ∃ (m : Nat) (e : Int), m ≠ 0 ∧ |t| = (m : ℚ) * 2 ^ e ∧ addFin f rm n1 m1 e1 n2 m2 e2 = roundTo f rm false (decide (t < 0)) m e false := by
  have sum := scaled_add_scaled (n1 := n1) (m1 := m1) (e1 := e1) (n2 := n2) (m2 := m2) (e2 := e2)
  rw [addFin]
  dsimp only at sum ⊢
  rw [ht] at sum
  generalize (if e1 ≤ e2 then e1 else e2) = e0 at sum ⊢
  generalize scaled n1 m1 e1 e0 + scaled n2 m2 e2 e0 = v at sum ⊢
  have unit : (0 : ℚ) < 2 ^ e0 := by positivity
  have nonzero : v ≠ 0 := by rintro rfl; exact h (by rw [← sum]; simp)
  have sign : decide (v < 0) = decide (t < 0) := by
    refine decide_eq_decide.2 ?_
    rw [← sum, mul_neg_iff, or_iff_right (fun h => unit.not_gt h.2), and_iff_left unit, Int.cast_lt_zero]
  refine ⟨v.natAbs, e0, Int.natAbs_ne_zero.2 nonzero, ?_, ?_⟩
  · rw [← sum, abs_mul, abs_of_pos unit, Nat.cast_natAbs, Int.cast_abs]
  · rw [if_neg (by simpa using nonzero), sign]

end

/-! ## Delivery -/

section
variable {f : Fmt} {rm : Rm}

/-- A rounding of a nonzero exact value. -/
theorem roundedRes_of_abs (hrm : rm ≠ .dyn) {t : ℚ} {m : Nat} {e : Int} (hm : m ≠ 0) (ht : |t| = (m : ℚ) * 2 ^ e) :
    Claims.RoundedRes f rm false (decide (t < 0)) ((|t| : ℚ) : ℝ) (roundTo f rm false (decide (t < 0)) m e false) := by
  have rounded := (Known.exact m e).roundedRes (f := f) (neg := decide (t < 0)) hrm hm (fun h => Bool.noConfusion h) false
  rw [ht]
  push_cast
  exact rounded

theorem delivers_of_abs (hf : f = .f64 ∨ f = .f32 ∨ f = .f16 ∨ f = .bf16) (hrm : rm ≠ .dyn) {t : ℚ} {m : Nat} {e : Int} (hm : m ≠ 0)
    (ht : |t| = (m : ℚ) * 2 ^ e) : Claims.Delivers f rm t (flushRes f (roundTo f rm false (decide (t < 0)) m e false)) :=
  ⟨_, roundedRes_of_abs hrm hm ht, flushed_flushRes hf _⟩

/-- A flushed sum of two finite values delivers their exact sum, or the zero of the mode. -/
theorem addVal_delivers (hf : f = .f64 ∨ f = .f32 ∨ f = .f16 ∨ f = .bf16) (hrm : rm ≠ .dyn) (n1 n2 : Bool) (m1 m2 : Nat) (e1 e2 : Int)
    {s : ℚ} (hs : exactly n1 m1 e1 + exactly n2 m2 e2 = s) :
    let r := flushRes f (addVal f rm (.fin n1 m1 e1) (.fin n2 m2 e2))
    (s ≠ 0 → Claims.Delivers f rm s r) ∧ (s = 0 → m1 ≠ 0 ∨ m2 ≠ 0 → r = ⟨signBits f (rm == .rdn), 0⟩) := by
  refine ⟨fun h => ?_, fun h hm => ?_⟩
  · obtain ⟨m, e, hm, ht, sum⟩ := addFin_of_ne_zero (f := f) (rm := rm) hs h
    rw [addVal, sum]
    exact delivers_of_abs hf hrm hm ht
  · rw [addVal, addFin_of_opposite (hs.trans h) hm, flushRes_zero]

section
variable {n1 n2 n3 : Bool} {m1 m2 m3 : Nat} {e1 e2 e3 : Int} {a b c : Nat} (ha : fin f a = .fin n1 m1 e1) (hb : fin f b = .fin n2 m2 e2)
include ha hb

theorem fadd_of_fin (sub : Bool) : fadd f rm sub a b = flushRes f (addVal f rm (.fin n1 m1 e1) (.fin (n2 != sub) m2 e2)) := by
  rw [fadd, ha, hb]
  cases sub
  · rw [Bool.bne_false]; rfl
  · rw [Bool.bne_true]; rfl

theorem fmul_of_fin : fmul f rm a b = flushRes f (roundTo f rm false (n1 != n2) (m1 * m2) (e1 + e2) false) := by
  rw [fmul, ha, hb]; rfl

theorem ffma_of_fin (hc : fin f c = .fin n3 m3 e3) (negP negC : Bool) : ffma f rm negP negC a b c =
    flushRes f (addVal f rm (.fin ((n1 != n2) != negP) (m1 * m2) (e1 + e2)) (.fin (n3 != negC) m3 e3)) := by
  rw [ffma, ha, hb, hc]
  cases negP <;> cases negC <;> simp only [Bool.bne_false, Bool.bne_true] <;> rfl

end

/-- The value under a sign that may be turned. -/
theorem exactly_bne (n neg : Bool) (m : Nat) (e : Int) : exactly (n != neg) m e = if neg then -exactly n m e else exactly n m e := by
  cases neg
  · rw [Bool.bne_false]; rfl
  · rw [Bool.bne_true, exactly_negate]; rfl

/-- R110 to R112: the sum, the product and the multiply-add of finite values. -/
theorem finite_arithmetic_delivers (hf : f = .f64 ∨ f = .f32 ∨ f = .f16 ∨ f = .bf16) (hrm : rm ≠ .dyn) {a b c : Nat} {p q t : ℚ}
    (ha : Claims.ratOf (fin f a) = some p) (hb : Claims.ratOf (fin f b) = some q) (hc : Claims.ratOf (fin f c) = some t) :
    let zero : FRes := ⟨signBits f (rm == .rdn), 0⟩
    (p * q ≠ 0 → Claims.Delivers f rm (p * q) (fmul f rm a b)) ∧
    (p * q = 0 → fmul f rm a b = ⟨signBits f ((fin f a).neg != (fin f b).neg), 0⟩) ∧
    (∀ sub : Bool, let s : ℚ := p + (if sub then -q else q)
      (s ≠ 0 → Claims.Delivers f rm s (fadd f rm sub a b)) ∧ (s = 0 → p ≠ 0 → fadd f rm sub a b = zero)) ∧
    (∀ negP negC : Bool, let s : ℚ := (if negP then -(p * q) else p * q) + (if negC then -t else t)
      (s ≠ 0 → Claims.Delivers f rm s (ffma f rm negP negC a b c)) ∧
      (s = 0 → t ≠ 0 → ffma f rm negP negC a b c = zero)) := by
  obtain ⟨n1, m1, e1, hx, rfl⟩ := exists_exactly ha
  obtain ⟨n2, m2, e2, hy, rfl⟩ := exists_exactly hb
  obtain ⟨n3, m3, e3, hz, rfl⟩ := exists_exactly hc
  refine ⟨fun h => ?_, fun h => ?_, fun sub => ?_, fun negP negC => ?_⟩
  · rw [fmul_of_fin hx hy]
    rw [← exactly_mul] at h ⊢
    obtain ⟨sign, hm, magnitude⟩ := exactly_sign_magnitude h
    have delivers := delivers_of_abs hf hrm hm magnitude
    rwa [← sign] at delivers
  · rw [← exactly_mul, exactly_eq_zero] at h
    rw [fmul_of_fin hx hy, h, roundTo_zero, flushRes_zero, hx, hy]
    rfl
  · rw [fadd_of_fin hx hy]
    obtain ⟨delivers, zero⟩ := addVal_delivers hf hrm n1 (n2 != sub) m1 m2 e1 e2 (by rw [exactly_bne])
    exact ⟨delivers, fun h hp => zero h (.inl (fun hm => hp (exactly_eq_zero.2 hm)))⟩
  · rw [ffma_of_fin hx hy hz]
    obtain ⟨delivers, zero⟩ := addVal_delivers hf hrm ((n1 != n2) != negP) (n3 != negC) (m1 * m2) m3 (e1 + e2) e3
      (by rw [exactly_bne (n1 != n2), exactly_bne n3, exactly_mul])
    exact ⟨delivers, fun h ht => zero h (.inr (fun hm => ht (exactly_eq_zero.2 hm)))⟩

end

/-! ## Dot products (R27, R30, R115) -/

/-- A group of finite products has come to the sum `s`. -/
structure GSum.Holds (g : GSum) (s : ℚ) : Prop where
  noNan : g.nan = false
  noInf : g.inf = none
  noNv : g.nv = false
  value : (g.val : ℚ) * 2 ^ g.scale = s

theorem GSum.holds_start : GSum.start.Holds 0 := ⟨rfl, rfl, rfl, by simp [GSum.start]⟩

/-- One more finite product. -/
theorem GSum.Holds.add {g : GSum} {s p q : ℚ} (h : g.Holds s) {x y : FVal} (hx : Claims.ratOf x = some p) (hy : Claims.ratOf y = some q) :
    (g.add false x y).Holds (s + p * q) := by
  obtain ⟨n1, m1, e1, rfl, rfl⟩ := exists_exactly hx
  obtain ⟨n2, m2, e2, rfl, rfl⟩ := exists_exactly hy
  obtain ⟨noNan, noInf, noNv, rfl⟩ := h
  refine ⟨noNan, noInf, by simp [GSum.add, FVal.isNan, FVal.isSig, mulVal, noNv], ?_⟩
  have le1 : (if e1 + e2 ≤ g.scale then e1 + e2 else g.scale) ≤ e1 + e2 := by split_ifs <;> omega
  have le2 : (if e1 + e2 ≤ g.scale then e1 + e2 else g.scale) ≤ g.scale := by split_ifs <;> omega
  rw [← exactly_mul, ← scaled_mul_zpow_rat _ _ le1, two_zpow_eq_mul le2]
  generalize hunit : (if e1 + e2 ≤ g.scale then e1 + e2 else g.scale) = e0
  have sum : g.add false (.fin n1 m1 e1) (.fin n2 m2 e2) = { g with
      nv := g.nv || false || false
      val := g.val * (2 ^ (g.scale - e0).toNat : Nat) + scaled (n1 != n2) (m1 * m2) (e1 + e2) e0
      scale := e0
      negZ := g.negZ && m1 * m2 == 0 && (n1 != n2) && true } := by rw [← hunit]; rfl
  rw [sum]
  push_cast
  ring

/-- The products of a group, one after another. -/
theorem GSum.holds_foldl {x y : Nat → FVal} {p q : Nat → ℚ} (n : Nat)
    (h : ∀ j, j < n → Claims.ratOf (x j) = some (p j) ∧ Claims.ratOf (y j) = some (q j)) :
    ((List.range n).foldl (fun g j => GSum.add g false (x j) (y j)) GSum.start).Holds (∑ j ∈ Finset.range n, p j * q j) := by
  induction n with
  | zero => exact GSum.holds_start
  | succ n ih =>
    rw [List.range_succ, List.foldl_append, List.foldl_cons, List.foldl_nil, Finset.sum_range_succ]
    obtain ⟨hx, hy⟩ := h n (Nat.lt_succ_self n)
    exact (ih (fun j hj => h j (hj.trans (Nat.lt_succ_self n)))).add hx hy

/-- R27, R28: the accumulator and the group's sum, rounded once. -/
theorem GSum.Holds.into {g : GSum} {s t : ℚ} (h : g.Holds s) {acc : Nat} (ht : Claims.ratOf (fval .f32 acc) = some t) (hs : t + s ≠ 0) :
    Claims.RoundedRes .f32 .rne false (decide (t + s < 0)) ((|t + s| : ℚ) : ℝ) (g.into false acc) := by
  obtain ⟨n, m, e, hacc, rfl⟩ := exists_exactly ht
  obtain ⟨noNan, noInf, noNv, rfl⟩ := h
  have result : g.into false acc = if g.val = 0 then
        (if m = 0 then ⟨signBits .f32 (n && g.negZ), 0⟩ else roundTo .f32 .rne false n m e false)
      else addFin .f32 .rne n m e (decide (g.val < 0)) g.val.natAbs g.scale := by
    rw [GSum.into, noNan, noInf, noNv, hacc]
    simp [FVal.isNan, FVal.isSig, nvIf]
  rw [result]
  by_cases zero : g.val = 0
  · rw [if_pos zero]
    simp only [zero, Int.cast_zero, zero_mul, add_zero] at hs ⊢
    rw [if_neg (fun hm => hs (exactly_eq_zero.2 hm))]
    obtain ⟨sign, hm, magnitude⟩ := exactly_sign_magnitude hs
    have rounded := roundedRes_of_abs (f := .f32) (rm := .rne) (by decide) hm magnitude
    rwa [← sign] at rounded ⊢
  · rw [if_neg zero]
    obtain ⟨k, c, hk, magnitude, value⟩ := addFin_of_ne_zero (f := .f32) (rm := .rne)
      (congrArg (exactly n m e + ·) (exactly_int g.val g.scale)) hs
    rw [value]
    exact roundedRes_of_abs (by decide) hk magnitude

/-- R115: a dot product of finite elements. -/
theorem dotFloat_rounded {f : Fmt} {n : Nat} {a b c : Lane} {p q : Nat → ℚ} {t : ℚ}
    (h : ∀ j, j < n → Claims.ratOf (fin f (a.toNat / 2 ^ (f.bits * j) % 2 ^ f.bits)) = some (p j) ∧
      Claims.ratOf (fin f (b.toNat / 2 ^ (f.bits * j) % 2 ^ f.bits)) = some (q j))
    (ht : Claims.ratOf (fval .f32 c.toNat) = some t) (hs : t + ∑ j ∈ Finset.range n, p j * q j ≠ 0) :
    ∃ r, Claims.RoundedRes .f32 .rne false (decide (t + ∑ j ∈ Finset.range n, p j * q j < 0))
      ((|t + ∑ j ∈ Finset.range n, p j * q j| : ℚ) : ℝ) r ∧ dotFloat f n a b c = (BitVec.ofNat 32 r.bits, r.flags) := by
  simp only [← Nat.shiftRight_eq_div_pow] at h
  exact ⟨_, (GSum.holds_foldl n h).into ht hs, rfl⟩

end Sys2Proof.Machine
end

section
/-! SUPPORT. The square root, its reciprocal and the reciprocal (R121): the exact value, rounded once. -/
namespace Sys2Proof.Machine

/-! ## The integer square root -/

/-- Bit after bit the root stays the greatest whose square fits. -/
theorem isqrtFrom_eq_sqrt (n k r : Nat) (low : r * r ≤ n) (high : n < (r + 2 ^ k) * (r + 2 ^ k)) : isqrtFrom n k r = Nat.sqrt n := by
  induction k generalizing r with
  | zero => exact Nat.eq_sqrt.2 ⟨low, high⟩
  | succ k ih =>
    rw [isqrtFrom]
    split_ifs with fits
    · exact ih _ fits (by rwa [pow_succ, Nat.mul_two, ← Nat.add_assoc] at high)
    · exact ih _ low (Nat.lt_of_not_le fits)

theorem isqrt_eq_sqrt (n : Nat) : isqrt n = Nat.sqrt n := by
  refine isqrtFrom_eq_sqrt n _ 0 (Nat.zero_le _) ?_
  rw [Nat.zero_add, ← pow_add]
  exact Nat.lt_log2_self.trans_le (Nat.pow_le_pow_right two_pos (by omega))

/-- What is known of a root by the whole part of it. -/
theorem Known.sqrt {r : Nat} {h : Int} {sticky : Bool} {y : ℝ} (low : (r : ℝ) * r ≤ y) (high : y < ((r : ℝ) + 1) * (r + 1))
    (more : sticky = true ↔ (r : ℝ) * r ≠ y) : Known r h sticky (√y * 2 ^ h) := by
  have unit : (0 : ℝ) < 2 ^ h := by positivity
  have root : √((r : ℝ) * r) = r := Real.sqrt_mul_self (Nat.cast_nonneg r)
  refine ⟨?_, ?_, ?_⟩
  · exact mul_le_mul_of_nonneg_right (by rw [← root]; exact Real.sqrt_le_sqrt low) unit.le
  · refine mul_lt_mul_of_pos_right ?_ unit
    rw [← Real.sqrt_mul_self (show (0 : ℝ) ≤ r + 1 by positivity)]
    exact Real.sqrt_lt_sqrt ((by positivity : (0 : ℝ) ≤ r * r).trans low) high
  · rw [mul_lt_mul_iff_left₀ unit, more]
    refine ⟨fun h => ?_, fun h eq => ?_⟩
    · rw [← root]; exact Real.sqrt_lt_sqrt (by positivity) (lt_of_le_of_ne low h)
    · rw [← eq, root] at h; exact lt_irrefl _ h

/-- A root of a number of `2 * w` bits or more has `w` bits or more. -/
theorem le_log2_sqrt {v w : Nat} (h : 2 ^ (2 * w) ≤ v) : w ≤ Nat.log2 (Nat.sqrt v) := by
  have root : 2 ^ w ≤ Nat.sqrt v := Nat.le_sqrt.2 (by rwa [← pow_add, ← Nat.two_mul])
  exact (Nat.le_log2 (Nat.pos_iff_ne_zero.1 ((Nat.two_pow_pos w).trans_le root))).2 root

/-- A root that is known by its whole part, which has more bits than the mantissa, is rounded once. -/
theorem roundTo_sqrt {f : Fmt} {rm : Rm} (hrm : rm ≠ .dyn) {v : Nat} {y : ℝ} {h : Int} {sticky : Bool} (wide : 2 ^ (2 * (f.manBits + 1)) ≤ v)
    (low : (v : ℝ) ≤ y) (high : y < (v : ℝ) + 1) (more : sticky = true ↔ ((Nat.sqrt v : Nat) : ℝ) * Nat.sqrt v ≠ y) :
    Claims.RoundedRes f rm false false (√y * 2 ^ h) (roundTo f rm false false (isqrt v) h sticky) := by
  have bits : f.manBits < Nat.log2 (Nat.sqrt v) := le_log2_sqrt wide
  have below : ((Nat.sqrt v : Nat) : ℝ) * Nat.sqrt v ≤ y := le_trans (by exact_mod_cast Nat.sqrt_le v) low
  have above : y < ((Nat.sqrt v : Nat) + 1 : ℝ) * ((Nat.sqrt v : Nat) + 1) :=
    high.trans_le (by exact_mod_cast Nat.lt_succ_sqrt v)
  rw [isqrt_eq_sqrt]
  exact (Known.sqrt below above more).roundedRes hrm (fun h => by rw [h] at bits; exact absurd bits (Nat.not_lt_zero _)) (fun _ => bits) false

/-- Half an even exponent, under a root. -/
theorem sqrt_mul_zpow {y : ℝ} (hy : 0 ≤ y) (h : Int) : √(y * 2 ^ (2 * h)) = √y * 2 ^ h := by
  rw [Real.sqrt_mul hy, two_mul, zpow_add₀ two_ne_zero, Real.sqrt_mul_self (by positivity)]

section
variable {f : Fmt} {rm : Rm} {a : Nat} {m : Nat} {e : Int}

/-- R121: the square root of a positive value. -/
theorem fsqrt_rounded (hrm : rm ≠ .dyn) (ha : fin f a = .fin false m e) (hm : m ≠ 0) :
    Claims.RoundedRes f rm false false (√((m : ℝ) * 2 ^ e)) (fsqrt f rm a) := by
  obtain ⟨k, hk⟩ : ∃ k : Nat, k = 2 * (f.manBits + 4) + (e % 2).toNat := ⟨_, rfl⟩
  have result : fsqrt f rm a =
      roundTo f rm false false (isqrt (m * 2 ^ k)) ((e - k) / 2) (isqrt (m * 2 ^ k) * isqrt (m * 2 ^ k) != m * 2 ^ k) := by
    rw [fsqrt, ha, hk]
    dsimp only
    rw [if_neg (by simpa using hm), if_neg Bool.false_ne_true]
  have even : 2 * ((e - k) / 2) = e - k := by omega
  have value : √((m : ℝ) * 2 ^ e) = √((m * 2 ^ k : Nat) : ℝ) * 2 ^ ((e - k) / 2) := by
    rw [← sqrt_mul_zpow (Nat.cast_nonneg _), even, zpow_sub₀ two_ne_zero, zpow_natCast]
    push_cast
    congr 1
    field_simp
  rw [result, value]
  refine roundTo_sqrt hrm ?_ le_rfl (lt_add_one _) ?_
  · calc 2 ^ (2 * (f.manBits + 1)) ≤ 1 * 2 ^ k := by rw [Nat.one_mul]; exact Nat.pow_le_pow_right two_pos (by omega)
      _ ≤ m * 2 ^ k := Nat.mul_le_mul_right _ (Nat.pos_of_ne_zero hm)
  · rw [isqrt_eq_sqrt, bne_iff_ne]
    exact not_congr (by exact_mod_cast Iff.rfl)

/-- R121: the reciprocal of the square root of a positive value. -/
theorem frsqrt_rounded (ha : fin f a = .fin false m e) (hm : m ≠ 0) :
    Claims.RoundedRes f .rne false false (1 / √((m : ℝ) * 2 ^ e)) (frsqrt f a) := by
  have pos : (0 : ℝ) < m := by exact_mod_cast Nat.pos_of_ne_zero hm
  obtain ⟨k, hk⟩ : ∃ k : Nat, k = 2 * (f.manBits + 4) + Nat.log2 m + ((e + Nat.log2 m) % 2).toNat := ⟨_, rfl⟩
  have result : frsqrt f a = roundTo f .rne false false (isqrt (2 ^ k / m)) (-((e + k) / 2))
      (isqrt (2 ^ k / m) * isqrt (2 ^ k / m) * m != 2 ^ k) := by
    rw [frsqrt, ha, hk]
    dsimp only
    rw [if_neg (by simpa using hm), if_neg Bool.false_ne_true]
  have even : 2 * (-((e + k) / 2)) = -(e + k) := by omega
  have value : 1 / √((m : ℝ) * 2 ^ e) = √((2 ^ k : ℝ) / m) * 2 ^ (-((e + k) / 2)) := by
    rw [← sqrt_mul_zpow (by positivity), even, one_div, ← Real.sqrt_inv, zpow_neg, zpow_add₀ two_ne_zero, zpow_natCast]
    congr 1
    field_simp
  have whole : ((2 ^ k / m : Nat) : ℝ) ≤ (2 ^ k : ℝ) / m := by exact_mod_cast Nat.cast_div_le (α := ℝ)
  have rest : (2 ^ k : ℝ) / m < ((2 ^ k / m : Nat) : ℝ) + 1 := by
    rw [div_lt_iff₀ pos]
    exact_mod_cast Nat.lt_mul_of_div_lt (Nat.lt_succ_self (2 ^ k / m)) (Nat.pos_of_ne_zero hm)
  rw [result, value]
  refine roundTo_sqrt (by decide) ?_ whole rest ?_
  · rw [Nat.le_div_iff_mul_le (Nat.pos_of_ne_zero hm)]
    calc 2 ^ (2 * (f.manBits + 1)) * m ≤ 2 ^ (2 * (f.manBits + 1)) * 2 ^ (Nat.log2 m + 1) := Nat.mul_le_mul_left _ Nat.lt_log2_self.le
      _ = 2 ^ (2 * (f.manBits + 1) + (Nat.log2 m + 1)) := (pow_add _ _ _).symm
      _ ≤ 2 ^ k := Nat.pow_le_pow_right two_pos (by omega)
  · rw [isqrt_eq_sqrt, bne_iff_ne]
    refine not_congr ?_
    rw [eq_div_iff pos.ne']
    exact_mod_cast Iff.rfl

/-- R121: the reciprocal of a value other than zero. -/
theorem frcp_rounded {n : Bool} (ha : fin f a = .fin n m e) (hm : m ≠ 0) :
    Claims.RoundedRes f .rne false n ((1 : ℝ) / m * 2 ^ (-e)) (frcp f a) := by
  have result : frcp f a = divMag f .rne n 1 m (-e) := by
    rw [frcp, ha]
    dsimp only
    rw [if_neg (by simpa using hm)]
  rw [result, ← Nat.cast_one]
  exact divMag_roundedRes (by decide) n one_ne_zero hm _

/-- R121: the square roots of a positive value, and the reciprocal. -/
theorem roots_rounded (hf : f = .f64 ∨ f = .f32) (hrm : rm ≠ .dyn) {p : ℚ} (hp : Claims.ratOf (fval f a) = some p) :
    (0 < p → Claims.RoundedRes f rm false false (Real.sqrt (p : ℝ)) (fsqrt f rm a) ∧
      Claims.RoundedRes f .rne false false (1 / Real.sqrt (p : ℝ)) (frsqrt f a)) ∧
    (p ≠ 0 → Claims.RoundedRes f .rne false (decide (p < 0)) (|1 / (p : ℝ)|) (frcp f a)) := by
  rw [← fin_of_wide hf.symm] at hp
  refine ⟨fun pos => ?_, fun nonzero => ?_⟩
  · obtain ⟨m, e, hv, hm, magnitude⟩ := sign_magnitude_of_ratOf hp pos.ne'
    rw [decide_eq_false pos.not_gt] at hv
    rw [abs_of_pos pos] at magnitude
    have value : (p : ℝ) = (m : ℝ) * 2 ^ e := by rw [magnitude]; push_cast; rfl
    rw [value]
    exact ⟨fsqrt_rounded hrm hv hm, frsqrt_rounded hv hm⟩
  · obtain ⟨m, e, hv, hm, magnitude⟩ := sign_magnitude_of_ratOf hp nonzero
    have value : |1 / (p : ℝ)| = (1 : ℝ) / m * 2 ^ (-e) := by
      rw [abs_div, abs_one, ← Rat.cast_abs, magnitude, zpow_neg]
      push_cast
      field_simp
    rw [value]
    exact frcp_rounded hv hm

end

/-- R18, R23, R110 to R112, R115, R121: the operations on finite values round the exact value once. -/
theorem floatRounding : Claims.FloatRounding :=
  ⟨fun _ _ sat _ m e hrm hm => (Known.exact m e).roundedRes hrm hm (fun h => Bool.noConfusion h) sat,
    fun _ _ _ _ _ _ _ _ hf hrm ha hb hc => finite_arithmetic_delivers hf hrm ha hb hc,
    fun _ _ _ _ _ _ _ _ _ _ h ht hs => dotFloat_rounded h ht hs,
    fun _ _ _ _ hf hrm hp => roots_rounded hf hrm hp⟩

end Sys2Proof.Machine
end

section
/-! SUPPORT. The special cases of multiply-adds, sums and products (R110 to R112), and minimum and maximum (R113). -/
namespace Sys2Proof.Machine

/-! ## Special cases -/

/-- Two signs that a third one tells apart. -/
theorem bne_eq_iff_eq_bne {n k s : Bool} : (k != s) = (!n) ↔ k = !(n != s) := by cases n <;> cases k <;> cases s <;> decide

/-- A value with its sign turned on request. -/
def FVal.signed (v : FVal) (neg : Bool) : FVal := if neg then v.negate else v

theorem FVal.signed_inf (n neg : Bool) : (FVal.inf n).signed neg = .inf (n != neg) := by cases n <;> cases neg <;> rfl

theorem FVal.signed_fin (n neg : Bool) (m : Nat) (e : Int) : (FVal.fin n m e).signed neg = .fin (n != neg) m e := by
  cases n <;> cases neg <;> rfl

theorem FVal.isZero_iff {v : FVal} : v.isZero = true ↔ ∃ n e, v = .fin n 0 e := by
  cases v with
  | nan s => exact ⟨fun h => (nomatch h), fun ⟨_, _, h⟩ => (nomatch h)⟩
  | inf n => exact ⟨fun h => (nomatch h), fun ⟨_, _, h⟩ => (nomatch h)⟩
  | fin n m e =>
    simp only [FVal.isZero, beq_iff_eq, FVal.fin.injEq]
    exact ⟨fun h => ⟨n, e, rfl, h, rfl⟩, fun ⟨_, _, _, h, _⟩ => h⟩

/-- No product of a NaN is invalid, infinite or finite. -/
theorem mulVal_of_isNan {x y : FVal} (h : x.isNan = true ∨ y.isNan = true) : mulVal x y = some (.nan false) := by
  rcases h with h | h
  · obtain ⟨s, rfl⟩ := nan_of_isNan h
    rfl
  · obtain ⟨s, rfl⟩ := nan_of_isNan h
    cases x <;> rfl

/-- A product that is no NaN has factors that are none. -/
theorem isNan_of_mulVal_ne {x y : FVal} (h : mulVal x y ≠ some (.nan false)) : (x.isNan || y.isNan) = false :=
  Bool.eq_false_iff.2 (fun nan => h (mulVal_of_isNan (Bool.or_eq_true_iff.1 nan)))

/-- A finite product has finite factors. -/
theorem fin_of_mulVal {x y : FVal} {n : Bool} {m : Nat} {e : Int} (h : mulVal x y = some (.fin n m e)) :
    (∃ m1 e1, x = .fin x.neg m1 e1) ∧ (∃ m2 e2, y = .fin y.neg m2 e2) ∧ n = (x.neg != y.neg) := by
  cases x with
  | nan s => cases h
  | inf n1 =>
    cases y with
    | nan s => cases h
    | inf n2 => cases h
    | fin n2 m2 e2 => simp only [mulVal] at h; split_ifs at h; cases h
  | fin n1 m1 e1 =>
    cases y with
    | nan s => cases h
    | inf n2 => simp only [mulVal] at h; split_ifs at h; cases h
    | fin n2 m2 e2 => cases h; exact ⟨⟨_, _, rfl⟩, ⟨_, _, rfl⟩, rfl⟩

section
variable {f : Fmt} {rm : Rm} {negP negC : Bool} {a b c : Nat} {p : FVal}

/-- The multiply-add of factors whose product is invalid. -/
theorem ffma_of_invalid (h : mulVal (fin f a) (fin f b) = none) : ffma f rm negP negC a b c = canonRes f flNV := by
  have quiet := isNan_of_mulVal_ne (x := fin f a) (y := fin f b) (by rw [h]; exact nofun)
  rw [ffma]
  simp only [quiet, h, Bool.false_eq_true, if_false]

/-- The multiply-add where an input is a NaN and the product is not invalid. -/
theorem ffma_of_isNan (h : (fin f a).isNan = true ∨ (fin f b).isNan = true ∨ (fin f c).isNan = true)
    (valid : mulVal (fin f a) (fin f b) ≠ none) : ffma f rm negP negC a b c =
      canonRes f (nvIf ((fin f a).isSig || (fin f b).isSig || (fin f c).isSig)) := by
  rw [ffma]
  by_cases factor : ((fin f a).isNan || (fin f b).isNan) = true
  · rw [if_pos factor]
  · have addend : (fin f c).isNan = true := (or_assoc.2 h).resolve_left (fun h => factor (Bool.or_eq_true_iff.2 h))
    obtain ⟨p, product⟩ := Option.ne_none_iff_exists'.1 valid
    rw [if_neg factor, product]
    simp only [addend, if_true]

/-- The multiply-add of a product that is no NaN and an addend that is none. -/
theorem ffma_of_mulVal (h : mulVal (fin f a) (fin f b) = some p) (notNan : p.isNan = false) (hc : (fin f c).isNan = false) :
    ffma f rm negP negC a b c = flushRes f (addVal f rm (p.signed negP) ((fin f c).signed negC)) := by
  have quiet := isNan_of_mulVal_ne (x := fin f a) (y := fin f b) (by rw [h]; rintro ⟨⟩; cases notNan)
  rw [ffma]
  simp only [quiet, h, hc, Bool.false_eq_true, if_false]
  rfl

theorem addVal_inf_opposite (n k : Bool) (h : k ≠ n) : addVal f rm (.inf n) (.inf k) = canonRes f flNV := by
  rw [addVal, if_neg (by simpa using h.symm)]

theorem addVal_inf (n : Bool) {z : FVal} (hz : z.isNan = false) (h : z ≠ .inf (!n)) :
    addVal f rm (.inf n) z = ⟨signBits f n + f.infBits, 0⟩ := by
  cases z with
  | nan s => cases hz
  | inf k =>
    have same : n = k := by
      revert h
      cases n <;> cases k <;> decide
    rw [addVal, if_pos (by simpa using same)]
  | fin k m e => rfl

/-- R110: the sum of two zeros. -/
theorem addVal_zeros (n k : Bool) (e1 e2 : Int) : addVal f rm (.fin n 0 e1) (.fin k 0 e2) =
    ⟨signBits f (if n = k then n else rm == .rdn), 0⟩ := by
  have zero (n : Bool) (e : Int) : exactly n 0 e = 0 := exactly_eq_zero.2 rfl
  rw [addVal, addFin_of_eq_zero (by rw [zero, zero, add_zero])]
  simp only [beq_self_eq_true, Bool.true_and, beq_iff_eq]

/-- An infinite product: with the opposite infinity invalid, else an infinity. -/
theorem ffma_of_inf_product {n : Bool} (h : mulVal (fin f a) (fin f b) = some (.inf n)) :
    let z := fin f c
    let r := ffma f rm negP negC a b c
    (z = .inf (!((n != negP) != negC)) → r = ⟨f.canon, flNV⟩) ∧
      (z.isNan = false → z ≠ .inf (!((n != negP) != negC)) → r = ⟨signBits f (n != negP) + f.infBits, 0⟩) := by
  refine ⟨fun hz => ?_, fun notNan hz => ?_⟩
  · rw [ffma_of_mulVal h rfl (by rw [hz]; rfl), hz, FVal.signed_inf, FVal.signed_inf,
      addVal_inf_opposite _ _ (by cases n <;> cases negP <;> cases negC <;> decide), flushRes_canon]
    rfl
  · have turned : (fin f c).signed negC ≠ .inf (!(n != negP)) := by
      intro eq
      refine hz ?_
      cases hv : fin f c with
      | nan s => rw [hv] at notNan; cases notNan
      | inf k =>
        rw [hv, FVal.signed_inf] at eq
        exact congrArg FVal.inf (bne_eq_iff_eq_bne.1 (FVal.inf.inj eq))
      | fin k m e => rw [hv, FVal.signed_fin] at eq; cases eq
    have quiet : ((fin f c).signed negC).isNan = false := by
      cases hv : fin f c with
      | nan s => rw [hv] at notNan; cases notNan
      | inf k => rw [FVal.signed_inf]; rfl
      | fin k m e => rw [FVal.signed_fin]; rfl
    rw [ffma_of_mulVal h rfl notNan, FVal.signed_inf, addVal_inf _ quiet turned, flushRes_inf]

/-- A finite product and an infinity. -/
theorem ffma_of_inf_addend {n : Bool} (h : ∃ k m e, mulVal (fin f a) (fin f b) = some (.fin k m e)) (hz : fin f c = .inf n) :
    ffma f rm negP negC a b c = ⟨signBits f (n != negC) + f.infBits, 0⟩ := by
  obtain ⟨k, m, e, product⟩ := h
  rw [ffma_of_mulVal product rfl (by rw [hz]; rfl), hz, FVal.signed_inf, FVal.signed_fin, addVal, flushRes_inf]
  exact nofun

/-- A zero product and a zero. -/
theorem ffma_of_zeros (h : ∃ k e, mulVal (fin f a) (fin f b) = some (.fin k 0 e)) (hz : (fin f c).isZero = true) :
    let sign := ((fin f a).neg != (fin f b).neg) != negP
    ffma f rm negP negC a b c = ⟨signBits f (if sign = ((fin f c).neg != negC) then sign else rm == .rdn), 0⟩ := by
  obtain ⟨k, e, product⟩ := h
  obtain ⟨n, e', zero⟩ := FVal.isZero_iff.1 hz
  obtain ⟨-, -, rfl⟩ := fin_of_mulVal product
  rw [ffma_of_mulVal product rfl (by rw [zero]; rfl), zero, FVal.signed_fin, FVal.signed_fin, addVal_zeros, flushRes_zero]
  rfl

/-- The sum where an input is a NaN. -/
theorem fadd_of_isNan {sub : Bool} (h : (fin f a).isNan = true ∨ (fin f b).isNan = true) :
    fadd f rm sub a b = ⟨f.canon, nvIf ((fin f a).isSig || (fin f b).isSig)⟩ := by
  rw [fadd]
  rw [if_pos (Bool.or_eq_true_iff.2 h)]
  rfl

theorem fadd_of_not_isNan {sub : Bool} (ha : (fin f a).isNan = false) (hb : (fin f b).isNan = false) :
    fadd f rm sub a b = flushRes f (addVal f rm (fin f a) ((fin f b).signed sub)) := by
  rw [fadd]
  simp only [ha, hb, Bool.or_self, Bool.false_eq_true, if_false]
  rfl

/-- The difference of equal infinities is invalid. -/
theorem fadd_of_opposite_inf {sub n : Bool} (ha : fin f a = .inf n) (hb : fin f b = .inf (!(n != sub))) :
    fadd f rm sub a b = ⟨f.canon, flNV⟩ := by
  rw [fadd_of_not_isNan (by rw [ha]; rfl) (by rw [hb]; rfl), ha, hb, FVal.signed_inf,
    addVal_inf_opposite _ _ (by cases n <;> cases sub <;> decide), flushRes_canon]
  rfl

/-- The sum of two zeros. -/
theorem fadd_of_zeros {sub : Bool} (ha : (fin f a).isZero = true) (hb : (fin f b).isZero = true) : fadd f rm sub a b =
    ⟨signBits f (if (fin f a).neg = ((fin f b).neg != sub) then (fin f a).neg else rm == .rdn), 0⟩ := by
  obtain ⟨n, e1, hx⟩ := FVal.isZero_iff.1 ha
  obtain ⟨k, e2, hy⟩ := FVal.isZero_iff.1 hb
  rw [fadd_of_not_isNan (by rw [hx]; rfl) (by rw [hy]; rfl), hx, hy, FVal.signed_fin, addVal_zeros, flushRes_zero]
  rfl

/-- The product where an input is a NaN. -/
theorem fmul_of_isNan (h : (fin f a).isNan = true ∨ (fin f b).isNan = true) :
    fmul f rm a b = ⟨f.canon, nvIf ((fin f a).isSig || (fin f b).isSig)⟩ := by
  rw [fmul]
  rw [if_pos (Bool.or_eq_true_iff.2 h)]
  rfl

/-- An invalid product. -/
theorem fmul_of_invalid (h : mulVal (fin f a) (fin f b) = none) : fmul f rm a b = ⟨f.canon, flNV⟩ := by
  have quiet := isNan_of_mulVal_ne (x := fin f a) (y := fin f b) (by rw [h]; exact nofun)
  rw [fmul]
  simp only [quiet, h, Bool.false_eq_true, if_false]
  rfl

/-- An infinite product. -/
theorem fmul_of_inf {n : Bool} (h : mulVal (fin f a) (fin f b) = some (.inf n)) : fmul f rm a b = ⟨signBits f n + f.infBits, 0⟩ := by
  have quiet := isNan_of_mulVal_ne (x := fin f a) (y := fin f b) (by rw [h]; exact nofun)
  rw [fmul]
  simp only [quiet, h, Bool.false_eq_true, if_false]
  rfl

/-- A NaN, or an invalid product, gives the canonical NaN. -/
theorem ffma_of_nan_or_invalid (h : (fin f a).isNan = true ∨ (fin f b).isNan = true ∨ (fin f c).isNan = true ∨
      mulVal (fin f a) (fin f b) = none) :
    let r := ffma f rm negP negC a b c
    r.bits = f.canon ∧ r.flags = if mulVal (fin f a) (fin f b) = none then flNV else
      nvIf ((fin f a).isSig || (fin f b).isSig || (fin f c).isSig) := by
  by_cases invalid : mulVal (fin f a) (fin f b) = none
  · rw [ffma_of_invalid invalid, if_pos invalid]
    exact ⟨rfl, rfl⟩
  · have nan : (fin f a).isNan = true ∨ (fin f b).isNan = true ∨ (fin f c).isNan = true :=
      h.imp_right (Or.imp_right (Or.resolve_right · invalid))
    rw [ffma_of_isNan nan invalid, if_neg invalid]
    exact ⟨rfl, rfl⟩

end

/-- R110 to R112: the special cases. -/
theorem floatSpecials : Claims.FloatSpecials := fun _ _ _ _ _ _ _ _ =>
  ⟨ffma_of_nan_or_invalid, fun _ h => ffma_of_inf_product h, fun _ h hz => ffma_of_inf_addend h hz, fun h hz => ffma_of_zeros h hz,
    fun _ => ⟨fadd_of_isNan, fun _ hx hy => fadd_of_opposite_inf hx hy, fadd_of_zeros⟩, fmul_of_isNan, fmul_of_invalid,
    fun _ h => fmul_of_inf h⟩

/-! ## Minimum and maximum (R113) -/

/-- A zero is neither above nor below another. -/
theorem fltVal_zeros {x y : FVal} (hx : x.isZero = true) (hy : y.isZero = true) : fltVal x y = false := by
  obtain ⟨n, e1, rfl⟩ := FVal.isZero_iff.1 hx
  obtain ⟨k, e2, rfl⟩ := FVal.isZero_iff.1 hy
  cases n <;> cases k <;> simp [fltVal, scaled]

theorem isNan_of_isZero {x : FVal} (h : x.isZero = true) : x.isNan = false := by
  obtain ⟨n, e, rfl⟩ := FVal.isZero_iff.1 h
  rfl

/-- What minimum and maximum deliver, in terms of the flushed inputs. -/
theorem fminmax_eq (f : Fmt) (mx : Bool) (a b : Nat) :
    let a' := if f.narrow then flushBits f a else a
    let b' := if f.narrow then flushBits f b else b
    let x := fval f a'
    let y := fval f b'
    let first := fltVal x y || (!fltVal y x && x.neg && !y.neg)
    fminmax f mx a b = ⟨if x.isNan = true then (if y.isNan = true then f.canon else b') else if y.isNan = true then a'
      else if first = mx then b' else a', nvIf (x.isSig || y.isSig)⟩ := by
  intro a' b' x y first
  have choice : (if first != mx then a' else b') = if first = mx then b' else a' := by cases first <;> cases mx <;> rfl
  rw [← choice]
  show (if x.isNan && y.isNan then _ else if x.isNan then _ else if y.isNan then _ else _) = _
  cases x.isNan <;> cases y.isNan <;> rfl

/-- R113: minimum and maximum. -/
theorem minimaAndMaxima : Claims.MinimaAndMaxima := by
  intro f mx a b _ a' b' x y r
  have value : r = _ := fminmax_eq f mx a b
  change r = FRes.mk (if x.isNan = true then (if y.isNan = true then f.canon else b') else if y.isNan = true then a'
      else if (fltVal x y || (!fltVal y x && x.neg && !y.neg)) = mx then b' else a') (nvIf (x.isSig || y.isSig)) at value
  rw [value]
  refine ⟨rfl, fun hx hy => ?_, fun hx hy => ?_, fun hx hy => ?_, fun hx hy signs => ?_, fun p q hx hy lt => ?_, fun p q hx hy gt => ?_⟩
  · simp only [hx, hy, if_true]
  · simp only [hx, hy, if_true, Bool.false_eq_true, if_false]
  · simp only [hx, hy, if_true, Bool.false_eq_true, if_false]
  · simp only [isNan_of_isZero hx, isNan_of_isZero hy, fltVal_zeros hx hy, fltVal_zeros hy hx, Bool.false_eq_true, if_false]
    revert signs
    cases x.neg <;> cases y.neg <;> simp
  · simp only [isNan_of_extIs hx, isNan_of_extIs hy, (fltVal_iff hx hy).2 lt, Bool.false_eq_true, if_false, Bool.true_or]
    cases mx <;> rfl
  · have notLess : fltVal x y = false := Bool.eq_false_iff.2 (fun h => gt.not_gt ((fltVal_iff hx hy).1 h))
    simp only [isNan_of_extIs hx, isNan_of_extIs hy, notLess, (fltVal_iff hy hx).2 gt, Bool.false_eq_true, if_false]
    cases mx <;> rfl

end Sys2Proof.Machine
end

section
/-! SUPPORT. The reciprocal, the roots, the exponential and the logarithm in their special and exact cases (R121, R122). -/
namespace Sys2Proof.Machine

/-! ## Results that the format holds -/

section
variable {f : Fmt} {rm : Rm} {sat neg : Bool} {m : Nat} {e : Int}

/-- A value on the grid is delivered as it is. -/
theorem roundTo_holds (hrm : rm ≠ .dyn) {c : Nat} (hc : c ≤ f.maxFinite) (hx : (m : ℚ) * 2 ^ e = f.grid c) :
    let r := roundTo f rm sat neg m e false
    Claims.ratOf (fval f r.bits) = some (exactly neg m e) ∧ (fval f r.bits).neg = neg ∧ r.flags = 0 := by
  rw [roundTo_of_grid hrm hc hx]
  refine ⟨?_, ?_, rfl⟩
  · rw [ratOf_signBits_add neg hc, exactly, mul_assoc, hx]
  · rw [fval_signBits_add neg hc]; rfl

/-- An f32 magnitude of the binade `k + 1`, from its significand. -/
theorem grid_f32 (k : Nat) {n c : Nat} (low : 2 ^ 23 ≤ n) (high : n < 2 ^ 24) (hc : c = k * 2 ^ 23 + n) :
    Fmt.grid .f32 c = n * (2 : ℚ) ^ ((k : Int) - 149) := by
  rw [hc]
  refine (Fmt.grid_add .f32 k n high.le (.inr low)).trans ?_
  rw [show (k : Int) + Fmt.emin .f32 - Fmt.manBits .f32 = k - 149 by simp only [Fmt.emin, Fmt.bias, Fmt.manBits]; omega]

theorem grid_f32_top : Fmt.grid .f32 (Fmt.maxFinite .f32 + 1) = 2 ^ 128 := by
  rw [grid_f32 254 (n := 2 ^ 23) (by decide) (by decide) (by decide)]
  norm_num

theorem grid_f32_one : Fmt.grid .f32 0x3F800000 = 1 := by
  rw [grid_f32 126 (n := 2 ^ 23) (by decide) (by decide) (by decide)]
  norm_num

theorem ratOf_f32_one : Claims.ratOf (fval .f32 0x3F800000) = some 1 := by rw [ratOf_fval (by decide), grid_f32_one]

/-- An f32 holds 24 bits above 2^-149 and below 2^128. -/
theorem roundTo_f32_holds (hrm : rm ≠ .dyn) (hm : m < 2 ^ 24) (he : -149 ≤ e) (hx : (m : ℚ) * 2 ^ e < 2 ^ 128) :
    let r := roundTo .f32 rm sat neg m e false
    Claims.ratOf (fval .f32 r.bits) = some (exactly neg m e) ∧ (fval .f32 r.bits).neg = neg ∧ r.flags = 0 := by
  obtain ⟨c, hc, value⟩ := exists_grid_eq (f := .f32) hm he (by rw [grid_f32_top]; exact hx)
  exact roundTo_holds hrm hc value

end

/-- A result that takes the bits of another has its value. The bits are those of a variable, so that no kernel check computes them. -/
theorem ratOf_of_bits {x r : FRes} {fl : Flags} {q : ℚ} (hx : x = ⟨r.bits, fl⟩) (hr : Claims.ratOf (fval .f32 r.bits) = some q) :
    Claims.ratOf (fval .f32 x.bits) = some q ∧ x.flags = fl := by
  subst hx
  exact ⟨hr, rfl⟩

/-- The precision and the exponents of every format but f64 lie within those of f32. -/
theorem within_f32 {f : Fmt} (hf : f ≠ .f64) :
    f.manBits ≤ 23 ∧ -149 ≤ f.emin - f.manBits ∧ (f.step f.maxFinite : Int) + f.emin < 128 := by
  revert hf
  cases f <;> decide

/-- Every format but f64 has its finite values among those of f32. -/
theorem fval_bounds_f32 {f : Fmt} (hf : f ≠ .f64) {b : Nat} {n : Bool} {m : Nat} {e : Int} (h : fval f b = .fin n m e) :
    m < 2 ^ 24 ∧ -149 ≤ e ∧ (m : ℚ) * 2 ^ e < 2 ^ 128 := by
  obtain ⟨hm, low⟩ := fval_bounds h
  obtain ⟨hc, -, -, -, he⟩ := grid_of_fval h
  obtain ⟨bits, least, most⟩ := within_f32 hf
  have step : f.step (b % f.signWeight) ≤ f.step f.maxFinite := Nat.sub_le_sub_right (Nat.div_le_div_right hc) 1
  refine ⟨hm.trans_le (Nat.pow_le_pow_right two_pos (by omega)), by omega, ?_⟩
  calc (m : ℚ) * 2 ^ e < ((2 ^ (f.manBits + 1) : Nat) : ℚ) * 2 ^ e := mul_lt_mul_of_pos_right (by exact_mod_cast hm) (by positivity)
    _ = 2 ^ (((f.manBits + 1 : Nat) : Int) + e) := by rw [Nat.cast_pow, Nat.cast_ofNat, ← zpow_natCast, ← zpow_add₀ two_ne_zero]
    _ ≤ 2 ^ ((128 : Nat) : Int) := zpow_le_zpow_right₀ one_le_two (by push_cast; omega)
    _ = 2 ^ 128 := zpow_natCast _ _

/-! ## NaNs, zeros and infinities (R121, R122) -/

theorem functions_of_isNan {b : Nat} (h : (fval .f32 b).isNan = true) (rm : Rm) : let r : FRes := ⟨Fmt.canon .f32, nvIf (fval .f32 b).isSig⟩
    frcp .f32 b = r ∧ frsqrt .f32 b = r ∧ fsqrt .f32 rm b = r ∧ frnd .f32 rm b = r ∧ ffrac b = r := by
  obtain ⟨s, hs⟩ := nan_of_isNan h
  rw [frcp, frsqrt, fsqrt, frnd, ffrac, fin_of_wide (.inl rfl), hs]
  exact ⟨rfl, rfl, rfl, rfl, rfl⟩

theorem approximations_of_isNan {b : BitVec 32} (h : (fval .f32 b.toNat).isNan = true) :
    let r : FRes := ⟨Fmt.canon .f32, nvIf (fval .f32 b.toNat).isSig⟩
    fexp2 b = r ∧ flog2 b = r ∧ fsin b = r ∧ fcos b = r ∧ ftanh b = r := by
  obtain ⟨s, hs⟩ := nan_of_isNan h
  rw [fexp2, flog2, fsin, fcos, ftanh, hs]
  exact ⟨rfl, rfl, rfl, rfl, rfl⟩

/-- The root of a negative value is invalid. -/
theorem roots_of_neg {b : Nat} (rm : Rm) (notNan : (fval .f32 b).isNan = false) (nonzero : (fval .f32 b).isZero = false)
    (neg : (fval .f32 b).neg = true) : frsqrt .f32 b = ⟨Fmt.canon .f32, flNV⟩ ∧ fsqrt .f32 rm b = ⟨Fmt.canon .f32, flNV⟩ := by
  rw [frsqrt, fsqrt, fin_of_wide (.inl rfl)]
  cases hv : fval .f32 b with
  | nan s => rw [hv] at notNan; cases notNan
  | inf n =>
    rw [hv] at neg
    obtain rfl : n = true := neg
    exact ⟨rfl, rfl⟩
  | fin n m e =>
    rw [hv] at neg nonzero
    obtain rfl : n = true := neg
    have hm : (m == 0) = false := nonzero
    simp only [hm, Bool.false_eq_true, if_false, if_true]
    exact ⟨rfl, rfl⟩

/-! ## The exponential -/

/-- An integer rounds to itself. -/
theorem toInteger_of_int {n : Bool} {m : Nat} {e k : Int} (h : exactly n m e = k) : toInteger .rtz n m e = (k, false) := by
  obtain ⟨picks, inexact⟩ := toInteger_picks (by decide : Rm.rtz ≠ .dyn) n m e
  change Claims.IntPicks .rtz (exactly n m e) _ at picks
  change _ ↔ _ ≠ exactly n m e at inexact
  rw [h] at picks inexact
  have whole : (toInteger .rtz n m e).1 = k := by
    rw [Claims.IntPicks, Int.floor_intCast, Int.ceil_intCast, ite_self] at picks
    exact picks
  refine Prod.ext whole (Bool.eq_false_iff.2 (fun h => inexact.1 h ?_))
  rw [whole]

section
variable {b : BitVec 32}

/-- R122: an exponent of 128 or more overflows. -/
theorem fexp2_overflow {q : ℚ} (hq : Claims.ratOf (fval .f32 b.toNat) = some q) (big : 128 ≤ q) :
    fexp2 b = ⟨0x7F800000, flOF ||| flNX⟩ := by
  obtain ⟨n, m, e, hv, rfl⟩ := exists_exactly hq
  have hm : m ≠ 0 := by
    rintro rfl
    rw [exactly_eq_zero.2 rfl] at big
    norm_num at big
  have whole : 128 ≤ (toInteger .rtz n m e).1 := by
    have picks : Claims.IntPicks .rtz (exactly n m e) _ := (toInteger_picks (by decide) n m e).1
    rw [Claims.IntPicks, if_pos (by linarith)] at picks
    rw [picks]
    exact Int.le_floor.2 (by exact_mod_cast big)
  rw [fexp2, hv]
  dsimp only
  rw [if_neg (by simpa using hm), if_pos whole]
  rfl

/-- R122: an integer exponent gives its power of two exactly. -/
theorem fexp2_of_int {n : Int} (low : -149 ≤ n) (high : n ≤ 127) (hn : Claims.ratOf (fval .f32 b.toNat) = some (n : ℚ)) :
    Claims.ratOf (fval .f32 (fexp2 b).bits) = some ((2 : ℚ) ^ n) ∧ (fexp2 b).flags = 0 := by
  obtain ⟨s, m, e, hv, value⟩ := exists_exactly hn
  rcases Nat.eq_zero_or_pos m with rfl | pos
  · obtain rfl : n = 0 := by rw [exactly_eq_zero.2 rfl] at value; exact_mod_cast value
    have one : fexp2 b = ⟨0x3F800000, 0⟩ := by
      rw [fexp2, hv]
      dsimp only
      rw [if_pos (by decide)]
    rw [one]
    rw [zpow_zero]
    exact ⟨ratOf_f32_one, rfl⟩
  · have power : fexp2 b = ⟨(roundTo .f32 .rne false false 1 n false).bits, 0⟩ := by
      rw [fexp2, hv]
      dsimp only
      rw [if_neg (by simpa using pos.ne'), toInteger_of_int value.symm, if_neg (by omega), if_pos (by simpa using low)]
    have small : ((1 : Nat) : ℚ) * 2 ^ n < 2 ^ 128 := by
      rw [Nat.cast_one, one_mul, ← zpow_natCast]
      exact zpow_lt_zpow_right₀ one_lt_two (by push_cast; omega)
    obtain ⟨holds, -, -⟩ := roundTo_f32_holds (rm := .rne) (sat := false) (neg := false) (by decide) (by decide : 1 < 2 ^ 24) low small
    have value : exactly false 1 n = (2 : ℚ) ^ n := by simp [exactly]
    exact value ▸ ratOf_of_bits power holds

/-! ## The logarithm -/

/-- R122: the logarithm of a negative value is invalid. -/
theorem flog2_of_neg {q : ℚ} (hq : Claims.ratOf (fval .f32 b.toNat) = some q) (neg : q < 0) : flog2 b = ⟨Fmt.canon .f32, flNV⟩ := by
  obtain ⟨m, e, hv, hm, -⟩ := sign_magnitude_of_ratOf hq neg.ne
  rw [decide_eq_true neg] at hv
  rw [flog2, hv]
  dsimp only
  rw [if_neg (by simpa using hm), if_pos rfl]
  rfl

/-- An integer of 24 bits is an f32. -/
theorem f32OfInt_holds {v : Int} (h : v.natAbs < 2 ^ 24) : Claims.ratOf (fval .f32 (f32OfInt v)) = some (v : ℚ) := by
  have small : (v.natAbs : ℚ) * 2 ^ (0 : Int) < 2 ^ 128 := by
    rw [zpow_zero, mul_one]
    exact_mod_cast h.trans (by decide : 2 ^ 24 < 2 ^ 128)
  obtain ⟨holds, -, -⟩ := roundTo_f32_holds (rm := .rne) (sat := false) (neg := decide (v < 0)) (by decide) h (by decide) small
  refine holds.trans ?_
  rw [exactly_int, zpow_zero, mul_one]

/-- A power of two has one bit, whose place is its exponent. -/
theorem log2_of_zpow {m : Nat} {e k : Int} (h : (m : ℚ) * 2 ^ e = 2 ^ k) : m = 2 ^ Nat.log2 m ∧ e + Nat.log2 m = k := by
  have hm : m ≠ 0 := by
    rintro rfl
    have : (0 : ℚ) < 2 ^ k := by positivity
    rw [← h] at this
    simp at this
  have real : (m : ℝ) * 2 ^ e = 2 ^ k := by
    have := congrArg (Rat.cast (K := ℝ)) h
    push_cast at this
    exact this
  obtain ⟨low, high⟩ := (Known.exact m e).binade hm
  rw [real] at low high
  have place : e + Nat.log2 m = k := by
    have h1 := (zpow_le_zpow_iff_right₀ one_lt_two).1 low
    have h2 := (zpow_lt_zpow_iff_right₀ one_lt_two).1 high
    omega
  refine ⟨?_, place⟩
  have unit : (2 : ℚ) ^ e ≠ 0 := by positivity
  rw [← place, zpow_add₀ two_ne_zero, mul_comm, mul_right_inj' unit, zpow_natCast] at h
  exact_mod_cast h

/-- R122: the logarithm of a power of two is exact. -/
theorem flog2_of_zpow {n : Int} (hn : Claims.ratOf (fval .f32 b.toNat) = some ((2 : ℚ) ^ n)) :
    Claims.ratOf (fval .f32 (flog2 b).bits) = some (n : ℚ) ∧ (flog2 b).flags = 0 := by
  have pos : (0 : ℚ) < 2 ^ n := by positivity
  obtain ⟨m, e, hv, hm, magnitude⟩ := sign_magnitude_of_ratOf hn pos.ne'
  rw [decide_eq_false pos.not_gt] at hv
  rw [abs_of_pos pos] at magnitude
  obtain ⟨oneBit, place⟩ := log2_of_zpow magnitude.symm
  obtain ⟨-, low, high⟩ := fval_bounds_f32 (by decide) hv
  have small : n < 128 := by
    rw [← magnitude, ← zpow_natCast] at high
    exact_mod_cast (zpow_lt_zpow_iff_right₀ one_lt_two).1 high
  have result : flog2 b = ⟨f32OfInt n, 0⟩ := by
    rw [flog2, hv]
    dsimp only
    rw [if_neg (by simpa using hm), if_neg Bool.false_ne_true, if_pos (beq_iff_eq.2 oneBit), place]
  rw [result]
  exact ⟨f32OfInt_holds (by omega), rfl⟩

end

end Sys2Proof.Machine
end

section
/-! SUPPORT. Sine, cosine and hyperbolic tangent in their exact cases, and their symmetry (R122). -/
namespace Sys2Proof.Machine

/-! ## The sign bit of an f32 -/

theorem xor_and (x y z : Lane) : (x ^^^ y) &&& z = (x &&& z) ^^^ (y &&& z) := by
  apply BitVec.eq_of_toNat_eq
  simp only [BitVec.toNat_and, BitVec.toNat_xor]
  exact Nat.and_xor_distrib_right

section
variable {b : BitVec 32}

theorem absBits_toNat (b : BitVec 32) : (absBits b).toNat = b.toNat % Fmt.signWeight .f32 := Nat.and_two_pow_sub_one_eq_mod b.toNat 31

theorem absBits_turned (b : BitVec 32) : absBits (b ^^^ 0x80000000#32) = absBits b := by
  rw [absBits, xor_and]
  exact BitVec.xor_zero

theorem withSignOf_turned (b r : BitVec 32) : withSignOf (b ^^^ 0x80000000#32) r = withSignOf b r ^^^ 0x80000000#32 := by
  rw [withSignOf, xor_and, ← BitVec.xor_assoc]
  rfl

/-- Turning the sign bit turns the sign of the value. -/
theorem fval_turned (b : BitVec 32) : fval .f32 (b ^^^ 0x80000000#32).toNat = (fval .f32 b.toNat).negate := by
  have magnitude : (b ^^^ 0x80000000#32).toNat % Fmt.signWeight .f32 = b.toNat % Fmt.signWeight .f32 := by
    rw [← absBits_toNat, absBits_turned, absBits_toNat]
  have sign : (b ^^^ 0x80000000#32).toNat / Fmt.signWeight .f32 = (b.toNat / Fmt.signWeight .f32) ^^^ 1 := by
    rw [BitVec.toNat_xor]
    exact Nat.xor_div_two_pow
  have bit : b.toNat / Fmt.signWeight .f32 = 0 ∨ b.toNat / Fmt.signWeight .f32 = 1 := by
    have := b.isLt
    rw [show Fmt.signWeight .f32 = 2 ^ 31 from rfl]
    omega
  have twice (v : FVal) : v.negate.negate = v := by cases v <;> simp [FVal.negate]
  rw [fval_eq_sign_magnitude, fval_eq_sign_magnitude .f32 b.toNat, magnitude, sign]
  rcases bit with zero | one
  · rw [zero]; rfl
  · rw [one]; exact (twice _).symm

/-! ## Results of either sign -/

/-- A result with the sign turned. -/
def FRes.Turned (r r' : FRes) : Prop := r'.lane = (r.lane.1 ^^^ 0x80000000#32, r.flags)

theorem turned_signBits {c : Nat} (hc : c = 0 ∨ c = 0x3F800000) (n : Bool) :
    FRes.Turned ⟨signBits .f32 n + c, 0⟩ ⟨signBits .f32 (!n) + c, 0⟩ := by
  rcases hc with rfl | rfl <;> cases n <;> exact Prod.ext (by decide) rfl

theorem turned_approxRes (r : BitVec 32) : (approxRes r).Turned (approxRes (r ^^^ 0x80000000#32)) := by
  have exponent : (r ^^^ 0x80000000#32).extractLsb' 23 8 = r.extractLsb' 23 8 := by
    rw [BitVec.extractLsb'_xor]
    exact BitVec.xor_zero
  rw [FRes.Turned, approxRes, approxRes, exponent, FRes.lane, FRes.lane]
  simp only [BitVec.ofNat_toNat, BitVec.setWidth_eq]

/-! ## Sine and cosine, in turns -/

/-- A whole number of quarter turns. -/
theorem quarters_of_nat {m k : Nat} {e : Int} (h : (m : ℚ) * 2 ^ e * 4 = k) : quarters m e = some k := by
  obtain ⟨down, -, -, inexact⟩ := roundAt_integral (by decide : Rm.rtz ≠ .dyn) false m (e + 2)
  have value : (m : ℚ) * 2 ^ (e + 2) = k := by rw [zpow_add₀ two_ne_zero, ← h]; norm_num; ring
  rw [value] at down inexact
  have whole : (roundAt .rtz false m (e + 2) 0 false).1 = k := by exact_mod_cast (down (.inl rfl)).trans (Int.floor_natCast k)
  have same : (roundAt .rtz false m (e + 2) 0 false).2 = false := Bool.eq_false_iff.2 (fun h => inexact.1 h (by rw [whole]))
  rw [quarters, whole, same]
  rfl

section
variable {n : Bool} {m k : Nat} {e : Int}

/-- Sine of a whole number of quarter turns. -/
theorem fsin_of_quarters (hv : fval .f32 b.toNat = .fin n m e) (hk : quarters m e = some k) : fsin b =
    if k % 2 = 0 then ⟨signBits .f32 n, 0⟩ else ⟨signBits .f32 (n != (k % 4 == 3)) + 0x3F800000, 0⟩ := by
  rw [fsin, hv]
  simp only [hk, beq_iff_eq]

/-- Cosine of a whole number of quarter turns. -/
theorem fcos_of_quarters (hv : fval .f32 b.toNat = .fin n m e) (hk : quarters m e = some k) : fcos b =
    if k % 2 = 1 then ⟨0, 0⟩ else ⟨signBits .f32 (k % 4 == 2) + 0x3F800000, 0⟩ := by
  rw [fcos, hv]
  simp only [hk, beq_iff_eq]

end

section
variable {n : Bool} {m : Nat} {e : Int}

/-- The magnitude of an exact value. -/
theorem abs_exactly (n : Bool) (m : Nat) (e : Int) : |exactly n m e| = (m : ℚ) * 2 ^ e := by
  rw [exactly, mul_assoc, abs_mul, abs_of_nonneg (by positivity : (0 : ℚ) ≤ m * 2 ^ e)]
  cases n <;> simp

/-- R122: at a multiple of half a turn. -/
theorem half_turns (hv : fval .f32 b.toNat = .fin n m e) {k : Int} (hq : exactly n m e = k / 2) :
    fsin b = ⟨signBits .f32 n, 0⟩ ∧ fcos b = ⟨signBits .f32 (k % 2 == 1) + 0x3F800000, 0⟩ := by
  have whole : quarters m e = some (2 * k.natAbs) := by
    refine quarters_of_nat ?_
    rw [← abs_exactly n, hq, abs_div, abs_two]
    push_cast [Nat.cast_natAbs]
    ring
  have even : 2 * k.natAbs % 2 = 0 := by omega
  have sign : (2 * k.natAbs % 4 == 2) = (k % 2 == 1) := by
    rw [Bool.beq_eq_decide_eq, Bool.beq_eq_decide_eq]
    exact decide_eq_decide.2 (by omega)
  rw [fsin_of_quarters hv whole, fcos_of_quarters hv whole, if_pos even, if_neg (by omega), sign]
  exact ⟨rfl, rfl⟩

/-- R122: at an odd number of quarter turns. -/
theorem odd_quarter_turns (hv : fval .f32 b.toNat = .fin n m e) {k : Int} (hq : exactly n m e = k / 2 + 1 / 4) :
    fsin b = ⟨signBits .f32 (k % 2 == 1) + 0x3F800000, 0⟩ ∧ fcos b = ⟨0, 0⟩ := by
  have value : exactly n m e * 4 = ((2 * k + 1 : Int) : ℚ) := by rw [hq]; push_cast; ring
  have whole : quarters m e = some (2 * k + 1).natAbs := by
    refine quarters_of_nat ?_
    rw [← abs_exactly n, ← abs_of_pos (show (0 : ℚ) < 4 by norm_num), ← abs_mul, value]
    push_cast [Nat.cast_natAbs]
    rfl
  have nonzero : exactly n m e ≠ 0 := fun h => by
    rw [h, zero_mul] at value
    have : (2 * k + 1 : Int) = 0 := by exact_mod_cast value.symm
    omega
  have sign : n = decide (k < 0) := by
    have scaled : exactly n m e < 0 ↔ (2 * k + 1 : Int) < 0 := by
      rw [← Int.cast_lt_zero (R := ℚ), ← value]
      constructor <;> intro h <;> linarith
    rw [(exactly_sign_magnitude nonzero).1]
    exact decide_eq_decide.2 (scaled.trans (by omega))
  have odd : (2 * k + 1).natAbs % 2 = 1 := by omega
  have turn : (n != ((2 * k + 1).natAbs % 4 == 3)) = (k % 2 == 1) := by
    rw [sign]
    rcases lt_or_ge k 0 with neg | pos
    · rw [decide_eq_true neg, Bool.true_bne, Bool.beq_eq_decide_eq, Bool.beq_eq_decide_eq, ← decide_not]
      exact decide_eq_decide.2 (by omega)
    · rw [decide_eq_false (not_lt.2 pos), Bool.false_bne, Bool.beq_eq_decide_eq, Bool.beq_eq_decide_eq]
      exact decide_eq_decide.2 (by omega)
  rw [fsin_of_quarters hv whole, fcos_of_quarters hv whole, if_neg (by omega), if_pos odd, turn]
  exact ⟨rfl, rfl⟩

/-- R122: sine is odd. -/
theorem fsin_turned (hv : fval .f32 b.toNat = .fin n m e) : (fsin b).Turned (fsin (b ^^^ 0x80000000#32)) := by
  have hv' : fval .f32 (b ^^^ 0x80000000#32).toNat = .fin (!n) m e := by rw [fval_turned, hv]; rfl
  cases hk : quarters m e with
  | none =>
    rw [fsin, fsin, hv, hv']
    simp only [hk, absBits_turned, withSignOf_turned]
    exact turned_approxRes _
  | some k =>
    rw [fsin_of_quarters hv hk, fsin_of_quarters hv' hk]
    split_ifs
    · exact turned_signBits (.inl rfl) n
    · rw [Bool.not_bne]
      exact turned_signBits (.inr rfl) _

/-- R122: cosine is even. -/
theorem fcos_turned (hv : fval .f32 b.toNat = .fin n m e) : fcos (b ^^^ 0x80000000#32) = fcos b := by
  have hv' : fval .f32 (b ^^^ 0x80000000#32).toNat = .fin (!n) m e := by rw [fval_turned, hv]; rfl
  rw [fcos, fcos, hv, hv', absBits_turned]

/-! ## Hyperbolic tangent -/

/-- The magnitude of a finite f32 is that of its pattern without the sign. -/
theorem grid_absBits (hv : fval .f32 b.toNat = .fin n m e) : |exactly n m e| = Fmt.grid .f32 (absBits b).toNat := by
  obtain ⟨-, -, value, -, -⟩ := grid_of_fval hv
  rw [abs_exactly, value, absBits_toNat]

theorem grid_f32_4096th : Fmt.grid .f32 0x39800000 = 1 / 4096 := by
  rw [grid_f32 114 (n := 2 ^ 23) (by decide) (by decide) (by decide)]
  norm_num

theorem grid_f32_nine : Fmt.grid .f32 0x41100000 = 9 := by
  rw [grid_f32 129 (n := 2 ^ 23 + 2 ^ 20) (by decide) (by decide) (by decide)]
  norm_num

/-- R122: near zero the tangent is its argument. -/
theorem ftanh_small (hv : fval .f32 b.toNat = .fin n m e) (h : |exactly n m e| ≤ 1 / 4096) : ftanh b = ⟨b.toNat, 0⟩ := by
  rw [grid_absBits hv, ← grid_f32_4096th, (Fmt.grid_strictMono .f32).le_iff_le] at h
  rw [ftanh, hv]
  dsimp only
  rw [if_pos h]

/-- R122: far from zero it is ±1. -/
theorem ftanh_large (hv : fval .f32 b.toNat = .fin n m e) (h : 9 ≤ |exactly n m e|) : ftanh b = ⟨signBits .f32 n + 0x3F800000, 0⟩ := by
  rw [grid_absBits hv, ← grid_f32_nine, (Fmt.grid_strictMono .f32).le_iff_le] at h
  rw [ftanh, hv]
  dsimp only
  rw [if_neg (by omega), if_pos h]

/-- R122: the tangent is odd. -/
theorem ftanh_turned (hv : fval .f32 b.toNat = .fin n m e) : (ftanh b).Turned (ftanh (b ^^^ 0x80000000#32)) := by
  have hv' : fval .f32 (b ^^^ 0x80000000#32).toNat = .fin (!n) m e := by rw [fval_turned, hv]; rfl
  rw [ftanh, ftanh, hv, hv', absBits_turned]
  dsimp only
  split_ifs
  · simp only [FRes.Turned, FRes.lane, BitVec.ofNat_toNat, BitVec.setWidth_eq]
  · exact turned_signBits (.inr rfl) n
  · rw [withSignOf_turned]
    exact turned_approxRes _

end

/-- R122: an infinite argument. -/
theorem circular_of_inf {n : Bool} (h : fval .f32 b.toNat = .inf n) : fsin b = ⟨Fmt.canon .f32, flNV⟩ ∧ fcos b = ⟨Fmt.canon .f32, flNV⟩ ∧
    ftanh b = ⟨signBits .f32 n + 0x3F800000, 0⟩ := by
  rw [fsin, fcos, ftanh, h]
  exact ⟨rfl, rfl, rfl⟩

/-- R122: the exact cases and the symmetry of sine, cosine and tangent. -/
theorem circular_of_finite {q : ℚ} (hq : Claims.ratOf (fval .f32 b.toNat) = some q) :
    (∀ k : Int, q = k / 2 → fsin b = ⟨signBits .f32 (fval .f32 b.toNat).neg, 0⟩ ∧
      fcos b = ⟨signBits .f32 (k % 2 == 1) + 0x3F800000, 0⟩) ∧
    (∀ k : Int, q = k / 2 + 1 / 4 → fsin b = ⟨signBits .f32 (k % 2 == 1) + 0x3F800000, 0⟩ ∧ fcos b = ⟨0, 0⟩) ∧
    (|q| ≤ 1 / 4096 → ftanh b = ⟨b.toNat, 0⟩) ∧ (9 ≤ |q| → ftanh b = ⟨signBits .f32 (fval .f32 b.toNat).neg + 0x3F800000, 0⟩) ∧
    (fsin (b ^^^ 0x80000000#32)).lane = ((fsin b).lane.1 ^^^ 0x80000000#32, (fsin b).flags) ∧
    fcos (b ^^^ 0x80000000#32) = fcos b ∧
    (ftanh (b ^^^ 0x80000000#32)).lane = ((ftanh b).lane.1 ^^^ 0x80000000#32, (ftanh b).flags) := by
  obtain ⟨n, m, e, hv, rfl⟩ := exists_exactly hq
  have sign : (fval .f32 b.toNat).neg = n := by rw [hv]; rfl
  rw [sign]
  exact ⟨fun k => half_turns hv, fun k => odd_quarter_turns hv, ftanh_small hv, ftanh_large hv, fsin_turned hv, fcos_turned hv,
    ftanh_turned hv⟩

end

end Sys2Proof.Machine
end

section
/-! SUPPORT. Fraction, rounding to an integral value, and class (R124, R125); the cases of the function unit together. -/
namespace Sys2Proof.Machine

/-! ## Fraction -/

/-- A magnitude below a value of the format is not rounded above it. -/
theorem roundTo_le_of_lt {f : Fmt} {rm : Rm} {sat : Bool} {m : Nat} {e : Int} {c : Nat} (hrm : rm ≠ .dyn) (hc : c ≤ f.maxFinite)
    (hx : (m : ℚ) * 2 ^ e < f.grid c) : (roundTo f rm sat false m e false).bits ≤ c := by
  rcases Nat.eq_zero_or_pos m with rfl | pos
  · exact Nat.zero_le _
  · obtain ⟨lo, chosen, -⟩ := (Known.exact m e).pattern_chosen (f := f) (neg := false) hrm pos.ne' (by simp)
    have below : lo < c := by
      have real := (Rat.cast_lt (K := ℝ)).2 hx
      push_cast at real
      exact f.grid_lt.1 (chosen.lower.trans_lt real)
    have near := chosen.le
    rw [roundTo_eq pos.ne', if_neg (by omega)]
    simp only [signBits, Bool.false_eq_true, if_false]
    omega

/-- What `ffrac` makes of a rounded fraction: the greatest value below 1 for 1, and no flag but NX. -/
def fracOf (r : FRes) : FRes := ⟨if r.bits == 0x3F800000 then 0x3F7FFFFF else r.bits, r.flags &&& flNX⟩

theorem fracOf_spec {r : FRes} (h : r.bits ≤ 0x3F800000) : (fracOf r).bits = min r.bits 0x3F7FFFFF := by
  rw [fracOf]
  simp only [beq_iff_eq]
  split_ifs <;> omega

/-- The fraction of a finite value, as a significand with an exponent. -/
theorem ffrac_eq {b : Nat} {q : ℚ} (hq : Claims.ratOf (fval .f32 b) = some q) :
    ∃ (t : Nat) (e : Int), Int.fract q = (t : ℚ) * 2 ^ e ∧ ffrac b = fracOf (roundTo .f32 .rne false false t e false) := by
  obtain ⟨n, m, e, hv, rfl⟩ := exists_exactly hq
  have integer := scaled_mul_zpow_rat n m (le_refl e)
  rcases le_or_gt 0 e with pos | neg
  · refine ⟨0, 0, ?_, ?_⟩
    · have whole : ((scaled n m e e * 2 ^ e.toNat : Int) : ℚ) = exactly n m e := by
        rw [← integer, Int.cast_mul, Int.cast_pow, ← zpow_natCast, Int.toNat_of_nonneg pos]; rfl
      rw [← whole, Int.fract_intCast, Nat.cast_zero, zero_mul]
    · rw [ffrac, hv]
      dsimp only
      rw [if_pos pos]
      rfl
  · refine ⟨(scaled n m e e % ((2 ^ (-e).toNat : Nat) : Int)).toNat, e, ?_, ?_⟩
    · have unit : (2 : ℚ) ^ e = 1 / ((2 ^ (-e).toNat : Nat) : ℚ) := by
        rw [Nat.cast_pow, Nat.cast_ofNat, ← zpow_natCast, Int.toNat_of_nonneg (by omega), zpow_neg, one_div, inv_inv]
      have cast (v d : Int) (h : 0 ≤ v % d) : (((v % d).toNat : Nat) : ℚ) = ((v % d : Int) : ℚ) := by
        exact_mod_cast congrArg (Int.cast (R := ℚ)) (Int.toNat_of_nonneg h)
      rw [← integer, cast _ _ (Int.emod_nonneg _ (by positivity)), unit, mul_one_div, mul_one_div]
      exact Int.fract_div_intCast_eq_div_intCast_mod
    · rw [ffrac, hv]
      dsimp only
      rw [if_neg (by omega)]
      rfl

/-- R124: the fraction lies in [0, 1), and that of an integer is +0. -/
theorem ffrac_range {b : Nat} {q : ℚ} (hq : Claims.ratOf (fval .f32 b) = some q) :
    (ffrac b).bits ≤ 0x3F7FFFFF ∧ ∀ k : Int, q = k → ffrac b = ⟨0, 0⟩ := by
  obtain ⟨t, e, fraction, value⟩ := ffrac_eq hq
  have below : (roundTo .f32 .rne false false t e false).bits ≤ 0x3F800000 :=
    roundTo_le_of_lt (by decide) (by decide) (by rw [← fraction, grid_f32_one]; exact Int.fract_lt_one q)
  rw [value]
  refine ⟨by rw [fracOf_spec below]; exact min_le_right _ _, fun k hk => ?_⟩
  rw [hk, Int.fract_intCast, eq_comm, mul_eq_zero, or_iff_left (by positivity), Nat.cast_eq_zero] at fraction
  rw [fraction, roundTo_zero]
  rfl

/-- R124: the fraction is rounded to nearest, but not to 1. -/
theorem ffrac_rounded {b : Nat} {q : ℚ} (hq : Claims.ratOf (fval .f32 b) = some q) (h : Int.fract q ≠ 0) :
    ∃ r, Claims.RoundedRes .f32 .rne false false ((Int.fract q : ℚ) : ℝ) r ∧ (ffrac b).bits = min r.bits 0x3F7FFFFF ∧
      (ffrac b).flags = r.flags &&& flNX := by
  obtain ⟨t, e, fraction, value⟩ := ffrac_eq hq
  have below : (roundTo .f32 .rne false false t e false).bits ≤ 0x3F800000 :=
    roundTo_le_of_lt (by decide) (by decide) (by rw [← fraction, grid_f32_one]; exact Int.fract_lt_one q)
  have nonzero : t ≠ 0 := by rintro rfl; exact h (by rw [fraction, Nat.cast_zero, zero_mul])
  have real : ((Int.fract q : ℚ) : ℝ) = (t : ℝ) * 2 ^ e := by rw [fraction]; push_cast; rfl
  rw [value, real]
  exact ⟨_, (Known.exact t e).roundedRes (by decide) nonzero (by simp) false, fracOf_spec below, rfl⟩

/-! ## Rounding to an integral value -/

/-- A value rounded to an integer is an f32. -/
theorem exists_grid_roundAt {rm : Rm} {b : Nat} {n : Bool} {m : Nat} {e : Int} (hv : fval .f32 b = .fin n m e) :
    ∃ c, c ≤ Fmt.maxFinite .f32 ∧ (((roundAt rm n m e 0 false).1 : Nat) : ℚ) * 2 ^ (0 : Int) = Fmt.grid .f32 c := by
  obtain ⟨hm, -, -⟩ := fval_bounds_f32 (by decide) hv
  rcases le_or_gt 0 e with pos | neg
  · obtain ⟨hc, -, value, -, -⟩ := grid_of_fval hv
    refine ⟨_, hc, ?_⟩
    rw [roundAt, if_pos pos, ← value, sub_zero, zpow_zero, mul_one, Nat.cast_mul, Nat.cast_pow, Nat.cast_ofNat, ← zpow_natCast,
      Int.toNat_of_nonneg pos]
  · have half : 2 ≤ 2 ^ (0 - e).toNat := Nat.pow_le_pow_right two_pos (by omega : 1 ≤ (0 - e).toNat)
    have small : (roundAt rm n m e 0 false).1 ≤ 2 ^ 23 := by
      have quotient : m / 2 ^ (0 - e).toNat < 2 ^ 23 := (Nat.div_le_div_left half two_pos).trans_lt (by omega)
      rw [roundAt, if_neg (by omega)]
      dsimp only
      split_ifs <;> omega
    refine exists_grid_eq (Nat.lt_of_le_of_lt small (by decide)) (by decide) ?_
    rw [grid_f32_top, zpow_zero, mul_one]
    exact_mod_cast Nat.lt_of_le_of_lt small (by decide : 2 ^ 23 < 2 ^ 128)

/-- R124: rounding to an integral value, in the mode, with its sign. -/
theorem frnd_picks {b : Nat} {q : ℚ} {rm : Rm} (hq : Claims.ratOf (fval .f32 b) = some q) (hrm : rm ≠ .dyn) :
    ∃ z : Int, Claims.IntPicks rm q z ∧ Claims.ratOf (fval .f32 (frnd .f32 rm b).bits) = some (z : ℚ) ∧
      (fval .f32 (frnd .f32 rm b).bits).neg = (fval .f32 b).neg := by
  obtain ⟨n, m, e, hv, rfl⟩ := exists_exactly hq
  obtain ⟨c, hc, value⟩ := exists_grid_roundAt (rm := rm) hv
  obtain ⟨picks, -⟩ := toInteger_picks hrm n m e
  have result : (frnd .f32 rm b).bits = (roundTo .f32 .rne false n (roundAt rm n m e 0 false).1 0 false).bits := by rw [frnd, hv]
  obtain ⟨holds, sign, -⟩ := roundTo_holds (rm := .rne) (sat := false) (neg := n) (by decide) hc value
  have integer : exactly n (roundAt rm n m e 0 false).1 0 = (((toInteger rm n m e).1 : Int) : ℚ) := by
    rw [exactly, zpow_zero, mul_one, toInteger]
    cases n <;> simp
  rw [result, hv]
  exact ⟨_, picks, holds.trans (congrArg some integer), sign⟩

/-- R124: `vrnd` raises NV alone. -/
theorem frnd_flags (rm : Rm) (b : Nat) : (frnd .f32 rm b).flags = nvIf (fval .f32 b).isSig := by
  rw [frnd]
  cases fval .f32 b <;> rfl

/-! ## Class -/

/-- R125: the class of a pattern of a format that has infinities and NaNs that signal, by its fields. -/
theorem fclassBit_fields {f : Fmt} (hi : f.hasInf = true) (hs : f.canSignal = true) (b : Nat) : fclassBit f b =
    let neg := b / f.signWeight % 2 = 1
    let e := b / 2 ^ f.manBits % 2 ^ f.expBits
    let m := b % 2 ^ f.manBits
    if e = 2 ^ f.expBits - 1 then
      (if m = 0 then (if neg then 0 else 7) else if m / 2 ^ (f.manBits - 1) % 2 = 0 then 8 else 9)
    else if e = 0 then (if m = 0 then (if neg then 3 else 4) else if neg then 2 else 5)
    else if neg then 1 else 6 := by
  have other : (f == .e4m3) = false := by
    revert hi
    cases f <;> decide
  have low : b % 2 ^ f.manBits < 2 ^ f.manBits := Nat.mod_lt _ (Nat.two_pow_pos _)
  have unit := Nat.two_pow_pos f.manBits
  simp only [fclassBit, fval, hi, hs, other, Bool.true_and, Bool.false_and, Bool.false_eq_true, if_false, beq_iff_eq]
  by_cases top : b / 2 ^ f.manBits % 2 ^ f.expBits = 2 ^ f.expBits - 1
  · simp only [if_pos top]
    by_cases zero : b % 2 ^ f.manBits = 0
    · simp only [if_pos zero, beq_iff_eq]
    · simp only [if_neg zero, beq_iff_eq]
  · simp only [if_neg top]
    by_cases sub : b / 2 ^ f.manBits % 2 ^ f.expBits = 0
    · simp only [if_pos sub, beq_iff_eq, low, if_true]
    · have nonzero : ¬2 ^ f.manBits + b % 2 ^ f.manBits = 0 := by omega
      have normal : ¬2 ^ f.manBits + b % 2 ^ f.manBits < 2 ^ f.manBits := by omega
      simp only [if_neg sub, beq_iff_eq, nonzero, normal, if_false]

/-- R125: the class of an f32. -/
theorem fclassBit_f32 {b : Nat} (hb : b < 2 ^ 32) :
    let neg := 2 ^ 31 ≤ b
    let e := b / 2 ^ 23 % 256
    let m := b % 2 ^ 23
    fclassBit .f32 b =
      if e = 255 then (if m = 0 then (if neg then 0 else 7) else if m < 2 ^ 22 then 8 else 9)
      else if e = 0 then (if m = 0 then (if neg then 3 else 4) else if neg then 2 else 5)
      else if neg then 1 else 6 := by
  have sign : (b / Fmt.signWeight .f32 % 2 = 1) = (2 ^ 31 ≤ b) := propext (by rw [show Fmt.signWeight .f32 = 2 ^ 31 from rfl]; omega)
  have quiet : (b % 8388608 / 4194304 % 2 = 0) = (b % 8388608 < 4194304) := propext (by omega)
  have fields : Fmt.manBits .f32 = 23 ∧ Fmt.expBits .f32 = 8 := ⟨rfl, rfl⟩
  dsimp only
  rw [fclassBit_fields rfl rfl]
  simp only [sign, fields.1, fields.2, quiet, Nat.reducePow, Nat.reduceSub]

/-! ## The function unit -/

/-- R121, R122: zeros and infinities. -/
theorem frcp_specials : frcp .f32 0 = ⟨0x7F800000, flDZ⟩ ∧ frcp .f32 0x80000000 = ⟨0xFF800000, flDZ⟩ ∧ frcp .f32 0x7F800000 = ⟨0, 0⟩ ∧
    frcp .f32 0xFF800000 = ⟨0x80000000, 0⟩ := by decide

theorem frsqrt_specials : frsqrt .f32 0 = ⟨0x7F800000, flDZ⟩ ∧ frsqrt .f32 0x80000000 = ⟨0xFF800000, flDZ⟩ ∧
    frsqrt .f32 0x7F800000 = ⟨0, 0⟩ := by decide

theorem fsqrt_specials (rm : Rm) : fsqrt .f32 rm 0 = ⟨0, 0⟩ ∧ fsqrt .f32 rm 0x80000000 = ⟨0x80000000, 0⟩ ∧
    fsqrt .f32 rm 0x7F800000 = ⟨0x7F800000, 0⟩ := by cases rm <;> decide

theorem fexp2_specials : fexp2 0xFF800000#32 = ⟨0, 0⟩ ∧ fexp2 0x7F800000#32 = ⟨0x7F800000, 0⟩ := by decide

theorem flog2_specials : flog2 0#32 = ⟨0xFF800000, flDZ⟩ ∧ flog2 0x80000000#32 = ⟨0xFF800000, flDZ⟩ ∧
    flog2 0x7F800000#32 = ⟨0x7F800000, 0⟩ ∧ flog2 0xFF800000#32 = ⟨Fmt.canon .f32, flNV⟩ := by decide

theorem ffrac_of_inf {b : Nat} {n : Bool} (h : fval .f32 b = .inf n) : ffrac b = ⟨Fmt.canon .f32, flNV⟩ := by rw [ffrac, h]; rfl

/-- R121, R122, R124, R125: the cases of the function unit. -/
theorem functionUnitCases : Claims.FunctionUnitCases := by
  obtain ⟨log0, logNeg0, logInf, logNegInf⟩ := flog2_specials
  exact ⟨fun _ h rm => functions_of_isNan h rm, fun _ h => approximations_of_isNan h, frcp_specials, frsqrt_specials, fsqrt_specials,
    fun _ rm notNan nonzero neg => roots_of_neg rm notNan nonzero neg,
    ⟨fexp2_specials.1, fexp2_specials.2, fun _ _ hq big => fexp2_overflow hq big, fun _ _ low high hn => fexp2_of_int low high hn⟩,
    ⟨log0, logNeg0, logInf, logNegInf, fun _ _ hq neg => flog2_of_neg hq neg, fun _ _ hn => flog2_of_zpow hn⟩,
    fun _ _ h => circular_of_inf h, fun _ _ hq => circular_of_finite hq,
    fun b => ⟨fun _ h => ffrac_of_inf h, fun _ hq => ffrac_range hq, fun rm => frnd_flags rm b⟩,
    fun _ _ _ _ hq hrm => ⟨ffrac_rounded hq, frnd_picks hq hrm⟩, fun _ hb => fclassBit_f32 hb⟩

end Sys2Proof.Machine
end

section
/-! SUPPORT. The integer dot products, packing and widening (R115, R119, R120). -/
namespace Sys2Proof.Machine

/-! ## Integer dot products -/

/-- A byte of a lane value, as an integer. -/
theorem val_elemBits {t : IFmt} (ht : t.n = 8) (a : Lane) (j : Nat) : t.val (elemBits a 8 j) = t.val (a.toNat / 256 ^ j) := by
  rw [elemBits, Nat.shiftRight_eq_div_pow, pow_mul, ← t.val_mod (a.toNat / 256 ^ j), ht]
  rfl

/-- R115: four products of bytes and the accumulator, modulo 2^32. -/
theorem dotInt_eq {t : IFmt} (ht : t.n = 8) (a b c : Lane) :
    let el (w : Lane) (k : Nat) : Int := t.val (w.toNat / 256 ^ k)
    dotInt t a b c = BitVec.ofInt 32 ((c.toNat : Int) + el a 0 * el b 0 + el a 1 * el b 1 + el a 2 * el b 2 + el a 3 * el b 3) := by
  rw [dotInt]
  simp only [val_elemBits ht]
  rfl

/-! ## Packing -/

/-- Two halves of 16 bits. -/
theorem packHalves_toNat {lo hi : FRes} (hl : lo.bits < 65536) (hh : hi.bits < 65536) :
    (packHalves lo hi).1.toNat = lo.bits + 65536 * hi.bits := Nat.mod_eq_of_lt (by omega)

theorem packHalves_quiet {lo hi : FRes} (hl : lo.flags = 0) (hh : hi.flags = 0) : (packHalves lo hi).2 = 0 := by
  rw [packHalves, hl, hh]
  rfl

/-- A signed value saturated to 16 bits. -/
theorem icvt_s16 (a : Lane) : icvt ⟨true, 32⟩ ⟨true, 16⟩ a.toNat = (BitVec.ofInt 16 (max (-32768) (min 32767 a.toInt))).toNat := by
  rw [icvt, if_neg (by decide), IFmt.sat_eq, IFmt.val_signed32, BitVec.toNat_ofInt]
  rfl

/-- An unsigned value saturated to 16 bits. -/
theorem icvt_n16 (a : Lane) : icvt ⟨false, 32⟩ ⟨false, 16⟩ a.toNat = min 65535 a.toNat := by
  have low : IFmt.lo ⟨false, 16⟩ = 0 := rfl
  have high : IFmt.hi ⟨false, 16⟩ = 65535 := rfl
  have values : (2 : Int) ^ (IFmt.mk false 16).n = 65536 := rfl
  rw [icvt, if_neg (by decide), IFmt.sat_eq, IFmt.val_unsigned32, IFmt.wrap_eq, low, high, values]
  omega

/-- R119: two signed integers packed. -/
theorem packLane_s16 (rm : Rm) (a b : Lane) : (packLane .s16 rm a b).1.toNat =
    (BitVec.ofInt 16 (max (-32768) (min 32767 a.toInt))).toNat +
      65536 * (BitVec.ofInt 16 (max (-32768) (min 32767 b.toInt))).toNat := by
  have half (x : Lane) : (convert .s32 .s16 .rne false x.toNat).bits = (BitVec.ofInt 16 (max (-32768) (min 32767 x.toInt))).toNat :=
    icvt_s16 x
  rw [packLane, packHalves_toNat (by rw [half]; exact BitVec.isLt _) (by rw [half]; exact BitVec.isLt _), half, half]

/-- R119: two unsigned integers packed. -/
theorem packLane_n16 (rm : Rm) (a b : Lane) : (packLane .n16 rm a b).1.toNat = min 65535 a.toNat + 65536 * min 65535 b.toNat := by
  have half (x : Lane) : (convert .n32 .n16 .rne false x.toNat).bits = min 65535 x.toNat := icvt_n16 x
  rw [packLane, packHalves_toNat (by rw [half]; omega) (by rw [half]; omega), half, half]

/-! ## Widening -/

/-- The bits above an f32 do not count. -/
theorem fval_f32_mod (b : Nat) : fval .f32 (b % 2 ^ 32) = fval .f32 b := by
  have weight : Fmt.signWeight .f32 = 2 ^ 31 := rfl
  have magnitude : b % 2 ^ 32 % 2 ^ 31 = b % 2 ^ 31 := by omega
  have sign : b % 2 ^ 32 / 2 ^ 31 % 2 = b / 2 ^ 31 % 2 := by omega
  rw [fval_eq_sign_magnitude, fval_eq_sign_magnitude .f32 b, weight, magnitude, sign]

/-- R21: every other float widens to an f32 without a change of its value. -/
theorem fcvt_f32_exact {f : Fmt} (hf : f ≠ .f64) {b : Nat} {q : ℚ} (hq : Claims.ratOf (fval f b) = some q) :
    let r := fcvt f .f32 .rne false b
    Claims.ratOf (fval .f32 r.bits) = some q ∧ r.flags = 0 := by
  obtain ⟨n, m, e, hv, rfl⟩ := exists_exactly hq
  obtain ⟨hm, low, high⟩ := fval_bounds_f32 hf hv
  obtain ⟨holds, -, quiet⟩ := roundTo_f32_holds (rm := .rne) (sat := false) (neg := n) (by decide) hm low high
  rw [fcvt, hv]
  exact ⟨holds, quiet⟩

/-- R120: a packed integer is widened. -/
theorem unpackLane_int {src : Tc} (h : Tc.fmt? src = none) (j : Nat) (a : Lane) :
    unpackLane src j a = (BitVec.ofInt 32 ((Tc.ifmt src).val (elemBits a (Tc.width src) j)), 0) := by
  rw [unpackLane, h]

/-- R120: a packed float is widened. -/
theorem unpackLane_float {src : Tc} {f : Fmt} (h : Tc.fmt? src = some f) (j : Nat) (a : Lane) {q : ℚ}
    (hq : Claims.ratOf (fval f (elemBits a (Tc.width src) j)) = some q) :
    Claims.ratOf (fval .f32 (unpackLane src j a).1.toNat) = some q ∧ (unpackLane src j a).2 = 0 := by
  have hf : f ≠ .f64 := by rintro rfl; cases src <;> cases h
  obtain ⟨value, quiet⟩ := fcvt_f32_exact hf hq
  rw [unpackLane, h]
  refine ⟨?_, quiet⟩
  show Claims.ratOf (fval .f32 (BitVec.ofNat 32 _).toNat) = _
  rw [BitVec.toNat_ofNat, fval_f32_mod]
  exact value

/-- R115, R119, R120: dot products, packing and widening. -/
theorem dotsAndPacking : Claims.DotsAndPacking := by
  intro a b c rm sat src j el dot
  refine ⟨Prod.ext (dotInt_eq rfl a b c) rfl, Prod.ext (dotInt_eq rfl a b c) rfl, packLane_s16 rm a b, packLane_n16 rm a b,
    packHalves_quiet rfl rfl, packHalves_quiet rfl rfl, rfl, rfl, fun _ _ => ?_⟩
  rw [← Nat.shiftRight_eq_div_pow]
  exact ⟨fun h => unpackLane_int h j a, fun f q h hq => unpackLane_float h j a hq⟩

end Sys2Proof.Machine
end

section
/-! SUPPORT. The float lane words (R97, R110 to R125): their results and their frame, and the reserved rounding modes. -/
namespace Sys2Proof.Machine
open Sys2Proof.Safety

section
variable {s : State} {p : LaneHdr} {f : FForm} {rm m : Rm} {vd va vb vc : LOp}

/-! ## A mode that frm or the word gives -/

theorem laneFma_of_mode (h : s.formRm f = some rm) (negP negC : Bool) : s.laneFma p f negP negC vd va vb vc =
    s.laneOp32 p (regsOf va 1 ++ regsOf vb 1 ++ regsOf vc 1) vd (fun k i =>
      fmaLane f rm negP negC (k.src32 va i) (k.src32 vb i) (k.src32 vc i)) := by
  rw [State.laneFma, h]

theorem laneF2_of_mode (h : s.formRm f = some rm) (op : Rm → Fmt → Nat → Nat → FRes) : s.laneF2 p f op vd va vb =
    s.laneOp32 p (regsOf va 1 ++ regsOf vb 1) vd (fun k i => formLane f (op rm) (k.src32 va i) (k.src32 vb i)) := by
  rw [State.laneF2, h]

theorem exec_vpack_of_mode {t : PackTy} (h : s.hart.rmOf (packRm t) = some rm) : exec (.vpack p t vd va vb) s =
    .next (s.laneOp32 p (regsOf va 1 ++ regsOf vb 1) vd (fun k i => packLane t rm (k.src32 va i) (k.src32 vb i))) := by
  show execVpack p t vd va vb s = _
  rw [execVpack, h]

theorem exec_vsqrt_of_mode (h : s.hart.rmOf rm = some m) : exec (.vsqrt p rm vd va) s =
    .next (s.laneOp32 p (regsOf va 1) vd (fun k i => (fsqrt .f32 m (k.src32 va i).toNat).lane)) := by
  show execVsqrt p rm vd va s = _
  rw [execVsqrt, h]
  rfl

theorem exec_vrnd_of_mode (h : s.hart.rmOf rm = some m) : exec (.vrnd p rm vd va) s =
    .next (s.laneOp32 p (regsOf va 1) vd (fun k i => (frnd .f32 m (k.src32 va i).toNat).lane)) := by
  show execVrnd p rm vd va s = _
  rw [execVrnd, h]
  rfl

/-- A word of the FMA family, in the terms of the statements. -/
theorem gives_laneFma {i : Instr} {negP negC : Bool} (h : s.formRm f = some rm)
    (free : LanesFree s (regsOf va 1 ++ regsOf vb 1 ++ regsOf vc 1 ++ [vd.toNat]))
    (hi : exec i s = .next (s.laneFma p f negP negC vd va vb vc)) :
    let g (l : Nat) := fmaLane f rm negP negC (s.hart.src32 va l) (s.hart.src32 vb l) (s.hart.src32 vc l)
    Gives i s (LaneOp s p vd (fun l => (g l).1) (fun l => (g l).2)) :=
  gives_laneOp (hi.trans (congrArg Host.Outcome.next (laneFma_of_mode h negP negC))) free (fun _ => rfl)

/-- A two-source float word, in the terms of the statements. -/
theorem gives_laneF2 {i : Instr} {op : Rm → Fmt → Nat → Nat → FRes} (h : s.formRm f = some rm)
    (free : LanesFree s (regsOf va 1 ++ regsOf vb 1 ++ [vd.toNat])) (hi : exec i s = .next (s.laneF2 p f op vd va vb)) :
    let g (l : Nat) := formLane f (op rm) (s.hart.src32 va l) (s.hart.src32 vb l)
    Gives i s (LaneOp s p vd (fun l => (g l).1) (fun l => (g l).2)) :=
  gives_laneOp (hi.trans (congrArg Host.Outcome.next (laneF2_of_mode h op))) free (fun _ => rfl)

/-! ## A reserved mode (R18, R97) -/

theorem laneFma_of_reserved (h : s.formRm f = none) (negP negC : Bool) : s.laneFma p f negP negC vd va vb vc = s.illegal := by
  rw [State.laneFma, h]

theorem laneF2_of_reserved (h : s.formRm f = none) (op : Rm → Fmt → Nat → Nat → FRes) : s.laneF2 p f op vd va vb = s.illegal := by
  rw [State.laneF2, h]

theorem exec_vsqrt_of_reserved (h : s.hart.rmOf rm = none) : exec (.vsqrt p rm vd va) s = .next s.illegal := by
  show execVsqrt p rm vd va s = _
  rw [execVsqrt, h]

theorem exec_vrnd_of_reserved (h : s.hart.rmOf rm = none) : exec (.vrnd p rm vd va) s = .next s.illegal := by
  show execVrnd p rm vd va s = _
  rw [execVrnd, h]

theorem exec_vcvt_of_reserved (h : s.hart.rmOf rm = none) (dst src : Tc) (sat : Bool) :
    exec (.vcvt p dst src rm sat vd va) s = .next s.illegal := by
  show execVcvt p dst src rm sat vd va s = _
  rw [execVcvt, h]

theorem exec_vpack_of_reserved {t : PackTy} (h : s.hart.rmOf (packRm t) = none) : exec (.vpack p t vd va vb) s = .next s.illegal := by
  show execVpack p t vd va vb s = _
  rw [execVpack, h]

end

/-- frm values from 5 on name no mode. -/
theorem frmMode_reserved : ∀ c : BitVec 3, 5 ≤ c.toNat → frmMode c = none := by decide

/-- R18, R97: mode DYN with a reserved frm. -/
theorem dynamicRoundingReserved : Claims.DynamicRoundingReserved := by
  intro p vd va vb vc dst src sat s reserved i hi
  have mode : s.hart.rmOf .dyn = none := frmMode_reserved _ reserved
  have fma (negP negC : Bool) := congrArg (Host.Outcome.next (φ := Fault) (ρ := Refusal))
    (laneFma_of_reserved (p := p) (f := .f32 .dyn) (vd := vd) (va := va) (vb := vb) (vc := vc) mode negP negC)
  have two (op : Rm → Fmt → Nat → Nat → FRes) := congrArg (Host.Outcome.next (φ := Fault) (ρ := Refusal))
    (laneF2_of_reserved (p := p) (f := .f32 .dyn) (vd := vd) (va := va) (vb := vb) mode op)
  refine State.gives_illegal ?_
  rcases hi with rfl | rfl | rfl | rfl | rfl | rfl | rfl | rfl | rfl | rfl | rfl | rfl
  · exact fma false false
  · exact fma false true
  · exact fma true true
  · exact fma true false
  · exact two _
  · exact two _
  · exact two _
  · exact exec_vsqrt_of_reserved mode
  · exact exec_vrnd_of_reserved mode
  · exact exec_vcvt_of_reserved mode dst src sat
  · exact exec_vpack_of_reserved mode
  · exact exec_vpack_of_reserved mode

theorem ofNat_two_pow (n : Nat) : BitVec.ofNat 32 (2 ^ n) = 1#32 <<< n := by
  rw [← BitVec.twoPow_eq]
  exact BitVec.eq_of_toNat_eq (by rw [BitVec.toNat_ofNat, BitVec.toNat_twoPow])

/-- R97, R110 to R113, R115, R119 to R122, R124, R125: the float lane words. -/
theorem floatWords : Claims.FloatWords := by
  intro p vd va vb vc s free a b c op
  have freeAB : LanesFree s (regsOf va 1 ++ regsOf vb 1 ++ [vd.toNat]) := fun r hr => free r (by
    simp only [List.mem_append] at hr ⊢
    tauto)
  have freeA : LanesFree s (regsOf va 1 ++ [vd.toNat]) := fun r hr => free r (by
    simp only [List.mem_append] at hr ⊢
    tauto)
  refine ⟨fun f rm h => ⟨gives_laneFma h free rfl, gives_laneFma h free rfl, gives_laneFma h free rfl, gives_laneFma h free rfl,
      gives_laneF2 (op := fun rm t => fadd t rm false) h freeAB rfl, gives_laneF2 (op := fun rm t => fadd t rm true) h freeAB rfl,
      gives_laneF2 (op := fun rm t => fmul t rm) h freeAB rfl, gives_laneF2 (op := fun _ t => fminmax t false) h freeAB rfl,
      gives_laneF2 (op := fun _ t => fminmax t true) h freeAB rfl⟩,
    fun bf => gives_laneOp rfl free (fun _ => rfl), fun t => gives_laneOp rfl free (fun _ => rfl),
    fun t rm h => gives_laneOp (exec_vpack_of_mode h) freeAB (fun _ => rfl),
    fun rm m h => ⟨gives_laneOp (exec_vsqrt_of_mode h) freeA (fun _ => rfl), gives_laneOp (exec_vrnd_of_mode h) freeA (fun _ => rfl)⟩,
    gives_laneOp rfl freeA (fun _ => rfl), gives_laneOp rfl freeA (fun _ => rfl), gives_laneOp rfl freeA (fun _ => rfl),
    gives_laneOp rfl freeA (fun _ => rfl), gives_laneOp rfl freeA (fun _ => rfl), gives_laneOp rfl freeA (fun _ => rfl),
    gives_laneOp rfl freeA (fun _ => rfl), gives_laneOp rfl freeA (fun _ => rfl), gives_laneInt rfl freeA (fun _ => ofNat_two_pow _),
    fun t j => gives_laneOp rfl freeA (fun _ => rfl)⟩

/-- Settles O9: the words are lane words of their functions; every rounding is `Known.roundedRes` of what the function knows of the
exact value, and an exact case is a value on the grid (`roundTo_of_grid`). -/
theorem floatWordsAndRounding : Obligations.FloatWordsAndRounding :=
  ⟨floatWords, floatRounding, floatSpecials, minimaAndMaxima, functionUnitCases, dotsAndPacking, dynamicRoundingReserved⟩

end Sys2Proof.Machine
end

section
/-! SUPPORT. The branches on masks, the mask stack and the mask state (R155 to R158). -/
namespace Sys2Proof.Machine
set_option Elab.async false
open Sys2Proof.Safety

/-! ## Branches (R156) -/

section
variable {s : State} {i : Instr} {off : BitVec 12}

/-- A branch on a Boolean that stands for a condition. -/
theorem gives_branchIf {c : Prop} {b : Bool} (hi : exec i s = .next (s.branchIf b off)) (hb : b = true ↔ c) :
    (c → Gives i s (Jumps s (s.hart.pc + BitVec.ofInt 64 (2 * off.toInt)) (fun g => g = s.hart))) ∧
      (¬c → Gives i s (Retires s (fun g => g = s.hart))) := by
  cases b with
  | true =>
    refine ⟨fun _ => ⟨_, hi, s.hart, ?_, rfl⟩, fun no => absurd (hb.1 rfl) no⟩
    rw [← signExtend_shiftLeft_one]; rfl
  | false => exact ⟨fun yes => absurd (hb.2 yes) Bool.false_ne_true, fun _ => ⟨_, hi, s.retires_retire⟩⟩

end

/-- Settles O11: each branch is `State.branchIf` on its test of m0 against the mask. -/
theorem maskBranches : Obligations.MaskBranches := by
  intro k off s m0 mk goes
  exact ⟨gives_branchIf rfl bne_iff_ne, gives_branchIf rfl beq_iff_eq, gives_branchIf rfl beq_iff_eq⟩

/-! ## The mask stack (R155) -/

/-- An instruction that traps. -/
theorem gives_traps {i : Instr} {s : State} {cause sub : Nat} {tval : Word} (hi : exec i s = .next (s.trap ⟨cause, sub, tval⟩)) :
    Gives i s (Traps s cause sub tval) := ⟨_, hi, rfl⟩

theorem Hart.maskWritten_setM (h : Hart) (k : MReg) (v : Mask) : MaskWritten h k v (h.setM k v) :=
  ⟨rfl, fun _ => Hart.getM_setM _ _ _ _⟩

section
variable {s : State}

theorem exec_push_full (k : MReg) (full : 32 ≤ s.hart.mstk.length) :
    exec (.mdiv k) s = .next (s.maskFault 0) ∧ exec .mpush s = .next (s.maskFault 0) :=
  ⟨if_pos full, if_pos full⟩

theorem exec_push (k : MReg) (room : s.hart.mstk.length < 32) :
    exec (.mdiv k) s = .next (s.onHart (fun h => (h.pushMask).setM 0 (h.getM 0 &&& h.getM k))).retire ∧
      exec .mpush s = .next (s.onHart Hart.pushMask).retire :=
  ⟨if_neg (Nat.not_le.2 room), if_neg (Nat.not_le.2 room)⟩

theorem exec_pop_empty (k : MReg) (empty : s.hart.mstk = []) :
    exec (.melse k) s = .next (s.maskFault 1) ∧ exec .mjoin s = .next (s.maskFault 1) ∧
      exec .mpop s = .next (s.maskFault 1) ∧ exec .mrejoin s = .next (s.maskFault 1) := by
  have top : s.hart.topMask = none := by rw [Hart.topMask, empty]; rfl
  show execMelse k s = _ ∧ execMjoin s = _ ∧ execMpop s = _ ∧ execMrejoin s = _
  simp only [execMelse, execMjoin, execMpop, execMrejoin, top, and_self]

variable {below : List MaskEntry} {e : MaskEntry}

theorem Hart.topMask_of_concat {h : Hart} (stack : h.mstk = below ++ [e]) : h.topMask = some e := by
  rw [Hart.topMask, stack, List.getLast?_concat]

theorem Hart.popMask_of_concat {h : Hart} (stack : h.mstk = below ++ [e]) :
    h.popMask e = { h.setM 0 e.saved with mstk := below } := by
  rw [Hart.popMask, stack, List.dropLast_concat]

variable (stack : s.hart.mstk = below ++ [e])
include stack

theorem gives_popMask {i : Instr} (hi : exec i s = .next (s.onHart (fun h => h.popMask e)).retire) :
    Gives i s (Retires s (fun g => ∃ g1, MaskWritten s.hart 0 e.saved g1 ∧ g = { g1 with mstk := below })) :=
  ⟨_, hi, _, rfl, _, s.hart.maskWritten_setM 0 _, Hart.popMask_of_concat stack⟩

theorem exec_pop (k : MReg) :
    exec (.melse k) s = .next (s.onHart (fun h => h.setM 0 (e.saved &&& ~~~e.park &&& ~~~(h.getM k)))).retire ∧
      exec .mjoin s = .next (s.onHart (fun h => h.popMask e)).retire ∧
      exec .mpop s = .next (s.onHart (fun h => h.popMask e)).retire := by
  have top := Hart.topMask_of_concat stack
  show execMelse k s = _ ∧ execMjoin s = _ ∧ execMpop s = _
  simp only [execMelse, execMjoin, execMpop, top, and_self]

/-- The last of the awaited lanes to arrive releases all. -/
theorem exec_mrejoin_last (last : e.saved &&& ~~~(e.park ||| s.hart.getM 0) = 0) :
    exec .mrejoin s = .next (s.onHart (fun h => h.popMask e)).retire := by
  have top := Hart.topMask_of_concat stack
  show execMrejoin s = _
  simp only [execMrejoin, top, last, if_true]
  rfl

/-- While lanes are awaited, the active lanes park, and the awaited ones go on at the tag. -/
theorem exec_mrejoin_parks (awaited : e.saved &&& ~~~(e.park ||| s.hart.getM 0) ≠ 0) :
    exec .mrejoin s = .next ((s.onHart (fun h =>
      { h.setM 0 (e.saved &&& ~~~(e.park ||| s.hart.getM 0)) with
        mstk := below ++ [⟨e.saved, e.park ||| s.hart.getM 0, e.tag, if e.park = 0 then s.hart.pc else e.rpc⟩] })).retireTo e.tag) := by
  have top := Hart.topMask_of_concat stack
  show execMrejoin s = _
  simp only [execMrejoin, top, awaited, if_false, State.onHart, stack, List.dropLast_concat]

end

/-- Settles O10: the depth, or the top entry, decides what each instruction does. -/
theorem maskStackInstructions : Obligations.MaskStackInstructions := by
  intro k s h m0
  refine ⟨fun room => ?_, fun full => ?_, fun empty => ?_, fun below e stack => ?_⟩
  · obtain ⟨div, push⟩ := exec_push k room
    exact ⟨⟨_, div, _, rfl, _, h.maskWritten_setM 0 _, rfl⟩, ⟨_, push, _, rfl, rfl⟩⟩
  · obtain ⟨div, push⟩ := exec_push_full k full
    exact ⟨gives_traps div, gives_traps push⟩
  · obtain ⟨els, join, pop, rejoin⟩ := exec_pop_empty k empty
    exact ⟨gives_traps els, gives_traps join, gives_traps pop, gives_traps rejoin⟩
  · obtain ⟨els, join, pop⟩ := exec_pop stack k
    exact ⟨⟨_, els, _, rfl, h.maskWritten_setM 0 _⟩, gives_popMask stack join, gives_popMask stack pop,
      fun last => gives_popMask stack (exec_mrejoin_last stack last),
      fun awaited => ⟨_, exec_mrejoin_parks stack awaited, _, rfl, _, h.maskWritten_setM 0 _, rfl⟩⟩

/-! ## The mask state by selector (R157) -/

theorem maskSel_entry {f i : Nat} (hf : f < 4) (hi : i < 32) : maskSel (BitVec.ofNat 64 (256 * f + i)) = .entry f i := by
  have value : (BitVec.ofNat 64 (256 * f + i)).toNat = 256 * f + i := by rw [BitVec.toNat_ofNat, Nat.mod_eq_of_lt (by omega)]
  have other {c : Nat} (hc : 1024 ≤ c) (hc' : c < 2 ^ 64) : BitVec.ofNat 64 (256 * f + i) ≠ BitVec.ofNat 64 c := by
    rw [Ne, ← BitVec.toNat_inj, value, BitVec.toNat_ofNat, Nat.mod_eq_of_lt hc']
    omega
  have inStack : (decide (256 * f + i < 1024) && decide ((256 * f + i) / 32 % 8 = 0)) = true := by
    simp only [Bool.and_eq_true, decide_eq_true_eq]
    omega
  rw [maskSel, if_neg (other (c := 0x8000) (by decide) (by decide)), if_neg (other (c := 0x8001) (by decide) (by decide)), value,
    if_pos inStack]
  congr 1 <;> omega

theorem maskSel_bad {w : Word} (h0 : w ≠ 0x8000#64) (h1 : w ≠ 0x8001#64)
    (he : ∀ g j, g < 4 → j < 32 → w ≠ BitVec.ofNat 64 (256 * g + j)) : maskSel w = .bad := by
  have outside : ¬(decide (w.toNat < 1024) && decide (w.toNat / 32 % 8 = 0)) = true := by
    simp only [Bool.and_eq_true, decide_eq_true_eq]
    rintro ⟨small, low⟩
    refine he (w.toNat / 256) (w.toNat % 32) (by omega) (Nat.mod_lt _ (by decide)) ?_
    rw [show 256 * (w.toNat / 256) + w.toNat % 32 = w.toNat by omega, BitVec.ofNat_toNat, BitVec.setWidth_eq]
  rw [maskSel, if_neg h0, if_neg h1, if_neg outside]

/-- Each field of an entry, by its number. -/
theorem MaskEntry.read_eq (e : MaskEntry) {f : Nat} (hf : f < 4) : e.read f =
    if f = 0 then e.saved.setWidth 64 else if f = 1 then e.park.setWidth 64 else if f = 2 then e.tag else e.rpc := by
  interval_cases f <;> rfl

theorem MaskEntry.write_eq (e : MaskEntry) {f : Nat} (hf : f < 4) (live : Mask) (v : Word) : e.write f live v =
    if f = 0 then { e with saved := v.setWidth 32 &&& live }
    else if f = 1 then { e with park := v.setWidth 32 &&& live }
    else if f = 2 then { e with tag := v &&& ~~~1#64 } else { e with rpc := v &&& ~~~1#64 } := by
  interval_cases f <;> simp only [MaskEntry.write, wputb_zero_false] <;> rfl

section
variable {s : State} {rs1 : XReg} {f i : Nat} (rd rs2 : XReg)

theorem exec_maskState_m0 (hw : s.hart.getX rs1 = 0x8000#64) :
    exec (.mrd rd rs1) s = .next (s.setX rd ((s.hart.getM 0).setWidth 64)).retire ∧
      exec (.mwr rs1 rs2) s = .next (s.onHart (fun h => h.setM 0 ((h.getX rs2).setWidth 32 &&& h.live))).retire := by
  have sel : maskSel (s.hart.getX rs1) = .m0 := by rw [hw]; rfl
  show execMrd rd rs1 s = _ ∧ execMwr rs1 rs2 s = _
  simp only [execMrd, execMwr, sel, and_self]

theorem exec_maskState_live (hw : s.hart.getX rs1 = 0x8001#64) :
    exec (.mrd rd rs1) s = .next (s.setX rd (s.hart.live.setWidth 64)).retire ∧ exec (.mwr rs1 rs2) s = .next s.illegal := by
  have sel : maskSel (s.hart.getX rs1) = .live := by rw [hw]; rfl
  show execMrd rd rs1 s = _ ∧ execMwr rs1 rs2 s = _
  simp only [execMrd, execMwr, sel, and_self]

theorem exec_maskState_entry (hw : maskSel (s.hart.getX rs1) = .entry f i) {e : MaskEntry} (he : s.hart.mstk[i]? = some e) :
    exec (.mrd rd rs1) s = .next (s.setX rd (e.read f)).retire ∧
      exec (.mwr rs1 rs2) s = .next (s.onHart (fun h => { h with mstk := h.mstk.set i (e.write f h.live (h.getX rs2)) })).retire := by
  show execMrd rd rs1 s = _ ∧ execMwr rs1 rs2 s = _
  simp only [execMrd, execMwr, hw, he, and_self]

theorem exec_maskState_beyond (hw : maskSel (s.hart.getX rs1) = .entry f i) (he : s.hart.mstk.length ≤ i) :
    exec (.mrd rd rs1) s = .next (s.maskFault 1) ∧ exec (.mwr rs1 rs2) s = .next (s.maskFault 1) := by
  have none : s.hart.mstk[i]? = none := List.getElem?_eq_none he
  show execMrd rd rs1 s = _ ∧ execMwr rs1 rs2 s = _
  simp only [execMrd, execMwr, hw, none, and_self]

theorem exec_maskState_bad (hw : maskSel (s.hart.getX rs1) = .bad) :
    exec (.mrd rd rs1) s = .next s.illegal ∧ exec (.mwr rs1 rs2) s = .next s.illegal := by
  show execMrd rd rs1 s = _ ∧ execMwr rs1 rs2 s = _
  simp only [execMrd, execMwr, hw, and_self]

end

/-- R157: the mask state by selector. -/
theorem maskStateBySelector : Claims.MaskStateBySelector := by
  intro rd rs1 rs2 f i s h v
  have reads {u : Word} (hi : exec (.mrd rd rs1) s = .next (s.setX rd u).retire) :
      Gives (.mrd rd rs1) s (Retires s (XWritten h rd u)) := ⟨_, hi, _, rfl, h.xWritten_setX rd u⟩
  refine ⟨fun hw => ?_, fun hw => ?_, fun e hf hi hw he => ?_, fun hf hi hw he => ?_, fun h0 h1 hs => ?_⟩
  · obtain ⟨rdM, wrM⟩ := exec_maskState_m0 rd rs2 hw
    exact ⟨reads rdM, _, wrM, _, rfl, h.maskWritten_setM 0 _⟩
  · obtain ⟨rdL, wrL⟩ := exec_maskState_live rd rs2 hw
    exact ⟨reads rdL, gives_traps wrL⟩
  · obtain ⟨rdE, wrE⟩ := exec_maskState_entry rd rs2 (hw ▸ maskSel_entry hf hi) he
    rw [e.read_eq hf] at rdE
    exact ⟨reads rdE, _, wrE, _, rfl, _, rfl, e.write_eq hf _ _⟩
  · obtain ⟨rdE, wrE⟩ := exec_maskState_beyond rd rs2 (hw ▸ maskSel_entry hf hi) he
    exact ⟨gives_traps rdE, gives_traps wrE⟩
  · obtain ⟨rdB, wrB⟩ := exec_maskState_bad rd rs2 (maskSel_bad h0 h1 hs)
    exact ⟨gives_traps rdB, gives_traps wrB⟩

/-! ## Lanes that end (R158) -/

/-- A hart whose m0 and mask stack became what a release leaves. -/
def Hart.Released (h : Hart) (m0 : Mask) (stk : List MaskEntry) (k : Hart) : Prop :=
  ∃ k1, MaskWritten h 0 m0 k1 ∧ k = { k1 with mstk := stk }

theorem Hart.released_self (h : Hart) : h.Released (h.getM 0) h.mstk h := by
  refine ⟨h, ⟨rfl, fun r => ?_⟩, rfl⟩
  split_ifs with hr
  · rw [hr]
  · rfl

/-- What is released after an entry was popped is released from the hart before. -/
theorem Hart.released_of_popMask {h k : Hart} {e : MaskEntry} {m0 : Mask} {stk : List MaskEntry}
    (hk : (h.popMask e).Released m0 stk k) : h.Released m0 stk k := by
  obtain ⟨k1, ⟨frame, masks⟩, rfl⟩ := hk
  refine ⟨{ k1 with mstk := h.mstk }, ⟨by rw [frame]; rfl, fun r => (masks r).trans ?_⟩, rfl⟩
  split_ifs with hr
  · rfl
  · exact (Hart.getM_setM _ _ _ _).trans (if_neg hr)

/-- The release loop on the hart is the one on the stack, newest entry first. -/
theorem releaseParked_spec (l : List MaskEntry) : ∀ (n : Nat) (h : Hart) (tgt : Option Word), l.length ≤ n → h.mstk = l.reverse →
    (releaseParked n (h, tgt)).2 = (Claims.releases (h.getM 0) tgt l).2.1 ∧
      h.Released (Claims.releases (h.getM 0) tgt l).1 (Claims.releases (h.getM 0) tgt l).2.2.reverse (releaseParked n (h, tgt)).1 := by
  induction l with
  | nil =>
    intro n h tgt _ stack
    have same : releaseParked n (h, tgt) = (h, tgt) := by
      cases n with
      | zero => rfl
      | succ n => simp only [releaseParked, Hart.topMask, stack, List.reverse_nil, List.getLast?_nil]
    have kept := h.released_self
    rw [stack] at kept
    rw [same]
    exact ⟨rfl, kept⟩
  | cons e r ih =>
    intro n h tgt len stack
    obtain ⟨n, rfl⟩ : ∃ m, n = m + 1 := ⟨n - 1, by simp only [List.length_cons] at len; omega⟩
    rw [List.reverse_cons] at stack
    have top := Hart.topMask_of_concat stack
    by_cases due : h.getM 0 = 0 ∧ e.park ≠ 0 ∧ e.saved &&& ~~~e.park = 0
    · have popped := Hart.popMask_of_concat stack
      have go : releaseParked (n + 1) (h, tgt) = releaseParked n (h.popMask e, some (e.rpc + 4)) := by
        have yes : (decide (h.getM 0 = 0) && e.park != 0 && (e.saved &&& ~~~e.park) == 0) = true := by
          simpa [and_assoc] using due
        simp only [releaseParked, top, yes, if_true]
      have m0 : (h.popMask e).getM 0 = e.saved := (Hart.getM_setM _ _ _ _).trans (if_pos rfl)
      have rest := ih n (h.popMask e) (some (e.rpc + 4)) (by simpa using len) (by rw [popped])
      rw [m0] at rest
      rw [go, Claims.releases, if_pos due]
      exact ⟨rest.1, Hart.released_of_popMask rest.2⟩
    · have stop : releaseParked (n + 1) (h, tgt) = (h, tgt) := by
        have no : (decide (h.getM 0 = 0) && e.park != 0 && (e.saved &&& ~~~e.park) == 0) = false := by
          simpa [and_assoc] using due
        simp only [releaseParked, top, no, Bool.false_eq_true, if_false]
      have kept := h.released_self
      rw [stack, ← List.reverse_cons] at kept
      rw [stop, Claims.releases, if_neg due]
      exact ⟨rfl, kept⟩

/-- The hart after its lanes have ended and those that may go on were released. -/
def State.vexitHart (s : State) (p : LaneHdr) : Hart × Option Word :=
  releaseParked (s.hart.endLanes (s.hart.active p)).mstk.length (s.hart.endLanes (s.hart.active p), none)

theorem exec_vexit_none {s : State} {p : LaneHdr} (h : (s.vexitHart p).2 = none) :
    exec (.vexit p) s = .next { s with hart := (s.vexitHart p).1.retire } := by
  have split : s.vexitHart p = ((s.vexitHart p).1, none) := Prod.ext rfl h
  show execVexit p s = _
  unfold State.vexitHart at split ⊢
  simp only [execVexit]
  rw [split]
  rfl

theorem exec_vexit_some {s : State} {p : LaneHdr} {a : Word} (h : (s.vexitHart p).2 = some a) :
    exec (.vexit p) s = .next { s with hart := (s.vexitHart p).1.retireTo a } := by
  have split : s.vexitHart p = ((s.vexitHart p).1, some a) := Prod.ext rfl h
  show execVexit p s = _
  unfold State.vexitHart at split ⊢
  simp only [execVexit]
  rw [split]
  rfl

/-- R158: `vexit` ends lanes and releases those that wait for no others. -/
theorem vexitEndsLanes : Claims.VexitEndsLanes := by
  intro p s h x r left
  have ended : (h.endLanes x).getM 0 = h.getM 0 &&& ~~~x := (Hart.getM_setM _ _ _ _).trans (if_pos rfl)
  obtain ⟨target, k1, ⟨frame, masks⟩, rest⟩ := releaseParked_spec (h.endLanes x).mstk.reverse _ (h.endLanes x) none
    List.length_reverse.le (List.reverse_reverse _).symm
  rw [ended] at target masks rest
  have leaves : left (s.vexitHart p).1 := by
    refine ⟨{ k1 with live := h.live, mstk := h.mstk }, ⟨by rw [frame]; rfl, fun q => (masks q).trans ?_⟩, ?_⟩
    · split_ifs with hq
      · rfl
      · exact (Hart.getM_setM _ _ _ _).trans (if_neg hq)
    · refine rest.trans ?_
      rw [frame]; rfl
  exact ⟨fun none => ⟨_, exec_vexit_none (target.trans none), _, rfl, leaves⟩,
    fun a some => ⟨_, exec_vexit_some (target.trans some), _, rfl, leaves⟩⟩

/-- Settles O12: a selector names one part of the mask state, and the release loop is followed entry by entry. -/
theorem maskStateAndExit : Obligations.MaskStateAndExit := ⟨maskStateBySelector, vexitEndsLanes⟩

end Sys2Proof.Machine
end

section
/-! SUPPORT. Cross-lane words (R146 to R152): shuffles, votes, matches, scans, reductions and single lanes. -/
namespace Sys2Proof.Machine
set_option Elab.async false
open Sys2Proof.Safety

/-! ## Lane words of the whole sub-group -/

/-- What the written lanes are, and the flags that lanes raise, need agree on the 32 lanes alone. -/
theorem lanesWritten_congr {h k : Hart} {act : Mask} {v n : Nat} {R R' : Nat → Nat → Lane → Prop} {fl fl' : Nat → BitVec 5}
    (hw : LanesWritten h act v n R fl k) (hR : ∀ j l x, l < 32 → R j l x → R' j l x) (hfl : ∀ l, l < 32 → fl l = fl' l) :
    LanesWritten h act v n R' fl' k := by
  obtain ⟨⟨frame, flags⟩, lanes⟩ := hw
  refine ⟨⟨frame, fun b => (flags b).trans (congrArg _ ?_)⟩, fun r l hl => ?_⟩
  · rw [Bool.eq_iff_iff, List.any_eq_true, List.any_eq_true]
    refine exists_congr fun l => and_congr_right fun hl => ?_
    rw [hfl l (List.mem_range.1 hl)]
  · have written := lanes r l hl
    split_ifs at written ⊢
    · exact hR _ _ _ hl written
    · exact written

theorem laneTest_congr {s t : State} {p : LaneHdr} {md : MReg} {c c' : Nat → Bool} {fl : Nat → BitVec 5}
    (h : LaneTest s p md c fl t) (hc : ∀ i, i < 32 → c i = c' i) : LaneTest s p md c' fl t := by
  obtain ⟨k, ht, v, bits, rest⟩ := h
  exact ⟨k, ht, v, fun i hi => by rw [bits i hi, hc i hi], rest⟩

section
variable {s : State} {p : LaneHdr} {reads : List Nat} {i : Instr}

/-- A lane word whose results depend on the active mask writes what holds of them in each lane. -/
theorem gives_laneAct32 {vd : LOp} {f : Hart → Mask → Nat → Lane × BitVec 5} {R : Nat → Lane → Prop} {fl : Nat → BitVec 5}
    (hi : exec i s = .next (s.laneAct32 p reads vd f)) (free : LanesFree s (reads ++ [vd.toNat]))
    (hR : ∀ l, l < 32 → R l (f s.hart (s.hart.active p) l).1) (hfl : ∀ l, l < 32 → (f s.hart (s.hart.active p) l).2 = fl l) :
    Gives i s (Retires s (LanesWritten s.hart (s.hart.active p) vd.toNat 1 (fun _ l v => R l v) fl)) :=
  ⟨_, hi, _, State.laneAct32_plain f (State.plainRegs_of_lanesFree free),
    lanesWritten_congr (Hart.lanesWritten_writeLanes _ _ _ _ _) (fun _ l _ hl hv => hv ▸ hR l hl) hfl⟩

/-- A lane word that writes a mask register without flags. -/
theorem gives_laneMask {md : MReg} {f : Hart → Mask → Nat → Bool} {c : Nat → Bool}
    (hi : exec i s = .next (s.laneMask p reads md (fun h act l => (f h act l, 0)))) (free : LanesFree s reads)
    (hc : ∀ l, l < 32 → f s.hart (s.hart.active p) l = c l) : Gives i s (LaneTest s p md c (fun _ => 0)) :=
  ⟨_, hi, laneTest_congr (State.laneTest_laneMask (fun h act l => (f h act l, 0)) (State.plainRegs_of_lanesFree free)) hc⟩

end

/-! ## Sub-groups (R146) -/

/-- The lanes of a sub-group, in ascending order. -/
theorem subLanes_eq (w : SubW) : ∀ i, i < 32 →
    subLanes (subWidth w) i = (List.range 32).filter (fun j => decide (j / subWidth w = i / subWidth w)) := by
  cases w <;> decide

/-- The active lanes of a sub-group, in ascending order. -/
theorem filter_subLanes (w : SubW) (q : Nat → Bool) {i : Nat} (hi : i < 32) : (subLanes (subWidth w) i).filter q =
    (List.range 32).filter (fun j => j / subWidth w == i / subWidth w && q j) := by
  rw [subLanes_eq w i hi, List.filter_filter]
  exact List.filter_congr fun j _ => Bool.and_comm _ _

theorem mem_subLanes (w : SubW) {i j : Nat} (hi : i < 32) :
    j ∈ subLanes (subWidth w) i ↔ j < 32 ∧ j / subWidth w = i / subWidth w := by
  rw [subLanes_eq w i hi, List.mem_filter, List.mem_range, decide_eq_true_eq]

/-! ## Shuffles (R147) -/

/-- A shuffle whose source position agrees with the statement's, modulo the width. -/
theorem gives_shuffle {s : State} {p : LaneHdr} {w : SubW} {f : Nat → Nat → Nat → Nat} {g : Int → Int → Int} {vd va vb : LOp} {i : Instr}
    (hi : exec i s = .next (s.laneShfl p w f vd va vb)) (free : LanesFree s (regsOf va 1 ++ regsOf vb 1 ++ [vd.toNat]))
    (hfg : ∀ r b : Nat, f (subWidth w) r b % subWidth w = (g r b % (subWidth w : Nat)).toNat) :
    Gives i s (LaneInt s p vd (fun l => s.hart.src32 va ((l - l % subWidth w) +
      (g (l % subWidth w : Nat) ((s.hart.src32 vb l).toNat) % (subWidth w : Nat)).toNat))) :=
  gives_laneInt hi free fun l => by rw [← hfg]; rfl

/-- Settles O5: the four kinds are one word of four source positions. -/
theorem shuffles : Obligations.Shuffles := by
  intro p w vd va vb s free n takes
  have pos : 0 < subWidth w := by cases w <;> decide
  have source (x : Nat) : x % subWidth w = ((x : Int) % (subWidth w : Nat)).toNat := by rw [← Int.natCast_mod, Int.toNat_natCast]
  refine ⟨gives_shuffle (f := fun _ _ b => b) (g := fun _ b => b) rfl free fun r b => ?_,
    gives_shuffle (f := fun n r b => r + n - b % n) (g := fun r b => r - b) rfl free fun r b => ?_,
    gives_shuffle (f := fun _ r b => r + b) (g := fun r b => r + b) rfl free fun r b => ?_,
    gives_shuffle (f := fun _ r b => r ^^^ b) (g := fun r b => (r.toNat ^^^ b.toNat : Nat)) rfl free fun r b => ?_⟩
  · exact source b
  · have low : b % subWidth w < subWidth w := Nat.mod_lt _ pos
    have back : (r + subWidth w - b % subWidth w : Nat) = (r - b + subWidth w * (1 + b / subWidth w) : Int) := by
      have := Int.mul_ediv_add_emod b (subWidth w)
      rw [mul_add, mul_one]
      push_cast [show b % subWidth w ≤ r + subWidth w by omega]
      linarith
    rw [← Int.add_mul_emod_self_left (r - b : Int) _ (1 + b / subWidth w), ← back]
    exact source _
  · exact source (r + b)
  · exact source (r ^^^ b)

/-! ## Votes and matches (R148, R149) -/

/-- Settles O6: the lanes that vote or match are the active ones of the sub-group that satisfy the word's test. -/
theorem votesAndMatches : Obligations.VotesAndMatches := by
  intro p w vd va md s act grp a
  have group (q : Nat → Bool) {i j : Nat} (hi : i < 32) (hj : j < 32) :
      (maskOfList ((subLanes (subWidth w) i).filter (fun j => act.getLsbD j && q j))).getLsbD j = (grp i j && q j) := by
    rw [getLsbD_maskOfList _ hj, Bool.eq_iff_iff]
    simp only [List.mem_filter, mem_subLanes w hi, hj, grp, decide_eq_true_eq, Bool.and_eq_true, true_and, and_assoc]
  refine ⟨fun free => ⟨gives_laneMask rfl free fun i hi => ?_, gives_laneMask rfl free fun i hi => ?_⟩,
    fun free => ⟨gives_laneAct32 rfl free (fun i hi j hj => ?_) (fun _ _ => rfl),
      gives_laneAct32 rfl free (fun i hi j hj => ?_) (fun _ _ => rfl)⟩,
    fun free => gives_laneAct32 rfl free (fun i hi j hj => ?_) (fun _ _ => rfl)⟩
  · rw [voters, Bool.eq_iff_iff]
    simp only [Bool.not_eq_true', List.isEmpty_eq_false_iff_exists_mem, List.mem_filter, mem_subLanes w hi, List.any_eq_true,
      List.mem_range, grp, act, a, Bool.and_eq_true, decide_eq_true_eq]
    exact exists_congr fun j => by tauto
  · rw [Bool.eq_iff_iff]
    simp only [List.all_eq_true, mem_subLanes w hi, List.mem_range, grp, act, a, Bool.or_eq_true, Bool.not_eq_true',
      Bool.and_eq_false_iff, decide_eq_false_iff_not]
    exact forall_congr' fun j => by tauto
  · exact group (fun j => a j != 0) hi hj
  · exact group (fun j => a j == a i) hi hj
  · exact group (fun j => s.hart.src64 va j == s.hart.src64 va i) hi hj

/-! ## Scans and reductions (R150, R151) -/

/-- R150: the scans. -/
theorem scans : Claims.Scans := by
  intro p t exc w vd va s free act grp res
  have scan {i : Instr} (op : ScanOp) (hi : exec i s = .next (s.laneScan op p t exc w vd va)) : Gives i s (res op) := by
    refine gives_laneAct32 hi free (fun l hl => ?_) (fun l hl => ?_)
    · have upTo (j : Nat) : (if exc then decide (j < l) else decide (j ≤ l)) = (decide (j < l) || (!exc && j == l)) := by
        cases exc
        · simp [Nat.le_iff_lt_or_eq, Bool.decide_or, beq_eq_decide]
        · simp
      show ((scanFold op t (s.hart.src32 va) (((subLanes (subWidth w) l).filter (fun j => act.getLsbD j)).filter _)).1).getD _ = _
      rw [filter_subLanes w _ hl, funext upTo]
    · exact congrArg (fun ls => (scanFold op t (s.hart.src32 va) ls).2) (filter_subLanes w _ hl)
  exact ⟨scan .add rfl, scan .min rfl, scan .max rfl⟩

section
variable {s : State} {p : LaneHdr} {va : LOp} {i : Instr}

/-- A word that writes an x register from the lanes, with the flags that it raises. -/
theorem gives_laneToX {xd : XReg} {f : Hart → Mask → Word × BitVec 5} (hi : exec i s = .next (s.laneToX p (regsOf va 1) xd f))
    (free : LanesFree s (regsOf va 1)) : Gives i s (Retires s (fun k => ∃ k1,
      XWritten s.hart xd (f s.hart (s.hart.active p)).1 k1 ∧ Accrues k1 1#32 (fun _ => (f s.hart (s.hart.active p)).2) k)) := by
  refine ⟨_, hi, _, State.laneToX_plain f (State.plainRegs_of_lanesFree free), _, s.hart.xWritten_setX xd _, ?_⟩
  have one : orFlags ((maskLanes 1#32).map (fun _ => (f s.hart (s.hart.active p)).2)) = (f s.hart (s.hart.active p)).2 :=
    BitVec.zero_or
  have raised := Hart.accrues_accrue (s.hart.setX xd (f s.hart (s.hart.active p)).1) 1#32 (fun _ => (f s.hart (s.hart.active p)).2)
  rwa [one] at raised

theorem Hart.accrue_zero (h : Hart) : h.accrue 0 = h := by
  have same : h.csr.fflags ||| 0 = h.csr.fflags := BitVec.or_zero
  rw [Hart.accrue, same]

/-- The same without flags. -/
theorem gives_laneToX_plain {xd : XReg} {f : Hart → Mask → Word} (hi : exec i s = .next (s.laneToX p (regsOf va 1) xd (fun h m => (f h m, 0))))
    (free : LanesFree s (regsOf va 1)) : Gives i s (Retires s (XWritten s.hart xd (f s.hart (s.hart.active p)))) := by
  refine ⟨_, hi, _, State.laneToX_plain _ (State.plainRegs_of_lanesFree free), ?_⟩
  rw [Hart.accrue_zero]
  exact s.hart.xWritten_setX xd _

/-- A bitwise reduction. -/
theorem gives_laneRedBit {xd : XReg} (g : Lane → Lane → Lane) {z : Lane} (hi : exec i s = .next (s.laneRedBit g z p xd va))
    (free : LanesFree s (regsOf va 1)) : Gives i s (Retires s (XWritten s.hart xd
      (((maskLanes (s.hart.active p)).foldl (fun x j => g x (s.hart.src32 va j)) z).setWidth 64))) :=
  gives_laneToX_plain (f := fun h m => ((maskLanes m).foldl (fun x j => g x (h.src32 va j)) z).setWidth 64) hi free

end

/-! ## One lane (R152) -/

theorem Hart.laneSel_lt (h : Hart) (sel : LaneSel) : h.laneSel sel < 32 := by
  cases sel with
  | imm i => exact i.isLt
  | reg x => exact Nat.mod_lt _ (by decide)

theorem maskLanes_one_shiftLeft {n : Nat} (hn : n < 32) : maskLanes (1#32 <<< n) = [n] := by
  revert n; decide

/-- `vins` on a register that no stream is bound to. -/
theorem exec_vins_plain {s : State} {p : LaneHdr} {sel : LaneSel} {vd : LOp} {xs : XReg} (free : s.hart.plainRegs [vd.toNat]) :
    exec (.vins p sel vd xs) s = .next { s with hart :=
      (s.hart.setV vd.toNat (s.hart.laneSel sel) ((s.hart.getX xs).setWidth 32)).retire } := by
  show execVins p sel vd xs s = _
  rw [execVins, State.laneBegin_plain free]
  dsimp only
  rw [State.laneFinish_plain _ _ _ _ _ (fun o ho => by
    rw [List.mem_singleton] at ho; subst ho
    exact (free _ (by simp)).2.2), maskLanes_one_shiftLeft (s.hart.laneSel_lt sel)]
  rfl

/-- R151, R152: the reductions, `vext` and `vins`. -/
theorem reductionsAndSingleLanes : Claims.ReductionsAndSingleLanes := by
  intro p t sel xd vd va s act ls a n
  refine ⟨fun free => ⟨fun op i hi => ?_, gives_laneRedBit (fun x y => x &&& y) rfl free,
    gives_laneRedBit (fun x y => x ||| y) rfl free, gives_laneRedBit (fun x y => x ^^^ y) rfl free,
    gives_laneToX_plain (f := fun h _ => (h.src32 va (h.laneSel sel)).setWidth 64) rfl free⟩, fun free => ?_⟩
  · have reduces : exec i s = .next (s.laneRed op p t xd va) := by
      rcases hi with ⟨rfl, rfl⟩ | ⟨rfl, rfl⟩ | ⟨rfl, rfl⟩ <;> rfl
    exact gives_laneToX reduces free
  · refine gives_retires (exec_vins_plain (State.plainRegs_of_lanesFree free)) ⟨rfl, fun r i hi => ?_⟩
    exact Hart.getV_setV _ _ _ _ _ _ (s.hart.laneSel_lt sel) hi

/-- Settles O7: a scan folds the sub-group's active lanes up to the lane's own, a reduction all of the hart's. -/
theorem scansAndReductions : Obligations.ScansAndReductions := ⟨scans, reductionsAndSingleLanes⟩

end Sys2Proof.Machine
end

section
/-! SUPPORT. A push to a write stream that joins the walk of a prefetch (R138, R143, R274). -/
namespace Sys2Proof.Machine
set_option Elab.async false
open Sys2Proof.Safety

/-- A write stream of four words from the page that is being walked for, bound to lane register 0. -/
def pushedPage : StrmSlot := { StrmSlot.fresh with
  bound := true, base := 0x20000001000#64, reg := 0, write := true, ext := [4], stride := [4#64] }

/-- The machine of `prefetchingLane`, whose lane register 0 is bound to that stream. -/
def prefetchingPush : State :=
  { prefetchingLane with hart := { prefetchingLane.hart with lalloc := 16, strm := [(0, pushedPage)] } }

theorem quiet_prefetchingPush : Claims.Quiet prefetchingPush := quiet_prefetching

/-- A word that writes the bound register from a constant. -/
def pushingWord : Instr := .vmov plainHdr 0 832

/-- The machine of the same word where no stream is bound. -/
def unboundPush : State := (prefetchingPush.onHart (fun h => { h with strm := [] })).lane1 plainHdr (fun a => a) 0 832

/-- The checks of lane 0's element. -/
def pushedChecks : List (Nat × TrapInfo) × List (Nat × List Byte) × State :=
  prefetchingPush.checkPush pushedPage (pushElems pushedPage (fun j => unboundPush.hart.getV 0 j)
    (maskLanes (prefetchingPush.hart.active plainHdr)))

theorem laneWord_pushingWord : Claims.LaneWord plainHdr [] [0] pushingWord :=
  ⟨0, 832, 0, 0, 0, .h2, .s32, .s32, .eq, .g2, .s8, .s16, .s32, .s32, .rne, 0, 0, 0, .s32, .imm 0, 0, false,
    .inl ⟨rfl, rfl, .inl rfl⟩⟩

/-- Refutes O36: a push that joins the walk of a prefetch brings the prefetch's line into the cluster's L1 (R138, R274), while the
statement keeps every L1 as it was. -/
theorem not_streams : ¬ Obligations.Streams := by
  intro h
  obtain ⟨-, -, -, -, -, -, -, -, -, -, -, words⟩ := h plainHdr 0 0 [] StrmSlot.fresh 0 0 [] [] prefetchingPush prefetchingPush
    prefetchingPush prefetchingPush
  have pushes := ((words pushingWord [] [0] laneWord_pushingWord (by decide) (by decide) (by decide +kernel)).2 0 0
    pushedChecks.1 pushedChecks.2.1 unboundPush pushedChecks.2.2 rfl (by decide) rfl (by decide) (by decide) rfl rfl).2
    (by decide +kernel) quiet_prefetchingPush (by decide +kernel)
  refine not_gives_of_nextHas (p := State.l1Filled) (by decide +kernel) (fun t ht => ?_) pushes
  obtain ⟨reached, -⟩ := ht
  have empty : t.l1 = [] := congrArg State.l1 reached.1
  rw [State.l1Filled, empty]; rfl

end Sys2Proof.Machine
end

section
/-! SUPPORT. Bytes at their homes (R253, R371, R392): what a home holds, byte by byte. -/
namespace Sys2Proof.Machine
set_option Elab.async false
open Sys2Proof.Safety

/-- A byte of HBM as the key of its address reads it. -/
def State.hbmByte (s : State) (a : Nat) : Byte := s.homeByte (paKey a) (paLow a)

theorem getBytes_eq_map (f : File Byte) (off n : Nat) : getBytes f off n = (List.range n).map (fun k => fget 0 f (off + k)) := by
  induction n generalizing off with
  | zero => rfl
  | succ n ih =>
    rw [getBytes, ih, List.range_succ_eq_map, List.map_cons, List.map_map]
    exact congrArg _ (List.map_congr_left fun k _ => by rw [Function.comp_apply, Nat.succ_eq_add_one, Nat.add_right_comm, Nat.add_assoc])

theorem State.homeBytes_eq_map (s : State) (key la n : Nat) :
    s.homeBytes key la n = (List.range n).map (fun k => s.homeByte key (la + k)) := by
  induction n generalizing la with
  | zero => rfl
  | succ n ih =>
    rw [State.homeBytes, ih, List.range_succ_eq_map, List.map_cons, List.map_map]
    exact congrArg _ (List.map_congr_left fun k _ => by rw [Function.comp_apply, Nat.succ_eq_add_one, Nat.add_right_comm, Nat.add_assoc])

theorem div_sub_of_line {a b : Nat} (h : a / 128 = b / 128) (c m : Nat) : (a - 128 * c) / (128 * m) = (b - 128 * c) / (128 * m) := by
  rw [← Nat.div_div_eq_div_mul, ← Nat.div_div_eq_div_mul, show (a - 128 * c) / 128 = (b - 128 * c) / 128 by omega]

/-- The populated parts of the pools begin and end between lines (R253). -/
theorem State.inHbm_congr (s : State) {a b : Nat} (h : a / 128 = b / 128) : s.inHbm a = s.inHbm b := by
  have die : (a - 0x2000000000) / 0x4000000000 = (b - 0x2000000000) / 0x4000000000 := div_sub_of_line h 0x40000000 0x80000000
  have stack : (a - 0x30000000000) / 0x1000000000 = (b - 0x30000000000) / 0x1000000000 := div_sub_of_line h 0x600000000 0x20000000
  have granule : gib = 1073741824 := rfl
  rw [Bool.eq_iff_iff]
  simp only [State.inHbm, die, stack, granule, Bool.and_eq_true, decide_eq_true_eq]
  split_ifs <;> simp only [decide_eq_true_eq] <;> omega

theorem State.region_eq_hbm_iff (s : State) (la : Nat) : s.region la = .hbm ↔ la < 0x40000000000 ∧ s.inHbm la = true := by
  unfold State.region
  dsimp only
  split_ifs <;> simp_all

/-- One line lies in HBM or not. -/
theorem State.region_hbm_congr {s : State} {a b : Nat} (h : a / 128 = b / 128) (ha : s.region a = .hbm) : s.region b = .hbm := by
  rw [State.region_eq_hbm_iff] at ha ⊢
  exact ⟨by omega, (s.inHbm_congr h).symm.trans ha.2⟩

/-- Addresses of one line have one key id, and their parts below it are of one line. -/
theorem paKey_paLow_of_line {a b : Nat} (h : a / 128 = b / 128) : paKey a = paKey b ∧ paLow a / 128 = paLow b / 128 := by
  unfold paKey paLow
  omega

theorem paLow_add {a k : Nat} (h : (a + k) / 128 = a / 128) : paLow (a + k) = paLow a + k := by
  unfold paLow
  omega

/-- Bytes of HBM within one line. -/
theorem State.peek_hbm {s : State} {a n : Nat} (hr : s.region (paLow a) = .hbm) (hl : ∀ k, k < n → (a + k) / 128 = a / 128) :
    s.peek a n = (List.range n).map (fun k => s.hbmByte (a + k)) := by
  unfold State.peek
  dsimp only
  rw [hr]
  refine (s.homeBytes_eq_map _ _ _).trans (List.map_congr_left fun k hk => ?_)
  have line := hl k (List.mem_range.1 hk)
  rw [State.hbmByte, (paKey_paLow_of_line line).1, paLow_add line]

/-- A read depends on the regions, the bytes at their homes, the memory and the cores. -/
theorem State.peek_congr {s t : State} (hr : ∀ la, s.region la = t.region la) (hb : ∀ key la, s.homeByte key la = t.homeByte key la)
    (hm : s.mem = t.mem) (hc : ∀ c, s.core c = t.core c) (a n : Nat) : s.peek a n = t.peek a n := by
  have home : s.homeBytes (paKey a) (paLow a) n = t.homeBytes (paKey a) (paLow a) n := by
    rw [State.homeBytes_eq_map, State.homeBytes_eq_map, funext fun k => hb (paKey a) (paLow a + k)]
  unfold State.peek
  dsimp only
  rw [hr, home, hm]
  split
  · rfl
  · rw [hc]
  · rfl

theorem State.peek_onHart (s : State) (f : Hart → Hart) (a n : Nat) : (s.onHart f).peek a n = s.peek a n :=
  State.peek_congr (s := s.onHart f) (t := s) (fun _ => rfl) (fun _ _ => rfl) rfl (fun _ => rfl) a n

theorem State.peek_one {s : State} {a : Nat} (hr : s.region (paLow a) = .hbm) : s.peek a 1 = [s.hbmByte a] :=
  (s.peek_hbm hr (fun k hk => by rw [Nat.lt_one_iff.1 hk]; rfl)).trans (by simp)

end Sys2Proof.Machine
end

section
/-! SUPPORT. What reads of memory, translation and fetches of lines reach of a machine without hart-cache copies, partials, reader counts
and stores that wait (R138, R221, R255, R273): the caches of translations and lines, whose bytes are those of their homes. -/
namespace Sys2Proof.Machine
set_option Elab.async false
open Sys2Proof.Safety

/-- The machine with what another caches of translations and lines, and with its list of cores. -/
def State.cachesOf (s t : State) : State :=
  { s with tlb := t.tlb, walkc := t.walkc, walks := t.walks, l2 := t.l2, l1 := t.l1, cores := t.cores }

/-- Every byte of HBM that an L1 line holds is the one at its home. -/
def L1Line.True (u : State) (e : L1Line) : Prop :=
  ∀ o, o < 128 → e.sect.getLsbD (o / 32) = true → u.region (paLow (128 * e.line + o)) = .hbm →
    fget 0 e.data o = u.hbmByte (128 * e.line + o)

/-- `s` is `u`, which is quiet but for its L1s, with other caches, whose lines are true; no core differs. -/
structure Calm (u s : State) : Prop where
  quiet : Claims.Quiet { u with l1 := [] }
  frame : s = u.cachesOf s
  cores : ∀ c, s.core c = u.core c
  lines : ∀ e ∈ s.l1, e.True u

theorem calm_of_quiet {s : State} (h : Claims.Quiet s) : Calm s s := by
  obtain ⟨hc, parts, rdc, l1, rest⟩ := h
  exact ⟨⟨hc, parts, rdc, rfl, rest⟩, rfl, fun _ => rfl, by rw [l1]; simp⟩

namespace Calm
variable {u s : State}

/-! ## What is the same -/

theorem hart (h : Calm u s) : s.hart = u.hart := (congrArg State.hart h.frame).trans rfl
theorem hc (h : Calm u s) : s.hc = [] := (congrArg State.hc h.frame).trans h.quiet.1
theorem parts (h : Calm u s) : s.parts = [] := (congrArg State.parts h.frame).trans h.quiet.2.1
theorem rdc (h : Calm u s) : s.rdc = [] := (congrArg State.rdc h.frame).trans h.quiet.2.2.1
theorem farBuf (h : Calm u s) : s.farBuf = [] := (congrArg State.farBuf h.frame).trans h.quiet.2.2.2.2.1
theorem hostMod (h : Calm u s) : s.hostMod = [] := (congrArg State.hostMod h.frame).trans h.quiet.2.2.2.2.2.2.1
theorem lb (h : Calm u s) (c : Nat) : (s.core c).lb = [] := by rw [h.cores c]; exact (h.quiet.2.2.2.2.2.2.2 c).1

theorem region (h : Calm u s) (la : Nat) : s.region la = u.region la := congrArg (fun t => t.region la) h.frame

theorem homeByte (h : Calm u s) (key la : Nat) : s.homeByte key la = u.homeByte key la := congrArg (fun t => t.homeByte key la) h.frame

theorem hbmByte (h : Calm u s) (a : Nat) : s.hbmByte a = u.hbmByte a := h.homeByte _ _

theorem peek (h : Calm u s) (a n : Nat) : s.peek a n = u.peek a n :=
  State.peek_congr h.region h.homeByte ((congrArg State.mem h.frame).trans rfl) h.cores a n

/-! ## Changes of the caches alone -/

theorem cached {t : State} (h : Calm u s) (ht : t = { s with tlb := t.tlb, walkc := t.walkc, walks := t.walks, l2 := t.l2 }) : Calm u t := by
  refine ⟨h.quiet, ht.trans ?_, fun c => ?_, fun e he => h.lines e ?_⟩
  · refine (congrArg (fun v : State => { v with tlb := t.tlb, walkc := t.walkc, walks := t.walks, l2 := t.l2 }) h.frame).trans ?_
    rw [ht]; rfl
  · exact (congrArg (fun v => v.core c) ht).trans (h.cores c)
  · rwa [show t.l1 = s.l1 from (congrArg State.l1 ht).trans rfl] at he

theorem fillTlb (h : Calm u s) (l : List TlbPlace) (g : Agent) (va : Word) (x : Xlat) : Calm u (s.fillTlb l g va x) := by
  unfold State.fillTlb
  dsimp only
  induction l generalizing s with
  | nil => exact h
  | cons p r ih => exact ih (h.cached rfl)

theorem fillWalkc (h : Calm u s) (e : WalkEnt) : Calm u (s.fillWalkc e) := h.cached rfl

theorem withWalks (h : Calm u s) (w : List Walk) : Calm u { s with walks := w } := h.cached rfl

/-! ## Reads at homes -/

theorem ready (h : Calm u s) (pa n : Nat) : Calm u (s.ready pa n) := by
  obtain ⟨v, hv⟩ := State.l2Touch_of_rdc h.rdc pa n
  rw [State.ready, State.hostWriteBack_of_hostMod h.hostMod, State.recallOwned_of_hc h.hc, State.settle_of_parts h.parts, hv]
  exact h.cached rfl

theorem readyLines (h : Calm u s) (pa n : Nat) : Calm u (s.readyLines pa n) := by
  unfold State.readyLines
  induction List.range ((pa % 128 + n + 127) / 128) generalizing s with
  | nil => exact h
  | cons i r ih => exact ih (h.ready _ _)

theorem drainPort (h : Calm u s) (p : Nat) : s.drainPort p = s := by
  have none : s.farPerform p [] = s := rfl
  rw [State.drainPort, h.farBuf, List.filter_nil, List.filter_nil, none, ← h.farBuf]

/-- A port without stores drains to itself. -/
theorem modCore (h : Calm u s) (c : Nat) (f : Core → Core) (hf : f (s.core c) = s.core c) : Calm u (s.modCore c f) := by
  refine ⟨h.quiet, ?_, fun d => ?_, h.lines⟩
  · exact congrArg (fun v : State => v.modCore c f) h.frame |>.trans rfl
  · rw [State.core_modCore, ← h.cores d]
    split_ifs with hd
    · rw [hf, hd]
    · rfl

theorem drainLb (h : Calm u s) (c : Nat) : Calm u (s.drainLb c) := by
  have none : s.lbPerform c [] = s := rfl
  rw [State.drainLb, h.lb, none]
  refine h.modCore c _ ?_
  rw [← h.lb c]

theorem homeRead (h : Calm u s) (pa n : Nat) : Calm u (s.homeRead pa n).2 := by
  unfold State.homeRead
  dsimp only
  split
  · exact h.drainLb _
  · rw [h.drainPort]; exact h
  · rw [h.drainPort]; exact h
  · exact h.readyLines _ _

/-! ## Lines of the L1s (R221, R315) -/

/-- A line keeps true when a sector is filled from its home. -/
theorem true_fill {e : L1Line} {pa : Nat} (h : e.True u) (hl : e.line = tagLine pa) :
    L1Line.True u { e with data := putBytes e.data (pa / 32 * 32 % 128) (u.peek (pa / 32 * 32) 32), sect := e.sect ||| (1#4 <<< (pa / 32 % 4)) } := by
  intro o ho hs hr
  have same : pa / 32 * 32 / 128 = tagLine pa := by unfold tagLine; omega
  have line : pa / 32 * 32 = 128 * e.line + pa / 32 * 32 % 128 := by rw [hl, ← same]; omega
  have bytes : u.peek (pa / 32 * 32) 32 = (List.range 32).map (fun k => u.hbmByte (pa / 32 * 32 + k)) := by
    refine u.peek_hbm (State.region_hbm_congr (paKey_paLow_of_line ?_).2 hr) (fun k hk => by omega)
    show (128 * e.line + o) / 128 = _
    omega
  rw [fget_putBytes, bytes, List.length_map, List.length_range]
  by_cases hin : pa / 32 * 32 % 128 ≤ o ∧ o < pa / 32 * 32 % 128 + 32
  · rw [if_pos hin, List.getD_eq_getElem?_getD, List.getElem?_map, List.getElem?_range (by omega)]
    show u.hbmByte (pa / 32 * 32 + (o - pa / 32 * 32 % 128)) = u.hbmByte (128 * e.line + o)
    congr 1
    omega
  · rw [if_neg hin]
    refine h o ho ?_ hr
    rw [BitVec.getLsbD_or, Bool.or_eq_true] at hs
    refine hs.resolve_right fun filled => ?_
    rw [BitVec.getLsbD_shiftLeft, BitVec.getLsbD_one] at filled
    simp only [Bool.and_eq_true, decide_eq_true_eq, Bool.not_eq_true', decide_eq_false_iff_not] at filled
    omega

theorem l1Fill (h : Calm u s) (cl pa : Nat) (first : Bool) : Calm u (s.l1Fill cl pa first) := by
  have refill (l : List L1Line) (hl : ∀ e ∈ l, e.True u) : Calm u { s with l1 := l } :=
    ⟨h.quiet, (congrArg (fun v : State => { v with l1 := l }) h.frame).trans rfl, h.cores, hl⟩
  unfold State.l1Fill
  dsimp only
  split_ifs
  · exact h
  · split
    · refine refill _ fun e he => ?_
      obtain ⟨d, hd, rfl⟩ := List.mem_map.1 he
      split_ifs with hit
      · rw [h.peek]
        rw [Bool.and_eq_true, decide_eq_true_eq, decide_eq_true_eq] at hit
        exact true_fill (h.lines d hd) hit.2
      · exact h.lines d hd
    · refine refill _ fun e he => ?_
      rcases List.mem_cons.1 he with rfl | he
      · have empty : L1Line.True u ⟨cl, tagLine pa, [], 0, first, s.l1Victim cl (tagLine pa)⟩ := fun o _ hs => by simp at hs
        have filled := true_fill empty (pa := pa) rfl
        have sector : (0 : BitVec 4) ||| (1#4 <<< (pa / 32 % 4)) = 1#4 <<< (pa / 32 % 4) := BitVec.zero_or
        dsimp only at filled
        rw [sector] at filled
        rw [h.peek]
        exact filled
      · exact h.lines e (List.mem_filter.1 he).1

theorem fetchLine (h : Calm u s) (cl : Nat) (sc : Scope) (hint : Hint) (pa : Nat) : Calm u (s.fetchLine cl sc hint pa) := by
  have filled {t : State} (ht : Calm u t) (l : List Nat) :
      Calm u (l.foldl (fun s k => s.l1Fill cl (128 * tagLine pa + 32 * k) (hint == .str)) t) := by
    induction l generalizing t with
    | nil => exact ht
    | cons k r ih => exact ih (ht.l1Fill _ _ _)
  unfold State.fetchLine
  dsimp only
  split
  · exact h
  · exact h
  · exact h
  · exact h
  · split_ifs
    · exact h
    · exact h.homeRead _ _
    · exact filled (h.homeRead _ _) _

/-! ## Translation (R71, R273, R274) -/

theorem walk (h : Calm u s) (die : Nat) (k : Hart) (g : Agent) (a : Acc) (va lvl base : Nat) :
    Calm u (s.walk die k g a va lvl base).2 := by
  induction lvl generalizing s base with
  | zero =>
    unfold State.walk
    dsimp only
    repeat' split
    all_goals simp only [h, h.homeRead]
  | succ l ih =>
    unfold State.walk
    dsimp only
    generalize s.walkc.find? _ = cached
    cases cached with
    | some e => exact ih h e.table
    | none =>
      dsimp only
      repeat' split
      all_goals simp only [h, h.homeRead, fillWalkc, ih]

theorem walkRoot (h : Calm u s) (die : Nat) (k : Hart) (g : Agent) (a : Acc) (va : Word) : Calm u (s.walkRoot die k g a va).2 := by
  have walked {v lvl : Nat} {r : Except TrapInfo Xlat} {t : State} (hr : s.walk die k g a v lvl (satpRoot g.satp) = (r, t)) : Calm u t := by
    have reached := h.walk die k g a v lvl (satpRoot g.satp)
    rwa [hr] at reached
  unfold State.walkRoot
  dsimp only
  split
  · split_ifs
    · split
      · exact walked ‹_›
      · exact walked ‹_›
    · exact h
  · split_ifs
    · split
      · exact walked ‹_›
      · exact walked ‹_›
    · exact h
  · exact h

theorem walkFills (h : Calm u s) (w : Walk) (x : Xlat) : Calm u (s.walkFills w x) := by
  unfold State.walkFills
  dsimp only
  split_ifs
  · exact h
  · exact h.fetchLine _ _ _ _
  · exact h.fillTlb _ _ _ _
  · exact (h.fillTlb _ _ _ _).fetchLine _ _ _ _

theorem missWalk (h : Calm u s) (k : Hart) (cl : Nat) (g : Agent) (a : Acc) (va : Word) : Calm u (s.missWalk k cl g a va).2 := by
  have walked {v t : State} {r : Except TrapInfo Xlat} (hv : Calm u v) (hr : v.walkRoot (walkDie cl) k g a va = (r, t)) : Calm u t := by
    have reached := hv.walkRoot (walkDie cl) k g a va
    rwa [hr] at reached
  unfold State.missWalk
  dsimp only
  split
  case h_1 =>
    split
    case h_1 hr => exact walked (h.withWalks _) hr
    case h_2 hr =>
      refine walkFills ?_ _ _
      split_ifs
      · exact walked (h.withWalks _) hr
      · exact (walked (h.withWalks _) hr).fillTlb _ _ _ _
  case h_2 =>
    split
    case h_1 hr =>
      refine walked ?_ hr
      split
      · split_ifs <;> simp only [h, h.withWalks]
      · exact h
    case h_2 hr =>
      refine fillTlb (walked ?_ hr) _ _ _ _
      split
      · split_ifs <;> simp only [h, h.withWalks]
      · exact h

theorem translateAs (h : Calm u s) (k : Hart) (cl : Nat) (g : Agent) (a : Acc) (va : Word) : Calm u (s.translateAs k cl g a va).2 := by
  unfold State.translateAs
  dsimp only
  split_ifs
  · exact h
  · exact h
  · split
    · exact h.missWalk _ _ _ _ _
    · split_ifs <;> exact h.fillTlb _ _ _ _

theorem dataPa (h : Calm u s) (p : Priv) (a : Acc) (va : Word) : Calm u (s.dataPa p a va).2 := by
  have translated {r : Except TrapInfo Xlat} {t : State}
      (hr : s.translateAs s.hart s.clusterNo (s.hart.agent p) a va = (r, t)) : Calm u t := by
    have reached := h.translateAs s.hart s.clusterNo (s.hart.agent p) a va
    rwa [hr] at reached
  unfold State.dataPa
  dsimp only
  split
  case h_1 hr => exact translated hr
  case h_2 hr =>
    repeat' split
    all_goals exact translated hr

end Calm

end Sys2Proof.Machine
end

section
/-! SUPPORT. Lane loads from HBM (R130, R132, R133). -/
namespace Sys2Proof.Machine
set_option Elab.async false
open Sys2Proof.Safety

/-! ## The checks of the lanes -/

theorem map_fst_laneChecks (s : State) (a : Acc) (n : Nat) (addr : Nat → Word) (ls : List Nat) :
    (s.laneChecks a n addr ls).1.map Prod.fst = ls := by
  induction ls generalizing s with
  | nil => rfl
  | cons i r ih => exact congrArg (i :: ·) (ih _)

theorem pasOf_sublist (l : List (Nat × Except TrapInfo Nat)) : ((pasOf l).map Prod.fst).Sublist (l.map Prod.fst) := by
  induction l with
  | nil => exact .slnil
  | cons e r ih =>
    obtain ⟨i, t | pa⟩ := e
    · exact ih.cons _
    · exact ih.cons_cons _

theorem nodup_maskLanes (m : Mask) : (maskLanes m).Nodup := List.nodup_range.filter _

/-- What makes some entries faults, and of whose entries none is a fault, changes none. -/
theorem map_eq_self_of_faultsOf {f : Nat × Except TrapInfo Nat → Nat × Except TrapInfo Nat} (hf : ∀ e, f e = e ∨ ∃ t, f e = (e.1, .error t))
    {l : List (Nat × Except TrapInfo Nat)} (h : faultsOf (l.map f) = []) : l.map f = l := by
  induction l with
  | nil => rfl
  | cons e r ih =>
    rw [List.map_cons] at h ⊢
    rcases hf e with same | ⟨t, fault⟩
    · rw [same] at h ⊢
      obtain ⟨i, t | pa⟩ := e
      · cases h
      · rw [ih h]
    · rw [fault] at h; cases h

/-- Where no lane faults, none has met a lost line. -/
theorem State.laneLost_of_faultsOf {s : State} {a : Acc} {n : Nat} {addr : Nat → Word} {l : List (Nat × Except TrapInfo Nat)}
    (h : faultsOf (s.laneLost a n addr l) = []) : s.laneLost a n addr l = l := by
  refine map_eq_self_of_faultsOf (fun e => ?_) h
  obtain ⟨i, t | pa⟩ := e
  · exact .inl rfl
  · dsimp only
    split
    · exact .inl rfl
    · split_ifs
      · exact .inl rfl
      · exact .inr ⟨_, rfl⟩

/-- An aligned element lies in one sector. -/
theorem div_sector_of_aligned {wd : Width} {pa k : Nat} (h : pa % widthBytes wd = 0) (hk : k < widthBytes wd) : (pa + k) / 32 = pa / 32 := by
  cases wd <;> simp only [widthBytes] at h hk <;> omega

namespace Calm
variable {u s : State}

theorem lanePa (h : Calm u s) (a : Acc) (n : Nat) (va : Word) : Calm u (s.lanePa a n va).2 := by
  have checked {r : Except TrapInfo Nat} {t : State} (hr : s.dataPa s.hart.dataPriv a va = (r, t)) : Calm u t := by
    have reached := h.dataPa s.hart.dataPriv a va
    rwa [hr] at reached
  unfold State.lanePa
  by_cases odd : (va.toNat % n != 0) = true
  · rw [if_pos odd]; exact h
  · rw [if_neg odd]
    split
    case h_1 hr => exact checked hr
    case h_2 hr =>
      repeat' split
      all_goals exact checked hr

theorem laneChecks (h : Calm u s) (a : Acc) (n : Nat) (addr : Nat → Word) (ls : List Nat) : Calm u (s.laneChecks a n addr ls).2 := by
  induction ls generalizing s with
  | nil => exact h
  | cons i r ih => exact ih (h.lanePa _ _ _)

theorem loadWait (h : Calm u s) {pas : List (Nat × Nat)} (hp : ∀ e ∈ pas, u.region (paLow e.2) = .hbm) : s.loadWait pas = none := by
  have snoop : anySnoop s.hostMod pas = none := by
    rw [h.hostMod, anySnoop, List.find?_eq_none.2 fun e _ => by simp]
    rfl
  have near : s.anyFar pas = false := List.any_eq_false.2 fun e he => by
    rw [State.isFar, State.portOf, h.region, hp e he]
    exact Bool.false_ne_true
  rw [State.loadWait, snoop]
  dsimp only
  rw [near]
  rfl

/-! ## Reads of lanes -/

section
variable {pa n : Nat} (hn : ∀ k, k < n → (pa + k) / 32 = pa / 32) (hr : u.region (paLow pa) = .hbm)
include hn hr

/-- What an L1 gives of a sector is what its home holds. -/
theorem l1Copy (h : Calm u s) {cl : Nat} {b : List Byte} (hb : s.l1Copy cl pa n = some b) : b = u.peek pa n := by
  unfold State.l1Copy at hb
  split at hb
  · cases hb
  · rename_i e found
    split_ifs at hb with present
    have hit := List.find?_some found
    simp only [Bool.and_eq_true, beq_iff_eq] at hit
    have line : e.line = pa / 128 := hit.1.2
    rw [← Option.some.inj hb, getBytes_eq_map, u.peek_hbm hr (fun k hk => by have := hn k hk; omega)]
    refine List.map_congr_left fun k hk => ?_
    have sector := hn k (List.mem_range.1 hk)
    have place : 128 * e.line + (pa % 128 + k) = pa + k := by omega
    rw [h.lines e (List.mem_of_find?_eq_some found) (pa % 128 + k) (by omega) (by rwa [show (pa % 128 + k) / 32 = pa / 32 % 4 by omega]), place]
    rw [place]
    exact State.region_hbm_congr (paKey_paLow_of_line (by omega)).2 hr

/-- A lane reads the bytes at their home, whichever cache serves it. -/
theorem laneRead (h : Calm u s) (l1 first : Bool) :
    (s.laneRead l1 first pa n).1 = u.peek pa n ∧ Calm u (s.laneRead l1 first pa n).2.2 := by
  unfold State.laneRead
  rw [h.region, hr]
  dsimp only
  cases l1 with
  | false => exact ⟨(h.ready pa n).peek pa n, h.ready pa n⟩
  | true =>
    rw [if_pos rfl]
    cases held : s.l1Copy s.clusterNo pa n with
    | some b => exact ⟨h.l1Copy hn hr held, h⟩
    | none =>
      have home := h.ready (pa / 32 * 32) 32
      dsimp only [State.l1Read]
      cases held' : (s.ready (pa / 32 * 32) 32).l1Copy s.clusterNo pa n with
      | some b => exact ⟨home.l1Copy hn hr held', home⟩
      | none => exact ⟨home.peek pa n, home.l1Fill _ _ _⟩

end

theorem laneReads (h : Calm u s) (l1 : Nat → Bool) (first : Bool) (n : Nat) {pas : List (Nat × Nat)}
    (hp : ∀ e ∈ pas, u.region (paLow e.2) = .hbm ∧ ∀ k, k < n → (e.2 + k) / 32 = e.2 / 32) :
    (s.laneReads l1 first n pas).1 = pas.map (fun e => (e.1, u.peek e.2 n)) ∧ Calm u (s.laneReads l1 first n pas).2.2 := by
  induction pas generalizing s with
  | nil => exact ⟨rfl, h⟩
  | cons e r ih =>
    obtain ⟨hr, hn⟩ := hp e List.mem_cons_self
    obtain ⟨bytes, reached⟩ := h.laneRead hn hr (l1 e.1) first
    obtain ⟨rest, reached⟩ := ih reached fun e he => hp e (List.mem_cons_of_mem _ he)
    refine ⟨?_, reached⟩
    rw [List.map_cons, ← rest, ← bytes]
    rfl

theorem countReads (h : Calm u s) (l : List Nat) : s.countReads l = s := by
  have one (ln : Nat) : s.countRead ln = s := by rw [State.countRead, h.rdc]; rfl
  unfold State.countReads
  induction l.eraseDups with
  | nil => rfl
  | cons ln r ih => rw [List.foldl_cons, one, ih]

/-! ## Releases -/

theorem onHart (h : Calm u s) (f : Hart → Hart) : Calm (u.onHart f) (s.onHart f) :=
  ⟨h.quiet, (congrArg (fun v : State => v.onHart f) h.frame).trans rfl, h.cores, h.lines⟩

theorem publish (h : Calm u s) (c : Nat) : s.publish c = s := by
  have none : s = { s with hc := [] } := by rw [← h.hc]
  rw [State.publish, h.hc, List.filter_nil, List.foldl_nil, h.hc]
  exact none.symm

theorem perform (h : Calm u s) (g : Nat) : Calm u (s.perform g) := by
  have ports : s.drainPortsOf g = s := by
    have none : s = { s with farBuf := [] } := by rw [← h.farBuf]
    have performs (l : List Nat) : l.foldl (fun s p => s.farPerform p []) s = s := by
      induction l with
      | nil => rfl
      | cons p r ih => exact ih
    rw [State.drainPortsOf, h.farBuf]
    simp only [dueOf, List.filter_nil, performs]
    exact none.symm
  rw [State.perform, ports, State.drainLbOf, h.lb]
  refine h.modCore _ _ ?_
  show { s.core (gidCore g) with lb := [] } = _
  rw [← h.lb (gidCore g)]

/-- A release has nothing to perform: it only counts the hart's stores as done. -/
theorem relIf (h : Calm u s) (o : Ordering4) : Calm (u.onHart (Claims.releasing · o)) (s.relIf o) := by
  unfold State.relIf Claims.releasing
  split_ifs
  · rw [State.release_focus, h.publish]
    exact (h.perform _).onHart _
  · exact h

end Calm

/-! ## The instructions -/

/-- The element of the one lane that is listed with an address. -/
theorem laneElem_of_mem {pas : List (Nat × Nat)} (f : Nat → List Byte) {i pa : Nat} (h : (i, pa) ∈ pas) (hn : (pas.map Prod.fst).Nodup) :
    laneElem (pas.map (fun e => (e.1, f e.2))) i = f pa := by
  unfold laneElem
  induction pas with
  | nil => cases h
  | cons e r ih =>
    rw [List.map_cons, List.nodup_cons] at hn
    rw [List.map_cons, List.find?_cons]
    rcases List.mem_cons.1 h with rfl | hr
    · simp
    · have other : (e.1 == i) = false := by
        rw [beq_eq_false_iff_ne]
        rintro rfl
        exact hn.1 (List.mem_map.2 ⟨_, hr, rfl⟩)
      simp only [other]
      exact ih hr hn.2

theorem State.acqIf_eq (s : State) (o : Ordering4) (sc : Scope) : s.acqIf o sc = { s with l1 := (s.acqIf o sc).l1 } := by
  unfold State.acqIf
  split_ifs
  · exact State.acquire_eq _ _ _
  · rfl

theorem Claims.releasing_strm (h : Hart) (o : Ordering4) : (Claims.releasing h o).strm = h.strm := by
  unfold Claims.releasing
  split_ifs
  · rw [Hart.storesDone_eq]; rfl
  · rfl

/-- What a lane load leaves that gives lane `i` the element that lane `who i` has read. -/
def Claims.Loaded (s : State) (act : Mask) (m : MemMod) (vd : LOp) (pas : List (Nat × Nat)) (who : Nat → Nat) (t : State) : Prop :=
  Claims.KeepsAll s t ∧ ∃ k, Claims.Reached s t { s with l1 := t.l1, hart := k.retire } ∧
    LanesWritten (Claims.releasing s.hart m.ord) act vd.toNat (Width.regs m.width)
      (fun j i v => ∀ pa, (who i, pa) ∈ pas → v = loadLane m.width (s.peek pa (widthBytes m.width)) j) (fun _ => 0) k

/-- The last step of a lane load, of its checked lanes: their bytes go to the registers. -/
def State.loadLanes (s s2 : State) (act : Mask) (m : MemMod) (vd : LOp) (l1 : Nat → Bool) (pas : List (Nat × Nat)) (who : Nat → Nat) : State :=
  let r := (s2.relIf m.ord).laneReads l1 (m.hint == .str) (widthBytes m.width) pas
  s.laneFinish (r.2.2.countReads r.2.1) act
    ((List.range (widthRegs m.width vd).length).map (fun k => (vd.toNat + k, fun i => loadLane m.width (laneElem r.1 (who i)) k)))
    (fun t => (t.acqIf m.ord m.scope).retire)

section
variable {s s2 : State} {act : Mask} {m : MemMod} {vd : LOp} {pas : List (Nat × Nat)}
  (h : Calm s s2) (plain : s.hart.plainRegs (widthRegs m.width vd))
  (hp : ∀ e ∈ pas, s.region (paLow e.2) = .hbm ∧ e.2 % widthBytes m.width = 0) (hn : (pas.map Prod.fst).Nodup)
include h plain hp hn

theorem loaded_loadLanes (l1 : Nat → Bool) (who : Nat → Nat) : Claims.Loaded s act m vd pas who (s.loadLanes s2 act m vd l1 pas who) := by
  obtain ⟨elems, reached⟩ := (h.relIf m.ord).laneReads l1 (m.hint == .str) (widthBytes m.width) (pas := pas) fun e he =>
    ⟨(hp e he).1, fun k hk => div_sector_of_aligned (hp e he).2 hk⟩
  unfold State.loadLanes
  dsimp only
  rw [reached.countReads]
  generalize (s2.relIf m.ord).laneReads l1 (m.hint == .str) (widthBytes m.width) pas = r at elems reached
  obtain ⟨els, lns, v⟩ := r
  dsimp only at elems reached ⊢
  have focus : v.hart = Claims.releasing s.hart m.ord := reached.hart
  rw [State.laneFinish_plain, length_widthRegs, State.onHart, focus, State.acqIf_eq]
  case h =>
    intro o ho
    obtain ⟨k, hk, rfl⟩ := List.mem_map.1 ho
    have named : vd.toNat + k ∈ widthRegs m.width vd := List.mem_map.2 ⟨k, by rwa [length_widthRegs] at hk, rfl⟩
    have unbound := (plain _ named).2.2
    rw [focus, Hart.boundSlot, Claims.releasing_strm]
    exact unbound
  generalize ((State.acqIf _ m.ord m.scope).l1) = lines
  refine ⟨fun a => reached.peek a 1, _, ⟨?_, reached.cores⟩, Hart.lanesWritten_foldl _ act vd.toNat (Width.regs m.width)
    (fun k i => loadLane m.width (laneElem els (who i)) k) _ fun k i _ _ pa hpa => ?_⟩
  · exact (congrArg (fun w : State => State.retire { w with l1 := lines, hart := _ }) reached.frame).trans rfl
  · rw [elems, laneElem_of_mem (fun a => (s.onHart (Claims.releasing · m.ord)).peek a (widthBytes m.width)) hpa hn]
    exact congrArg (loadLane m.width · k) (s.peek_onHart _ pa _)

end

section
variable {s s1 : State} {p : LaneHdr} {m : MemMod} {vd va vb : LOp} {reads : List Nat} {l : List (Nat × Except TrapInfo Nat)}

/-- A load without active lanes only retires. -/
theorem gload_idle {addr : Hart → Nat → Word} (plain : s.hart.plainRegs (reads ++ widthRegs m.width vd)) (idle : s.hart.active p = 0) :
    s.gload p m reads vd addr = s.retire := by
  unfold State.gload
  dsimp only
  rw [State.laneBegin_plain plain]
  dsimp only
  rw [if_pos idle]

/-- A load whose lanes are all readable. -/
theorem gload_readable {addr : Hart → Nat → Word} (plain : s.hart.plainRegs (reads ++ widthRegs m.width vd)) (busy : s.hart.active p ≠ 0)
    (h : Calm s s1) (hc : s.laneChecks .load (widthBytes m.width) (addr s.hart) (maskLanes (s.hart.active p)) = (l, s1))
    (hf : faultsOf (s1.laneLost .load (widthBytes m.width) (addr s.hart) l) = []) (hp : ∀ e ∈ pasOf l, s.region (paLow e.2) = .hbm) :
    ∃ l1, s.gload p m reads vd addr = s.loadLanes s1 (s.hart.active p) m vd l1 (pasOf l) id := by
  unfold State.gload
  dsimp only
  rw [State.laneBegin_plain plain]
  dsimp only
  rw [if_neg busy, hc]
  dsimp only
  rw [hf, State.laneLost_of_faultsOf hf]
  dsimp only
  rw [h.loadWait hp]
  exact ⟨_, rfl⟩

theorem vldB_idle (plain : s.hart.plainRegs (widthRegs m.width vd)) (idle : s.hart.active p = 0) :
    exec (.vldB p m vd vb) s = .next s.retire := by
  show execVldB p m vd vb s = _
  unfold execVldB
  dsimp only
  rw [State.laneBegin_plain (reads := []) (by simpa using plain)]
  dsimp only
  rw [if_pos idle]

/-- A broadcast load of a readable address. -/
theorem vldB_readable (plain : s.hart.plainRegs (widthRegs m.width vd)) (busy : s.hart.active p ≠ 0)
    (h : Calm s s1) (hc : s.laneChecks .load (widthBytes m.width) (fun _ => s.hart.base vb) [0] = (l, s1))
    (hf : faultsOf (s1.laneLost .load (widthBytes m.width) (fun _ => s.hart.base vb) l) = [])
    (hp : ∀ e ∈ pasOf l, s.region (paLow e.2) = .hbm) :
    ∃ l1, exec (.vldB p m vd vb) s = .next (s.loadLanes s1 (s.hart.active p) m vd l1 (pasOf l) (fun _ => 0)) := by
  show ∃ l1, execVldB p m vd vb s = _
  unfold execVldB
  dsimp only
  rw [State.laneBegin_plain (reads := []) (by simpa using plain)]
  dsimp only
  rw [if_neg busy, hc]
  dsimp only
  rw [hf, State.laneLost_of_faultsOf hf]
  dsimp only
  rw [h.loadWait hp]
  exact ⟨_, rfl⟩

end

/-- Settles O27: the checks leave a quiet machine calm (`Calm`), in which a lane reads the same bytes through an L1 and at their home. -/
theorem laneLoads : Obligations.LaneLoads := by
  intro p m vd va vb l l1 s s1 h act n readable loads gathers
  have plainOf {rs : List Nat} (free : LanesFree s (rs ++ widthRegs m.width vd)) : s.hart.plainRegs (widthRegs m.width vd) :=
    fun r hr => free r (List.mem_append_right _ hr)
  have checked {addr : Nat → Word} {ls : List Nat} {l : List (Nat × Except TrapInfo Nat)} (nodup : ls.Nodup) (quiet : Claims.Quiet s)
      (hc : s.laneChecks .load n addr ls = (l, s1)) : Calm s s1 ∧ ((pasOf l).map Prod.fst).Nodup := by
    have reached := (calm_of_quiet quiet).laneChecks .load n addr ls
    have named := map_fst_laneChecks s .load n addr ls
    rw [hc] at reached named
    exact ⟨reached, (pasOf_sublist l).nodup (named ▸ nodup)⟩
  have gathered {i : Instr} {reads : List Nat} {addr : Hart → Nat → Word} (hi : exec i s = .next (s.gload p m reads vd addr))
      (free : LanesFree s (reads ++ widthRegs m.width vd)) : gathers i (addr h) := by
    refine ⟨fun idle => ⟨_, hi.trans (congrArg _ (gload_idle free idle)), s.retires_retire⟩, fun busy quiet hc hr => ?_⟩
    obtain ⟨reached, nodup⟩ := checked (nodup_maskLanes _) quiet hc
    obtain ⟨cached, eq⟩ := gload_readable free busy reached hc hr.1 fun e he => (hr.2 e he).1
    exact ⟨_, hi.trans (congrArg _ eq), loaded_loadLanes reached (plainOf free) hr.2 nodup cached id⟩
  refine ⟨gathered (addr := fun h i => h.ea va vb i) rfl, gathered (addr := fun h i => h.src64 va i) rfl,
    fun free idle => ⟨_, vldB_idle free idle, s.retires_retire⟩, fun free busy quiet hc hr => ?_⟩
  obtain ⟨reached, nodup⟩ := checked (List.nodup_singleton 0) quiet hc
  obtain ⟨cached, eq⟩ := vldB_readable free busy reached hc hr.1 fun e he => (hr.2 e he).1
  exact ⟨_, eq, loaded_loadLanes reached free hr.2 nodup cached _⟩

end Sys2Proof.Machine
end

section
/-! SUPPORT. Bytes written at a home in HBM (R253, R371), and what the stores that ports perform leave of the machine (R141, R314). -/
namespace Sys2Proof.Machine
set_option Elab.async false
open Sys2Proof.Safety

/-! ## Writes at a home in HBM -/

theorem State.rekey_eq (s : State) (key la : Nat) : s.rekey key la =
    { s with mem := (s.rekey key la).mem, wlog := (s.rekey key la).wlog, keyOf := (s.rekey key la).keyOf } := by
  unfold State.rekey
  dsimp only
  split_ifs <;> rfl

theorem State.keyOf_rekey (s : State) (key la ln : Nat) :
    fget 0 (s.rekey key la).keyOf ln = if ln = lineOf la then s.keyVer key else fget 0 s.keyOf ln := by
  unfold State.rekey
  dsimp only
  split_ifs <;> simp_all

/-- A line that comes under another key keeps the bytes of the other lines. -/
theorem State.memGet_rekey_of_ne (s : State) (key : Nat) {la b : Nat} (h : lineOf b ≠ lineOf la) :
    memGet (s.rekey key la).mem b = memGet s.mem b := by
  unfold State.rekey
  dsimp only
  split_ifs
  · rfl
  · rw [memGet_memSetBytes, State.homeBytes_eq_map, List.length_map, List.length_range, if_neg]
    unfold lineOf at h ⊢
    omega

theorem keyByte_self (v la : Nat) (b : Byte) : keyByte v v la b = b := by simp [keyByte]

/-- A line that comes under a key reads under that key as before. -/
theorem State.homeByte_rekey (s : State) (key : Nat) {la b : Nat} (h : lineOf b = lineOf la) :
    (s.rekey key la).homeByte key b = s.homeByte key b := by
  have ver : (s.rekey key la).keyVer key = s.keyVer key := by rw [State.rekey_eq]; rfl
  rw [State.homeByte, State.keyOf_rekey, if_pos h, ver, keyByte_self, State.homeByte, h]
  unfold State.rekey
  dsimp only
  split_ifs with same
  · simp only [Bool.or_eq_true, decide_eq_true_eq] at same
    simp [keyByte, same]
  · unfold lineOf at h
    rw [memGet_memSetBytes, State.homeBytes_eq_map, List.length_map, List.length_range, if_pos (by unfold lineOf; omega),
      List.getD_eq_getElem?_getD, List.getElem?_map, List.getElem?_range (by unfold lineOf; omega)]
    show s.homeByte key (128 * lineOf la + (b - 128 * lineOf la)) = _
    rw [show 128 * lineOf la + (b - 128 * lineOf la) = b by unfold lineOf; omega, State.homeByte]
    rw [show lineOf b = lineOf la from h]

section
variable {s : State} {pa : Nat} {l : List Byte} (hr : s.region (paLow pa) = .hbm)
include hr

theorem State.poke_hbm : s.poke pa l = (s.rekey (paKey pa) (paLow pa)).writeRaw (paLow pa) l := by
  unfold State.poke
  dsimp only
  rw [hr]

theorem State.poke_hbm_eq : s.poke pa l = { s with mem := (s.poke pa l).mem, wlog := (s.poke pa l).wlog, keyOf := (s.poke pa l).keyOf } := by
  rw [State.poke_hbm hr, State.rekey_eq]
  rfl

theorem State.memGet_poke_hbm (b : Nat) : memGet (s.poke pa l).mem b =
    if paLow pa ≤ b ∧ b < paLow pa + l.length then l.getD (b - paLow pa) 0 else memGet (s.rekey (paKey pa) (paLow pa)).mem b := by
  rw [State.poke_hbm hr]
  exact memGet_memSetBytes _ _ _ _

theorem State.keyOf_poke_hbm (ln : Nat) : fget 0 (s.poke pa l).keyOf ln =
    if ln = lineOf (paLow pa) then s.keyVer (paKey pa) else fget 0 s.keyOf ln := by
  rw [State.poke_hbm hr]
  exact s.keyOf_rekey _ _ _

/-- What a line reads, after a write, under the key of the write. -/
theorem State.homeByte_poke_hbm {b : Nat} (hb : lineOf b = lineOf (paLow pa)) : (s.poke pa l).homeByte (paKey pa) b =
    if paLow pa ≤ b ∧ b < paLow pa + l.length then l.getD (b - paLow pa) 0 else s.homeByte (paKey pa) b := by
  have ver : (s.poke pa l).keyVer (paKey pa) = s.keyVer (paKey pa) := by rw [State.poke_hbm_eq hr]; rfl
  have rekeyed := s.homeByte_rekey (paKey pa) hb
  have ver' : (s.rekey (paKey pa) (paLow pa)).keyVer (paKey pa) = s.keyVer (paKey pa) := by rw [State.rekey_eq]; rfl
  rw [State.homeByte, State.keyOf_rekey, if_pos hb, ver', keyByte_self] at rekeyed
  rw [State.homeByte, State.keyOf_poke_hbm hr, if_pos hb, ver, keyByte_self, State.memGet_poke_hbm hr, rekeyed]

theorem State.region_poke_hbm (la : Nat) : (s.poke pa l).region la = s.region la := by rw [State.poke_hbm_eq hr]; rfl

/-- A write within a line of HBM changes its own bytes alone. -/
theorem State.keepsBut_poke_hbm (hl : ∀ k, k < l.length → (pa + k) / 128 = pa / 128) : Claims.KeepsBut s (s.poke pa l) pa l.length := by
  rintro a place outside
  by_cases line : lineOf (paLow a) = lineOf (paLow pa)
  · obtain ⟨key, hbm⟩ := place.resolve_left (absurd line)
    rw [State.peek_one hbm, State.peek_one ((State.region_poke_hbm hr _).trans hbm), State.hbmByte, State.hbmByte, key,
      State.homeByte_poke_hbm hr line, if_neg (by omega)]
  · have mem : memGet (s.poke pa l).mem (paLow a) = memGet s.mem (paLow a) := by
      rw [State.memGet_poke_hbm hr, if_neg, s.memGet_rekey_of_ne _ line]
      rintro ⟨low, high⟩
      refine line ?_
      have same := (paKey_paLow_of_line (hl (paLow a - paLow pa) (by omega))).2
      rw [paLow_add (hl _ (by omega))] at same
      unfold lineOf
      omega
    have key : fget 0 (s.poke pa l).keyOf (lineOf (paLow a)) = fget 0 s.keyOf (lineOf (paLow a)) := by
      rw [State.keyOf_poke_hbm hr, if_neg line]
    have ver : (s.poke pa l).keyVer (paKey a) = s.keyVer (paKey a) := by rw [State.poke_hbm_eq hr]; rfl
    have cores (c : Nat) : (s.poke pa l).core c = s.core c := by rw [State.poke_hbm_eq hr]; rfl
    unfold State.peek
    dsimp only
    rw [State.region_poke_hbm hr]
    split
    · simp only [State.homeBytes, State.homeByte, mem, key, ver]
    · rw [cores]
    · simp only [memBytes, mem]

/-- What has been written within a line of HBM is what stands there. -/
theorem State.peek_poke_hbm (hl : ∀ k, k < l.length → (pa + k) / 128 = pa / 128) : (s.poke pa l).peek pa l.length = l := by
  rw [State.peek_hbm ((State.region_poke_hbm hr _).trans hr) hl]
  refine List.ext_getElem (by simp) fun k hk hk' => ?_
  obtain ⟨key, line⟩ := paKey_paLow_of_line (hl k hk')
  rw [List.getElem_map, List.getElem_range, State.hbmByte, key, State.homeByte_poke_hbm hr line, paLow_add (hl k hk'), if_pos (by omega),
    Nat.add_sub_cancel_left]
  exact List.getD_eq_getElem _ _ hk'

end

/-! ## The write queue (R263) -/

theorem State.peek_parts (s : State) (l : List Partial) (a n : Nat) : { s with parts := l }.peek a n = s.peek a n :=
  State.peek_congr (s := { s with parts := l }) (t := s) (fun _ => rfl) (fun _ _ => rfl) rfl (fun _ => rfl) a n

theorem State.settle_of_parts_one {s : State} {q : Partial} {pa n : Nat} (hp : s.parts = [q]) (hq : q.meets pa n = true) :
    s.settle pa n = { s with parts := [] }.applyPartial q := by
  simp [State.settle, hp, hq]

/-- The write queue applies a line's one partial at its word. -/
theorem gives_l2WriteQueueApply {s : State} {q : Partial} (hp : s.parts = [q]) (hq : q.meets (128 * s.sel) 128 = true)
    (hr : s.region (paLow q.pa) = .hbm) (aligned : q.pa % atyBytes q.ty = 0)
    (fits : atomStep q.op q.ty (leNat (s.peek q.pa (atyBytes q.ty))) q.val.toNat 0 < 2 ^ (8 * atyBytes q.ty)) :
    Gives .l2WriteQueueApply s (fun t => t.parts = [] ∧ Claims.KeepsBut s t q.pa (atyBytes q.ty) ∧
      leNat (t.peek q.pa (atyBytes q.ty)) = atomStep q.op q.ty (leNat (s.peek q.pa (atyBytes q.ty))) q.val.toNat 0 ∧
      t = { s with parts := t.parts, mem := t.mem, wlog := t.wlog, keyOf := t.keyOf }) := by
  obtain ⟨v, hv⟩ : ∃ v : State, v = { s with parts := [] } := ⟨_, rfl⟩
  have old (a n : Nat) : v.peek a n = s.peek a n := hv ▸ s.peek_parts [] a n
  have applied : s.settle (128 * s.sel) 128 = v.poke q.pa
      (natBytes (atomStep q.op q.ty (leNat (s.peek q.pa (atyBytes q.ty))) q.val.toNat 0) (atyBytes q.ty)) := by
    rw [State.settle_of_parts_one hp hq, ← hv, ← old]; rfl
  generalize atomStep q.op q.ty (leNat (s.peek q.pa (atyBytes q.ty))) q.val.toNat 0 = w at applied fits ⊢
  have word : ∀ k, k < (natBytes w (atyBytes q.ty)).length → (q.pa + k) / 128 = q.pa / 128 := by
    rw [length_natBytes]
    unfold atyBytes at aligned ⊢
    split_ifs at aligned ⊢ <;> intro k hk <;> omega
  have hbm : v.region (paLow q.pa) = .hbm := hv ▸ hr
  have frame := State.poke_hbm_eq hbm (l := natBytes w (atyBytes q.ty))
  have keeps := State.keepsBut_poke_hbm hbm word
  have holds := State.peek_poke_hbm hbm word
  rw [length_natBytes] at keeps holds
  rw [← applied] at frame keeps holds
  rw [hv] at frame
  have empty : (s.settle (128 * s.sel) 128).parts = [] := by rw [frame]
  refine ⟨_, rfl, empty, fun a place outside => ?_, ?_, ?_⟩
  · exact (keeps a (place.imp_right (And.imp_right fun h => hv ▸ h)) outside).trans (old _ _)
  · rw [holds, leNat_natBytes, Nat.mod_eq_of_lt]
    rwa [show (256 : Nat) = 2 ^ 8 from rfl, ← pow_mul]
  · rw [empty]
    exact frame

/-! ## Stores that ports perform (R311, R319, R346) -/

/-- The machine with what performed stores change, taken from another. -/
def State.storesOf (s t : State) : State := { s with
  farBuf := t.farBuf, cores := t.cores, mem := t.mem, wlog := t.wlog, keyOf := t.keyOf, l1 := t.l1, dies := t.dies, fe := t.fe
  ports := t.ports }

theorem State.storesOf_poke (s u : State) (pa : Nat) (b : List Byte) : (s.poke pa b).storesOf u = s.storesOf u := by
  unfold State.poke
  dsimp only
  split
  · rw [State.rekey_eq]; rfl
  all_goals rfl

theorem State.storesOf_postFault (s u : State) (d kind pa : Nat) : (s.postFault d kind pa).storesOf u = s.storesOf u := by
  unfold State.postFault
  dsimp only
  split_ifs <;> rfl

theorem State.storesOf_farPerform (s u : State) (p : Nat) (l : List FarStore) : (s.farPerform p l).storesOf u = s.storesOf u := by
  have performed (s : State) (e : FarStore) : ((s.poke e.pa e.bytes).l1Update (gidCluster e.gid) e.pa e.bytes).storesOf u = s.storesOf u :=
    s.storesOf_poke u e.pa e.bytes
  unfold State.farPerform
  split_ifs
  · rfl
  · exact foldl_keeps (State.storesOf · u) performed l s
  · exact foldl_keeps (State.storesOf · u) (fun s ln => s.storesOf_postFault u (p / 2) 4 (128 * ln)) _ s

theorem State.storesOf_drainPortsOf (s u : State) (g : Nat) : (s.drainPortsOf g).storesOf u = s.storesOf u :=
  foldl_keeps (State.storesOf · u) (fun s p => s.storesOf_farPerform u p _) (List.range 9) s

theorem State.storesOf_lbPerform (s u : State) (c : Nat) (l : List LbStore) : (s.lbPerform c l).storesOf u = s.storesOf u := by
  have performed (s : State) (e : LbStore) : (s.shmWrite c e.off e.bytes).storesOf u = s.storesOf u := rfl
  exact foldl_keeps (State.storesOf · u) performed l s

theorem State.storesOf_perform (s u : State) (g : Nat) : (s.perform g).storesOf u = s.storesOf u :=
  (State.storesOf_lbPerform (s.drainPortsOf g) u (gidCore g) _).trans (s.storesOf_drainPortsOf u g)

/-- What a hart's performed stores change. -/
theorem State.perform_eq (s : State) (g : Nat) : s.perform g = s.storesOf (s.perform g) := s.storesOf_perform (s.perform g) g

theorem State.hartOf_perform (s : State) (g i : Nat) : (s.perform g).hartOf i = s.hartOf i := by rw [State.perform_eq]; rfl

theorem State.parked_perform (s : State) (g : Nat) : (s.perform g).parked = s.parked := by rw [State.perform_eq]; rfl

/-- A hart that changes after its stores have been performed. -/
theorem State.modHart_perform_eq (s : State) (g i : Nat) (f : Hart → Hart) : ∃ k r, (s.perform g).modHart i f =
    { s.storesOf (s.perform g) with hart := k, parked := r } := by
  rw [← State.perform_eq]
  unfold State.modHart State.putHart
  split_ifs
  · exact ⟨_, _, rfl⟩
  · exact ⟨_, _, rfl⟩
  · exact ⟨_, _, rfl⟩

theorem Hart.storeDone_eq (h : Hart) (n : Nat) : h.storeDone n =
    { h with cnt2 := h.cnt2 - 1, cscope := (h.storeDone n).cscope, out2 := (h.storeDone n).out2 } := rfl

/-- The place of the hart whose lane store is performed. -/
theorem State.hartOf_storeDone_perform (s : State) {g : Nat} (n : Nat) (hr : (s.hartOf g).run ≠ .vacant) :
    ((s.perform g).modHart g (·.storeDone n)).hartOf g = { (s.hartOf g).storeDone n with gid := g } := by
  have run (h : Hart) : (h.storeDone n).run = h.run := rfl
  rw [← s.hartOf_perform g g] at hr ⊢
  exact State.hartOf_modHart_self (s.perform g) g (·.storeDone n) ((run _).trans_ne hr)

/-- A performed lane store leaves the counter of its class. -/
theorem gives_laneStorePerformed {s : State} (hr : (s.hartOf s.sel).run ≠ .vacant) :
    Gives .laneStorePerformed s (fun t => (t.hartOf s.sel).cnt2 = (s.hartOf s.sel).cnt2 - 1 ∧
      (t.hartOf s.sel).x = (s.hartOf s.sel).x ∧ (t.hartOf s.sel).pc = (s.hartOf s.sel).pc ∧ (∀ e ∈ t.farBuf, e.gid ≠ s.sel) ∧
      (∀ e ∈ (t.core (gidCore s.sel)).lb, e.gid ≠ s.sel) ∧
      t = { s with
        parked := t.parked, hart := t.hart, farBuf := t.farBuf, cores := t.cores, mem := t.mem, wlog := t.wlog, keyOf := t.keyOf
        l1 := t.l1, dies := t.dies, fe := t.fe, ports := t.ports }) := by
  have sel : (s.perform s.sel).sel = s.sel := by rw [State.perform_eq]; rfl
  show ∃ t, execLaneStorePerformed s = .next t ∧ _
  unfold execLaneStorePerformed
  dsimp only
  rw [sel, State.hartOf_perform]
  split_ifs with none
  · refine ⟨_, rfl, ?_, ?_, ?_, fun e => State.gid_ne_of_mem_farBuf_perform, fun e => State.gid_ne_of_mem_lb_perform, ?_⟩
    · rw [State.hartOf_perform, none]
    · rw [State.hartOf_perform]
    · rw [State.hartOf_perform]
    · exact (s.perform_eq _).trans (by rw [s.hart_perform, s.parked_perform]; rfl)
  · generalize (s.perform s.sel).freeNat 2330 = n
    obtain ⟨k, r, frame⟩ := s.modHart_perform_eq s.sel s.sel (·.storeDone n)
    have ports : ((s.perform s.sel).modHart s.sel (·.storeDone n)).farBuf = (s.perform s.sel).farBuf := by rw [frame]; rfl
    refine ⟨_, rfl, ?_, ?_, ?_, fun e he => ?_, fun e he => ?_, ?_⟩
    · rw [s.hartOf_storeDone_perform n hr, Hart.storeDone_eq]
    · rw [s.hartOf_storeDone_perform n hr, Hart.storeDone_eq]
    · rw [s.hartOf_storeDone_perform n hr, Hart.storeDone_eq]
    · rw [ports] at he
      exact State.gid_ne_of_mem_farBuf_perform he
    · rw [State.core_modHart] at he
      exact State.gid_ne_of_mem_lb_perform he
    · rw [frame]; rfl

/-! ## Prefetch (R138) -/

theorem State.peek_nextUid (s : State) (i a n : Nat) : { s with nextUid := i }.peek a n = s.peek a n :=
  State.peek_congr (s := { s with nextUid := i }) (t := s) (fun _ => rfl) (fun _ _ => rfl) rfl (fun _ => rfl) a n

namespace Calm
variable {u s : State}

theorem uid (h : Calm u s) (n : Nat) : Calm { u with nextUid := n } { s with nextUid := n } :=
  ⟨h.quiet, (congrArg (fun v : State => { v with nextUid := n }) h.frame).trans rfl, h.cores, h.lines⟩

/-- A prefetch reaches what a load reaches, or leaves a walk that the walk unit numbers. -/
theorem prefetch (h : Calm u s) (sc : Scope) (hint : Hint) (i : Nat) (va : Word) :
    ∃ n, Calm { u with nextUid := n } (s.prefetch sc hint i va) := by
  have kept {t : State} (ht : Calm u t) : ∃ n, Calm { u with nextUid := n } t := ⟨u.nextUid, ht⟩
  have checked {r : Except TrapInfo Nat} {t : State} (hr : s.dataPa s.hart.dataPriv .load va = (r, t)) : Calm u t := by
    have reached := h.dataPa s.hart.dataPriv .load va
    rwa [hr] at reached
  unfold State.prefetch
  dsimp only
  split
  · exact kept h
  · split
    · split
      · exact kept h
      · exact ⟨_, (h.uid (s.nextUid + 1)).withWalks _⟩
    · split
      · exact kept h
      · split
        · rename_i hr; exact kept (checked hr)
        · rename_i hr; exact kept ((checked hr).fetchLine _ _ _ _)

theorem foldl_prefetch (h : Calm u s) (sc : Scope) (hint : Hint) (va : Nat → Word) (l : List Nat) :
    ∃ n, Calm { u with nextUid := n } (l.foldl (fun s i => s.prefetch sc hint i (va i)) s) := by
  induction l generalizing u s with
  | nil => exact ⟨u.nextUid, h⟩
  | cons i r ih =>
    obtain ⟨n, reached⟩ := h.prefetch sc hint i (va i)
    obtain ⟨m, reached⟩ := ih reached
    exact ⟨m, reached⟩

end Calm

/-- A prefetch changes no register and no byte. -/
theorem gives_vpf {s : State} {p : LaneHdr} {sc : Scope} {hint : Hint} {va vb : LOp} (free : LanesFree s (regsOf va 1))
    (quiet : Claims.Quiet s) : Gives (.vpf p sc hint va vb) s (fun t => Claims.KeepsAll s t ∧
      Claims.Reached s t { s with nextUid := t.nextUid, l1 := t.l1, hart := s.hart.retire }) := by
  have plain : s.hart.plainRegs (regsOf va 1 ++ []) := by rwa [List.append_nil]
  show ∃ t, execVpf p sc hint va vb s = .next t ∧ _
  unfold execVpf
  rw [State.laneBegin_plain plain]
  dsimp only
  obtain ⟨n, reached⟩ := (calm_of_quiet quiet).foldl_prefetch sc hint (s.hart.ea va vb) (maskLanes (s.hart.active p))
  generalize (maskLanes (s.hart.active p)).foldl (fun u i => u.prefetch sc hint i (s.hart.ea va vb i)) s = t at reached ⊢
  have bytes (a : Nat) : t.peek a 1 = s.peek a 1 := by
    rw [reached.peek]
    exact s.peek_nextUid n a 1
  refine ⟨t.retire, rfl, fun a => (t.peek_onHart _ a 1).trans (bytes a), ?_, reached.cores⟩
  have focus : t.hart = s.hart := reached.hart
  have uid : t.nextUid = n := (congrArg State.nextUid reached.frame).trans rfl
  have frame := congrArg (fun v : State => { v with hart := s.hart.retire }) reached.frame
  rw [← uid] at frame
  refine (?_ : t.retire = { t with hart := s.hart.retire }).trans frame
  rw [← focus]; rfl

/-- Settles O31: a prefetch leaves the machine calm, a partial is one write at its word, and a port's stores change no hart. -/
theorem prefetchAndWriteQueues : Obligations.PrefetchAndWriteQueues := by
  intro p sc hint va vb q s h
  exact ⟨gives_vpf, gives_l2WriteQueueApply, gives_laneStorePerformed, s, rfl, rfl⟩

end Sys2Proof.Machine
end

section
/-! SUPPORT. What accesses to memory leave alone: the teams, the TLBs, the walks in progress, the semaphores and the mutexes (R181, R185,
R263, R266, R273, R311). -/
namespace Sys2Proof.Machine

/-- What no access to memory changes: the teams, the cached translations, the walks in progress, and the objects of each core. -/
def State.tables (s : State) : List Team × List TlbEnt × List Walk × (Nat → File Sem × File Mtx) :=
  (s.teams, s.tlb, s.walks, fun c => ((s.core c).sems, (s.core c).mtxs))

theorem State.teams_of_tables {s t : State} (h : s.tables = t.tables) : s.teams = t.teams := congrArg Prod.fst h

theorem State.tlb_of_tables {s t : State} (h : s.tables = t.tables) : s.tlb = t.tlb := congrArg (fun x => x.2.1) h

theorem State.walks_of_tables {s t : State} (h : s.tables = t.tables) : s.walks = t.walks := congrArg (fun x => x.2.2.1) h

theorem State.objects_of_tables {s t : State} (h : s.tables = t.tables) (c : Nat) :
    (s.core c).sems = (t.core c).sems ∧ (s.core c).mtxs = (t.core c).mtxs :=
  Prod.mk.inj (congrFun (Prod.mk.inj (Prod.mk.inj (Prod.mk.inj h).2).2).2 c)

theorem State.sem_of_tables {s t : State} (h : s.tables = t.tables) (c j : Nat) : (s.core c).sem j = (t.core c).sem j :=
  congrArg (fun f => fget Sem.fresh f j) (State.objects_of_tables h c).1

theorem State.mtx_of_tables {s t : State} (h : s.tables = t.tables) (c j : Nat) : (s.core c).mtx j = (t.core c).mtx j :=
  congrArg (fun f => fget Mtx.fresh f j) (State.objects_of_tables h c).2

/-- A change of a core that keeps its semaphores and its mutexes. -/
theorem State.tables_modCore (s : State) (c : Nat) {f : Core → Core} (hs : (f (s.core c)).sems = (s.core c).sems)
    (hm : (f (s.core c)).mtxs = (s.core c).mtxs) : (s.modCore c f).tables = s.tables := by
  refine congrArg (fun l => (s.teams, s.tlb, s.walks, l)) (funext fun d => ?_)
  rw [State.core_modCore]
  split_ifs with hd
  · rw [hs, hm, hd]
  · rfl

/-! ## Bytes at their homes -/

theorem State.tables_rekey (s : State) (key la : Nat) : (s.rekey key la).tables = s.tables := by
  unfold State.rekey
  dsimp only
  split_ifs <;> rfl

theorem State.tables_shmWrite (s : State) (c off : Nat) (b : List Byte) : (s.shmWrite c off b).tables = s.tables :=
  s.tables_modCore c (f := fun k => { (k.overwritten off b.length) with shm := putBytes k.shm off b }) rfl rfl

theorem State.tables_poke (s : State) (pa : Nat) (b : List Byte) : (s.poke pa b).tables = s.tables := by
  unfold State.poke
  dsimp only
  split
  · exact State.tables_rekey s _ _
  · exact State.tables_shmWrite s _ _ _
  · rfl
  · rfl
  · rfl

theorem State.tables_settle (s : State) (pa n : Nat) : (s.settle pa n).tables = s.tables :=
  foldl_keeps State.tables (fun s _ => s.tables_poke _ _) _ _

theorem State.tables_mergeBytes (s : State) (c ln : Nat) (l : File Byte) : (s.mergeBytes c ln l).tables = s.tables := by
  induction l generalizing s with
  | nil => rfl
  | cons e r ih => exact (ih _).trans (s.tables_poke _ _)

theorem State.tables_mergeCopies (s : State) (l : List HcLine) : (l.foldl State.mergeCopy s).tables = s.tables :=
  foldl_keeps State.tables (fun s _ => s.tables_mergeBytes _ _ _) l s

theorem State.tables_recall (s : State) (ln : Nat) : (s.recall ln).tables = s.tables := by
  unfold State.recall
  split
  · rfl
  · exact (State.tables_mergeCopies _ _).trans (s.tables_settle _ _)

theorem State.tables_publish (s : State) (c : Nat) : (s.publish c).tables = s.tables := s.tables_mergeCopies _

theorem State.tables_postFault (s : State) (d kind pa : Nat) : (s.postFault d kind pa).tables = s.tables := by
  unfold State.postFault
  dsimp only
  split <;> rfl

/-! ## Stores that wait at ports, and releases -/

theorem State.tables_farPerform (s : State) (p : Nat) (l : List FarStore) : (s.farPerform p l).tables = s.tables := by
  unfold State.farPerform
  split_ifs
  · rfl
  · refine foldl_keeps State.tables (fun s e => ?_) l s
    exact s.tables_poke e.pa e.bytes
  · exact foldl_keeps State.tables (fun s ln => s.tables_postFault _ _ _) _ s

theorem State.tables_lbPerform (s : State) (c : Nat) (l : List LbStore) : (s.lbPerform c l).tables = s.tables := by
  refine foldl_keeps State.tables (fun s e => ?_) l s
  exact s.tables_shmWrite c e.off e.bytes

theorem State.tables_drainLb (s : State) (c : Nat) : (s.drainLb c).tables = s.tables :=
  (State.tables_modCore _ c rfl rfl).trans (s.tables_lbPerform _ _)

theorem State.tables_drainPort (s : State) (p : Nat) : (s.drainPort p).tables = s.tables := s.tables_farPerform p _

theorem State.tables_perform (s : State) (g : Nat) : (s.perform g).tables = s.tables := by
  have ports (t : State) : (t.drainPortsOf g).tables = t.tables := by
    let due := (dueOf (fun e x : FarStore => x.port == e.port && x.gid == g) t.farBuf).1
    exact foldl_keeps State.tables (f := fun s p => s.farPerform p (due.filter (fun e => e.port == p)))
      (fun s p => s.tables_farPerform p _) (List.range 9) t
  exact ((State.tables_modCore _ _ rfl rfl).trans (State.tables_lbPerform _ _ _)).trans (ports s)

theorem State.tables_modHart (s : State) (g : Nat) (f : Hart → Hart) : (s.modHart g f).tables = s.tables := by
  rw [State.modHart, State.putHart_eq]
  rfl

theorem State.tables_release (s : State) (g : Nat) : (s.release g).tables = s.tables := by
  rw [State.release, State.tables_modHart, State.tables_perform, State.tables_publish]

/-! ## Reads -/

theorem State.tables_hostWriteBack (s : State) (ln : Nat) : (s.hostWriteBack ln).tables = s.tables := by
  unfold State.hostWriteBack
  dsimp only
  split_ifs
  · exact s.tables_postFault (s.homeDie (paLow (128 * ln))) 6 (128 * ln)
  · exact s.tables_poke (128 * ln) (s.hostLine ln)
  · rfl

theorem State.tables_recallOwned (s : State) (ln : Nat) : (s.recallOwned ln).tables = s.tables := by
  unfold State.recallOwned
  split_ifs
  · exact s.tables_recall ln
  · rfl

theorem State.tables_l2Touch (s : State) (pa n : Nat) : (s.l2Touch pa n).tables = s.tables := by
  unfold State.l2Touch
  dsimp only
  repeat' split
  all_goals rfl

theorem State.tables_ready (s : State) (pa n : Nat) : (s.ready pa n).tables = s.tables := by
  rw [State.ready, State.tables_l2Touch, State.tables_settle, State.tables_recallOwned, State.tables_hostWriteBack]

theorem State.tables_readyLines (s : State) (pa n : Nat) : (s.readyLines pa n).tables = s.tables :=
  foldl_keeps State.tables (fun s _ => s.tables_ready _ 128) _ s

theorem State.tables_homeRead (s : State) (pa n : Nat) : (s.homeRead pa n).2.tables = s.tables := by
  unfold State.homeRead
  dsimp only
  split
  · exact s.tables_drainLb _
  · exact s.tables_drainPort _
  · exact s.tables_drainPort _
  · exact s.tables_readyLines _ _

theorem State.tables_l1Fill (s : State) (cl pa : Nat) (first : Bool) : (s.l1Fill cl pa first).tables = s.tables := by
  unfold State.l1Fill
  dsimp only
  split_ifs
  · rfl
  · split <;> rfl

theorem State.tables_fetchLine (s : State) (cl : Nat) (sc : Scope) (hint : Hint) (pa : Nat) :
    (s.fetchLine cl sc hint pa).tables = s.tables := by
  have filled (t : State) :
      ((List.range 4).foldl (fun s k => s.l1Fill cl (128 * tagLine pa + 32 * k) (hint == .str)) t).tables = t.tables :=
    foldl_keeps State.tables (fun s k => s.tables_l1Fill _ _ _) _ t
  unfold State.fetchLine
  dsimp only
  split
  · rfl
  · rfl
  · rfl
  · rfl
  · split_ifs
    · rfl
    · exact s.tables_homeRead _ _
    · exact (filled _).trans (s.tables_homeRead _ _)

end Sys2Proof.Machine
end

section
/-! SUPPORT. Semaphores and mutexes (R181 to R186). -/
namespace Sys2Proof.Machine
open Sys2Proof.Safety

/-! ## Reading after writing -/

theorem Core.sem_setSem (k : Core) (j i : Nat) (v : Sem) : (k.setSem j v).sem i = if i = j then v else k.sem i := fget_fset _ _ _ _ _

theorem Core.mtx_setMtx (k : Core) (j i : Nat) (v : Mtx) : (k.setMtx j v).mtx i = if i = j then v else k.mtx i := fget_fset _ _ _ _ _

theorem State.sem_modCore_setSem (s : State) (c j : Nat) (v : Sem) : ((s.modCore c (fun k => k.setSem j v)).core c).sem j = v := by
  rw [State.core_modCore, if_pos rfl, Core.sem_setSem, if_pos rfl]

theorem State.mtx_modCore_setMtx (s : State) (c j : Nat) (v : Mtx) : ((s.modCore c (fun k => k.setMtx j v)).core c).mtx j = v := by
  rw [State.core_modCore, if_pos rfl, Core.mtx_setMtx, if_pos rfl]

theorem mem_insertSem (l : List SemWaiter) (w e : SemWaiter) : e ∈ insertSem l w ↔ e = w ∨ e ∈ l := by
  simp only [insertSem, List.mem_append, List.mem_filter, List.mem_singleton, decide_eq_true_eq]
  have total := Nat.lt_or_ge e.prio w.prio
  tauto

/-- A hart that begins a wait leaves the cores as they are. -/
theorem State.core_wait (s : State) (w : Wait) (c : Nat) : (s.wait w).core c = s.core c := by
  unfold State.wait
  split_ifs <;> rfl

/-- An instruction that names no object of its team is illegal in every mode. -/
theorem State.notM_illegal (s : State) : s.notM s.illegal = s.illegal := ite_self _

/-! ## Waiters that are granted -/

/-- A hart that retires keeps the x registers of the focused one, whichever it is. -/
theorem State.hart_x_modHart_retire (s : State) (g : Nat) : (s.modHart g Hart.retire).hart.x = s.hart.x := by
  by_cases hg : g = s.hart.gid
  · rw [State.modHart_focus hg ((Hart.gid_retire _).trans hg.symm), State.onHart_hart, Hart.retire_x]
  · rw [State.modHart_hart_ne _ _ hg]

/-- Granted waiters resume, and no semaphore changes. -/
theorem State.granted_keeps (s : State) (c : Nat) (l : List SemWho) :
    (s.granted c l).tables = s.tables ∧ (s.granted c l).hart.x = s.hart.x := by
  induction l generalizing s with
  | nil => exact ⟨rfl, rfl⟩
  | cons w r ih =>
    cases w with
    | hart g =>
      obtain ⟨tables, regs⟩ := ih (s.modHart g Hart.retire)
      exact ⟨tables.trans (s.tables_modHart _ _), regs.trans (s.hart_x_modHart_retire g)⟩
    | cmd u =>
      obtain ⟨tables, regs⟩ := ih (s.modCore c (fun k =>
        { k with queue := k.queue.map (fun c => if c.uid = u then { c with phase := .eligible } else c) }))
      exact ⟨tables.trans (s.tables_modCore c rfl rfl), regs⟩

/-- A semaphore that settles holds what the grants leave. -/
theorem State.semSettle_spec (s : State) (c j cnt : Nat) (l : List SemWaiter) :
    ((s.semSettle c j cnt l).core c).sem j = ⟨(grantSem cnt l).1, (grantSem cnt l).2.1⟩ ∧
      (s.semSettle c j cnt l).hart.x = s.hart.x := by
  unfold State.semSettle
  dsimp only
  obtain ⟨tables, regs⟩ := State.granted_keeps
    (s.modCore c (fun k => k.setSem j ⟨(grantSem cnt l).1, (grantSem cnt l).2.1⟩)) c (grantSem cnt l).2.2
  exact ⟨(State.sem_of_tables tables c j).trans (s.sem_modCore_setSem c j _), regs⟩

/-- A mutex that is released belongs to the head of its list. -/
theorem State.mtxRelease_spec (s : State) (c j : Nat) :
    ((s.mtxRelease c j).core c).mtx j = (match ((s.core c).mtx j).list with
      | [] => ⟨none, []⟩
      | w :: r => ⟨some w.gid, r⟩) ∧ (s.mtxRelease c j).hart.x = s.hart.x := by
  unfold State.mtxRelease
  cases ((s.core c).mtx j).list with
  | nil => exact ⟨s.mtx_modCore_setMtx c j _, rfl⟩
  | cons w r => exact ⟨(State.mtx_of_tables (State.tables_modHart _ _ _) c j).trans (s.mtx_modCore_setMtx c j _),
      State.hart_x_modHart_retire _ _⟩

/-! ## Semaphores -/

section
variable {s : State} {rd rs1 rs2 : XReg} {j n : Nat} (hm : s.hart.mode ≠ .m) (args : s.semArgs rs1 rs2 = some (j, n))
include hm args

theorem exec_semSig_named :
    exec (.semSig rs1 rs2) s = .next ((s.release s.hart.gid).semSignal s.coreNo j n).retire := by
  simp only [exec, execSemSig, State.notM_below _ hm, args]

/-- Where no one waits and the count has the amount, it is taken. -/
theorem exec_sem_taken (free : ((s.core s.coreNo).sem j).list = []) (there : n ≤ ((s.core s.coreNo).sem j).cnt) :
    exec (.semWait rs1 rs2) s =
      .next (s.modCore s.coreNo (fun k => k.setSem j ⟨((s.core s.coreNo).sem j).cnt - n, []⟩)).retire ∧
    exec (.semTry rd rs1 rs2) s =
      .next ((s.modCore s.coreNo (fun k => k.setSem j ⟨((s.core s.coreNo).sem j).cnt - n, []⟩)).setX rd 1).retire := by
  simp only [exec, execSemWait, execSemTry, State.notM_below _ hm, args, free, there, List.isEmpty_nil, decide_true, Bool.and_self,
    if_true, and_self]

/-- Else `sem.wait` joins the list, and `sem.try` returns 0. -/
theorem exec_sem_missing (out : ((s.core s.coreNo).sem j).list ≠ [] ∨ ((s.core s.coreNo).sem j).cnt < n) :
    exec (.semWait rs1 rs2) s = .next ((s.modCore s.coreNo (fun k => k.setSem j ⟨((s.core s.coreNo).sem j).cnt,
      insertSem ((s.core s.coreNo).sem j).list ⟨s.prio s.hart, n, .hart s.hart.gid⟩⟩)).wait (.sem s.coreNo j)) ∧
    exec (.semTry rd rs1 rs2) s = .next (s.setX rd 0).retire := by
  have refused : (((s.core s.coreNo).sem j).list.isEmpty && decide (n ≤ ((s.core s.coreNo).sem j).cnt)) = false := by
    rcases out with out | out
    · simp [out]
    · simp [Nat.not_le.2 out]
  simp only [exec, execSemWait, execSemTry, State.notM_below _ hm, args, refused, Bool.false_eq_true, if_false]
  exact ⟨rfl, trivial⟩

end

theorem exec_sem_illegal {s : State} (rd rs1 rs2 : XReg) (h : s.hart.mode = .m ∨ s.semArgs rs1 rs2 = none) :
    exec (.semSig rs1 rs2) s = .next s.illegal ∧ exec (.semWait rs1 rs2) s = .next s.illegal ∧
      exec (.semTry rd rs1 rs2) s = .next s.illegal := by
  rcases h with hm | args
  · simp only [exec, execSemSig, execSemWait, execSemTry, State.notM_machine _ hm, and_self]
  · simp only [exec, execSemSig, execSemWait, execSemTry, args, State.notM_illegal, and_self]

theorem semaphores : Claims.Semaphores := by
  intro rd rs1 rs2 j n s h c e
  have illegal (out : h.mode = .m ∨ s.semArgs rs1 rs2 = none) : Gives (.semSig rs1 rs2) s (Traps s 2 0 h.ir) ∧
      Gives (.semWait rs1 rs2) s (Traps s 2 0 h.ir) ∧ Gives (.semTry rd rs1 rs2) s (Traps s 2 0 h.ir) := by
    obtain ⟨sig, wait, try_⟩ := exec_sem_illegal rd rs1 rs2 out
    exact ⟨State.gives_illegal sig, State.gives_illegal wait, State.gives_illegal try_⟩
  refine ⟨fun hm => illegal (.inl hm), fun args => illegal (.inr args), fun hm args => ⟨?_, fun free there => ?_, fun out => ?_⟩⟩
  · refine ⟨_, exec_semSig_named hm args, ?_⟩
    have same : ((s.release h.gid).core c).sem j = e := State.sem_of_tables (s.tables_release _) c j
    obtain ⟨sem, regs⟩ := (s.release h.gid).semSettle_spec c j (min (e.cnt + n) 65535) e.list
    have settled : (s.release h.gid).semSignal c j n = (s.release h.gid).semSettle c j (min (e.cnt + n) 65535) e.list := by
      rw [State.semSignal, same]
    rw [settled]
    refine ⟨sem, (Hart.retire_x _).trans (regs.trans ?_)⟩
    rw [s.hart_release, Hart.storesDone_eq]
    rfl
  · obtain ⟨wait, try_⟩ := exec_sem_taken (rd := rd) hm args free there
    exact ⟨⟨_, wait, rfl, s.sem_modCore_setSem c j _⟩,
      ⟨_, try_, ⟨h.setX rd 1, Hart.xWritten_setX _ _ _, rfl⟩, s.sem_modCore_setSem c j _⟩⟩
  · obtain ⟨wait, try_⟩ := exec_sem_missing (rd := rd) hm args out
    refine ⟨⟨_, try_, h.setX rd 0, rfl, Hart.xWritten_setX _ _ _⟩, fun hr => ⟨_, wait, ?_⟩⟩
    obtain ⟨begun, place⟩ := State.wait_of_ready (s := s.modCore c _) (.sem c j) hr
    rw [State.core_wait, s.sem_modCore_setSem]
    exact ⟨begun, place, rfl, mem_insertSem _ _⟩

/-! ## Mutexes -/

section
variable {s : State} {rd rs1 : XReg} {j : Nat} (hm : s.hart.mode ≠ .m) (arg : s.mtxArg rs1 = some j)
include hm arg

theorem exec_mtx_free (free : ((s.core s.coreNo).mtx j).owner = none) :
    exec (.mtxLock rs1) s = .next (s.modCore s.coreNo (fun k => k.setMtx j ⟨some s.hart.gid, []⟩)).retire ∧
    exec (.mtxTry rd rs1) s = .next ((s.modCore s.coreNo (fun k => k.setMtx j ⟨some s.hart.gid, []⟩)).setX rd 1).retire := by
  simp only [exec, execMtxLock, execMtxTry, State.notM_below _ hm, arg, free, Option.isNone_none, if_true, and_self]

theorem exec_mtxTry_held (held : ((s.core s.coreNo).mtx j).owner ≠ none) :
    exec (.mtxTry rd rs1) s = .next (s.setX rd 0).retire := by
  simp only [exec, execMtxTry, State.notM_below _ hm, arg, Option.isNone_iff_eq_none, held, if_false]

theorem exec_mtxLock_own (own : ((s.core s.coreNo).mtx j).owner = some s.hart.gid) : exec (.mtxLock rs1) s = .next s.illegal := by
  simp only [exec, execMtxLock, State.notM_below _ hm, arg, own, if_true]

theorem exec_mtxLock_held {o : Nat} (held : ((s.core s.coreNo).mtx j).owner = some o) (other : o ≠ s.hart.gid) :
    exec (.mtxLock rs1) s = .next ((s.modCore s.coreNo (fun k => k.setMtx j
      ⟨some o, insertWaiter ((s.core s.coreNo).mtx j).list ⟨s.prio s.hart, s.hart.gid⟩⟩)).wait (.mutex s.coreNo j)) := by
  simp only [exec, execMtxLock, State.notM_below _ hm, arg, held, other, if_false]

theorem exec_mtxFree_own (own : ((s.core s.coreNo).mtx j).owner = some s.hart.gid) :
    exec (.mtxFree rs1) s = .next ((s.release s.hart.gid).mtxRelease s.coreNo j).retire := by
  simp only [exec, execMtxFree, State.notM_below _ hm, arg, own, if_true]

theorem exec_mtxFree_other (other : ((s.core s.coreNo).mtx j).owner ≠ some s.hart.gid) :
    exec (.mtxFree rs1) s = .next s.illegal := by
  simp only [exec, execMtxFree, State.notM_below _ hm, arg, other, if_false]

end

theorem exec_mtx_illegal {s : State} (rd rs1 : XReg) (h : s.hart.mode = .m ∨ s.mtxArg rs1 = none) :
    exec (.mtxLock rs1) s = .next s.illegal ∧ exec (.mtxTry rd rs1) s = .next s.illegal ∧ exec (.mtxFree rs1) s = .next s.illegal := by
  rcases h with hm | arg
  · simp only [exec, execMtxLock, execMtxTry, execMtxFree, State.notM_machine _ hm, and_self]
  · simp only [exec, execMtxLock, execMtxTry, execMtxFree, arg, State.notM_illegal, and_self]

theorem mutexes : Claims.Mutexes := by
  intro rd rs1 j s h c e
  refine ⟨fun out => ?_, fun hm arg => ⟨fun free => ?_, fun held => ?_, fun own => ?_, fun o held other hr => ?_, fun other => ?_,
    fun own => ?_⟩⟩
  · obtain ⟨lock, try_, free⟩ := exec_mtx_illegal rd rs1 out
    exact ⟨State.gives_illegal lock, State.gives_illegal try_, State.gives_illegal free⟩
  · obtain ⟨lock, try_⟩ := exec_mtx_free (rd := rd) hm arg free
    exact ⟨⟨_, lock, rfl, s.mtx_modCore_setMtx c j _⟩,
      ⟨_, try_, ⟨h.setX rd 1, Hart.xWritten_setX _ _ _, rfl⟩, s.mtx_modCore_setMtx c j _⟩⟩
  · exact ⟨_, exec_mtxTry_held hm arg held, h.setX rd 0, rfl, Hart.xWritten_setX _ _ _⟩
  · exact State.gives_illegal (exec_mtxLock_own hm arg own)
  · refine ⟨_, exec_mtxLock_held hm arg held other, ?_⟩
    obtain ⟨begun, place⟩ := State.wait_of_ready (s := s.modCore c _) (.mutex c j) hr
    rw [State.core_wait, s.mtx_modCore_setMtx]
    exact ⟨begun, place, rfl⟩
  · exact State.gives_illegal (exec_mtxFree_other hm arg other)
  · refine ⟨_, exec_mtxFree_own hm arg own, ?_⟩
    have same : ((s.release h.gid).core c).mtx j = e := State.mtx_of_tables (s.tables_release _) c j
    obtain ⟨mtx, regs⟩ := (s.release h.gid).mtxRelease_spec c j
    rw [same] at mtx
    refine ⟨(Hart.retire_x _).trans (regs.trans ?_), mtx⟩
    rw [s.hart_release, Hart.storesDone_eq]
    rfl

/-- Settles O22: a release changes no semaphore and no mutex (`State.tables_release`), and a grant changes none either. -/
theorem semaphoresAndMutexes : Obligations.SemaphoresAndMutexes := ⟨semaphores, mutexes⟩

end Sys2Proof.Machine
end

section
/-! SUPPORT. Mailboxes (R187 to R191). -/
namespace Sys2Proof.Machine
open Sys2Proof.Safety

/-! ## Messages that end -/

theorem State.msgs_modHart (s : State) (g : Nat) (f : Hart → Hart) : (s.modHart g f).msgs = s.msgs := by
  rw [State.modHart, State.putHart_eq]

theorem State.msgs_wait (s : State) (w : Wait) : (s.wait w).msgs = s.msgs := by
  unfold State.wait
  split_ifs <;> rfl

theorem Run.ne_vacant_of_isHart {r : Run} (h : r.isHart = true) : r ≠ .vacant := by
  rintro rfl
  cases h

theorem Hart.run_retire (h : Hart) : h.retire.run = .ready := by rw [Hart.retire_eq]

theorem State.core_dropMsg (s : State) (uid c : Nat) : (s.dropMsg uid).core c = s.core c := rfl

/-- No message of a number is left once it is dropped. -/
theorem State.uid_ne_of_mem_dropMsg {s : State} {uid : Nat} {x : Msg} (hx : x ∈ (s.dropMsg uid).msgs) : x.uid ≠ uid := by
  simpa using (List.mem_filter.1 hx).2

/-- A message that is dropped while its sender changes and stays in its place. -/
theorem State.dropMsg_modHart_spec (s : State) (m : Msg) {f : Hart → Hart} (hg : (f (s.hartOf m.src)).gid = m.src)
    (hr : (f (s.hartOf m.src)).run ≠ .vacant) :
    ((s.dropMsg m.uid).modHart m.src f).hartOf m.src = f (s.hartOf m.src) ∧
      ∀ x ∈ ((s.dropMsg m.uid).modHart m.src f).msgs, x.uid ≠ m.uid := by
  refine ⟨State.hartOf_modHart_kept (s := s.dropMsg m.uid) hg hr, fun x hx => ?_⟩
  rw [State.msgs_modHart] at hx
  exact State.uid_ne_of_mem_dropMsg hx

/-- A message that is done: its sender's `msend` retires, and every other place is as it was. -/
theorem State.msgDone_spec (s : State) (m : Msg) : (s.msgDone m).hartOf m.src = (s.hartOf m.src).retire ∧
    (∀ j, j ≠ m.src → (s.msgDone m).hartOf j = s.hartOf j) ∧ ∀ x ∈ (s.msgDone m).msgs, x.uid ≠ m.uid := by
  have ready : (s.hartOf m.src).retire.run ≠ .vacant := by rw [Hart.run_retire]; exact nofun
  obtain ⟨sender, gone⟩ := s.dropMsg_modHart_spec m ((Hart.gid_retire _).trans (s.hartOf_gid _)) ready
  refine ⟨sender, fun j hj => ?_, gone⟩
  rw [State.msgDone, State.hartOf_modHart_ne _ _ _ hj]
  rfl

/-! ## `msend` -/

theorem exec_msend_illegal {s : State} {rs1 rs2 : XReg} {idx : BitVec 5} (h : s.hart.mode = .m ∨ s.msendTarget (s.hart.getX rs1) = none) :
    exec (.msend rs1 rs2 idx) s = .next s.illegal := by
  rcases h with hm | target
  · simp only [exec, execMsend, State.notM_machine _ hm]
  · have named : s.msendTarget (s.getX rs1) = none := target
    simp only [exec, execMsend, named, State.notM_illegal]

/-- The message that the focused hart sends. -/
def State.sentMsg (s : State) (dst idx : Nat) (val : Word) (notify : Bool) : Msg :=
  ⟨s.nextUid, s.hart.gid, dst, idx, val, notify, s.takeUid.1.prio s.hart, false, s.clock⟩

theorem exec_msend_sends {s : State} {rs1 rs2 : XReg} {idx : BitVec 5} {d : Nat} {b : Bool} (hm : s.hart.mode ≠ .m)
    (target : s.msendTarget (s.hart.getX rs1) = some (d, b)) :
    let u := s.release s.hart.gid
    exec (.msend rs1 rs2 idx) s = .next (({ u.takeUid.1 with
      msgs := u.msgs ++ [u.sentMsg d idx.toNat (u.hart.getX rs2) b] }).wait (.msend d idx.toNat)) := by
  have named : s.msendTarget (s.getX rs1) = some (d, b) := target
  simp only [exec, execMsend, State.notM_below _ hm, named]
  rfl

theorem gives_msend {s : State} {rs1 rs2 : XReg} {idx : BitVec 5} {d : Nat} {b : Bool} (hm : s.hart.mode ≠ .m)
    (target : s.msendTarget (s.hart.getX rs1) = some (d, b)) (hr : s.hart.run = .ready) :
    Gives (.msend rs1 rs2 idx) s (fun t => t.hart.run = .waiting (.msend d idx.toNat) ∧ t.hart.pc = s.hart.pc ∧
      ∃ k ∈ t.msgs, k.src = s.hart.gid ∧ k.dst = d ∧ k.idx = idx.toNat ∧ k.val = s.hart.getX rs2 ∧ k.notify = b) := by
  refine ⟨_, exec_msend_sends hm target, ?_⟩
  have focus := s.hart_release.trans (Hart.storesDone_eq _)
  generalize s.release s.hart.gid = u at focus ⊢
  have ready : u.hart.run = .ready := by rw [focus]; exact hr
  obtain ⟨begun, place⟩ := State.wait_of_ready
    (s := { u.takeUid.1 with msgs := u.msgs ++ [u.sentMsg d idx.toNat (u.hart.getX rs2) b] }) (.msend d idx.toNat) ready
  refine ⟨begun, place.trans ?_, u.sentMsg d idx.toNat (u.hart.getX rs2) b, ?_, ?_, rfl, rfl, ?_, rfl⟩
  · show u.hart.pc = _
    rw [focus]; rfl
  · rw [State.msgs_wait]
    exact List.mem_append_right _ (List.mem_singleton.2 rfl)
  · show u.hart.gid = _
    rw [focus]; rfl
  · show u.hart.getX rs2 = _
    rw [focus]; rfl

/-! ## `mtry` and `mrecv` -/

theorem exec_mtry_absent {s : State} {rd : XReg} {idx : BitVec 5} (hm : s.hart.mode ≠ .m) (empty : s.hart.mbpres.getLsbD idx.toNat = false) :
    exec (.mtry rd idx) s = .next (s.setX rd 0).retire ∧ exec (.mrecv rd idx) s = .next (s.wait (.mrecv idx.toNat)) := by
  simp only [exec, execMtry, execMrecv, State.notM_below _ hm, empty, Bool.false_eq_true, if_false, and_self]

theorem exec_mtry_present {s : State} {rd : XReg} {idx : BitVec 5} {i : Instr} (hm : s.hart.mode ≠ .m)
    (full : s.hart.mbpres.getLsbD idx.toNat = true) (hi : i = .mtry rd idx ∨ i = .mrecv rd idx) :
    exec i s = .next (s.takeBox rd idx.toNat) := by
  rcases hi with rfl | rfl
  · simp only [exec, execMtry, State.notM_below _ hm, full, if_true]
  · simp only [exec, execMrecv, State.notM_below _ hm, full, if_true]

/-- A hart whose mailbox `i` is empty. -/
def Hart.withoutBox (h : Hart) (i : Nat) : Hart :=
  { h with mbox := fset 0 h.mbox i 0, mbpres := h.mbpres &&& ~~~(1#32 <<< i), mbsrc := fset 0 h.mbsrc i 0 }

/-- Mailboxes have no part in where a hart goes on. -/
theorem Hart.retire_pc_withoutBox (h : Hart) (i : Nat) : (h.withoutBox i).retire.pc = h.retire.pc := by
  rw [Hart.retire_pc_cases _ _ rfl, Hart.retire_pc_cases h _ rfl]
  rfl

/-- A mailbox that no sender waits for stays empty once it is cleared. -/
theorem State.clearBox_unlisted {s : State} {i : Nat}
    (alone : ∀ x ∈ s.msgs, ¬(x.listed = true ∧ x.dst = s.hart.gid ∧ x.idx = i)) : s.clearBox i = s.onHart (fun h => h.withoutBox i) := by
  have senders : s.msgs.filter (fun m => m.listed && m.dst == s.hart.gid && m.idx == i) = [] :=
    List.filter_eq_nil_iff.2 fun x hx named => alone x hx (by simpa [and_assoc] using named)
  have cleared : (s.onHart (fun h => h.withoutBox i)).msgs.filter
      (fun m => m.listed && m.dst == (s.onHart (fun h => h.withoutBox i)).hart.gid && m.idx == i) = [] := senders
  unfold State.clearBox
  simp only [Hart.withoutBox] at cleared ⊢
  rw [cleared]
  rfl

/-- The focused hart after it has taken a value that no other follows. -/
theorem State.hart_takeBox_unlisted {s : State} {rd : XReg} {i : Nat}
    (alone : ∀ x ∈ s.msgs, ¬(x.listed = true ∧ x.dst = s.hart.gid ∧ x.idx = i)) :
    (s.takeBox rd i).hart = ((s.hart.setX rd (fget 0 s.hart.mbox i)).withoutBox i).retire := by
  obtain ⟨l, acquired⟩ : ∃ l, s.acquire s.hart.gid (msgScope s.hart.gid (fget 0 s.hart.mbsrc i)) = { s with l1 := l } :=
    ⟨_, State.acquire_eq _ _ _⟩
  simp only [State.takeBox, acquired]
  rw [State.clearBox_unlisted]
  · rfl
  · intro x hx
    rw [State.setX_hart, Hart.setX_gid]
    exact alone x hx

theorem gives_takeBox {s : State} {rd : XReg} {idx : BitVec 5} {i : Instr} (hm : s.hart.mode ≠ .m)
    (full : s.hart.mbpres.getLsbD idx.toNat = true)
    (alone : ∀ x ∈ s.msgs, ¬(x.listed = true ∧ x.dst = s.hart.gid ∧ x.idx = idx.toNat)) (hi : i = .mtry rd idx ∨ i = .mrecv rd idx) :
    Gives i s (fun t => t.hart.pc = s.hart.retire.pc ∧ t.hart.mbpres = s.hart.mbpres &&& ~~~(1#32 <<< idx.toNat) ∧
      ∀ r, t.hart.getX r = if r = rd ∧ r ≠ 0 then fget 0 s.hart.mbox idx.toNat else s.hart.getX r) := by
  refine ⟨_, exec_mtry_present hm full hi, ?_⟩
  dsimp only
  rw [State.hart_takeBox_unlisted alone]
  refine ⟨by rw [Hart.retire_pc_withoutBox, Hart.retire_pc_setX], ?_, fun r => ?_⟩
  · rw [Hart.retire_eq]
    simp only [Hart.withoutBox, Hart.setX_mbpres]
  · rw [Hart.getX_retire]
    exact Hart.getX_setX _ _ _ _

/-! ## Delivery -/

section
variable {s : State} {m : Msg} (found : s.msgs.find? (fun x => x.uid == s.sel && !x.listed) = some m)
  (up : (s.core (gidCore m.dst)).state = 0)
include found up

/-- A message for no live hart of the context is discarded. -/
theorem exec_mailboxDelivery_discards
    (no : (s.hartOf m.dst).run.isHart = false ∨ (s.hartOf m.dst).asid ≠ (s.hartOf m.src).asid) :
    exec .mailboxDelivery s = .next (s.msgDiscard m) := by
  have test : (!(s.hartOf m.dst).run.isHart || (s.hartOf m.dst).asid != (s.hartOf m.src).asid) = true := by simpa using no
  have running : ((s.core (gidCore m.dst)).state != 0) = false := by rw [up]; rfl
  simp only [exec, execMailboxDelivery, found, running, test, Bool.false_eq_true, if_false, if_true]

theorem exec_mailboxDelivery_delivers (live : (s.hartOf m.dst).run.isHart = true)
    (same : (s.hartOf m.dst).asid = (s.hartOf m.src).asid) (empty : (s.hartOf m.dst).mbpres.getLsbD m.idx = false) :
    exec .mailboxDelivery s = .next (s.msgDeliver m) := by
  have test : (!(s.hartOf m.dst).run.isHart || (s.hartOf m.dst).asid != (s.hartOf m.src).asid) = false := by simp [live, same]
  have running : ((s.core (gidCore m.dst)).state != 0) = false := by rw [up]; rfl
  simp only [exec, execMailboxDelivery, found, running, test, empty, Bool.false_eq_true, if_false]

end

/-- A hart whose mailbox has taken a message. -/
def Hart.withMsg (h : Hart) (m : Msg) : Hart :=
  { h with mbox := fset 0 h.mbox m.idx m.val, mbpres := h.mbpres ||| (1#32 <<< m.idx), mbsrc := fset 0 h.mbsrc m.idx m.src }

theorem State.msgDeliver_quiet {s : State} {m : Msg} (quiet : m.notify = false) :
    s.msgDeliver m = (s.modHart m.dst (fun h => h.withMsg m)).msgDone m := by
  simp only [State.msgDeliver, quiet, Bool.false_eq_true, if_false]
  rfl

/-- A message without a notify bit stands in its mailbox once it is delivered, and its send is done. -/
theorem State.msgDeliver_spec {s : State} {m : Msg} (live : (s.hartOf m.dst).run.isHart = true) (other : m.src ≠ m.dst)
    (hi : m.idx < 32) (quiet : m.notify = false) :
    fget 0 ((s.msgDeliver m).hartOf m.dst).mbox m.idx = m.val ∧ ((s.msgDeliver m).hartOf m.dst).mbpres.getLsbD m.idx = true ∧
      (s.msgDeliver m).hartOf m.src = (s.hartOf m.src).retire ∧ ∀ x ∈ (s.msgDeliver m).msgs, x.uid ≠ m.uid := by
  have written : (s.modHart m.dst (fun h => h.withMsg m)).hartOf m.dst = (s.hartOf m.dst).withMsg m :=
    State.hartOf_modHart_kept (s.hartOf_gid _) (Run.ne_vacant_of_isHart live)
  obtain ⟨sender, others, gone⟩ := (s.modHart m.dst (fun h => h.withMsg m)).msgDone_spec m
  rw [State.msgDeliver_quiet quiet, others m.dst (Ne.symm other), written, sender, State.hartOf_modHart_ne _ _ _ other]
  refine ⟨?_, ?_, rfl, gone⟩
  · exact (fget_fset _ _ _ _ _).trans (if_pos rfl)
  · simp [Hart.withMsg, hi]

/-- A message that is discarded counts at its target's core, and its send is done. -/
theorem State.msgDiscard_spec (s : State) (m : Msg) :
    ((s.msgDiscard m).core (gidCore m.dst)).mbdisc = ((s.core (gidCore m.dst)).mbdisc + 1) % 2 ^ 32 ∧
      (s.msgDiscard m).hartOf m.src = (s.hartOf m.src).retire ∧ ∀ x ∈ (s.msgDiscard m).msgs, x.uid ≠ m.uid := by
  obtain ⟨sender, -, gone⟩ :=
    (s.modCore (gidCore m.dst) (fun k => { k with mbdisc := (k.mbdisc + 1) % 2 ^ 32 })).msgDone_spec m
  refine ⟨?_, sender, gone⟩
  rw [State.msgDiscard, State.msgDone, State.core_modHart, State.core_dropMsg, State.core_modCore, if_pos rfl]

/-! ## Time-out -/

theorem Hart.gid_takeTrap (h : Hart) (t : TrapInfo) : (h.takeTrap t).gid = h.gid := by
  unfold Hart.takeTrap Hart.enterTrap
  split_ifs <;> rfl

theorem Hart.run_takeTrap (h : Hart) (t : TrapInfo) : (h.takeTrap t).run = .ready := by
  unfold Hart.takeTrap Hart.enterTrap
  split_ifs <;> rfl

theorem exec_mailboxSendTimeout_due {s : State} {m : Msg} (found : s.msgs.find? (fun x => x.uid == s.sel) = some m)
    (down : (s.core (gidCore m.dst)).state ≠ 0) (late : m.sentAt + 65536 ≤ s.clock) :
    exec .mailboxSendTimeout s = .next ((s.dropMsg m.uid).modHart m.src (fun h => h.takeTrap ⟨26, 0, 0⟩)) := by
  have due : ((s.core (gidCore m.dst)).state != 0 && decide (m.sentAt + 65536 ≤ s.clock)) = true := by simp [down, late]
  simp only [exec, execMailboxSendTimeout, found, due, if_true]

/-- Settles O23: a message that ends changes its sender's place alone (`State.msgDone_spec`), and a mailbox that is taken stays empty where
no sender is listed (`State.clearBox_unlisted`). -/
theorem mailboxes : Obligations.Mailboxes := by
  intro rd rs1 rs2 idx m s h g
  refine ⟨fun out => State.gives_illegal (exec_msend_illegal out), fun hm => ⟨?_, ?_⟩, fun hm d b target hr => gives_msend hm target hr,
    fun hm empty => ?_, fun hm full alone i hi => gives_takeBox hm full alone hi, fun found up live same empty other hi quiet => ?_,
    fun found up no => ?_, fun found down late => ?_⟩
  · exact State.gives_illegal (congrArg Host.Outcome.next (State.notM_machine _ hm))
  · exact State.gives_illegal (congrArg Host.Outcome.next (State.notM_machine _ hm))
  · obtain ⟨try_, recv⟩ := exec_mtry_absent (rd := rd) hm empty
    exact ⟨⟨_, try_, h.setX rd 0, rfl, Hart.xWritten_setX _ _ _⟩, fun hr => ⟨_, recv, State.wait_of_ready _ hr⟩⟩
  · exact ⟨_, exec_mailboxDelivery_delivers found up live same empty, State.msgDeliver_spec live other hi quiet⟩
  · exact ⟨_, exec_mailboxDelivery_discards found up no, s.msgDiscard_spec m⟩
  · refine ⟨_, exec_mailboxSendTimeout_due found down late, ?_⟩
    have ready : ((s.hartOf m.src).takeTrap ⟨26, 0, 0⟩).run ≠ .vacant := by rw [Hart.run_takeTrap]; exact nofun
    exact s.dropMsg_modHart_spec m ((Hart.gid_takeTrap _ _).trans (s.hartOf_gid _)) ready

end Sys2Proof.Machine
end

section
/-! SUPPORT. Walks that end and shootdowns (R138, R273 to R275): what they leave in the TLBs and the walk caches. -/
namespace Sys2Proof.Machine
open Sys2Proof.Safety

/-! ## Walks -/

/-- A hart looks through the levels of its place. -/
theorem tlbChain_eq_of_gid {h k : Hart} (hg : h.gid = k.gid) (cluster : Nat) : tlbChain h cluster = tlbChain k cluster := by
  simp only [tlbChain, hg]

/-- A fill changes the TLBs alone. -/
theorem State.fillTlb_eq (s : State) (l : List TlbPlace) (g : Agent) (va : Word) (x : Xlat) :
    s.fillTlb l g va x = { s with tlb := (s.fillTlb l g va x).tlb } := by
  unfold State.fillTlb
  dsimp only
  induction l generalizing s with
  | nil => rfl
  | cons p r ih => exact ih _

/-- The machine once a walk has filled the TLBs, unless a shootdown has struck what it found. -/
def State.filledBy (s : State) (w : Walk) (x : Xlat) : State :=
  if w.void w.agent w.va x then s else s.fillTlb (tlbChain (s.hartOf w.gid) w.cluster) w.agent w.va x

theorem State.filledBy_eq (s : State) (w : Walk) (x : Xlat) : s.filledBy w x = { s with tlb := (s.filledBy w x).tlb } := by
  unfold State.filledBy
  split_ifs
  · rfl
  · exact s.fillTlb_eq _ _ _ _

theorem State.tlb_filledBy (s : State) (w : Walk) (x : Xlat) {h : Hart} (hg : h.gid = w.gid) : (s.filledBy w x).tlb =
    if w.void w.agent w.va x then s.tlb else (s.fillTlb (tlbChain h w.cluster) w.agent w.va x).tlb := by
  rw [State.filledBy, tlbChain_eq_of_gid ((s.hartOf_gid _).trans hg.symm), apply_ite State.tlb]

/-- A walk brings the line of its prefetch only where the prefetch's own checks pass. -/
theorem State.walkFills_cases (s : State) (w : Walk) (x : Xlat) : s.walkFills w x = s.filledBy w x ∨
    (w.agent.permits .load x.pte = true ∧ ∃ pa, s.walkFills w x = (s.filledBy w x).fetchLine w.cluster w.scope w.hint pa) := by
  have shape : s.walkFills w x = if !w.agent.pteOk x.pte || !w.agent.permits .load x.pte || pteMt x.pte != 0 ||
        !(s.hartOf w.gid).pmpOk w.agent.priv .load (x.pa / 4096 * 4096 + w.va.toNat % 4096) ||
        ((s.filledBy w x).refusal (x.pa / 4096 * 4096 + w.va.toNat % 4096) w.agent.asid).isSome then s.filledBy w x
      else (s.filledBy w x).fetchLine w.cluster w.scope w.hint (x.pa / 4096 * 4096 + w.va.toNat % 4096) := rfl
  rw [shape]
  split_ifs with refused
  · exact .inl rfl
  · exact .inr ⟨by by_contra denied; simp [denied] at refused, _, rfl⟩

/-- What a walk that has found a translation leaves. -/
theorem State.walkFills_spec (s : State) (w : Walk) (x : Xlat) {h : Hart} (hg : h.gid = w.gid) :
    (s.walkFills w x).walks = s.walks ∧
      (s.walkFills w x).tlb = (if w.void w.agent w.va x then s.tlb else (s.fillTlb (tlbChain h w.cluster) w.agent w.va x).tlb) ∧
      (w.agent.permits .load x.pte = false → s.walkFills w x = { s with tlb := (s.walkFills w x).tlb }) := by
  have walks : (s.filledBy w x).walks = s.walks := by rw [State.filledBy_eq]
  have tlb := s.tlb_filledBy w x hg
  rcases s.walkFills_cases w x with filled | ⟨permitted, pa, fetched⟩
  · rw [filled]
    exact ⟨walks, tlb, fun _ => s.filledBy_eq w x⟩
  · have kept := (s.filledBy w x).tables_fetchLine w.cluster w.scope w.hint pa
    rw [fetched]
    exact ⟨(State.walks_of_tables kept).trans walks, (State.tlb_of_tables kept).trans tlb,
      fun denied => by rw [permitted] at denied; cases denied⟩

section
variable {s u : State} {w : Walk} (found : s.walks.find? (fun x => x.uid == s.sel) = some w)
include found

theorem exec_pageWalkComplete_error {e : TrapInfo}
    (failed : ({ s with walks := s.walks.filter (fun x => x.uid != w.uid) } : State).walkRoot (walkDie w.cluster) (s.hartOf w.gid) w.agent
      .load w.va = (.error e, u)) : exec .pageWalkComplete s = .next u := by
  simp only [exec, execPageWalkComplete, found, failed]

theorem exec_pageWalkComplete_ok {x : Xlat}
    (ended : ({ s with walks := s.walks.filter (fun x => x.uid != w.uid) } : State).walkRoot (walkDie w.cluster) (s.hartOf w.gid) w.agent
      .load w.va = (.ok x, u)) : exec .pageWalkComplete s = .next (u.walkFills w x) := by
  simp only [exec, execPageWalkComplete, found, ended]

end

/-! ## What a shootdown names -/

theorem tlbStruck_iff_named (d : Die) (e : TlbEnt) : tlbStruck d.strikeVa d.strikeAsid e true = true ↔ Claims.named d e := by
  unfold tlbStruck Claims.named Die.strikeVa Die.strikeAsid vaBits
  cases wbit d.tlbsd 16 <;> cases wbit d.tlbsd 17 <;> simp

theorem walkcStruck_iff_namedWalk (d : Die) (e : WalkEnt) :
    walkcStruck d.strikeVa d.strikeAsid e true = true ↔ Claims.namedWalk d e := by
  unfold walkcStruck Claims.namedWalk Die.strikeVa Die.strikeAsid vaBits
  cases wbit d.tlbsd 16 <;> cases wbit d.tlbsd 17 <;> simp

theorem State.mem_tlb_strike (s : State) (d : Nat) (e : TlbEnt) :
    e ∈ (s.strike d).tlb ↔ e ∈ s.tlb ∧ ¬Claims.named (s.die d) e := by
  rw [← tlbStruck_iff_named]
  simp [State.strike]

theorem State.mem_walkc_strike (s : State) (d : Nat) (e : WalkEnt) :
    e ∈ (s.strike d).walkc ↔ e ∈ s.walkc ∧ ¬Claims.namedWalk (s.die d) e := by
  rw [← walkcStruck_iff_namedWalk]
  simp [State.strike]

/-! ## A write of TLBSD -/

/-- The register keeps the bits below `go`. -/
theorem wbit_tlbsd (v : Word) {i : Nat} (hi : i < 18) : wbit (BitVec.ofNat 64 (wfield v 0 18)) i = wbit v i := by
  have wide : i < 64 := by omega
  rw [wbit, BitVec.getLsbD_ofNat, wfield, Nat.shiftRight_zero, Nat.testBit_mod_two_pow]
  simp only [hi, wide, decide_true, Bool.true_and]
  exact BitVec.testBit_toNat v

theorem wfield_tlbsd (v : Word) : wfield (BitVec.ofNat 64 (wfield v 0 18)) 0 16 = wfield v 0 16 := by
  simp only [wfield, BitVec.toNat_ofNat, Nat.shiftRight_zero]
  omega

/-- A die whose TLBSD has been written. -/
def Die.withTlbsd (x : Die) (v : Word) : Die := { x with tlbsd := BitVec.ofNat 64 (wfield v 0 18) }

/-- What a written TLBSD names, as `strikeWalks` notes it. -/
theorem Die.strike_withTlbsd (x : Die) (v : Word) : (x.withTlbsd v).strikeVa = (if wbit v 17 then none else some (wfield x.tlbva 12 45 * 4096)) ∧
    (x.withTlbsd v).strikeAsid = if wbit v 16 then none else some (wfield v 0 16) := by
  unfold Die.strikeVa Die.strikeAsid Die.withTlbsd
  rw [wbit_tlbsd v (by omega), wbit_tlbsd v (by omega), wfield_tlbsd]
  exact ⟨rfl, rfl⟩

theorem State.die_modDie_self (s : State) (d : Nat) (f : Die → Die) : (s.modDie d f).die d = f (s.die d) :=
  (s.die_modDie d d f).trans (if_pos rfl)

theorem State.die_modDie_ne (s : State) {d e : Nat} (f : Die → Die) (he : e ≠ d) : (s.modDie d f).die e = s.die e :=
  (s.die_modDie d e f).trans (if_neg he)

theorem State.die_strikeWalks (s : State) (d e : Nat) : (s.strikeWalks d).die e = s.die e := rfl

theorem State.writeTlbsd_still (s : State) (d : Nat) {v : Word} (go : wbit v 18 = false) :
    s.writeTlbsd d v = (s.strikeFirst d).modDie d (fun x => x.withTlbsd v) := by
  simp only [State.writeTlbsd, go, Bool.false_eq_true, if_false]
  rfl

theorem State.writeTlbsd_go (s : State) (d : Nat) {v : Word} (go : wbit v 18 = true) :
    s.writeTlbsd d v = (((s.strikeFirst d).modDie d (fun x => x.withTlbsd v)).strikeWalks d).modDie d (fun x => { x with tlbdone := false }) := by
  simp only [State.writeTlbsd, go, if_true]
  rfl

/-- What a write of TLBSD leaves, once a shootdown in progress has been done: the registers, and the walks that a new one meets. -/
theorem State.writeTlbsd_spec (s : State) (d : Nat) (v : Word) :
    let t := s.writeTlbsd d v
    let r := s.strikeFirst d
    t = { r with dies := t.dies, walks := t.walks } ∧ (∀ e, e ≠ d → t.die e = r.die e) ∧
      t.die d = { r.die d with tlbsd := BitVec.ofNat 64 (wfield v 0 18), tlbdone := (r.die d).tlbdone && !wbit v 18 } ∧
      (wbit v 18 = false → t.walks = r.walks) ∧
      (wbit v 18 = true → t.walks = r.walks.map (fun x => { x with struck :=
        (if wbit v 17 then none else some (wfield (r.die d).tlbva 12 45 * 4096), if wbit v 16 then none else some (wfield v 0 16)) ::
          x.struck })) := by
  have still := s.writeTlbsd_still d (v := v)
  have begun := s.writeTlbsd_go d (v := v)
  generalize s.writeTlbsd d v = t, s.strikeFirst d = r at still begun ⊢
  cases go : wbit v 18 with
  | false =>
    rw [still go]
    refine ⟨rfl, fun e he => State.die_modDie_ne _ _ he, ?_, fun _ => rfl, nofun⟩
    rw [State.die_modDie_self, Bool.not_false, Bool.and_true]
    rfl
  | true =>
    rw [begun go]
    refine ⟨rfl, fun e he => ?_, ?_, nofun, fun _ => ?_⟩
    · rw [State.die_modDie_ne _ _ he, State.die_strikeWalks, State.die_modDie_ne _ _ he]
    · rw [State.die_modDie_self, State.die_strikeWalks, State.die_modDie_self, Bool.not_true, Bool.and_false]
      rfl
    · obtain ⟨va, asid⟩ := (r.die d).strike_withTlbsd v
      have noted : ((r.modDie d (fun x => x.withTlbsd v)).strikeWalks d).walks = r.walks.map
          (fun x => { x with struck := (((r.modDie d (fun x => x.withTlbsd v)).die d).strikeVa,
            ((r.modDie d (fun x => x.withTlbsd v)).die d).strikeAsid) :: x.struck }) := rfl
      rw [State.die_modDie_self, va, asid] at noted
      exact noted

end Sys2Proof.Machine
end

section
/-! SUPPORT. Lost lines, notify pages, ECC events, the bad-page list, torus links and stall counters (R178, R227, R271, R290, R346,
R347). -/
namespace Sys2Proof.Machine
open Sys2Proof.Safety

/-! ## `lrel` -/

/-- A line that returns to use is lost no longer, and every other one is as it was. -/
theorem State.isLost_unlose (s : State) (la x : Nat) : (s.unlose la).isLost x = (s.isLost x && lineOf x != lineOf la) := by
  unfold State.isLost State.unlose
  by_cases same : lineOf x = lineOf la
  · simp [same]
  · have poison : (s.poison.filter (fun e => e != lineOf la)).contains (lineOf x) = s.poison.contains (lineOf x) := by
      simp [List.contains_eq_mem, same]
    have lost : (s.lost.filter (fun e => e.2 % 2 ^ 39 != lineOf la)).any (fun e => e.2 % 2 ^ 39 == lineOf x) =
        s.lost.any (fun e => e.2 % 2 ^ 39 == lineOf x) := by
      rw [List.any_filter]
      refine List.any_congr rfl fun e => ?_
      simpa using fun here there => same (here.symm.trans there)
    rw [poison, lost]
    simp [same]

section
variable {s u : State} {rs1 : XReg} (hm : s.hart.mode = .s)
include hm

theorem exec_lrel_faults {e : TrapInfo} (at_ : s.dataPa .s .store (wput (s.hart.getX rs1) 0 7 0) = (.error e, u)) :
    exec (.lrel rs1) s = .next (u.trap e) := by
  have addr : s.dataPa .s .store (wput (s.getX rs1) 0 7 0) = (.error e, u) := at_
  simp only [exec, execLrel, hm, bne_self_eq_false, Bool.false_eq_true, if_false, addr]

theorem exec_lrel_reached {pa : Nat} (at_ : s.dataPa .s .store (wput (s.hart.getX rs1) 0 7 0) = (.ok pa, u)) :
    exec (.lrel rs1) s = .next ((if u.region (paLow pa) = .hbm then u.unlose (paLow pa) else u).retire) := by
  have addr : s.dataPa .s .store (wput (s.getX rs1) 0 7 0) = (.ok pa, u) := at_
  simp only [exec, execLrel, hm, bne_self_eq_false, Bool.false_eq_true, if_false, addr]

end

theorem exec_lrel_illegal {s : State} (rs1 : XReg) (hm : s.hart.mode ≠ .s) : exec (.lrel rs1) s = .next s.illegal := by
  have test : (s.hart.mode != .s) = true := by simpa using hm
  simp only [exec, execLrel, test, if_true]

/-! ## The fault-address queue -/

/-- A line that is posted: it enters the queue of its die, or is counted where the queue is full. -/
theorem State.postFault_spec (s : State) (d kind pa : Nat) :
    s.postFault d kind pa = { s with dies := (s.postFault d kind pa).dies, fe := (s.postFault d kind pa).fe } ∧
    ((s.die d).faq.length < 256 → ((s.postFault d kind pa).die d).faq = (s.die d).faq ++ [(kind, tagLine pa)]) ∧
    (256 ≤ (s.die d).faq.length → ((s.postFault d kind pa).die d).faq = (s.die d).faq ∧
      ((s.postFault d kind pa).die d).faqDrop = ((s.die d).faqDrop + 1) % 2 ^ 32) ∧
    ∀ e, ((s.postFault d kind pa).die e).nperr = (s.die e).nperr := by
  obtain ⟨fe, raised⟩ : ∃ fe, (if (s.die d).faq.isEmpty then s.raiseVector 2 else s) = { s with fe := fe } := by
    split_ifs
    · exact ⟨_, rfl⟩
    · exact ⟨s.fe, rfl⟩
  have dies : ({ s with fe := fe } : State).die = s.die := rfl
  simp only [State.postFault, raised, State.die_modDie, dies, if_true]
  refine ⟨rfl, fun room => by rw [if_pos room], fun full => by rw [if_neg (Nat.not_lt.2 full)]; exact ⟨rfl, rfl⟩, fun e => ?_⟩
  split_ifs with he
  · rw [he]
  · rw [he]
  · rfl

theorem State.nperr_postFault (s : State) (d kind pa e : Nat) : ((s.postFault d kind pa).die e).nperr = (s.die e).nperr := by
  obtain ⟨-, -, -, counts⟩ := s.postFault_spec d kind pa
  exact counts e

theorem tagLine_mul (line : Nat) : tagLine (128 * line) = line := Nat.mul_div_cancel_left line (by omega)

/-! ## Notify pages -/

/-- A write of NOTIFY that is dropped counts at its page alone. -/
theorem State.notifyDrop_spec (r : State) (die page : Nat) : Claims.DieOnly r (r.notifyDrop die page) die ∧
    ((r.notifyDrop die page).die die).nperr = fset 0 (r.die die).nperr page ((fget 0 (r.die die).nperr page + 1) % 2 ^ 32) := by
  refine ⟨⟨rfl, fun e he => State.die_modDie_ne _ _ he⟩, ?_⟩
  rw [State.notifyDrop, State.die_modDie_self]

section
variable {s : State} {die page : Nat} {v : Word}

theorem exec_notify_unbound (bound : s.notifyQcb die page = none) : exec (.notify die page v) s = .next (s.notifyDrop die page) := by
  simp only [exec, execNotify, bound]

section
variable {pa : Nat} (bound : s.notifyQcb die page = some pa)
include bound

theorem exec_notify_refused (refused : s.qcbRefused pa = true) :
    exec (.notify die page v) s = .next ((s.postFault (s.homeDie (paLow pa)) 6 pa).notifyDrop die page) := by
  simp only [exec, execNotify, bound, refused, if_true]

variable {u : State} {l : List Byte} (open_ : s.qcbRefused pa = false) (read : (s.qSettle pa).qcbBytes pa = (l, u))
include open_ read

theorem exec_notify_corrupt (bad : qcbCorrupt l = true ∨ (qcbParse (dwords 16 l)).qr = true) :
    exec (.notify die page v) s = .next ((u.writeAt .other pa
      (checked (dwordBytes ((dwords 16 l).set 0 (wputb (dw (dwords 16 l) 0) 37 true))))).notifyDrop die page) := by
  have test : (qcbCorrupt l || (qcbParse (dwords 16 l)).qr) = true := by simpa using bad
  simp only [exec, execNotify, bound, open_, read, test, Bool.false_eq_true, if_false, if_true]

variable (sound : qcbCorrupt l = false) (live : (qcbParse (dwords 16 l)).qr = false)
include sound live

theorem exec_notify_sound : exec (.notify die page v) s = .next (
    if (qcbParse (dwords 16 l)).tail ≤ v.toNat ∧ v.toNat ≤ (qcbParse (dwords 16 l)).head + (qcbParse (dwords 16 l)).cap then
      u.qcbWrite pa (qcbParse (dwords 16 l)) { qcbParse (dwords 16 l) with
        rsv := v.toNat, tail := v.toNat, free := (qcbParse (dwords 16 l)).cap - (v.toNat - (qcbParse (dwords 16 l)).head) }
    else u.notifyDrop die page) := by
  have test : (qcbCorrupt l || (qcbParse (dwords 16 l)).qr) = false := by rw [sound, live]; rfl
  simp only [exec, execNotify, bound, open_, read, test, Bool.false_eq_true, if_false, Bool.and_eq_true, decide_eq_true_eq]
  split_ifs <;> rfl

end
end

/-! ## ECC events -/

/-- The machine with the bytes of an uncorrected event poisoned. -/
def State.poisonedBy (s : State) (la : Nat) (unc : Bool) : State :=
  if unc && !s.isLost la then { s with poison := s.poison ++ [lineOf la] } else s

theorem State.poisonedBy_spec (s : State) (la : Nat) (unc : Bool) :
    s.poisonedBy la unc = { s with poison := (s.poisonedBy la unc).poison } ∧ (unc = true → (s.poisonedBy la unc).isLost la = true) ∧
      (unc = false → (s.poisonedBy la unc).poison = s.poison) := by
  unfold State.poisonedBy
  split_ifs with test
  · obtain ⟨hu, -⟩ := Bool.and_eq_true_iff.1 test
    refine ⟨rfl, fun _ => ?_, fun h => by rw [hu] at h; cases h⟩
    simp [State.isLost]
  · refine ⟨rfl, fun h => ?_, fun _ => rfl⟩
    simpa [h] using test

theorem exec_hbmEccEvent_hbm {s : State} {line : Nat} {unc : Bool} (here : s.region (paLow (128 * line)) = .hbm) :
    exec (.hbmEccEvent line unc) s = .next ((s.poisonedBy (paLow (128 * line)) unc).postFault (s.homeDie (paLow (128 * line)))
      (if unc then 1 else 0) (128 * line)) := by
  have home : (s.poisonedBy (paLow (128 * line)) unc).homeDie (paLow (128 * line)) = s.homeDie (paLow (128 * line)) := by
    rw [(s.poisonedBy_spec _ _).1]
    rfl
  rw [← home]
  simp only [exec, execHbmEccEvent, here, bne_self_eq_false, Bool.false_eq_true, if_false]
  rfl

theorem gives_hbmEccEvent {s : State} {line : Nat} (unc : Bool) (here : s.region (paLow (128 * line)) = .hbm) :
    let la := paLow (128 * line)
    let home := s.homeDie la
    Gives (.hbmEccEvent line unc) s (fun t => t = { s with dies := t.dies, fe := t.fe, poison := t.poison } ∧
      ((s.die home).faq.length < 256 → (t.die home).faq = (s.die home).faq ++ [(if unc then 1 else 0, line)]) ∧
      (256 ≤ (s.die home).faq.length → (t.die home).faq = (s.die home).faq ∧
        (t.die home).faqDrop = ((s.die home).faqDrop + 1) % 2 ^ 32) ∧
      (unc = true → t.isLost la = true) ∧ (unc = false → t.poison = s.poison)) := by
  intro la home
  refine ⟨_, exec_hbmEccEvent_hbm here, ?_⟩
  obtain ⟨frame, poisoned, clean⟩ := s.poisonedBy_spec la unc
  have dies : (s.poisonedBy la unc).die = s.die := by rw [frame]; rfl
  obtain ⟨posted, room, full, -⟩ := (s.poisonedBy la unc).postFault_spec home (if unc then 1 else 0) (128 * line)
  rw [dies, tagLine_mul] at room
  rw [dies] at full
  refine ⟨?_, room, full, fun hu => ?_, fun hu => ?_⟩
  · rw [posted, frame]
  · rw [posted]; exact poisoned hu
  · rw [posted]; exact clean hu

/-! ## Torus links -/

theorem exec_torusLinkStop_named {s : State} {cluster link : Nat} (hc : cluster < 48) (hl : link < 32) :
    exec (.torusLinkStop cluster link) s = .next (({ s with
      tlstat := fset 0 s.tlstat cluster (fget 0 s.tlstat cluster ||| (1#32 <<< link)) } : State).raiseVector 5) := by
  have test : (decide (48 ≤ cluster) || decide (32 ≤ link)) = false := by simp [hc, hl]
  simp only [exec, execTorusLinkStop, test, Bool.false_eq_true, if_false]

/-- A bit that is set in a mask. -/
theorem getLsbD_or_one_shiftLeft (x : BitVec 32) {link : Nat} (hl : link < 32) (b : Nat) :
    (x ||| (1#32 <<< link)).getLsbD b = (x.getLsbD b || decide (b = link)) := by
  rw [BitVec.getLsbD_or]
  congr 1
  simp only [BitVec.getLsbD_shiftLeft, BitVec.getLsbD_one]
  by_cases hb : b = link
  · simp [hb, hl]
  · simp only [hb, decide_false]
    simp only [Bool.and_eq_false_iff, decide_eq_false_iff_not, Bool.not_eq_false', decide_eq_true_eq]
    omega

theorem gives_torusLinkStop {s : State} {cluster link : Nat} (hc : cluster < 48) (hl : link < 32) :
    Gives (.torusLinkStop cluster link) s (fun t => t = { s with tlstat := t.tlstat, fe := t.fe } ∧
      (∀ b, (fget 0 t.tlstat cluster).getLsbD b = ((fget 0 s.tlstat cluster).getLsbD b || decide (b = link))) ∧
      ∀ c, c ≠ cluster → fget 0 t.tlstat c = fget 0 s.tlstat c) := by
  refine ⟨_, exec_torusLinkStop_named hc hl, rfl, fun b => ?_, fun c hne => ?_⟩
  · have written : fget 0 (fset 0 s.tlstat cluster (fget 0 s.tlstat cluster ||| (1#32 <<< link))) cluster =
        fget 0 s.tlstat cluster ||| (1#32 <<< link) := (fget_fset _ _ _ _ _).trans (if_pos rfl)
    exact (congrArg (fun x => BitVec.getLsbD x b) written).trans (getLsbD_or_one_shiftLeft _ hl b)
  · exact (fget_fset _ _ _ _ _).trans (if_neg hne)

/-! ## Stall counters -/

/-- Stall counters that were settled at this ck have nothing to add. -/
theorem State.scntVal_of_cleared {s : State} {c : Nat} (now : (s.core c).scAt = s.clock) (zero : (s.core c).scnt = []) (slot code : Nat) :
    s.scntVal c slot code = 0 := by
  have idle : (if (s.core c).scEn && (s.core c).power == .active then s.clock - (s.core c).scAt else 0) = 0 := by
    rw [now, Nat.sub_self, ite_self]
  simp only [State.scntVal, State.settleScnt, idle, if_true, State.core_modCore, zero]
  rfl

theorem State.core_settleScnt (s : State) (c d : Nat) : ∃ f w, (s.settleScnt c).core d =
    if d = c then { s.core c with scnt := f, scAt := s.clock, scWrap := w } else s.core d :=
  ⟨_, _, State.core_modCore _ _ _ _⟩

/-- Clearing settles the counters and then zeroes them. -/
theorem State.core_clearScnt (s : State) (c d : Nat) : ∃ w, (s.clearScnt c).core d =
    if d = c then { s.core c with scnt := [], scAt := s.clock, scWrap := w } else s.core d := by
  obtain ⟨f, w, settled⟩ := s.core_settleScnt c c
  obtain ⟨f', w', kept⟩ := s.core_settleScnt c d
  refine ⟨w, ?_⟩
  rw [State.clearScnt, State.core_modCore, settled, kept, if_pos rfl]
  split_ifs <;> rfl

theorem gives_scctlClear (s : State) : Gives .scctlClear s (fun t => Claims.CoreOnly s t s.sel { s.core s.sel with
    scnt := [], scAt := (t.core s.sel).scAt, scWrap := (t.core s.sel).scWrap } ∧ ∀ slot code, t.scntVal s.sel slot code = 0) := by
  refine ⟨s.clearScnt s.sel, rfl, ?_⟩
  obtain ⟨w, cleared⟩ := s.core_clearScnt s.sel s.sel
  rw [if_pos rfl] at cleared
  refine ⟨⟨rfl, ?_, fun d hd => ?_⟩, State.scntVal_of_cleared ?_ ?_⟩
  · rw [cleared]
  · obtain ⟨_, kept⟩ := s.core_clearScnt s.sel d
    rw [kept, if_neg hd]
  · rw [cleared]; rfl
  · rw [cleared]

theorem exec_tlbsdShootdown_named {s : State} {die : Nat} (hd : die < 4) (v : Word) :
    exec (.tlbsdShootdown die v) s = .next (s.writeTlbsd die v) := if_neg (Nat.not_le.2 hd)

/-! ## The statement -/

/-- Settles O45: a fetch of a line leaves the TLBs and the walks alone (`State.tables_fetchLine`), and a shootdown strikes what its
registers name (`tlbStruck_iff_named`). -/
theorem memorySystemEvents : Obligations.MemorySystemEvents := by
  intro die page line cluster link pa rs1 v w unc l s u d q n la home va dropped
  refine ⟨fun hm => State.gives_illegal (exec_lrel_illegal rs1 hm), fun hm e at_ => ⟨_, exec_lrel_faults hm at_, rfl⟩,
    fun hm at_ here => ?_, fun hm at_ there => ?_, fun found => ?_, fun hd done => ?_, fun hd busy => ?_, fun busy => ?_, fun done => ?_,
    fun unbound => ⟨_, exec_notify_unbound unbound, s.notifyDrop_spec die page⟩, fun bound refused => ?_, fun bound open_ read => ?_,
    fun here => gives_hbmEccEvent unc here, fun there => ?_, ?_, ?_, ⟨_, rfl, rfl⟩, gives_torusLinkStop, gives_scctlClear s⟩
  case refine_1 =>
    refine ⟨_, exec_lrel_reached hm at_, ?_⟩
    rw [if_pos here]
    refine ⟨rfl, ?_, fun x hx => ?_⟩
    · exact (u.isLost_unlose _ _).trans (by simp)
    · exact (u.isLost_unlose _ _).trans (by simp [hx])
  case refine_2 =>
    refine ⟨_, exec_lrel_reached hm at_, ?_⟩
    rw [if_neg there]
    rfl
  case refine_3 =>
    refine ⟨rfl, rfl, rfl, rfl, rfl, fun e failed => ⟨_, exec_pageWalkComplete_error found failed, rfl⟩, fun x ended => ?_⟩
    exact ⟨_, exec_pageWalkComplete_ok found ended, u.walkFills_spec w x (s.hartOf_gid _)⟩
  case refine_4 =>
    refine ⟨_, exec_tlbsdShootdown_named hd v, ?_⟩
    obtain ⟨frame, others, regs, still, begun⟩ := s.writeTlbsd_spec die v
    rw [State.strikeFirst, if_pos done] at frame others regs still begun
    rw [done, Bool.true_and] at regs
    exact ⟨frame, others, regs, still, begun⟩
  case refine_5 =>
    refine ⟨_, exec_tlbsdShootdown_named hd v, ?_⟩
    obtain ⟨frame, -, regs, -, -⟩ := s.writeTlbsd_spec die v
    rw [State.strikeFirst, if_neg (by rw [busy]; exact nofun)] at frame regs
    have kept : (s.strike die).die die = d := rfl
    rw [kept, busy, Bool.false_and] at regs
    refine ⟨fun e => ?_, fun e => ?_, regs⟩
    · rw [frame]; exact s.mem_tlb_strike die e
    · rw [frame]; exact s.mem_walkc_strike die e
  case refine_6 =>
    refine ⟨_, if_neg (by rw [busy]; exact nofun), rfl, ⟨rfl, fun e he => State.die_modDie_ne _ _ he⟩, State.die_modDie_self _ _ _,
      s.mem_tlb_strike _, s.mem_walkc_strike _⟩
  case refine_7 => exact ⟨_, if_pos done, rfl⟩
  case refine_8 =>
    refine ⟨_, exec_notify_refused bound refused, s.mem_postFault (s.homeDie (paLow pa)) 6 pa, ?_⟩
    obtain ⟨-, counted⟩ := (s.postFault (s.homeDie (paLow pa)) 6 pa).notifyDrop_spec die page
    rwa [State.nperr_postFault] at counted
  case refine_9 =>
    refine ⟨fun bad => ⟨_, exec_notify_corrupt bound open_ read bad, _, State.notifyDrop_spec _ die page, rfl⟩,
      fun sound live => ⟨fun low high => ?_, fun out => ?_⟩⟩
    · exact ⟨_, exec_notify_sound bound open_ read sound live, if_pos ⟨low, high⟩⟩
    · refine ⟨_, exec_notify_sound bound open_ read sound live, ?_⟩
      rw [if_neg fun ⟨low, high⟩ => out.elim (Nat.not_lt.2 low) (Nat.not_lt.2 high)]
      exact u.notifyDrop_spec die page
  case refine_10 => exact ⟨_, if_pos (by simpa using there), rfl⟩
  case refine_11 => exact ⟨_, rfl, ⟨rfl, fun e he => State.die_modDie_ne _ _ he⟩, State.die_modDie_self _ _ _⟩
  case refine_12 =>
    refine ⟨_, rfl, rfl, fun room => ?_, fun full => ?_⟩
    · exact if_neg (Nat.not_le.2 room)
    · exact if_pos full

end Sys2Proof.Machine
end

section
/-! SUPPORT. Hart records (R366): what each doubleword of a record holds, and the hart that it gives back. -/
namespace Sys2Proof.Machine
open Sys2Proof.Safety

/-! ## Doublewords at consecutive places -/

theorem fget_blk (f : File Word) (at_ : Nat) (l : List Word) (i : Nat) :
    fget 0 (blk f at_ l) i = if at_ ≤ i ∧ i < at_ + l.length then l.getD (i - at_) 0 else fget 0 f i := by
  induction l generalizing f at_ with
  | nil => rw [blk, if_neg (by simp)]
  | cons w r ih =>
    rw [blk, ih, fget_fset, List.length_cons]
    rcases Nat.lt_trichotomy i at_ with lt | rfl | gt
    · rw [if_neg (by omega), if_neg (by omega), if_neg (by omega)]
    · rw [if_neg (by omega), if_pos rfl, if_pos (by omega), Nat.sub_self]
      rfl
    · have shift : i - at_ = (i - (at_ + 1)) + 1 := by omega
      by_cases hi : i < at_ + 1 + r.length
      · rw [if_pos (by omega), if_pos (by omega), shift, List.getD_cons_succ]
      · rw [if_neg (by omega), if_neg (by omega), if_neg (by omega)]

/-- What stands before a block. -/
theorem fget_blk_before (f : File Word) {at_ i : Nat} (l : List Word) (hi : i < at_) : fget 0 (blk f at_ l) i = fget 0 f i := by
  rw [fget_blk, if_neg (by omega)]

/-- What stands in a block. -/
theorem fget_blk_within (f : File Word) (at_ : Nat) {l : List Word} {k : Nat} (hk : k < l.length) :
    fget 0 (blk f at_ l) (at_ + k) = l.getD k 0 := by
  rw [fget_blk, if_pos (by omega), Nat.add_sub_cancel_left]

/-- What stands behind a block. -/
theorem fget_blk_behind (f : File Word) {at_ i : Nat} (l : List Word) (hi : at_ + l.length ≤ i) :
    fget 0 (blk f at_ l) i = fget 0 f i := by
  rw [fget_blk, if_neg (by omega)]

theorem getD_map_range (f : Nat → Word) {n k : Nat} (hk : k < n) : ((List.range n).map f).getD k 0 = f k := by
  simp [List.getD_eq_getElem?_getD, hk]

/-- A block of computed doublewords. -/
theorem fget_blk_range (f : File Word) (at_ : Nat) (g : Nat → Word) {n k : Nat} (hk : k < n) :
    fget 0 (blk f at_ ((List.range n).map g)) (at_ + k) = g k := by
  rw [fget_blk_within _ _ (by simpa using hk), getD_map_range g hk]

/-! ## The parts of a record -/

/-- Doublewords 64 to 89 of a record: the CSRs and the custom registers. -/
def State.recordRegs (s : State) (h : Hart) : List Word :=
  let c := h.csr
  [BitVec.ofNat 64 (c.fflags.toNat + 32 * c.frm.toNat), h.mstatusVal &&& sstatusR, c.sepc, c.scause, c.stval,
    c.sscratch, c.mie &&& c.mideleg, ({ s with hart := h } : State).mipVal &&& c.mideleg, c.stimecmp, c.sxcause, h.lfault.setWidth 64,
    h.lcomp, h.lfrec, c.mepc, c.mcause, c.mtval, c.mscratch, c.mxcause, h.srctr, h.srseed, BitVec.ofNat 64 h.srhid, h.uivec, h.uiepc,
    h.uicause, h.uiid, ({ s with hart := h } : State).uistatVal]

/-- Doublewords 98 to 105: wrap-up, the allocation, the counters, and the masks. -/
def State.recordWords (s : State) (h : Hart) : List Word :=
  [h.wpc, h.wcause, BitVec.ofNat 64 h.lalloc, h.acntVal, BitVec.ofNat 64 (nextId h.nextXfer),
    BitVec.ofNat 64 (({ s with hart := h } : State).hq h.gid), hartWord h, BitVec.ofNat 64 (h.live.toNat * 2 ^ 32 + (h.getM 0).toNat)]

/-- The doublewords of a record below the mask stack. -/
def State.recordLow (s : State) (h : Hart) : File Word :=
  let f := blk [] 0 (h.pc :: (List.range 31).map (fun k => fget 0 h.x (k + 1)))
  let f := blk f 32 ((List.range 32).map (fun k => fget 0 h.f k))
  let f := blk f 64 (s.recordRegs h)
  let f := blk f 90 [h.lpcnt0, h.lpbeg0, h.lpend0, h.lpxe0, h.lpcnt1, h.lpbeg1, h.lpend1, h.lpxe1]
  let f := blk f 98 (s.recordWords h)
  let f := blk f 106 ((List.range 15).map (fun k => (h.getM (BitVec.ofNat 4 (k + 1))).setWidth 64))
  blk f 121 [BitVec.ofNat 64 h.mstk.length, h.barpend, h.barpc]

/-- The mask stack and the stream slots of a record, over a file. -/
def Hart.recordStreams (h : Hart) (f : File Word) : File Word :=
  (List.range 4).foldl (fun f k =>
    let t := h.slot k
    blk f (224 + 16 * k) (if t.bound then t.desc ++ [BitVec.ofNat 64 t.pos, 1] else [])) (blk f 128 (h.mstk.flatMap MaskEntry.words))

/-- The mailboxes of a record and the shadow bank, over a file. -/
def Hart.recordBoxes (h : Hart) (f : File Word) : File Word :=
  blk (blk f 288 ((List.range 32).map (fun k => fget 0 h.mbox k))) 320 (h.mbpres.setWidth 64 :: bankRegs.map (fun r => fget 0 h.shadow r))

/-- The events of a record and the barrier state, over a file. -/
def State.recordEvents (s : State) (h : Hart) (f : File Word) : File Word :=
  blk (blk f 336 (h.uiq.flatMap (fun e => [BitVec.ofNat 64 e.cause, e.ident, e.handler]))) 384
    (dwords 11 (s.barBytes h ++ List.replicate 7 0))

/-- Doublewords 416 to 432: the state of the privileged modes. -/
def State.recordSystem (s : State) (h : Hart) : List Word :=
  let c := h.csr
  [c.satp, c.stvec, c.scounteren, c.senvcfg, h.mstatusVal, c.mtvec, c.medeleg, c.mideleg, c.mie, ({ s with hart := h } : State).mipVal,
    c.mcounteren, c.menvcfg, c.mcountinhibit, ({ s with hart := h } : State).cycleVal, c.minstret, pmpcfgVal h 0, pmpcfgVal h 1]

/-- What stands behind them. -/
def Hart.recordTail (h : Hart) (f : File Word) : File Word :=
  let f := blk f 433 ((List.range 16).map (fun i => fget 0 h.csr.pmpaddr i))
  let f := blk f 449 (BitVec.ofNat 64 h.csr.tselect :: (List.range 4).flatMap (fun k =>
    let t := fget Trigger.fresh h.csr.trig k
    [t.tdata1, t.tdata2, t.tdata3]))
  blk f 462 [h.csr.mcontext, h.csr.scontext]

theorem State.record_eq (s : State) (h : Hart) : s.record h =
    h.recordTail (blk (s.recordEvents h (h.recordBoxes (h.recordStreams (s.recordLow h)))) 416 (s.recordSystem h)) := rfl

theorem Hart.fget_recordTail (h : Hart) (f : File Word) {i : Nat} (hi : i < 433) : fget 0 (h.recordTail f) i = fget 0 f i := by
  unfold Hart.recordTail
  rw [fget_blk_before _ _ (by omega), fget_blk_before _ _ (by omega), fget_blk_before _ _ hi]

theorem State.fget_recordEvents (s : State) (h : Hart) (f : File Word) {i : Nat} (hi : i < 336) :
    fget 0 (s.recordEvents h f) i = fget 0 f i := by
  unfold State.recordEvents
  rw [fget_blk_before _ _ (by omega), fget_blk_before _ _ hi]

theorem Hart.fget_recordStreams (h : Hart) (f : File Word) {i : Nat} (hi : i < 128) : fget 0 (h.recordStreams f) i = fget 0 f i := by
  unfold Hart.recordStreams
  refine (foldl_keeps (fun f => fget 0 f i) (fun f k => ?_) _ _).trans (fget_blk_before _ _ hi)
  exact fget_blk_before _ _ (by omega)

/-- The doublewords below the mask stack. -/
theorem State.fget_record_low (s : State) (h : Hart) {i : Nat} (hi : i < 128) : fget 0 (s.record h) i = fget 0 (s.recordLow h) i := by
  rw [State.record_eq, Hart.fget_recordTail _ _ (by omega), fget_blk_before _ _ (by omega), State.fget_recordEvents _ _ _ (by omega),
    Hart.recordBoxes, fget_blk_before _ _ (by omega), fget_blk_before _ _ (by omega), Hart.fget_recordStreams _ _ hi]

theorem State.fget_record_mbox (s : State) (h : Hart) {k : Nat} (hk : k < 32) : fget 0 (s.record h) (288 + k) = fget 0 h.mbox k := by
  rw [State.record_eq, Hart.fget_recordTail _ _ (by omega), fget_blk_before _ _ (by omega), State.fget_recordEvents _ _ _ (by omega),
    Hart.recordBoxes, fget_blk_before _ _ (by omega), fget_blk_range _ _ _ hk]

theorem State.fget_record_mbpres (s : State) (h : Hart) : fget 0 (s.record h) 320 = h.mbpres.setWidth 64 := by
  rw [State.record_eq, Hart.fget_recordTail _ _ (by omega), fget_blk_before _ _ (by omega), State.fget_recordEvents _ _ _ (by omega)]
  exact fget_blk_within _ 320 (k := 0) (by simp)

theorem State.fget_record_system (s : State) (h : Hart) {k : Nat} (hk : k < 17) :
    fget 0 (s.record h) (416 + k) = (s.recordSystem h).getD k 0 := by
  rw [State.record_eq, Hart.fget_recordTail _ _ (by omega)]
  exact fget_blk_within _ _ hk

/-! ## The doublewords below the mask stack -/

section
variable (s : State) (h : Hart) {k : Nat}

theorem State.fget_record_pc : fget 0 (s.record h) 0 = h.pc := by
  rw [State.fget_record_low _ _ (by omega), State.recordLow, fget_blk_before _ _ (by omega), fget_blk_before _ _ (by omega),
    fget_blk_before _ _ (by omega), fget_blk_before _ _ (by omega), fget_blk_before _ _ (by omega), fget_blk_before _ _ (by omega)]
  exact fget_blk_within _ 0 (k := 0) (by simp)

theorem State.fget_record_x (hk : k < 31) : fget 0 (s.record h) (k + 1) = fget 0 h.x (k + 1) := by
  rw [State.fget_record_low _ _ (by omega), State.recordLow, fget_blk_before _ _ (by omega), fget_blk_before _ _ (by omega),
    fget_blk_before _ _ (by omega), fget_blk_before _ _ (by omega), fget_blk_before _ _ (by omega), fget_blk_before _ _ (by omega)]
  have here := fget_blk_within [] 0 (l := h.pc :: (List.range 31).map (fun k => fget 0 h.x (k + 1))) (k := k + 1)
    (by rw [List.length_cons, List.length_map, List.length_range]; omega)
  rw [Nat.zero_add, List.getD_cons_succ, getD_map_range _ hk] at here
  exact here

theorem State.fget_record_f (hk : k < 32) : fget 0 (s.record h) (32 + k) = fget 0 h.f k := by
  rw [State.fget_record_low _ _ (by omega), State.recordLow, fget_blk_before _ _ (by omega), fget_blk_before _ _ (by omega),
    fget_blk_before _ _ (by omega), fget_blk_before _ _ (by omega), fget_blk_before _ _ (by omega), fget_blk_range _ _ _ hk]

theorem State.fget_record_regs (hk : k < 26) : fget 0 (s.record h) (64 + k) = (s.recordRegs h).getD k 0 := by
  rw [State.fget_record_low _ _ (by omega), State.recordLow, fget_blk_before _ _ (by omega), fget_blk_before _ _ (by omega),
    fget_blk_before _ _ (by omega), fget_blk_before _ _ (by omega)]
  exact fget_blk_within _ _ hk

theorem State.fget_record_loops (hk : k < 8) : fget 0 (s.record h) (90 + k) =
    [h.lpcnt0, h.lpbeg0, h.lpend0, h.lpxe0, h.lpcnt1, h.lpbeg1, h.lpend1, h.lpxe1].getD k 0 := by
  rw [State.fget_record_low _ _ (by omega), State.recordLow, fget_blk_before _ _ (by omega), fget_blk_before _ _ (by omega),
    fget_blk_before _ _ (by omega)]
  exact fget_blk_within _ _ hk

theorem State.fget_record_words (hk : k < 8) : fget 0 (s.record h) (98 + k) = (s.recordWords h).getD k 0 := by
  rw [State.fget_record_low _ _ (by omega), State.recordLow, fget_blk_before _ _ (by omega), fget_blk_before _ _ (by omega)]
  exact fget_blk_within _ _ hk

theorem State.fget_record_masks (hk : k < 15) : fget 0 (s.record h) (106 + k) = (h.getM (BitVec.ofNat 4 (k + 1))).setWidth 64 := by
  rw [State.fget_record_low _ _ (by omega), State.recordLow, fget_blk_before _ _ (by omega), fget_blk_range _ _ _ hk]

theorem State.fget_record_bars (hk : k < 3) : fget 0 (s.record h) (121 + k) =
    [BitVec.ofNat 64 h.mstk.length, h.barpend, h.barpc].getD k 0 := by
  rw [State.fget_record_low _ _ (by omega), State.recordLow]
  exact fget_blk_within _ _ hk

end

/-! ## The registers that a record gives back -/

/-- A file that is written from 1 on. -/
theorem fget_foldl_fset_succ (g : Nat → Mask) (f : File Mask) (n i : Nat) :
    fget 0 ((List.range n).foldl (fun f k => fset 0 f (k + 1) (g k)) f) i = if 1 ≤ i ∧ i ≤ n then g (i - 1) else fget 0 f i := by
  induction n with
  | zero => rw [if_neg (by omega)]; rfl
  | succ n ih =>
    rw [List.range_succ, List.foldl_append, List.foldl_cons, List.foldl_nil, fget_fset, ih]
    by_cases here : i = n + 1
    · rw [if_pos here, if_pos (by omega), here, Nat.add_sub_cancel]
    · rw [if_neg here]
      by_cases low : 1 ≤ i ∧ i ≤ n
      · rw [if_pos low, if_pos (by omega)]
      · rw [if_neg low, if_neg (by omega)]

/-- Two masks that share a doubleword. -/
theorem setWidth_masks (a b : Mask) : (BitVec.ofNat 64 (a.toNat * 2 ^ 32 + b.toNat)).setWidth 32 = b ∧
    (BitVec.ofNat 64 (a.toNat * 2 ^ 32 + b.toNat) >>> 32).setWidth 32 = a := by
  have ha := a.isLt
  have hb := b.isLt
  constructor
  · apply BitVec.eq_of_toNat_eq
    simp only [BitVec.toNat_setWidth, BitVec.toNat_ofNat]
    omega
  · apply BitVec.eq_of_toNat_eq
    simp only [BitVec.toNat_setWidth, BitVec.toNat_ofNat, BitVec.toNat_ushiftRight, Nat.shiftRight_eq_div_pow]
    omega

theorem setWidth_mask (a : Mask) : (a.setWidth 64).setWidth 32 = a := by
  have ha := a.isLt
  apply BitVec.eq_of_toNat_eq
  simp only [BitVec.toNat_setWidth]
  omega

theorem nextId_pred (n : Nat) : nextId ((BitVec.ofNat 64 (nextId n)).toNat - 1) = nextId n := by
  simp only [BitVec.toNat_ofNat]
  unfold nextId
  split_ifs <;> omega

section
variable (s : State) (g k : Hart) (clk : Nat)

/-- The hart that a record of `g` gives, over a hart `k`. -/
def State.revived (s : State) (g k : Hart) (clk : Nat) : Hart := k.ofRecord (fun n => fget 0 (s.record g) n) clk

theorem State.revived_x {i : Nat} (h1 : 1 ≤ i) (hi : i < 32) : fget 0 (s.revived g k clk).x i = fget 0 g.x i := by
  obtain ⟨j, rfl⟩ := Nat.exists_eq_add_of_le h1
  exact (fget_blk_range _ _ _ (by omega)).trans ((s.fget_record_x g (by omega)).trans (by rw [Nat.add_comm]))

theorem State.revived_f {i : Nat} (hi : i < 32) : fget 0 (s.revived g k clk).f i = fget 0 g.f i := by
  have here := fget_blk_range [] 0 (fun k => fget 0 (s.record g) (32 + k)) hi
  rw [Nat.zero_add] at here
  exact here.trans (s.fget_record_f g hi)

theorem State.revived_mbox {i : Nat} (hi : i < 32) : fget 0 (s.revived g k clk).mbox i = fget 0 g.mbox i := by
  have here := fget_blk_range [] 0 (fun k => fget 0 (s.record g) (288 + k)) hi
  rw [Nat.zero_add] at here
  exact here.trans (s.fget_record_mbox g hi)

/-- Doubleword 105 of a record holds the live mask and m0. -/
theorem State.fget_record_live : fget 0 (s.record g) 105 = BitVec.ofNat 64 (g.live.toNat * 2 ^ 32 + (g.getM 0).toNat) :=
  s.fget_record_words g (k := 7) (by omega)

theorem State.revived_m {i : Nat} (hi : i < 16) : fget 0 (s.revived g k clk).m i = fget 0 g.m i := by
  have file := fget_foldl_fset_succ (fun j => (fget 0 (s.record g) (106 + j)).setWidth 32)
    (fset 0 [] 0 ((fget 0 (s.record g) 105).setWidth 32)) 15 i
  refine file.trans ?_
  by_cases h0 : i = 0
  · subst h0
    rw [if_neg (by omega), fget_fset, if_pos rfl, s.fget_record_live, (setWidth_masks _ _).1]
    rfl
  · obtain ⟨j, rfl⟩ : ∃ j, i = j + 1 := ⟨i - 1, by omega⟩
    rw [if_pos (by omega), Nat.add_sub_cancel, s.fget_record_masks g (by omega), setWidth_mask, Hart.getM, BitVec.toNat_ofNat,
      Nat.mod_eq_of_lt hi]

/-- Bit 5 of mip is kept where no timer sets it. -/
theorem State.revived_mip (still : wbit g.csr.menvcfg 63 = false) : wbit (s.revived g k clk).csr.mip 5 = wbit g.csr.mip 5 := by
  have menv : fget 0 (s.record g) 427 = g.csr.menvcfg := s.fget_record_system g (k := 11) (by omega)
  have mip : fget 0 (s.record g) 425 = ({ s with hart := g } : State).mipVal := s.fget_record_system g (k := 9) (by omega)
  have held : ({ s with hart := g } : State).mipVal = g.csr.mip := if_neg (by rw [still]; exact nofun)
  have word : (s.revived g k clk).csr.mip = maskWrite (fget 0 (s.record g) 423 &&& 0x30002#64)
      (wputb (fget 0 (s.record g) 425) 5 (wbit (if wbit (fget 0 (s.record g) 427) 63 then k.csr.mip else fget 0 (s.record g) 425) 5))
      (fget 0 (s.record g) 71) := rfl
  have bit : (0x30002#64).getLsbD 5 = false := by decide
  rw [word, menv, mip, held, still]
  simp only [wbit, maskWrite, BitVec.getLsbD_or, BitVec.getLsbD_and, BitVec.getLsbD_not, bit, getLsbD_wputb _ (show 5 < 64 by omega)]
  simp

end

theorem recordGivesBack (s : State) (g k : Hart) (clk : Nat) : Claims.recordGivesBack s g k clk := by
  intro fits
  have regs {i : Nat} (hi : i < 26) := s.fget_record_regs g hi
  have loops {i : Nat} (hi : i < 8) := s.fget_record_loops g hi
  have words {i : Nat} (hi : i < 8) := s.fget_record_words g hi
  have bars {i : Nat} (hi : i < 3) := s.fget_record_bars g hi
  refine ⟨s.fget_record_pc g, fun i => s.revived_x g k clk, fun i => s.revived_f g k clk, fun i => s.revived_m g k clk,
    fun i => s.revived_mbox g k clk, ?live, ?lalloc, loops (i := 0) (by omega), loops (i := 1) (by omega), loops (i := 2) (by omega),
    loops (i := 3) (by omega), loops (i := 4) (by omega), loops (i := 5) (by omega), loops (i := 6) (by omega), loops (i := 7) (by omega),
    regs (i := 2) (by omega), regs (i := 3) (by omega), regs (i := 4) (by omega), regs (i := 5) (by omega), regs (i := 8) (by omega),
    regs (i := 13) (by omega), regs (i := 14) (by omega), regs (i := 15) (by omega), regs (i := 16) (by omega), ?lfault,
    regs (i := 11) (by omega), regs (i := 12) (by omega), regs (i := 18) (by omega), regs (i := 19) (by omega), regs (i := 21) (by omega),
    regs (i := 22) (by omega), regs (i := 23) (by omega), regs (i := 24) (by omega), words (i := 0) (by omega), words (i := 1) (by omega),
    ?mbpres, bars (i := 1) (by omega), bars (i := 2) (by omega), ?next, s.revived_mip g k clk, rfl, rfl, rfl⟩
  case live => exact (congrArg (fun w : Word => (w >>> 32).setWidth 32) (s.fget_record_live g)).trans (setWidth_masks _ _).2
  case lalloc =>
    refine (congrArg BitVec.toNat (words (i := 2) (by omega))).trans ?_
    exact (BitVec.toNat_ofNat _ _).trans (Nat.mod_eq_of_lt fits)
  case lfault => exact (congrArg (BitVec.setWidth 32) (regs (i := 10) (by omega))).trans (setWidth_mask _)
  case mbpres => exact (congrArg (BitVec.setWidth 32) (s.fget_record_mbpres g)).trans (setWidth_mask _)
  case next =>
    refine (congrArg (fun w : Word => nextId (w.toNat - 1)) (words (i := 4) (by omega))).trans ?_
    exact nextId_pred _

end Sys2Proof.Machine
end

section
/-! SUPPORT. Which teams are evicted together, and how they run on where their save does not take place (R356, R364, R367). -/
namespace Sys2Proof.Machine
open Sys2Proof.Safety

/-! ## Teams that run on -/

/-- A team `y` that was `x` before: the same team on the same core and share; it still runs if it ran, and no divert has become due. -/
structure Team.RunsOn (x y : Team) : Prop where
  id_eq : y.id = x.id
  core_eq : y.core = x.core
  share_eq : y.share = x.share
  running : x.phase = .running → y.phase = .running
  divert : y.forDivert = true → x.forDivert = true

theorem Team.RunsOn.refl (x : Team) : x.RunsOn x := ⟨rfl, rfl, rfl, fun h => h, fun h => h⟩

theorem Team.RunsOn.trans {x y z : Team} (h : x.RunsOn y) (k : y.RunsOn z) : x.RunsOn z :=
  ⟨k.id_eq.trans h.id_eq, k.core_eq.trans h.core_eq, k.share_eq.trans h.share_eq, k.running ∘ h.running, h.divert ∘ k.divert⟩

/-- Between two states every team runs on. -/
def State.TeamsRunOn (s t : State) : Prop :=
  ∃ f : Team → Team, (∀ x : Team, x.RunsOn (f x)) ∧ t.teams = s.teams.map f

theorem State.TeamsRunOn.of_teams {s t : State} (h : t.teams = s.teams) : s.TeamsRunOn t :=
  ⟨fun x => x, Team.RunsOn.refl, by rw [h, List.map_id']⟩

theorem State.TeamsRunOn.trans {s t u : State} (h : s.TeamsRunOn t) (k : t.TeamsRunOn u) : s.TeamsRunOn u := by
  obtain ⟨f, hf, ht⟩ := h
  obtain ⟨f', hf', hu⟩ := k
  exact ⟨f' ∘ f, fun x => (hf x).trans (hf' (f x)), by rw [hu, ht, List.map_map]⟩

theorem State.TeamsRunOn.foldl {β : Type} {f : State → β → State} (hf : ∀ (s : State) (b : β), s.TeamsRunOn (f s b)) (l : List β)
    (s : State) : s.TeamsRunOn (l.foldl f s) := by
  induction l generalizing s with
  | nil => exact .of_teams rfl
  | cons b r ih => exact (hf s b).trans (ih _)

/-- Each team of the later state was a team before. -/
theorem State.TeamsRunOn.exists_of_mem {s t : State} (h : s.TeamsRunOn t) {z : Team} (hz : z ∈ t.teams) : ∃ x ∈ s.teams, x.RunsOn z := by
  obtain ⟨f, hf, ht⟩ := h
  obtain ⟨x, hx, rfl⟩ := List.mem_map.1 (ht ▸ hz)
  exact ⟨x, hx, hf x⟩

/-- Each team number names the team that runs on. -/
theorem State.TeamsRunOn.team {s t : State} (h : s.TeamsRunOn t) (n : Nat) : (s.team n).RunsOn (t.team n) := by
  obtain ⟨f, hf, ht⟩ := h
  have same : ((fun x : Team => x.id == n) ∘ f) = fun x => x.id == n := funext fun x => congrArg (· == n) (hf x).id_eq
  rw [State.team, State.team, ht, List.find?_map, same]
  cases s.teams.find? (fun x => x.id == n) with
  | none => exact Team.RunsOn.refl _
  | some x => exact hf x

theorem State.teamsRunOn_modTeam (s : State) (n : Nat) {f : Team → Team} (hf : ∀ x : Team, x.RunsOn (f x)) : s.TeamsRunOn (s.modTeam n f) := by
  refine ⟨fun x => if x.id = n then f x else x, fun x => ?_, rfl⟩
  dsimp only
  split_ifs
  · exact hf x
  · exact .refl x

theorem State.teams_putHart (s : State) (h : Hart) : (s.putHart h).teams = s.teams := by rw [State.putHart_eq]

theorem State.teams_modHart (s : State) (g : Nat) (f : Hart → Hart) : (s.modHart g f).teams = s.teams := s.teams_putHart _

theorem State.teamsRunOn_stopSave (s : State) (n : Nat) : s.TeamsRunOn (s.stopSave n) := by
  refine ⟨fun x => if x.phase == .evicting && (x.id == n || (x.launch == (s.team n).launch && (s.launch (s.team n).launch).coRes))
    then { x with phase := .running } else x, fun x => ?_, rfl⟩
  dsimp only
  split_ifs
  · exact ⟨rfl, rfl, rfl, fun _ => rfl, id⟩
  · exact .refl x

theorem State.teamsRunOn_bornInWrap (s : State) (g n : Nat) : s.TeamsRunOn (s.bornInWrap g n) := by
  unfold State.bornInWrap
  split_ifs
  · exact (State.TeamsRunOn.of_teams (s.teams_modHart _ _)).trans (State.teamsRunOn_modTeam _ _ fun x => ⟨rfl, rfl, rfl, id, id⟩)
  · exact .of_teams rfl

/-- A place from which its continuation has gone, with a new hart in it. -/
def State.contCreated (s : State) (g : Nat) (ev : ContEvent) : State :=
  let r := s.hartOf g
  ((((s.acquire g (contScope r ev)).orphan g).putHart (Hart.fresh g)).leaveDoms g (s.memberOf g)).createHart g r.team r.role r.num r.lalloc
    r.pc (r.getX 10) 0

theorem State.teams_contCreated (s : State) (g : Nat) (ev : ContEvent) : (s.contCreated g ev).teams = s.teams := by
  unfold State.contCreated State.createHart
  rw [State.teams_putHart, State.leaveDoms_keeps State.teams (fun _ _ => rfl), State.teams_putHart, State.acquire_eq]
  rfl

theorem State.startCont_eq (s : State) (g : Nat) (ev : ContEvent) (src : Nat) : s.startCont g ev src =
    if src = 0 then s.contCreated g ev
    else if src = 3 then (s.contCreated g ev).bornInWrap g (s.hartOf g).team
    else (((s.contCreated g ev).modHart g
      (fun h => h.enterWrap src ((s.contCreated g ev).launchOf (s.hartOf g).team).wrapEntry)).stopSave (s.hartOf g).team).modTeam
        (s.hartOf g).team (fun t => { t with wrapped := true }) := rfl

theorem State.teamsRunOn_startCont (s : State) (g : Nat) (ev : ContEvent) (src : Nat) : s.TeamsRunOn (s.startCont g ev src) := by
  have created : s.TeamsRunOn (s.contCreated g ev) := .of_teams (s.teams_contCreated g ev)
  rw [State.startCont_eq]
  split_ifs
  · exact created
  · exact created.trans (State.teamsRunOn_bornInWrap _ _ _)
  · exact created.trans (.trans (.of_teams (State.teams_modHart _ _ _))
      ((State.teamsRunOn_stopSave _ _).trans (State.teamsRunOn_modTeam _ _ fun x => ⟨rfl, rfl, rfl, id, id⟩)))

/-- Marking a team for its divert and starting its continuations leaves every team running that ran. -/
theorem State.teamsRunOn_divertTeam (s : State) (n rst : Nat) : s.TeamsRunOn (s.divertTeam n rst) := by
  unfold State.divertTeam
  dsimp only
  refine State.TeamsRunOn.trans (.of_teams ?_) (State.TeamsRunOn.foldl (fun u h => ?_) _ _)
  · exact foldl_keeps State.teams (fun u h => u.teams_modHart _ _) _ _
  · split
    · exact u.teamsRunOn_startCont _ _ _
    · exact .of_teams rfl

/-! ## Which teams, and when they have stopped -/

theorem State.evictable_spec {s : State} {x : Team} (h : s.evictable x = true) :
    x.phase = .running ∧ x.wrapped = false ∧ (s.saveRoom (s.launch x.launch).asid (s.imageBytes x)).isSome = true ∧
      ∃ z ∈ s.teams, z.killed = false ∧ ((z.phase = .waiting ∧ (s.launch z.launch).expired = false) ∨ z.phase = .evicted) ∧
        (s.launch x.launch).prio < s.waitPrio z := by
  simp only [State.evictable, State.wantsRoom, Bool.and_eq_true, Bool.or_eq_true, Bool.not_eq_true', beq_iff_eq, decide_eq_true_eq,
    List.any_eq_true] at h
  obtain ⟨⟨⟨⟨⟨⟨running, unwrapped⟩, -⟩, -⟩, room⟩, z, hz, ⟨alive, wants⟩, prio⟩, -⟩ := h
  exact ⟨running, unwrapped, room, z, hz, alive, wants, prio⟩

theorem State.mem_evictSet_of_coRes {s : State} {x : Team} (h : (s.launch x.launch).coRes = true) (z : Team) :
    z ∈ s.evictSet x ↔ z ∈ s.teams ∧ z.launch = x.launch ∧ z.phase = x.phase := by
  simp only [State.evictSet, h, if_true, List.mem_filter, Bool.and_eq_true, beq_iff_eq]

theorem State.evictSet_of_not_coRes {s : State} {x : Team} (h : (s.launch x.launch).coRes = false) : s.evictSet x = [x] := by
  rw [State.evictSet, h]
  rfl

theorem State.allStopped_iff (s : State) (x : Team) : s.allStopped x = true ↔
    (∀ h ∈ s.teamHarts x.id, h.mode = .u ∧ (h.run = .starting ∨ h.atBoundary = true) ∧ h.divertDue = none) ∧
      ∀ c ∈ s.teamCmds x.id, c.phase.waiting = true := by
  simp only [State.allStopped, Bool.and_eq_true, List.all_eq_true, Bool.or_eq_true, beq_iff_eq, Option.isNone_iff_eq_none, and_assoc]

/-! ## Phases of the teams -/

theorem State.phase_setPhases {s : State} {l : List Team} {p : TeamPhase} {z : Team} (hz : z ∈ (s.setPhases l p).teams)
    (named : ∃ e ∈ l, e.id = z.id) : z.phase = p := by
  obtain ⟨x, -, rfl⟩ := List.mem_map.1 hz
  have same : (if l.any (fun u => u.id == x.id) = true then { x with phase := p } else x).id = x.id := by split_ifs <;> rfl
  obtain ⟨e, he, hid⟩ := named
  have any : l.any (fun u => u.id == x.id) = true := List.any_eq_true.2 ⟨e, he, beq_iff_eq.2 (hid.trans same)⟩
  exact congrArg Team.phase (if_pos any)

/-- A team that is not named is as it was. -/
theorem State.team_setPhases (s : State) {l : List Team} (p : TeamPhase) {n : Nat} (other : ∀ z ∈ l, z.id ≠ n) :
    (s.setPhases l p).team n = s.team n := by
  have same : ((fun x : Team => x.id == n) ∘ fun x => if l.any (fun u => u.id == x.id) then { x with phase := p } else x) =
      fun x => x.id == n := by
    funext x
    dsimp only [Function.comp_apply]
    split_ifs <;> rfl
  rw [State.team, State.team, State.setPhases, List.find?_map, same]
  cases found : s.teams.find? (fun x => x.id == n) with
  | none => rfl
  | some x =>
    have hid : x.id = n := beq_iff_eq.1 (List.find?_some (p := fun x : Team => x.id == n) found)
    refine congrArg (fun o => o.getD Team.none) (congrArg some (if_neg fun any => ?_))
    obtain ⟨z, hz, e⟩ := List.any_eq_true.1 any
    exact other z hz ((beq_iff_eq.1 e).trans hid)

/-! ## Running on -/

/-- Teams whose save has not taken place run. -/
theorem State.phase_runOn {s : State} {l : List Team} {z : Team} (hz : z ∈ (s.runOn l).teams) (named : ∃ e ∈ l, e.id = z.id) :
    z.phase = .running := by
  have on : (s.setPhases l .running).TeamsRunOn (s.runOn l) := by
    refine State.TeamsRunOn.foldl (fun u e => ?_) _ _
    refine .trans (u.teamsRunOn_modTeam e.id fun x => ?_) (State.teamsRunOn_divertTeam _ _ _)
    exact ⟨rfl, rfl, rfl, id, nofun⟩
  obtain ⟨x, hx, run⟩ := on.exists_of_mem hz
  rw [run.id_eq] at named
  exact run.running (State.phase_setPhases hx named)

/-- Where no divert waits for the save, the teams' phases alone change. -/
theorem State.runOn_of_not_forDivert (s : State) {l : List Team} (none : ∀ e ∈ l, e.forDivert = false) :
    s.runOn l = s.setPhases l .running := by
  have nil : l.filter Team.forDivert = [] := List.filter_eq_nil_iff.2 fun e he => by rw [none e he]; exact nofun
  rw [State.runOn, nil]
  rfl

/-- A team that was to be diverted after its save is diverted now. -/
theorem State.runOn_singleton {s : State} {x : Team} (due : x.forDivert = true) :
    s.runOn [x] = ((s.setPhases [x] .running).modTeam x.id (fun x => { x with forDivert := false })).divertTeam x.id 0 := by
  rw [State.runOn, List.filter_cons_of_pos due]
  rfl

/-! ## The event -/

/-- The machine before a save: the queue requests of the harts whose condition has been met are served. -/
def State.served (s : State) (l : List Team) : State := (l.flatMap (fun z => (s.teamHarts z.id).map Hart.gid)).foldl State.qMeets s

section
variable {s : State}

theorem exec_preEmption_running (hp : (s.team s.sel).phase = .running) : exec .preEmption s =
    if (s.evictSet (s.team s.sel)).all (fun u => s.evictable u) then .next (s.setPhases (s.evictSet (s.team s.sel)) .evicting)
    else .next s := by
  show execPreEmption s = _
  simp only [execPreEmption, hp]

theorem exec_preEmption_evicting (hp : (s.team s.sel).phase = .evicting) : exec .preEmption s =
    let set := s.evictSet (s.team s.sel)
    if set.all (fun u => (s.served set).allStopped u) then .next (((s.served set).saveAll set).getD ((s.served set).runOn set))
    else .next (s.served set) := by
  show execPreEmption s = _
  simp only [execPreEmption, hp]
  rfl

theorem exec_preEmption_other (hr : (s.team s.sel).phase ≠ .running) (he : (s.team s.sel).phase ≠ .evicting) :
    exec .preEmption s = .next s := by
  show execPreEmption s = _
  cases hp : (s.team s.sel).phase with
  | running => exact absurd hp hr
  | evicting => exact absurd hp he
  | waiting => simp only [execPreEmption, hp]
  | evicted => simp only [execPreEmption, hp]
  | ended => simp only [execPreEmption, hp]

/-- The harts of evictable teams are asked to stop. -/
theorem preEmption_stops (hp : (s.team s.sel).phase = .running) (all : ∀ z ∈ s.evictSet (s.team s.sel), s.evictable z = true) :
    Gives .preEmption s (fun t => t = { s with teams := t.teams } ∧
      (∀ z ∈ t.teams, (∃ e ∈ s.evictSet (s.team s.sel), e.id = z.id) → z.phase = .evicting) ∧
      ∀ n, (∀ z ∈ s.evictSet (s.team s.sel), z.id ≠ n) → t.team n = s.team n) := by
  refine ⟨_, (exec_preEmption_running hp).trans (if_pos (List.all_eq_true.2 all)), rfl, fun z hz => ?_, fun n => ?_⟩
  · exact State.phase_setPhases hz
  · exact s.team_setPhases _

theorem preEmption_refused (hp : (s.team s.sel).phase = .running) (one : ∃ z ∈ s.evictSet (s.team s.sel), s.evictable z = false) :
    Gives .preEmption s (fun t => t = s) := by
  obtain ⟨z, hz, no⟩ := one
  refine ⟨s, (exec_preEmption_running hp).trans (if_neg fun all => ?_), rfl⟩
  exact absurd (List.all_eq_true.1 all z hz) (by rw [no]; exact nofun)

/-- A save waits until the harts of all the teams have stopped. -/
theorem preEmption_waits (hp : (s.team s.sel).phase = .evicting)
    (one : ∃ z ∈ s.evictSet (s.team s.sel), (s.served (s.evictSet (s.team s.sel))).allStopped z = false) :
    Gives .preEmption s (fun t => t = s.served (s.evictSet (s.team s.sel))) := by
  obtain ⟨z, hz, no⟩ := one
  refine ⟨_, (exec_preEmption_evicting hp).trans (if_neg fun all => ?_), rfl⟩
  exact absurd (List.all_eq_true.1 all z hz) (by rw [no]; exact nofun)

theorem exec_preEmption_stopped (hp : (s.team s.sel).phase = .evicting)
    (all : ∀ z ∈ s.evictSet (s.team s.sel), (s.served (s.evictSet (s.team s.sel))).allStopped z = true) :
    let set := s.evictSet (s.team s.sel)
    exec .preEmption s = .next (((s.served set).saveAll set).getD ((s.served set).runOn set)) :=
  (exec_preEmption_evicting hp).trans (if_pos (List.all_eq_true.2 all))

/-- Where the save area has lost its room, the teams run on. -/
theorem preEmption_runsOn (hp : (s.team s.sel).phase = .evicting)
    (all : ∀ z ∈ s.evictSet (s.team s.sel), (s.served (s.evictSet (s.team s.sel))).allStopped z = true)
    (none : (s.served (s.evictSet (s.team s.sel))).saveAll (s.evictSet (s.team s.sel)) = none) :
    let set := s.evictSet (s.team s.sel)
    let v := s.served set
    Gives .preEmption s (fun t =>
      (∀ z ∈ t.teams, (∃ e ∈ set, e.id = z.id) → z.phase = .running) ∧
      ((∀ e ∈ set, e.forDivert = false) → t = { v with teams := t.teams }) ∧
      (set = [s.team s.sel] → (s.team s.sel).forDivert = true →
        ∃ r : State, r = { v with teams := r.teams } ∧ t = r.divertTeam (s.team s.sel).id 0)) := by
  intro set v
  have runs : exec .preEmption s = .next (v.runOn set) :=
    (exec_preEmption_stopped hp all).trans (congrArg (fun o : Option State => Host.Outcome.next (o.getD (v.runOn set))) none)
  refine ⟨_, runs, fun z hz => State.phase_runOn hz, fun quiet => ?_, fun one due => ?_⟩
  · rw [State.runOn_of_not_forDivert _ quiet]
    rfl
  · rw [one, State.runOn_singleton due]
    exact ⟨_, rfl, rfl⟩

end

end Sys2Proof.Machine
end

section
/-! SUPPORT. The save of a team: its image, its places and its shares (R364, R365). -/
namespace Sys2Proof.Machine
open Sys2Proof.Safety

/-! ## The head of an image -/

/-- The first doubleword of what begins with a record. -/
theorem dwordOf_recordBytes_append (f : File Word) (l : List Byte) : dwordOf (recordBytes f ++ l) = fget 0 f 0 := by
  have first : recordBytes f ++ l =
      natBytes (fget 0 f 0).toNat 8 ++ (dwordBytes (((List.range 511).map Nat.succ).map (fun i => fget 0 f i)) ++ l) := by
    rw [recordBytes, List.range_succ_eq_map, List.map_cons, dwordBytes, List.flatMap_cons, List.append_assoc]
    rfl
  rw [first, dwordOf, List.take_left' (length_natBytes _ _), leNat_natBytes]
  apply BitVec.eq_of_toNat_eq
  have := (fget 0 f 0).isLt
  rw [BitVec.toNat_ofNat]
  omega

/-- The first doubleword of a team header: its magic number, its version, and how many harts it lists. -/
theorem State.fget_teamHeader_zero (s : State) (t : Team) (hs conts : List Hart) (size off n : Nat) :
    fget 0 (s.teamHeader t hs conts size off n) 0 = BitVec.ofNat 64 (0x53544A48 + 2 ^ 32 + hs.length * 2 ^ 48) := by
  refine (foldl_keeps (fun f => fget 0 f 0) (fun f h => ?_) _ _).trans ?_
  · split
    · exact fget_blk_before _ _ (by omega)
    · rfl
  · rw [fget_blk_before _ _ (by omega), fget_blk_before _ _ (by omega)]
    exact fget_blk_within _ 0 (k := 0) (by simp)

/-- An image begins with the header of its team. -/
theorem State.dwordOf_teamImage (s : State) (t : Team) : dwordOf (s.teamImage t) =
    BitVec.ofNat 64 (0x53544A48 + 2 ^ 32 + (byNum ((s.teamPlaces t.id).filter (fun h => h.run.isHart))).length * 2 ^ 48) := by
  unfold State.teamImage
  simp only [ImageParts.bytes, List.append_assoc]
  rw [dwordOf_recordBytes_append, State.fget_teamHeader_zero]

/-! ## The machine when the image is written, and after it -/

/-- A team's machine when its image is made: all its waits are withdrawn, its chunks have ended, and its issued events are performed. -/
def State.stoppedFor (s : State) (y : Team) : State :=
  ((s.teamHarts y.id).map Hart.gid).foldl State.settleHart
    ((((s.teamHarts y.id).map Hart.gid).foldl State.withdrawAt (s.drainLb y.core)).endChunks y.id)

/-- The image is written, and the commands and transfers of the team are gone. -/
def State.imageWritten (u : State) (y : Team) (off : Nat) : State :=
  let s := u.writeBytes .other (u.saveBase (u.launch y.launch).asid + off) (u.teamImage y)
  let s := (u.teamCmds y.id).foldl (fun s c => s.dropCmd y.core c) s
  { s with xfers := s.xfers.filter (fun e => e.team != y.id) }

/-- The places of the team are vacant as well. -/
def State.placesLeft (u : State) (y : Team) (off : Nat) : State :=
  (u.teamPlaces y.id).foldl (fun s h => s.goAway y.id h) (u.imageWritten y off)

/-- A team as its save leaves it. -/
def Team.evictedTo (x : Team) (off size : Nat) (away : List Hart) (cmds : List Cmd) (xfers : List Xfer) : Team :=
  { x with phase := .evicted, image := off, imageSize := size, away := away, awayCmds := cmds, awayXfers := xfers }

theorem Team.evictedTo_spec (x : Team) (off size : Nat) (away : List Hart) (cmds : List Cmd) (xfers : List Xfer) :
    let z := x.evictedTo off size away cmds xfers
    z.phase = .evicted ∧ z.image = off ∧ z.imageSize = size ∧ z.away = away ∧ z.awayCmds = cmds ∧ z.awayXfers = xfers :=
  ⟨rfl, rfl, rfl, rfl, rfl, rfl⟩

/-- The machine after the save. -/
def State.saved (u : State) (y : Team) (off : Nat) : State :=
  ((u.placesLeft y off).freeShare y).modTeam y.id (fun x =>
    x.evictedTo off (u.teamImage y).length (u.teamPlaces y.id) (u.teamCmds y.id) (u.xfers.filter (fun e => e.team == y.id)))

theorem State.saveTeam_eq (s : State) (y : Team) : s.saveTeam y =
    ((s.stoppedFor y).saveRoom ((s.stoppedFor y).launch y.launch).asid ((s.stoppedFor y).teamImage y).length).map
      (fun off => (s.stoppedFor y).saved y off) := rfl

/-! ## What a save leaves in memory -/

theorem State.mem_granted (s : State) (c : Nat) (l : List SemWho) : (s.granted c l).mem = s.mem := by
  induction l generalizing s with
  | nil => rfl
  | cons w r ih =>
    cases w with
    | hart g => exact (ih _).trans (s.mem_modHart _ _)
    | cmd u => exact ih _

theorem State.mem_dropCmd (s : State) (core : Nat) (c : Cmd) : (s.dropCmd core c).mem = s.mem := by
  unfold State.dropCmd
  dsimp only
  split_ifs
  · exact State.mem_granted _ _ _
  · rfl

theorem State.mem_goAway (s : State) (t : Nat) (h : Hart) : (s.goAway t h).mem = s.mem := State.mem_putHart _ _

theorem State.mem_freeShare (s : State) (y : Team) : (s.freeShare y).mem = s.mem := by
  unfold State.freeShare
  split_ifs <;> rfl

theorem State.mem_saved (u : State) (y : Team) (off : Nat) :
    (u.saved y off).mem = (u.writeBytes .other (u.saveBase (u.launch y.launch).asid + off) (u.teamImage y)).mem := by
  refine (State.mem_freeShare _ _).trans ((foldl_keeps State.mem (fun s h => s.mem_goAway _ h) _ _).trans ?_)
  exact foldl_keeps State.mem (fun s c => s.mem_dropCmd _ c) _ _

/-! ## What it leaves of the team -/

theorem State.awayTeam_of_saved {u : State} {y : Team} {off : Nat} {z : Team} (hz : z ∈ (u.saved y off).teams) (hid : z.id = y.id) :
    z.phase = .evicted ∧ z.image = off ∧ z.imageSize = (u.teamImage y).length ∧ z.away = u.teamPlaces y.id ∧
      z.awayCmds = u.teamCmds y.id ∧ z.awayXfers = u.xfers.filter (fun e => e.team == y.id) := by
  obtain ⟨x, -, rfl⟩ := List.mem_map.1 hz
  by_cases named : x.id = y.id
  · rw [if_pos named]
    exact Team.evictedTo_spec _ _ _ _ _ _
  · rw [if_neg named] at hid
    exact absurd hid named

theorem State.xfers_putHart (s : State) (h : Hart) : (s.putHart h).xfers = s.xfers := by rw [State.putHart_eq]

theorem State.xfers_freeShare (s : State) (y : Team) : (s.freeShare y).xfers = s.xfers := by
  unfold State.freeShare
  split_ifs <;> rfl

/-- The transfers of the team are in its image alone. -/
theorem State.xfers_saved {u : State} {y : Team} {off : Nat} {z : Xfer} (hz : z ∈ (u.saved y off).xfers) : z.team ≠ y.id := by
  have kept : (u.saved y off).xfers = (u.imageWritten y off).xfers :=
    (State.xfers_freeShare _ _).trans (foldl_keeps State.xfers (fun s h => State.xfers_putHart (s.rename _ _) _) _ _)
  rw [kept] at hz
  exact bne_iff_ne.1 (List.mem_filter.1 hz).2

/-! ## Vacant places -/

/-- The place from which a hart has gone away is vacant. -/
theorem State.run_putHart_fresh (s : State) (g : Nat) : ((s.putHart (Hart.fresh g)).hartOf g).run = .vacant := by
  by_cases hg : g = s.hart.gid
  · rw [State.putHart_focus s hg]
    exact congrArg Hart.run (State.hartOf_focus { s with hart := Hart.fresh g })
  · have put : s.putHart (Hart.fresh g) = { s with parked := fdel g s.parked } := (if_neg hg).trans (if_pos rfl)
    rw [put, State.hartOf, if_neg hg, fget_fdel, if_pos rfl]
    rfl

/-- A vacant place stays vacant as others go away. -/
theorem State.run_goAway (s : State) (t : Nat) (h : Hart) {g : Nat} (hg : g = h.gid ∨ (s.hartOf g).run = .vacant) :
    ((s.goAway t h).hartOf g).run = .vacant := by
  by_cases same : g = h.gid
  · rw [same]
    exact State.run_putHart_fresh _ _
  · have other : (s.goAway t h).hartOf g = s.hartOf g := State.hartOf_putHart_ne (s.rename _ _) (Hart.fresh h.gid) same
    rw [other]
    exact hg.resolve_left same

theorem State.run_foldl_goAway (t : Nat) (l : List Hart) (s : State) {g : Nat} (hg : (∃ h ∈ l, g = h.gid) ∨ (s.hartOf g).run = .vacant) :
    ((l.foldl (fun s h => s.goAway t h) s).hartOf g).run = .vacant := by
  induction l generalizing s with
  | nil => exact hg.resolve_left (by rintro ⟨h, hh, -⟩; exact absurd hh (List.not_mem_nil))
  | cons h r ih =>
    refine ih _ ?_
    rcases hg with ⟨k, hk, e⟩ | vacant
    · rcases List.mem_cons.1 hk with rfl | later
      · exact .inr (s.run_goAway t k (.inl e))
      · exact .inl ⟨k, later, e⟩
    · exact .inr (s.run_goAway t h (.inr vacant))

theorem State.hartOf_freeShare (s : State) (y : Team) (g : Nat) : (s.freeShare y).hartOf g = s.hartOf g := by
  unfold State.freeShare
  split_ifs <;> rfl

theorem State.run_saved (u : State) (y : Team) (off : Nat) {p : Hart} (hp : p ∈ u.teamPlaces y.id) :
    ((u.saved y off).hartOf p.gid).run = .vacant :=
  (congrArg Hart.run (State.hartOf_freeShare _ y _)).trans (State.run_foldl_goAway _ _ _ (.inl ⟨p, hp, rfl⟩))

/-- The share of the team waits for its scrub. -/
theorem State.scrub_saved (u : State) {y : Team} (off : Nat) (held : y.share.held = true) :
    y.share ∈ ((u.saved y off).core y.core).scrub := by
  have freed : (u.placesLeft y off).freeShare y = (u.placesLeft y off).modCore y.core (fun k => { k with scrub := k.scrub ++ [y.share] }) :=
    if_pos held
  have core : (u.saved y off).core y.core = ((u.placesLeft y off).freeShare y).core y.core := rfl
  rw [core, freed, State.core_modCore, if_pos rfl]
  exact List.mem_append_right _ (List.mem_singleton_self _)

/-! ## The save as a whole -/

theorem saves (s : State) (y : Team) : Claims.saves s y := by
  refine ⟨fun none => ?_, fun off room => ⟨(s.stoppedFor y).saved y off, ?_, State.mem_saved _ _ _, ?_, ?_, ?_, ?_, ?_⟩⟩
  · rw [State.saveTeam_eq]
    exact congrArg (Option.map _) none
  · rw [State.saveTeam_eq]
    exact congrArg (Option.map _) room
  · exact fun z => State.awayTeam_of_saved
  · exact fun z => State.xfers_saved
  · exact fun p => State.run_saved _ _ _
  · exact State.scrub_saved _ _
  · exact State.dwordOf_teamImage _ _

end Sys2Proof.Machine
end

section
/-! SUPPORT. The restore of an evicted team: its core, its arrays, and its divert (R165, R356, R366). -/
namespace Sys2Proof.Machine
open Sys2Proof.Safety

/-! ## The restored machine, part by part -/

/-- The harts of an evicted team that come back from records, in number order. -/
def Team.awayHarts (x : Team) : List Hart := byNum (x.away.filter (fun h => h.run.isHart))

/-- Where the lane registers of an image begin. -/
def Team.laneOffset (x : Team) : Nat := 4096 + 4096 * x.awayHarts.length

/-- Where the arrays of an image begin. -/
def Team.arrayOffset (x : Team) : Nat := x.laneOffset + pad4kSize ((x.awayHarts.map (fun h => 128 * h.lalloc)).foldl (· + ·) 0)

/-- A team as its restore leaves it. -/
def Team.restoredTo (x : Team) (core : Nat) (sh : Share) : Team :=
  { x with core := core, share := sh, phase := .running, away := [], awayCmds := [], awayXfers := [], imageSize := 0, forDivert := false }

/-- The team has its lane registers, its share and its ways on the core. -/
def State.teamPlaced (s : State) (x : Team) (core : Nat) (sh : Share) : State :=
  ((s.restoreGran core ((s.laneBase core x.awayRegs).getD 0) x.away).modTeam x.id (fun z => z.restoredTo core sh)).l1Convert core

/-- Its places are back. -/
def State.placesBack (s : State) (x : Team) (core : Nat) (sh : Share) (b : List Byte) : State :=
  ((s.teamPlaced x core sh).restoreHarts core b 4096 x.laneOffset x.awayHarts).restorePlaces core b
    (x.away.filter (fun h => !h.run.isHart))

/-- A requester of a restored team by its new place. -/
def Team.newGid (x : Team) (core g : Nat) : Nat := if x.away.any (fun h => h.gid == g) then movedPlace core g else g

/-- Its counts, its arrays, its transfers and its queries are back. -/
def State.teamBack (s : State) (x : Team) (core : Nat) (sh : Share) (b : List Byte) : State :=
  let u := (s.placesBack x core sh b).restoreCore x core sh b x.arrayOffset
  { u with
    xfers := u.xfers ++ (overXfers b (overCmds b (engineOffset x.awayHarts x.share) x.awayCmds).2 x.awayXfers).map (fun (e : Xfer) =>
      { e with gid := x.newGid core e.gid, cluster := coreCluster core, place := e.place.map (movedPlace core) })
    queries := u.queries.map (fun (q : Query) => if q.team = x.id then { q with place := q.place.map (movedPlace core) } else q) }

/-- Its commands are queued on the core. -/
def State.cmdsBack (s : State) (x : Team) (core : Nat) (b : List Byte) : State :=
  (s.modCore core (fun k =>
    { k with queue := k.queue ++ (overCmds b (engineOffset x.awayHarts x.share) x.awayCmds).1.map (fun (c : Cmd) =>
      { c with gid := x.newGid core c.gid, since := s.clock }) })).headsUp core

theorem State.restoreOn_eq (s : State) (x : Team) (core : Nat) (sh : Share) (b : List Byte) : s.restoreOn x core sh b =
    ((if x.forDivert then (s.teamBack x core sh b).divertTeam x.id 32 else s.teamBack x core sh b).cmdsBack x core b).l1Invalidate
      (coreCluster core) := rfl

/-! ## The team -/

theorem State.team_of_teams {s t : State} (h : t.teams = s.teams) (n : Nat) : t.team n = s.team n := by rw [State.team, State.team, h]

theorem State.find_team {s : State} {n : Nat} (live : (s.team n).phase ≠ .ended) :
    s.teams.find? (fun x => x.id == n) = some (s.team n) := by
  cases found : s.teams.find? (fun x => x.id == n) with
  | none =>
    have gone : s.team n = Team.none := congrArg (fun o => o.getD Team.none) found
    exact absurd (congrArg Team.phase gone) live
  | some x => exact congrArg some (congrArg (fun o => o.getD Team.none) found).symm

theorem State.id_team {s : State} {n : Nat} (live : (s.team n).phase ≠ .ended) : (s.team n).id = n :=
  beq_iff_eq.1 (List.find?_some (p := fun x : Team => x.id == n) (State.find_team live))

/-- A team that changes and keeps its number. -/
theorem State.team_modTeam {s : State} {n : Nat} {f : Team → Team} (hf : ∀ x : Team, (f x).id = x.id) (live : (s.team n).phase ≠ .ended) :
    (s.modTeam n f).team n = f (s.team n) := by
  have same : ((fun x : Team => x.id == n) ∘ fun x => if x.id = n then f x else x) = fun x => x.id == n := by
    funext x
    dsimp only [Function.comp_apply]
    split_ifs
    · rw [hf]
    · rfl
  rw [State.team, State.modTeam, List.find?_map, same, State.find_team live]
  exact if_pos (State.id_team live)

theorem State.teams_rename (s : State) (a b : Nat) : (s.rename a b).teams = s.teams := rfl

theorem State.teams_restoreGran (s : State) (core n : Nat) (l : List Hart) : (s.restoreGran core n l).teams = s.teams := by
  induction l generalizing s n with
  | nil => rfl
  | cons h r ih => exact ih _ _

theorem State.teams_restoreHarts (s : State) (core : Nat) (b : List Byte) (m n : Nat) (l : List Hart) :
    (s.restoreHarts core b m n l).teams = s.teams := by
  induction l generalizing s m n with
  | nil => rfl
  | cons h r ih => exact (ih _ _ _).trans ((State.teams_putHart _ _).trans (s.teams_rename _ _))

theorem State.teams_restorePlaces (s : State) (core : Nat) (b : List Byte) (l : List Hart) :
    (s.restorePlaces core b l).teams = s.teams := by
  induction l generalizing s with
  | nil => rfl
  | cons h r ih => exact (ih _).trans ((State.teams_putHart _ _).trans (s.teams_rename _ _))

theorem State.teams_teamBack (s : State) (x : Team) (core : Nat) (sh : Share) (b : List Byte) :
    (s.teamBack x core sh b).teams = (s.modTeam x.id (fun z => z.restoredTo core sh)).teams := by
  have back : (s.teamBack x core sh b).teams = (s.placesBack x core sh b).teams := rfl
  rw [back, State.placesBack, State.teams_restorePlaces, State.teams_restoreHarts]
  exact congrArg (List.map _) (s.teams_restoreGran _ _ _)

theorem State.team_teamBack {s : State} {n : Nat} (live : (s.team n).phase ≠ .ended) (core : Nat) (sh : Share) (b : List Byte) :
    (s.teamBack (s.team n) core sh b).team n = (s.team n).restoredTo core sh := by
  have teams := s.teams_teamBack (s.team n) core sh b
  rw [State.id_team live] at teams
  rw [State.team_of_teams teams]
  exact State.team_modTeam (fun _ => rfl) live

/-! ## What heads of the queue change -/

theorem State.teams_headWait (s : State) (core : Nat) (c : Cmd) : (s.headWait core c).teams = s.teams := by
  unfold State.headWait
  dsimp only
  split_ifs <;> rfl

theorem State.teams_cmdsBack (s : State) (x : Team) (core : Nat) (b : List Byte) : (s.cmdsBack x core b).teams = s.teams :=
  foldl_keeps State.teams (fun s c => s.teams_headWait core c) _ _

/-- The arrays of a core. -/
def Core.arrays (k : Core) : File Byte × File Byte × File Byte × File Byte := (k.shm, k.act, k.wgt, k.acc)

theorem State.arrays_modCore (s : State) (c d : Nat) {f : Core → Core} (hf : ∀ k, (f k).arrays = k.arrays) :
    ((s.modCore c f).core d).arrays = (s.core d).arrays := by
  rw [State.core_modCore]
  split_ifs with hd
  · rw [hf, hd]
  · rfl

theorem State.arrays_setPhase (s : State) (c uid : Nat) (p : CmdPhase) (d : Nat) :
    ((s.setPhase c uid p).core d).arrays = (s.core d).arrays := s.arrays_modCore c d fun _ => rfl

theorem State.arrays_setSem (s : State) (c j : Nat) (v : Sem) (d : Nat) :
    ((s.modCore c (fun k => k.setSem j v)).core d).arrays = (s.core d).arrays := s.arrays_modCore c d fun _ => rfl

theorem State.arrays_headWait (s : State) (core : Nat) (c : Cmd) (d : Nat) : ((s.headWait core c).core d).arrays = (s.core d).arrays := by
  unfold State.headWait
  dsimp only
  split_ifs
  · rw [State.arrays_setPhase]
  · rw [State.arrays_setPhase, State.arrays_setSem]
  · rw [State.arrays_setPhase, State.arrays_setSem]

theorem State.arrays_cmdsBack (s : State) (x : Team) (core : Nat) (b : List Byte) (d : Nat) :
    ((s.cmdsBack x core b).core d).arrays = (s.core d).arrays :=
  (foldl_keeps (fun s => (State.core s d).arrays) (fun s c => s.arrays_headWait core c d) _ _).trans
    (State.arrays_modCore _ _ _ fun _ => rfl)

/-! ## The arrays -/

/-- Bytes of an image that were put into an array. -/
theorem fget_of_putBytes_section {f g : File Byte} {base size off : Nat} {b : List Byte} (h : f = putBytes g base ((b.drop off).take size))
    (i : Nat) (hi : i < size) (inside : off + i < b.length) : fget 0 f (base + i) = b.getD (off + i) 0 := by
  rw [h, fget_putBytes, if_pos (by rw [List.length_take, List.length_drop]; omega), Nat.add_sub_cancel_left]
  simp only [List.getD_eq_getElem?_getD, List.getElem?_take, List.getElem?_drop, if_pos hi]

/-- Where the sections of an image with the arrays of a core begin. -/
def Team.actOffset (x : Team) : Nat := x.arrayOffset + pad4kSize x.share.shSize
def Team.wgtOffset (x : Team) : Nat := x.actOffset + pad4kSize x.share.actSize
def Team.accOffset (x : Team) : Nat := x.wgtOffset + pad4kSize x.share.wgtSize

theorem State.arrays_restoreCore (s : State) (x : Team) (core : Nat) (sh : Share) (b : List Byte) :
    ∃ k : Core, ((s.restoreCore x core sh b x.arrayOffset).core core).arrays =
      (putBytes k.shm sh.shBase ((b.drop x.arrayOffset).take sh.shSize), putBytes k.act sh.actBase ((b.drop x.actOffset).take sh.actSize),
        putBytes k.wgt sh.wgtBase ((b.drop x.wgtOffset).take sh.wgtSize), putBytes k.acc sh.accBase ((b.drop x.accOffset).take sh.accSize)) := by
  rw [State.restoreCore, State.core_modCore, if_pos rfl]
  exact ⟨_, rfl⟩

/-- The arrays of a restored team that is not diverted come from its image. -/
theorem State.arrays_restoreOn (s : State) (x : Team) (core : Nat) (sh : Share) (b : List Byte) (stays : x.forDivert = false) :
    ∃ k : Core, ((s.restoreOn x core sh b).core core).arrays =
      (putBytes k.shm sh.shBase ((b.drop x.arrayOffset).take sh.shSize), putBytes k.act sh.actBase ((b.drop x.actOffset).take sh.actSize),
        putBytes k.wgt sh.wgtBase ((b.drop x.wgtOffset).take sh.wgtSize), putBytes k.acc sh.accBase ((b.drop x.accOffset).take sh.accSize)) := by
  obtain ⟨k, arrays⟩ := State.arrays_restoreCore (s.placesBack x core sh b) x core sh b
  refine ⟨k, Eq.trans ?_ arrays⟩
  rw [State.restoreOn_eq, stays]
  exact State.arrays_cmdsBack (s.teamBack x core sh b) x core b core

/-- A restored team runs on its core with its share, and no divert waits for its restore. -/
theorem State.team_restoreOn {s : State} {n : Nat} (live : (s.team n).phase ≠ .ended) (core : Nat) (sh : Share) (b : List Byte) :
    let z := (s.restoreOn (s.team n) core sh b).team n
    z.phase = .running ∧ z.core = core ∧ z.share = sh ∧ z.forDivert = false := by
  intro z
  have back := State.team_teamBack live core sh b
  have on : (s.teamBack (s.team n) core sh b).TeamsRunOn (s.restoreOn (s.team n) core sh b) := by
    rw [State.restoreOn_eq]
    refine State.TeamsRunOn.trans ?_ (.of_teams (State.teams_cmdsBack _ _ core b))
    split_ifs
    · exact State.teamsRunOn_divertTeam _ _ _
    · exact .of_teams rfl
  have run := on.team n
  rw [back] at run
  exact ⟨run.running rfl, run.core_eq, run.share_eq, Bool.eq_false_iff.2 fun due => absurd (run.divert due) nofun⟩

/-! ## The event -/

/-- The image of a team, and the machine after it has been read. -/
def State.readImage (s : State) (x : Team) : List Byte × State :=
  s.readBytes (s.saveBase (s.launch x.launch).asid + x.image) x.imageSize

/-- Reading an image changes no team. -/
theorem State.teams_readImage (s : State) (x : Team) : (s.readImage x).2.teams = s.teams :=
  State.teams_of_tables (s.tables_readyLines _ _)

theorem exec_teamRestore (s : State) : exec .teamRestore s =
    if (s.team s.sel).phase != .evicted || (s.team s.sel).killed || (!(s.team s.sel).forDivert && s.divertWaits) then .next s
    else match (s.restoreCores (s.team s.sel))[s.freeNat 1700 % max (s.restoreCores (s.team s.sel)).length 1]? with
      | none => .next s
      | some (c, sh) => .next ((s.readImage (s.team s.sel)).2.restoreOn (s.team s.sel) c sh (s.readImage (s.team s.sel)).1) := rfl

section
variable {s : State}

/-- Where nothing is to be restored, or no core can take the team, or another goes ahead, nothing changes. -/
theorem teamRestore_idle (h : (s.team s.sel).phase ≠ .evicted ∨ (s.team s.sel).killed = true ∨
    ((s.team s.sel).forDivert = false ∧ s.divertWaits = true) ∨ s.restoreCores (s.team s.sel) = []) :
    Gives .teamRestore s (fun t => t = s) := by
  refine ⟨s, ?_, rfl⟩
  rw [exec_teamRestore]
  rcases h with out | killed | ⟨later, first⟩ | full
  · rw [if_pos (by simp [out])]
  · rw [if_pos (by simp [killed])]
  · rw [if_pos (by simp [later, first])]
  · rw [full]
    split_ifs <;> rfl

/-- An evicted team resumes on one of the cores that can take it. -/
theorem exec_teamRestore_taken (evicted : (s.team s.sel).phase = .evicted) (alive : (s.team s.sel).killed = false)
    (first : (s.team s.sel).forDivert = true ∨ s.divertWaits = false) (free : s.restoreCores (s.team s.sel) ≠ []) :
    ∃ p ∈ s.restoreCores (s.team s.sel), exec .teamRestore s =
      .next ((s.readImage (s.team s.sel)).2.restoreOn (s.team s.sel) p.1 p.2 (s.readImage (s.team s.sel)).1) := by
  have length := List.length_pos_iff.2 free
  have inside : s.freeNat 1700 % max (s.restoreCores (s.team s.sel)).length 1 < (s.restoreCores (s.team s.sel)).length := by
    rw [Nat.max_eq_left length]
    exact Nat.mod_lt _ length
  refine ⟨_, List.getElem_mem inside, ?_⟩
  have goes : ¬((s.team s.sel).phase != .evicted || (s.team s.sel).killed || (!(s.team s.sel).forDivert && s.divertWaits)) = true := by
    rcases first with due | quiet
    · simp [evicted, alive, due]
    · simp [evicted, alive, quiet]
  rw [exec_teamRestore, if_neg goes, List.getElem?_eq_getElem inside]

end

/-- Settles O50: teams that run on keep their phase through every divert, a save leaves its places vacant and its share to be scrubbed, a
restore puts the sections of the image back, and a record holds each register at its own doubleword. -/
theorem preemptionAndRestore : Obligations.PreemptionAndRestore := by
  unfold Obligations.PreemptionAndRestore
  intro clk b g k y s v x set l cores lanes shm act wgt acc back
  refine ⟨State.evictable_spec, State.mem_evictSet_of_coRes, State.evictSet_of_not_coRes, s.allStopped_iff x, preEmption_stops,
    preEmption_refused, fun evicting => ⟨preEmption_waits evicting, fun stopped => ⟨fun t saved => ⟨t, ?save, rfl⟩,
    preEmption_runsOn evicting stopped⟩⟩, fun r => ⟨rfl, rfl⟩, saves s y,
    fun running evicting => ⟨s, exec_preEmption_other running evicting, rfl⟩,
    teamRestore_idle, fun evicted alive first free read => ?restore, fun due => if_pos due, recordGivesBack s g k clk⟩
  case save =>
    exact (exec_preEmption_stopped evicting stopped).trans (congrArg (fun o : Option State => Host.Outcome.next (o.getD _)) saved)
  case restore =>
    obtain ⟨p, hp, runs⟩ := exec_teamRestore_taken evicted alive first free
    have image : s.readImage x = (b, v) := read
    have teams := s.teams_readImage x
    rw [image] at runs teams
    have team : v.team s.sel = x := State.team_of_teams teams s.sel
    have live : (v.team s.sel).phase ≠ .ended := by rw [team, evicted]; exact nofun
    obtain ⟨running, core, share, quiet⟩ := State.team_restoreOn live p.1 p.2 b
    rw [team] at running core share quiet
    refine ⟨_, runs, p, hp, rfl, running, core, share, quiet, fun stays => ?_⟩
    obtain ⟨k, arrays⟩ := v.arrays_restoreOn x p.1 p.2 b stays
    obtain ⟨hshm, rest⟩ := Prod.mk.inj arrays
    obtain ⟨hact, rest⟩ := Prod.mk.inj rest
    obtain ⟨hwgt, hacc⟩ := Prod.mk.inj rest
    exact ⟨fget_of_putBytes_section hshm, fget_of_putBytes_section hact, fget_of_putBytes_section hwgt, fget_of_putBytes_section hacc⟩

end Sys2Proof.Machine
end
